-- ==== Sys2Proof/Word.lean ====
section
/-! DEFINITION. The word types of the WZ5-1024 block: bytes, register words, tick numbers and the
sparse maps that the State is built from. -/

namespace Sys2Proof

/-- One byte of a frame, an image or of HBM. -/
abbrev Byte := BitVec 8

/-- A frame, an image or a payload, byte 0 first (R5). -/
abbrev Bytes := List Byte

/-- A 32-bit register word. -/
abbrev Word := BitVec 32

/-- A 64-bit register. -/
abbrev Word64 := BitVec 64

/-- A tick number, 48 bits (R6). -/
abbrev TickNo := BitVec 48

/-- A sparse map from a number (a register address, a port, a position) to a value. -/
abbrev Map (α : Type) := List (Nat × α)

end Sys2Proof
end

