-- ==== Sys2Proof/Operand.lean ====
section
/-! DEFINITION. The operand types of the commands: numbers of ports, lanes, cores and engines (R17),
the envelope of a management request (R288, R289), bodies of R292, R294 and R110, and the
facts of the outside world that an event carries. -/

namespace Sys2Proof

/-- A port number, 0 to 1,023 (R18). -/
abbrev PortNo := Fin 1024
/-- A fabric die, 0 to 3 (R17). -/
abbrev DieNo := Fin 4
/-- A virtual channel, 0 to 3. -/
abbrev VcNo := Fin 4
/-- A logical lane: 0 to 2,047 fabric, 2,048 to 2,063 twin (R145). -/
abbrev LaneNo := Fin 2064
/-- An FC cycle within the present tick; 640 is the last a steered tick may need (R404). -/
abbrev FcCycle := Fin 641
/-- A collective context, 0 to 255. -/
abbrev CtxNo := Fin 256
/-- A collective core, or the Update Unit of that core, 0 to 31 (R17). -/
abbrev CoreNo := Fin 32
/-- A reduction engine, 0 to 127 (R17). -/
abbrev EngineNo := Fin 128
/-- An HBM4E stack, 0 to 7 (R16). -/
abbrev StackNo := Fin 8

/-- The two management ports (R286). -/
inductive MPort where
  | m0 | m1
  deriving DecidableEq, Repr

/-- What carries an HCP frame to the port and its reply back (R287). -/
inductive Transport where
  /-- The frame follows the Ethernet header under this EtherType. -/
  | raw (ethertype : BitVec 16)
  /-- The frame is the payload of a UDP datagram to this port. -/
  | udp (port : BitVec 16)
  deriving DecidableEq, Repr

/-- The envelope of one management request: the header fields of R288 (HCP 2) or R289 (HCP 1), the
MAC that follows the body, and the port and transport on which it came. -/
structure Req where
  /-- Port of arrival. -/
  port : MPort
  /-- Transport of arrival (R287). -/
  via : Transport
  /-- VERSION is 1 (HCP 1), else 2. -/
  hcp1 : Bool
  /-- Header bits 8:0. -/
  tag : BitVec 9
  /-- SESSION of HCP 2; 0 for none. -/
  session : BitVec 32
  /-- SEQ of HCP 2. -/
  seq : BitVec 64
  /-- FLAGS bit 0 (R301). -/
  retry : Bool
  /-- The 16 bytes after the body when SESSION is not 0. -/
  mac : Bytes
  /-- The access meets one from the other port on the same register in the same FC cycle (R300). -/
  sameCycle : Bool
  deriving DecidableEq, Repr

/-- A register access of R292. -/
structure Access where
  /-- HCP address (R309). -/
  addr : BitVec 32
  /-- WIDTH: 1 for 32 bits, 2 for 64 bits; other codes are refused. -/
  width : Byte
  deriving DecidableEq, Repr

/-- One segment of a long image (R294). -/
structure Segment where
  transfer : BitVec 16
  target : Byte
  totalLen : BitVec 32
  offset : BitVec 32
  /-- SEG_LEN as the header gives it. -/
  segLen : BitVec 16
  /-- The bytes of the image that follow the header. -/
  data : Bytes
  deriving DecidableEq, Repr

/-- The part of a TABLE_CMD block that its operation leaves free (R110). -/
structure TblBlock where
  flags : Byte
  argLen : BitVec 16
  gen : BitVec 32
  index : BitVec 32
  args : Bytes
  deriving DecidableEq, Repr

/-- The five forwarding tables of R105. -/
inductive TblKind where
  | lpm | nh | mc | mac | vlan
  deriving DecidableEq, Repr

/-- The four shapers and the ingress policer of a port (R130). -/
inductive BucketNo where
  | vc0 | vc1 | vc3 | port | police
  deriving DecidableEq, Repr

/-- Whom an open transfer belongs to (R295). -/
inductive XferOwner where
  | session (id : BitVec 32)
  | port (m : MPort) (hcp1 : Bool)
  deriving DecidableEq, Repr

/-- What a register access that its string does not acknowledge was (R303). -/
inductive StringOp where
  | read
  | write (v : Word64)
  | rmw (mask v : Word64)
  deriving DecidableEq, Repr

/-- A resequencer flow (R96): the arrival port (or 1,024 + n for packets that core n originates), the
output port or, for multicast, the destination die, and the VC. -/
structure FlowKey where
  src : Nat
  multicast : Bool
  dest : Nat
  vc : Nat
  deriving DecidableEq, Repr

/-- A ring of the photonic base layer (R162, R166). -/
inductive Ring where
  /-- The transmit ring of an external carrier. -/
  | tx (fiber : Fin 290) (wave : Fin 9)
  /-- The receive ring of an external carrier. -/
  | rx (fiber : Fin 290) (wave : Fin 9)
  /-- A transmit ring of one of the two modulator branches of a die-to-die lane. -/
  | dtdTx (die : DieNo) (lane : Fin 512) (branch : Bool)
  /-- The receive ring of a die-to-die lane at receiving die `at`. -/
  | dtdRx (die : DieNo) (lane : Fin 512) (dest : DieNo)
  deriving DecidableEq, Repr

/-- The port a PTP message passes: M0, M1 or a fabric or Ethernet port (R41). -/
inductive PtpVia where
  | mgmt (m : MPort)
  | port (p : PortNo)
  deriving DecidableEq, Repr

/-- A PTP message the boundary clock sends of its own accord (R41). -/
inductive PtpKind where
  | sync | followUp | announce | delayReq
  deriving DecidableEq, Repr

/-- What the array did to one tile (R231, R232, R236): no fault, or one latch of one column group that
ends off by `delta` units of 2^-298; column 128 is the checksum column. -/
inductive TileFault where
  | none
  | latch (group column : Nat) (delta : Int)
  deriving DecidableEq, Repr

/-- What the residue and SECDED checks saw in one invocation (R265). -/
inductive UuFault where
  | none
  /-- `n` single-bit errors, all corrected. -/
  | corrected (n : Nat)
  /-- A residue mismatch or an uncorrectable error. -/
  | error
  deriving DecidableEq, Repr

/-- What a BIST pass of an engine finds (R236): faulty physical rows, and the first fault outside the rows. -/
structure BistFound where
  rows : List (Fin 17)
  column : Bool
  feeder : Bool
  accum : Bool
  deriving DecidableEq, Repr

/-- Who reads the HBM word that cannot be corrected (R281). -/
inductive UeUse where
  /-- A Update Unit's LD of a state plane. -/
  | load (uu : CoreNo)
  /-- The twin attach copy. -/
  | copy
  /-- A refill of spilled cells of this die. -/
  | cells (die : DieNo)
  /-- The refill of a spilled slot. -/
  | slot (desc : Nat)
  /-- A retained result of a chunk. -/
  | retained (ctx : CtxNo) (chunk : Nat)
  /-- A record or backup in META. -/
  | record
  /-- The DUMP region. -/
  | dump
  deriving DecidableEq, Repr

/-- What the patrol scrub finds in one word (R282). -/
inductive ScrubFound where
  | clean
  /-- A correctable error; `rewritten` tells that a store came between the read and the write-back. -/
  | corrected (rewritten : Bool)
  | uncorrectable
  deriving DecidableEq, Repr

/-- The fatal causes 0x0001 to 0x0007 of R367 (R374). -/
inductive FatalCause where
  | fwAssert | watchdogRepeat | cdSramUe | stringLost | clockLoss | hbmHung | supply
  deriving DecidableEq, Repr

/-- The supply rails the always-on domain monitors (R398, R399). -/
inductive Rail where
  | vddFd | vddSram | vddCd | hbm | vddPho | vddIo
  deriving DecidableEq, Repr

/-- The reference clocks of R402. -/
inductive RefClk where
  | sysclk
  | laneclk (die : DieNo)
  | mclk
  | aonclk
  deriving DecidableEq, Repr

end Sys2Proof
end

