-- ==== Sys2Proof/Syntax.lean ====
section
/-! DEFINITION. The commands of the block: one constructor per row of the table of operations and events,
in the table's order, with the facts each one carries. -/

namespace Sys2Proof

/-- A command that the outside world hands the block (one row of the operation table). -/
inductive Instr where
  /-- COLD_RESET (R406): PORST_N held low for 25 AONCLK samples starts a cold reset of the whole chip; the straps are sampled when it is released. -/
  | coldReset (samples : Nat) (straps : BitVec 3) (hottest : Int) (vddIo : Bool)
  /-- STAGE_A_REACHED (R324): The boot ROM runs, fuses are read, the identity key is derived and M0 and M1 serve HCP under Stage A. -/
  | stageAReached (minTemp : Int)
  /-- FIRMWARE_VERIFY (R329): The boot ROM reads both flash slots, checks them in order and boots the best valid image, or stays in Stage A. -/
  | firmwareVerify (slotA slotB : Bytes)
  /-- STAGE_B_REACHED (R324): Firmware runs on MC0 to MC3, home carriers lock, ETHERNET ports bridge from SRAM and MAC and VLAN commands are accepted. -/
  | stageBReached
  /-- STAGE_C_REACHED (R324): With HBM trained and the tick aligned, tables, calendars, HBM overflow and spare carriers come into use. -/
  | stageCReached (trainFail : List (StackNo × Fin 32))
  /-- STAGE_D_REACHED (R324): Every engine and Update Unit is ungated and tested, after which contexts, PROG_LOAD and twin pairing are served. -/
  | stageDReached (engFound : List (EngineNo × BistFound)) (uuFail : List CoreNo)
  /-- WARM_RESET (R373): A write of GLB.CTRL.WARM_RESET, from an ADMIN HCP 2 session only, starts a warm reset 1 µs after the reply, keeping META, DUMP, fuses and field repairs. -/
  | warmReset (q : Req)
  /-- TICK_MARKER_RX (R35): A follower takes up a valid tick marker from an upstream port and steers its phase and count to it. -/
  | tickMarkerRx (port : PortNo) (pod : BitVec 16) (count : TickNo) (err : Int)
  /-- UPSTREAM_MARKER_TIMEOUT (R37): An upstream that has delivered no valid marker for 8 ticks stops delivering; with no upstream left an aligned follower enters holdover. -/
  | upstreamMarkerTimeout (idx : Fin 4)
  /-- HOLDOVER_EXPIRY (R38): When TICK.HOLDOVER ticks pass without a valid marker the follower loses alignment, raises FAULT and suspends its calendars. -/
  | holdoverExpiry
  /-- TICK_ROLE_WRITE (R34): A write of TICK.CTRL.ROLE makes the chip master or follower; an unaligned new master restarts its count at 0, with the count-change effects. -/
  | tickRoleWrite (q : Req) (v : Word)
  /-- ECHO_LOST (R80): A request with no response within 8 blocks is abandoned and counted in TICK.ECHO_LOST. -/
  | echoLost (id : BitVec 16)
  /-- PTP_MESSAGE_RX (R41): A PTP message is handled by the boundary clock under the delay request-response profile. -/
  | ptpMessageRx (via : PtpVia) (msg : Bytes) (rxTime : Nat)
  /-- CAL_LOAD (R295): A CAL_LOAD segment is stored in its transfer; the segment that completes the image starts the image checks of R52. -/
  | calLoad (q : Req) (seg : Segment)
  /-- CAL_INSTALL_COMPLETE (R53): Installation completes: ports 6 to 9 are judged, accepted sections are written and armed for all ports in one FC cycle, and the reply is sent. -/
  | calInstallComplete
  /-- CAL_ARMED_LATCH (R58): At EPOCH_TICK − 1 each die latches the set of armed ports. -/
  | calArmedLatch
  /-- EPOCH_SWITCH (R58): At EPOCH_TICK each armed port swaps its active and shadow calendars, updates ACTIVE_GEN and the owner map and sets SWITCHED. -/
  | epochSwitch
  /-- CAL_DISARM (R57): CAL.CTRL.DISARM clears a port's armed shadow and any Kite event touching only disarmed ports, and is refused from EPOCH_TICK − 2. -/
  | calDisarm (q : Req) (port : PortNo)
  /-- CAL_RESUME (R39): CAL.CTRL.RESUME accepts a STALE port's active calendar and lifts its suspension at the next tick boundary. -/
  | calResume (q : Req) (port : PortNo)
  /-- CAL_ENTRY_REWRITE (R351): A calendar entry with an uncorrectable error is rewritten from the image staged in META within 10 µs. -/
  | calEntryRewrite (port : PortNo) (shadow : Bool) (idx : BitVec 13)
  /-- KITE_PREPARE (R170): At KITE_TICK − 1 egress starts no packet that would end after KITE_TICK on entering fibers, and fibers carried by spare fibers are dropped from the event. -/
  | kitePrepare
  /-- KITE_SWITCH (R170): At KITE_TICK ports on entering fibers go to KITE, their queued packets are discarded and the crossbar paths start to change. -/
  | kiteSwitch
  /-- KITE_SETTLED (R170): At KITE_TICK + 49 MC1 reads the crossbar monitors and KITE.MAP takes the new map. -/
  | kiteSettled
  /-- KITE_CIRCUIT_LIT (R170): At KITE_TICK + 50 circuits carry light and returning fibers resume blocks on their home carriers. -/
  | kiteCircuitLit
  /-- KITE_RELEASE (R172): KITE.CTRL.RELEASE returns every fiber to chip state from the next tick and disarms pending Kite events; it is refused with BUSY in LULL. -/
  | kiteRelease (q : Req)
  /-- KITE_MONITOR_SAMPLE (R171): Every 25 ticks MC1 samples the circuit monitors, and a circuit whose input is dark for 1 µs sets DARK_CIRCUIT with a record. -/
  | kiteMonitorSample (powIn powOut : List Int)
  /-- GRANTED_SUBSLOT (R32): At a sub-slot with a valid grant the transmitter sends packets of the granted source port and VC, oldest first, that fit the usable window. -/
  | grantedSubslot (port : PortNo) (sub : Fin 4)
  /-- LEFTOVER_OPPORTUNITY (R129): At a leftover opportunity the egress picks the VC2 candidate within its policer, or runs DWRR over VC0, VC1 and VC3 under shapers and fit. -/
  | leftoverOpportunity (port : PortNo) (fc : FcCycle)
  /-- WAIT_LIMIT_EXPIRY (R46): A scheduled packet with no grant within CAL.WAIT_LIMIT sub-slots becomes eligible for leftover capacity. -/
  | waitLimitExpiry (port : PortNo) (pkt : Nat) (sub : Fin 4)
  /-- LANE_TAG_BLOCK_TX (R31): Every 16th sub-slot each FABRIC lane sends a lane-tag block in the guard, carrying a tick marker and maintenance report where due. -/
  | laneTagBlockTx (port : PortNo)
  /-- LANE_TAG_BLOCK_RX (R79): A receiver takes up a block that passes its checks, records it in TAG_SEEN and acts on its marker, echo and maintenance report. -/
  | laneTagBlockRx (fiber : Fin 290) (wave : Fin 9) (block : Bytes) (power : Int) (phase : Int) (rxPs : Nat)
  /-- CARRIER_NO_LIGHT (R149): Received power below −20.0 dBm for 1 µs makes the receiver report NO_LIGHT with MOVE_LANE or MOVE_FIBER. -/
  | carrierNoLight (fiber : Fin 290) (wave : Fin 9) (power : Int)
  /-- LANE_MOVE_EFFECT (R151): At the next block time the lane moves to its new carrier, or is withdrawn, and the receiver follows the block that names it. -/
  | laneMoveEffect (lane : LaneNo)
  /-- MOVE_REQUEST_TIMEOUT (R151): A MOVE the far end has not acted on after 8 blocks takes the lane out of service at the receiver. -/
  | moveRequestTimeout (lane : LaneNo)
  /-- FEED_EVENT (R157): A lit feed falling 6 dB below calibration for 1 µs moves the selector to split, raises the survivor to maximum and sets SINGLE_FEED. -/
  | feedEvent (pair : Fin 288) (feedB : Bool)
  /-- ELS_RESTORE (R158): ELS.CTRL.RESTORE returns a module to dual feed in five ordered steps, once every consumer is drained. -/
  | elsRestore (q : Req) (module : Fin 32)
  /-- ELS_MODULE_REMOVED (R419): A module pulled from its cage is handled as the loss of both its outputs. -/
  | elsModuleRemoved (module : Fin 32)
  /-- ELS_MODULE_INSERTED (R419): An inserted module is read over CMIS and held at eye-safe idle until RESTORE. -/
  | elsModuleInserted (module : Fin 32) (suitable : Bool)
  /-- BIAS_UPDATE (R159): Every 25,000 ticks MC1 raises or lowers each module output setpoint from far-end margins and sets EOL at maximum. -/
  | biasUpdate (margins : List Int)
  /-- RING_SWEEP_END (R162): A sweep ends by finding its target and entering CAPTURE, or fails and sweeps again or goes to FAIL after the third attempt. -/
  | ringSweepEnd (ring : Ring) (found : Bool)
  /-- RING_CAPTURE_END (R162): Capture ends LOCKED when the loop error holds within ±10 GHz for 10 µs, or returns to SWEEP or FAIL after 15 µs. -/
  | ringCaptureEnd (ring : Ring) (held : Bool)
  /-- RING_LOOP_ERROR (R162): A locked ring whose loop error exceeds ±150 GHz re-sweeps, and a receive ring whose far-end light is absent goes to HOLD. -/
  | ringLoopError (ring : Ring) (errMHz : Int) (light : Bool)
  /-- RING_FAIL_RETRY (R162): A ring in FAIL sweeps again every 25,000 ticks. -/
  | ringFailRetry (ring : Ring)
  /-- RESWEEP (R162): LANE.CTRL.RESWEEP_A or RESWEEP_B re-sweeps both rings of the lane. -/
  | resweep (q : Req) (lane : LaneNo)
  /-- ETH_MARKER_MISMATCH (R165): Two marker periods of wrong PCS markers or failed deskew on an ETHERNET or WZ4 lane re-sweep its ring and take the port down. -/
  | ethMarkerMismatch (lane : LaneNo)
  /-- LOSS_SEGMENT_CHECK (R167): Every 25,000 ticks, and when a lane leaves service, MC1 names the first optical segment whose loss exceeds calibration by 1.5 dB. -/
  | lossSegmentCheck (die : DieNo) (lane : Fin 512) (losses : List Int)
  /-- HEADER_TAKEN (R81): An ingress pipeline takes a packet header and checks, sorts, looks up and queues the packet. -/
  | headerTaken (port : PortNo) (fc : FcCycle) (fec : Bool) (frame : Bytes) (tblErr : Option TblKind)
  /-- PACKET_TRAILER_RX (R74): The trailer CRC-32C is checked at the last byte, and a failing packet is discarded or stomped and counted as stomped or corrupted. -/
  | packetTrailerRx (port : PortNo) (fc : FcCycle)
  /-- ETH_FRAME_END (R63): An Ethernet frame that is too short, too long or has a bad FCS is discarded at its end and counted. -/
  | ethFrameEnd (port : PortNo) (fc : FcCycle)
  /-- CREDIT_BLOCK_RX (R91): A received credit block updates the sender's available credit on its VC from the cumulative count. -/
  | creditBlockRx (port : PortNo) (block : Bytes)
  /-- CREDIT_BLOCK_TX (R91): A receiver with credits to return sends a credit block at least every 64 ns. -/
  | creditBlockTx (port : PortNo) (vc : VcNo)
  /-- KEEPALIVE_TX (R354): A FABRIC or WZ4 port that has sent nothing for 500 ns sends a keepalive block. -/
  | keepaliveTx (port : PortNo) (fc : FcCycle)
  /-- CELL_TIME_MATCH (R89): Each 8 ns cell time the central scheduler runs three request, grant and accept iterations, moves its pointers and assigns lanes. -/
  | cellTimeMatch (die : DieNo) (fc : FcCycle)
  /-- CELL_RX (R97): A cell arriving at its output die is checked against CELL_CRC and released, held or discarded by the resequencer. -/
  | cellRx (die : DieNo) (pos : Nat) (corrupt : Bool) (fc : FcCycle)
  /-- RESEQ_TIMEOUT (R99): A resequencer gap aged 4 µs is skipped and counted in RESEQ_TIMEOUT. -/
  | reseqTimeout (flow : FlowKey) (fc : FcCycle)
  /-- DTD_CREDIT_RETURN (R92): A die-to-die credit returns over the PBL within 40 ns of its cell leaving EGRESS and counts from the next cell time. -/
  | dtdCreditReturn (port : PortNo) (vc : VcNo) (src : DieNo)
  /-- PKT_SPILL (R94): The youngest cells of a credited queue over 75% of credit, or of SHARED, are moved to PKT_OVF within the bandwidth cap. -/
  | pktSpill (die : DieNo)
  /-- PKT_REFILL (R94): A VOQ with fewer than 64 cells in SRAM has its spilled cells fetched back in order. -/
  | pktRefill (die : DieNo)
  /-- CUT_THROUGH_START (R102): A cut-through packet starts once the egress holds its first 1,920 bytes in order. -/
  | cutThroughStart (port : PortNo) (fc : FcCycle)
  /-- CUT_THROUGH_TRUNCATE (R102): A cut-through transmission whose next cell is missing ends at once with the complemented CRC and is counted in TX_CT_TRUNC. -/
  | cutThroughTruncate (port : PortNo) (fc : FcCycle)
  /-- LPM_INSERT (R114): TABLE_CMD LPM_INSERT places an entry by rank and shifts the entries below it. -/
  | lpmInsert (q : Req) (b : TblBlock)
  /-- LPM_DELETE (R115): TABLE_CMD LPM_DELETE removes an entry with equal key and masks and shifts the entries below it up. -/
  | lpmDelete (q : Req) (b : TblBlock)
  /-- LPM_MODIFY (R110): TABLE_CMD LPM_MODIFY changes the NH_GROUP of an entry with equal key and masks, without shifting. -/
  | lpmModify (q : Req) (b : TblBlock)
  /-- LPM_READ (R110): TABLE_CMD LPM_READ returns the entry at a position. -/
  | lpmRead (q : Req) (b : TblBlock)
  /-- LPM_SHIFT_DONE (R115): The hardware shift of an insert or delete completes and the reply is sent. -/
  | lpmShiftDone
  /-- NH_WRITE (R116): TABLE_CMD NH_WRITE writes a next-hop group record. -/
  | nhWrite (q : Req) (b : TblBlock)
  /-- NH_READ (R116): TABLE_CMD NH_READ returns a next-hop group record. -/
  | nhRead (q : Req) (b : TblBlock)
  /-- MC_WRITE (R117): TABLE_CMD MC_WRITE writes a multicast group bitmap, refused for a result group of an enabled context. -/
  | mcWrite (q : Req) (b : TblBlock)
  /-- MC_READ (R117): TABLE_CMD MC_READ returns a multicast group bitmap. -/
  | mcRead (q : Req) (b : TblBlock)
  /-- MAC_INSERT (R126): TABLE_CMD MAC_INSERT writes a static or dynamic MAC entry. -/
  | macInsert (q : Req) (b : TblBlock)
  /-- MAC_DELETE (R126): TABLE_CMD MAC_DELETE removes the entry of a key, whatever its kind. -/
  | macDelete (q : Req) (b : TblBlock)
  /-- SEARCH (R127): TABLE_CMD SEARCH returns the MAC entry of a key and its position. -/
  | search (q : Req) (b : TblBlock)
  /-- NEXT (R127): TABLE_CMD NEXT scans up to 4,096 MAC positions from a cursor and returns up to 16 matching entries. -/
  | macNext (q : Req) (b : TblBlock)
  /-- FLUSH_BY_PORT (R128): TABLE_CMD FLUSH_BY_PORT starts a sweep that removes the MAC entries matching the filter. -/
  | flushByPort (q : Req) (b : TblBlock)
  /-- FLUSH_SWEEP_DONE (R128): The flush sweep completes and the reply with the count removed is sent. -/
  | flushSweepDone
  /-- VLAN_WRITE (R118): TABLE_CMD VLAN_WRITE writes the VLAN entry of a VID. -/
  | vlanWrite (q : Req) (b : TblBlock)
  /-- VLAN_READ (R118): TABLE_CMD VLAN_READ returns the VLAN entry of a VID. -/
  | vlanRead (q : Req) (b : TblBlock)
  /-- LEARN_RELAY_APPLY (R124): The learn relay applies a queued learn or MAC command to all four replicas in its order. -/
  | learnRelayApply
  /-- MAC_AGE_SWEEP (R125): Every MAC_AGE_PERIOD ticks the relay removes dynamic entries with no hit bit and clears the others. -/
  | macAgeSweep
  /-- TABLE_ENTRY_REWRITE (R108): MC0 rewrites a table entry that gave an uncorrectable error, from its META backup or another die's replica, within 10 µs. -/
  | tableEntryRewrite (die : DieNo) (kind : TblKind) (pos : Nat)
  /-- SHAPER_CFG_WRITE (R132): A write of a shaper or policer RATE, BURST or ENABLE changes the gain, clips the count or fills the bucket from that cycle. -/
  | shaperCfgWrite (q : Req) (port : PortNo) (bucket : BucketNo) (rate : Bool) (v : Word)
  /-- WINDSOCK_SAMPLE (R140): Every WS_PERIOD ticks the Windsock samples every queue and appends trace records for the traced queues. -/
  | windsockSample
  /-- CTX_ENABLE (R178): CTX.CTRL.ENABLE is judged by the enable checks, and an accepted enable starts completing. -/
  | ctxEnable (q : Req) (ctx : CtxNo)
  /-- CTX_ENABLE_COMPLETE (R179): The enable completes: counters clear, placement and result groups are written, the state goes ACTIVE and the reply is sent. -/
  | ctxEnableComplete (ctx : CtxNo)
  /-- TWIN_CTX_ACCEPT_TIMEOUT (R342): With no CTX_ACCEPT from the partner within 2,500 ticks, enable check 8 fails. -/
  | twinCtxAcceptTimeout (ctx : CtxNo)
  /-- CTX_DISABLE (R180): CTX.CTRL.DISABLE is accepted, and the context enters LULL at the next tick boundary. -/
  | ctxDisable (q : Req) (ctx : CtxNo)
  /-- CTX_LULL_BEGIN (R180): At the tick boundary after DISABLE the context reads LULL, and open chunks without a complete mask are aborted with CONTEXT_DISABLED. -/
  | ctxLullBegin (ctx : CtxNo)
  /-- CTX_LULL_DRAINED (R180): When no chunk of the context remains anywhere the context goes IDLE, releases slots and REPLAY space and sets IDLE_REACHED. -/
  | ctxLullDrained (ctx : CtxNo)
  /-- CTX_STATE_FREE (R244): CTX.CTRL.STATE_FREE frees the context's state planes, and the partner's mirror blocks, while IDLE. -/
  | ctxStateFree (q : Req) (ctx : CtxNo)
  /-- CTX_RESET (R370): CTX.CTRL.RESET, or a Doldrums auto reset, puts the context in LULL and starts a snapshot with cause CONTEXT_RESET. -/
  | ctxReset (q : Req) (ctx : CtxNo)
  /-- CTX_RESET_ABORTS (R370): When the snapshot completes, unbegun chunks abort with CONTEXT_RESET and queued contributions are discarded. -/
  | ctxResetAborts (ctx : CtxNo)
  /-- CONTRIB_CELL_RX (R189): A CONTRIB cell at the owning core is judged by the step rule, opens a slot if needed, is written at its offset and may complete the mask. -/
  | contribCellRx (die : DieNo) (pos : Nat) (corrupt : Bool) (fc : FcCycle)
  /-- SLOT_REFILL (R188): A complete SPILLED slot is refilled from GATHER_OVF into gather pages before it can issue. -/
  | slotRefill (desc : Nat)
  /-- SLOT_DEADLINE (R199): At an open slot's deadline an incomplete slot is aborted, misses are counted and an ABORT is sent. -/
  | slotDeadline (desc : Nat)
  /-- TILE_ISSUE (R194): At a tick boundary a READY chunk's tiles issue when staging, step order and engines allow. -/
  | tileIssue (core : CoreNo)
  /-- TILE_COMPLETE (R232): A tile's column groups are checksum-compared and rounded; a pass writes staging and a failure schedules a rerun. -/
  | tileComplete (eng : EngineNo) (fault : TileFault) (late : Bool)
  /-- TILE_RERUN (R233): A failed tile runs again at the next tick boundary on another usable engine of the core. -/
  | tileRerun (desc : Nat) (tile : Nat)
  /-- UU_INVOCATION_ISSUE (R258): At a tick boundary with operands present, a chunk's next invocation issues on its UU; the first one begins the update and sends the mirror record. -/
  | uuInvocationIssue (uu : CoreNo)
  /-- UU_INVOCATION_END (R265): An invocation ends and commits its stores if it had no residue or ECC error, or reruns under R265. -/
  | uuInvocationEnd (uu : CoreNo) (fault : UuFault) (late : Bool)
  /-- RESULT_RELEASE (R196): A released chunk's result leaves as RESULT packets to its result group, and the step's sync counter advances. -/
  | resultRelease (desc : Nat)
  /-- START_RETRY_TIMEOUT (R205): After START_TIMEOUT with acknowledgements missing the manager resends START unicast, and after the last round sets START_INCOMPLETE. -/
  | startRetryTimeout (ctx : CtxNo)
  /-- STEP_TIMEOUT (R207): After STEP_TIMEOUT the manager sends ABORT with PEER_LOST for each silent spine and restarts the timer. -/
  | stepTimeout (ctx : CtxNo) (step : BitVec 16)
  /-- KBANK_VALID_SET (R246): A write of KBANK_CTRL VALID0 or VALID1 makes a K bank available for chunk use. -/
  | kbankValidSet (q : Req) (ctx : CtxNo) (bank : Bool)
  /-- KBANK_CLEAR (R318): A write of KBANK_CTRL CLR0 or CLR1 clears a bank's VALID while the context is IDLE. -/
  | kbankClear (q : Req) (ctx : CtxNo) (bank : Bool)
  /-- PROG_LOAD (R262): A PROG_LOAD segment is stored, and the completing segment starts the program image checks. -/
  | progLoad (q : Req) (seg : Segment)
  /-- PROG_INSTALL_COMPLETE (R264): An accepted image is written to the context's slot in every UU, its measurement recorded, PROG_GEN advanced and the reply sent. -/
  | progInstallComplete (ctx : CtxNo)
  /-- ENG_UNGATE (R235): ENG.CTRL.UNGATE reloads the repair map of a gated engine and starts BIST. -/
  | engUngate (q : Req) (eng : EngineNo)
  /-- ENG_GATE (R236): ENG.CTRL.GATE power-gates an idle or quarantined engine not named by an enabled placement. -/
  | engGate (q : Req) (eng : EngineNo)
  /-- ENG_RELEASE (R236): ENG.CTRL.RELEASE runs BIST on a quarantined engine and returns it to IDLE on PASS. -/
  | engRelease (q : Req) (eng : EngineNo)
  /-- ENG_BIST (R236): ENG.CTRL.BIST runs BIST at the engine's next idle boundary. -/
  | engBist (q : Req) (eng : EngineNo)
  /-- ENG_REPAIR_WRITE (R238): A write of ENG.REPAIR maps a row to the spare, applied at the next idle boundary and followed by BIST. -/
  | engRepairWrite (q : Req) (eng : EngineNo) (v : Word)
  /-- ENG_BIST_COMPLETE (R236): An engine BIST pass ends after 125 ticks with IDLE on PASS or QUARANTINED and a localized fault. -/
  | engBistComplete (eng : EngineNo) (found : BistFound)
  /-- UU_RELEASE (R266): UU.CTRL.RELEASE runs BIST on a quarantined UU and returns it to IDLE on PASS. -/
  | uuRelease (q : Req) (uu : CoreNo)
  /-- UU_BIST (R266): UU.CTRL.BIST runs BIST at the next boundary between chunks, with invocations moving to the partner meanwhile. -/
  | uuBist (q : Req) (uu : CoreNo)
  /-- UU_BIST_COMPLETE (R266): A UU BIST ends after 25 ticks with IDLE on PASS or QUARANTINED on FAIL. -/
  | uuBistComplete (uu : CoreNo) (pass : Bool)
  /-- STATE_SPLIT_WRITE (R275): A write of GLB.HBM_CTRL.STATE_SPLIT is accepted only while no context or mirror holds planes. -/
  | stateSplitWrite (q : Req) (v : Word)
  /-- PATROL_SCRUB (R282): The patrol scrub reads each word once per SCRUB_PERIOD and conditionally writes back corrected words. -/
  | patrolScrub (stack : StackNo) (addr : Nat) (found : ScrubFound)
  /-- HBM_UE (R281): An uncorrectable HBM word takes the effect of its region and is counted and recorded. -/
  | hbmUe (addr : Nat) (use : UeUse)
  /-- HBM_RETRAIN (R285): A channel whose stack moved 10 K, or 150 s after its last training, retrains for 10 ticks; a failure marks CHAN_FAIL. -/
  | hbmRetrain (stack : StackNo) (chan : Fin 32) (ok : Bool)
  /-- HCP_READ (R292): HCP READ returns a 32-bit or 64-bit register value, clearing RC fields as a read does. -/
  | hcpRead (q : Req) (a : Access)
  /-- HCP_WRITE (R292): HCP WRITE writes a register whose fields have no behaviour of their own, under the field types of R10. -/
  | hcpWrite (q : Req) (a : Access) (v : Word64)
  /-- RMW (R292): HCP RMW writes (old AND NOT MASK) OR (VALUE AND MASK) field by field and returns the old value. -/
  | rmw (q : Req) (a : Access) (mask v : Word64)
  /-- BULK_READ (R292): HCP BULK_READ reads up to 2,048 words within one die field and returns them with the tick of the first. -/
  | bulkRead (q : Req) (a : BitVec 32) (count : BitVec 16)
  /-- BULK_WRITE (R292): HCP BULK_WRITE applies its words in order and stops at the first word that is refused. -/
  | bulkWrite (q : Req) (a : BitVec 32) (words : List Word)
  /-- DUMP_READ (R292): HCP DUMP_READ returns bytes of a DUMP region or of the last-gasp buffer. -/
  | dumpRead (q : Req) (source : Byte) (die : Byte) (off : BitVec 32) (len : BitVec 16)
  /-- ATTEST (R334): HCP ATTEST builds and signs a report under a nonce at OFFSET 0, or returns part of the held report. -/
  | attest (q : Req) (nonce : Bytes) (off : BitVec 32)
  /-- SESSION_OPEN (R305): SESSION OPEN checks the key slot, role and signature, opens an HCP 2 session and derives its MAC keys. -/
  | sessionOpen (q : Req) (slot : Byte) (role : Byte) (eph nonce sig : Bytes)
  /-- SESSION_CLOSE (R306): SESSION CLOSE closes the session after its reply and erases its keys. -/
  | sessionClose (q : Req)
  /-- SESSION_IDLE_TIMEOUT (R306): A session that accepts no request and holds no tag for 10 s is closed. -/
  | sessionIdleTimeout (id : BitVec 32)
  /-- TRANSFER_ABANDON (R295): A segmented transfer that receives no segment for 1 s is abandoned and its staging freed. -/
  | transferAbandon (own : XferOwner) (opcode : Byte) (id : BitVec 16)
  /-- MGMT_LINK_DOWN (R286): When M0 or M1 goes down, replies to requests in flight are discarded and counted, and sessions and caches remain. -/
  | mgmtLinkDown (m : MPort)
  /-- STRING_ACCESS_TIMEOUT (R303): A register access not acknowledged within its 10 µs deadline is answered TIMEOUT, and three in a row mark the unit hung. -/
  | stringAccessTimeout (q : Req) (op : StringOp) (a : Access)
  /-- HCP1_BLOW (R308): SEC.CTRL.HCP1_BLOW, from an ADMIN HCP 2 session, blows the fuse that removes HCP 1 for good. -/
  | hcp1Blow (q : Req) (v : Word)
  /-- SVN_COMMIT (R329): SEC.SVN_COMMIT raises FW_SVN_MIN to the running FW_SVN by blowing fuses. -/
  | svnCommit (q : Req) (v : Word)
  /-- KEY_ENROLL (R333): SEC.KEY_CMD ENROLL writes KEY_DATA into an EMPTY manager or program key slot. -/
  | keyEnroll (q : Req) (v : Word)
  /-- KEY_REVOKE (R333): SEC.KEY_CMD REVOKE marks an ENROLLED slot REVOKED and closes its sessions. -/
  | keyRevoke (q : Req) (v : Word)
  /-- SEC_LOCK (R10): A write of SEC.LOCK locks every RWL field until chip reset. -/
  | secLock (q : Req)
  /-- REGISTER_WRITE (R10): A management write to a register with no row of its own takes effect field by field under R10, R2 and R316. -/
  | registerWrite (q : Req) (a : Access) (v : Word64)
  /-- PORT_ENABLE (R321): PORT.CTRL.ENABLE takes an IDLE port to UP or DOWN. -/
  | portEnable (q : Req) (port : PortNo) (v : Word)
  /-- PORT_DISABLE (R424): PORT.CTRL.DISABLE takes the port to LULL, out of next-hop and multicast groups. -/
  | portDisable (q : Req) (port : PortNo) (v : Word)
  /-- PORT_DRAINED (R424): When nothing bound for a port in LULL remains on the chip, it reads IDLE and its lanes go DARK. -/
  | portDrained (port : PortNo)
  /-- PORT_FENCE (R359): PORT.CTRL.FENCE requests a fence that is applied, or held under the chip and context limits. -/
  | portFence (q : Req) (port : PortNo) (v : Word)
  /-- PORT_UNFENCE (R361): PORT.CTRL.UNFENCE returns a fenced port to service, raises its score and drops any held request. -/
  | portUnfence (q : Req) (port : PortNo) (v : Word)
  /-- PORT_RESET (R371): PORT.CTRL.RESET takes the port DOWN at the next tick, discards its queues and clears resequencer and credit state. -/
  | portReset (q : Req) (port : PortNo) (v : Word)
  /-- PORT_MODE_WIDTH_WRITE (R61): A write of PORT.CTRL.MODE or WIDTH on a drained port changes its lane mode or re-forms the gangs, flushing MAC entries. -/
  | portModeWidthWrite (q : Req) (port : PortNo) (v : Word)
  /-- PORT_CREDIT_WRITE (R91): A write of PORT.CREDIT is accepted only on a disabled IDLE port within the die's credited total. -/
  | portCreditWrite (q : Req) (port : PortNo) (v : Word)
  /-- LANE_RESET (R372): LANE.CTRL.RESET_A or RESET_B moves the lane to a spare if free and re-sweeps its rings. -/
  | laneReset (q : Req) (lane : LaneNo)
  /-- PORT_DOWN_DETECT (R354): The link-level detector takes a port DOWN on loss of light, 4 µs of silence, width 0 or PCS loss of link. -/
  | portDownDetect (port : PortNo) (cond : Fin 5)
  /-- PORT_UP_DETECT (R354): A DOWN port returns to UP after 250 consecutive good ticks. -/
  | portUpDetect (port : PortNo)
  /-- HEALTH_RECOVER_INTERVAL (R356): At each HEALTH_RECOVER boundary, port and member scores without a penalty rise by 1. -/
  | healthRecoverInterval
  /-- FENCE_HELD_REJUDGE (R360): At each tick boundary, held fence requests are judged again in order and applied or dropped. -/
  | fenceHeldRejudge
  /-- WATCHDOG_EXPIRY (R353): An unserviced control-core watchdog stops and restarts the core; a second expiry within 10 s is fatal. -/
  | watchdogExpiry (core : Fin 4)
  /-- CORE_RECOVERED (R353): A restarted control core resumes its duties and CORE_STATE reads RUN. -/
  | coreRecovered (core : Fin 4)
  /-- DOLDRUMS_SCAN (R363): Every 25 ticks the detector examines the wait-for graph and raises an event for a cycle without progress for the window. -/
  | doldrumsScan
  /-- DUMP_TRIGGER (R366): DUMP.CTRL.TRIGGER takes a page-dump snapshot of every page on the chip. -/
  | dumpTrigger (q : Req)
  /-- FATAL_ERROR (R375): A fatal cause stops all work, darkens the optics, writes the last-gasp and fatal dumps and holds the chip in Stage A. -/
  | fatalError (cause : FatalCause)
  /-- SUPPLY_FAULT (R399): A rail outside tolerance for 10 µs after Stage A is a fatal error with cause SUPPLY. -/
  | supplyFault (rail : Rail) (microseconds : Nat)
  /-- REFCLK_LOSS (R405): Loss of a reference clock is fatal for SYSCLK PLLs, takes the fed lanes out of service for LANECLK or MCLK, or moves AON to its oscillator. -/
  | refclkLoss (clk : RefClk)
  /-- TJ_WARN (R381): A sensor at 105.0 °C sets TJ_WARN and drives TEMP_ALERT_N low. -/
  | tjWarn (die : DieNo) (sensor : Fin 64) (temp : Int)
  /-- TJ_TRIP (R382): Two samples at 110.0 °C stop all tiles and invocations, abort unbegun chunks and drop the chip to Stage B behaviour. -/
  | tjTrip (die : DieNo) (sensor : Fin 64) (first second : Int)
  /-- TJ_RECOVER (R383): After 1 s with every sensor at 100.0 °C or less the chip climbs back and resumes its work. -/
  | tjRecover (hottest : Int)
  /-- THERMAL_SHUTDOWN (R384): At 120.0 °C the always-on domain drops PG_OUT and holds the chip in cold reset. -/
  | thermalShutdown (die : DieNo) (sensor : Fin 64) (temp : Int)
  /-- TWIN_PAIR (R339): TWIN.CTRL.PAIR starts an attach, sending HELLO every 25 ticks. -/
  | twinPair (q : Req)
  /-- TWIN_DETACH (R345): TWIN.CTRL.DETACH puts the twin role in LULL and hands every twin context to the partner. -/
  | twinDetach (q : Req)
  /-- TWIN_RESYNC (R340): TWIN.CTRL.RESYNC drops any taken-over range, frees the mirror half and re-enters ATTACH. -/
  | twinResync (q : Req)
  /-- TWIN_HEARTBEAT_TX (R336): From Stage D each chip sends one HEARTBEAT per tick on the twin link. -/
  | twinHeartbeatTx
  /-- TWIN_HEARTBEAT_RX (R336): A valid heartbeat updates LAST_HB_TICK, returns twin credits and shows the partner's state and RANGE_HELD. -/
  | twinHeartbeatRx (frame : Bytes)
  /-- TWIN_HB_CHECK (R346): At each tick boundary in PAIRED a missing heartbeat is counted, and LOSS_LIMIT misses without tags mean the partner is lost. -/
  | twinHbCheck
  /-- TWIN_HELLO_RX (R339): An intact HELLO is answered and the partner certificate and identity checked. -/
  | twinHelloRx (frame : Bytes)
  /-- TWIN_PROOF_RX (R339): The partner's PROOF signature is checked to complete identity verification. -/
  | twinProofRx (frame : Bytes)
  /-- TWIN_CTX_CONFIG_RX (R342): The partner judges a CTX_CONFIG, places mirror blocks and reserves slots, and answers CTX_ACCEPT. -/
  | twinCtxConfigRx (frame : Bytes)
  /-- TWIN_CTX_ACCEPT_RX (R342): A CTX_ACCEPT answer decides enable check 8 for the twin context. -/
  | twinCtxAcceptRx (frame : Bytes)
  /-- TWIN_RECORD_RX (R270): An intact mirror RECORD is acknowledged and queued to run on the UU against the mirror planes. -/
  | twinRecordRx (frame : Bytes)
  /-- TWIN_ACK_RX (R269): A record or copy ACK lets the staged chunk be released, or advances the copy. -/
  | twinAckRx (frame : Bytes)
  /-- TWIN_RELEASED_RX (R343): A RELEASED notice lets the twin discard the held result of that mirror chunk. -/
  | twinReleasedRx (frame : Bytes)
  /-- TWIN_STEP_DIGEST_RX (R271): The twin compares a received step digest with its own and on mismatch exchanges chunk digests and sets DIVERGED. -/
  | twinStepDigestRx (frame : Bytes)
  /-- TWIN_CHUNK_DIGESTS_RX (R271): Received chunk digests name the lowest differing chunk for the DIVERGED record. -/
  | twinChunkDigestsRx (frame : Bytes)
  /-- TWIN_COPY_RX (R340): An intact COPY frame is acknowledged and written into the mirror or own half. -/
  | twinCopyRx (frame : Bytes)
  /-- TWIN_COPY_END_RX (R340): COPY_END closes a context's copy, and with every context copied VERIFY compares the folds. -/
  | twinCopyEndRx (frame : Bytes)
  /-- TWIN_HANDOVER_RX (R345): A HANDOVER makes the chip take the range, go to SOLO and send the takeover ABORTs. -/
  | twinHandoverRx (frame : Bytes)
  /-- TWIN_FRAME_RESEND (R337): A RECORD or COPY not acknowledged within 25 ticks is sent again unchanged. -/
  | twinFrameResend (index : Nat)
  /-- TWIN_ATTACH_TIMEOUT (R341): An attach with no intact HELLO within 1 s, or a link down for LOSS_LIMIT ticks, fails and sets ATTACH_FAILED. -/
  | twinAttachTimeout (linkDownTicks : Nat)
  /-- BW_WINDOW_START (R391): TEL.BW_CTRL.START arms a bandwidth window, which runs from its start boundary. -/
  | bwWindowStart (q : Req) (v : Word)
  /-- BW_WINDOW_STOP (R391): TEL.BW_CTRL.STOP ends a running or armed window without latching. -/
  | bwWindowStop (q : Req) (v : Word)
  /-- BW_WINDOW_END (R391): At the end boundary every port's counts are latched in one cycle, BW_SEQ advances and WINDOW_DONE is set. -/
  | bwWindowEnd
  /-- AER_WRITE (R394): MC2 writes a queued alarm explanation record to its die ring with the next SEQ, or drops it when the queue is full. -/
  | aerWrite
  /-- AER_SELECT (R396): A write of TEL.AER_SEL loads the selected record into that port's AER_REC window. -/
  | aerSelect (q : Req) (v : Word)
  /-- LANE_TAG_BLOCK_MISSING (R149): A block time passes on a lit carrier without a valid lane-tag block; the receiver counts TAG_MISSING and, at the second in a row, reports TAG_MISSING with MOVE_LANE and re-sweeps its ring. -/
  | laneTagBlockMissing (fiber : Fin 290) (wave : Fin 9) (light : Bool)
  /-- DTD_LANE_BELOW_SENSITIVITY (R166): A die-to-die lane whose received power falls below sensitivity leaves matching, and it returns when the power recovers with its ring LOCKED. -/
  | dtdLaneBelowSensitivity (die : DieNo) (lane : Fin 512) (dest : DieNo) (below : Bool)
  /-- REFCLK_RELOCK (R405): A LANECLKd or MCLK PLL relocks after its reference clock returns, and the lanes it feeds return to service. -/
  | refclkRelock (clk : RefClk)
  /-- MGMT_LINK_UP (R286): M0 or M1 completes auto-negotiation and link training and carries frames again, with sessions, transfers and the reply cache intact. -/
  | mgmtLinkUp (m : MPort)
  /-- PTP_MESSAGE_TX (R41): The boundary clock sends its timed PTP messages on its ports, such as Sync, Follow_Up, Announce and Delay_Req, and runs the best master clock algorithm on announce timeouts. -/
  | ptpMessageTx (via : PtpVia) (kind : PtpKind) (txTime : Nat)
  /-- HCP_FRAME_REFUSED (R290): A management frame that fails R287 or the early checks of R290 is discarded and counted, or answered with VERSION or BAD_ADDRESS, before any opcode is executed. -/
  | hcpFrameRefused (m : MPort) (udp : Bool) (ethertype : BitVec 16) (addressed fcs udpSum : Bool) (frame : Bytes)
  /-- SNAPSHOT_COMPLETE (R366): A snapshot finishes reading its engines at their idle boundaries and its UUs between invocations, advances SNAP_WR of each die and, for a Doldrums event with AUTO_RESET, lets the context resets start. -/
  | snapshotComplete
  /-- FATAL_DUMP_COMPLETE (R375): The dump engine finishes the last-gasp and per-die fatal dumps, DUMP_TAKEN is latched and GLB.STAGE reads A with HELD set. -/
  | fatalDumpComplete (silent : List Word) (hungDies : List DieNo)
  /-- ELS_RESTORE_COMPLETE (R158): A module restore finishes its ramp, ring locks and partner return, and the reply to RESTORE is sent. -/
  | elsRestoreComplete (module : Fin 32)
  deriving DecidableEq, Repr

end Sys2Proof
end

