-- ==== Sys2Proof/Machine/Bits.lean ====
section
/-! DEFINITION. Bit fields, most-significant-byte-first fields of frames (R5) and 48-bit serial
tick arithmetic (R40). -/

namespace Sys2Proof.Machine

/-- Bits `hi:lo` of a number, as a number (R5). -/
def bits (v hi lo : Nat) : Nat := (v >>> lo) % 2 ^ (hi + 1 - lo)

/-- Bit `i` of a number. -/
def bit (v i : Nat) : Bool := v.testBit i

/-- One bit as a number. -/
def b2n (b : Bool) : Nat := if b then 1 else 0

/-- `v` with bits `hi:lo` replaced by the low bits of `f`. -/
def putBits (v hi lo f : Nat) : Nat :=
  v - (bits v hi lo) * 2 ^ lo + (f % 2 ^ (hi + 1 - lo)) * 2 ^ lo

/-- The number a field of a frame spells, most significant byte first (R5). -/
def beNat (bs : Bytes) : Nat := bs.foldl (fun acc b => acc * 256 + b.toNat) 0

/-- `n` bytes that spell `v`, most significant byte first (R5). -/
def beBytes : Nat → Nat → Bytes
  | 0, _ => []
  | n + 1, v => BitVec.ofNat 8 (v / 256 ^ n) :: beBytes n v

/-- Bytes `off` to `off + len − 1` of a frame. -/
def sub (bs : Bytes) (off len : Nat) : Bytes := (bs.drop off).take len

/-- The field of `len` bytes at `off`, most significant byte first. -/
def fld (bs : Bytes) (off len : Nat) : Nat := beNat (sub bs off len)

/-- Byte `off` of a frame, 0 past its end. -/
def byteAt (bs : Bytes) (off : Nat) : Nat := (bs.getD off 0).toNat

/-- `n` zero bytes. -/
def zeros (n : Nat) : Bytes := List.replicate n 0

/-- The bytes of an ASCII text. -/
def ascii (t : String) : Bytes := t.toList.map (fun c => BitVec.ofNat 8 c.toNat)

/-- `bs` made exactly `n` bytes long, cut or filled with zeros. -/
def fit (n : Nat) (bs : Bytes) : Bytes := (bs ++ zeros n).take n

/-- Two's complement reading of the low `w` bits. -/
def signed (w v : Nat) : Int :=
  let u := v % 2 ^ w
  if u < 2 ^ (w - 1) then (u : Int) else (u : Int) - (2 ^ w : Nat)

/-- The low `w` bits of an integer, two's complement. -/
def wrap (w : Nat) (i : Int) : Nat := (i % (2 ^ w : Nat)).toNat

/-- Ceiling division. -/
def ceilDiv (a b : Nat) : Nat := (a + b - 1) / b

/-- R40: tick `a` lies after tick `b` in 48-bit serial arithmetic. -/
def tickAfter (a b : TickNo) : Bool :=
  let d := (a - b).toNat
  decide (1 ≤ d) && decide (d ≤ 2 ^ 47 - 1)

/-- R40: tick `a` lies at or after tick `b`. -/
def tickAtOrAfter (a b : TickNo) : Bool := a == b || tickAfter a b

/-- R247: 16-bit step tag `a` lies after tag `b`. -/
def stepAfter (a b : Nat) : Bool :=
  let d := (a + 65536 - b % 65536) % 65536
  decide (1 ≤ d) && decide (d ≤ 0x7FFF)

/-- R247: 16-bit step tag `a` lies at or before `b`. -/
def stepAtOrBefore (a b : Nat) : Bool := a % 65536 == b % 65536 || stepAfter b a

/-- Saturating increment of a `w`-bit counter (R319, R322). -/
def satAdd (w v n : Nat) : Nat := min (v + n) (2 ^ w - 1)

/-- The bytes of a list of 32-bit words, most significant byte first. -/
def wordBytes (ws : List Nat) : Bytes := ws.flatMap (beBytes 4)

/-- Cut a byte list into pieces of `n` bytes (`fuel` at least the list's length). -/
def pieces (n : Nat) : Nat → Bytes → List Bytes
  | 0, _ => []
  | fuel + 1, bs => if bs.isEmpty then [] else bs.take n :: pieces n fuel (bs.drop n)

/-- All of `l` lies pairwise apart. -/
def distinct : List Nat → Bool
  | [] => true
  | x :: xs => !xs.contains x && distinct xs

/-- The list strictly ascends. -/
def ascending : List Nat → Bool
  | [] => true
  | [_] => true
  | x :: y :: r => decide (x < y) && ascending (y :: r)

/-- A list started at entry `p`, wrapping (the `rotate` of R89). -/
def rotate {α : Type} (l : List α) (p : Nat) : List α :=
  if l.length = 0 then l else l.drop (p % l.length) ++ l.take (p % l.length)

/-- Insertion into a list kept in ascending order of a key. -/
def insertBy {α : Type} (key : α → Nat) (x : α) : List α → List α
  | [] => [x]
  | y :: r => if key x < key y then x :: y :: r else y :: insertBy key x r

/-- A list in ascending order of a key; equal keys keep their order. -/
def sortBy {α : Type} (key : α → Nat) (l : List α) : List α := l.foldl (fun acc x => insertBy key x acc) []

/-- The least number of a list, if any. -/
def leastOf : List Nat → Option Nat
  | [] => none
  | x :: r => match leastOf r with
    | none => some x
    | some y => some (min x y)

end Sys2Proof.Machine
end

