-- ==== Sys2Proof/Machine/Crc.lean ====
section
/-! DEFINITION. The two cyclic checks of the wire formats (R70): CRC-16 over headers and CRC-32C
over packets, images, cells and lane-tag blocks. -/

namespace Sys2Proof.Machine

/-- One bit of CRC-16 with polynomial 0x1021, no reflection (R70). -/
def crc16Bit (c : BitVec 16) : BitVec 16 :=
  if c.getLsbD 15 then (c <<< 1) ^^^ 0x1021#16 else c <<< 1

/-- One byte of CRC-16 (R70). -/
def crc16Byte (c : BitVec 16) (b : Byte) : BitVec 16 :=
  crc16Bit (crc16Bit (crc16Bit (crc16Bit (crc16Bit (crc16Bit (crc16Bit (crc16Bit
    (c ^^^ (b.zeroExtend 16 <<< 8)))))))))

/-- R70: CRC-16, initial value 0xFFFF, no final exclusive OR. -/
def crc16 (bs : Bytes) : BitVec 16 := bs.foldl crc16Byte 0xFFFF#16

/-- One bit of the reflected CRC-32C (0x82F6_3B78 is 0x1EDC_6F41 reflected, R70). -/
def crc32cBit (c : BitVec 32) : BitVec 32 :=
  if c.getLsbD 0 then (c >>> 1) ^^^ 0x82F63B78#32 else c >>> 1

/-- One byte of CRC-32C (R70). -/
def crc32cByte (c : BitVec 32) (b : Byte) : BitVec 32 :=
  crc32cBit (crc32cBit (crc32cBit (crc32cBit (crc32cBit (crc32cBit (crc32cBit (crc32cBit
    (c ^^^ b.zeroExtend 32))))))))

/-- R70: CRC-32C, initial value and final exclusive OR 0xFFFF_FFFF. -/
def crc32c (bs : Bytes) : BitVec 32 := bs.foldl crc32cByte 0xFFFFFFFF#32 ^^^ 0xFFFFFFFF#32

/-- The trailer of a packet, most significant byte first (R70). -/
def crc32cTrailer (bs : Bytes) : Bytes := beBytes 4 (crc32c bs).toNat

/-- The bitwise complement of the right trailer: the stomp pattern (R74). -/
def stompTrailer (bs : Bytes) : Bytes := beBytes 4 (~~~ crc32c bs).toNat

/-- One bit of the reflected CRC-32 of IEEE 802.3. -/
def crc32Bit (c : BitVec 32) : BitVec 32 :=
  if c.getLsbD 0 then (c >>> 1) ^^^ 0xEDB88320#32 else c >>> 1

/-- One byte of CRC-32 of IEEE 802.3. -/
def crc32Byte (c : BitVec 32) (b : Byte) : BitVec 32 :=
  crc32Bit (crc32Bit (crc32Bit (crc32Bit (crc32Bit (crc32Bit (crc32Bit (crc32Bit
    (c ^^^ b.zeroExtend 32))))))))

/-- The FCS of an Ethernet frame's bytes, as IEEE 802.3 sends it (R63). -/
def etherFcs (bs : Bytes) : Bytes :=
  (beBytes 4 (bs.foldl crc32Byte 0xFFFFFFFF#32 ^^^ 0xFFFFFFFF#32).toNat).reverse

end Sys2Proof.Machine
end

