-- ==== Sys2Proof/Machine/Crypto.lean ====
section
/-! DEFINITION. The digests and signatures of the published standards that R14 lists: SHA-512
(FIPS 180-4), HMAC (RFC 2104), Ed25519 (RFC 8032) and X25519 (RFC 7748). -/

namespace Sys2Proof.Machine

/-- FIPS 180-4: the first half of the eighty SHA-512 constants. -/
def shaK1 : List Nat :=
  [0x428A2F98D728AE22, 0x7137449123EF65CD, 0xB5C0FBCFEC4D3B2F, 0xE9B5DBA58189DBBC,
   0x3956C25BF348B538, 0x59F111F1B605D019, 0x923F82A4AF194F9B, 0xAB1C5ED5DA6D8118,
   0xD807AA98A3030242, 0x12835B0145706FBE, 0x243185BE4EE4B28C, 0x550C7DC3D5FFB4E2,
   0x72BE5D74F27B896F, 0x80DEB1FE3B1696B1, 0x9BDC06A725C71235, 0xC19BF174CF692694,
   0xE49B69C19EF14AD2, 0xEFBE4786384F25E3, 0x0FC19DC68B8CD5B5, 0x240CA1CC77AC9C65,
   0x2DE92C6F592B0275, 0x4A7484AA6EA6E483, 0x5CB0A9DCBD41FBD4, 0x76F988DA831153B5,
   0x983E5152EE66DFAB, 0xA831C66D2DB43210, 0xB00327C898FB213F, 0xBF597FC7BEEF0EE4,
   0xC6E00BF33DA88FC2, 0xD5A79147930AA725, 0x06CA6351E003826F, 0x142929670A0E6E70,
   0x27B70A8546D22FFC, 0x2E1B21385C26C926, 0x4D2C6DFC5AC42AED, 0x53380D139D95B3DF,
   0x650A73548BAF63DE, 0x766A0ABB3C77B2A8, 0x81C2C92E47EDAEE6, 0x92722C851482353B]

/-- FIPS 180-4: the second half of the eighty SHA-512 constants. -/
def shaK2 : List Nat :=
  [0xA2BFE8A14CF10364, 0xA81A664BBC423001, 0xC24B8B70D0F89791, 0xC76C51A30654BE30,
   0xD192E819D6EF5218, 0xD69906245565A910, 0xF40E35855771202A, 0x106AA07032BBD1B8,
   0x19A4C116B8D2D0C8, 0x1E376C085141AB53, 0x2748774CDF8EEB99, 0x34B0BCB5E19B48A8,
   0x391C0CB3C5C95A63, 0x4ED8AA4AE3418ACB, 0x5B9CCA4F7763E373, 0x682E6FF3D6B2B8A3,
   0x748F82EE5DEFB2FC, 0x78A5636F43172F60, 0x84C87814A1F0AB72, 0x8CC702081A6439EC,
   0x90BEFFFA23631E28, 0xA4506CEBDE82BDE9, 0xBEF9A3F7B2C67915, 0xC67178F2E372532B,
   0xCA273ECEEA26619C, 0xD186B8C721C0C207, 0xEADA7DD6CDE0EB1E, 0xF57D4F7FEE6ED178,
   0x06F067AA72176FBA, 0x0A637DC5A2C898A6, 0x113F9804BEF90DAE, 0x1B710B35131C471B,
   0x28DB77F523047D84, 0x32CAAB7B40C72493, 0x3C9EBE0A15C9BEBC, 0x431D67C49C100D4C,
   0x4CC5D4BECB3E42B6, 0x597F299CFC657E2A, 0x5FCB6FAB3AD6FAEC, 0x6C44198C4A475817]

/-- FIPS 180-4: the initial hash value of SHA-512. -/
def shaH0 : List (BitVec 64) :=
  [0x6A09E667F3BCC908, 0xBB67AE8584CAA73B, 0x3C6EF372FE94F82B, 0xA54FF53A5F1D36F1,
   0x510E527FADE682D1, 0x9B05688C2B3E6C1F, 0x1F83D9ABFB41BD6B, 0x5BE0CD19137E2179].map (BitVec.ofNat 64)

/-- FIPS 180-4: one step of the message schedule over the last sixteen words, newest first. -/
def shaNextW (w : List (BitVec 64)) : BitVec 64 :=
  let x := w.getD 1 0
  let y := w.getD 14 0
  let s1 := x.rotateRight 19 ^^^ x.rotateRight 61 ^^^ (x >>> 6)
  let s0 := y.rotateRight 1 ^^^ y.rotateRight 8 ^^^ (y >>> 7)
  s1 + w.getD 6 0 + s0 + w.getD 15 0

/-- FIPS 180-4: one of the eighty rounds on the working variables a to h. -/
def shaRound (v : List (BitVec 64)) (k : Nat) (w : BitVec 64) : List (BitVec 64) :=
  match v with
  | [a, b, c, d, e, f, g, h] =>
    let t1 := h + (e.rotateRight 14 ^^^ e.rotateRight 18 ^^^ e.rotateRight 41) + ((e &&& f) ^^^ (~~~e &&& g))
      + BitVec.ofNat 64 k + w
    let t2 := (a.rotateRight 28 ^^^ a.rotateRight 34 ^^^ a.rotateRight 39) + ((a &&& b) ^^^ (a &&& c) ^^^ (b &&& c))
    [t1 + t2, a, b, c, d + t1, e, f, g]
  | _ => v

/-- The eighty rounds: `w` holds the sixteen words in use, the oldest last. -/
def shaRounds : List Nat → List (BitVec 64) → List (BitVec 64) → List (BitVec 64)
  | [], _, v => v
  | k :: ks, w, v => shaRounds ks (shaNextW w :: w.take 15) (shaRound v k (w.getD 15 0))

/-- FIPS 180-4: the compression of one 128-byte block. -/
def shaBlock (h : List (BitVec 64)) (blk : Bytes) : List (BitVec 64) :=
  let ws := ((List.range 16).map (fun i => BitVec.ofNat 64 (fld blk (8 * i) 8))).reverse
  List.zipWith (· + ·) h (shaRounds (shaK1 ++ shaK2) ws h)

/-- FIPS 180-4: SHA-512 of a byte string, 64 bytes. -/
def sha512 (m : Bytes) : Bytes :=
  let n := m.length
  let pad := m ++ [0x80] ++ zeros ((239 - n % 128) % 128) ++ beBytes 16 (8 * n)
  ((pieces 128 (pad.length / 128) pad).foldl shaBlock shaH0).flatMap (fun w => beBytes 8 w.toNat)

/-- RFC 2104: HMAC-SHA-512. -/
def hmac512 (key m : Bytes) : Bytes :=
  let k := fit 128 (if 128 < key.length then sha512 key else key)
  sha512 (k.map (· ^^^ 0x5C) ++ sha512 (k.map (· ^^^ 0x36) ++ m))

/-! ### Curve25519 arithmetic -/

/-- The field prime 2^255 − 19. -/
def p25519 : Nat := 2 ^ 255 - 19

/-- The order of the base point of Ed25519. -/
def l25519 : Nat := 2 ^ 252 + 27742317777372353535851937790883648493

/-- Modular power by the low `fuel` bits of the exponent. -/
def powMod (m : Nat) : Nat → Nat → Nat → Nat
  | 0, _, _ => 1
  | fuel + 1, b, e =>
    let r := powMod m fuel (b * b % m) (e / 2)
    if e % 2 = 1 then b * r % m else r

/-- Inverse in the field. -/
def invP (x : Nat) : Nat := powMod p25519 256 (x % p25519) (p25519 - 2)

/-- Difference in the field. -/
def subP (a b : Nat) : Nat := (a + p25519 - b % p25519) % p25519

/-- The curve constant d = −121665 / 121666. -/
def edD : Nat := 37095705934669439343138083508754565189542113879843219016388785533085940283555

/-- A square root of −1. -/
def sqrtM1 : Nat := powMod p25519 256 2 ((p25519 - 1) / 4)

/-- A point in extended coordinates (RFC 8032, 5.1.4). -/
structure EdPoint where
  x : Nat
  y : Nat
  z : Nat
  t : Nat
deriving DecidableEq, Repr

/-- The neutral point. -/
def edZero : EdPoint := ⟨0, 1, 1, 0⟩

/-- RFC 8032, 5.1.4: point addition. -/
def edAdd (p q : EdPoint) : EdPoint :=
  let a := subP p.y p.x * subP q.y q.x % p25519
  let b := (p.y + p.x) * (q.y + q.x) % p25519
  let c := 2 * p.t * q.t % p25519 * edD % p25519
  let d := 2 * p.z * q.z % p25519
  let e := subP b a
  let f := subP d c
  let g := (d + c) % p25519
  let h := (b + a) % p25519
  ⟨e * f % p25519, g * h % p25519, f * g % p25519, e * h % p25519⟩

/-- Multiple of a point by the low `fuel` bits of a number. -/
def edMul : Nat → Nat → EdPoint → EdPoint
  | 0, _, _ => edZero
  | fuel + 1, k, p =>
    let r := edMul fuel (k / 2) (edAdd p p)
    if k % 2 = 1 then edAdd p r else r

/-- Two extended points are one point. -/
def edEq (p q : EdPoint) : Bool :=
  p.x * q.z % p25519 == q.x * p.z % p25519 && p.y * q.z % p25519 == q.y * p.z % p25519

/-- RFC 8032, 5.1.3: the x of a y and a sign, if the pair is on the curve. -/
def edRecoverX (y sgn : Nat) : Option Nat :=
  if p25519 ≤ y then none
  else
    let y2 := y * y % p25519
    let x2 := subP y2 1 * invP (edD * y2 + 1) % p25519
    if x2 = 0 then (if sgn = 1 then none else some 0)
    else
      let r := powMod p25519 256 x2 ((p25519 + 3) / 8)
      let x := if r * r % p25519 = x2 then r else r * sqrtM1 % p25519
      if x * x % p25519 = x2 then some (if x % 2 = sgn then x else p25519 - x) else none

/-- The number a little-endian string spells (RFC 8032). -/
def leNat (bs : Bytes) : Nat := beNat bs.reverse

/-- `n` little-endian bytes of a number. -/
def leBytes (n v : Nat) : Bytes := (beBytes n v).reverse

/-- RFC 8032, 5.1.3: decoding a point; none when the bytes are no point. -/
def edDecode (bs : Bytes) : Option EdPoint :=
  let v := leNat bs
  let y := v % 2 ^ 255
  match edRecoverX y (v / 2 ^ 255) with
  | none => none
  | some x => some ⟨x, y, 1, x * y % p25519⟩

/-- RFC 8032, 5.1.2: encoding a point. -/
def edEncode (p : EdPoint) : Bytes :=
  let zi := invP p.z
  let x := p.x * zi % p25519
  let y := p.y * zi % p25519
  leBytes 32 (y + (x % 2) * 2 ^ 255)

/-- The base point. -/
def edBase : EdPoint :=
  let y := 4 * invP 5 % p25519
  match edRecoverX y 0 with
  | none => edZero
  | some x => ⟨x, y, 1, x * y % p25519⟩

/-- RFC 8032, 5.1.5: clamping of a 32-byte scalar. -/
def edClamp (v : Nat) : Nat := v % 2 ^ 254 / 8 * 8 + 2 ^ 254

/-- RFC 8032, 5.1.5: the public key of a private key. -/
def edPublic (priv : Bytes) : Bytes :=
  edEncode (edMul 256 (edClamp (leNat ((sha512 priv).take 32))) edBase)

/-- RFC 8032, 5.1.6: the signature of a message. -/
def edSign (priv m : Bytes) : Bytes :=
  let h := sha512 priv
  let a := edClamp (leNat (h.take 32))
  let pub := edEncode (edMul 256 a edBase)
  let r := leNat (sha512 (h.drop 32 ++ m)) % l25519
  let rs := edEncode (edMul 256 r edBase)
  let k := leNat (sha512 (rs ++ pub ++ m)) % l25519
  rs ++ leBytes 32 ((r + k * a) % l25519)

/-- RFC 8032, 5.1.7: whether a signature of a message is valid under a public key. -/
def edVerify (pub m sig : Bytes) : Bool :=
  if pub.length != 32 || sig.length != 64 then false
  else match edDecode pub, edDecode (sig.take 32) with
  | some a, some r =>
    let s := leNat (sig.drop 32)
    if l25519 ≤ s then false
    else
      let k := leNat (sha512 (sig.take 32 ++ pub ++ m)) % l25519
      edEq (edMul 256 s edBase) (edAdd r (edMul 256 k a))
  | _, _ => false

/-- RFC 7748: the state of the Montgomery ladder. -/
structure Ladder where
  x2 : Nat := 1
  z2 : Nat := 0
  x3 : Nat
  z3 : Nat := 1
deriving DecidableEq, Repr

/-- RFC 7748: one step of the ladder for one scalar bit. -/
def ladderStep (u : Nat) (s : Ladder) (k : Bool) : Ladder :=
  let x2 := if k then s.x3 else s.x2
  let z2 := if k then s.z3 else s.z2
  let x3 := if k then s.x2 else s.x3
  let z3 := if k then s.z2 else s.z3
  let a := (x2 + z2) % p25519
  let aa := a * a % p25519
  let b := subP x2 z2
  let bb := b * b % p25519
  let e := subP aa bb
  let da := subP x3 z3 * a % p25519
  let cb := (x3 + z3) % p25519 * b % p25519
  let nx3 := (da + cb) % p25519 * ((da + cb) % p25519) % p25519
  let dd := subP da cb
  let nz3 := u * (dd * dd % p25519) % p25519
  let nx2 := aa * bb % p25519
  let nz2 := e * ((aa + 121665 * e) % p25519) % p25519
  if k then ⟨nx3, nz3, nx2, nz2⟩ else ⟨nx2, nz2, nx3, nz3⟩

/-- RFC 7748: X25519 of a scalar and a u-coordinate, 32 bytes each. -/
def x25519 (scalar u : Bytes) : Bytes :=
  let k := edClamp (leNat (fit 32 scalar))
  let uu := leNat (fit 32 u) % 2 ^ 255 % p25519
  let r := ((List.range 255).reverse.map (fun i => k.testBit i)).foldl (ladderStep uu) { x3 := uu }
  leBytes 32 (r.x2 * invP r.z2 % p25519)

/-- RFC 7748: the public key of an X25519 private scalar. -/
def x25519Base (scalar : Bytes) : Bytes := x25519 scalar (leBytes 32 9)

end Sys2Proof.Machine
end

