-- ==== Sys2Proof/Config.lean ====
section
/-! DEFINITION. What one device fixes and what the spec leaves open: constants without a body, so that
nothing can be proved about their values. -/

namespace Sys2Proof.Config

/-- GLB.SERIAL and CHIP_ID: the device serial number in fuses (R331, R286). -/
opaque serial : BitVec 64

/-- ROOT_HASH: the digest of Kreben's root public key (R327). -/
opaque rootHash : Bytes

/-- The 256-bit unique secret that only the security engine reads (R327). -/
opaque uniqueSecret : Bytes

/-- ISSUER_KEY of the device certificate (R331). -/
opaque issuerKey : Bytes

/-- ISSUER_SIG of the device certificate (R331). -/
opaque issuerSig : Bytes

/-- ROOT_SIG of the device certificate (R331). -/
opaque rootSig : Bytes

/-- The station addresses of M0 and M1 are derived from the serial number (R286); the spec gives no
formula. -/
opaque station : Bool → BitVec 64

/-- CD.CORE_DUTY: the byte that names each core's duties (R20); the spec gives no codes. -/
opaque coreDuty : BitVec 32

/-- The device's random source (R304): the n-th draw. -/
opaque random : Nat → BitVec 256

/-- FC cycles of the n-th tick of a follower that is being steered, 639 to 641 (R36): 0, 1 or 2 stand
for them and 3 for 640. -/
opaque steeredTick : Nat → BitVec 2

/-- Cause code of an attention cause to which R395 gives none: by block code and ATTN bit. -/
opaque unlistedCause : Nat → Nat → BitVec 16

/-- Correction that the PTP servo of MC1 makes, in ns, on the n-th exchange (R41). -/
opaque ptpServo : Nat → BitVec 8

/-- What firmware leaves in a CORE record, a LOG record and raw SRAM of a dump (R368): by dump, record
kind and byte. -/
opaque dumpByte : Nat → Nat → Nat → Byte

/-- What a register that shows a measurement of the device reads (FD.TJ_MAX): by address and FC time. -/
opaque openRegister : Nat → Nat → BitVec 64

/-- Field repair map that MC2 chooses where the spec leaves it one of several (R240): by engine and draw. -/
opaque freeValue : Nat → Nat → BitVec 64

/-- Own place of the chip with a CHIP_ID, which a chip learns at pairing (R348); no frame of R335 carries it. -/
opaque placeOfChip : BitVec 64 → BitVec 32

end Sys2Proof.Config
end

