-- ==== Sys2Proof/Machine/RegMap.lean ====
section
/-! DEFINITION. The register map of chapter 13 (with the pages of chapters 6, 9 to 12 and 14 to 17):
addresses, block types, and for each register its width, reset value and fields. -/

namespace Sys2Proof.Machine

/-- Field types of R10. `cmd` is a W1S command bit, which reads 0 (R313); `w1s` is a W1S bit that
keeps what was set. -/
inductive FieldKind where
  | rw | ro | w1c | w1s | cmd | rc | wo | rwl
  deriving DecidableEq, Repr

/-- One field: bits, type, and the values its range admits (empty: any). -/
structure Field where
  hi : Nat
  lo : Nat
  kind : FieldKind
  ranges : List (Nat × Nat) := []
  deriving DecidableEq, Repr

/-- One register: offset in the page, 64-bit or 32-bit, reset value, fields. -/
structure RegDef where
  off : Nat
  wide : Bool := false
  reset : Nat := 0
  fields : List Field := []
  deriving DecidableEq, Repr

/-- The blocks of R310. -/
inductive Block where
  | glb | cd | fd | cl | port | lane | fib | tbl | cal | ctx | cc | eng | uu | hbm | pbl | els | kite
  | twin | tick | tel | sec | dump
  deriving DecidableEq, Repr

/-- Block type codes of R310. -/
def Block.code : Block → Nat
  | .glb => 0x00 | .cd => 0x01 | .fd => 0x02 | .cl => 0x03 | .port => 0x04 | .lane => 0x05
  | .fib => 0x06 | .tbl => 0x07 | .cal => 0x08 | .ctx => 0x09 | .cc => 0x0A | .eng => 0x0B
  | .uu => 0x0C | .hbm => 0x0D | .pbl => 0x0E | .els => 0x0F | .kite => 0x10 | .twin => 0x11
  | .tick => 0x12 | .tel => 0x13 | .sec => 0x14 | .dump => 0x15

/-- The blocks in code order. -/
def Block.all : List Block :=
  [.glb, .cd, .fd, .cl, .port, .lane, .fib, .tbl, .cal, .ctx, .cc, .eng, .uu, .hbm, .pbl, .els,
   .kite, .twin, .tick, .tel, .sec, .dump]

/-- The block of a code. -/
def Block.ofCode (c : Nat) : Option Block := Block.all[c]?

/-- Instances of a block on die 8 and on each fabric die (R310); on die 0 alone for the Kite. -/
def Block.instances : Block → Nat × Nat
  | .glb => (1, 0) | .cd => (1, 0) | .fd => (0, 1) | .cl => (0, 4) | .port => (0, 256)
  | .lane => (8, 256) | .fib => (2, 72) | .tbl => (1, 1) | .cal => (0, 256) | .ctx => (256, 0)
  | .cc => (0, 8) | .eng => (0, 32) | .uu => (0, 8) | .hbm => (0, 2) | .pbl => (1, 1)
  | .els => (32, 0) | .kite => (0, 1) | .twin => (1, 0) | .tick => (1, 0) | .tel => (1, 1)
  | .sec => (1, 0) | .dump => (1, 0)

/-- CYCLE_CNT clocks of R310, coded as PAGE_CAP.CLOCK. -/
def Block.clock (b : Block) (die8 : Bool) : Nat :=
  match b with
  | .cc | .eng | .uu => 1
  | .hbm => 3
  | .glb | .cd | .ctx | .els | .twin | .tick | .sec | .dump => 2
  | .tbl | .pbl | .tel => if die8 then 2 else 0
  | _ => 0

/-- A page: die, block, instance (R309). -/
structure Page where
  die : Nat
  block : Block
  inst : Nat
  deriving DecidableEq, Repr

/-- R309, R310: the page exists. -/
def Page.exists_ (p : Page) : Bool :=
  let n := p.block.instances
  if p.die == 8 then decide (p.inst < n.1)
  else if p.block == .kite then p.die == 0 && p.inst == 0
  else decide (p.die < 4) && decide (p.inst < n.2)

/-- Base address of a page (R309). -/
def Page.base (p : Page) : Nat := p.die * 2 ^ 28 + p.block.code * 2 ^ 20 + p.inst * 2 ^ 12

/-- The page that an address names, if it exists. -/
def pageOf (addr : Nat) : Option Page :=
  match Block.ofCode (bits addr 27 20) with
  | some b =>
    let p : Page := ⟨bits addr 31 28, b, bits addr 19 12⟩
    if p.exists_ then some p else none
  | none => none

/-- Every page of one die in ascending address (R376, R366). -/
def pagesOf (die : Nat) : List Page :=
  Block.all.flatMap fun b =>
    let n := if die == 8 then b.instances.1
      else if b == .kite then (if die == 0 then 1 else 0) else b.instances.2
    (List.range n).map fun i => ⟨die, b, i⟩

/-! Fields -/

def fRW (hi lo : Nat) (ranges : List (Nat × Nat) := []) : Field := ⟨hi, lo, .rw, ranges⟩
def fRO (hi lo : Nat) : Field := ⟨hi, lo, .ro, []⟩
def fCmd (b : Nat) : Field := ⟨b, b, .cmd, []⟩
def rRO (off : Nat) : RegDef := ⟨off, false, 0, [fRO 31 0]⟩
def rRO64 (off : Nat) : RegDef := ⟨off, true, 0, [fRO 63 0]⟩
def rRW (off reset : Nat) (ranges : List (Nat × Nat) := []) : RegDef := ⟨off, false, reset, [fRW 31 0 ranges]⟩
def rRW64 (off : Nat) : RegDef := ⟨off, true, 0, [fRW 63 0]⟩
def rF (off reset : Nat) (fields : List Field) : RegDef := ⟨off, false, reset, fields⟩

/-- `n` registers `stride` bytes apart. -/
def rArr (n stride : Nat) (r : RegDef) : List RegDef :=
  (List.range n).map fun i => { r with off := r.off + stride * i }

/-- PMC event codes a block defines (R387). -/
def Block.events : Block → List (Nat × Nat)
  | .port => [(0, 4), (0x100, 0x105), (0x110, 0x113), (0x120, 0x122), (0x130, 0x131)]
  | .cal => [(0, 4), (0x100, 0x103)]
  | .fd => [(0, 4), (0x100, 0x103)]
  | .cl => [(0, 4), (0x100, 0x103)]
  | .cc => [(0, 4), (0x100, 0x104)]
  | .eng => [(0, 4), (0x100, 0x102)]
  | .uu => [(0, 4), (0x100, 0x102)]
  | .hbm => [(0, 4), (0x100, 0x101), (0x104, 0x107)]
  | .lane => [(0, 4), (0x100, 0x101)]
  | .twin => [(0, 4), (0x100, 0x101)]
  | _ => [(0, 4)]

/-- Fields of CTRL (0x008) per block. -/
def Block.ctrl (b : Block) (die8 : Bool) : List Field :=
  match b with
  | .glb => [fCmd 0]
  | .port => [fRW 9 8 [(0, 2)], fCmd 6, fRW 5 4 [(0, 2)], fCmd 3, fCmd 2, fCmd 1, fCmd 0]
  | .lane => [fCmd 3, fCmd 2, fCmd 1, fCmd 0]
  | .cal => [fCmd 1, fCmd 0]
  | .ctx => [fCmd 3, fCmd 2, fCmd 1, fCmd 0]
  | .eng => [fCmd 3, fCmd 2, fCmd 1, fCmd 0]
  | .uu => [fCmd 1, fCmd 0]
  | .els => [fCmd 0]
  | .kite => [fCmd 0]
  | .twin => [fCmd 2, fCmd 1, fCmd 0]
  | .tick => [fRW 0 0]
  | .sec => [⟨0, 0, .rwl, []⟩, fCmd 1]
  | .dump => [fCmd 0]
  | _ => if die8 then [] else []

/-- Reset value of STATE (0x00C) per block. -/
def Block.stateReset : Block → Nat
  | .eng => 0x1F0004
  | .uu => 4
  | _ => 0

/-- The common header (R314). -/
def headerRegs (b : Block) (die8 : Bool) : List RegDef :=
  [rRO 0x000, rRO 0x004, rF 0x008 0 (b.ctrl die8), ⟨0x00C, false, b.stateReset, [fRO 31 0]⟩,
   rF 0x010 0 [⟨31, 0, .w1c, []⟩], rRW 0x014 0, rF 0x018 0 [⟨31, 31, .w1c, []⟩, fRO 27 0],
   rRO 0x01C, rRO64 0x020]
  ++ rArr 8 4 (rF 0x040 0 [fRW 31 31, fRW 15 0 b.events]) ++ rArr 8 8 (rRW64 0x060)
  ++ [rF 0x0A0 0 [fRW 0 0]]

/-- Fields of VC_WEIGHT (R103). -/
def vcWeightFields : List Field := [fRW 31 24 [(1, 255)], fRW 15 8 [(1, 255)], fRW 7 0 [(1, 255)]]

/-- Block registers: CTX (R318, R319). -/
def ctxRegs : List RegDef :=
  [rF 0x100 0x00018110 [fRW 30 30, fRW 29 29, fRW 28 27 [(0, 2)], fRW 26 26, fRW 25 25, fRW 24 24,
      fRW 23 18, fRW 17 17, fRW 16 15, fRW 14 14, fRW 13 12 [(0, 2)], fRW 11 8 [(0, 10)],
      fRW 7 4 [(0, 10)], fRW 2 0 [(0, 5)]],
   rF 0x104 1 [fRW 12 0 [(1, 4096)]], rRW 0x108 0, rF 0x10C 1 [fRW 14 0 [(1, 16384)]],
   rF 0x110 0 [fRW 15 0], rF 0x114 25000 [fRW 23 0 [(1, 16777215)]], rF 0x118 3 [fRW 7 0 [(1, 255)]],
   rRW 0x11C 0x3F800000, rRW64 0x120, rF 0x128 0 [fRW 13 0], rRW 0x12C 0,
   rF 0x130 50000 [fRW 23 0 [(1, 16777215)]], rF 0x134 2500 [fRW 15 0 [(1, 65535)]],
   rF 0x138 2 [fRW 2 0], rF 0x13C 0 [fRW 3 0], rRO 0x140, rRO 0x144, rRO 0x148, rRO 0x14C, rRW 0x150 0,
   rRO 0x154, rRO 0x158, rRO 0x15C, rRO 0x160, rRO64 0x168, rF 0x170 0 [fRW 0 0],
   rF 0x174 0 [⟨31, 0, .rc, []⟩], rF 0x178 0 [⟨31, 0, .rc, []⟩], rF 0x17C 0 [fRW 11 0], rRO 0x180,
   rRO 0x184, rRO64 0x188, ⟨0x190, false, 0xFFFF, [fRO 31 0]⟩,
   rF 0x194 0 [⟨1, 1, .w1s, []⟩, ⟨0, 0, .w1s, []⟩, fCmd 8, fCmd 9], rF 0x198 0 [fRW 15 0],
   rF 0x19C 0 [fRW 15 0]]
  ++ rArr 32 4 (rRW 0x1A0 0) ++ rArr 128 4 (rRO 0x220) ++ rArr 33 4 (rRO 0x420)
  ++ [⟨0x4C0, false, 255, [fRO 31 0]⟩] ++ rArr 64 4 (rRW 0x500 0) ++ rArr 64 4 (rRW 0x600 0)
  ++ rArr 64 4 (rF 0x700 0 [fRW 14 0 [(0, 16384)]])

/-- Block registers: PORT (R322, R130, R141, R391). -/
def portRegs : List RegDef :=
  [rF 0x100 0x00030001 [fRW 17 17, fRW 16 16, fRW 11 0 [(1, 4094)]], rF 0x104 192 [fRW 16 0 [(16, 65536)]],
   rF 0x108 0x01000408 vcWeightFields, rF 0x10C 1024 [fRW 23 0], rF 0x110 65536 [fRW 23 0],
   rF 0x114 256 [fRW 12 0 [(16, 4096)]], rF 0x118 0x40FF [fRW 15 8, fRO 7 0]]
  ++ rArr 5 8 (rF 0x120 0x00080100 [fRW 31 31, fRW 23 16 [(0, 127), (192, 255)], fRW 15 0 [(1, 65535)]])
  ++ rArr 5 8 (rF 0x124 0x000F4240 [fRW 20 0 [(1, 2000000)]])
  ++ rArr 5 4 (rRO 0x148) ++ rArr 8 4 (rRO 0x160) ++ rArr 8 4 (rF 0x180 0 [⟨31, 0, .rc, []⟩])
  ++ [rRO64 0x1A0, rRO64 0x1A8] ++ rArr 36 8 (rRO64 0x200) ++ [rRO 0x320, rRO64 0x328, rRO64 0x330, rRO64 0x338]

/-- One lane block at `o`. -/
def laneBlock (o : Nat) : List RegDef :=
  rArr 8 4 (rRO o) ++ rArr 9 8 (rRO64 (o + 0x20))

/-- Block registers per block and kind of die. -/
def blockRegs (b : Block) (die8 : Bool) : List RegDef :=
  match b with
  | .glb =>
    [rRO 0x100, rRO 0x104, rF 0x108 0x168 [fRW 16 16, fRW 15 0],
     rF 0x10C 0xB80088B5 [⟨31, 31, .rwl, []⟩, fRO 30 30, ⟨29, 29, .rwl, []⟩, fRW 28 28, fRW 27 27, fRW 15 0],
     rF 0x110 47813 [fRW 15 0]] ++ rArr 4 4 (rRW 0x120 0) ++ [rF 0x130 0 [fRW 0 0]]
    ++ rArr 4 4 (rRW 0x140 0 [(0, 0xEFFFFFFF)])
    ++ [rF 0x150 0 [fRW 3 0], rRO64 0x158, rRO64 0x160, rRO64 0x168, rRO 0x170, rRO 0x174] ++ rArr 9 8 (rRO64 0x200)
  | .cd =>
    [rRO 0x100, rRO 0x104, rRO 0x108, rRO 0x10C, rF 0x140 0x80000001 [fRW 31 31, fRW 1 1, fRW 0 0],
     rF 0x144 2500 [fRW 23 0 [(25, 16777215)]], rRO 0x148, rRO64 0x150] ++ rArr 16 4 (rRO 0x160)
    ++ [rF 0x1A0 0x80000008 [fRW 31 31, fRW 7 0 [(1, 255)]], rRW 0x1A4 25000000 [(2500, 0xFFFFFFFF)],
        rF 0x1A8 25000 [fRW 23 0 [(2500, 16777215)]], rRO 0x1AC, rRO 0x1B0, rRO 0x1B4] ++ rArr 5 8 (rRO64 0x200)
  | .fd =>
    [rF 0x100 0x01000408 vcWeightFields, rF 0x104 2048 [fRW 12 0 [(0, 4096)]], rRO 0x108, rRO64 0x110,
     rRO64 0x118, rRO 0x120, rRO64 0x128]
  | .cl => [rRO64 0x100, rRO64 0x108, rRO64 0x110]
  | .port => portRegs
  | .lane => laneBlock 0x100 ++ laneBlock 0x180
  | .fib => [rRO 0x100, rRO 0x104, rRO64 0x108]
  | .tbl =>
    if die8 then
      rArr 5 4 (rRO 0x100) ++ [rRW 0x114 375000000] ++ rArr 9 4 (rRO 0x118) ++ rArr 6 8 (rRO64 0x180)
    else rArr 3 8 (rRO64 0x100)
  | .cal =>
    [rF 0x100 0 [fRO 4 2, ⟨1, 1, .w1c, []⟩, fRO 0 0], rRO 0x104, rRO 0x108, rRO64 0x110, rRO 0x118,
     rF 0x11C 8 [fRW 6 0 [(0, 64)]], rF 0x120 12500 [fRW 17 0 [(2500, 250000)]], rF 0x124 0 [fRW 15 15, fRW 12 0],
     rRO 0x128] ++ rArr 6 8 (rRO64 0x180)
  | .ctx => ctxRegs
  | .cc => rArr 7 4 (rRO 0x100) ++ [rRO64 0x120, rRO64 0x128]
  | .eng =>
    [rF 0x100 0 [fRW 31 31, fRO 30 30, fRW 3 0], rRO 0x104, rF 0x108 4 [fRW 7 0 [(1, 255)]], rRO 0x10C, rRO 0x110,
     rRO 0x114, rRO 0x118, rRO64 0x120, rRO 0x128]
  | .uu =>
    [rRO 0x100, rF 0x104 4 [fRW 7 0 [(1, 255)]], rRO 0x108, rRO 0x10C, rRO 0x110, rRO 0x114, rRO64 0x118]
  | .hbm =>
    [rRO 0x100, rRO64 0x108, rRO64 0x110, rF 0x118 64 [fRW 15 0 [(1, 65535)]], rRO64 0x120] ++ rArr 10 8 (rRO64 0x128)
  | .pbl =>
    if die8 then [rF 0x100 200 [fRW 15 0 [(50, 600)]]] ++ rArr 18 4 (rRO 0x110)
    else [rRO 0x100, rF 0x104 0 [fRW 8 0], rRO 0x108]
  | .els => [rRO 0x100, rRO 0x104, rRO 0x108]
  | .kite =>
    rArr 8 4 (rRO 0x100) ++ [rF 0x120 0 [⟨0, 0, .w1c, []⟩], rRO 0x124] ++ rArr 64 4 (rRO 0x180)
  | .twin =>
    [rF 0x100 0x800 [fRW 11 8 [(2, 15)], fRW 0 0], rRO64 0x108, rRW64 0x110, rRO64 0x118, rRO64 0x120, rRO64 0x128]
    ++ rArr 8 8 (rRO64 0x180)
  | .tick =>
    [rRO 0x100, rF 0x104 0 [fRW 15 0], rF 0x108 2500 [fRW 15 0], rF 0x10C 0 [fRW 6 0]]
    ++ rArr 4 4 (rF 0x110 0 [fRW 31 31, fRW 9 0]) ++ rArr 4 4 (rRW 0x120 0) ++ rArr 4 4 (rRO 0x130)
    ++ [rRO 0x140, rRO64 0x148] ++ rArr 6 8 (rRO64 0x180)
  | .tel =>
    if die8 then
      [rF 0x100 25 [fRW 16 0 [(1, 65536)]], rF 0x200 0 [fCmd 2, fRW 1 1, fCmd 0],
       rF 0x204 2500 [fRW 16 0 [(1, 65536)]], ⟨0x208, true, 0, [fRW 47 0]⟩, rRO 0x210, rRO64 0x218, rRO 0x220,
       rRO 0x300, rRW 0x304 0, rRO 0x308, rRO64 0x310] ++ rArr 16 4 (rRO 0x340)
    else
      rArr 64 4 (rF 0x100 0 [fRW 31 31, fRW 15 15, fRW 13 12, fRW 11 10, fRW 9 0]) ++ [rRO 0x200]
  | .sec =>
    [rF 0x100 0 [⟨0, 0, .w1s, []⟩], rRO 0x104, rRO 0x200, rRO 0x204, rRO 0x208, rRO 0x20C, rF 0x210 0 [fCmd 0]]
    ++ rArr 16 4 (rRO 0x240) ++ [rRO 0x280, rRO 0x284,
      rF 0x288 0 [⟨8, 8, .rwl, []⟩, ⟨4, 4, .rwl, []⟩, ⟨2, 0, .rwl, []⟩]]
    ++ rArr 8 4 (rF 0x2A0 0 [⟨31, 0, .rwl, []⟩]) ++ [rF 0x2C0 0 [fCmd 1, fCmd 0]] ++ rArr 52 4 (rRO 0x400)
  | .dump => [rRO 0x100, rRO64 0x108, rRO 0x110] ++ rArr 4 4 (rRO 0x120)

/-- Offset of MEMBER_WIN in a CTX page (R175). -/
def memberWin : Nat := 0x800

/-- Every register of a page. -/
def pageRegs (b : Block) (die8 : Bool) : List RegDef := headerRegs b die8 ++ blockRegs b die8

/-- The register whose word or half lies at an offset; none is a reserved word (R309). MEMBER_WIN is
a run of 32-bit words. -/
def regAt (b : Block) (die8 : Bool) (off : Nat) : Option RegDef :=
  if b == .ctx && decide (memberWin ≤ off) then
    some (if off % 8 < 4 then rRW (off / 4 * 4) 0 else rF (off / 4 * 4) 0 [fRW 25 16])
  else (pageRegs b die8).find? fun r => r.off == off || (r.wide && r.off + 4 == off)

/-- SPEC_LEN of R423. -/
def specLen (b : Block) (die8 : Bool) : Nat :=
  if b == .ctx then 0xF00
  else (blockRegs b die8).foldl (fun m r => max m (r.off + (if r.wide then 8 else 4) - 0x100)) 0

/-- Reset value of the register at a base address; 0 for a reserved word. -/
def resetOf (addr : Nat) : Nat :=
  if 2 ^ 32 ≤ addr then 0
  else match pageOf addr with
    | some p => match regAt p.block (p.die == 8) (addr % 4096) with
      | some r => r.reset
      | none => 0
    | none => 0

/-! Addresses of pages by chip-wide number (R310) -/

def glbReg (o : Nat) : Nat := 0x80000000 + o
def cdReg (o : Nat) : Nat := 0x80100000 + o
def fdReg (d o : Nat) : Nat := d * 2 ^ 28 + 0x200000 + o
def clReg (k o : Nat) : Nat := (k / 4) * 2 ^ 28 + 0x300000 + (k % 4) * 4096 + o
def portReg (p o : Nat) : Nat := (p / 256) * 2 ^ 28 + 0x400000 + (p % 256) * 4096 + o
/-- The LANE page of a lane pair. -/
def lanePage (l : Nat) : Nat :=
  if l < 2048 then (l / 512) * 2 ^ 28 + 0x500000 + (l % 512 / 2) * 4096
  else 0x80500000 + ((l - 2048) / 2) * 4096
/-- Register `o` of the lane's own block. -/
def laneReg (l o : Nat) : Nat := lanePage l + 0x100 + (l % 2) * 0x80 + o
/-- The FIB page of a fiber: spare fiber 256 + g lies on die g / 8. -/
def fibReg (f o : Nat) : Nat :=
  if f < 256 then (f / 64) * 2 ^ 28 + 0x600000 + (f % 64) * 4096 + o
  else if f < 288 then ((f - 256) / 8) * 2 ^ 28 + 0x600000 + (64 + (f - 256) % 8) * 4096 + o
  else 0x80600000 + (f - 288) * 4096 + o
def tblReg (o : Nat) : Nat := 0x80700000 + o
def tblDieReg (d o : Nat) : Nat := d * 2 ^ 28 + 0x700000 + o
def calReg (p o : Nat) : Nat := (p / 256) * 2 ^ 28 + 0x800000 + (p % 256) * 4096 + o
def ctxReg (c o : Nat) : Nat := 0x80900000 + c * 4096 + o
def ccReg (n o : Nat) : Nat := (n / 8) * 2 ^ 28 + 0xA00000 + (n % 8) * 4096 + o
def engReg (e o : Nat) : Nat := (e / 32) * 2 ^ 28 + 0xB00000 + (e % 32) * 4096 + o
def uuReg (n o : Nat) : Nat := (n / 8) * 2 ^ 28 + 0xC00000 + (n % 8) * 4096 + o
def hbmReg (h o : Nat) : Nat := (h / 2) * 2 ^ 28 + 0xD00000 + (h % 2) * 4096 + o
def pblReg (o : Nat) : Nat := 0x80E00000 + o
def pblDieReg (d o : Nat) : Nat := d * 2 ^ 28 + 0xE00000 + o
def elsReg (m o : Nat) : Nat := 0x80F00000 + m * 4096 + o
def kiteReg (o : Nat) : Nat := 0x01000000 + o
def twinReg (o : Nat) : Nat := 0x81100000 + o
def tickReg (o : Nat) : Nat := 0x81200000 + o
def telReg (o : Nat) : Nat := 0x81300000 + o
def telDieReg (d o : Nat) : Nat := d * 2 ^ 28 + 0x1300000 + o
def secReg (o : Nat) : Nat := 0x81400000 + o
def dumpReg (o : Nat) : Nat := 0x81500000 + o

/-- Member-table entry `m` of context `c`: kept beside the pages, eight bytes each, at an address above
every HCP address; MEMBER_WIN shows 256 of them (R175). -/
def memberKey (c m : Nat) : Nat := 2 ^ 32 + c * 2 ^ 16 + m * 8

/-! Names of counters -/

/-- The PORT counters of R322 in page order from 0x200. -/
inductive PortCtr where
  | rxPkts | rxBytes | txPkts | txBytes | rxFecUncorr | rxHdrCrcErr | rxBadVersion | rxBadType
  | rxBadLength | rxTrlCrcErr | txTrlStomped | txFmt1Unrep | txCtTrunc | rxNoCredit | rxBufFullDrop
  | contribNoCtx | ownPlaceDiscard | abortBadReason | nhNoPort | lpmMiss | reseqLate
  | reseqWindowSkip | reseqTimeout | mcReplDrop | fenceDiscard | kiteDiscard | ethRxBadFrame
  | ethDecapFcsErr | ethTooLongForWfp | vlanIngressDrop | ethReservedDa | ethFiltered | policeDrop
  | vc3ThreshDrop | vc3EcnMark | rxTrlStomped
  deriving DecidableEq, Repr

/-- Address of a PORT counter. -/
def PortCtr.reg (c : PortCtr) (p : Nat) : Nat := portReg p (0x200 + 8 * c.ctorIdx)

/-- The CTX counters of R319 in page order from 0x420. -/
inductive CtxCtr where
  | contribAccepted | resendRx | lastRx | ctxNotActive | badOp | badFormat | badChunk | badMember
  | badSource | badLength | fencedDiscard | dupContrib | nackStaleSent | gatherNoSpace | resultReplay
  | replayLost | stepsComplete | chunkAborts | abortRx | ctrlBad | syncBad | syncDup | nanCount
  | infCancel | outOverflow | mxClamp | chkRerun | kWait | uuNanStore | statePoison | digestMatch
  | digestMismatch | nackStaleFmt1
  deriving DecidableEq, Repr

/-- Address of a CTX counter. -/
def CtxCtr.reg (c : CtxCtr) (ctx : Nat) : Nat := ctxReg ctx (0x420 + 4 * c.ctorIdx)

/-- The GLB counters in page order from 0x200. -/
inductive GlbCtr where
  | linkDiscard | malformed | hcp1Discard | authDiscard | replayDiscard | tagDup | openFail
  | xferAbandon | replyLost
  deriving DecidableEq, Repr

/-- Address of a GLB counter. -/
def GlbCtr.reg (c : GlbCtr) : Nat := glbReg (0x200 + 8 * c.ctorIdx)

end Sys2Proof.Machine
end

