-- ==== Sys2Proof/Machine/StateMgmt.lean ====
section
/-! DEFINITION. The parts of the State behind the optics, the management ports, the security engine
and the always-on domain, outside the register pages. -/

namespace Sys2Proof.Machine

/-- A request whose reply has not been sent (R299). -/
structure InFlight where
  req : Req
  opcode : Nat
  bodyLen : Nat
  bodyCrc : BitVec 32
  deriving DecidableEq, Repr

/-- LANE.STATE (R153). -/
inductive LaneState where
  | dark | locking | up | moved | out | kite
  deriving DecidableEq, Repr

/-- State of a ring (R162). -/
inductive RingState where
  | dark | sweep | capture | locked | hold | fail
  deriving DecidableEq, Repr

/-- A ring with the attempts counted since it entered SWEEP. -/
structure RingSt where
  state : RingState := .dark
  attempts : Nat := 0
  failedUp : Nat := 0
  deriving DecidableEq, Repr

/-- RX_STATE of a maintenance report (R147). -/
inductive RxState where
  | ok | lowPower | noLight | tagMismatch | tagMissing | relocking
  deriving DecidableEq, Repr

/-- What the receiver knows of one carrier (fiber, wavelength), and what the far end reported of the
same transmit carrier. -/
structure CarrierSt where
  /-- The receiver's judgement (R149) and the REQUEST it sends. -/
  rxState : RxState := .ok
  request : Nat := 0
  /-- Uptime since which the request stands (R149, R151). -/
  asked : Nat := 0
  power : Int := 0
  mismatch : Nat := 0
  missing : Nat := 0
  foreign : Nat := 0
  low : Nat := 0
  /-- Consecutive valid blocks with LANE 0xFFF on the carrier (R152). -/
  homeGood : Nat := 0
  /-- CHIP_ID of the last valid block heard here. -/
  chip : BitVec 64 := 0
  /-- Two valid blocks with the ring's wavelength since HOLD (R162). -/
  heldGood : Nat := 0
  /-- The far end's last report on our transmit carrier: its RX_STATE, MARGIN and uptime. -/
  farState : Option RxState := none
  farMargin : Int := 0
  farUp : Nat := 0
  /-- The report changed and has not been sent: uptime of the change (R148). -/
  changed : Option Nat := none
  deriving DecidableEq, Repr

/-- One logical lane (R145, R153). -/
structure LaneSt where
  state : LaneState := .dark
  /-- Carriers in use in each direction, fiber and wavelength. -/
  tx : Option (Nat × Nat) := none
  rx : Option (Nat × Nat) := none
  /-- The sender withdrew the lane (R151). -/
  withdrawn : Bool := false
  /-- A move answered and due at the next block time: the new carrier, or none for withdrawal. -/
  moving : Option (Option (Nat × Nat)) := none
  /-- A lane reset waits for that move: then the rings it leaves re-sweep (R372). -/
  resetDue : Bool := false
  deriving DecidableEq, Repr

/-- A laser module (R155). -/
structure ElsSt where
  present : Bool := true
  suitable : Bool := true
  safeIdle : Bool := true
  /-- Setpoints of the two outputs before the feed event (R158). -/
  pre0 : Int := 1600
  pre1 : Int := 1600
  /-- Consecutive updates with the margin 1.00 dB above target, per output (R159). -/
  high0 : Nat := 0
  high1 : Nat := 0
  /-- The maximum was set by a feed event (R157). -/
  forced : Bool := false
  deriving DecidableEq, Repr

/-- The photonic base layer. -/
structure PhotonSt where
  lanes : Map LaneSt := []
  /-- Keyed fiber × 9 + wavelength. -/
  carriers : Map CarrierSt := []
  ringTx : Map RingSt := []
  ringRx : Map RingSt := []
  /-- Die-to-die rings: transmit keyed (die × 512 + lane) × 2 + branch, receive (die × 512 + lane) × 4 + destination. -/
  dtdTx : Map RingSt := []
  dtdRx : Map RingSt := []
  /-- Die-to-die receivers below sensitivity, keyed as `dtdRx`. -/
  dtdLow : List Nat := []
  els : Map ElsSt := []
  /-- Feeds whose light has failed: pair × 2, plus 1 for feed B, with the uptime of the feed event. -/
  feedsLost : Map Nat := []
  /-- Restores under way: module and the request to be answered. -/
  restoring : List (Nat × Option InFlight) := []
  /-- Per group report counter and rotation position (R147, R148). -/
  reportSeq : Map Nat := []
  reportNext : Map Nat := []
  /-- Fibers returning from a Kite circuit, until their ports are UP. -/
  returning : List Nat := []
  /-- Clocks lost: LANECLKd lost for die d, MCLK (R405). -/
  laneclkLost : List Nat := []
  mclkLost : Bool := false
  deriving DecidableEq, Repr

/-- A management session (R305, R306). -/
structure Session where
  id : BitVec 32
  port : MPort
  /-- Key slot whose key opened it. -/
  slot : Nat
  admin : Bool
  kReq : Bytes
  kRep : Bytes
  /-- Highest SEQ accepted, and the SEQ values accepted within the window below it. -/
  high : Nat := 0
  seen : List Nat := []
  /-- SEQ of the next reply. -/
  nextRep : Nat := 1
  lastUp : Nat := 0
  /-- CLOSE has been answered: the keys go once no request is in flight. -/
  closing : Bool := false
  /-- The held attestation report and its nonce (R292). -/
  report : Option (Bytes × Bytes) := none
  deriving DecidableEq, Repr

/-- A reply kept for retry (R301). -/
structure Cached where
  port : MPort
  tag : BitVec 9
  opcode : Nat
  bodyLen : Nat
  bodyCrc : BitVec 32
  result : Nat
  detail : Nat
  body : Bytes
  same : Bool
  deriving DecidableEq, Repr

/-- An open segmented transfer (R295). -/
structure Transfer where
  owner : XferOwner
  port : MPort
  opcode : Nat
  id : BitVec 16
  target : Nat
  total : Nat
  /-- Segments held: offset and bytes. -/
  parts : List (Nat × Bytes)
  lastUp : Nat
  deriving DecidableEq, Repr

/-- The management side: ports, sessions, tags, reply cache and transfers. -/
structure MgmtSt where
  /-- M0 and M1 carry frames (R286). -/
  up0 : Bool := true
  up1 : Bool := true
  sessions : List Session := []
  nextSession : Nat := 1
  inFlight : List InFlight := []
  cache : List Cached := []
  transfers : List Transfer := []
  /-- Report held by port for session 0 and none otherwise (R292). -/
  report0 : Option (Bytes × Bytes) := none
  report1 : Option (Bytes × Bytes) := none
  /-- Attention epoch of R296. -/
  epoch : BitVec 4 := 0
  /-- FC time at which the epoch last advanced. -/
  epochFc : Option Nat := none
  /-- Units known to be hung, by page base address, and consecutive timeouts (R352). -/
  hung : List Nat := []
  timeouts : Map Nat := []
  deriving DecidableEq, Repr

/-- KEY_STATE of a slot (R332). -/
inductive SlotState where
  | empty | enrolled | revoked
  deriving DecidableEq, Repr

/-- A key slot (R332). -/
structure KeySlot where
  state : SlotState := .empty
  admin : Bool := false
  observer : Bool := false
  key : Bytes := []
  deriving DecidableEq, Repr

/-- What is blown into fuses and outlives every reset (R332, R308, R329, R237). -/
structure FuseSt where
  hcp1Fused : Bool := false
  fwSvnMin : Nat := 0
  /-- Manager slots 0 to 7. -/
  manager : Map KeySlot := []
  /-- Program slots 0 to 3. -/
  program : Map KeySlot := []
  /-- Field repairs per engine (R239), kept over a warm reset. -/
  repairs : Map (BitVec 32) := []
  deriving DecidableEq, Repr

end Sys2Proof.Machine
end

