-- ==== Sys2Proof/Machine/StateCollect.lean ====
section
/-! DEFINITION. The parts of the State behind the collective path: contexts, placement, gather slots,
tiles, the Update Units, programs and state planes. -/

namespace Sys2Proof.Machine

/-- CTX.STATE (R177). -/
inductive CtxState where
  | idle | active | halted | lull
  deriving DecidableEq, Repr

/-- Gather-slot states (R190); FREE is the absence of the slot. -/
inductive SlotPhase where
  | opened | complete | ready | issued | update | staged
  deriving DecidableEq, Repr

/-- Where the Weathervane put one chunk (R183, R185). -/
structure Placed where
  chunk : Nat
  core : Nat
  /-- First slot descriptor, 1,024 n + i. -/
  desc : Nat
  /-- First engine. -/
  engine : Nat
  deriving DecidableEq, Repr

/-- State planes a context holds (R244, R276). -/
structure Planes where
  base : Nat
  chunks : Nat
  payload : Nat
  inFmt : Nat
  fmts : List Nat
  /-- Chip address of each chunk's plane block. -/
  blocks : Map Nat
  /-- Core that owns each chunk. -/
  owners : Map Nat
  deriving DecidableEq, Repr

/-- What an accepted enable takes: placed chunks, planes for UPDATE = 1, and whether R244 keeps them. -/
structure Plan where
  placed : List Placed
  planes : Option Planes
  keep : Bool
  deriving DecidableEq, Repr

/-- A loaded program (R261). -/
structure Program where
  instrs : List Nat
  planes : Nat
  inBind : List Nat
  outBind : List Nat
  planeFmt : List Nat
  /-- SHA-512 of header and instructions (R264). -/
  measurement : Bytes
  deriving DecidableEq, Repr

/-- What a member of a context has done (R203, R357). -/
structure MemberSt where
  last : Nat := 0
  lateSum : Nat := 0
  miss : Nat := 0
  /-- LAST_COUNT gained since the last read of CTX.SLOWEST (R204). -/
  gain : Nat := 0
  /-- Member score and whether a penalty fell in the present interval (R357, R356). -/
  score : Nat := 255
  hurt : Bool := false
  deriving DecidableEq, Repr

/-- One member's contribution in a slot (R189). -/
structure Contribution where
  member : Nat
  weight : Nat
  /-- WEIGHT of the send now arriving. -/
  newWeight : Nat
  /-- Cells held: index and bytes. -/
  cells : Map Bytes
  done : Bool
  deriving DecidableEq, Repr

/-- How a tile stands (R210, R233). -/
inductive TilePhase where
  | waiting | running (engine : Nat) | passed
  deriving DecidableEq, Repr

/-- One tile of a chunk (R182). -/
structure Tile where
  index : Nat
  phase : TilePhase := .waiting
  /-- Engines whose runs of this tile failed, oldest first. -/
  failed : List Nat := []
  /-- Uptime from which it may run. -/
  from_ : Nat := 0
  deriving DecidableEq, Repr

/-- One gather slot, from its opening to its release (R190). -/
structure Slot where
  ctx : Nat
  step : Nat
  chunk : Nat
  core : Nat
  desc : Nat
  /-- The chunk belongs to a taken-over range (R348). -/
  taken : Bool := false
  phase : SlotPhase := .opened
  spilled : Bool := false
  /-- Pages held in each gather bank 0 to 3 (R187). -/
  pages : List Nat := [0, 0, 0, 0]
  openUp : Nat
  /-- Order of opening, for refills (R187). -/
  order : Nat := 0
  completeUp : Nat := 0
  readyUp : Nat := 0
  contribs : List Contribution := []
  lastMember : Nat := 0
  tiles : List Tile := []
  /-- Rounded results of the tiles that have passed, as bytes: FP32 with UPDATE = 1 (R223). -/
  parts : Map Bytes := []
  /-- The result as it will leave. -/
  result : Bytes := []
  stagingBytes : Nat := 0
  /-- Tag and values of the chosen K bank (R247). -/
  bank : Option (Nat × List Nat) := none
  /-- The chunk has begun its update (R267). -/
  begun : Bool := false
  /-- Passes whose stores have committed, and the RESULT lanes they stored. -/
  passes : Nat := 0
  lanes : Map (List Nat) := []
  digest : BitVec 64 := 0
  /-- Failed runs in a row of the present invocation (R265). -/
  fails : Nat := 0
  /-- Uptime of the last commit. -/
  commitUp : Nat := 0
  /-- A mirror record was sent and its acknowledgement is awaited; it has come (R269). -/
  needAck : Bool := false
  acked : Bool := false
  deriving DecidableEq, Repr

/-- A mirror chunk received in a record (R270). -/
structure Mirror where
  ctx : Nat
  step : Nat
  chunk : Nat
  core : Nat
  /-- The FP32 gradient plane. -/
  grad : Bytes
  tag : Nat
  ks : List Nat
  /-- Uptime from which it may begin. -/
  readyUp : Nat
  /-- Credits its record holds in the receive buffer (R337). -/
  credits : Nat
  begun : Bool := false
  passes : Nat := 0
  lanes : Map (List Nat) := []
  digest : BitVec 64 := 0
  fails : Nat := 0
  /-- Every invocation has committed. -/
  applied : Bool := false
  /-- The result the program stored, held until the partner reports its release (R343). -/
  result : Bytes := []
  /-- The partner reported the release before the record was applied. -/
  released : Bool := false
  deriving DecidableEq, Repr

/-- The invocation a UU runs: passes first to first + count − 1 of an own or a mirror chunk (R258). -/
structure Invocation where
  mirror : Bool
  ctx : Nat
  step : Nat
  chunk : Nat
  /-- Core whose staging holds the chunk. -/
  core : Nat
  first : Nat
  count : Nat
  issueUp : Nat
  deriving DecidableEq, Repr

/-- Run-time state of a collective core and its Update Unit. -/
structure CoreSt where
  /-- The rotation in which tiles take engines (R183). -/
  engTurn : Nat := 0
  /-- Rotating priority by context: for READY ties and the UU (R195, R259). -/
  issueTurn : Nat := 0
  uuTurn : Nat := 0
  running : Option Invocation := none
  /-- The chunk whose invocations the UU is running: mirror, context, step, chunk (R259). -/
  uuChunk : Option (Bool × Nat × Nat × Nat) := none
  /-- Quarantine falls after the invocation in hand (R265). -/
  uuCondemned : Bool := false
  /-- BIST asked for, at the next boundary between chunks (R266). -/
  uuBistAsked : Bool := false
  uuBistUp : Nat := 0
  /-- The UU takes no further work before this uptime (R258, R30). -/
  uuRestUp : Nat := 0
  /-- Vector registers V0 to V31 as the last pass left them; one not listed holds +0 (R245). -/
  vregs : Map (List Nat) := []
  /-- K values in use (R245). -/
  kvals : List Nat := []
  /-- CONTRIB credits in use per source die (R188). -/
  contribUsed : List Nat := [0, 0, 0, 0]
  deriving DecidableEq, Repr

/-- Run-time state of an engine outside its page. -/
structure EngSt where
  bistAsked : Bool := false
  bistUp : Nat := 0
  /-- A repair was written while BUSY: the map that stays in force until the idle boundary (R238). -/
  pendingRepair : Option (BitVec 32) := none
  /-- The BIST in progress is one after which MC2 may repair (R240). -/
  judged : Bool := false
  /-- Uptime of the last issue, and uptime from which it takes work again (R29, R30). -/
  issueUp : Nat := 0
  restUp : Nat := 0
  deriving DecidableEq, Repr

/-- Sums of one program load under way (R264). -/
structure ProgJob where
  fly : InFlight
  image : Bytes
  upSince : Nat
  deriving DecidableEq, Repr

/-- A context: everything the spec gives it outside its page. -/
structure CtxSt where
  state : CtxState := .idle
  /-- What an enable in progress reserves (R183, R186, R277). -/
  plan : Option Plan := none
  /-- The enable waits for CTX_ACCEPT since this uptime, with the request to be answered (R342). -/
  asking : Option (Nat × Option InFlight) := none
  /-- The enable is completing, with the request to be answered (R179). -/
  enabling : Option (Option InFlight) := none
  /-- DISABLE was accepted: LULL at the next boundary (R180). -/
  disabling : Bool := false
  placed : List Placed := []
  planes : Option Planes := none
  program : Option Program := none
  loading : Option ProgJob := none
  /-- S: the oldest step not complete (R192). -/
  step : Nat := 0
  /-- Released chunks of the window: step and chunk. -/
  released : List (Nat × Nat) := []
  /-- Retained results: chunk to step and bytes (R197). -/
  retained : Map (Nat × Bytes) := []
  /-- Chunks whose retained result cannot be read back (R281). -/
  lost : List Nat := []
  /-- Chunk aborts per step (R201). -/
  aborts : Map Nat := []
  members : Map MemberSt := []
  /-- Members missing at the latest abort (R204). -/
  missing : List Nat := []
  /-- Members whose START_ACK is missing, rounds left and the uptime of the next timeout (R205). -/
  startWait : List Nat := []
  startRounds : Nat := 0
  startUp : Option Nat := none
  /-- Global step, reports (step, spine entry) and timers per step (R206, R207). -/
  globalStep : Nat := 0
  reports : List (Nat × Nat) := []
  timers : Map Nat := []
  /-- Digests of chunks of the steps now compared: step, chunk, digest (R271). -/
  digests : List (Nat × Nat × BitVec 64) := []
  /-- Digests of the mirror chunks applied. -/
  mirrorDigests : List (Nat × Nat × BitVec 64) := []
  /-- Step digests heard from the twin and not yet compared. -/
  heardDigests : List (Nat × BitVec 64) := []
  /-- Step digests sent and awaiting the outcome. -/
  sentDigests : List (Nat × BitVec 64) := []
  /-- A context reset under way with the requests to be answered (R370). -/
  resetting : Option (List InFlight) := none
  /-- The context reset has passed its boundary T; its aborts are done. -/
  resetBegun : Bool := false
  resetAborted : Bool := false
  mirrorPlaced : List Placed := []
  mirrorBlocks : Map Nat := []
  /-- Chunk range, place and count the partner declared for the mirror (R342). -/
  mirrorBase : Nat := 0
  mirrorChunks : Nat := 0
  mirrorPlace : BitVec 32 := 0
  mirrorStep : Nat := 0
  mirrorConfig : Bytes := []
  mirrorFmts : List Nat := []
  /-- The taken-over range is served here with its own step and released chunks (R348). -/
  serving : Bool := false
  takenStep : Nat := 0
  takenReleased : List (Nat × Nat) := []
  deriving DecidableEq, Repr

/-- The collective path. -/
structure CollectSt where
  ctxs : Map CtxSt := []
  slots : List Slot := []
  mirrors : List Mirror := []
  cores : Map CoreSt := []
  engs : Map EngSt := []
  slotOrder : Nat := 0
  deriving DecidableEq, Repr

end Sys2Proof.Machine
end

