-- ==== Sys2Proof/Machine/StateSwitch.lean ====
section
/-! DEFINITION. The parts of the State that the chapters on ticks, calendars, switching, tables and
leftover traffic name outside the register pages. -/

namespace Sys2Proof.Machine

/-- One calendar entry with its owner (R43, R50); `bad` marks an uncorrectable error (R351). -/
structure CalEntry where
  grant : BitVec 16
  /-- OWNED and OWNER. -/
  owner : Option CtxNo
  bad : Bool := false
  deriving DecidableEq, Repr

/-- The two calendars of a port (R44); an absent entry is 0 with no owner. -/
structure PortCal where
  active : Map CalEntry := []
  shadow : Map CalEntry := []
  armed : Bool := false
  /-- The armed port was latched at EPOCH_TICK − 1 (R58). -/
  latched : Bool := false
  /-- CAL.STATUS.STALE (R39). -/
  stale : Bool := false
  /-- CAL.STATUS.SUSPENDED (R38, R39). -/
  suspended : Bool := false
  /-- RESUME was accepted: the suspension lifts at the next tick boundary. -/
  lifting : Bool := false
  deriving DecidableEq, Repr

/-- How far a Kite event has come (R170). -/
inductive KitePhase where
  | armed | prepared | switched | settled
  deriving DecidableEq, Repr

/-- One Kite event of an accepted image (R51). -/
structure KiteEvent where
  at_ : TickNo
  /-- The 32 bytes of MAP. -/
  map : Bytes
  /-- Ports of the fibers the event changes, which an armed section of its image names. -/
  ports : List Nat
  phase : KitePhase := .armed
  /-- Fibers dropped at KITE_TICK − 1. -/
  dropped : List Nat := []
  deriving DecidableEq, Repr

/-- A calendar image that waits for its installation (R53). -/
structure CalJob where
  fly : InFlight
  image : Bytes
  arriveUp : Nat
  deriving DecidableEq, Repr

/-- An open echo exchange (R80). -/
structure Echo where
  upstream : Nat
  id : BitVec 16
  departPs : Nat
  sentUp : Nat
  deriving DecidableEq, Repr

/-- A request heard on a port, to be answered in its next block (R80). -/
structure EchoAnswer where
  port : Nat
  id : BitVec 16
  heardPs : Nat
  deriving DecidableEq, Repr

/-- PTP port state of the boundary clock (R41). -/
structure PtpPort where
  via : PtpVia
  /-- The best announce heard: priority1, class, accuracy, variance, priority2, identity. -/
  master : List Nat := []
  lastAnnounceUp : Nat := 0
  /-- Times of the last exchange in ns: t1, t2, t3, t4. -/
  t1 : Option Nat := none
  t2 : Option Nat := none
  t3 : Option Nat := none
  t4 : Option Nat := none
  /-- sequenceId of the last message of each kind heard or sent. -/
  syncSeq : Nat := 0
  delaySeq : Nat := 0
  announceSeq : Nat := 0
  /-- Round-trip mean path delay and offset last computed, ns. -/
  delayNs : Int := 0
  offsetNs : Int := 0
  deriving DecidableEq, Repr

/-- The frame tick, its alignment and the time of day. -/
structure TickSt where
  /-- The tick counter (R6). -/
  tick : TickNo := 0
  /-- Ticks since reset: durations are measured with it, and no count change moves it. -/
  up : Nat := 0
  /-- FC cycles from reset to the present tick boundary. -/
  fcBase : Nat := 0
  /-- FC cycle within the present tick. -/
  fc : Nat := 0
  /-- EC, Marionette and HBM controller cycles from reset to the boundary. -/
  ec : Nat := 0
  mc : Nat := 0
  aligned : Bool := false
  everAligned : Bool := false
  holdover : Bool := false
  /-- TICK.STATUS.UPSTREAM. -/
  upstream : Option (Fin 4) := none
  /-- Uptime of the last valid marker of each upstream (R37). -/
  lastValid : Map Nat := []
  /-- Uptime of the last valid marker taken from any upstream. -/
  lastTaken : Option Nat := none
  /-- Consecutive markers within ±4 ns while unaligned (R39). -/
  goodRun : Nat := 0
  /-- Consecutive markers beyond ±4 ns while aligned (R38). -/
  badRun : Nat := 0
  /-- Uptime at which the present disagreement window began (R40's heading). -/
  disagreeFrom : Option Nat := none
  /-- ROLE was written: the change of master takes place at the next boundary (R34). -/
  rolePending : Bool := false
  echoes : List Echo := []
  answers : List EchoAnswer := []
  nextEcho : BitVec 16 := 0
  /-- PTP time of day in ns (R42). -/
  ptpNs : Nat := 0
  ptpPorts : List PtpPort := []
  /-- The parent port chosen by the best master clock algorithm. -/
  ptpParent : Option PtpVia := none
  deriving DecidableEq, Repr

/-- KIND of an internal cell header (R86). -/
inductive CellKind where
  | unicast | multicast | contrib
  deriving DecidableEq, Repr

/-- What form of packet a run of bytes is: WFP format 1 or 2, or an Ethernet frame. -/
inductive PktFmt where
  | wfp1 | wfp2 | eth
  deriving DecidableEq, Repr

/-- What the ingress die reads of a contribution's header for its owning core (R191, R192). -/
structure ContribTag where
  ctx : Nat
  step : Nat
  chunk : Nat
  weight : Nat
  flags : Nat
  deriving DecidableEq, Repr

/-- One cell waiting in a virtual output queue or crossing to its output die (R86). -/
structure Cell where
  kind : CellKind
  vc : Nat
  first : Bool
  last : Bool
  sched : Bool
  nowait : Bool := false
  trlBad : Bool := false
  data : Bytes
  /-- CELL_INDEX of a CONTRIB cell. -/
  index : Nat := 0
  /-- SRC_PORT; 1,024 + n for packets that core n originates. -/
  srcPort : Nat
  /-- DEST: output port, multicast group or gather-slot descriptor. -/
  dest : Nat
  /-- CELL_SEQ, or the member of a CONTRIB cell. -/
  seq : Nat
  pktLen : Nat
  /-- Form of the packet the cell belongs to. -/
  fmt : PktFmt
  /-- PCP and VID of a bridged frame, for its egress (R119). -/
  tag : Option Nat := none
  /-- Context and chunk of a result or notification this chip originates, for what R180 waits on. -/
  owner : Option (Nat × Nat) := none
  /-- The tag of a CONTRIB cell. -/
  contrib : Option ContribTag := none
  /-- Number of the arrival this cell belongs to. -/
  pkt : Nat
  /-- Die and cluster whose buffer holds the cell, and the die it goes to. -/
  cluster : Nat
  destDie : Nat
  /-- FC time at which the cell was written and from which it may be matched. -/
  bornFc : Nat
  ready : Nat
  /-- The cell has been complete since `ready` (R85: a last cell waits for its trailer). -/
  complete : Bool := true
  /-- The cell is in PKT_OVF (R94). -/
  spilled : Bool := false
  /-- The cell is charged to the credits of its arrival port (R91), else to SHARED (R93). -/
  charged : Bool := false
  deriving DecidableEq, Repr

/-- A cell on its way to its output die: over an outbound lane, or the on-die cell fabric. -/
structure Flying where
  cell : Cell
  fromDie : Nat
  /-- The lane, or none for the on-die cell fabric. -/
  lane : Option Nat
  sentFc : Nat
  deriving DecidableEq, Repr

/-- A packet whose last byte has not arrived (R74). -/
structure Arriving where
  port : Nat
  pkt : Nat
  fmt : PktFmt
  frame : Bytes
  /-- The packet was discarded at its header: only the trailer counters remain to be judged. -/
  dropped : Bool
  /-- It was discarded at one of checks 1 to 5, or is a frame that R63 discards: the trailer is not judged. -/
  failed : Bool := false
  /-- It is for own place and acts when its last byte has been checked (R23). -/
  own : Bool := false
  deriving DecidableEq, Repr

/-- One flow at the resequencer of its output (R97). -/
structure Flow where
  key : FlowKey
  expect : Nat := 0
  /-- The flow's state was cleared: it starts again at the number of its next cell (R104). -/
  fresh : Bool := false
  /-- Held cells with the FC time of their arrival. -/
  held : List (Cell × Nat) := []
  /-- Cells of the packet in assembly. -/
  asm : List Cell := []
  /-- The packet in assembly lost a cell: its other cells are discarded. -/
  poisoned : Bool := false
  /-- FC time at which the first cell of the packet in assembly entered EGRESS. -/
  asmFc : Nat := 0
  /-- Every condition of R101 held when the first cell reached the egress. -/
  cut : Bool := false
  /-- FC time at which its cut-through transmission began. -/
  cutSent : Option Nat := none
  deriving DecidableEq, Repr

/-- A packet waiting in an egress queue. -/
structure EgPkt where
  id : Nat
  port : Nat
  vc : Nat
  /-- Arrival port, or 1,024 + n. -/
  src : Nat
  bytes : Bytes
  fmt : PktFmt
  /-- VID and PCP of a bridged frame. -/
  tag : Option Nat := none
  /-- Its trailer failed at ingress: it is discarded when chosen (R101). -/
  trlBad : Bool := false
  /-- Cells it holds in EGRESS, and the die-to-die source they came from. -/
  cells : Nat
  /-- Die whose die-to-die credits its cells hold, if they hold any (R92). -/
  srcDie : Option Nat
  enterFc : Nat
  /-- It may be cut through (R101). -/
  cut : Bool := false
  /-- Sub-slot number (uptime × 4 + s) from which WAIT_LIMIT counts (R46). -/
  waitFrom : Nat
  /-- The wait limit has passed without a grant (R46). -/
  expired : Bool := false
  /-- Context and chunk of a result or notification, for what R180 waits on. -/
  owner : Option (Nat × Nat) := none
  deriving DecidableEq, Repr

/-- A token bucket (R131): count in 1/65,536 byte, exact at FC time `at_`. -/
structure Bucket where
  count : Int := 0
  at_ : Nat := 0
  deriving DecidableEq, Repr

/-- Run-time state of a port number outside its pages. -/
structure PortSt where
  enabled : Bool := false
  lull : Bool := false
  fenced : Bool := false
  /-- The link-level detector's decision (R354). -/
  up : Bool := false
  kite : Bool := false
  /-- A port reset was accepted: it acts, and its requests are answered, at the next tick boundary (R371). -/
  resetting : Option (List InFlight) := none
  /-- Uptime since which none of the four conditions of R354 holds, while DOWN. -/
  goodSince : Nat := 0
  /-- Deficits of VC0, VC1, VC3 in bytes (R103). -/
  deficit : List Int := [0, 0, 0]
  /-- VC whose turn the DWRR is in, among 0, 1, 2 (for VC0, VC1, VC3). -/
  turn : Nat := 2
  /-- FC time at which the last byte handed to the transmitter has left. -/
  busyTo : Nat := 0
  /-- FC time from which the next packet may start: the gap of R62 has passed. -/
  txFree : Nat := 0
  /-- End of the usable window of the granted transmission in progress (R30). -/
  txWindow : Option Nat := none
  /-- Sub-slots of the present tick in which a granted packet started. -/
  grantedSubs : List Nat := []
  lastSentFc : Nat := 0
  /-- Latest cumulative credit count heard per VC, absent before the first block (R91). -/
  creditSeen : Map Nat := []
  /-- Credits used per VC since link-up. -/
  creditUsed : Map Nat := []
  /-- Credits freed here per VC, and the count last sent. -/
  freed : Map Nat := []
  freedSent : Map Nat := []
  buckets : List Bucket := [{}, {}, {}, {}, {}]
  /-- The VC2 policer, in 1/6,400 byte; it fills at reset (R135). -/
  vc2 : Bucket := { count := 53094400 }
  /-- FC time since which a VC2 packet waits for tokens (R135). -/
  vc2Wait : Option Nat := none
  /-- Uptime of the last TRAILER_ORIGIN record of this arrival port (R74). -/
  trailerRec : Option Nat := none
  deriving DecidableEq, Repr

/-- Run-time state of a fabric die. -/
structure DieSt where
  dptr : Nat := 0
  cptr : List Nat := [0, 0, 0, 0]
  aptr : List Nat := [0, 0, 0, 0]
  /-- The lane-side VC2 policer in hundredths of a cell (R135). -/
  laneTokens : Int := 6400
  /-- Cell time at which `laneTokens` is exact. -/
  laneAt : Nat := 0
  /-- Deficits of VC0, VC1, VC3 toward the lanes, in cells, per cluster. -/
  laneDeficit : List (List Nat) := [[0, 0, 0], [0, 0, 0], [0, 0, 0], [0, 0, 0]]
  /-- VC whose turn each cluster's DWRR toward the lanes is in. -/
  laneTurn : List Nat := [2, 2, 2, 2]
  /-- Outbound lanes out of service (R87). -/
  lanesOut : List Nat := []
  /-- Cell time of the last match, counted from reset: 50 in each tick. -/
  lastMatch : Option Nat := none
  /-- Cells moved by spill or refill in the present tick (R94). -/
  ovfMoved : Nat := 0
  deriving DecidableEq, Repr

/-- The switching path. -/
structure SwitchSt where
  arriving : List Arriving := []
  voq : List Cell := []
  flying : List Flying := []
  flows : List Flow := []
  egress : List EgPkt := []
  /-- CELL_SEQ of the next cell of each flow (R96). -/
  seqs : List (FlowKey × Nat) := []
  /-- Die-to-die credits in use per (port, VC, source die) (R92). -/
  dtdUsed : List ((Nat × Nat × Nat) × Nat) := []
  /-- Die-to-die credits on their way back per (port, VC, source die). -/
  dtdBack : List ((Nat × Nat × Nat) × Nat) := []
  nextPkt : Nat := 0
  /-- FLOW_SEQ per destination place and VC (R69). -/
  flowSeq : List ((Nat × Nat) × Nat) := []
  ports : Map PortSt := []
  dies : Map DieSt := []
  deriving DecidableEq, Repr

/-- One LPM entry as stored (R113). -/
structure LpmEntry where
  place : BitVec 32
  len : Nat
  vc : Nat
  vcMask : Nat
  ctxMatch : Bool
  ctx : Nat
  group : Nat
  gen : Nat
  deriving DecidableEq, Repr

/-- A next-hop group (R116). -/
structure NhGroup where
  hash : Bool := false
  ports : List Nat := []
  gen : Nat := 0
  /-- The rotating pointer of SPRAY ties (R84). -/
  ptr : Nat := 0
  deriving DecidableEq, Repr

/-- A multicast group (R117): ports in ascending order. -/
structure McGroup where
  ports : List Nat := []
  gen : Nat := 0
  deriving DecidableEq, Repr

/-- A VLAN entry (R118). -/
structure VlanEntry where
  valid : Bool := false
  learn : Bool := false
  flood : Nat := 0
  remote : BitVec 32 := 0
  gen : Nat := 0
  deriving DecidableEq, Repr

/-- A MAC entry in one die's replica (R122). -/
structure MacEntry where
  vid : Nat
  mac : BitVec 48
  fixed : Bool
  remote : Bool
  dest : BitVec 32
  hit : Bool
  gen : Nat
  /-- FC time at which it was written: a flush sweep spares what it has already passed (R128). -/
  at_ : Nat := 0
  deriving DecidableEq, Repr

/-- A learn waiting in the relay (R124). -/
structure Learn where
  die : Nat
  vid : Nat
  mac : BitVec 48
  remote : Bool
  dest : BitVec 32
  deriving DecidableEq, Repr

/-- A table command in progress (R115, R128), or one that waits for it (R106). -/
structure TblJob where
  fly : InFlight
  op : Nat
  block : TblBlock
  startFc : Nat := 0
  deriving DecidableEq, Repr

/-- The forwarding tables. The four replicas of the LPM, next-hop, multicast and VLAN tables hold
the same entries (R106), so they are one list each and `errors` marks positions a die cannot read;
each die has its own MAC replica (R124). -/
structure TableSt where
  lpm : List LpmEntry := []
  nh : Map NhGroup := []
  mc : Map McGroup := []
  vlan : Map VlanEntry := []
  mac0 : Map MacEntry := []
  mac1 : Map MacEntry := []
  mac2 : Map MacEntry := []
  mac3 : Map MacEntry := []
  relay : List Learn := []
  busy : Option TblJob := none
  waiting : List TblJob := []
  /-- Uptime of the last aging sweep (R125). -/
  agedUp : Nat := 0
  /-- Uncorrectable entries: die, table, position (R108). -/
  errors : List (Nat × TblKind × Nat) := []
  deriving DecidableEq, Repr

end Sys2Proof.Machine
end

