-- ==== Sys2Proof/Machine/StateTwin.lean ====
section
/-! DEFINITION. The parts of the State behind the twin, faults, dumps, alarm explanation records,
bandwidth windows and the always-on domain. -/

namespace Sys2Proof.Machine

/-- TWIN.STATE (R338). -/
inductive TwinState where
  | idle | attach | verify | paired | lull | solo
  deriving DecidableEq, Repr

/-- A RECORD or COPY frame sent and not yet acknowledged (R337). -/
structure Unacked where
  frame : Bytes
  credits : Nat
  sentUp : Nat
  deriving DecidableEq, Repr

/-- A frame that waits for twin credit (R268, R337). -/
structure TwinWait where
  frame : Bytes
  credits : Nat
  deriving DecidableEq, Repr

/-- One context of the attach copy as the receiver sees it (R340). -/
structure CopyIn where
  ctx : Nat
  range : Nat
  /-- Bytes written, by copy sequence number. -/
  parts : Map Bytes := []
  /-- The sender's COPY_END: chunk count and fold. -/
  ended : Option (Nat × BitVec 64) := none
  deriving DecidableEq, Repr

/-- The twin role and link. -/
structure TwinSt where
  state : TwinState := .idle
  /-- The state to go back to when the attach fails (R341). -/
  former : TwinState := .idle
  /-- The device certificate and nonce of the partner's HELLO, and the nonce of the own one (R339). -/
  partnerCert : Bytes := []
  partnerNonce : Bytes := []
  ownNonce : Bytes := []
  helloHeard : Bool := false
  proofGood : Bool := false
  proofUp : Nat := 0
  attachUp : Nat := 0
  helloUp : Nat := 0
  /-- Uptime of the last valid heartbeat and of the last lane-tag block with PARTNER_ID (R346). -/
  hbUp : Nat := 0
  tagUp : Nat := 0
  misses : Nat := 0
  /-- Uptime of the boundary last judged for a miss. -/
  checkUp : Nat := 0
  /-- Cumulative credits the partner freed, used here, and freed here (R337). -/
  creditSeen : Nat := 0
  creditUsed : Nat := 0
  freed : Nat := 0
  partnerState : Nat := 0
  partnerHeld : Bool := false
  partnerTakeover : Bool := false
  unacked : List Unacked := []
  waiting : List TwinWait := []
  /-- Copies still to be sent: context, range, chunk. -/
  copyQueue : List (Nat × Nat × Nat) := []
  copySeq : Nat := 0
  /-- Fold and chunk count of what was sent, keyed context + 256 × range. -/
  copyFold : Map (Nat × BitVec 64) := []
  copied : List (Nat × Nat) := []
  /-- Keys of `copyFold` whose COPY_END was sent. -/
  endsSent : List Nat := []
  copyIn : List CopyIn := []
  /-- Contexts of the partner whose CTX_CONFIG of this attach announces a copy. -/
  announced : List Nat := []
  /-- Chunk digests heard: context, step, digests by chunk. -/
  heardChunks : List (Nat × Nat × Nat × BitVec 64) := []
  /-- A taken-over range is held (RANGE_HELD). -/
  rangeHeld : Bool := false
  /-- Released chunks of the partner: context, chunk to the last step heard (R343). -/
  relSteps : List ((Nat × Nat) × Nat) := []
  /-- Last record step per (context, chunk). -/
  recSteps : List ((Nat × Nat) × Nat) := []
  handoverSent : List Nat := []
  /-- Contexts of the taken-over range that a replacement has enabled: they drain and are handed over. -/
  handback : List Nat := []
  /-- Takeover under way since this uptime: its ABORTs leave within 25 ticks (R348). -/
  takeoverUp : Option Nat := none
  /-- A takeover has not yet released every record it found: context, step and chunk of what is left. -/
  taking : Bool := false
  takeoverLeft : List (Nat × Nat × Nat) := []
  deriving DecidableEq, Repr

/-- A link of an alarm explanation record (R394). -/
structure AerLink where
  seq : Nat
  cond : Nat
  value : Nat
  deriving DecidableEq, Repr

/-- An alarm explanation record before MC2 gives it a SEQ (R394). -/
structure AerRec where
  block : Nat
  /-- The ATTN bit raised, or none for a record without attention. -/
  attn : Option Nat
  cls : Nat
  unaligned : Bool
  tick : TickNo
  /-- FC cycle of the cause: records of one cycle take SEQ in ascending LOCATION. -/
  fc : Nat
  ptp : Nat
  location : Nat
  detail : Nat
  cause : Nat
  links : List AerLink
  deriving DecidableEq, Repr

/-- The record window of one management port (R396). -/
structure AerWin where
  sel : BitVec 32 := 0
  status : Nat := 0
  rec_ : Bytes := []
  deriving DecidableEq, Repr

/-- Alarm explanation records: queue, early ring and windows. -/
structure AerSt where
  queue : List AerRec := []
  seq : Nat := 0
  gap : Bool := false
  /-- Sequence numbers dropped because the ring's die is hung. -/
  dropped : List Nat := []
  /-- The early ring of R284: SEQ and bytes, newest first. -/
  early : List (Nat × Bytes) := []
  win0 : AerWin := {}
  win1 : AerWin := {}
  deriving DecidableEq, Repr

/-- Byte counts of a port in the present bandwidth window (R390). -/
structure BwPort where
  rx : Nat := 0
  tx : Nat := 0
  granted : Nat := 0
  deriving DecidableEq, Repr

/-- A fence request held back (R360). -/
structure HeldFence where
  port : Nat
  /-- Asked for by a write. -/
  written : Bool
  /-- The port's own score asked. -/
  byScore : Bool
  /-- Members whose scores asked: context and member. -/
  byMembers : List (Nat × Nat)
  deriving DecidableEq, Repr

/-- A node of the wait-for graph by its member code, with the uptime of its last progress and
what its object showed then (R362, R363). -/
structure WaitNode where
  code : Nat
  since : Nat
  print : List Nat
  deriving DecidableEq, Repr

/-- Health scores, fences, the Doldrums detector and control cores. -/
structure FaultSt where
  /-- Uptimes of fences applied, newest first (R359). -/
  fences : List Nat := []
  held : List HeldFence := []
  /-- Uptime at which the present HEALTH_RECOVER interval began (R356). -/
  interval : Nat := 0
  /-- HEALTH_RECOVER as the present interval took it at its start. -/
  period : Nat := 25000
  /-- Per port in the interval: discard penalties drawn, and whether any penalty fell. -/
  penalty : Map Nat := []
  hurt : List Nat := []
  /-- Event that last lowered a port's score: record, cause code and value (R358). -/
  lowered : Map AerLink := []
  nodes : List WaitNode := []
  /-- Cycles reported and not progressed since: their member codes. -/
  reported : List (List Nat) := []
  /-- Uptimes of the last watchdog expiry per core (R353). -/
  expiries : Map Nat := []
  stopped : List Nat := []
  deriving DecidableEq, Repr

/-- A snapshot under way (R366). -/
structure Snapshot where
  cause : Nat
  /-- Context of a context reset, or none. -/
  ctx : Option Nat
  /-- Slot descriptors it copies. -/
  slots : List Nat
  /-- Page dump of TRIGGER. -/
  pages : Bool
  /-- Contexts that a Doldrums event resets when it completes. -/
  thenReset : List Nat
  tick : TickNo
  ptp : Nat
  deriving DecidableEq, Repr

/-- The dump engine (R366 to R378). -/
structure DumpSt where
  snaps : List Snapshot := []
  /-- The last-gasp buffer in Marionette SRAM (R376). -/
  lastGasp : Bytes := []
  /-- The fatal cause latched, its tick and time, and a second one (R375). -/
  fatal : Option (Nat × TickNo × Nat) := none
  second : Nat := 0
  /-- The fatal dump is complete: the chip is held (R375). -/
  held : Bool := false
  /-- What the last fatal dump left, reported after release (R377, R378). -/
  diesDumped : List Nat := []
  gaspDies : List Nat := []
  fatalLen : Nat := 0
  /-- Last fatal cause, kept over the release (R377). -/
  lastCause : Nat := 0
  deriving DecidableEq, Repr

/-- Stage, reset and pins (R324, R406 to R409). -/
structure SysSt where
  /-- 0 to 3 for A to D, as GLB.STAGE shows it. -/
  stage : Nat := 0
  /-- Stage A has been reached: the boot ROM serves M0 and M1. -/
  serving : Bool := false
  /-- A verified image runs: slot, and header fields (R329). -/
  fwSlot : Option Nat := none
  fwVersion : Nat := 0
  fwSvn : Nat := 0
  fwSteppings : Nat := 0
  fwMeasure : Bytes := []
  /-- ROOT_KEY of the verified images (R328, R331). -/
  rootKey : Bytes := []
  bootReason : Nat := 0
  slotAValid : Bool := false
  slotBValid : Bool := false
  verified : Bool := false
  straps : BitVec 3 := 0
  lastReset : Nat := 0
  lastCause : Nat := 0
  /-- A warm reset was accepted: it starts 1 µs after its reply (R373). -/
  warmPending : Option Nat := none
  /-- Tripped at 110 °C (R382), and the stage that the trip left. -/
  tripped : Bool := false
  tripFrom : Nat := 3
  /-- Uptime of the last reading above 100 °C while tripped (R383). -/
  hotUp : Nat := 0
  /-- Thermal shutdown latched (R407). -/
  thermalLatch : Bool := false
  /-- Dies whose TJ_WARN may be raised again (R381) are those not listed. -/
  warned : List Nat := []
  pgOut : Bool := true
  tempAlertN : Bool := true
  /-- ELS_ENn, all modules (R419). -/
  elsEn : Bool := false
  /-- The always-on domain runs from its own oscillator (R405). -/
  aonLost : Bool := false
  sysclkLost : Bool := false
  /-- Repairs kept over a warm reset stand with the fuses. -/
  freeCtr : Nat := 0
  /-- Calendar images accepted since reset, newest last: GENERATION, tick, digest (R334). -/
  calImages : List (Nat × TickNo × Bytes) := []
  bw : Map BwPort := []
  /-- Uptime at which the present bandwidth window began or is due. -/
  bwFrom : Option Nat := none
  bwStart : TickNo := 0
  /-- Uptime of the last training per channel: stack × 32 + channel. -/
  trained : Map Nat := []
  chanFail : List Nat := []
  /-- Uptime of the Windsock's last sample (R140). -/
  lastSample : Nat := 0
  /-- Corrected errors per 1 KiB device row: chip address / 1,024 (R282). -/
  rowErrors : Map Nat := []
  /-- HBM words that cannot be corrected, by chip address / 32. -/
  badWords : List Nat := []
  deriving DecidableEq, Repr

/-- What the block has sent, newest first. -/
inductive Sent where
  /-- A management frame: HCP bytes and the port and transport it leaves by. -/
  | reply (port : MPort) (via : Transport) (frame : Bytes)
  /-- A WFP packet or Ethernet frame on a port. -/
  | packet (port : Nat) (vc : Nat) (granted : Bool) (bytes : Bytes)
  /-- A credit, keepalive or lane-tag block. -/
  | block (port : Nat) (bytes : Bytes)
  /-- A lane-tag block on a carrier: fiber and wavelength. -/
  | tag (fiber wave : Nat) (bytes : Bytes)
  /-- A twin frame. -/
  | twin (frame : Bytes)
  /-- A PTP message. -/
  | ptp (via : PtpVia) (msg : Bytes)
  deriving DecidableEq, Repr

end Sys2Proof.Machine
end

