-- ==== Sys2Proof/Machine/State.lean ====
section
/-! DEFINITION. The State of the block, the reasons a step can stop, and the state at reset. -/

namespace Sys2Proof.Machine

/-- The calendars of every port, images under installation and Kite events (R44, R53, R51). -/
structure CalSt where
  ports : Map PortCal := []
  jobs : List CalJob := []
  kites : List KiteEvent := []
  deriving DecidableEq, Repr

/-- The whole state of a WZ5-1024. Every register of every page is held in `regs` under its HCP
address; what the spec names outside the pages stands in the typed parts. -/
structure State where
  /-- Commands that wait, first in, first out. -/
  pending : List Instr := []
  /-- Registers by HCP address (R309); an address not listed holds its reset value. -/
  regs : Map Word64 := []
  /-- HBM4E by 39-bit chip address (R272). -/
  hbm : List Host.Cell := []
  clk : TickSt := {}
  cal : CalSt := {}
  sw : SwitchSt := {}
  tbl : TableSt := {}
  pho : PhotonSt := {}
  mgmt : MgmtSt := {}
  fuse : FuseSt := {}
  col : CollectSt := {}
  twin : TwinSt := {}
  aer : AerSt := {}
  flt : FaultSt := {}
  dump : DumpSt := {}
  sys : SysSt := {}
  /-- What the block has sent, newest first: the model's own record of its outputs. -/
  out : List Sent := []
  deriving DecidableEq, Repr

/-- Reasons a step can fault. The spec leaves no input of the block undefined (R13), so no meaning
raises one. -/
inductive Fault where
  /-- An HBM address outside the 39-bit chip address space (R272); raised by no command, since every
  address a command names is first brought into the space. Safe. -/
  | noSuchAddress (addr : Nat)
  deriving DecidableEq, Repr

/-- Reasons the model refuses a command. -/
inductive Refusal where
  /-- The command has no meaning yet; raised by arms of `exec` only. Safe. -/
  | notModelled (mnemonic : String)
  deriving DecidableEq, Repr

/-- The machine right after reset (R324, R369): no stage reached, every table, calendar and queue
empty, every register at its reset value, fuses as manufactured. -/
def State.reset : State := {}

end Sys2Proof.Machine
end

