-- ==== Sys2Proof/Machine/Ops.lean ====
section
/-! DEFINITION. The named operations over sparse maps, registers, HBM and the clocks. -/

namespace Sys2Proof.Machine

/-! Sparse maps: keys strictly rising -/

/-- The value at a key. -/
def mget {α : Type} : Map α → Nat → Option α
  | [], _ => none
  | (k, v) :: r, i => if k = i then some v else mget r i

/-- Put a value at a key, keeping keys in rising order. -/
def mput {α : Type} : Map α → Nat → α → Map α
  | [], i, x => [(i, x)]
  | (k, v) :: r, i, x =>
    if i < k then (i, x) :: (k, v) :: r
    else if i = k then (i, x) :: r
    else (k, v) :: mput r i x

/-- Remove a key. -/
def mdel {α : Type} (m : Map α) (i : Nat) : Map α := m.filter fun kv => kv.1 != i

/-- The value at a key, or a default. -/
def mgetD {α : Type} (m : Map α) (i : Nat) (d : α) : α := (mget m i).getD d

/-- Replace the value at a key by a function of it. -/
def mupd {α : Type} (m : Map α) (i : Nat) (d : α) (f : α → α) : Map α := mput m i (f (mgetD m i d))

/-- The keys of a map. -/
def mkeys {α : Type} (m : Map α) : List Nat := m.map Prod.fst

/-- Association lists with keys of any type: lookup. -/
def aget {κ α : Type} [DecidableEq κ] : List (κ × α) → κ → Option α
  | [], _ => none
  | (k, v) :: r, i => if k = i then some v else aget r i

/-- Association lists with keys of any type: update in place or append. -/
def aput {κ α : Type} [DecidableEq κ] : List (κ × α) → κ → α → List (κ × α)
  | [], i, x => [(i, x)]
  | (k, v) :: r, i, x => if k = i then (k, x) :: r else (k, v) :: aput r i x

/-! Registers -/

/-- The value that a register holds (no read side effect): its entry, else its reset value. -/
def State.rget (s : State) (a : Nat) : Nat :=
  match mget s.regs a with
  | some v => v.toNat
  | none => resetOf a

/-- A register file with `v` at a register, in canonical form: an entry equal to the reset value is not listed. -/
def regsPut (regs : Map Word64) (a v : Nat) : Map Word64 :=
  if BitVec.ofNat 64 v = BitVec.ofNat 64 (resetOf a) then mdel regs a
  else mput regs a (BitVec.ofNat 64 v)

/-- Store a register. -/
def State.rset (s : State) (a v : Nat) : State := { s with regs := regsPut s.regs a v }

/-- Bits `hi:lo` of a register. -/
def State.fget (s : State) (a hi lo : Nat) : Nat := bits (s.rget a) hi lo

/-- Store bits `hi:lo` of a register. -/
def State.fset (s : State) (a hi lo v : Nat) : State := s.rset a (putBits (s.rget a) hi lo v)

/-- One bit of a register. -/
def State.bget (s : State) (a i : Nat) : Bool := (s.rget a).testBit i

/-- Store one bit of a register. -/
def State.bset (s : State) (a i : Nat) (b : Bool) : State := s.fset a i i (b2n b)

/-- Add to a 64-bit saturating counter (R322). -/
def State.bump (s : State) (a : Nat) (n : Nat := 1) : State := s.rset a (satAdd 64 (s.rget a) n)

/-- Add to a 32-bit saturating counter (R319). -/
def State.bump32 (s : State) (a : Nat) (n : Nat := 1) : State := s.rset a (satAdd 32 (s.rget a) n)

/-- Advance a 32-bit generation or sequence, modulo 2^32. -/
def State.advance (s : State) (a : Nat) : State := s.rset a ((s.rget a + 1) % 2 ^ 32)

/-- Add to a port counter. -/
def State.portCtr (s : State) (c : PortCtr) (p : Nat) (n : Nat := 1) : State := s.bump (c.reg p) n

/-- Add to a context counter. -/
def State.ctxCtr (s : State) (c : CtxCtr) (ctx : Nat) (n : Nat := 1) : State := s.bump32 (c.reg ctx) n

/-- Add to a GLB counter. -/
def State.glbCtr (s : State) (c : GlbCtr) : State := s.bump c.reg

/-- Drop every stored register that a test names: it reads its reset value again. -/
def State.rclear (s : State) (p : Nat → Bool) : State := { s with regs := s.regs.filter fun kv => !p kv.1 }

/-! Clocks -/

/-- The current tick as a number. -/
def State.tick (s : State) : Nat := s.clk.tick.toNat

/-- FC cycles since reset. -/
def State.fcNow (s : State) : Nat := s.clk.fcBase + s.clk.fc

/-- Move the FC cycle within the tick forward; it never moves back. -/
def State.atFc (s : State) (fc : FcCycle) : State :=
  { s with clk := { s.clk with fc := max s.clk.fc fc.val } }

/-- Sub-slots since reset: four of 160 FC cycles each tick (R6). -/
def State.subNow (s : State) : Nat := s.clk.up * 4 + min 3 (s.clk.fc / 160)

/-- Nanoseconds since the PTP epoch now (R42): 400 ns a tick and 0.625 ns an FC cycle. -/
def State.ptpNow (s : State) : Nat := s.clk.ptpNs + s.clk.fc * 5 / 8

/-- Ticks given as a 48-bit number after the present tick. -/
def State.tickPlus (s : State) (n : Nat) : TickNo := s.clk.tick + BitVec.ofNat 48 n

/-- A draw of the device's random source. -/
def State.draw (s : State) : State × Bytes :=
  ({ s with sys := { s.sys with freeCtr := s.sys.freeCtr + 1 } },
    beBytes 32 (Sys2Proof.Config.random s.sys.freeCtr).toNat)

/-- A free value: one that the spec does not state, fresh for each use. -/
def State.free (s : State) (key : Nat) : State × Nat :=
  ({ s with sys := { s.sys with freeCtr := s.sys.freeCtr + 1 } },
    (Sys2Proof.Config.freeValue key s.sys.freeCtr).toNat)

/-- The block sends something. -/
def State.send (s : State) (x : Sent) : State := { s with out := x :: s.out }

/-- Fold a state function over a list. -/
def State.each {α : Type} (s : State) (l : List α) (f : State → α → State) : State := l.foldl f s

/-! HBM: bytes by 39-bit chip address (R272) -/

/-- What a byte of HBM that nothing has written reads as (DESIGN CHOICE: the spec gives none). -/
def hbmDefault : Byte := 0

/-- The 39-bit chip address space. -/
def hbmSize : Nat := 2 ^ 39

/-- One byte of HBM. -/
def memGet : List Host.Cell → Nat → Byte
  | [], _ => hbmDefault
  | c :: r, a => if c.1 = a then c.2 else memGet r a

/-- Put a byte into an HBM list in canonical form. -/
def memPut : List Host.Cell → Nat → Byte → List Host.Cell
  | [], a, b => if b = hbmDefault then [] else [⟨a, b⟩]
  | c :: r, a, b =>
    if a < c.1 then (if b = hbmDefault then c :: r else ⟨a, b⟩ :: c :: r)
    else if a = c.1 then (if b = hbmDefault then r else ⟨a, b⟩ :: r)
    else c :: memPut r a b

/-- Addresses strictly rise. -/
def memSorted : List Host.Cell → Bool
  | [] => true
  | [_] => true
  | c :: d :: r => decide (c.1 < d.1) && memSorted (d :: r)

/-- The canonical form: rising addresses inside the space, and no entry equal to the default. -/
def Memory.wf (m : List Host.Cell) : Bool :=
  memSorted m && m.all fun c => c.2 != hbmDefault && decide (c.1 < hbmSize)

/-- A byte of HBM; an address is taken modulo the space. -/
def State.hget (s : State) (a : Nat) : Byte := memGet s.hbm (a % hbmSize)

/-- `n` bytes of HBM. -/
def State.hread (s : State) (a n : Nat) : Bytes := (List.range n).map fun i => s.hget (a + i)

/-- Bytes stored one after the other. -/
def memPuts : List Host.Cell → Nat → Bytes → List Host.Cell
  | m, _, [] => m
  | m, a, b :: r => memPuts (memPut m (a % hbmSize) b) (a + 1) r

/-- Store bytes in HBM. -/
def State.hwrite (s : State) (a : Nat) (bs : Bytes) : State := { s with hbm := memPuts s.hbm a bs }

/-! Typed parts by number -/

def State.port (s : State) (p : Nat) : PortSt := mgetD s.sw.ports p {}
def State.setPort (s : State) (p : Nat) (f : PortSt → PortSt) : State :=
  { s with sw := { s.sw with ports := mupd s.sw.ports p {} f } }
def State.die (s : State) (d : Nat) : DieSt := mgetD s.sw.dies d {}
def State.setDie (s : State) (d : Nat) (f : DieSt → DieSt) : State :=
  { s with sw := { s.sw with dies := mupd s.sw.dies d {} f } }
def State.lane (s : State) (l : Nat) : LaneSt := mgetD s.pho.lanes l {}
def State.setLane (s : State) (l : Nat) (f : LaneSt → LaneSt) : State :=
  { s with pho := { s.pho with lanes := mupd s.pho.lanes l {} f } }
def State.carrier (s : State) (f w : Nat) : CarrierSt := mgetD s.pho.carriers (f * 9 + w) {}
def State.setCarrier (s : State) (f w : Nat) (g : CarrierSt → CarrierSt) : State :=
  { s with pho := { s.pho with carriers := mupd s.pho.carriers (f * 9 + w) {} g } }
def State.els (s : State) (m : Nat) : ElsSt := mgetD s.pho.els m {}
def State.setEls (s : State) (m : Nat) (f : ElsSt → ElsSt) : State :=
  { s with pho := { s.pho with els := mupd s.pho.els m {} f } }
def State.ctx (s : State) (c : Nat) : CtxSt := mgetD s.col.ctxs c {}
def State.setCtx (s : State) (c : Nat) (f : CtxSt → CtxSt) : State :=
  { s with col := { s.col with ctxs := mupd s.col.ctxs c {} f } }
def State.core (s : State) (n : Nat) : CoreSt := mgetD s.col.cores n {}
def State.setCore (s : State) (n : Nat) (f : CoreSt → CoreSt) : State :=
  { s with col := { s.col with cores := mupd s.col.cores n {} f } }
def State.eng (s : State) (e : Nat) : EngSt := mgetD s.col.engs e {}
def State.setEng (s : State) (e : Nat) (f : EngSt → EngSt) : State :=
  { s with col := { s.col with engs := mupd s.col.engs e {} f } }
def State.pcal (s : State) (p : Nat) : PortCal := mgetD s.cal.ports p {}
def State.setPcal (s : State) (p : Nat) (f : PortCal → PortCal) : State :=
  { s with cal := { s.cal with ports := mupd s.cal.ports p {} f } }
def State.setSys (s : State) (f : SysSt → SysSt) : State := { s with sys := f s.sys }
def State.setClk (s : State) (f : TickSt → TickSt) : State := { s with clk := f s.clk }
def State.setSw (s : State) (f : SwitchSt → SwitchSt) : State := { s with sw := f s.sw }
def State.setTbl (s : State) (f : TableSt → TableSt) : State := { s with tbl := f s.tbl }
def State.setPho (s : State) (f : PhotonSt → PhotonSt) : State := { s with pho := f s.pho }
def State.setMgmt (s : State) (f : MgmtSt → MgmtSt) : State := { s with mgmt := f s.mgmt }
def State.setFuse (s : State) (f : FuseSt → FuseSt) : State := { s with fuse := f s.fuse }
def State.setCol (s : State) (f : CollectSt → CollectSt) : State := { s with col := f s.col }
def State.setTwin (s : State) (f : TwinSt → TwinSt) : State := { s with twin := f s.twin }
def State.setAer (s : State) (f : AerSt → AerSt) : State := { s with aer := f s.aer }
def State.setFlt (s : State) (f : FaultSt → FaultSt) : State := { s with flt := f s.flt }
def State.setDump (s : State) (f : DumpSt → DumpSt) : State := { s with dump := f s.dump }
def State.setCalSt (s : State) (f : CalSt → CalSt) : State := { s with cal := f s.cal }

end Sys2Proof.Machine
end

