-- ==== Sys2Proof/Machine/Flags.lean ====
section
/-! DEFINITION. Flags: attention bits and their epoch (R315, R296), programmable counters (R385), alarm
explanation records (R394), the status pins (R407, R408, R419), and how a meaning ends. -/

namespace Sys2Proof.Machine

/-! Programmable counters -/

/-- An event of a page: each of the eight counters that selects it and is enabled adds `n` (R385). -/
def State.pmc (s : State) (base code n : Nat) : State :=
  s.each (List.range 8) fun s i =>
    if s.rget (base + 0x040 + 4 * i) = 2 ^ 31 + code then s.bump (base + 0x060 + 8 * i) n else s

/-! Attention -/

/-- The attention epoch advances at the end of a cycle that gained an unmasked set bit: once per FC
cycle (R296). -/
def State.gainAttention (s : State) : State :=
  if s.mgmt.epochFc = some s.fcNow then s
  else s.setMgmt fun m => { m with epoch := m.epoch + 1, epochFc := some s.fcNow }

/-- ATTN bit `b` of the page at `base` is set by the hardware (R315). -/
def State.attn (s : State) (base b : Nat) : State :=
  let old := s.rget (base + 0x010)
  let s := s.pmc base 3 1
  if old.testBit b then s
  else
    let s := s.rset (base + 0x010) (old ||| 2 ^ b)
    if (s.rget (base + 0x014)).testBit b then s else s.gainAttention

/-- Class of an ATTN bit by the byte it lies in (R315): 0 TELEMETRY, 1 TWIN, 2 HEALTH, 3 FAULT. -/
def attnClass (b : Nat) : Nat := b / 8

/-- The unmasked ATTN bits of the page whose ATTN register is at `a`. -/
def State.unmasked (s : State) (a : Nat) : Nat := s.rget a - (s.rget a &&& s.rget (a + 4))

/-- STATUS bits 11:8 of R296: FAULT, HEALTH, TWIN, TELEMETRY over every page. -/
def State.summary (s : State) : Nat :=
  (s.regs.map Prod.fst).foldl (fun acc a =>
    if a < 2 ^ 32 ∧ a % 4096 = 0x010 then
      let u := s.unmasked a
      acc ||| (b2n (bits u 31 24 != 0) * 8) ||| (b2n (bits u 23 16 != 0) * 4)
        ||| (b2n (bits u 15 8 != 0) * 2) ||| b2n (bits u 7 0 != 0)
    else acc) (if s.dump.held then 8 else 0)

/-! Alarm explanation records -/

/-- The record's place among queued records: those of one FC cycle stand in ascending LOCATION (R394). -/
def queueRec (r : AerRec) : List AerRec → List AerRec
  | [] => [r]
  | x :: rest => if x.fc = r.fc ∧ r.location < x.location then r :: x :: rest else x :: queueRec r rest

/-- SEQ that the next record to be queued is expected to take. -/
def State.nextRecord (s : State) : Nat := (s.aer.seq + s.aer.queue.length) % 2 ^ 32

/-- MC2 is given a record; a full queue of 4,096 drops it, counts it and marks the next (R394). -/
def State.record (s : State) (base : Nat) (bit : Option Nat) (cause detail : Nat)
    (links : List AerLink := []) : State :=
  if s.aer.queue.length < 4096 then
    let r : AerRec := {
      block := bits base 27 20, attn := bit, cls := (match bit with | some b => attnClass b | none => 4),
      unaligned := !s.clk.everAligned, tick := s.clk.tick, fc := s.fcNow, ptp := s.ptpNow,
      location := base, detail := detail % 2 ^ 32, cause := cause, links := links.take 3 }
    s.setAer fun a => { a with queue := queueRec r a.queue }
  else (s.bump (telReg 0x310)).setAer fun a => { a with gap := true }

/-- An attention cause: the bit is set and its record is given to MC2 (R394). -/
def State.alarm (s : State) (base b cause detail : Nat) (links : List AerLink := []) : State :=
  (s.attn base b).record base (some b) cause detail links

/-- An attention cause to which R395 gives no code: its record carries a code the spec leaves open. -/
def State.alarmPlain (s : State) (base b : Nat) (detail : Nat := 0) : State :=
  s.alarm base b (Sys2Proof.Config.unlistedCause (bits base 27 20) b).toNat detail

/-- A link to a condition without a record. -/
def condLink (cond value : Nat) : AerLink := ⟨0xFFFFFFFF, cond, value % 2 ^ 32⟩

/-- One link as 10 bytes; an unused link has COND 0 (R394). -/
def AerLink.bytes (l : AerLink) : Bytes := beBytes 4 l.seq ++ beBytes 2 l.cond ++ beBytes 4 l.value

/-- The 64 bytes of a record under a SEQ (R394). -/
def AerRec.bytes (r : AerRec) (seq : Nat) (gap : Bool) : Bytes :=
  let l := r.links.map AerLink.bytes
  beBytes 4 seq ++ beBytes 2 (r.block * 256 + r.attn.getD 0xFF) ++ beBytes 1 r.cls
    ++ beBytes 1 (b2n r.unaligned + 2 * b2n gap) ++ beBytes 6 r.tick.toNat ++ zeros 2 ++ beBytes 8 r.ptp
    ++ beBytes 4 r.location ++ beBytes 4 r.detail ++ beBytes 2 r.cause
    ++ fit 30 l.flatten

/-! Stage and pins -/

/-- The chip has reached a stage: 0 to 3 for A to D (R324). -/
def State.atStage (s : State) (n : Nat) : Bool := s.sys.serving && decide (n ≤ s.sys.stage)

/-- A fatal cause is latched (R375). -/
def State.fatal (s : State) : Bool := s.dump.fatal.isSome

/-- TJ_WARN of a die is set (R381). -/
def State.tjWarned (s : State) (d : Nat) : Bool := s.bget (fdReg d 0x010) 16

/-- The pins follow the state: PG_OUT is low exactly while thermal shutdown is latched (R407),
TEMP_ALERT_N is low exactly while a TJ_WARN is set or a trip is in force (R408), and the laser enables are
high exactly from Stage B without a fatal cause (R419). -/
def settle (s : State) : State :=
  { s with sys := { s.sys with
      pgOut := !s.sys.thermalLatch
      tempAlertN := !(s.tjWarned 0 || s.tjWarned 1 || s.tjWarned 2 || s.tjWarned 3 || s.sys.tripped)
      elsEn := decide (1 ≤ s.sys.stage) && !s.fatal } }

/-- A meaning ends: the pins follow and the queue of commands stays as it was. -/
def done (s t : State) : Host.Outcome State Fault Refusal :=
  .next { settle t with pending := s.pending }

end Sys2Proof.Machine
end

