-- ==== Sys2Proof/Machine/Reply.lean ====
section
/-! DEFINITION. Replies: the result codes of R297, the reply frames of R288 and R289, and the sending of a
reply with its cache entry (R301) and session numbers (R306). -/

namespace Sys2Proof.Machine

/-- RESULT codes (R297). -/
inductive Code where
  | ok | busy | lullRequired | contextBusy | badAddress | accessDenied | stageNotReady | conflict
  | timeout | authFail | unitHung | overlap | version | fenceLimit
  deriving DecidableEq, Repr

/-- The code as R297 numbers it. -/
def Code.num (c : Code) : Nat := c.ctorIdx

/-- What an operation answers: RESULT, DETAIL and the reply body. -/
structure Answer where
  code : Code
  detail : Nat := 0
  body : Bytes := []
  deriving DecidableEq, Repr

/-- The answer OK. -/
def okAns : Answer := { code := .ok }

/-- What a register write or command comes to. -/
structure WriteOut where
  state : State
  code : Code
  detail : Nat := 0
  /-- The reply follows a later event. -/
  waits : Bool := false
  deriving DecidableEq, Repr

/-- ERR_INFO records a refused write, or one of which part was ignored (R316). -/
def State.errInfo (s : State) (base : Nat) (code : Code) (reason off : Nat) : State :=
  s.rset (base + 0x018) (2 ^ 31 + code.num * 2 ^ 20 + reason % 256 * 2 ^ 12 + off % 4096)

/-- M0 or M1 carries frames (R286). -/
def State.portUp (s : State) : MPort → Bool
  | .m0 => s.mgmt.up0
  | .m1 => s.mgmt.up1

/-- The open session of a number. -/
def State.session (s : State) (id : BitVec 32) : Option Session := s.mgmt.sessions.find? fun x => x.id == id

/-- Replace a session. -/
def State.setSession (s : State) (id : BitVec 32) (f : Session → Session) : State :=
  s.setMgmt fun m => { m with sessions := m.sessions.map fun x => if x.id == id then f x else x }

/-- STATUS of a reply (R296): epoch, summary and RESULT; OBSERVER sessions see neither of the first. -/
def State.status (s : State) (q : Req) (code : Code) : Nat :=
  let observer := !q.hcp1 && (match s.session q.session with | some x => !x.admin | none => false)
  if observer then code.num else s.mgmt.epoch.toNat * 4096 + s.summary * 256 + code.num

/-- REPLY_FLAGS: SAME_CYCLE of M1's replies (R300) and CACHED (R301). -/
def replyFlags (q : Req) (cached : Bool) : Nat :=
  b2n (q.sameCycle && q.port == .m1) + 2 * b2n cached

/-- The reply frame of R288 or R289 without its MAC. -/
def replyFrame (q : Req) (opcode seq status flags detail : Nat) (body : Bytes) : Bytes :=
  if q.hcp1 then
    beBytes 1 0x18 ++ beBytes 1 opcode ++ beBytes 2 q.tag.toNat ++ beBytes 2 body.length ++ beBytes 2 status
      ++ beBytes 2 flags ++ zeros 2 ++ beBytes 4 detail ++ body
  else
    beBytes 1 0x28 ++ beBytes 1 opcode ++ beBytes 2 q.tag.toNat ++ beBytes 4 q.session.toNat ++ beBytes 8 seq
      ++ beBytes 2 body.length ++ beBytes 2 status ++ beBytes 2 flags ++ zeros 2 ++ beBytes 4 detail ++ zeros 4
      ++ body

/-- Sessions that are closing go, keys and all, once none of their requests is in flight (R306). -/
def State.reapSessions (s : State) : State :=
  s.setMgmt fun m =>
    let live := fun (x : Session) => m.inFlight.any fun f => !f.req.hcp1 && f.req.session == x.id
    { m with sessions := m.sessions.filter fun x => !x.closing || live x }

/-- A frame leaves for the manager, or is lost while the link is down (R286). -/
def State.sendReply (s : State) (q : Req) (opcode : Nat) (a : Answer) (cached : Bool) : State :=
  let sess := if q.hcp1 then none else s.session q.session
  let seq := match sess with | some x => x.nextRep | none => 0
  let frame := replyFrame q opcode seq (s.status q a.code) (replyFlags q cached) a.detail a.body
  let frame := match sess with
    | some x => frame ++ (hmac512 x.kRep frame).take 16
    | none => frame
  let s := if s.portUp q.port then s.send (.reply q.port q.via frame) else s.glbCtr .replyLost
  match sess with
  | some x => s.setSession q.session fun x' =>
      { x' with nextRep := x.nextRep + 1, lastUp := s.clk.up, closing := x'.closing || decide (2 ^ 64 - 1 ≤ x.nextRep) }
  | none => s

/-- The reply cache takes the last reply of a tag (R301). -/
def State.cacheReply (s : State) (f : InFlight) (a : Answer) : State :=
  let c : Cached := {
    port := f.req.port, tag := f.req.tag, opcode := f.opcode, bodyLen := f.bodyLen, bodyCrc := f.bodyCrc,
    result := a.code.num, detail := a.detail, body := a.body, same := f.req.sameCycle }
  s.setMgmt fun m =>
    { m with cache := c :: m.cache.filter fun c => !(c.port == f.req.port && c.tag == f.req.tag) }

/-- The tag is no longer in flight. -/
def State.freeTag (s : State) (f : InFlight) : State :=
  s.setMgmt fun m =>
    { m with inFlight := m.inFlight.filter fun g => !(g.req.port == f.req.port && g.req.tag == f.req.tag) }

/-- A request in flight is answered; one that has been answered already, because MC0 stopped, is not (R353). -/
def State.reply (s : State) (f : InFlight) (a : Answer) : State :=
  if s.mgmt.inFlight.contains f then
    (((s.cacheReply f a).sendReply f.req f.opcode a false).freeTag f).reapSessions
  else s

/-- Code of a number, for cached replies. -/
def Code.ofNum (n : Nat) : Code :=
  ([.ok, .busy, .lullRequired, .contextBusy, .badAddress, .accessDenied, .stageNotReady, .conflict, .timeout,
    .authFail, .unitHung, .overlap, .version, .fenceLimit] : List Code).getD n .ok

end Sys2Proof.Machine
end

