-- ==== Sys2Proof/Machine/Wire.lean ====
section
/-! DEFINITION. Wire formats (chapter 3): WFP format 2 and 1, their translation, Ethernet frames, and the
frames of the twin link (R335). -/

namespace Sys2Proof.Machine

/-! WFP types (R67) -/

def tData : Nat := 0
def tContrib : Nat := 1
def tResult : Nat := 2
def tSync : Nat := 3
def tAbort : Nat := 4
def tNackStale : Nat := 5
def tCtrl : Nat := 6
def tEthEncap : Nat := 7

/-- The fields of a WFP header, either format. -/
structure Wfp where
  fmt : PktFmt := .wfp2
  type : Nat
  vc : Nat
  dst : Nat
  src : Nat
  ctx : Nat := 0
  flowSeq : Nat := 0
  step : Nat := 0
  chunk : Nat := 0
  member : Nat := 0
  /-- FLAGS as format 2 numbers them (R68). -/
  flags : Nat := 0
  weight : Nat := 0
  /-- AUX as format 2 carries it. -/
  aux : Nat := 0
  /-- ELEM of format 1: the payload is FP32. -/
  elem : Bool := false
  payload : Bytes := []
  deriving DecidableEq, Repr

/-- Length of a header: 48 bytes in format 2, 32 in format 1, none of an Ethernet frame. -/
def PktFmt.headerLen : PktFmt → Nat
  | .wfp2 => 48
  | .wfp1 => 32
  | .eth => 0

/-- Largest payload of a format (R66, R75). -/
def PktFmt.maxPayload : PktFmt → Nat
  | .wfp2 => 4096
  | .wfp1 => 2048
  | .eth => 0

/-- The 48-byte header of format 2 (R66). -/
def Wfp.header2 (h : Wfp) : Bytes :=
  let b := beBytes 1 (0x20 + h.type) ++ beBytes 1 (h.vc * 64) ++ beBytes 2 h.payload.length ++ beBytes 4 h.dst
    ++ beBytes 4 h.src ++ beBytes 1 h.ctx ++ zeros 1 ++ beBytes 2 h.flowSeq ++ beBytes 2 h.step
    ++ beBytes 4 h.chunk ++ beBytes 2 (h.member % 4096) ++ beBytes 2 (h.flags % 64) ++ zeros 2
    ++ beBytes 4 h.weight ++ beBytes 8 h.aux ++ zeros 6
  b ++ beBytes 2 (crc16 b).toNat

/-- AUX as format 1 carries it (R75, R76): the low 24 bits of the last chunk with the reason, or the
low 32 bits of a counter. -/
def Wfp.aux1 (h : Wfp) : Nat :=
  if h.type = tAbort then bits h.aux 55 32 * 256 + bits h.aux 7 0 else h.aux % 2 ^ 32

/-- The 32-byte header of format 1 (R75). -/
def Wfp.header1 (h : Wfp) : Bytes :=
  let b := beBytes 1 (0x10 + h.type) ++ beBytes 1 (h.vc * 64 + b2n h.elem * 32) ++ beBytes 2 h.payload.length
    ++ beBytes 4 h.dst ++ beBytes 4 h.src ++ beBytes 1 h.ctx ++ beBytes 1 (h.flags % 4) ++ beBytes 2 h.step
    ++ beBytes 4 h.chunk ++ beBytes 2 (h.member % 4096) ++ beBytes 2 h.flowSeq ++ beBytes 4 h.aux1 ++ zeros 2
  b ++ beBytes 2 (crc16 b).toNat

/-- A whole packet with its trailer (R70). -/
def Wfp.packet (h : Wfp) : Bytes :=
  let b := (match h.fmt with | .wfp1 => h.header1 | _ => h.header2) ++ h.payload
  b ++ crc32cTrailer b

/-- The header fields of a packet; the trailer is cut off. AUX of format 1 is widened as R76 states. -/
def parseWfp (fmt : PktFmt) (f : Bytes) : Wfp :=
  let body := f.take (f.length - 4)
  match fmt with
  | .wfp1 =>
    let type := bits (byteAt f 0) 3 0
    let chunk := fld f 16 4
    let a := fld f 24 4
    { fmt := .wfp1, type := type, vc := bits (byteAt f 1) 7 6, dst := fld f 4 4, src := fld f 8 4,
      ctx := byteAt f 12, flowSeq := fld f 22 2, step := fld f 14 2, chunk := chunk,
      member := fld f 20 2 % 4096, flags := byteAt f 13 % 4, weight := 0,
      aux := if type = tAbort then (chunk / 2 ^ 24 * 2 ^ 24 + a / 256) * 2 ^ 32 + a % 256 else a,
      elem := bit (byteAt f 1) 5, payload := body.drop 32 }
  | _ =>
    { fmt := .wfp2, type := bits (byteAt f 0) 3 0, vc := bits (byteAt f 1) 7 6, dst := fld f 4 4,
      src := fld f 8 4, ctx := byteAt f 12, flowSeq := fld f 14 2, step := fld f 16 2, chunk := fld f 18 4,
      member := fld f 22 2 % 4096, flags := fld f 24 2 % 64, weight := fld f 28 4, aux := fld f 32 8,
      payload := body.drop 48 }

/-- R67: the types that use CONTEXT. -/
def usesContext (type : Nat) : Bool := decide (1 ≤ type) && decide (type ≤ 6)

/-- R67, R75: reserved types of a format. -/
def reservedType (fmt : PktFmt) (type : Nat) : Bool :=
  decide (8 ≤ type) || (fmt == .wfp1 && type == tNackStale)

/-- R76: the packet translated to format 1, if it can be. `fp32` is the context's format, for ELEM. -/
def Wfp.toFmt1 (h : Wfp) (fp32 : Bool) : Option Wfp :=
  if h.payload.length > 2048 || h.type == tNackStale || (h.type == tResult && bits h.flags 5 4 != 0) then none
  else some { h with fmt := .wfp1, elem := (h.type == tContrib || h.type == tResult) && fp32 }

/-- R76: the packet translated to format 2. -/
def Wfp.toFmt2 (h : Wfp) : Wfp := { h with fmt := .wfp2, weight := 0 }

/-- Hall of a place address (R64). -/
def hallOf (place : Nat) : Nat := bits place 31 28

/-- A place of the multicast space (R65). -/
def isMulticastPlace (place : Nat) : Bool := hallOf place == 15

/-- The place of a multicast group (R65). -/
def groupPlace (g : Nat) : Nat := 0xF0000000 + g % 16384

/-- R23: a place configured in GLB as belonging to this chip. -/
def State.ownPlace (s : State) (place : Nat) : Bool :=
  (List.range 4).any fun i => s.bget (glbReg 0x150) i && s.rget (glbReg (0x140 + 4 * i)) == place

/-- The first valid own place: SRC_PLACE of what the chip originates. -/
def State.ownPlace0 (s : State) : Nat :=
  match (List.range 4).find? fun i => s.bget (glbReg 0x150) i with
  | some i => s.rget (glbReg (0x140 + 4 * i))
  | none => s.rget (glbReg 0x140)

/-! Ethernet frames -/

/-- An Ethernet frame with its outer C-VLAN tag taken off. -/
structure Ether where
  da : Nat
  sa : Nat
  /-- PCP, DEI and VID of a 0x8100 tag. -/
  tci : Option Nat
  /-- From the EtherType (after the tag) up to the FCS. -/
  rest : Bytes
  deriving DecidableEq, Repr

/-- Parse a frame, FCS included. -/
def parseEther (f : Bytes) : Ether :=
  let body := f.take (f.length - 4)
  if fld f 12 2 = 0x8100 then
    { da := fld f 0 6, sa := fld f 6 6, tci := some (fld f 14 2), rest := body.drop 16 }
  else { da := fld f 0 6, sa := fld f 6 6, tci := none, rest := body.drop 12 }

/-- The frame with a tag (PCP and VID) or none, and its FCS. -/
def Ether.frame (e : Ether) (tci : Option Nat) : Bytes :=
  let b := beBytes 6 e.da ++ beBytes 6 e.sa
    ++ (match tci with | some t => beBytes 2 0x8100 ++ beBytes 2 t | none => []) ++ e.rest
  b ++ etherFcs b

/-- The FCS of a frame is right (R63). -/
def fcsGood (f : Bytes) : Bool := f.drop (f.length - 4) == etherFcs (f.take (f.length - 4))

/-- EtherType after at most one tag. -/
def Ether.ethertype (e : Ether) : Nat := fld e.rest 0 2

/-- A group address. -/
def groupMac (m : Nat) : Bool := bit m 40

/-- 01-80-C2-00-00-00 to 01-80-C2-00-00-0F (R120). -/
def reservedMac (m : Nat) : Bool := m / 16 == 0x0180C2000000 / 16

/-- Offset of the IP header after the EtherType and whether it is IPv4, of a frame that R138 may mark. -/
def Ether.ip (e : Ether) : Option Bool :=
  if e.ethertype = 0x0800 then some true
  else if e.ethertype = 0x86DD then some false
  else none

/-- The IP ECN field (R138). -/
def Ether.ecn (e : Ether) : Option Nat :=
  match e.ip with
  | some true => some (byteAt e.rest 3 % 4)
  | some false => some (byteAt e.rest 3 / 16 % 4)
  | none => none

/-- R138: markable. -/
def Ether.markable (e : Ether) : Bool := e.ecn == some 1 || e.ecn == some 2

/-- Replace byte `i`. -/
def setByte (bs : Bytes) (i v : Nat) : Bytes := bs.set i (BitVec.ofNat 8 v)

/-- R138: ECN set to 0b11; the IPv4 header checksum is corrected for the changed word. -/
def Ether.mark (e : Ether) : Ether :=
  match e.ip with
  | some true =>
    let old := fld e.rest 2 2
    let new := putBits old 1 0 3
    let c := 0xFFFF - fld e.rest 12 2
    let sum := c + (0xFFFF - old) + new
    let sum := sum % 65536 + sum / 65536
    let sum := sum % 65536 + sum / 65536
    let ck := 0xFFFF - sum
    { e with rest := setByte (setByte (setByte e.rest 3 (new % 256)) 12 (ck / 256)) 13 (ck % 256) }
  | some false => { e with rest := setByte e.rest 3 (putBits (byteAt e.rest 3) 5 4 3) }
  | none => e

/-! Twin frames (R335) -/

/-- A twin frame: TYPE, payload, the sender's tick. -/
def twinFrame (type tick : Nat) (payload : Bytes) : Bytes :=
  let b := beBytes 1 type ++ zeros 3 ++ beBytes 4 payload.length ++ beBytes 6 tick ++ zeros 2 ++ payload
  b ++ crc32cTrailer b

/-- The payload of an intact frame of a type; a frame that fails its CRC or whose length does not fit is
discarded. -/
def twinPayload (type : Nat) (f : Bytes) : Option Bytes :=
  let body := f.take (f.length - 4)
  if 20 ≤ f.length ∧ f.drop (f.length - 4) = crc32cTrailer body ∧ byteAt f 0 = type
      ∧ fld f 4 4 + 20 = f.length ∧ fld f 4 4 ≤ 32768 then
    some (body.drop 16)
  else none

end Sys2Proof.Machine
end

