-- ==== Sys2Proof/Machine/Port.lean ====
section
/-! DEFINITION. Ports: gangs and modes (R18, R61), PORT.STATE (R321), lanes in service, rates, calendars
as the transmitter reads them (R44, R45), and link credits (R91). -/

namespace Sys2Proof.Machine

/-! Gangs and modes -/

/-- PORT.CTRL.MODE: 0 FABRIC, 1 ETHERNET, 2 WZ4 (R61). -/
def State.mode (s : State) (p : Nat) : Nat := s.fget (portReg p 0x008) 5 4

/-- PORT.CTRL.WIDTH code. -/
def State.widthCode (s : State) (p : Nat) : Nat := s.fget (portReg p 0x008) 9 8

/-- Configured lanes of a port (R61). -/
def State.lanesWide (s : State) (p : Nat) : Nat := 2 * 2 ^ s.widthCode p

/-- The port number leads a port: no gang of a lower number covers it (R18). -/
def State.leads (s : State) (p : Nat) : Bool :=
  decide (p < 1024)
    && !(p % 4 != 0 && s.widthCode (p / 4 * 4) == 2)
    && !(p % 2 == 1 && s.widthCode (p - 1) == 1)

/-- The port whose gang holds a port number. -/
def State.leader (s : State) (p : Nat) : Nat :=
  if s.widthCode (p / 4 * 4) = 2 then p / 4 * 4
  else if p % 2 = 1 ∧ s.widthCode (p - 1) = 1 then p - 1
  else p

/-- Port numbers that a gang of a width code at `p` covers. -/
def gangPorts (p code : Nat) : List Nat := (List.range (2 ^ code)).map (p + ·)

/-- Lanes of a port (R18). -/
def State.portLanes (s : State) (p : Nat) : List Nat := (List.range (s.lanesWide p)).map (2 * p + ·)

/-- A lane is in service (R153). -/
def State.laneInService (s : State) (l : Nat) : Bool :=
  let x := s.lane l
  (x.state == .up || x.state == .moved) && !x.withdrawn

/-- Lanes of a port in service: PORT.STATE.WIDTH_NOW. -/
def State.lanesNow (s : State) (p : Nat) : Nat := ((s.portLanes p).filter s.laneInService).length

/-- The port is FABRIC, ETHERNET or WZ4 and leads. -/
def State.isFabric (s : State) (p : Nat) : Bool := s.leads p && s.mode p == 0
def State.isEthernet (s : State) (p : Nat) : Bool := s.leads p && s.mode p == 1
def State.isWz4 (s : State) (p : Nat) : Bool := s.leads p && s.mode p == 2

/-- Form of the packets a port carries (R61). -/
def State.portFmt (s : State) (p : Nat) : PktFmt :=
  if s.mode p = 1 then .eth else if s.mode p = 2 then .wfp1 else .wfp2

/-! State -/

/-- PORT.STATE (R321): 0 IDLE, 1 UP, 2 DOWN, 3 FENCED, 4 LULL, 5 KITE; the first that holds in the order
KITE, LULL, IDLE, FENCED, DOWN, UP. -/
def State.portState (s : State) (p : Nat) : Nat :=
  let x := s.port p
  if x.kite then 5 else if x.lull then 4 else if !x.enabled then 0 else if x.fenced then 3
  else if !x.up then 2 else 1

/-- The port takes packets: it is neither fenced, down, IDLE, in KITE nor in Lull (R84, R104). -/
def State.portTakes (s : State) (p : Nat) : Bool := s.leads p && s.portState p == 1

/-- R355: FENCED or DOWN. -/
def State.portFenced (s : State) (p : Nat) : Bool := s.portState p == 3 || s.portState p == 2

/-- R112: drained for a table write. -/
def State.portDrainedForTables (s : State) (p : Nat) : Bool :=
  s.portState p == 4 || s.portState p == 0 || s.portState p == 5

/-- A port that is disabled and IDLE (R61, R91). -/
def State.portIdle (s : State) (p : Nat) : Bool := s.portState p == 0

/-- The port receives: enabled, in or before its Lull, in a stage with light, and not in KITE (R424). -/
def State.portReceives (s : State) (p : Nat) : Bool :=
  s.leads p && s.atStage 1 && (s.port p).enabled && !(s.port p).kite && decide (0 < s.lanesNow p) && !s.fatal

/-! Rates -/

/-- Payload rate of one lane in units of 1/128 byte per FC cycle (R61). -/
def laneRate (mode : Nat) : Nat := if mode = 0 then 2418 else if mode = 1 then 2000 else 1209

/-- FC cycles that `n` bytes take on a port at its present width, rounded up (DESIGN CHOICE). -/
def State.txCycles (s : State) (p n : Nat) : Nat := ceilDiv (n * 128) (laneRate (s.mode p) * max 1 (s.lanesNow p))

/-- Minimum gap after a packet in bytes (R62); preamble and gap on an ETHERNET port (R134). -/
def State.gapBytes (s : State) (p : Nat) : Nat := if s.mode p = 1 then 20 else 8

/-- Bytes of one granted window of 90 ns (R32): floor of 2,720.25 bytes a lane. -/
def State.windowBytes (s : State) (p : Nat) : Nat := 144 * 2418 * s.lanesNow p / 128

/-- Cells, or credits, of a packet of `n` bytes (R85, R91). -/
def cellsOf (n : Nat) : Nat := ceilDiv n 240

/-! Calendars as the transmitter reads them -/

/-- An entry of a calendar. -/
def calEntryAt (m : Map CalEntry) (i : Nat) : CalEntry := mgetD m i { grant := 0, owner := none }

/-- VALID of a grant (R43). -/
def CalEntry.valid (e : CalEntry) : Bool := bit e.grant.toNat 15

/-- VC of a grant. -/
def CalEntry.vc (e : CalEntry) : Nat := bits e.grant.toNat 14 12

/-- SRC_PORT of a grant. -/
def CalEntry.src (e : CalEntry) : Nat := bits e.grant.toNat 9 0

/-- Some valid grant of a calendar names the source port and VC. -/
def calGrants (m : Map CalEntry) (src vc : Nat) : Bool :=
  m.any fun kv => kv.2.valid && kv.2.src == src && kv.2.vc == vc

/-- A port without a calendar in force: not FABRIC, or suspended (R38, R39, R44). -/
def State.calOff (s : State) (p : Nat) : Bool := s.mode p != 0 || (s.pcal p).suspended

/-- R45: a packet of an arrival port and VC is scheduled at an output. -/
def State.scheduled (s : State) (out src vc : Nat) : Bool :=
  !s.calOff out && decide (vc < 3) && calGrants (s.pcal out).active src vc

/-- The grant of a sub-slot that is in force (R44): an entry that cannot be read gives none (R351). -/
def State.grantAt (s : State) (p : Nat) (tick sub : Nat) : Option CalEntry :=
  if s.calOff p then none
  else
    let e := calEntryAt (s.pcal p).active (tick % 2048 * 4 + sub)
    if e.valid && !e.bad then some e else none

/-- Sub-slots from the present one to the next that grants (source, VC) at a port, looking `n` ahead. -/
def State.nextGrant (s : State) (p src vc : Nat) (from_ n : Nat) : Option Nat :=
  (List.range (n + 1)).find? fun i =>
    match s.grantAt p ((s.tick + (from_ + i) / 4)) ((from_ + i) % 4) with
    | some e => e.src == src && e.vc == vc
    | none => false

/-- FC cycles from now to the start of the next sub-slot of a port whose grant is valid, looking one
calendar cycle ahead; none if no grant is in force. -/
def State.toNextGrant (s : State) (p : Nat) : Option Nat :=
  if s.calOff p || !(s.pcal p).active.any (fun kv => kv.2.valid && !kv.2.bad) then none
  else
    let sub := min 3 (s.clk.fc / 160)
    match (List.range 8192).find? fun i => (s.grantAt p (s.tick + (sub + 1 + i) / 4) ((sub + 1 + i) % 4)).isSome with
    | some i => some ((sub + 1 + i) * 160 - s.clk.fc)
    | none => none

/-! Link credits -/

/-- The VC is credited on the port (R91). -/
def State.credited (s : State) (p vc : Nat) : Bool := s.mode p != 1 && decide (vc < 3)

/-- Credit that the partner leaves the port on a VC (R91). -/
def State.linkCredit (s : State) (p vc : Nat) : Nat :=
  match mget (s.port p).creditSeen vc with
  | some seen => (seen + 2 ^ 32 - (mgetD (s.port p).creditUsed vc 0) % 2 ^ 32) % 2 ^ 32
  | none => 0

/-- A packet of `n` bytes may start on a VC as far as link credit goes. -/
def State.hasCredit (s : State) (p vc n : Nat) : Bool :=
  !s.credited p vc || decide (cellsOf n ≤ s.linkCredit p vc)

/-- Credits are used by a packet that starts. -/
def State.useCredit (s : State) (p vc n : Nat) : State :=
  if s.credited p vc then
    s.setPort p fun x => { x with creditUsed := mput x.creditUsed vc (mgetD x.creditUsed vc 0 + cellsOf n) }
  else s

/-- Cells charged to an arrival port and VC that are in SRAM. -/
def State.chargedCells (s : State) (p vc : Nat) : Nat :=
  (s.sw.voq.filter fun c => c.charged && !c.spilled && c.srcPort == p && c.vc == vc).length

/-- Credits of an arrival port and VC are freed (R91). -/
def State.freeCredit (s : State) (p vc n : Nat) : State :=
  if p < 1024 ∧ s.credited p vc then
    s.setPort p fun x => { x with freed := mput x.freed vc (mgetD x.freed vc 0 + n) }
  else s

/-- PORT.CREDIT. -/
def State.creditLimit (s : State) (p : Nat) : Nat := s.fget (portReg p 0x104) 16 0

/-- Credited cells of a die (R93): over VC0 to VC2 of its FABRIC and WZ4 ports. -/
def State.creditedTotal (s : State) (d : Nat) : Nat :=
  (List.range 256).foldl (fun acc i =>
    let p := 256 * d + i
    if s.leads p && s.mode p != 1 then acc + 3 * s.creditLimit p else acc) 0

/-- Cells of SHARED (R93). -/
def State.sharedSize (s : State) (d : Nat) : Nat := 262144 - 65536 - s.creditedTotal d

/-! Buckets (R131) -/

/-- Address of CFG and RATE of a bucket: 0 to 3 for the shapers of VC0, VC1, VC3 and the port, 4 for the policer. -/
def bucketCfg (p b : Nat) : Nat := portReg p (0x120 + 8 * b)
def bucketRate (p b : Nat) : Nat := portReg p (0x124 + 8 * b)

/-- Gain per FC cycle in 1/65,536 byte: RATE × 10^6 / (8 × 1.6 × 10^9) bytes, rounded down (R131). -/
def bucketGain (rate : Nat) : Nat := rate * 65536 / 12800

/-- Depth in 1/65,536 byte. -/
def bucketDepth (burst : Nat) : Int := (burst * 64 * 65536 : Nat)

/-- The bucket acts. -/
def State.bucketOn (s : State) (p b : Nat) : Bool := s.bget (bucketCfg p b) 31

/-- The bucket brought up to now (R131); while it does not act it does not change. -/
def State.bucketNow (s : State) (p b : Nat) : Bucket :=
  let x := (s.port p).buckets.getD b {}
  if s.bucketOn p b then
    let cap := bucketDepth (s.fget (bucketCfg p b) 15 0)
    let gained := x.count + (bucketGain (s.rget (bucketRate p b)) * (s.fcNow - x.at_) : Nat)
    { count := if x.count ≤ cap then min cap gained else cap, at_ := s.fcNow }
  else { x with at_ := s.fcNow }

/-- Store a bucket. -/
def State.setBucket (s : State) (p b : Nat) (x : Bucket) : State :=
  s.setPort p fun y => { y with buckets := y.buckets.set b x }

/-- OVERHEAD of a bucket, signed (R134). -/
def State.overhead (s : State) (p b : Nat) : Int := signed 8 (s.fget (bucketCfg p b) 23 16)

/-- Charged length (R134): at least 1 byte. -/
def chargedLen (n : Nat) (overhead : Int) : Nat := (max 1 ((n : Int) + overhead)).toNat

/-- A bucket holds tokens, or does not act. -/
def State.hasTokens (s : State) (p b : Nat) : Bool := !s.bucketOn p b || decide (0 ≤ (s.bucketNow p b).count)

/-- A packet that starts draws tokens (R131). -/
def State.drawTokens (s : State) (p b n : Nat) : State :=
  if s.bucketOn p b then
    let x := s.bucketNow p b
    s.setBucket p b { x with count := x.count - (chargedLen n (s.overhead p b) * 65536 : Nat) }
  else s

/-- Whole bytes of a bucket, as SHAPER_TOKENS reads it. -/
def Bucket.bytes (b : Bucket) : Int := b.count / 65536

/-- The VC2 policer of a port (R135) in units of 1/6,400 byte: 2% of laneRate/128 bytes a lane and cycle. -/
def vc2Depth : Int := 8296 * 6400

/-- The VC2 policer brought up to now. -/
def State.vc2Now (s : State) (p : Nat) : Bucket :=
  let x := (s.port p).vc2
  let gain := laneRate (s.mode p) * s.lanesNow p
  { count := min vc2Depth (x.count + (gain * (s.fcNow - x.at_) : Nat)), at_ := s.fcNow }

/-- OVERHEAD of R134 for a mode. -/
def modeOverhead (mode : Nat) : Nat := if mode = 1 then 20 else 8

end Sys2Proof.Machine
end

