-- ==== Sys2Proof/Machine/Switch.lean ====
section
/-! DEFINITION. The switching path (chapter 4): cutting into cells, virtual output queues, the match of one
cell time, resequencing, the egress queues and transmission. -/

namespace Sys2Proof.Machine

/-! Cells -/

/-- Cluster of a port or of an originating core (1,024 + n). -/
def clusterOf (src : Nat) : Nat := if src < 1024 then src / 64 else (src - 1024) / 2

/-- Die of a port or of an originating core. -/
def dieOfSrc (src : Nat) : Nat := clusterOf src / 4

/-- The queue a cell waits in: cluster, kind, destination and VC; a CONTRIB queue per owning core. -/
def Cell.voq (c : Cell) : Nat × CellKind × Nat × Nat :=
  match c.kind with
  | .unicast => (c.cluster, c.kind, c.dest, c.vc)
  | .multicast => (c.cluster, c.kind, c.destDie, c.vc)
  | .contrib => (c.cluster, c.kind, c.dest / 1024, c.vc)

/-- The resequencer flow of a cell (R96). -/
def Cell.flow (c : Cell) : FlowKey :=
  { src := c.srcPort, multicast := c.kind == .multicast,
    dest := if c.kind == .multicast then c.destDie else c.dest, vc := c.vc }

/-- Next CELL_SEQ of a flow (R96). -/
def State.cellSeq (s : State) (k : FlowKey) : Nat := (aget s.sw.seqs k).getD 0

/-- The next `n` numbers of a flow are taken. -/
def State.takeSeqs (s : State) (k : FlowKey) (n : Nat) : State :=
  s.setSw fun w => { w with seqs := aput w.seqs k ((s.cellSeq k + n) % 65536) }

/-- A fresh packet number. -/
def State.newPkt (s : State) : State × Nat := (s.setSw fun w => { w with nextPkt := w.nextPkt + 1 }, s.sw.nextPkt)

/-- Cells of a packet that goes to one place: a copy of `proto` for each 240 bytes, numbered in its flow.
The last one is complete only when `whole` (its trailer has been checked, R85). -/
def State.queueCells (s : State) (proto : Cell) (bytes : Bytes) (whole : Bool) : State :=
  let parts := pieces 240 bytes.length bytes
  let n := parts.length
  let base := s.cellSeq proto.flow
  let cells := parts.zipIdx.map fun (d, i) =>
    { proto with
      data := d, index := i, first := i == 0, last := i + 1 == n, pktLen := bytes.length,
      seq := if proto.kind == .contrib then proto.seq else (base + i) % 65536,
      complete := whole || i + 1 != n }
  let s := if proto.kind == .contrib then s else s.takeSeqs proto.flow n
  s.setSw fun w => { w with voq := w.voq ++ cells }

/-- The dies that hold a port of a group (R104). -/
def groupDies (ports : List Nat) : List Nat := (List.range 4).filter fun d => ports.any fun p => p / 256 == d

/-- A multicast group's ports; an unwritten group is empty (R117). -/
def State.mcPorts (s : State) (g : Nat) : List Nat := ((mget s.tbl.mc (g % 16384)).getD {}).ports

/-- A copy of a packet is scheduled at an output (R45); a result by the VC0 grants that its context owns (R196). -/
def State.copyScheduled (s : State) (p : Nat) (proto : Cell) : Bool :=
  match proto.owner with
  | some (c, _) =>
    !s.calOff p && (s.pcal p).active.any fun kv => kv.2.valid && kv.2.vc == 0 && kv.2.owner.any fun o => o.val == c
  | none => s.scheduled p proto.srcPort proto.vc

/-- A packet is queued toward a group: once for each die that holds a port of it (R104). One copy is charged to the
arrival port, and a copy has SCHED when it is scheduled at some port of its die (DESIGN CHOICE). -/
def State.queueMulticast (s : State) (proto : Cell) (bytes : Bytes) (whole : Bool) : State :=
  s.each (groupDies (s.mcPorts proto.dest)).zipIdx fun s x =>
    let ports := (s.mcPorts proto.dest).filter fun p => p / 256 == x.1 && p != proto.srcPort
    s.queueCells { proto with
      kind := .multicast, destDie := x.1, charged := proto.charged && x.2 == 0
      sched := ports.any fun p => s.copyScheduled p proto } bytes whole

/-- A packet is queued toward an output port. -/
def State.queueUnicast (s : State) (proto : Cell) (port : Nat) (bytes : Bytes) (whole : Bool) : State :=
  s.queueCells { proto with
    kind := .unicast, dest := port, destDie := port / 256,
    sched := s.scheduled port proto.srcPort proto.vc } bytes whole

/-- What a cell of a source starts from: written now, matched 96 FC cycles later (R81). -/
def State.protoCell (s : State) (src vc pkt : Nat) (fmt : PktFmt) : Cell :=
  { kind := .unicast, vc := vc, first := false, last := false, sched := false, data := [], srcPort := src,
    dest := 0, seq := 0, pktLen := 0, fmt := fmt, pkt := pkt, cluster := clusterOf src, destDie := 0,
    bornFc := s.fcNow, ready := s.fcNow + (if src < 1024 then 96 else 0) }

/-! Die-to-die credit (R92) -/

/-- Credits of a (port, VC, source die) in use. -/
def State.dtdInUse (s : State) (p vc d : Nat) : Nat := (aget s.sw.dtdUsed (p, vc, d)).getD 0

/-- A credit limit of 8 × width cells. -/
def State.dtdLimit (s : State) (p : Nat) : Nat := 8 * s.lanesWide p

/-- Take or leave credits of a (port, VC, source die). -/
def State.dtdUse (s : State) (p vc d n : Nat) : State :=
  s.setSw fun w => { w with dtdUsed := aput w.dtdUsed (p, vc, d) (s.dtdInUse p vc d + n) }

/-- Credits of cells that left EGRESS are on their way back (R92). -/
def State.dtdFree (s : State) (p vc d n : Nat) : State :=
  s.setSw fun w => { w with dtdBack := aput w.dtdBack (p, vc, d) ((aget w.dtdBack (p, vc, d)).getD 0 + n) }

/-- A cell leaves EGRESS or is discarded on arrival: its credit goes back. -/
def State.cellLeaves (s : State) (c : Cell) : State :=
  if c.kind = .unicast then s.dtdFree c.dest c.vc (c.cluster / 4) 1
  else if c.kind = .contrib then
    s.setCore (c.dest / 1024) fun x =>
      { x with contribUsed := x.contribUsed.set (c.cluster / 4) ((x.contribUsed.getD (c.cluster / 4) 0) - 1) }
  else s

/-- CONTRIB credit of a source die at a core (R188): 512 cells. -/
def contribCredit : Nat := 512

/-! The match of one cell time (R88 to R90) -/

/-- Entry (i, j) of a small matrix. -/
def mat (m : List (List Nat)) (i j : Nat) : Nat := (m.getD i []).getD j 0

/-- Add to entry (i, j). -/
def matAdd (m : List (List Nat)) (i j n : Nat) : List (List Nat) :=
  m.set i ((m.getD i []).set j (mat m i j + n))

/-- The other three dies in ascending order. -/
def othersOf (d : Nat) : List Nat := (List.range 4).filter (· != d)

/-- A zero matrix of 4 clusters by 4 dies. -/
def mat0 : List (List Nat) := List.replicate 4 [0, 0, 0, 0]

/-- The state of the three iterations. -/
structure Matching where
  acc : List (List Nat) := mat0
  inj : List Nat := [128, 128, 128, 128]
  free : Nat
  /-- What iteration 0 accepted. -/
  first : List (List Nat) := mat0
  deriving DecidableEq, Repr

/-- Grants of one iteration (R89). -/
def grantRound (m : Matching) (ready : List (List Nat)) (others : List Nat) (dptr : Nat) (cptr : List Nat) :
    List (List Nat) :=
  ((rotate others dptr).foldl (fun (x : List (List Nat) × Nat) e =>
    (rotate [0, 1, 2, 3] (cptr.getD e 0)).foldl (fun (y : List (List Nat) × Nat) c =>
      let req := min (mat ready c e - mat m.acc c e) (m.inj.getD c 0)
      let g := min req y.2
      (matAdd y.1 c e g, y.2 - g)) x) (mat0, m.free)).1

/-- One iteration (R89): request, grant, accept. -/
def matchRound (ready : List (List Nat)) (others : List Nat) (dptr : Nat) (cptr aptr : List Nat) (iter : Nat)
    (m : Matching) : Matching :=
  let gr := grantRound m ready others dptr cptr
  [0, 1, 2, 3].foldl (fun m c =>
    (rotate others (aptr.getD c 0)).foldl (fun (m : Matching) e =>
      let a := min (mat gr c e) (m.inj.getD c 0)
      { acc := matAdd m.acc c e a, inj := m.inj.set c (m.inj.getD c 0 - a), free := m.free - a,
        first := if iter = 0 then matAdd m.first c e a else m.first }) m) m

/-- Three iterations (R89). -/
def matchCells (free : Nat) (ready : List (List Nat)) (others : List Nat) (dptr : Nat) (cptr aptr : List Nat) :
    Matching :=
  [0, 1, 2].foldl (fun m i => matchRound ready others dptr cptr aptr i m) { free := free }

/-- R90: where the pointers move. -/
def nextPointers (m : Matching) (others : List Nat) (dptr : Nat) (cptr aptr : List Nat) :
    Nat × List Nat × List Nat :=
  let cp := others.foldl (fun cp e =>
    match (rotate [0, 1, 2, 3] (cptr.getD e 0)).find? fun c => mat m.first c e != 0 with
    | some c => cp.set e ((c + 1) % 4)
    | none => cp) cptr
  let ap := [0, 1, 2, 3].foldl (fun ap c =>
    match (rotate others (aptr.getD c 0)).find? fun e => mat m.first c e != 0 with
    | some e => ap.set c ((others.idxOf e + 1) % 3)
    | none => ap) aptr
  ((dptr + 1) % 3, cp, ap)

/-- A cell that may be offered this cell time: complete, in SRAM and ready. -/
def State.cellReady (s : State) (c : Cell) : Bool := c.complete && !c.spilled && decide (c.ready ≤ s.fcNow)

/-- Walk of the queue, oldest first: positions of the eligible cells of one die. A cell behind one of its own
queue that is not eligible waits with it. -/
def State.eligibleFrom (s : State) (d : Nat) : Nat → List Cell → List (Nat × CellKind × Nat × Nat) →
    List ((Nat × Nat) × Nat) → List Nat → List (Nat × Cell)
  | _, [], _, _, _ => []
  | i, c :: rest, blocked, used, contrib =>
    if c.cluster / 4 ≠ d then s.eligibleFrom d (i + 1) rest blocked used contrib
    else if blocked.contains c.voq then s.eligibleFrom d (i + 1) rest blocked used contrib
    else
      let n := (aget used (c.dest, c.vc)).getD 0
      let core := c.dest / 1024
      let k := contrib.getD core 0
      let credit := match c.kind with
        | .unicast => decide (s.dtdInUse c.dest c.vc d + n < s.dtdLimit c.dest)
        | .multicast => true
        | .contrib => decide ((s.core core).contribUsed.getD d 0 + k < contribCredit)
      if s.cellReady c && credit then
        (i, c) :: s.eligibleFrom d (i + 1) rest blocked
          (if c.kind = .unicast then aput used (c.dest, c.vc) (n + 1) else used)
          (if c.kind = .contrib then contrib.set core (k + 1) else contrib)
      else s.eligibleFrom d (i + 1) rest (c.voq :: blocked) used contrib

/-- Eligible cells of a die with their positions in the queue, oldest first. -/
def State.eligibleCells (s : State) (d : Nat) : List (Nat × Cell) :=
  s.eligibleFrom d 0 s.sw.voq [] [] (List.replicate 32 0)

/-- The cells grouped by queue: the queue with the oldest head first (R88). -/
def byQueue : Nat → List (Nat × Cell) → List (Nat × Cell)
  | 0, _ => []
  | _, [] => []
  | fuel + 1, x :: rest =>
    (x :: rest.filter fun y => y.2.voq == x.2.voq) ++ byQueue fuel (rest.filter fun y => y.2.voq != x.2.voq)

/-- Up to `n` cells by deficit weighted round robin over the queues of VC0, VC1 and VC3, a cell a unit
(R88, R103); answers the cells, the deficits and the VC whose turn it is. -/
def dwrrCells : Nat → Nat → List (List (Nat × Cell)) → List Nat → List Nat → Nat →
    List (Nat × Cell) × List Nat × Nat
  | 0, _, _, _, def_, turn => ([], def_, turn)
  | _, 0, _, _, def_, turn => ([], def_, turn)
  | fuel + 1, n + 1, qs, ws, def_, turn =>
    match qs.getD turn [] with
    | [] =>
      if qs.all List.isEmpty then ([], def_, turn)
      else
        let next := (turn + 1) % 3
        dwrrCells fuel (n + 1) qs ws ((def_.set turn 0).set next (def_.getD next 0 + ws.getD next 0)) next
    | x :: r =>
      if def_.getD turn 0 > 0 then
        let out := dwrrCells fuel n (qs.set turn r) ws (def_.set turn (def_.getD turn 0 - 1)) turn
        (x :: out.1, out.2)
      else
        let next := (turn + 1) % 3
        dwrrCells fuel (n + 1) qs ws (def_.set next (def_.getD next 0 + ws.getD next 0)) next

/-- Place of a VC among VC0, VC1 and VC3. -/
def vcIdx (vc : Nat) : Nat := if vc = 3 then 2 else vc

/-- Weights of VC0, VC1 and VC3 in a VC_WEIGHT register (R103). -/
def State.vcWeights (s : State) (a : Nat) : List Nat := [s.fget a 7 0, s.fget a 15 8, s.fget a 31 24]

/-- R88: `n` of the eligible cells of one cluster toward one die, with the DWRR state after. -/
def pickCells (n : Nat) (cells : List (Nat × Cell)) (ws deficits : List Nat) (turn : Nat) :
    List (Nat × Cell) × List Nat × Nat :=
  let q := byQueue cells.length cells
  let c1 := q.filter fun x => x.2.vc == 2
  let c2 := q.filter fun x => x.2.vc != 2 && x.2.vc != 3 && x.2.sched
  let c3 := q.filter fun x => x.2.vc != 2 && !(x.2.vc != 3 && x.2.sched)
  let head := (c1 ++ c2).take n
  let out := dwrrCells (4 * (n + 1)) (n - head.length)
    [c3.filter (·.2.vc == 0), c3.filter (·.2.vc == 1), c3.filter (·.2.vc == 3)] ws deficits turn
  (head ++ out.1, out.2)

/-- A cell leaves the queue for its output die: die-to-die credit is taken, and the arrival credit of a
charged cell is freed (R91). -/
def State.launch (s : State) (c : Cell) (lane : Option Nat) : State :=
  let d := c.cluster / 4
  let s := match c.kind with
    | .unicast => s.dtdUse c.dest c.vc d 1
    | .multicast => s
    | .contrib => s.setCore (c.dest / 1024) fun x =>
        { x with contribUsed := x.contribUsed.set d (x.contribUsed.getD d 0 + 1) }
  let s := if c.charged && !c.spilled then s.freeCredit c.srcPort c.vc 1 else s
  let c := { c with nowait := decide (s.fcNow < c.ready + 13) }
  s.setSw fun w => { w with flying := w.flying ++ [⟨c, d, lane, s.fcNow⟩] }

/-- Remove cells from the queue by position. -/
def State.dropCells (s : State) (idx : List Nat) : State :=
  s.setSw fun w => { w with voq := (w.voq.zipIdx.filter fun x => !idx.contains x.2).map Prod.fst }

/-- Outbound lanes of a die in service, ascending (R87). -/
def State.dtdLanes (s : State) (d : Nat) : List Nat :=
  (List.range 512).filter fun l => !(s.die d).lanesOut.contains l

/-! Egress -/

/-- Cells that EGRESS holds for (port, VC): queued, in assembly and held (R140). -/
def State.egressCells (s : State) (p vc : Nat) : Nat :=
  let q := (s.sw.egress.filter fun x => x.port == p && x.vc == vc).foldl (fun n x => n + x.cells) 0
  let f := (s.sw.flows.filter fun x => !x.key.multicast && x.key.dest == p && x.key.vc == vc).foldl
    (fun n x => n + x.asm.length + x.held.length) 0
  q + f

/-- Bytes queued for (port, VC) (R84). -/
def State.egressBytes (s : State) (p vc : Nat) : Nat :=
  (s.sw.egress.filter fun x => x.port == p && x.vc == vc).foldl (fun n x => n + x.bytes.length) 0

/-- WS_DEPTH_MAX follows the depth (R141). -/
def State.depthMax (s : State) (p vc : Nat) : State :=
  let a := portReg p (0x180 + 4 * vc)
  if s.rget a < s.egressCells p vc then s.rset a (s.egressCells p vc) else s

/-- Cells of a packet that EGRESS no longer holds. -/
def State.egressGone (s : State) (x : EgPkt) : State :=
  match x.srcDie with
  | some d => s.dtdFree x.port x.vc d x.cells
  | none => s

/-- A packet is discarded at the egress of a port that does not take it, or that cannot carry it. -/
def State.egressDiscard (s : State) (x : EgPkt) (c : PortCtr) : State := (s.portCtr c x.port).egressGone x

/-- The context's input or output format is FP32: ELEM of format 1 (R76). -/
def State.elemOf (s : State) (h : Wfp) : Bool :=
  let cfg := ctxReg h.ctx 0x100
  if h.type = tContrib then s.fget cfg 7 4 == 0 else s.fget cfg 11 8 == 0

/-- The bytes that leave on a port: translated between WFP formats (R76), or a bridged frame tagged or
untagged for the port (R119); none if the port cannot carry the packet. -/
def State.egressForm (s : State) (x : EgPkt) : Option Bytes :=
  match s.portFmt x.port, x.fmt with
  | .wfp2, .wfp2 => some x.bytes
  | .wfp1, .wfp1 => some x.bytes
  | .wfp2, .wfp1 => some (parseWfp .wfp1 x.bytes).toFmt2.packet
  | .wfp1, .wfp2 =>
    let h := parseWfp .wfp2 x.bytes
    (h.toFmt1 (s.elemOf h)).map Wfp.packet
  | .eth, .eth =>
    match x.tag with
    | none => some x.bytes
    | some tci =>
      let e := parseEther x.bytes
      let c := portReg x.port 0x100
      let vid := tci % 4096
      some (e.frame (if vid == s.fget c 11 0 && s.bget c 16 then none else some (putBits tci 12 12 0)))
  | _, _ => none

/-- A packet reaches the egress queue of its port. A packet whose trailer failed is dropped (R101), one for a
port that is fenced, down, IDLE or in KITE is discarded and counted, one that cannot be translated is counted in
TX_FMT1_UNREP (R76). -/
def State.enqueueEgress (s : State) (x : EgPkt) : State :=
  if x.trlBad then s.egressGone x
  else if !((s.portState x.port == 1) || s.portState x.port == 4) then
    s.egressDiscard x (if s.portState x.port = 5 then .kiteDiscard else .fenceDiscard)
  else
    match s.egressForm x with
    | none => s.egressDiscard x .txFmt1Unrep
    | some b =>
      let same := b == x.bytes
      let x := { x with bytes := b, cut := x.cut && same, fmt := s.portFmt x.port, waitFrom := s.subNow }
      (s.setSw fun w => { w with egress := w.egress ++ [x] }).depthMax x.port x.vc

/-- Replication at the destination die (R104): a copy for each port of the group on the die but the arrival
port. A copy for a port that does not take it, or for a VC3 queue at its limit (R139), is counted in
MC_REPL_DROP. A flooded frame skips ports that are not ETHERNET (R121). -/
def State.replicate (s : State) (d : Nat) (x : EgPkt) (group : Nat) : State :=
  s.each ((s.mcPorts group).filter fun p => p / 256 == d && p != x.src) fun s p =>
    if x.fmt = .eth ∧ s.mode p ≠ 1 then s
    else if !s.portTakes p then s.portCtr .mcReplDrop p
    else if x.vc = 3 ∧ s.fget (portReg p 0x114) 12 0 ≤ s.egressCells p 3 then s.portCtr .mcReplDrop p
    else
      let n := s.newPkt
      n.1.enqueueEgress { x with port := p, id := n.2, srcDie := none }

/-- Bandwidth window counts of a port (R390), while a window runs. -/
def State.bwCount (s : State) (p rx tx granted : Nat) : State :=
  if s.fget (telReg 0x210) 1 0 = 2 then
    s.setSys fun y => { y with bw := mupd y.bw p {} fun b =>
      { rx := b.rx + rx, tx := b.tx + tx, granted := b.granted + granted } }
  else s

/-- Start of a transmission at FC time `at_`: credits, counters, bandwidth counts, sojourn and the time the
transmitter is busy; `window` is the end of the usable window of a granted one. -/
def State.startTx (s : State) (p vc n enterFc at_ : Nat) (window : Option Nat) (cut : Bool) : State :=
  let granted := window.isSome
  let s := s.useCredit p vc n
  let s := (s.portCtr .txPkts p).portCtr .txBytes p n
  let b := portReg p 0
  let s := ((s.pmc b 0x101 n).pmc b (if granted then 0x102 else 0x103) n).pmc b (0x110 + vc) n
  let s := s.pmc b (if cut then 0x104 else 0x105) 1
  let s := s.bwCount p 0 n (if granted then n else 0)
  let soj := min (at_ - enterFc) 0xFFFFFFFF
  let a := portReg p (0x190 + 4 * vc)
  let s := if s.rget a < soj then s.rset a soj else s
  let end_ := at_ + s.txCycles p n
  let free := at_ + s.txCycles p (n + s.gapBytes p)
  s.setPort p fun x => { x with
    busyTo := max x.busyTo end_, txFree := max x.txFree free, lastSentFc := end_, txWindow := window }

/-- A queued packet leaves on its port at FC time `at_`. -/
def State.transmit (s : State) (x : EgPkt) (at_ : Nat) (window : Option Nat) (cut : Bool) : State :=
  let s := s.setSw fun w => { w with egress := w.egress.filter fun y => y.id != x.id }
  let s := s.startTx x.port x.vc x.bytes.length x.enterFc at_ window cut
  (s.egressGone x).send (.packet x.port x.vc window.isSome x.bytes)

/-! Resequencing (R97 to R99) -/

/-- The flow's state, new at number 0. -/
def State.flowOf (s : State) (k : FlowKey) : Flow := (s.sw.flows.find? fun f => f.key == k).getD { key := k }

/-- Store a flow. -/
def State.setFlow (s : State) (f : Flow) : State :=
  s.setSw fun w =>
    { w with flows := if w.flows.any (fun g => g.key == f.key) then
        w.flows.map fun g => if g.key == f.key then f else g
      else w.flows ++ [f] }

/-- Where the resequencer counters of a flow are kept: the page of the output port; for a multicast flow,
the lowest port of its die. -/
def flowPage (k : FlowKey) : Nat := if k.multicast then 256 * k.dest else k.dest

/-- Cells held at the output of a flow (R97): a window of 2,048 over all flows of the output. -/
def State.heldAt (s : State) (k : FlowKey) : Nat :=
  (s.sw.flows.filter fun f => f.key.multicast == k.multicast && f.key.dest == k.dest).foldl
    (fun n f => n + f.held.length) 0

/-- The packet of a list of cells in order. -/
def packetOf (cells : List Cell) : Bytes := cells.flatMap (·.data)

/-- R101: the conditions of cut-through when the first cell reaches the egress. -/
def State.cutConditions (s : State) (c : Cell) : Bool :=
  let p := c.dest
  c.kind == .unicast && s.portTakes p
    && !(s.sw.egress.any fun x => x.port == p) && decide ((s.port p).busyTo ≤ s.fcNow)
    && decide (c.srcPort < 1024)
    && decide (laneRate (s.mode p) * s.lanesNow p ≤ laneRate (s.mode c.srcPort) * s.lanesNow c.srcPort)
    && s.portFmt p == c.fmt && c.tag == none
    && (match s.grantAt p s.tick (min 3 (s.clk.fc / 160)) with
        | some e => e.src == c.srcPort && e.vc == c.vc
            && decide (s.clk.fc % 160 + s.txCycles p c.pktLen ≤ 144)
        | none => match s.toNextGrant p with
            | none => true
            | some n => decide (s.txCycles p (c.pktLen + s.gapBytes p) ≤ n))
    && (c.cluster / 4 == p / 256 || c.nowait)

/-- A cut-through transmission ends before its packet does: the trailer is the complement of the right CRC
(R102). -/
def State.truncate (s : State) (f : Flow) : State :=
  let p := f.key.dest
  let b := packetOf f.asm
  let s := (s.portCtr .txCtTrunc p).send (.packet p f.key.vc false (b ++ stompTrailer b))
  let s := f.asm.foldl State.cellLeaves s
  s.setFlow { f with asm := [], poisoned := true, cut := false, cutSent := none }

/-- The packet in assembly is given up (R98): a cut-through one is truncated. -/
def State.abandonAsm (s : State) (k : FlowKey) : State :=
  let f := s.flowOf k
  if f.cutSent.isSome then s.truncate f
  else (f.asm.foldl State.cellLeaves s).setFlow { f with asm := [], poisoned := true, cut := false }

/-- A whole packet leaves assembly for its egress queue, or ends its cut-through transmission. -/
def State.finishPacket (s : State) (f : Flow) (c : Cell) : State :=
  let cells := f.asm
  let bytes := packetOf cells
  let s := s.setFlow { f with asm := [], cut := false, cutSent := none, poisoned := false }
  match f.cutSent with
  | some _ =>
    let p := f.key.dest
    let body := bytes.take (bytes.length - 4)
    let out := if c.trlBad then body ++ stompTrailer body else bytes
    let s := if c.trlBad then s.portCtr .txTrlStomped p else s
    (cells.foldl State.cellLeaves s).send (.packet p f.key.vc false out)
  | none =>
    let n := s.newPkt
    let x : EgPkt := {
      id := n.2, port := c.dest, vc := c.vc, src := c.srcPort, bytes := bytes, fmt := c.fmt, tag := c.tag,
      trlBad := c.trlBad, cells := cells.length,
      srcDie := if c.kind = .unicast then some (c.cluster / 4) else none,
      enterFc := f.asmFc, waitFrom := 0, cut := f.cut, owner := c.owner }
    if c.kind = .multicast then
      if c.trlBad then n.1 else n.1.replicate c.destDie x c.dest
    else n.1.enqueueEgress x

/-- A cell in its place is released to packet assembly (R97). -/
def State.assemble (s : State) (k : FlowKey) (c : Cell) : State :=
  let f := s.flowOf k
  let f := { f with expect := (c.seq + 1) % 65536, fresh := false }
  if c.first then
    let f := { f with asm := [c], poisoned := false, asmFc := s.fcNow, cut := s.cutConditions c, cutSent := none }
    let s := s.setFlow f
    let s := if k.multicast then s else s.depthMax k.dest k.vc
    if c.last then s.finishPacket f c else s
  else if f.poisoned || f.asm.isEmpty then
    (s.setFlow { f with poisoned := !c.last }).cellLeaves c
  else
    let f := { f with asm := f.asm ++ [c] }
    let s := s.setFlow f
    let s := if k.multicast then s else s.depthMax k.dest k.vc
    if c.last then s.finishPacket f c else s

/-- Held cells that follow in sequence are released too. -/
def State.releaseHeld : Nat → State → FlowKey → State
  | 0, s, _ => s
  | fuel + 1, s, k =>
    let f := s.flowOf k
    match f.held.find? fun x => x.1.seq == f.expect with
    | some x =>
      let s := s.setFlow { f with held := f.held.filter fun y => y.1.seq != x.1.seq }
      releaseHeld fuel (s.assemble k x.1) k
    | none => s

/-- The lowest held number of a flow, in serial order from the expected one. -/
def Flow.lowestHeld (f : Flow) : Option Nat :=
  leastOf (f.held.map fun x => (x.1.seq + 65536 - f.expect) % 65536)

/-- A flow skips its gap (R98, R99): the expected number moves to the lowest held one, and every packet with a
cell in the gap is discarded. -/
def State.skipGap (s : State) (k : FlowKey) (c : PortCtr) : State :=
  let f := s.flowOf k
  match f.lowestHeld with
  | none => s
  | some d =>
    let s := s.portCtr c (flowPage k)
    let s := s.abandonAsm k
    let g := s.flowOf k
    let s := s.setFlow { g with expect := (f.expect + d) % 65536 }
    s.releaseHeld (f.held.length + 1) k

/-- R98: the flow of the output whose oldest held cell arrived earliest. -/
def State.oldestFlow (s : State) (k : FlowKey) : Option FlowKey :=
  let fs := s.sw.flows.filter fun f =>
    f.key.multicast == k.multicast && f.key.dest == k.dest && !f.held.isEmpty
  (fs.foldl (fun best f =>
    match f.held.head?, best with
    | some h, none => some (f.key, h.2)
    | some h, some b => if h.2 < b.2 then some (f.key, h.2) else some b
    | none, b => b) (none : Option (FlowKey × Nat))).map Prod.fst

/-- A good cell reaches the resequencer of its output (R97, R98). -/
def State.resequence (s : State) (c : Cell) : State :=
  let k := c.flow
  let f := s.flowOf k
  let f := if f.fresh then { f with expect := c.seq, fresh := false, poisoned := !c.first } else f
  let s := s.setFlow f
  let diff := (c.seq + 65536 - f.expect) % 65536
  if diff = 0 then (s.assemble k c).releaseHeld (f.held.length + 1) k
  else if diff ≤ 0x7FFF then
    let s := if 2048 ≤ s.heldAt k then
        match s.oldestFlow k with
        | some o => s.skipGap o .reseqWindowSkip
        | none => s
      else s
    let g := s.flowOf k
    let s := s.setFlow { g with held := g.held ++ [(c, s.fcNow)] }
    s.releaseHeld (g.held.length + 2) k
  else (s.portCtr .reseqLate (flowPage k)).cellLeaves c

/-! Discards of a port -/

/-- The egress queues of a port are emptied and its resequencer state is cleared (R104's heading, R371). -/
def State.discardQueued (s : State) (p : Nat) (c : PortCtr) : State :=
  let gone := s.sw.egress.filter fun x => x.port == p
  let s := s.each gone fun s x => s.egressDiscard x c
  let s := s.setSw fun w => { w with egress := w.egress.filter fun x => x.port != p }
  s.each (s.sw.flows.filter fun f => !f.key.multicast && f.key.dest == p) fun s f =>
    let s := if f.cutSent.isSome then s.truncate f else f.asm.foldl State.cellLeaves s
    let s := f.held.foldl (fun s x => s.cellLeaves x.1) s
    let n := s.flowOf f.key
    s.setFlow { n with asm := [], held := [], fresh := true, poisoned := false, cut := false, cutSent := none }

/-- A cell at the head of its queue whose output port takes nothing is discarded (R104's heading): the packet is
counted with its last cell. -/
def State.deadCell (s : State) (c : Cell) : Bool :=
  c.kind == .unicast && !(s.portState c.dest == 1 || s.portState c.dest == 4)

/-- Cells of a die at queue heads for ports that take nothing are discarded; all of the queue's complete cells go,
since the next one is then the head. -/
def State.purgeHeads (s : State) (d : Nat) : State :=
  let dead := s.sw.voq.filter fun c => c.cluster / 4 == d && s.deadCell c && c.complete
  let s := s.each dead fun s c =>
    let s := if c.charged && !c.spilled then s.freeCredit c.srcPort c.vc 1 else s
    if c.last then s.portCtr (if s.portState c.dest = 5 then .kiteDiscard else .fenceDiscard) c.dest else s
  s.setSw fun w => { w with voq := w.voq.filter fun c => !(c.cluster / 4 == d && s.deadCell c && c.complete) }

/-- Everything bound for a port has left the chip (R424). -/
def State.portEmpty (s : State) (p : Nat) : Bool :=
  !(s.sw.egress.any fun x => x.port == p) && decide ((s.port p).busyTo ≤ s.fcNow)
    && !(s.sw.voq.any fun c => c.kind == .unicast && c.dest == p)
    && !(s.sw.voq.any fun c => c.kind == .multicast && c.destDie == p / 256 && (s.mcPorts c.dest).contains p)
    && !(s.sw.flying.any fun x => x.cell.kind == .unicast && x.cell.dest == p)
    && !(s.sw.flying.any fun x =>
        x.cell.kind == .multicast && x.cell.destDie == p / 256 && (s.mcPorts x.cell.dest).contains p)
    && !(s.sw.flows.any fun f => !f.key.multicast && f.key.dest == p && !(f.asm.isEmpty && f.held.isEmpty))

end Sys2Proof.Machine
end

