-- ==== Sys2Proof/Machine/Health.lean ====
section
/-! DEFINITION. Port service: going DOWN and UP, Lull, health scores, fences and held fence requests
(R354 to R361, R371, R424). -/

namespace Sys2Proof.Machine

/-! Members by port -/

/-- MEMBERS of a context. -/
def State.members (s : State) (c : Nat) : Nat := s.fget (ctxReg c 0x104) 12 0

/-- PORT of a member (R175). -/
def State.memberPort (s : State) (c m : Nat) : Nat := s.fget (memberKey c m) 25 16

/-- Place of a member (R175). -/
def State.memberPlace (s : State) (c m : Nat) : Nat := s.rget (memberKey c m) / 2 ^ 32

/-- Contexts that are enabled: every state but IDLE. -/
def State.enabledCtxs (s : State) : List Nat :=
  (s.col.ctxs.filter fun kv => kv.2.state != .idle).map Prod.fst

/-- Contexts that hold their result groups: enabled, or with an enable accepted or asked for (R178, R179). -/
def State.claimingCtxs (s : State) : List Nat :=
  (s.col.ctxs.filter fun kv => kv.2.state != .idle || kv.2.asking.isSome || kv.2.enabling.isSome).map Prod.fst

/-- Members of a context whose PORT is `p`. -/
def State.membersOn (s : State) (c p : Nat) : List Nat :=
  (List.range (s.members c)).filter fun m => s.memberPort c m == p

/-- What a member has done. -/
def State.member (s : State) (c m : Nat) : MemberSt := mgetD (s.ctx c).members m {}

/-- Change what is kept of a member. -/
def State.setMember (s : State) (c m : Nat) (f : MemberSt → MemberSt) : State :=
  s.setCtx c fun x => { x with members := mupd x.members m {} f }

/-- PORT.HEALTH.SCORE and FENCE_THRESH. -/
def State.score (s : State) (p : Nat) : Nat := s.fget (portReg p 0x118) 7 0
def State.fenceThresh (s : State) (p : Nat) : Nat := s.fget (portReg p 0x118) 15 8

/-- The member score (R357): the lower of its PORT's score and its miss score. -/
def State.memberScore (s : State) (c m : Nat) : Nat := min (s.score (s.memberPort c m)) (s.member c m).score

/-! Discards on the way down -/

/-- The packets still arriving on a port end without a trailer: nothing more of them is decoded. -/
def State.dropArrivals (s : State) (p : Nat) : State :=
  let ids := (s.sw.arriving.filter fun a => a.port == p).map Arriving.pkt
  s.setSw fun w => { w with
    arriving := w.arriving.filter fun a => a.port != p
    voq := w.voq.map fun c =>
      if ids.contains c.pkt && !c.complete then { c with complete := true, trlBad := true } else c }

/-- Link credits start again: none until the first credit block after link-up (R91, R371). Cells of
the port that are still here no longer count against its partner. -/
def State.clearCredits (s : State) (p : Nat) : State :=
  let s := s.setPort p fun x => { x with creditSeen := [], creditUsed := [], freed := [], freedSent := [] }
  s.setSw fun w => { w with voq := w.voq.map fun c => if c.srcPort == p then { c with charged := false } else c }

/-- What happens when a port stops carrying traffic: its queues are discarded and counted, its
resequencer state and credits cleared, and its arrivals end. -/
def State.portStops (s : State) (p : Nat) : State :=
  ((s.discardQueued p .fenceDiscard).dropArrivals p).clearCredits p

/-! Fences -/

/-- Fences applied in the last FENCE_WINDOW ticks (R359). -/
def State.fencesInWindow (s : State) : Nat :=
  (s.flt.fences.filter fun t => decide (s.clk.up - t < s.rget (cdReg 0x1A4))).length

/-- R359: the limits allow a fence of port `p`. -/
def State.fenceAllowed (s : State) (p : Nat) : Bool :=
  decide (s.fencesInWindow < s.fget (cdReg 0x1A0) 7 0)
    && s.enabledCtxs.all fun c =>
      (s.membersOn c p).isEmpty
        || decide (((List.range (s.members c)).filter fun m =>
            s.memberPort c m == p || s.portFenced (s.memberPort c m)).length ≤ max 1 (s.members c / 16))

/-- Score, threshold and the event that last lowered the score, as links (R358). -/
def State.fenceLinks (s : State) (p : Nat) : List AerLink :=
  (match mget s.flt.lowered p with | some l => [l] | none => [])
    ++ [condLink 0x0106 (s.score p), condLink 0x0107 (s.fenceThresh p)]

/-- A fence is applied (R358). -/
def State.applyFence (s : State) (p : Nat) : State :=
  let was := s.portState p
  let s := (s.setPort p fun x => { x with fenced := true }).setFlt fun f =>
    { f with fences := s.clk.up :: f.fences, held := f.held.filter fun h => h.port != p }
  let s := s.bump (cdReg 0x208)
  let s := if was = 1 ∨ was = 2 then s.portStops p else s
  s.alarm (portReg p 0) 16 0x0104 p (s.fenceLinks p)

/-- What a fence request comes to. -/
inductive FenceOutcome where
  | applied | already | held
  deriving DecidableEq, Repr

/-- A fence request is judged: applied, or held under R360. -/
def State.requestFence (s : State) (p : Nat) (written byScore : Bool) (byMembers : List (Nat × Nat)) :
    State × FenceOutcome :=
  if (s.port p).fenced then (s, .already)
  else if s.flt.held.any (fun h => h.port == p) then
    (s.setFlt fun f => { f with held := f.held.map fun h =>
      if h.port == p then
        { h with written := h.written || written, byScore := h.byScore || byScore,
                 byMembers := h.byMembers ++ byMembers.filter fun m => !h.byMembers.contains m }
      else h }, .held)
  else if s.fenceAllowed p then (s.applyFence p, .applied)
  else
    let s := s.setFlt fun f => { f with held := f.held ++ [⟨p, written, byScore, byMembers⟩] }
    ((s.bump (cdReg 0x210)).alarm (portReg p 0) 17 0x0105 p (s.fenceLinks p), .held)

/-- AUTO_FENCE (R358). -/
def State.autoFence (s : State) : Bool := s.bget (cdReg 0x1A0) 31

/-- Requests that falls of one cycle make: the ports whose score fell and the members whose score fell,
in ascending port order (R358, R359). -/
def State.judgeFalls (s : State) (ports : List Nat) (members : List (Nat × Nat)) : State :=
  if !s.autoFence then s
  else
    let low := ports.filter fun p => decide (s.score p ≤ s.fenceThresh p)
    let lowM := members.filter fun x => decide (s.memberScore x.1 x.2 ≤ s.fenceThresh (s.memberPort x.1 x.2))
    let all := (low ++ lowM.map fun x => s.memberPort x.1 x.2).eraseDups
    s.each (sortBy id all) fun s p =>
      (s.requestFence p false (low.contains p) (lowM.filter fun x => s.memberPort x.1 x.2 == p)).1

/-- A port's score falls by `n`, never below 0 (R356); the event is kept for the fence record. Answers the
members whose own score fell with it. -/
def State.scoreFalls (s : State) (p n : Nat) (event : AerLink) : State × List (Nat × Nat) :=
  let old := s.score p
  let fell := s.enabledCtxs.flatMap fun c =>
    ((s.membersOn c p).filter fun m => decide (old - n < s.memberScore c m)).map fun m => (c, m)
  let s := (s.fset (portReg p 0x118) 7 0 (old - n)).setFlt fun f =>
    { f with hurt := if f.hurt.contains p then f.hurt else p :: f.hurt, lowered := mput f.lowered p event }
  (s, fell)

/-- A penalty of one port (R356). -/
def State.penalize (s : State) (p n : Nat) (event : AerLink) : State :=
  let r := s.scoreFalls p n event
  r.1.judgeFalls [p] r.2

/-- The discard penalty: 1, at most 16 in each HEALTH_RECOVER interval (R356). -/
def State.penalizeDiscard (s : State) (p : Nat) (event : AerLink) : State :=
  let n := mgetD s.flt.penalty p 0
  if 16 ≤ n then s
  else (s.setFlt fun f => { f with penalty := mput f.penalty p (n + 1) }).penalize p 1 event

/-- A miss score falls by 16 (R357). -/
def State.missFalls (s : State) (c m : Nat) : State :=
  s.setMember c m fun x => { x with score := x.score - 16, hurt := true }

/-- R360: the request is still wanted: a written one always, an automatic one while a score that made it
stands at or below the threshold. -/
def State.heldStands (s : State) (h : HeldFence) : Bool :=
  h.written || (h.byScore && decide (s.score h.port ≤ s.fenceThresh h.port))
    || h.byMembers.any fun x => decide (s.memberScore x.1 x.2 ≤ s.fenceThresh h.port)

/-- Held requests are judged again in the order they were first held (R360). -/
def State.rejudgeFences (s : State) : State :=
  s.each s.flt.held fun s h =>
    let drop := fun (s : State) => s.setFlt fun f => { f with held := f.held.filter fun g => g.port != h.port }
    if (s.port h.port).fenced || !s.heldStands h then drop s
    else if s.fenceAllowed h.port then s.applyFence h.port
    else s

/-- UNFENCE (R361). -/
def State.unfence (s : State) (p : Nat) : State :=
  let held := s.flt.held.any fun h => h.port == p
  if (s.port p).fenced || held then
    let s := s.setFlt fun f => { f with held := f.held.filter fun h => h.port != p }
    let s := s.setPort p fun x => { x with fenced := false }
    let s := if s.score p < 128 then s.fset (portReg p 0x118) 7 0 128 else s
    s.each s.enabledCtxs fun s c => s.each (s.membersOn c p) fun s m => s.setMember c m fun x => { x with score := 255 }
  else s

/-! The link-level detector -/

/-- The detector takes a port DOWN on condition `cond` of R354. -/
def State.takeDown (s : State) (p cond : Nat) : State :=
  let was := s.portState p
  let hit := (s.port p).up && (was == 1 || was == 3)
  let s := s.setPort p fun x => { x with up := false, goodSince := s.clk.up }
  let s := if was = 1 ∨ was = 3 ∨ was = 4 then s.portStops p else s
  if hit then s.penalize p 64 (condLink 0x0401 cond) else s

/-- The port reads UP again (R354). -/
def State.bringUp (s : State) (p : Nat) : State :=
  (s.setPort p fun x => { x with up := true }).clearCredits p

/-! Lanes and width -/

/-- The buckets that follow the width settle before it changes (R135). -/
def State.settleWidth (s : State) (p : Nat) : State :=
  s.setPort p fun x => { x with vc2 := { count := vc2Depth, at_ := s.fcNow } }

/-- A packet in flight runs on at the new width; a granted one that now passes the end of its usable window is a
sub-slot overrun (R30). -/
def State.stretchTx (s : State) (p old new : Nat) : State :=
  let x := s.port p
  if x.busyTo ≤ s.fcNow ∨ new = 0 then s
  else
    let later := fun (t : Nat) => s.fcNow + ceilDiv ((t - s.fcNow) * old) new
    let s := s.setPort p fun y => { y with busyTo := later y.busyTo, txFree := later y.txFree }
    match x.txWindow with
    | some w =>
      if w < later x.busyTo then (s.bump (calReg p 0x1A0)).setPort p fun y => { y with txWindow := none } else s
    | none => s

/-- A lane of a port changes and the port's width follows (R48, R153, R354). -/
def State.changeLane (s : State) (l : Nat) (f : LaneSt → LaneSt) : State :=
  if 2048 ≤ l then s.setLane l f
  else
    let p := s.leader (l / 2)
    let old := s.lanesNow p
    let s := s.setLane l f
    let new := s.lanesNow p
    if new = old then s
    else
      let s := (s.settleWidth p).stretchTx p old new
      let s := if old = 0 then s.setPort p fun x => { x with goodSince := s.clk.up } else s
      let s := if new < old ∧ s.mode p = 0 ∧ 0 < new ∧ (s.port p).enabled ∧ !s.bget (calReg p 0x010) 16
        then s.alarmPlain (calReg p 0) 16 p else s
      if new = 0 ∧ (s.port p).up then s.takeDown p 3 else s

/-- CAL.STATUS.OVERCAP (R48). -/
def State.overcap (s : State) (p : Nat) : Bool :=
  s.mode p == 0 && (s.port p).enabled && decide (s.lanesNow p < s.lanesWide p)

/-! Enable, disable, reset -/

/-- Home carrier of a lane (R145): data fiber l / 8, or twin fiber 288 or 289. -/
def homeOf (l : Nat) : Nat × Nat := if l < 2048 then (l / 8, l % 8) else (288 + (l - 2048) / 8, l % 8)

/-- Lanes of a port get their rings started: home carriers, both rings sweeping (R162, R173). -/
def State.lightLane (s : State) (l : Nat) : State :=
  let home := homeOf l
  let key := home.1 * 9 + home.2
  let s := s.changeLane l fun _ => { state := .locking, tx := some home, rx := some home }
  s.setPho fun x => { x with
    ringTx := mput x.ringTx key { state := .sweep }
    ringRx := mput x.ringRx key { state := .sweep } }

/-- Lanes of a port go DARK (R153, R424). -/
def State.darkLane (s : State) (l : Nat) : State :=
  let off := fun (c : Option (Nat × Nat)) (m : Map RingSt) =>
    match c with | some (f, w) => mput m (f * 9 + w) {} | none => m
  let x := s.lane l
  let s := s.changeLane l fun _ => {}
  s.setPho fun y => { y with ringTx := off x.tx y.ringTx, ringRx := off x.rx y.ringRx }

/-- ENABLE of an IDLE port (R321): its lanes start to lock from Stage B, and it reads DOWN until they do. -/
def State.enablePort (s : State) (p : Nat) : State :=
  let s := s.setPort p fun x => { x with enabled := true, lull := false, up := false, goodSince := s.clk.up }
  let s := s.clearCredits p
  let s := if s.atStage 1 then s.each (s.portLanes p) State.lightLane else s
  let s := s.rset (portReg p 0x1A8) 0
  if s.lanesNow p = s.lanesWide p then s.bringUp p else s

/-- DISABLE: to LULL (R424). An IDLE port stays IDLE. -/
def State.disablePort (s : State) (p : Nat) : State :=
  if (s.port p).enabled then s.setPort p fun x => { x with lull := true } else s

/-- The drained port reads IDLE and its lanes go DARK (R424). -/
def State.idlePort (s : State) (p : Nat) : State :=
  let s := s.setPort p fun x => { x with enabled := false, lull := false, up := false }
  let s := (s.dropArrivals p).clearCredits p
  let s := s.each (s.portLanes p) State.darkLane
  s.alarmPlain (portReg p 0) 0 p

/-- Pages that a port reset covers (R369). -/
def State.portPages (s : State) (p : Nat) : List Nat :=
  (gangPorts p (s.widthCode p)).flatMap fun q => [portReg q 0, lanePage (2 * q), calReg q 0]

/-- The hung marks of units clear when a reset that covers them completes (R352). -/
def State.clearHung (s : State) (bases : List Nat) : State :=
  s.setMgmt fun m => { m with
    hung := m.hung.filter fun b => !bases.contains b
    timeouts := m.timeouts.filter fun kv => !bases.contains kv.1 }

/-- A port reset acts at a tick boundary (R371): DOWN without a penalty, and its requests are answered. -/
def State.resetPortNow (s : State) (p : Nat) : State :=
  let asked := ((s.port p).resetting).getD []
  let s := s.portStops p
  let s := s.setPort p fun x => { x with up := false, goodSince := s.clk.up, resetting := none }
  (s.clearHung (s.portPages p)).each asked fun s f => s.reply f okAns

end Sys2Proof.Machine
end

