-- ==== Sys2Proof/Machine/CalendarOps.lean ====
section
/-! DEFINITION. Calendar operations (R43 to R60): suspension and count changes, images and their checks,
installation, the epoch switch, and Kite events as images carry them (R51, R168, R169). -/

namespace Sys2Proof.Machine

/-! Chip-wide changes -/

/-- A map with an entry for each of `n` keys, each changed by `f`. -/
def mapAll {α : Type} (m : Map α) (n : Nat) (d : α) (f : Nat → α → α) : Map α :=
  (List.range n).map fun i => (i, f i (mgetD m i d))

/-- Change the calendars of every port number. -/
def State.eachPcal (s : State) (f : Nat → PortCal → PortCal) : State :=
  s.setCalSt fun c => { c with ports := mapAll c.ports 1024 {} f }

/-- Every calendar on the chip is suspended (R38, R382). -/
def State.suspendAll (s : State) : State := s.eachPcal fun _ x => { x with suspended := true, lifting := false }

/-- Calendars that are not STALE resume at the next tick boundary (R39, R383). -/
def State.resumeAll (s : State) : State := s.eachPcal fun _ x => if x.stale then x else { x with lifting := x.suspended }

/-- One calendar without its armed shadow. -/
def PortCal.disarmed (x : PortCal) : PortCal :=
  if x.armed then { x with armed := false, latched := false, shadow := [] } else x

/-- Registers of a disarmed shadow read 0. -/
def State.noShadowRegs (s : State) (p : Nat) : State := (s.rset (calReg p 0x108) 0).rset (calReg p 0x110) 0

/-- Kite events that have not begun go (R34, R39, R172). -/
def State.disarmKites (s : State) : State :=
  s.setCalSt fun c => { c with kites := c.kites.filter fun k => k.phase == .switched || k.phase == .settled }

/-- A count change (R34, R39): every port is STALE and suspended, every armed shadow and every Kite event not
yet begun is disarmed. -/
def State.countChange (s : State) : State :=
  let armed := (s.cal.ports.filter fun kv => kv.2.armed).map Prod.fst
  let s := s.each armed State.noShadowRegs
  (s.eachPcal fun _ x => { x.disarmed with suspended := true, stale := true, lifting := false }).disarmKites

/-! Images (R49 to R51) -/

/-- One entry of a port section. -/
structure SecEntry where
  index : Nat
  grant : Nat
  owner : Nat
  flags : Nat
  rest : Nat
  deriving DecidableEq, Repr

/-- One port section as it stands in the image. -/
structure Section where
  word : Nat
  mode : Nat
  reserved : Bool
  entries : List SecEntry
  deriving DecidableEq, Repr

/-- PORT of a section. -/
def Section.port (x : Section) : Nat := x.word % 1024

/-- Read `n` entries. -/
def readEntries (b : Bytes) (off : Nat) : Nat → List SecEntry
  | 0 => []
  | n + 1 =>
    { index := fld b off 2, grant := fld b (off + 2) 2, owner := byteAt b (off + 4), flags := byteAt b (off + 5),
      rest := fld b (off + 6) 2 } :: readEntries b (off + 8) n

/-- Read `n` sections; the offset after the last one. -/
def readSections (b : Bytes) (off : Nat) : Nat → List Section × Nat
  | 0 => ([], off)
  | n + 1 =>
    let count := fld b (off + 4) 2
    let r := readSections b (off + 16 + 8 * count) n
    ({ word := fld b off 2, mode := byteAt b (off + 2),
       reserved := byteAt b (off + 3) != 0 || fld b (off + 6) 10 != 0,
       entries := readEntries b (off + 16) count } :: r.1, r.2)

/-- Lengths of `n` sections: the end of the last one and whether each count is within 8,192 and the image. -/
def sectionsFit (b : Bytes) (off : Nat) : Nat → Option Nat
  | 0 => some off
  | n + 1 =>
    let count := fld b (off + 4) 2
    let next := off + 16 + 8 * count
    if count ≤ 8192 ∧ next ≤ b.length then sectionsFit b next n else none

/-- Kite events of an image: tick, reserved bytes, map. -/
def readKites (b : Bytes) (off : Nat) : Nat → List (Nat × Nat × Bytes)
  | 0 => []
  | n + 1 => (fld b off 6, fld b (off + 6) 2, sub b (off + 8) 32) :: readKites b (off + 40) n

/-- Check 2 of R52. -/
def imageShape (b : Bytes) : Bool :=
  let zeroed := b.take 28 ++ zeros 4 ++ b.drop 32
  let np := fld b 20 2
  let nk := fld b 22 2
  decide (64 ≤ b.length) && fld b 0 4 == 0x575A4349 && fld b 6 2 == 64 && fld b 24 4 == b.length
    && fld b 28 4 == (crc32c zeroed).toNat && decide (1 ≤ np) && decide (np ≤ 1024) && decide (nk ≤ 16)
    && (match sectionsFit b 64 np with
        | some e => e + 40 * nk == b.length
            && ascending ((readSections b 64 np).1.map Section.port)
            && ascending ((readKites b e nk).map Prod.fst)
        | none => false)

/-- Checks 1 to 5 of R52, judged at arrival; GENERATION 0 is refused with the code of check 7 (R49). -/
def State.imageRefused (s : State) (b : Bytes) : Option Code :=
  let epoch : TickNo := BitVec.ofNat 48 (fld b 12 6)
  if !s.atStage 2 then some .stageNotReady
  else if !imageShape b then some .badAddress
  else if fld b 4 2 ≠ 2 then some .version
  else if fld b 18 2 ≠ s.fget (tickReg 0x104) 15 0 then some .conflict
  else if !tickAtOrAfter epoch (s.tickPlus (s.fget (calReg 0 0x120) 17 0)) then some .conflict
  else none

/-- Check 6 of R52. -/
def State.sectionBad (s : State) (x : Section) : Bool :=
  decide (1024 ≤ x.word) || !s.isFabric x.port || decide (1 < x.mode) || x.reserved
    || x.entries.any (fun e => decide (8192 ≤ e.index) || bits e.grant 11 10 != 0 || decide (1 < e.flags) || e.rest != 0
        || (bit e.grant 15 && (decide (2 < bits e.grant 14 12) || !s.leads (bits e.grant 9 0))))
    || !ascending (x.entries.map SecEntry.index)

/-- What an entry puts into its sub-slot (R50): nothing when VALID is 0. -/
def SecEntry.content (e : SecEntry) : Option CalEntry :=
  if bit e.grant 15 then
    some { grant := BitVec.ofNat 16 e.grant, owner := if bit e.flags 0 then some (Fin.ofNat 256 e.owner) else none }
  else none

/-- The shadow that a section makes over `base` (R55). -/
def Section.apply (x : Section) (base : Map CalEntry) : Map CalEntry :=
  x.entries.foldl (fun m e => match e.content with | some c => mput m e.index c | none => mdel m e.index)
    (if x.mode = 1 then base else [])

/-- Content of a sub-slot: an entry that is not there is 0 with no owner. -/
def slotContent (m : Map CalEntry) (i : Nat) : BitVec 16 × Option CtxNo :=
  ((calEntryAt m i).grant, (calEntryAt m i).owner)

/-- How a context's grants are guarded (R56): 2 CONFLICT, 1 OVERLAP, 0 free. -/
def State.grantClass (s : State) (c : Nat) : Nat :=
  match (s.ctx c).state with
  | .idle => 0
  | .lull => 1
  | _ => 2

/-- Check 8 (R56) over the changed sub-slots. -/
def State.ownershipRefused (s : State) (x : Section) (cal : PortCal) (new : Map CalEntry) : Option Code :=
  let base := if cal.armed then cal.shadow else cal.active
  let changed := ((mkeys base ++ mkeys new).eraseDups).filter fun i => slotContent base i != slotContent new i
  let worst : Nat := changed.foldl (fun w i =>
    let own := match x.entries.find? fun e => e.index == i with
      | some e => if bit e.flags 0 then some (e.owner) else none
      | none => none
    let olds := [(calEntryAt base i).owner] ++ (if cal.armed then [(calEntryAt cal.active i).owner] else [])
    olds.foldl (fun (w : Nat) o => match o with
      | some c => if own = some c.val then w else max w (s.grantClass c.val)
      | none => w) w) 0
  if worst = 2 then some .conflict else if worst = 1 then some .overlap else none

/-- Checks 6 to 8 of a section: the code, or the shadow it makes. -/
def State.judgeSection (s : State) (x : Section) (gen epoch : Nat) : Code ⊕ Map CalEntry :=
  let cal := s.pcal x.port
  if s.sectionBad x then .inl .badAddress
  else if gen ≤ s.rget (calReg x.port 0x104) ∨ (cal.armed ∧ gen ≤ s.rget (calReg x.port 0x108)) then .inl .conflict
  else if cal.armed ∧ (x.mode = 0 ∨ epoch ≠ s.rget (calReg x.port 0x110)) then .inl .conflict
  else
    let new := x.apply (if cal.armed then cal.shadow else cal.active)
    match s.ownershipRefused x cal new with
    | some c => .inl c
    | none => .inr new

/-! Kite maps -/

/-- KITE.MAP as 32 bytes. -/
def State.kiteMap (s : State) : Bytes :=
  (List.range 8).flatMap fun w => beBytes 4 (s.rget (kiteReg (0x100 + 4 * w)))

/-- Store KITE.MAP: byte f is fiber f. -/
def State.setKiteMap (s : State) (m : Bytes) : State :=
  s.each (List.range 8) fun s w => s.rset (kiteReg (0x100 + 4 * w)) (beNat (sub m (4 * w) 4))

/-- The circuit partner of a fiber in a map. -/
def kitePartner (m : Bytes) (f : Nat) : Option Nat :=
  let b := byteAt m f
  if bit b 7 then some (b % 32) else none

/-- Fibers whose entries differ in two maps. -/
def kiteChanged (a b : Bytes) : List Nat := (List.range 32).filter fun f => kitePartner a f != kitePartner b f

/-- Data fiber that spare fiber 256 + g carries (R146, R150), by the lanes that transmit or receive on it. -/
def State.spareCarries (s : State) (g : Nat) : Option Nat :=
  (s.pho.lanes.find? fun kv => kv.1 < 2048
      && ((match kv.2.tx with | some c => c.1 == 256 + g | none => false)
        || (match kv.2.rx with | some c => c.1 == 256 + g | none => false))).map fun kv => kv.1 / 8

/-- Spare fibers 256 to 259 carry the fiber. -/
def State.fiberOnSpare (s : State) (f : Nat) : Bool := (List.range 4).any fun g => s.spareCarries g == some f

/-- Check 9 of R52 for one event against the map before it, under the calendars that will be in force. -/
def State.kiteRefused (s : State) (epoch at_ reserved : Nat) (map before : Bytes) (others : List KiteEvent)
    (inForce : Nat → Map CalEntry) : Bool :=
  let t : TickNo := BitVec.ofNat 48 at_
  let symmetric := (List.range 32).all fun f => match kitePartner map f with
    | some g => kitePartner map g == some f
    | none => true
  let near := fun (k : KiteEvent) => decide ((k.at_ - t).toNat < 50) || decide ((t - k.at_).toNat < 50)
  let ports := (kiteChanged before map).flatMap fun f => (List.range 4).map fun i => 4 * f + i
  let granted := fun (p : Nat) =>
    (List.range 200).any fun i => (calEntryAt (inForce p) ((at_ + i / 4) % 2048 * 4 + i % 4)).valid
  !tickAtOrAfter t (BitVec.ofNat 48 epoch) || reserved != 0
    || (List.range 32).any (fun f => bits (byteAt map f) 6 5 != 0)
    || !symmetric || others.any near
    || (List.range 32).any (fun f => (kitePartner map f).isSome && s.fiberOnSpare f)
    || ports.any granted

/-- The map in force before a tick: of the latest event armed before it, else KITE.MAP. -/
def State.mapBefore (s : State) (ks : List KiteEvent) (t : TickNo) : Bytes :=
  (ks.foldl (fun (best : Option KiteEvent) k =>
    if tickAfter t k.at_ then
      match best with
      | some b => if tickAfter k.at_ b.at_ then some k else some b
      | none => some k
    else best) none).elim s.kiteMap KiteEvent.map

/-! Installation (R53, R54) -/

/-- Outcome of one section while an image installs: its shadow or its code. -/
abbrev SecOut := Section × (Code ⊕ Map CalEntry)

/-- Judge the Kite events in ascending order: each refused one refuses the sections of the ports it changes. -/
def State.judgeKites (s : State) (epoch : Nat) : List (Nat × Nat × Bytes) → List SecOut → List KiteEvent →
    List SecOut × List KiteEvent
  | [], secs, ks => (secs, ks)
  | (at_, rsv, map) :: rest, secs, ks =>
    let before := s.mapBefore ks (BitVec.ofNat 48 at_)
    let force := fun p => match secs.find? fun x => x.1.port == p with
      | some (_, .inr m) => m
      | _ => if (s.pcal p).armed then (s.pcal p).shadow else (s.pcal p).active
    let touched := (kiteChanged before map).flatMap fun f => (List.range 4).map fun i => 4 * f + i
    if s.kiteRefused epoch at_ rsv map before ks force then
      s.judgeKites epoch rest
        (secs.map fun x => if touched.contains x.1.port then
          (x.1, match x.2 with | .inr _ => .inl .conflict | .inl c => .inl c) else x) ks
    else
      let ports := (secs.filter fun x => touched.contains x.1.port && x.2.isRight).map fun x => x.1.port
      s.judgeKites epoch rest secs (ks ++ [{ at_ := BitVec.ofNat 48 at_, map := map, ports := ports }])

/-- An accepted section arms its port's shadow (R54). -/
def State.armShadow (s : State) (p gen epoch : Nat) (m : Map CalEntry) : State :=
  let s := s.setPcal p fun x => { x with shadow := m, armed := true, latched := false }
  (((s.rset (calReg p 0x108) gen).rset (calReg p 0x110) epoch).rset (calReg p 0x118) 0)

/-- Installation of an image completes (R53, R54). -/
def State.installImage (s : State) (b : Bytes) : State × Code :=
  let gen := fld b 8 4
  let epoch := fld b 12 6
  let np := fld b 20 2
  let secs := readSections b 64 np
  let outs := secs.1.map fun x => (x, s.judgeSection x gen epoch)
  let judged := s.judgeKites epoch (readKites b secs.2 (fld b 22 2)) outs s.cal.kites
  let some_ := judged.1.any (fun x => x.2.isRight) || judged.2.length != s.cal.kites.length
  let t := s.each judged.1 fun s x => match x.2 with
    | .inr m => s.armShadow x.1.port gen epoch m
    | .inl c => s.rset (calReg x.1.port 0x118) c.num
  let t := t.setCalSt fun c => { c with kites := judged.2 }
  let t := if some_ then t.setSys fun y => { y with calImages := y.calImages ++ [(gen, s.clk.tick, sha512 b)] } else t
  let code := match judged.1.find? fun x => x.2.isLeft with
    | some (_, .inl c) => c
    | _ => .ok
  (t, code)

/-- A completed CAL_LOAD transfer: refused at arrival, or queued for installation (R53). -/
def State.startInstall (s : State) (f : InFlight) (image : Bytes) : State × Option Answer :=
  match s.imageRefused image with
  | some c => (s, some { code := c })
  | none => (s.setCalSt fun c => { c with jobs := c.jobs ++ [⟨f, image, s.clk.up⟩] }, none)

/-! Epoch switch (R58) -/

/-- Ports armed for a tick. -/
def State.armedFor (s : State) (t : TickNo) : List Nat :=
  (s.cal.ports.filter fun kv => kv.2.armed && s.rget (calReg kv.1 0x110) == t.toNat).map Prod.fst

/-- Armed ports of the next tick are latched at EPOCH_TICK − 1. -/
def State.latchArmed (s : State) : State :=
  s.each (s.armedFor (s.tickPlus 1)) fun s p => s.setPcal p fun x => { x with latched := true }

/-- One port switches: the shadow becomes active and the former active calendar the unarmed shadow. STALE clears, and
the suspension lifts if the chip is aligned and not tripped (R39, R382). -/
def State.switchPort (s : State) (p : Nat) : State :=
  let gen := s.rget (calReg p 0x108)
  let s := s.setPcal p fun x =>
    { x with
      active := x.shadow, shadow := x.active, armed := false, latched := false, stale := false
      suspended := x.suspended && !(s.clk.aligned && !s.sys.tripped), lifting := false }
  let s := (s.rset (calReg p 0x104) gen).noShadowRegs p
  (s.bset (calReg p 0x100) 1 true).alarmPlain (calReg p 0) 0 p

/-- Every latched port armed for the present tick switches. -/
def State.epochSwitchNow (s : State) : State :=
  s.each ((s.armedFor s.clk.tick).filter fun p => (s.pcal p).latched) State.switchPort

/-! Commands on one port -/

/-- CAL.CTRL.DISARM (R57). -/
def State.disarmPort (s : State) (p : Nat) : State × Code :=
  if !(s.pcal p).armed then (s, .ok)
  else if tickAtOrAfter s.clk.tick (BitVec.ofNat 48 (s.rget (calReg p 0x110)) - 2) then (s, .busy)
  else
    let s := (s.setPcal p PortCal.disarmed).noShadowRegs p
    (s.setCalSt fun c => { c with kites := c.kites.filter fun k =>
      !(k.phase == .armed && k.ports.contains p && k.ports.all fun q => !(s.pcal q).armed) }, .ok)

/-- CAL.CTRL.RESUME (R39). -/
def State.resumePort (s : State) (p : Nat) : State × Code :=
  if !(s.pcal p).stale then (s, .ok)
  else if !s.clk.aligned then (s, .conflict)
  else (s.setPcal p fun x => { x with stale := false, lifting := true }, .ok)

/-- An entry of a port's calendars with its error mark set or taken away (R351). -/
def State.markEntry (s : State) (p : Nat) (shadow : Bool) (i : Nat) (bad : Bool) : State :=
  s.setPcal p fun x =>
    if shadow then { x with shadow := mput x.shadow i { calEntryAt x.shadow i with bad := bad } }
    else { x with active := mput x.active i { calEntryAt x.active i with bad := bad } }

end Sys2Proof.Machine
end

