-- ==== Sys2Proof/Machine/Ticks.lean ====
section
/-! DEFINITION. Tick alignment (R34 to R40) and time of day (R41, R42): operations and the events of the
family. -/

namespace Sys2Proof.Machine

/-! Alignment -/

/-- ROLE is MASTER (R34). -/
def State.isMaster (s : State) : Bool := s.bget (tickReg 0x008) 0

/-- Port of an upstream entry, if VALID (R34). -/
def State.upstreamPort (s : State) (i : Nat) : Option Nat :=
  if s.bget (tickReg (0x110 + 4 * i)) 31 then some (s.fget (tickReg (0x110 + 4 * i)) 9 0) else none

/-- The upstream entry that names a port. -/
def State.upstreamOf (s : State) (p : Nat) : Option Nat :=
  (List.range 4).find? fun i => s.upstreamPort i == some p

/-- The upstream delivers: a valid marker within the last 8 ticks (R37). -/
def State.delivers (s : State) (i : Nat) : Bool :=
  match mget s.clk.lastValid i with
  | some u => (s.upstreamPort i).isSome && decide (s.clk.up - u ≤ 8)
  | none => false

/-- The upstream in use becomes the highest-priority one that delivers (R37); a change of it restarts the run of
R39. -/
def State.chooseUpstream (s : State) : State :=
  let next : Option (Fin 4) := ([0, 1, 2, 3] : List (Fin 4)).find? fun i => s.delivers i.val
  s.setClk fun c => if c.upstream = next then c else { c with upstream := next, goodRun := 0, badRun := 0 }

/-- Loss of alignment (R38): cause 1 the holdover window, 2 the error on the upstream. -/
def State.loseAlignment (s : State) (cause : Nat) : State :=
  let s := s.setClk fun c => { c with aligned := false, holdover := false, goodRun := 0, badRun := 0 }
  let s := s.bump (tickReg 0x1A8)
  (s.alarm (tickReg 0) 24 0x1201 cause).suspendAll

/-- Ticks since the last valid marker taken from any upstream have used up TICK.HOLDOVER (R37). -/
def State.holdoverOver (s : State) : Bool :=
  match s.clk.lastTaken with
  | some u => decide (s.fget (tickReg 0x108) 15 0 ≤ s.clk.up - u)
  | none => true

/-- No upstream delivers: an aligned follower enters holdover, or loses alignment at once (R37). -/
def State.checkHoldover (s : State) : State :=
  if !s.isMaster && s.clk.aligned && s.clk.upstream == none && !s.clk.holdover then
    if s.holdoverOver then s.loseAlignment 1
    else s.setClk fun c => { c with holdover := true }
  else s

/-- The follower becomes aligned (R39): with the master's count its calendars resume, with another it adopts the
count and every port is STALE. -/
def State.becomeAligned (s : State) (count : TickNo) : State :=
  let same := s.clk.tick == count
  let s := s.setClk fun c => { c with
    aligned := true, everAligned := true, holdover := false, goodRun := 0, badRun := 0, tick := count }
  if same then s.resumeAll else s.countChange

/-- The error of a marker lies within ±4 ns, in picoseconds. -/
def errGood (e : Int) : Bool := decide (e.natAbs ≤ 4000)

/-- A marker of the upstream in use (R36, R38, R39): `count` is the count it gives at this boundary. -/
def State.takeMarker (s : State) (missed : Bool) (count : TickNo) (err : Int) : State :=
  let s := (s.rset (tickReg 0x140) (wrap 16 (err / 10))).setClk fun c =>
    { c with lastTaken := some c.up, holdover := false }
  if s.clk.aligned then
    let n := if errGood err then 0 else s.clk.badRun + 1
    let s := s.setClk fun c => { c with badRun := n }
    if 16 ≤ n then s.loseAlignment 2 else s
  else
    let n := if !errGood err then 0 else if missed then 1 else s.clk.goodRun + 1
    let s := s.setClk fun c => { c with goodRun := n }
    if 16 ≤ n then s.becomeAligned count else s

/-- A marker on an upstream that is not in use (R40's heading): a difference of more than 4 ns is counted, and the
first in 2,500 ticks is alarmed with both ports. -/
def State.compareMarker (s : State) (p : Nat) (count : TickNo) (err : Int) : State :=
  if errGood err && (!s.clk.aligned || s.clk.tick == count) then s
  else
    let s := s.bump (tickReg 0x190)
    let fresh := match s.clk.disagreeFrom with
      | some u => decide (2500 ≤ s.clk.up - u)
      | none => true
    if fresh then
      let first := match s.clk.upstream with
        | some i => (s.upstreamPort i.val).getD 0
        | none => 0
      (s.setClk fun c => { c with disagreeFrom := some c.up }).alarm (tickReg 0) 25 0x1202 p [condLink 0x1202 first]
    else s

/-- Whole ticks that a marker travelled, from TICK.DELAY_PS. -/
def State.delayTicks (s : State) (i : Nat) : Nat := s.rget (tickReg (0x130 + 4 * i)) / 400000

/-- A tick marker arrives on a port (R34, R35, R37): `count` is the tick it carries, `err` its measured error in ps. -/
def State.markerRx (s : State) (p pod : Nat) (count : TickNo) (err : Int) : State :=
  if s.isMaster then s.bump (tickReg 0x180)
  else
    match s.upstreamOf p with
    | none => s
    | some i =>
      if !s.atStage 1 || !(s.portLanes p).any s.laneInService then s
      else if pod ≠ s.fget (tickReg 0x104) 15 0 then s.bump (tickReg 0x188)
      else
        let missed := match mget s.clk.lastValid i with
          | some u => decide (4 < s.clk.up - u)
          | none => true
        let s := (s.setClk fun c => { c with lastValid := mput c.lastValid i c.up }).chooseUpstream
        let here := count + BitVec.ofNat 48 (s.delayTicks i)
        if s.clk.upstream.map Fin.val = some i then s.takeMarker missed here err
        else s.compareMarker p here err

/-- TICK_MARKER_RX (R35). -/
def execTickMarkerRx (port : PortNo) (pod : BitVec 16) (count : TickNo) (err : Int) (s : State) :
    Host.Outcome State Fault Refusal :=
  done s (s.markerRx port.val pod.toNat count err)

/-- UPSTREAM_MARKER_TIMEOUT (R37): 8 ticks without a valid marker. -/
def execUpstreamMarkerTimeout (idx : Fin 4) (s : State) : Host.Outcome State Fault Refusal :=
  done s (match mget s.clk.lastValid idx.val with
    | some u =>
      if 8 ≤ s.clk.up - u then
        ((s.setClk fun c => { c with lastValid := mdel c.lastValid idx.val }).chooseUpstream).checkHoldover
      else s
    | none => s)

/-- HOLDOVER_EXPIRY (R38): the holdover window ends without a valid marker. -/
def execHoldoverExpiry (s : State) : Host.Outcome State Fault Refusal :=
  done s (if !s.isMaster && s.clk.holdover && s.clk.aligned && s.holdoverOver then s.loseAlignment 1 else s)

/-- The change of role at a tick boundary (R34). -/
def State.applyRole (s : State) : State :=
  if !s.clk.rolePending then s
  else
    let s := s.setClk fun c => { c with rolePending := false }
    if s.isMaster then
      let was := s.clk.aligned
      let s := s.setClk fun c => { c with
        aligned := true, everAligned := true, holdover := false, upstream := none, goodRun := 0, badRun := 0
        tick := if was then c.tick else 0 }
      if was then s else s.countChange
    else
      ((s.setClk fun c => { c with lastTaken := some c.up }).chooseUpstream).checkHoldover

/-- ECHO_LOST (R80): 8 blocks, 32 ticks, without a response. -/
def execEchoLost (id : BitVec 16) (s : State) : Host.Outcome State Fault Refusal :=
  done s (if s.clk.echoes.any fun e => e.id == id && decide (32 ≤ s.clk.up - e.sentUp) then
      (s.setClk fun c => { c with echoes := c.echoes.filter fun e => e.id != id }).bump (tickReg 0x198)
    else s)

/-! PTP (R41, R42) -/

/-- The clock's own data set: priority1, class, accuracy, variance, priority2, identity (defaults of IEEE
1588-2019; PRESUMED). -/
def ptpOwn : List Nat := [128, 248, 0xFE, 0xFFFF, 128, Sys2Proof.Config.serial.toNat]

/-- Lexicographic order of two data sets. -/
def lexLess : List Nat → List Nat → Bool
  | [], _ => false
  | _, [] => true
  | x :: a, y :: b => decide (x < y) || (x == y && lexLess a b)

/-- State of a PTP port. -/
def State.ptpPort (s : State) (v : PtpVia) : PtpPort := (s.clk.ptpPorts.find? fun p => p.via == v).getD { via := v }

/-- Store a PTP port. -/
def State.setPtpPort (s : State) (p : PtpPort) : State :=
  s.setClk fun c => { c with ptpPorts := p :: c.ptpPorts.filter fun q => q.via != p.via }

/-- An announce stands for three intervals of 2 s (default profile; PRESUMED). -/
def State.announceFresh (s : State) (p : PtpPort) : Bool :=
  !p.master.isEmpty && decide (s.clk.up - p.lastAnnounceUp ≤ 15000000)

/-- The best master clock algorithm selects the parent port (R41). -/
def State.bestMaster (s : State) : State :=
  let best := s.clk.ptpPorts.foldl (fun (b : Option PtpPort) p =>
    if !s.announceFresh p || !lexLess p.master ptpOwn then b
    else match b with
      | some q => if lexLess p.master q.master then some p else some q
      | none => some p) none
  s.setClk fun c => { c with ptpParent := best.map PtpPort.via }

/-- A PTP timestamp of 10 bytes as nanoseconds. -/
def ptpTime (b : Bytes) (off : Nat) : Nat := fld b off 6 * 1000000000 + fld b (off + 6) 4

/-- Nanoseconds as a PTP timestamp. -/
def ptpStamp (ns : Nat) : Bytes := beBytes 6 (ns / 1000000000) ++ beBytes 4 (ns % 1000000000)

/-- portIdentity of one of this clock's ports. -/
def ptpIdentity (v : PtpVia) : Bytes :=
  beBytes 8 Sys2Proof.Config.serial.toNat
    ++ beBytes 2 (match v with | .mgmt .m0 => 1 | .mgmt .m1 => 2 | .port p => 3 + p.val)

/-- The 34-byte header of a PTP message. -/
def State.ptpHeader (s : State) (type len flags seq : Nat) (v : PtpVia) : Bytes :=
  beBytes 1 type ++ beBytes 1 2 ++ beBytes 2 len ++ beBytes 1 (s.fget (tickReg 0x10C) 6 0) ++ zeros 1
    ++ beBytes 2 flags ++ zeros 8 ++ zeros 4 ++ ptpIdentity v ++ beBytes 2 seq ++ zeros 2

/-- The port can carry a PTP message. -/
def State.ptpCarries (s : State) : PtpVia → Bool
  | .mgmt m => s.portUp m
  | .port p => s.portTakes p.val && s.mode p.val != 2

/-- The four times of an exchange are known: delay and offset follow, and the servo brings the time of day to the
parent's up to its own residue (R42; the servo is left open). -/
def State.ptpSolve (s : State) (p : PtpPort) : State :=
  match p.t1, p.t2, p.t3, p.t4 with
  | some t1, some t2, some t3, some t4 =>
    let delay : Int := (((t2 : Int) - t1) + ((t4 : Int) - t3)) / 2
    let offset : Int := (t2 : Int) - t1 - delay
    let residue := signed 8 (Sys2Proof.Config.ptpServo s.sys.freeCtr).toNat
    let s := s.setPtpPort { p with t1 := none, t2 := none, t3 := none, t4 := none, delayNs := delay, offsetNs := offset }
    let s := s.setSys fun y => { y with freeCtr := y.freeCtr + 1 }
    s.setClk fun c => { c with ptpNs := ((c.ptpNs : Int) - offset + residue).toNat }
  | _, _, _, _ => s.setPtpPort p

/-- A PTP message is handled under the delay request-response profile with two-step operation (R41). -/
def State.ptpRx (s : State) (v : PtpVia) (m : Bytes) (rx : Nat) : State :=
  if m.length < 44 ∨ byteAt m 1 % 16 ≠ 2 ∨ byteAt m 4 ≠ s.fget (tickReg 0x10C) 6 0 then s
  else
    let p := s.ptpPort v
    let seq := fld m 30 2
    let corr := fld m 8 8 / 65536
    let parent := s.clk.ptpParent == some v
    match byteAt m 0 % 16 with
    | 0 => if parent then s.setPtpPort { p with t2 := some rx, t1 := none, syncSeq := seq } else s
    | 1 =>
      if parent || !s.ptpCarries v then s
      else
        let b := s.ptpHeader 9 54 0 seq v ++ ptpStamp rx ++ sub m 20 10
        s.send (.ptp v b)
    | 8 =>
      if parent && p.t2.isSome && p.syncSeq == seq then s.ptpSolve { p with t1 := some (ptpTime m 34 + corr) } else s
    | 9 =>
      if parent && p.t3.isSome && p.delaySeq == seq && sub m 44 10 == ptpIdentity v then
        s.ptpSolve { p with t4 := some (ptpTime m 34 - corr) }
      else s
    | 11 =>
      if m.length < 64 then s
      else
        let data := [byteAt m 47, byteAt m 48, byteAt m 49, fld m 50 2, byteAt m 52, fld m 53 8]
        (s.setPtpPort { p with master := data, lastAnnounceUp := s.clk.up }).bestMaster
    | _ => s

/-- PTP_MESSAGE_RX (R41). -/
def execPtpMessageRx (via : PtpVia) (msg : Bytes) (rxTime : Nat) (s : State) : Host.Outcome State Fault Refusal :=
  done s (s.ptpRx via msg rxTime)

/-- Data set announced: the parent's, or the clock's own (R41). -/
def State.ptpAnnounced (s : State) : List Nat :=
  match s.clk.ptpParent with
  | some v => (s.ptpPort v).master
  | none => ptpOwn

/-- The boundary clock sends a message: Sync, Follow_Up and Announce on ports that are not the parent, Delay_Req on
the parent (R41). -/
def State.ptpTx (s : State) (v : PtpVia) (k : PtpKind) (tx : Nat) : State :=
  let s := s.bestMaster
  let p := s.ptpPort v
  let parent := s.clk.ptpParent == some v
  if !s.ptpCarries v then s
  else match k with
    | .sync =>
      if parent then s
      else
        let n := (p.syncSeq + 1) % 65536
        (s.setPtpPort { p with syncSeq := n, t1 := some tx }).send (.ptp v (s.ptpHeader 0 44 0x0200 n v ++ zeros 10))
    | .followUp =>
      match parent, p.t1 with
      | false, some t => s.send (.ptp v (s.ptpHeader 8 44 0 p.syncSeq v ++ ptpStamp t))
      | _, _ => s
    | .announce =>
      if parent then s
      else
        let n := (p.announceSeq + 1) % 65536
        let d := s.ptpAnnounced
        let body := ptpStamp tx ++ zeros 3 ++ beBytes 1 (d.getD 0 0) ++ beBytes 1 (d.getD 1 0)
          ++ beBytes 1 (d.getD 2 0) ++ beBytes 2 (d.getD 3 0) ++ beBytes 1 (d.getD 4 0) ++ beBytes 8 (d.getD 5 0)
          ++ beBytes 2 (b2n s.clk.ptpParent.isSome) ++ beBytes 1 0xA0
        (s.setPtpPort { p with announceSeq := n }).send (.ptp v (s.ptpHeader 11 64 0 n v ++ body))
    | .delayReq =>
      if !parent then s
      else
        let n := (p.delaySeq + 1) % 65536
        (s.setPtpPort { p with delaySeq := n, t3 := some tx, t4 := none }).send
          (.ptp v (s.ptpHeader 1 44 0 n v ++ ptpStamp tx))

/-- PTP_MESSAGE_TX (R41). -/
def execPtpMessageTx (via : PtpVia) (kind : PtpKind) (txTime : Nat) (s : State) : Host.Outcome State Fault Refusal :=
  done s (s.ptpTx via kind txTime)

end Sys2Proof.Machine
end

