-- ==== Sys2Proof/Machine/Calendars.lean ====
section
/-! DEFINITION. The events of calendar installation and the epoch switch (R53, R58, R351). -/

namespace Sys2Proof.Machine

/-- CAL_INSTALL_COMPLETE (R53): the oldest image is judged against the state now in force, and answered. -/
def execCalInstallComplete (s : State) : Host.Outcome State Fault Refusal :=
  done s (match s.cal.jobs with
    | [] => s
    | j :: rest =>
      let r := (s.setCalSt fun c => { c with jobs := rest }).installImage j.image
      r.1.reply j.fly { code := r.2 })

/-- CAL_ARMED_LATCH (R58). -/
def execCalArmedLatch (s : State) : Host.Outcome State Fault Refusal := done s s.latchArmed

/-- EPOCH_SWITCH (R58). -/
def execEpochSwitch (s : State) : Host.Outcome State Fault Refusal := done s s.epochSwitchNow

/-- CAL_ENTRY_REWRITE (R351): a read that finds the entry uncorrectable marks it, so that its sub-slot is leftover
capacity, and records it; on an entry so marked the event is its rewrite from META. -/
def execCalEntryRewrite (port : PortNo) (shadow : Bool) (idx : BitVec 13) (s : State) :
    Host.Outcome State Fault Refusal :=
  let c := s.pcal port.val
  let e := calEntryAt (if shadow then c.shadow else c.active) idx.toNat
  done s (if e.bad then s.markEntry port.val shadow idx.toNat false
    else (s.markEntry port.val shadow idx.toNat true).record (calReg port.val 0) none 0x0801 idx.toNat)

end Sys2Proof.Machine
end

