-- ==== Sys2Proof/Machine/Numbers.lean ====
section
/-! DEFINITION. The eleven number formats, exact products and sums, the single rounding, MX block
scales and the stochastic draw of Reduction engines and exact arithmetic (R211 to R229). -/

namespace Sys2Proof.Machine

/-- The formats of R211, in the order of their codes. -/
inductive Fmt where
  | fp32 | bf16 | fp16 | e4m3 | e5m2
  | mxE4m3 | mxE5m2 | mxE3m2 | mxE2m3 | mxE2m1 | mxInt8
deriving DecidableEq, Repr

/-- R211: the format of a code; other codes are none. -/
def Fmt.ofCode (c : Nat) : Option Fmt :=
  match c with
  | 0 => some .fp32 | 1 => some .bf16 | 2 => some .fp16 | 3 => some .e4m3 | 4 => some .e5m2
  | 5 => some .mxE4m3 | 6 => some .mxE5m2 | 7 => some .mxE3m2 | 8 => some .mxE2m3
  | 9 => some .mxE2m1 | 10 => some .mxInt8 | _ => none

/-- Element bits of a format, block scale apart (R211). -/
def Fmt.width : Fmt → Nat
  | .fp32 => 32 | .bf16 => 16 | .fp16 => 16 | .e4m3 => 8 | .e5m2 => 8
  | .mxE4m3 => 8 | .mxE5m2 => 8 | .mxE3m2 => 6 | .mxE2m3 => 6 | .mxE2m1 => 4 | .mxInt8 => 8

/-- Whether the format has 32-element blocks with an E8M0 scale (R211). -/
def Fmt.isMx : Fmt → Bool
  | .fp32 | .bf16 | .fp16 | .e4m3 | .e5m2 => false
  | .mxE4m3 | .mxE5m2 | .mxE3m2 | .mxE2m3 | .mxE2m1 | .mxInt8 => true

/-- Whether the element is 16 bits or wider, which sets one product a cell and cycle (R209). -/
def Fmt.isWide : Fmt → Bool
  | .fp32 | .bf16 | .fp16 => true
  | .e4m3 | .e5m2 | .mxE4m3 | .mxE5m2 | .mxE3m2 | .mxE2m3 | .mxE2m1 | .mxInt8 => false

/-- Mantissa bits (R211); MXINT8 has its value in units of 2^-6. -/
def Fmt.mant : Fmt → Nat
  | .fp32 => 23 | .bf16 => 7 | .fp16 => 10 | .e4m3 => 3 | .e5m2 => 2
  | .mxE4m3 => 3 | .mxE5m2 => 2 | .mxE3m2 => 2 | .mxE2m3 => 3 | .mxE2m1 => 1 | .mxInt8 => 6

/-- Exponent bits (R211). -/
def Fmt.expo : Fmt → Nat
  | .fp32 => 8 | .bf16 => 8 | .fp16 => 5 | .e4m3 => 4 | .e5m2 => 5
  | .mxE4m3 => 4 | .mxE5m2 => 5 | .mxE3m2 => 3 | .mxE2m3 => 2 | .mxE2m1 => 2 | .mxInt8 => 0

/-- Exponent bias (R211). -/
def Fmt.bias : Fmt → Nat
  | .fp32 => 127 | .bf16 => 127 | .fp16 => 15 | .e4m3 => 7 | .e5m2 => 15
  | .mxE4m3 => 7 | .mxE5m2 => 15 | .mxE3m2 => 3 | .mxE2m3 => 1 | .mxE2m1 => 1 | .mxInt8 => 0

/-- Whether an exponent field of all ones holds infinities and NaNs (R211). -/
def Fmt.hasInf : Fmt → Bool
  | .fp32 | .bf16 | .fp16 | .e5m2 | .mxE5m2 => true
  | .e4m3 | .mxE4m3 | .mxE3m2 | .mxE2m3 | .mxE2m1 | .mxInt8 => false

/-- A decoded element or coefficient: a class of R219, or a sign and an integer significand times a
power of two (R212). A zero has significand 0 and keeps its sign. -/
inductive Val where
  | nan
  | inf (neg : Bool)
  | fin (neg : Bool) (sig : Nat) (exp : Int)
deriving DecidableEq, Repr

/-- R212: the exact value of an element code of a floating format, block scale apart. -/
def decodeFloat (f : Fmt) (code : Nat) : Val :=
  let m := f.mant
  let neg := bit code (f.expo + m)
  let e := bits code (f.expo + m - 1) m
  let t := code % 2 ^ m
  let top := 2 ^ f.expo - 1
  if f.hasInf && e == top then
    (if t = 0 then .inf neg else .nan)
  else if (f == .e4m3 || f == .mxE4m3) && e == top && t == 7 then .nan
  else if e = 0 then .fin neg t (1 - (f.bias : Int) - m)
  else .fin neg (2 ^ m + t) ((e : Int) - f.bias - m)

/-- R212, R211: the exact value of an element under its block's scale byte (ignored outside MX). -/
def decodeElem (f : Fmt) (scale code : Nat) : Val :=
  if f.isMx then
    if scale = 0xFF then .nan
    else
      let v := match f with
        | .mxInt8 =>
          let i := signed 8 code
          Val.fin (decide (i < 0)) i.natAbs (-6)
        | g => decodeFloat g code
      match v with
      | .fin n s e => .fin n s (e + scale - 127)
      | w => w
  else decodeFloat f code

/-- R219, R215: the class and exact value of a product. -/
def mulVal : Val → Val → Val
  | .nan, _ => .nan
  | _, .nan => .nan
  | .inf a, .inf b => .inf (a != b)
  | .inf a, .fin b s _ => if s = 0 then .nan else .inf (a != b)
  | .fin a s _, .inf b => if s = 0 then .nan else .inf (a != b)
  | .fin a s e, .fin b t g => .fin (a != b) (s * t) (e + g)

/-- R230: an operand that gates its cell. -/
def gates : Val → Val → Bool
  | .fin _ 0 _, .fin _ _ _ => true
  | .fin _ _ _, .fin _ 0 _ => true
  | _, _ => false

/-- The integer that a finite value adds to a long accumulator in units of 2^-298 (R216). -/
def accTerm : Val → Int
  | .fin neg s e =>
    let k := e + 298
    let mag : Nat := if 0 ≤ k then s * 2 ^ k.toNat else s / 2 ^ (-k).toNat
    if neg then -(mag : Int) else mag
  | _ => 0

/-- A finite value in units of 2^-298 as a value. -/
def ofAcc (a : Int) : Val := .fin (decide (a < 0)) a.natAbs (-298)

/-- What a column holds at its foot: the accumulator and the flags of R219, and whether every
product was a zero of negative sign (R225). -/
structure Column where
  acc : Int := 0
  nan : Bool := false
  posInf : Bool := false
  negInf : Bool := false
  allNegZero : Bool := true
deriving DecidableEq, Repr

/-- R217, R219: one product enters a column. -/
def Column.add (c : Column) (p : Val) : Column :=
  match p with
  | .nan => { c with nan := true, allNegZero := false }
  | .inf true => { c with negInf := true, allNegZero := false }
  | .inf false => { c with posInf := true, allNegZero := false }
  | .fin neg s e => { c with acc := c.acc + accTerm (.fin neg s e), allNegZero := c.allNegZero && neg && s == 0 }

/-- R217: the column after all its products, in any order. -/
def Column.ofProducts (ps : List Val) : Column := ps.foldl Column.add {}

/-- R220, R225: the column's result before rounding. -/
def Column.result (c : Column) : Val :=
  if c.nan || (c.posInf && c.negInf) then .nan
  else if c.posInf then .inf false
  else if c.negInf then .inf true
  else if c.acc = 0 then .fin c.allNegZero 0 0
  else ofAcc c.acc

/-- Order of values with −0 below +0 and infinities at the ends (R218, R220). -/
def valLess : Val → Val → Bool
  | .nan, _ => false
  | _, .nan => false
  | .inf true, .inf true => false
  | .inf true, _ => true
  | _, .inf true => false
  | .inf false, _ => false
  | _, .inf false => true
  | .fin a s e, .fin b t g =>
    let x := accTerm (.fin a s e)
    let y := accTerm (.fin b t g)
    decide (x < y) || (x == y && a && !b && s == 0 && t == 0)

/-- R218, R220: the least of two elements; NaN takes all. -/
def minVal (x y : Val) : Val :=
  match x, y with
  | .nan, _ => .nan
  | _, .nan => .nan
  | a, b => if valLess b a then b else a

/-- R218, R220: the greatest of two elements; NaN takes all. -/
def maxVal (x y : Val) : Val :=
  match x, y with
  | .nan, _ => .nan
  | _, .nan => .nan
  | a, b => if valLess a b then b else a

/-- The operations of a reducing context (CTX.CFG.OP, R174, R218). -/
inductive RedOp where
  | sum | scaledSum | weightedSum | min | max | transport
deriving DecidableEq, Repr

/-- R218, R220, R225: the exact result of one column from its members' (coefficient, element). -/
def columnResult (op : RedOp) (terms : List (Val × Val)) : Val :=
  match op with
  | .sum | .scaledSum | .weightedSum | .transport =>
    (Column.ofProducts (terms.map (fun t => mulVal t.1 t.2))).result
  | .min => match terms.map (fun t => t.2) with
    | [] => .fin false 0 0
    | x :: r => r.foldl minVal x
  | .max => match terms.map (fun t => t.2) with
    | [] => .fin false 0 0
    | x :: r => r.foldl maxVal x

/-- The rounding modes of CTX.CFG.ROUND (R222). -/
inductive RoundMode where
  | rne | rtz | stoch
deriving DecidableEq, Repr

/-- Position of the leading 1 bit of a positive number. -/
def lead (n : Nat) : Nat := n.log2

/-- A significand and the exponent of its last place. -/
structure Quant where
  n : Nat
  q : Int
deriving DecidableEq, Repr

/-- The exponent of the last place of format `f` at magnitude `s × 2^e` (subnormals kept, R211). -/
def placeOf (f : Fmt) (s : Nat) (e : Int) : Int :=
  if f = .mxInt8 then -6
  else
    let lo : Int := 1 - (f.bias : Int) - f.mant
    let p : Int := (lead s : Int) + e - f.mant
    if p < lo then lo else p

/-- R222, R229: `s × 2^e` (s > 0) rounded on the grid of last place `q`, by mode and draw. -/
def quantize (mode : RoundMode) (draw : Nat) (s : Nat) (e q : Int) : Nat :=
  if q ≤ e then s * 2 ^ (e - q).toNat
  else
    let k := (q - e).toNat
    let n := s / 2 ^ k
    let r := s % 2 ^ k
    match mode with
    | .rtz => n
    | .rne =>
      if 2 * r > 2 ^ k then n + 1
      else if 2 * r = 2 ^ k then (if n % 2 = 0 then n else n + 1)
      else n
    | .stoch => if draw < r * 2 ^ 32 / 2 ^ k then n + 1 else n

/-- The largest finite magnitude of a format as a significand and last place (R211). -/
def Fmt.largest : Fmt → Quant
  | .fp32 => ⟨2 ^ 24 - 1, 104⟩
  | .bf16 => ⟨2 ^ 8 - 1, 120⟩
  | .fp16 => ⟨2047, 5⟩
  | .e4m3 => ⟨14, 5⟩
  | .e5m2 => ⟨7, 13⟩
  | .mxE4m3 => ⟨14, 5⟩
  | .mxE5m2 => ⟨7, 13⟩
  | .mxE3m2 => ⟨7, 2⟩
  | .mxE2m3 => ⟨15, -1⟩
  | .mxE2m1 => ⟨3, 1⟩
  | .mxInt8 => ⟨127, -6⟩

/-- Comparison of `a × 2^x` with `b × 2^y`: whether the first is at least the second. -/
def magGe (a : Nat) (x : Int) (b : Nat) (y : Int) : Bool :=
  if x ≤ y then decide (b * 2 ^ (y - x).toNat ≤ a) else decide (b ≤ a * 2 ^ (x - y).toNat)

/-- R224: whether a magnitude lies beyond the format's range under the mode. -/
def beyond (f : Fmt) (mode : RoundMode) (s : Nat) (e : Int) : Bool :=
  let g := f.largest
  match mode with
  | .rtz => !(magGe g.n g.q s e)
  | .rne | .stoch => magGe s e (2 * g.n + 1) (g.q - 1)

/-- The code of a finite magnitude on the format's grid. -/
def encodeMag (f : Fmt) (neg : Bool) (n : Nat) (q : Int) : Nat :=
  let m := f.mant
  if f = .mxInt8 then (if neg then (256 - n) % 256 else n)
  else
    let sgn := if neg then 2 ^ (f.expo + m) else 0
    let lo : Int := 1 - (f.bias : Int) - m
    if n = 0 then sgn
    else if n < 2 ^ m then sgn + n
    else if n < 2 ^ (m + 1) then sgn + ((q - lo).toNat + 1) * 2 ^ m + (n - 2 ^ m)
    else sgn + ((q - lo).toNat + 2) * 2 ^ m + (n / 2 - 2 ^ m)

/-- Code of the largest finite value with a sign. -/
def largestCode (f : Fmt) (neg : Bool) : Nat := encodeMag f neg f.largest.n f.largest.q

/-- Code of an infinity of a format that has one. -/
def infCode (f : Fmt) (neg : Bool) : Nat :=
  (if neg then 2 ^ (f.expo + f.mant) else 0) + (2 ^ f.expo - 1) * 2 ^ f.mant

/-- R224: the canonical NaN. -/
def nanCode : Fmt → Nat
  | .fp32 => 0x7FC00000 | .bf16 => 0x7FC0 | .fp16 => 0x7E00 | .e4m3 => 0x7F | .e5m2 => 0x7E
  | .mxE4m3 | .mxE5m2 | .mxE3m2 | .mxE2m3 | .mxE2m1 | .mxInt8 => 0

/-- The outcome of rounding one element: its code, whether it counts in OUT_OVERFLOW (R224) and
whether it was clamped (R227). -/
structure Rounded where
  code : Nat
  overflow : Bool := false
  clamp : Bool := false
deriving DecidableEq, Repr

/-- R224: the overflow value of a non-MX format. -/
def overflowCode (f : Fmt) (mode : RoundMode) (sat neg : Bool) : Nat :=
  let is8 := f == .e4m3 || f == .e5m2
  if sat && is8 then largestCode f neg
  else if mode = .rtz then largestCode f neg
  else if f = .e4m3 then nanCode f
  else infCode f neg

/-- R222, R224, R225, R229: a column result rounded once into a non-MX format. -/
def roundTo (f : Fmt) (mode : RoundMode) (sat : Bool) (draw : Nat) (v : Val) : Rounded :=
  match v with
  | .nan => { code := nanCode f }
  | .inf neg =>
    if sat && (f == .e4m3 || f == .e5m2) then { code := largestCode f neg, overflow := true }
    else if f = .e4m3 then { code := nanCode f, overflow := true }
    else { code := infCode f neg }
  | .fin neg s e =>
    if s = 0 then { code := encodeMag f neg 0 0 }
    else if beyond f mode s e then { code := overflowCode f mode sat neg, overflow := true }
    else
      let q := placeOf f s e
      let n := quantize mode draw s e q
      if !(magGe f.largest.n f.largest.q n q) then
        { code := overflowCode f .rne sat neg, overflow := true }
      else { code := encodeMag f neg n q }

/-- R226: exponent of the largest normal of the element format. -/
def Fmt.emax : Fmt → Int
  | .mxE4m3 => 8 | .mxE5m2 => 15 | .mxE3m2 => 4 | .mxE2m3 => 2 | .mxE2m1 => 2 | .mxInt8 => 0
  | _ => 0

/-- The position of the leading bit of a finite non-zero value. -/
def leadOf : Val → Option Int
  | .fin _ s e => if s = 0 then none else some ((lead s : Int) + e)
  | _ => none

/-- The greatest of a list of leading positions. -/
def greatest (l : List Int) : Option Int :=
  l.foldl (fun acc x => match acc with | none => some x | some y => some (if y < x then x else y)) none

/-- R226, R224: the E8M0 scale byte of a block from its exact column results. -/
def blockScale (f : Fmt) (vs : List Val) : Nat :=
  if vs.any (fun v => v == .nan) then 0xFF
  else if f != .mxE5m2 && vs.any (fun v => match v with | .inf _ => true | _ => false) then 0xFF
  else match greatest (vs.filterMap leadOf) with
    | none => 0x7F
    | some l =>
      let x := l - f.emax
      let c := if x < -127 then -127 else if 127 < x then 127 else x
      (c + 127).toNat

/-- R227, R229: one element of an MX block of scale byte `scale`. -/
def roundMx (f : Fmt) (mode : RoundMode) (draw scale : Nat) (v : Val) : Rounded :=
  if scale = 0xFF then { code := 0 }
  else match v with
  | .nan => { code := 0 }
  | .inf neg => { code := infCode f neg }
  | .fin neg s e =>
    if s = 0 then { code := if f = .mxInt8 then 0 else encodeMag f neg 0 0 }
    else
      let e' := e - ((scale : Int) - 127)
      let q := placeOf f s e'
      let n := quantize mode draw s e' q
      if !(magGe f.largest.n f.largest.q n q) then { code := largestCode f neg, clamp := true }
      else { code := encodeMag f neg n q }

/-- R228: one round of the draw. -/
def drawRound (key : BitVec 32) (ab : BitVec 32 × BitVec 32) : BitVec 32 × BitVec 32 :=
  let f := (ab.2 ^^^ key) * 0x9E3779B1#32
  let f' := f ^^^ (f >>> 16)
  (ab.2, ab.1 ^^^ f')

/-- R228: the 32-bit draw of an element. -/
def drawOf (seed : BitVec 64) (step chunk e : Nat) : BitVec 32 :=
  let lo := seed.extractLsb' 0 32
  let hi := seed.extractLsb' 32 32
  let s0 : BitVec 32 × BitVec 32 := (BitVec.ofNat 32 chunk, BitVec.ofNat 32 (step * 65536 + e))
  let s1 := drawRound (lo ^^^ 0x243F6A88#32) s0
  let s2 := drawRound (hi ^^^ 0x85A308D3#32) s1
  let s3 := drawRound (lo ^^^ 0x13198A2E#32) s2
  let s4 := drawRound (hi ^^^ 0x03707344#32) s3
  s4.2

/-- R256: the fold of one 32-bit word into a 64-bit digest. -/
def foldWord (d : BitVec 64) (x : Nat) : BitVec 64 :=
  let m := (d ^^^ BitVec.ofNat 64 x) * 0x9E3779B97F4A7C15#64
  m ^^^ (m >>> 29)

/-! ### Payload layout (R213, R214) -/

/-- R214: bytes of a super-block of 128 elements. -/
def Fmt.superBlock (f : Fmt) : Nat := 4 + 128 * f.width / 8

/-- R182, R214: elements of one member's payload of `p` bytes. -/
def elemsOf (f : Fmt) (p : Nat) : Nat :=
  if f.isMx then 128 * (p / f.superBlock) else p / (f.width / 8)

/-- R196, R214: bytes of a result of `e` elements. -/
def resultLen (f : Fmt) (e : Nat) : Nat :=
  if f.isMx then ceilDiv e 128 * f.superBlock else e * (f.width / 8)

/-- Element `i` of `w` bits of a packed bit string, most significant bit first (R214). -/
def packedElem (w : Nat) (data : Bytes) (i : Nat) : Nat :=
  let start := i * w
  let b0 := start / 8
  let two := byteAt data b0 * 256 + byteAt data (b0 + 1)
  (two >>> (16 - w - start % 8)) % 2 ^ w

/-- R213, R214: the decoded element `i` of a payload. -/
def payloadElem (f : Fmt) (payload : Bytes) (i : Nat) : Val :=
  if f.isMx then
    let sb := sub payload (i / 128 * f.superBlock) f.superBlock
    decodeElem f (byteAt sb (i % 128 / 32)) (packedElem f.width (sb.drop 4) (i % 128))
  else
    let w := f.width / 8
    decodeElem f 0 (fld payload (i * w) w)

/-- Bits of a list of `w`-bit codes, most significant first. -/
def codeBits (w : Nat) (codes : List Nat) : List Bool :=
  codes.flatMap (fun c => (List.range w).map (fun k => c.testBit (w - 1 - k)))

/-- A byte from eight bits, most significant first. -/
def byteOfBits (bs : List Bool) : Byte :=
  BitVec.ofNat 8 (bs.foldl (fun acc b => 2 * acc + b2n b) 0)

/-- Bits packed into bytes (`fuel` at least the number of bytes). -/
def packBits : Nat → List Bool → Bytes
  | 0, _ => []
  | fuel + 1, bs => if bs.isEmpty then [] else byteOfBits ((bs.take 8 ++ List.replicate 8 false).take 8) :: packBits fuel (bs.drop 8)

/-- R214: one super-block from its four scales and 128 element codes. -/
def superBlockBytes (f : Fmt) (scales codes : List Nat) : Bytes :=
  (scales.map (BitVec.ofNat 8)) ++ packBits (16 * f.width) (codeBits f.width codes)

end Sys2Proof.Machine
end

