-- ==== Sys2Proof/Machine/PhotonOps.lean ====
section
/-! DEFINITION. The photonic base layer (chapter 7): carriers and groups, rings and lanes, moving a lane, the
maintenance report, lane-tag blocks, and feeds. -/

namespace Sys2Proof.Machine

/-! Fibers, groups and carriers (R144, R145) -/

/-- Group of a fiber; 32 stands for the twin fibers. -/
def grpOf (f : Nat) : Nat := if f < 256 then f / 8 else if f < 288 then f - 256 else 32

/-- Fibers of a group in ascending order. -/
def grpFibers (g : Nat) : List Nat := if g < 32 then (List.range 8).map (8 * g + ·) ++ [256 + g] else [288, 289]

/-- Lane whose home is a carrier. -/
def homeLane (f w : Nat) : Option Nat :=
  if 8 ≤ w then none
  else if f < 256 then some (8 * f + w)
  else if 288 ≤ f then some (2048 + 8 * (f - 288) + w)
  else none

/-- Lane that the chip transmits on a carrier, withdrawn ones included. -/
def State.laneOnTx (s : State) (f w : Nat) : Option Nat :=
  (s.pho.lanes.find? fun kv => kv.2.tx == some (f, w) && kv.2.state != .dark).map Prod.fst

/-- Lane that the chip receives on a carrier. -/
def State.laneOnRx (s : State) (f w : Nat) : Option Nat :=
  (s.pho.lanes.find? fun kv => kv.2.rx == some (f, w) && kv.2.state != .dark).map Prod.fst

/-- The lane in whose block a received carrier is counted: the one it carries, else the one at home there. -/
def State.laneOf (s : State) (f w : Nat) : Option Nat := (s.laneOnRx f w).or (homeLane f w)

/-- The port a fabric lane belongs to. -/
def State.lanePort (s : State) (l : Nat) : Nat := s.leader (l / 2)

/-- The lane sends lane-tag blocks: it belongs to a FABRIC port or to the twin link (R154). -/
def State.laneFabric (s : State) (l : Nat) : Bool := decide (2048 ≤ l) || s.mode (s.lanePort l) == 0

/-- Add to a counter of a lane's block. -/
def State.laneCtr (s : State) (l : Option Nat) (o : Nat) : State :=
  match l with
  | some l => s.bump (laneReg l o)
  | none => s

/-- The fiber has a port in FABRIC mode, or is a twin fiber, or is a spare fiber of a group with one (R154). -/
def State.fiberFabric (s : State) (f : Nat) : Bool :=
  if 288 ≤ f then true
  else if 256 ≤ f then (List.range 32).any fun i => s.isFabric (32 * (f - 256) + i)
  else (List.range 4).any fun i => s.isFabric (4 * f + i)

/-! Consumers and feeds (R155 to R157) -/

/-- The pair is a reserve pair. -/
def reservePair (q : Nat) : Bool := q % 18 == 17 && decide (18 ≤ q)

/-- Place of a used pair among the used pairs. -/
def usedIndex (q : Nat) : Nat := q - (q / 18 - 1)

/-- The used pair at a place. -/
def usedPair (j : Nat) : Nat := if j < 18 then j else 18 * (1 + (j - 18) / 17) + (j - 18) % 17

/-- Pair and feed (true for B) of a consumer. -/
def feedOf (c : Nat) : Nat × Bool := (usedPair (c / 2), c % 2 == 1)

/-- Consumer of a feed of a used pair. -/
def consumerOf (q : Nat) (b : Bool) : Nat := 2 * usedIndex q + b2n b

/-- Module of a feed of a pair, and its output. -/
def feedModule (q : Nat) (b : Bool) : Nat := q / 18 + (if b then 16 else 0)
def feedOutput (q : Nat) : Nat := q % 18 / 9

/-- Key of a feed. -/
def feedKey (q : Nat) (b : Bool) : Nat := q * 2 + b2n b

/-- The feed's light has failed. -/
def State.feedLost (s : State) (q : Nat) (b : Bool) : Bool := (mget s.pho.feedsLost (feedKey q b)).isSome

/-- Both feeds of the consumer's pair are lost (R157). -/
def State.consumerDark (s : State) (c : Nat) : Bool :=
  let q := (feedOf c).1
  s.feedLost q false && s.feedLost q true

/-- The feed event of the consumer's own feed is in progress: its consumers are dark for at most 75 ticks. -/
def State.feedQuiet (s : State) (c : Nat) : Bool :=
  match mget s.pho.feedsLost (feedKey (feedOf c).1 (feedOf c).2) with
  | some u => decide (s.clk.up - u ≤ 75)
  | none => false

/-- The fiber changes state in a Kite switch under way (R170). -/
def State.kiteChanging (s : State) (f : Nat) : Bool :=
  s.cal.kites.any fun k => k.phase == .switched && (kiteChanged s.kiteMap k.map).contains f

/-! Rings (R162) -/

/-- A die-to-die ring that nothing has disturbed: locked from Stage B (R173). -/
def State.dtdDefault (s : State) : RingSt := if s.atStage 1 then { state := .locked } else {}

/-- State of a ring. -/
def State.ring (s : State) : Ring → RingSt
  | .tx f w => mgetD s.pho.ringTx (f.val * 9 + w.val) {}
  | .rx f w => mgetD s.pho.ringRx (f.val * 9 + w.val) {}
  | .dtdTx d l b => mgetD s.pho.dtdTx ((d.val * 512 + l.val) * 2 + b2n b) s.dtdDefault
  | .dtdRx d l e => mgetD s.pho.dtdRx ((d.val * 512 + l.val) * 4 + e.val) s.dtdDefault

/-- Store a ring. -/
def State.putRing (s : State) (r : Ring) (x : RingSt) : State :=
  match r with
  | .tx f w => s.setPho fun p => { p with ringTx := mput p.ringTx (f.val * 9 + w.val) x }
  | .rx f w => s.setPho fun p => { p with ringRx := mput p.ringRx (f.val * 9 + w.val) x }
  | .dtdTx d l b => s.setPho fun p => { p with dtdTx := mput p.dtdTx ((d.val * 512 + l.val) * 2 + b2n b) x }
  | .dtdRx d l e => s.setPho fun p => { p with dtdRx := mput p.dtdRx ((d.val * 512 + l.val) * 4 + e.val) x }

/-- States of the two rings of an external carrier. -/
def State.txRing (s : State) (f w : Nat) : RingState := (mgetD s.pho.ringTx (f * 9 + w) {}).state
def State.rxRing (s : State) (f w : Nat) : RingState := (mgetD s.pho.ringRx (f * 9 + w) {}).state

/-- The reference clock of a lane is lost (R405). -/
def State.laneClockLost (s : State) (l : Nat) : Bool :=
  if l < 2048 then s.pho.laneclkLost.contains (l / 512) else s.pho.mclkLost

/-- The state in which a lane stands by its carriers and rings (R153). -/
def State.laneJudged (s : State) (l : Nat) : LaneState :=
  let x := s.lane l
  match x.state, x.tx, x.rx with
  | .dark, _, _ => .dark
  | .kite, _, _ => .kite
  | _, some t, some r =>
    let a := s.txRing t.1 t.2
    let b := s.rxRing r.1 r.2
    if x.withdrawn || s.consumerDark t.1 || s.laneClockLost l then .out
    else if a == .fail || b == .fail || a == .dark || b == .dark then .out
    else if a != .locked || b == .sweep || b == .capture || (b == .hold && s.pho.returning.contains r.1) then .locking
    else if t == homeOf l && r == homeOf l then .up
    else .moved
  | _, _, _ => .out

/-- A lane takes the state its carriers and rings give it. One that leaves service raises its HEALTH bit (R153); on
an ETHERNET or WZ4 port it takes the port down (R154). -/
def State.relane (s : State) (l : Nat) : State :=
  let was := s.laneInService l
  let now := s.laneJudged l
  let s := s.changeLane l fun x => { x with state := now }
  if was && !s.laneInService l then
    let s := s.alarm (lanePage l) (16 + l % 2) 0x0502 l
    let p := s.lanePort l
    if l < 2048 ∧ s.mode p ≠ 0 ∧ (s.port p).up then s.takeDown p (if s.mode p = 1 then 4 else 3) else s
  else s

/-- Every lane that transmits or receives on a carrier is judged again. -/
def State.relaneCarrier (s : State) (f w : Nat) : State :=
  s.each ((s.pho.lanes.filter fun kv => kv.2.tx == some (f, w) || kv.2.rx == some (f, w)).map Prod.fst) State.relane

/-- Outbound die-to-die lane `n` of die `d` may be matched (R166): all its rings locked, every receiver above
sensitivity, its waveguide lit and its clock there. -/
def State.dtdLaneUp (s : State) (d : DieNo) (n : Fin 512) : Bool :=
  (s.ring (.dtdTx d n false)).state == .locked && (s.ring (.dtdTx d n true)).state == .locked
    && (([0, 1, 2, 3] : List DieNo).all fun e =>
        e == d || ((s.ring (.dtdRx d n e)).state == .locked
          && !s.pho.dtdLow.contains ((d.val * 512 + n.val) * 4 + e.val)))
    && !s.consumerDark (290 + 64 * d.val + n.val / 8) && !s.pho.laneclkLost.contains d.val
    && !(s.pho.restoring.any fun r =>
        let c := feedOf (290 + 64 * d.val + n.val / 8)
        feedModule c.1 c.2 == r.1)

/-- A die-to-die lane leaves matching or returns to it (R87, R166). -/
def State.refreshDtd (s : State) (d : DieNo) (n : Fin 512) : State :=
  let out := (s.die d.val).lanesOut.contains n.val
  if s.dtdLaneUp d n then
    if out then s.setDie d.val fun x => { x with lanesOut := x.lanesOut.filter (· != n.val) } else s
  else if out then s
  else (s.setDie d.val fun x => { x with lanesOut := n.val :: x.lanesOut }).alarmPlain (pblDieReg d.val 0) 16 n.val

/-- A list of die-to-die lanes of a die is judged again. -/
def State.refreshWaveguide (s : State) (c : Nat) : State :=
  let d : DieNo := Fin.ofNat 4 ((c - 290) / 64)
  s.each (List.range 8) fun s i => s.refreshDtd d (Fin.ofNat 512 ((c - 290) % 64 * 8 + i))

/-- Every die-to-die lane of a die is judged again. -/
def State.refreshDie (s : State) (d : DieNo) : State :=
  s.each (List.range 512) fun s n => s.refreshDtd d (Fin.ofNat 512 n)

/-- What depends on a ring is judged again. -/
def State.ringChanged (s : State) : Ring → State
  | .tx f w => s.relaneCarrier f.val w.val
  | .rx f w => s.relaneCarrier f.val w.val
  | .dtdTx d l _ => s.refreshDtd d l
  | .dtdRx d l _ => s.refreshDtd d l

/-- A ring takes a state. -/
def State.moveRing (s : State) (r : Ring) (x : RingSt) : State := (s.putRing r x).ringChanged r

/-- A re-sweep (R162): counted in RELOCKS of the lane. Attempts start again. -/
def State.resweepRing (s : State) (r : Ring) : State :=
  let s := match r with
    | .tx f w => s.laneCtr (s.laneOnTx f.val w.val) 0x40
    | .rx f w => s.laneCtr (s.laneOf f.val w.val) 0x40
    | _ => s
  s.moveRing r { state := .sweep }

/-- The ring of an external carrier. -/
def rxRingOf (f w : Nat) : Ring := .rx (Fin.ofNat 290 f) (Fin.ofNat 9 w)
def txRingOf (f w : Nat) : Ring := .tx (Fin.ofNat 290 f) (Fin.ofNat 9 w)

/-- A failed attempt: the third leads to FAIL (R162). -/
def State.failAttempt (s : State) (r : Ring) : State :=
  let x := s.ring r
  if 3 ≤ x.attempts + 1 then s.moveRing r { state := .fail, attempts := x.attempts + 1, failedUp := s.clk.up }
  else s.moveRing r { x with state := .sweep, attempts := x.attempts + 1 }

/-- Both rings of a lane re-sweep, on command (R162). A dark lane has its rings off. -/
def State.resweepLane (s : State) (l : Nat) : State :=
  let x := s.lane l
  if x.state = .dark then s
  else
    let s := match x.tx with | some c => s.resweepRing (txRingOf c.1 c.2) | none => s
    match x.rx with | some c => s.resweepRing (rxRingOf c.1 c.2) | none => s

/-! The receiver's judgement (R149) -/

/-- A judgement of a carrier with the request it sends; a change waits to be reported (R148). -/
def State.judgeCarrier (s : State) (f w : Nat) (st : RxState) (req : Nat) : State :=
  let c := s.carrier f w
  if c.rxState = st ∧ c.request = req then s
  else s.setCarrier f w fun c => { c with rxState := st, request := req, asked := s.clk.up, changed := some s.clk.up }

/-- Carriers of a fiber that carry a lane here. -/
def State.rxInService (s : State) (f : Nat) : List Nat := (List.range 9).filter fun w => (s.laneOnRx f w).isSome

/-- Received power below −20.0 dBm (R149). -/
def State.noLight (s : State) (f w : Nat) (power : Int) : State :=
  let s := s.setCarrier f w fun c => { c with power := power }
  let s := match s.laneOf f w with | some l => s.rset (laneReg l 0x1C) (wrap 16 power) | none => s
  let lit := (s.rxInService f).filter fun v => v != w && (s.carrier f v).rxState != .noLight
  let quiet := s.kiteChanging f || s.feedQuiet f
  if quiet then s.judgeCarrier f w .noLight 0
  else if lit.isEmpty then
    s.each (s.rxInService f) fun s v => s.judgeCarrier f v .noLight 2
  else s.judgeCarrier f w .noLight 1

/-- A block time passes without a valid block (R149). -/
def State.blockMissing (s : State) (f w : Nat) (light : Bool) : State :=
  let s := s.laneCtr (s.laneOf f w) 0x60
  let n := (s.carrier f w).missing + 1
  let s := s.setCarrier f w fun c => { c with missing := n, homeGood := 0, heldGood := 0, mismatch := 0, foreign := 0 }
  if n = 2 ∧ light then (s.judgeCarrier f w .tagMissing 1).resweepRing (rxRingOf f w) else s

/-- A lane of the chip that a block's LANE names: group and place within it, since the far end mirrors the fiber
order (R146). -/
def namedLane (f lane : Nat) : Nat := if 288 ≤ f then 2048 + lane % 16 else 64 * grpOf f + lane % 64

/-- The CHIP_ID heard on a fiber. -/
def State.chipOn (s : State) (f : Nat) : Nat :=
  (((List.range 9).map fun w => (s.carrier f w).chip.toNat).find? (· != 0)).getD 0

/-- Lanes out of service at the receiver are requested again once a spare of their group is free (R152). -/
def State.askAgain (s : State) (g : Nat) : State :=
  s.each ((s.pho.lanes.filter fun kv =>
      kv.2.state != .dark && kv.2.rx.isNone && grpOf (homeOf kv.1).1 == g && s.laneFabric kv.1).map Prod.fst)
    fun s l => s.judgeCarrier (homeOf l).1 (homeOf l).2 (s.carrier (homeOf l).1 (homeOf l).2).rxState 1

/-- The receiver takes a lane from a carrier that names it (R151). -/
def State.takeLane (s : State) (l f w : Nat) : State :=
  let x := s.lane l
  if x.rx = some (f, w) ∨ x.state = .dark ∨ x.state = .kite then s
  else
    let s := match x.rx with
      | some r => (s.judgeCarrier r.1 r.2 (s.carrier r.1 r.2).rxState 0).setCarrier r.1 r.2 fun c => { c with homeGood := 0 }
      | none => s
    let s := s.judgeCarrier f w .ok 0
    (s.setLane l fun y => { y with rx := some (f, w) }).relane l

/-- RETURN is asked for (R152): the home carrier, and for a fiber moved whole all eight of its data carriers, have
passed the check. -/
def State.homeCheck (s : State) (f w : Nat) : State :=
  match homeLane f w with
  | none => s
  | some l =>
    let x := s.lane l
    if x.rx = some (f, w) ∧ s.laneInService l ∨ x.state = .dark then s
    else
      let whole := match x.rx with | some r => decide (256 ≤ r.1) && decide (r.1 < 288) | none => false
      let good := fun v => decide (16 ≤ (s.carrier f v).homeGood)
      if good w && (!whole || (List.range 8).all good) then s.judgeCarrier f w .ok 3 else s

/-! The sender's answer (R150 to R152) -/

/-- A spare carrier is free: it carries no lane and the far end reported it OK within 64 blocks. -/
def State.spareFree (s : State) (f w : Nat) : Bool :=
  let c := s.carrier f w
  (s.laneOnTx f w).isNone && s.txRing f w == .locked && c.farState == some .ok && decide (s.clk.up - c.farUp ≤ 256)

/-- A move, or the withdrawal of a lane, is due at the next block time. -/
def State.setMove (s : State) (l : Nat) (target : Option (Nat × Nat)) : State :=
  s.setLane l fun x => { x with moving := some target }

/-- Lanes that the chip transmits on a fiber. -/
def State.lanesOnFiber (s : State) (f : Nat) : List Nat :=
  (s.pho.lanes.filter fun kv => kv.2.state != .dark && (match kv.2.tx with | some c => c.1 == f | none => false)).map Prod.fst

/-- A free carrier for the lane under R150, with every lane that moves with it and whether the spare was refused by
R146; none leads to step 4. -/
def State.moveTarget (s : State) (l : Nat) (fiber : Bool) : Option (List (Nat × (Nat × Nat))) × Bool :=
  match (s.lane l).tx with
  | none => (none, false)
  | some (f, _) =>
    let spare := 256 + grpOf f
    if !s.atStage 2 then (none, false)
    else if !fiber && s.spareFree f 8 then (some [(l, (f, 8))], false)
    else if 288 ≤ f then (none, false)
    else
      let free := decide (f < 256) && (List.range 8).all (s.spareFree spare) && (s.laneOnTx spare 8).isNone
      let same := s.chipOn spare == s.chipOn f
      if free && same then (some ((s.lanesOnFiber f).map fun k => (k, (spare, k % 8))), false)
      else if f == spare && s.spareFree f 8 then (some [(l, (f, 8))], free && !same)
      else (none, free && !same)

/-- A MOVE request is answered (R150). -/
def State.answerMove (s : State) (l : Nat) (fiber : Bool) : State :=
  if (s.lane l).moving.isSome then s
  else
    let r := s.moveTarget l fiber
    let f := ((s.lane l).tx.getD (homeOf l)).1
    let s := if r.2 then s.bump (fibReg (256 + grpOf f) 0x108) else s
    match r.1 with
    | some moves => s.each moves fun s m => s.setMove m.1 (some m.2)
    | none =>
      if fiber then s.each (s.lanesOnFiber f) fun s k => s.setMove k none
      else if (s.lane l).withdrawn then s
      else s.setMove l none

/-- The move of a lane takes effect at a block time (R151). -/
def State.moveNow (s : State) (l : Nat) : State :=
  match (s.lane l).moving with
  | none => s
  | some none => (s.setLane l fun x => { x with moving := none, withdrawn := true }).relane l
  | some (some c) =>
    let old := s.lane l
    let s := (s.setLane l fun x => { x with moving := none, withdrawn := false, resetDue := false, tx := some c }).relane l
    let s := (s.bump (laneReg l 0x38)).record (lanePage l) none 0x0501 (c.2 * 65536 + c.1)
    if old.resetDue then
      let s := match old.tx with | some t => s.resweepRing (txRingOf t.1 t.2) | none => s
      match old.rx with | some r => s.resweepRing (rxRingOf r.1 r.2) | none => s
    else s

/-- RX_STATE of a code. -/
def RxState.ofCode : Nat → Option RxState
  | 0 => some .ok | 1 => some .lowPower | 2 => some .noLight | 3 => some .tagMismatch | 4 => some .tagMissing
  | 5 => some .relocking | _ => none

/-- The chip's own transmit carrier that a report received in a group is about: fiber order is mirrored (R146). -/
def reportCarrier (g m : Nat) (w : Nat) : Nat × Nat :=
  (if g < 32 then (if 256 ≤ m then 256 + g else 8 * g + m % 8) else 288 + m % 2, w % 9)

/-- A maintenance report is taken up (R147, R150, R164); one with a reserved code is counted. -/
def State.takeReport (s : State) (f w : Nat) (r : Bytes) : State :=
  match RxState.ofCode (byteAt r 2), decide (byteAt r 3 ≤ 3) with
  | some st, true =>
    let c := reportCarrier (grpOf f) (fld r 8 2 % 1024) (byteAt r 10 % 16)
    let margin := signed 16 (fld r 6 2)
    let old := (s.carrier c.1 c.2).farState
    let s := s.setCarrier c.1 c.2 fun x => { x with farState := some st, farMargin := margin, farUp := s.clk.up }
    let subject := s.laneOnTx c.1 c.2
    let s := match subject with | some l => s.rset (laneReg l 0x18) (fld r 6 2) | none => s
    let s := if st = .tagMissing ∧ old ≠ some .tagMissing ∧ s.txRing c.1 c.2 = .locked ∧ subject.isSome
      then s.resweepRing (txRingOf c.1 c.2) else s
    match byteAt r 3, subject with
    | 1, some l => s.answerMove l false
    | 2, some l => s.answerMove l true
    | 3, _ =>
      match homeLane c.1 c.2 with
      | some l =>
        if ((s.lane l).tx = some c ∧ !(s.lane l).withdrawn) ∨ (s.lane l).state = .dark then s else s.setMove l (some c)
      | none => s
    | _, _ => s
  | _, _ => s.laneCtr (s.laneOf f w) 0x30

/-! Lane-tag blocks (R78 to R80) -/

/-- Picoseconds since reset, at the FC's 625 ps. -/
def State.psNow (s : State) : Nat := s.fcNow * 625

/-- The echo field of a block that arrived at `rxPs` (R80): a request is answered in the next block, a response gives
the delay of R35, corrected by TICK.ASYM_PS. -/
def State.takeEcho (s : State) (p : Nat) (b : Bytes) (rxPs : Nat) : State :=
  let id := BitVec.ofNat 16 (fld b 28 2)
  match byteAt b 30 with
  | 1 => s.setClk fun c => { c with answers := c.answers ++ [⟨p, id, rxPs⟩] }
  | 2 =>
    match s.clk.echoes.find? fun e => e.id == id && s.upstreamPort e.upstream == some p with
    | some e =>
      let round := rxPs - e.departPs - fld b 32 8
      let asym := signed 32 (s.rget (tickReg (0x120 + 4 * e.upstream)))
      (s.setClk fun c => { c with echoes := c.echoes.filter fun x => x.id != id }).rset
        (tickReg (0x130 + 4 * e.upstream)) (wrap 32 ((round / 2 : Nat) + asym))
    | none => s
  | _ => s

/-- The lane's identity is wrong for two blocks (R149): OUT, with FAULT attention and the CHIP_ID and LANE seen. -/
def State.peerMismatch (s : State) (l f w chip lane : Nat) : State :=
  let s := s.judgeCarrier f w .tagMismatch 0
  let s := (s.setLane l fun x => { x with rx := none }).relane l
  s.alarm (lanePage l) (24 + l % 2) 0x0503 (chip % 2 ^ 32) [condLink 0x0502 lane]

/-- A valid block on a carrier whose lane is known: wavelength, identity, lane and power (R149, R151, R152). -/
def State.judgeBlock (s : State) (f w : Nat) (b : Bytes) (power : Int) : State :=
  let chip := fld b 4 8
  let lane := fld b 12 2 % 4096
  let wave := byteAt b 16 % 16
  let first := s.laneOf f w
  let s := match first with
    | some l => (s.rset (laneReg l 0x14) (2 ^ 31 + wave * 65536 + lane)).rset (laneReg l 0x1C) (wrap 16 power)
    | none => s
  let c := s.carrier f w
  let ring := s.rxRing f w
  let wrong := wave ≠ w
  let margin := power + 1300
  let s := s.setCarrier f w fun x => { x with
    missing := 0, chip := BitVec.ofNat 64 chip, power := power
    mismatch := if wrong then c.mismatch + 1 else 0
    heldGood := if wrong then 0 else c.heldGood + 1
    low := if margin < 50 then c.low + 1 else 0
    homeGood := if !wrong && decide (0xFFE ≤ lane) then c.homeGood + 1 else 0 }
  if wrong then
    if c.mismatch + 1 = 2 then
      let s := s.laneCtr first 0x48
      (s.judgeCarrier f w .tagMismatch 1).resweepRing (rxRingOf f w)
    else s
  else
    let s := if ring = .hold ∧ 2 ≤ c.heldGood + 1 then s.moveRing (rxRingOf f w) { state := .locked } else s
    let s := if lane = 0xFFE then
        match s.laneOnRx f w with
        | some l => (s.setLane l fun x => { x with rx := none }).relane l
        | none => s
      else if lane = 0xFFF then
        if (w = 8 ∨ (256 ≤ f ∧ f < 288)) ∧ c.chip = 0 then s.askAgain (grpOf f) else s
      else s
    if 0xFFE ≤ lane then (s.judgeCarrier f w .ok (s.carrier f w).request).homeCheck f w
    else
      let l := namedLane f lane
      let known := if l < 2048 then s.rget (portReg (s.lanePort l) 0x1A8) else chip
      let s := if l < 2048 ∧ known = 0 then s.rset (portReg (s.lanePort l) 0x1A8) chip else s
      let inPort := match first with
        | some k => decide (2048 ≤ k) || w == 8 || decide (256 ≤ f) || s.lanePort k == s.lanePort l
        | none => true
      if (known ≠ 0 ∧ known ≠ chip) ∨ !inPort then
        let s := s.setCarrier f w fun x => { x with foreign := c.foreign + 1 }
        if c.foreign + 1 = 2 then s.peerMismatch (first.getD l) f w chip lane else s
      else
        let s := s.setCarrier f w fun x => { x with foreign := 0 }
        let s := s.takeLane l f w
        if 64 ≤ (s.carrier f w).low then s.judgeCarrier f w .lowPower 0 else s.judgeCarrier f w .ok 0

/-- A returning fiber's port comes up once its lanes are verified (R170). -/
def State.returnPorts (s : State) (f : Nat) : State :=
  if !s.pho.returning.contains f then s
  else
    let ports := ((List.range 4).map (4 * f + ·)).filter fun p => s.leads p && (s.port p).enabled
    let s := s.each ports fun s p =>
      if s.mode p = 0 ∧ !(s.port p).up ∧ s.lanesNow p = s.lanesWide p then s.bringUp p else s
    if ports.all fun p => (s.port p).up then
      s.setPho fun x => { x with returning := x.returning.filter (· != f) }
    else s

/-- A lane-tag block arrives on a carrier (R79, R149): `power` in 0.01 dBm, `phase` the marker's measured error in
ps, `rxPs` the time of receipt in ps since reset. -/
def State.tagBlockRx (s : State) (f w : Nat) (b : Bytes) (power phase : Int) (rxPs : Nat) : State :=
  let ring := s.rxRing f w
  if !s.atStage 1 || !(ring == .locked || ring == .hold) || !s.fiberFabric f then s
  else if fld b 0 2 ≠ 0x4C54 ∨ fld b 60 4 ≠ (crc32c (b.take 60)).toNat then
    (s.laneCtr (s.laneOf f w) 0x20).blockMissing f w true
  else if byteAt b 2 ≠ 1 then s.laneCtr (s.laneOf f w) 0x28
  else
    let s := s.judgeBlock f w b power
    let flags := byteAt b 3
    let s := match s.laneOnRx f w with
      | some l =>
        if l < 2048 then
          let p := s.lanePort l
          let s := if bit flags 0 then s.markerRx p (fld b 18 2) (BitVec.ofNat 48 (fld b 20 6)) phase else s
          s.takeEcho p b rxPs
        else s.setTwin fun t => { t with tagUp := s.clk.up }
      | none => s
    let s := if bit flags 1 then s.takeReport f w (sub b 40 16) else s
    s.returnPorts f

/-- Carriers that the chip receives in a group and reports, in ascending fiber and wavelength order (R148). -/
def State.reported (s : State) (g : Nat) : List (Nat × Nat) :=
  (grpFibers g).flatMap fun f => ((List.range 9).filter fun w => s.rxRing f w != .dark).map fun w => (f, w)

/-- The report for the next block of a group (R148): the oldest change first, else the next carrier in rotation. -/
def State.nextReport (s : State) (g : Nat) : State × Bytes :=
  let all := s.reported g
  let oldest := all.foldl (fun (best : Option ((Nat × Nat) × Nat)) c =>
    match (s.carrier c.1 c.2).changed, best with
    | some u, none => some (c, u)
    | some u, some b => if u < b.2 then some (c, u) else some b
    | none, b => b) none
  let n := mgetD s.pho.reportNext g 0
  let pick := match oldest with
    | some b => some b.1
    | none => all[n % max 1 all.length]?
  match pick with
  | none => (s, zeros 16)
  | some (f, w) =>
    let c := s.carrier f w
    let seq := mgetD s.pho.reportSeq g 0
    let subject := match s.laneOnRx f w with
      | some l => l
      | none => if c.rxState = .ok ∧ (homeLane f w).isNone then 0xFFF else 0xFFE
    let body := beBytes 2 subject ++ beBytes 1 c.rxState.ctorIdx ++ beBytes 1 c.request
      ++ beBytes 2 (wrap 16 c.power) ++ beBytes 2 (wrap 16 (c.power + 1300)) ++ beBytes 2 f ++ beBytes 1 w
      ++ beBytes 1 seq ++ zeros 4
    (((s.setCarrier f w fun x => { x with changed := none }).setPho fun x => { x with
        reportSeq := mput x.reportSeq g ((seq + 1) % 256)
        reportNext := if oldest.isSome then x.reportNext else mput x.reportNext g ((n + 1) % max 1 all.length) }), body)

/-- The 64 bytes of a block (R78). -/
def State.tagBlock (s : State) (lane f w : Nat) (marker : Bool) (echo : Nat × Nat × Nat) (maint : Bytes) : Bytes :=
  let head := beBytes 2 0x4C54 ++ beBytes 1 1 ++ beBytes 1 (2 + b2n marker)
    ++ beBytes 8 Sys2Proof.Config.serial.toNat ++ beBytes 2 lane ++ beBytes 2 f ++ beBytes 1 w ++ zeros 1
  let mark := if marker then
      beBytes 2 (s.fget (tickReg 0x104) 15 0) ++ beBytes 6 s.tick
        ++ beBytes 2 (if s.isMaster then 0 else s.fget (tickReg 0x140) 15 0)
        ++ beBytes 2 echo.2.1 ++ beBytes 1 echo.1 ++ zeros 1 ++ beBytes 8 echo.2.2
    else zeros 22
  let b := head ++ mark ++ maint ++ zeros 4
  b ++ crc32cTrailer b

/-- Carriers whose blocks go out with a port's: the homes of its lanes, λ8 of a fiber with the fiber's lowest FABRIC
port, and the group's spare fiber with the group's lowest. Spare carriers join in Stage C (R173). -/
def State.portCarriers (s : State) (p : Nat) : List (Nat × Nat) :=
  let f := p / 4
  let g := p / 32
  let own := (s.portLanes p).map homeOf
  let lowest := fun (from_ : Nat) => !(List.range (p - from_)).any fun i => s.isFabric (from_ + i)
  let more := if s.atStage 2 then
      (if lowest (4 * f) then [(f, 8)] else []) ++
      (if lowest (32 * g) then (List.range 9).map fun w => (256 + g, w) else [])
    else []
  (own ++ more).filter fun c => s.txRing c.1 c.2 == .locked

/-- LANE of a carrier's block: the lane it carries, 0xFFE when it is withdrawn, 0xFFF for none (R151). -/
def State.tagLane (s : State) (f w : Nat) : Nat :=
  match s.laneOnTx f w with
  | some l => if (s.lane l).withdrawn then 0xFFE else l
  | none => 0xFFF

/-- The echo field of a port's next block: an answer that waits, else a fresh request on an upstream with none
open (R80). -/
def State.portEcho (s : State) (p : Nat) : State × (Nat × Nat × Nat) :=
  match s.clk.answers.find? fun a => a.port == p with
  | some a =>
    (s.setClk fun c => { c with answers := c.answers.filter fun x => x.port != p || x.id != a.id },
      (2, a.id.toNat, s.psNow - a.heardPs))
  | none =>
    match (if s.isMaster then none else s.upstreamOf p) with
    | some i =>
      if s.clk.echoes.any fun e => e.upstream == i then (s, (0, 0, 0))
      else
        let id := s.clk.nextEcho
        (s.setClk fun c => { c with
          nextEcho := id + 1, echoes := c.echoes ++ [⟨i, id, s.psNow, s.clk.up⟩] }, (1, id.toNat, s.psNow))
    | none => (s, (0, 0, 0))

/-- The blocks of a FABRIC port at a block time (R31, R148). -/
def State.tagBlocksTx (s : State) (p : Nat) : State :=
  if !s.atStage 1 || !s.isFabric p || !(s.port p).enabled || (s.port p).kite || s.fatal then s
  else
    let lowest := (s.portLanes p).find? s.laneInService
    let emits := s.isMaster || (s.upstreamOf p).isNone
    let e := s.portEcho p
    e.1.each (s.portCarriers p) fun s c =>
      let lane := s.tagLane c.1 c.2
      let first := some lane == lowest
      let r := s.nextReport (grpOf c.1)
      r.1.send (.tag c.1 c.2 (r.1.tagBlock lane c.1 c.2 (first && (emits || e.2.1 != 0)) (if first then e.2 else (0, 0, 0)) r.2))

/-- Rings of an external carrier take a state. -/
def State.setCarrierRings (s : State) (f w : Nat) (x : RingState) : State :=
  (s.moveRing (txRingOf f w) { state := x }).moveRing (rxRingOf f w) { state := x }

/-- Spare carriers that serve a data fiber: its λ8 and its group's spare fiber (R145). -/
def sparesOf (f : Nat) : List (Nat × Nat) := (f, 8) :: (List.range 9).map fun w => (256 + f / 8, w)

/-- A port of a fiber changed its mode: from Stage C the fiber's spare carriers run while a FABRIC port may use them, and
stay dark otherwise (R154, R173). -/
def State.fitSpares (s : State) (f : Nat) : State :=
  if s.atStage 2 then
    s.each (sparesOf f) fun s c =>
      if s.fiberFabric c.1 then (if s.txRing c.1 c.2 = .dark then s.setCarrierRings c.1 c.2 .sweep else s)
      else if (s.laneOnTx c.1 c.2).isNone then s.setCarrierRings c.1 c.2 .dark
      else s
  else s

/-! Feeds and modules -/

/-- Selector state of a pair (R156). -/
def State.selector (s : State) (q : Nat) : Nat := s.fget (pblReg (0x110 + 4 * (q / 16))) (2 * (q % 16) + 1) (2 * (q % 16))

/-- Move a selector. -/
def State.setSelector (s : State) (q v : Nat) : State :=
  s.fset (pblReg (0x110 + 4 * (q / 16))) (2 * (q % 16) + 1) (2 * (q % 16)) v

/-- SETPOINT register of an output. -/
def setpointReg (m o : Nat) : Nat := elsReg m (0x104 + 4 * o)

/-- Pairs of a module that have consumers. -/
def modulePairs (m : Nat) : List Nat := ((List.range 18).map (18 * (m % 16) + ·)).filter fun q => !reservePair q

/-- What hangs on a consumer is judged again. -/
def State.consumerChanged (s : State) (c : Nat) : State :=
  if 290 ≤ c then s.refreshWaveguide c
  else s.each (s.lanesOnFiber c) State.relane

/-- A lit feed fails (R157). -/
def State.feedEvent (s : State) (q : Nat) (b : Bool) : State :=
  let m := feedModule q b
  let n := feedModule q (!b)
  let o := feedOutput q
  if reservePair q || s.feedLost q b || !s.atStage 1 || (s.els m).safeIdle then s
  else
    let s := s.setPho fun p => { p with feedsLost := mput p.feedsLost (feedKey q b) s.clk.up }
    if s.feedLost q (!b) then
      let s := (s.consumerChanged (consumerOf q false)).consumerChanged (consumerOf q true)
      s.alarmPlain (elsReg m 0) 25 q
    else
      let s := s.setSelector q (if b then 1 else 2)
      let keep := fun (s : State) (k : Nat) => s.setEls k fun x =>
        if x.forced then x
        else { x with
          pre0 := (s.rget (setpointReg k 0) : Int), pre1 := (s.rget (setpointReg k 1) : Int), forced := k == n }
      let s := (keep s m)
      let s := (keep s n).rset (setpointReg n o) 1900
      (s.fset (elsReg n 0x100) 2 2 1).alarm (elsReg n 0) 16 0x0E02 q

/-- Every lit feed of a module fails (R419). -/
def State.moduleLost (s : State) (m : Nat) : State :=
  s.each (modulePairs m) fun s q => s.feedEvent q (decide (16 ≤ m))

/-- Every consumer that a module feeds is drained (R158). -/
def State.moduleDrained (s : State) (m : Nat) : Bool :=
  (modulePairs m).all fun q =>
    let c := consumerOf q (decide (16 ≤ m))
    if c < 256 then (List.range 4).all fun i =>
      !s.leads (4 * c + i) || s.portState (4 * c + i) == 4 || s.portState (4 * c + i) == 0 || s.portState (4 * c + i) == 5
    else if c < 288 then
      (match s.spareCarries (c - 256) with
        | some f => (List.range 4).all fun i =>
            !s.leads (4 * f + i) || s.portState (4 * f + i) == 4 || s.portState (4 * f + i) == 0 || s.portState (4 * f + i) == 5
        | none => true)
    else if c < 290 then s.twin.state == .lull || s.twin.state == .idle
    else true

/-- RESTORE is judged and starts (R158): steps 1 and 2. An absent or unsuitable module is refused. -/
def State.startRestore (s : State) (m : Nat) (f : Option InFlight) : State × Code :=
  if !s.moduleDrained m then (s, .lullRequired)
  else if !(s.els m).present || !(s.els m).suitable then (s, .conflict)
  else if s.pho.restoring.any fun r => r.1 == m then (s, .busy)
  else
    let s := (s.setEls m fun x => { x with safeIdle := true }).each (modulePairs m) fun s q => s.setSelector q 0
    let s := s.setPho fun p => { p with restoring := p.restoring ++ [(m, f)] }
    (s.each (modulePairs m) fun s q =>
      let c := consumerOf q (decide (16 ≤ m))
      if 290 ≤ c then s.refreshWaveguide c else s, .ok)

/-- The module is lit at its setpoint before the event, its feeds are back, and the partner output returns to its own
(R158, steps 3 to 5). -/
def State.finishRestore (s : State) (m : Nat) : State :=
  let b := decide (16 ≤ m)
  let n := if b then m - 16 else m + 16
  let x := s.els m
  let y := s.els n
  let s := s.setEls m fun x => { x with safeIdle := false, forced := false }
  let s := ((s.rset (setpointReg m 0) x.pre0.toNat).rset (setpointReg m 1) x.pre1.toNat).fset (elsReg m 0x100) 3 2 0
  let s := s.setPho fun p => { p with
    feedsLost := p.feedsLost.filter fun kv => !((modulePairs m).any fun q => feedKey q b == kv.1) }
  let s := if y.forced then
      ((s.setEls n fun y => { y with forced := false }).rset (setpointReg n 0) y.pre0.toNat).rset (setpointReg n 1) y.pre1.toNat
    else s
  let s := s.fset (elsReg n 0x100) 2 2 0
  s.each (modulePairs m) fun s q => (s.consumerChanged (consumerOf q b)).consumerChanged (consumerOf q (!b))

end Sys2Proof.Machine
end

