-- ==== Sys2Proof/Machine/TableOps.lean ====
section
/-! DEFINITION. Forwarding tables (chapter 5): lookups, the choice of an output port, learning, and table
commands. -/

namespace Sys2Proof.Machine

/-! The place LPM (R113 to R115) -/

/-- Count of 1 bits among the low two. -/
def pop2 (n : Nat) : Nat := n % 2 + n / 2 % 2

/-- Rank of an entry: larger ranks stand first (R114). -/
def LpmEntry.rank (e : LpmEntry) : Nat := e.len * 16 + pop2 e.vcMask + (if e.ctxMatch then 8 else 0)

/-- Equal key and masks (R113). -/
def LpmEntry.sameKey (a b : LpmEntry) : Bool :=
  a.place == b.place && a.len == b.len && a.vc == b.vc && a.vcMask == b.vcMask && a.ctxMatch == b.ctxMatch
    && a.ctx == b.ctx

/-- The entry matches a key (R113); the context is none for types that do not use it. -/
def LpmEntry.isMatch (e : LpmEntry) (place vc : Nat) (ctx : Option Nat) : Bool :=
  place / 2 ^ (32 - e.len) == e.place.toNat / 2 ^ (32 - e.len) && (vc &&& e.vcMask) == e.vc
    && (!e.ctxMatch || ctx == some e.ctx)

/-- Position and entry that a key matches: the lowest (R114). -/
def lpmFind (l : List LpmEntry) (place vc : Nat) (ctx : Option Nat) : Option (Nat × LpmEntry) :=
  (l.zipIdx.find? fun x => x.1.isMatch place vc ctx).map fun x => (x.2, x.1)

/-- The context part of a packet's key (R67, R113). -/
def keyCtx (type ctx : Nat) : Option Nat := if usesContext type then some ctx else none

/-- Ports of a next-hop group. -/
def State.nhPorts (s : State) (g : Nat) : List Nat := ((mget s.tbl.nh g).getD {}).ports

/-- Result groups of a context (R184). -/
def State.resultGroups (s : State) (c : Nat) : List Nat :=
  let base := s.fget (ctxReg c 0x128) 13 0
  let n := if s.fget (ctxReg c 0x100) 2 0 = 5 then 1 else s.fget (ctxReg c 0x100) 23 18 + 1
  (List.range n).map (base + ·)

/-! Errors of table SRAM (R108) -/

/-- The entry a die would read is marked uncorrectable. -/
def State.tblBad (s : State) (d : Nat) (k : TblKind) (pos : Nat) : Bool := s.tbl.errors.contains (d, k, pos)

/-- A lookup that cannot trust its entry: counted, with ECC_UNCORR; the entry is marked for its rewrite. -/
def State.tblDiscard (s : State) (d : Nat) (k : TblKind) (pos : Nat) : State :=
  let s := s.bump (tblDieReg d 0x108)
  let s := s.alarmPlain (tblDieReg d 0) 16 pos
  if s.tblBad d k pos then s else s.setTbl fun t => { t with errors := t.errors ++ [(d, k, pos)] }

/-! Choice of an output port (R84) -/

/-- Ports of a group that may take the packet. -/
def State.usablePorts (s : State) (g src vc : Nat) : List Nat :=
  let up := (s.nhPorts g).filter s.portTakes
  let granted := up.filter fun p => s.mode p == 0 && calGrants (s.pcal p).active src vc
  if vc < 3 ∧ !granted.isEmpty then granted else up

/-- Among the ports with the fewest queued bytes, the first at or after the rotating pointer. -/
def State.sprayPort (s : State) (g : Nat) (ports : List Nat) (vc : Nat) : State × Option Nat :=
  let grp := (mget s.tbl.nh g).getD {}
  match leastOf (ports.map fun p => s.egressBytes p vc) with
  | none => (s, none)
  | some least =>
    let best := ports.filter fun p => s.egressBytes p vc == least
    match (rotate grp.ports grp.ptr).find? fun p => best.contains p with
    | some p =>
      let next := (grp.ports.idxOf p + 1) % max 1 grp.ports.length
      (if best.length = 1 then s
       else s.setTbl fun t => { t with nh := mput t.nh g { grp with ptr := next } }, some p)
    | none => (s, none)

/-- Steps 1 to 3 of R84. -/
def State.choosePort (s : State) (g src vc srcPlace dst : Nat) : State × Option Nat :=
  let ports := s.usablePorts g src vc
  if ports.isEmpty then (s, none)
  else if ((mget s.tbl.nh g).getD {}).hash then
    let h := (crc16 (beBytes 4 srcPlace ++ beBytes 4 dst ++ beBytes 1 (vc % 4))).toNat
    let sorted := sortBy id ports
    (s, sorted[h % sorted.length]?)
  else s.sprayPort g ports vc

/-- What a lookup of a place gives. -/
inductive Way where
  | miss | noPort | bad (kind : TblKind) (pos : Nat) | port (p : Nat)
  deriving DecidableEq, Repr

/-- Lookup of a unicast place on a die, and the choice of a port (R105, R84). -/
def State.route (s : State) (d src vc srcPlace dst : Nat) (ctx : Option Nat) : State × Way :=
  match lpmFind s.tbl.lpm dst vc ctx with
  | none => (s, .miss)
  | some (pos, e) =>
    if s.tblBad d .lpm pos then (s, .bad .lpm pos)
    else if s.tblBad d .nh e.group then (s, .bad .nh e.group)
    else
      let r := s.choosePort e.group src vc srcPlace dst
      match r.2 with
      | some p => (r.1, .port p)
      | none => (r.1, .noPort)

/-! The MAC table (R122 to R128) -/

/-- One die's MAC replica. -/
def TableSt.mac (t : TableSt) (d : Nat) : Map MacEntry :=
  match d with | 0 => t.mac0 | 1 => t.mac1 | 2 => t.mac2 | _ => t.mac3

/-- Change one die's MAC replica. -/
def TableSt.setMac (t : TableSt) (d : Nat) (f : Map MacEntry → Map MacEntry) : TableSt :=
  match d with
  | 0 => { t with mac0 := f t.mac0 }
  | 1 => { t with mac1 := f t.mac1 }
  | 2 => { t with mac2 := f t.mac2 }
  | _ => { t with mac3 := f t.mac3 }

/-- Change all four replicas. -/
def State.eachMac (s : State) (f : Nat → Map MacEntry → Map MacEntry) : State :=
  s.setTbl fun t => [0, 1, 2, 3].foldl (fun t d => t.setMac d (f d)) t

/-- Bucket of a key (R122). -/
def macBucket (vid mac : Nat) : Nat := (crc32c (beBytes 2 (vid % 4096) ++ beBytes 6 mac)).toNat % 65536

/-- Positions a key may take: the four ways of its bucket, then the overflow entries. -/
def macPositions (vid mac : Nat) : List Nat :=
  ((List.range 4).map fun w => 4 * macBucket vid mac + w) ++ (List.range 64).map fun c => 262144 + c

/-- Position and entry of a key. -/
def macFind (m : Map MacEntry) (vid mac : Nat) : Option (Nat × MacEntry) :=
  (m.find? fun kv => kv.2.vid == vid && kv.2.mac.toNat == mac)

/-- The lowest free way, or the lowest free overflow entry. -/
def macFree (m : Map MacEntry) (vid mac : Nat) : Option Nat :=
  (macPositions vid mac).find? fun i => (mget m i).isNone

/-- Put an entry at a position, at most one position holding its key. -/
def macPlace (m : Map MacEntry) (pos : Nat) (e : MacEntry) : Map MacEntry :=
  let m := match macFind m e.vid e.mac.toNat with | some (old, _) => mdel m old | none => m
  mput m pos e

/-- GEN_MAC. -/
def State.macGen (s : State) : Nat := s.rget (tblReg 0x10C)

/-- HIT of a key over the four dies. -/
def State.macHit (s : State) (vid mac : Nat) : Bool :=
  (List.range 4).any fun d => match macFind (s.tbl.mac d) vid mac with | some (_, e) => e.hit | none => false

/-- A learn on a die (R123): its own replica at once, then the relay (R124). -/
def State.learn (s : State) (d vid mac : Nat) (remote : Bool) (dest : Nat) : State :=
  if groupMac mac then s
  else
    let m := s.tbl.mac d
    let e : MacEntry := {
      vid := vid, mac := BitVec.ofNat 48 mac, fixed := false, remote := remote, dest := BitVec.ofNat 32 dest,
      hit := true, gen := s.macGen, at_ := s.fcNow }
    let relay := fun (s : State) =>
      if s.tbl.relay.length < 256 then
        s.setTbl fun t => { t with relay := t.relay ++ [⟨d, vid, e.mac, remote, e.dest⟩] }
      else s.bump (tblReg 0x180)
    match macFind m vid mac with
    | some (pos, old) =>
      if old.remote == remote && old.dest == e.dest then
        s.setTbl fun t => t.setMac d fun m => mput m pos { old with hit := true }
      else if old.fixed then s.bump (tblReg 0x190)
      else relay (s.setTbl fun t => t.setMac d fun m => mput m pos e)
    | none =>
      match macFree m vid mac with
      | some pos => relay (s.setTbl fun t => t.setMac d fun m => mput m pos e)
      | none => s.bump (tblReg 0x180)

/-- A die whose replica holds only what the relay has applied of a key: none of its own learns waits. -/
def State.macRef (s : State) (vid : Nat) (mac : BitVec 48) : Nat :=
  ((List.range 4).find? fun d => !s.tbl.relay.any fun l => l.die == d && l.vid == vid && l.mac == mac).getD 0

/-- The relay applies its oldest learn to all four replicas (R124). -/
def State.relayApply (s : State) : State :=
  match s.tbl.relay with
  | [] => s
  | l :: rest =>
    let ref := s.tbl.mac (s.macRef l.vid l.mac)
    let s := s.setTbl fun t => { t with relay := rest }
    let e : MacEntry := {
      vid := l.vid, mac := l.mac, fixed := false, remote := l.remote, dest := l.dest, hit := false,
      gen := s.macGen, at_ := s.fcNow }
    let put := fun (s : State) (pos : Nat) =>
      (s.eachMac fun d m => macPlace m pos { e with hit := d == l.die }).bump (tblReg 0x1A0)
    match macFind ref l.vid l.mac.toNat with
    | some (pos, old) =>
      if old.fixed then s.bump (tblReg 0x190)
      else if old.remote == l.remote && old.dest == l.dest then put s pos
      else (put s pos).bump (tblReg 0x188)
    | none =>
      match macFree ref l.vid l.mac.toNat with
      | some pos => put s pos
      | none => s.bump (tblReg 0x180)

/-- Every waiting learn is applied: MAC commands pass through the same relay (R124). -/
def State.relayDrain (s : State) : State := s.each s.tbl.relay fun s _ => s.relayApply

/-- Entries of the MAC table leave all four replicas; answers how many positions they held. -/
def State.macRemove (s : State) (p : Nat → MacEntry → Bool) : State × Nat :=
  let n := ((s.tbl.mac 0).filter fun kv => p kv.1 kv.2).length
  (s.eachMac fun _ m => m.filter fun kv => !p kv.1 kv.2, n)

/-- MODE or WIDTH of ports changed: every entry that names one goes (R126). -/
def State.macModeFlush (s : State) (ports : List Nat) : State :=
  let r := s.macRemove fun _ e => !e.remote && ports.contains e.dest.toNat
  r.1.bump (tblReg 0x198) r.2

/-! Table commands (R106 to R112, R425) -/

/-- Refusal reasons of R111. -/
inductive Reason where
  | none | tableFull | duplicate | notFound | staleGen | notDrained | badPort | groupInUse | badFormat
  | staticPresent
  deriving DecidableEq, Repr

/-- RESULT that goes with a reason (R111); `none` stands for STAGE_NOT_READY (R425). -/
def Reason.code : Reason → Code
  | .none => .stageNotReady
  | .tableFull | .duplicate | .staleGen | .groupInUse | .staticPresent => .conflict
  | .notFound | .badPort | .badFormat => .badAddress
  | .notDrained => .lullRequired

/-- What a table command comes to. -/
inductive TblOut where
  | refused (r : Reason) (port : Nat)
  /-- INDEX, DETAIL, data, and GEN of a read. -/
  | ok (index detail : Nat) (data : Bytes) (gen : Nat)
  /-- A shift or a flush runs; the reply follows its completion. -/
  | running
  deriving DecidableEq, Repr

/-- No position. -/
def noIndex : Nat := 0xFFFFFFFF

/-- Table of an operation: 0 LPM, 1 next-hop, 2 multicast, 3 MAC, 4 VLAN. -/
def opTable (op : Nat) : Nat :=
  if op < 0x10 then 0 else if op < 0x20 then 1 else if op < 0x30 then 2 else if op < 0x40 then 3 else 4

/-- Argument length of an operation (R110). -/
def opArgs (op : Nat) : Nat :=
  match op with
  | 0x01 | 0x02 | 0x03 => 16
  | 0x10 => 132
  | 0x20 => 128
  | 0x30 | 0x31 | 0x32 | 0x33 | 0x34 => 20
  | 0x40 => 12
  | _ => 0

/-- Write commands (R109). -/
def opWrites (op : Nat) : Bool := [0x01, 0x02, 0x03, 0x10, 0x20, 0x30, 0x31, 0x34, 0x40].contains op

/-- Address of a table's generation. -/
def genReg (t : Nat) : Nat := tblReg (0x100 + 4 * t)

/-- An LPM entry as stored, or none if a field is out of range (R113). -/
def parseLpm (a : Bytes) : Option LpmEntry :=
  let len := byteAt a 4
  let b := byteAt a 5
  let nh := fld a 8 2
  if 32 < len ∨ bits b 3 1 ≠ 0 ∨ byteAt a 7 ≠ 0 ∨ 4096 ≤ nh ∨ fld a 10 2 ≠ 0 then none
  else
    let mask := bits b 5 4
    let cm := bit b 0
    some {
      place := BitVec.ofNat 32 (fld a 0 4 / 2 ^ (32 - len) * 2 ^ (32 - len)), len := len,
      vc := bits b 7 6 &&& mask, vcMask := mask, ctxMatch := cm, ctx := if cm then byteAt a 6 else 0,
      group := nh, gen := 0 }

/-- The 16 bytes of an LPM entry. -/
def LpmEntry.bytes (e : LpmEntry) : Bytes :=
  beBytes 4 e.place.toNat ++ beBytes 1 e.len ++ beBytes 1 (e.vc * 64 + e.vcMask * 16 + b2n e.ctxMatch)
    ++ beBytes 1 e.ctx ++ zeros 1 ++ beBytes 2 e.group ++ zeros 2 ++ beBytes 4 e.gen

/-- A group record (R116): SELECT and ports. -/
def parseNh (a : Bytes) : Option (Bool × List Nat) :=
  let count := byteAt a 1
  let words := (List.range 64).map fun i => fld a (4 + 2 * i) 2
  let ports := words.take count
  if 1 < byteAt a 0 ∨ 64 < count ∨ fld a 2 2 ≠ 0 ∨ words.any (fun w => decide (1024 ≤ w))
      ∨ (words.drop count).any (· != 0) ∨ !distinct ports then none
  else some (byteAt a 0 == 1, ports)

/-- The 132 bytes of a group record. -/
def NhGroup.bytes (g : NhGroup) : Bytes :=
  fit 132 (beBytes 1 (b2n g.hash) ++ beBytes 1 g.ports.length ++ zeros 2 ++ g.ports.flatMap (beBytes 2))

/-- Ports of a bitmap (R117). -/
def bitmapPorts (a : Bytes) : List Nat := (List.range 1024).filter fun p => bit (byteAt a (p / 8)) (p % 8)

/-- The 128-byte bitmap of ports. -/
def portBitmap (ports : List Nat) : Bytes :=
  (List.range 128).map fun i =>
    BitVec.ofNat 8 ((List.range 8).foldl (fun n j => n + b2n (ports.contains (8 * i + j)) * 2 ^ j) 0)

/-- A MAC entry of an operation: fields the operation reads must be in range (R122). -/
structure MacArg where
  vid : Nat
  mac : Nat
  fixed : Bool
  remote : Bool
  dest : Nat
  deriving DecidableEq, Repr

/-- Parse a MAC argument. -/
def parseMac (a : Bytes) : MacArg :=
  { vid := fld a 0 2, mac := fld a 2 6, fixed := bit (byteAt a 8) 6, remote := bit (byteAt a 8) 5, dest := fld a 10 4 }

/-- VID in range, reserved bits 0. -/
def vidGood (v : Nat) : Bool := decide (1 ≤ v) && decide (v ≤ 4094)

/-- DEST and the reserved bits of a MAC argument are in range. -/
def macRestGood (a : Bytes) : Bool :=
  let m := parseMac a
  bits (byteAt a 8) 3 0 == 0 && byteAt a 9 == 0 && fld a 14 2 == 0 && (m.remote || decide (m.dest < 1024))

/-- The 20 bytes of a MAC entry. -/
def macBytes (e : MacEntry) (hit : Bool) : Bytes :=
  beBytes 2 e.vid ++ beBytes 6 e.mac.toNat ++ beBytes 1 (128 + b2n e.fixed * 64 + b2n e.remote * 32 + b2n hit * 16)
    ++ zeros 1 ++ beBytes 4 e.dest.toNat ++ zeros 2 ++ beBytes 4 e.gen

/-- The 12 bytes of a VLAN entry (R118). -/
def VlanEntry.bytes (e : VlanEntry) : Bytes :=
  beBytes 1 (b2n e.valid * 128 + b2n e.learn * 64) ++ zeros 1 ++ beBytes 2 e.flood ++ beBytes 4 e.remote.toNat
    ++ beBytes 4 e.gen

/-- Check 3 of R425. -/
def formatBad (op flags index : Nat) (a : Bytes) : Bool :=
  bits flags 7 3 != 0 ||
  match op with
  | 0x01 | 0x02 | 0x03 => (parseLpm a).isNone
  | 0x04 => decide (65536 ≤ index)
  | 0x10 => decide (4096 ≤ index) || (parseNh a).isNone
  | 0x11 => decide (4096 ≤ index)
  | 0x20 | 0x21 => decide (16384 ≤ index)
  | 0x30 => !vidGood (parseMac a).vid || !macRestGood a
  | 0x31 | 0x32 => !vidGood (parseMac a).vid
  | 0x33 =>
    decide (262207 < index) || (bit flags 1 && !vidGood (parseMac a).vid) || (bit flags 2 && !macRestGood a)
  | 0x34 => !macRestGood a || (bit flags 1 && !vidGood (parseMac a).vid)
  | 0x40 =>
    !vidGood index || bits (byteAt a 0) 5 0 != 0 || byteAt a 1 != 0 || decide (16384 ≤ fld a 2 2)
  | 0x41 => decide (4096 ≤ index)
  | _ => true

/-- Check 4 of R425: the lowest port named that the table does not permit. -/
def State.badPort (s : State) (op : Nat) (a : Bytes) : Option Nat :=
  match op with
  | 0x10 => leastOf (((parseNh a).elim [] Prod.snd).filter fun p => !s.leads p || s.mode p == 1)
  | 0x20 => leastOf ((bitmapPorts a).filter fun p => !s.leads p)
  | 0x30 | 0x34 =>
    let m := parseMac a
    if !m.remote && !s.isEthernet m.dest then some m.dest else none
  | _ => none

/-- The lowest of some ports that is not drained (R112). -/
def State.notDrained (s : State) (ports : List Nat) : Option Nat :=
  leastOf (ports.filter fun p => !s.portDrainedForTables p)

/-- Ports of the group that a lookup of an entry's key returns in a table (R112). -/
def State.keyPorts (s : State) (l : List LpmEntry) (e : LpmEntry) : List Nat :=
  match lpmFind l e.place.toNat e.vc (if e.ctxMatch then some e.ctx else none) with
  | some (_, x) => s.nhPorts x.group
  | none => []

/-- Position that an inserted entry takes (R114). -/
def lpmSlot (l : List LpmEntry) (e : LpmEntry) : Nat := (l.takeWhile fun x => decide (e.rank ≤ x.rank)).length

/-- Checks 6 to 9 of R425. -/
def State.tableRefused (s : State) (op index : Nat) (a : Bytes) : Option (Reason × Nat) :=
  let drained := fun (ports : List Nat) => (s.notDrained ports).map fun p => (Reason.notDrained, p)
  match op with
  | 0x01 => (parseLpm a).bind fun e =>
    if s.tbl.lpm.any (fun x => x.sameKey e) then some (.duplicate, 0)
    else if 65536 ≤ s.tbl.lpm.length then some (.tableFull, 0)
    else drained (s.nhPorts e.group ++ s.keyPorts s.tbl.lpm e)
  | 0x02 => (parseLpm a).bind fun e =>
    match s.tbl.lpm.find? fun x => x.sameKey e with
    | none => some (.notFound, 0)
    | some x => drained (s.nhPorts x.group ++ s.keyPorts (s.tbl.lpm.filter fun y => !y.sameKey e) e)
  | 0x03 => (parseLpm a).bind fun e =>
    match s.tbl.lpm.find? fun x => x.sameKey e with
    | none => some (.notFound, 0)
    | some x => drained (s.nhPorts x.group ++ s.nhPorts e.group)
  | 0x10 => drained (s.nhPorts index ++ (parseNh a).elim [] Prod.snd)
  | 0x20 =>
    if s.claimingCtxs.any (fun c => (s.resultGroups c).contains index) then some (.groupInUse, 0)
    else
      let old := s.mcPorts index
      let new := bitmapPorts a
      drained ((old.filter fun p => !new.contains p) ++ new.filter fun p => !old.contains p)
  | 0x30 =>
    let m := parseMac a
    match macFind (s.tbl.mac 0) m.vid m.mac with
    | some (_, e) => if e.fixed && !m.fixed then some (.staticPresent, 0) else none
    | none => if (macFree (s.tbl.mac 0) m.vid m.mac).isNone then some (.tableFull, 0) else none
  | 0x31 =>
    let m := parseMac a
    if (macFind (s.tbl.mac 0) m.vid m.mac).isNone then some (.notFound, 0) else none
  | _ => none

/-- Checks 1 to 9 of R425 in order. -/
def State.tableJudge (s : State) (op : Nat) (b : TblBlock) : Option (Reason × Nat) :=
  let t := opTable op
  if b.args.length ≠ opArgs op ∨ b.argLen.toNat ≠ opArgs op then some (.badFormat, 0)
  else if !s.atStage (if t < 3 then 2 else 1) then some (.none, 0)
  else if formatBad op b.flags.toNat b.index.toNat b.args then some (.badFormat, 0)
  else match s.badPort op b.args with
    | some p => some (.badPort, p)
    | none =>
      if opWrites op && decide (b.gen.toNat ≤ s.rget (genReg t)) then some (.staleGen, 0)
      else s.tableRefused op b.index.toNat b.args

/-- The write takes its generation. -/
def State.setGen (s : State) (op : Nat) (b : TblBlock) : State := s.rset (genReg (opTable op)) b.gen.toNat

/-- NEXT (R127): positions scanned upward, at most 4,096 of them and 16 entries; answers the entries and the next
cursor. -/
def macNextFrom (m : Map MacEntry) (cursor : Nat) (pass : MacEntry → Bool) : List (Nat × MacEntry) × Nat :=
  let stop := min 262208 (cursor + 4096)
  let hit := (m.filter fun kv => decide (cursor ≤ kv.1) && decide (kv.1 < stop) && pass kv.2).take 16
  let last := if hit.length = 16 then (hit.getLast?.elim stop fun kv => kv.1 + 1) else stop
  (hit, if 262208 ≤ last then noIndex else last)

/-- An accepted command acts; shifts and flushes only start. -/
def State.tableApply (s : State) (op : Nat) (b : TblBlock) : State × TblOut :=
  let i := b.index.toNat
  let g := b.gen.toNat
  match op with
  | 0x01 | 0x02 | 0x34 => (s, .running)
  | 0x03 =>
    match parseLpm b.args with
    | some e =>
      let pos := (s.tbl.lpm.findIdx? fun x => x.sameKey e).getD 0
      let l := s.tbl.lpm.map fun x => if x.sameKey e then { x with group := e.group, gen := g } else x
      ((s.setTbl fun t => { t with lpm := l }).setGen op b, .ok pos 0 [] g)
    | none => (s, .refused .badFormat 0)
  | 0x04 =>
    match s.tbl.lpm[i]? with
    | some e => (s, .ok i 0 e.bytes e.gen)
    | none => (s, .ok i 0 [] 0)
  | 0x10 =>
    match parseNh b.args with
    | some r =>
      ((s.setTbl fun t => { t with nh := mput t.nh i { hash := r.1, ports := r.2, gen := g } }).setGen op b,
        .ok i 0 [] g)
    | none => (s, .refused .badFormat 0)
  | 0x11 =>
    let x := (mget s.tbl.nh i).getD {}
    (s, .ok i 0 x.bytes x.gen)
  | 0x20 =>
    ((s.setTbl fun t => { t with mc := mput t.mc i { ports := bitmapPorts b.args, gen := g } }).setGen op b,
      .ok i 0 [] g)
  | 0x21 =>
    let x := (mget s.tbl.mc i).getD {}
    (s, .ok i 0 (portBitmap x.ports) x.gen)
  | 0x30 =>
    let m := parseMac b.args
    let pos := match macFind (s.tbl.mac 0) m.vid m.mac with
      | some (pos, _) => pos
      | none => (macFree (s.tbl.mac 0) m.vid m.mac).getD 0
    let e : MacEntry := {
      vid := m.vid, mac := BitVec.ofNat 48 m.mac, fixed := m.fixed, remote := m.remote,
      dest := BitVec.ofNat 32 m.dest, hit := false, gen := g, at_ := s.fcNow }
    ((s.eachMac fun _ t => macPlace t pos e).setGen op b, .ok pos 0 [] g)
  | 0x31 =>
    let m := parseMac b.args
    let pos := (macFind (s.tbl.mac 0) m.vid m.mac).elim noIndex Prod.fst
    (((s.macRemove fun _ e => e.vid == m.vid && e.mac.toNat == m.mac).1).setGen op b, .ok pos 0 [] g)
  | 0x32 =>
    let m := parseMac b.args
    match macFind (s.tbl.mac 0) m.vid m.mac with
    | some (pos, e) => (s, .ok pos 0 (macBytes e (s.macHit m.vid m.mac)) e.gen)
    | none => (s, .ok noIndex 0 [] 0)
  | 0x33 =>
    let m := parseMac b.args
    let f := b.flags.toNat
    let r := macNextFrom (s.tbl.mac 0) i fun e =>
      (!bit f 1 || e.vid == m.vid) && (!bit f 2 || (e.remote == m.remote && e.dest.toNat == m.dest))
    let v := s.free 0x33
    let data := r.1.flatMap fun kv => macBytes kv.2 (s.macHit kv.2.vid kv.2.mac.toNat)
    (v.1, .ok r.2 r.1.length data (v.2 % 2 ^ 32))
  | 0x40 =>
    let a := b.args
    let e : VlanEntry := {
      valid := bit (byteAt a 0) 7, learn := bit (byteAt a 0) 6, flood := fld a 2 2,
      remote := BitVec.ofNat 32 (fld a 4 4), gen := g }
    ((s.setTbl fun t => { t with vlan := mput t.vlan i e }).setGen op b, .ok i 0 [] g)
  | 0x41 =>
    let x := (mget s.tbl.vlan i).getD {}
    (s, .ok i 0 x.bytes x.gen)
  | _ => (s, .refused .badFormat 0)

/-- A command is judged and, if accepted, acts. -/
def State.tableNow (s : State) (op : Nat) (b : TblBlock) : State × TblOut :=
  let s := if opTable op = 3 then s.relayDrain else s
  match s.tableJudge op b with
  | some (r, p) => (s, .refused r p)
  | none => s.tableApply op b

/-- Form the reply block and keep what LAST_CMD to LAST_GEN show (R110). -/
def State.tblAnswer (s : State) (port : MPort) (op : Nat) (c : Code) (index detail : Nat) (data : Bytes) (gen : Nat) :
    State × Answer :=
  let s := s.rset (tblReg 0x118) (op * 2 ^ 24 + c.num * 65536 + b2n (port == .m1))
  let s := ((s.rset (tblReg 0x11C) detail).rset (tblReg 0x120) index).rset (tblReg 0x124) gen
  (s, { code := c, body := beBytes 1 op ++ beBytes 1 c.num ++ beBytes 2 data.length ++ beBytes 4 gen
          ++ beBytes 4 index ++ beBytes 4 detail ++ data })

/-- The answer of an outcome: a read's GEN is the entry's, a refused command shows the table's. -/
def State.tableReply (s : State) (port : MPort) (op : Nat) : TblOut → State × Answer
  | .ok index detail data gen => s.tblAnswer port op .ok index detail data gen
  | .refused r p => s.tblAnswer port op r.code noIndex (r.ctorIdx * 65536 + p) [] (s.rget (genReg (opTable op)))
  | .running => (s, okAns)

/-- A table command arrives (R106): one at a time, later ones wait. -/
def State.tableStart (s : State) (f : InFlight) (op : Nat) (b : TblBlock) : State × Option Answer :=
  if s.tbl.busy.isSome then
    (s.setTbl fun t => { t with waiting := t.waiting ++ [{ fly := f, op := op, block := b }] }, none)
  else
    let r := s.tableNow op b
    match r.2 with
    | .running => (r.1.setTbl fun t => { t with busy := some { fly := f, op := op, block := b, startFc := s.fcNow } }, none)
    | out =>
      let a := r.1.tableReply f.req.port op out
      (a.1, some a.2)

/-- Commands that waited run in order until one shifts or flushes. -/
def State.tableDrain : Nat → State → State
  | 0, s => s
  | n + 1, s =>
    match s.tbl.busy, s.tbl.waiting with
    | none, j :: rest =>
      let s := s.setTbl fun t => { t with waiting := rest }
      let r := s.tableStart j.fly j.op j.block
      let s := match r.2 with
        | some a => r.1.reply j.fly a
        | none => r.1
      tableDrain n s
    | _, _ => s

/-- The running command ends with an outcome: it is answered and the next ones run. -/
def State.tableEnd (s : State) (j : TblJob) (out : TblOut) : State :=
  let s := s.setTbl fun t => { t with busy := none }
  let a := s.tableReply j.fly.req.port j.op out
  let s := a.1.reply j.fly a.2
  s.tableDrain (s.tbl.waiting.length + 1)

/-- The shift of an insert or delete is done (R115). -/
def State.shiftDone (s : State) (j : TblJob) : State :=
  match parseLpm j.block.args with
  | none => s
  | some e =>
    let g := j.block.gen.toNat
    let l := s.tbl.lpm
    if j.op = 0x01 then
      let pos := lpmSlot l e
      let s := (s.setTbl fun t => { t with lpm := l.take pos ++ { e with gen := g } :: l.drop pos }).setGen j.op j.block
      s.tableEnd j (.ok pos (l.length - pos) [] g)
    else
      let pos := (l.findIdx? fun x => x.sameKey e).getD l.length
      let s := (s.setTbl fun t => { t with lpm := l.eraseIdx pos }).setGen j.op j.block
      s.tableEnd j (.ok pos (l.length - (pos + 1)) [] g)

/-- The flush sweep is done (R128): an entry written at a position the sweep had passed survives. -/
def State.flushDone (s : State) (j : TblJob) : State :=
  let m := parseMac j.block.args
  let f := j.block.flags.toNat
  let r := s.macRemove fun pos e =>
    e.remote == m.remote && e.dest.toNat == m.dest && (!e.fixed || bit f 0) && (!bit f 1 || e.vid == m.vid)
      && decide (e.at_ ≤ j.startFc + pos / 4)
  let s := r.1.setGen j.op j.block
  s.tableEnd j (.ok noIndex r.2 [] j.block.gen.toNat)

end Sys2Proof.Machine
end

