-- ==== Sys2Proof/Machine/CollectOps.lean ====
section
/-! DEFINITION. Collective contexts: their parameters (R174), the placement of chunks, tiles, slots and planes
(R182 to R186, R244, R276 to R279), and the checks of an enable (R178). -/

namespace Sys2Proof.Machine

/-! Parameters of a context -/

/-- A field of CTX.CFG. -/
def State.cfg (s : State) (c hi lo : Nat) : Nat := s.fget (ctxReg c 0x100) hi lo

/-- CTX.CFG.OP. -/
def State.ctxOp (s : State) (c : Nat) : Nat := s.cfg c 2 0
/-- OP is TRANSPORT. -/
def State.isTransport (s : State) (c : Nat) : Bool := s.ctxOp c == 5
def State.inFmt (s : State) (c : Nat) : Fmt := (Fmt.ofCode (s.cfg c 7 4)).getD .bf16
def State.outFmt (s : State) (c : Nat) : Fmt := (Fmt.ofCode (s.cfg c 11 8)).getD .bf16
/-- CTX.CFG.ROUND. -/
def State.roundMode (s : State) (c : Nat) : RoundMode :=
  match s.cfg c 13 12 with | 0 => .rne | 1 => .rtz | _ => .stoch
def State.satMode (s : State) (c : Nat) : Bool := s.cfg c 14 14 == 1
/-- P: 512 bytes to 4 KiB. -/
def payloadBytes (code : Nat) : Nat := 512 * 2 ^ code
def State.payload (s : State) (c : Nat) : Nat := payloadBytes (s.cfg c 16 15)
/-- W: 1 or 2. -/
def State.window (s : State) (c : Nat) : Nat := 1 + s.cfg c 17 17
/-- S: 1 to 64. -/
def State.spread (s : State) (c : Nat) : Nat := 1 + s.cfg c 23 18
def State.updates (s : State) (c : Nat) : Bool := s.cfg c 24 24 == 1
def State.twinned (s : State) (c : Nat) : Bool := s.cfg c 25 25 == 1
def State.replays (s : State) (c : Nat) : Bool := s.cfg c 26 26 == 1
/-- NOTIFY: 0 NONE, 1 LOCAL, 2 GLOBAL. -/
def State.notify (s : State) (c : Nat) : Nat := s.cfg c 28 27
def State.isManager (s : State) (c : Nat) : Bool := s.cfg c 29 29 == 1
def State.wantsAcks (s : State) (c : Nat) : Bool := s.cfg c 30 30 == 1
def State.chunkBase (s : State) (c : Nat) : Nat := s.rget (ctxReg c 0x108)
def State.chunkCount (s : State) (c : Nat) : Nat := s.fget (ctxReg c 0x10C) 14 0
def State.firstStep (s : State) (c : Nat) : Nat := s.fget (ctxReg c 0x110) 15 0
def State.deadline (s : State) (c : Nat) : Nat := s.fget (ctxReg c 0x114) 23 0
def State.abortLimit (s : State) (c : Nat) : Nat := s.fget (ctxReg c 0x118) 7 0
def State.ctxSeed (s : State) (c : Nat) : BitVec 64 := BitVec.ofNat 64 (s.rget (ctxReg c 0x120))
def State.resultGroup (s : State) (c : Nat) : Nat := s.fget (ctxReg c 0x128) 13 0
def State.enableGen (s : State) (c : Nat) : Nat := s.rget (ctxReg c 0x144)

/-- E: elements per member (R182). -/
def State.elems (s : State) (c : Nat) : Nat := elemsOf (s.inFmt c) (s.payload c)

/-- Bytes of a result (R196). -/
def State.resultBytes (s : State) (c : Nat) : Nat := resultLen (s.outFmt c) (s.elems c)

/-- Bytes that a chunk holds in result staging (R194). -/
def State.stagingNeed (s : State) (c : Nat) : Nat := if s.updates c then 4 * s.elems c else s.resultBytes c

/-- Result group of a chunk (R184). -/
def State.groupOfChunk (s : State) (c chunk : Nat) : Nat := s.resultGroup c + chunk % s.spread c

/-- Used spine entries: place, first chunk, count (R176). -/
def State.spines (s : State) (c : Nat) : List (Nat × Nat × Nat) :=
  ((List.range 64).map fun i =>
    (s.rget (ctxReg c (0x500 + 4 * i)), s.rget (ctxReg c (0x600 + 4 * i)),
      s.fget (ctxReg c (0x700 + 4 * i)) 14 0)).filter fun e => e.2.2 != 0

/-- Configuration writes are refused: the state is not IDLE or an enable is in progress (R318). -/
def State.ctxBusy (s : State) (c : Nat) : Bool :=
  let x := s.ctx c
  x.state != .idle || x.enabling.isSome || x.asking.isSome

/-! Tiles (R182) -/

/-- EC cycles of one column group. -/
def groupCycles (f : Fmt) (members : Nat) : Nat := ceilDiv members (if f.isWide then 16 else 32)

/-- Column groups of a chunk. -/
def colGroups (e : Nat) : Nat := ceilDiv e 128

/-- Column groups per tile: as many as keep a tile within 560 EC cycles. -/
def tileGroups (f : Fmt) (members : Nat) : Nat := 560 / groupCycles f members

/-- Tiles of a chunk. -/
def tileCount (f : Fmt) (members e : Nat) : Nat := ceilDiv (colGroups e) (tileGroups f members)

def State.tiles (s : State) (c : Nat) : Nat := tileCount (s.inFmt c) (s.members c) (s.elems c)
def State.groupsPerTile (s : State) (c : Nat) : Nat := tileGroups (s.inFmt c) (s.members c)

/-- Bytes of one column group of one member. -/
def groupBytes (f : Fmt) : Nat := if f.isMx then f.superBlock else 128 * f.width / 8

/-- Byte range of tile `t` of a member: the last tile takes the remainder. -/
def State.tileRange (s : State) (c t : Nat) : Nat × Nat :=
  let gt := s.groupsPerTile c
  let lo := t * gt
  let hi := min ((t + 1) * gt) (colGroups (s.elems c))
  (lo * groupBytes (s.inFmt c), hi * groupBytes (s.inFmt c))

/-- Bank, 0 to 3, of tile `t` of a chunk whose first engine is `e` (R183). -/
def bankOf (e t : Nat) : Nat := (e + t) % 4

/-- Pages that a slot takes in each bank: enough for the bytes of the bank's tiles over all members (R187). -/
def State.slotPages (s : State) (c engine : Nat) : List Nat :=
  [0, 1, 2, 3].map fun b =>
    let bytes := ((List.range (s.tiles c)).filter fun t => bankOf engine t == b).foldl
      (fun n t => n + ((s.tileRange c t).2 - (s.tileRange c t).1)) 0
    ceilDiv (bytes * s.members c) 4096

/-! What contexts hold -/

/-- Placements that hold descriptors: placed, planned and reserved for a mirror. -/
def CtxSt.holds (x : CtxSt) : List Placed :=
  x.placed ++ (match x.plan with | some p => p.placed | none => []) ++ x.mirrorPlaced

/-- Slot descriptors in use, chip-wide. -/
def State.usedDescs (s : State) : List Nat :=
  s.col.ctxs.flatMap fun kv =>
    kv.2.holds.flatMap fun p => (List.range (s.window kv.1)).map (p.desc + ·)

/-- Free descriptors of a core (R183, R186). -/
def freeDescs (used : List Nat) (core : Nat) : Nat := 1024 - (used.filter fun d => d / 1024 == core).length

/-- Lowest run of `w` free descriptors of a core. -/
def descRun (used : List Nat) (core w : Nat) : Option Nat :=
  ((List.range (1025 - w)).find? fun i => (List.range w).all fun j => !used.contains (1024 * core + i + j)).map
    fun i => 1024 * core + i

/-- Bytes of a plane block (R276). -/
def planeBlock (e : Nat) (fmts : List Nat) : Nat :=
  ceilDiv (fmts.foldl (fun n f => n + ceilDiv (e * (if f = 0 then 4 else 2)) 256 * 256) 0) 4096 * 4096

/-- Offset of plane `k` in its block (R276). -/
def planeOffset (e : Nat) (fmts : List Nat) (k : Nat) : Nat :=
  (fmts.take k).foldl (fun n f => n + ceilDiv (e * (if f = 0 then 4 else 2)) 256 * 256) 0

/-- Elements per member under the geometry of a set of planes. -/
def Planes.elems (p : Planes) : Nat := elemsOf ((Fmt.ofCode p.inFmt).getD .bf16) p.payload

/-- Bytes of each block of a set of planes. -/
def Planes.block (p : Planes) : Nat := planeBlock p.elems p.fmts

/-- Address ranges of a set of planes. -/
def Planes.ranges (p : Planes) : List (Nat × Nat) := p.blocks.map fun kv => (kv.2, p.block)

/-- Elements per member under the CFG word of a CTX_CONFIG payload (R335). -/
def configElems (b : Bytes) : Nat :=
  elemsOf ((Fmt.ofCode (bits (fld b 12 4) 7 4)).getD .bf16) (payloadBytes (bits (fld b 12 4) 16 15))

/-- Bytes of each mirror block of a context. -/
def CtxSt.mirrorBlock (x : CtxSt) : Nat := planeBlock (configElems x.mirrorConfig) x.mirrorFmts

/-- Ranges of STATE in use (R277, R278), without the planes of context `skip`. -/
def State.planeRanges (s : State) (skip : Option Nat) : List (Nat × Nat) :=
  s.col.ctxs.flatMap fun kv =>
    (if skip = some kv.1 then [] else match kv.2.planes with | some p => p.ranges | none => [])
      ++ (match kv.2.plan with | some q => (match q.planes with | some p => p.ranges | none => []) | none => [])
      ++ kv.2.mirrorBlocks.map fun m => (m.2, kv.2.mirrorBlock)

/-- Lowest free range of `size` bytes between `lo` and `hi` (R277). -/
def freeRange (taken : List (Nat × Nat)) (lo hi size : Nat) : Option Nat :=
  leastOf ((lo :: taken.map fun r => r.1 + r.2).filter fun x =>
    decide (lo ≤ x) && decide (x + size ≤ hi)
      && taken.all fun r => decide (x + size ≤ r.1) || decide (r.1 + r.2 ≤ x))

/-- GLB.HBM_CTRL.STATE_SPLIT (R275). -/
def State.stateSplit (s : State) : Bool := s.bget (glbReg 0x108) 16

/-- Half of STATE. -/
def halfState : Nat := 57 * 2 ^ 30

/-- Own space of a die: the own half under STATE_SPLIT = 1, else all of STATE. -/
def State.ownSpace (s : State) (d : Nat) : Nat × Nat :=
  (d * 2 ^ 37, d * 2 ^ 37 + (if s.stateSplit then halfState else 2 * halfState))

/-- Mirror half of a die. -/
def mirrorSpace (d : Nat) : Nat × Nat := (d * 2 ^ 37 + halfState, d * 2 ^ 37 + 2 * halfState)

/-- A range of HBM is filled with zeros. -/
def State.hzero (s : State) (a n : Nat) : State :=
  { s with hbm := s.hbm.filter fun c => decide (c.1 < a) || decide (a + n ≤ c.1) }

/-- Share of GATHER_OVF per die. -/
def ovfShare : Nat := 4 * 2 ^ 30

/-- Bytes of a die's share that REPLAY reservations hold (R197, R279). -/
def State.replayBytes (s : State) (d : Nat) : Nat :=
  s.col.ctxs.foldl (fun n kv =>
    if s.replays kv.1 && !s.isTransport kv.1 then
      n + ((kv.2.placed ++ (match kv.2.plan with | some p => p.placed | none => [])).filter
        fun p => p.core / 8 == d).length * s.resultBytes kv.1
    else n) 0

/-- Bytes of a die's share that spilled slots hold (R188). -/
def State.spillBytes (s : State) (d : Nat) : Nat :=
  (s.col.slots.filter fun x => x.spilled && x.core / 8 == d).foldl
    (fun n x => n + s.members x.ctx * s.payload x.ctx) 0

/-! Engines and Update Units -/

/-- ENG.STATE.STATE: 0 IDLE, 1 BUSY, 2 BIST, 3 QUARANTINED, 4 GATED, 5 REPAIR_PENDING (R236). -/
def State.engState (s : State) (e : Nat) : Nat := s.fget (engReg e 0x00C) 3 0

/-- R233: usable. -/
def State.engUsable (s : State) (e : Nat) : Bool := s.engState e ≤ 1

/-- UU.STATE.STATE: 0 IDLE, 1 BUSY, 2 BIST, 3 QUARANTINED, 4 GATED (R266). -/
def State.uuState (s : State) (n : Nat) : Nat := s.fget (uuReg n 0x00C) 3 0

/-- The other Update Unit of the cluster (R265). -/
def uuPartner (n : Nat) : Nat := if n % 2 = 0 then n + 1 else n - 1

/-- Cores that can take chunks of a context: some engine usable (R234) and, with UPDATE = 1, not both Update Units of
the cluster quarantined (R265). -/
def State.coreTakes (s : State) (update : Bool) (n : Nat) : Bool :=
  ([0, 1, 2, 3].any fun i => s.engUsable (4 * n + i))
    && !(update && s.uuState n == 3 && s.uuState (uuPartner n) == 3)

/-! Placement (R183) -/

/-- The state of a placement under way. -/
structure Placing where
  used : List Nat
  turns : List Nat
  placed : List Placed := []
  taken : List (Nat × Nat)
  blocks : Map Nat := []
  ovf : List Nat
  deriving DecidableEq, Repr

/-- The core with the most free descriptors, ties to the lowest. -/
def bestCore (used : List Nat) (cores : List Nat) : Option Nat :=
  (cores.foldl (fun (b : Option (Nat × Nat)) n =>
    match b with
    | none => some (n, freeDescs used n)
    | some x => if x.2 < freeDescs used n then some (n, freeDescs used n) else some x) none).map Prod.fst

/-- Place one chunk: its core, descriptors, first engine, plane block and REPLAY space. -/
def State.placeChunk (s : State) (c : Nat) (cores : List Nat) (keep : Option Planes) (block : Nat)
    (x : Placing) (chunk : Nat) : Option Placing :=
  let core := match keep with
    | some p => mget p.owners chunk
    | none => bestCore x.used cores
  match core with
  | none => none
  | some n =>
    if !cores.contains n then none
    else match descRun x.used n (s.window c) with
      | none => none
      | some desc =>
        let d := n / 8
        let turn := x.turns.getD n 0
        let ovf := x.ovf.getD d 0 + (if s.replays c then s.resultBytes c else 0)
        let p : Placed := { chunk := chunk, core := n, desc := desc, engine := 4 * n + turn % 4 }
        let x := { x with
          used := x.used ++ (List.range (s.window c)).map (desc + ·)
          turns := x.turns.set n (turn + s.tiles c)
          placed := x.placed ++ [p], ovf := x.ovf.set d ovf }
        if ovfShare < ovf then none
        else if !s.updates c then some x
        else match keep with
          | some q => some { x with blocks := mput x.blocks chunk (mgetD q.blocks chunk 0) }
          | none =>
            let own := s.ownSpace d
            (freeRange x.taken own.1 own.2 block).map fun a =>
              { x with taken := (a, block) :: x.taken, blocks := mput x.blocks chunk a }

/-- Planes kept from an earlier enable (R244). -/
def State.keptPlanes (s : State) (c : Nat) : Option Planes :=
  match (s.ctx c).planes, (s.ctx c).program with
  | some p, some g =>
    if s.updates c && p.base == s.chunkBase c && p.chunks == s.chunkCount c && p.payload == s.payload c
      && p.inFmt == s.cfg c 7 4 && p.fmts == g.planeFmt.take g.planes then some p else none
  | _, _ => none

/-- The Weathervane places a context (R183, R186, R277), or finds no room. -/
def State.placeCtx (s : State) (c : Nat) : Option Plan :=
  if s.isTransport c then some ⟨[], none, false⟩
  else
    let keep := s.keptPlanes c
    let fmts := match (s.ctx c).program with | some g => g.planeFmt.take g.planes | none => []
    let block := planeBlock (s.elems c) fmts
    let start : Placing := {
      used := s.usedDescs, turns := (List.range 32).map fun n => (s.core n).engTurn
      taken := s.planeRanges (if s.updates c then some c else none)
      ovf := (List.range 4).map fun d => s.replayBytes d + s.spillBytes d }
    let cores := (List.range 32).filter (s.coreTakes (s.updates c))
    let chunks := (List.range (s.chunkCount c)).map (s.chunkBase c + ·)
    match chunks.foldl (fun (o : Option Placing) k => o.bind fun x => s.placeChunk c cores keep block x k)
      (some start) with
    | none => none
    | some x =>
      let owners : Map Nat := x.placed.foldl (fun m p => mput m p.chunk p.core) []
      let planes : Planes := {
        base := s.chunkBase c, chunks := s.chunkCount c, payload := s.payload c, inFmt := s.cfg c 7 4, fmts := fmts
        blocks := x.blocks, owners := owners }
      some ⟨x.placed, if s.updates c then some planes else none, keep.isSome⟩

/-! Enable (R178) -/

/-- R76: what a context with a member behind a WZ4-mode port may do. -/
def State.wz4Fits (s : State) (c : Nat) : Bool :=
  s.ctxOp c == 0 && (s.cfg c 7 4 ≤ 1) && (s.cfg c 11 8 ≤ 1) && decide (s.payload c ≤ 2048)
    && decide (s.resultBytes c ≤ 2048)

/-- Member entries below M. -/
def State.memberList (s : State) (c : Nat) : List (Nat × Nat) :=
  (List.range (s.members c)).map fun m => (s.memberPlace c m, s.memberPort c m)

/-- Checks 1 to 7 of R178 and those of check 8 that this chip answers alone: the number and code of the first one that
fails. -/
def State.enableFails (s : State) (c : Nat) : Option (Nat × Code) :=
  let x := s.ctx c
  let tr := s.isTransport c
  let mem := s.memberList c
  let groups := s.resultGroups c
  if !s.atStage 3 then some (1, .stageNotReady)
  else if x.enabling.isSome || x.asking.isSome then some (2, .busy)
  else if x.state != .idle then some (2, .contextBusy)
  else if mem.any (fun m => hallOf m.1 == 15 || !s.leads m.2) then some (3, .badAddress)
  else if !tr && !distinct (mem.map Prod.fst) then some (4, .conflict)
  else if !tr && mem.any (fun m => s.mode m.2 == 2) && !s.wz4Fits c then some (5, .conflict)
  else if !tr && (decide (0xFFFFFFFF < s.chunkBase c + s.chunkCount c - 1) || decide (16384 < s.resultBytes c)) then
    some (6, .conflict)
  else if groups.any (fun g => decide (16383 < g))
      || s.claimingCtxs.any (fun o => o != c && (s.resultGroups o).any groups.contains) then some (7, .conflict)
  else if !tr && s.updates c && x.program.isNone then some (8, .conflict)
  else if !tr && s.twinned c && s.twin.state != .paired then some (8, .conflict)
  else none

/-- Ports of result group RESULT_GROUP + `i` (R184). -/
def State.groupPorts (s : State) (c i : Nat) : List Nat :=
  let alone := s.isTransport c || s.spread c == 1
  let ports := (s.memberList c).map fun m =>
    if alone then m.2
    else match lpmFind s.tbl.lpm m.1 0 (some c) with
      | none => m.2
      | some e =>
        let ps := sortBy id (s.nhPorts e.2.group)
        ps.getD (i % ps.length) m.2
  (sortBy id ports).eraseDups

/-- The result groups are written (R184). -/
def State.writeGroups (s : State) (c : Nat) : State :=
  s.each (s.resultGroups c).zipIdx fun s g =>
    let old := (mget s.tbl.mc g.1).getD {}
    s.setTbl fun t => { t with mc := mput t.mc g.1 { old with ports := s.groupPorts c g.2 } }

/-- Addresses of the counters that an enable clears (R179, R319). -/
def ctxCounters (c : Nat) : List Nat := (List.range 33).map fun i => ctxReg c (0x420 + 4 * i)

/-- The planned planes take their places: new blocks are filled with +0 and earlier ones freed (R244, R277). -/
def State.commitPlanes (s : State) (c : Nat) (p : Plan) : State :=
  match p.planes with
  | none => s
  | some q =>
    let s := if p.keep then s else q.ranges.foldl (fun s r => s.hzero r.1 r.2) s
    s.setCtx c fun x => { x with planes := some q }

/-- An enable is accepted: its plan stands and it is completing (R179). -/
def State.acceptEnable (s : State) (c : Nat) (p : Plan) (f : Option InFlight) : State :=
  let s := (s.commitPlanes c p).setCtx c fun x => { x with plan := some p, asking := none, enabling := some f }
  p.placed.foldl (fun s q => s.setCore q.core fun y => { y with engTurn := y.engTurn + s.tiles c }) s

/-- A refused ENABLE: ERR_INFO holds the number of the failed check (R320). -/
def State.refuseEnable (s : State) (c check : Nat) (code : Code) : State := s.errInfo (ctxReg c 0) code check 0x008

/-- CTX.CTRL.STATE_FREE: the planes are freed (R244). -/
def State.freePlanes (s : State) (c : Nat) : State := s.setCtx c fun x => { x with planes := none }

/-! The placement map (R185) -/

/-- Where a chunk is placed: in the context's own range, or in the range it serves for its lost partner (R191). -/
def State.placeOf (s : State) (c chunk : Nat) : Option Placed :=
  let x := s.ctx c
  match x.placed.find? fun p => p.chunk == chunk with
  | some p => some p
  | none => if x.serving then x.mirrorPlaced.find? fun p => p.chunk == chunk else none

/-- The chunk lies in the taken-over range (R348). -/
def State.inTaken (s : State) (c chunk : Nat) : Bool :=
  let x := s.ctx c
  x.serving && decide (x.mirrorBase ≤ chunk) && decide (chunk < x.mirrorBase + x.mirrorChunks)
    && !(decide (s.chunkBase c ≤ chunk) && decide (chunk < s.chunkBase c + s.chunkCount c))

/-- Check 4 of R191: the chunk lies in a range that the chip serves. -/
def State.chunkServed (s : State) (c chunk : Nat) : Bool :=
  (decide (s.chunkBase c ≤ chunk) && decide (chunk < s.chunkBase c + s.chunkCount c)) || s.inTaken c chunk

/-- S of R192 for a chunk: of its own range or of the taken-over one. -/
def State.stepOf (s : State) (c chunk : Nat) : Nat :=
  if s.inTaken c chunk then (s.ctx c).takenStep else (s.ctx c).step

/-- The chunk of a step has been released in the window. -/
def State.isReleased (s : State) (c step chunk : Nat) : Bool :=
  if s.inTaken c chunk then (s.ctx c).takenReleased.contains (step, chunk)
  else (s.ctx c).released.contains (step, chunk)

/-- Address of a chunk's plane block: own or, for a taken-over chunk, mirror. -/
def State.chunkBlock (s : State) (c chunk : Nat) (mirror : Bool) : Nat :=
  if mirror then mgetD (s.ctx c).mirrorBlocks chunk 0
  else match (s.ctx c).planes with
    | some p => mgetD p.blocks chunk 0
    | none => 0

/-- No context on the chip holds planes and no mirror planes are held (R275). -/
def State.noPlanes (s : State) : Bool := s.col.ctxs.all fun kv =>
  (match kv.2.planes with | some p => p.fmts.isEmpty | none => true) && kv.2.mirrorBlocks.isEmpty

end Sys2Proof.Machine
end

