-- ==== Sys2Proof/Machine/TwinLink.lean ====
section
/-! DEFINITION. The twin link (R335, R337): sending frames, credits and retries. -/

namespace Sys2Proof.Machine

/-- Twin frame types (R335). -/
def twHeartbeat : Nat := 0x01
def twHello : Nat := 0x02
def twProof : Nat := 0x03
def twConfig : Nat := 0x04
def twAccept : Nat := 0x05
def twRecord : Nat := 0x06
def twAck : Nat := 0x07
def twReleased : Nat := 0x08
def twStepDigest : Nat := 0x09
def twChunkDigests : Nat := 0x0A
def twCopy : Nat := 0x0B
def twCopyEnd : Nat := 0x0C
def twHandover : Nat := 0x0D

/-- At least one twin lane is UP or MOVED (R339). -/
def State.twinUp (s : State) : Bool := (List.range 16).any fun i => s.laneInService (2048 + i)

/-- A frame leaves on the twin link; with the link down it is lost. -/
def State.twinOut (s : State) (frame : Bytes) : State :=
  if s.twinUp && !s.fatal then (s.pmc (twinReg 0) 0x100 frame.length).send (.twin frame) else s

/-- A frame without credit leaves at once. -/
def State.twinSend (s : State) (type : Nat) (payload : Bytes) : State := s.twinOut (twinFrame type s.tick payload)

/-- Credits of a frame: units of 4 KiB. -/
def twinCredits (frame : Bytes) : Nat := ceilDiv frame.length 4096

/-- Credits that the partner's buffer leaves (R337): 2,048 in all. -/
def State.twinCredit (s : State) : Nat :=
  2048 - (s.twin.creditUsed + 2 ^ 32 - s.twin.creditSeen % 2 ^ 32) % 2 ^ 32

/-- A RECORD or COPY leaves under its credits, and its acknowledgement is awaited. -/
def State.twinTake (s : State) (w : TwinWait) : State :=
  let s := s.setTwin fun t => { t with
    creditUsed := t.creditUsed + w.credits, unacked := t.unacked ++ [⟨w.frame, w.credits, s.clk.up⟩] }
  s.twinOut w.frame

/-- Frames that wait for credit leave in order while it lasts. -/
def State.twinDrain : Nat → State → State
  | 0, s => s
  | n + 1, s =>
    match s.twin.waiting with
    | [] => s
    | w :: rest =>
      if w.credits ≤ s.twinCredit then ((s.setTwin fun t => { t with waiting := rest }).twinTake w).twinDrain n
      else s

/-- A RECORD or COPY is sent, or waits for credit behind those that wait (R268, R337). -/
def State.twinPush (s : State) (type : Nat) (payload : Bytes) : State :=
  let frame := twinFrame type s.tick payload
  let s := s.setTwin fun t => { t with waiting := t.waiting ++ [⟨frame, twinCredits frame⟩] }
  s.twinDrain s.twin.waiting.length

/-- Credits of received frames are freed (R337). -/
def State.twinFreed (s : State) (n : Nat) : State := s.setTwin fun t => { t with freed := (t.freed + n) % 2 ^ 32 }

/-- The twin role protects contexts: PAIRED, or the detach of LULL under way. -/
def State.twinActive (s : State) : Bool := s.twin.state == .paired || s.twin.state == .lull

/-- An update of the chunk sends a RECORD and waits for its ACK (R268, R340): in PAIRED and LULL always, in ATTACH and
VERIFY from the boundary at which the chunk's copy was sent. -/
def State.mustRecord (s : State) (c chunk : Nat) : Bool :=
  s.twinned c && s.updates c && !s.inTaken c chunk
    && (s.twinActive || ((s.twin.state == .attach || s.twin.state == .verify) && s.twin.copied.contains (c, chunk)))

/-- The CTX_CONFIG payload of a context (R335, R342, R344): its geometry, plane formats, program measurement and the
owning core of each chunk. -/
def State.ctxConfig (s : State) (c cfg base count : Nat) (cores : List Nat) : Bytes :=
  let prog := if bit cfg 24 then (s.ctx c).program else none
  let body := match prog with
    | some g => fit 8 (g.planeFmt.flatMap (beBytes 1)) ++ fit 64 g.measurement
    | none => zeros 72
  beBytes 1 c ++ zeros 3 ++ beBytes 4 base ++ beBytes 4 count ++ beBytes 4 cfg ++ body ++ cores.flatMap (beBytes 1)

end Sys2Proof.Machine
end

