-- ==== Sys2Proof/Machine/GatherOps.lean ====
section
/-! DEFINITION. Gather slots and what leaves the collective path: packets the chip originates, slots and their
contributions (R186 to R193), aborts (R199 to R201), release (R196, R197, R203), step counters and the context
manager (R198, R205 to R207). -/

namespace Sys2Proof.Machine

/-! Packets that the chip originates -/

/-- Next FLOW_SEQ toward a place on a VC (R69). -/
def State.takeFlowSeq (s : State) (place vc : Nat) : State × Nat :=
  let n := (aget s.sw.flowSeq (place, vc)).getD 0
  (s.setSw fun w => { w with flowSeq := aput w.flowSeq (place, vc) ((n + 1) % 65536) }, n)

/-- Where an originated packet goes. -/
inductive Goal where
  | group (g : Nat)
  | place (p : Nat)
  deriving DecidableEq, Repr

/-- A packet built by a core is queued: to a multicast group, or by lookup to a place; a miss is counted on the die
that built it (R105). -/
def State.originate (s : State) (core : Nat) (h : Wfp) (goal : Goal) (owner : Option (Nat × Nat) := none) : State :=
  let place := match goal with | .group g => groupPlace g | .place p => p
  let r := s.takeFlowSeq place h.vc
  let h := { h with dst := place, flowSeq := r.2 }
  let n := r.1.newPkt
  let s := n.1
  let proto := { s.protoCell (1024 + core) h.vc n.2 .wfp2 with owner := owner }
  match goal with
  | .group g => s.queueMulticast { proto with dest := g } h.packet true
  | .place p =>
    let w := s.route (core / 8) (1024 + core) h.vc h.src p (keyCtx h.type h.ctx)
    match w.2 with
    | .port q => w.1.queueUnicast proto q h.packet true
    | .miss => w.1.bump (fdReg (core / 8) 0x128)
    | .bad k pos => w.1.tblDiscard (core / 8) k pos
    | .noPort => w.1

/-- A packet of a context from this chip, with everything but its type left at 0. -/
def State.ctxPacket (s : State) (type vc c : Nat) : Wfp := { type := type, vc := vc, dst := 0, src := s.ownPlace0, ctx := c }

/-- Core from which a context's own messages leave: the owner of its lowest chunk (R198). -/
def State.ctxCore (s : State) (c : Nat) : Nat := ((s.ctx c).placed.head?.map Placed.core).getD 0

/-! ABORT (R200) -/

/-- ABORT reasons (R71). -/
def rsDeadline : Nat := 1
def rsTakeover : Nat := 2
def rsPeerLost : Nat := 3
def rsReset : Nat := 4
def rsDisabled : Nat := 5

/-- One ABORT for a run of chunks of one step. -/
def State.sendAbort (s : State) (c step first last reason : Nat) : State :=
  s.originate (s.ctxCore c)
    { s.ctxPacket tAbort 2 c with step := step, chunk := first, aux := last * 2 ^ 32 + reason } (.group (s.resultGroup c))

/-- Runs of consecutive numbers in an ascending list. -/
def runsOf : List Nat → List (Nat × Nat)
  | [] => []
  | x :: r => match runsOf r with
    | (a, b) :: rest => if a = x + 1 then (x, b) :: rest else (x, x) :: (a, b) :: rest
    | [] => [(x, x)]

/-- ABORTs for aborted chunks: those of one step with consecutive indices share one (R200). -/
def State.sendAborts (s : State) (c : Nat) (chunks : List (Nat × Nat)) (reason : Nat) : State :=
  s.each (sortBy id (chunks.map Prod.fst).eraseDups) fun s step =>
    s.each (runsOf (sortBy id ((chunks.filter fun x => x.1 == step).map Prod.snd))) fun s r =>
      s.sendAbort c step r.1 r.2 reason

/-! Slots -/

/-- The slot that holds a descriptor. -/
def State.slot (s : State) (desc : Nat) : Option Slot := s.col.slots.find? fun x => x.desc == desc

/-- Replace a slot. -/
def State.setSlot (s : State) (x : Slot) : State :=
  s.setCol fun k => { k with slots := k.slots.map fun y => if y.desc == x.desc then x else y }

/-- Slots go: their pages, staging and data with them. -/
def State.dropSlots (s : State) (p : Slot → Bool) : State :=
  s.setCol fun k => { k with slots := k.slots.filter fun x => !p x }

/-- Free pages of a gather bank (R187). -/
def State.pagesFree (s : State) (core b : Nat) : Nat :=
  1024 - (s.col.slots.filter fun x => x.core == core).foldl (fun n x => n + x.pages.getD b 0) 0

/-- A core's banks have the pages. -/
def State.pagesFit (s : State) (core : Nat) (need : List Nat) : Bool :=
  [0, 1, 2, 3].all fun b => decide (need.getD b 0 ≤ s.pagesFree core b)

/-- Free result staging of a core (R194). -/
def State.stagingFree (s : State) (core : Nat) : Nat :=
  512 * 1024 - (s.col.slots.filter fun x => x.core == core).foldl (fun n x => n + x.stagingBytes) 0

/-- Cells of a contribution of a context. -/
def State.contribCells (s : State) (c : Nat) : Nat := ceilDiv (s.payload c) 240

/-- A slot opens (R187, R190); none if it must spill and the die's share is full (R188). -/
def State.openSlot (s : State) (c step chunk desc : Nat) : State × Option Slot :=
  let core := desc / 1024
  let engine := match s.placeOf c chunk with | some p => p.engine | none => 4 * core
  let need := s.slotPages c engine
  let fits := s.pagesFit core need
  let x : Slot := {
    ctx := c, step := step, chunk := chunk, core := core, desc := desc, taken := s.inTaken c chunk
    spilled := !fits, pages := if fits then need else [0, 0, 0, 0], openUp := s.clk.up, order := s.col.slotOrder }
  let d := core / 8
  if !fits && decide (ovfShare < s.replayBytes d + s.spillBytes d + s.members c * s.payload c) then (s, none)
  else
    let s := s.setCol fun k => { k with slots := k.slots ++ [x], slotOrder := k.slotOrder + 1 }
    let s := s.pmc (ccReg core 0) 0x100 1
    (if fits then s else s.pmc (ccReg core 0) 0x101 1, some x)

/-- A slot whose mask is full: COMPLETE, and READY at once when its data are in pages (R190). -/
def Slot.completed (x : Slot) (up member : Nat) : Slot :=
  let x := { x with phase := .complete, completeUp := up, lastMember := member }
  if x.spilled then x else { x with phase := .ready, readyUp := up }

/-- A cell is written into a member's contribution (R189): its cell bit is set, a bad LAST clears the mask, and the
member's bit is set when every cell bit is. -/
def Slot.takeCell (x : Slot) (cell : Cell) (weight cells members up : Nat) : Slot :=
  let old := (x.contribs.find? fun k => k.member == cell.seq).getD ⟨cell.seq, 0, 0, [], false⟩
  let k := { old with cells := mput old.cells cell.index cell.data }
  let k := if cell.last && cell.trlBad then { k with cells := [] } else k
  let k := if cell.last && !cell.trlBad then { k with newWeight := weight } else k
  let k := if k.cells.length = cells then { k with done := true, weight := k.newWeight } else k
  let x := { x with contribs := k :: x.contribs.filter fun y => y.member != cell.seq }
  if (x.contribs.filter fun y => y.done).length = members then x.completed up cell.seq else x

/-- The member's payload as the slot holds it. -/
def Contribution.payload (k : Contribution) : Bytes := k.cells.flatMap Prod.snd

/-- Steps that a range has released since FIRST_STEP: chunk c of each is released (R192). -/
def State.stepsBehind (s : State) (c chunk : Nat) : Nat :=
  if !s.inTaken c chunk && decide (0x7FFF < s.rget (CtxCtr.reg .stepsComplete c)) then 0x7FFF
  else min 0x7FFF ((s.stepOf c chunk + 65536 - s.firstStep c) % 65536)

/-- The chunk has been released for a step: in the window or before it. -/
def State.wasReleased (s : State) (c step chunk : Nat) : Bool :=
  let back := (s.stepOf c chunk + 65536 - step % 65536) % 65536
  s.isReleased c step chunk || (decide (1 ≤ back) && decide (back ≤ s.stepsBehind c chunk))

/-- Packets of a result (R72). -/
def State.resultPackets (s : State) (c step chunk : Nat) (result : Bytes) : List Wfp :=
  let parts := pieces 4096 result.length result
  parts.zipIdx.map fun (d, i) =>
    { s.ctxPacket tResult 0 c with
      step := step, chunk := chunk, flags := (parts.length - 1) * 16 + i * 4, payload := d }

/-- A retained result is sent again to one member (R197), unless it can no longer be read (R281). -/
def State.replay (s : State) (c chunk core place : Nat) : State :=
  if (s.ctx c).lost.contains chunk then s.ctxCtr .replayLost c
  else match mget (s.ctx c).retained chunk with
  | some (step, result) =>
    (s.each (s.resultPackets c step chunk result) fun s h => s.originate core h (.place place)).ctxCtr .resultReplay c
  | none => s

/-- What the owning core does with a contribution that no slot takes (R192), judged with its last cell. -/
def State.notAdmitted (s : State) (t : ContribTag) (member core : Nat) : State :=
  let place := s.memberPlace t.ctx member
  if s.wasReleased t.ctx t.step t.chunk then
    match mget (s.ctx t.ctx).retained t.chunk with
    | some (step, _) =>
      if s.replays t.ctx && step == t.step then s.replay t.ctx t.chunk core place else s.ctxCtr .dupContrib t.ctx
    | none => s.ctxCtr .dupContrib t.ctx
  else if s.mode (s.memberPort t.ctx member) = 2 then s.ctxCtr .nackStaleFmt1 t.ctx
  else
    let h := { s.ctxPacket tNackStale 2 t.ctx with
      step := t.step, chunk := t.chunk, member := member, aux := s.stepOf t.ctx t.chunk }
    (s.originate core h (.place place)).ctxCtr .nackStaleSent t.ctx

/-- A CONTRIB cell at its owning core (R189 to R193): checks 8 and 9 of R191, then the slot. -/
def State.gatherCell (s : State) (cell : Cell) : State :=
  match cell.contrib with
  | none => s
  | some t =>
    let c := t.ctx
    let member := cell.seq
    let core := cell.dest / 1024
    let good := cell.last && !cell.trlBad
    let d := (t.step + 65536 - s.stepOf c t.chunk) % 65536
    if (s.ctx c).state != .active then s
    else if s.window c ≤ d || s.wasReleased c t.step t.chunk then
      if good then s.notAdmitted t member core else s
    else
      let r := match s.slot cell.dest with
        | some x => (s, if x.ctx = c ∧ x.step = t.step ∧ x.chunk = t.chunk then some x else none)
        | none => s.openSlot c t.step t.chunk cell.dest
      let s := r.1
      match r.2 with
      | none => if cell.first then s.ctxCtr .gatherNoSpace c else s
      | some x =>
        let done := x.contribs.any fun k => k.member == member && k.done
        if x.phase != .opened || done then (if good then s.ctxCtr .dupContrib c else s)
        else
          let s := if good then
              let s := s.ctxCtr .contribAccepted c
              let s := if bit t.flags 1 then s.ctxCtr .resendRx c else s
              if bit t.flags 0 then s.ctxCtr .lastRx c else s
            else s
          s.setSlot (x.takeCell cell t.weight (s.contribCells c) (s.members c) s.clk.up)

/-! Aborts (R199 to R201) -/

/-- Members whose bit is clear in a slot. -/
def State.missingIn (s : State) (x : Slot) : List Nat :=
  (List.range (s.members x.ctx)).filter fun m => !x.contribs.any fun k => k.member == m && k.done

/-- Links that name a context's most-missed or lowest missing member and its MISS_COUNT (R395). -/
def State.missLinks (s : State) (c m : Nat) : List AerLink :=
  [condLink 0x0906 (s.member c m).miss, condLink 0x0903 m]

/-- The member missed most often; ties go to the lower index. -/
def State.mostMissed (s : State) (c : Nat) : Nat :=
  ((s.ctx c).members.foldl (fun (b : Nat × Nat) kv => if b.2 < kv.2.miss then (kv.1, kv.2.miss) else b) (0, 0)).1

/-- R201: HALTED. Open chunks are aborted; complete ones run on. -/
def State.haltCtx (s : State) (c step : Nat) : State :=
  let open_ := s.col.slots.filter fun x => x.ctx == c && x.phase == .opened
  let s := s.setCtx c fun x => { x with state := .halted }
  let s := s.dropSlots fun x => x.ctx == c && x.phase == .opened
  let s := s.sendAborts c (open_.map fun x => (x.step, x.chunk)) rsDeadline
  s.alarm (ctxReg c 0) 24 0x0902 step (s.missLinks c (s.mostMissed c))

/-- Aborts of a step count toward ABORT_LIMIT (R201). -/
def State.noteAborts (s : State) (c step n : Nat) : State :=
  let total := mgetD (s.ctx c).aborts step 0 + n
  let s := s.setCtx c fun x => { x with aborts := mput x.aborts step total }
  if s.abortLimit c ≤ total ∧ (s.ctx c).state = .active then s.haltCtx c step else s

/-- Chunks are aborted for a reason other than their deadline: slots freed, counted and announced. -/
def State.abortSlots (s : State) (c reason : Nat) (p : Slot → Bool) : State :=
  let gone := s.col.slots.filter fun x => x.ctx == c && p x
  match gone with
  | [] => s
  | _ =>
    let missing := (gone.filter fun x => x.phase == .opened).flatMap s.missingIn
    let s := s.dropSlots fun x => x.ctx == c && p x
    let s := s.ctxCtr .chunkAborts c gone.length
    let s := if missing.isEmpty then s
      else s.setCtx c fun x => { x with missing := sortBy id missing.eraseDups }
    s.sendAborts c (gone.map fun x => (x.step, x.chunk)) reason

/-- The chunk has not begun its update (R267): it may be aborted. Results already staged run to release. -/
def Slot.unbegun (x : Slot) : Bool :=
  match x.phase with
  | .opened | .complete | .ready | .issued => true
  | .update => !x.begun
  | .staged => false

/-- A slot is past its deadline at the present boundary (R199). -/
def State.pastDeadline (s : State) (x : Slot) : Bool :=
  x.phase == .opened && decide (x.openUp + s.deadline x.ctx ≤ s.clk.up)

/-- The deadline of a slot (R199): every slot of its context that is due is aborted at the same boundary. -/
def State.deadlines (s : State) (c : Nat) : State :=
  let due := s.col.slots.filter fun x => x.ctx == c && s.pastDeadline x
  match due with
  | [] => s
  | _ =>
    let s := s.dropSlots fun x => due.any fun y => y.desc == x.desc
    let s := s.each due fun s x =>
      let missing := s.missingIn x
      let s := s.each missing fun s m => (s.setMember c m fun k => { k with miss := k.miss + 1 }).missFalls c m
      let s := (s.setCtx c fun k => { k with missing := missing }).ctxCtr .chunkAborts c
      let low := missing.headD 0
      s.record (ctxReg c 0) none 0x0901 x.chunk (s.missLinks c low ++ [condLink 0x0902 x.step])
    let s := s.judgeFalls [] ((due.flatMap s.missingIn).eraseDups.map fun m => (c, m))
    let s := s.sendAborts c (due.map fun x => (x.step, x.chunk)) rsDeadline
    s.each (sortBy id (due.map Slot.step).eraseDups) fun s step =>
      s.noteAborts c step (due.filter fun x => x.step == step).length

/-! K banks (R246, R247) -/

/-- VALID of a bank. -/
def State.bankValid (s : State) (c b : Nat) : Bool := s.bget (ctxReg c 0x194) b

/-- Tag of a bank. -/
def State.bankTag (s : State) (c b : Nat) : Nat := s.fget (ctxReg c (0x198 + 4 * b)) 15 0

/-- The sixteen values of a bank. -/
def State.bankValues (s : State) (c b : Nat) : List Nat :=
  (List.range 16).map fun i => s.rget (ctxReg c (0x1A0 + 0x40 * b + 4 * i))

/-- A bank retires when the other is VALID with a later tag at or before S (R247). -/
def State.retireBanks (s : State) (c : Nat) : State :=
  if (s.ctx c).state = .idle then s
  else
    s.each [0, 1] fun s b =>
      let o := 1 - b
      if s.bankValid c b && s.bankValid c o && stepAfter (s.bankTag c o) (s.bankTag c b)
          && stepAtOrBefore (s.bankTag c o) (s.ctx c).step then
        (s.bset (ctxReg c 0x194) b false).alarmPlain (ctxReg c 0) 1 b
      else s

/-- The bank that serves a step: the VALID one with the latest tag at or before it (R247). -/
def State.bankFor (s : State) (c step : Nat) : Option Nat :=
  let ok := [0, 1].filter fun b => s.bankValid c b && stepAtOrBefore (s.bankTag c b) step
  match ok with
  | [a, b] => if stepAfter (s.bankTag c b) (s.bankTag c a) then some b else some a
  | x => x.head?

/-! The context manager (R205 to R207) -/

/-- A SYNC leaves (R198, R206). -/
def State.sendSync (s : State) (c step aux src : Nat) (goal : Goal) : State :=
  s.originate (s.ctxCore c) { s.ctxPacket tSync 2 c with step := step, aux := aux, src := src } goal

/-- Global steps complete in order once every used spine has reported (R206). -/
def State.globalSteps : Nat → State → Nat → State
  | 0, s, _ => s
  | n + 1, s, c =>
    let x := s.ctx c
    let sp := s.spines c
    if sp.isEmpty || !(List.range sp.length).all fun i => x.reports.contains (x.globalStep, i) then s
    else
      let s := s.setCtx c fun y => { y with
        globalStep := (x.globalStep + 1) % 65536
        reports := y.reports.filter fun r => r.1 != x.globalStep
        timers := mdel y.timers x.globalStep }
      let sum := sp.foldl (fun a e => a + e.2.2) 0
      (s.sendSync c x.globalStep sum s.ownPlace0 (.group (s.resultGroup c))).globalSteps n c

/-- The report of spine entry `i` for a step within the window (R206, R207). -/
def State.spineReport (s : State) (c step i : Nat) : State :=
  let x := s.ctx c
  if x.reports.contains (step, i) then s.ctxCtr .syncDup c
  else
    let s := s.setCtx c fun y => { y with
      reports := y.reports ++ [(step, i)]
      timers := if (mget y.timers step).isSome then y.timers else mput y.timers step s.clk.up }
    s.globalSteps (s.window c) c

/-- A SYNC at own place (R206). -/
def State.syncRx (s : State) (h : Wfp) : State :=
  let c := h.ctx
  let x := s.ctx c
  let hit := (s.spines c).findIdx? fun e => e.1 == h.src
  let good := s.isManager c && s.notify c == 2 && x.state != .idle
    && decide ((h.step + 65536 - x.globalStep) % 65536 < s.window c)
  match hit with
  | some i =>
    if good && h.aux == ((s.spines c).getD i (0, 0, 0)).2.2 then s.spineReport c h.step i else s.ctxCtr .syncBad c
  | none => s.ctxCtr .syncBad c

/-- The manager's own report (R198): it counts for the spine entry that names an own place. -/
def State.ownReport (s : State) (c step : Nat) : State :=
  match (s.spines c).findIdx? fun e => s.ownPlace e.1 with
  | some i => s.spineReport c step i
  | none => s

/-- An ABORT at own place changes nothing but its counters (R202, R71). -/
def State.abortRx (s : State) (port : Nat) (h : Wfp) : State :=
  let reason := h.aux % 256
  let s := if reason = 0 ∨ 5 < reason then s.portCtr .abortBadReason port else s
  s.ctxCtr .abortRx h.ctx

/-- A CTRL packet for a context (R205). -/
def State.ctrlRx (s : State) (h : Wfp) : State :=
  let c := h.ctx
  let p := h.payload
  let msg := byteAt p 0
  let member := fld p 10 2 % 4096
  if p.length ≠ 16 ∨ (msg ≠ 1 ∧ msg ≠ 2) ∨ fld p 4 4 ≠ s.enableGen c ∨ s.members c ≤ member
      ∨ s.memberPlace c member ≠ h.src then s.ctxCtr .ctrlBad c
  else if msg = 2 then s.setCtx c fun x => { x with startWait := x.startWait.filter (· != member) }
  else s

/-- The START message of a context (R205). -/
def State.startMsg (s : State) (c : Nat) : Wfp :=
  { s.ctxPacket tCtrl 2 c with
    payload := beBytes 1 1 ++ zeros 3 ++ beBytes 4 (s.enableGen c) ++ beBytes 2 (s.firstStep c) ++ zeros 2 ++ zeros 4 }

/-! Completion of an enable, Lull and IDLE -/

/-- An accepted enable completes (R179). -/
def State.completeEnable (s : State) (c : Nat) : State :=
  let x := s.ctx c
  match x.enabling, x.plan with
  | some fly, some p =>
    let first := s.firstStep c
    let s := (s.advance (ctxReg c 0x144)).each (ctxCounters c ++ [ctxReg c 0x174, ctxReg c 0x178]) fun s a => s.rset a 0
    let s := s.fset (ctxReg c 0x140) 2 0 (b2n p.keep)
    let s := s.setCtx c fun x => { x with
      state := .active, enabling := none, plan := none, placed := p.placed, step := first, released := []
      retained := [], lost := [], aborts := [], members := [], missing := [], startWait := [], startRounds := 0, startUp := none
      globalStep := first, reports := [], timers := [], digests := [], mirrorDigests := x.mirrorDigests
      heardDigests := [], sentDigests := [], disabling := false, takenStep := x.takenStep }
    let s := s.writeGroups c
    let s := if s.isManager c && s.wantsAcks c then
        let s := s.originate (s.ctxCore c) (s.startMsg c) (.group (s.resultGroup c))
        s.setCtx c fun x => { x with
          startWait := List.range (s.members c), startRounds := s.fget (ctxReg c 0x138) 2 0, startUp := some s.clk.up }
      else s
    let s := s.retireBanks c
    match fly with
    | some f => s.reply f okAns
    | none => s
  | _, _ => s

/-- The context reads LULL: open chunks are aborted with a reason (R180, R370). -/
def State.enterLull (s : State) (c : Nat) : State := s.setCtx c fun x => { x with state := .lull, disabling := false }

/-- DISABLE takes effect at a tick boundary (R180). -/
def State.lullNow (s : State) (c : Nat) : State :=
  if (s.ctx c).disabling then
    (s.enterLull c).abortSlots c rsDisabled fun x => x.phase == .opened
  else s

/-- Nothing of the context remains in any engine, Update Unit, staging or egress queue (R180). -/
def State.ctxDrained (s : State) (c : Nat) : Bool :=
  !(s.col.slots.any fun x => x.ctx == c)
    && !(s.sw.egress.any fun x => x.owner.any fun o => o.1 == c)
    && !(s.sw.voq.any fun x => x.owner.any fun o => o.1 == c)
    && !(s.sw.flying.any fun x => x.cell.owner.any fun o => o.1 == c)
    && !(s.sw.flows.any fun f => f.asm.any fun x => x.owner.any fun o => o.1 == c)

/-- The context reaches IDLE: descriptors and REPLAY space are released, and a context reset is answered (R177, R186,
R370). -/
def State.ctxIdle (s : State) (c : Nat) : State :=
  let x := s.ctx c
  let s := s.setCtx c fun x => { x with
    state := .idle, placed := [], retained := [], lost := [], released := [], resetting := none, resetBegun := false
    resetAborted := false, startWait := [], startUp := none, timers := [], reports := [] }
  let s := s.alarmPlain (ctxReg c 0) 0 c
  s.each (x.resetting.getD []) fun s f => s.reply f okAns

/-! Release (R196, R197, R203, R198) -/

/-- Statistics of a released chunk's last member (R203, R204). -/
def State.lastMember (s : State) (x : Slot) : State :=
  let c := x.ctx
  let late := x.completeUp - x.openUp
  let s := s.setMember c x.lastMember fun m => { m with last := m.last + 1, lateSum := m.lateSum + late, gain := m.gain + 1 }
  if s.rget (ctxReg c 0x178) < late then s.rset (ctxReg c 0x178) late else s

/-- SRC_PLACE and chunk count of a step report: for the taken-over range the partner's (R348). -/
def State.reportAs (s : State) (c : Nat) (taken : Bool) : Nat × Nat :=
  if taken then ((s.ctx c).mirrorPlace.toNat, (s.ctx c).mirrorChunks) else (s.ownPlace0, s.chunkCount c)

/-- The notification of a completed step (R198). -/
def State.notifyStep (s : State) (c step : Nat) (taken : Bool) : State :=
  let r := s.reportAs c taken
  if s.notify c = 1 then s.sendSync c step r.2 r.1 (.group (s.resultGroup c))
  else if s.notify c = 2 then
    if s.isManager c then
      if taken then
        match (s.spines c).findIdx? fun e => e.1 == r.1 with
        | some i => s.spineReport c step i
        | none => s
      else s.ownReport c step
    else s.sendSync c step r.2 r.1 (.place (s.rget (ctxReg c 0x12C)))
  else s

/-- The digest of a completed step (R271) over chunk digests in ascending chunk index. -/
def stepDigest (c step : Nat) (ds : List (BitVec 64)) : BitVec 64 :=
  ds.foldl (fun d x => foldWord (foldWord d (x.toNat / 2 ^ 32)) (x.toNat % 2 ^ 32)) (BitVec.ofNat 64 (step * 2 ^ 32 + c))

/-- Chunk digests kept of a step, ascending by chunk. -/
def digestsOf (l : List (Nat × Nat × BitVec 64)) (step : Nat) : List (Nat × BitVec 64) :=
  sortBy (fun x => x.1) ((l.filter fun x => x.1 == step).map Prod.snd)

/-- The primary sends its step digest to the twin (R271); without a twin the chunk digests are dropped. -/
def State.sendStepDigest (s : State) (c step : Nat) : State :=
  let ds := digestsOf (s.ctx c).digests step
  if s.twinned c && s.updates c && s.twinActive then
    let d := stepDigest c step (ds.map Prod.snd)
    (s.twinSend twStepDigest (beBytes 1 c ++ zeros 1 ++ beBytes 2 step ++ beBytes 8 d.toNat)).setCtx c fun x =>
      { x with sentDigests := x.sentDigests ++ [(step, d)] }
  else s.setCtx c fun x => { x with digests := x.digests.filter fun e => e.1 != step }

/-- Steps of the own range complete, advance S and notify strictly in order (R198). -/
def State.stepsDone : Nat → State → Nat → State
  | 0, s, _ => s
  | n + 1, s, c =>
    let x := s.ctx c
    if (x.released.filter fun r => r.1 == x.step).length < s.chunkCount c then s
    else
      let step := x.step
      let s := s.ctxCtr .stepsComplete c
      let s := s.setCtx c fun y => { y with
        step := (step + 1) % 65536, released := y.released.filter fun r => r.1 != step, aborts := mdel y.aborts step }
      let s := (s.notifyStep c step false).sendStepDigest c step
      (s.retireBanks c).stepsDone n c

/-- The same for the taken-over range, which keeps its own current step (R348). -/
def State.takenDone : Nat → State → Nat → State
  | 0, s, _ => s
  | n + 1, s, c =>
    let x := s.ctx c
    if x.mirrorChunks = 0 ∨ (x.takenReleased.filter fun r => r.1 == x.takenStep).length < x.mirrorChunks then s
    else
      let step := x.takenStep
      let s := s.setCtx c fun y => { y with
        takenStep := (step + 1) % 65536, takenReleased := y.takenReleased.filter fun r => r.1 != step }
      (s.notifyStep c step true).takenDone n c

/-- A result leaves for the chunk's group (R72, R196). -/
def State.sendResult (s : State) (c step chunk core : Nat) (result : Bytes) : State :=
  s.each (s.resultPackets c step chunk result) fun s h =>
    s.originate core h (.group (s.groupOfChunk c chunk)) (some (c, chunk))

/-- A staged chunk is released (R190, R196): its result leaves, is retained under REPLAY, and counts for its step. -/
def State.releaseSlot (s : State) (x : Slot) : State :=
  let c := x.ctx
  let retain := s.replays c && (s.ctx c).state != .lull
  let s := s.dropSlots fun y => y.desc == x.desc
  let s := s.sendResult c x.step x.chunk x.core x.result
  let s := if retain then
      s.setCtx c fun k => { k with
        retained := mput k.retained x.chunk (x.step, x.result), lost := k.lost.filter (· != x.chunk) }
    else s
  let s := (s.lastMember x).pmc (ccReg x.core 0) 0x102 1
  let s := if s.updates c && !x.taken then
      s.setCtx c fun k => { k with digests := k.digests ++ [(x.step, x.chunk, x.digest)] }
    else s
  let s := if s.twinned c && !x.taken && s.twinActive then
      s.twinSend twReleased (beBytes 1 c ++ zeros 1 ++ beBytes 2 x.step ++ beBytes 4 x.chunk)
    else s
  if x.taken then
    (s.setCtx c fun k => { k with takenReleased := k.takenReleased ++ [(x.step, x.chunk)] }).takenDone 2 c
  else
    (s.setCtx c fun k => { k with released := k.released ++ [(x.step, x.chunk)] }).stepsDone 2 c

/-- A staged chunk may be released now (R269): after the tick of its last commit, and acknowledged where it must be. -/
def State.releaseReady (s : State) (x : Slot) : Bool :=
  x.phase == .staged && decide (x.commitUp < s.clk.up) && (!x.needAck || x.acked)

end Sys2Proof.Machine
end

