-- ==== Sys2Proof/Machine/Ingress.lean ====
section
/-! DEFINITION. Ingress (R23, R63, R73, R74, R81 to R85): arrival checks, policing and thresholds (R136 to R138),
credits and full buffers (R91, R95), sorting, bridging (R119 to R123) and the end of each packet. -/

namespace Sys2Proof.Machine

/-! The packet under way -/

/-- A packet or frame whose header is taken. -/
structure Incoming where
  port : Nat
  pkt : Nat
  fmt : PktFmt
  frame : Bytes
  vc : Nat
  deriving DecidableEq, Repr

/-- Die of the arrival port. -/
def Incoming.die (x : Incoming) : Nat := x.port / 256

/-- The packet is charged to the credits of its port (R91). -/
def State.charges (s : State) (x : Incoming) : Bool := s.credited x.port x.vc

/-- What its cells start from. -/
def State.arrivalCell (s : State) (x : Incoming) : Cell :=
  { s.protoCell x.port x.vc x.pkt x.fmt with charged := s.charges x }

/-- Note the packet among those whose last byte has not arrived. -/
def State.arrives (s : State) (x : Incoming) (dropped failed own : Bool) : State :=
  s.setSw fun w => { w with arriving := w.arriving ++
    [{ port := x.port, pkt := x.pkt, fmt := x.fmt, frame := x.frame, dropped := dropped, failed := failed, own := own }] }

/-- The credits of a packet that takes no cells, or none any longer, are freed. -/
def State.freeAll (s : State) (x : Incoming) : State :=
  if s.charges x then s.freeCredit x.port x.vc (cellsOf x.frame.length) else s

/-- The packet is discarded at ingress: its credits are freed. -/
def State.ingressDrop (s : State) (x : Incoming) : State := (s.arrives x true false false).freeAll x

/-! Buffers and thresholds -/

/-- Spill and refill of a die within a tick: 25% of its HBM bandwidth, 1.64 TB/s, is 2,562 cells of 256 bytes (R94). -/
def ovfCap : Nat := 2562

/-- A cell of SHARED (R93). -/
def Cell.shared (c : Cell) : Bool := decide (c.srcPort < 1024) && (c.vc == 3 || c.fmt == .eth)

/-- Cells of SHARED in SRAM. -/
def State.sharedUsed (s : State) (d : Nat) : Nat :=
  (s.sw.voq.filter fun c => c.cluster / 4 == d && c.shared && !c.spilled).length

/-- Spilled cells of SHARED, and of credited queues. -/
def State.sharedSpilled (s : State) (d : Nat) : Nat :=
  (s.sw.voq.filter fun c => c.cluster / 4 == d && c.shared && c.spilled).length
def State.otherSpilled (s : State) (d : Nat) : Nat :=
  (s.sw.voq.filter fun c => c.cluster / 4 == d && !c.shared && c.spilled).length

/-- Cells that FD.OVF_VC3_MAX allows (R94). -/
def State.ovfVc3Max (s : State) (d : Nat) : Nat := s.fget (fdReg d 0x104) 12 0 * 4096

/-- R95: SHARED is full, its part of PKT_OVF is used up, and spill has no bandwidth left in the tick. Before Stage C
there is no overflow. -/
def State.sharedFull (s : State) (d : Nat) : Bool :=
  decide (s.sharedSize d ≤ s.sharedUsed d)
    && (!s.atStage 2 || (decide (s.ovfVc3Max d ≤ s.sharedSpilled d) && decide (ovfCap ≤ (s.die d).ovfMoved)))

/-- The policer of R136 conforms; its charge is drawn. -/
def State.police (s : State) (p n : Nat) : State × Bool := if s.hasTokens p 4 then (s.drawTokens p 4 n, true) else (s, false)

/-- Depth of the arrival cluster's queue toward (port, VC3), PKT_OVF included (R137). -/
def State.voqDepth (s : State) (cluster p : Nat) : Nat :=
  (s.sw.voq.filter fun c => c.cluster == cluster && c.kind == .unicast && c.dest == p && c.vc == 3).length

/-- What R137 decides for a packet toward output `p`. -/
inductive Thresh where
  | drop | mark | queue
  deriving DecidableEq, Repr

/-- R137: the first row that applies; `markable` as R138 judges the arriving frame. -/
def State.threshold (s : State) (x : Incoming) (p : Nat) (markable : Bool) : Thresh :=
  let depth := s.voqDepth (clusterOf x.port) p
  let drop := s.fget (portReg p 0x110) 23 0
  let mark := s.fget (portReg p 0x10C) 23 0
  if x.vc ≠ 3 ∧ x.fmt ≠ .eth then .queue
  else if drop ≠ 0 ∧ drop ≤ depth then .drop
  else if mark ≠ 0 ∧ mark ≤ depth ∧ markable then .mark
  else .queue

/-! The switching path -/

/-- A lookup on the arrival die that cannot trust its entry (R108): the packet is discarded. -/
def State.lookupBad (s : State) (x : Incoming) (k : TblKind) (pos : Nat) : State :=
  (s.tblDiscard x.die k pos).ingressDrop x

/-- Position that a place lookup reads in the LPM or the next-hop table. -/
def State.lookupPos (s : State) (k : TblKind) (dst vc : Nat) (ctx : Option Nat) : Option Nat :=
  match lpmFind s.tbl.lpm dst vc ctx, k with
  | some (pos, _), .lpm => some pos
  | some (_, e), .nh => some e.group
  | _, _ => none

/-- The lookup of a place for an arriving packet; `tblErr` names the table whose entry gives an uncorrectable error. -/
def State.routeIn (s : State) (x : Incoming) (srcPlace dst : Nat) (ctx : Option Nat) (tblErr : Option TblKind) :
    State × Way :=
  match tblErr.bind fun k => (s.lookupPos k dst x.vc ctx).map fun pos => (k, pos) with
  | some (k, pos) => (s, .bad k pos)
  | none => s.route x.die x.port x.vc srcPlace dst ctx

/-- A WFP packet that is not for own place (R105). -/
def State.switchWfp (s : State) (x : Incoming) (h : Wfp) (tblErr : Option TblKind) : State :=
  let proto := s.arrivalCell x
  if isMulticastPlace h.dst then
    let g := h.dst % 16384
    if tblErr = some .mc ∨ s.tblBad x.die .mc g then s.lookupBad x .mc g
    else if (groupDies (s.mcPorts g)).isEmpty then s.ingressDrop x
    else (s.arrives x false false false).queueMulticast { proto with dest := g } x.frame false
  else
    let w := s.routeIn x h.src h.dst (keyCtx h.type h.ctx) tblErr
    match w.2 with
    | .miss => (w.1.portCtr .lpmMiss x.port).ingressDrop x
    | .noPort => (w.1.portCtr .nhNoPort x.port).ingressDrop x
    | .bad k pos => w.1.lookupBad x k pos
    | .port q =>
      if w.1.threshold x q false = .drop then (w.1.portCtr .vc3ThreshDrop q).ingressDrop x
      else (w.1.arrives x false false false).queueUnicast proto q x.frame false

/-! Contributions (R191) -/

/-- Checks 1 to 7 of R191: the counter of the first that fails. -/
def State.contribFails (s : State) (fmt : PktFmt) (h : Wfp) : Option CtxCtr :=
  let c := h.ctx
  let code := s.cfg c 7 4
  if (s.ctx c).state ≠ .active then some .ctxNotActive
  else if s.isTransport c then some .badOp
  else if fmt = .wfp1 ∧ code ≠ (if h.elem then 0 else 1) then some .badFormat
  else if !s.chunkServed c h.chunk then some .badChunk
  else if s.members c ≤ h.member then some .badMember
  else if s.memberPlace c h.member ≠ h.src then some .badSource
  else if h.payload.length ≠ s.payload c then some .badLength
  else if s.portFenced (s.memberPort c h.member) then some .fencedDiscard
  else none

/-- A CONTRIB packet for own place (R23, R191). A context that is not enabled, a stage before D and a trip (R382) discard
it. -/
def State.contribIn (s : State) (x : Incoming) (h : Wfp) : State :=
  let c := h.ctx
  if (s.ctx c).state = .idle ∨ !s.atStage 3 ∨ s.sys.tripped then (s.portCtr .contribNoCtx x.port).ingressDrop x
  else
    match s.contribFails x.fmt h, s.placeOf c h.chunk with
    | some k, _ => (s.ctxCtr k c).ingressDrop x
    | none, none => s.ingressDrop x
    | none, some pl =>
      let desc := pl.desc + h.step % s.window c
      let tag : ContribTag := { ctx := c, step := h.step, chunk := h.chunk, weight := h.weight, flags := h.flags }
      (s.arrives x false false false).queueCells
        { s.arrivalCell x with
          kind := .contrib, dest := desc, destDie := pl.core / 8, seq := h.member, contrib := some tag } h.payload false

/-! Ethernet bridging -/

/-- What a frame is bridged with: VLAN, PCP and VID, and whether it came from the fabric. -/
structure Bridged where
  vid : Nat
  tci : Nat
  ether : Ether
  /-- SRC_PLACE of the ETH_ENCAP packet it was taken from. -/
  fabric : Option Nat
  deriving DecidableEq, Repr

/-- The VLAN of a frame (R119): of one from an ETHERNET port by its tag or PVID; of a decapsulated one by its tag. -/
def State.classify (s : State) (port : Nat) (e : Ether) (fabric : Option Nat) : Bridged :=
  let pvid := if fabric.isSome then 0 else s.fget (portReg port 0x100) 11 0
  match e.tci with
  | none => ⟨pvid, pvid, e, fabric⟩
  | some t => if t % 4096 = 0 then ⟨pvid, putBits t 11 0 pvid, e, fabric⟩ else ⟨t % 4096, t, e, fabric⟩

/-- The VLAN entry of a VID. -/
def State.vlan (s : State) (vid : Nat) : VlanEntry := (mget s.tbl.vlan vid).getD {}

/-- R119: the frame is discarded at its VLAN. -/
def State.vlanDrops (s : State) (port : Nat) (b : Bridged) : Bool :=
  let v := s.vlan b.vid
  b.vid == 4095 || !v.valid || (b.fabric.isNone && !(s.mcPorts v.flood).contains port)

/-- R123: the source address is learned. -/
def State.learnFrom (s : State) (x : Incoming) (b : Bridged) : State :=
  if !(s.vlan b.vid).learn then s
  else match b.fabric with
    | some place => s.learn x.die b.vid b.ether.sa true place
    | none => if s.bget (portReg x.port 0x100) 17 then s.learn x.die b.vid b.ether.sa false x.port else s

/-- The frame's cells on their way to ports in ETHERNET mode. -/
def State.bridgeCell (s : State) (x : Incoming) (b : Bridged) : Cell :=
  { s.arrivalCell x with fmt := .eth, tag := some b.tci, charged := s.charges x && b.fabric.isNone }

/-- The frame as it travels inside the chip. -/
def Bridged.bytes (b : Bridged) : Bytes := b.ether.frame b.ether.tci

/-- A frame leaves for a remote place as ETH_ENCAP, always tagged (R77, R119, R120); a marked one is marked before. -/
def State.encapsulate (s : State) (x : Incoming) (b : Bridged) (place : Nat) (tblErr : Option TblKind) : State :=
  let whole := fun (e : Ether) => e.frame (some b.tci)
  let long := fun (s : State) => s.portCtr .ethTooLongForWfp x.port
  if 4096 < (whole b.ether).length then long s
  else
    let pack := fun (s : State) (e : Ether) =>
      let r := s.takeFlowSeq place x.vc
      (r.1, { type := tEthEncap, vc := x.vc, dst := place, src := s.ownPlace0, flowSeq := r.2, payload := whole e : Wfp })
    let proto := { s.arrivalCell x with fmt := .wfp2, tag := some b.tci, charged := false }
    if isMulticastPlace place then
      let r := pack s b.ether
      r.1.queueMulticast { proto with dest := place % 16384 } r.2.packet false
    else
      let w := s.routeIn x s.ownPlace0 place none tblErr
      match w.2 with
      | .miss => w.1.portCtr .lpmMiss x.port
      | .noPort => w.1.portCtr .nhNoPort x.port
      | .bad k pos => w.1.tblDiscard x.die k pos
      | .port q =>
        if w.1.mode q = 2 ∧ 2048 < (whole b.ether).length then long w.1
        else
          match w.1.threshold x q (x.fmt == .eth && b.ether.markable) with
          | .drop => w.1.portCtr .vc3ThreshDrop q
          | .mark =>
            let r := pack (w.1.portCtr .vc3EcnMark q) b.ether.mark
            r.1.queueUnicast proto q r.2.packet false
          | .queue =>
            let r := pack w.1 b.ether
            r.1.queueUnicast proto q r.2.packet false

/-- A frame is forwarded to a local port (R120). A port that takes nothing discards it; from Lull on too (R424). -/
def State.bridgeTo (s : State) (x : Incoming) (b : Bridged) (q : Nat) : State :=
  if !s.portTakes q then s.portCtr (if s.portState q = 5 then .kiteDiscard else .fenceDiscard) q
  else
    match s.threshold x q (x.fmt == .eth && b.ether.markable) with
    | .drop => s.portCtr .vc3ThreshDrop q
    | .mark => (s.portCtr .vc3EcnMark q).queueUnicast (s.bridgeCell x b) q { b with ether := b.ether.mark }.bytes false
    | .queue => s.queueUnicast (s.bridgeCell x b) q b.bytes false

/-- A frame is flooded (R121). -/
def State.flood (s : State) (x : Incoming) (b : Bridged) (tblErr : Option TblKind) : State :=
  let v := s.vlan b.vid
  let s := s.queueMulticast { s.bridgeCell x b with dest := v.flood } b.bytes false
  if b.fabric.isNone ∧ v.remote.toNat ≠ 0 then s.encapsulate x b v.remote.toNat tblErr else s

/-- Position of the entry of the MAC or VLAN table that a frame's lookup reads and cannot trust. -/
def State.bridgeBad (s : State) (x : Incoming) (b : Bridged) (tblErr : Option TblKind) : Option (TblKind × Nat) :=
  let hit := macFind (s.tbl.mac x.die) b.vid b.ether.da
  if tblErr = some .vlan ∨ s.tblBad x.die .vlan b.vid then some (.vlan, b.vid)
  else match hit with
    | some (pos, _) => if tblErr = some .mac ∨ s.tblBad x.die .mac pos then some (.mac, pos) else none
    | none => none

/-- The bridging decision (R120), after the VLAN's and with the source address learned. -/
def State.bridge (s : State) (x : Incoming) (b : Bridged) (tblErr : Option TblKind) : State :=
  match s.bridgeBad x b tblErr with
  | some (k, pos) => s.tblDiscard x.die k pos
  | none =>
    if s.vlanDrops x.port b then s.portCtr .vlanIngressDrop x.port
    else
      let s := s.learnFrom x b
      if reservedMac b.ether.da then s.portCtr .ethReservedDa x.port
      else if groupMac b.ether.da then s.flood x b tblErr
      else match macFind (s.tbl.mac x.die) b.vid b.ether.da with
        | none => s.flood x b tblErr
        | some (_, e) =>
          if e.remote then
            if b.fabric.isSome then s.portCtr .ethFiltered x.port else s.encapsulate x b e.dest.toNat tblErr
          else if b.fabric.isNone ∧ e.dest.toNat = x.port then s.portCtr .ethFiltered x.port
          else s.bridgeTo x b e.dest.toNat

/-- A frame from an ETHERNET port whose header is taken: policed, then bridged unless it is to be discarded at its
end (R63). -/
def State.takeEther (s : State) (p pkt : Nat) (fec : Bool) (frame : Bytes) (tblErr : Option TblKind) : State :=
  let e := parseEther frame
  let x : Incoming := ⟨p, pkt, .eth, frame, if e.ethertype = 0x88F7 then 2 else 3⟩
  let bad := !fec || decide (frame.length < 64) || decide (9216 < frame.length) || !fcsGood frame
  let r := s.police p frame.length
  let s := r.1
  if !r.2 then (s.portCtr .policeDrop p).arrives x true bad false
  else if bad then s.arrives x true true false
  else if s.sharedFull x.die then (s.portCtr .rxBufFullDrop p).arrives x true false false
  else (s.arrives x false false false).bridge x (s.classify p e none) tblErr

/-! WFP packets -/

/-- Checks 1 to 5 of R73: the number and counter of the first that fails. -/
def arrivalFails (fmt : PktFmt) (fec : Bool) (f : Bytes) : Option (Nat × PortCtr) :=
  let n := fmt.headerLen
  if !fec then some (1, .rxFecUncorr)
  else if f.length < n + 4 then some (5, .rxBadLength)
  else if fld f (n - 2) 2 ≠ (crc16 (f.take (n - 2))).toNat then some (2, .rxHdrCrcErr)
  else if byteAt f 0 / 16 ≠ (if fmt = .wfp2 then 2 else 1) then some (3, .rxBadVersion)
  else if reservedType fmt (byteAt f 0 % 16) then some (4, .rxBadType)
  else if fmt.maxPayload < fld f 2 2 ∨ fld f 2 2 + n + 4 ≠ f.length then some (5, .rxBadLength)
  else none

/-- The sorting of R23. -/
def State.sortWfp (s : State) (x : Incoming) (h : Wfp) (tblErr : Option TblKind) : State :=
  if !s.ownPlace h.dst then s.switchWfp x h tblErr
  else if h.type = tContrib then s.contribIn x h
  else if h.type = tData ∨ h.type = tResult ∨ h.type = tNackStale then
    (s.portCtr .ownPlaceDiscard x.port).ingressDrop x
  else s.arrives x false false true

/-- A packet of a FABRIC or WZ4 port whose header is taken: checks, credits and buffer, policing, sorting. -/
def State.takeWfp (s : State) (p pkt : Nat) (fec : Bool) (frame : Bytes) (tblErr : Option TblKind) : State :=
  let fmt := s.portFmt p
  let vc := bits (byteAt frame 1) 7 6
  let x : Incoming := ⟨p, pkt, fmt, frame, vc⟩
  match arrivalFails fmt fec frame with
  | some (n, c) =>
    let s := (s.portCtr c p).arrives x true true false
    if n ≤ 2 then s.penalizeDiscard p (condLink 0x0403 n)
    else if frame.length < fmt.headerLen + 4 then s else s.freeAll x
  | none =>
    if vc < 3 ∧ s.creditLimit p < s.chargedCells p vc + cellsOf frame.length then
      (s.portCtr .rxNoCredit p).ingressDrop x
    else if vc = 3 ∧ s.sharedFull x.die then (s.portCtr .rxBufFullDrop p).ingressDrop x
    else if vc = 3 then
      let r := s.police p frame.length
      if r.2 then r.1.sortWfp x (parseWfp fmt frame) tblErr else (r.1.portCtr .policeDrop p).ingressDrop x
    else s.sortWfp x (parseWfp fmt frame) tblErr

/-- A header is taken (R81). -/
def State.takeHeader (s : State) (p : Nat) (fec : Bool) (frame : Bytes) (tblErr : Option TblKind) : State :=
  let s := s.pmc (clReg (p / 64) 0) 0x102 1
  let n := s.newPkt
  if n.1.mode p = 1 then n.1.takeEther p n.2 fec frame tblErr else n.1.takeWfp p n.2 fec frame tblErr

/-- HEADER_TAKEN (R81). -/
def execHeaderTaken (port : PortNo) (fc : FcCycle) (fec : Bool) (frame : Bytes) (tblErr : Option TblKind) (s : State) :
    Host.Outcome State Fault Refusal :=
  let t := s.atFc fc
  done s (if t.portReceives port.val then t.takeHeader port.val fec frame tblErr else t)

/-! The end of a packet -/

/-- The oldest packet of a port whose last byte has not arrived. -/
def State.arriving (s : State) (p : Nat) (eth : Bool) : Option Arriving :=
  s.sw.arriving.find? fun a => a.port == p && (a.fmt == .eth) == eth

/-- Its last byte has arrived: counters and the window's count (R322, R390). -/
def State.arrived (s : State) (a : Arriving) : State :=
  let n := a.frame.length
  let s := s.setSw fun w => { w with arriving := w.arriving.filter fun y => y.pkt != a.pkt }
  (((s.portCtr .rxPkts a.port).portCtr .rxBytes a.port n).pmc (portReg a.port 0) 0x100 n).bwCount a.port n 0 0

/-- The last cells of an arrival are complete; TRL_BAD tells the outcome of the trailer check (R85). -/
def State.completeCells (s : State) (pkt : Nat) (bad : Bool) : State :=
  s.setSw fun w => { w with voq := w.voq.map fun c =>
    if c.pkt == pkt && !c.complete then { c with complete := true, trlBad := bad, ready := max c.ready s.fcNow } else c }

/-- A trailer failure is counted as stomped or corrupted; a corrupted packet draws the penalty and at most one record
in 2,500 ticks (R74). -/
def State.trailerFails (s : State) (a : Arriving) : State :=
  let p := a.port
  let body := a.frame.take (a.frame.length - 4)
  if a.frame.drop (a.frame.length - 4) = stompTrailer body then s.portCtr .rxTrlStomped p
  else
    let s := (s.portCtr .rxTrlCrcErr p).penalizeDiscard p (condLink 0x0403 6)
    let due := match (s.port p).trailerRec with | some t => decide (t + 2500 ≤ s.clk.up) | none => true
    if due then
      (s.record (portReg p 0) none 0x0402 p).setPort p fun x => { x with trailerRec := some s.clk.up }
    else s

/-- An ETH_ENCAP packet at own place is decapsulated and bridged (R77, R23). -/
def State.decapsulate (s : State) (x : Incoming) (h : Wfp) : State :=
  if !fcsGood h.payload then s.portCtr .ethDecapFcsErr x.port
  else
    let t := s.bridge x (s.classify x.port (parseEther h.payload) (some h.src)) none
    t.completeCells x.pkt false

/-- A packet for own place acts once its last byte has been checked (R23). -/
def State.ownAct (s : State) (a : Arriving) : State :=
  let h := parseWfp a.fmt a.frame
  let x : Incoming := ⟨a.port, a.pkt, a.fmt, a.frame, h.vc⟩
  if h.type = tSync then s.syncRx h
  else if h.type = tAbort then s.abortRx a.port h
  else if h.type = tCtrl then s.ctrlRx h
  else s.decapsulate x h

/-- The last byte of a WFP packet (R74). -/
def State.packetEnd (s : State) (a : Arriving) : State :=
  let s := s.arrived a
  if a.failed then s
  else
    let good := a.frame.drop (a.frame.length - 4) == crc32cTrailer (a.frame.take (a.frame.length - 4))
    let s := if good then s else s.trailerFails a
    if a.own then
      let s := s.freeAll ⟨a.port, a.pkt, a.fmt, a.frame, bits (byteAt a.frame 1) 7 6⟩
      if good then s.ownAct a else s
    else s.completeCells a.pkt (!good)

/-- PACKET_TRAILER_RX (R74). -/
def execPacketTrailerRx (port : PortNo) (fc : FcCycle) (s : State) : Host.Outcome State Fault Refusal :=
  let t := s.atFc fc
  done s ((t.arriving port.val false).elim t t.packetEnd)

/-- ETH_FRAME_END (R63). -/
def execEthFrameEnd (port : PortNo) (fc : FcCycle) (s : State) : Host.Outcome State Fault Refusal :=
  let t := s.atFc fc
  done s (match t.arriving port.val true with
    | some a =>
      let t := t.arrived a
      if a.failed then t.portCtr .ethRxBadFrame a.port else t.completeCells a.pkt false
    | none => t)

end Sys2Proof.Machine
end

