-- ==== Sys2Proof/Machine/Cells.lean ====
section
/-! DEFINITION. Cells between ingress and egress: the match of a cell time (R88 to R90), arrival at the output die (R97,
R189), resequencer gaps (R99), die-to-die credits (R92), and spill and refill of PKT_OVF (R94). -/

namespace Sys2Proof.Machine

/-! The match of a cell time -/

/-- The present cell time, counted from reset: 8 ns is 12.8 FC cycles, 50 in each tick. -/
def State.cellTime (s : State) : Nat := s.clk.up * 50 + min 49 (s.clk.fc * 5 / 64)

/-- The lane-side VC2 policer brought up to now (R135): 0.02 cells per lane in service and cell time. -/
def State.laneTokensNow (s : State) (d : Nat) : Int :=
  min 6400 ((s.die d).laneTokens + (2 * (s.dtdLanes d).length * (s.cellTime - (s.die d).laneAt) : Nat))

/-- VC2 cells that the policer admits in this cell time: one more than whole tokens, none on a debt (R131). -/
def vc2Admits (tokens : Int) : Nat := if tokens < 0 then 0 else tokens.toNat / 100 + 1

/-- The list without VC2 cells beyond the first `n`. -/
def capVc2 : Nat → List (Nat × Cell) → List (Nat × Cell)
  | _, [] => []
  | 0, x :: r => if x.2.vc = 2 then capVc2 0 r else x :: capVc2 0 r
  | n + 1, x :: r => if x.2.vc = 2 then x :: capVc2 n r else x :: capVc2 (n + 1) r

/-- Cells of local cluster `c` toward die `e`. -/
def towards (cells : List (Nat × Cell)) (d c e : Nat) : List (Nat × Cell) :=
  cells.filter fun x => x.2.cluster == 4 * d + c && x.2.destDie == e

/-- Destination cluster on the die of a cell that stays there; a multicast cell goes to the die as a whole. -/
def Cell.toCluster (c : Cell) : Nat :=
  match c.kind with
  | .unicast => c.dest / 64
  | .multicast => 16
  | .contrib => c.dest / 2048

/-- Cells for the on-die cell fabric: up to 128 from each cluster to each cluster (R87), oldest first. -/
def onDie (cells : List (Nat × Cell)) (d : Nat) : List (Nat × Cell) :=
  (cells.foldl (fun (r : List (Nat × Cell) × List ((Nat × Nat) × Nat)) x =>
    if x.2.destDie ≠ d then r
    else
      let k := (x.2.cluster, x.2.toCluster)
      let n := (aget r.2 k).getD 0
      if n < 128 then (r.1 ++ [x], aput r.2 k (n + 1)) else r) ([], [])).1

/-- The cells that the match sends, in the order in which they take lanes, and the DWRR state of each cluster (R88,
R90). -/
def State.matched (s : State) (d : Nat) (cells : List (Nat × Cell)) (m : Matching) (others : List Nat) :
    List (Nat × Cell) × List (List Nat) × List Nat :=
  [0, 1, 2, 3].foldl (fun (r : List (Nat × Cell) × List (List Nat) × List Nat) c =>
    others.foldl (fun (r : List (Nat × Cell) × List (List Nat) × List Nat) e =>
      let p := pickCells (mat m.acc c e) (towards cells d c e) (s.vcWeights (fdReg d 0x100)) (r.2.1.getD c [0, 0, 0])
        (r.2.2.getD c 0)
      (r.1 ++ p.1, r.2.1.set c p.2.1, r.2.2.set c p.2.2)) r)
    ([], (s.die d).laneDeficit, (s.die d).laneTurn)

/-- Events of a cell time: cells matched, lanes left idle, and per cluster what was accepted and what waits (R387). -/
def State.countMatch (s : State) (d lanes : Nat) (cells sent : List (Nat × Cell)) : State :=
  let s := (s.pmc (fdReg d 0) 0x100 sent.length).pmc (fdReg d 0) 0x101 (lanes - sent.length)
  s.each [0, 1, 2, 3] fun s c =>
    let k := 4 * d + c
    let a := (sent.filter fun x => x.2.cluster == k).length
    let w := (cells.filter fun x => x.2.cluster == k && x.2.destDie != d).length
    (s.pmc (clReg k 0) 0x100 a).pmc (clReg k 0) 0x101 (w - a)

/-- One cell time of a die: cells of dead ports go, the on-die cell fabric moves its cells, and the scheduler matches the
others to lanes in service (R87 to R90). -/
def State.cellMatch (s : State) (d : Nat) : State :=
  let s := s.purgeHeads d
  let tokens := s.laneTokensNow d
  let cells := s.eligibleCells d
  let lanes := s.dtdLanes d
  let others := othersOf d
  let local_ := onDie cells d
  let cross := capVc2 (vc2Admits tokens) (cells.filter fun x => x.2.destDie != d)
  let ready := [0, 1, 2, 3].map fun c => [0, 1, 2, 3].map fun e => if e = d then 0 else (towards cross d c e).length
  let x := s.die d
  let m := matchCells lanes.length ready others x.dptr x.cptr x.aptr
  let np := nextPointers m others x.dptr x.cptr x.aptr
  let out := s.matched d cross m others
  let vc2 := (out.1.filter fun y => y.2.vc == 2).length
  let now := s.cellTime
  let s := s.setDie d fun y => { y with
    dptr := np.1, cptr := np.2.1, aptr := np.2.2, laneDeficit := out.2.1, laneTurn := out.2.2
    laneTokens := tokens - (100 * vc2 : Nat), laneAt := now, lastMatch := some now }
  let s := s.each local_ fun s y => s.launch y.2 none
  let s := s.each out.1.zipIdx fun s y => s.launch y.1.2 (lanes[y.2]?)
  (s.dropCells (local_.map Prod.fst ++ out.1.map Prod.fst)).countMatch d lanes.length cells out.1

/-- CELL_TIME_MATCH (R89): once in each cell time of 8 ns. -/
def execCellTimeMatch (die : DieNo) (fc : FcCycle) (s : State) : Host.Outcome State Fault Refusal :=
  let t := s.atFc fc
  done s (if t.atStage 1 ∧ !t.fatal ∧ (t.die die.val).lastMatch.all (fun n => decide (n < t.cellTime)) then
    t.cellMatch die.val
  else t)

/-! Arrival at the output die -/

/-- Cells on their way to a die, oldest first, with their places among all that are on their way. -/
def State.flyingTo (s : State) (d : Nat) (contrib : Bool) : List (Nat × Flying) :=
  (s.sw.flying.zipIdx.filter fun x => x.1.cell.destDie == d && (x.1.cell.kind == .contrib) == contrib).map fun x => (x.2, x.1)

/-- A cell reaches its output die. One that came over a lane may fail CELL_CRC: it is discarded and counted, and its
credit goes back (R87). -/
def State.cellLands (s : State) (d : Nat) (x : Nat × Flying) (corrupt : Bool) (f : State → Cell → State) : State :=
  let s := s.setSw fun w => { w with flying := w.flying.eraseIdx x.1 }
  if corrupt && x.2.lane.isSome then (s.bump (fdReg d 0x118)).cellLeaves x.2.cell
  else f s x.2.cell

/-- A switched cell: resequenced, or discarded when its port takes nothing any longer. -/
def State.switchedCell (s : State) (c : Cell) : State :=
  if s.deadCell c then
    let s := s.cellLeaves c
    if c.last then s.portCtr (if s.portState c.dest = 5 then .kiteDiscard else .fenceDiscard) c.dest else s
  else s.resequence c

/-- CELL_RX (R97): the cell at position `pos` among the switched cells on their way to the die. -/
def execCellRx (die : DieNo) (pos : Nat) (corrupt : Bool) (fc : FcCycle) (s : State) : Host.Outcome State Fault Refusal :=
  let t := s.atFc fc
  done s (match (t.flyingTo die.val false)[pos]? with
    | some x => t.cellLands die.val x corrupt State.switchedCell
    | none => t)

/-- CONTRIB_CELL_RX (R189): the same for the contributions' cells; the credit returns when the cell is written or
discarded (R188). -/
def execContribCellRx (die : DieNo) (pos : Nat) (corrupt : Bool) (fc : FcCycle) (s : State) :
    Host.Outcome State Fault Refusal :=
  let t := s.atFc fc
  done s (match (t.flyingTo die.val true)[pos]? with
    | some x => t.cellLands die.val x corrupt fun s c => (s.gatherCell c).cellLeaves c
    | none => t)

/-- FC time at which the gap of a flow opened: arrival of the first cell held behind it (R99). -/
def Flow.gapFc (f : Flow) : Option Nat := leastOf (f.held.map Prod.snd)

/-- RESEQ_TIMEOUT (R99): a gap of 4 µs is skipped. -/
def execReseqTimeout (flow : FlowKey) (fc : FcCycle) (s : State) : Host.Outcome State Fault Refusal :=
  let t := s.atFc fc
  done s (match (t.flowOf flow).gapFc with
    | some n => if n + 6400 ≤ t.fcNow then t.skipGap flow .reseqTimeout else t
    | none => t)

/-- DTD_CREDIT_RETURN (R92): one credit on its way back counts again. -/
def execDtdCreditReturn (port : PortNo) (vc : VcNo) (src : DieNo) (s : State) : Host.Outcome State Fault Refusal :=
  let k := (port.val, vc.val, src.val)
  let back := (aget s.sw.dtdBack k).getD 0
  done s (if back = 0 then s
  else s.setSw fun w => { w with
    dtdBack := aput w.dtdBack k (back - 1), dtdUsed := aput w.dtdUsed k (s.dtdInUse port.val vc.val src.val - 1) })

/-! PKT_OVF (R94) -/

/-- The die may spill and refill: HBM is in use. -/
def State.ovfOn (s : State) (d : Nat) : Bool := s.atStage 2 && !s.fatal && !s.mgmt.hung.contains (hbmReg (2 * d) 0)

/-- Cells that may still move in this tick within 25% of the die's HBM bandwidth. -/
def State.ovfBudget (s : State) (d : Nat) : Nat := ovfCap - (s.die d).ovfMoved

/-- Positions of the spilled cells that refill wants, in order: of each queue with fewer than 64 cells in SRAM, as many
as fill it up. -/
def refillWants : Nat → List Cell → List ((Nat × CellKind × Nat × Nat) × Nat) → Nat → List Nat
  | _, [], _, _ => []
  | d, c :: r, have_, i =>
    if c.cluster / 4 ≠ d then refillWants d r have_ (i + 1)
    else
      let n := (aget have_ c.voq).getD 0
      if n < 64 then (if c.spilled then [i] else []) ++ refillWants d r (aput have_ c.voq (n + 1)) (i + 1)
      else refillWants d r have_ (i + 1)

/-- Change the cells at some positions of the queue. -/
def State.mapCells (s : State) (idx : List Nat) (f : Cell → Cell) : State :=
  s.setSw fun w => { w with voq := w.voq.zipIdx.map fun x => if idx.contains x.2 then f x.1 else x.1 }

/-- Cells moved in this tick. -/
def State.ovfMoves (s : State) (d n : Nat) : State := s.setDie d fun x => { x with ovfMoved := x.ovfMoved + n }

/-- PKT_REFILL (R94): spilled cells come back in order. -/
def execPktRefill (die : DieNo) (s : State) : Host.Outcome State Fault Refusal :=
  let d := die.val
  let idx := (refillWants d s.sw.voq [] 0).take (s.ovfBudget d)
  done s (if s.ovfOn d ∧ idx ≠ [] then
    ((s.mapCells idx fun c => { c with spilled := false }).ovfMoves d idx.length).pmc (fdReg d 0) 0x103 idx.length
  else s)

/-- The youngest `n` positions of the queue that a test passes. -/
def youngest (voq : List Cell) (p : Cell → Bool) (n : Nat) : List Nat :=
  ((voq.zipIdx.filter fun x => p x.1).reverse.take n).map Prod.snd

/-- Cells that one credited (port, VC) gives up: what it holds over 75% of its credit, youngest first. -/
def State.creditSpill (s : State) (p vc : Nat) : List Nat :=
  let excess := s.chargedCells p vc - 3 * s.creditLimit p / 4
  youngest s.sw.voq (fun c => c.charged && c.complete && !c.spilled && c.srcPort == p && c.vc == vc) excess

/-- Cells that SHARED gives up. -/
def State.sharedSpill (s : State) (d : Nat) : List Nat :=
  let excess := s.sharedUsed d - 3 * s.sharedSize d / 4
  youngest s.sw.voq (fun c => c.cluster / 4 == d && c.shared && c.complete && !c.spilled) excess

/-- The (port, VC) pairs of a die that hold charged cells. -/
def State.chargedPairs (s : State) (d : Nat) : List (Nat × Nat) :=
  ((s.sw.voq.filter fun c => c.cluster / 4 == d && c.charged).map fun c => (c.srcPort, c.vc)).eraseDups

/-- PKT_SPILL (R94): cells over 75% of a credited queue, or of SHARED, move to the die's share of PKT_OVF, within what
the share holds and what refill leaves of the bandwidth. Their credits are freed at once. -/
def execPktSpill (die : DieNo) (s : State) : Host.Outcome State Fault Refusal :=
  let d := die.val
  let budget := s.ovfBudget d - (refillWants d s.sw.voq [] 0).length
  let vc3Room := s.ovfVc3Max d - s.sharedSpilled d
  let creditRoom := 33554432 - s.ovfVc3Max d - s.otherSpilled d
  let credited := ((s.chargedPairs d).flatMap fun k => s.creditSpill k.1 k.2).take (min budget creditRoom)
  let shared := (s.sharedSpill d).take (min (budget - credited.length) vc3Room)
  let idx := credited ++ shared
  done s (if s.ovfOn d ∧ idx ≠ [] then
    let freed := credited.filterMap fun i => s.sw.voq[i]?
    let s := s.each freed fun s c => s.freeCredit c.srcPort c.vc 1
    ((s.mapCells idx fun c => { c with spilled := true, charged := false }).ovfMoves d idx.length).pmc
      (fdReg d 0) 0x102 idx.length
  else s)

end Sys2Proof.Machine
end

