-- ==== Sys2Proof/Machine/Identity.lean ====
section
/-! DEFINITION. The device identity: CHIP_ID, the identity key and the device certificate (R330, R331). -/

namespace Sys2Proof.Machine

/-- CHIP_ID, the device serial number. -/
def chipId : Nat := Sys2Proof.Config.serial.toNat

/-- The identity private key (R330). -/
def identityKey : Bytes := (hmac512 Sys2Proof.Config.uniqueSecret (ascii "WZ5 DEVICE IDENTITY")).take 32

/-- The device certificate of 208 bytes (R331). -/
def devCert : Bytes :=
  beBytes 4 0x575A4443 ++ beBytes 2 1 ++ beBytes 2 0x00B0 ++ beBytes 8 chipId ++ fit 32 (edPublic identityKey)
    ++ fit 32 Sys2Proof.Config.issuerKey ++ fit 64 Sys2Proof.Config.issuerSig ++ fit 64 Sys2Proof.Config.rootSig

/-- A device certificate holds under a root key: ROOT_SIG, then ISSUER_SIG (R331). -/
def certGood (root c : Bytes) : Bool :=
  c.length == 208 && fld c 0 4 == 0x575A4443 && fld c 4 2 == 1
    && edVerify root (ascii "WZ5ISSU1" ++ sub c 48 32) (sub c 144 64)
    && edVerify (sub c 48 32) (ascii "WZ5DEVC1" ++ c.take 80) (sub c 80 64)

/-- DEVICE_KEY and CHIP_ID of a certificate. -/
def certKey (c : Bytes) : Bytes := sub c 16 32
def certChip (c : Bytes) : Nat := fld c 8 8

end Sys2Proof.Machine
end

