-- ==== Sys2Proof/Machine/Kite.lean ====
section
/-! DEFINITION. The Kite crossbar (R168 to R172): the four moments of a switch, circuits, release and monitors. -/

namespace Sys2Proof.Machine

/-- KITE.STATE is LULL: a switch is under way (R170). -/
def State.kiteLull (s : State) : Bool := s.cal.kites.any fun k => k.phase == .switched || k.phase == .settled

/-- Change the event of a tick that stands in a phase. -/
def State.setKite (s : State) (k : KiteEvent) (f : KiteEvent → KiteEvent) : State :=
  s.setCalSt fun c => { c with kites := c.kites.map fun x => if x.at_ == k.at_ then f x else x }

/-- The map without some fibers. -/
def dropFibers (m : Bytes) (fs : List Nat) : Bytes := fs.foldl (fun m f => m.set f 0) m

/-- Fibers that enter a circuit, and fibers that return to the chip. -/
def State.entering (s : State) (m : Bytes) : List Nat :=
  (List.range 32).filter fun f => (kitePartner m f).isSome && (kitePartner s.kiteMap f).isNone
def State.leaving (s : State) (m : Bytes) : List Nat :=
  (List.range 32).filter fun f => (kitePartner m f).isNone && (kitePartner s.kiteMap f).isSome

/-- Ports that lead on a fiber. -/
def State.fiberPorts (s : State) (f : Nat) : List Nat := ((List.range 4).map (4 * f + ·)).filter s.leads

/-- At KITE_TICK − 1 (R170): fibers that a spare carries are dropped with their partners. -/
def State.kitePrepareEvent (s : State) (k : KiteEvent) : State :=
  let spared := (List.range 32).filter fun f => (kitePartner k.map f).isSome && s.fiberOnSpare f
  let drop := (spared ++ spared.filterMap (kitePartner k.map)).eraseDups
  let s := s.setKite k fun x => { x with map := dropFibers x.map drop, dropped := sortBy id drop, phase := .prepared }
  match sortBy id drop with
  | [] => s
  | f :: rest =>
    (s.bset (kiteReg 0x120) 0 true).alarm (kiteReg 0) 24 0x1001 f (rest.map fun g => condLink 0x1001 g)

/-- Ports on an entering fiber go to KITE: queues discarded, lanes in KITE, receive rings held (R170). -/
def State.enterKite (s : State) (f : Nat) : State :=
  let s := s.each (s.fiberPorts f) fun s p =>
    if (s.port p).enabled then
      let s := s.setPort p fun x => { x with kite := true, up := false }
      ((s.discardQueued p .kiteDiscard).dropArrivals p).clearCredits p
    else s
  s.each (List.range 9) fun s w =>
    match s.laneOnRx f w with
    | some l =>
      let s := s.changeLane l fun x => { x with state := .kite }
      if s.rxRing f w = .locked then s.putRing (rxRingOf f w) { state := .hold } else s
    | none => s

/-- At KITE_TICK (R170). -/
def State.kiteSwitchEvent (s : State) (k : KiteEvent) : State :=
  (s.each (s.entering k.map) State.enterKite).setKite k fun x => { x with phase := .switched }

/-- At KITE_TICK + 49 the map is in force. Fibers that return are noted for the next tick (R170). -/
def State.kiteSettleEvent (s : State) (k : KiteEvent) : State :=
  let back := s.leaving k.map
  let s := (s.setKiteMap k.map).setKite k fun x => { x with phase := .settled }
  s.setPho fun p => { p with returning := p.returning ++ back.filter fun f => !p.returning.contains f }

/-- The lanes of a returning fiber lock on their home carriers again, and their ports leave KITE (R170). -/
def State.leaveKite (s : State) (f : Nat) : State :=
  let s := s.each (s.fiberPorts f) fun s p => s.setPort p fun x => { x with kite := false, goodSince := s.clk.up }
  s.each (List.range 8) fun s w =>
    let l := 8 * f + w
    if (s.lane l).state = .kite then
      (s.changeLane l fun x =>
        { x with state := .locking, tx := some (f, w), rx := some (f, w), withdrawn := false, moving := none }).relane l
    else s

/-- At KITE_TICK + 50 (R170): returning fibers resume, and the event is over. -/
def State.kiteLitEvent (s : State) (k : KiteEvent) : State :=
  let back := s.pho.returning.filter fun f => (s.fiberPorts f).any (fun p => (s.port p).kite)
    || (List.range 8).any fun w => (s.lane (8 * f + w)).state == .kite
  let s := s.each back State.leaveKite
  let s := s.rset (kiteReg 0x124) (s.rget (kiteReg 0x124) &&&
    ((List.range 32).foldl (fun n f => n + b2n (kitePartner s.kiteMap f).isSome * 2 ^ f) 0))
  s.setCalSt fun c => { c with kites := c.kites.filter fun x => x.at_ != k.at_ }

/-- The event in a phase whose KITE_TICK lies `n` ticks back (or one ahead, for the preparation). -/
def State.kiteDue (s : State) (phase : KitePhase) (at_ : TickNo) : Option KiteEvent :=
  s.cal.kites.find? fun k => k.phase == phase && k.at_ == at_

/-- KITE_PREPARE (R170). -/
def execKitePrepare (s : State) : Host.Outcome State Fault Refusal :=
  done s ((s.kiteDue .armed (s.tickPlus 1)).elim s s.kitePrepareEvent)

/-- KITE_SWITCH (R170): an event that was not prepared (its KITE_TICK was the next tick) is prepared first. -/
def execKiteSwitch (s : State) : Host.Outcome State Fault Refusal :=
  done s (match s.kiteDue .prepared s.clk.tick with
    | some k => s.kiteSwitchEvent k
    | none =>
      match s.kiteDue .armed s.clk.tick with
      | some k =>
        let s := s.kitePrepareEvent k
        (s.kiteDue .prepared s.clk.tick).elim s s.kiteSwitchEvent
      | none => s)

/-- KITE_SETTLED (R170). -/
def execKiteSettled (s : State) : Host.Outcome State Fault Refusal :=
  done s ((s.kiteDue .switched (s.clk.tick - 49)).elim s s.kiteSettleEvent)

/-- KITE_CIRCUIT_LIT (R170). -/
def execKiteCircuitLit (s : State) : Host.Outcome State Fault Refusal :=
  done s ((s.kiteDue .settled (s.clk.tick - 50)).elim s s.kiteLitEvent)

/-- RELEASE (R172): refused in LULL; else every event not yet begun goes and one at the next tick returns every
fiber. -/
def State.kiteRelease (s : State) : State × Code :=
  if s.kiteLull then (s, .busy)
  else
    (s.disarmKites.setCalSt fun c => { c with
      kites := [{ at_ := s.tickPlus 1, map := zeros 32, ports := [], phase := .prepared }] }, .ok)

/-- KITE_MONITOR_SAMPLE (R171): input and output powers of fibers 0 to 31, in 0.01 dBm. -/
def execKiteMonitorSample (powIn powOut : List Int) (s : State) : Host.Outcome State Fault Refusal :=
  let circuits := (List.range 32).filter fun f => (kitePartner s.kiteMap f).isSome
  let s' := s.each circuits fun s f =>
    (s.rset (kiteReg (0x180 + 4 * f)) (wrap 16 (powIn.getD f 0))).rset (kiteReg (0x200 + 4 * f)) (wrap 16 (powOut.getD f 0))
  let dim := circuits.filter fun f => decide (powIn.getD f 0 < -2000)
  let dark := circuits.filter fun f => dim.contains f || (kitePartner s.kiteMap f).elim false dim.contains
  let word := (List.range 32).foldl (fun n f => n + b2n (dark.contains f) * 2 ^ f) 0
  let fresh := dim.filter fun f => !s.bget (kiteReg 0x124) f
  done s ((s'.rset (kiteReg 0x124) word).each fresh fun s f => s.alarm (kiteReg 0) 16 0x1002 f)

end Sys2Proof.Machine
end

