-- ==== Sys2Proof/Machine/UuAlu.lean ====
section
/-! DEFINITION. The Update Unit's instruction set: the instruction word (R248, R250), its decoding
with the checks of R262, and the binary32 arithmetic of each lane (R249 to R255). -/

namespace Sys2Proof.Machine

/-- R249: the opcodes, DIGEST and END among them. -/
inductive UuOp where
  | nop | ld | st | fadd | fsub | fmul | ffma | fmin | fmax | fabs | fneg | frcp | frsqrt | fsqrt
  | fdiv | cmp | sel | cvt | srnd | digest | fin
deriving DecidableEq, Repr

/-- R249: the operation of an opcode; other codes are reserved. -/
def UuOp.ofCode (c : Nat) : Option UuOp :=
  match c with
  | 0x00 => some .nop | 0x01 => some .ld | 0x02 => some .st | 0x04 => some .fadd | 0x05 => some .fsub
  | 0x06 => some .fmul | 0x07 => some .ffma | 0x08 => some .fmin | 0x09 => some .fmax | 0x0A => some .fabs
  | 0x0B => some .fneg | 0x0C => some .frcp | 0x0D => some .frsqrt | 0x0E => some .fsqrt | 0x0F => some .fdiv
  | 0x10 => some .cmp | 0x11 => some .sel | 0x12 => some .cvt | 0x13 => some .srnd | 0x14 => some .digest
  | 0x3F => some .fin | _ => none

/-- R248: the fields of an instruction word. -/
structure UuInstr where
  op : UuOp
  dst : Nat
  src1 : Nat
  src2 : Nat
  src3 : Nat
  mod : Nat
deriving DecidableEq, Repr

/-- R248: the fields of a word whose opcode is defined. -/
def uuFields (w : Nat) : Option UuInstr :=
  (UuOp.ofCode (bits w 31 26)).map (fun op =>
    { op := op, dst := bits w 25 21, src1 := bits w 20 16, src2 := bits w 15 11, src3 := bits w 10 6, mod := bits w 5 0 })

/-- Whether the opcode uses SRC1, SRC2, SRC3 and DST (R249). -/
def UuOp.uses : UuOp → Bool × Bool × Bool × Bool
  | .nop | .fin => (false, false, false, false)
  | .ld => (false, false, false, true)
  | .st => (true, false, false, false)
  | .fadd | .fsub | .fmul | .fmin | .fmax | .fdiv | .cmp => (true, true, false, true)
  | .ffma | .sel => (true, true, true, true)
  | .fabs | .fneg | .frcp | .frsqrt | .fsqrt | .cvt | .srnd => (true, false, false, true)
  | .digest => (true, true, true, false)

/-- R250: whether MOD bits 5:4 are KSEL for the opcode. -/
def UuOp.hasKsel : UuOp → Bool
  | .fadd | .fsub | .fmul | .ffma | .fmin | .fmax | .fdiv | .cmp | .sel => true
  | .nop | .ld | .st | .fabs | .fneg | .frcp | .frsqrt | .fsqrt | .cvt | .srnd | .digest | .fin => false

/-- R255: a format field of CVT and SRND: a code of R211, or 0xF for OUT_FMT. -/
def cvtFmtOk (c : Nat) : Bool := decide (c ≤ 0xA) || c == 0xF

/-- R250, R253, R255: MOD and unused fields are as the opcode requires (check 7 of R262). -/
def UuInstr.valid (i : UuInstr) : Bool :=
  let u := i.op.uses
  let k2 := i.op.hasKsel && bit i.mod 4
  let k3 := i.op.hasKsel && bit i.mod 5
  let srcOk := (u.1 || i.src1 == 0)
    && (u.2.1 || i.src2 == 0) && (u.2.2.1 || i.src3 == 0) && (u.2.2.2 || i.dst == 0)
    && (!k2 || decide (i.src2 < 16)) && (!k3 || decide (i.src3 < 16))
  let modOk := match i.op with
    | .nop | .fin | .fabs | .fneg | .frcp | .frsqrt | .fsqrt => i.mod == 0
    | .ld => decide (i.mod < 6)
    | .st => decide (i.mod < 4)
    | .fadd | .fsub | .fmul | .ffma | .fmin | .fmax | .fdiv | .sel => bits i.mod 3 0 == 0
    | .cmp => !(bit i.mod 5) && decide (bits i.mod 3 0 ≤ 7) && (bits i.mod 3 0 != 7 || (i.src2 == 0 && !(bit i.mod 4)))
    | .cvt | .srnd => cvtFmtOk (bits i.mod 3 0)
    | .digest => decide (1 ≤ i.mod) && decide (i.mod ≤ 3) && (decide (3 ≤ i.mod) || i.src3 == 0)
        && (decide (2 ≤ i.mod) || i.src2 == 0)
  srcOk && modOk

/-- R257: the issue class of an opcode: arithmetic, load, store, or none (END). -/
inductive UuClass where
  | arith | load | store | none
deriving DecidableEq, Repr

/-- R249: the class column. -/
def UuOp.cls : UuOp → UuClass
  | .ld => .load
  | .st => .store
  | .fin => .none
  | .nop | .fadd | .fsub | .fmul | .ffma | .fmin | .fmax | .fabs | .fneg | .frcp | .frsqrt | .fsqrt
  | .fdiv | .cmp | .sel | .cvt | .srnd | .digest => .arith

/-- R257: the cost of one pass, C = max(A, L, S), in EC cycles. -/
def passCost (is : List UuInstr) : Nat :=
  let n := fun c => (is.filter (fun i => i.op.cls == c)).length
  max (n .arith) (max (n .load) (n .store))

/-! ### Binary32 arithmetic (R251, R252) -/

/-- The value of a binary32 word. -/
def f32 (w : Nat) : Val := decodeFloat .fp32 (w % 2 ^ 32)

/-- A value rounded to binary32 by RNE, NaN canonical (R251). -/
def toF32 (v : Val) : Nat := (roundTo .fp32 .rne false 0 v).code

/-- Exact sum of two values; an exact zero is +0 except of two −0 addends (R252). -/
def addVal : Val → Val → Val
  | .nan, _ => .nan
  | _, .nan => .nan
  | .inf a, .inf b => if a = b then .inf a else .nan
  | .inf a, _ => .inf a
  | _, .inf b => .inf b
  | .fin a s e, .fin b t g =>
    let q := if e ≤ g then e else g
    let x : Int := (s * 2 ^ (e - q).toNat : Nat)
    let y : Int := (t * 2 ^ (g - q).toNat : Nat)
    let z := (if a then -x else x) + (if b then -y else y)
    if z = 0 then .fin (a && b && s == 0 && t == 0) 0 0
    else .fin (decide (z < 0)) z.natAbs q

/-- Negation of a value. -/
def negVal : Val → Val
  | .nan => .nan
  | .inf a => .inf (!a)
  | .fin a s e => .fin (!a) s e

/-- Quotient of two values with a sticky last bit, exact enough for one rounding (R251, R252). -/
def divVal : Val → Val → Val
  | .nan, _ => .nan
  | _, .nan => .nan
  | .inf _, .inf _ => .nan
  | .inf a, .fin b _ _ => .inf (a != b)
  | .fin a _ _, .inf b => .fin (a != b) 0 0
  | .fin a s e, .fin b t g =>
    if t = 0 then (if s = 0 then .nan else .inf (a != b))
    else if s = 0 then .fin (a != b) 0 0
    else
      let n := s * 2 ^ 96
      let q := n / t
      .fin (a != b) (2 * q + (if n % t = 0 then 0 else 1)) (e - g - 97)

/-- Integer square root by bits, from bit `k − 1` down. -/
def isqrtBits : Nat → Nat → Nat → Nat
  | 0, _, r => r
  | k + 1, n, r =>
    let c := r + 2 ^ k
    isqrtBits k n (if c * c ≤ n then c else r)

/-- Floor of the square root. -/
def isqrt (n : Nat) : Nat := isqrtBits (n.log2 / 2 + 1) n 0

/-- R252: square root with a sticky last bit. -/
def sqrtVal : Val → Val
  | .nan => .nan
  | .inf true => .nan
  | .inf false => .inf false
  | .fin a s e =>
    if s = 0 then .fin a 0 0
    else if a then .nan
    else
      let odd := (e % 2 != 0)
      let n := (if odd then 2 * s else s) * 2 ^ 128
      let e' := (if odd then e - 1 else e)
      let r := isqrt n
      .fin false (2 * r + (if r * r = n then 0 else 1)) (e' / 2 - 65)

/-- R252: reciprocal square root with a sticky last bit. -/
def rsqrtVal : Val → Val
  | .nan => .nan
  | .inf true => .nan
  | .inf false => .fin false 0 0
  | .fin a s e =>
    if s = 0 then .inf a
    else if a then .nan
    else
      let odd := (e % 2 != 0)
      let m := if odd then 2 * s else s
      let e' := (if odd then e - 1 else e)
      let n := 2 ^ 192 / m
      let r := isqrt n
      .fin false (2 * r + (if r * r * m = 2 ^ 192 then 0 else 1)) (-(e' / 2) - 97)

/-- Whether a value is NaN. -/
def Val.isNan : Val → Bool
  | .nan => true
  | .inf _ | .fin _ _ _ => false

/-- R253: the conditions of CMP. -/
def cmpTrue (cond a b : Nat) : Bool :=
  let x := f32 a
  let y := f32 b
  let un := x.isNan || y.isNan
  let z (v : Val) : Val := match v with
    | .fin _ 0 _ => .fin false 0 0
    | w => w
  let lt := valLess (z x) (z y)
  let gt := valLess (z y) (z x)
  match cond with
  | 0 => !un && !lt && !gt
  | 1 => un || lt || gt
  | 2 => !un && lt
  | 3 => !un && !gt
  | 4 => !un && gt
  | 5 => !un && !lt
  | 6 => un
  | _ => match x with
    | .fin _ _ _ => true
    | .inf _ | .nan => false

/-- R249, R251 to R253: the result of a lane of an arithmetic instruction on operand words. -/
def laneOp (op : UuOp) (cond a b c : Nat) : Nat :=
  match op with
  | .fadd => toF32 (addVal (f32 a) (f32 b))
  | .fsub => toF32 (addVal (f32 a) (negVal (f32 b)))
  | .fmul => toF32 (mulVal (f32 a) (f32 b))
  | .ffma => toF32 (addVal (mulVal (f32 a) (f32 b)) (f32 c))
  | .fmin => toF32 (minVal (f32 a) (f32 b))
  | .fmax => toF32 (maxVal (f32 a) (f32 b))
  | .fabs => match f32 a with
    | .nan => nanCode .fp32
    | .inf _ | .fin _ _ _ => a % 2 ^ 31
  | .fneg => match f32 a with
    | .nan => nanCode .fp32
    | .inf _ | .fin _ _ _ => (a + 2 ^ 31) % 2 ^ 32
  | .frcp => toF32 (divVal (.fin false 1 0) (f32 a))
  | .frsqrt => toF32 (rsqrtVal (f32 a))
  | .fsqrt => toF32 (sqrtVal (f32 a))
  | .fdiv => toF32 (divVal (f32 a) (f32 b))
  | .cmp => if cmpTrue cond a b then 0xFFFFFFFF else 0
  | .sel => if c = 0 then b else a
  | .nop | .ld | .st | .cvt | .srnd | .digest | .fin => 0

/-- R255: how a conversion rounds. -/
structure CvtMode where
  fmt : Fmt
  mode : RoundMode
  sat : Bool
  seed : BitVec 64
deriving DecidableEq, Repr

/-- R255: the mode of CVT and SRND under a context's OUT_FMT, ROUND, SAT and SEED. -/
def cvtMode (i : UuInstr) (out : Fmt) (round : RoundMode) (sat : Bool) (seed : BitVec 64) : CvtMode :=
  let f := (Fmt.ofCode (bits i.mod 3 0)).getD out
  let m := bits i.mod 5 4
  if i.op = .srnd then
    { fmt := f, mode := .stoch, sat := sat, seed := seed ^^^ BitVec.ofNat 64 ((m + 1) * 2 ^ 60) }
  else match m with
  | 0 => { fmt := f, mode := .rne, sat := false, seed := seed }
  | 1 => { fmt := f, mode := .rtz, sat := false, seed := seed }
  | 2 => { fmt := f, mode := round, sat := sat, seed := seed }
  | _ => { fmt := f, mode := .rne, sat := true, seed := seed }

/-- R255: the 64 lanes of pass `p` converted; with the counts for OUT_OVERFLOW and MX_CLAMP. -/
def convertLanes (m : CvtMode) (step chunk p : Nat) (lanes : List Nat) : List Nat × Nat × Nat :=
  let vals := lanes.map f32
  let drawAt := fun l => (drawOf m.seed step chunk (64 * p + l)).toNat
  let idx := (List.range lanes.length).zip vals
  if m.fmt.isMx then
    let s0 := blockScale m.fmt (vals.take 32)
    let s1 := blockScale m.fmt (vals.drop 32)
    let rs := idx.map (fun lv => (lv.1, roundMx m.fmt m.mode (drawAt lv.1) (if lv.1 < 32 then s0 else s1) lv.2))
    (rs.map (fun r => r.2.code + 256 * (if r.1 < 32 then s0 else s1)), 0, (rs.filter (fun r => r.2.clamp)).length)
  else if m.fmt = .fp32 then
    (idx.map (fun lv => if lv.2.isNan then nanCode .fp32 else lanes.getD lv.1 0), 0, 0)
  else
    let rs := idx.map (fun lv => roundTo m.fmt m.mode m.sat (drawAt lv.1) lv.2)
    (rs.map (fun r => r.code), (rs.filter (fun r => r.overflow)).length, 0)

/-- R254: an element of a plane or of GRAD decoded into binary32. -/
def planeLoad (f : Fmt) (code : Nat) : Nat :=
  match f with
  | .bf16 => code * 65536
  | .fp16 => toF32 (decodeFloat .fp16 code)
  | _ => code

/-- R254: whether an element code is a NaN of its format. -/
def isNanCode (f : Fmt) (code : Nat) : Bool :=
  !f.isMx && (decodeFloat f (code % 2 ^ f.width)).isNan || (f == .mxE4m3 || f == .mxE5m2) && (decodeFloat f (code % 256)).isNan

end Sys2Proof.Machine
end

