-- ==== Sys2Proof/Machine/EngineOps.lean ====
section
/-! DEFINITION. Reduction engines (chapter 9): what a tile computes, its checksum, the issue of tiles (R194, R195),
reruns (R233), and BIST, repair and power states (R235 to R240). -/

namespace Sys2Proof.Machine

/-! What a tile computes (R217 to R232) -/

/-- The operation of a context. -/
def State.redOp (s : State) (c : Nat) : RedOp :=
  match s.ctxOp c with
  | 0 => .sum | 1 => .scaledSum | 2 => .weightedSum | 3 => .min | 4 => .max | _ => .transport

/-- Operations that compare instead of adding. -/
def RedOp.extreme (o : RedOp) : Bool := o == .min || o == .max

/-- The contributions of a slot in ascending member order. -/
def Slot.members (x : Slot) : List Contribution := sortBy Contribution.member x.contribs

/-- Coefficient of a member (R218). -/
def State.coefficient (s : State) (c : Nat) (k : Contribution) : Val :=
  match s.redOp c with
  | .scaledSum => decodeFloat .fp32 (s.rget (ctxReg c 0x11C))
  | .weightedSum => decodeFloat .fp32 k.weight
  | _ => .fin false 1 0

/-- Coefficient and element `i` of each member. -/
def State.columnTerms (s : State) (x : Slot) (i : Nat) : List (Val × Val) :=
  x.members.map fun k => (s.coefficient x.ctx k, payloadElem (s.inFmt x.ctx) k.payload i)

/-- Equal in value. -/
def sameVal (a b : Val) : Bool := !valLess a b && !valLess b a

/-- What the latch of a MIN or MAX column holds: the extreme of its elements that are not NaN. -/
def latchOf (op : RedOp) (vs : List Val) : Option Val :=
  vs.foldl (fun (b : Option Val) v =>
    if v.isNan then b
    else match b with
      | none => some v
      | some w => some (if op = .min then minVal w v else maxVal w v)) none

/-- A latch that ends off by `delta` units of 2^-298; a latch that holds an infinity is untouched. -/
def shiftLatch (delta : Int) : Val → Val
  | .fin neg sig exp => if delta = 0 then .fin neg sig exp else ofAcc (accTerm (.fin neg sig exp) + delta)
  | v => v

/-- The latch of each column of a column group, after a fault in column `col` (R232). -/
def faultLatches (col : Nat) (delta : Int) (ls : List (Option Val)) : List (Option Val) :=
  ls.zipIdx.map fun x => if x.2 = col then x.1.map (shiftLatch delta) else x.1

/-- The checksum comparison of a MIN or MAX column group (R232). -/
def extremeHolds (op : RedOp) (col : Nat) (delta : Int) (ls : List (Option Val)) : Bool :=
  let true_ := latchOf op (ls.filterMap id)
  let check := if col = 128 then true_.map (shiftLatch delta) else true_
  match latchOf op ((faultLatches col delta ls).filterMap id), check with
  | some a, some b => sameVal a b
  | none, none => true
  | _, _ => false

/-- The latches of column group `g` of a chunk. -/
def State.groupLatches (s : State) (x : Slot) (g : Nat) : List (Option Val) :=
  (List.range 128).map fun j => latchOf (s.redOp x.ctx) ((s.columnTerms x (128 * g + j)).map Prod.snd)

/-- Column groups of a tile. -/
def State.tileGroupsOf (s : State) (c t : Nat) : List Nat :=
  let gt := s.groupsPerTile c
  (List.range (min gt (colGroups (s.elems c) - t * gt))).map (t * gt + ·)

/-- R232: the tile passes. A fault in a sum shows unless it moves nothing. -/
def State.tilePasses (s : State) (x : Slot) (t : Nat) : TileFault → Bool
  | .none => true
  | .latch group col delta =>
    let gs := s.tileGroupsOf x.ctx t
    match gs[group]? with
    | none => true
    | some g =>
      if (s.redOp x.ctx).extreme then extremeHolds (s.redOp x.ctx) col delta (s.groupLatches x g)
      else delta == 0 || decide (128 < col)

/-- The exact result of element `i`; a fault that the checksum does not see stays in its latch. -/
def State.elementResult (s : State) (x : Slot) (t : Nat) (fault : TileFault) (i : Nat) : Val :=
  let terms := s.columnTerms x i
  let v := columnResult (s.redOp x.ctx) terms
  match fault with
  | .latch group col delta =>
    if (s.redOp x.ctx).extreme && !v.isNan && decide (i % 128 = col)
        && (s.tileGroupsOf x.ctx t)[group]? == some (i / 128) then shiftLatch delta v else v
  | .none => v

/-- Members that supplied a NaN operand of a NaN product (R221). -/
def State.nanSource (s : State) (x : Slot) (i : Nat) : Option Nat :=
  let op := s.redOp x.ctx
  (x.members.find? fun k =>
    let e := payloadElem (s.inFmt x.ctx) k.payload i
    let w := s.coefficient x.ctx k
    if op.extreme then e.isNan
    else (mulVal w e).isNan && (e.isNan || (op == .weightedSum && w.isNan)
      || (match e, w with | .inf _, .fin _ 0 _ => true | _, _ => false))).map Contribution.member

/-- The NaN of element `i` comes from a NaN product (R220 step 1), not from infinities that cancel. -/
def State.nanProduct (s : State) (x : Slot) (i : Nat) : Bool :=
  (s.columnTerms x i).any fun t => if (s.redOp x.ctx).extreme then t.2.isNan else (mulVal t.1 t.2).isNan

/-- Bytes and counts of a tile's results. -/
structure TileOut where
  bytes : Bytes := []
  overflow : Nat := 0
  clamps : Nat := 0
  deriving DecidableEq, Repr

/-- The draw of an element (R228). -/
def State.drawFor (s : State) (x : Slot) (i : Nat) : Nat := (drawOf (s.ctxSeed x.ctx) x.step x.chunk i).toNat

/-- Results of the elements of a tile rounded into a non-MX format (R222 to R225). -/
def State.roundPlain (s : State) (x : Slot) (f : Fmt) (mode : RoundMode) (sat : Bool) (vs : List (Nat × Val)) : TileOut :=
  vs.foldl (fun o v =>
    let r := roundTo f mode sat (s.drawFor x v.1) v.2
    { o with bytes := o.bytes ++ beBytes (f.width / 8) r.code, overflow := o.overflow + b2n r.overflow }) {}

/-- One column group rounded into an MX super-block (R226, R227). -/
def State.roundSuper (s : State) (x : Slot) (f : Fmt) (mode : RoundMode) (vs : List (Nat × Val)) : TileOut :=
  let blocks := [0, 1, 2, 3].map fun b => (vs.drop (32 * b)).take 32
  let scales := blocks.map fun b => blockScale f (b.map Prod.snd)
  let rs := (blocks.zip scales).flatMap fun b => b.1.map fun v => roundMx f mode (s.drawFor x v.1) b.2 v.2
  { bytes := superBlockBytes f scales (rs.map Rounded.code), clamps := (rs.filter Rounded.clamp).length }

/-- The results of a tile that passed: FP32 by RNE for an update (R223), else rounded once to OUT_FMT. -/
def State.tileResults (s : State) (x : Slot) (t : Nat) (fault : TileFault) : TileOut :=
  let c := x.ctx
  let group := fun g => (List.range 128).map fun j => (128 * g + j, s.elementResult x t fault (128 * g + j))
  let gs := s.tileGroupsOf c t
  if s.updates c then s.roundPlain x .fp32 .rne false (gs.flatMap group)
  else if (s.outFmt c).isMx then
    gs.foldl (fun (o : TileOut) g =>
      let r := s.roundSuper x (s.outFmt c) (s.roundMode c) (group g)
      { o with bytes := o.bytes ++ r.bytes, clamps := o.clamps + r.clamps }) {}
  else s.roundPlain x (s.outFmt c) (s.roundMode c) (s.satMode c) (gs.flatMap group)

/-- Special values of a tile counted in the context (R221). -/
def State.countSpecials (s : State) (x : Slot) (t : Nat) (fault : TileFault) : State :=
  let c := x.ctx
  let es := (s.tileGroupsOf c t).flatMap fun g => (List.range 128).map (128 * g + ·)
  let nans := es.filter fun i => (s.elementResult x t fault i).isNan
  let prods := nans.filter (s.nanProduct x)
  let s := (s.ctxCtr .nanCount c prods.length).ctxCtr .infCancel c (nans.length - prods.length)
  match prods.getLast? with
  | some i => s.rset (ctxReg c 0x190) ((s.nanSource x i).getD 0xFFFF)
  | none => s

/-! Power, BIST and repair (R235 to R240) -/

/-- Set ENG.STATE.STATE. -/
def State.setEngState (s : State) (e v : Nat) : State := s.fset (engReg e 0x00C) 3 0 v

/-- A BIST pass starts (R236). `judged`: in Stage D, or of a quarantined engine (R240). -/
def State.startEngBist (s : State) (e : Nat) (judged : Bool) : State :=
  let s := ((s.setEngState e 2).rset (engReg e 0x104) 0).bump32 (engReg e 0x128)
  s.setEng e fun x => { x with bistAsked := false, pendingRepair := none, judged := judged, bistUp := s.clk.up }

/-- QUARANTINED (R233, R238), with its HEALTH bit. -/
def State.quarantineEng (s : State) (e : Nat) (links : List AerLink := []) : State :=
  (s.setEngState e 3).alarm (engReg e 0) 17 0x0B02 e links

/-- The repair map of META is reloaded (R239). -/
def State.reloadRepair (s : State) (e : Nat) : State :=
  match mget s.fuse.repairs e with
  | some v => s.rset (engReg e 0x100) v.toNat
  | none => s

/-- UNGATE and Stage D (R235): the map is reloaded, then BIST. -/
def State.ungateEng (s : State) (e : Nat) (judged : Bool) : State :=
  if s.engState e = 4 then (s.reloadRepair e).startEngBist e judged else s

/-- The placement of an enabled context names the engine (R236). -/
def State.engNamed (s : State) (e : Nat) : Bool :=
  s.enabledCtxs.any fun c => (s.ctx c).holds.any fun p =>
    p.core == e / 4 && (List.range (min 4 (s.tiles c))).any fun t => bankOf p.engine t == e % 4

/-- ENG.CTRL.GATE (R236): from another state it is refused as while a placement names the engine. -/
def State.gateEng (s : State) (e : Nat) : State × Code :=
  match s.engState e with
  | 4 => (s, .ok)
  | 0 | 3 => if s.engNamed e then (s, .busy) else (s.setEngState e 4, .ok)
  | _ => (s, .busy)

/-- ENG.CTRL.RELEASE (R236). -/
def State.releaseEng (s : State) (e : Nat) : State := if s.engState e = 3 then s.startEngBist e true else s

/-- ENG.CTRL.BIST (R236): at the next idle boundary. -/
def State.bistEng (s : State) (e : Nat) : State × Code :=
  match s.engState e with
  | 2 | 4 => (s, .busy)
  | 1 | 5 => (s.setEng e fun x => { x with bistAsked := true }, .ok)
  | st => (s.startEngBist e (st == 3), .ok)

/-- A repair map is in force. -/
def State.repaired (s : State) (e : Nat) : Bool :=
  ((s.eng e).pendingRepair.getD (BitVec.ofNat 32 (s.rget (engReg e 0x100)))).getLsbD 31

/-- A new map is written (R236 to R239): it clears FACTORY, is kept in META, and takes effect at an idle boundary
with a BIST. -/
def State.newRepair (s : State) (e valid row : Nat) : State :=
  let v := valid * 2 ^ 31 + row % 16
  let old := BitVec.ofNat 32 (s.rget (engReg e 0x100))
  let s := (s.rset (engReg e 0x100) v).setFuse fun f => { f with repairs := mput f.repairs e (BitVec.ofNat 32 v) }
  match s.engState e with
  | 4 => s
  | 1 => s.setEng e fun x => { x with pendingRepair := some (x.pendingRepair.getD old) }
  | _ => s.startEngBist e false

/-- A write of ENG.REPAIR (R236). -/
def State.writeRepair (s : State) (e v : Nat) : State × Code :=
  let old := s.rget (engReg e 0x100)
  if s.engState e = 2 then (s, .busy)
  else if bits old 31 31 = bits v 31 31 ∧ bits old 3 0 = bits v 3 0 then (s, .ok)
  else (s.newRepair e (bits v 31 31) (bits v 3 0), .ok)

/-- BIST_RESULT and FAULT_ROW of what a pass found under the map in force (R236, R238): the row that is mapped out
does not count, nor the spare row while no repair is in force. -/
def bistOutcome (found : BistFound) (unused : Nat) : Nat × Nat :=
  let seen := ((found.rows.map Fin.val).filter (· != unused)).eraseDups
  if found.column then (4, 0x1F) else if found.feeder then (5, 0x1F) else if found.accum then (6, 0x1F)
  else match seen with
    | [] => (1, 0x1F)
    | [r] => (2, r)
    | _ => (3, 0x1F)

/-- A BIST pass ends (R236, R238, R240). -/
def State.endEngBist (s : State) (e : Nat) (found : BistFound) : State :=
  let fixed := s.repaired e
  let r := bistOutcome found (if fixed then s.fget (engReg e 0x100) 3 0 else 16)
  let spare := found.rows.any fun x => x.val == 16
  let st := b2n spare * 2 ^ 21 + r.2 * 2 ^ 16 + r.1 * 2 ^ 8
  let judged := (s.eng e).judged
  if r.1 = 1 then s.rset (engReg e 0x00C) st
  else
    let s := (s.rset (engReg e 0x00C) st).quarantineEng e
    if judged && r.1 == 2 && !spare && !fixed then
      (s.alarm (engReg e 0) 16 0x0B03 r.2).newRepair e 1 r.2
    else s

/-! Issue of tiles (R194, R195, R233, R234) -/

/-- The engine, or the next usable one of its core in rotation (R234). -/
def State.pickEngine (s : State) (e : Nat) : Option Nat :=
  ((List.range 4).map fun k => e / 4 * 4 + (e + k) % 4).find? s.engUsable

/-- The engine may take a tile now. -/
def State.engFree (s : State) (e : Nat) : Bool :=
  s.engState e == 0 && decide ((s.eng e).restUp ≤ s.clk.up) && !(s.eng e).bistAsked

/-- Engine on which a failed tile runs again (R233): another usable engine in rotation after the failing one, after
the third failure the usable engines in rotation. -/
def State.rerunEngine (s : State) (t : Tile) : Option Nat :=
  match t.failed.getLast? with
  | none => none
  | some e =>
    let order := (List.range 4).map fun k => e / 4 * 4 + (e + 1 + k) % 4
    let other := if t.failed.length < 3 then order.find? fun x => s.engUsable x && !t.failed.contains x else none
    match other with
    | some x => some x
    | none => order.find? s.engUsable

/-- Engine that a waiting tile of a slot would take. -/
def State.tileEngine (s : State) (x : Slot) (t : Tile) : Option Nat :=
  if t.failed.isEmpty then
    let first := match s.placeOf x.ctx x.chunk with | some p => p.engine | none => 4 * x.core
    s.pickEngine (4 * x.core + bankOf first t.index)
  else s.rerunEngine t

/-- Change one tile of a slot. -/
def Slot.setTile (x : Slot) (i : Nat) (f : Tile → Tile) : Slot :=
  { x with tiles := x.tiles.map fun t => if t.index = i then f t else t }

/-- A tile goes to an engine. -/
def State.runTile (s : State) (x : Slot) (t : Tile) (e : Nat) : State :=
  let s := (s.setEngState e 1).setEng e fun y => { y with issueUp := s.clk.up }
  let s := (s.rset (engReg e 0x114) (2 ^ 31 + x.ctx)).rset (engReg e 0x118) x.chunk
  s.setSlot (x.setTile t.index fun y => { y with phase := .running e })

/-- No engine of a core is usable: NO_ENGINE (R234). -/
def State.noEngine (s : State) (core : Nat) : State :=
  if s.bget (ccReg core 0x010) 25 then s else s.alarmPlain (ccReg core 0) 25 core

/-- A waiting tile of a slot goes to its engine, if that is free. -/
def State.startTile (s : State) (desc : Nat) (t : Tile) : State :=
  match s.slot desc with
  | none => s
  | some x =>
    if t.phase != .waiting || decide (s.clk.up < t.from_) then s
    else match s.tileEngine x t with
      | some e => if s.engFree e then s.runTile x t e else s
      | none => s.noEngine x.core

/-- Tiles of an issued slot that have not run yet go to engines that are free. -/
def State.issueTiles (s : State) (desc : Nat) : State :=
  match s.slot desc with
  | none => s
  | some x => s.each (x.tiles.filter fun t => t.failed.isEmpty) fun s t => s.startTile desc t

/-- A failed tile runs again (R233). -/
def State.rerunTile (s : State) (desc tile : Nat) : State :=
  if s.sys.tripped then s
  else match s.slot desc with
    | none => s
    | some x => s.each (x.tiles.filter fun t => t.index == tile && !t.failed.isEmpty) fun s t => s.startTile desc t

/-- Conditions 2 to 4 of R194 for a READY chunk; condition 4 on the engines of its first four tiles. -/
def State.mayIssue (s : State) (x : Slot) : Bool :=
  let c := x.ctx
  let tiles := (List.range (s.tiles c)).map fun i => ({ index := i } : Tile)
  decide (s.stagingNeed c ≤ s.stagingFree x.core)
    && (x.step == s.stepOf c x.chunk || s.isReleased c ((x.step + 65535) % 65536) x.chunk)
    && (tiles.take 4).all fun t => match s.tileEngine x t with | some e => s.engFree e | none => false

/-- READY chunks of a core in the order of R195. -/
def State.readyOrder (s : State) (core : Nat) : List Slot :=
  let xs := s.col.slots.filter fun x => x.core == core && x.phase == .ready && decide (x.readyUp < s.clk.up)
  sortBy (fun x => (x.readyUp * 256 + (x.ctx + 256 - (s.core core).issueTurn) % 256) * 2 ^ 32 + x.chunk) xs

/-- A READY chunk issues: its staging is reserved and its first tiles run. -/
def State.issueChunk (s : State) (x : Slot) : State :=
  let tiles := (List.range (s.tiles x.ctx)).map fun i => ({ index := i } : Tile)
  let s := s.setSlot { x with phase := .issued, tiles := tiles, stagingBytes := s.stagingNeed x.ctx }
  let s := s.setCore x.core fun k => { k with issueTurn := (x.ctx + 1) % 256 }
  s.issueTiles x.desc

/-- Conditions that hold a READY chunk, counted per tick (R387). -/
def State.countWaits (s : State) (x : Slot) : State :=
  if s.stagingFree x.core < s.stagingNeed x.ctx then s.pmc (ccReg x.core 0) 0x103 1
  else if x.step != s.stepOf x.ctx x.chunk && !s.isReleased x.ctx ((x.step + 65535) % 65536) x.chunk then
    s.pmc (ccReg x.core 0) 0x104 1
  else s

/-- A core issues at a tick boundary (R194, R195): tiles left of issued chunks first, then READY chunks. While a trip
is in force no tile issues (R382). -/
def State.issueCore (s : State) (core : Nat) : State :=
  if s.sys.tripped then s
  else
    let going := s.col.slots.filter fun x => x.core == core && x.phase == .issued
    let s := s.each going fun s x => s.issueTiles x.desc
    s.each (s.readyOrder core) fun s x =>
      if ([0, 1, 2, 3].all fun i => !s.engUsable (4 * core + i)) then s.noEngine core
      else if s.mayIssue x then s.issueChunk x
      else s.countWaits x

/-! The end of a tile -/

/-- Slot and tile that an engine runs. -/
def State.runningOn (s : State) (e : Nat) : Option (Slot × Tile) :=
  s.col.slots.findSome? fun x => (x.tiles.find? fun t => t.phase == .running e).map fun t => (x, t)

/-- The engine ends its tile: it is idle, or takes up a repair or BIST that waited (R238). -/
def State.engIdle (s : State) (e : Nat) : State :=
  let s := s.rset (engReg e 0x114) 0
  let x := s.eng e
  if s.engState e = 3 then (if x.bistAsked then s.startEngBist e true else s)
  else if x.pendingRepair.isSome || x.bistAsked then s.startEngBist e false
  else s.setEngState e 0

/-- All tiles have passed (R190): the pages are freed and the chunk goes on to its update or to staging. -/
def State.tilesDone (s : State) (x : Slot) : State :=
  let out := x.parts.flatMap Prod.snd
  if s.updates x.ctx then s.setSlot { x with phase := .update, pages := [0, 0, 0, 0], contribs := [], readyUp := s.clk.up }
  else s.setSlot { x with phase := .staged, pages := [0, 0, 0, 0], contribs := [], result := out, commitUp := s.clk.up }

/-- Work that a tile did, for the counters of R387. -/
def State.countTile (s : State) (x : Slot) (t e : Nat) : State :=
  let gs := s.tileGroupsOf x.ctx t
  let terms := (gs.flatMap fun g => (List.range 128).map (128 * g + ·)).flatMap (s.columnTerms x)
  let gated := (terms.filter fun p => gates p.1 p.2).length
  let b := engReg e 0
  let cycles := gs.length * groupCycles (s.inFmt x.ctx) (s.members x.ctx) + 38
  ((s.pmc b 0x100 cycles).pmc b 0x101 (terms.length - gated)).pmc b 0x102 gated

/-- A tile passes: its results are written to staging. -/
def State.tilePassed (s : State) (x : Slot) (t : Tile) (e : Nat) (fault : TileFault) : State :=
  let r := s.tileResults x t.index fault
  let s := (s.countSpecials x t.index fault).bump (engReg e 0x120)
  let s := (s.ctxCtr .outOverflow x.ctx r.overflow).ctxCtr .mxClamp x.ctx r.clamps
  let x := { x.setTile t.index fun y => { y with phase := .passed } with parts := mput x.parts t.index r.bytes }
  let s := s.setSlot x
  if x.tiles.all fun y => y.phase == .passed then s.tilesDone x else s

/-- A tile fails its checksum (R233): counted, quarantines judged, and run again at a later boundary. -/
def State.tileFailed (s : State) (x : Slot) (t : Tile) (e : Nat) : State :=
  let s := ((s.bump32 (engReg e 0x104)).bump32 (engReg e 0x10C)).ctxCtr .chkRerun x.ctx
  let failed := t.failed ++ [e]
  let link := [condLink 0x0B01 x.chunk]
  let s := if s.repaired e || decide (s.fget (engReg e 0x108) 7 0 ≤ s.rget (engReg e 0x104)) then s.quarantineEng e link else s
  let first := failed.headD 0
  let s := if failed.length = 2 ∧ s.engUsable first then s.quarantineEng first link else s
  let s := if failed.length = 3 then
      s.alarm (ccReg x.core 0) 24 0x0B04 x.chunk (failed.map fun n => condLink 0x0B02 n)
    else s
  s.setSlot (x.setTile t.index fun y => { y with phase := .waiting, failed := failed, from_ := s.clk.up + 1 })

/-- An overrun (R30) is counted. -/
def State.engOverrun (s : State) (e : Nat) : State := (s.bump32 (engReg e 0x110)).bump (tickReg 0x1A0)

/-- An engine ends its tile. It takes the next one at a later boundary: one tile a tick, and none at a boundary it
overran (R29, R30). -/
def State.endTile (s : State) (e : Nat) (fault : TileFault) (late : Bool) : State :=
  let t := (if late then s.engOverrun e else s).setEng e fun x => { x with restUp := x.issueUp + 1 + b2n late }
  match s.runningOn e with
  | none => t.engIdle e
  | some (x, tile) =>
    let t := t.countTile x tile.index e
    let t := if s.tilePasses x tile.index fault then t.tilePassed x tile e fault else t.tileFailed x tile e
    t.engIdle e

end Sys2Proof.Machine
end

