-- ==== Sys2Proof/Machine/TwinOps.lean ====
section
/-! DEFINITION. The twin role (R338 to R348): pairing and the attach copy, mirror configuration, records, step digests,
loss of the partner, takeover, detach and resynchronisation. -/

namespace Sys2Proof.Machine

/-! Pairing (R339 to R341) -/

/-- TWIN.PARTNER_ID. -/
def State.partnerId (s : State) : Nat := s.rget (twinReg 0x108)

/-- HELLO: CHIP_ID, NONCE, device certificate. -/
def State.sendHello (s : State) : State :=
  (s.twinSend twHello (beBytes 8 chipId ++ fit 32 s.twin.ownNonce ++ devCert)).setTwin fun t => { t with helloUp := s.clk.up }

/-- Every mirror goes but the range that is served for a lost partner (R340). -/
def State.dropMirrors (s : State) : State :=
  s.setCol fun k => { k with
    mirrors := []
    ctxs := k.ctxs.map fun kv =>
      if kv.2.serving then kv
      else (kv.1, { kv.2 with
        mirrorPlaced := [], mirrorBlocks := [], mirrorBase := 0, mirrorChunks := 0, mirrorConfig := [], mirrorFmts := []
        mirrorDigests := [], heardDigests := [] }) }

/-- An attach starts from a state it goes back to on failure. -/
def State.startAttach (s : State) : State :=
  let former := s.twin.state
  let r := s.dropMirrors.draw
  let s := r.1.setTwin fun t => { t with
    state := .attach, former := former, ownNonce := r.2, partnerCert := [], partnerNonce := [], helloHeard := false
    proofGood := false, attachUp := s.clk.up, creditSeen := 0, creditUsed := 0, freed := 0, unacked := [], waiting := []
    copyQueue := [], copySeq := 0, copyFold := [], copied := [], endsSent := [], copyIn := [], announced := []
    heardChunks := [], handoverSent := [] }
  let s := (s.rset (twinReg 0x120) 0).rset (twinReg 0x128) 0
  s.sendHello

/-- TWIN.CTRL.PAIR. -/
def State.twinPair (s : State) : State × Code :=
  match s.twin.state with
  | .idle =>
    if !s.atStage 3 then (s, .stageNotReady)
    else if !s.stateSplit || !s.twinUp then (s, .conflict)
    else (s.startAttach, .ok)
  | .lull => (s, .busy)
  | .attach | .verify | .paired | .solo => (s, .ok)

/-- No slot waits for an acknowledgement any longer (R347). -/
def State.noAcks (s : State) : State :=
  s.setCol fun k => { k with slots := k.slots.map fun x => { x with needAck := false } }

/-- An attach fails (R341): what it received is freed, and the chip goes back to its former state. -/
def State.attachFails (s : State) (cause : Nat) : State :=
  let gained := (s.twin.copyIn.filter fun x => x.range == 1).map CopyIn.ctx
  let s := s.dropMirrors.each gained State.freePlanes
  let s := s.setTwin fun t => { t with
    state := t.former, unacked := [], waiting := [], copyQueue := [], copied := [], copyIn := [], announced := [] }
  (if s.twin.state == .paired then s else s.noAcks).alarm (twinReg 0) 11 0x1103 cause

/-- A partner check fails. -/
def State.partnerMismatch (s : State) : State := (s.alarmPlain (twinReg 0) 13).attachFails 3

/-- A HELLO in ATTACH: certificate and EXPECT_ID are checked, and a PROOF answers its nonce. -/
def State.judgeHello (s : State) (p : Bytes) : State :=
  let id := fld p 0 8
  let cert := sub p 40 208
  let expect := s.rget (twinReg 0x110)
  if !certGood s.sys.rootKey cert || certChip cert != id || (expect != 0 && expect != id) then s.partnerMismatch
  else
    let s := (s.rset (twinReg 0x108) id).setTwin fun t =>
      { t with partnerCert := cert, partnerNonce := sub p 8 32, helloHeard := true }
    s.twinSend twProof (edSign identityKey (ascii "WZ5TWIN1" ++ sub p 8 32 ++ beBytes 8 chipId))

/-- An intact HELLO (R338, R339). -/
def State.helloRx (s : State) (p : Bytes) : State :=
  if p.length ≠ 248 then s
  else match s.twin.state with
    | .attach => s.judgeHello p
    | .solo | .paired => s.startAttach.judgeHello p
    | .idle | .verify | .lull => s

/-! The attach copy (R340) -/

/-- The contexts that an attach announces: TWIN = 1, and enabled or holding planes. -/
def State.twinCtxs (s : State) : List Nat :=
  (s.col.ctxs.filter fun kv => s.twinned kv.1 && (kv.2.state != .idle || kv.2.planes.isSome)).map Prod.fst

/-- The owning core of each chunk of a context. -/
def CtxSt.cores (x : CtxSt) : List Nat :=
  match x.planes with
  | some q => q.owners.map Prod.snd
  | none => x.placed.map Placed.core

/-- Mirror configuration of a context at an attach. -/
def State.announce (s : State) (c : Nat) : State :=
  let x := s.ctx c
  let cfg := s.rget (ctxReg c 0x100)
  let p := match x.planes with
    | some q => s.ctxConfig c (putBits cfg 24 24 1) q.base q.chunks x.cores
    | none => s.ctxConfig c cfg (s.chunkBase c) (s.chunkCount c) x.cores
  s.twinSend twConfig p

/-- Blocks to copy: context, range, chunk. -/
def State.copyList (s : State) : List (Nat × Nat × Nat) :=
  (s.twinCtxs.flatMap fun c => match (s.ctx c).planes with
    | some q => q.blocks.map fun b => (c, 0, b.1)
    | none => [])
  ++ (s.col.ctxs.filter fun kv => kv.2.serving).flatMap fun kv => kv.2.mirrorBlocks.map fun b => (kv.1, 1, b.1)

/-- Bytes of a block to copy. -/
def State.copyBytes (s : State) (x : Nat × Nat × Nat) : Nat :=
  if x.2.1 = 1 then (s.ctx x.1).mirrorBlock
  else match (s.ctx x.1).planes with | some q => q.block | none => 0

/-- A chunk is between two of its updates. -/
def State.betweenUpdates (s : State) (x : Nat × Nat × Nat) : Bool :=
  !s.col.slots.any fun y => y.ctx == x.1 && y.chunk == x.2.2 && y.begun && y.phase == .update

/-- The frames of one block leave, or wait for credit. -/
def State.copyBlock (s : State) (x : Nat × Nat × Nat) : State :=
  let block := s.chunkBlock x.1 x.2.2 (x.2.1 == 1)
  let key := x.1 + 256 * x.2.1
  let data := pieces 16384 (s.copyBytes x) (s.hread block (s.copyBytes x))
  let s := s.each data.zipIdx fun s d =>
    let head := beBytes 1 x.1 ++ beBytes 1 x.2.1 ++ zeros 2 ++ beBytes 4 s.twin.copySeq ++ beBytes 4 x.2.2
      ++ beBytes 4 (16384 * d.2)
    (s.twinPush twCopy (head ++ d.1)).setTwin fun t => { t with copySeq := (t.copySeq + 1) % 2 ^ 32 }
  s.setTwin fun t => { t with
    copied := if x.2.1 = 0 then t.copied ++ [(x.1, x.2.2)] else t.copied
    copyFold := mupd t.copyFold key (0, BitVec.ofNat 64 x.1) fun f =>
      (f.1 + 1, (data.flatMap fun d => (pieces 4 d.length d).map beNat).foldl foldWord f.2) }

/-- Copying goes on while nothing waits for credit (R340). -/
def State.copyPump : Nat → State → State
  | 0, s => s
  | n + 1, s =>
    match s.twin.copyQueue with
    | [] => s
    | x :: rest =>
      if s.twin.waiting.isEmpty && s.betweenUpdates x then
        ((s.setTwin fun t => { t with copyQueue := rest }).copyBlock x).copyPump n
      else s

/-- A COPY frame of a key waits or is not acknowledged. -/
def State.copyOpen (s : State) (key : Nat) : Bool :=
  let mine := fun (f : Bytes) => byteAt f 0 == twCopy && byteAt f 16 + 256 * byteAt f 17 == key
  (s.twin.copyQueue.any fun x => x.1 + 256 * x.2.1 == key) || (s.twin.waiting.any fun w => mine w.frame)
    || s.twin.unacked.any fun u => mine u.frame

/-- COPY_END follows a context's last COPY once every one is acknowledged. -/
def State.copyEnds (s : State) : State :=
  s.each (mkeys s.twin.copyFold) fun s key =>
    if s.twin.endsSent.contains key || s.copyOpen key then s
    else
      let f := mgetD s.twin.copyFold key (0, 0)
      (s.twinSend twCopyEnd (beBytes 1 (key % 256) ++ beBytes 1 (key / 256) ++ zeros 2 ++ beBytes 4 f.1
        ++ beBytes 8 f.2.toNat)).setTwin fun t => { t with endsSent := t.endsSent ++ [key] }

/-- The copy advances. -/
def State.copyOn (s : State) : State := (s.copyPump (s.twin.copyQueue.length)).copyEnds

/-- The identity of the partner stands: contexts are announced and the copy begins. -/
def State.beginCopy (s : State) : State :=
  let list := s.copyList
  let s := s.rset (twinReg 0x128) (list.foldl (fun n x => n + s.copyBytes x) 0)
  let s := s.setTwin fun t => { t with proofGood := true, proofUp := s.clk.up, copyQueue := list }
  (s.each s.twinCtxs State.announce).copyOn

/-- A PROOF (R339). -/
def State.proofRx (s : State) (p : Bytes) : State :=
  if s.twin.state != .attach || !s.twin.helloHeard || s.twin.proofGood || p.length != 64 then s
  else if edVerify (certKey s.twin.partnerCert) (ascii "WZ5TWIN1" ++ fit 32 s.twin.ownNonce ++ beBytes 8 s.partnerId) p then
    s.beginCopy
  else s.partnerMismatch

/-- Words of a received copy fold as the sender's (R340). -/
def CopyIn.fold (x : CopyIn) : BitVec 64 :=
  (x.parts.flatMap fun kv => (pieces 4 kv.2.length kv.2).map beNat).foldl foldWord (BitVec.ofNat 64 x.ctx)

/-- Every COPY_END has been received and every own copy is complete (R338). A configuration that the partner would
announce has come within 25 ticks of its proof. -/
def State.copyComplete (s : State) : Bool :=
  let t := s.twin
  t.state == .attach && t.proofGood && decide (t.proofUp + 25 ≤ s.clk.up)
    && t.copyQueue.isEmpty && (mkeys t.copyFold).all t.endsSent.contains
    && (t.copyIn.all fun x => x.ended.isSome)
    && (t.announced.all fun c => t.copyIn.any fun x => x.ctx == c && x.range == 0)
    && (!t.partnerHeld || t.copyIn.any fun x => x.range == 1)

/-- VERIFY compares the folds: PAIRED, or the attach fails (R338, R341). -/
def State.tryVerify (s : State) : State :=
  if !s.copyComplete then s
  else
    let s := s.setTwin fun t => { t with state := .verify }
    if s.twin.copyIn.all fun x => x.ended.any fun e => e.2 == x.fold then
      let s := s.setTwin fun t => { t with state := .paired, misses := 0, hbUp := s.clk.up, copyIn := [] }
      let s := s.each (mkeys s.col.ctxs) fun s c => s.bset (ctxReg c 0x140) 2 false
      s.alarmPlain (twinReg 0) 10
    else s.attachFails 5

/-! Mirror configuration (R342) -/

/-- The geometry of R244 in a CTX_CONFIG payload: base, count, PAYLOAD and IN_FMT, and cores. -/
def configGeometry (b : Bytes) : List Nat × Bytes :=
  ([fld b 4 4, fld b 8 4, bits (fld b 12 4) 16 15, bits (fld b 12 4) 7 4], b.drop 88)

/-- Plane formats that a configuration is placed with: those of the own program, or of eight planes without one. -/
def State.mirrorFormats (s : State) (c : Nat) (p : Bytes) : List Nat :=
  if bit (fld p 12 4) 24 then
    match (s.ctx c).program with
    | some g => g.planeFmt.take g.planes
    | none => (sub p 16 8).map BitVec.toNat
  else []

/-- One mirror chunk is placed: W descriptors on the core of the same number, and a block in the mirror half. -/
def placeMirror (w block : Nat) (keep : Option (Map Nat)) (x : Placing) (ci : Nat × Nat) :
    Option Placing :=
  let n := ci.2 % 32
  match descRun x.used n w with
  | none => none
  | some desc =>
    let turn := x.turns.getD n 0
    let x := { x with
      used := x.used ++ (List.range w).map (desc + ·), turns := x.turns.set n (turn + 1)
      placed := x.placed ++ [{ chunk := ci.1, core := n, desc := desc, engine := 4 * n + turn % 4 }] }
    if block = 0 then some x
    else match keep with
      | some m => some { x with blocks := mput x.blocks ci.1 (mgetD m ci.1 0) }
      | none =>
        let half := mirrorSpace (n / 8)
        (freeRange x.taken half.1 half.2 block).map fun a =>
          { x with taken := (a, block) :: x.taken, blocks := mput x.blocks ci.1 a }

/-- A mirror configuration is placed, or finds no room. -/
def State.configure (s : State) (c : Nat) (p : Bytes) : Option State :=
  let old := s.ctx c
  let fmts := s.mirrorFormats c p
  let block := if bit (fld p 12 4) 24 then planeBlock (configElems p) fmts else 0
  let keep := if configGeometry p == configGeometry old.mirrorConfig && fmts == old.mirrorFmts
      && !old.mirrorBlocks.isEmpty then some old.mirrorBlocks else none
  let bare := s.setCtx c fun x => { x with mirrorPlaced := [], mirrorBlocks := if keep.isSome then x.mirrorBlocks else [] }
  let base := fld p 4 4
  let cores := (p.drop 88).map BitVec.toNat
  let start : Placing := {
    used := bare.usedDescs, turns := (List.range 32).map fun n => (s.core n).engTurn, taken := bare.planeRanges none, ovf := [] }
  let chunks := cores.zipIdx.map fun k => (base + k.2, k.1)
  let w := 1 + bits (fld p 12 4) 17 17
  match chunks.foldl (fun (o : Option Placing) k => o.bind fun x => placeMirror w block keep x k) (some start) with
  | none => none
  | some x =>
    let s := if keep.isSome then bare else x.blocks.foldl (fun s b => s.hzero b.2 block) bare
    let s := s.setCtx c fun y => { y with
      mirrorPlaced := x.placed, mirrorBlocks := x.blocks, mirrorBase := base, mirrorChunks := cores.length
      mirrorPlace := Sys2Proof.Config.placeOfChip (BitVec.ofNat 64 s.partnerId), mirrorConfig := p, mirrorFmts := fmts
      mirrorDigests := [], heardDigests := [] }
    some ((s.setCol fun k => { k with mirrors := k.mirrors.filter fun m => m.ctx != c }).setTwin fun t => { t with
      recSteps := t.recSteps.filter fun e => e.1.1 != c, relSteps := t.relSteps.filter fun e => e.1.1 != c })

/-- REASON of a refusal by program (R342). -/
def State.programDiffers (s : State) (c : Nat) (p : Bytes) : Bool :=
  if bit (fld p 12 4) 24 then
    match (s.ctx c).program with
    | some g => g.measurement != sub p 24 64
    | none => true
  else s.updates c

/-- CTX_ACCEPT. -/
def State.sendAccept (s : State) (c : Nat) (code : Code) (reason : Nat) : State :=
  s.twinSend twAccept (beBytes 1 c ++ beBytes 1 code.num ++ beBytes 1 reason ++ zeros 1)

/-- A CTX_CONFIG (R342). While it attaches, a chip places what the partner announces whatever its own program is; a
configuration of the range that it serves starts the handover of that range. -/
def State.configRx (s : State) (p : Bytes) : State :=
  let c := byteAt p 0
  let x := s.ctx c
  let joining := s.twin.state == .attach || s.twin.state == .verify
  if p.length < 88 || fld p 8 4 != p.length - 88 || !(joining || s.twin.state == .paired) then s
  else if x.serving then
    if fld p 4 4 = x.mirrorBase ∧ fld p 8 4 = x.mirrorChunks ∧ !joining then
      (s.setTwin fun t => { t with handback := t.handback ++ [c] }).sendAccept c .ok 0
    else s.sendAccept c .conflict 2
  else if !joining && s.programDiffers c p then s.sendAccept c .conflict 1
  else match s.configure c p with
    | none => s.sendAccept c .conflict 2
    | some s =>
      let s := if joining && bit (fld p 12 4) 24 && decide (0 < fld p 8 4) then
          s.setTwin fun t => { t with announced := if t.announced.contains c then t.announced else t.announced ++ [c] }
        else s
      s.sendAccept c .ok 0

/-- The enable that waits for the partner is refused under check 8 (R342). -/
def State.refuseAsking (s : State) (c reason : Nat) : State :=
  match (s.ctx c).asking with
  | none => s
  | some (_, fly) =>
    let s := (s.setCtx c fun x => { x with asking := none, plan := none }).refuseEnable c 8 .conflict
    match fly with
    | some f => s.reply f { code := .conflict, detail := reason }
    | none => s

/-- A CTX_ACCEPT (R342). -/
def State.acceptRx (s : State) (p : Bytes) : State :=
  let c := byteAt p 0
  match (s.ctx c).asking, (s.ctx c).plan with
  | some (_, fly), some plan =>
    if byteAt p 1 = 0 ∧ byteAt p 2 = 0 then s.acceptEnable c plan fly else s.refuseAsking c (byteAt p 2)
  | _, _ => s

/-! Records, copies and releases -/

/-- States in which records and copies are taken. -/
def State.twinTakes (s : State) : Bool :=
  s.twin.state == .attach || s.twin.state == .verify || s.twin.state == .paired || s.twin.state == .lull

/-- ACK. -/
def State.sendAck (s : State) (kind c step n : Nat) : State :=
  s.twinSend twAck (beBytes 1 kind ++ beBytes 1 c ++ beBytes 2 step ++ beBytes 4 n)

/-- An intact RECORD: acknowledged, and queued for the Update Unit unless it is a duplicate (R268, R270, R337). -/
def State.recordRx (s : State) (p : Bytes) : State :=
  let c := byteAt p 0
  let step := fld p 2 2
  let chunk := fld p 4 4
  if p.length ≠ 80 + 4 * fld p 8 2 ∨ !s.twinTakes then s
  else
    let s := (s.bump (twinReg 0x190)).sendAck 0 c step chunk
    let last := aget s.twin.recSteps (c, chunk)
    match (s.ctx c).mirrorPlaced.find? fun q => q.chunk == chunk with
    | none => s
    | some q =>
      if last.any fun l => stepAtOrBefore step l then s
      else
        let m : Mirror := {
          ctx := c, step := step, chunk := chunk, core := q.core, grad := p.drop 80, tag := fld p 10 2
          ks := (List.range 16).map fun i => fld p (12 + 4 * i) 4, readyUp := s.clk.up + 1
          credits := ceilDiv (p.length + 20) 4096, digest := BitVec.ofNat 64 (step * 2 ^ 32 + chunk) }
        (s.setCol fun k => { k with mirrors := k.mirrors ++ [m] }).setTwin fun t =>
          { t with recSteps := aput t.recSteps (c, chunk) step }

/-- The frame that an ACK acknowledges: kind, context, STEP, CHUNK or sequence. -/
def ackOf (f : Bytes) (kind c step n : Nat) : Bool :=
  byteAt f 16 == c && fld f 20 4 == n
    && (if kind = 0 then byteAt f 0 == twRecord && fld f 18 2 == step else byteAt f 0 == twCopy)

/-- An ACK (R269, R337): the staged chunk may be released, or the copy advances. -/
def State.ackRx (s : State) (p : Bytes) : State :=
  let kind := byteAt p 0
  let c := byteAt p 1
  let step := fld p 2 2
  let n := fld p 4 4
  let hit := fun (u : Unacked) => ackOf u.frame kind c step n
  let s := s.bump (twinReg 0x198)
  match s.twin.unacked.find? hit with
  | none => s
  | some u =>
    let s := s.setTwin fun t => { t with unacked := t.unacked.filter fun v => !hit v }
    if kind = 0 then
      s.setCol fun k => { k with slots := k.slots.map fun x =>
        if x.ctx = c ∧ x.step = step ∧ x.chunk = n ∧ !x.taken then { x with acked := true } else x }
    else (s.bump (twinReg 0x120) (u.frame.length - 36)).copyOn

/-- RELEASED (R343): the held result of the mirror chunk goes. -/
def State.releasedRx (s : State) (p : Bytes) : State :=
  let c := byteAt p 0
  let step := fld p 2 2
  let chunk := fld p 4 4
  let s := s.setTwin fun t => { t with relSteps := aput t.relSteps (c, chunk) step }
  s.setCol fun k => { k with mirrors := (k.mirrors.filter fun m =>
      !(m.applied && m.ctx == c && m.step == step && m.chunk == chunk)).map fun m =>
    if m.ctx = c ∧ m.step = step ∧ m.chunk = chunk then { m with released := true } else m }

/-- Planes of a range the receiver is to own (R340): blocks in the own space, as if held from an earlier enable. -/
def State.ownCopy (s : State) (c : Nat) : State :=
  let fmts := match (s.ctx c).program with | some g => g.planeFmt.take g.planes | none => List.replicate 8 0
  let block := planeBlock (s.elems c) fmts
  let chunks := (List.range (s.chunkCount c)).map fun i => (s.chunkBase c + i, i % 32)
  let start : Option (Map Nat × List (Nat × Nat)) := some ([], s.planeRanges (some c))
  let placed := chunks.foldl (fun (o : Option (Map Nat × List (Nat × Nat))) k => o.bind fun x =>
    let own := s.ownSpace (k.2 / 8)
    (freeRange x.2 own.1 own.2 block).map fun a => (mput x.1 k.1 a, (a, block) :: x.2)) start
  match placed with
  | none => s
  | some x =>
    let planes : Planes := {
      base := s.chunkBase c, chunks := s.chunkCount c, payload := s.payload c, inFmt := s.cfg c 7 4
      fmts := if (s.ctx c).program.isSome then fmts else [], blocks := x.1
      owners := chunks.foldl (fun m k => mput m k.1 k.2) [] }
    (x.1.foldl (fun s b => s.hzero b.2 block) s).setCtx c fun y => { y with planes := some planes }

/-- A COPY (R340): acknowledged, and written into the mirror or own half. -/
def State.copyRx (s : State) (p : Bytes) : State :=
  let c := byteAt p 0
  let range := byteAt p 1
  let seq := fld p 4 4
  let chunk := fld p 8 4
  let data := p.drop 16
  if p.length < 16 || decide (16400 < p.length) || !(s.twin.state == .attach || s.twin.state == .verify) then s
  else
    let s := (s.sendAck 1 c 0 seq).twinFreed (ceilDiv (p.length + 20) 4096)
    let have_ := s.twin.copyIn.find? fun x => x.ctx == c && x.range == range
    let s := if range = 1 ∧ have_.isNone then s.ownCopy c else s
    let old : CopyIn := have_.getD { ctx := c, range := range }
    if (mget old.parts seq).isSome then s
    else
      let s := s.setTwin fun t => { t with
        copyIn := { old with parts := mput old.parts seq data } :: t.copyIn.filter fun x => !(x.ctx == c && x.range == range) }
      let block := if range = 1 then
          (match (s.ctx c).planes with | some q => mget q.blocks chunk | none => none)
        else mget (s.ctx c).mirrorBlocks chunk
      match block with
      | some a => s.hwrite (a + fld p 12 4) data
      | none => s

/-- COPY_END (R340). -/
def State.copyEndRx (s : State) (p : Bytes) : State :=
  let c := byteAt p 0
  let range := byteAt p 1
  if p.length ≠ 16 ∨ s.twin.state ≠ .attach then s
  else
    let old : CopyIn := (s.twin.copyIn.find? fun x => x.ctx == c && x.range == range).getD { ctx := c, range := range }
    (s.setTwin fun t => { t with
      copyIn := { old with ended := some (fld p 4 4, BitVec.ofNat 64 (fld p 8 8)) } ::
        t.copyIn.filter fun x => !(x.ctx == c && x.range == range) }).tryVerify

/-! Step digests (R271) -/

/-- Chunk digests of a step leave, at most 4,000 a frame. -/
def State.sendChunkDigests (s : State) (c step : Nat) (ds : List (Nat × BitVec 64)) : State :=
  let data := ds.flatMap fun d => beBytes 8 d.2.toNat
  s.each (pieces 32000 data.length data).zipIdx fun s b =>
    let first := match ds[4000 * b.2]? with | some d => d.1 | none => 0
    s.twinSend twChunkDigests (beBytes 1 c ++ zeros 1 ++ beBytes 2 step ++ beBytes 4 first ++ beBytes 4 (b.1.length / 8) ++ b.1)

/-- DIVERGED (R271). -/
def State.diverge (s : State) (c step low : Nat) : State :=
  let s := ((s.bset (ctxReg c 0x140) 2 true).ctxCtr .digestMismatch c).attn (ctxReg c 0) 8
  (s.bump (twinReg 0x1B8)).alarm (twinReg 0) 12 0x1104 c [condLink 0x0904 low, condLink 0x0902 step]

/-- A step digest heard is compared once the mirror chunks of the step have all been applied. -/
def State.compareStep (s : State) (c step : Nat) : State :=
  let x := s.ctx c
  let ds := digestsOf x.mirrorDigests step
  match x.heardDigests.find? fun h => h.1 == step with
  | none => s
  | some h =>
    if x.mirrorChunks = 0 ∨ ds.length < x.mirrorChunks then s
    else
      let s := s.setCtx c fun y => { y with heardDigests := y.heardDigests.filter fun g => g.1 != step }
      if stepDigest c step (ds.map Prod.snd) = h.2 then
        let s := s.setCtx c fun y => { y with mirrorDigests := y.mirrorDigests.filter fun e => e.1 != step }
        (s.ctxCtr .digestMatch c).twinSend twStepDigest (beBytes 1 c ++ zeros 1 ++ beBytes 2 step ++ beBytes 8 h.2.toNat)
      else s.sendChunkDigests c step ds

/-- A STEP_DIGEST: the partner's own, or the own one returned as equal. -/
def State.stepDigestRx (s : State) (p : Bytes) : State :=
  let c := byteAt p 0
  let e := (fld p 2 2, BitVec.ofNat 64 (fld p 4 8))
  if p.length ≠ 12 then s
  else if (s.ctx c).sentDigests.contains e then
    (s.ctxCtr .digestMatch c).setCtx c fun x => { x with
      sentDigests := x.sentDigests.filter (· != e), digests := x.digests.filter fun d => d.1 != e.1 }
  else (s.setCtx c fun x => { x with heardDigests := x.heardDigests ++ [e] }).compareStep c e.1

/-- Lowest chunk whose digests differ. -/
def lowestDiffering (own heard : List (Nat × BitVec 64)) : Option Nat :=
  leastOf ((own.filter fun d => !heard.contains d).map Prod.fst)

/-- CHUNK_DIGESTS: when the range is complete the lowest differing chunk is named, and the primary answers with its
own. -/
def State.chunkDigestsRx (s : State) (p : Bytes) : State :=
  let c := byteAt p 0
  let step := fld p 2 2
  let first := fld p 4 4
  let n := fld p 8 4
  if p.length ≠ 12 + 8 * n then s
  else
    let got := (List.range n).map fun i => (c, step, first + i, BitVec.ofNat 64 (fld p (12 + 8 * i) 8))
    let s := s.setTwin fun t => { t with heardChunks := t.heardChunks ++ got.filter fun g => !t.heardChunks.contains g }
    let x := s.ctx c
    let heard := (s.twin.heardChunks.filter fun h => h.1 == c && h.2.1 == step).map fun h => h.2.2
    let primary := x.sentDigests.any fun d => d.1 == step
    let own := if primary then digestsOf x.digests step else digestsOf x.mirrorDigests step
    if own.isEmpty || decide (heard.length < own.length) then s
    else
      let s := s.setTwin fun t => { t with heardChunks := t.heardChunks.filter fun h => !(h.1 == c && h.2.1 == step) }
      let s := if primary then s.sendChunkDigests c step own else s
      let s := s.setCtx c fun y =>
        if primary then { y with sentDigests := y.sentDigests.filter fun d => d.1 != step, digests := y.digests.filter fun d => d.1 != step }
        else { y with mirrorDigests := y.mirrorDigests.filter fun d => d.1 != step }
      match lowestDiffering own heard with
      | some low => s.diverge c step low
      | none => s

/-! Serving a range (R348) -/

/-- The step after the last one of a list kept per chunk, or FIRST_STEP. -/
def State.nextOf (s : State) (l : List ((Nat × Nat) × Nat)) (c chunk : Nat) : Nat :=
  match aget l (c, chunk) with
  | some t => (t + 1) % 65536
  | none => s.firstStep c

/-- Next step of a chunk of the partner's range, for an ABORT: after the last record, or with UPDATE = 0 the last
RELEASED. -/
def State.nextStep (s : State) (c chunk : Nat) : Nat :=
  s.nextOf (if s.updates c then s.twin.recSteps else s.twin.relSteps) c chunk

/-- A held or late result of the partner's range is released (R348). -/
def State.releaseMirror (s : State) (m : Mirror) : State :=
  let s := s.setCol fun k => { k with mirrors := k.mirrors.filter (· != m) }
  let s := s.sendResult m.ctx m.step m.chunk m.core m.result
  (s.setCtx m.ctx fun x => { x with takenReleased := x.takenReleased ++ [(m.step, m.chunk)] }).takenDone 2 m.ctx

/-- A record not yet applied becomes a slot of the range: its update runs and its result is released. -/
def mirrorSlot (desc : Nat) (m : Mirror) (up : Nat) : Slot :=
  { ctx := m.ctx, step := m.step, chunk := m.chunk, core := m.core, desc := desc, taken := true, phase := .update
    openUp := up, completeUp := up, readyUp := m.readyUp, parts := [(0, m.grad)], bank := some (m.tag, m.ks)
    begun := m.begun, passes := m.passes, lanes := m.lanes, digest := m.digest, fails := m.fails
    stagingBytes := m.grad.length }

/-- The Update Units run the record on as a chunk of this chip. -/
def State.adoptRuns (s : State) (m : Mirror) : State :=
  let key := (true, m.ctx, m.step, m.chunk)
  s.each (List.range 32) fun s n =>
    if (s.core n).uuChunk = some key then
      s.setCore n fun k => { k with
        uuChunk := some (false, m.ctx, m.step, m.chunk), running := k.running.map fun r => { r with mirror := false } }
    else s

/-- The chip takes a range and serves it with the steps its partner reported. -/
def State.serveRange (s : State) (c : Nat) : State :=
  let x := s.ctx c
  let chunks := (List.range x.mirrorChunks).map (x.mirrorBase + ·)
  let first := s.firstStep c
  let ahead := fun k => (s.nextOf s.twin.relSteps c k + 65536 - first) % 65536
  let low := (leastOf (chunks.map ahead)).getD 0
  let released := chunks.flatMap fun k => (List.range (min 2 (ahead k - low))).map fun i => ((first + low + i) % 65536, k)
  let s := s.setCtx c fun y => { y with
    serving := true, takenStep := (first + low) % 65536, takenReleased := released }
  let s := s.setTwin fun t => { t with rangeHeld := true }
  let mine := s.col.mirrors.filter fun m => m.ctx == c
  let s := s.each (mine.filter Mirror.applied) State.releaseMirror
  s.each (mine.filter fun m => !m.applied) fun s m =>
    let s := s.setCol fun k => { k with mirrors := k.mirrors.filter (· != m) }
    match x.mirrorPlaced.find? fun q => q.chunk == m.chunk with
    | none => s
    | some q =>
      let s := s.adoptRuns m
      (s.setCol fun k => { k with slots := k.slots ++ [mirrorSlot (q.desc + m.step % s.window c) m s.clk.up] }).setTwin
        fun t => { t with takeoverLeft := t.takeoverLeft ++ [(c, m.step, m.chunk)] }

/-- Runs of consecutive chunks with equal next step. -/
def stepRuns : List (Nat × Nat) → List (Nat × Nat × Nat)
  | [] => []
  | (k, n) :: r => match stepRuns r with
    | (a, b, m) :: rest => if m = n ∧ a = k + 1 then (k, b, m) :: rest else (k, k, n) :: (a, b, m) :: rest
    | [] => [(k, k, n)]

/-- The ABORTs of R348 for one range. -/
def State.takeoverAborts (s : State) (c : Nat) : State :=
  let x := s.ctx c
  let nexts := (List.range x.mirrorChunks).map fun i => (x.mirrorBase + i, s.nextStep c (x.mirrorBase + i))
  s.each (stepRuns nexts) fun s r => s.sendAbort c r.2.2 r.1 r.2.1 rsTakeover

/-- The steps of a takeover that follow the loss: the ABORTs at the next boundary, and TAKEOVER_DONE once every record
found has been released. -/
def State.takeoverOn (s : State) : State :=
  let s := match s.twin.takeoverUp with
    | some u =>
      if u < s.clk.up then
        (s.each ((s.col.ctxs.filter fun (kv : Nat × CtxSt) => kv.2.serving).map Prod.fst) State.takeoverAborts).setTwin
          fun t => { t with takeoverUp := none }
      else s
    | none => s
  let left := s.twin.takeoverLeft.filter fun k => s.col.slots.any fun x => x.taken && (x.ctx, x.step, x.chunk) == k
  let s := s.setTwin fun t => { t with takeoverLeft := left }
  if s.twin.taking && s.twin.takeoverUp.isNone && left.isEmpty then
    (s.setTwin fun t => { t with taking := false }).alarm (twinReg 0) 9 0x1102 s.twin.misses
  else s

/-- Entering SOLO (R347). -/
def State.enterSolo (s : State) : State :=
  let s := s.setTwin fun t => { t with state := .solo, unacked := [], waiting := [], copyQueue := [], copied := [] }
  s.noAcks.alarm (twinReg 0) 8 0x1101 s.twin.misses

/-- Takeover (R348) of every twin context whose mirror is valid. -/
def State.takeOver (s : State) : State :=
  let s := (s.bump (twinReg 0x1B0)).setTwin fun t => { t with taking := true, takeoverUp := some s.clk.up }
  let ctxs := (s.col.ctxs.filter fun (kv : Nat × CtxSt) =>
    kv.2.state != .idle && kv.2.mirrorChunks != 0 && s.twinned kv.1 && !s.bget (ctxReg kv.1 0x140) 2).map Prod.fst
  s.each ctxs State.serveRange

/-- The partner is lost (R346 to R348). -/
def State.partnerLost (s : State) : State :=
  let period := max (s.fget (twinReg 0x100) 11 8) 8
  let tags := decide (s.clk.up ≤ s.twin.tagUp + period)
  let s := s.enterSolo
  if !tags && s.bget (twinReg 0x100) 0 then s.takeOver else s

/-- The boundary check of R346. -/
def State.hbCheck (s : State) : State :=
  if s.twin.state != .paired || decide (s.clk.up ≤ s.twin.checkUp) then s
  else
    let s := s.setTwin fun t => { t with checkUp := s.clk.up }
    if s.clk.up ≤ s.twin.hbUp + 1 then s.setTwin fun t => { t with misses := 0 }
    else
      let s := (s.bump (twinReg 0x180)).setTwin fun t => { t with misses := t.misses + 1 }
      if s.fget (twinReg 0x100) 11 8 ≤ s.twin.misses then s.partnerLost else s

/-! Planned detach (R345) -/

/-- Next step of a chunk served here, for a HANDOVER. -/
def ownNextOf (step : Nat) (released : List (Nat × Nat)) (chunk : Nat) : Nat :=
  let a := (step + 1) % 65536
  if released.contains (step, chunk) then (if released.contains (a, chunk) then (step + 2) % 65536 else a) else step

/-- HANDOVER of a range: chunks and their next steps, at most 16,000 a frame. -/
def State.sendHandover (s : State) (c base count : Nat) (next : Nat → Nat) : State :=
  s.each (List.range (ceilDiv count 16000)) fun s i =>
    let first := base + 16000 * i
    let n := min 16000 (count - 16000 * i)
    s.twinSend twHandover (beBytes 1 c ++ zeros 3 ++ beBytes 4 first ++ beBytes 4 n
      ++ (List.range n).flatMap fun j => beBytes 2 (next (first + j)))

/-- The handover of a detaching chip goes on: each twin context that has drained is handed over, and when the partner
holds the ranges the role and the contexts are IDLE. -/
def State.detachOn (s : State) : State :=
  if s.twin.state != .lull then s
  else
    let mine := (s.col.ctxs.filter fun kv => s.twinned kv.1 && kv.2.state != .idle).map Prod.fst
    let ready := mine.filter fun c => !s.twin.handoverSent.contains c && (s.ctx c).state == .lull
      && !s.col.slots.any fun x => x.ctx == c
    let s := s.each ready fun s c =>
      let x := s.ctx c
      (s.sendHandover c (s.chunkBase c) (s.chunkCount c) (ownNextOf x.step x.released)).setTwin fun t =>
        { t with handoverSent := t.handoverSent ++ [c] }
    if (mine.all s.twin.handoverSent.contains) && (s.twin.partnerHeld || mine.isEmpty) then
      (s.setTwin fun t => { t with state := .idle, handoverSent := [] }).each mine State.ctxIdle
    else s

/-- A range is handed back to the replacement that enabled it, once it has drained. -/
def State.handbackOn (s : State) : State :=
  s.each s.twin.handback fun s c =>
    let s := s.abortSlots c rsDisabled fun x => x.taken && x.unbegun
    if s.col.slots.any fun x => x.ctx == c && x.taken then s
    else
      let x := s.ctx c
      let s := s.sendHandover c x.mirrorBase x.mirrorChunks (ownNextOf x.takenStep x.takenReleased)
      let s := s.setCtx c fun y => { y with serving := false, takenReleased := [] }
      s.setTwin fun t => { t with
        handback := t.handback.filter (· != c), rangeHeld := s.col.ctxs.any fun kv => kv.2.serving }

/-- TWIN.CTRL.DETACH (R338, R345). -/
def State.twinDetach (s : State) : State × Code :=
  match s.twin.state with
  | .paired =>
    let s := s.setTwin fun t => { t with state := .lull, handoverSent := [] }
    let mine := (s.col.ctxs.filter fun kv => s.twinned kv.1 && (kv.2.state == .active || kv.2.state == .halted)).map Prod.fst
    (s.each mine fun s c => s.setCtx c fun x => { x with disabling := true }, .ok)
  | .solo => if s.twin.rangeHeld then (s, .conflict) else (s.setTwin fun t => { t with state := .idle }, .ok)
  | .idle | .attach | .verify | .lull => (s, .busy)

/-- Steps that a HANDOVER names become the last released and recorded ones. -/
def State.noteNext (s : State) (c chunk next : Nat) : State :=
  let put := fun (l : List ((Nat × Nat) × Nat)) =>
    if next = s.firstStep c then l.filter fun e => e.1 != (c, chunk) else aput l (c, chunk) ((next + 65535) % 65536)
  s.setTwin fun t => { t with relSteps := put t.relSteps, recSteps := put t.recSteps }

/-- The own range comes back from the chip that served it: the next steps stand here, and the ABORTs call the members. -/
def State.takeBack (s : State) (c first n : Nat) (next : Nat → Nat) : State :=
  let chunks := (List.range n).map (first + ·)
  let low := (leastOf (chunks.map fun k => (next k + 65536 - s.firstStep c) % 65536)).getD 0
  let step := (s.firstStep c + low) % 65536
  let ahead := chunks.flatMap fun k => (List.range (min 2 ((next k + 65536 - step) % 65536))).map fun i => ((step + i) % 65536, k)
  let s := s.setCtx c fun x => { x with step := step, globalStep := step, released := ahead }
  s.each (stepRuns (chunks.map fun k => (k, next k))) fun s r => s.sendAbort c r.2.2 r.1 r.2.1 rsTakeover

/-- A HANDOVER (R345). -/
def State.handoverRx (s : State) (p : Bytes) : State :=
  let c := byteAt p 0
  let first := fld p 4 4
  let n := fld p 8 4
  let next := fun k => fld p (12 + 2 * (k - first)) 2
  if p.length ≠ 12 + 2 * n then s
  else if s.twin.state == .paired && s.twin.partnerHeld then s.takeBack c first n next
  else if s.twin.state != .paired && s.twin.state != .solo then s
  else
    let s := if s.twin.state == .paired then s.enterSolo else s
    let s := s.each ((List.range n).map (first + ·)) fun s k => s.noteNext c k (next k)
    let s := s.setTwin fun t => { t with takeoverUp := some s.clk.up }
    if (s.ctx c).serving then s else s.serveRange c

/-! Heartbeats (R336) -/

/-- TWIN.STATE code. -/
def TwinState.code (t : TwinState) : Nat := t.ctorIdx

/-- A HEARTBEAT payload. -/
def State.heartbeat (s : State) : Bytes :=
  beBytes 8 chipId ++ beBytes 1 s.twin.state.code ++ beBytes 1 (b2n (s.bget (twinReg 0x100) 0) + 2 * b2n s.twin.rangeHeld)
    ++ zeros 2 ++ beBytes 4 s.twin.freed ++ zeros 16

/-- From Stage D, and under a trip (R336, R382). -/
def State.twinBeats (s : State) : Bool := s.atStage 3 || (s.sys.tripped && s.sys.serving)

/-- A valid HEARTBEAT. -/
def State.heartbeatRx (s : State) (p : Bytes) : State :=
  let st := byteAt p 8
  if p.length ≠ 32 ∨ fld p 0 8 ≠ s.partnerId ∨ s.partnerId = 0 then s
  else
    let was := s.twin.partnerState
    let s := (s.rset (twinReg 0x118) s.tick).setTwin fun t => { t with
      hbUp := s.clk.up, creditSeen := fld p 12 4, partnerState := st, partnerHeld := bit (byteAt p 9) 1
      partnerTakeover := bit (byteAt p 9) 0 }
    let s := s.twinDrain s.twin.waiting.length
    match s.twin.state with
    | .paired => if st = 5 then s.enterSolo else s
    | .attach => if (was = 1 ∨ was = 2) ∧ (st = 0 ∨ st = 5) ∧ s.twin.helloHeard then s.attachFails 3 else s.copyOn.tryVerify
    | .lull => s.detachOn
    | .idle | .verify | .solo => s

/-! Resynchronisation and timers -/

/-- The taken-over range is dropped: every context of it is reset (R340's heading, R348). -/
def State.dropRange (s : State) : State :=
  let cs := (s.col.ctxs.filter fun kv => kv.2.serving).map Prod.fst
  let s := s.each cs fun s c =>
    let s := s.dropSlots fun x => x.ctx == c && x.taken
    s.setCtx c fun x => { x with
      serving := false, takenReleased := []
      resetting := if x.state == .idle then x.resetting else some (x.resetting.getD []) }
  s.setTwin fun t => { t with rangeHeld := false, takeoverUp := none, taking := false, takeoverLeft := [] }

/-- TWIN.CTRL.RESYNC. -/
def State.twinResync (s : State) : State × Code :=
  match s.twin.state with
  | .paired | .solo => (s.dropRange.startAttach, .ok)
  | .idle | .attach | .verify | .lull => (s, .busy)

/-- Why an attach is at its end (R341): no HELLO in 1 s, or a link down for LOSS_LIMIT ticks. -/
def State.attachEnd (s : State) (linkDown : Nat) : Option Nat :=
  if s.twin.state != .attach && s.twin.state != .verify then none
  else if !s.twin.helloHeard && decide (s.twin.attachUp + 2500000 ≤ s.clk.up) then some 1
  else if !s.twinUp && decide (s.fget (twinReg 0x100) 11 8 ≤ linkDown) then some 2
  else none

/-- A frame not acknowledged within 25 ticks is sent again unchanged (R337). -/
def State.resend (s : State) (i : Nat) : State :=
  match s.twin.unacked[i]? with
  | some u =>
    if u.sentUp + 25 ≤ s.clk.up then
      (s.setTwin fun t => { t with unacked := t.unacked.set i { u with sentUp := s.clk.up } }).twinOut u.frame
    else s
  | none => s

/-- What the twin role does at each tick: HELLO every 25 ticks, the copy, the handover and the takeover, and the counts
of waiting. -/
def State.twinTick (s : State) : State :=
  let s := if s.twin.state == .attach && !s.twin.proofGood && decide (s.twin.helloUp + 25 ≤ s.clk.up) then s.sendHello else s
  let s := if s.twin.state == .attach then s.copyOn.tryVerify else s
  let s := s.detachOn.handbackOn.takeoverOn
  let staged := (s.col.slots.filter fun x => x.phase == .staged && x.needAck && !x.acked).length
  let s := s.bump (twinReg 0x1A0) staged
  if s.twin.waiting.any fun w => byteAt w.frame 0 == twRecord then s.bump (twinReg 0x1A8) else s

end Sys2Proof.Machine
end

