-- ==== Sys2Proof/Machine/UuOps.lean ====
section
/-! DEFINITION. Update Units (chapter 10): the choice of a K bank, invocations and what a program computes (R245 to
R260), commits and reruns (R265), BIST and power states (R266), and program images (R261 to R264). -/

namespace Sys2Proof.Machine

/-! What a program computes -/

/-- A chunk as a UU works on it: its gradient plane, K values, plane block and the CFG word that rules its rounding. -/
structure ChunkRun where
  ctx : Nat
  step : Nat
  chunk : Nat
  grad : Bytes
  ks : List Nat
  block : Nat
  cfg : Nat
  passes : Nat
  lanes : Map (List Nat)
  digest : BitVec 64
  deriving DecidableEq, Repr

/-- Elements of the chunk, and its passes. -/
def ChunkRun.elems (r : ChunkRun) : Nat := r.grad.length / 4
def ChunkRun.total (r : ChunkRun) : Nat := r.elems / 64

/-- OUT_FMT, ROUND and SAT of the CFG word. -/
def ChunkRun.out (r : ChunkRun) : Fmt := (Fmt.ofCode (bits r.cfg 11 8)).getD .bf16
def ChunkRun.round (r : ChunkRun) : RoundMode := match bits r.cfg 13 12 with | 0 => .rne | 1 => .rtz | _ => .stoch
def ChunkRun.sat (r : ChunkRun) : Bool := bit r.cfg 14

/-- The registers, digest and outputs of an invocation under way. Vector registers not listed hold +0 (R245). -/
structure PassSt where
  v : Map (List Nat) := []
  digest : BitVec 64
  /-- Stores held until the end (R265): chip address and bytes. -/
  stores : List (Nat × Bytes) := []
  lanes : Map (List Nat) := []
  overflow : Nat := 0
  clamps : Nat := 0
  nanStores : Nat := 0
  poisons : Nat := 0
  deriving DecidableEq, Repr

/-- A vector register: 64 lanes. -/
def PassSt.reg (x : PassSt) (i : Nat) : List Nat := mgetD x.v i (List.replicate 64 0)

/-- SRC2 or SRC3: a K register supplies one value to all 64 lanes (R245, R250). -/
def PassSt.source (x : PassSt) (ks : List Nat) (isK : Bool) (i : Nat) : List Nat :=
  if isK then List.replicate 64 (ks.getD i 0) else x.reg i

/-- Programs of a context on this chip, decoded. -/
def Program.code (g : Program) : List UuInstr := g.instrs.filterMap uuFields

/-- Plane formats by code of R242. -/
def planeFormat (code : Nat) : Fmt := match code with | 0 => .fp32 | 1 => .bf16 | _ => .fp16

/-- Chip address of element `e` of plane `k`. -/
def ChunkRun.elemAddr (r : ChunkRun) (fmts : List Nat) (k e : Nat) : Nat :=
  r.block + planeOffset r.elems fmts k + e * ((planeFormat (fmts.getD k 0)).width / 8)

/-- The word of HBM that covers an address cannot be corrected (R281). -/
def State.badAt (s : State) (a : Nat) : Bool := s.sys.badWords.contains (a % hbmSize / 32)

/-- One element of a plane, decoded, with whether it is poisoned (R254, R281). -/
def State.loadElem (s : State) (r : ChunkRun) (fmts : List Nat) (k e : Nat) : Nat × Bool :=
  let f := planeFormat (fmts.getD k 0)
  let a := r.elemAddr fmts k e
  if s.badAt a then (0x7FC00000, true) else (planeLoad f (beNat (s.hread a (f.width / 8))), false)

/-- LD (R254): 64 elements of GRAD or of a plane. -/
def State.uuLoad (s : State) (g : Program) (r : ChunkRun) (p : Nat) (x : PassSt) (i : UuInstr) : PassSt :=
  let bind := g.inBind.getD i.mod 0
  if bind = 1 then
    { x with v := mput x.v i.dst ((List.range 64).map fun j => fld r.grad (4 * (64 * p + j)) 4) }
  else if 0x10 ≤ bind then
    let es := (List.range 64).map fun j => s.loadElem r (g.planeFmt.take g.planes) (bind - 0x10) (64 * p + j)
    { x with v := mput x.v i.dst (es.map Prod.fst), poisons := x.poisons + (es.filter Prod.snd).length }
  else x

/-- Lanes of a RESULT store that are NaN in its format or lie in an MX block of scale 0xFF (R254). -/
def nanLanes (f : Fmt) (lanes : List Nat) : Nat :=
  if f.isMx then
    (lanes.zipIdx.filter fun l =>
      isNanCode f (l.1 % 2 ^ f.width) || bits (lanes.getD (l.2 / 32 * 32) 0) 15 8 == 0xFF).length
  else (lanes.filter fun l => isNanCode f (l % 2 ^ f.width)).length

/-- ST (R254): the low bits of each lane to a plane, or to the result. -/
def uuStore (g : Program) (r : ChunkRun) (p : Nat) (x : PassSt) (i : UuInstr) : PassSt :=
  let bind := g.outBind.getD i.mod 0
  let src := x.reg i.src1
  if bind = 2 then { x with lanes := mput x.lanes p src, nanStores := x.nanStores + nanLanes r.out src }
  else if 0x10 ≤ bind then
    let fmts := g.planeFmt.take g.planes
    let f := planeFormat (fmts.getD (bind - 0x10) 0)
    { x with
      stores := x.stores ++ [(r.elemAddr fmts (bind - 0x10) (64 * p), src.flatMap fun l => beBytes (f.width / 8) (l % 2 ^ f.width))]
      nanStores := x.nanStores + nanLanes f src }
  else x

/-- DIGEST (R256): for each lane, each of the first `count` sources. -/
def uuDigest (x : PassSt) (i : UuInstr) : PassSt :=
  let srcs := ([i.src1, i.src2, i.src3].take i.mod).map x.reg
  { x with digest := (List.range 64).foldl (fun d l => srcs.foldl (fun d s => foldWord d (s.getD l 0)) d) x.digest }

/-- CVT and SRND (R255). -/
def uuConvert (seed : BitVec 64) (r : ChunkRun) (p : Nat) (x : PassSt) (i : UuInstr) : PassSt :=
  let c := convertLanes (cvtMode i r.out r.round r.sat seed) r.step r.chunk p (x.reg i.src1)
  { x with v := mput x.v i.dst c.1, overflow := x.overflow + c.2.1, clamps := x.clamps + c.2.2 }

/-- The other arithmetic instructions, lane by lane (R249 to R253). -/
def uuArith (r : ChunkRun) (x : PassSt) (i : UuInstr) : PassSt :=
  let a := x.reg i.src1
  let b := x.source r.ks (i.op.hasKsel && bit i.mod 4) i.src2
  let c := x.source r.ks (i.op.hasKsel && bit i.mod 5) i.src3
  { x with v := mput x.v i.dst ((List.range 64).map fun l =>
      laneOp i.op (bits i.mod 3 0) (a.getD l 0) (b.getD l 0) (c.getD l 0)) }

/-- One instruction of pass `p`. -/
def State.uuInstr (s : State) (g : Program) (r : ChunkRun) (p : Nat) (x : PassSt) (i : UuInstr) : PassSt :=
  match i.op with
  | .nop | .fin => x
  | .ld => s.uuLoad g r p x i
  | .st => uuStore g r p x i
  | .digest => uuDigest x i
  | .cvt | .srnd => uuConvert (s.ctxSeed r.ctx) r p x i
  | .fadd | .fsub | .fmul | .ffma | .fmin | .fmax | .fabs | .fneg | .frcp | .frsqrt | .fsqrt | .fdiv | .cmp | .sel =>
    uuArith r x i

/-- One pass: every vector register starts at +0 (R245). -/
def State.uuPass (s : State) (g : Program) (r : ChunkRun) (x : PassSt) (p : Nat) : PassSt :=
  g.code.foldl (s.uuInstr g r p) { x with v := [] }

/-- An invocation: consecutive passes (R258). -/
def State.uuRun (s : State) (g : Program) (r : ChunkRun) (first count : Nat) : PassSt :=
  ((List.range count).map (first + ·)).foldl (s.uuPass g r) { digest := r.digest, lanes := r.lanes }

/-- The result of a chunk from the RESULT lanes of its passes: packed elements, in an MX format two passes a
super-block with the scales of lanes 0 and 32 (R214, R254). -/
def uuResult (f : Fmt) : List (List Nat) → Bytes
  | a :: b :: rest =>
    if f.isMx then
      let scale := fun (l : List Nat) i => bits (l.getD i 0) 15 8
      superBlockBytes f [scale a 0, scale a 32, scale b 0, scale b 32] ((a ++ b).map (· % 2 ^ f.width)) ++ uuResult f rest
    else (a ++ b).flatMap (fun l => beBytes (f.width / 8) (l % 2 ^ f.width)) ++ uuResult f rest
  | [a] => a.flatMap fun l => beBytes (f.width / 8) (l % 2 ^ f.width)
  | [] => []

/-! The order of chunks (R259, R265) -/

/-- A chunk that a UU could take. -/
structure UuWork where
  mirror : Bool
  ctx : Nat
  step : Nat
  chunk : Nat
  core : Nat
  readyUp : Nat
  begun : Bool
  deriving DecidableEq, Repr

/-- A UU that is in BIST or quarantined leaves its chunks to its partner (R265, R266). -/
def State.uuAway (s : State) (n : Nat) : Bool := s.uuState n == 2 || s.uuState n == 3

/-- Cores whose chunks a UU runs. -/
def State.uuCores (s : State) (n : Nat) : List Nat := if s.uuAway (uuPartner n) then [n, uuPartner n] else [n]

/-- The record is the earliest one of its chunk not yet applied (R270), and the mirror can run. -/
def State.mirrorMayRun (s : State) (m : Mirror) : Bool :=
  let x := s.ctx m.ctx
  !m.applied && decide (m.readyUp ≤ s.clk.up) && x.program.isSome && (mget x.mirrorBlocks m.chunk).isSome
    && !s.col.mirrors.any fun o => o.ctx == m.ctx && o.chunk == m.chunk && !o.applied && stepAfter m.step o.step

/-- Chunks that the cores of a UU have ready. -/
def State.uuReady (s : State) (n : Nat) : List UuWork :=
  let cores := s.uuCores n
  ((s.col.slots.filter fun x => x.phase == .update && cores.contains x.core && x.bank.isSome
      && decide (x.readyUp ≤ s.clk.up) && (s.ctx x.ctx).program.isSome).map fun x =>
    ⟨false, x.ctx, x.step, x.chunk, x.core, x.readyUp, x.begun⟩)
  ++ (s.col.mirrors.filter fun m => cores.contains m.core && s.mirrorMayRun m).map fun m =>
    ⟨true, m.ctx, m.step, m.chunk, m.core, m.readyUp, m.begun⟩

/-- Key of a chunk in hand. -/
def UuWork.key (w : UuWork) : Bool × Nat × Nat × Nat := (w.mirror, w.ctx, w.step, w.chunk)

/-- The next chunk of a UU: the one in hand, a begun one its partner left, else in the order of R259. -/
def State.uuNext (s : State) (n : Nat) : Option UuWork :=
  let ready := s.uuReady n
  match (s.core n).uuChunk with
  | some key => ready.find? fun w => w.key == key
  | none =>
    let open_ := ready.filter fun w => (s.core (uuPartner n)).uuChunk != some w.key
    let rank := fun (w : UuWork) =>
      (((w.readyUp * 2 + b2n w.mirror) * 256 + (w.ctx + 256 - (s.core n).uuTurn) % 256) * 2 ^ 32) + w.chunk
    match (sortBy rank (open_.filter UuWork.begun)).head? with
    | some w => some w
    | none => (sortBy rank open_).head?

/-! K banks (R247) -/

/-- A bank is chosen for each chunk that became ready in an earlier tick; a chunk without one waits. -/
def State.chooseBanks (s : State) : State :=
  s.each (s.col.slots.filter fun x => x.phase == .update && x.bank.isNone && decide (x.readyUp < s.clk.up)) fun s x =>
    match s.bankFor x.ctx x.step with
    | some b => s.setSlot { x with
        bank := some (s.bankTag x.ctx b, s.bankValues x.ctx b), readyUp := s.clk.up
        digest := BitVec.ofNat 64 (x.step * 2 ^ 32 + x.chunk) }
    | none => s

/-- Ticks of waiting for a bank (R247). -/
def State.countBankWaits (s : State) : State :=
  s.each (s.col.slots.filter fun x => x.phase == .update && x.bank.isNone && decide (x.readyUp < s.clk.up)) fun s x =>
    s.ctxCtr .kWait x.ctx

/-! Invocations -/

/-- Set UU.STATE.STATE. -/
def State.setUuState (s : State) (n v : Nat) : State := s.fset (uuReg n 0x00C) 3 0 v

/-- The own chunk, or the mirror chunk, of a key. -/
def State.updateSlot (s : State) (c step chunk : Nat) : Option Slot :=
  s.col.slots.find? fun x => x.ctx == c && x.step == step && x.chunk == chunk && x.phase == .update
def State.mirrorOf (s : State) (c step chunk : Nat) : Option Mirror :=
  s.col.mirrors.find? fun m => m.ctx == c && m.step == step && m.chunk == chunk && !m.applied

/-- Replace a mirror chunk. -/
def State.setMirror (s : State) (m : Mirror) : State :=
  s.setCol fun k => { k with mirrors := k.mirrors.map fun o =>
    if o.ctx = m.ctx ∧ o.step = m.step ∧ o.chunk = m.chunk then m else o }

/-- The gradient plane of a slot. -/
def Slot.grad (x : Slot) : Bytes := x.parts.flatMap Prod.snd

/-- A chunk as a UU works on it. A mirror chunk runs under the CFG word its primary declared, with the K values of its
record (R270). -/
def State.runOf (s : State) (mirror : Bool) (c step chunk : Nat) : Option ChunkRun :=
  if mirror then
    (s.mirrorOf c step chunk).map fun m =>
      { ctx := c, step := step, chunk := chunk, grad := m.grad, ks := m.ks, block := s.chunkBlock c chunk true
        cfg := fld (s.ctx c).mirrorConfig 12 4, passes := m.passes, lanes := m.lanes, digest := m.digest }
  else
    (s.updateSlot c step chunk).map fun x =>
      { ctx := c, step := step, chunk := chunk, grad := x.grad, ks := (x.bank.map Prod.snd).getD []
        block := s.chunkBlock c chunk x.taken, cfg := s.rget (ctxReg c 0x100), passes := x.passes, lanes := x.lanes
        digest := x.digest }

/-- A RECORD payload (R335, R268). -/
def recordPayload (x : Slot) : Bytes :=
  let b := x.bank.getD (0, [])
  beBytes 1 x.ctx ++ zeros 1 ++ beBytes 2 x.step ++ beBytes 4 x.chunk ++ beBytes 2 (x.grad.length / 4) ++ beBytes 2 b.1
    ++ fit 64 (b.2.flatMap (beBytes 4)) ++ zeros 4 ++ x.grad

/-- A chunk begins its update (R267, R268): its mirror record leaves. -/
def State.beginUpdate (s : State) (x : Slot) : State :=
  if x.begun then s
  else if s.mustRecord x.ctx x.chunk then
    ((s.setSlot { x with begun := true, needAck := true }).bump (twinReg 0x188)).twinPush twRecord (recordPayload x)
  else s.setSlot { x with begun := true }

/-- The UU may take an invocation at the present boundary; under a trip none issues (R382). -/
def State.uuMayIssue (s : State) (n : Nat) : Bool :=
  s.uuState n == 0 && (s.core n).running.isNone && decide ((s.core n).uuRestUp ≤ s.clk.up) && !s.sys.tripped

/-- The next invocation of a UU issues (R258). -/
def State.issueUu (s : State) (n : Nat) : State :=
  let s := s.chooseBanks
  if !s.uuMayIssue n then s
  else match s.uuNext n with
    | none => s
    | some w =>
      match s.runOf w.mirror w.ctx w.step w.chunk, (s.ctx w.ctx).program with
      | some r, some g =>
        let inv : Invocation := {
          mirror := w.mirror, ctx := w.ctx, step := w.step, chunk := w.chunk, core := w.core, first := r.passes
          count := min (r.total - r.passes) (560 / passCost g.code), issueUp := s.clk.up }
        let s := if w.mirror then
            (match s.mirrorOf w.ctx w.step w.chunk with | some m => s.setMirror { m with begun := true } | none => s)
          else (match s.updateSlot w.ctx w.step w.chunk with | some x => s.beginUpdate x | none => s)
        (s.setUuState n 1).setCore n fun k => { k with
          running := some inv, uuChunk := some w.key
          uuTurn := if w.begun then k.uuTurn else (w.ctx + 1) % 256 }
      | _, _ => s

/-! BIST and quarantine (R265, R266) -/

/-- BIST starts: errors count anew (R265). -/
def State.startUuBist (s : State) (n : Nat) : State :=
  ((s.setUuState n 2).rset (uuReg n 0x100) 0).setCore n fun k => { k with uuBistAsked := false, uuBistUp := s.clk.up }

/-- Stage D ungates a UU (R266). -/
def State.ungateUu (s : State) (n : Nat) : State := if s.uuState n = 4 then s.startUuBist n else s

/-- UU.CTRL.RELEASE (R266). -/
def State.releaseUu (s : State) (n : Nat) : State := if s.uuState n = 3 then s.startUuBist n else s

/-- UU.CTRL.BIST (R266): at the next boundary between chunks. -/
def State.bistUu (s : State) (n : Nat) : State × Code :=
  if s.uuState n = 2 ∨ s.uuState n = 4 then (s, .busy)
  else if s.uuState n = 1 ∨ (s.core n).uuChunk.isSome then (s.setCore n fun k => { k with uuBistAsked := true }, .ok)
  else (s.startUuBist n, .ok)

/-- A UU is quarantined (R265), and both of a cluster raise FAULT. -/
def State.quarantineUu (s : State) (n : Nat) : State :=
  let s := (s.setUuState n 3).setCore n fun k => { k with uuChunk := none, uuCondemned := false, uuBistAsked := false }
  let s := s.alarm (uuReg n 0) 16 0x0C02 n
  if s.uuState (uuPartner n) = 3 then s.alarmPlain (uuReg n 0) 25 n else s

/-- A BIST pass ends (R266). -/
def State.endUuBist (s : State) (n : Nat) (pass : Bool) : State :=
  let s := s.fset (uuReg n 0x00C) 11 8 (if pass then 1 else 2)
  if pass then s.setUuState n 0 else s.quarantineUu n

/-! The end of an invocation (R265) -/

/-- Stores commit: fresh words carry fresh ECC (R281). -/
def State.commitStores (s : State) (stores : List (Nat × Bytes)) : State :=
  s.each stores fun s b =>
    (s.hwrite b.1 b.2).setSys fun y => { y with
      badWords := y.badWords.filter fun w => !(decide (b.1 / 32 ≤ w) && decide (w * 32 < b.1 + b.2.length)) }

/-- Counts of what the program computed (R254, R255, R281). -/
def State.countRun (s : State) (n : Nat) (r : ChunkRun) (g : Program) (x : PassSt) (count : Nat) : State :=
  let c := r.ctx
  let s := ((s.ctxCtr .outOverflow c x.overflow).ctxCtr .mxClamp c x.clamps).ctxCtr .uuNanStore c x.nanStores
  let s := if x.poisons = 0 then s else (s.ctxCtr .statePoison c x.poisons).alarm (ctxReg c 0) 17 0x0905 r.chunk
  let arith := (g.code.filter fun i => i.op.cls == .arith).length
  ((s.bump (uuReg n 0x118)).pmc (uuReg n 0) 0x100 (arith * count)).pmc (uuReg n 0) 0x101 count

/-- The passes of an own chunk have committed. -/
def State.slotRan (s : State) (slot : Slot) (r : ChunkRun) (x : PassSt) (passes : Nat) : State :=
  let slot := { slot with passes := passes, lanes := x.lanes, digest := x.digest, fails := 0 }
  if r.total ≤ passes then
    s.setSlot { slot with
      phase := .staged, commitUp := s.clk.up, result := uuResult r.out (x.lanes.map Prod.snd), lanes := [], parts := [] }
  else s.setSlot slot

/-- The passes of a mirror chunk have committed (R270, R271, R337, R343). -/
def State.mirrorRan (s : State) (m : Mirror) (r : ChunkRun) (x : PassSt) (passes : Nat) : State :=
  let m := { m with passes := passes, lanes := x.lanes, digest := x.digest, fails := 0 }
  if r.total ≤ passes then
    let s := (s.setMirror { m with
      applied := true, result := uuResult r.out (x.lanes.map Prod.snd), lanes := [], grad := [] }).twinFreed m.credits
    let s := if m.released then s.setCol fun k => { k with mirrors := k.mirrors.filter fun o =>
        !(o.ctx == m.ctx && o.step == m.step && o.chunk == m.chunk) } else s
    let s := s.setCtx m.ctx fun y => { y with mirrorDigests := y.mirrorDigests ++ [(m.step, m.chunk, x.digest)] }
    s.compareStep m.ctx m.step
  else s.setMirror m

/-- The UU is free again, and between chunks takes up a BIST that was asked for. -/
def State.uuFree (s : State) (n : Nat) (chunkDone : Bool) : State :=
  let s := s.setCore n fun k => { k with running := none, uuChunk := if chunkDone then none else k.uuChunk }
  let k := s.core n
  if s.uuState n != 1 then s
  else if k.uuCondemned then s.quarantineUu n
  else if k.uuBistAsked && k.uuChunk.isNone then s.startUuBist n
  else s.setUuState n 0

/-- What an invocation computed is committed to its chunk. -/
def State.commitRun (s : State) (n : Nat) (inv : Invocation) (r : ChunkRun) (g : Program) (x : PassSt) : State :=
  let passes := inv.first + inv.count
  let s := (s.commitStores x.stores).countRun n r g x inv.count
  if inv.mirror then
    match s.mirrorOf inv.ctx inv.step inv.chunk with
    | some m => s.mirrorRan m r x passes
    | none => s
  else match s.updateSlot inv.ctx inv.step inv.chunk with
    | some y => s.slotRan y r x passes
    | none => s

/-- RES_ERR has reached RES_LIMIT: quarantine follows the invocation in hand (R265). -/
def State.uuLimit (s : State) (n : Nat) : State :=
  if s.fget (uuReg n 0x104) 7 0 ≤ s.rget (uuReg n 0x100) then s.setCore n fun k => { k with uuCondemned := true } else s

/-- The register file keeps what the last pass left, and the K values in use (R245). -/
def State.keepRegs (s : State) (n : Nat) (r : ChunkRun) (v : Map (List Nat)) : State :=
  s.setCore n fun k => { k with vregs := v, kvals := r.ks }

/-- After a residue or ECC error the registers hold values that the spec does not state. -/
def State.spoilRegs (s : State) (n : Nat) : State :=
  let x := s.free (0x5500 + n)
  x.1.setCore n fun k => { k with
    vregs := (List.range 32).map fun i => (i, (List.range 64).map fun l =>
      (Sys2Proof.Config.freeValue (0x560000 + i * 64 + l) s.sys.freeCtr).toNat % 2 ^ 32) }

/-- An invocation ran without an error: it commits. -/
def State.invocationPassed (s : State) (n : Nat) (inv : Invocation) : State :=
  match s.runOf inv.mirror inv.ctx inv.step inv.chunk, (s.ctx inv.ctx).program with
  | some r, some g =>
    let x := s.uuRun g r inv.first inv.count
    let t := ((s.commitRun n inv r g x).keepRegs n r x.v).uuLimit n
    t.uuFree n (decide (r.total ≤ inv.first + inv.count))
  | _, _ => s.uuFree n true

/-- Failed runs in a row of the present invocation, and one more. -/
def State.noteFail (s : State) (inv : Invocation) : State × Nat :=
  if inv.mirror then
    match s.mirrorOf inv.ctx inv.step inv.chunk with
    | some m => (s.setMirror { m with fails := m.fails + 1 }, m.fails + 1)
    | none => (s, 1)
  else match s.updateSlot inv.ctx inv.step inv.chunk with
    | some x => (s.setSlot { x with fails := x.fails + 1 }, x.fails + 1)
    | none => (s, 1)

/-- An invocation had an error (R265): it commits nothing. After the second failure the UU is quarantined and the
partner runs the invocation; each failure there is announced. -/
def State.invocationFailed (s : State) (n : Nat) (inv : Invocation) : State :=
  let s := ((s.spoilRegs n).bump32 (uuReg n 0x100)).bump32 (uuReg n 0x108)
  let r := s.noteFail inv
  let s := r.1
  if r.2 = 2 then (s.uuFree n false).quarantineUu n
  else
    let s := if 2 < r.2 then
        s.alarm (uuReg n 0) 24 0x0C01 n
          [condLink 0x0905 inv.chunk, condLink 0x0902 inv.ctx, condLink 0x0C02 (uuPartner n)]
      else s
    s.uuFree n false

/-- An invocation ends. An overrun keeps the UU from the next boundary (R30). -/
def State.endInvocation (s : State) (n : Nat) (fault : UuFault) (late : Bool) : State :=
  match (s.core n).running with
  | none => s
  | some inv =>
    let s := if late then (s.bump32 (uuReg n 0x110)).bump (tickReg 0x1A0) else s
    let s := s.setCore n fun k => { k with uuRestUp := inv.issueUp + 1 + b2n late }
    match fault with
    | .error => s.invocationFailed n inv
    | .corrected k => (s.bump32 (uuReg n 0x10C) k).invocationPassed n inv
    | .none => s.invocationPassed n inv

/-! Program images (R261 to R264) -/

/-- Instruction words of an image. -/
def imageInstrs (b : Bytes) : List Nat := (List.range (fld b 8 2)).map fun i => fld b (64 + 4 * i) 4

/-- Header and instructions of an image. -/
def imageCode (b : Bytes) : Bytes := b.take (64 + 4 * fld b 8 2)

/-- Check 3: MAGIC, HEADER_LEN, TOTAL_LEN and IMAGE_CRC are correct and reserved bytes are 0. -/
def imageFormed (b : Bytes) : Bool :=
  let n := fld b 8 2
  let signed_ := bit (byteAt b 11) 0
  let code := imageCode b
  decide (64 ≤ b.length) && fld b 0 4 == 0x575A5550 && fld b 6 2 == 64 && decide (1 ≤ n) && decide (n ≤ 256)
    && bits (byteAt b 11) 7 1 == 0 && byteAt b 31 == 0 && (signed_ || byteAt b 30 == 0)
    && fld b 32 4 == 64 + 4 * n + (if signed_ then 64 else 0) && b.length == fld b 32 4
    && fld b 36 4 == (crc32c (code.take 36 ++ zeros 4 ++ code.drop 40)).toNat

/-- R263. -/
def State.imageSigned (s : State) (b : Bytes) : Bool :=
  let slot := mgetD s.fuse.program (byteAt b 30) {}
  if bit (byteAt b 11) 0 then
    decide (byteAt b 30 < 4) && slot.state == .enrolled
      && edVerify slot.key (ascii "WZ5PROG1" ++ sha512 (imageCode b)) (b.drop (b.length - 64))
  else !s.bget (secReg 0x008) 0

/-- Check 6: bindings and plane formats. -/
def imageBinds (b : Bytes) : Bool :=
  let planes := byteAt b 10
  let ins := (sub b 12 6).map BitVec.toNat
  let outs := (sub b 18 4).map BitVec.toNat
  let plane := fun x => decide (0x10 ≤ x) && decide (x < 0x10 + planes)
  let fmts := (sub b 22 8).map BitVec.toNat
  decide (planes ≤ 8) && (ins.all fun x => x == 0 || x == 1 || plane x) && (outs.all fun x => x == 0 || x == 2 || plane x)
    && (outs.filter (· == 2)).length == 1 && distinct (outs.filter (decide <| 0x10 ≤ ·))
    && (fmts.take planes).all (fun f => decide (f ≤ 2)) && (fmts.drop planes).all (· == 0)

/-- Check 7 on one instruction, after the instructions before it. -/
def instrGood (b : Bytes) (before : List UuInstr) (last : Bool) (i : UuInstr) : Bool :=
  let ins := (sub b 12 6).map BitVec.toNat
  let outs := (sub b 18 4).map BitVec.toNat
  let again := before.any fun o => o.op == i.op && o.mod == i.mod
  i.valid && (i.op == .fin) == last
    && (match i.op with
      | .ld => ins.getD i.mod 0 != 0 && !again
      | .st => outs.getD i.mod 0 != 0 && !again
      | .nop | .fadd | .fsub | .fmul | .ffma | .fmin | .fmax | .fabs | .fneg | .frcp | .frsqrt | .fsqrt | .fdiv | .cmp
      | .sel | .cvt | .srnd | .digest | .fin => true)

/-- Index of the first failing instruction of check 7; a RESULT stream that is never stored fails at END. -/
def firstBad (b : Bytes) (n : Nat) : Nat → List UuInstr → List Nat → Option Nat
  | _, _, [] => none
  | k, before, w :: rest =>
    match uuFields w with
    | none => some k
    | some i =>
      if !instrGood b before (k + 1 == n) i then some k
      else if i.op == .fin && !(before.any fun o => o.op == .st && ((sub b 18 4).map BitVec.toNat).getD o.mod 0 == 2) then some k
      else firstBad b n (k + 1) (before ++ [i]) rest

/-- The checks of R262 in order: number, reply and, for check 7, the failing instruction. -/
def State.progFails (s : State) (c : Nat) (b : Bytes) : Option (Nat × Code × Nat) :=
  if !s.atStage 3 then some (1, .stageNotReady, 0)
  else if s.ctxBusy c then some (2, .contextBusy, 0)
  else if !imageFormed b then some (3, .badAddress, 0)
  else if fld b 4 2 ≠ 1 then some (4, .version, 0)
  else if !s.imageSigned b then some (5, .authFail, 0)
  else if !imageBinds b then some (6, .badAddress, 0)
  else (firstBad b (fld b 8 2) 0 [] (imageInstrs b)).map fun k => (7, .badAddress, k)

/-- A PROG_LOAD image is judged; an accepted one is being written to every UU, and its reply follows (R264). -/
def State.startProg (s : State) (c : Nat) (b : Bytes) (f : InFlight) : State × Option Code :=
  match s.progFails c b with
  | some (check, code, k) =>
    (if check = 7 then s.errInfo (ctxReg c 0) code k 0xFFE else s.errInfo (ctxReg c 0) code check 0xFFF, some code)
  | none => (s.setCtx c fun x => { x with loading := some ⟨f, b, s.clk.up⟩ }, none)

/-- The image stands in every UU (R264). -/
def State.installProg (s : State) (c : Nat) : State :=
  match (s.ctx c).loading with
  | none => s
  | some j =>
    let b := j.image
    let g : Program := {
      instrs := imageInstrs b, planes := byteAt b 10, inBind := (sub b 12 6).map BitVec.toNat
      outBind := (sub b 18 4).map BitVec.toNat, planeFmt := (sub b 22 8).map BitVec.toNat
      measurement := sha512 (imageCode b) }
    ((s.setCtx c fun x => { x with program := some g, loading := none }).advance (ctxReg c 0x148)).reply j.fly okAns

end Sys2Proof.Machine
end

