-- ==== Sys2Proof/Machine/RegView.lean ====
section
/-! DEFINITION. What each register reads (chapter 13): the stored value, or the value that the state gives it. -/

namespace Sys2Proof.Machine

/-! Header (R314) -/

/-- CYCLE_CNT of a clock of R310: FC and HBM controllers at 1.6 GHz, EC at 1.5 GHz, Marionette at 2.0 GHz. -/
def State.cycleCnt (s : State) (clock : Nat) : Nat :=
  match clock with
  | 1 => s.clk.ec + s.clk.fc * 15 / 16
  | 2 => s.clk.mc + s.clk.fc * 5 / 4
  | _ => s.fcNow

/-- PAGE_CAP. -/
def Page.cap (p : Page) : Nat :=
  specLen p.block (p.die == 8) * 65536 + p.block.clock (p.die == 8) * 4096 + 8

/-- PORT and CAL pages of a port number that leads no port (R311). -/
def State.idlePage (s : State) (p : Page) : Bool :=
  (p.block == .port || p.block == .cal) && !s.leads (256 * p.die + p.inst)

/-- STATE of the header, where the state gives it. -/
def State.headerState (s : State) (p : Page) : Nat :=
  let n := 256 * p.die + p.inst
  match p.block with
  | .port => s.lanesNow n * 256 + s.portState n
  | .lane =>
    let l := if p.die = 8 then 2048 + 2 * p.inst else 2 * n
    (s.lane (l + 1)).state.ctorIdx * 16 + (s.lane l).state.ctorIdx
  | .cal =>
    if (s.pcal n).suspended then 2 else if s.rget (calReg n 0x104) = 0 then 0 else 1
  | .ctx => (s.ctx p.inst).state.ctorIdx
  | .kite => b2n s.kiteLull
  | .twin => s.twin.state.code
  | .uu =>
    let u := 8 * p.die + p.inst
    s.rget (p.base + 0x00C) + 4096 * b2n (s.uuState u ≤ 1 && s.uuState (uuPartner u) == 3)
  | .glb | .cd | .fd | .cl | .fib | .tbl | .cc | .eng | .hbm | .pbl | .els | .tick | .tel | .sec | .dump =>
    s.rget (p.base + 0x00C)

/-- The common header. -/
def State.headerView (s : State) (p : Page) (off : Nat) : Nat :=
  match off with
  | 0x000 => p.base + 1
  | 0x004 => p.cap
  | 0x00C => s.headerState p
  | 0x020 => s.cycleCnt (p.block.clock (p.die == 8))
  | _ => s.rget (p.base + off)

/-! Blocks -/

/-- KEY_STATE (R332). -/
def State.keyState (s : State) : Nat :=
  (List.range 8).foldl (fun n i => n + (mgetD s.fuse.manager i {}).state.ctorIdx * 4 ^ i) 0
    + (List.range 4).foldl (fun n i => n + (mgetD s.fuse.program i {}).state.ctorIdx * 4 ^ (i + 8)) 0

/-- MGR_KEY_ROLE. -/
def State.keyRoles (s : State) : Nat :=
  (List.range 8).foldl (fun n i => n + b2n (mgetD s.fuse.manager i {}).admin * 2 ^ i) 0

/-- GLB.STAGE: a held chip reads A with HELD set (R375). -/
def State.stageView (s : State) : Nat := if s.dump.held then 256 else s.sys.stage

/-- The management-wide registers. -/
def State.glbView (s : State) (off : Nat) : Nat :=
  match off with
  | 0x100 => s.tick % 2 ^ 32
  | 0x104 => s.stageView
  | 0x10C =>
    let v := s.rget (glbReg off)
    if s.fuse.hcp1Fused then v % 2 ^ 30 + 2 ^ 30 else v
  | 0x158 => chipId
  | 0x160 => (Sys2Proof.Config.station false).toNat
  | 0x168 => (Sys2Proof.Config.station true).toNat
  | 0x170 => s.sys.lastCause * 256 + s.sys.lastReset
  | 0x174 => s.sys.straps.toNat
  | _ => s.rget (glbReg off)

def State.cdView (s : State) (off : Nat) : Nat :=
  match off with
  | 0x100 => Sys2Proof.Config.coreDuty.toNat
  | 0x108 => ((List.range 128).filter fun e => s.engState e == 3).length
  | 0x10C => ((List.range 32).filter fun u => s.uuState u == 3).length
  | 0x1AC => s.fencesInWindow
  | 0x1B0 => s.flt.held.length
  | _ => s.rget (cdReg off)

/-- Cells of a die in PKT_OVF, of 256 bytes each (R94). -/
def State.ovfCells (s : State) (p : Cell → Bool) : Nat := (s.sw.voq.filter fun c => c.spilled && p c).length

def State.fdView (s : State) (d off : Nat) : Nat :=
  match off with
  | 0x108 => (s.dtdLanes d).length
  | 0x110 => 256 * s.ovfCells fun c => c.cluster / 4 == d
  | 0x120 => (Sys2Proof.Config.openRegister (fdReg d off) s.fcNow).toNat % 65536
  | _ => s.rget (fdReg d off)

def State.clView (s : State) (k off : Nat) : Nat :=
  match off with
  | 0x108 => (s.sw.voq.filter fun c => c.cluster == k && !c.spilled).length
  | 0x110 => s.ovfCells fun c => c.cluster == k
  | _ => s.rget (clReg k off)

def State.portView (s : State) (p off : Nat) : Nat :=
  match off with
  | 0x148 | 0x14C | 0x150 | 0x154 | 0x158 => wrap 32 (s.bucketNow p ((off - 0x148) / 4)).bytes
  | _ => s.rget (portReg p off)

/-- TX_CARRIER and RX_CARRIER. -/
def carrierView : Option (Nat × Nat) → Nat
  | some (f, w) => 2 ^ 31 + w * 65536 + f
  | none => 0

/-- A register of a lane's own block. -/
def State.laneView (s : State) (l off : Nat) : Nat :=
  let x := s.lane l
  match off with
  | 0x00 => x.state.ctorIdx
  | 0x04 => carrierView x.tx
  | 0x08 => carrierView x.rx
  | 0x0C => let c := x.tx.getD (homeOf l); (s.txRing c.1 c.2).ctorIdx
  | 0x10 => let c := x.rx.getD (homeOf l); (s.rxRing c.1 c.2).ctorIdx
  | _ => s.rget (laneReg l off)

def State.fibView (s : State) (f off : Nat) : Nat :=
  match off with
  | 0x100 => (List.range 9).foldl (fun n w =>
      n + b2n (s.rxRing f w == .locked && (s.carrier f w).rxState == .ok) * 2 ^ w) 0
  | 0x104 =>
    if f < 256 ∨ 288 ≤ f then 0
    else match s.spareCarries (f - 256) with
      | some g => 2 ^ 31 + g
      | none => 0
  | _ => s.rget (fibReg f off)

/-- The control page of the tables. The four MAC replicas differ only while a relay is at work; the page shows die 0's. -/
def State.tblView (s : State) (off : Nat) : Nat :=
  match off with
  | 0x128 => s.tbl.lpm.length
  | 0x12C => s.tbl.mac0.length
  | 0x130 => (s.tbl.mac0.filter fun kv => decide (262144 ≤ kv.1)).length
  | 0x134 => s.tbl.relay.length
  | 0x138 => b2n s.tbl.busy.isSome
  | _ => s.rget (tblReg off)

/-- CAL.ENTRY (R323). -/
def State.calEntryView (s : State) (p : Nat) : Nat :=
  let sel := s.rget (calReg p 0x124)
  let e := calEntryAt (if bit sel 15 then (s.pcal p).shadow else (s.pcal p).active) (sel % 8192)
  match e.owner with
  | some c => 2 ^ 24 + c.val * 65536 + e.grant.toNat
  | none => e.grant.toNat

def State.calView (s : State) (p off : Nat) : Nat :=
  match off with
  | 0x100 =>
    let x := s.pcal p
    b2n x.armed + 2 * s.fget (calReg p 0x100) 1 1 + 4 * b2n x.stale + 8 * b2n (s.overcap p) + 16 * b2n x.suspended
  | 0x120 => s.rget (calReg 0 0x120)
  | 0x128 => s.calEntryView p
  | _ => s.rget (calReg p off)

/-- Member and gain that CTX.SLOWEST gives (R204). -/
def State.slowest (s : State) (c : Nat) : Nat :=
  let b := (s.ctx c).members.foldl (fun (b : Nat × Nat) kv => if b.2 < kv.2.gain then (kv.1, kv.2.gain) else b) (0, 0)
  min b.2 (2 ^ 20 - 1) * 4096 + b.1

/-- The chunk that CTX.MAP_SEL names, where the context holds a placement. -/
def State.mapChunk (s : State) (c : Nat) : Option Placed :=
  (s.ctx c).placed.find? fun p => p.chunk == s.rget (ctxReg c 0x150)

/-- Bitmap of members (R204). -/
def State.memberMap (s : State) (c word : Nat) : Nat :=
  let l := if s.bget (ctxReg c 0x170) 0 then (s.ctx c).startWait else (s.ctx c).missing
  (List.range 32).foldl (fun n i => n + b2n (l.contains (32 * word + i)) * 2 ^ i) 0

/-- MEMBER_WIN: entry j of the bank that MEMBER_BANK selects. -/
def State.memberWord (s : State) (c off : Nat) : Nat :=
  let m := 256 * s.fget (ctxReg c 0x13C) 3 0 + (off - memberWin) / 8
  let v := s.rget (memberKey c m)
  if off % 8 < 4 then v / 2 ^ 32 else v % 2 ^ 32

def State.ctxView (s : State) (c off : Nat) : Nat :=
  let m := s.fget (ctxReg c 0x17C) 11 0
  let map := fun (f : Placed → Nat) => match s.mapChunk c with | some p => f p | none => 2 ^ 32 - 1
  if memberWin ≤ off then s.memberWord c off
  else if 0x220 ≤ off ∧ off < 0x420 then s.memberMap c ((off - 0x220) / 4)
  else match off with
    | 0x14C => (s.ctx c).step
    | 0x154 => map Placed.core
    | 0x158 => map fun _ => min (s.groupsPerTile c) (colGroups (s.elems c)) * 256 + s.tiles c
    | 0x15C => map Placed.engine
    | 0x160 => map Placed.desc
    | 0x168 => match s.mapChunk c with
      | some p => if s.updates c then s.chunkBlock c p.chunk false else 2 ^ 64 - 1
      | none => 2 ^ 64 - 1
    | 0x174 => s.slowest c
    | 0x180 => (s.member c m).last % 2 ^ 32
    | 0x184 => (s.member c m).miss % 2 ^ 32
    | 0x188 => (s.member c m).lateSum
    | 0x4C0 => s.memberScore c m
    | _ => s.rget (ctxReg c off)

def State.ccView (s : State) (n off : Nat) : Nat :=
  let mine := s.col.slots.filter fun x => x.core == n
  match off with
  | 0x100 => freeDescs s.usedDescs n
  | 0x104 | 0x108 | 0x10C | 0x110 => s.pagesFree n ((off - 0x104) / 4)
  | 0x114 => s.stagingFree n
  | 0x118 => mine.length
  | _ => s.rget (ccReg n off)

/-- Bases and sizes of a die's regions (R273). -/
def regionTable (d : Nat) : List Nat :=
  let g := 2 ^ 30
  let at_ := fun x => d * 2 ^ 37 + x
  [at_ 0, 114 * g, at_ (114 * g), 8 * g, at_ (122 * g), 4 * g, at_ (126 * g), g, at_ (127 * g), g]

def State.hbmView (s : State) (h off : Nat) : Nat :=
  if 0x128 ≤ off ∧ off < 0x178 then (regionTable (h / 2)).getD ((off - 0x128) / 8) 0 else s.rget (hbmReg h off)

/-- The ring state of the die-to-die lane that RING_SEL names: its transmit ring on the branch to the other two dies. -/
def State.pblRing (s : State) (d : Nat) : Nat :=
  let lane := s.fget (pblDieReg d 0x104) 8 0
  (s.ring (.dtdTx (Fin.ofNat 4 d) (Fin.ofNat 512 lane) false)).state.ctorIdx

def State.elsView (s : State) (m off : Nat) : Nat :=
  let x := s.els m
  match off with
  | 0x100 =>
    b2n x.present + 2 * b2n (!x.suitable) + 4 * s.fget (elsReg m 0x100) 2 2 + 8 * s.fget (elsReg m 0x100) 3 3
      + 16 * b2n x.safeIdle
  | _ => s.rget (elsReg m off)

def State.tickView (s : State) (off : Nat) : Nat :=
  match off with
  | 0x100 =>
    b2n s.clk.aligned + 2 * b2n s.clk.holdover + 16 * (match s.clk.upstream with | some i => i.val | none => 7)
  | 0x148 => s.tick
  | _ => s.rget (tickReg off)

/-- The record window of a management port (R396). -/
def State.aerWin (s : State) : MPort → AerWin
  | .m0 => s.aer.win0
  | .m1 => s.aer.win1

def State.telView (s : State) (m : MPort) (off : Nat) : Nat :=
  match off with
  | 0x300 => s.aer.seq % 2 ^ 32
  | 0x304 => (s.aerWin m).sel.toNat
  | 0x308 => (s.aerWin m).status
  | _ => if 0x340 ≤ off ∧ off < 0x380 then fld (s.aerWin m).rec_ (off - 0x340) 4 else s.rget (telReg off)

/-- BOOT_STATUS. -/
def State.bootStatus (s : State) : Nat :=
  s.sys.bootReason * 256 + 32 * b2n s.sys.slotBValid + 16 * b2n s.sys.slotAValid + s.sys.fwSlot.getD 3

def State.secView (s : State) (off : Nat) : Nat :=
  if 0x240 ≤ off ∧ off < 0x280 then fld s.sys.fwMeasure (off - 0x240) 4
  else if 0x400 ≤ off ∧ off < 0x4D0 then fld devCert (off - 0x400) 4
  else match off with
    | 0x104 => (List.range 4).foldl (fun n i => n + b2n ((mgetD s.fuse.program i {}).state == .enrolled) * 2 ^ i) 0
    | 0x200 => s.bootStatus
    | 0x204 => s.sys.fwVersion
    | 0x208 => s.sys.fwSvn
    | 0x20C => s.fuse.fwSvnMin
    | 0x280 => s.keyState
    | 0x284 => s.keyRoles
    | _ => s.rget (secReg off)

/-- DUMP.STATUS (R377). -/
def State.dumpView (s : State) (off : Nat) : Nat :=
  match off with
  | 0x100 =>
    s.dump.lastCause % 256 * 256 + (s.dump.diesDumped.foldl (fun n d => n + 2 ^ d) 0) * 16
      + 2 * b2n (!s.dump.gaspDies.isEmpty) + b2n (!s.dump.snaps.isEmpty || (s.dump.fatal.isSome && !s.dump.held))
  | _ => s.rget (dumpReg off)

/-- What a register of a page reads, for a request on a management port. -/
def State.regView (s : State) (m : MPort) (p : Page) (off : Nat) : Nat :=
  let n := 256 * p.die + p.inst
  if off < 0x100 then s.headerView p off
  else if s.idlePage p then 0
  else match p.block with
    | .glb => s.glbView off
    | .cd => s.cdView off
    | .fd => s.fdView p.die off
    | .cl => s.clView (4 * p.die + p.inst) off
    | .port => s.portView n off
    | .lane =>
      let l := if p.die = 8 then 2048 + 2 * p.inst else 2 * n
      if off < 0x180 then s.laneView l (off - 0x100) else s.laneView (l + 1) (off - 0x180)
    | .fib =>
      let f := if p.die = 8 then 288 + p.inst
        else if p.inst < 64 then 64 * p.die + p.inst else 256 + 8 * p.die + (p.inst - 64)
      s.fibView f off
    | .tbl => if p.die = 8 then s.tblView off else s.rget (p.base + off)
    | .cal => s.calView n off
    | .ctx => s.ctxView p.inst off
    | .cc => s.ccView (8 * p.die + p.inst) off
    | .eng | .uu | .kite | .twin => s.rget (p.base + off)
    | .dump => s.dumpView off
    | .hbm => s.hbmView (2 * p.die + p.inst) off
    | .pbl => if p.die ≠ 8 ∧ off = 0x108 then s.pblRing p.die else s.rget (p.base + off)
    | .els => s.elsView p.inst off
    | .tick => s.tickView off
    | .tel => if p.die = 8 then s.telView m off else s.rget (p.base + off)
    | .sec => s.secView off

/-! Words (R309, R312) -/

/-- The 32-bit word at an offset of a page: a register, or a half of a 64-bit register with the high half at the lower
address; a reserved word reads 0. -/
def State.wordView (s : State) (m : MPort) (p : Page) (off : Nat) : Nat :=
  match regAt p.block (p.die == 8) off with
  | none => 0
  | some r =>
    let v := s.regView m p r.off
    if !r.wide then v % 2 ^ 32 else if off = r.off then v / 2 ^ 32 % 2 ^ 32 else v % 2 ^ 32

/-- The 64 bits at an aligned offset: a 64-bit register, or two words. -/
def State.pairView (s : State) (m : MPort) (p : Page) (off : Nat) : Nat :=
  s.wordView m p off * 2 ^ 32 + s.wordView m p (off + 4)

/-- A page image as read (R368). -/
def State.pageImage (s : State) (p : Page) : Bytes :=
  (List.range 1024).flatMap fun i => beBytes 4 (s.wordView .m0 p (4 * i))

end Sys2Proof.Machine
end

