-- ==== Sys2Proof/Machine/DumpOps.lean ====
section
/-! DEFINITION. Snapshots, the dump format and fatal dumps (R366 to R368, R374 to R378), context resets as they start
(R370) and the Doldrums detector (R362 to R365). -/

namespace Sys2Proof.Machine

/-! Records (R368) -/

/-- One record. -/
structure DumpRec where
  kind : Nat
  /-- Page address of the unit. -/
  page : Nat
  index : Nat := 0
  region : Nat := 0
  data : Bytes := []
  deriving DecidableEq, Repr

/-- Record header and data. -/
def DumpRec.bytes (r : DumpRec) : Bytes :=
  beBytes 4 r.page ++ beBytes 1 r.kind ++ zeros 1 ++ beBytes 1 r.region ++ zeros 1 ++ beBytes 4 r.data.length
    ++ beBytes 4 r.index ++ r.data

/-- Bytes of a record with its header. -/
def DumpRec.size (r : DumpRec) : Nat := 16 + r.data.length

/-- Bytes whose content the spec leaves to the implementation: raw SRAM, core state, the log and a descriptor image. -/
def State.openBytes (s : State) (key n : Nat) : Bytes :=
  (List.range n).map fun i => Sys2Proof.Config.dumpByte s.sys.freeCtr key i

/-- PAGE. -/
def State.pageRec (s : State) (p : Page) : DumpRec := { kind := 0x01, page := p.base, data := s.pageImage p }

/-- Arrival mask of a slot: member m at bit m mod 8 of byte floor(m / 8). -/
def arrivalMask (x : Slot) : Bytes :=
  let set := (x.contribs.filter Contribution.done).map Contribution.member
  (List.range 512).map fun i =>
    BitVec.ofNat 8 ((List.range 8).foldl (fun n j => n + b2n (set.contains (8 * i + j)) * 2 ^ j) 0)

/-- First 256 bytes of a slot's data: those of its lowest member; bytes that no cell has written are open. -/
def State.slotData (s : State) (x : Slot) : Bytes :=
  let first := x.contribs.find? fun k => k.member == 0
  (List.range 256).map fun i =>
    match first.bind fun k => mget k.cells (i / 240) with
    | some c => c.getD (i % 240) (Sys2Proof.Config.dumpByte s.sys.freeCtr (0x20000000 + x.desc) i)
    | none => Sys2Proof.Config.dumpByte s.sys.freeCtr (0x20000000 + x.desc) i

/-- SLOT. The layout of the descriptor image is the implementation's. -/
def State.slotRec (s : State) (x : Slot) : DumpRec :=
  { kind := 0x02, page := ccReg x.core 0, index := x.desc,
    data := s.openBytes (0x10000000 + x.desc) 64 ++ arrivalMask x ++ s.slotData x }

/-- ACCUM: read at an idle boundary, when every accumulator has been copied to its latch and cleared (R209). -/
def accumRec (e : Nat) : DumpRec := { kind := 0x03, page := engReg e 0, index := e, data := zeros 10320 }

/-- UU_REGS: V0 to V31 lane by lane, then the 16 K values in use. -/
def State.uuRec (s : State) (n : Nat) : DumpRec :=
  let k := s.core n
  { kind := 0x04, page := uuReg n 0, index := n,
    data := (List.range 32).flatMap (fun i => wordBytes (fit' 64 (mgetD k.vregs i []))) ++ wordBytes (fit' 16 k.kvals) }
where
  /-- A list of numbers made exactly `n` long. -/
  fit' (n : Nat) (l : List Nat) : List Nat := (l ++ List.replicate n 0).take n

/-- SRAM records of a die: packet 64 MiB, gather 128 MiB, calendars 8 MiB and tables 16 MiB, cut into 16 MiB. -/
def State.sramRecs (s : State) (d : Nat) : List DumpRec :=
  [(1, 4, 2 ^ 24), (2, 8, 2 ^ 24), (3, 1, 2 ^ 23), (4, 1, 2 ^ 24)].flatMap fun (r : Nat × Nat × Nat) =>
    (List.range r.2.1).map fun i =>
      { kind := 0x05, page := fdReg d 0, index := i * 2 ^ 24, region := r.1,
        data := s.openBytes (0x40000000 + d * 256 + r.1 * 16 + i) r.2.2 }

/-- CORE records and the LOG record of the Marionette; the length of the log's tail is firmware's. -/
def State.cdRecs (s : State) : List DumpRec :=
  ((List.range 4).map fun i => { kind := 0x06, page := cdReg 0, index := i, data := s.openBytes (0x60000000 + i) 4096 })
  ++ [{ kind := 0x07, page := cdReg 0,
        data := s.openBytes 0x70000000
          ((Sys2Proof.Config.freeValue 0x70000000 s.sys.freeCtr).toNat % 32769 * 4) }]

/-- A unit that does not answer gets UNREADABLE in its record's place (R376). -/
def readable (silent : List Nat) (rs : List DumpRec) : List DumpRec :=
  rs.map fun r => if silent.contains r.page then { kind := 0xFF, page := r.page } else r

/-! Header (R367) -/

/-- What a header says of its dump. -/
structure DumpHead where
  kind : Nat
  die : Nat
  cause : Nat
  tick : TickNo
  ptp : Nat
  ctx : Option Nat := none
  gasp : List Nat := []
  second : Nat := 0
  deriving DecidableEq, Repr

/-- The 64 bytes of a header. -/
def DumpHead.bytes (h : DumpHead) (records length : Nat) : Bytes :=
  beBytes 4 0x575A4450 ++ beBytes 2 1 ++ beBytes 1 h.kind ++ beBytes 1 h.die ++ beBytes 2 h.cause
    ++ beBytes 6 h.tick.toNat ++ beBytes 8 h.ptp ++ beBytes 8 chipId ++ beBytes 4 records ++ beBytes 4 length
    ++ beBytes 4 (h.ctx.getD 0xFFFFFFFF) ++ beBytes 1 (h.gasp.foldl (fun n d => n + 2 ^ d) 0) ++ beBytes 1 h.second
    ++ zeros 18

/-- A whole dump. -/
def dumpImage (h : DumpHead) (rs : List DumpRec) : Bytes :=
  let body := rs.flatMap DumpRec.bytes
  h.bytes rs.length (64 + body.length) ++ body

/-! Snapshots (R366) -/

/-- Chip address of the DUMP region of a die (R273). -/
def dumpBase (d : Nat) : Nat := d * 2 ^ 37 + 127 * 2 ^ 30

/-- Bytes of the snapshot area. -/
def snapArea : Nat := 2 ^ 28

/-- Bytes stored in the ring of a die's snapshot area. -/
def State.snapStore (s : State) (d off : Nat) (bs : Bytes) : State :=
  let n := snapArea - off % snapArea
  (s.hwrite (dumpBase d + off % snapArea) (bs.take n)).hwrite (dumpBase d) (bs.drop n)

/-- A die writes one snapshot at SNAP_WR, which moves on to the next 4 KiB boundary. -/
def State.writeSnap (s : State) (h : DumpHead) (rs : List DumpRec) : State :=
  if rs.isEmpty then s
  else
    let wr := s.rget (dumpReg (0x120 + 4 * h.die))
    let img := dumpImage h rs
    (s.snapStore h.die wr img).rset (dumpReg (0x120 + 4 * h.die)) (ceilDiv (wr + img.length) 4096 * 4096 % snapArea)

/-- A snapshot starts: what it names is fixed now, and it is written when every unit has been read. -/
def State.startSnap (s : State) (cause : Nat) (ctx : Option Nat) (slots : List Nat) (pages : Bool)
    (thenReset : List Nat) : State :=
  s.setDump fun d => { d with snaps := d.snaps ++ [
    ⟨cause, ctx, slots, pages, thenReset, s.clk.tick, s.ptpNow⟩] }

/-- Records that a snapshot writes on a die: the slots it names, and the engines and UUs of their cores; or, for
TRIGGER, every page, with those of the Marionette on die 0. -/
def State.snapRecs (s : State) (x : Snapshot) (d : Nat) : List DumpRec :=
  if x.pages then (pagesOf d ++ (if d = 0 then pagesOf 8 else [])).map s.pageRec
  else
    let slots := x.slots.filterMap s.slot
    let cores := (List.range 8).map (8 * d + ·) |>.filter fun n => x.slots.any fun y => y / 1024 == n
    (slots.filter fun y => y.core / 8 == d).map s.slotRec
      ++ cores.flatMap (fun n => (List.range 4).map fun i => accumRec (4 * n + i)) ++ cores.map s.uuRec

/-- Every die writes its part of a snapshot. -/
def State.writeSnaps (s : State) (x : Snapshot) : State :=
  let t := (s.free 0xD0000000).1
  t.each [0, 1, 2, 3] fun t d =>
    t.writeSnap { kind := if x.pages then 2 else 0, die := d, cause := x.cause, tick := x.tick, ptp := x.ptp, ctx := x.ctx }
      (s.snapRecs x d)

/-! Context resets (R370) -/

/-- A reset is accepted of a context that is not IDLE: it acts at the next boundary; a second request joins one that is
under way. -/
def State.askReset (s : State) (c : Nat) (f : Option InFlight) : State :=
  match (s.ctx c).resetting with
  | some l => s.setCtx c fun x => { x with resetting := some (l ++ f.toList) }
  | none => s.setCtx c fun x => { x with resetting := some f.toList, resetBegun := false, resetAborted := false }

/-- The oldest snapshot is complete; a Doldrums event's context resets may start. -/
def State.finishSnap (s : State) : State :=
  match s.dump.snaps with
  | [] => s
  | x :: rest =>
    let s := (s.writeSnaps x).setDump fun d => { d with snaps := rest }
    s.each x.thenReset fun s c => if (s.ctx c).state == .idle then s else s.askReset c none

/-! Fatal errors (R374 to R378) -/

/-- A fatal cause is latched: work, transmission and heartbeats stop, every transmit ring is detuned and every laser
module goes to eye-safe idle. A second cause is only noted. -/
def State.raiseFatal (s : State) (cause : Nat) : State :=
  match s.dump.fatal with
  | some _ => if s.dump.held then s else s.setDump fun d => { d with second := cause % 256 }
  | none =>
    let now := (cause, s.clk.tick, s.ptpNow)
    let s := s.setDump fun d => { d with fatal := some now, second := 0, snaps := [], lastCause := cause }
    let s := s.setPho fun p => { p with
      ringTx := p.ringTx.map fun kv => (kv.1, {})
      dtdTx := p.dtdTx.map fun kv => (kv.1, {}) }
    s.each (List.range 32) fun s m => s.setEls m fun x => { x with safeIdle := true }

/-- Dies whose HBM cannot take a dump: hung, silent, or never trained. -/
def State.hungHbm (s : State) (d : Nat) : Bool :=
  s.sys.trained.isEmpty || s.mgmt.hung.contains (hbmReg (2 * d) 0) || s.mgmt.hung.contains (hbmReg (2 * d + 1) 0)

/-- Records of a die's fatal dump, in the order of R376. -/
def State.dieRecs (s : State) (d : Nat) : List DumpRec :=
  (pagesOf d).map s.pageRec
    ++ (sortBy Slot.desc (s.col.slots.filter fun x => x.core / 8 == d)).map s.slotRec
    ++ (List.range 32).map (fun i => accumRec (32 * d + i)) ++ (List.range 8).map (fun i => s.uuRec (8 * d + i))
    ++ s.sramRecs d

/-- Records that fit a buffer of `n` bytes; a TRUNCATED record ends a buffer that is full. -/
def fitRecs (page : Nat) : Nat → List DumpRec → List DumpRec
  | _, [] => []
  | n, r :: rest =>
    if r.size + (if rest.isEmpty then 0 else 16) ≤ n then r :: fitRecs page (n - r.size) rest
    else [{ kind := 0xFE, page := page }]

/-- The dump is complete: every die with usable HBM has written its own, the others share the last-gasp buffer, and the
chip is held. -/
def State.finishFatal (s : State) (silent : List Nat) (hung : List Nat) : State :=
  match s.dump.fatal with
  | none => s
  | some (cause, tick, ptp) =>
    let dead := [0, 1, 2, 3].filter fun d => s.hungHbm d || hung.contains d
    let good := [0, 1, 2, 3].filter fun d => !dead.contains d
    let head := fun (d : Nat) => DumpHead.mk 1 d cause tick ptp none dead s.dump.second
    let buf := fitRecs (cdReg 0) (2 ^ 22 - 64)
      (readable silent (s.cdRecs ++ (pagesOf 8).map s.pageRec ++ dead.flatMap s.dieRecs))
    let gasp := dumpImage (head 8) buf
    let t := (s.free 0xD0000001).1
    let t := t.each good fun t d => t.hwrite (dumpBase d + snapArea) (dumpImage (head d) (readable silent (s.dieRecs d)))
    t.setDump fun x => { x with held := true, lastGasp := gasp, diesDumped := good, gaspDies := dead, fatalLen := gasp.length }

/-! The Doldrums detector (R362 to R364) -/

/-- Member codes. -/
def egressCode (p vc : Nat) : Nat := 0x10000000 + vc * 1024 + p
def arrivalCode (p vc : Nat) : Nat := 0x20000000 + vc * 1024 + p
def voqCode (cluster p vc : Nat) : Nat := 0x30000000 + cluster * 65536 + vc * 1024 + p
def contribCode (cluster core vc : Nat) : Nat := 0x30100000 + cluster * 65536 + vc * 1024 + core
def slotCode (desc : Nat) : Nat := 0x40000000 + desc
def stagingCode (core : Nat) : Nat := 0x50000000 + core

/-- A waiting object: its code, the codes it waits on, and what it shows of its progress. -/
structure Waiting where
  code : Nat
  on : List Nat
  print : List Nat
  deriving DecidableEq, Repr

/-- Code of the queue that a cell waits in. -/
def Cell.code (c : Cell) : Nat :=
  if c.kind = .contrib then contribCode c.cluster (c.dest / 1024) c.vc else voqCode c.cluster c.dest c.vc

/-- Port at the other end of a loopback: the leader of the lane that the port's own lanes hear. -/
def State.loopPort (s : State) (p : Nat) : Nat := s.leader (s.fget (laneReg (2 * p) 0x14) 11 0 / 2)

/-- EGRESS nodes: an external wait waits on no node. -/
def State.egressWaits (s : State) : List Waiting :=
  let keys := (s.sw.egress.map fun e => (e.port, e.vc)).eraseDups
  keys.filterMap fun k =>
    match s.sw.egress.find? fun e => e.port == k.1 && e.vc == k.2 with
    | some e =>
      if s.hasCredit k.1 k.2 e.bytes.length then none
      else some {
        code := egressCode k.1 k.2
        on := if s.rget (portReg k.1 0x1A8) = chipId then [arrivalCode (s.loopPort k.1) k.2] else []
        print := [e.id] }
    | none => none

/-- ARRIVAL nodes. -/
def State.arrivalWaits (s : State) : List Waiting :=
  let keys := ((s.sw.voq.filter fun c => c.charged && !c.spilled).map fun c => (c.srcPort, c.vc)).eraseDups
  keys.filterMap fun k =>
    if s.chargedCells k.1 k.2 < s.creditLimit k.1 then none
    else some {
      code := arrivalCode k.1 k.2
      on := ((s.sw.voq.filter fun c => c.charged && c.srcPort == k.1 && c.vc == k.2).map Cell.code).eraseDups
      print := [mgetD (s.port k.1).freed k.2 0] }

/-- VOQ nodes: cells without die-to-die credit, or CONTRIB cells without credit at their core. -/
def State.voqWaits (s : State) : List Waiting :=
  let heads := s.sw.voq.foldl (fun (l : List Cell) c =>
    if c.kind == .multicast || l.any (fun h => h.code == c.code) then l else l ++ [c]) []
  heads.filterMap fun h =>
    let d := h.cluster / 4
    let mine := s.sw.voq.filter fun c => c.kind != .multicast && c.code == h.code
    let print := [h.pkt, h.index]
    if h.kind = .contrib then
      if ((s.core (h.dest / 1024)).contribUsed.getD d 0) < contribCredit then none
      else some { code := h.code, on := (mine.map fun c => slotCode c.dest).eraseDups, print := print }
    else if s.dtdInUse h.dest h.vc d < s.dtdLimit h.dest then none
    else some { code := h.code, on := [egressCode h.dest h.vc], print := print }

/-- SLOT nodes. -/
def State.slotWaits (s : State) : List Waiting :=
  s.col.slots.filterMap fun x =>
    let print := [x.ctx, x.step, x.chunk, x.phase.ctorIdx, x.contribs.foldl (fun n k => n + k.cells.length) 0]
    let prev := (x.step + 65535) % 65536
    if x.phase = .ready then
      if s.mayIssue x then none
      else
        let stage := if s.stagingFree x.core < s.stagingNeed x.ctx then [stagingCode x.core] else []
        let before := (s.col.slots.filter fun y => y.ctx == x.ctx && y.chunk == x.chunk && y.step == prev).map
          fun y => slotCode y.desc
        some { code := slotCode x.desc, on := stage ++ before, print := print }
    else if x.phase = .opened then
      let cells := s.sw.voq.filter fun c => c.kind == .contrib && c.dest == x.desc
      if cells.isEmpty then none
      else some { code := slotCode x.desc, on := (cells.map Cell.code).eraseDups, print := print }
    else none

/-- STAGING nodes. -/
def State.stagingWaits (s : State) : List Waiting :=
  (List.range 32).filterMap fun n =>
    let mine := s.col.slots.filter fun x => x.core == n
    if mine.any fun x => x.phase == .ready && decide (s.stagingFree n < s.stagingNeed x.ctx) then
      let staged := mine.filter fun x => x.phase == .staged
      let copies := s.sw.egress.filter fun e => e.src == 1024 + n && e.owner.isSome
      some {
        code := stagingCode n
        on := staged.map (fun x => slotCode x.desc) ++ (copies.map fun e => egressCode e.port e.vc).eraseDups
        print := mine.map (fun x => x.desc * 8 + x.phase.ctorIdx) ++ copies.map EgPkt.id }
    else none

/-- The wait-for graph. UU_FETCH and TWIN wait on nothing that waits in turn, so no cycle holds one. -/
def State.waitGraph (s : State) : List Waiting :=
  s.egressWaits ++ s.arrivalWaits ++ s.voqWaits ++ s.slotWaits ++ s.stagingWaits

/-- Cycles that start and end at `start` and run through nodes above it, found along simple paths. -/
def cyclesFrom (g : List Waiting) (start : Nat) : Nat → List Nat → List (List Nat)
  | 0, _ => []
  | fuel + 1, path =>
    match g.find? fun w => some w.code == path.getLast? with
    | none => []
    | some w => w.on.flatMap fun n =>
      if n = start then [path]
      else if n < start ∨ path.contains n then []
      else cyclesFrom g start fuel (path ++ [n])

/-- Every cycle once, from its lowest code. -/
def waitCycles (g : List Waiting) : List (List Nat) :=
  (sortBy id (g.map Waiting.code)).flatMap fun n => cyclesFrom g n (g.length + 1) [n]

/-- The nodes of a scan with the uptime of their last progress. -/
def State.scanNodes (s : State) (g : List Waiting) : List WaitNode :=
  g.map fun w =>
    match s.flt.nodes.find? fun n => n.code == w.code && n.print == w.print with
    | some n => n
    | none => ⟨w.code, s.clk.up, w.print⟩

/-- Alarm explanation records that name every member in cycle order, three to a record (R363, R395). -/
def State.cycleRecords (s : State) (cycle : List Nat) : State :=
  let n := cycle.length
  let trio := fun k => ((cycle.drop (3 * k)).take 3).map fun m => condLink 0x0103 m
  let s := s.alarm (cdReg 0) 29 0x0103 n (trio 0)
  s.each ((List.range (ceilDiv n 3)).drop 1) fun s k => s.record (cdReg 0) (some 29) 0x0103 n (trio k)

/-- An event (R363, R365). -/
def State.doldrumsEvent (s : State) (cycle : List Nat) : State :=
  let members := sortBy id cycle
  let s := (s.bump (cdReg 0x200)).cycleRecords cycle
  let s := (s.rset (cdReg 0x148) (members.length % 65536)).rset (cdReg 0x150) s.tick
  let s := s.each (List.range 16) fun s i => s.rset (cdReg (0x160 + 4 * i)) (members.getD i 0)
  let descs := (members.filter fun m => m / 2 ^ 28 == 4).map fun m => m % 32768
  let owners := ((descs.filterMap s.slot).map Slot.ctx).eraseDups
  let resets := if s.bget (cdReg 0x140) 1 then owners else []
  let fresh := descs.filter fun d => match s.slot d with | some x => (s.ctx x.ctx).resetting.isNone | none => false
  let s := s.setFlt fun f => { f with reported := members :: f.reported }
  if s.bget (cdReg 0x140) 0 && !fresh.isEmpty then s.startSnap 0x0011 none fresh false resets
  else s.each resets fun s c => s.askReset c none

/-- One scan (R363). -/
def State.doldrumsScan (s : State) : State :=
  let g := s.waitGraph
  let nodes := s.scanNodes g
  let still := (nodes.filter fun n => decide (s.rget (cdReg 0x144) ≤ s.clk.up - n.since)).map WaitNode.code
  let cycles := waitCycles (g.filter fun w => still.contains w.code)
  let s := s.setFlt fun f => { f with
    nodes := nodes
    reported := f.reported.filter fun r => r.all fun c => nodes.any fun n =>
      n.code == c && decide (s.rget (cdReg 0x144) ≤ s.clk.up - n.since) }
  s.each (cycles.filter fun c => !s.flt.reported.contains (sortBy id c)) State.doldrumsEvent

end Sys2Proof.Machine
end

