-- ==== Sys2Proof/Machine/Operands.lean ====
section
/-! DEFINITION. The operand forms of management requests as body bytes (R110, R292, R294, R304): what BODY_LEN, the body
CRC of R301 and the MAC of R306 are taken over. Reserved bytes are not checked (R289) and are 0 here. -/

namespace Sys2Proof.Machine

/-- Register access (R292). -/
def Access.body (a : Access) : Bytes := beBytes 4 a.addr.toNat ++ [a.width] ++ zeros 3

/-- WRITE: access and value. -/
def writeBody (a : Access) (v : Word64) : Bytes := Access.body a ++ beBytes 8 v.toNat

/-- RMW: access, mask and value. -/
def rmwBody (a : Access) (mask v : Word64) : Bytes := Access.body a ++ beBytes 8 mask.toNat ++ beBytes 8 v.toNat

/-- Bulk range, and the words of a BULK_WRITE. -/
def bulkBody (a : BitVec 32) (count : Nat) (words : List Word) : Bytes :=
  beBytes 4 a.toNat ++ beBytes 2 count ++ zeros 2 ++ words.flatMap fun w => beBytes 4 w.toNat

/-- Dump range. -/
def dumpBody (source die : Byte) (off : BitVec 32) (len : BitVec 16) : Bytes :=
  [source, die] ++ zeros 2 ++ beBytes 4 off.toNat ++ beBytes 2 len.toNat ++ zeros 2

/-- ATTEST. -/
def attestBody (nonce : Bytes) (off : BitVec 32) : Bytes := nonce ++ beBytes 4 off.toNat ++ zeros 4

/-- Segment header and the bytes that follow it (R294). -/
def Segment.body (g : Segment) : Bytes :=
  beBytes 2 g.transfer.toNat ++ [g.target] ++ zeros 1 ++ beBytes 4 g.totalLen.toNat ++ beBytes 4 g.offset.toNat
    ++ beBytes 2 g.segLen.toNat ++ zeros 2 ++ g.data

/-- Command block (R110). -/
def TblBlock.body (op : Nat) (b : TblBlock) : Bytes :=
  beBytes 1 op ++ [b.flags] ++ beBytes 2 b.argLen.toNat ++ beBytes 4 b.gen.toNat ++ beBytes 4 b.index.toNat ++ b.args

/-- SESSION OPEN (R304). -/
def openBody (slot role : Byte) (eph nonce sig : Bytes) : Bytes := [0x01, slot, role, 0x00] ++ eph ++ nonce ++ sig

/-- SESSION CLOSE. -/
def closeBody : Bytes := [0x02]

/-- The bits that an access of a width writes, and its value: 32 bits take bytes 4 to 7 of the field. -/
def Access.mask (a : Access) : Nat := if a.width = 2 then 2 ^ 64 - 1 else 2 ^ 32 - 1

end Sys2Proof.Machine
end

