-- ==== Sys2Proof/Machine/AerOps.lean ====
section
/-! DEFINITION. Where alarm explanation records are kept and how a record window loads one (R284, R394, R396). -/

namespace Sys2Proof.Machine

/-- Stage C has been reached since the last reset: HBM is trained and META is in use (R283). -/
def State.hbmOn (s : State) : Bool := !s.sys.trained.isEmpty

/-- Records that the four rings together hold. -/
def aerSpan : Nat := 16777216

/-- Chip address of record `seq` in its die's ring (R273, R274, R394). -/
def aerAddr (seq : Nat) : Nat := (seq % 4) * 2 ^ 37 + 126 * 2 ^ 30 + 64 * (seq / 4 % 4194304)

/-- The HBM of a die is known to be hung (R352). -/
def State.dieHung (s : State) (d : Nat) : Bool :=
  s.mgmt.hung.contains (hbmReg (2 * d) 0) || s.mgmt.hung.contains (hbmReg (2 * d + 1) 0)

/-- A record goes to its ring, or to the early ring before Stage C, or is dropped for a hung die (R284, R394). -/
def State.storeRec (s : State) (seq : Nat) (bytes : Bytes) : State :=
  if !s.hbmOn then s.setAer fun a => { a with early := ((seq, bytes) :: a.early).take 16384 }
  else if s.dieHung (seq % 4) then
    (s.bump (telReg 0x310)).setAer fun a => { a with dropped := seq :: a.dropped }
  else
    (s.setAer fun a => { a with dropped := a.dropped.filter fun q => (seq + 2 ^ 32 - q) % 2 ^ 32 < aerSpan }).hwrite
      (aerAddr seq) bytes

/-- MC2 writes the oldest queued record under the next SEQ (R394). -/
def State.writeRec (s : State) : State :=
  match s.aer.queue with
  | [] => s
  | r :: rest =>
    let seq := s.aer.seq
    let gap := s.aer.gap
    (s.setAer fun a => { a with queue := rest, seq := (seq + 1) % 2 ^ 32, gap := false }).storeRec seq (r.bytes seq gap)

/-- At Stage C the early ring is copied into the die rings in SEQ order (R284). -/
def State.copyEarly (s : State) : State :=
  let old := s.aer.early.reverse
  (s.setAer fun a => { a with early := [] }).each old fun s x => s.storeRec x.1 x.2

/-- A window of a management port. -/
def State.setWin (s : State) (m : MPort) (w : AerWin) : State :=
  s.setAer fun a => match m with
    | .m0 => { a with win0 := w }
    | .m1 => { a with win1 := w }

/-- AER_SEL_STATUS and the bytes of a record (R396): 0 VALID, 1 OVERWRITTEN, 2 NOT_WRITTEN, 3 DROPPED. -/
def State.findRec (s : State) (sel : Nat) : Nat × Bytes :=
  let back := (s.aer.seq + 2 ^ 32 - sel) % 2 ^ 32
  if back = 0 ∨ 2 ^ 31 ≤ back then (2, zeros 64)
  else if !s.hbmOn then
    match s.aer.early.find? fun x => x.1 == sel with
    | some x => (0, x.2)
    | none => (1, zeros 64)
  else if aerSpan < back then (1, zeros 64)
  else if s.aer.dropped.contains sel then (3, zeros 64)
  else (0, s.hread (aerAddr sel) 64)

/-- A write of AER_SEL loads the window of its port of arrival; a die with hung HBM answers UNIT_HUNG (R396). -/
def State.selectRec (s : State) (m : MPort) (sel : Nat) : State × Code :=
  if s.hbmOn && s.dieHung (sel % 4) then (s, .unitHung)
  else
    let r := s.findRec sel
    (s.setWin m ⟨BitVec.ofNat 32 sel, r.1, r.2⟩, .ok)

end Sys2Proof.Machine
end

