-- ==== Sys2Proof/Machine/RegWrite.lean ====
section
/-! DEFINITION. Management writes: the field types of R10 and R11, whole and partial refusals (R2, R316), and what a
write of each register does. -/

namespace Sys2Proof.Machine

/-- Where a write comes from. -/
structure Writer where
  port : MPort
  /-- An ADMIN HCP 2 session (R307). -/
  secure : Bool
  /-- Session 0 or HCP 1: a source of the first enrolment (R307). -/
  loose : Bool
  /-- The request whose reply a command may hold back, if it may. -/
  fly : Option InFlight := none
  /-- The second word of one access: it is not counted again, and GEN advances only if `gen` says so. -/
  second : Bool := false
  gen : Bool := true
  deriving DecidableEq, Repr

/-! Fields -/

/-- What a write makes of a register, field by field. -/
structure Draft where
  /-- The value to be stored. -/
  value : Nat
  /-- An RW or RWL field changes (R317). -/
  changed : Bool := false
  /-- A locked RWL field would change (R10). -/
  denied : Bool := false
  /-- A value is out of range: its field keeps its value (R2, R11). -/
  bad : Bool := false
  /-- Command bits set. -/
  cmds : Nat := 0
  deriving DecidableEq, Repr

/-- The range of a field admits a value. -/
def Field.admits (f : Field) (v : Nat) : Bool :=
  f.ranges.isEmpty || f.ranges.any fun r => decide (r.1 ≤ v) && decide (v ≤ r.2)

/-- A field takes its bits of a masked value. -/
def Draft.take (locked : Bool) (mask v : Nat) (d : Draft) (f : Field) : Draft :=
  let m := bits mask f.hi f.lo
  let old := bits d.value f.hi f.lo
  let given := bits v f.hi f.lo &&& m
  let new := old - (old &&& m) + given
  let put := fun (x : Nat) => putBits d.value f.hi f.lo x
  match f.kind with
  | .rw => if f.admits new then { d with value := put new, changed := d.changed || new != old } else { d with bad := true }
  | .rwl =>
    if new = old then d else if locked then { d with denied := true } else { d with value := put new, changed := true }
  | .w1c => { d with value := put (old - (old &&& given)) }
  | .w1s => { d with value := put (old ||| given) }
  | .cmd => { d with cmds := d.cmds ||| given * 2 ^ f.lo }
  | .ro | .rc | .wo => d

/-- A write of the bits of `mask` over a register that holds `old`. -/
def draftOf (locked : Bool) (fields : List Field) (old mask v : Nat) : Draft :=
  fields.foldl (Draft.take locked mask v) { value := old }

/-- SEC.LOCK is set. -/
def State.secLocked (s : State) : Bool := s.bget (secReg 0x100) 0

/-- Number of ones of a word. -/
def onesOf (v : Nat) : Nat := ((List.range 64).filter v.testBit).length

/-! Registers that a port number, a context or a lane owns -/

/-- Chip-wide number of a page's instance: port, lane pair, core, engine, UU. -/
def Page.number (p : Page) : Nat := p.block.instances.2 * p.die + p.inst

/-- The even lane of a LANE page. -/
def Page.lane (p : Page) : Nat := if p.die = 8 then 2048 + 2 * p.inst else 2 * p.number

/-- CAL.MIN_LEAD is written in the CAL page of port 0 alone (R52, chapter 13). -/
def fieldsFor (p : Page) (r : RegDef) : List Field :=
  if p.block = .cal ∧ r.off = 0x120 ∧ p.number ≠ 0 then [] else r.fields

/-- A WIDTH that the port number cannot lead is out of range (R61). -/
def widthFits (n code : Nat) : Bool := code == 0 || (code == 1 && n % 2 == 0) || (code == 2 && n % 4 == 0)

/-- The draft with an unfit WIDTH put back. -/
def Draft.fitWidth (d : Draft) (n old : Nat) : Draft :=
  if widthFits n (bits d.value 9 8) then d
  else
    let v := putBits d.value 9 8 (bits old 9 8)
    { d with value := v, bad := true, changed := v != old }

/-! Judgement: the writes that are refused whole -/

/-- An access to a configuration register of a CTX page (R318). -/
def ctxConfigOff (off : Nat) : Bool :=
  off == 0x100 || (decide (0x104 ≤ off) && decide (off ≤ 0x13C)) || (decide (0x500 ≤ off) && decide (off < 0x800))
    || decide (memberWin ≤ off)

/-- Bank of a K register or tag (R246). -/
def kbankOf (off : Nat) : Option Nat :=
  if off = 0x198 ∨ (0x1A0 ≤ off ∧ off < 0x1E0) then some 0
  else if off = 0x19C ∨ (0x1E0 ≤ off ∧ off < 0x220) then some 1
  else none

/-- MODE or WIDTH changes (R61, R76). -/
def State.judgePortCtrl (s : State) (n old new : Nat) : Option Code :=
  let mode := bits new 5 4
  let leaders := ((gangPorts n (bits new 9 8)).map s.leader).eraseDups
  let named := s.enabledCtxs.any fun c => !(s.membersOn c n).isEmpty && !s.wz4Fits c
  if mode = bits old 5 4 ∧ bits new 9 8 = bits old 9 8 then none
  else if !s.portIdle n || leaders.any (fun q => !s.portIdle q) then some .lullRequired
  else if mode = 2 ∧ mode ≠ bits old 5 4 ∧ named then some .conflict
  else none

/-- PORT.CREDIT (R91). -/
def State.judgeCredit (s : State) (n old new : Nat) : Option Code :=
  let total := s.creditedTotal (n / 256)
  if !s.portIdle n then some .lullRequired
  else if s.mode n ≠ 1 ∧ old < new ∧ 188416 < total + 3 * (new - old) then some .conflict
  else none

/-- GLB registers (R287, R307, R275). -/
def State.judgeGlb (s : State) (w : Writer) (off old : Nat) (d : Draft) : Option Code :=
  match off with
  | 0x008 => if d.cmds ≠ 0 ∧ !w.secure then some .accessDenied else none
  | 0x108 => if bit d.value 16 ≠ bit old 16 ∧ !s.noPlanes then some .contextBusy else none
  | 0x10C =>
    if s.fuse.hcp1Fused ∧ bit d.value 31 then some .accessDenied
    else if bits d.value 15 0 < 0x600 ∨ bits d.value 28 27 = 0 then some .conflict
    else none
  | _ => none

/-- CTX registers (R318, R246). -/
def State.judgeCtx (s : State) (c off : Nat) (d : Draft) : Option Code :=
  if ctxConfigOff off then (if s.ctxBusy c then some .contextBusy else none)
  else if off = 0x194 then (if d.cmds ≠ 0 ∧ (s.ctx c).state ≠ .idle then some .contextBusy else none)
  else match kbankOf off with
    | some b => if s.bankValid c b then some .busy else none
    | none => none

/-- TEL registers (R391, R142). -/
def State.judgeTel (s : State) (die off : Nat) (d : Draft) : Option Code :=
  if die ≠ 8 then (if off < 0x200 ∧ bits d.value 9 0 / 256 ≠ die then some .badAddress else none)
  else if (off = 0x204 ∨ off = 0x208) ∧ s.fget (telReg 0x210) 1 0 ≠ 0 then some .busy
  else none

/-- SEC commands that only an ADMIN HCP 2 session may give (R307). -/
def judgeSec (w : Writer) (off : Nat) (d : Draft) : Option Code :=
  if (off = 0x008 ∨ off = 0x210) ∧ d.cmds ≠ 0 ∧ !w.secure then some .accessDenied else none

/-- Refusals of a whole write, by block. -/
def State.judgeWrite (s : State) (w : Writer) (p : Page) (off old : Nat) (d : Draft) : Option Code :=
  match p.block with
  | .glb => s.judgeGlb w off old d
  | .port =>
    if off = 0x008 then s.judgePortCtrl p.number old d.value
    else if off = 0x104 then s.judgeCredit p.number old d.value
    else none
  | .ctx => s.judgeCtx p.inst off d
  | .twin => if (off = 0x100 ∨ off = 0x110) ∧ s.twin.state ≠ .idle then some .busy else none
  | .tick =>
    if 0x110 ≤ off ∧ off < 0x120 ∧ bit d.value 31 ∧ !s.isFabric (bits d.value 9 0) then some .badAddress else none
  | .tel => s.judgeTel p.die off d
  | .sec => judgeSec w off d
  | .eng => if off = 0x100 ∧ s.engState p.number = 2 then some .busy else none
  | .cd | .fd | .cl | .lane | .fib | .tbl | .cal | .cc | .uu | .hbm | .pbl | .els | .kite | .dump => none

/-! Effects -/

/-- What a command or an accepted write comes to. -/
structure Effect where
  state : State
  code : Code := .ok
  detail : Nat := 0
  /-- REASON of ERR_INFO when it is refused. -/
  reason : Nat := 0
  waits : Bool := false

/-- An operation that answers with a code. -/
def Effect.ofPair (r : State × Code) : Effect := { state := r.1, code := r.2 }

/-- The bucket of a port after a write of its CFG or RATE (R132); `s0` is the state before the write. -/
def State.shaperWritten (s0 s : State) (n b : Nat) : State :=
  let x := s0.bucketNow n b
  let cap := bucketDepth (s.fget (bucketCfg n b) 15 0)
  let count := if !s.bucketOn n b then x.count else if s0.bucketOn n b then min x.count cap else cap
  s.setBucket n b { count := count, at_ := s.fcNow }

/-- MODE was changed: OVERHEAD of every bucket (R134), and MAC entries of the gang go (R126). -/
def State.modeWritten (s0 s : State) (n : Nat) : State :=
  let s := s.each (List.range 5) fun s b => s.fset (bucketCfg n b) 23 16 (modeOverhead (s.mode n))
  let s := s.setPort n fun x => { x with vc2 := s0.vc2Now n }
  (s.macModeFlush (gangPorts n (s0.widthCode n))).fitSpares (n / 4)

/-- What a port number held outside its pages is gone. -/
def State.forgetPort (s : State) (q : Nat) : State :=
  let s := (s.setSw fun w => { w with ports := mdel w.ports q }).setCalSt fun c => { c with ports := mdel c.ports q }
  s.setFlt fun f => { f with held := f.held.filter fun h => h.port != q }

/-- The registers of a page from an offset on read their reset values. -/
def State.resetPage (s : State) (base off : Nat) : State :=
  s.rclear fun a => decide (base + off ≤ a) && decide (a < base + 4096)

/-- A number that a gang has absorbed keeps no settings (R61, R311). -/
def State.absorbPort (s : State) (q : Nat) : State :=
  (((s.forgetPort q).resetPage (portReg q 0) 0x100).resetPage (calReg q 0) 0x100).rset (portReg q 0x008) 0

/-- A number that a shrinking gang gives up leads a port of 2 lanes (R61). -/
def State.releasePort (s : State) (q mode : Nat) : State :=
  let s := (((s.forgetPort q).resetPage (portReg q 0) 0).resetPage (calReg q 0) 0).resetPage (lanePage (2 * q)) 0
  let s := s.fset (portReg q 0x008) 5 4 mode
  s.each (List.range 5) fun s b => s.fset (bucketCfg q b) 23 16 (modeOverhead mode)

/-- WIDTH was changed: the gangs form anew (R61), CREDIT follows (R321), MAC entries of both gangs go (R126). -/
def State.widthWritten (s0 s : State) (n : Nat) : State :=
  let old := gangPorts n (s0.widthCode n)
  let new := gangPorts n (s.widthCode n)
  let s := s.each (new.filter fun q => q != n && !old.contains q) State.absorbPort
  let s := s.each (old.filter fun q => !new.contains q) fun s q => s.releasePort q (s.mode n)
  let s := (s.settleWidth n).fset (portReg n 0x104) 16 0 (96 * s.lanesWide n)
  s.macModeFlush (old ++ new).eraseDups

/-- PORT.CTRL commands (R321, R424, R359, R361, R371). -/
def State.portCommand (s : State) (w : Writer) (n cmds : Nat) : Effect :=
  let st := s.portState n
  match cmds with
  | 0x01 => if st = 4 then { state := s, code := .busy } else if st = 0 then { state := s.enablePort n } else { state := s }
  | 0x02 => { state := s.disablePort n }
  | 0x04 =>
    match s.requestFence n true false [] with
    | (s, .held) => { state := s, code := .fenceLimit }
    | (s, _) => { state := s }
  | 0x08 => { state := s.unfence n }
  | 0x40 =>
    if st = 0 then { state := s }
    else if st = 4 ∨ st = 5 then { state := s, code := .busy }
    else
      { state := s.setPort n fun x => { x with resetting := some ((x.resetting.getD []) ++ w.fly.toList) },
        waits := w.fly.isSome }
  | _ => { state := s }

/-- PORT.CTRL after its RW fields were stored. -/
def State.portCtrlWritten (s0 s : State) (w : Writer) (n cmds : Nat) : Effect :=
  let s := if s.mode n = s0.mode n then s else s0.modeWritten s n
  let s := if s.widthCode n = s0.widthCode n then s else s0.widthWritten s n
  s.portCommand w n cmds

/-- A lane reset (R372): to a free spare if there is one, else LOCKING; then its rings re-sweep. -/
def State.resetLane (s : State) (l : Nat) : Effect :=
  match (s.lane l).state with
  | .kite => { state := s, code := .busy }
  | .dark => { state := s }
  | .locking | .up | .moved | .out =>
    match s.moveTarget l false with
    | (some moves, _) =>
      { state := (s.each moves fun s m => s.setMove m.1 (some m.2)).setLane l fun x => { x with resetDue := true } }
    | (none, _) => { state := (s.changeLane l fun x => { x with state := .locking }).resweepLane l }

/-- LANE.CTRL commands (R162, R372). -/
def State.laneCommand (s : State) (l cmds : Nat) : Effect :=
  match cmds with
  | 0x1 => s.resetLane l
  | 0x2 => s.resetLane (l + 1)
  | 0x4 => { state := s.resweepLane l }
  | 0x8 => { state := s.resweepLane (l + 1) }
  | _ => { state := s }

/-- CTX.CTRL.ENABLE (R178, R179, R342). -/
def State.enableCtx (s : State) (w : Writer) (c : Nat) : Effect :=
  if s.atStage 3 ∧ (s.ctx c).state = .active then { state := s }
  else match s.enableFails c with
    | some (n, code) => { state := s, code := code, reason := n }
    | none => match s.placeCtx c with
      | none => { state := s, code := .conflict, reason := 9 }
      | some plan =>
        if s.twinned c && !s.isTransport c then
          let t := s.setCtx c fun x => { x with plan := some plan, asking := some (s.clk.up, w.fly) }
          { state := t.twinSend twConfig
              (s.ctxConfig c (s.rget (ctxReg c 0x100)) (s.chunkBase c) (s.chunkCount c) (plan.placed.map Placed.core)),
            waits := w.fly.isSome }
        else { state := s.acceptEnable c plan w.fly, waits := w.fly.isSome }

/-- CTX.CTRL.DISABLE (R179, R180). -/
def State.disableCtx (s : State) (c : Nat) : Effect :=
  if (s.ctx c).enabling.isSome || (s.ctx c).asking.isSome then { state := s, code := .contextBusy }
  else match (s.ctx c).state with
    | .active | .halted => { state := s.setCtx c fun x => { x with disabling := true } }
    | .idle | .lull => { state := s }

/-- CTX.CTRL.STATE_FREE (R244). -/
def State.stateFree (s : State) (c : Nat) : Effect :=
  if s.ctxBusy c then { state := s, code := .contextBusy } else { state := s.freePlanes c }

/-- CTX.CTRL.RESET (R370). -/
def State.resetCtx (s : State) (w : Writer) (c : Nat) : Effect :=
  if (s.ctx c).state = .idle then { state := s } else { state := s.askReset c w.fly, waits := w.fly.isSome }

/-- CTX.CTRL commands. -/
def State.ctxCommand (s : State) (w : Writer) (c cmds : Nat) : Effect :=
  match cmds with
  | 0x1 => s.enableCtx w c
  | 0x2 => s.disableCtx c
  | 0x4 => s.stateFree c
  | 0x8 => s.resetCtx w c
  | _ => { state := s }

/-- KBANK_CTRL (R246, R318): VALID was set by the store, CLR clears it. -/
def State.kbankWritten (s : State) (c cmds : Nat) : Effect :=
  let s := if bit cmds 8 then s.bset (ctxReg c 0x194) 0 false else s
  let s := if bit cmds 9 then s.bset (ctxReg c 0x194) 1 false else s
  { state := s.retireBanks c }

/-- ENG.CTRL commands (R236). -/
def State.engCommand (s : State) (e cmds : Nat) : Effect :=
  match cmds with
  | 0x1 => .ofPair (s.bistEng e)
  | 0x2 => { state := s.releaseEng e }
  | 0x4 => .ofPair (s.gateEng e)
  | 0x8 => { state := s.ungateEng e (s.atStage 3) }
  | _ => { state := s }

/-- UU.CTRL commands (R266). -/
def State.uuCommand (s : State) (n cmds : Nat) : Effect :=
  match cmds with
  | 0x1 => .ofPair (s.bistUu n)
  | 0x2 => { state := s.releaseUu n }
  | _ => { state := s }

/-- CAL.CTRL commands (R39, R57). -/
def State.calCommand (s : State) (p cmds : Nat) : Effect :=
  match cmds with
  | 0x1 => .ofPair (s.resumePort p)
  | 0x2 => .ofPair (s.disarmPort p)
  | _ => { state := s }

/-- ELS.CTRL.RESTORE (R158): the reply follows the restore. -/
def State.restoreEls (s : State) (w : Writer) (m : Nat) : Effect :=
  match s.startRestore m w.fly with
  | (t, .ok) => { state := t, waits := w.fly.isSome }
  | (_, code) => { state := s, code := code }

/-- TWIN.CTRL commands. -/
def State.twinCommand (s : State) (cmds : Nat) : Effect :=
  match cmds with
  | 0x1 => .ofPair s.twinPair
  | 0x2 => .ofPair s.twinDetach
  | 0x4 => .ofPair s.twinResync
  | _ => { state := s }

/-- BW_CTRL.START (R391). -/
def State.armWindow (s : State) : Effect :=
  let at_ := BitVec.ofNat 48 (s.rget (telReg 0x208))
  if s.fget (telReg 0x210) 1 0 ≠ 0 then { state := s, code := .busy }
  else if at_ ≠ 0 ∧ !tickAfter at_ s.clk.tick then { state := s, code := .conflict }
  else
    { state := (s.rset (telReg 0x210) 1).setSys fun y =>
        { y with bwStart := if at_ = 0 then s.tickPlus 1 else at_, bwFrom := none, bw := [] } }

/-- BW_CTRL commands. -/
def State.bwCommand (s : State) (cmds : Nat) : Effect :=
  match cmds with
  | 0x1 => s.armWindow
  | 0x4 => { state := (s.rset (telReg 0x210) 0).setSys fun y => { y with bwFrom := none, bw := [] } }
  | _ => { state := s }

/-- UPSTREAM i changed: what it had delivered no longer counts (R34, R37). -/
def State.upstreamWritten (s : State) (i : Nat) : State :=
  let s := s.setClk fun c => { c with lastValid := mdel c.lastValid i }
  if s.isMaster then s else s.chooseUpstream.checkHoldover

/-! Key commands (R333) -/

/-- The key slot that KEY_SEL names. -/
def State.keySlot (s : State) (prog : Bool) (slot : Nat) : KeySlot :=
  mgetD (if prog then s.fuse.program else s.fuse.manager) slot {}

/-- Store a key slot in fuses. -/
def State.setKeySlot (s : State) (prog : Bool) (slot : Nat) (k : KeySlot) : State :=
  s.setFuse fun f => if prog then { f with program := mput f.program slot k } else { f with manager := mput f.manager slot k }

/-- Every manager slot is EMPTY (R307). -/
def State.noManager (s : State) : Bool := (List.range 8).all fun i => (s.keySlot false i).state == .empty

/-- KEY_DATA. -/
def State.keyData (s : State) : Bytes := (List.range 8).flatMap fun i => beBytes 4 (s.rget (secReg (0x2A0 + 4 * i)))

/-- The first failed check of R333. -/
def State.keyFails (s : State) (w : Writer) (enroll : Bool) : Option Code :=
  let sel := s.rget (secReg 0x288)
  let prog := bit sel 8
  let slot := bits sel 2 0
  let first := w.loose && s.noManager && enroll && !prog && slot == 0 && bit sel 4
  let k := s.keySlot prog slot
  if !w.secure && !first then some .accessDenied
  else if enroll && s.secLocked then some .accessDenied
  else if prog && decide (3 < slot) then some .badAddress
  else if (if enroll then k.state != .empty else k.state != .enrolled) then some .conflict
  else if enroll && (edDecode s.keyData).isNone then some .badAddress
  else none

/-- Sessions opened under a manager slot close at once; their requests in flight still complete (R306, R333). -/
def State.closeSlot (s : State) (slot : Nat) : State :=
  (s.setMgmt fun m => { m with
    sessions := m.sessions.map fun x => if x.slot == slot then { x with closing := true } else x }).reapSessions

/-- KEY_CMD. -/
def State.keyCommand (s : State) (w : Writer) (cmds : Nat) : Effect :=
  let sel := s.rget (secReg 0x288)
  let prog := bit sel 8
  let slot := bits sel 2 0
  let enroll := cmds == 1
  if cmds = 0 then { state := s }
  else match s.keyFails w enroll with
    | some code => { state := s, code := code }
    | none =>
      if enroll then
        let k : KeySlot := { state := .enrolled, admin := !prog && bit sel 4, key := s.keyData }
        { state := s.setKeySlot prog slot k }
      else
        let t := s.setKeySlot prog slot { s.keySlot prog slot with state := .revoked }
        { state := if prog then t else t.closeSlot slot }

/-- SEC commands: HCP1_BLOW (R308), SVN_COMMIT (R329), KEY_CMD. -/
def State.secCommand (s : State) (w : Writer) (off cmds : Nat) : Effect :=
  match off with
  | 0x008 => { state := if cmds = 0 then s else s.setFuse fun f => { f with hcp1Fused := true } }
  | 0x210 => { state := if cmds = 0 then s else s.setFuse fun f => { f with fwSvnMin := max f.fwSvnMin s.sys.fwSvn } }
  | 0x2C0 => s.keyCommand w cmds
  | _ => { state := s }

/-- DUMP.CTRL.TRIGGER (R366): before Stage C no region can be written. -/
def State.triggerDump (s : State) : Effect :=
  if !s.hbmOn then { state := s, code := .stageNotReady }
  else { state := s.startSnap 0x0012 none [] true [] }

/-- What an accepted write does beside storing its value. -/
def State.writeEffect (s0 s : State) (w : Writer) (p : Page) (off old : Nat) (d : Draft) : Effect :=
  let n := p.number
  match p.block with
  | .glb =>
    { state := if off = 0x008 ∧ d.cmds ≠ 0 then s.setSys fun y => { y with warmPending := some s.clk.up } else s }
  | .port =>
    if off = 0x008 then s0.portCtrlWritten s w n d.cmds
    else if 0x120 ≤ off ∧ off < 0x148 then { state := s0.shaperWritten s n ((off - 0x120) / 8) }
    else { state := s }
  | .lane => if off = 0x008 then s.laneCommand p.lane d.cmds else { state := s }
  | .cal => if off = 0x008 then s.calCommand n d.cmds else { state := s }
  | .ctx =>
    if off = 0x008 then s.ctxCommand w p.inst d.cmds
    else if off = 0x194 then s.kbankWritten p.inst d.cmds
    else { state := s }
  | .eng =>
    if off = 0x008 then s.engCommand n d.cmds
    else if off = 0x100 then .ofPair (s0.writeRepair n d.value)
    else { state := s }
  | .uu => if off = 0x008 then s.uuCommand n d.cmds else { state := s }
  | .els => if off = 0x008 ∧ d.cmds ≠ 0 then s.restoreEls w p.inst else { state := s }
  | .kite => if off = 0x008 ∧ d.cmds ≠ 0 then .ofPair s.kiteRelease else { state := s }
  | .twin => if off = 0x008 then s.twinCommand d.cmds else { state := s }
  | .tick =>
    if off = 0x008 ∧ d.value ≠ old then { state := s.setClk fun c => { c with rolePending := true } }
    else if 0x110 ≤ off ∧ off < 0x120 ∧ d.value ≠ old then { state := s.upstreamWritten ((off - 0x110) / 4) }
    else { state := s }
  | .tel =>
    if p.die = 8 ∧ off = 0x200 then s.bwCommand d.cmds
    else if p.die = 8 ∧ off = 0x304 then .ofPair (s0.selectRec w.port d.value)
    else { state := s }
  | .sec => s.secCommand w off d.cmds
  | .dump => if off = 0x008 ∧ d.cmds ≠ 0 then s.triggerDump else { state := s }
  | .cd | .fd | .cl | .fib | .tbl | .cc | .hbm | .pbl => { state := s }

/-! The write -/

/-- The value that a write starts from: HCP1_EN reads 0 once its fuse is blown (R287), AER_SEL is its port's own. -/
def State.oldValue (s : State) (w : Writer) (p : Page) (off : Nat) : Nat :=
  match p.block with
  | .glb => if off = 0x10C then s.glbView off else s.rget (p.base + off)
  | .tel => if p.die = 8 ∧ off = 0x304 then (s.aerWin w.port).sel.toNat else s.rget (p.base + off)
  | .ctx => if memberWin ≤ off then s.memberWord p.inst off else s.rget (p.base + off)
  | _ => s.rget (p.base + off)

/-- Where a register is stored: MEMBER_WIN in the member table (R175). -/
def State.storeReg (s : State) (p : Page) (off v : Nat) : State :=
  if p.block = .ctx ∧ memberWin ≤ off then
    let m := 256 * s.fget (ctxReg p.inst 0x13C) 3 0 + (off - memberWin) / 8
    if off % 8 < 4 then s.fset (memberKey p.inst m) 63 32 v else s.fset (memberKey p.inst m) 31 0 v
  else if p.block = .tel ∧ p.die = 8 ∧ off = 0x304 then s
  else s.rset (p.base + off) v

/-- Registers whose store their effect makes itself. -/
def storesItself (p : Page) (off : Nat) : Bool := p.block == .eng && off == 0x100

/-- ATTN_MASK: a bit that is no longer masked while its ATTN bit is set counts as gained (R315). -/
def State.maskWritten (s : State) (p : Page) (off old new : Nat) : State :=
  if off = 0x014 ∧ (old - (old &&& new)) &&& s.rget (p.base + 0x010) ≠ 0 then s.gainAttention else s

/-- A refusal is recorded in ERR_INFO and answered (R316). -/
def State.refuseWrite (s : State) (p : Page) (off : Nat) (code : Code) (reason detail : Nat := 0) : WriteOut :=
  { state := s.errInfo p.base code reason off, code := code, detail := detail }

/-- MGMT_WRITES counts an accepted write once (R387). -/
def State.countWrite (s : State) (w : Writer) (p : Page) : State := if w.second then s else s.pmc p.base 4 1

/-- An accepted write: stored, with its effect, its generation (R317) and its count (R387). -/
def State.applyWrite (s : State) (w : Writer) (p : Page) (off old : Nat) (d : Draft) : WriteOut :=
  let w := if d.bad then { w with fly := none } else w
  let t := if storesItself p off || d.value == old then s else s.storeReg p off d.value
  let t := t.maskWritten p off old d.value
  let e := s.writeEffect t w p off old d
  if e.code = .ok ∨ e.code = .fenceLimit then
    let t := if d.changed && w.gen then e.state.advance (p.base + 0x01C) else e.state
    if e.code = .fenceLimit then t.refuseWrite p off .fenceLimit
    else if d.bad then t.refuseWrite p off .badAddress
    else { state := t.countWrite w p, code := .ok, detail := e.detail, waits := e.waits }
  else s.refuseWrite p off e.code e.reason e.detail

/-- A write of the bits of `mask` of a register, in one FC cycle. -/
def State.regWrite (s : State) (w : Writer) (p : Page) (r : RegDef) (mask v : Nat) : WriteOut :=
  let off := r.off
  if s.idlePage p && (decide (0x100 ≤ off) || off == 0x008) then s.refuseWrite p off .badAddress
  else
    let old := s.oldValue w p off
    let d := draftOf s.secLocked (fieldsFor p r) old mask v
    let d := if p.block = .port ∧ off = 0x008 then d.fitWidth p.number old else d
    if d.denied then s.refuseWrite p off .accessDenied
    else if 1 < onesOf d.cmds then s.refuseWrite p off .conflict
    else match s.judgeWrite w p off old d with
      | some code => s.refuseWrite p off code
      | none => s.applyWrite w p off old d

/-- A 32-bit write of the bits of `mask` at an offset of a page: a register, half of a wide one, or a reserved word,
which ignores it (R309, R312). -/
def State.wordWrite (s : State) (w : Writer) (p : Page) (off mask v : Nat) : WriteOut :=
  match regAt p.block (p.die == 8) off with
  | none =>
    if s.idlePage p && decide (0x100 ≤ off) then s.refuseWrite p off .badAddress
    else { state := s.countWrite w p, code := .ok }
  | some r =>
    if r.wide ∧ off = r.off then s.regWrite w p r (mask * 2 ^ 32) (v * 2 ^ 32) else s.regWrite w p r mask v

/-- Two words written by one access, the lower address first; the second is not written when the first is refused or its
reply waits. -/
def State.twoWords (s : State) (w : Writer) (p : Page) (off mask v : Nat) : WriteOut :=
  let a := s.wordWrite w p off (mask / 2 ^ 32) (v / 2 ^ 32)
  let same := a.state.rget (p.base + 0x01C) == s.rget (p.base + 0x01C)
  if a.code = .ok ∧ !a.waits then
    a.state.wordWrite { w with second := true, gen := same } p (off + 4) (mask % 2 ^ 32) (v % 2 ^ 32)
  else a

/-- A 64-bit write at an aligned offset: one access of a wide register, else two words. -/
def State.pairWrite (s : State) (w : Writer) (p : Page) (off mask v : Nat) : WriteOut :=
  match regAt p.block (p.die == 8) off with
  | some r => if r.wide ∧ r.off = off then s.regWrite w p r mask v else s.twoWords w p off mask v
  | none => s.twoWords w p off mask v

/-- A management write of WIDTH 1 or 2. -/
def State.accessWrite (s : State) (w : Writer) (p : Page) (off width mask v : Nat) : WriteOut :=
  if width = 2 then s.pairWrite w p off mask v else s.wordWrite w p off (mask % 2 ^ 32) (v % 2 ^ 32)

end Sys2Proof.Machine
end

