-- ==== Sys2Proof/Machine/Hcp.lean ====
section
/-! DEFINITION. The Huros Control Protocol: the checks of R290, roles (R307), stages (R302), the retry cache (R301), and
the register opcodes READ to BULK_WRITE (R292, R293, R303). -/

namespace Sys2Proof.Machine

/-! Who asks -/

/-- The role that a request acts under. -/
inductive Role where
  | admin | observer | nobody
  deriving DecidableEq, Repr

/-- Role of a request (R307): HCP 1 takes HCP1_ROLE, session 0 has none. -/
def State.role (s : State) (q : Req) : Role :=
  if q.hcp1 then (if s.bget (glbReg 0x10C) 29 then .admin else .observer)
  else match s.session q.session with
    | some x => if x.admin then .admin else .observer
    | none => .nobody

/-- The writer that a request stands for (R307). -/
def State.writer (s : State) (q : Req) (fly : Option InFlight) : Writer :=
  { port := q.port, secure := !q.hcp1 && s.role q == .admin, loose := q.hcp1 || s.role q == .nobody, fly := fly }

/-- Pages that words at an address touch, none where a word lies in no page. -/
def pagesIn (addr n : Nat) : List (Option Page) :=
  (List.range ((addr % 4096 + n + 4095) / 4096)).map fun i => pageOf (addr / 4096 * 4096 + 4096 * i)

/-- Every word of a range lies in a page that a test admits. -/
def allPages (addr n : Nat) (p : Page → Bool) : Bool := (pagesIn addr n).all fun o => o.any p

/-- OBS_READ of a page (R393). -/
def State.obsRead (s : State) (p : Page) : Bool := s.bget (p.base + 0x0A0) 0

/-- Words that session 0 may read: the GLB page and the SEC identity registers (R307). -/
def openToAll (addr n : Nat) : Bool :=
  allPages addr n fun p => p.block == .glb || (p.block == .sec && decide (0x200 ≤ addr % 4096))

/-- Words of the first enrolment: KEY_SEL, KEY_DATA and KEY_CMD (R307). -/
def enrolWords (addr n : Nat) : Bool :=
  (List.range (n / 4)).all fun i =>
    let a := addr + 4 * i
    a == secReg 0x288 || (decide (secReg 0x2A0 ≤ a) && decide (a < secReg 0x2C0)) || a == secReg 0x2C0

/-- READ and BULK_READ admitted by role. -/
def State.mayRead (s : State) (q : Req) (addr n : Nat) : Bool :=
  match s.role q with
  | .admin => true
  | .observer => allPages addr n s.obsRead
  | .nobody => openToAll addr n

/-- WRITE admitted by role. -/
def State.mayWrite (s : State) (q : Req) (addr n : Nat) : Bool :=
  s.role q == .admin || ((s.writer q none).loose && s.noManager && enrolWords addr n)

/-- Opcodes that only ADMIN sources may use. -/
def State.isAdmin (s : State) (q : Req) : Bool := s.role q == .admin

/-- The stage that serves requests: a held chip serves as in Stage A (R375). -/
def State.serveStage (s : State) : Nat := if s.fatal then 0 else s.sys.stage

/-- READ by stage (R302). -/
def State.stageReads (s : State) (addr n : Nat) : Bool :=
  decide (1 ≤ s.serveStage) || allPages addr n fun p => p.block == .glb || p.block == .sec

/-- Writes by stage (R302). -/
def State.stageWrites (s : State) (addr n : Nat) : Bool :=
  decide (1 ≤ s.serveStage) || allPages addr n fun p => p.block == .glb

/-! The checks of R290 -/

/-- GLB.HCP_CTRL as read. -/
def State.hcpCtrl (s : State) : Nat := s.glbView 0x10C

/-- The transport of a request is served (R287). -/
def State.transportServed (s : State) (q : Req) : Bool :=
  match q.via with
  | .raw e => bit s.hcpCtrl 27 && e.toNat == bits s.hcpCtrl 15 0
  | .udp u => bit s.hcpCtrl 28 && u.toNat == s.fget (glbReg 0x110) 15 0

/-- The management ports answer: the boot ROM or firmware serves them, and no dump is under way (R302, R374). -/
def State.answers (s : State) (q : Req) : Bool :=
  s.sys.serving && s.portUp q.port && !(s.fatal && !s.dump.held) && s.transportServed q

/-- Bytes 0 to the end of the body of an HCP 2 request, over which its MAC is taken (R288, R306). -/
def requestBytes (q : Req) (opcode : Nat) (body : Bytes) : Bytes :=
  beBytes 1 0x20 ++ beBytes 1 opcode ++ beBytes 2 q.tag.toNat ++ beBytes 4 q.session.toNat ++ beBytes 8 q.seq.toNat
    ++ beBytes 2 body.length ++ beBytes 2 (b2n q.retry) ++ zeros 12 ++ body

/-- Longest body (R288, R289). -/
def maxBody (q : Req) : Nat := if q.hcp1 then 4096 else 8952

/-- The open session of a request, on its port of arrival. -/
def State.openSession (s : State) (q : Req) : Option Session :=
  (s.session q.session).filter fun x => x.port == q.port && !x.closing

/-- The request is in an HCP 2 session. -/
def inSession (q : Req) : Bool := !q.hcp1 && q.session != 0

/-- SEQ lies in the replay window (R306). -/
def seqFits (x : Session) (q : Req) : Bool :=
  decide (1 ≤ q.seq.toNat) && decide (x.high < q.seq.toNat + 1024) && !x.seen.contains q.seq.toNat

/-- MAC and window of a request in a session: the counter of the check that fails. -/
def State.sessionFails (s : State) (q : Req) (signed : Bytes) : Option GlbCtr :=
  match s.openSession q with
  | none => some .authDiscard
  | some x =>
    if (hmac512 x.kReq signed).take 16 ≠ q.mac.take 16 then some .authDiscard
    else if !seqFits x q then some .replayDiscard
    else none

/-- Checks 2 to 7 of R290: the counter of the first that fails. -/
def State.discards (s : State) (q : Req) (bodyLen : Nat) (signed : Bytes) : Option GlbCtr :=
  if q.hcp1 && !bit s.hcpCtrl 31 then some .hcp1Discard
  else if decide (maxBody q < bodyLen) || (inSession q && decide (q.mac.length < 16)) then some .malformed
  else match (if inSession q then s.sessionFails q signed else none) with
    | some c => some c
    | none =>
      if s.mgmt.inFlight.any fun f => f.req.port == q.port && f.req.tag == q.tag then some .tagDup else none

/-- The request is accepted: its tag is in flight, and its session has seen its SEQ. -/
def State.accept (s : State) (f : InFlight) : State :=
  let n := f.req.seq.toNat
  let s := s.setMgmt fun m => { m with inFlight := m.inFlight ++ [f] }
  if inSession f.req then
    s.setSession f.req.session fun x => { x with
      high := max x.high n, lastUp := s.clk.up
      seen := n :: x.seen.filter fun k => decide (max x.high n < k + 1024) }
  else s

/-- Opcodes that HCP 1 does not serve (R291). -/
def hcp1Lacks (opcode : Nat) : Bool := [0x07, 0x08, 0x0A, 0x0B].contains opcode

/-- MC0 serves requests from Stage B; while it is stopped they are answered UNIT_HUNG, but for those of the security
engine (R353). -/
def State.mc0Stopped (s : State) (opcode : Nat) : Bool :=
  s.flt.stopped.contains 0 && decide (1 ≤ s.serveStage) && opcode != 0x0A && opcode != 0x0B

/-- The cached reply that a retry obtains (R301). -/
def State.cachedFor (s : State) (f : InFlight) : Option Cached :=
  if f.req.retry then
    s.mgmt.cache.find? fun c => c.port == f.req.port && c.tag == f.req.tag && c.opcode == f.opcode
      && c.bodyLen == f.bodyLen && c.bodyCrc == f.bodyCrc
  else none

/-- A cached reply is sent again (R301). -/
def State.resendReply (s : State) (f : InFlight) (c : Cached) : State :=
  let a : Answer := { code := Code.ofNum c.result, detail := c.detail, body := c.body }
  ((s.sendReply { f.req with sameCycle := c.same } f.opcode a true).freeTag f).reapSessions

/-- What checks 10 to 12 of R290 find. -/
structure Gate where
  role : Bool
  stage : Bool
  body : Bool

/-- Checks 9 to 12. -/
def Gate.refuses (g : Gate) (q : Req) (opcode : Nat) : Option Code :=
  if q.hcp1 && hcp1Lacks opcode then some .version
  else if !g.role then some .accessDenied
  else if !g.stage then some .stageNotReady
  else if !g.body then some .badAddress
  else none

/-- A request goes through the checks, the retry cache and its operation, whose answer may come later. -/
def State.serve (s : State) (q : Req) (opcode : Nat) (body : Bytes) (gate : State → Gate)
    (run : State → InFlight → State × Option Answer) : State :=
  if !s.answers q then s
  else match s.discards q body.length (requestBytes q opcode body) with
    | some c => s.glbCtr c
    | none =>
      let f : InFlight := { req := q, opcode := opcode, bodyLen := body.length, bodyCrc := crc32c body }
      let s := s.accept f
      if s.mc0Stopped opcode then s.reply f { code := .unitHung }
      else match s.cachedFor f with
        | some c => s.resendReply f c
        | none => match (gate s).refuses q opcode with
          | some code => s.reply f { code := code }
          | none => match run s f with
            | (t, some a) => t.reply f a
            | (t, none) => t

/-! Reads -/

/-- The page is marked hung (R352). -/
def State.pageHung (s : State) (p : Page) : Bool := s.mgmt.hung.contains p.base

/-- An access was acknowledged: its unit's run of timeouts ends (R352). -/
def State.acked (s : State) (p : Page) : State := s.setMgmt fun m => { m with timeouts := mdel m.timeouts p.base }

/-- What a read clears: RC fields, and with SLOWEST the gains it reports (R10, R204). -/
def State.clearRc (s : State) (p : Page) (off : Nat) : State :=
  match regAt p.block (p.die == 8) off with
  | some r =>
    if r.fields.any fun f => f.kind == .rc then
      let s := s.rset (p.base + r.off) 0
      if p.block = .ctx ∧ r.off = 0x174 then
        s.setCtx p.inst fun x => { x with members := x.members.map fun kv => (kv.1, { kv.2 with gain := 0 }) }
      else s
    else s
  | none => s

/-- One word read. -/
def State.readWord (s : State) (m : MPort) (clear : Bool) (p : Page) (off : Nat) : State × Nat :=
  let v := s.wordView m p off
  (if clear then s.clearRc p off else s, v)

/-- A read of WIDTH 1 or 2. -/
def State.readAccess (s : State) (m : MPort) (clear : Bool) (p : Page) (off width : Nat) : State × Nat :=
  if width = 2 then
    let v := s.pairView m p off
    (if clear then (s.clearRc p off).clearRc p (off + 4) else s, v)
  else s.readWord m clear p off

/-- An access names its register rightly (R292). -/
def accessFits (a : Access) : Bool :=
  (a.width == 1 && a.addr.toNat % 4 == 0) || (a.width == 2 && a.addr.toNat % 8 == 0)

/-- Bytes of an access. -/
def accessBytes (a : Access) : Nat := if a.width = 2 then 8 else 4

/-- Pages that a write names: one, or those of the four fabric dies (R293). -/
def targetPages (addr : Nat) : Option (List Page) :=
  if addr / 2 ^ 28 = 15 then ([0, 1, 2, 3].map fun d => pageOf (addr % 2 ^ 28 + d * 2 ^ 28)).mapM id
  else (pageOf addr).map fun p => [p]

/-- Address of a page and offset for role and stage: a broadcast is judged on die 0. -/
def roleAddr (addr : Nat) : Nat := if addr / 2 ^ 28 = 15 then addr % 2 ^ 28 else addr

/-- READ (R292). -/
def State.serveRead (s : State) (q : Req) (a : Access) : State :=
  let addr := a.addr.toNat
  s.serve q 0x01 (Access.body a)
    (fun s => ⟨s.mayRead q addr (accessBytes a), s.stageReads addr (accessBytes a), accessFits a && (pageOf addr).isSome⟩)
    fun s _ => match pageOf addr with
      | none => (s, some { code := .badAddress })
      | some p =>
        if s.pageHung p then (s, some { code := .unitHung })
        else
          let r := (s.acked p).readAccess q.port (s.isAdmin q) p (addr % 4096) a.width.toNat
          (r.1, some { code := .ok, body := beBytes 8 r.2 })

/-! Writes -/

/-- One write on one page. -/
def State.writeOn (s : State) (w : Writer) (p : Page) (off width mask v : Nat) : WriteOut :=
  if s.pageHung p then { state := s, code := .unitHung }
  else (s.acked p).accessWrite w p off width mask v

/-- A write on several dies in order (R293): the code and die of the lowest that refuses; a hung one stops it (R303). -/
def State.writeDies (w : Writer) (off width mask v : Nat) : List Page → State → Option (Code × Nat) → WriteOut
  | [], s, none => { state := s, code := .ok }
  | [], s, some (c, d) => { state := s, code := c, detail := d }
  | p :: rest, s, bad =>
    let o := s.writeOn w p off width mask v
    let bad := if o.code = .ok then bad else some (bad.getD (o.code, p.die))
    if o.code = .unitHung then { state := o.state, code := (bad.getD (o.code, p.die)).1, detail := (bad.getD (o.code, p.die)).2 }
    else State.writeDies w off width mask v rest o.state bad

/-- A write of the bits of `mask` at an address: one page, whose command may hold back the reply, or a broadcast. -/
def State.writeAt (s : State) (w : Writer) (addr width mask v : Nat) : WriteOut :=
  match targetPages addr with
  | none => { state := s, code := .badAddress }
  | some [p] => s.writeOn w p (addr % 4096) width mask v
  | some ps => State.writeDies { w with fly := none } (addr % 4096) width mask v ps s none

/-- The answer of a write; a command that waits answers later. -/
def WriteOut.answer (o : WriteOut) : Option Answer :=
  if o.waits then none else some { code := o.code, detail := o.detail }

/-- WRITE (R292): the one operation behind every row that writes a register. -/
def State.serveWrite (s : State) (q : Req) (a : Access) (v : Word64) : State :=
  let addr := a.addr.toNat
  s.serve q 0x02 (writeBody a v)
    (fun s => ⟨s.mayWrite q (roleAddr addr) (accessBytes a), s.stageWrites (roleAddr addr) (accessBytes a),
      accessFits a && (targetPages addr).isSome⟩)
    fun s f =>
      let o := s.writeAt (s.writer q (some f)) addr a.width.toNat (Access.mask a) v.toNat
      (o.state, o.answer)

/-- RMW (R292): old value read and written back field by field. -/
def State.serveRmw (s : State) (q : Req) (a : Access) (mask v : Word64) : State :=
  let addr := a.addr.toNat
  s.serve q 0x03 (rmwBody a mask v)
    (fun s => ⟨s.isAdmin q, s.stageWrites (roleAddr addr) (accessBytes a), accessFits a && (targetPages addr).isSome⟩)
    fun s f =>
      let ps := (targetPages addr).getD []
      let read := fun (x : State × List Nat) (p : Page) =>
        if x.1.pageHung p then (x.1, x.2 ++ [0])
        else
          let r := (x.1.acked p).readAccess q.port true p (addr % 4096) a.width.toNat
          (r.1, x.2 ++ [r.2])
      let olds := ps.foldl read (s, [])
      let o := olds.1.writeAt (s.writer q (some f)) addr a.width.toNat (mask.toNat &&& Access.mask a) v.toNat
      (o.state, if o.waits then none else some {
        code := o.code, detail := o.detail, body := if o.code = .ok then beBytes 8 (olds.2.getD 0 0) else [] })

/-- Longest bulk (R292). -/
def maxBulk (q : Req) : Nat := if q.hcp1 then 1022 else 2048

/-- A bulk range is in form: its length, its alignment, one die field, mapped pages. -/
def bulkFits (q : Req) (addr n : Nat) (write : Bool) : Bool :=
  decide (1 ≤ n) && decide (n ≤ maxBulk q) && addr % 4 == 0 && (addr + 4 * n - 1) / 2 ^ 28 == addr / 2 ^ 28
    && (List.range ((addr % 4096 + 4 * n + 4095) / 4096)).all fun i =>
      let a := addr / 4096 * 4096 + 4096 * i
      if write then (targetPages a).isSome else (pageOf a).isSome

/-- Words read in ascending order; a hung page stops the read at its word (R303). -/
def State.readWords (m : MPort) (clear : Bool) : Nat → Nat → State → Bytes → State × Answer
  | _, 0, s, out => (s, { code := .ok, body := out })
  | addr, n + 1, s, out =>
    match pageOf addr with
    | none => (s, { code := .badAddress })
    | some p =>
      if s.pageHung p then (s, { code := .unitHung, detail := out.length / 4 })
      else
        let r := (s.acked p).readWord m clear p (addr % 4096)
        State.readWords m clear (addr + 4) n r.1 (out ++ beBytes 4 r.2)

/-- BULK_READ (R292). -/
def State.serveBulkRead (s : State) (q : Req) (a : BitVec 32) (count : BitVec 16) : State :=
  let addr := a.toNat
  let n := count.toNat
  s.serve q 0x04 (bulkBody a n [])
    (fun s => ⟨s.mayRead q addr (4 * n), s.stageReads addr (4 * n), bulkFits q addr n false⟩)
    fun s _ =>
      let r := State.readWords q.port (s.isAdmin q) addr n s []
      (r.1, some (if r.2.code = .ok then { r.2 with body := beBytes 6 s.tick ++ zeros 2 ++ r.2.body } else r.2))

/-- Words written in ascending order up to the first that is refused, whose index goes to DETAIL (R292). -/
def State.writeWords (w : Writer) : Nat → Nat → List Word → State → WriteOut
  | _, _, [], s => { state := s, code := .ok }
  | addr, i, v :: rest, s =>
    let o := s.writeAt w addr 1 (2 ^ 32 - 1) v.toNat
    if o.code = .ok then State.writeWords w (addr + 4) (i + 1) rest o.state
    else { state := o.state, code := o.code, detail := i }

/-- BULK_WRITE (R292): no word of it holds the reply back. -/
def State.serveBulkWrite (s : State) (q : Req) (a : BitVec 32) (words : List Word) : State :=
  let addr := a.toNat
  let n := words.length
  s.serve q 0x05 (bulkBody a n words)
    (fun s => ⟨s.isAdmin q, s.stageWrites (roleAddr addr) (4 * n), bulkFits q addr n true⟩)
    fun s _ =>
      let o := State.writeWords (s.writer q none) addr 0 words s
      (o.state, o.answer)

end Sys2Proof.Machine
end

