-- ==== Sys2Proof/Machine/HcpOps.lean ====
section
/-! DEFINITION. The opcodes of HCP beyond registers: tables, segments, dumps, attestation and sessions (R292 to R295,
R304 to R306, R334), frames refused before an opcode runs (R287, R290) and string timeouts (R303, R352). -/

namespace Sys2Proof.Machine

/-! Tables -/

/-- TABLE_CMD (R110): ADMIN only; R107 decides per table and stage. -/
def State.serveTable (s : State) (q : Req) (op : Nat) (b : TblBlock) : State :=
  s.serve q 0x06 (TblBlock.body op b)
    (fun s => ⟨s.isAdmin q, decide (1 ≤ s.serveStage), true⟩)
    fun s f => s.tableStart f op b

/-! Segments -/

/-- Longest image of an opcode (R294). -/
def maxImage (opcode : Nat) : Nat := if opcode = 0x07 then 67125952 else 1152

/-- Header of a segment and the bytes that follow it are in form (R294). -/
def segFits (opcode : Nat) (g : Segment) : Bool :=
  let total := g.totalLen.toNat
  let off := g.offset.toNat
  decide (1 ≤ total) && decide (total ≤ maxImage opcode) && off % 8192 == 0 && decide (off < total)
    && g.segLen.toNat == min 8192 (total - off) && g.data.length == g.segLen.toNat
    && (opcode != 0x07 || g.target == 0)

/-- Whose a transfer is (R295). -/
def ownerOf (q : Req) : XferOwner := if inSession q then .session q.session else .port q.port q.hcp1

/-- The open transfer of an owner, opcode and identifier. -/
def State.transfer (s : State) (own : XferOwner) (opcode : Nat) (id : BitVec 16) : Option Transfer :=
  s.mgmt.transfers.find? fun t => t.owner == own && t.opcode == opcode && t.id == id

/-- A transfer is closed, and its staging and identifier are free. -/
def State.closeTransfer (s : State) (own : XferOwner) (opcode : Nat) (id : BitVec 16) : State :=
  s.setMgmt fun m => { m with
    transfers := m.transfers.filter fun t => !(t.owner == own && t.opcode == opcode && t.id == id) }

/-- A transfer with one more segment; a segment at an offset already received replaces that part. -/
def Transfer.take (t : Transfer) (g : Segment) (up : Nat) : Transfer :=
  { t with parts := mput t.parts g.offset.toNat g.data, lastUp := up }

/-- Bytes received. -/
def Transfer.held (t : Transfer) : Nat := t.parts.foldl (fun n p => n + p.2.length) 0

/-- The image that the parts make up. -/
def Transfer.image (t : Transfer) : Bytes := t.parts.flatMap Prod.snd

/-- A segment is stored; the one that completes the image starts the operation (R295). -/
def State.takeSegment (s : State) (q : Req) (opcode : Nat) (g : Segment) (start : State → Bytes → State × Option Answer) :
    State × Option Answer :=
  let own := ownerOf q
  let go := fun (t : Transfer) =>
    let t := t.take g s.clk.up
    let s := s.closeTransfer own opcode g.transfer
    if t.held = t.total then start s t.image
    else
      (s.setMgmt fun m => { m with transfers := m.transfers ++ [t] }, some { code := .ok, detail := t.held })
  match s.transfer own opcode g.transfer with
  | some t =>
    if t.total ≠ g.totalLen.toNat ∨ t.target ≠ g.target.toNat then (s, some { code := .conflict }) else go t
  | none =>
    if 2 ≤ (s.mgmt.transfers.filter fun t => t.port == q.port).length then (s, some { code := .busy })
    else go { owner := own, port := q.port, opcode := opcode, id := g.transfer, target := g.target.toNat,
              total := g.totalLen.toNat, parts := [], lastUp := s.clk.up }

/-- CAL_LOAD (R294, R295). -/
def State.serveCalLoad (s : State) (q : Req) (g : Segment) : State :=
  s.serve q 0x07 (Segment.body g)
    (fun s => ⟨s.isAdmin q, decide (2 ≤ s.serveStage), segFits 0x07 g⟩)
    fun s f => s.takeSegment q 0x07 g fun s image => s.startInstall f image

/-- PROG_LOAD (R262, R295). -/
def State.serveProgLoad (s : State) (q : Req) (g : Segment) : State :=
  s.serve q 0x08 (Segment.body g)
    (fun s => ⟨s.isAdmin q, decide (3 ≤ s.serveStage), segFits 0x08 g⟩)
    fun s f => s.takeSegment q 0x08 g fun s image =>
      let r := s.startProg g.target.toNat image f
      (r.1, r.2.map fun c => { code := c })

/-! Dumps -/

/-- A dump range is in form and inside its source (R292). -/
def dumpFits (q : Req) (source die off len : Nat) : Bool :=
  let limit := if q.hcp1 then 4096 else 8192
  off % 4 == 0 && len % 4 == 0 && decide (4 ≤ len) && decide (len ≤ limit)
    && ((source == 0 && decide (die < 4) && decide (off + len ≤ 2 ^ 30))
      || (source == 1 && die == 0 && decide (off + len ≤ 2 ^ 22)))

/-- Bytes of a DUMP region: a word that an uncorrectable error covers reads as 0xDEAD_0BAD (R368). -/
def State.dumpBytes (s : State) (die off len : Nat) : Bytes :=
  (List.range (len / 4)).flatMap fun i =>
    let a := dumpBase die + off + 4 * i
    if s.sys.badWords.contains (a / 32) then beBytes 4 0xDEAD0BAD else s.hread a 4

/-- DUMP_READ (R292, R302): in Stage A only of a chip held after a fatal error; HBM is read once it is trained (R283). -/
def State.serveDumpRead (s : State) (q : Req) (source die : Byte) (off : BitVec 32) (len : BitVec 16) : State :=
  s.serve q 0x09 (dumpBody source die off len)
    (fun s => ⟨s.isAdmin q, decide (1 ≤ s.serveStage) || s.dump.held,
      dumpFits q source.toNat die.toNat off.toNat len.toNat⟩)
    fun s _ =>
      let ok := fun (b : Bytes) => (s, some ({ code := .ok, body := b } : Answer))
      if source = 1 then ok (fit len.toNat (s.dump.lastGasp.drop off.toNat))
      else if !s.hbmOn then (s, some { code := .stageNotReady })
      else if s.dieHung die.toNat then (s, some { code := .unitHung })
      else ok (s.dumpBytes die.toNat off.toNat len.toNat)

/-! Attestation (R334) -/

/-- Program entries: the contexts that hold a program, ascending. -/
def State.progEntries (s : State) : List Bytes :=
  s.col.ctxs.filterMap fun kv => kv.2.program.map fun g =>
    beBytes 1 kv.1 ++ zeros 3 ++ beBytes 4 (s.rget (ctxReg kv.1 0x148)) ++ fit 64 g.measurement

/-- Calendar entries: the last 16 images accepted, oldest first. -/
def State.calEntries (s : State) : List Bytes :=
  let l := s.sys.calImages
  (l.drop (l.length - 16)).map fun x => beBytes 4 x.1 ++ zeros 2 ++ beBytes 6 x.2.1.toNat ++ fit 64 x.2.2 ++ zeros 4

/-- The report under a nonce, signed with the identity key. Without verified firmware its fields are 0 and it has no
entries. -/
def State.attestReport (s : State) (nonce : Bytes) : Bytes :=
  let fw := s.sys.fwSlot.isSome
  let progs := if fw then s.progEntries else []
  let cals := if fw then s.calEntries else []
  let flags := b2n s.secLocked + 2 * b2n s.fuse.hcp1Fused + 4 * b2n (s.bget (secReg 0x008) 0)
    + 8 * b2n (!s.clk.everAligned) + 16 * b2n (!fw) + 32 * b2n s.dump.held
  let body := beBytes 4 0x575A4154 ++ beBytes 2 1 ++ beBytes 2 progs.length
    ++ beBytes 4 (160 + 72 * progs.length + 80 * cals.length + 64) ++ beBytes 2 cals.length
    ++ beBytes 1 (s.stageView % 4) ++ beBytes 1 flags ++ beBytes 8 chipId ++ beBytes 6 s.tick ++ zeros 2
    ++ beBytes 8 s.ptpNow ++ fit 32 nonce ++ fit 64 (if fw then s.sys.fwMeasure else [])
    ++ beBytes 4 (if fw then s.sys.fwSvn else 0) ++ beBytes 4 (if fw then s.sys.fwVersion else 0)
    ++ beBytes 4 (if fw then s.sys.fwSteppings else 0) ++ zeros 12 ++ progs.flatten ++ cals.flatten
  body ++ edSign identityKey (ascii "WZ5ATT01" ++ body)

/-- The report held for the session, or for session 0 of a port (R292). -/
def State.heldReport (s : State) (q : Req) : Option (Bytes × Bytes) :=
  if inSession q then (s.session q.session).bind Session.report
  else match q.port with
    | .m0 => s.mgmt.report0
    | .m1 => s.mgmt.report1

/-- Hold a report with its nonce. -/
def State.holdReport (s : State) (q : Req) (r : Bytes × Bytes) : State :=
  if inSession q then s.setSession q.session fun x => { x with report := some r }
  else s.setMgmt fun m => match q.port with
    | .m0 => { m with report0 := some r }
    | .m1 => { m with report1 := some r }

/-- The part of a report from an offset. -/
def reportPart (r : Bytes) (off : Nat) : Answer :=
  { code := .ok, body := beBytes 4 r.length ++ zeros 4 ++ (r.drop off).take 8192 }

/-- ATTEST (R292). -/
def State.serveAttest (s : State) (q : Req) (nonce : Bytes) (off : BitVec 32) : State :=
  s.serve q 0x0A (attestBody nonce off) (fun _ => ⟨true, true, nonce.length == 32⟩)
    fun s _ =>
      if off = 0 then
        let r := s.attestReport nonce
        (s.holdReport q (r, nonce), some (reportPart r 0))
      else match s.heldReport q with
        | some (r, n) => if n = nonce then (s, some (reportPart r off.toNat)) else (s, some { code := .conflict })
        | none => (s, some { code := .conflict })

/-! Sessions -/

/-- An AUTH_FAIL of OPEN: counted, with FAULT attention (R305). -/
def State.openFails (s : State) (slot : Nat) : State × Option Answer :=
  ((s.glbCtr .openFail).alarm (glbReg 0) 24 0x0002 slot, some { code := .authFail })

/-- A session number not in use, from the next one on. -/
def State.freshSession (s : State) : Nat :=
  ((List.range 64).map fun i => (s.mgmt.nextSession - 1 + i) % (2 ^ 32 - 1) + 1).find? (fun n =>
    (s.session (BitVec.ofNat 32 n)).isNone) |>.getD 1

/-- OPEN is judged and opens a session (R304, R305). -/
def State.openNow (s : State) (q : Req) (slot : Nat) (admin : Bool) (body eph nonce sig : Bytes) : State × Option Answer :=
  let k := s.keySlot false slot
  if k.state ≠ .enrolled ∨ (admin ∧ !k.admin) then (s, some { code := .accessDenied })
  else if !edVerify k.key (ascii "HCP2OPEN" ++ beBytes 8 chipId ++ body.take 68) sig then s.openFails slot
  else if 8 ≤ (s.mgmt.sessions.filter fun x => x.port == q.port && !x.closing).length then (s, some { code := .busy })
  else
    let a := s.draw
    let b := a.1.draw
    let s := b.1
    let z := x25519 a.2 eph
    if z = zeros 32 then s.openFails slot
    else
      let id := s.freshSession
      let out := beBytes 4 id ++ x25519Base a.2 ++ b.2
      let tail := beBytes 4 id ++ nonce ++ b.2
      let x : Session := {
        id := BitVec.ofNat 32 id, port := q.port, slot := slot, admin := admin,
        kReq := hmac512 z (ascii "HCP2 REQ" ++ tail), kRep := hmac512 z (ascii "HCP2 REP" ++ tail), lastUp := s.clk.up }
      let s := s.setMgmt fun m => { m with sessions := m.sessions ++ [x], nextSession := id % (2 ^ 32 - 1) + 1 }
      let proof := edSign identityKey (ascii "HCP2ACPT" ++ beBytes 8 chipId ++ body.take 68 ++ out)
      (s, some { code := .ok, body := out ++ proof })

/-- SESSION OPEN: sent with SESSION 0. -/
def State.serveOpen (s : State) (q : Req) (slot role : Byte) (eph nonce sig : Bytes) : State :=
  let body := openBody slot role eph nonce sig
  s.serve q 0x0B body
    (fun _ => ⟨true, true, !inSession q && eph.length == 32 && nonce.length == 32 && sig.length == 64
      && decide (slot.toNat < 8) && (role == 1 || role == 2)⟩)
    fun s _ => s.openNow q slot.toNat (role == 1) body eph nonce sig

/-- SESSION CLOSE: within the session that it closes, which goes after the reply (R306). -/
def State.serveClose (s : State) (q : Req) : State :=
  s.serve q 0x0B closeBody (fun _ => ⟨inSession q, true, true⟩)
    fun s _ => (s.setSession q.session fun x => { x with closing := true }, some okAns)

/-! Frames that are refused before an opcode runs -/

/-- The reply of check 1: HCP 2 layout, SESSION 0, no MAC, TAG copied. -/
def State.replyVersion (s : State) (m : MPort) (via : Transport) (frame : Bytes) : State :=
  let q : Req := {
    port := m, via := via, hcp1 := false, tag := BitVec.ofNat 9 (fld frame 2 2), session := 0, seq := 0, retry := false,
    mac := [], sameCycle := false }
  s.sendReply q (byteAt frame 1) { code := .version } false

/-- The envelope that a whole frame spells. -/
def parseReq (m : MPort) (via : Transport) (frame : Bytes) : Req × Nat :=
  if byteAt frame 0 / 16 = 1 then
    ({ port := m, via := via, hcp1 := true, tag := BitVec.ofNat 9 (fld frame 2 2), session := 0, seq := 0,
       retry := bit (fld frame 8 2) 0, mac := [], sameCycle := false }, fld frame 4 2)
  else
    let n := fld frame 16 2
    ({ port := m, via := via, hcp1 := false, tag := BitVec.ofNat 9 (fld frame 2 2),
       session := BitVec.ofNat 32 (fld frame 4 4), seq := BitVec.ofNat 64 (fld frame 8 8),
       retry := bit (fld frame 18 2) 0, mac := sub frame (32 + n) 16, sameCycle := false }, n)

/-- A frame that no opcode's command carries: discarded and counted, or answered with VERSION or BAD_ADDRESS (R287,
R290). A frame that passes checks 1 to 8 is the command of its opcode, and does nothing here. -/
def State.refuseFrame (s : State) (m : MPort) (via : Transport) (whole : Bool) (frame : Bytes) : State :=
  let v := byteAt frame 0 / 16
  let r := parseReq m via frame
  let q := r.1
  let head := if v = 1 then 16 else 32
  let opcode := byteAt frame 1
  let body := sub frame head r.2
  let f : InFlight := { req := q, opcode := opcode, bodyLen := r.2, bodyCrc := crc32c body }
  if !s.sys.serving || !s.portUp m || (s.fatal && !s.dump.held) then s
  else if !whole then s.glbCtr .linkDiscard
  else if !s.transportServed q then s
  else if frame.length < 4 then s.glbCtr .malformed
  else if (v ≠ 1 ∧ v ≠ 2) ∨ frame.length < head then s.replyVersion m via frame
  else if q.hcp1 && !bit s.hcpCtrl 31 then s.glbCtr .hcp1Discard
  else if frame.length < head + r.2 then s.glbCtr .malformed
  else match s.discards q r.2 (frame.take (head + r.2)) with
    | some c => s.glbCtr c
    | none =>
      if 0x01 ≤ opcode ∧ opcode ≤ 0x0B then s
      else
        let s := s.accept f
        if s.mc0Stopped opcode then s.reply f { code := .unitHung }
        else match s.cachedFor f with
          | some c => s.resendReply f c
          | none => s.reply f { code := .badAddress }

/-! Strings (R303, R352) -/

/-- The third TIMEOUT in a row marks a unit hung; a hung HBM page is fatal. -/
def State.markHung (s : State) (p : Page) : State :=
  let s := s.setMgmt fun m => { m with hung := p.base :: m.hung, timeouts := mdel m.timeouts p.base }
  let s := ((s.rset (cdReg 0x1B4) p.base).bump (cdReg 0x220)).alarm (cdReg 0) 28 0x0102 p.base
  if p.block = .hbm then s.raiseFatal 6 else s

/-- An access that its unit did not acknowledge in time. -/
def State.timedOut (s : State) (p : Page) : State × Answer :=
  if s.pageHung p then (s, { code := .unitHung })
  else
    let n := mgetD s.mgmt.timeouts p.base 0 + 1
    let s := s.setMgmt fun m => { m with timeouts := mput m.timeouts p.base n }
    (if 3 ≤ n then s.markHung p else s, { code := .timeout, detail := 0 })

/-- A register access that its string does not acknowledge (R303): it is not applied. Pages of die 8 lie on no string. -/
def State.serveTimeout (s : State) (q : Req) (op : StringOp) (a : Access) : State :=
  let addr := a.addr.toNat
  let read := match op with | .read => true | .write _ | .rmw _ _ => false
  let code := match op with | .read => 0x01 | .write _ => 0x02 | .rmw _ _ => 0x03
  let body := match op with
    | .read => Access.body a
    | .write v => writeBody a v
    | .rmw m v => rmwBody a m v
  let pages := if read then (pageOf addr).map fun p => [p] else targetPages addr
  if (pages.getD []).any fun p => p.die == 8 then s
  else
    s.serve q code body
      (fun s => match op with
        | .read => ⟨s.mayRead q addr (accessBytes a), s.stageReads addr (accessBytes a), accessFits a && pages.isSome⟩
        | .write _ => ⟨s.mayWrite q (roleAddr addr) (accessBytes a), s.stageWrites (roleAddr addr) (accessBytes a),
            accessFits a && pages.isSome⟩
        | .rmw _ _ => ⟨s.isAdmin q, s.stageWrites (roleAddr addr) (accessBytes a), accessFits a && pages.isSome⟩)
      fun s _ => match (pages.getD []).head? with
        | some p => let r := s.timedOut p; (r.1, some r.2)
        | none => (s, some { code := .badAddress })

/-! Rows that write one register -/

/-- A 32-bit WRITE of one register, on HCP (R292). -/
def State.serveReg (s : State) (q : Req) (addr v : Nat) : State :=
  s.serveWrite q ⟨BitVec.ofNat 32 addr, 1⟩ (BitVec.ofNat 64 v)

end Sys2Proof.Machine
end

