-- ==== Sys2Proof/Machine/Contexts.lean ====
section
/-! DEFINITION. Collective contexts: enable, disable, Lull, resets, K banks, gather slots and their deadlines, results,
and the timers of the context manager (R178 to R180, R187, R189, R196, R199, R205, R207, R246, R370). -/

namespace Sys2Proof.Machine

/-- A command written to CTX.CTRL. -/
def State.writeCtxCtrl (s : State) (q : Req) (c v : Nat) : State := s.serveReg q (ctxReg c 0x008) v

/-- CTX_ENABLE (R178). -/
def execCtxEnable (q : Req) (ctx : CtxNo) (s : State) : Host.Outcome State Fault Refusal :=
  done s (s.writeCtxCtrl q ctx.val 1)

/-- CTX_ENABLE_COMPLETE (R179). -/
def execCtxEnableComplete (ctx : CtxNo) (s : State) : Host.Outcome State Fault Refusal :=
  done s (s.completeEnable ctx.val)

/-- TWIN_CTX_ACCEPT_TIMEOUT (R342): no answer in 2,500 ticks. -/
def execTwinCtxAcceptTimeout (ctx : CtxNo) (s : State) : Host.Outcome State Fault Refusal :=
  done s (match (s.ctx ctx.val).asking with
    | some (since, _) => if since + 2500 ≤ s.clk.up then s.refuseAsking ctx.val 0 else s
    | none => s)

/-- CTX_DISABLE (R180). -/
def execCtxDisable (q : Req) (ctx : CtxNo) (s : State) : Host.Outcome State Fault Refusal :=
  done s (s.writeCtxCtrl q ctx.val 2)

/-- CTX_LULL_BEGIN (R180). -/
def execCtxLullBegin (ctx : CtxNo) (s : State) : Host.Outcome State Fault Refusal := done s (s.lullNow ctx.val)

/-- The Lull of a context may end: a context reset has made its aborts, and a context that the twin role is handing over
waits for the handover (R345, R370). -/
def State.mayIdle (s : State) (c : Nat) : Bool :=
  let x := s.ctx c
  x.state == .lull && (x.resetting.isNone || x.resetAborted)
    && !(s.twin.state == .lull && s.twinned c) && s.ctxDrained c

/-- CTX_LULL_DRAINED (R180). -/
def execCtxLullDrained (ctx : CtxNo) (s : State) : Host.Outcome State Fault Refusal :=
  done s (if s.mayIdle ctx.val then s.ctxIdle ctx.val else s)

/-- CTX_STATE_FREE (R244). -/
def execCtxStateFree (q : Req) (ctx : CtxNo) (s : State) : Host.Outcome State Fault Refusal :=
  done s (s.writeCtxCtrl q ctx.val 4)

/-- CTX_RESET (R370). -/
def execCtxReset (q : Req) (ctx : CtxNo) (s : State) : Host.Outcome State Fault Refusal :=
  done s (s.writeCtxCtrl q ctx.val 8)

/-- Queued CONTRIB cells of a context are discarded and their credits freed (R370). -/
def State.dropContribs (s : State) (c : Nat) : State :=
  let dead := fun (x : Cell) => x.kind == .contrib && x.complete && x.contrib.any fun t => t.ctx == c
  let s := s.each (s.sw.voq.filter dead) fun s x =>
    if x.charged && !x.spilled then s.freeCredit x.srcPort x.vc 1 else s
  s.setSw fun w => { w with voq := w.voq.filter fun x => !dead x }

/-- The aborts of a context reset (R370): its timers stop with them. -/
def State.resetAborts (s : State) (c : Nat) : State :=
  let s := (s.abortSlots c rsReset Slot.unbegun).dropContribs c
  s.setCtx c fun x => { x with resetAborted := true, timers := [], startUp := none }

/-- CTX_RESET_ABORTS (R370): the snapshot of the reset is complete. -/
def execCtxResetAborts (ctx : CtxNo) (s : State) : Host.Outcome State Fault Refusal :=
  let x := s.ctx ctx.val
  done s (if x.resetBegun && !x.resetAborted && !s.dump.snaps.any (fun n => n.ctx == some ctx.val) then
    s.resetAborts ctx.val
  else s)

/-- KBANK_VALID_SET (R246). -/
def execKbankValidSet (q : Req) (ctx : CtxNo) (bank : Bool) (s : State) : Host.Outcome State Fault Refusal :=
  done s (s.serveReg q (ctxReg ctx.val 0x194) (if bank then 2 else 1))

/-- KBANK_CLEAR (R318). -/
def execKbankClear (q : Req) (ctx : CtxNo) (bank : Bool) (s : State) : Host.Outcome State Fault Refusal :=
  done s (s.serveReg q (ctxReg ctx.val 0x194) (if bank then 0x200 else 0x100))

/-! Gather slots -/

/-- Pages that a slot takes when it is resident. -/
def State.pagesOf (s : State) (x : Slot) : List Nat :=
  s.slotPages x.ctx (match s.placeOf x.ctx x.chunk with | some p => p.engine | none => 4 * x.core)

/-- A complete spilled slot is the oldest of its core and finds its pages (R187). -/
def State.mayRefill (s : State) (x : Slot) : Bool :=
  x.spilled && x.phase == .complete
    && !s.col.slots.any (fun y => y.core == x.core && y.spilled && y.phase == .complete && decide (y.order < x.order))
    && s.pagesFit x.core (s.pagesOf x)

/-- SLOT_REFILL (R188): the data are in pages and the slot is READY. -/
def execSlotRefill (desc : Nat) (s : State) : Host.Outcome State Fault Refusal :=
  done s (match s.slot desc with
    | some x =>
      if s.mayRefill x then
        s.setSlot { x with spilled := false, pages := s.pagesOf x, phase := .ready, readyUp := s.clk.up }
      else s
    | none => s)

/-- SLOT_DEADLINE (R199). -/
def execSlotDeadline (desc : Nat) (s : State) : Host.Outcome State Fault Refusal :=
  done s (match s.slot desc with
    | some x => if s.pastDeadline x then s.deadlines x.ctx else s
    | none => s)

/-- RESULT_RELEASE (R196). -/
def execResultRelease (desc : Nat) (s : State) : Host.Outcome State Fault Refusal :=
  done s (match s.slot desc with
    | some x => if s.releaseReady x then s.releaseSlot x else s
    | none => s)

/-! The context manager -/

/-- A round of START has passed (R205): unicast to each missing member, or after the last round START_INCOMPLETE. -/
def State.startRound (s : State) (c : Nat) : State :=
  let x := s.ctx c
  match x.startWait, x.startRounds with
  | [], _ => s.setCtx c fun y => { y with startUp := none }
  | low :: _, 0 =>
    ((s.bset (ctxReg c 0x140) 1 true).alarm (ctxReg c 0) 16 0x0903 low).setCtx c fun y => { y with startUp := none }
  | missing, n + 1 =>
    let s := s.each missing fun s m => s.originate (s.ctxCore c) (s.startMsg c) (.place (s.memberPlace c m))
    s.setCtx c fun y => { y with startRounds := n, startUp := some s.clk.up }

/-- START_RETRY_TIMEOUT (R205). -/
def execStartRetryTimeout (ctx : CtxNo) (s : State) : Host.Outcome State Fault Refusal :=
  done s (match (s.ctx ctx.val).startUp with
    | some t => if t + s.fget (ctxReg ctx.val 0x134) 15 0 ≤ s.clk.up then s.startRound ctx.val else s
    | none => s)

/-- Used spines that have not reported a step, in ascending order (R207). -/
def State.silentSpines (s : State) (c step : Nat) : List (Nat × Nat × Nat) :=
  ((s.spines c).zipIdx.filter fun e => !(s.ctx c).reports.contains (step, e.2)).map Prod.fst

/-- A step timer has run out (R207): one ABORT for each silent spine, and the timer starts again. -/
def State.stepExpires (s : State) (c step : Nat) : State :=
  let silent := s.silentSpines c step
  let s := s.each silent fun s e => s.sendAbort c step e.2.1 (e.2.1 + e.2.2 - 1) rsPeerLost
  let s := s.setCtx c fun x => { x with timers := mput x.timers step s.clk.up }
  s.noteAborts c step silent.length

/-- STEP_TIMEOUT (R207). -/
def execStepTimeout (ctx : CtxNo) (step : BitVec 16) (s : State) : Host.Outcome State Fault Refusal :=
  done s (match mget (s.ctx ctx.val).timers step.toNat with
    | some t => if t + s.fget (ctxReg ctx.val 0x130) 23 0 ≤ s.clk.up then s.stepExpires ctx.val step.toNat else s
    | none => s)

end Sys2Proof.Machine
end

