-- ==== Sys2Proof/Machine/Egress.lean ====
section
/-! DEFINITION. Egress service: granted sub-slots (R32), waiting and slips (R45 to R47), leftover capacity (R33,
R103, R129 to R135), cut-through (R101, R102), credit blocks (R91) and keepalives (R354). -/

namespace Sys2Proof.Machine

/-! Grants and packets -/

/-- A grant serves a packet: by its source port and VC, or a result by the context that owns the grant (R32, R196). -/
def CalEntry.serves (e : CalEntry) (x : EgPkt) : Bool :=
  e.vc == x.vc && match x.owner with
    | some (c, _) => x.vc == 0 && e.owner.any fun o => o.val == c
    | none => e.src == x.src

/-- The active calendar of the packet's port holds a valid grant for it, suspended or not (R45, R38). -/
def State.onCalendar (s : State) (x : EgPkt) : Bool :=
  s.mode x.port == 0 && decide (x.vc < 3) && (s.pcal x.port).active.any fun kv => kv.2.valid && kv.2.serves x

/-- The packet is scheduled (R45). -/
def State.pktScheduled (s : State) (x : EgPkt) : Bool := !s.calOff x.port && s.onCalendar x

/-- Offset of the present FC cycle in its sub-slot. -/
def State.subOffset (s : State) : Nat := s.clk.fc - 160 * min 3 (s.clk.fc / 160)

/-- The grant of the sub-slot `i` after the present one. -/
def State.grantAhead (s : State) (p i : Nat) : Option CalEntry :=
  let n := min 3 (s.clk.fc / 160) + i
  s.grantAt p (s.tick + n / 4) (n % 4)

/-- The packet waits for a grant that starts within WAIT_LIMIT sub-slots of its arrival, or of the grant it last
missed (R46). The present sub-slot counts until its usable window ends. -/
def State.waitsGrant (s : State) (x : EgPkt) : Bool :=
  let last := x.waitFrom + s.fget (calReg x.port 0x11C) 6 0
  (List.range (last + 1 - s.subNow)).any fun i =>
    (i != 0 || decide (s.subOffset < 144)) && (s.grantAhead x.port i).any fun e => e.serves x

/-- R129: eligible for leftover service. -/
def State.leftoverOk (s : State) (x : EgPkt) : Bool := !s.pktScheduled x || x.expired || !s.waitsGrant x

/-- Packets of one source: the arrival port, or core and context of what the chip originates. -/
def EgPkt.source (x : EgPkt) : Nat × Option Nat := (x.src, x.owner.map Prod.fst)

/-- The oldest packet of a list that a test passes and that has no older packet of its own source before it. -/
def firstOfSource (ok : EgPkt → Bool) : List (Nat × Option Nat) → List EgPkt → Option EgPkt
  | _, [] => none
  | seen, x :: r =>
    if !seen.contains x.source && ok x then some x else firstOfSource ok (x.source :: seen) r

/-- Packets queued for a port and VC, oldest first. -/
def State.queueOf (s : State) (p vc : Nat) : List EgPkt := s.sw.egress.filter fun x => x.port == p && x.vc == vc

/-- The candidate of a VC (R129). -/
def State.candidate (s : State) (p vc : Nat) : Option EgPkt := firstOfSource s.leftoverOk [] (s.queueOf p vc)

/-! When a packet may start -/

/-- The port sends: it is UP, or drains in Lull. -/
def State.portSends (s : State) (p : Nat) : Bool :=
  s.leads p && s.atStage 1 && !s.fatal && (s.portState p == 1 || s.portState p == 4) && decide (0 < s.lanesNow p)

/-- R170: at KITE_TICK − 1 egress starts no packet that would end after KITE_TICK on a fiber that enters a circuit. -/
def State.kiteHolds (s : State) (p end_ : Nat) : Bool :=
  s.cal.kites.any fun k => k.phase == .prepared && k.at_ == s.tickPlus 1
    && (kitePartner k.map (p / 4)).isSome && decide (p < 128) && decide (s.clk.fcBase + 640 < end_)

/-- FC cycles that a packet takes from `at_` on, the lane-tag block of each lane counted when one falls inside it: the
blocks leave at the boundaries of ticks that are multiples of 4 (R35, R33). -/
def State.spanOf (s : State) (p n at_ : Nat) : Nat :=
  let t := s.txCycles p n
  let inside := (List.range 3).any fun i =>
    (s.tick + i + 1) % 4 == 0 && decide (at_ < s.clk.fcBase + 640 * (i + 1))
      && decide (s.clk.fcBase + 640 * (i + 1) < at_ + t)
  if s.mode p = 0 ∧ inside then s.txCycles p (n + 64 * s.lanesNow p) else t

/-- FC time of the next sub-slot with a valid grant, if any is in force. -/
def State.nextGrantFc (s : State) (p : Nat) : Option Nat := (s.toNextGrant p).map (s.fcNow + ·)

/-- R32, R33: the leftover capacity that is open now: none in the guard of a granted sub-slot; else the time by which a
packet must have left, and the time by which its gap must be over. -/
def State.leftoverBounds (s : State) (p : Nat) : Option (Option Nat × Option Nat) :=
  match s.grantAhead p 0 with
  | some _ =>
    if s.subOffset < 144 then some (some (s.fcNow - s.subOffset + 144), s.nextGrantFc p) else none
  | none => some (none, s.nextGrantFc p)

/-- A packet of `n` bytes that starts now stays within the bounds. -/
def State.fitsLeftover (s : State) (p n : Nat) (b : Option Nat × Option Nat) : Bool :=
  b.1.all (fun t => decide (s.fcNow + s.spanOf p n s.fcNow ≤ t))
    && b.2.all fun t => decide (s.fcNow + s.spanOf p (n + s.gapBytes p) s.fcNow ≤ t)

/-- A granted packet that fits the present window waits (R32): what is left of the window is not leftover. -/
def State.grantedWaits (s : State) (p : Nat) : Bool :=
  match s.grantAhead p 0 with
  | some e =>
    (s.sw.egress.find? fun x => x.port == p && e.serves x).any fun x =>
      s.hasCredit p x.vc x.bytes.length
        && decide (s.subOffset + s.spanOf p x.bytes.length s.fcNow ≤ 144)
  | none => false

/-! Granted sub-slots (R32) -/

/-- Granted packets leave, oldest first, while they end within the usable window. -/
def State.grantRun : Nat → State → Nat → CalEntry → Nat → State
  | 0, s, _, _, _ => s
  | fuel + 1, s, p, e, window =>
    match s.sw.egress.find? fun x => x.port == p && e.serves x with
    | none => s
    | some x =>
      let at_ := max s.fcNow (s.port p).txFree
      let n := x.bytes.length
      let end_ := at_ + s.spanOf p n at_
      if end_ ≤ window ∧ s.hasCredit p x.vc n ∧ !s.kiteHolds p end_ then
        let s := if x.waitFrom < s.subNow then s.pmc (calReg p 0) 0x103 1 else s
        let s := (s.transmit x at_ (some window) false).bump (calReg p 0x198)
        let sub := min 3 (s.clk.fc / 160)
        let s := s.setPort p fun y => { y with
          grantedSubs := if y.grantedSubs.contains sub then y.grantedSubs else sub :: y.grantedSubs }
        s.grantRun fuel p e window
      else s

/-- Packets that a sub-slot serves and that stay behind wait from it for the following grant (R46). -/
def State.missedGrant (s : State) (p : Nat) (e : CalEntry) : State :=
  s.setSw fun w => { w with egress := w.egress.map fun x =>
    if x.port == p && e.serves x then { x with waitFrom := s.subNow } else x }

/-- GRANTED_SUBSLOT (R32). -/
def execGrantedSubslot (port : PortNo) (sub : Fin 4) (s : State) : Host.Outcome State Fault Refusal :=
  let p := port.val
  let t := { s with clk := { s.clk with fc := max s.clk.fc (160 * sub.val) } }
  done s (if min 3 (t.clk.fc / 160) = sub.val ∧ t.portSends p then
    match t.grantAhead p 0 with
    | some e => (t.grantRun (t.sw.egress.length + 1) p e (t.fcNow - t.subOffset + 144)).missedGrant p e
    | none => t
  else t)

/-- WAIT_LIMIT_EXPIRY (R46). -/
def execWaitLimitExpiry (port : PortNo) (pkt : Nat) (sub : Fin 4) (s : State) : Host.Outcome State Fault Refusal :=
  let t := { s with clk := { s.clk with fc := max s.clk.fc (160 * sub.val) } }
  done s (t.setSw fun w => { w with egress := w.egress.map fun x =>
    if x.id == pkt && x.port == port.val && t.pktScheduled x && !t.waitsGrant x then { x with expired := true } else x })

/-! Leftover service (R129) -/

/-- What a slip, or a packet that would be scheduled on a suspended calendar, adds to its counters (R46, R38). -/
def State.countSlip (s : State) (x : EgPkt) : State :=
  let p := x.port
  if s.pktScheduled x then
    let s := (s.bump (calReg p (0x180 + 8 * x.vc))).pmc (calReg p 0) 0x102 1
    if x.waitFrom < s.subNow then s.pmc (calReg p 0) 0x103 1 else s
  else if s.onCalendar x && (s.pcal p).suspended then s.bump (calReg p 0x1A8)
  else s

/-- The VC2 policer is drawn from (R135). -/
def State.drawVc2 (s : State) (p n : Nat) : State :=
  let b := s.vc2Now p
  s.setPort p fun x => { x with vc2 := { b with count := b.count - ((n + modeOverhead (s.mode p)) * 6400 : Nat) } }

/-- FC time from which a policer with no tokens holds some again. -/
def State.vc2Again (s : State) (p : Nat) : Nat :=
  let b := (s.port p).vc2
  b.at_ + ceilDiv (-b.count).toNat (max 1 (laneRate (s.mode p) * s.lanesNow p))

/-- FC cycles in which a VC2 packet waited for tokens are counted up to now (R135), and the wait goes on or ends. -/
def State.countHold (s : State) (p : Nat) : State :=
  let n := match (s.port p).vc2Wait with | some t => min s.fcNow (s.vc2Again p) - t | none => 0
  let s := if n = 0 then s else (s.bump (portReg p 0x1A0) n).pmc (portReg p 0) 0x131 n
  let waits := s.portSends p && (s.candidate p 2).isSome && decide ((s.vc2Now p).count < 0)
  if waits == false && (s.port p).vc2Wait.isNone then s
  else s.setPort p fun x => { x with vc2Wait := if waits then some s.fcNow else none }

/-- VC number of DWRR position 0, 1 or 2. -/
def dwrrVc (i : Nat) : Nat := if i = 2 then 3 else i

/-- The candidate of a VC that may start now. -/
def State.ready (s : State) (p vc : Nat) (b : Option Nat × Option Nat) : Option EgPkt :=
  match s.candidate p vc with
  | some x =>
    if s.hasCredit p vc x.bytes.length && s.fitsLeftover p x.bytes.length b
        && !s.kiteHolds p (s.fcNow + s.spanOf p x.bytes.length s.fcNow) then some x else none
  | none => none

/-- R103 and R129: the VC that DWRR serves among those that take part, with the deficits as they stand then. An
excluded VC keeps its deficit. -/
def dwrrPick : Nat → List Bool → List Nat → List Int → Nat → Option (Nat × List Int)
  | 0, _, _, _, _ => none
  | fuel + 1, ok, ws, def_, turn =>
    if ok.getD turn false && decide (0 < def_.getD turn 0) then some (turn, def_)
    else
      let next := (turn + 1) % 3
      dwrrPick fuel ok ws
        (if ok.getD next false then def_.set next (def_.getD next 0 + (256 * ws.getD next 0 : Nat)) else def_) next

/-- Deficits with those of empty queues at 0 (R103). -/
def State.deficits (s : State) (p : Nat) : List Int :=
  [0, 1, 2].map fun i => if (s.queueOf p (dwrrVc i)).isEmpty then 0 else (s.port p).deficit.getD i 0

/-- A packet leaves in leftover capacity. -/
def State.sendLeftover (s : State) (x : EgPkt) (cut : Bool) : State := (s.countSlip x).transmit x s.fcNow none cut

/-- One leftover opportunity: VC2 within its policer, else DWRR over VC0, VC1 and VC3 (R129). -/
def State.leftover (s : State) (p : Nat) (b : Option Nat × Option Nat) : State :=
  let v2 := if 0 ≤ (s.vc2Now p).count then s.ready p 2 b else none
  match v2 with
  | some x => (s.drawVc2 p x.bytes.length).sendLeftover x false
  | none =>
    let cand := [0, 1, 2].map fun i => if s.hasTokens p i && s.hasTokens p 3 then s.ready p (dwrrVc i) b else none
    match dwrrPick 192 (cand.map Option.isSome) (s.vcWeights (portReg p 0x108)) (s.deficits p) (s.port p).turn with
    | none => s
    | some (i, def_) =>
      match cand.getD i none with
      | none => s
      | some x =>
        let n := x.bytes.length
        let s := ((s.drawTokens p i n).drawTokens p 3 n).sendLeftover x false
        let s := s.setPort p fun y => { y with deficit := def_.set i (def_.getD i 0 - (n : Nat)), turn := i }
        let d := s.deficits p
        s.setPort p fun y => { y with deficit := d }

/-- LEFTOVER_OPPORTUNITY (R129). -/
def execLeftoverOpportunity (port : PortNo) (fc : FcCycle) (s : State) : Host.Outcome State Fault Refusal :=
  let p := port.val
  let t := (s.atFc fc).countHold p
  done s (if t.portSends p ∧ (t.port p).txFree ≤ t.fcNow ∧ !t.grantedWaits p then
    match t.leftoverBounds p with
    | some b => (t.leftover p b).countHold p
    | none => t
  else t)

/-! Cut-through (R101, R102) -/

/-- The packet that a flow assembles, as it would stand in its queue. -/
def Flow.asPacket (f : Flow) : Option EgPkt :=
  f.asm.head?.map fun c =>
    { id := 0, port := c.dest, vc := c.vc, src := c.srcPort, bytes := packetOf f.asm, fmt := c.fmt, cells := 0,
      srcDie := none, enterFc := f.asmFc, waitFrom := 0, cut := f.cut, owner := c.owner }

/-- How a cut-through packet of `n` bytes may start now: in a granted sub-slot with the end of its window, or in leftover
capacity (R101 condition 4). -/
def State.cutWay (s : State) (x : EgPkt) (n : Nat) : Option (Option Nat) :=
  let p := x.port
  let granted := (s.grantAhead p 0).any fun e => e.serves x
  let window := s.fcNow - s.subOffset + 144
  if !s.portSends p || decide (s.fcNow < (s.port p).txFree) || !s.hasCredit p x.vc n
      || s.kiteHolds p (s.fcNow + s.spanOf p n s.fcNow) then none
  else if granted then if s.fcNow + s.spanOf p n s.fcNow ≤ window then some (some window) else none
  else
    let tokens := if x.vc = 2 then decide (0 ≤ (s.vc2Now p).count) else s.hasTokens p (vcIdx x.vc) && s.hasTokens p 3
    match s.leftoverBounds p with
    | some b => if s.fitsLeftover p n b && tokens && s.leftoverOk x then some none else none
    | none => none

/-- Tokens that a packet sent in leftover capacity draws. -/
def State.drawLeftover (s : State) (p vc n : Nat) : State :=
  if vc = 2 then s.drawVc2 p n else (s.drawTokens p (vcIdx vc) n).drawTokens p 3 n

/-- Counters of a cut-through packet that starts. -/
def State.countCut (s : State) (x : EgPkt) (window : Option Nat) : State :=
  match window with
  | some _ => s.bump (calReg x.port 0x198)
  | none => s.countSlip { x with waitFrom := s.subNow }

/-- A flow whose egress holds 1,920 bytes of its packet in order starts to send it (R102). -/
def State.cutStart (s : State) (f : Flow) : State :=
  match f.asPacket, f.asm.head? with
  | some x, some c =>
    match s.cutWay x c.pktLen with
    | some w =>
      let s := if w.isSome then s else s.drawLeftover x.port x.vc c.pktLen
      ((s.countCut x w).startTx x.port x.vc c.pktLen f.asmFc s.fcNow w true).setFlow { f with cutSent := some s.fcNow }
    | none => s
  | _, _ => s

/-- A packet shorter than the lead, whole in its queue, is cut through (R102). -/
def State.cutQueued (s : State) (x : EgPkt) : State :=
  match s.cutWay x x.bytes.length with
  | some w =>
    let s := if w.isSome then s else s.drawLeftover x.port x.vc x.bytes.length
    (s.countCut x w).transmit x s.fcNow w true
  | none => s

/-- CUT_THROUGH_START (R102): of a packet that reached an idle port. -/
def execCutThroughStart (port : PortNo) (fc : FcCycle) (s : State) : Host.Outcome State Fault Refusal :=
  let p := port.val
  let t := s.atFc fc
  let queued := t.sw.egress.filter fun x => x.port == p
  let flow := t.sw.flows.find? fun f =>
    !f.key.multicast && f.key.dest == p && f.cut && f.cutSent.isNone && decide (1920 ≤ (packetOf f.asm).length)
  done s (match queued, flow with
    | [], some f => t.cutStart f
    | [x], _ => if x.cut then t.cutQueued x else t
    | _, _ => t)

/-- CUT_THROUGH_TRUNCATE (R102): every byte that the egress holds in order has left, and the next is missing. -/
def execCutThroughTruncate (port : PortNo) (fc : FcCycle) (s : State) : Host.Outcome State Fault Refusal :=
  let p := port.val
  let t := s.atFc fc
  done s (match t.sw.flows.find? fun f => !f.key.multicast && f.key.dest == p && f.cutSent.isSome with
    | some f =>
      match f.cutSent with
      | some from_ =>
        let n := (packetOf f.asm).length
        if from_ + t.txCycles p n ≤ t.fcNow then
          (t.truncate f).setPort p fun x => { x with
            busyTo := min x.busyTo (t.fcNow + t.txCycles p 4)
            txFree := min x.txFree (t.fcNow + t.txCycles p (4 + t.gapBytes p)) }
        else t
      | none => t
    | none => t)

/-! Credit and keepalive blocks -/

/-- The 8-byte credit block (R91). -/
def creditBlock (vc count : Nat) : Bytes := beBytes 1 0xC5 ++ beBytes 1 (vc % 4) ++ zeros 2 ++ beBytes 4 count

/-- CREDIT_BLOCK_RX (R91): the latest cumulative count of the partner. -/
def execCreditBlockRx (port : PortNo) (block : Bytes) (s : State) : Host.Outcome State Fault Refusal :=
  let p := port.val
  let vc := byteAt block 1 % 4
  done s (if s.portReceives p ∧ block.length = 8 ∧ byteAt block 0 = 0xC5 ∧ s.credited p vc then
    s.setPort p fun x => { x with creditSeen := mput x.creditSeen vc (fld block 4 4) }
  else s)

/-- Cumulative count that a credit block carries: the advertised limit and what has been freed since link-up. -/
def State.creditCount (s : State) (p vc : Nat) : Nat := (s.creditLimit p + mgetD (s.port p).freed vc 0) % 2 ^ 32

/-- A block leaves on a port. -/
def State.sendBlock (s : State) (p : Nat) (b : Bytes) : State :=
  (s.setPort p fun x => { x with lastSentFc := max x.lastSentFc s.fcNow }).send (.block p b)

/-- CREDIT_BLOCK_TX (R91): the first block after link-up, and one whenever credits wait to be returned. -/
def execCreditBlockTx (port : PortNo) (vc : VcNo) (s : State) : Host.Outcome State Fault Refusal :=
  let p := port.val
  let n := s.creditCount p vc.val
  done s (if s.portSends p ∧ s.credited p vc.val ∧ mget (s.port p).freedSent vc.val ≠ some n then
    (s.setPort p fun x => { x with freedSent := mput x.freedSent vc.val n }).sendBlock p (creditBlock vc.val n)
  else s)

/-- KEEPALIVE_TX (R354): nothing sent for 500 ns. -/
def execKeepaliveTx (port : PortNo) (fc : FcCycle) (s : State) : Host.Outcome State Fault Refusal :=
  let p := port.val
  let t := s.atFc fc
  let lit := t.leads p && t.atStage 1 && !t.fatal && (t.port p).enabled && !(t.port p).kite && decide (0 < t.lanesNow p)
  done s (if lit ∧ t.mode p ≠ 1 ∧ (t.port p).busyTo ≤ t.fcNow ∧ (t.port p).lastSentFc + 800 ≤ t.fcNow then
    t.sendBlock p (beBytes 1 0x4B ++ zeros 7)
  else t)

end Sys2Proof.Machine
end

