-- ==== Sys2Proof/Machine/Engines.lean ====
section
/-! DEFINITION. The reduction engines: tiles, power, BIST and repair (R194, R232 to R240). -/

namespace Sys2Proof.Machine

/-- TILE_ISSUE (R194). -/
def execTileIssue (core : CoreNo) (s : State) : Host.Outcome State Fault Refusal := done s (s.issueCore core.val)

/-- TILE_COMPLETE (R232): an engine that runs a tile ends it. -/
def execTileComplete (eng : EngineNo) (fault : TileFault) (late : Bool) (s : State) :
    Host.Outcome State Fault Refusal :=
  done s (if s.engState eng.val == 1 || (s.runningOn eng.val).isSome then s.endTile eng.val fault late else s)

/-- TILE_RERUN (R233). -/
def execTileRerun (desc tile : Nat) (s : State) : Host.Outcome State Fault Refusal := done s (s.rerunTile desc tile)

/-- A command written to ENG.CTRL. -/
def State.writeEngCtrl (s : State) (q : Req) (e v : Nat) : State := s.serveReg q (engReg e 0x008) v

/-- ENG_UNGATE (R235). -/
def execEngUngate (q : Req) (eng : EngineNo) (s : State) : Host.Outcome State Fault Refusal :=
  done s (s.writeEngCtrl q eng.val 8)

/-- ENG_GATE (R236). -/
def execEngGate (q : Req) (eng : EngineNo) (s : State) : Host.Outcome State Fault Refusal :=
  done s (s.writeEngCtrl q eng.val 4)

/-- ENG_RELEASE (R236). -/
def execEngRelease (q : Req) (eng : EngineNo) (s : State) : Host.Outcome State Fault Refusal :=
  done s (s.writeEngCtrl q eng.val 2)

/-- ENG_BIST (R236). -/
def execEngBist (q : Req) (eng : EngineNo) (s : State) : Host.Outcome State Fault Refusal :=
  done s (s.writeEngCtrl q eng.val 1)

/-- ENG_REPAIR_WRITE (R238). -/
def execEngRepairWrite (q : Req) (eng : EngineNo) (v : Word) (s : State) : Host.Outcome State Fault Refusal :=
  done s (s.serveReg q (engReg eng.val 0x100) v.toNat)

/-- ENG_BIST_COMPLETE (R236): 125 ticks after its start. -/
def execEngBistComplete (eng : EngineNo) (found : BistFound) (s : State) : Host.Outcome State Fault Refusal :=
  done s (if s.engState eng.val = 2 ∧ (s.eng eng.val).bistUp + 125 ≤ s.clk.up then s.endEngBist eng.val found else s)

end Sys2Proof.Machine
end

