-- ==== Sys2Proof/Machine/Starts.lean ====
section
/-! DEFINITION. Staged start, firmware verification and resets of the chip (R173, R283, R324 to R330, R369, R373, R399,
R406 to R409, R421). -/

namespace Sys2Proof.Machine

/-! Resets -/

/-- HBM cells of a region of each die from `from_` GiB up (R273). -/
def hbmFrom (from_ : Nat) (m : List Host.Cell) : List Host.Cell :=
  m.filter fun c => decide (from_ ≤ c.1 % 2 ^ 37 / 2 ^ 30)

/-- What the board fixes and no reset moves: clocks that are lost, modules that are not there. -/
def State.boardFacts (s t : State) : State :=
  { t with
    pho := { t.pho with
      laneclkLost := s.pho.laneclkLost, mclkLost := s.pho.mclkLost
      els := s.pho.els.map fun kv => (kv.1, { present := kv.2.present, suitable := kv.2.suitable }) }
    mgmt := { t.mgmt with up0 := !s.pho.mclkLost, up1 := !s.pho.mclkLost } }

/-- A cold reset (R369, R406): everything at its reset value but the fuses and what stands in the DUMP regions. Field
repairs are lost (R239). -/
def State.coldReset (s : State) (straps : BitVec 3) (kind : Nat) (latch : Bool) : State :=
  let t : State := { State.reset with
    pending := s.pending, out := s.out, hbm := hbmFrom 127 s.hbm, fuse := { s.fuse with repairs := [] } }
  let t := s.boardFacts t
  t.setSys fun y => { y with
    straps := straps, lastReset := kind, thermalLatch := latch, aonLost := s.sys.aonLost, sysclkLost := s.sys.sysclkLost
    freeCtr := s.sys.freeCtr, badWords := s.sys.badWords.filter fun w => decide (127 ≤ w * 32 % 2 ^ 37 / 2 ^ 30) }

/-- COLD_RESET (R406, R407, R409): PORST_N was low for `samples` samples and is released with the straps given. The
latch of a thermal shutdown clears when every sensor is below 100.0 °C, or is lost with VDD_IO; while it stands the chip
stays in reset. -/
def execColdReset (samples : Nat) (straps : BitVec 3) (hottest : Int) (vddIo : Bool) (s : State) :
    Host.Outcome State Fault Refusal :=
  let latched := s.sys.thermalLatch && vddIo
  done s (if 25 ≤ samples then
    s.coldReset straps (if latched then 3 else 0) (latched && decide (1000 ≤ hottest))
  else s)

/-- A warm reset (R373): META and DUMP, fuses, field repairs and the straps stay. After a fatal dump, DUMP_TAKEN is set
and the dump is described (R378). -/
def State.warmReset (s : State) : State :=
  let held := s.dump.held
  let cause := match s.dump.fatal with | some f => f.1 | none => 0
  let at_ := match s.dump.fatal with | some f => f.2.1.toNat | none => 0
  let t : State := { State.reset with
    pending := s.pending, out := s.out, hbm := hbmFrom 126 s.hbm, fuse := s.fuse
    aer := { State.reset.aer with seq := s.aer.seq, dropped := s.aer.dropped } }
  let t := (s.boardFacts t).setSys fun y => { y with
    straps := s.sys.straps, lastReset := if held then 2 else 1, lastCause := if held then cause else 0
    aonLost := s.sys.aonLost, sysclkLost := s.sys.sysclkLost, freeCtr := s.sys.freeCtr
    badWords := s.sys.badWords.filter fun w => decide (126 ≤ w * 32 % 2 ^ 37 / 2 ^ 30) }
  if held then
    let t := t.setDump fun d => { d with
      diesDumped := s.dump.diesDumped, gaspDies := s.dump.gaspDies, fatalLen := s.dump.fatalLen, lastCause := s.dump.lastCause }
    ((t.rset (dumpReg 0x108) at_).rset (dumpReg 0x110) s.dump.fatalLen).alarmPlain (dumpReg 0) 24
  else t

/-- WARM_RESET (R373): GLB.CTRL.WARM_RESET. The reset starts 1 µs after the reply. -/
def execWarmReset (q : Req) (s : State) : Host.Outcome State Fault Refusal := done s (s.serveReg q (glbReg 0x008) 1)

/-! Stage A -/

/-- GLB.STAGE changes (R326). -/
def State.enterStage (s : State) (n : Nat) : State :=
  (s.setSys fun y => { y with stage := n }).alarm (glbReg 0) 0 0x0001 n

/-- STAGE_A_REACHED (R324, R421): held until every sensor reads 0.0 °C or more. -/
def execStageAReached (minTemp : Int) (s : State) : Host.Outcome State Fault Refusal :=
  done s (if !s.sys.serving ∧ !s.sys.thermalLatch ∧ 0 ≤ minTemp then
    s.setSys fun y => { y with serving := true, stage := 0 }
  else s)

/-! Firmware (R328, R329) -/

/-- BODY_LEN. -/
def fwBodyLen (b : Bytes) : Nat := fld b 8 4

/-- Header and body: what the measurement covers. -/
def fwImage (b : Bytes) : Bytes := b.take (160 + fwBodyLen b)

/-- The first failed check of a slot: its REASON. -/
def State.fwFails (s : State) (b : Bytes) : Option Nat :=
  let root := sub b 24 32
  let n := 160 + fwBodyLen b
  if fld b 0 4 ≠ 0x575A4657 ∨ fld b 4 2 ≠ 1 ∨ fld b 6 2 ≠ 160 ∨ fwBodyLen b = 0 ∨ 16776992 < fwBodyLen b
      ∨ b.length < n + 64 then some 1
  else if sha512 root ≠ Sys2Proof.Config.rootHash then some 2
  else if !edVerify root (ascii "WZ5FWKEY" ++ sub b 56 32) (sub b 88 64) then some 3
  else if !edVerify (sub b 56 32) (ascii "WZ5FW001" ++ sha512 (fwImage b)) (sub b n 64) then some 4
  else if fld b 16 4 < s.fuse.fwSvnMin then some 5
  else if !bit (fld b 20 4) 0 then some 6
  else none

/-- Slot A boots before slot B: the higher FW_SVN, then the higher FW_VERSION, then slot A. -/
def fwFirst (a b : Bytes) : Bool :=
  decide (fld b 16 4 < fld a 16 4) || (fld a 16 4 == fld b 16 4 && decide (fld b 12 4 ≤ fld a 12 4))

/-- A verified image runs. -/
def State.bootSlot (s : State) (slot : Nat) (b : Bytes) : State :=
  s.setSys fun y => { y with
    fwSlot := some slot, fwVersion := fld b 12 4, fwSvn := fld b 16 4, fwSteppings := fld b 20 4
    fwMeasure := sha512 (fwImage b), rootKey := sub b 24 32 }

/-- Both slots are checked, A before B. -/
def State.verifySlots (s : State) (a b : Bytes) : State :=
  let fa := s.fwFails a
  let fb := s.fwFails b
  let s := s.setSys fun y => { y with
    verified := true, slotAValid := fa.isNone, slotBValid := fb.isNone, bootReason := (fb.or fa).getD 0 }
  match fa, fb with
  | none, none => if fwFirst a b then s.bootSlot 0 a else s.bootSlot 1 b
  | none, some _ => s.bootSlot 0 a
  | some _, none => s.bootSlot 1 b
  | some _, some _ => s.alarmPlain (secReg 0) 24

/-- FIRMWARE_VERIFY (R329): once after each reset, in Stage A, unless the MFG_TEST strap is set (R409). -/
def execFirmwareVerify (slotA slotB : Bytes) (s : State) : Host.Outcome State Fault Refusal :=
  done s (if s.sys.serving ∧ s.sys.stage = 0 ∧ !s.sys.verified ∧ !s.sys.straps.getLsbD 2 ∧ !s.fatal then
    s.verifySlots slotA slotB
  else s)

/-! Stages B to D -/

/-- A lane that is enabled stands on its home carriers, locked (R173). -/
def State.lockHome (s : State) (l : Nat) : State :=
  let home := homeOf l
  let key := home.1 * 9 + home.2
  let s := s.setPho fun x => { x with
    ringTx := mput x.ringTx key { state := .locked }, ringRx := mput x.ringRx key { state := .locked } }
  (s.changeLane l fun _ => { state := .locking, tx := some home, rx := some home }).relane l

/-- Modules that may be lit leave eye-safe idle at nominal (R155, R173). -/
def State.lightModule (s : State) (m : Nat) : State :=
  let x := s.els m
  if x.present && x.suitable then
    ((s.setEls m fun y => { y with safeIdle := false }).rset (setpointReg m 0) 1600).rset (setpointReg m 1) 1600
  else s

/-- The optics come up in Stage B (R173): die-to-die lanes are locked with the stage. -/
def State.startOptics (s : State) : State :=
  let s := s.each (List.range 32) State.lightModule
  let ports := (List.range 1024).filter fun p => s.leads p && (s.port p).enabled
  let s := s.each (ports.flatMap s.portLanes) State.lockHome
  s.each ((List.range 16).map (2048 + ·)) State.lockHome

/-- STAGE_B_REACHED (R324): verified firmware runs. -/
def execStageBReached (s : State) : Host.Outcome State Fault Refusal :=
  done s (if s.sys.serving ∧ s.sys.stage = 0 ∧ s.sys.fwSlot.isSome ∧ !s.fatal then
    (s.enterStage 1).startOptics
  else s)

/-- A channel failed training (R283). -/
def State.trainFails (s : State) (x : StackNo × Fin 32) : State :=
  let h := x.1.val
  ((s.bset (hbmReg h 0x100) 0 true).fset (hbmReg h 0x100) 12 8 x.2.val).alarm (hbmReg h 0) 24 0x0D03 x.2.val

/-- Spare carriers that come into use in Stage C (R154, R173). -/
def State.spareCarriers (s : State) : List (Nat × Nat) :=
  ((List.range 256).map fun f => (f, 8)) ++ ((List.range 32).flatMap fun g => (List.range 9).map fun w => (256 + g, w))
    ++ [(288, 8), (289, 8)] |>.filter fun c => s.fiberFabric c.1

/-- Stage C (R173, R284): every channel is trained, the early records go to META, spare carriers are locked, and lanes
that went out for want of a spare are asked for again. -/
def State.startSchedule (s : State) : State :=
  let s := (s.enterStage 2).setSys fun y => { y with trained := (List.range 256).map fun k => (k, s.clk.up) }
  let s := s.copyEarly
  let s := s.each s.spareCarriers fun s c => s.setCarrierRings c.1 c.2 .locked
  s.each (List.range 32) State.askAgain

/-- STAGE_C_REACHED (R283, R324): a channel that fails training holds the chip in Stage B; without a failure the tick
must be aligned. A chip that is tripped does not climb (R383). -/
def execStageCReached (trainFail : List (StackNo × Fin 32)) (s : State) : Host.Outcome State Fault Refusal :=
  done s (if s.sys.serving ∧ s.sys.stage = 1 ∧ !s.hbmOn ∧ !s.sys.tripped ∧ !s.fatal then
    if !trainFail.isEmpty then s.each trainFail State.trainFails
    else if s.clk.aligned then s.startSchedule
    else s
  else s)

/-- An engine is ungated and tested; one that MC2 repairs is tested again under its map (R235, R239, R240). -/
def State.testEngine (s : State) (e : Nat) (found : BistFound) : State :=
  let s := ((if s.engState e = 4 then s.reloadRepair e else s).startEngBist e true).endEngBist e found
  if s.engState e = 2 then s.endEngBist e found else s

/-- STAGE_D_REACHED (R235, R266, R324): every engine and Update Unit is tested. -/
def execStageDReached (engFound : List (EngineNo × BistFound)) (uuFail : List CoreNo) (s : State) :
    Host.Outcome State Fault Refusal :=
  let found := fun (e : Nat) => match engFound.find? fun x => x.1.val == e with
    | some x => x.2
    | none => ⟨[], false, false, false⟩
  done s (if s.sys.serving ∧ s.sys.stage = 2 ∧ !s.sys.tripped ∧ !s.fatal then
    let s := s.each (List.range 128) fun s e => s.testEngine e (found e)
    let s := s.each (List.range 32) fun s n => (s.startUuBist n).endUuBist n (!uuFail.any fun u => u.val == n)
    s.enterStage 3
  else s)

end Sys2Proof.Machine
end

