-- ==== Sys2Proof/Machine/Faults.lean ====
section
/-! DEFINITION. Watchdogs, the Doldrums scan, snapshots, fatal errors, reference clocks and temperature (R353, R363, R366,
R374 to R384, R399, R405). -/

namespace Sys2Proof.Machine

/-! Control cores (R353) -/

/-- CD.CORE_STATE of a core: 0 RUN, 1 STOPPED, 2 RECOVERING. -/
def State.setCoreState (s : State) (core v : Nat) : State := s.fset (cdReg 0x104) (2 * core + 1) (2 * core) v

/-- MC0 stops: requests in flight are answered UNIT_HUNG. Of its table commands, calendar and program loads in progress
either all take their effect or none does: the spec leaves which open. -/
def State.mc0Stops (s : State) : State :=
  let r := s.free 0xC0000000
  let s := r.1.each r.1.mgmt.inFlight fun s f => s.reply f { code := .unitHung }
  if r.2 % 2 = 1 then s
  else
    let s := s.setCalSt fun c => { c with jobs := [] }
    let s := s.setTbl fun t => { t with busy := none, waiting := [] }
    s.each (s.col.ctxs.map Prod.fst) fun s c => s.setCtx c fun x => { x with loading := none }

/-- WATCHDOG_EXPIRY (R353): the core is stopped and restarted; a second expiry within 25,000,000 ticks is fatal. -/
def execWatchdogExpiry (core : Fin 4) (s : State) : Host.Outcome State Fault Refusal :=
  let n := core.val
  done s (if s.atStage 1 ∧ !s.fatal then
    let again := match mget s.flt.expiries n with | some t => decide (s.clk.up - t ≤ 25000000) | none => false
    let t := ((s.setCoreState n 2).bump (cdReg 0x218)).alarm (cdReg 0) (24 + n) 0x0101 n
    let t := t.setFlt fun f => { f with
      expiries := mput f.expiries n s.clk.up, stopped := if f.stopped.contains n then f.stopped else n :: f.stopped }
    let t := if n = 0 then t.mc0Stops else t
    if again then t.raiseFatal 0x0002 else t
  else s)

/-- CORE_RECOVERED (R353). -/
def execCoreRecovered (core : Fin 4) (s : State) : Host.Outcome State Fault Refusal :=
  let n := core.val
  done s (if s.flt.stopped.contains n ∧ !s.fatal then
    (s.setCoreState n 0).setFlt fun f => { f with stopped := f.stopped.filter (· != n) }
  else s)

/-! The Doldrums detector and snapshots -/

/-- DOLDRUMS_SCAN (R363): every 25 ticks, while the detector is enabled. -/
def execDoldrumsScan (s : State) : Host.Outcome State Fault Refusal :=
  done s (if s.atStage 1 ∧ !s.fatal ∧ s.bget (cdReg 0x140) 31 ∧ s.clk.up % 25 = 0 then s.doldrumsScan else s)

/-- SNAPSHOT_COMPLETE (R366): the oldest snapshot under way. -/
def execSnapshotComplete (s : State) : Host.Outcome State Fault Refusal :=
  done s (if s.fatal then s else s.finishSnap)

/-! Fatal errors -/

/-- FATAL_ERROR (R374, R375). -/
def execFatalError (cause : FatalCause) (s : State) : Host.Outcome State Fault Refusal :=
  done s (if s.sys.serving then s.raiseFatal (cause.ctorIdx + 1) else s)

/-- SUPPLY_FAULT (R399): any rail outside its tolerance for 10 µs, once Stage A is reached. -/
def execSupplyFault (rail : Rail) (microseconds : Nat) (s : State) : Host.Outcome State Fault Refusal :=
  match rail with
  | .vddFd | .vddSram | .vddCd | .hbm | .vddPho | .vddIo =>
    done s (if s.sys.serving ∧ 10 ≤ microseconds then s.raiseFatal 0x0007 else s)

/-- FATAL_DUMP_COMPLETE (R375, R376): `silent` names pages of units that did not answer, `hungDies` dies whose DUMP writes
were not acknowledged. -/
def execFatalDumpComplete (silent : List Word) (hungDies : List DieNo) (s : State) : Host.Outcome State Fault Refusal :=
  done s (if s.fatal ∧ !s.dump.held then s.finishFatal (silent.map BitVec.toNat) (hungDies.map Fin.val) else s)

/-! Reference clocks (R405) -/

/-- Fabric lanes of a die. -/
def dieLanes (d : Nat) : List Nat := (List.range 512).map (512 * d + ·)

/-- Lanes of the twin link. -/
def twinLanes : List Nat := (List.range 16).map (2048 + ·)

/-- LANECLKd is lost or has come back: external and die-to-die lanes of the die follow. -/
def State.setLaneClk (s : State) (d : DieNo) (lost : Bool) : State :=
  let s := s.setPho fun p => { p with
    laneclkLost := if lost then (if p.laneclkLost.contains d.val then p.laneclkLost else d.val :: p.laneclkLost)
      else p.laneclkLost.filter (· != d.val) }
  (s.each (dieLanes d.val) State.relane).refreshDie d

/-- MCLK is lost or has come back: the twin lanes follow, and with the clock the management links go. -/
def State.setMclk (s : State) (lost : Bool) : State :=
  let s := s.setPho fun p => { p with mclkLost := lost }
  let s := if lost then s.setMgmt fun m => { m with up0 := false, up1 := false } else s
  s.each twinLanes State.relane

/-- REFCLK_LOSS (R405). -/
def execRefclkLoss (clk : RefClk) (s : State) : Host.Outcome State Fault Refusal :=
  done s (match clk with
    | .sysclk =>
      let t := s.setSys fun y => { y with sysclkLost := true }
      if s.sys.serving then t.raiseFatal 0x0005 else t
    | .laneclk d => s.setLaneClk d true
    | .mclk => s.setMclk true
    | .aonclk => s.setSys fun y => { y with aonLost := true })

/-- REFCLK_RELOCK (R405): the lanes return. M0 and M1 come up with their own links. -/
def execRefclkRelock (clk : RefClk) (s : State) : Host.Outcome State Fault Refusal :=
  done s (match clk with
    | .sysclk => s.setSys fun y => { y with sysclkLost := false }
    | .laneclk d => s.setLaneClk d false
    | .mclk => s.setMclk false
    | .aonclk => s.setSys fun y => { y with aonLost := false })

/-! Temperature, in 0.1 °C (R381 to R384) -/

/-- TJ_WARN (R381): `temp` is the reading of the hottest sensor of the die. From 105.0 °C the bit is set, once until the
whole die has been below 103.0 °C. -/
def State.tjWarn (s : State) (d sensor : Nat) (temp : Int) : State :=
  let s := if 1000 < temp then s.setSys fun y => { y with hotUp := s.clk.up } else s
  if temp < 1030 then s.setSys fun y => { y with warned := y.warned.filter (· != d) }
  else if 1050 ≤ temp ∧ !s.sys.warned.contains d then
    (s.setSys fun y => { y with warned := d :: y.warned }).alarm (fdReg d 0) 16 0x0201 sensor
      [condLink 0x0203 (wrap 32 temp)]
  else s

/-- TJ_WARN (R381). -/
def execTjWarn (die : DieNo) (sensor : Fin 64) (temp : Int) (s : State) : Host.Outcome State Fault Refusal :=
  done s (if s.sys.serving ∧ !s.fatal then s.tjWarn die.val sensor.val temp else s)

/-- Chunks that have neither begun their update nor been staged are aborted in every context that is not IDLE (R382). -/
def State.tripAborts (s : State) : State :=
  s.each s.enabledCtxs fun s c => s.abortSlots c rsDisabled Slot.unbegun

/-- TJ_TRIP (R382): two consecutive samples at 110.0 °C or more trip the chip, which then reads Stage B. -/
def execTjTrip (die : DieNo) (sensor : Fin 64) (first second : Int) (s : State) : Host.Outcome State Fault Refusal :=
  let d := die.val
  done s (if s.atStage 1 ∧ !s.fatal ∧ !s.sys.tripped ∧ 1100 ≤ first ∧ 1100 ≤ second then
    let t := s.alarm (fdReg d 0) 24 0x0202 sensor.val [condLink 0x0203 (wrap 32 second)]
    let t := t.setSys fun y => { y with tripped := true, tripFrom := s.sys.stage, hotUp := s.clk.up }
    let t := if s.sys.stage = 1 then t else t.enterStage 1
    t.tripAborts.suspendAll
  else s)

/-- TJ_RECOVER (R383): every sensor of every die has read `hottest` or less, at most 100.0 °C, for 2,500,000 ticks. The
chip climbs to the stage it left when its tick is aligned. -/
def execTjRecover (hottest : Int) (s : State) : Host.Outcome State Fault Refusal :=
  done s (if s.sys.tripped ∧ !s.fatal ∧ hottest ≤ 1000 ∧ s.sys.hotUp + 2500000 ≤ s.clk.up
      ∧ (s.clk.aligned ∨ s.sys.tripFrom = 1) then
    let t := s.setSys fun y => { y with tripped := false, warned := [] }
    let t := if 2 ≤ s.sys.tripFrom then t.enterStage 2 else t
    let t := if 3 ≤ s.sys.tripFrom then t.enterStage 3 else t
    if s.clk.aligned then t.resumeAll else t
  else s)

/-- THERMAL_SHUTDOWN (R384, R407): PG_OUT falls and the chip is held in cold reset. No dump is taken. -/
def execThermalShutdown (die : DieNo) (sensor : Fin 64) (temp : Int) (s : State) : Host.Outcome State Fault Refusal :=
  match die, sensor with
  | _, _ => done s (if 1200 ≤ temp then s.coldReset s.sys.straps 3 true else s)

end Sys2Proof.Machine
end

