-- ==== Sys2Proof/Machine/Hbm.lean ====
section
/-! DEFINITION. HBM errors, patrol scrub and retraining (R281, R282, R285). -/

namespace Sys2Proof.Machine

/-- Stack, 0 to 7, of a chip address (R272). -/
def stackOf (a : Nat) : Nat := 2 * (a / 2 ^ 37) + a / 2 ^ 13 % 2

/-- Regions of a die's memory (R273). -/
inductive Region where
  | state | pktOvf | gatherOvf | meta_ | dump
  deriving DecidableEq, Repr

/-- Region of a chip address. -/
def regionOf (a : Nat) : Region :=
  let g := a % 2 ^ 37 / 2 ^ 30
  if g < 114 then .state else if g < 122 then .pktOvf else if g < 126 then .gatherOvf
  else if g < 127 then .meta_ else .dump

/-- A read of a region by one of its users. -/
def UeUseFits (u : UeUse) (r : Region) : Bool :=
  match u, r with
  | .load _, .state => true
  | .copy, .state => true
  | .cells _, .pktOvf => true
  | .slot _, .gatherOvf => true
  | .retained _ _, .gatherOvf => true
  | .record, .meta_ => true
  | .dump, .dump => true
  | _, _ => false

/-- An uncorrectable word is counted and recorded (R281), and stays bad until it is stored again. -/
def State.noteUe (s : State) (a : Nat) : State :=
  let h := stackOf a
  let s := (s.bump (hbmReg h 0x110)).alarm (hbmReg h 0) 16 0x0D01 (a / 128)
  if s.sys.badWords.contains (a / 32) then s else s.setSys fun y => { y with badWords := (a / 32) :: y.badWords }

/-- A spilled cell that cannot be read back is delivered, fails CELL_CRC at its die and is discarded: the resequencer
finds the gap. The one whose turn the refill is in stands for it. -/
def State.loseCell (s : State) (d : Nat) : State :=
  match s.sw.voq.zipIdx.find? fun x => x.1.spilled && x.1.cluster / 4 == d with
  | some (c, i) => (s.dropCells [i]).bump (fdReg c.destDie 0x118)
  | none => s

/-- A spilled slot that cannot be refilled is aborted as at a deadline (R281, R199 to R201). -/
def State.loseSlot (s : State) (desc : Nat) : State :=
  match s.slot desc with
  | some x =>
    if x.spilled && x.phase == .complete then
      let c := x.ctx
      let s := (s.dropSlots fun y => y.desc == desc).ctxCtr .chunkAborts c
      let s := s.record (ctxReg c 0) none 0x0901 x.chunk (s.missLinks c (s.mostMissed c) ++ [condLink 0x0902 x.step])
      ((s.setCtx c fun k => { k with missing := [] }).sendAborts c [(x.step, x.chunk)] rsDeadline).noteAborts c x.step 1
    else s
  | none => s

/-- A retained result that cannot be read is not replayed until the next release overwrites it (R281). -/
def State.loseRetained (s : State) (c chunk : Nat) : State :=
  if (mget (s.ctx c).retained chunk).isSome ∧ !(s.ctx c).lost.contains chunk then
    s.setCtx c fun k => { k with lost := chunk :: k.lost }
  else s

/-- The newest SEQ that an address of an alarm explanation ring holds, if it holds one (R394). -/
def State.recordAt (s : State) (a : Nat) : Option Nat :=
  let d := a / 2 ^ 37
  let off := a % 2 ^ 37
  if 126 * 2 ^ 30 ≤ off ∧ off < 126 * 2 ^ 30 + 2 ^ 28 then
    let i := off % 2 ^ 30 / 64
    let low := 4 * i + d
    let span := aerSpan
    let seq := (s.aer.seq + 2 ^ 32 - 1 - (s.aer.seq + 2 ^ 32 - 1 - low) % span) % 2 ^ 32
    if (s.aer.seq + 2 ^ 32 - seq) % 2 ^ 32 ≤ span ∧ seq ≠ s.aer.seq then some seq else none
  else none

/-- META (R281): a record is dropped; a table backup, and any other entry whose master copy stands elsewhere, is written
anew. -/
def State.loseRecord (s : State) (a : Nat) : State :=
  match s.recordAt a with
  | some seq => if s.aer.dropped.contains seq then s else s.setAer fun x => { x with dropped := seq :: x.dropped }
  | none => s.setSys fun y => { y with badWords := y.badWords.filter (· != a / 32) }

/-- The effect of the word's region (R281). The Update Unit takes the poison as it loads the word, and DUMP_READ the
marker as it reads it. -/
def State.ueEffect (s : State) (a : Nat) (u : UeUse) : State :=
  match u with
  | .load _ => s
  | .copy => if s.twin.state == .attach then s.attachFails 4 else s
  | .cells d => s.loseCell d.val
  | .slot desc => s.loseSlot desc
  | .retained c chunk => s.loseRetained c.val chunk
  | .record => s.loseRecord a
  | .dump => s

/-- HBM_UE (R281). -/
def execHbmUe (addr : Nat) (use : UeUse) (s : State) : Host.Outcome State Fault Refusal :=
  let a := addr % hbmSize
  done s (if s.hbmOn ∧ !s.fatal ∧ UeUseFits use (regionOf a) then (s.noteUe a).ueEffect a use else s)

/-- A corrected error is counted; a row that reaches CE_ROW_LIMIT is reported (R282). -/
def State.noteCe (s : State) (a : Nat) : State :=
  let h := stackOf a
  let row := a / 1024
  let n := mgetD s.sys.rowErrors row 0 + 1
  let s := (s.bump (hbmReg h 0x108)).setSys fun y => { y with rowErrors := mput y.rowErrors row n }
  if n = s.rget (hbmReg h 0x118) then s.alarm (hbmReg h 0) 17 0x0D02 (a / 128) else s

/-- PATROL_SCRUB (R282): one word. A corrected word is written back unless it has been stored since, and either way it
holds what it held; an uncorrectable one is left as it is. -/
def execPatrolScrub (stack : StackNo) (addr : Nat) (found : ScrubFound) (s : State) : Host.Outcome State Fault Refusal :=
  let a := addr % hbmSize
  done s (if s.hbmOn ∧ !s.fatal ∧ s.fget (glbReg 0x108) 15 0 ≠ 0 ∧ stackOf a = stack.val then
    match found with
    | .clean => s
    | .corrected _ => s.noteCe a
    | .uncorrectable => s.noteUe a
  else s)

/-- HBM_RETRAIN (R285): a failure marks the channel, and the stack counts as hung, which is fatal (R352). -/
def execHbmRetrain (stack : StackNo) (chan : Fin 32) (ok : Bool) (s : State) : Host.Outcome State Fault Refusal :=
  let h := stack.val
  let k := 32 * h + chan.val
  done s (if s.hbmOn ∧ !s.fatal then
    if ok then s.setSys fun y => { y with trained := mput y.trained k s.clk.up }
    else
      let t := s.setSys fun y => { y with chanFail := if y.chanFail.contains k then y.chanFail else k :: y.chanFail }
      let t := (t.bset (hbmReg h 0x100) 1 true).fset (hbmReg h 0x100) 12 8 chan.val
      let t := t.alarmPlain (hbmReg h 0) 25 chan.val
      let t := t.setMgmt fun m => { m with
        hung := if m.hung.contains (hbmReg h 0) then m.hung else m.hung ++ [hbmReg h 0] }
      t.raiseFatal 0x0006
  else s)

end Sys2Proof.Machine
end

