-- ==== Sys2Proof/Machine/Management.lean ====
section
/-! DEFINITION. The commands of the Huros Control Protocol, its sessions, the security engine and the management
links. -/

namespace Sys2Proof.Machine

/-- HCP_READ (R292). -/
def execHcpRead (q : Req) (a : Access) (s : State) : Host.Outcome State Fault Refusal := done s (s.serveRead q a)

/-- HCP_WRITE (R292). -/
def execHcpWrite (q : Req) (a : Access) (v : Word64) (s : State) : Host.Outcome State Fault Refusal :=
  done s (s.serveWrite q a v)

/-- RMW (R292). -/
def execRmw (q : Req) (a : Access) (mask v : Word64) (s : State) : Host.Outcome State Fault Refusal :=
  done s (s.serveRmw q a mask v)

/-- BULK_READ (R292). -/
def execBulkRead (q : Req) (a : BitVec 32) (count : BitVec 16) (s : State) : Host.Outcome State Fault Refusal :=
  done s (s.serveBulkRead q a count)

/-- BULK_WRITE (R292). -/
def execBulkWrite (q : Req) (a : BitVec 32) (words : List Word) (s : State) : Host.Outcome State Fault Refusal :=
  done s (s.serveBulkWrite q a words)

/-- DUMP_READ (R292). -/
def execDumpRead (q : Req) (source die : Byte) (off : BitVec 32) (len : BitVec 16) (s : State) :
    Host.Outcome State Fault Refusal := done s (s.serveDumpRead q source die off len)

/-- ATTEST (R292, R334). -/
def execAttest (q : Req) (nonce : Bytes) (off : BitVec 32) (s : State) : Host.Outcome State Fault Refusal :=
  done s (s.serveAttest q nonce off)

/-- SESSION_OPEN (R305). -/
def execSessionOpen (q : Req) (slot role : Byte) (eph nonce sig : Bytes) (s : State) :
    Host.Outcome State Fault Refusal := done s (s.serveOpen q slot role eph nonce sig)

/-- SESSION_CLOSE (R306). -/
def execSessionClose (q : Req) (s : State) : Host.Outcome State Fault Refusal := done s (s.serveClose q)

/-- SESSION_IDLE_TIMEOUT (R306): 25,000,000 ticks without a request accepted or a tag held. -/
def execSessionIdleTimeout (id : BitVec 32) (s : State) : Host.Outcome State Fault Refusal :=
  done s (match s.session id with
    | some x =>
      if decide (x.lastUp + 25000000 ≤ s.clk.up) && !s.mgmt.inFlight.any (fun f => inSession f.req && f.req.session == id) then
        (s.setSession id fun x => { x with closing := true }).reapSessions
      else s
    | none => s)

/-- TRANSFER_ABANDON (R295): 2,500,000 ticks without a segment. -/
def execTransferAbandon (own : XferOwner) (opcode : Byte) (id : BitVec 16) (s : State) :
    Host.Outcome State Fault Refusal :=
  done s (match s.transfer own opcode.toNat id with
    | some t =>
      if t.lastUp + 2500000 ≤ s.clk.up then (s.closeTransfer own opcode.toNat id).glbCtr .xferAbandon else s
    | none => s)

/-- A management link carries frames or does not (R286). -/
def State.setLink (s : State) (m : MPort) (up : Bool) : State :=
  s.setMgmt fun x => match m with
    | .m0 => { x with up0 := up }
    | .m1 => { x with up1 := up }

/-- MGMT_LINK_DOWN (R286). -/
def execMgmtLinkDown (m : MPort) (s : State) : Host.Outcome State Fault Refusal := done s (s.setLink m false)

/-- MGMT_LINK_UP (R286): not while MCLK, which feeds both ports, is lost (R405). -/
def execMgmtLinkUp (m : MPort) (s : State) : Host.Outcome State Fault Refusal :=
  done s (if s.pho.mclkLost then s else s.setLink m true)

/-- HCP_FRAME_REFUSED (R287, R290): `ethertype` is the EtherType, or the UDP port of a datagram. -/
def execHcpFrameRefused (m : MPort) (udp : Bool) (ethertype : BitVec 16) (addressed fcs udpSum : Bool) (frame : Bytes)
    (s : State) : Host.Outcome State Fault Refusal :=
  done s (s.refuseFrame m (if udp then .udp ethertype else .raw ethertype) (addressed && fcs && (!udp || udpSum)) frame)

/-- STRING_ACCESS_TIMEOUT (R303, R352). -/
def execStringAccessTimeout (q : Req) (op : StringOp) (a : Access) (s : State) : Host.Outcome State Fault Refusal :=
  done s (s.serveTimeout q op a)

/-- HCP1_BLOW (R308). -/
def execHcp1Blow (q : Req) (v : Word) (s : State) : Host.Outcome State Fault Refusal :=
  done s (s.serveReg q (secReg 0x008) (v.toNat ||| 2))

/-- SVN_COMMIT (R329). -/
def execSvnCommit (q : Req) (v : Word) (s : State) : Host.Outcome State Fault Refusal :=
  done s (s.serveReg q (secReg 0x210) (v.toNat ||| 1))

/-- KEY_ENROLL (R333). -/
def execKeyEnroll (q : Req) (v : Word) (s : State) : Host.Outcome State Fault Refusal :=
  done s (s.serveReg q (secReg 0x2C0) (v.toNat ||| 1))

/-- KEY_REVOKE (R333). -/
def execKeyRevoke (q : Req) (v : Word) (s : State) : Host.Outcome State Fault Refusal :=
  done s (s.serveReg q (secReg 0x2C0) (v.toNat ||| 2))

/-- SEC_LOCK (R10): bit 0 of SEC.LOCK. -/
def execSecLock (q : Req) (s : State) : Host.Outcome State Fault Refusal := done s (s.serveReg q (secReg 0x100) 1)

/-- REGISTER_WRITE (R10, R316). -/
def execRegisterWrite (q : Req) (a : Access) (v : Word64) (s : State) : Host.Outcome State Fault Refusal :=
  done s (s.serveWrite q a v)

end Sys2Proof.Machine
end

