-- ==== Sys2Proof/Machine/Photonics.lean ====
section
/-! DEFINITION. The events of the photonic base layer: lane-tag blocks, lane moves, rings, feeds and modules
(R31, R79, R143 to R167, R419). -/

namespace Sys2Proof.Machine

/-- LANE_TAG_BLOCK_TX (R31). -/
def execLaneTagBlockTx (port : PortNo) (s : State) : Host.Outcome State Fault Refusal :=
  done s (s.tagBlocksTx port.val)

/-- LANE_TAG_BLOCK_RX (R79). -/
def execLaneTagBlockRx (fiber : Fin 290) (wave : Fin 9) (block : Bytes) (power phase : Int) (rxPs : Nat) (s : State) :
    Host.Outcome State Fault Refusal :=
  done s (s.tagBlockRx fiber.val wave.val block power phase rxPs)

/-- LANE_TAG_BLOCK_MISSING (R149): a block time passes on a lit carrier without a valid block. -/
def execLaneTagBlockMissing (fiber : Fin 290) (wave : Fin 9) (light : Bool) (s : State) :
    Host.Outcome State Fault Refusal :=
  let ring := s.rxRing fiber.val wave.val
  done s (if s.atStage 1 && (ring == .locked || ring == .hold) && s.fiberFabric fiber.val then
      s.blockMissing fiber.val wave.val light
    else s)

/-- CARRIER_NO_LIGHT (R149): power below −20.0 dBm for 1 µs on a carrier in service. -/
def execCarrierNoLight (fiber : Fin 290) (wave : Fin 9) (power : Int) (s : State) : Host.Outcome State Fault Refusal :=
  done s (if power < -2000 ∧ (s.laneOnRx fiber.val wave.val).isSome ∧ s.fiberFabric fiber.val then
      s.noLight fiber.val wave.val power
    else s)

/-- LANE_MOVE_EFFECT (R151). -/
def execLaneMoveEffect (lane : LaneNo) (s : State) : Host.Outcome State Fault Refusal := done s (s.moveNow lane.val)

/-- MOVE_REQUEST_TIMEOUT (R151): 8 blocks, 32 ticks, without a move. -/
def execMoveRequestTimeout (lane : LaneNo) (s : State) : Host.Outcome State Fault Refusal :=
  done s (match (s.lane lane.val).rx with
    | some r =>
      let c := s.carrier r.1 r.2
      if (c.request = 1 ∨ c.request = 2) ∧ 32 ≤ s.clk.up - c.asked then
        let s := s.judgeCarrier r.1 r.2 c.rxState 0
        (s.setLane lane.val fun x => { x with rx := none }).relane lane.val
      else s
    | none => s)

/-- FEED_EVENT (R157). -/
def execFeedEvent (pair : Fin 288) (feedB : Bool) (s : State) : Host.Outcome State Fault Refusal :=
  done s (s.feedEvent pair.val feedB)

/-- ELS_MODULE_REMOVED (R419): the loss of both outputs. -/
def execElsModuleRemoved (module : Fin 32) (s : State) : Host.Outcome State Fault Refusal :=
  let m := module.val
  done s (if (s.els m).present then
      (s.moduleLost m).setEls m fun x => { x with present := false, safeIdle := true }
    else s)

/-- ELS_MODULE_INSERTED (R419, R155): held at eye-safe idle; one whose identity does not fit is marked. -/
def execElsModuleInserted (module : Fin 32) (suitable : Bool) (s : State) : Host.Outcome State Fault Refusal :=
  let m := module.val
  done s (if (s.els m).present then s
    else
      let s := s.setEls m fun x => { x with present := true, suitable := suitable, safeIdle := true }
      if suitable then s else s.alarm (elsReg m 0) 24 0x0F02 (2 * m))

/-- ELS_RESTORE_COMPLETE (R158): the module is back in dual feed and the reply is sent. -/
def execElsRestoreComplete (module : Fin 32) (s : State) : Host.Outcome State Fault Refusal :=
  done s (match s.pho.restoring.find? fun r => r.1 == module.val with
    | none => s
    | some r =>
      let s := s.setPho fun p => { p with restoring := p.restoring.filter fun x => x.1 != module.val }
      let s := s.finishRestore module.val
      match r.2 with
      | some f => s.reply f okAns
      | none => s)

/-! Bias control (R159) -/

/-- Consumers that an output feeds: its own feed's in BAR, both in the split state of its feed. -/
def State.outputConsumers (s : State) (m o : Nat) : List Nat :=
  let b := decide (16 ≤ m)
  ((modulePairs m).filter fun q => feedOutput q == o).flatMap fun q =>
    match s.selector q with
    | 0 => [consumerOf q b]
    | 1 => if b then [] else [consumerOf q false, consumerOf q true]
    | _ => if b then [consumerOf q false, consumerOf q true] else []

/-- Margins of a consumer: the far end's fresh reports on a fiber's lanes, or the receiving die's own measurement. -/
def State.marginsOf (s : State) (measured : List Int) (c : Nat) : List Int :=
  if 290 ≤ c then (measured[c - 290]?).toList
  else (List.range 9).filterMap fun w =>
    let x := s.carrier c w
    if (s.laneOnTx c w).isSome ∧ x.farState.isSome ∧ s.clk.up - x.farUp ≤ 256 then some x.farMargin else none

/-- The launch monitor of an ETHERNET or WZ4 fiber has fallen below its calibration: entry 256 + f of what is
measured is its deviation in 0.01 dB. -/
def State.launchLow (s : State) (measured : List Int) (c : Nat) : Bool :=
  decide (c < 256) && !s.fiberFabric c && decide (measured.getD (256 + c) 0 < 0)

/-- One update of one output. -/
def State.biasOutput (s : State) (measured : List Int) (m o : Nat) : State :=
  let x := s.els m
  if x.safeIdle || !x.present || !x.suitable then s
  else
    let cs := s.outputConsumers m o
    let lowest := (cs.flatMap (s.marginsOf measured)).foldl
      (fun (b : Option Int) v => match b with | none => some v | some a => some (min a v)) none
    let target : Int := (s.rget (pblReg 0x100) : Int)
    let set := s.rget (setpointReg m o)
    let raise := (match lowest with | some v => decide (v < target) | none => false) || cs.any (s.launchLow measured)
    let high := match lowest with
      | some v => decide (target + 100 ≤ v)
      | none => false
    let n := if high then (if o = 0 then x.high0 else x.high1) + 1 else 0
    let s := s.setEls m fun x => if o = 0 then { x with high0 := n } else { x with high1 := n }
    if raise then
      let new := min 1900 (set + 10)
      let s := s.rset (setpointReg m o) new
      if set < 1900 ∧ new = 1900 ∧ !x.forced then
        (s.fset (elsReg m 0x100) 3 3 1).alarm (elsReg m 0) 17 0x0F01 (2 * m + o)
          [condLink 0x0F03 (wrap 32 (lowest.getD 0))]
      else s
    else if 100 ≤ n ∧ 1600 < set then s.rset (setpointReg m o) (max 1600 (set - 10))
    else s

/-- BIAS_UPDATE (R159): entry c − 290 of `margins` is the margin that the receiving die measures for die-to-die
consumer c, and entry 256 + f the launch deviation of fiber f, in 0.01 dB. -/
def execBiasUpdate (margins : List Int) (s : State) : Host.Outcome State Fault Refusal :=
  done s (if s.atStage 2 then
      s.each (List.range 32) fun s m => (s.biasOutput margins m 0).biasOutput margins m 1
    else s)

/-! Rings (R162) -/

/-- RING_SWEEP_END (R162). -/
def execRingSweepEnd (ring : Ring) (found : Bool) (s : State) : Host.Outcome State Fault Refusal :=
  let x := s.ring ring
  done s (if x.state = .sweep then
      if found then s.moveRing ring { x with state := .capture } else s.failAttempt ring
    else s)

/-- RING_CAPTURE_END (R162). -/
def execRingCaptureEnd (ring : Ring) (held : Bool) (s : State) : Host.Outcome State Fault Refusal :=
  let x := s.ring ring
  done s (if x.state = .capture then
      if held then s.moveRing ring { state := .locked } else s.failAttempt ring
    else s)

/-- A receive ring of an external carrier. -/
def ringIsRx : Ring → Bool
  | .rx _ _ => true
  | _ => false

/-- Lane-tag blocks verify the ring's line (R162); without them the light alone does. -/
def State.ringTagged (s : State) : Ring → Bool
  | .rx f _ => s.fiberFabric f.val
  | _ => true

/-- RING_LOOP_ERROR (R162): the loop error of a locked ring, in MHz, and whether far-end light is there. -/
def execRingLoopError (ring : Ring) (errMHz : Int) (light : Bool) (s : State) : Host.Outcome State Fault Refusal :=
  let x := s.ring ring
  done s (match x.state with
    | .locked =>
      if ringIsRx ring && !light then s.moveRing ring { x with state := .hold }
      else if 150000 < errMHz.natAbs then s.resweepRing ring
      else s
    | .hold =>
      if light && !s.ringTagged ring then
        if 150000 < errMHz.natAbs then s.resweepRing ring else s.moveRing ring { state := .locked }
      else s
    | _ => s)

/-- RING_FAIL_RETRY (R162): every 25,000 ticks. -/
def execRingFailRetry (ring : Ring) (s : State) : Host.Outcome State Fault Refusal :=
  let x := s.ring ring
  done s (if x.state = .fail ∧ 25000 ≤ s.clk.up - x.failedUp then s.resweepRing ring else s)

/-- ETH_MARKER_MISMATCH (R165): the lane's receive ring re-sweeps and the port goes down (R154). -/
def execEthMarkerMismatch (lane : LaneNo) (s : State) : Host.Outcome State Fault Refusal :=
  let l := lane.val
  done s (match (s.lane l).rx with
    | some r => if !s.laneFabric l && s.laneInService l then s.resweepRing (rxRingOf r.1 r.2) else s
    | none => s)

/-! Die-to-die lanes (R166, R167) -/

/-- LOSS_SEGMENT_CHECK (R167): `losses` are the five segments' losses over calibration, in 0.01 dB and path order. -/
def execLossSegmentCheck (die : DieNo) (lane : Fin 512) (losses : List Int) (s : State) :
    Host.Outcome State Fault Refusal :=
  let low := s.pho.dtdLow.any fun k => k / 4 == die.val * 512 + lane.val
  let seg := match losses.findIdx? fun v => decide (150 ≤ v) with
    | some i => if i < 5 then some (i + 1) else none
    | none => if low then some 1 else none
  done s (match seg with
    | some n =>
      (s.rset (pblDieReg die.val 0x100) (n * 65536 + lane.val)).record (pblDieReg die.val 0) none 0x0E01
        (n * 65536 + lane.val)
    | none => s)

/-- DTD_LANE_BELOW_SENSITIVITY (R166). -/
def execDtdLaneBelowSensitivity (die : DieNo) (lane : Fin 512) (dest : DieNo) (below : Bool) (s : State) :
    Host.Outcome State Fault Refusal :=
  let k := (die.val * 512 + lane.val) * 4 + dest.val
  let s' := s.setPho fun p => { p with dtdLow :=
    if below then (if p.dtdLow.contains k then p.dtdLow else k :: p.dtdLow) else p.dtdLow.filter (· != k) }
  done s (if dest = die then s else s'.refreshDtd die lane)

end Sys2Proof.Machine
end

