-- ==== Sys2Proof/Machine/Ports.lean ====
section
/-! DEFINITION. Port service and port health: the commands of PORT.CTRL, LANE resets, the link-level detector, the
recovery of scores and held fences (R321, R354 to R361, R371, R372, R424). -/

namespace Sys2Proof.Machine

/-- A write of PORT.CTRL. -/
def State.writePortCtrl (s : State) (q : Req) (p v : Nat) : State := s.serveReg q (portReg p 0x008) v

/-- PORT_ENABLE (R321). -/
def execPortEnable (q : Req) (port : PortNo) (v : Word) (s : State) : Host.Outcome State Fault Refusal :=
  done s (s.writePortCtrl q port.val (v.toNat ||| 0x01))

/-- PORT_DISABLE (R424). -/
def execPortDisable (q : Req) (port : PortNo) (v : Word) (s : State) : Host.Outcome State Fault Refusal :=
  done s (s.writePortCtrl q port.val (v.toNat ||| 0x02))

/-- PORT_FENCE (R359). -/
def execPortFence (q : Req) (port : PortNo) (v : Word) (s : State) : Host.Outcome State Fault Refusal :=
  done s (s.writePortCtrl q port.val (v.toNat ||| 0x04))

/-- PORT_UNFENCE (R361). -/
def execPortUnfence (q : Req) (port : PortNo) (v : Word) (s : State) : Host.Outcome State Fault Refusal :=
  done s (s.writePortCtrl q port.val (v.toNat ||| 0x08))

/-- PORT_RESET (R371). -/
def execPortReset (q : Req) (port : PortNo) (v : Word) (s : State) : Host.Outcome State Fault Refusal :=
  done s (s.writePortCtrl q port.val (v.toNat ||| 0x40))

/-- PORT_MODE_WIDTH_WRITE (R61). -/
def execPortModeWidthWrite (q : Req) (port : PortNo) (v : Word) (s : State) : Host.Outcome State Fault Refusal :=
  done s (s.writePortCtrl q port.val v.toNat)

/-- PORT_CREDIT_WRITE (R91, R93). -/
def execPortCreditWrite (q : Req) (port : PortNo) (v : Word) (s : State) : Host.Outcome State Fault Refusal :=
  done s (s.serveReg q (portReg port.val 0x104) v.toNat)

/-- SHAPER_CFG_WRITE (R131, R132). -/
def execShaperCfgWrite (q : Req) (port : PortNo) (bucket : BucketNo) (rate : Bool) (v : Word) (s : State) :
    Host.Outcome State Fault Refusal :=
  done s (s.serveReg q ((if rate then bucketRate else bucketCfg) port.val bucket.ctorIdx) v.toNat)

/-- PORT_DRAINED (R424): nothing bound for a port in LULL remains. -/
def execPortDrained (port : PortNo) (s : State) : Host.Outcome State Fault Refusal :=
  done s (if s.leads port.val && s.portState port.val == 4 && s.portEmpty port.val then s.idlePort port.val else s)

/-- A condition of R354 is one of the port's mode: 2, silence, on a port that hears keepalives; 3 exactly with no
lane in service; 4 with a PCS. -/
def State.downCond (s : State) (p cond : Nat) : Bool :=
  match cond with
  | 1 => true
  | 2 => s.mode p != 1
  | 3 => s.lanesNow p == 0
  | 4 => s.mode p == 1
  | _ => false

/-- The detector judges the port: it is enabled and not in KITE, and its lanes run. -/
def State.detects (s : State) (p : Nat) : Bool :=
  s.leads p && s.atStage 1 && (s.port p).enabled && !(s.port p).kite && !s.fatal

/-- PORT_DOWN_DETECT (R354). On a port that is DOWN already the 250 good ticks start again. -/
def execPortDownDetect (port : PortNo) (cond : Fin 5) (s : State) : Host.Outcome State Fault Refusal :=
  done s (if s.detects port.val && s.downCond port.val cond.val then s.takeDown port.val cond.val else s)

/-- Lanes enough for the port to carry traffic: one in FABRIC mode (R48), all of them otherwise (R165). -/
def State.lanesEnough (s : State) (p : Nat) : Bool :=
  decide (0 < s.lanesNow p) && (s.mode p == 0 || s.lanesNow p == s.lanesWide p)

/-- A fiber that returned from a Kite circuit is done with when every enabled port on it is UP (R170). -/
def State.fiberReturned (s : State) (f : Nat) : State :=
  if (List.range 4).all (fun i => !(s.port (4 * f + i)).enabled || (s.port (4 * f + i)).up) then
    s.setPho fun x => { x with returning := x.returning.filter (· != f) }
  else s

/-- PORT_UP_DETECT (R354): 250 good ticks, which a port returning from a circuit does not wait (R170). -/
def execPortUpDetect (port : PortNo) (s : State) : Host.Outcome State Fault Refusal :=
  let p := port.val
  let back := s.pho.returning.contains (p / 4)
  done s (if s.detects p && !(s.port p).up && s.lanesEnough p
      && (back || decide ((s.port p).goodSince + 250 ≤ s.clk.up)) then
    (s.bringUp p).fiberReturned (p / 4)
  else s)

/-- LANE_RESET (R372): RESET_A of an even lane, RESET_B of an odd one. -/
def execLaneReset (q : Req) (lane : LaneNo) (s : State) : Host.Outcome State Fault Refusal :=
  done s (s.serveReg q (lanePage lane.val + 8) (1 + lane.val % 2))

/-- RESWEEP (R162): RESWEEP_A of an even lane, RESWEEP_B of an odd one. -/
def execResweep (q : Req) (lane : LaneNo) (s : State) : Host.Outcome State Fault Refusal :=
  done s (s.serveReg q (lanePage lane.val + 8) (4 * (1 + lane.val % 2)))

/-- ELS_RESTORE (R158). -/
def execElsRestore (q : Req) (module : Fin 32) (s : State) : Host.Outcome State Fault Refusal :=
  done s (s.serveReg q (elsReg module.val 8) 1)

/-- KITE_RELEASE (R172). -/
def execKiteRelease (q : Req) (s : State) : Host.Outcome State Fault Refusal := done s (s.serveReg q (kiteReg 8) 1)

/-- TICK_ROLE_WRITE (R34): a write of TICK.CTRL. -/
def execTickRoleWrite (q : Req) (v : Word) (s : State) : Host.Outcome State Fault Refusal :=
  done s (s.serveReg q (tickReg 8) v.toNat)

/-- CAL_LOAD (R295). -/
def execCalLoad (q : Req) (seg : Segment) (s : State) : Host.Outcome State Fault Refusal := done s (s.serveCalLoad q seg)

/-- CAL_DISARM (R57). -/
def execCalDisarm (q : Req) (port : PortNo) (s : State) : Host.Outcome State Fault Refusal :=
  done s (s.serveReg q (calReg port.val 8) 2)

/-- CAL_RESUME (R39). -/
def execCalResume (q : Req) (port : PortNo) (s : State) : Host.Outcome State Fault Refusal :=
  done s (s.serveReg q (calReg port.val 8) 1)

/-- A port's score recovers (R356). -/
def State.recoverScore (s : State) (p : Nat) : State :=
  if s.score p = 255 ∨ s.flt.hurt.contains p then s else s.fset (portReg p 0x118) 7 0 (s.score p + 1)

/-- A member's miss score recovers (R357). -/
def recoverMember (m : MemberSt) : MemberSt :=
  { m with score := if m.hurt then m.score else min 255 (m.score + 1), hurt := false }

/-- HEALTH_RECOVER_INTERVAL (R356, R357): the interval in force has passed; the next takes HEALTH_RECOVER. -/
def execHealthRecoverInterval (s : State) : Host.Outcome State Fault Refusal :=
  done s (if s.flt.interval + s.flt.period ≤ s.clk.up then
    let s := s.each (List.range 1024) State.recoverScore
    let s := s.each (s.col.ctxs.map Prod.fst) fun s c => s.setCtx c fun x =>
      { x with members := x.members.map fun kv => (kv.1, recoverMember kv.2) }
    s.setFlt fun f => { f with
      interval := f.interval + f.period, period := s.fget (cdReg 0x1A8) 23 0, penalty := [], hurt := [] }
  else s)

/-- FENCE_HELD_REJUDGE (R360). -/
def execFenceHeldRejudge (s : State) : Host.Outcome State Fault Refusal := done s s.rejudgeFences

end Sys2Proof.Machine
end

