-- ==== Sys2Proof/Machine/Tables.lean ====
section
/-! DEFINITION. The table commands (R110, R113 to R128) and the events of the table hardware. -/

namespace Sys2Proof.Machine

/-- LPM_INSERT (R114). -/
def execLpmInsert (q : Req) (b : TblBlock) (s : State) : Host.Outcome State Fault Refusal :=
  done s (s.serveTable q 0x01 b)

/-- LPM_DELETE (R115). -/
def execLpmDelete (q : Req) (b : TblBlock) (s : State) : Host.Outcome State Fault Refusal :=
  done s (s.serveTable q 0x02 b)

/-- LPM_MODIFY (R110). -/
def execLpmModify (q : Req) (b : TblBlock) (s : State) : Host.Outcome State Fault Refusal :=
  done s (s.serveTable q 0x03 b)

/-- LPM_READ (R110). -/
def execLpmRead (q : Req) (b : TblBlock) (s : State) : Host.Outcome State Fault Refusal :=
  done s (s.serveTable q 0x04 b)

/-- NH_WRITE (R116). -/
def execNhWrite (q : Req) (b : TblBlock) (s : State) : Host.Outcome State Fault Refusal :=
  done s (s.serveTable q 0x10 b)

/-- NH_READ (R116). -/
def execNhRead (q : Req) (b : TblBlock) (s : State) : Host.Outcome State Fault Refusal :=
  done s (s.serveTable q 0x11 b)

/-- MC_WRITE (R117). -/
def execMcWrite (q : Req) (b : TblBlock) (s : State) : Host.Outcome State Fault Refusal :=
  done s (s.serveTable q 0x20 b)

/-- MC_READ (R117). -/
def execMcRead (q : Req) (b : TblBlock) (s : State) : Host.Outcome State Fault Refusal :=
  done s (s.serveTable q 0x21 b)

/-- MAC_INSERT (R126). -/
def execMacInsert (q : Req) (b : TblBlock) (s : State) : Host.Outcome State Fault Refusal :=
  done s (s.serveTable q 0x30 b)

/-- MAC_DELETE (R126). -/
def execMacDelete (q : Req) (b : TblBlock) (s : State) : Host.Outcome State Fault Refusal :=
  done s (s.serveTable q 0x31 b)

/-- SEARCH (R127). -/
def execSearch (q : Req) (b : TblBlock) (s : State) : Host.Outcome State Fault Refusal :=
  done s (s.serveTable q 0x32 b)

/-- NEXT (R127). -/
def execMacNext (q : Req) (b : TblBlock) (s : State) : Host.Outcome State Fault Refusal :=
  done s (s.serveTable q 0x33 b)

/-- FLUSH_BY_PORT (R128). -/
def execFlushByPort (q : Req) (b : TblBlock) (s : State) : Host.Outcome State Fault Refusal :=
  done s (s.serveTable q 0x34 b)

/-- VLAN_WRITE (R118). -/
def execVlanWrite (q : Req) (b : TblBlock) (s : State) : Host.Outcome State Fault Refusal :=
  done s (s.serveTable q 0x40 b)

/-- VLAN_READ (R118). -/
def execVlanRead (q : Req) (b : TblBlock) (s : State) : Host.Outcome State Fault Refusal :=
  done s (s.serveTable q 0x41 b)


/-! Events of the table hardware -/

/-- FC cycles a shift takes: two positions in each (R115). -/
def State.shiftCycles (s : State) (j : TblJob) : Nat :=
  match parseLpm j.block.args with
  | some e =>
    let pos := if j.op = 0x01 then lpmSlot s.tbl.lpm e else (s.tbl.lpm.findIdx? fun x => x.sameKey e).getD 0
    ceilDiv (s.tbl.lpm.length - pos) 2
  | none => 0

/-- LPM_SHIFT_DONE (R115). -/
def execLpmShiftDone (s : State) : Host.Outcome State Fault Refusal :=
  done s (match s.tbl.busy with
    | some j =>
      if (j.op = 0x01 ∨ j.op = 0x02) ∧ j.startFc + s.shiftCycles j ≤ s.fcNow then s.shiftDone j else s
    | none => s)

/-- FLUSH_SWEEP_DONE (R128): four of 262,208 positions in each FC cycle. -/
def execFlushSweepDone (s : State) : Host.Outcome State Fault Refusal :=
  done s (match s.tbl.busy with
    | some j => if j.op = 0x34 ∧ j.startFc + 65552 ≤ s.fcNow then s.flushDone j else s
    | none => s)

/-- LEARN_RELAY_APPLY (R124). -/
def execLearnRelayApply (s : State) : Host.Outcome State Fault Refusal := done s s.relayApply

/-- MAC_AGE_SWEEP (R125): a dynamic entry with no hit bit in any die goes, and the hit bits of the others clear. -/
def execMacAgeSweep (s : State) : Host.Outcome State Fault Refusal :=
  let period := s.rget (tblReg 0x114)
  done s (if period ≠ 0 ∧ s.tbl.agedUp + period ≤ s.clk.up then
    let t := (s.macRemove fun _ e => !e.fixed && !s.macHit e.vid e.mac.toNat).1
    let t := t.eachMac fun _ m => m.map fun kv => (kv.1, { kv.2 with hit := false })
    t.setTbl fun x => { x with agedUp := s.clk.up }
  else s)

/-- The mark of a position that a die cannot read is lifted. -/
def State.clearTblError (s : State) (d : Nat) (k : TblKind) (pos : Nat) : State :=
  s.setTbl fun t => { t with errors := t.errors.filter (· != (d, k, pos)) }

/-- The entry at a position goes from every replica. -/
def State.invalidateEntry (s : State) (k : TblKind) (pos : Nat) : State :=
  match k with
  | .lpm => s.setTbl fun t => { t with lpm := t.lpm.eraseIdx pos }
  | .nh => s.setTbl fun t => { t with nh := mdel t.nh pos }
  | .mc => s.setTbl fun t => { t with mc := mdel t.mc pos }
  | .vlan => s.setTbl fun t => { t with vlan := mdel t.vlan pos }
  | .mac => s.eachMac fun _ m => mdel m pos

/-- The entry at a MAC position of a die is dynamic: it has no backup (R108). -/
def State.dynamicEntry (s : State) (d : Nat) (k : TblKind) (pos : Nat) : Bool :=
  k == .mac && (match mget (s.tbl.mac d) pos with | some e => !e.fixed | none => false)

/-- MC0 rewrites an entry that gave an uncorrectable error (R108): from META once HBM is in use, else from another
die's replica; with no good copy the entry is invalidated, counted and recorded. -/
def State.rewriteEntry (s : State) (d : Nat) (k : TblKind) (pos : Nat) : State :=
  if s.dynamicEntry d k pos then
    (s.clearTblError d k pos).setTbl fun t => t.setMac d fun m => mdel m pos
  else if !s.hbmOn && (List.range 4).all (fun e => s.tblBad e k pos) then
    let t := (s.each (List.range 4) fun s e => s.clearTblError e k pos).invalidateEntry k pos
    (t.bump (tblDieReg d 0x108)).record (tblDieReg d 0) none (Sys2Proof.Config.unlistedCause 7 16).toNat pos
  else (s.clearTblError d k pos).bump (tblDieReg d 0x110)

/-- TABLE_ENTRY_REWRITE (R108). -/
def execTableEntryRewrite (die : DieNo) (kind : TblKind) (pos : Nat) (s : State) : Host.Outcome State Fault Refusal :=
  done s (if s.tblBad die.val kind pos then s.rewriteEntry die.val kind pos else s)

end Sys2Proof.Machine
end

