-- ==== Sys2Proof/Machine/Telemetry.lean ====
section
/-! DEFINITION. Bandwidth windows (R390, R391), alarm explanation records (R394, R396) and the page dump (R366). -/

namespace Sys2Proof.Machine

/-- BW_WINDOW_START (R391). -/
def execBwWindowStart (q : Req) (v : Word) (s : State) : Host.Outcome State Fault Refusal :=
  done s (s.serveReg q (telReg 0x200) (v.toNat ||| 1))

/-- BW_WINDOW_STOP (R391). -/
def execBwWindowStop (q : Req) (v : Word) (s : State) : Host.Outcome State Fault Refusal :=
  done s (s.serveReg q (telReg 0x200) (v.toNat ||| 4))

/-- A port's counts of the window go to its result registers (R391); a port number that leads no port keeps none. -/
def State.latchPort (s : State) (seq p : Nat) : State :=
  if s.leads p then
    let b := mgetD s.sys.bw p {}
    (((s.rset (portReg p 0x320) seq).rset (portReg p 0x328) b.rx).rset (portReg p 0x330) b.tx).rset (portReg p 0x338) b.granted
  else s

/-- The window ends: every port is latched, and with REPEAT the next one starts at the same boundary (R391). -/
def State.closeWindow (s : State) : State :=
  let seq := (s.rget (telReg 0x220) + 1) % 2 ^ 32
  let s := s.each (List.range 1024) fun s p => s.latchPort seq p
  let s := (s.rset (telReg 0x220) seq).rset (telReg 0x218) s.sys.bwStart.toNat
  let s := s.alarmPlain (telReg 0) 0 seq
  if s.bget (telReg 0x200) 1 then
    s.setSys fun y => { y with bw := [], bwFrom := some s.clk.up, bwStart := s.clk.tick }
  else (s.rset (telReg 0x210) 0).setSys fun y => { y with bw := [], bwFrom := none }

/-- BW_WINDOW_END (R391): a window in progress has run its BW_LEN ticks. -/
def execBwWindowEnd (s : State) : Host.Outcome State Fault Refusal :=
  done s (match s.sys.bwFrom with
    | some from_ =>
      if s.fget (telReg 0x210) 1 0 = 2 ∧ from_ + s.fget (telReg 0x204) 16 0 ≤ s.clk.up then s.closeWindow else s
    | none => s)

/-- AER_WRITE (R394). -/
def execAerWrite (s : State) : Host.Outcome State Fault Refusal := done s s.writeRec

/-- AER_SELECT (R396). -/
def execAerSelect (q : Req) (v : Word) (s : State) : Host.Outcome State Fault Refusal :=
  done s (s.serveReg q (telReg 0x304) v.toNat)

/-- DUMP_TRIGGER (R366). -/
def execDumpTrigger (q : Req) (s : State) : Host.Outcome State Fault Refusal := done s (s.serveReg q (dumpReg 0x008) 1)

end Sys2Proof.Machine
end

