-- ==== Sys2Proof/Machine/Twins.lean ====
section
/-! DEFINITION. The twin: pairing, heartbeats, the frames of the twin link and their timers (R336 to R348). -/

namespace Sys2Proof.Machine

/-- TWIN_PAIR (R339). -/
def execTwinPair (q : Req) (s : State) : Host.Outcome State Fault Refusal := done s (s.serveReg q (twinReg 0x008) 1)

/-- TWIN_DETACH (R345). -/
def execTwinDetach (q : Req) (s : State) : Host.Outcome State Fault Refusal := done s (s.serveReg q (twinReg 0x008) 2)

/-- TWIN_RESYNC (R340). -/
def execTwinResync (q : Req) (s : State) : Host.Outcome State Fault Refusal := done s (s.serveReg q (twinReg 0x008) 4)

/-- TWIN_HEARTBEAT_TX (R336). -/
def execTwinHeartbeatTx (s : State) : Host.Outcome State Fault Refusal :=
  done s (if s.twinBeats then s.twinSend twHeartbeat s.heartbeat else s)

/-- A frame comes over a twin link that is up; one that is not intact is discarded (R335). -/
def State.twinRx (s : State) (type : Nat) (frame : Bytes) (act : State → Bytes → State) : State :=
  if s.twinUp && !s.fatal then
    let s := s.pmc (twinReg 0) 0x101 frame.length
    match twinPayload type frame with
    | some p => act s p
    | none => s
  else s

/-- TWIN_HEARTBEAT_RX (R336). -/
def execTwinHeartbeatRx (frame : Bytes) (s : State) : Host.Outcome State Fault Refusal :=
  done s (s.twinRx twHeartbeat frame State.heartbeatRx)

/-- TWIN_HB_CHECK (R346). -/
def execTwinHbCheck (s : State) : Host.Outcome State Fault Refusal := done s s.hbCheck

/-- TWIN_HELLO_RX (R339). -/
def execTwinHelloRx (frame : Bytes) (s : State) : Host.Outcome State Fault Refusal :=
  done s (s.twinRx twHello frame State.helloRx)

/-- TWIN_PROOF_RX (R339). -/
def execTwinProofRx (frame : Bytes) (s : State) : Host.Outcome State Fault Refusal :=
  done s (s.twinRx twProof frame State.proofRx)

/-- TWIN_CTX_CONFIG_RX (R342). -/
def execTwinCtxConfigRx (frame : Bytes) (s : State) : Host.Outcome State Fault Refusal :=
  done s (s.twinRx twConfig frame State.configRx)

/-- TWIN_CTX_ACCEPT_RX (R342). -/
def execTwinCtxAcceptRx (frame : Bytes) (s : State) : Host.Outcome State Fault Refusal :=
  done s (s.twinRx twAccept frame State.acceptRx)

/-- TWIN_RECORD_RX (R270, R337). -/
def execTwinRecordRx (frame : Bytes) (s : State) : Host.Outcome State Fault Refusal :=
  done s (s.twinRx twRecord frame State.recordRx)

/-- TWIN_ACK_RX (R269, R337). -/
def execTwinAckRx (frame : Bytes) (s : State) : Host.Outcome State Fault Refusal :=
  done s (s.twinRx twAck frame State.ackRx)

/-- TWIN_RELEASED_RX (R343). -/
def execTwinReleasedRx (frame : Bytes) (s : State) : Host.Outcome State Fault Refusal :=
  done s (s.twinRx twReleased frame State.releasedRx)

/-- TWIN_STEP_DIGEST_RX (R271). -/
def execTwinStepDigestRx (frame : Bytes) (s : State) : Host.Outcome State Fault Refusal :=
  done s (s.twinRx twStepDigest frame State.stepDigestRx)

/-- TWIN_CHUNK_DIGESTS_RX (R271). -/
def execTwinChunkDigestsRx (frame : Bytes) (s : State) : Host.Outcome State Fault Refusal :=
  done s (s.twinRx twChunkDigests frame State.chunkDigestsRx)

/-- TWIN_COPY_RX (R340). -/
def execTwinCopyRx (frame : Bytes) (s : State) : Host.Outcome State Fault Refusal :=
  done s (s.twinRx twCopy frame State.copyRx)

/-- TWIN_COPY_END_RX (R340). -/
def execTwinCopyEndRx (frame : Bytes) (s : State) : Host.Outcome State Fault Refusal :=
  done s (s.twinRx twCopyEnd frame State.copyEndRx)

/-- TWIN_HANDOVER_RX (R345). -/
def execTwinHandoverRx (frame : Bytes) (s : State) : Host.Outcome State Fault Refusal :=
  done s (s.twinRx twHandover frame State.handoverRx)

/-- TWIN_FRAME_RESEND (R337): `index` counts the frames sent and not yet acknowledged, oldest first. -/
def execTwinFrameResend (index : Nat) (s : State) : Host.Outcome State Fault Refusal := done s (s.resend index)

/-- TWIN_ATTACH_TIMEOUT (R341). -/
def execTwinAttachTimeout (linkDownTicks : Nat) (s : State) : Host.Outcome State Fault Refusal :=
  done s (match s.attachEnd linkDownTicks with
    | some cause => s.attachFails cause
    | none => s)

end Sys2Proof.Machine
end

