-- ==== Sys2Proof/Machine/Updates.lean ====
section
/-! DEFINITION. The Update Units and their programs (R258, R262, R264 to R266), and the split of STATE (R275). -/

namespace Sys2Proof.Machine

/-- UU_INVOCATION_ISSUE (R258). -/
def execUuInvocationIssue (uu : CoreNo) (s : State) : Host.Outcome State Fault Refusal := done s (s.issueUu uu.val)

/-- UU_INVOCATION_END (R265). -/
def execUuInvocationEnd (uu : CoreNo) (fault : UuFault) (late : Bool) (s : State) :
    Host.Outcome State Fault Refusal := done s (s.endInvocation uu.val fault late)

/-- UU_RELEASE (R266). -/
def execUuRelease (q : Req) (uu : CoreNo) (s : State) : Host.Outcome State Fault Refusal :=
  done s (s.serveReg q (uuReg uu.val 0x008) 2)

/-- UU_BIST (R266). -/
def execUuBist (q : Req) (uu : CoreNo) (s : State) : Host.Outcome State Fault Refusal :=
  done s (s.serveReg q (uuReg uu.val 0x008) 1)

/-- UU_BIST_COMPLETE (R266): 25 ticks after its start. -/
def execUuBistComplete (uu : CoreNo) (pass : Bool) (s : State) : Host.Outcome State Fault Refusal :=
  done s (if s.uuState uu.val = 2 ∧ (s.core uu.val).uuBistUp + 25 ≤ s.clk.up then s.endUuBist uu.val pass else s)

/-- PROG_LOAD (R262). -/
def execProgLoad (q : Req) (seg : Segment) (s : State) : Host.Outcome State Fault Refusal :=
  done s (s.serveProgLoad q seg)

/-- PROG_INSTALL_COMPLETE (R264). -/
def execProgInstallComplete (ctx : CtxNo) (s : State) : Host.Outcome State Fault Refusal :=
  done s (s.installProg ctx.val)

/-- STATE_SPLIT_WRITE (R275): a write of GLB.HBM_CTRL. -/
def execStateSplitWrite (q : Req) (v : Word) (s : State) : Host.Outcome State Fault Refusal :=
  done s (s.serveReg q (glbReg 0x108) v.toNat)

end Sys2Proof.Machine
end

