-- ==== Sys2Proof/Machine/Windsock.lean ====
section
/-! DEFINITION. The Windsock (R140 to R142): samples of every queue and the trace rings. -/

namespace Sys2Proof.Machine

/-- FC time at which the head of an egress queue entered EGRESS: its oldest packet, or what is being assembled or held
for it. -/
def State.egressHead (s : State) (p vc : Nat) : Option Nat :=
  match s.sw.egress.find? fun x => x.port == p && x.vc == vc with
  | some x => some x.enterFc
  | none =>
    let fs := s.sw.flows.filter fun f => !f.key.multicast && f.key.dest == p && f.key.vc == vc
    leastOf ((fs.filter fun f => !f.asm.isEmpty).map Flow.asmFc ++ fs.flatMap fun f => f.held.map Prod.snd)

/-- Cells of a die waiting toward (port, VC), oldest first. -/
def State.voqToward (s : State) (d p vc : Nat) : List Cell :=
  s.sw.voq.filter fun c => c.cluster / 4 == d && c.kind == .unicast && c.dest == p && c.vc == vc

/-- Depth and delay of an egress queue; an empty one gives 0 and 0. -/
def State.egressSample (s : State) (p vc : Nat) : Nat × Nat :=
  (s.egressCells p vc, match s.egressHead p vc with | some t => s.fcNow - t | none => 0)

/-- Depth and delay of the queues of an arrival die toward (port, VC). -/
def State.voqSample (s : State) (d p vc : Nat) : Nat × Nat :=
  let cells := s.voqToward d p vc
  (cells.length, match cells with | c :: _ => s.fcNow - c.bornFc | [] => 0)

/-- One egress queue is sampled into its registers (R141). -/
def State.sampleQueue (s : State) (p vc : Nat) : State :=
  let x := s.egressSample p vc
  (s.rset (portReg p (0x160 + 4 * vc)) x.1).rset (portReg p (0x170 + 4 * vc)) (min x.2 0xFFFFFFFF)

/-- A trace record of the queue that a WS_TRACE register names (R142). -/
def State.traceRec (s : State) (v : Nat) : Bytes :=
  let port := bits v 9 0
  let vc := bits v 11 10
  let voq := bit v 15
  let x := if voq then s.voqSample (bits v 13 12) port vc else s.egressSample port vc
  beBytes 6 s.tick ++ beBytes 2 (b2n voq * 2 ^ 15 + vc * 1024 + port) ++ beBytes 1 (if voq then bits v 13 12 else 0)
    ++ zeros 1 ++ beBytes 3 (min x.1 0xFFFFFF) ++ beBytes 3 (min (x.2 / 16) 0xFFFFFF)

/-- Chip address of a die's Windsock ring (R274), and its records. -/
def wsRing (d : Nat) : Nat := d * 2 ^ 37 + 126 * 2 ^ 30 + 656 * 2 ^ 20
def wsRecords : Nat := 1048576

/-- A record is appended to a die's ring; WS_RING_WR moves on. -/
def State.appendTrace (s : State) (d : Nat) (rec_ : Bytes) : State :=
  let a := telDieReg d 0x200
  let at_ := s.rget a
  (s.hwrite (wsRing d + 16 * at_) rec_).rset a ((at_ + 1) % wsRecords)

/-- The traced queues of a die append their records; before Stage C none does (R284). -/
def State.traceDie (s : State) (d : Nat) : State :=
  if !s.hbmOn || s.dieHung d then s
  else
    let named := ((List.range 64).map fun i => s.rget (telDieReg d (0x100 + 4 * i))).filter fun v => bit v 31
    s.each named fun s v => s.appendTrace d (s.traceRec v)

/-- A sample of every queue. -/
def State.sample (s : State) : State :=
  let t := s.each ((List.range 1024).filter s.leads) fun s p => s.each [0, 1, 2, 3] fun s vc => s.sampleQueue p vc
  (t.each [0, 1, 2, 3] State.traceDie).setSys fun y => { y with lastSample := s.clk.up }

/-- WINDSOCK_SAMPLE (R140): WS_PERIOD ticks after the last. -/
def execWindsockSample (s : State) : Host.Outcome State Fault Refusal :=
  done s (if s.atStage 1 ∧ !s.fatal ∧ s.sys.lastSample + s.fget (telReg 0x100) 16 0 ≤ s.clk.up then s.sample else s)

end Sys2Proof.Machine
end

