-- ==== Sys2Proof/Machine/Dispatch.lean ====
section
/-! DEFINITION. The dispatch: one arm per constructor of Instr, each one direct call of its meaning. -/

namespace Sys2Proof.Machine

/-- The effect of one command on everything but the queue. -/
def exec (i : Instr) (s : State) : Host.Outcome State Fault Refusal :=
  match i with
  | .coldReset samples straps hottest vddIo => Sys2Proof.Machine.execColdReset samples straps hottest vddIo s
  | .stageAReached minTemp => Sys2Proof.Machine.execStageAReached minTemp s
  | .firmwareVerify slotA slotB => Sys2Proof.Machine.execFirmwareVerify slotA slotB s
  | .stageBReached => Sys2Proof.Machine.execStageBReached s
  | .stageCReached trainFail => Sys2Proof.Machine.execStageCReached trainFail s
  | .stageDReached engFound uuFail => Sys2Proof.Machine.execStageDReached engFound uuFail s
  | .warmReset q => Sys2Proof.Machine.execWarmReset q s
  | .tickMarkerRx port pod count err => Sys2Proof.Machine.execTickMarkerRx port pod count err s
  | .upstreamMarkerTimeout idx => Sys2Proof.Machine.execUpstreamMarkerTimeout idx s
  | .holdoverExpiry => Sys2Proof.Machine.execHoldoverExpiry s
  | .tickRoleWrite q v => Sys2Proof.Machine.execTickRoleWrite q v s
  | .echoLost id => Sys2Proof.Machine.execEchoLost id s
  | .ptpMessageRx via msg rxTime => Sys2Proof.Machine.execPtpMessageRx via msg rxTime s
  | .calLoad q seg => Sys2Proof.Machine.execCalLoad q seg s
  | .calInstallComplete => Sys2Proof.Machine.execCalInstallComplete s
  | .calArmedLatch => Sys2Proof.Machine.execCalArmedLatch s
  | .epochSwitch => Sys2Proof.Machine.execEpochSwitch s
  | .calDisarm q port => Sys2Proof.Machine.execCalDisarm q port s
  | .calResume q port => Sys2Proof.Machine.execCalResume q port s
  | .calEntryRewrite port shadow idx => Sys2Proof.Machine.execCalEntryRewrite port shadow idx s
  | .kitePrepare => Sys2Proof.Machine.execKitePrepare s
  | .kiteSwitch => Sys2Proof.Machine.execKiteSwitch s
  | .kiteSettled => Sys2Proof.Machine.execKiteSettled s
  | .kiteCircuitLit => Sys2Proof.Machine.execKiteCircuitLit s
  | .kiteRelease q => Sys2Proof.Machine.execKiteRelease q s
  | .kiteMonitorSample powIn powOut => Sys2Proof.Machine.execKiteMonitorSample powIn powOut s
  | .grantedSubslot port sub => Sys2Proof.Machine.execGrantedSubslot port sub s
  | .leftoverOpportunity port fc => Sys2Proof.Machine.execLeftoverOpportunity port fc s
  | .waitLimitExpiry port pkt sub => Sys2Proof.Machine.execWaitLimitExpiry port pkt sub s
  | .laneTagBlockTx port => Sys2Proof.Machine.execLaneTagBlockTx port s
  | .laneTagBlockRx fiber wave block power phase rxPs => Sys2Proof.Machine.execLaneTagBlockRx fiber wave block power phase rxPs s
  | .carrierNoLight fiber wave power => Sys2Proof.Machine.execCarrierNoLight fiber wave power s
  | .laneMoveEffect lane => Sys2Proof.Machine.execLaneMoveEffect lane s
  | .moveRequestTimeout lane => Sys2Proof.Machine.execMoveRequestTimeout lane s
  | .feedEvent pair feedB => Sys2Proof.Machine.execFeedEvent pair feedB s
  | .elsRestore q module => Sys2Proof.Machine.execElsRestore q module s
  | .elsModuleRemoved module => Sys2Proof.Machine.execElsModuleRemoved module s
  | .elsModuleInserted module suitable => Sys2Proof.Machine.execElsModuleInserted module suitable s
  | .biasUpdate margins => Sys2Proof.Machine.execBiasUpdate margins s
  | .ringSweepEnd ring found => Sys2Proof.Machine.execRingSweepEnd ring found s
  | .ringCaptureEnd ring held => Sys2Proof.Machine.execRingCaptureEnd ring held s
  | .ringLoopError ring errMHz light => Sys2Proof.Machine.execRingLoopError ring errMHz light s
  | .ringFailRetry ring => Sys2Proof.Machine.execRingFailRetry ring s
  | .resweep q lane => Sys2Proof.Machine.execResweep q lane s
  | .ethMarkerMismatch lane => Sys2Proof.Machine.execEthMarkerMismatch lane s
  | .lossSegmentCheck die lane losses => Sys2Proof.Machine.execLossSegmentCheck die lane losses s
  | .headerTaken port fc fec frame tblErr => Sys2Proof.Machine.execHeaderTaken port fc fec frame tblErr s
  | .packetTrailerRx port fc => Sys2Proof.Machine.execPacketTrailerRx port fc s
  | .ethFrameEnd port fc => Sys2Proof.Machine.execEthFrameEnd port fc s
  | .creditBlockRx port block => Sys2Proof.Machine.execCreditBlockRx port block s
  | .creditBlockTx port vc => Sys2Proof.Machine.execCreditBlockTx port vc s
  | .keepaliveTx port fc => Sys2Proof.Machine.execKeepaliveTx port fc s
  | .cellTimeMatch die fc => Sys2Proof.Machine.execCellTimeMatch die fc s
  | .cellRx die pos corrupt fc => Sys2Proof.Machine.execCellRx die pos corrupt fc s
  | .reseqTimeout flow fc => Sys2Proof.Machine.execReseqTimeout flow fc s
  | .dtdCreditReturn port vc src => Sys2Proof.Machine.execDtdCreditReturn port vc src s
  | .pktSpill die => Sys2Proof.Machine.execPktSpill die s
  | .pktRefill die => Sys2Proof.Machine.execPktRefill die s
  | .cutThroughStart port fc => Sys2Proof.Machine.execCutThroughStart port fc s
  | .cutThroughTruncate port fc => Sys2Proof.Machine.execCutThroughTruncate port fc s
  | .lpmInsert q b => Sys2Proof.Machine.execLpmInsert q b s
  | .lpmDelete q b => Sys2Proof.Machine.execLpmDelete q b s
  | .lpmModify q b => Sys2Proof.Machine.execLpmModify q b s
  | .lpmRead q b => Sys2Proof.Machine.execLpmRead q b s
  | .lpmShiftDone => Sys2Proof.Machine.execLpmShiftDone s
  | .nhWrite q b => Sys2Proof.Machine.execNhWrite q b s
  | .nhRead q b => Sys2Proof.Machine.execNhRead q b s
  | .mcWrite q b => Sys2Proof.Machine.execMcWrite q b s
  | .mcRead q b => Sys2Proof.Machine.execMcRead q b s
  | .macInsert q b => Sys2Proof.Machine.execMacInsert q b s
  | .macDelete q b => Sys2Proof.Machine.execMacDelete q b s
  | .search q b => Sys2Proof.Machine.execSearch q b s
  | .macNext q b => Sys2Proof.Machine.execMacNext q b s
  | .flushByPort q b => Sys2Proof.Machine.execFlushByPort q b s
  | .flushSweepDone => Sys2Proof.Machine.execFlushSweepDone s
  | .vlanWrite q b => Sys2Proof.Machine.execVlanWrite q b s
  | .vlanRead q b => Sys2Proof.Machine.execVlanRead q b s
  | .learnRelayApply => Sys2Proof.Machine.execLearnRelayApply s
  | .macAgeSweep => Sys2Proof.Machine.execMacAgeSweep s
  | .tableEntryRewrite die kind pos => Sys2Proof.Machine.execTableEntryRewrite die kind pos s
  | .shaperCfgWrite q port bucket rate v => Sys2Proof.Machine.execShaperCfgWrite q port bucket rate v s
  | .windsockSample => Sys2Proof.Machine.execWindsockSample s
  | .ctxEnable q ctx => Sys2Proof.Machine.execCtxEnable q ctx s
  | .ctxEnableComplete ctx => Sys2Proof.Machine.execCtxEnableComplete ctx s
  | .twinCtxAcceptTimeout ctx => Sys2Proof.Machine.execTwinCtxAcceptTimeout ctx s
  | .ctxDisable q ctx => Sys2Proof.Machine.execCtxDisable q ctx s
  | .ctxLullBegin ctx => Sys2Proof.Machine.execCtxLullBegin ctx s
  | .ctxLullDrained ctx => Sys2Proof.Machine.execCtxLullDrained ctx s
  | .ctxStateFree q ctx => Sys2Proof.Machine.execCtxStateFree q ctx s
  | .ctxReset q ctx => Sys2Proof.Machine.execCtxReset q ctx s
  | .ctxResetAborts ctx => Sys2Proof.Machine.execCtxResetAborts ctx s
  | .contribCellRx die pos corrupt fc => Sys2Proof.Machine.execContribCellRx die pos corrupt fc s
  | .slotRefill desc => Sys2Proof.Machine.execSlotRefill desc s
  | .slotDeadline desc => Sys2Proof.Machine.execSlotDeadline desc s
  | .tileIssue core => Sys2Proof.Machine.execTileIssue core s
  | .tileComplete eng fault late => Sys2Proof.Machine.execTileComplete eng fault late s
  | .tileRerun desc tile => Sys2Proof.Machine.execTileRerun desc tile s
  | .uuInvocationIssue uu => Sys2Proof.Machine.execUuInvocationIssue uu s
  | .uuInvocationEnd uu fault late => Sys2Proof.Machine.execUuInvocationEnd uu fault late s
  | .resultRelease desc => Sys2Proof.Machine.execResultRelease desc s
  | .startRetryTimeout ctx => Sys2Proof.Machine.execStartRetryTimeout ctx s
  | .stepTimeout ctx step => Sys2Proof.Machine.execStepTimeout ctx step s
  | .kbankValidSet q ctx bank => Sys2Proof.Machine.execKbankValidSet q ctx bank s
  | .kbankClear q ctx bank => Sys2Proof.Machine.execKbankClear q ctx bank s
  | .progLoad q seg => Sys2Proof.Machine.execProgLoad q seg s
  | .progInstallComplete ctx => Sys2Proof.Machine.execProgInstallComplete ctx s
  | .engUngate q eng => Sys2Proof.Machine.execEngUngate q eng s
  | .engGate q eng => Sys2Proof.Machine.execEngGate q eng s
  | .engRelease q eng => Sys2Proof.Machine.execEngRelease q eng s
  | .engBist q eng => Sys2Proof.Machine.execEngBist q eng s
  | .engRepairWrite q eng v => Sys2Proof.Machine.execEngRepairWrite q eng v s
  | .engBistComplete eng found => Sys2Proof.Machine.execEngBistComplete eng found s
  | .uuRelease q uu => Sys2Proof.Machine.execUuRelease q uu s
  | .uuBist q uu => Sys2Proof.Machine.execUuBist q uu s
  | .uuBistComplete uu pass => Sys2Proof.Machine.execUuBistComplete uu pass s
  | .stateSplitWrite q v => Sys2Proof.Machine.execStateSplitWrite q v s
  | .patrolScrub stack addr found => Sys2Proof.Machine.execPatrolScrub stack addr found s
  | .hbmUe addr use => Sys2Proof.Machine.execHbmUe addr use s
  | .hbmRetrain stack chan ok => Sys2Proof.Machine.execHbmRetrain stack chan ok s
  | .hcpRead q a => Sys2Proof.Machine.execHcpRead q a s
  | .hcpWrite q a v => Sys2Proof.Machine.execHcpWrite q a v s
  | .rmw q a mask v => Sys2Proof.Machine.execRmw q a mask v s
  | .bulkRead q a count => Sys2Proof.Machine.execBulkRead q a count s
  | .bulkWrite q a words => Sys2Proof.Machine.execBulkWrite q a words s
  | .dumpRead q source die off len => Sys2Proof.Machine.execDumpRead q source die off len s
  | .attest q nonce off => Sys2Proof.Machine.execAttest q nonce off s
  | .sessionOpen q slot role eph nonce sig => Sys2Proof.Machine.execSessionOpen q slot role eph nonce sig s
  | .sessionClose q => Sys2Proof.Machine.execSessionClose q s
  | .sessionIdleTimeout id => Sys2Proof.Machine.execSessionIdleTimeout id s
  | .transferAbandon own opcode id => Sys2Proof.Machine.execTransferAbandon own opcode id s
  | .mgmtLinkDown m => Sys2Proof.Machine.execMgmtLinkDown m s
  | .stringAccessTimeout q op a => Sys2Proof.Machine.execStringAccessTimeout q op a s
  | .hcp1Blow q v => Sys2Proof.Machine.execHcp1Blow q v s
  | .svnCommit q v => Sys2Proof.Machine.execSvnCommit q v s
  | .keyEnroll q v => Sys2Proof.Machine.execKeyEnroll q v s
  | .keyRevoke q v => Sys2Proof.Machine.execKeyRevoke q v s
  | .secLock q => Sys2Proof.Machine.execSecLock q s
  | .registerWrite q a v => Sys2Proof.Machine.execRegisterWrite q a v s
  | .portEnable q port v => Sys2Proof.Machine.execPortEnable q port v s
  | .portDisable q port v => Sys2Proof.Machine.execPortDisable q port v s
  | .portDrained port => Sys2Proof.Machine.execPortDrained port s
  | .portFence q port v => Sys2Proof.Machine.execPortFence q port v s
  | .portUnfence q port v => Sys2Proof.Machine.execPortUnfence q port v s
  | .portReset q port v => Sys2Proof.Machine.execPortReset q port v s
  | .portModeWidthWrite q port v => Sys2Proof.Machine.execPortModeWidthWrite q port v s
  | .portCreditWrite q port v => Sys2Proof.Machine.execPortCreditWrite q port v s
  | .laneReset q lane => Sys2Proof.Machine.execLaneReset q lane s
  | .portDownDetect port cond => Sys2Proof.Machine.execPortDownDetect port cond s
  | .portUpDetect port => Sys2Proof.Machine.execPortUpDetect port s
  | .healthRecoverInterval => Sys2Proof.Machine.execHealthRecoverInterval s
  | .fenceHeldRejudge => Sys2Proof.Machine.execFenceHeldRejudge s
  | .watchdogExpiry core => Sys2Proof.Machine.execWatchdogExpiry core s
  | .coreRecovered core => Sys2Proof.Machine.execCoreRecovered core s
  | .doldrumsScan => Sys2Proof.Machine.execDoldrumsScan s
  | .dumpTrigger q => Sys2Proof.Machine.execDumpTrigger q s
  | .fatalError cause => Sys2Proof.Machine.execFatalError cause s
  | .supplyFault rail microseconds => Sys2Proof.Machine.execSupplyFault rail microseconds s
  | .refclkLoss clk => Sys2Proof.Machine.execRefclkLoss clk s
  | .tjWarn die sensor temp => Sys2Proof.Machine.execTjWarn die sensor temp s
  | .tjTrip die sensor first second => Sys2Proof.Machine.execTjTrip die sensor first second s
  | .tjRecover hottest => Sys2Proof.Machine.execTjRecover hottest s
  | .thermalShutdown die sensor temp => Sys2Proof.Machine.execThermalShutdown die sensor temp s
  | .twinPair q => Sys2Proof.Machine.execTwinPair q s
  | .twinDetach q => Sys2Proof.Machine.execTwinDetach q s
  | .twinResync q => Sys2Proof.Machine.execTwinResync q s
  | .twinHeartbeatTx => Sys2Proof.Machine.execTwinHeartbeatTx s
  | .twinHeartbeatRx frame => Sys2Proof.Machine.execTwinHeartbeatRx frame s
  | .twinHbCheck => Sys2Proof.Machine.execTwinHbCheck s
  | .twinHelloRx frame => Sys2Proof.Machine.execTwinHelloRx frame s
  | .twinProofRx frame => Sys2Proof.Machine.execTwinProofRx frame s
  | .twinCtxConfigRx frame => Sys2Proof.Machine.execTwinCtxConfigRx frame s
  | .twinCtxAcceptRx frame => Sys2Proof.Machine.execTwinCtxAcceptRx frame s
  | .twinRecordRx frame => Sys2Proof.Machine.execTwinRecordRx frame s
  | .twinAckRx frame => Sys2Proof.Machine.execTwinAckRx frame s
  | .twinReleasedRx frame => Sys2Proof.Machine.execTwinReleasedRx frame s
  | .twinStepDigestRx frame => Sys2Proof.Machine.execTwinStepDigestRx frame s
  | .twinChunkDigestsRx frame => Sys2Proof.Machine.execTwinChunkDigestsRx frame s
  | .twinCopyRx frame => Sys2Proof.Machine.execTwinCopyRx frame s
  | .twinCopyEndRx frame => Sys2Proof.Machine.execTwinCopyEndRx frame s
  | .twinHandoverRx frame => Sys2Proof.Machine.execTwinHandoverRx frame s
  | .twinFrameResend index => Sys2Proof.Machine.execTwinFrameResend index s
  | .twinAttachTimeout linkDownTicks => Sys2Proof.Machine.execTwinAttachTimeout linkDownTicks s
  | .bwWindowStart q v => Sys2Proof.Machine.execBwWindowStart q v s
  | .bwWindowStop q v => Sys2Proof.Machine.execBwWindowStop q v s
  | .bwWindowEnd => Sys2Proof.Machine.execBwWindowEnd s
  | .aerWrite => Sys2Proof.Machine.execAerWrite s
  | .aerSelect q v => Sys2Proof.Machine.execAerSelect q v s
  | .laneTagBlockMissing fiber wave light => Sys2Proof.Machine.execLaneTagBlockMissing fiber wave light s
  | .dtdLaneBelowSensitivity die lane dest below => Sys2Proof.Machine.execDtdLaneBelowSensitivity die lane dest below s
  | .refclkRelock clk => Sys2Proof.Machine.execRefclkRelock clk s
  | .mgmtLinkUp m => Sys2Proof.Machine.execMgmtLinkUp m s
  | .ptpMessageTx via kind txTime => Sys2Proof.Machine.execPtpMessageTx via kind txTime s
  | .hcpFrameRefused m udp ethertype addressed fcs udpSum frame => Sys2Proof.Machine.execHcpFrameRefused m udp ethertype addressed fcs udpSum frame s
  | .snapshotComplete => Sys2Proof.Machine.execSnapshotComplete s
  | .fatalDumpComplete silent hungDies => Sys2Proof.Machine.execFatalDumpComplete silent hungDies s
  | .elsRestoreComplete module => Sys2Proof.Machine.execElsRestoreComplete module s

end Sys2Proof.Machine
end

