-- ==== Sys2Proof/Machine/Tick.lean ====
section
/-! DEFINITION. The passing of one tick: clocks and counters (R6, R42, R314, R404), what every boundary does (R34, R39,
R371, R370, R391), and the blocks of the twin lanes (R31, R35). -/

namespace Sys2Proof.Machine

/-! The tick that ends -/

/-- Granted sub-slots of the tick that ends, and those that carried no granted packet (R387). -/
def State.countGrants (s : State) : State :=
  let s := s.each (s.cal.ports.map Prod.fst) fun s p =>
    s.each [0, 1, 2, 3] fun s sub =>
      if (s.grantAt p s.tick sub).isSome then
        let s := s.pmc (calReg p 0) 0x100 1
        if (s.port p).grantedSubs.contains sub then s else s.pmc (calReg p 0) 0x101 1
      else s
  s.setSw fun w => { w with ports := w.ports.map fun kv => (kv.1, { kv.2 with grantedSubs := [] }) }

/-! Clocks -/

/-- FC cycles of the tick that ends: a follower that follows an upstream is steered (R404). -/
def State.tickCycles (s : State) : Nat :=
  if !s.isMaster && s.clk.upstream.isSome then
    let v := (Sys2Proof.Config.steeredTick s.clk.up).toNat
    if v = 3 then 640 else 639 + v
  else 640

/-- The clocks at the boundary: EC at 15 / 16 and the Marionette at 5 / 4 of the FC, time of day at 0.625 ns a cycle. -/
def State.advanceClocks (s : State) : State :=
  let n := s.clk.fcBase + s.tickCycles
  s.setClk fun c => { c with
    tick := c.tick + 1, up := c.up + 1, fcBase := n, fc := 0, ec := n * 15 / 16, mc := n * 5 / 4
    ptpNs := c.ptpNs + (n * 5 / 8 - c.fcBase * 5 / 8) }

/-- Cycles of a page's clock between two boundaries. -/
def clockCycles (clock old new : Nat) : Nat :=
  match clock with
  | 1 => new * 15 / 16 - old * 15 / 16
  | 2 => new * 5 / 4 - old * 5 / 4
  | _ => new - old

/-- CYCLES and TICKS of every counter that selects them (R385, R387): `a` is the address of its PMC_SEL. -/
def State.countCycles (s : State) (old : Nat) : State :=
  s.each (s.regs.filter fun kv =>
      decide (kv.1 < 2 ^ 32) && decide (0x040 ≤ kv.1 % 4096) && decide (kv.1 % 4096 < 0x060) && (kv.2.toNat == 2 ^ 31 + 1 || kv.2.toNat == 2 ^ 31 + 2))
    fun s kv =>
      match pageOf kv.1 with
      | some p =>
        let i := (kv.1 % 4096 - 0x040) / 4
        let n := if kv.2.toNat = 2 ^ 31 + 1 then clockCycles (p.block.clock (p.die == 8)) old s.clk.fcBase else 1
        s.bump (p.base + 0x060 + 8 * i) n
      | none => s

/-! The boundary -/

/-- VC2 packets that wait for tokens are counted up to the boundary (R135). -/
def State.countHolds (s : State) : State :=
  let held := (s.sw.ports.filter fun kv => kv.2.vc2Wait.isSome).map Prod.fst
  let queued := (s.sw.egress.filter fun x => x.vc == 2).map EgPkt.port
  s.each (held ++ queued).eraseDups State.countHold

/-- Suspensions lift (R39, R383). -/
def State.liftCalendars (s : State) : State :=
  if s.sys.tripped then s
  else s.setCalSt fun c => { c with
    ports := c.ports.map fun kv => (kv.1, if kv.2.lifting then { kv.2 with suspended := false, lifting := false } else kv.2) }

/-- Port resets act (R371). -/
def State.actPortResets (s : State) : State :=
  s.each ((s.sw.ports.filter fun kv => kv.2.resetting.isSome).map Prod.fst) State.resetPortNow

/-- A context reset reaches its boundary T (R370): LULL, and the snapshot starts. -/
def State.beginReset (s : State) (c : Nat) : State :=
  let slots := (s.col.slots.filter fun x => x.ctx == c).map Slot.desc
  let s := (s.enterLull c).setCtx c fun x => { x with resetBegun := true }
  s.startSnap 0x0010 (some c) slots false []

/-- Context resets act. -/
def State.actCtxResets (s : State) : State :=
  s.each ((s.col.ctxs.filter fun kv => kv.2.resetting.isSome && !kv.2.resetBegun).map Prod.fst) State.beginReset

/-- An armed bandwidth window starts at its tick (R391). -/
def State.startWindow (s : State) : State :=
  if s.fget (telReg 0x210) 1 0 = 1 ∧ s.clk.tick = s.sys.bwStart then
    (s.rset (telReg 0x210) 2).setSys fun y => { y with bwFrom := some s.clk.up, bw := [] }
  else s

/-- Carriers of the twin link: home carriers, and λ8 from Stage C. -/
def State.twinCarriers (s : State) : List (Nat × Nat) :=
  ((twinLanes.map homeOf) ++ (if s.atStage 2 then [(288, 8), (289, 8)] else [])).filter fun c =>
    s.txRing c.1 c.2 == RingState.locked

/-- Blocks of the twin lanes, at ticks that are multiples of 4 (R31, R35); they carry no marker. -/
def State.twinBlocks (s : State) : State :=
  if s.atStage 1 && s.tick % 4 == 0 then
    s.each s.twinCarriers fun s c =>
      let r := s.nextReport 32
      r.1.send (.tag c.1 c.2 (r.1.tagBlock (s.tagLane c.1 c.2) c.1 c.2 false (0, 0, 0) r.2))
  else s

/-- Spill and refill may move their share again (R94). -/
def State.freshTick (s : State) : State :=
  s.setSw fun w => { w with dies := w.dies.map fun kv => (kv.1, { kv.2 with ovfMoved := 0 }) }

/-- What a boundary does on a chip that works. -/
def State.boundary (s : State) : State :=
  let s := s.countHolds.freshTick.applyRole.liftCalendars.actPortResets.actCtxResets
  (s.chooseBanks.countBankWaits.twinTick).startWindow.twinBlocks

/-- A warm reset starts 1 µs after its reply (R373): at the third boundary. -/
def State.warmDue (s : State) : Bool :=
  match s.sys.warmPending with
  | some u => decide (u + 3 ≤ s.clk.up)
  | none => false

/-- One tick passes. After a fatal cause nothing works but the clocks (R375). -/
def tickPass (s : State) : State :=
  let old := s.clk.fcBase
  let t := if s.fatal then s else s.countGrants
  let t := t.advanceClocks.countCycles old
  let t := if t.warmDue then t.warmReset else if t.fatal then t else t.boundary
  { settle t with pending := s.pending }

end Sys2Proof.Machine
end

