-- ==== Sys2Proof/Machine/Step.lean ====
section
/-! DEFINITION. One step of the block: the command at the front of the queue, or, on an empty queue,
the passing of one tick. -/

namespace Sys2Proof.Machine

/-- One step. On an empty queue one tick passes (DESIGN CHOICE: notes/assumptions). -/
def step (s : State) : Host.Outcome State Fault Refusal :=
  match s.pending with
  | [] => .next (tickPass s)
  | c :: rest => exec c { s with pending := rest }

/-- The command a table word spells, put at the front of the queue. The table gives no row any bits,
so no word spells a command and the state is unchanged. -/
def State.withFetchWord (s : State) (nbits w : Nat) : State :=
  match Sys2Proof.decodeTableWord nbits w with
  | some c => { s with pending := c :: s.pending }
  | none => s

end Sys2Proof.Machine
end

