-- ==== Sys2Proof/Safety.lean ====
section
/-! DEFINITION. The terms in which claims are stated: pins that follow the state, and the parts of the state that a
command may change. -/

namespace Sys2Proof.Machine

/-- The pins stand as the state says (R407, R408, R419). -/
def Settled (s : State) : Prop :=
  s.sys.pgOut = !s.sys.thermalLatch
    ∧ s.sys.tempAlertN = !(s.tjWarned 0 || s.tjWarned 1 || s.tjWarned 2 || s.tjWarned 3 || s.sys.tripped)
    ∧ s.sys.elsEn = (decide (1 ≤ s.sys.stage) && !s.fatal)

/-- The parts of the state beside the queue of commands. -/
inductive Part where
  | regs | hbm | clk | cal | sw | tbl | pho | mgmt | fuse | col | twin | aer | flt | dump | sys | out
  deriving DecidableEq, Repr

/-- The system part without its pins, which follow the state by themselves. -/
def SysSt.unpinned (y : SysSt) : SysSt := { y with pgOut := true, tempAlertN := true, elsEn := false }

/-- Two states agree in a part. -/
def Part.Same : Part → State → State → Prop
  | .regs, s, t => t.regs = s.regs
  | .hbm, s, t => t.hbm = s.hbm
  | .clk, s, t => t.clk = s.clk
  | .cal, s, t => t.cal = s.cal
  | .sw, s, t => t.sw = s.sw
  | .tbl, s, t => t.tbl = s.tbl
  | .pho, s, t => t.pho = s.pho
  | .mgmt, s, t => t.mgmt = s.mgmt
  | .fuse, s, t => t.fuse = s.fuse
  | .col, s, t => t.col = s.col
  | .twin, s, t => t.twin = s.twin
  | .aer, s, t => t.aer = s.aer
  | .flt, s, t => t.flt = s.flt
  | .dump, s, t => t.dump = s.dump
  | .sys, s, t => t.sys.unpinned = s.sys.unpinned
  | .out, s, t => t.out = s.out

/-- Only the named parts of the state may differ; the queue of commands never does. -/
def OnlyTouches (l : List Part) (s t : State) : Prop := t.pending = s.pending ∧ ∀ p, p ∉ l → p.Same s t

/-- The parts of the state that a command may change at all. A command that writes a register may reach any part. -/
def mayTouch : Instr → List Part
  | .stageAReached .. =>
    [.sys]
  | .calArmedLatch =>
    [.cal]
  | .creditBlockRx .. | .dtdCreditReturn .. =>
    [.sw]
  | .macAgeSweep =>
    [.tbl]
  | .slotRefill .. =>
    [.col]
  | .sessionIdleTimeout .. | .mgmtLinkDown .. | .mgmtLinkUp .. =>
    [.mgmt]
  | .echoLost .. =>
    [.regs, .clk]
  | .waitLimitExpiry .. =>
    [.clk, .sw]
  | .carrierNoLight .. =>
    [.regs, .pho]
  | .lossSegmentCheck .. =>
    [.regs, .aer]
  | .creditBlockTx .. =>
    [.sw, .out]
  | .pktSpill .. | .pktRefill .. =>
    [.regs, .sw]
  | .learnRelayApply =>
    [.regs, .tbl]
  | .transferAbandon .. =>
    [.regs, .mgmt]
  | .portUpDetect .. =>
    [.sw, .pho]
  | .coreRecovered .. =>
    [.regs, .flt]
  | .fatalError .. | .supplyFault .. =>
    [.pho, .dump]
  | .twinHeartbeatTx =>
    [.regs, .out]
  | .ptpMessageTx .. =>
    [.clk, .out]
  | .ptpMessageRx .. =>
    [.clk, .sys, .out]
  | .calEntryRewrite .. =>
    [.regs, .cal, .aer]
  | .kiteSettled =>
    [.regs, .cal, .pho]
  | .kiteMonitorSample .. =>
    [.regs, .mgmt, .aer]
  | .laneTagBlockTx .. =>
    [.clk, .pho, .out]
  | .keepaliveTx .. =>
    [.clk, .sw, .out]
  | .tableEntryRewrite .. =>
    [.regs, .tbl, .aer]
  | .windsockSample =>
    [.regs, .hbm, .sys]
  | .dumpRead .. | .attest .. | .sessionClose .. | .hcpFrameRefused .. =>
    [.regs, .mgmt, .out]
  | .healthRecoverInterval =>
    [.regs, .col, .flt]
  | .twinReleasedRx .. =>
    [.regs, .col, .twin]
  | .twinStepDigestRx .. =>
    [.regs, .col, .out]
  | .twinFrameResend .. =>
    [.regs, .twin, .out]
  | .aerWrite =>
    [.regs, .hbm, .aer]
  | .fatalDumpComplete .. =>
    [.hbm, .dump, .sys]
  | .firmwareVerify .. | .patrolScrub .. | .tjWarn .. | .bwWindowEnd =>
    [.regs, .mgmt, .aer, .sys]
  | .calLoad .. =>
    [.regs, .cal, .mgmt, .out]
  | .epochSwitch | .kitePrepare =>
    [.regs, .cal, .mgmt, .aer]
  | .elsModuleInserted .. | .biasUpdate .. =>
    [.regs, .pho, .mgmt, .aer]
  | .ethFrameEnd .. =>
    [.regs, .clk, .sw, .sys]
  | .cellTimeMatch .. =>
    [.regs, .clk, .sw, .col]
  | .twinCtxAcceptTimeout .. | .progLoad .. | .progInstallComplete .. | .hcpRead .. | .bulkRead .. =>
    [.regs, .mgmt, .col, .out]
  | .tileIssue .. | .tileComplete .. | .tileRerun .. | .uuBistComplete .. =>
    [.regs, .mgmt, .col, .aer]
  | .uuInvocationIssue .. | .twinRecordRx .. | .twinAckRx .. =>
    [.regs, .col, .twin, .out]
  | .tickMarkerRx .. | .upstreamMarkerTimeout .. | .holdoverExpiry =>
    [.regs, .clk, .cal, .mgmt, .aer]
  | .calInstallComplete =>
    [.regs, .cal, .mgmt, .sys, .out]
  | .grantedSubslot .. | .leftoverOpportunity .. | .cutThroughStart .. =>
    [.regs, .clk, .sw, .sys, .out]
  | .cellRx .. | .reseqTimeout .. | .cutThroughTruncate .. =>
    [.regs, .clk, .sw, .col, .out]
  | .lpmInsert .. | .lpmDelete .. | .lpmModify .. | .lpmRead .. | .lpmShiftDone | .nhWrite .. | .nhRead .. |
    .mcWrite .. | .mcRead .. | .macInsert .. | .macDelete .. | .search .. | .macNext .. | .flushByPort .. |
    .flushSweepDone | .vlanWrite .. | .vlanRead .. =>
    [.regs, .tbl, .mgmt, .sys, .out]
  | .ctxLullDrained .. =>
    [.regs, .mgmt, .col, .aer, .out]
  | .engBistComplete .. =>
    [.regs, .mgmt, .fuse, .col, .aer]
  | .sessionOpen .. =>
    [.regs, .mgmt, .aer, .sys, .out]
  | .tjRecover .. =>
    [.regs, .cal, .mgmt, .aer, .sys]
  | .twinCtxConfigRx .. | .twinCopyRx .. =>
    [.regs, .hbm, .col, .twin, .out]
  | .twinCtxAcceptRx .. =>
    [.regs, .hbm, .mgmt, .col, .out]
  | .twinCopyEndRx .. | .twinAttachTimeout .. =>
    [.regs, .mgmt, .col, .twin, .aer]
  | .dtdLaneBelowSensitivity .. =>
    [.regs, .sw, .pho, .mgmt, .aer]
  | .snapshotComplete =>
    [.regs, .hbm, .col, .dump, .sys]
  | .stageDReached .. =>
    [.regs, .mgmt, .fuse, .col, .aer, .sys]
  | .ctxLullBegin .. | .ctxResetAborts .. | .startRetryTimeout .. | .stepTimeout .. =>
    [.regs, .sw, .tbl, .mgmt, .col, .aer]
  | .hbmRetrain .. =>
    [.regs, .pho, .mgmt, .aer, .dump, .sys]
  | .stringAccessTimeout .. =>
    [.regs, .pho, .mgmt, .aer, .dump, .out]
  | .doldrumsScan =>
    [.regs, .mgmt, .col, .aer, .flt, .dump]
  | .twinHeartbeatRx .. | .twinProofRx .. | .twinChunkDigestsRx .. =>
    [.regs, .mgmt, .col, .twin, .aer, .out]
  | .ctxEnableComplete .. | .resultRelease .. =>
    [.regs, .sw, .tbl, .mgmt, .col, .aer, .out]
  | .contribCellRx .. =>
    [.regs, .clk, .sw, .tbl, .mgmt, .col, .aer]
  | .portDownDetect .. | .fenceHeldRejudge =>
    [.regs, .sw, .mgmt, .col, .aer, .flt, .out]
  | .twinHbCheck | .twinHandoverRx .. =>
    [.regs, .sw, .tbl, .mgmt, .col, .twin, .aer]
  | .twinHelloRx .. =>
    [.regs, .mgmt, .col, .twin, .aer, .sys, .out]
  | .laneMoveEffect .. | .moveRequestTimeout .. | .feedEvent .. | .elsModuleRemoved .. | .ringSweepEnd .. |
    .ringCaptureEnd .. | .ringLoopError .. | .ringFailRetry .. | .ethMarkerMismatch .. | .portDrained .. |
    .laneTagBlockMissing .. | .elsRestoreComplete .. =>
    [.regs, .sw, .pho, .mgmt, .col, .aer, .flt, .out]
  | .slotDeadline .. =>
    [.regs, .sw, .tbl, .mgmt, .col, .aer, .flt, .out]
  | .uuInvocationEnd .. =>
    [.regs, .hbm, .mgmt, .col, .twin, .aer, .sys, .out]
  | .hbmUe .. =>
    [.regs, .sw, .tbl, .mgmt, .col, .twin, .aer, .sys]
  | .tjTrip .. =>
    [.regs, .cal, .sw, .tbl, .mgmt, .col, .aer, .sys]
  | .stageBReached | .refclkRelock .. =>
    [.regs, .sw, .pho, .mgmt, .col, .aer, .flt, .sys, .out]
  | .kiteSwitch | .kiteCircuitLit =>
    [.regs, .cal, .sw, .pho, .mgmt, .col, .aer, .flt, .out]
  | .headerTaken .. =>
    [.regs, .clk, .sw, .tbl, .mgmt, .col, .aer, .flt, .out]
  | .stageCReached .. =>
    [.regs, .hbm, .sw, .pho, .mgmt, .col, .aer, .flt, .sys, .out]
  | .packetTrailerRx .. =>
    [.regs, .clk, .sw, .tbl, .mgmt, .col, .aer, .flt, .sys, .out]
  | .refclkLoss .. =>
    [.regs, .sw, .pho, .mgmt, .col, .aer, .flt, .dump, .sys, .out]
  | .laneTagBlockRx .. =>
    [.regs, .clk, .cal, .sw, .pho, .mgmt, .col, .twin, .aer, .flt, .out]
  | .watchdogExpiry .. =>
    [.regs, .cal, .tbl, .pho, .mgmt, .col, .aer, .flt, .dump, .sys, .out]
  | .coldReset .. | .warmReset .. | .tickRoleWrite .. | .calDisarm .. | .calResume .. | .kiteRelease .. |
    .elsRestore .. | .resweep .. | .shaperCfgWrite .. | .ctxEnable .. | .ctxDisable .. | .ctxStateFree .. |
    .ctxReset .. | .kbankValidSet .. | .kbankClear .. | .engUngate .. | .engGate .. | .engRelease .. | .engBist .. |
    .engRepairWrite .. | .uuRelease .. | .uuBist .. | .stateSplitWrite .. | .hcpWrite .. | .rmw .. | .bulkWrite .. |
    .hcp1Blow .. | .svnCommit .. | .keyEnroll .. | .keyRevoke .. | .secLock .. | .registerWrite .. | .portEnable ..
  | .portDisable .. | .portFence .. | .portUnfence .. | .portReset .. | .portModeWidthWrite .. | .portCreditWrite
    .. | .laneReset .. | .dumpTrigger .. | .thermalShutdown .. | .twinPair .. | .twinDetach .. | .twinResync .. |
    .bwWindowStart .. | .bwWindowStop .. | .aerSelect .. =>
    [.regs, .hbm, .clk, .cal, .sw, .tbl, .pho, .mgmt, .fuse, .col, .twin, .aer, .flt, .dump, .sys, .out]

/-! Moments of the switching path -/

/-- The state in which an arriving header is judged: time has moved to its FC cycle, the event is counted (R387), and the
packet has its number. -/
def State.atHeader (s : State) (p : Nat) (fc : FcCycle) : State := (((s.atFc fc).pmc (clReg (p / 64) 0) 0x102 1).newPkt).1

/-- The state in which a leftover opportunity is judged: time has moved, and waits for VC2 tokens are counted (R135). -/
def State.atChance (s : State) (p : Nat) (fc : FcCycle) : State := (s.atFc fc).countHold p

/-- The state in which a granted sub-slot begins. -/
def State.atSub (s : State) (sub : Fin 4) : State := { s with clk := { s.clk with fc := max s.clk.fc (160 * sub.val) } }

/-! Requests -/

/-- The tag's entry while a request is in flight. -/
def flightOf (q : Req) (opcode : Nat) (body : Bytes) : InFlight :=
  { req := q, opcode := opcode, bodyLen := body.length, bodyCrc := crc32c body }

/-- A request passes the checks of R290 that come before its opcode: its port answers, no check discards it, the control
core that serves it runs, and it is no retry whose reply is kept. -/
structure TakenUp (s : State) (q : Req) (opcode : Nat) (body : Bytes) : Prop where
  answers : s.answers q = true
  passes : s.discards q body.length (requestBytes q opcode body) = none
  runs : s.mc0Stopped opcode = false
  fresh : s.cachedFor (flightOf q opcode body) = none

/-- The state as a request finds it once its tag is in flight. -/
def taken (s : State) (q : Req) (opcode : Nat) (body : Bytes) : State := s.accept (flightOf q opcode body)

/-- One reply has left, to the port and transport of the request: RESULT and DETAIL as answered, and the body (R288, R289,
R297). Its tag is no longer in flight. -/
def Answered (s t : State) (q : Req) (op : Nat) (a : Answer) : Prop :=
  (∃ seq status mac, t.out = .reply q.port q.via (replyFrame q op seq status (replyFlags q false) a.detail a.body ++ mac) :: s.out
      ∧ status % 256 = a.code.num)
    ∧ ∀ g ∈ t.mgmt.inFlight, ¬(g.req.port = q.port ∧ g.req.tag = q.tag)

/-- The body of a 32-bit WRITE of a register. -/
def regBody (addr v : Nat) : Bytes := writeBody ⟨BitVec.ofNat 32 addr, 1⟩ (BitVec.ofNat 64 v)

/-- A 32-bit WRITE of a register by an ADMIN source, from Stage B upward, on a page that is not marked hung. -/
structure Commanded (s : State) (q : Req) (addr v : Nat) : Prop where
  taken : TakenUp s q 0x02 (regBody addr v)
  admin : s.isAdmin q = true
  stage : 1 ≤ s.serveStage
  reach : ∀ p, pageOf addr = some p → s.pageHung p = false

/-! Terms of single statements -/

/-- A word keeps the MODE and WIDTH of a port and sets at most one command bit of PORT.CTRL, bit `b` (R61, R313, R321). -/
def keepsPort (s : State) (p v b : Nat) : Prop :=
  bits v 9 8 = s.widthCode p ∧ bits v 5 4 = s.mode p ∧ s.widthCode p ≤ 2 ∧ s.mode p ≤ 2
    ∧ widthFits p (s.widthCode p) = true ∧ ∀ c ∈ [0, 1, 2, 3, 6], c ≠ b → bits v c c = 0

/-- The parts of the state a ring's event may reach. -/
def ringParts : List Part := [.regs, .sw, .pho, .mgmt, .col, .aer, .flt, .out]

/-- Where a lane stands, beside its state: the carriers of its two directions, and what is due for it. -/
def State.placed (s : State) (l : Nat) : Option (Nat × Nat) × Option (Nat × Nat) × Bool × Option (Option (Nat × Nat)) × Bool :=
  let x := s.lane l
  (x.tx, x.rx, x.withdrawn, x.moving, x.resetDue)

/-- A feed of a used pair that is lit: Stage B or later, its module not at eye-safe idle, and its light not lost. -/
def State.feedLit (s : State) (q : Nat) (b : Bool) : Prop :=
  reservePair q = false ∧ s.feedLost q b = false ∧ s.atStage 1 = true ∧ (s.els (feedModule q b)).safeIdle = false

/-- What the receiver has heard last on a carrier, beside its judgement of it: blocks missing in a row, CHIP_ID, power, and the runs of wrong
wavelengths, of right ones and of low margins. -/
def State.heard (s : State) (f w : Nat) : Nat × BitVec 64 × Int × Nat × Nat × Nat :=
  let c := s.carrier f w
  (c.missing, c.chip, c.power, c.mismatch, c.heldGood, c.low)

/-- The carrier is listened to: in Stage B or later, its receive ring locked or holding, its fiber one with lane-tag blocks. -/
def State.listens (s : State) (f w : Nat) : Prop :=
  s.atStage 1 = true ∧ (s.rxRing f w = .locked ∨ s.rxRing f w = .hold) ∧ s.fiberFabric f = true

/-- The parts of the state a received lane-tag block may reach. -/
def tagParts : List Part := [.regs, .clk, .cal, .sw, .pho, .mgmt, .col, .twin, .aer, .flt, .out]

/-- The tables as a command of an operation finds them: MAC commands come after every learn that waits in the relay (R124). -/
def State.relayedFor (s : State) (op : Nat) : State := if opTable op = 3 then s.relayDrain else s

/-- A table command that is taken up, comes from ADMIN at Stage B or later, finds no other running, and passes the checks of R425. -/
structure TableTaken (s : State) (q : Req) (op : Nat) (b : TblBlock) : Prop where
  taken : TakenUp s q 0x06 (TblBlock.body op b)
  admin : s.isAdmin q = true
  stage : 1 ≤ s.serveStage
  idle : s.tbl.busy = none
  judged : (s.relayedFor op).tableJudge op b = none

/-- The reply block of a table command that was carried out (R110). -/
def tableAns (op index detail gen : Nat) (data : Bytes) : Answer :=
  { code := .ok, body := beBytes 1 op ++ beBytes 1 Code.ok.num ++ beBytes 2 data.length ++ beBytes 4 gen ++ beBytes 4 index ++ beBytes 4 detail ++ data }

/-- The parts of the state a table command may reach. -/
def tableParts : List Part := [.regs, .tbl, .mgmt, .sys, .out]

/-- A table command runs, no other waits behind it, and its reply can leave. -/
def State.tableEnding (s : State) (j : TblJob) : Prop :=
  s.tbl.busy = some j ∧ s.tbl.waiting = [] ∧ s.mgmt.inFlight.contains j.fly = true ∧ s.portUp j.fly.req.port = true

/-- An intact frame of a type comes over a twin link that is up, with this payload (R335). -/
def State.twinHears (s : State) (type : Nat) (frame p : Bytes) : Prop :=
  s.twinUp = true ∧ s.fatal = false ∧ twinPayload type frame = some p

/-- A frame received over the twin link has been counted (R401). -/
def State.twinCounted (s : State) (frame : Bytes) : State := s.pmc (twinReg 0) 0x101 frame.length

/-- A COPY_END has been noted (R340). -/
def State.copyEnded (s : State) (p : Bytes) : State :=
  s.setTwin fun t => { t with
    copyIn := { (s.twin.copyIn.find? fun x => x.ctx == byteAt p 0 && x.range == byteAt p 1).getD { ctx := byteAt p 0, range := byteAt p 1 } with
        ended := some (fld p 4 4, BitVec.ofNat 64 (fld p 8 8)) } ::
      t.copyIn.filter fun x => !(x.ctx == byteAt p 0 && x.range == byteAt p 1) }

/-- The chunk digests heard once a frame of them has been noted (R271). -/
def State.digestsHeard (s : State) (p : Bytes) : List (Nat × Nat × Nat × BitVec 64) :=
  s.twin.heardChunks ++ ((List.range (fld p 8 4)).map fun i =>
    (byteAt p 0, fld p 2 2, fld p 4 4 + i, BitVec.ofNat 64 (fld p (12 + 8 * i) 8))).filter fun g => !s.twin.heardChunks.contains g

end Sys2Proof.Machine
end

