-- ==== Sys2Proof/Certificates/Slice0/Obligations.lean ====
section
/-! DEFINITION. What is to be proved of the block. Every statement about a command says that `exec` answers a next state,
what that state holds, and which parts of the state it leaves alone; the hypotheses are on the state and the operands. -/

open Sys2Proof Sys2Proof.Machine

/-- A step with commands waiting is the front command's effect on the state with the rest of the queue. -/
def Obligations.StepRunsFrontCommand : Prop :=
  ∀ (c : Instr) (q : List Instr) (s : State), s.pending = c :: q → step s = exec c { s with pending := q }

/-- Every command completes in every state, and leaves the queue as it was. -/
def Obligations.EveryCommandCompletes : Prop :=
  ∀ (c : Instr) (s : State), ∃ t, exec c s = .next t ∧ t.pending = s.pending

/-- A command changes no part of the state but those that `mayTouch` names for it. -/
def Obligations.CommandsKeepToTheirParts : Prop :=
  ∀ (c : Instr) (s t : State), exec c s = .next t → OnlyTouches (mayTouch c) s t

/-- The pins follow the state after every step: PG_OUT is low exactly while thermal shutdown is latched, TEMP_ALERT_N is
low exactly while a TJ_WARN is set or a trip is in force, and the laser enables are high exactly from Stage B without a
fatal cause (R407, R408, R419). -/
def Obligations.PinsFollowTheState : Prop :=
  ∀ s t : State, step s = .next t → Settled t

/-- The pins stand as the state says right after reset. -/
def Obligations.ResetPinsStand : Prop := Settled State.reset

/-- Every step keeps HBM in its canonical form: addresses strictly rise below the size of HBM, and no cell is listed that
holds what an unlisted one reads as (the list is the model's own; what an unlisted byte reads as is a DESIGN CHOICE). -/
def Obligations.StepsKeepHbmCanonical : Prop :=
  ∀ s t : State, Memory.wf s.hbm = true → step s = .next t → Memory.wf t.hbm = true

/-- HBM is canonical right after reset. -/
def Obligations.ResetHbmCanonical : Prop := Memory.wf State.reset.hbm = true

/-- HBM as a memory: bytes stored are read back, and every other byte reads as before. -/
def Obligations.HbmReadsBack : Prop :=
  ∀ (s : State) (a : Nat) (b : Bytes), Memory.wf s.hbm = true → b.length ≤ hbmSize →
    (∀ i, i < b.length → (s.hwrite a b).hget (a + i) = b.getD i 0)
    ∧ ∀ k, (∀ i, i < b.length → (a + i) % hbmSize ≠ k % hbmSize) → (s.hwrite a b).hget k = s.hget k

/-- R40: 48-bit serial comparison of tick numbers. -/
def Obligations.TicksCompareSerially : Prop :=
  ∀ a b : TickNo, tickAfter a b = true ↔ 1 ≤ (a.toNat + 2 ^ 48 - b.toNat) % 2 ^ 48 ∧ (a.toNat + 2 ^ 48 - b.toNat) % 2 ^ 48 ≤ 2 ^ 47 - 1

/-- R217: a column holds the exact sum of its products whatever order they entered in, and a product of value 0 adds
nothing. -/
def Obligations.ColumnsSumExactly : Prop :=
  (∀ ps : List Val, (∀ p ∈ ps, ∃ n s e, p = .fin n s e) → (Column.ofProducts ps).acc = (ps.map accTerm).sum)
  ∧ (∀ ps qs : List Val, ps.Perm qs → Column.ofProducts ps = Column.ofProducts qs)
  ∧ ∀ (c : Column) (n : Bool) (e : Int), (c.add (.fin n 0 e)).acc = c.acc

/-- R408: TEMP_ALERT_N is low exactly while a TJ_WARN of any die is set or a trip is in force. -/
def Obligations.TempAlertFollows : Prop :=
  ∀ s t : State, step s = .next t →
    (t.sys.tempAlertN = false ↔ (∃ d, d < 4 ∧ t.bget (fdReg d 0x010) 16 = true) ∨ t.sys.tripped = true)

/-- On an empty queue a tick passes (the model's choice). After a fatal cause, and while no warm reset is due, nothing but
the clocks and the cycle counters moves. -/
def Obligations.FatalTicksOnlyCount : Prop :=
  ∀ s : State, s.pending = [] → s.fatal = true → s.sys.warmPending = none →
    ∃ t, step s = .next t ∧ t.clk.up = s.clk.up + 1 ∧ t.clk.tick = s.clk.tick + 1 ∧ t.clk.fc = 0 ∧ OnlyTouches [.regs, .clk] s t

/-- On an empty queue a warm reset acts at the third tick boundary after it was asked for (R373): fuses, field repairs,
straps, and the bytes of META and DUMP stay; every register is at its reset value; the stages start over. -/
def Obligations.WarmResetActs : Prop :=
  ∀ (s : State) (u : Nat), s.pending = [] → s.sys.warmPending = some u → u + 2 ≤ s.clk.up → s.dump.held = false →
    ∃ t, step s = .next t ∧ t.pending = [] ∧ t.regs = [] ∧ t.hbm = hbmFrom 126 s.hbm ∧ t.fuse = s.fuse ∧ t.out = s.out
      ∧ t.sys.straps = s.sys.straps ∧ t.sys.lastReset = 1 ∧ t.sys.stage = 0 ∧ t.sys.warmPending = none
      ∧ t.col = {} ∧ t.sw = {} ∧ t.tbl = {} ∧ t.mgmt.inFlight = []

/-- Registers that the spec gives a reset value other than 0, on every page of their block. -/
def Obligations.ResetValues : Prop :=
  State.reset.rget (glbReg 0x10C) = 0xB80088B5 ∧ State.reset.rget (glbReg 0x108) = 0x168
  ∧ (∀ p : PortNo, State.reset.rget (portReg p.val 0x108) = 0x01000408 ∧ State.reset.rget (portReg p.val 0x114) = 256
      ∧ State.reset.rget (calReg p.val 0x11C) = 8 ∧ State.reset.rget (calReg p.val 0x120) = 12500)
  ∧ (∀ c : CtxNo, State.reset.rget (ctxReg c.val 0x114) = 25000 ∧ State.reset.rget (ctxReg c.val 0x4C0) = 255
      ∧ State.reset.rget (ctxReg c.val 0x100) = 0x00018110)
  ∧ (∀ e : EngineNo, State.reset.engState e.val = 4)
  ∧ State.reset.rget (tickReg 0x108) = 2500 ∧ State.reset.rget (telReg 0x100) = 25 ∧ State.reset.rget (twinReg 0x100) = 0x800

/-- R10, R11, R292, R301, R317: WRITE, RMW, BULK_WRITE, READ and BULK_READ. A WRITE of a register whose one field is RW and
whose page keeps it plainly stores the field; RMW changes the bits of its mask and answers the old value; a bulk access
goes through its words in ascending order. The last four are stated on the words of GLB.HCP_IPV6. -/
def Obligations.RegisterAccess : Prop :=
  ∀ (s : State) (q : Req),
    (∀ (p : Page) (o : Nat) (r : RegDef) (f : Field) (v : Word), p.exists_ = true →
        p.block ∈ [.cd, .fd, .hbm, .pbl, .uu, .cal] → regAt p.block (p.die == 8) o = some r → r.off = o → r.wide = false →
        r.fields = [f] → fieldsFor p r = r.fields → f.kind = .rw → f.hi < 32 → f.admits (bits v.toNat f.hi f.lo) = true →
        o < 4096 → o % 4 = 0 → 0x100 ≤ o → s.idlePage p = false → Commanded s q (p.base + o) v.toNat →
      ∃ t, exec (.registerWrite q ⟨BitVec.ofNat 32 (p.base + o), 1⟩ (BitVec.ofNat 64 v.toNat)) s = .next t
        ∧ t.fget (p.base + o) f.hi f.lo = bits v.toNat f.hi f.lo ∧ OnlyTouches [.regs, .mgmt, .out] s t)
    ∧ (∀ (i : Fin 4) (v : Word), Commanded s q (glbReg (0x120 + 4 * i.val)) v.toNat →
      ∃ t, exec (.hcpWrite q ⟨BitVec.ofNat 32 (glbReg (0x120 + 4 * i.val)), 1⟩ (BitVec.ofNat 64 v.toNat)) s = .next t
        ∧ BitVec.ofNat 32 (t.rget (glbReg (0x120 + 4 * i.val))) = v ∧ OnlyTouches [.regs, .mgmt, .out] s t)
    ∧ (∀ (i : Fin 4) (mask v : Word64),
        TakenUp s q 0x03 (rmwBody ⟨BitVec.ofNat 32 (glbReg (0x120 + 4 * i.val)), 1⟩ mask v) →
        s.isAdmin q = true → 1 ≤ s.serveStage → s.mgmt.hung.contains (glbReg 0) = false →
      ∃ t, exec (.rmw q ⟨BitVec.ofNat 32 (glbReg (0x120 + 4 * i.val)), 1⟩ mask v) s = .next t
        ∧ BitVec.ofNat 32 (t.rget (glbReg (0x120 + 4 * i.val))) =
          (BitVec.ofNat 32 (s.rget (glbReg (0x120 + 4 * i.val))) &&& ~~~mask.setWidth 32) ||| (v.setWidth 32 &&& mask.setWidth 32)
        ∧ Answered s t q 0x03 { code := .ok, body := beBytes 8 (s.rget (glbReg (0x120 + 4 * i.val)) % 2 ^ 32) }
        ∧ OnlyTouches [.regs, .mgmt, .out] s t)
    ∧ (∀ words : List Word, 1 ≤ words.length → words.length ≤ 4 →
        TakenUp s q 0x05 (bulkBody (BitVec.ofNat 32 (glbReg 0x120)) words.length words) →
        s.isAdmin q = true → 1 ≤ s.serveStage → s.mgmt.hung.contains (glbReg 0) = false →
      ∃ t, exec (.bulkWrite q (BitVec.ofNat 32 (glbReg 0x120)) words) s = .next t
        ∧ (∀ (i : Nat) (h : i < words.length), BitVec.ofNat 32 (t.rget (glbReg (0x120 + 4 * i))) = words[i])
        ∧ Answered s t q 0x05 okAns ∧ OnlyTouches [.regs, .mgmt, .out] s t)
    ∧ (∀ (a : Access) (p : Page), a.width = 1 → a.addr.toNat % 4 = 0 → pageOf a.addr.toNat = some p →
        TakenUp s q 0x01 (Access.body a) → s.mayRead q a.addr.toNat 4 = true → 1 ≤ s.serveStage → s.pageHung p = false →
      ∃ t, exec (.hcpRead q a) s = .next t
        ∧ Answered s t q 0x01 { code := .ok, body := beBytes 8 (((taken s q 0x01 (Access.body a)).acked p).wordView q.port p (a.addr.toNat % 4096)) }
        ∧ OnlyTouches [.regs, .mgmt, .col, .out] s t)
    ∧ (∀ n : Fin 4, TakenUp s q 0x04 (bulkBody (BitVec.ofNat 32 (glbReg 0x120)) (n.val + 1) []) →
        s.mayRead q (glbReg 0x120) (4 * (n.val + 1)) = true → 1 ≤ s.serveStage → s.mgmt.hung.contains (glbReg 0) = false →
      ∃ t, exec (.bulkRead q (BitVec.ofNat 32 (glbReg 0x120)) (BitVec.ofNat 16 (n.val + 1))) s = .next t
        ∧ Answered s t q 0x04 { code := .ok, body := beBytes 6 s.tick ++ zeros 2 ++
            (List.range (n.val + 1)).flatMap fun i => beBytes 4 (s.rget (glbReg (0x120 + 4 * i)) % 2 ^ 32) }
        ∧ OnlyTouches [.regs, .mgmt, .col, .out] s t)

/-- R292, R334, R368: DUMP_READ and ATTEST answer what they name. -/
def Obligations.DumpReadAndAttest : Prop :=
  ∀ (s : State) (q : Req) (die : Byte) (off : BitVec 32) (len : BitVec 16) (nonce : Bytes),
    (TakenUp s q 0x09 (dumpBody 0 die off len) → q.hcp1 = false ∨ len.toNat ≤ 4096 → s.isAdmin q = true →
        dumpFits q 0 die.toNat off.toNat len.toNat = true → 1 ≤ s.serveStage → s.hbmOn = true → s.dieHung die.toNat = false →
      ∃ t, exec (.dumpRead q 0 die off len) s = .next t
        ∧ Answered s t q 0x09 { code := .ok, body := s.dumpBytes die.toNat off.toNat len.toNat }
        ∧ OnlyTouches [.regs, .mgmt, .out] s t)
    ∧ (TakenUp s q 0x09 (dumpBody 1 0 off len) → s.isAdmin q = true →
        dumpFits q 1 0 off.toNat len.toNat = true → 1 ≤ s.serveStage →
      ∃ t, exec (.dumpRead q 1 0 off len) s = .next t
        ∧ Answered s t q 0x09 { code := .ok, body := fit len.toNat (s.dump.lastGasp.drop off.toNat) }
        ∧ OnlyTouches [.regs, .mgmt, .out] s t)
    ∧ (TakenUp s q 0x0A (attestBody nonce 0) → q.hcp1 = false → nonce.length = 32 →
      ∃ t, exec (.attest q nonce 0) s = .next t
        ∧ Answered s t q 0x0A (reportPart ((taken s q 0x0A (attestBody nonce 0)).attestReport nonce) 0)
        ∧ OnlyTouches [.regs, .mgmt, .out] s t)

/-- R286, R295, R303, R305, R306, R287, R290: sessions, transfers, links, strings, and frames that carry no opcode. -/
def Obligations.ManagementActs : Prop :=
  ∀ (s : State) (q : Req) (m : MPort),
    (TakenUp s q 0x0B closeBody → inSession q = true →
      ∃ t, exec (.sessionClose q) s = .next t ∧ Answered s t q 0x0B okAns
        ∧ (∀ x ∈ t.mgmt.sessions, x.id = q.session → x.closing = true) ∧ OnlyTouches [.regs, .mgmt, .out] s t)
    ∧ (∀ (id : BitVec 32) (x : Session), id ≠ 0 → s.session id = some x → x.lastUp + 25000000 ≤ s.clk.up →
        (∀ f ∈ s.mgmt.inFlight, f.req.session ≠ id) →
      ∃ t, exec (.sessionIdleTimeout id) s = .next t ∧ (∀ y ∈ t.mgmt.sessions, y.id ≠ id) ∧ OnlyTouches [.mgmt] s t)
    ∧ (∀ (own : XferOwner) (op : Byte) (id : BitVec 16) (x : Transfer), s.transfer own op.toNat id = some x →
        x.lastUp + 2500000 ≤ s.clk.up →
      ∃ t, exec (.transferAbandon own op id) s = .next t ∧ t.transfer own op.toNat id = none
        ∧ t.rget GlbCtr.xferAbandon.reg = satAdd 64 (s.rget GlbCtr.xferAbandon.reg) 1 ∧ OnlyTouches [.regs, .mgmt] s t)
    ∧ (∃ t, exec (.mgmtLinkDown m) s = .next t ∧ t.portUp m = false ∧ OnlyTouches [.mgmt] s t)
    ∧ (s.pho.mclkLost = false → ∃ t, exec (.mgmtLinkUp m) s = .next t ∧ t.portUp m = true ∧ OnlyTouches [.mgmt] s t)
    ∧ (∀ (a : Access) (p : Page), a.width = 1 → a.addr.toNat % 4 = 0 → pageOf a.addr.toNat = some p → p.die ≠ 8 →
        TakenUp s q 0x01 (Access.body a) → s.mayRead q a.addr.toNat 4 = true → 1 ≤ s.serveStage → s.pageHung p = false →
        mgetD s.mgmt.timeouts p.base 0 + 1 < 3 →
      ∃ t, exec (.stringAccessTimeout q .read a) s = .next t ∧ Answered s t q 0x01 { code := .timeout }
        ∧ mgetD t.mgmt.timeouts p.base 0 = mgetD s.mgmt.timeouts p.base 0 + 1 ∧ OnlyTouches [.regs, .mgmt, .out] s t)
    ∧ (∀ (frame : Bytes) (e : BitVec 16), s.sys.serving = true → s.portUp m = true → s.fatal = false →
      ∃ t, exec (.hcpFrameRefused m false e true false true frame) s = .next t
        ∧ t.rget GlbCtr.linkDiscard.reg = satAdd 64 (s.rget GlbCtr.linkDiscard.reg) 1 ∧ OnlyTouches [.regs] s t)
    ∧ (∀ (g : Segment), TakenUp s q 0x07 (Segment.body g) → q.hcp1 = false → s.isAdmin q = true → 2 ≤ s.serveStage →
        segFits 0x07 g = true → s.transfer (ownerOf q) 0x07 g.transfer = none →
        (s.mgmt.transfers.filter fun t => t.port == q.port).length < 2 → g.data.length < g.totalLen.toNat →
      ∃ t x, exec (.calLoad q g) s = .next t ∧ Answered s t q 0x07 { code := .ok, detail := g.data.length }
        ∧ x ∈ t.mgmt.transfers ∧ x.owner = ownerOf q ∧ x.id = g.transfer ∧ x.total = g.totalLen.toNat
        ∧ x.image = g.data ∧ OnlyTouches [.regs, .mgmt, .out] s t)

/-- R304, R305, R306: OPEN opens a session of the role asked for, under a key that holds it. The one outcome left to the
device's random source is a shared secret of zeros, which OPEN refuses with AUTH_FAIL. -/
def Obligations.SessionOpens : Prop :=
  ∀ (s : State) (q : Req) (slot role : Byte) (eph nonce sig : Bytes),
    TakenUp s q 0x0B (openBody slot role eph nonce sig) → q.hcp1 = false → q.session = 0 → eph.length = 32 → nonce.length = 32 →
      sig.length = 64 → slot.toNat < 8 → role = 1 ∨ role = 2 → (s.keySlot false slot.toNat).state = .enrolled →
      (role = 1 → (s.keySlot false slot.toNat).admin = true) →
      edVerify (s.keySlot false slot.toNat).key (ascii "HCP2OPEN" ++ beBytes 8 chipId ++ (openBody slot role eph nonce sig).take 68) sig = true →
      (s.mgmt.sessions.filter fun x => x.port == q.port && !x.closing).length < 8 →
    ∃ t, exec (.sessionOpen q slot role eph nonce sig) s = .next t
      ∧ (x25519 s.draw.2 eph ≠ zeros 32 → (∃ body, Answered s t q 0x0B { code := .ok, body := body })
        ∧ ∃ x ∈ t.mgmt.sessions, x.port = q.port ∧ x.slot = slot.toNat ∧ x.admin = (role == 1) ∧ x.closing = false)
      ∧ (x25519 s.draw.2 eph = zeros 32 → Answered s t q 0x0B { code := .authFail }
        ∧ t.rget GlbCtr.openFail.reg = satAdd 64 (s.rget GlbCtr.openFail.reg) 1)
      ∧ OnlyTouches [.regs, .mgmt, .aer, .sys, .out] s t

/-- R308, R329, R333, R10: what the commands of the SEC page do. -/
def Obligations.SecurityCommandsAct : Prop :=
  ∀ (s : State) (q : Req) (v : Word),
    (Commanded s q (secReg 0x100) 1 → ∃ t, exec (.secLock q) s = .next t ∧ t.secLocked = true
        ∧ OnlyTouches [.regs, .mgmt, .out] s t)
    ∧ (Commanded s q (secReg 0x008) (v.toNat ||| 2) → q.hcp1 = false → bits v.toNat 0 0 = s.fget (secReg 0x008) 0 0 →
      ∃ t, exec (.hcp1Blow q v) s = .next t ∧ t.fuse = { s.fuse with hcp1Fused := true }
        ∧ OnlyTouches [.regs, .mgmt, .out, .fuse] s t)
    ∧ (Commanded s q (secReg 0x210) (v.toNat ||| 1) → q.hcp1 = false →
      ∃ t, exec (.svnCommit q v) s = .next t ∧ t.fuse = { s.fuse with fwSvnMin := max s.fuse.fwSvnMin s.sys.fwSvn }
        ∧ OnlyTouches [.regs, .mgmt, .out, .fuse] s t)
    ∧ (Commanded s q (secReg 0x2C0) (v.toNat ||| 1) → bits v.toNat 1 1 = 0 → s.keyFails (s.writer q none) true = none →
      ∃ t, exec (.keyEnroll q v) s = .next t
        ∧ t.keySlot (bit (s.rget (secReg 0x288)) 8) (bits (s.rget (secReg 0x288)) 2 0) =
          { state := .enrolled, admin := !bit (s.rget (secReg 0x288)) 8 && bit (s.rget (secReg 0x288)) 4, key := s.keyData }
        ∧ OnlyTouches [.regs, .mgmt, .out, .fuse] s t)
    ∧ (Commanded s q (secReg 0x2C0) (v.toNat ||| 2) → bits v.toNat 0 0 = 0 → s.keyFails (s.writer q none) false = none →
      ∃ t, exec (.keyRevoke q v) s = .next t
        ∧ (t.keySlot (bit (s.rget (secReg 0x288)) 8) (bits (s.rget (secReg 0x288)) 2 0)).state = .revoked
        ∧ OnlyTouches [.regs, .mgmt, .out, .fuse] s t)

/-- R34, R39, R57, R158, R172, R345, R366: commands of CAL, KITE, ELS, TICK, DUMP and TWIN. -/
def Obligations.ServiceCommandsAct : Prop :=
  ∀ (s : State) (q : Req) (p : PortNo) (m : Fin 32) (v : Word),
    (Commanded s q (calReg p.val 0x008) 2 → s.leads p.val = true → (s.pcal p.val).armed = true →
        tickAtOrAfter s.clk.tick (BitVec.ofNat 48 (s.rget (calReg p.val 0x110)) - 2) = false →
      ∃ t, exec (.calDisarm q p) s = .next t ∧ (t.pcal p.val).armed = false ∧ t.rget (calReg p.val 0x108) = 0
        ∧ t.rget (calReg p.val 0x110) = 0 ∧ OnlyTouches [.regs, .mgmt, .out, .cal] s t)
    ∧ (Commanded s q (calReg p.val 0x008) 1 → s.leads p.val = true → (s.pcal p.val).stale = true → s.clk.aligned = true →
      ∃ t, exec (.calResume q p) s = .next t ∧ t.pcal p.val = { s.pcal p.val with stale := false, lifting := true }
        ∧ OnlyTouches [.regs, .mgmt, .out, .cal] s t)
    ∧ (Commanded s q (kiteReg 0x008) 1 → s.kiteLull = false →
      ∃ t, exec (.kiteRelease q) s = .next t
        ∧ t.cal.kites = [{ at_ := s.tickPlus 1, map := zeros 32, ports := [], phase := .prepared }]
        ∧ OnlyTouches [.regs, .mgmt, .out, .cal] s t)
    ∧ (Commanded s q (elsReg m.val 0x008) 1 → s.moduleDrained m.val = true → (s.els m.val).present = true →
        (s.els m.val).suitable = true → (s.pho.restoring.any fun r => r.1 == m.val) = false →
      ∃ t f, exec (.elsRestore q m) s = .next t ∧ (m.val, some f) ∈ t.pho.restoring ∧ f.req = q
        ∧ OnlyTouches [.regs, .mgmt, .out, .pho, .sw, .aer] s t)
    ∧ (Commanded s q (tickReg 0x008) v.toNat → bits v.toNat 0 0 ≠ s.fget (tickReg 0x008) 0 0 →
      ∃ t, exec (.tickRoleWrite q v) s = .next t ∧ t.clk = { s.clk with rolePending := true }
        ∧ t.fget (tickReg 0x008) 0 0 = bits v.toNat 0 0 ∧ OnlyTouches [.regs, .mgmt, .out, .clk] s t)
    ∧ (Commanded s q (dumpReg 0x008) 1 → s.hbmOn = true →
      ∃ t, exec (.dumpTrigger q) s = .next t
        ∧ t.dump.snaps = s.dump.snaps ++ [⟨0x0012, none, [], true, [], s.clk.tick, s.ptpNow⟩]
        ∧ OnlyTouches [.regs, .mgmt, .out, .dump] s t)
    ∧ (Commanded s q (twinReg 0x008) 1 → s.twin.state = .idle → s.atStage 3 = true → s.stateSplit = true → s.twinUp = true →
      ∃ t, exec (.twinPair q) s = .next t ∧ t.twin.state = .attach ∧ t.twin.attachUp = s.clk.up
        ∧ OnlyTouches [.regs, .mgmt, .out, .twin, .col, .sys] s t)
    ∧ (Commanded s q (twinReg 0x008) 2 → s.twin.state = .paired →
      ∃ t, exec (.twinDetach q) s = .next t ∧ t.twin.state = .lull ∧ OnlyTouches [.regs, .mgmt, .out, .twin, .col] s t)
    ∧ (Commanded s q (twinReg 0x008) 4 → s.twin.state = .paired ∨ s.twin.state = .solo →
      ∃ t, exec (.twinResync q) s = .next t ∧ t.twin.state = .attach ∧ t.twin.rangeHeld = false
        ∧ t.twin.attachUp = s.clk.up ∧ OnlyTouches [.regs, .mgmt, .out, .twin, .col, .sys] s t)

/-- R324, R329, R173, R283, R235, R406: how the chip is reset, climbs its stages and boots verified firmware. -/
def Obligations.ChipStarts : Prop :=
  ∀ (s : State),
    (∀ (n : Nat) (straps : BitVec 3) (hot : Int) (io : Bool), 25 ≤ n →
      ∃ t, exec (.coldReset n straps hot io) s = .next t ∧ t.pending = s.pending ∧ t.regs = State.reset.regs ∧ t.clk = State.reset.clk
        ∧ t.cal = State.reset.cal ∧ t.sw = State.reset.sw ∧ t.tbl = State.reset.tbl ∧ t.col = State.reset.col ∧ t.twin = State.reset.twin
        ∧ t.aer = State.reset.aer ∧ t.flt = State.reset.flt ∧ t.dump = State.reset.dump ∧ t.hbm = hbmFrom 127 s.hbm
        ∧ t.fuse = { s.fuse with repairs := [] } ∧ t.sys.stage = 0 ∧ t.sys.straps = straps
        ∧ t.sys.lastReset = (if s.sys.thermalLatch && io then 3 else 0)
        ∧ t.sys.thermalLatch = (s.sys.thermalLatch && io && decide (1000 ≤ hot)))
    ∧ (∀ temp : Int, s.sys.serving = false → s.sys.thermalLatch = false → 0 ≤ temp →
      ∃ t, exec (.stageAReached temp) s = .next t ∧ t.sys.serving = true ∧ t.sys.stage = 0 ∧ OnlyTouches [.sys] s t)
    ∧ (∀ a b : Bytes, s.sys.serving = true → s.sys.stage = 0 → s.sys.verified = false → s.sys.straps.getLsbD 2 = false → s.fatal = false →
      ∃ t, exec (.firmwareVerify a b) s = .next t ∧ t.sys.verified = true ∧ OnlyTouches [.regs, .mgmt, .aer, .sys] s t
        ∧ t.sys.slotAValid = (s.fwFails a).isNone ∧ t.sys.slotBValid = (s.fwFails b).isNone
        ∧ (s.fwFails a = none → s.fwFails b ≠ none → t.sys.fwSlot = some 0 ∧ t.sys.fwMeasure = sha512 (fwImage a))
        ∧ (s.fwFails a ≠ none → s.fwFails b = none → t.sys.fwSlot = some 1 ∧ t.sys.fwMeasure = sha512 (fwImage b))
        ∧ (s.fwFails a = none → s.fwFails b = none → t.sys.fwSlot = some (if fwFirst a b then 0 else 1))
        ∧ (s.fwFails a ≠ none → s.fwFails b ≠ none → t.sys.fwSlot = s.sys.fwSlot ∧ t.bget (secReg 0x010) 24 = true))
    ∧ (s.sys.serving = true → s.sys.stage = 0 → s.sys.fwSlot.isSome = true → s.fatal = false →
      ∃ t, exec .stageBReached s = .next t ∧ t.sys.stage = 1 ∧ OnlyTouches [.regs, .sw, .pho, .mgmt, .col, .aer, .flt, .sys, .out] s t
        ∧ ∀ m < 32, (s.els m).present = true → (s.els m).suitable = true → (t.els m).safeIdle = false)
    ∧ (s.sys.serving = true → s.sys.stage = 1 → s.hbmOn = false → s.sys.tripped = false → s.fatal = false → s.clk.aligned = true →
      ∃ t, exec (.stageCReached []) s = .next t ∧ t.sys.stage = 2 ∧ (∀ k < 256, mget t.sys.trained k = some s.clk.up)
        ∧ OnlyTouches [.regs, .hbm, .sw, .pho, .mgmt, .col, .aer, .flt, .sys, .out] s t)
    ∧ (∀ (h : StackNo) (k : Fin 32), s.sys.serving = true → s.sys.stage = 1 → s.hbmOn = false → s.sys.tripped = false → s.fatal = false →
      ∃ t, exec (.stageCReached [(h, k)]) s = .next t ∧ t.sys.stage = 1 ∧ t.bget (hbmReg h.val 0x100) 0 = true
        ∧ t.fget (hbmReg h.val 0x100) 12 8 = k.val ∧ t.bget (hbmReg h.val 0x010) 24 = true ∧ OnlyTouches [.regs, .mgmt, .aer] s t)
    ∧ (s.sys.serving = true → s.sys.stage = 2 → s.sys.tripped = false → s.fatal = false →
      ∃ t, exec (.stageDReached [] []) s = .next t ∧ t.sys.stage = 3 ∧ (∀ e < 128, t.engState e = 0) ∧ (∀ n < 32, t.uuState n = 0)
        ∧ OnlyTouches [.regs, .mgmt, .fuse, .col, .aer, .sys] s t)

/-- R35 to R39: what a marker of the upstream in use does at a follower: its error is measured, and it holds, loses or gains
alignment. -/
def Obligations.TickMarkersAct : Prop :=
  ∀ (s : State) (port : PortNo) (pod : BitVec 16) (count : TickNo) (err : Int) (i : Fin 4),
    s.isMaster = false → s.upstreamOf port.val = some i.val → s.atStage 1 = true → (s.portLanes port.val).any s.laneInService = true →
      pod.toNat = s.fget (tickReg 0x104) 15 0 → s.clk.upstream = some i → (∀ j, j < i.val → s.delivers j = false) →
    ∃ t, exec (.tickMarkerRx port pod count err) s = .next t ∧ t.rget (tickReg 0x140) = wrap 16 (err / 10)
      ∧ t.clk.upstream = some i ∧ t.clk.lastTaken = some s.clk.up ∧ t.clk.holdover = false
      ∧ (s.clk.aligned = true → errGood err = true →
        t.clk.aligned = true ∧ t.clk.tick = s.clk.tick ∧ t.clk.badRun = 0 ∧ (∀ a, a ≠ tickReg 0x140 → t.rget a = s.rget a)
        ∧ OnlyTouches [.regs, .clk] s t)
      ∧ (s.clk.aligned = true → errGood err = false → 15 ≤ s.clk.badRun →
        t.clk.aligned = false ∧ (∀ p, p < 1024 → (t.pcal p).suspended = true)
        ∧ t.rget (tickReg 0x1A8) = satAdd 64 (s.rget (tickReg 0x1A8)) 1
        ∧ OnlyTouches [.regs, .clk, .cal, .mgmt, .aer] s t)
      ∧ (∀ u, s.clk.aligned = false → errGood err = true → mget s.clk.lastValid i.val = some u → s.clk.up ≤ u + 4 → 15 ≤ s.clk.goodRun →
        t.clk.aligned = true ∧ t.clk.everAligned = true ∧ t.clk.tick = count + BitVec.ofNat 48 (s.rget (tickReg (0x130 + 4 * i.val)) / 400000)
        ∧ OnlyTouches [.regs, .clk, .cal] s t)

/-- R37, R38, R80: an upstream that falls silent, the end of the holdover window, and a lost latency echo. -/
def Obligations.TickTimeoutsAct : Prop :=
  ∀ (s : State),
    (∀ (idx : Fin 4) u, mget s.clk.lastValid idx.val = some u → u + 8 ≤ s.clk.up → (∀ j, j ≠ idx.val → s.delivers j = false) →
        s.isMaster = false → s.clk.aligned = true → s.clk.holdover = false → s.holdoverOver = false →
      ∃ t, exec (.upstreamMarkerTimeout idx) s = .next t ∧ mget t.clk.lastValid idx.val = none ∧ t.clk.upstream = none
        ∧ t.clk.holdover = true ∧ t.clk.aligned = true ∧ OnlyTouches [.clk] s t)
    ∧ (s.isMaster = false → s.clk.holdover = true → s.clk.aligned = true → s.holdoverOver = true →
      ∃ t, exec .holdoverExpiry s = .next t ∧ t.clk.aligned = false ∧ t.clk.holdover = false
        ∧ (∀ p, p < 1024 → (t.pcal p).suspended = true) ∧ t.bget (tickReg 0x010) 24 = true
        ∧ t.rget (tickReg 0x1A8) = satAdd 64 (s.rget (tickReg 0x1A8)) 1
        ∧ OnlyTouches [.regs, .clk, .cal, .mgmt, .aer] s t)
    ∧ (∀ e ∈ s.clk.echoes, e.sentUp + 32 ≤ s.clk.up →
      ∃ t, exec (.echoLost e.id) s = .next t ∧ (∀ x ∈ t.clk.echoes, x.id ≠ e.id)
        ∧ (∀ x ∈ s.clk.echoes, x.id ≠ e.id → x ∈ t.clk.echoes)
        ∧ t.rget (tickReg 0x198) = satAdd 64 (s.rget (tickReg 0x198)) 1 ∧ (∀ a, a ≠ tickReg 0x198 → t.rget a = s.rget a)
        ∧ OnlyTouches [.regs, .clk] s t)

/-- R41: the boundary clock notes when the parent's Sync arrived, and a Sync of its own leaves on a port that is not the parent. -/
def Obligations.PtpMessagesAct : Prop :=
  ∀ (s : State) (via : PtpVia) (n : Nat),
    (∀ m : Bytes, 44 ≤ m.length → byteAt m 1 % 16 = 2 → byteAt m 4 = s.fget (tickReg 0x10C) 6 0 → byteAt m 0 % 16 = 0 →
        s.clk.ptpParent = some via →
      ∃ t, exec (.ptpMessageRx via m n) s = .next t ∧ (t.ptpPort via).t2 = some n ∧ (t.ptpPort via).syncSeq = fld m 30 2
        ∧ (∀ v, v ≠ via → t.ptpPort v = s.ptpPort v) ∧ OnlyTouches [.clk] s t)
    ∧ (s.ptpCarries via = true → s.bestMaster.clk.ptpParent ≠ some via →
      ∃ t, exec (.ptpMessageTx via .sync n) s = .next t
        ∧ t.out = .ptp via (s.ptpHeader 0 44 0x0200 (((s.ptpPort via).syncSeq + 1) % 65536) via ++ zeros 10) :: s.out
        ∧ (t.ptpPort via).syncSeq = ((s.ptpPort via).syncSeq + 1) % 65536 ∧ (t.ptpPort via).t1 = some n
        ∧ OnlyTouches [.clk, .out] s t)

/-- R53, R54: the installation of an image of one port section and no Kite event arms that port's shadow and answers OK. -/
def Obligations.ImageInstalls : Prop :=
  ∀ (s : State) (j : CalJob) (rest : List CalJob) (x : Section) (m : Map CalEntry) (off : Nat),
    s.cal.jobs = j :: rest → s.mgmt.inFlight.contains j.fly = true → s.portUp j.fly.req.port = true →
      readSections j.image 64 (fld j.image 20 2) = ([x], off) → fld j.image 22 2 = 0 →
      s.judgeSection x (fld j.image 8 4) (fld j.image 12 6) = .inr m →
    ∃ t, exec .calInstallComplete s = .next t ∧ Answered s t j.fly.req j.fly.opcode { code := .ok } ∧ t.cal.jobs = rest
      ∧ (t.pcal x.port).armed = true ∧ (t.pcal x.port).shadow = m ∧ (t.pcal x.port).active = (s.pcal x.port).active
      ∧ t.rget (calReg x.port 0x108) = fld j.image 8 4 % 2 ^ 64 ∧ t.rget (calReg x.port 0x110) = fld j.image 12 6 % 2 ^ 64
      ∧ (∀ p, p ≠ x.port → t.pcal p = s.pcal p) ∧ OnlyTouches [.regs, .cal, .mgmt, .sys, .out] s t

/-- R58, R351: at EPOCH_TICK − 1 the armed ports are latched; at EPOCH_TICK each latched port's shadow becomes its active
calendar and STALE clears; a read of an entry marks it where it is uncorrectable, and its rewrite takes the mark away. -/
def Obligations.CalendarEventsAct : Prop :=
  ∀ (s : State),
    (∃ t, exec .calArmedLatch s = .next t
      ∧ (∀ p, t.pcal p = if p ∈ s.armedFor (s.tickPlus 1) then { s.pcal p with latched := true } else s.pcal p)
      ∧ OnlyTouches [.cal] s t)
    ∧ (((s.armedFor s.clk.tick).filter fun p => (s.pcal p).latched).Nodup →
        (∀ p ∈ s.armedFor s.clk.tick, p < 1024) →
      ∃ t, exec .epochSwitch s = .next t
        ∧ (∀ p ∈ s.armedFor s.clk.tick, (s.pcal p).latched = true →
          (t.pcal p).active = (s.pcal p).shadow ∧ (t.pcal p).shadow = (s.pcal p).active ∧ (t.pcal p).armed = false
          ∧ (t.pcal p).stale = false ∧ t.rget (calReg p 0x104) = s.rget (calReg p 0x108))
        ∧ (∀ p, (p ∈ s.armedFor s.clk.tick → (s.pcal p).latched = false) → t.pcal p = s.pcal p)
        ∧ OnlyTouches [.regs, .cal, .mgmt, .aer] s t)
    ∧ (∀ (port : PortNo) (shadow : Bool) (idx : BitVec 13),
      (calEntryAt (if shadow then (s.pcal port.val).shadow else (s.pcal port.val).active) idx.toNat).bad = true →
      ∃ t, exec (.calEntryRewrite port shadow idx) s = .next t
        ∧ calEntryAt (if shadow then (t.pcal port.val).shadow else (t.pcal port.val).active) idx.toNat =
          { calEntryAt (if shadow then (s.pcal port.val).shadow else (s.pcal port.val).active) idx.toNat with bad := false }
        ∧ OnlyTouches [.cal] s t)
    ∧ (∀ (port : PortNo) (shadow : Bool) (idx : BitVec 13),
      (calEntryAt (if shadow then (s.pcal port.val).shadow else (s.pcal port.val).active) idx.toNat).bad = false →
      ∃ t, exec (.calEntryRewrite port shadow idx) s = .next t
        ∧ calEntryAt (if shadow then (t.pcal port.val).shadow else (t.pcal port.val).active) idx.toNat =
          { calEntryAt (if shadow then (s.pcal port.val).shadow else (s.pcal port.val).active) idx.toNat with bad := true }
        ∧ (s.aer.queue.length < 4096 → ∃ r ∈ t.aer.queue, r.cause = 0x0801 ∧ r.detail = idx.toNat ∧ r.location = calReg port.val 0)
        ∧ OnlyTouches [.regs, .cal, .aer] s t)

/-- R170, R171: the four moments of a Kite switch, and the monitors of circuits. -/
def Obligations.KiteEventsAct : Prop :=
  ∀ (s : State) (k : KiteEvent),
    (s.kiteDue .armed (s.tickPlus 1) = some k → (∀ f, f < 32 → (kitePartner k.map f).isSome = true → s.fiberOnSpare f = false) →
      ∃ t, exec .kitePrepare s = .next t
        ∧ t.cal.kites = s.cal.kites.map (fun x => if x.at_ = k.at_ then { x with dropped := [], phase := .prepared } else x)
        ∧ OnlyTouches [.cal] s t)
    ∧ (s.kiteDue .armed (s.tickPlus 1) = some k → (∃ f, f < 32 ∧ (kitePartner k.map f).isSome = true ∧ s.fiberOnSpare f = true) →
      ∃ t, exec .kitePrepare s = .next t ∧ t.bget (kiteReg 0x010) 24 = true ∧ t.bget (kiteReg 0x120) 0 = true
        ∧ OnlyTouches [.regs, .cal, .mgmt, .aer] s t)
    ∧ (s.kiteDue .prepared s.clk.tick = some k →
      ∃ t, exec .kiteSwitch s = .next t ∧ t.kiteLull = true
        ∧ t.cal.kites = s.cal.kites.map (fun x => if x.at_ = k.at_ then { x with phase := .switched } else x)
        ∧ OnlyTouches [.regs, .cal, .sw, .pho, .mgmt, .col, .aer, .flt, .out] s t)
    ∧ (s.kiteDue .switched (s.clk.tick - 49) = some k →
      ∃ t, exec .kiteSettled s = .next t
        ∧ (∀ w, w < 8 → t.rget (kiteReg (0x100 + 4 * w)) = beNat (sub k.map (4 * w) 4) % 2 ^ 64)
        ∧ t.cal.kites = s.cal.kites.map (fun x => if x.at_ = k.at_ then { x with phase := .settled } else x)
        ∧ (∀ f, f < 32 → (kitePartner s.kiteMap f).isSome = true → kitePartner k.map f = none → f ∈ t.pho.returning)
        ∧ OnlyTouches [.regs, .cal, .pho] s t)
    ∧ (s.kiteDue .settled (s.clk.tick - 50) = some k →
      ∃ t, exec .kiteCircuitLit s = .next t ∧ t.cal.kites = s.cal.kites.filter (fun x => x.at_ != k.at_)
        ∧ OnlyTouches [.regs, .cal, .sw, .pho, .mgmt, .col, .aer, .flt, .out] s t)
    ∧ (∀ powIn powOut : List Int,
      ∃ t, exec (.kiteMonitorSample powIn powOut) s = .next t
        ∧ (∀ f, f < 32 → (kitePartner s.kiteMap f).isSome = true →
          t.rget (kiteReg (0x180 + 4 * f)) = wrap 16 (powIn.getD f 0) ∧ t.rget (kiteReg (0x200 + 4 * f)) = wrap 16 (powOut.getD f 0)
          ∧ (powIn.getD f 0 < -2000 → s.bget (kiteReg 0x124) f = false → t.bget (kiteReg 0x010) 16 = true))
        ∧ OnlyTouches [.regs, .mgmt, .aer] s t)

/-- R236, R238: what the commands of ENG.CTRL and a write of ENG.REPAIR do to an engine. -/
def Obligations.EngineCommandsAct : Prop :=
  ∀ (s : State) (q : Req) (e : EngineNo),
    (Commanded s q (engReg e.val 0x008) 8 → s.engState e.val = 4 →
      ∃ t, exec (.engUngate q e) s = .next t ∧ t.engState e.val = 2 ∧ t.rget (engReg e.val 0x104) = 0
        ∧ (t.eng e.val).bistUp = s.clk.up ∧ OnlyTouches [.regs, .mgmt, .out, .col] s t)
    ∧ (Commanded s q (engReg e.val 0x008) 4 → s.engState e.val = 0 ∨ s.engState e.val = 3 → s.engNamed e.val = false →
      ∃ t, exec (.engGate q e) s = .next t ∧ t.engState e.val = 4 ∧ OnlyTouches [.regs, .mgmt, .out] s t)
    ∧ (Commanded s q (engReg e.val 0x008) 2 → s.engState e.val = 3 →
      ∃ t, exec (.engRelease q e) s = .next t ∧ t.engState e.val = 2 ∧ t.rget (engReg e.val 0x104) = 0
        ∧ (t.eng e.val).judged = true ∧ OnlyTouches [.regs, .mgmt, .out, .col] s t)
    ∧ (Commanded s q (engReg e.val 0x008) 1 → s.engState e.val = 1 ∨ s.engState e.val = 5 →
      ∃ t, exec (.engBist q e) s = .next t ∧ (t.eng e.val).bistAsked = true ∧ t.engState e.val = s.engState e.val
        ∧ OnlyTouches [.regs, .mgmt, .out, .col] s t)
    ∧ (Commanded s q (engReg e.val 0x008) 1 → s.engState e.val = 0 ∨ s.engState e.val = 3 →
      ∃ t, exec (.engBist q e) s = .next t ∧ t.engState e.val = 2 ∧ (t.eng e.val).bistUp = s.clk.up
        ∧ OnlyTouches [.regs, .mgmt, .out, .col] s t)

/-- R238, R239, R266, R275: an engine's repair map, the commands of UU.CTRL and a write of GLB.HBM_CTRL. -/
def Obligations.UnitCommandsAct : Prop :=
  ∀ (s : State) (q : Req) (n : CoreNo) (e : EngineNo) (v : Word),
    (Commanded s q (uuReg n.val 0x008) 2 → s.uuState n.val = 3 →
      ∃ t, exec (.uuRelease q n) s = .next t ∧ t.uuState n.val = 2 ∧ t.rget (uuReg n.val 0x100) = 0
        ∧ (t.core n.val).uuBistUp = s.clk.up ∧ OnlyTouches [.regs, .mgmt, .out, .col] s t)
    ∧ (Commanded s q (uuReg n.val 0x008) 1 → s.uuState n.val = 1 →
      ∃ t, exec (.uuBist q n) s = .next t ∧ (t.core n.val).uuBistAsked = true ∧ t.uuState n.val = 1
        ∧ OnlyTouches [.regs, .mgmt, .out, .col] s t)
    ∧ (Commanded s q (uuReg n.val 0x008) 1 → s.uuState n.val = 0 ∨ s.uuState n.val = 3 → (s.core n.val).uuChunk = none →
      ∃ t, exec (.uuBist q n) s = .next t ∧ t.uuState n.val = 2 ∧ (t.core n.val).uuBistUp = s.clk.up
        ∧ OnlyTouches [.regs, .mgmt, .out, .col] s t)
    ∧ (Commanded s q (engReg e.val 0x100) v.toNat → s.engState e.val ≠ 2 →
        bits v.toNat 31 31 ≠ s.fget (engReg e.val 0x100) 31 31 ∨ bits v.toNat 3 0 ≠ s.fget (engReg e.val 0x100) 3 0 →
      ∃ t, exec (.engRepairWrite q e v) s = .next t
        ∧ t.rget (engReg e.val 0x100) = bits v.toNat 31 31 * 2 ^ 31 + bits v.toNat 3 0
        ∧ mget t.fuse.repairs e.val = some (BitVec.ofNat 32 (bits v.toNat 31 31 * 2 ^ 31 + bits v.toNat 3 0))
        ∧ (s.engState e.val = 0 ∨ s.engState e.val = 3 → t.engState e.val = 2 ∧ (t.eng e.val).bistUp = s.clk.up)
        ∧ OnlyTouches [.regs, .mgmt, .out, .col, .fuse] s t)
    ∧ (Commanded s q (glbReg 0x108) v.toNat → s.noPlanes = true →
      ∃ t, exec (.stateSplitWrite q v) s = .next t ∧ t.fget (glbReg 0x108) 15 0 = bits v.toNat 15 0
        ∧ t.fget (glbReg 0x108) 16 16 = bits v.toNat 16 16 ∧ OnlyTouches [.regs, .mgmt, .out] s t)

/-- R178, R180, R244, R246, R342, R370: what the commands of CTX.CTRL and of KBANK_CTRL do. -/
def Obligations.ContextCommandsAct : Prop :=
  ∀ (s : State) (q : Req) (c : CtxNo),
    (∀ plan, Commanded s q (ctxReg c.val 0x008) 1 → s.enableFails c.val = none → s.placeCtx c.val = some plan →
        (s.twinned c.val = false ∨ s.isTransport c.val = true) →
      ∃ t f, exec (.ctxEnable q c) s = .next t ∧ (t.ctx c.val).plan = some plan ∧ (t.ctx c.val).enabling = some (some f)
        ∧ f.req = q ∧ OnlyTouches [.regs, .mgmt, .out, .col, .hbm] s t)
    ∧ (∀ plan, Commanded s q (ctxReg c.val 0x008) 1 → s.enableFails c.val = none → s.placeCtx c.val = some plan →
        s.twinned c.val = true → s.isTransport c.val = false →
      ∃ t f, exec (.ctxEnable q c) s = .next t ∧ (t.ctx c.val).plan = some plan
        ∧ (t.ctx c.val).asking = some (s.clk.up, some f) ∧ f.req = q
        ∧ OnlyTouches [.regs, .mgmt, .out, .col] s t)
    ∧ (Commanded s q (ctxReg c.val 0x008) 2 → (s.ctx c.val).state = .active ∨ (s.ctx c.val).state = .halted →
        (s.ctx c.val).enabling = none → (s.ctx c.val).asking = none →
      ∃ t, exec (.ctxDisable q c) s = .next t ∧ t.ctx c.val = { s.ctx c.val with disabling := true }
        ∧ OnlyTouches [.regs, .mgmt, .out, .col] s t)
    ∧ (Commanded s q (ctxReg c.val 0x008) 4 → s.ctxBusy c.val = false →
      ∃ t, exec (.ctxStateFree q c) s = .next t ∧ t.ctx c.val = { s.ctx c.val with planes := none }
        ∧ OnlyTouches [.regs, .mgmt, .out, .col] s t)
    ∧ (Commanded s q (ctxReg c.val 0x008) 8 → (s.ctx c.val).state ≠ .idle →
      ∃ t f, exec (.ctxReset q c) s = .next t ∧ (t.ctx c.val).resetting = some ((s.ctx c.val).resetting.getD [] ++ [f])
        ∧ f.req = q ∧ OnlyTouches [.regs, .mgmt, .out, .col] s t)

/-- R178, R180, R182, R246, R291, R342, R370: how an accepted enable, a twin refusal, a disable, a reset and a program load take effect. -/
def Obligations.ContextEventsAct : Prop :=
  ∀ (s : State) (c : CtxNo),
    (∀ (fly : Option InFlight) (plan : Plan), (s.ctx c.val).enabling = some fly → (s.ctx c.val).plan = some plan →
      ∃ t, exec (.ctxEnableComplete c) s = .next t ∧ (t.ctx c.val).state = .active ∧ (t.ctx c.val).enabling = none
        ∧ (t.ctx c.val).placed = plan.placed ∧ (t.ctx c.val).step = s.firstStep c.val ∧ (t.ctx c.val).retained = []
        ∧ OnlyTouches [.regs, .mgmt, .out, .col, .sw, .tbl, .aer] s t)
    ∧ (∀ (since : Nat) (fly : Option InFlight), (s.ctx c.val).asking = some (since, fly) → since + 2500 ≤ s.clk.up →
      ∃ t, exec (.twinCtxAcceptTimeout c) s = .next t ∧ t.ctx c.val = { s.ctx c.val with asking := none, plan := none }
        ∧ OnlyTouches [.regs, .mgmt, .out, .col] s t)
    ∧ ((s.ctx c.val).disabling = true →
      ∃ t, exec (.ctxLullBegin c) s = .next t ∧ (t.ctx c.val).state = .lull ∧ (t.ctx c.val).disabling = false
        ∧ (∀ x ∈ t.col.slots, x.ctx = c.val → x.phase ≠ .opened) ∧ OnlyTouches [.regs, .mgmt, .col, .sw, .tbl, .aer] s t)
    ∧ (s.mayIdle c.val = true →
      ∃ t, exec (.ctxLullDrained c) s = .next t ∧ (t.ctx c.val).state = .idle ∧ (t.ctx c.val).placed = []
        ∧ (t.ctx c.val).resetting = none ∧ OnlyTouches [.regs, .mgmt, .out, .col, .aer] s t)
    ∧ ((s.ctx c.val).resetBegun = true → (s.ctx c.val).resetAborted = false →
        s.dump.snaps.any (fun n => n.ctx == some c.val) = false →
      ∃ t, exec (.ctxResetAborts c) s = .next t ∧ (t.ctx c.val).resetAborted = true ∧ (t.ctx c.val).timers = []
        ∧ (∀ x ∈ t.col.slots, x.ctx = c.val → x.unbegun = false) ∧ OnlyTouches [.regs, .mgmt, .col, .sw, .tbl, .aer] s t)
    ∧ (∀ (q : Req) (g : Segment), TakenUp s q 0x08 (Segment.body g) → s.isAdmin q = true → 3 ≤ s.serveStage → q.hcp1 = false →
        segFits 0x08 g = true → s.transfer (ownerOf q) 0x08 g.transfer = none →
        (s.mgmt.transfers.filter fun t => t.port == q.port).length < 2 → g.data.length < g.totalLen.toNat →
      ∃ t x, exec (.progLoad q g) s = .next t ∧ Answered s t q 0x08 { code := .ok, detail := g.data.length }
        ∧ x ∈ t.mgmt.transfers ∧ x.owner = ownerOf q ∧ x.id = g.transfer ∧ x.total = g.totalLen.toNat
        ∧ x.image = g.data ∧ OnlyTouches [.regs, .mgmt, .out] s t)
    ∧ (∀ (q : Req) (g : Segment), TakenUp s q 0x08 (Segment.body g) → s.isAdmin q = true → 3 ≤ s.serveStage → q.hcp1 = false →
        segFits 0x08 g = true → s.transfer (ownerOf q) 0x08 g.transfer = none →
        (s.mgmt.transfers.filter fun t => t.port == q.port).length < 2 → g.offset = 0 → g.data.length = g.totalLen.toNat →
        s.progFails g.target.toNat g.data = none →
      ∃ t j, exec (.progLoad q g) s = .next t ∧ (t.ctx g.target.toNat).loading = some j ∧ j.image = g.data ∧ j.fly.req = q
        ∧ OnlyTouches [.regs, .mgmt, .out, .col] s t)
    ∧ (∀ j : ProgJob, (s.ctx c.val).loading = some j →
      ∃ t g, exec (.progInstallComplete c) s = .next t ∧ (t.ctx c.val).program = some g ∧ (t.ctx c.val).loading = none
        ∧ g.instrs = imageInstrs j.image ∧ g.measurement = sha512 (imageCode j.image)
        ∧ t.rget (ctxReg c.val 0x148) = (s.rget (ctxReg c.val 0x148) + 1) % 2 ^ 32 ∧ OnlyTouches [.regs, .mgmt, .out, .col] s t)

/-- R189, R188, R199, R196, R205, R207: how contributions reach their slots, how slots leave, and how the context manager's timers act. -/
def Obligations.CollectiveEventsAct : Prop :=
  ∀ (s : State),
    (∀ (d : DieNo) (pos i : Nat) (x : Flying) (fc : FcCycle), (s.flyingTo d.val true)[pos]? = some (i, x) → x.lane.isSome = true →
      ∃ t, exec (.contribCellRx d pos true fc) s = .next t ∧ t.rget (fdReg d.val 0x118) = satAdd 64 (s.rget (fdReg d.val 0x118)) 1
        ∧ t.sw.flying = s.sw.flying.eraseIdx i ∧ t.col.slots = s.col.slots
        ∧ OnlyTouches [.regs, .clk, .sw, .tbl, .mgmt, .col, .aer] s t)
    ∧ (∀ (d : DieNo) (pos i : Nat) (x : Flying) (fc : FcCycle) (g : ContribTag) (y : Slot),
        (s.flyingTo d.val true)[pos]? = some (i, x) → x.cell.contrib = some g → (s.ctx g.ctx).state = .active →
        (g.step + 65536 - s.stepOf g.ctx g.chunk) % 65536 < s.window g.ctx → s.wasReleased g.ctx g.step g.chunk = false →
        s.slot x.cell.dest = some y → y.ctx = g.ctx → y.step = g.step → y.chunk = g.chunk → y.phase = .opened →
        y.contribs.any (fun k => k.member == x.cell.seq && k.done) = false →
      ∃ t, exec (.contribCellRx d pos false fc) s = .next t
        ∧ t.slot x.cell.dest = some (y.takeCell x.cell g.weight (s.contribCells g.ctx) (s.members g.ctx) s.clk.up)
        ∧ OnlyTouches [.regs, .clk, .sw, .tbl, .mgmt, .col, .aer] s t)
    ∧ (∀ (desc : Nat) (x : Slot), s.slot desc = some x → s.mayRefill x = true →
      ∃ t, exec (.slotRefill desc) s = .next t
        ∧ t.slot desc = some { x with spilled := false, pages := s.pagesOf x, phase := .ready, readyUp := s.clk.up }
        ∧ OnlyTouches [.col] s t)
    ∧ (∀ (desc : Nat) (x : Slot), s.slot desc = some x → s.pastDeadline x = true →
      ∃ t, exec (.slotDeadline desc) s = .next t ∧ t.slot desc = none
        ∧ OnlyTouches [.regs, .sw, .tbl, .mgmt, .col, .aer, .flt, .out] s t)
    ∧ (∀ (desc : Nat) (x : Slot), s.slot desc = some x → s.releaseReady x = true →
      ∃ t, exec (.resultRelease desc) s = .next t ∧ t.slot desc = none
        ∧ (s.replays x.ctx = true → (s.ctx x.ctx).state ≠ .lull → mget (t.ctx x.ctx).retained x.chunk = some (x.step, x.result))
        ∧ OnlyTouches [.regs, .sw, .tbl, .mgmt, .col, .aer, .out] s t)
    ∧ (∀ (c : CtxNo) (u : Nat), (s.ctx c.val).startUp = some u → u + s.fget (ctxReg c.val 0x134) 15 0 ≤ s.clk.up →
      ∃ t, exec (.startRetryTimeout c) s = .next t ∧ OnlyTouches [.regs, .sw, .tbl, .mgmt, .col, .aer] s t
        ∧ ((s.ctx c.val).startWait = [] → t.ctx c.val = { s.ctx c.val with startUp := none })
        ∧ ((s.ctx c.val).startWait ≠ [] → (s.ctx c.val).startRounds = 0 →
            t.bget (ctxReg c.val 0x140) 1 = true ∧ t.bget (ctxReg c.val 0x010) 16 = true ∧ (t.ctx c.val).startUp = none)
        ∧ (∀ n : Nat, (s.ctx c.val).startWait ≠ [] → (s.ctx c.val).startRounds = n + 1 →
            (t.ctx c.val).startRounds = n ∧ (t.ctx c.val).startUp = some s.clk.up))
    ∧ (∀ (c : CtxNo) (step : BitVec 16) (u : Nat), mget (s.ctx c.val).timers step.toNat = some u → u + s.fget (ctxReg c.val 0x130) 23 0 ≤ s.clk.up →
      ∃ t, exec (.stepTimeout c step) s = .next t ∧ mget (t.ctx c.val).timers step.toNat = some s.clk.up
        ∧ mgetD (t.ctx c.val).aborts step.toNat 0 = mgetD (s.ctx c.val).aborts step.toNat 0 + (s.silentSpines c.val step.toNat).length
        ∧ OnlyTouches [.regs, .sw, .tbl, .mgmt, .col, .aer] s t)

/-- R194, R232, R233, R236, R238, R258, R265, R266: how tiles and invocations issue and end, and how BIST passes end. -/
def Obligations.ComputeEventsAct : Prop :=
  ∀ (s : State),
    (∀ (n : CoreNo) (x : Slot), s.sys.tripped = false → (∀ y ∈ s.col.slots, y.core = n.val → y.phase ≠ .issued) →
        s.readyOrder n.val = [x] → s.slot x.desc = some x → (∃ i < 4, s.engUsable (4 * n.val + i) = true) → s.mayIssue x = true →
      ∃ t y, exec (.tileIssue n) s = .next t ∧ t.slot x.desc = some y ∧ y.phase = .issued
        ∧ y.stagingBytes = s.stagingNeed x.ctx ∧ y.tiles.length = s.tiles x.ctx ∧ OnlyTouches [.regs, .mgmt, .col, .aer] s t)
    ∧ (∀ (e : EngineNo) (f : TileFault) (late : Bool) (x : Slot) (g : Tile), s.runningOn e.val = some (x, g) → s.tilePasses x g.index f = true →
      ∃ t, exec (.tileComplete e f late) s = .next t ∧ (t.eng e.val).restUp = (s.eng e.val).issueUp + 1 + b2n late
        ∧ t.rget (engReg e.val 0x114) = 0 ∧ t.rget (engReg e.val 0x120) = satAdd 64 (s.rget (engReg e.val 0x120)) 1
        ∧ OnlyTouches [.regs, .mgmt, .col, .aer] s t)
    ∧ (∀ (e : EngineNo) (f : TileFault) (late : Bool) (x : Slot) (g : Tile), s.runningOn e.val = some (x, g) → s.tilePasses x g.index f = false →
      ∃ t, exec (.tileComplete e f late) s = .next t ∧ (t.eng e.val).restUp = (s.eng e.val).issueUp + 1 + b2n late
        ∧ t.rget (engReg e.val 0x114) = 0 ∧ t.rget (engReg e.val 0x10C) = satAdd 32 (s.rget (engReg e.val 0x10C)) 1
        ∧ t.rget (engReg e.val 0x120) = s.rget (engReg e.val 0x120) ∧ OnlyTouches [.regs, .mgmt, .col, .aer] s t)
    ∧ (∀ (desc tile : Nat) (x : Slot) (g : Tile) (e : Nat), s.sys.tripped = false → s.slot desc = some x →
        x.tiles.filter (fun y => y.index == tile && !y.failed.isEmpty) = [g] → g.phase = .waiting → g.from_ ≤ s.clk.up →
        s.tileEngine x g = some e → s.engFree e = true →
      ∃ t, exec (.tileRerun desc tile) s = .next t ∧ t.engState e = 1 ∧ t.rget (engReg e 0x114) = (2 ^ 31 + x.ctx) % 2 ^ 64
        ∧ t.slot desc = some (x.setTile g.index fun y => { y with phase := .running e }) ∧ OnlyTouches [.regs, .mgmt, .col, .aer] s t)
    ∧ (∀ (n : CoreNo) (w : UuWork) (r : ChunkRun) (p : Program), (s.chooseBanks).uuMayIssue n.val = true → (s.chooseBanks).uuNext n.val = some w →
        (s.chooseBanks).runOf w.mirror w.ctx w.step w.chunk = some r → ((s.chooseBanks).ctx w.ctx).program = some p →
      ∃ t i, exec (.uuInvocationIssue n) s = .next t ∧ t.uuState n.val = 1 ∧ (t.core n.val).running = some i
        ∧ i.first = r.passes ∧ i.count = min (r.total - r.passes) (560 / passCost p.code) ∧ (t.core n.val).uuChunk = some w.key
        ∧ OnlyTouches [.regs, .col, .twin, .out] s t)
    ∧ (∀ (n : CoreNo) (f : UuFault) (late : Bool) (i : Invocation), (s.core n.val).running = some i →
      ∃ t, exec (.uuInvocationEnd n f late) s = .next t ∧ (t.core n.val).running = none
        ∧ (f = .error → t.hbm = s.hbm ∧ t.rget (uuReg n.val 0x108) = satAdd 32 (s.rget (uuReg n.val 0x108)) 1)
        ∧ OnlyTouches [.regs, .hbm, .mgmt, .col, .twin, .aer, .sys, .out] s t)
    ∧ (∀ (e : EngineNo) (b : BistFound), s.engState e.val = 2 → (s.eng e.val).bistUp + 125 ≤ s.clk.up →
      ∃ t, exec (.engBistComplete e b) s = .next t ∧ OnlyTouches [.regs, .mgmt, .fuse, .col, .aer] s t
        ∧ (b.rows = [] → b.column = false → b.feeder = false → b.accum = false →
            t.engState e.val = 0 ∧ t.fget (engReg e.val 0x00C) 15 8 = 1)
        ∧ (b.column = true ∨ b.feeder = true ∨ b.accum = true →
            t.engState e.val = 3 ∧ t.bget (engReg e.val 0x010) 17 = true)
        ∧ (∀ r : Fin 16, b.rows = [r.castSucc] → b.column = false → b.feeder = false → b.accum = false → (s.eng e.val).judged = true →
            s.repaired e.val = false →
            t.engState e.val = 2 ∧ t.rget (engReg e.val 0x100) = 2 ^ 31 + r.val
              ∧ mget t.fuse.repairs e.val = some (BitVec.ofNat 32 (2 ^ 31 + r.val))))
    ∧ (∀ (n : CoreNo) (pass : Bool), s.uuState n.val = 2 → (s.core n.val).uuBistUp + 25 ≤ s.clk.up →
      ∃ t, exec (.uuBistComplete n pass) s = .next t ∧ t.uuState n.val = (if pass then 0 else 3)
        ∧ t.fget (uuReg n.val 0x00C) 11 8 = (if pass then 1 else 2) ∧ OnlyTouches [.regs, .mgmt, .col, .aer] s t)

/-- R87, R89, R97: a cell time is matched once, and a cell reaches its output die: one that fails CELL_CRC is counted, and the
one cell of a whole packet in its place in sequence puts that packet into its port's queue. -/
def Obligations.CellsMove : Prop :=
  (∀ (s : State) (die : DieNo) (fc : FcCycle), s.atStage 1 = true → s.fatal = false →
      (∀ n, (s.die die.val).lastMatch = some n → n < (s.atFc fc).cellTime) →
    ∃ t, exec (.cellTimeMatch die fc) s = .next t ∧ (t.die die.val).lastMatch = some (s.atFc fc).cellTime
      ∧ (t.die die.val).laneAt = (s.atFc fc).cellTime ∧ s.sw.flying <+: t.sw.flying
      ∧ OnlyTouches [.regs, .clk, .sw, .col] s t)
  ∧ (∀ (s : State) (die : DieNo) (pos : Nat) (fc : FcCycle) (i : Nat) (x : Flying),
      (s.flyingTo die.val false)[pos]? = some (i, x) → x.lane.isSome = true →
    ∃ t, exec (.cellRx die pos true fc) s = .next t ∧ t.sw.flying = s.sw.flying.eraseIdx i
      ∧ t.rget (fdReg die.val 0x118) = satAdd 64 (s.rget (fdReg die.val 0x118)) 1
      ∧ (∀ a, a ≠ fdReg die.val 0x118 → t.rget a = s.rget a) ∧ OnlyTouches [.regs, .clk, .sw, .col] s t)
  ∧ (∀ (s : State) (die : DieNo) (pos : Nat) (fc : FcCycle) (i : Nat) (x : Flying) (f : Flow),
      (s.flyingTo die.val false)[pos]? = some (i, x) → x.cell.kind = .unicast → x.cell.first = true → x.cell.last = true →
      x.cell.trlBad = false → x.cell.tag = none → s.portState x.cell.dest = 1 → s.portFmt x.cell.dest = x.cell.fmt → x.cell.fmt ≠ .eth → x.cell.vc < 4 →
      s.flowOf x.cell.flow = f → f.fresh = false → f.expect = x.cell.seq → f.held = [] →
    ∃ t, exec (.cellRx die pos false fc) s = .next t ∧ t.sw.flying = s.sw.flying.eraseIdx i
      ∧ (∃ y, t.sw.egress = s.sw.egress ++ [y] ∧ y.port = x.cell.dest ∧ y.vc = x.cell.vc ∧ y.src = x.cell.srcPort ∧ y.bytes = x.cell.data
        ∧ y.waitFrom = (s.atFc fc).subNow)
      ∧ (t.flowOf x.cell.flow).expect = (x.cell.seq + 1) % 65536 ∧ OnlyTouches [.regs, .clk, .sw] s t)

/-- R94, R99: a gap of 4 µs is skipped, and cells move to and from the die's share of PKT_OVF. -/
def Obligations.GapsAndOverflowAct : Prop :=
  (∀ (s : State) (flow : FlowKey) (fc : FcCycle) (c : Cell) (n : Nat), (s.flowOf flow).held = [(c, n)] → c.seq < 65536 →
      (s.flowOf flow).expect < 65536 → c.last = false → flow.vc < 4 → (s.flowOf flow).cutSent = none → n + 6400 ≤ (s.atFc fc).fcNow →
    ∃ t, exec (.reseqTimeout flow fc) s = .next t ∧ (t.flowOf flow).held = [] ∧ (t.flowOf flow).expect = (c.seq + 1) % 65536
      ∧ t.rget (PortCtr.reseqTimeout.reg (flowPage flow)) = satAdd 64 (s.rget (PortCtr.reseqTimeout.reg (flowPage flow))) 1
      ∧ OnlyTouches [.regs, .clk, .sw, .col, .out] s t)
  ∧ (∀ (s : State) (die : DieNo), s.ovfOn die.val = true → refillWants die.val s.sw.voq [] 0 = [] → 0 < s.ovfBudget die.val →
      (s.chargedPairs die.val).flatMap (fun k => s.creditSpill k.1 k.2) = [] → s.sharedSpill die.val ≠ [] →
      s.sharedSpilled die.val < s.ovfVc3Max die.val →
    ∃ t n, exec (.pktSpill die) s = .next t ∧ 0 < n ∧ (t.die die.val).ovfMoved = (s.die die.val).ovfMoved + n
      ∧ t.sw.voq = s.sw.voq.zipIdx.map (fun x => if ((s.sharedSpill die.val).take n).contains x.2 then { x.1 with spilled := true, charged := false } else x.1)
      ∧ OnlyTouches [.regs, .sw] s t)
  ∧ (∀ (s : State) (die : DieNo), s.ovfOn die.val = true → 0 < s.ovfBudget die.val → refillWants die.val s.sw.voq [] 0 ≠ [] →
    ∃ t n, exec (.pktRefill die) s = .next t ∧ 0 < n ∧ (t.die die.val).ovfMoved = (s.die die.val).ovfMoved + n
      ∧ t.sw.voq = s.sw.voq.zipIdx.map (fun x => if ((refillWants die.val s.sw.voq [] 0).take n).contains x.2 then { x.1 with spilled := false } else x.1)
      ∧ OnlyTouches [.regs, .sw] s t)

/-- R91, R92, R354: link credits and die-to-die credits come and go, and an idle link sends keepalives. -/
def Obligations.CreditBlocksAct : Prop :=
  ∀ (s : State) (port : PortNo),
    (∀ block : Bytes, s.portReceives port.val = true → block.length = 8 → byteAt block 0 = 0xC5 → s.credited port.val (byteAt block 1 % 4) = true →
      ∃ t, exec (.creditBlockRx port block) s = .next t
        ∧ mget (t.port port.val).creditSeen (byteAt block 1 % 4) = some (fld block 4 4)
        ∧ (∀ vc, vc ≠ byteAt block 1 % 4 → mget (t.port port.val).creditSeen vc = mget (s.port port.val).creditSeen vc)
        ∧ (∀ p, p ≠ port.val → t.port p = s.port p) ∧ OnlyTouches [.sw] s t)
    ∧ (∀ vc : VcNo, s.portSends port.val = true → s.credited port.val vc.val = true →
        mget (s.port port.val).freedSent vc.val ≠ some (s.creditCount port.val vc.val) →
      ∃ t, exec (.creditBlockTx port vc) s = .next t
        ∧ t.out = .block port.val (creditBlock vc.val (s.creditCount port.val vc.val)) :: s.out
        ∧ mget (t.port port.val).freedSent vc.val = some (s.creditCount port.val vc.val)
        ∧ (∀ p, p ≠ port.val → t.port p = s.port p) ∧ OnlyTouches [.sw, .out] s t)
    ∧ (∀ fc : FcCycle, s.leads port.val = true → s.atStage 1 = true → s.fatal = false → (s.port port.val).enabled = true →
        (s.port port.val).kite = false → 0 < s.lanesNow port.val → s.mode port.val ≠ 1 →
        (s.port port.val).busyTo ≤ (s.atFc fc).fcNow → (s.port port.val).lastSentFc + 800 ≤ (s.atFc fc).fcNow →
      ∃ t, exec (.keepaliveTx port fc) s = .next t ∧ t.out = .block port.val (beBytes 1 0x4B ++ zeros 7) :: s.out
        ∧ (t.port port.val).lastSentFc = (s.atFc fc).fcNow
        ∧ (∀ p, p ≠ port.val → t.port p = s.port p) ∧ OnlyTouches [.clk, .sw, .out] s t)
    ∧ (∀ (vc : VcNo) (src : DieNo) (n : Nat), aget s.sw.dtdBack (port.val, vc.val, src.val) = some (n + 1) →
      ∃ t, exec (.dtdCreditReturn port vc src) s = .next t
        ∧ aget t.sw.dtdBack (port.val, vc.val, src.val) = some n
        ∧ t.dtdInUse port.val vc.val src.val = s.dtdInUse port.val vc.val src.val - 1
        ∧ OnlyTouches [.sw] s t)

/-- R23, R63, R73, R81: an arriving header is taken: a packet that fails a check is counted and dropped, a WFP packet to a place
beyond is queued toward the port its route names, one for own place waits for its trailer, and so does a frame whose FCS is wrong. -/
def Obligations.HeadersTaken : Prop :=
  (∀ (s : State) (port : PortNo) (fc : FcCycle) (frame : Bytes) (e : Option TblKind) (n : Nat) (c : PortCtr) (fec : Bool),
    (s.atFc fc).portReceives port.val = true → (s.atHeader port.val fc).mode port.val ≠ 1 →
      arrivalFails ((s.atHeader port.val fc).portFmt port.val) fec frame = some (n, c) → 3 ≤ n →
    ∃ t, exec (.headerTaken port fc fec frame e) s = .next t
      ∧ t.rget (c.reg port.val) = satAdd 64 (s.rget (c.reg port.val)) 1
      ∧ (∃ a ∈ t.sw.arriving, a.port = port.val ∧ a.frame = frame ∧ a.dropped = true ∧ a.failed = true)
      ∧ t.sw.voq = s.sw.voq ∧ OnlyTouches [.regs, .clk, .sw] s t)
  ∧ (∀ (s : State) (port : PortNo) (fc : FcCycle) (frame : Bytes) (h : Wfp) (w : State) (q : Nat),
    (s.atFc fc).portReceives port.val = true → (s.atHeader port.val fc).mode port.val ≠ 1 →
      arrivalFails ((s.atHeader port.val fc).portFmt port.val) true frame = none → h = parseWfp ((s.atHeader port.val fc).portFmt port.val) frame →
      bits (byteAt frame 1) 7 6 < 3 →
      (s.atHeader port.val fc).chargedCells port.val (bits (byteAt frame 1) 7 6) + cellsOf frame.length
        ≤ (s.atHeader port.val fc).creditLimit port.val →
      (s.atHeader port.val fc).ownPlace h.dst = false → isMulticastPlace h.dst = false →
      (s.atHeader port.val fc).route (port.val / 256) port.val (bits (byteAt frame 1) 7 6) h.src h.dst (keyCtx h.type h.ctx) = (w, .port q) →
    ∃ t, exec (.headerTaken port fc true frame none) s = .next t
      ∧ (∃ cells, t.sw.voq = s.sw.voq ++ cells ∧ cells.flatMap (·.data) = frame
        ∧ ∀ x ∈ cells, x.kind = .unicast ∧ x.dest = q ∧ x.destDie = q / 256 ∧ x.srcPort = port.val ∧ x.vc = bits (byteAt frame 1) 7 6 ∧ x.pkt = s.sw.nextPkt)
      ∧ (∃ a ∈ t.sw.arriving, a.port = port.val ∧ a.pkt = s.sw.nextPkt ∧ a.frame = frame ∧ a.dropped = false ∧ a.failed = false)
      ∧ OnlyTouches [.regs, .clk, .sw, .tbl] s t)
  ∧ (∀ (s : State) (port : PortNo) (fc : FcCycle) (frame : Bytes) (h : Wfp) (e : Option TblKind),
    (s.atFc fc).portReceives port.val = true → (s.atHeader port.val fc).mode port.val ≠ 1 →
      arrivalFails ((s.atHeader port.val fc).portFmt port.val) true frame = none → h = parseWfp ((s.atHeader port.val fc).portFmt port.val) frame →
      bits (byteAt frame 1) 7 6 < 3 →
      (s.atHeader port.val fc).chargedCells port.val (bits (byteAt frame 1) 7 6) + cellsOf frame.length
        ≤ (s.atHeader port.val fc).creditLimit port.val →
      (s.atHeader port.val fc).ownPlace h.dst = true → h.type ≠ tContrib → h.type ≠ tData → h.type ≠ tResult → h.type ≠ tNackStale →
    ∃ t, exec (.headerTaken port fc true frame e) s = .next t
      ∧ (∃ a ∈ t.sw.arriving, a.port = port.val ∧ a.pkt = s.sw.nextPkt ∧ a.frame = frame ∧ a.own = true ∧ a.dropped = false ∧ a.failed = false)
      ∧ t.sw.voq = s.sw.voq ∧ OnlyTouches [.regs, .clk, .sw] s t)
  ∧ (∀ (s : State) (port : PortNo) (fc : FcCycle) (frame : Bytes) (e : Option TblKind) (fec : Bool),
    (s.atFc fc).portReceives port.val = true → (s.atHeader port.val fc).mode port.val = 1 →
      ((s.atHeader port.val fc).police port.val frame.length).2 = true → fec = false ∨ frame.length < 64 ∨ 9216 < frame.length ∨ fcsGood frame = false →
    ∃ t, exec (.headerTaken port fc fec frame e) s = .next t
      ∧ (∃ a ∈ t.sw.arriving, a.port = port.val ∧ a.pkt = s.sw.nextPkt ∧ a.frame = frame ∧ a.failed = true)
      ∧ t.sw.voq = s.sw.voq ∧ OnlyTouches [.regs, .clk, .sw] s t)

/-- R63, R74, R85, R322: the last byte of a packet arrives: it is counted, and its cells are complete with what its trailer check
says; a bad frame is counted. -/
def Obligations.PacketsEnd : Prop :=
  ∀ (s : State) (port : PortNo) (fc : FcCycle) (a : Arriving),
    (s.arriving port.val false = some a → a.failed = false → a.own = false →
        a.frame.drop (a.frame.length - 4) = crc32cTrailer (a.frame.take (a.frame.length - 4)) →
      ∃ t, exec (.packetTrailerRx port fc) s = .next t
        ∧ t.rget (PortCtr.rxPkts.reg a.port) = satAdd 64 (s.rget (PortCtr.rxPkts.reg a.port)) 1
        ∧ t.rget (PortCtr.rxBytes.reg a.port) = satAdd 64 (s.rget (PortCtr.rxBytes.reg a.port)) a.frame.length
        ∧ (∀ x ∈ t.sw.arriving, x.pkt ≠ a.pkt)
        ∧ t.sw.voq = s.sw.voq.map (fun c => if c.pkt = a.pkt ∧ c.complete = false then
            { c with complete := true, trlBad := false, ready := max c.ready (s.atFc fc).fcNow } else c)
        ∧ OnlyTouches [.regs, .clk, .sw, .sys] s t)
    ∧ (s.arriving port.val false = some a → a.failed = false → a.own = false →
        a.frame.drop (a.frame.length - 4) = stompTrailer (a.frame.take (a.frame.length - 4)) →
        stompTrailer (a.frame.take (a.frame.length - 4)) ≠ crc32cTrailer (a.frame.take (a.frame.length - 4)) →
      ∃ t, exec (.packetTrailerRx port fc) s = .next t
        ∧ t.rget (PortCtr.rxTrlStomped.reg a.port) = satAdd 64 (s.rget (PortCtr.rxTrlStomped.reg a.port)) 1
        ∧ t.sw.voq = s.sw.voq.map (fun c => if c.pkt = a.pkt ∧ c.complete = false then
            { c with complete := true, trlBad := true, ready := max c.ready (s.atFc fc).fcNow } else c)
        ∧ OnlyTouches [.regs, .clk, .sw, .sys] s t)
    ∧ (s.arriving port.val true = some a →
      ∃ t, exec (.ethFrameEnd port fc) s = .next t
        ∧ t.rget (PortCtr.rxPkts.reg a.port) = satAdd 64 (s.rget (PortCtr.rxPkts.reg a.port)) 1
        ∧ (∀ x ∈ t.sw.arriving, x.pkt ≠ a.pkt)
        ∧ (a.failed = true → t.rget (PortCtr.ethRxBadFrame.reg a.port) = satAdd 64 (s.rget (PortCtr.ethRxBadFrame.reg a.port)) 1 ∧ t.sw.voq = s.sw.voq)
        ∧ (a.failed = false → t.sw.voq = s.sw.voq.map (fun c => if c.pkt = a.pkt ∧ c.complete = false then
            { c with complete := true, trlBad := false, ready := max c.ready (s.atFc fc).fcNow } else c))
        ∧ OnlyTouches [.regs, .clk, .sw, .sys] s t)

/-- R32, R46, R129, R135: a granted sub-slot sends the packet it serves, a leftover opportunity the VC2 packet or the one that
deficit round robin picks, and a packet whose wait limit passes is open to leftover service. -/
def Obligations.EgressServes : Prop :=
  (∀ (s : State) (port : PortNo) (sub : Fin 4) (e : CalEntry) (x : EgPkt),
    min 3 ((s.atSub sub).clk.fc / 160) = sub.val → (s.atSub sub).portSends port.val = true →
      (s.atSub sub).grantAhead port.val 0 = some e →
      s.sw.egress.filter (fun y => y.port == port.val && e.serves y) = [x] →
      (let at_ := max (s.atSub sub).fcNow (s.port port.val).txFree
       let end_ := at_ + (s.atSub sub).spanOf port.val x.bytes.length at_
       end_ ≤ (s.atSub sub).fcNow - (s.atSub sub).subOffset + 144 ∧ (s.atSub sub).kiteHolds port.val end_ = false) →
      (s.atSub sub).hasCredit port.val x.vc x.bytes.length = true →
    ∃ t, exec (.grantedSubslot port sub) s = .next t ∧ t.out = .packet port.val x.vc true x.bytes :: s.out
      ∧ (∀ y ∈ t.sw.egress, y.id ≠ x.id) ∧ t.rget (calReg port.val 0x198) = satAdd 64 (s.rget (calReg port.val 0x198)) 1
      ∧ OnlyTouches [.regs, .clk, .sw, .sys, .out] s t)
  ∧ (∀ (s : State) (port : PortNo) (fc : FcCycle) (x : EgPkt) (b : Option Nat × Option Nat),
    (s.atChance port.val fc).portSends port.val = true →
      ((s.atChance port.val fc).port port.val).txFree ≤ (s.atChance port.val fc).fcNow →
      (s.atChance port.val fc).grantedWaits port.val = false → (s.atChance port.val fc).leftoverBounds port.val = some b →
      0 ≤ ((s.atChance port.val fc).vc2Now port.val).count → (s.atChance port.val fc).ready port.val 2 b = some x →
    ∃ t, exec (.leftoverOpportunity port fc) s = .next t ∧ t.out = .packet x.port x.vc false x.bytes :: s.out
      ∧ (∀ y ∈ t.sw.egress, y.id ≠ x.id) ∧ OnlyTouches [.regs, .clk, .sw, .sys, .out] s t)
  ∧ (∀ (s : State) (port : PortNo) (fc : FcCycle) (x : EgPkt) (b : Option Nat × Option Nat) (i : Nat) (d : List Int),
    (s.atChance port.val fc).portSends port.val = true →
      ((s.atChance port.val fc).port port.val).txFree ≤ (s.atChance port.val fc).fcNow →
      (s.atChance port.val fc).grantedWaits port.val = false → (s.atChance port.val fc).leftoverBounds port.val = some b →
      (s.atChance port.val fc).candidate port.val 2 = none →
      (let cand := [0, 1, 2].map fun i =>
        if (s.atChance port.val fc).hasTokens port.val i && (s.atChance port.val fc).hasTokens port.val 3 then
          (s.atChance port.val fc).ready port.val (dwrrVc i) b else none
       dwrrPick 192 (cand.map Option.isSome) ((s.atChance port.val fc).vcWeights (portReg port.val 0x108))
          ((s.atChance port.val fc).deficits port.val) ((s.atChance port.val fc).port port.val).turn = some (i, d)
        ∧ cand.getD i none = some x) →
    ∃ t, exec (.leftoverOpportunity port fc) s = .next t ∧ t.out = .packet x.port x.vc false x.bytes :: s.out
      ∧ (∀ y ∈ t.sw.egress, y.id ≠ x.id) ∧ OnlyTouches [.regs, .clk, .sw, .sys, .out] s t)
  ∧ (∀ (s : State) (port : PortNo) (sub : Fin 4) (x : EgPkt), x ∈ s.sw.egress → x.port = port.val →
      (s.atSub sub).pktScheduled x = true → (s.atSub sub).waitsGrant x = false →
    ∃ t, exec (.waitLimitExpiry port x.id sub) s = .next t ∧ { x with expired := true } ∈ t.sw.egress
      ∧ t.sw.egress.length = s.sw.egress.length ∧ OnlyTouches [.clk, .sw] s t)

/-- R101, R102: a cut-through transmission starts, and one that runs out of bytes ends with a stomped trailer. -/
def Obligations.CutThroughActs : Prop :=
  (∀ (s : State) (port : PortNo) (fc : FcCycle) (f : Flow) (x : EgPkt) (c : Cell) (w : Option Nat),
    (s.sw.egress.filter fun y => y.port == port.val) = [] →
      s.sw.flows.find? (fun f => !f.key.multicast && f.key.dest == port.val && f.cut && f.cutSent.isNone && decide (1920 ≤ (packetOf f.asm).length)) = some f →
      f.asPacket = some x → f.asm.head? = some c → (s.atFc fc).cutWay x c.pktLen = some w →
    ∃ t, exec (.cutThroughStart port fc) s = .next t ∧ t.flowOf f.key = { f with cutSent := some (s.atFc fc).fcNow }
      ∧ OnlyTouches [.regs, .clk, .sw, .sys, .out] s t)
  ∧ (∀ (s : State) (port : PortNo) (fc : FcCycle) (x : EgPkt) (w : Option Nat),
    (s.sw.egress.filter fun y => y.port == port.val) = [x] → x.cut = true → (s.atFc fc).cutWay x x.bytes.length = some w →
    ∃ t, exec (.cutThroughStart port fc) s = .next t ∧ t.out = .packet x.port x.vc w.isSome x.bytes :: s.out
      ∧ (∀ y ∈ t.sw.egress, y.id ≠ x.id) ∧ OnlyTouches [.regs, .clk, .sw, .sys, .out] s t)
  ∧ (∀ (s : State) (port : PortNo) (fc : FcCycle) (f : Flow) (n : Nat),
    s.sw.flows.find? (fun f => !f.key.multicast && f.key.dest == port.val && f.cutSent.isSome) = some f → f.cutSent = some n →
      n + (s.atFc fc).txCycles port.val (packetOf f.asm).length ≤ (s.atFc fc).fcNow →
    ∃ t, exec (.cutThroughTruncate port fc) s = .next t
      ∧ t.out = .packet port.val f.key.vc false (packetOf f.asm ++ stompTrailer (packetOf f.asm)) :: s.out
      ∧ t.flowOf f.key = { f with asm := [], poisoned := true, cut := false, cutSent := none }
      ∧ t.rget (PortCtr.txCtTrunc.reg port.val) = satAdd 64 (s.rget (PortCtr.txCtTrunc.reg port.val)) 1
      ∧ OnlyTouches [.regs, .clk, .sw, .col, .out] s t)

/-- R321, R359, R361, R371, R424: the commands of PORT.CTRL. -/
def Obligations.PortCommandsAct : Prop :=
  ∀ (s : State) (q : Req) (p : PortNo) (v : Word), s.leads p.val = true →
    (Commanded s q (portReg p.val 0x008) (v.toNat ||| 1) → keepsPort s p.val v.toNat 0 → s.portState p.val = 0 →
      ∃ t, exec (.portEnable q p v) s = .next t ∧ (t.port p.val).enabled = true ∧ t.rget (portReg p.val 0x1A8) = 0
        ∧ OnlyTouches [.regs, .mgmt, .out, .sw, .pho, .col, .aer, .flt] s t)
    ∧ (Commanded s q (portReg p.val 0x008) (v.toNat ||| 2) → keepsPort s p.val v.toNat 1 → (s.port p.val).enabled = true →
      ∃ t, exec (.portDisable q p v) s = .next t ∧ t.port p.val = { s.port p.val with lull := true }
        ∧ OnlyTouches [.regs, .mgmt, .out, .sw] s t)
    ∧ (Commanded s q (portReg p.val 0x008) (v.toNat ||| 4) → keepsPort s p.val v.toNat 2 →
        (s.port p.val).fenced = false → (s.flt.held.any fun h => h.port == p.val) = false → s.fenceAllowed p.val = true →
      ∃ t, exec (.portFence q p v) s = .next t ∧ (t.port p.val).fenced = true ∧ t.flt.fences = s.clk.up :: s.flt.fences
        ∧ OnlyTouches [.regs, .mgmt, .out, .sw, .col, .aer, .flt] s t)
    ∧ (Commanded s q (portReg p.val 0x008) (v.toNat ||| 8) → keepsPort s p.val v.toNat 3 →
        (s.port p.val).fenced = true →
      ∃ t, exec (.portUnfence q p v) s = .next t ∧ (t.port p.val).fenced = false
        ∧ t.flt.held = s.flt.held.filter (fun h => h.port != p.val)
        ∧ OnlyTouches [.regs, .mgmt, .out, .sw, .col, .flt] s t)
    ∧ (Commanded s q (portReg p.val 0x008) (v.toNat ||| 64) → keepsPort s p.val v.toNat 6 →
        s.portState p.val = 1 ∨ s.portState p.val = 2 ∨ s.portState p.val = 3 →
      ∃ t f, exec (.portReset q p v) s = .next t ∧ (t.port p.val).resetting = some ((s.port p.val).resetting.getD [] ++ [f])
        ∧ f.req = q ∧ OnlyTouches [.regs, .mgmt, .out, .sw] s t)

/-- R61, R91, R130, R132: writes of MODE and WIDTH, of CREDIT, and of a shaper. -/
def Obligations.PortSettingsWritten : Prop :=
  ∀ (s : State) (q : Req) (p : PortNo) (v : Word), s.leads p.val = true →
    (Commanded s q (portReg p.val 0x008) v.toNat → bits v.toNat 9 8 ≤ 2 → widthFits p.val (bits v.toNat 9 8) = true →
        bits v.toNat 5 4 ≤ 2 → (∀ b ∈ [0, 1, 2, 3, 6], bits v.toNat b b = 0) → s.portIdle p.val = true →
        (∀ x ∈ gangPorts p.val (bits v.toNat 9 8), s.portIdle (s.leader x) = true) →
        (bits v.toNat 5 4 = 2 → ∀ c ∈ s.enabledCtxs, s.membersOn c p.val = [] ∨ s.wz4Fits c = true) →
      ∃ t, exec (.portModeWidthWrite q p v) s = .next t ∧ t.mode p.val = bits v.toNat 5 4
        ∧ t.widthCode p.val = bits v.toNat 9 8 ∧ t.pending = s.pending)
    ∧ (Commanded s q (portReg p.val 0x104) v.toNat → 16 ≤ bits v.toNat 16 0 → bits v.toNat 16 0 ≤ 65536 →
        s.portIdle p.val = true → s.mode p.val = 1 →
      ∃ t, exec (.portCreditWrite q p v) s = .next t ∧ t.creditLimit p.val = bits v.toNat 16 0
        ∧ OnlyTouches [.regs, .mgmt, .out] s t)
    ∧ (∀ b : BucketNo, Commanded s q (bucketCfg p.val b.ctorIdx) v.toNat → 1 ≤ bits v.toNat 15 0 →
        (bits v.toNat 23 16 ≤ 127 ∨ 192 ≤ bits v.toNat 23 16) → s.bucketOn p.val b.ctorIdx = false →
      ∃ t, exec (.shaperCfgWrite q p b false v) s = .next t ∧ t.bucketOn p.val b.ctorIdx = (bits v.toNat 31 31 == 1)
        ∧ t.fget (bucketCfg p.val b.ctorIdx) 15 0 = bits v.toNat 15 0
        ∧ (bits v.toNat 31 31 = 1 → (t.port p.val).buckets = (s.port p.val).buckets.set b.ctorIdx
            { count := bucketDepth (bits v.toNat 15 0), at_ := s.fcNow })
        ∧ OnlyTouches [.regs, .mgmt, .out, .sw] s t)
    ∧ (∀ b : BucketNo, Commanded s q (bucketRate p.val b.ctorIdx) v.toNat → 1 ≤ bits v.toNat 20 0 →
        bits v.toNat 20 0 ≤ 2000000 →
      ∃ t, exec (.shaperCfgWrite q p b true v) s = .next t
        ∧ t.fget (bucketRate p.val b.ctorIdx) 20 0 = bits v.toNat 20 0
        ∧ OnlyTouches [.regs, .mgmt, .out, .sw] s t)

/-- R354, R356, R357, R360, R424: a drained port becomes IDLE; a port that meets a DOWN condition is down, nothing is queued for it any more, and one that
carried traffic loses 64 of its score; one with its lanes back for 250 ticks is up; at the end of a recovery interval every score not hurt in it rises by one up
to 255, and so does every member's; and a held fence request is dropped when it no longer stands, applied when the limits allow it, and held on otherwise. -/
def Obligations.PortEventsAct : Prop :=
  ∀ s : State,
    (∀ port : PortNo, s.leads port.val = true → s.portState port.val = 4 → s.portEmpty port.val = true →
      ∃ t, exec (.portDrained port) s = .next t ∧ (t.port port.val).enabled = false
        ∧ OnlyTouches [.regs, .sw, .pho, .mgmt, .col, .aer, .flt, .out] s t)
    ∧ (∀ (port : PortNo) (cond : Fin 5), s.detects port.val = true → s.downCond port.val cond.val = true →
      ∃ t, exec (.portDownDetect port cond) s = .next t ∧ (t.port port.val).up = false
        ∧ (t.port port.val).enabled = true
        ∧ ((s.portState port.val = 1 ∨ s.portState port.val = 3 ∨ s.portState port.val = 4) → ∀ x ∈ t.sw.egress, x.port ≠ port.val)
        ∧ ((s.port port.val).up = true → s.portState port.val = 1 ∨ s.portState port.val = 3 → t.score port.val = s.score port.val - 64)
        ∧ OnlyTouches [.regs, .sw, .mgmt, .col, .aer, .flt, .out] s t)
    ∧ (∀ port : PortNo, s.detects port.val = true → (s.port port.val).up = false → s.lanesEnough port.val = true →
        s.pho.returning.contains (port.val / 4) = true ∨ (s.port port.val).goodSince + 250 ≤ s.clk.up →
      ∃ t, exec (.portUpDetect port) s = .next t ∧ (t.port port.val).up = true ∧ (t.port port.val).enabled = true
        ∧ OnlyTouches [.sw, .pho] s t)
    ∧ (s.flt.interval + s.flt.period ≤ s.clk.up →
      ∃ t, exec .healthRecoverInterval s = .next t
        ∧ (∀ port : PortNo, t.score port.val = if s.score port.val = 255 ∨ s.flt.hurt.contains port.val then s.score port.val else s.score port.val + 1)
        ∧ (∀ c ∈ s.col.ctxs.map Prod.fst, (s.col.ctxs.map Prod.fst).Nodup →
            (t.ctx c).members = (s.ctx c).members.map fun kv => (kv.1, recoverMember kv.2))
        ∧ t.flt.interval = s.flt.interval + s.flt.period ∧ t.flt.hurt = [] ∧ t.flt.penalty = []
        ∧ OnlyTouches [.regs, .col, .flt] s t)
    ∧ (∀ h : HeldFence, s.flt.held = [h] →
      ∃ t, exec .fenceHeldRejudge s = .next t
        ∧ ((s.port h.port).fenced = true ∨ s.heldStands h = false → t.flt.held = [])
        ∧ ((s.port h.port).fenced = false → s.heldStands h = true → s.fenceAllowed h.port = true →
            t.flt.held = [] ∧ (t.port h.port).fenced = true ∧ t.flt.fences = s.clk.up :: s.flt.fences)
        ∧ ((s.port h.port).fenced = false → s.heldStands h = true → s.fenceAllowed h.port = false → t.flt.held = [h] ∧ (t.port h.port).fenced = false)
        ∧ OnlyTouches [.regs, .sw, .mgmt, .col, .aer, .flt, .out] s t)

/-- R162, R165: how a ring goes from sweep to capture to lock, fails at its third attempt, holds when its light goes, sweeps again
when its line slips, and tries again after 25,000 ticks. -/
def Obligations.RingsMove : Prop :=
  ∀ (s : State) (ring : Ring),
    ((s.ring ring).state = .sweep →
      ∃ t, exec (.ringSweepEnd ring true) s = .next t ∧ t.ring ring = { s.ring ring with state := .capture }
        ∧ OnlyTouches ringParts s t)
    ∧ ((s.ring ring).state = .sweep → 2 ≤ (s.ring ring).attempts →
      ∃ t, exec (.ringSweepEnd ring false) s = .next t
        ∧ t.ring ring = { state := .fail, attempts := (s.ring ring).attempts + 1, failedUp := s.clk.up }
        ∧ OnlyTouches ringParts s t)
    ∧ ((s.ring ring).state = .capture →
      ∃ t, exec (.ringCaptureEnd ring true) s = .next t ∧ t.ring ring = { state := .locked }
        ∧ OnlyTouches ringParts s t)
    ∧ ((s.ring ring).state = .capture → (s.ring ring).attempts < 2 →
      ∃ t, exec (.ringCaptureEnd ring false) s = .next t
        ∧ t.ring ring = { s.ring ring with state := .sweep, attempts := (s.ring ring).attempts + 1 }
        ∧ OnlyTouches ringParts s t)
    ∧ (∀ e : Int, (s.ring ring).state = .locked → 150000 < e.natAbs →
      ∃ t, exec (.ringLoopError ring e true) s = .next t ∧ t.ring ring = { state := .sweep }
        ∧ OnlyTouches ringParts s t)
    ∧ (∀ e : Int, (s.ring ring).state = .locked → ringIsRx ring = true →
      ∃ t, exec (.ringLoopError ring e false) s = .next t ∧ t.ring ring = { s.ring ring with state := .hold }
        ∧ OnlyTouches ringParts s t)
    ∧ ((s.ring ring).state = .fail → (s.ring ring).failedUp + 25000 ≤ s.clk.up →
      ∃ t, exec (.ringFailRetry ring) s = .next t ∧ t.ring ring = { state := .sweep }
        ∧ OnlyTouches ringParts s t)
    ∧ (∀ (lane : LaneNo) (f : Fin 290) (w : Fin 9), (s.lane lane.val).rx = some (f.val, w.val) → s.laneFabric lane.val = false →
        s.laneInService lane.val = true →
      ∃ t, exec (.ethMarkerMismatch lane) s = .next t ∧ t.ring (.rx f w) = { state := .sweep }
        ∧ OnlyTouches ringParts s t)

/-- R151, R166, R167: a move answered takes effect at its block time, on the new carrier or as a withdrawal, and the receive side stays; a request
that no move answers within 32 ticks is given up and the receiver drops the lane; a segment 1.50 dB over its calibrated loss is named in LOSS with the
lane, the first in path order; and a die-to-die lane that one receiver hears below sensitivity leaves matching at its sending die. -/
def Obligations.LanesMove : Prop :=
  ∀ s : State,
    (∀ (lane : LaneNo) (c : Nat × Nat), (s.lane lane.val).moving = some (some c) →
      ∃ t, exec (.laneMoveEffect lane) s = .next t ∧ t.placed lane.val = (some c, (s.lane lane.val).rx, false, none, false)
        ∧ OnlyTouches ringParts s t)
    ∧ (∀ lane : LaneNo, (s.lane lane.val).moving = some none →
      ∃ t, exec (.laneMoveEffect lane) s = .next t
        ∧ t.placed lane.val = ((s.lane lane.val).tx, (s.lane lane.val).rx, true, none, (s.lane lane.val).resetDue)
        ∧ OnlyTouches ringParts s t)
    ∧ (∀ (lane : LaneNo) (r : Nat × Nat), (s.lane lane.val).rx = some r → (s.carrier r.1 r.2).request = 1 ∨ (s.carrier r.1 r.2).request = 2 →
        (s.carrier r.1 r.2).asked + 32 ≤ s.clk.up →
      ∃ t, exec (.moveRequestTimeout lane) s = .next t ∧ (t.lane lane.val).rx = none ∧ (t.carrier r.1 r.2).request = 0
        ∧ (t.carrier r.1 r.2).rxState = (s.carrier r.1 r.2).rxState ∧ OnlyTouches ringParts s t)
    ∧ (∀ (die : DieNo) (lane : Fin 512) (losses : List Int) (i : Nat), i < 5 → losses.findIdx? (fun v => decide (150 ≤ v)) = some i →
      ∃ t, exec (.lossSegmentCheck die lane losses) s = .next t ∧ t.rget (pblDieReg die.val 0x100) = (i + 1) * 65536 + lane.val
        ∧ OnlyTouches [.regs, .aer] s t)
    ∧ (∀ (die dest : DieNo) (lane : Fin 512), dest ≠ die →
      ∃ t, exec (.dtdLaneBelowSensitivity die lane dest true) s = .next t
        ∧ t.pho.dtdLow.contains ((die.val * 512 + lane.val) * 4 + dest.val) = true
        ∧ (t.die die.val).lanesOut.contains lane.val = true ∧ OnlyTouches [.regs, .sw, .pho, .mgmt, .aer] s t)

/-- R155 to R159, R419: when one feed of a pair fails the pair's selector goes to the other feed and the surviving output to its maximum of 19.00 dBm;
when both have failed they count as lost and the selector stays; a module removed loses every lit feed and is absent and at eye-safe idle; one inserted is
present, judged and at eye-safe idle; one restored is in service again with none of its feeds lost; and the bias control keeps every setpoint between
16.00 and 19.00 dBm and raises the one lit output by 0.10 dB, up to that maximum, when a margin of its consumers is below target. -/
def Obligations.FeedsAndModulesAct : Prop :=
  ∀ s : State,
    (∀ (pair : Fin 288) (b : Bool), s.feedLit pair.val b → s.feedLost pair.val (!b) = false →
      ∃ t, exec (.feedEvent pair b) s = .next t ∧ t.feedLost pair.val b = true
        ∧ t.selector pair.val = (if b then 1 else 2)
        ∧ t.rget (setpointReg (feedModule pair.val (!b)) (feedOutput pair.val)) = 1900
        ∧ (t.els (feedModule pair.val (!b))).safeIdle = (s.els (feedModule pair.val (!b))).safeIdle
        ∧ OnlyTouches ringParts s t)
    ∧ (∀ (pair : Fin 288) (b : Bool), s.feedLit pair.val b → s.feedLost pair.val (!b) = true →
      ∃ t, exec (.feedEvent pair b) s = .next t ∧ t.feedLost pair.val b = true ∧ t.feedLost pair.val (!b) = true
        ∧ t.bget (elsReg (feedModule pair.val b) 0x010) 25 = true
        ∧ OnlyTouches ringParts s t)
    ∧ (∀ module : Fin 32, (s.els module.val).present = true →
      ∃ t, exec (.elsModuleRemoved module) s = .next t ∧ (t.els module.val).present = false ∧ (t.els module.val).safeIdle = true
        ∧ (s.atStage 1 = true → (s.els module.val).safeIdle = false →
            ∀ q ∈ modulePairs module.val, t.feedLost q (decide (16 ≤ module.val)) = true)
        ∧ OnlyTouches ringParts s t)
    ∧ (∀ (module : Fin 32) (suitable : Bool), (s.els module.val).present = false →
      ∃ t, exec (.elsModuleInserted module suitable) s = .next t
        ∧ t.els module.val = { s.els module.val with present := true, suitable := suitable, safeIdle := true }
        ∧ OnlyTouches [.regs, .pho, .mgmt, .aer] s t)
    ∧ (∀ (module : Fin 32) (f : Option InFlight), s.pho.restoring.find? (fun r => r.1 == module.val) = some (module.val, f) →
      ∃ t, exec (.elsRestoreComplete module) s = .next t ∧ (t.els module.val).safeIdle = false
        ∧ (∀ q ∈ modulePairs module.val, t.feedLost q (decide (16 ≤ module.val)) = false)
        ∧ t.pho.restoring = s.pho.restoring.filter (fun x => x.1 != module.val)
        ∧ OnlyTouches ringParts s t)
    ∧ (∀ margins : List Int, (∀ (m : Fin 32) (o : Fin 2), 1600 ≤ s.rget (setpointReg m o) ∧ s.rget (setpointReg m o) ≤ 1900) →
      ∃ t, exec (.biasUpdate margins) s = .next t
        ∧ (∀ (m : Fin 32) (o : Fin 2), 1600 ≤ t.rget (setpointReg m o) ∧ t.rget (setpointReg m o) ≤ 1900)
        ∧ OnlyTouches [.regs, .pho, .mgmt, .aer] s t)
    ∧ (∀ (margins : List Int) (m : Fin 32), s.atStage 2 = true → (s.els m).safeIdle = false → (s.els m).present = true → (s.els m).suitable = true →
        (∀ k : Fin 32, k ≠ m → (s.els k).safeIdle = true) →
        (∃ c ∈ s.outputConsumers m 0, ∃ v ∈ s.marginsOf margins c, v < (s.rget (pblReg 0x100) : Int)) →
      ∃ t, exec (.biasUpdate margins) s = .next t ∧ t.rget (setpointReg m 0) = min 1900 (s.rget (setpointReg m 0) + 10))

/-- R31, R78, R79, R149: an enabled FABRIC port sends one block of 64 bytes on each of its carriers; a block with LT, a good CRC-32C and version 1
is taken: its CHIP_ID and power are kept and the runs of right and wrong wavelengths and of low margins go on or end; a block with a bad CRC counts
in BLOCK_CRC and as missing, one of another version in BLOCK_VERSION alone; a block time without a block counts as missing; and light below −20.0 dBm
on a lane's carrier is reported with a request to move the lane, or the fiber when no lane of it is lit. -/
def Obligations.LaneTagBlocksAct : Prop :=
  (∀ (s : State) (port : PortNo), s.atStage 1 = true → s.isFabric port.val = true → (s.port port.val).enabled = true →
      (s.port port.val).kite = false → s.fatal = false →
    ∃ t blocks, exec (.laneTagBlockTx port) s = .next t ∧ t.out = blocks ++ s.out
      ∧ List.Forall₂ (fun (x : Sent) (c : Nat × Nat) => ∃ b, x = .tag c.1 c.2 b ∧ b.length = 64) blocks (s.portCarriers port.val).reverse
      ∧ OnlyTouches [.clk, .pho, .out] s t)
  ∧ ∀ (s : State) (fiber : Fin 290) (wave : Fin 9), s.listens fiber.val wave.val →
    (∀ (block : Bytes) (power phase : Int) (rxPs : Nat), fld block 0 2 = 0x4C54 → fld block 60 4 = (crc32c (block.take 60)).toNat →
        byteAt block 2 = 1 →
      ∃ t, exec (.laneTagBlockRx fiber wave block power phase rxPs) s = .next t
        ∧ t.heard fiber.val wave.val = (0, BitVec.ofNat 64 (fld block 4 8), power,
            (if byteAt block 16 % 16 = wave.val then 0 else (s.carrier fiber.val wave.val).mismatch + 1),
            (if byteAt block 16 % 16 = wave.val then (s.carrier fiber.val wave.val).heldGood + 1 else 0),
            (if power + 1300 < 50 then (s.carrier fiber.val wave.val).low + 1 else 0))
        ∧ OnlyTouches tagParts s t)
    ∧ (∀ (block : Bytes) (power phase : Int) (rxPs : Nat), fld block 0 2 ≠ 0x4C54 ∨ fld block 60 4 ≠ (crc32c (block.take 60)).toNat →
      ∃ t, exec (.laneTagBlockRx fiber wave block power phase rxPs) s = .next t
        ∧ (t.carrier fiber.val wave.val).missing = (s.carrier fiber.val wave.val).missing + 1
        ∧ (∀ l, s.laneOf fiber.val wave.val = some l → (s.carrier fiber.val wave.val).missing ≠ 1 →
            t.rget (laneReg l 0x20) = satAdd 64 (s.rget (laneReg l 0x20)) 1))
    ∧ (∀ (block : Bytes) (power phase : Int) (rxPs : Nat) (l : Nat), fld block 0 2 = 0x4C54 → fld block 60 4 = (crc32c (block.take 60)).toNat →
        byteAt block 2 ≠ 1 → s.laneOf fiber.val wave.val = some l →
      ∃ t, exec (.laneTagBlockRx fiber wave block power phase rxPs) s = .next t
        ∧ t.rget (laneReg l 0x28) = satAdd 64 (s.rget (laneReg l 0x28)) 1 ∧ OnlyTouches [.regs] s t)
    ∧ (∀ light : Bool, ∃ t, exec (.laneTagBlockMissing fiber wave light) s = .next t
        ∧ (t.carrier fiber.val wave.val).missing = (s.carrier fiber.val wave.val).missing + 1
        ∧ ((s.carrier fiber.val wave.val).missing = 1 → light = true →
            (t.carrier fiber.val wave.val).rxState = .tagMissing ∧ (t.carrier fiber.val wave.val).request = 1
            ∧ t.ring (.rx fiber wave) = { state := .sweep }))
    ∧ (∀ power : Int, power < -2000 → (s.laneOnRx fiber.val wave.val).isSome →
        s.kiteChanging fiber.val = false → s.feedQuiet fiber.val = false →
      ∃ t, exec (.carrierNoLight fiber wave power) s = .next t ∧ (t.carrier fiber.val wave.val).rxState = .noLight
        ∧ (t.carrier fiber.val wave.val).power = power
        ∧ ((∃ v < 9, v ≠ wave.val ∧ (s.laneOnRx fiber.val v).isSome ∧ (s.carrier fiber.val v).rxState ≠ .noLight) →
            (t.carrier fiber.val wave.val).request = 1)
        ∧ ((∀ v < 9, v ≠ wave.val → (s.laneOnRx fiber.val v).isSome → (s.carrier fiber.val v).rxState = .noLight) →
            ∀ v < 9, (s.laneOnRx fiber.val v).isSome → (t.carrier fiber.val v).request = 2)
        ∧ OnlyTouches [.regs, .pho] s t)

/-- R162, R372: a lane reset moves the lane to a spare that is free, else its rings sweep; a re-sweep sweeps them. -/
def Obligations.LaneCommandsAct : Prop :=
  ∀ (s : State) (q : Req) (l : LaneNo) (f w : Nat), (s.lane l.val).state ≠ .dark → (s.lane l.val).tx = some (f, w) →
    (Commanded s q (lanePage l.val + 8) (1 + l.val % 2) → (s.lane l.val).state ≠ .kite →
        (s.moveTarget l.val false).1 = none →
      ∃ t, exec (.laneReset q l) s = .next t ∧ (t.ring (txRingOf f w)).state = .sweep
        ∧ OnlyTouches [.regs, .mgmt, .out, .sw, .pho, .col, .aer, .flt] s t)
    ∧ (Commanded s q (lanePage l.val + 8) (1 + l.val % 2) → (s.lane l.val).state ≠ .kite →
        s.atStage 2 = true → s.spareFree f 8 = true →
      ∃ t, exec (.laneReset q l) s = .next t ∧ (t.lane l.val).moving = some (some (f, 8)) ∧ (t.lane l.val).resetDue = true
        ∧ (t.lane l.val).tx = some (f, w) ∧ OnlyTouches [.regs, .mgmt, .out, .pho] s t)
    ∧ (Commanded s q (lanePage l.val + 8) (4 * (1 + l.val % 2)) →
      ∃ t, exec (.resweep q l) s = .next t ∧ (t.ring (txRingOf f w)).state = .sweep
        ∧ OnlyTouches [.regs, .mgmt, .out, .sw, .pho, .col, .aer, .flt] s t)

/-- R246, R318, R287, R391, R396: K banks, the warm reset, the bandwidth window, the selection of an AER record. -/
def Obligations.BankAndChipCommandsAct : Prop :=
  ∀ (s : State) (q : Req) (c : CtxNo) (b : Bool) (v : Word),
    (Commanded s q (ctxReg c.val 0x194) (if b then 2 else 1) → (s.ctx c.val).state = .idle →
      ∃ t, exec (.kbankValidSet q c b) s = .next t ∧ t.bankValid c.val (if b then 1 else 0) = true
        ∧ t.bankValid c.val (if b then 0 else 1) = s.bankValid c.val (if b then 0 else 1)
        ∧ OnlyTouches [.regs, .mgmt, .out] s t)
    ∧ (Commanded s q (ctxReg c.val 0x194) (if b then 0x200 else 0x100) → (s.ctx c.val).state = .idle →
      ∃ t, exec (.kbankClear q c b) s = .next t ∧ t.bankValid c.val (if b then 1 else 0) = false
        ∧ t.bankValid c.val (if b then 0 else 1) = s.bankValid c.val (if b then 0 else 1)
        ∧ OnlyTouches [.regs, .mgmt, .out] s t)
    ∧ (Commanded s q (glbReg 0x008) 1 → q.hcp1 = false →
      ∃ t, exec (.warmReset q) s = .next t ∧ t.sys.warmPending = some s.clk.up ∧ OnlyTouches [.regs, .mgmt, .out, .sys] s t)
    ∧ (Commanded s q (telReg 0x200) (v.toNat ||| 1) → bits v.toNat 2 2 = 0 → s.fget (telReg 0x210) 1 0 = 0 →
        BitVec.ofNat 48 (s.rget (telReg 0x208)) = 0 →
      ∃ t, exec (.bwWindowStart q v) s = .next t ∧ t.rget (telReg 0x210) = 1 ∧ t.sys.bwStart = s.tickPlus 1
        ∧ OnlyTouches [.regs, .mgmt, .out, .sys] s t)
    ∧ (Commanded s q (telReg 0x200) (v.toNat ||| 4) → bits v.toNat 0 0 = 0 →
      ∃ t, exec (.bwWindowStop q v) s = .next t ∧ t.rget (telReg 0x210) = 0 ∧ t.sys.bwFrom = none
        ∧ OnlyTouches [.regs, .mgmt, .out, .sys] s t)
    ∧ (Commanded s q (telReg 0x304) v.toNat → (s.hbmOn && s.dieHung (v.toNat % 4)) = false →
      ∃ t, exec (.aerSelect q v) s = .next t
        ∧ t.aerWin q.port = ⟨v, (s.findRec v.toNat).1, (s.findRec v.toNat).2⟩
        ∧ OnlyTouches [.regs, .mgmt, .out, .aer] s t)

/-- R106, R109, R110, R113, R116 to R118: a write that passes stores its entry with its GEN in every replica and in the table's generation register, a
read answers the entry, and an LPM insert or delete or a flush starts to run and is answered later. -/
def Obligations.TableCommandsAct : Prop :=
  ∀ (s : State) (q : Req) (b : TblBlock),
    (TableTaken s q 0x01 b → ∃ t, exec (.lpmInsert q b) s = .next t
        ∧ t.tbl = { s.tbl with busy := some ⟨flightOf q 0x06 (TblBlock.body 0x01 b), 0x01, b, s.fcNow⟩ } ∧ t.out = s.out ∧ OnlyTouches tableParts s t)
    ∧ (TableTaken s q 0x02 b → ∃ t, exec (.lpmDelete q b) s = .next t
        ∧ t.tbl = { s.tbl with busy := some ⟨flightOf q 0x06 (TblBlock.body 0x02 b), 0x02, b, s.fcNow⟩ } ∧ t.out = s.out ∧ OnlyTouches tableParts s t)
    ∧ (∀ e, TableTaken s q 0x03 b → parseLpm b.args = some e → ∃ t, exec (.lpmModify q b) s = .next t
        ∧ t.tbl = { s.tbl with lpm := s.tbl.lpm.map fun x => if x.sameKey e then { x with group := e.group, gen := b.gen.toNat } else x }
        ∧ t.rget (genReg 0) = b.gen.toNat
        ∧ Answered s t q 0x06 (tableAns 0x03 ((s.tbl.lpm.findIdx? fun x => x.sameKey e).getD 0) 0 b.gen.toNat []) ∧ OnlyTouches tableParts s t)
    ∧ (∀ e, TableTaken s q 0x04 b → s.tbl.lpm[b.index.toNat]? = some e → ∃ t, exec (.lpmRead q b) s = .next t
        ∧ t.tbl = s.tbl ∧ Answered s t q 0x06 (tableAns 0x04 b.index.toNat 0 e.gen e.bytes) ∧ OnlyTouches tableParts s t)
    ∧ (∀ r, TableTaken s q 0x10 b → parseNh b.args = some r → ∃ t, exec (.nhWrite q b) s = .next t
        ∧ t.tbl = { s.tbl with nh := mput s.tbl.nh b.index.toNat { hash := r.1, ports := r.2, gen := b.gen.toNat } }
        ∧ t.rget (genReg 1) = b.gen.toNat ∧ Answered s t q 0x06 (tableAns 0x10 b.index.toNat 0 b.gen.toNat []) ∧ OnlyTouches tableParts s t)
    ∧ (TableTaken s q 0x11 b → ∃ t, exec (.nhRead q b) s = .next t ∧ t.tbl = s.tbl
        ∧ Answered s t q 0x06 (tableAns 0x11 b.index.toNat 0 ((mget s.tbl.nh b.index.toNat).getD {}).gen ((mget s.tbl.nh b.index.toNat).getD {}).bytes)
        ∧ OnlyTouches tableParts s t)
    ∧ (TableTaken s q 0x20 b → ∃ t, exec (.mcWrite q b) s = .next t
        ∧ t.tbl = { s.tbl with mc := mput s.tbl.mc b.index.toNat { ports := bitmapPorts b.args, gen := b.gen.toNat } }
        ∧ t.rget (genReg 2) = b.gen.toNat ∧ Answered s t q 0x06 (tableAns 0x20 b.index.toNat 0 b.gen.toNat []) ∧ OnlyTouches tableParts s t)
    ∧ (TableTaken s q 0x21 b → ∃ t, exec (.mcRead q b) s = .next t ∧ t.tbl = s.tbl
        ∧ Answered s t q 0x06 (tableAns 0x21 b.index.toNat 0 ((mget s.tbl.mc b.index.toNat).getD {}).gen (portBitmap ((mget s.tbl.mc b.index.toNat).getD {}).ports))
        ∧ OnlyTouches tableParts s t)
    ∧ (TableTaken s q 0x40 b → ∃ t, exec (.vlanWrite q b) s = .next t
        ∧ t.tbl = { s.tbl with vlan := mput s.tbl.vlan b.index.toNat { valid := bit (byteAt b.args 0) 7, learn := bit (byteAt b.args 0) 6, flood := fld b.args 2 2, remote := BitVec.ofNat 32 (fld b.args 4 4), gen := b.gen.toNat } }
        ∧ t.rget (genReg 4) = b.gen.toNat ∧ Answered s t q 0x06 (tableAns 0x40 b.index.toNat 0 b.gen.toNat []) ∧ OnlyTouches tableParts s t)
    ∧ (TableTaken s q 0x41 b → ∃ t, exec (.vlanRead q b) s = .next t ∧ t.tbl = s.tbl
        ∧ Answered s t q 0x06 (tableAns 0x41 b.index.toNat 0 ((mget s.tbl.vlan b.index.toNat).getD {}).gen ((mget s.tbl.vlan b.index.toNat).getD {}).bytes)
        ∧ OnlyTouches tableParts s t)

/-- R122, R124, R126 to R128: MAC commands, after the learns that wait: an insert stands at one position of all four replicas, a delete leaves no entry of the
key in any, a search and NEXT answer what they find and change nothing, and a flush starts to run. -/
def Obligations.MacCommandsAct : Prop :=
  ∀ (s : State) (q : Req) (b : TblBlock),
    (TableTaken s q 0x30 b → ∃ t pos, exec (.macInsert q b) s = .next t
        ∧ (∀ d < 4, mget (t.tbl.mac d) pos = some {
            vid := (parseMac b.args).vid, mac := BitVec.ofNat 48 (parseMac b.args).mac, fixed := (parseMac b.args).fixed, remote := (parseMac b.args).remote,
            dest := BitVec.ofNat 32 (parseMac b.args).dest, hit := false, gen := b.gen.toNat, at_ := s.fcNow })
        ∧ t.rget (genReg 3) = b.gen.toNat ∧ Answered s t q 0x06 (tableAns 0x30 pos 0 b.gen.toNat []) ∧ OnlyTouches tableParts s t)
    ∧ (TableTaken s q 0x31 b → ∃ t pos, exec (.macDelete q b) s = .next t
        ∧ (∀ d < 4, ∀ kv ∈ t.tbl.mac d, ¬(kv.2.vid = (parseMac b.args).vid ∧ kv.2.mac.toNat = (parseMac b.args).mac))
        ∧ (∀ d < 4, ∀ kv ∈ (s.relayDrain).tbl.mac d, ¬(kv.2.vid = (parseMac b.args).vid ∧ kv.2.mac.toNat = (parseMac b.args).mac) → kv ∈ t.tbl.mac d)
        ∧ t.rget (genReg 3) = b.gen.toNat ∧ Answered s t q 0x06 (tableAns 0x31 pos 0 b.gen.toNat []) ∧ OnlyTouches tableParts s t)
    ∧ (∀ pos e, TableTaken s q 0x32 b → macFind ((s.relayDrain).tbl.mac 0) (parseMac b.args).vid (parseMac b.args).mac = some (pos, e) →
        ∃ t, exec (.search q b) s = .next t ∧ t.tbl = (s.relayDrain).tbl
          ∧ Answered s t q 0x06 (tableAns 0x32 pos 0 e.gen (macBytes e ((s.relayDrain).macHit (parseMac b.args).vid (parseMac b.args).mac)))
          ∧ OnlyTouches tableParts s t)
    ∧ (∀ r, TableTaken s q 0x33 b →
        r = macNextFrom ((s.relayDrain).tbl.mac 0) b.index.toNat (fun e => (!bit b.flags.toNat 1 || e.vid == (parseMac b.args).vid)
          && (!bit b.flags.toNat 2 || (e.remote == (parseMac b.args).remote && e.dest.toNat == (parseMac b.args).dest))) →
        ∃ t gen, exec (.macNext q b) s = .next t ∧ t.tbl = (s.relayDrain).tbl
          ∧ Answered s t q 0x06 (tableAns 0x33 r.2 r.1.length gen (r.1.flatMap fun kv => macBytes kv.2 ((s.relayDrain).macHit kv.2.vid kv.2.mac.toNat)))
          ∧ OnlyTouches tableParts s t)
    ∧ (TableTaken s q 0x34 b → ∃ t, exec (.flushByPort q b) s = .next t
        ∧ t.tbl = { (s.relayDrain).tbl with busy := some ⟨flightOf q 0x06 (TblBlock.body 0x34 b), 0x34, b, s.fcNow⟩ } ∧ t.out = s.out ∧ OnlyTouches tableParts s t)

/-- R108, R115, R124, R125, R128: an LPM shift that is done has put the new entry at its rank or taken the old one away and is answered; a flush sweep that
is done has taken every entry of its port that was there before it and is answered; the relay puts its oldest learn into every replica; the aging sweep drops
the dynamic entries that no die has hit and clears the hit bits; and MC0 rewrites an entry that a die cannot read. -/
def Obligations.TableEventsAct : Prop :=
  ∀ s : State,
    (∀ (j : TblJob) (e : LpmEntry), s.tableEnding j → j.op = 0x01 → parseLpm j.block.args = some e → j.startFc + s.shiftCycles j ≤ s.fcNow →
      ∃ t, exec .lpmShiftDone s = .next t
        ∧ t.tbl.lpm = s.tbl.lpm.take (lpmSlot s.tbl.lpm e) ++ { e with gen := j.block.gen.toNat } :: s.tbl.lpm.drop (lpmSlot s.tbl.lpm e)
        ∧ t.tbl.busy = none ∧ t.rget (genReg 0) = j.block.gen.toNat
        ∧ Answered s t j.fly.req j.fly.opcode (tableAns 0x01 (lpmSlot s.tbl.lpm e) (s.tbl.lpm.length - lpmSlot s.tbl.lpm e) j.block.gen.toNat [])
        ∧ OnlyTouches tableParts s t)
    ∧ (∀ (j : TblJob) (e : LpmEntry) (pos : Nat), s.tableEnding j → j.op = 0x02 → parseLpm j.block.args = some e → j.startFc + s.shiftCycles j ≤ s.fcNow →
        s.tbl.lpm.findIdx? (fun x => x.sameKey e) = some pos →
      ∃ t, exec .lpmShiftDone s = .next t ∧ t.tbl.lpm = s.tbl.lpm.eraseIdx pos ∧ t.tbl.busy = none ∧ t.rget (genReg 0) = j.block.gen.toNat
        ∧ Answered s t j.fly.req j.fly.opcode (tableAns 0x02 pos (s.tbl.lpm.length - (pos + 1)) j.block.gen.toNat [])
        ∧ OnlyTouches tableParts s t)
    ∧ (∀ j : TblJob, s.tableEnding j → j.op = 0x34 → j.startFc + 65552 ≤ s.fcNow →
      ∃ t n, exec .flushSweepDone s = .next t ∧ t.tbl.busy = none ∧ t.rget (genReg 3) = j.block.gen.toNat
        ∧ (∀ d < 4, ∀ kv ∈ t.tbl.mac d, kv ∈ s.tbl.mac d ∧ ((kv.2.remote = (parseMac j.block.args).remote ∧ kv.2.dest.toNat = (parseMac j.block.args).dest ∧ kv.2.at_ ≤ j.startFc) →
            (kv.2.fixed = true ∧ bit j.block.flags.toNat 0 = false) ∨ (bit j.block.flags.toNat 1 = true ∧ kv.2.vid ≠ (parseMac j.block.args).vid)))
        ∧ Answered s t j.fly.req j.fly.opcode (tableAns 0x34 noIndex n j.block.gen.toNat [])
        ∧ OnlyTouches tableParts s t)
    ∧ (∀ (l : Learn) (rest : List Learn) (pos : Nat), s.tbl.relay = l :: rest →
        (∃ old, macFind (s.tbl.mac (s.macRef l.vid l.mac)) l.vid l.mac.toNat = some (pos, old) ∧ old.fixed = false)
          ∨ (macFind (s.tbl.mac (s.macRef l.vid l.mac)) l.vid l.mac.toNat = none ∧ macFree (s.tbl.mac (s.macRef l.vid l.mac)) l.vid l.mac.toNat = some pos) →
      ∃ t, exec .learnRelayApply s = .next t ∧ t.tbl.relay = rest
        ∧ (∀ d < 4, mget (t.tbl.mac d) pos = some { vid := l.vid, mac := l.mac, fixed := false, remote := l.remote, dest := l.dest, hit := d == l.die, gen := s.macGen, at_ := s.fcNow })
        ∧ t.rget (tblReg 0x1A0) = satAdd 64 (s.rget (tblReg 0x1A0)) 1 ∧ OnlyTouches [.regs, .tbl] s t)
    ∧ (s.rget (tblReg 0x114) ≠ 0 → s.tbl.agedUp + s.rget (tblReg 0x114) ≤ s.clk.up →
      ∃ t, exec .macAgeSweep s = .next t ∧ t.tbl.agedUp = s.clk.up
        ∧ (∀ d < 4, t.tbl.mac d = ((s.tbl.mac d).filter fun kv => kv.2.fixed || s.macHit kv.2.vid kv.2.mac.toNat).map fun kv => (kv.1, { kv.2 with hit := false }))
        ∧ OnlyTouches [.tbl] s t)
    ∧ (∀ (die : DieNo) (kind : TblKind) (pos : Nat), s.tblBad die.val kind pos = true →
      ∃ t, exec (.tableEntryRewrite die kind pos) s = .next t ∧ t.tblBad die.val kind pos = false ∧ OnlyTouches [.regs, .tbl, .aer] s t)

/-- R281, R282, R285, R353, R363: HBM errors, patrol scrub and retraining, the watchdogs of the control cores, the Doldrums scan. -/
def Obligations.HealthEventsAct : Prop :=
  ∀ (s : State), s.fatal = false →
    (∀ (h : StackNo) (a : Nat) (f : ScrubFound), s.hbmOn = true → s.fget (glbReg 0x108) 15 0 ≠ 0 → stackOf (a % hbmSize) = h.val →
      ∃ t, exec (.patrolScrub h a f) s = .next t ∧ OnlyTouches [.regs, .mgmt, .aer, .sys] s t ∧ t.hbm = s.hbm
        ∧ (f = .clean → OnlyTouches [] s t)
        ∧ ((∃ b, f = .corrected b) → t.rget (hbmReg h.val 0x108) = satAdd 64 (s.rget (hbmReg h.val 0x108)) 1
            ∧ mget t.sys.rowErrors (a % hbmSize / 1024) = some (mgetD s.sys.rowErrors (a % hbmSize / 1024) 0 + 1))
        ∧ (f = .uncorrectable → t.rget (hbmReg h.val 0x110) = satAdd 64 (s.rget (hbmReg h.val 0x110)) 1
            ∧ t.bget (hbmReg h.val 0x010) 16 = true ∧ a % hbmSize / 32 ∈ t.sys.badWords))
    ∧ (∀ (a : Nat) (u : CoreNo), s.hbmOn = true → regionOf (a % hbmSize) = .state →
      ∃ t, exec (.hbmUe a (.load u)) s = .next t ∧ a % hbmSize / 32 ∈ t.sys.badWords
        ∧ t.rget (hbmReg (stackOf (a % hbmSize)) 0x110) = satAdd 64 (s.rget (hbmReg (stackOf (a % hbmSize)) 0x110)) 1
        ∧ t.bget (hbmReg (stackOf (a % hbmSize)) 0x010) 16 = true ∧ OnlyTouches [.regs, .mgmt, .aer, .sys] s t)
    ∧ (∀ (a desc : Nat) (x : Slot), s.hbmOn = true → regionOf (a % hbmSize) = .gatherOvf → s.slot desc = some x →
        x.spilled = true → x.phase = .complete →
      ∃ t, exec (.hbmUe a (.slot desc)) s = .next t ∧ t.slot desc = none ∧ OnlyTouches [.regs, .sw, .tbl, .mgmt, .col, .aer, .sys] s t)
    ∧ (∀ (h : StackNo) (k : Fin 32), s.hbmOn = true →
      ∃ t, exec (.hbmRetrain h k true) s = .next t ∧ mget t.sys.trained (32 * h.val + k.val) = some s.clk.up ∧ OnlyTouches [.sys] s t)
    ∧ (∀ (h : StackNo) (k : Fin 32), s.hbmOn = true →
      ∃ t, exec (.hbmRetrain h k false) s = .next t ∧ t.fget (hbmReg h.val 0x100) 12 8 = k.val ∧ t.bget (hbmReg h.val 0x010) 25 = true
        ∧ (32 * h.val + k.val) ∈ t.sys.chanFail ∧ t.fatal = true ∧ t.dump.lastCause = 6 ∧ OnlyTouches [.regs, .pho, .mgmt, .aer, .dump, .sys] s t)
    ∧ (∀ n : Fin 4, s.atStage 1 = true →
      ∃ t, exec (.watchdogExpiry n) s = .next t ∧ n.val ∈ t.flt.stopped ∧ mget t.flt.expiries n.val = some s.clk.up
        ∧ (∀ u, mget s.flt.expiries n.val = some u → s.clk.up - u ≤ 25000000 → t.fatal = true ∧ t.dump.lastCause = 2)
        ∧ (mget s.flt.expiries n.val = none → n.val ≠ 0 → t.fget (cdReg 0x104) (2 * n.val + 1) (2 * n.val) = 2
            ∧ t.bget (cdReg 0x010) (24 + n.val) = true ∧ t.fatal = false)
        ∧ OnlyTouches [.regs, .cal, .tbl, .pho, .mgmt, .col, .aer, .flt, .dump, .sys, .out] s t)
    ∧ (∀ n : Fin 4, n.val ∈ s.flt.stopped →
      ∃ t, exec (.coreRecovered n) s = .next t ∧ n.val ∉ t.flt.stopped ∧ t.fget (cdReg 0x104) (2 * n.val + 1) (2 * n.val) = 0
        ∧ OnlyTouches [.regs, .flt] s t)
    ∧ (s.atStage 1 = true → s.bget (cdReg 0x140) 31 = true → s.clk.up % 25 = 0 →
      ∃ t, exec .doldrumsScan s = .next t ∧ t.flt.nodes = s.scanNodes s.waitGraph ∧ OnlyTouches [.regs, .mgmt, .col, .aer, .flt, .dump] s t
        ∧ (s.scanNodes s.waitGraph = [] → OnlyTouches [.flt] s t))

/-- R374, R375, R399, R405, R381 to R384: fatal errors, supplies, reference clocks and temperature. -/
def Obligations.FatalAndHeatAct : Prop :=
  ∀ (s : State),
    (∀ c : FatalCause, s.sys.serving = true → s.fatal = false →
      ∃ t, exec (.fatalError c) s = .next t ∧ t.dump.fatal = some (c.ctorIdx + 1, s.clk.tick, s.ptpNow) ∧ t.dump.snaps = []
        ∧ (∀ m < 32, (t.els m).safeIdle = true) ∧ OnlyTouches [.pho, .dump] s t)
    ∧ (∀ c : FatalCause, s.sys.serving = true → s.fatal = true → s.dump.held = false →
      ∃ t, exec (.fatalError c) s = .next t ∧ t.dump = { s.dump with second := (c.ctorIdx + 1) % 256 } ∧ OnlyTouches [.dump] s t)
    ∧ (∀ (r : Rail) (us : Nat), s.sys.serving = true → s.fatal = false →
      ∃ t, exec (.supplyFault r us) s = .next t ∧ t.fatal = decide (10 ≤ us) ∧ (10 ≤ us → t.dump.lastCause = 7) ∧ OnlyTouches [.pho, .dump] s t)
    ∧ (∀ (silent : List Word) (hung : List DieNo), s.fatal = true → s.dump.held = false →
      ∃ t, exec (.fatalDumpComplete silent hung) s = .next t ∧ t.dump.held = true ∧ t.dump.fatal = s.dump.fatal
        ∧ t.dump.fatalLen = t.dump.lastGasp.length ∧ OnlyTouches [.hbm, .dump, .sys] s t)
    ∧ (∃ t, exec (.refclkLoss .sysclk) s = .next t ∧ t.sys.sysclkLost = true
        ∧ (s.sys.serving = true → s.fatal = false → t.fatal = true ∧ t.dump.lastCause = 5) ∧ OnlyTouches [.pho, .dump, .sys] s t)
    ∧ (∃ t, exec (.refclkLoss .aonclk) s = .next t ∧ t.sys.aonLost = true ∧ OnlyTouches [.sys] s t)
    ∧ (∀ d : DieNo, ∃ t, exec (.refclkLoss (.laneclk d)) s = .next t ∧ d.val ∈ t.pho.laneclkLost
        ∧ OnlyTouches [.regs, .sw, .pho, .mgmt, .col, .aer, .flt, .out] s t)
    ∧ (∃ t, exec (.refclkLoss .mclk) s = .next t ∧ t.pho.mclkLost = true ∧ t.mgmt.up0 = false ∧ t.mgmt.up1 = false
        ∧ OnlyTouches [.regs, .sw, .pho, .mgmt, .col, .aer, .flt, .out] s t)
    ∧ (∃ t, exec (.refclkRelock .sysclk) s = .next t ∧ t.sys.sysclkLost = false ∧ OnlyTouches [.sys] s t)
    ∧ (∃ t, exec (.refclkRelock .aonclk) s = .next t ∧ t.sys.aonLost = false ∧ OnlyTouches [.sys] s t)
    ∧ (∀ d : DieNo, ∃ t, exec (.refclkRelock (.laneclk d)) s = .next t ∧ d.val ∉ t.pho.laneclkLost
        ∧ OnlyTouches [.regs, .sw, .pho, .mgmt, .col, .aer, .flt, .out] s t)
    ∧ (∃ t, exec (.refclkRelock .mclk) s = .next t ∧ t.pho.mclkLost = false ∧ OnlyTouches [.regs, .sw, .pho, .mgmt, .col, .aer, .flt, .out] s t)
    ∧ (∀ (d : DieNo) (i : Fin 64) (temp : Int), s.sys.serving = true → s.fatal = false →
      ∃ t, exec (.tjWarn d i temp) s = .next t ∧ OnlyTouches [.regs, .mgmt, .aer, .sys] s t
        ∧ (1050 ≤ temp → d.val ∉ s.sys.warned → d.val ∈ t.sys.warned ∧ t.bget (fdReg d.val 0x010) 16 = true)
        ∧ (temp < 1030 → d.val ∉ t.sys.warned))
    ∧ (∀ (d : DieNo) (i : Fin 64) (a b : Int), s.atStage 1 = true → s.fatal = false → s.sys.tripped = false → 1100 ≤ a → 1100 ≤ b →
      ∃ t, exec (.tjTrip d i a b) s = .next t ∧ t.sys.tripped = true ∧ t.sys.tripFrom = s.sys.stage ∧ t.sys.stage = 1
        ∧ t.sys.tempAlertN = false ∧ (∀ p < 1024, (t.pcal p).suspended = true) ∧ OnlyTouches [.regs, .cal, .sw, .tbl, .mgmt, .col, .aer, .sys] s t)
    ∧ (∀ hot : Int, s.sys.tripped = true → s.fatal = false → hot ≤ 1000 → s.sys.hotUp + 2500000 ≤ s.clk.up →
        s.clk.aligned = true →
      ∃ t, exec (.tjRecover hot) s = .next t ∧ t.sys.tripped = false ∧ t.sys.warned = []
        ∧ (s.sys.tripFrom = 2 ∨ s.sys.tripFrom = 3 → t.sys.stage = s.sys.tripFrom) ∧ OnlyTouches [.regs, .cal, .mgmt, .aer, .sys] s t)
    ∧ (∀ (d : DieNo) (i : Fin 64) (temp : Int), 1200 ≤ temp →
      ∃ t, exec (.thermalShutdown d i temp) s = .next t ∧ t.pending = s.pending ∧ t.sys.thermalLatch = true ∧ t.sys.pgOut = false
        ∧ t.sys.lastReset = 3 ∧ t.sys.serving = false ∧ t.regs = State.reset.regs ∧ t.fuse = { s.fuse with repairs := [] })

/-- R140, R141, R366, R391, R394: samples of the queues, the end of a snapshot, the end of a bandwidth window, the writing of a record. -/
def Obligations.TelemetryEventsAct : Prop :=
  ∀ (s : State),
    (s.atStage 1 = true → s.fatal = false → s.sys.lastSample + s.fget (telReg 0x100) 16 0 ≤ s.clk.up →
      ∃ t, exec .windsockSample s = .next t ∧ t.sys.lastSample = s.clk.up
        ∧ (∀ p vc, s.leads p = true → vc < 4 → t.rget (portReg p (0x160 + 4 * vc)) = (s.egressSample p vc).1 % 2 ^ 64
            ∧ t.rget (portReg p (0x170 + 4 * vc)) = min (s.egressSample p vc).2 0xFFFFFFFF)
        ∧ OnlyTouches [.regs, .hbm, .sys] s t)
    ∧ (∀ (x : Snapshot) (rest : List Snapshot), s.fatal = false → s.dump.snaps = x :: rest →
      ∃ t, exec .snapshotComplete s = .next t ∧ t.dump = { s.dump with snaps := rest } ∧ OnlyTouches [.regs, .hbm, .col, .dump, .sys] s t)
    ∧ (∀ b : Nat, s.sys.bwFrom = some b → s.fget (telReg 0x210) 1 0 = 2 → b + s.fget (telReg 0x204) 16 0 ≤ s.clk.up →
      ∃ t, exec .bwWindowEnd s = .next t ∧ t.rget (telReg 0x220) = (s.rget (telReg 0x220) + 1) % 2 ^ 32 ∧ t.sys.bw = []
        ∧ t.bget (telReg 0x010) 0 = true ∧ t.sys.bwFrom = (if s.bget (telReg 0x200) 1 then some s.clk.up else none)
        ∧ (∀ p, s.leads p = true → t.rget (portReg p 0x328) = (mgetD s.sys.bw p {}).rx % 2 ^ 64
            ∧ t.rget (portReg p 0x330) = (mgetD s.sys.bw p {}).tx % 2 ^ 64)
        ∧ OnlyTouches [.regs, .mgmt, .aer, .sys] s t)
    ∧ (∀ (r : AerRec) (rest : List AerRec), s.aer.queue = r :: rest →
      ∃ t, exec .aerWrite s = .next t ∧ t.aer.queue = rest ∧ t.aer.seq = (s.aer.seq + 1) % 2 ^ 32 ∧ t.aer.gap = false
        ∧ (s.hbmOn = true → s.dieHung (s.aer.seq % 4) = false →
            t.hbm = (s.hwrite (aerAddr s.aer.seq) (r.bytes s.aer.seq s.aer.gap)).hbm)
        ∧ OnlyTouches [.regs, .hbm, .aer] s t)

/-- R336, R339 to R341, R346 to R348, R337: heartbeats, the check at a boundary, HELLO and PROOF, the end of an attach that fails, a frame sent again. -/
def Obligations.TwinLinkActs : Prop :=
  ∀ (s : State),
    (s.twinBeats = true → s.twinUp = true → s.fatal = false →
      ∃ t, exec .twinHeartbeatTx s = .next t ∧ t.out = .twin (twinFrame twHeartbeat s.tick s.heartbeat) :: s.out ∧ OnlyTouches [.regs, .out] s t)
    ∧ (∀ frame p, s.twinHears twHeartbeat frame p → p.length = 32 → fld p 0 8 = s.partnerId → s.partnerId ≠ 0 → s.twin.state = .paired →
      (byteAt p 8 ≠ 5 → ∃ t, exec (.twinHeartbeatRx frame) s = .next t ∧ t.twin.state = .paired ∧ t.twin.hbUp = s.clk.up
        ∧ t.twin.creditSeen = fld p 12 4 ∧ t.twin.partnerState = byteAt p 8 ∧ t.twin.partnerHeld = bit (byteAt p 9) 1
        ∧ t.twin.partnerTakeover = bit (byteAt p 9) 0 ∧ t.rget (twinReg 0x118) = s.tick % 2 ^ 64 ∧ OnlyTouches [.regs, .twin, .out] s t)
      ∧ (byteAt p 8 = 5 → ∃ t, exec (.twinHeartbeatRx frame) s = .next t ∧ t.twin.state = .solo ∧ t.twin.unacked = [] ∧ t.twin.waiting = []
        ∧ t.bget (twinReg 0x010) 8 = true ∧ OnlyTouches [.regs, .mgmt, .col, .twin, .aer, .out] s t))
    ∧ (s.twin.state = .paired → s.twin.checkUp < s.clk.up →
      (s.clk.up ≤ s.twin.hbUp + 1 → ∃ t, exec .twinHbCheck s = .next t ∧ t.twin = { s.twin with checkUp := s.clk.up, misses := 0 } ∧ OnlyTouches [.twin] s t)
      ∧ (s.twin.hbUp + 1 < s.clk.up → s.twin.misses + 1 < s.fget (twinReg 0x100) 11 8 →
        ∃ t, exec .twinHbCheck s = .next t ∧ t.twin = { s.twin with checkUp := s.clk.up, misses := s.twin.misses + 1 }
          ∧ t.rget (twinReg 0x180) = satAdd 64 (s.rget (twinReg 0x180)) 1 ∧ OnlyTouches [.regs, .twin] s t)
      ∧ (s.twin.hbUp + 1 < s.clk.up → s.fget (twinReg 0x100) 11 8 ≤ s.twin.misses + 1 →
        ∃ t, exec .twinHbCheck s = .next t ∧ t.twin.state = .solo
          ∧ (s.clk.up ≤ s.twin.tagUp + max (s.fget (twinReg 0x100) 11 8) 8 → t.twin.taking = s.twin.taking)
          ∧ (s.twin.tagUp + max (s.fget (twinReg 0x100) 11 8) 8 < s.clk.up → s.bget (twinReg 0x100) 0 = true →
              t.twin.taking = true ∧ t.twin.takeoverUp = some s.clk.up)
          ∧ OnlyTouches [.regs, .sw, .tbl, .mgmt, .col, .twin, .aer] s t))
    ∧ (∀ frame p, s.twinHears twHello frame p → p.length = 248 → s.twin.state = .attach →
      (certGood s.sys.rootKey (sub p 40 208) = true → certChip (sub p 40 208) = fld p 0 8 → (s.rget (twinReg 0x110) = 0 ∨ s.rget (twinReg 0x110) = fld p 0 8) →
        ∃ t, exec (.twinHelloRx frame) s = .next t ∧ t.rget (twinReg 0x108) = fld p 0 8 % 2 ^ 64
          ∧ t.twin = { s.twin with partnerCert := sub p 40 208, partnerNonce := sub p 8 32, helloHeard := true }
          ∧ t.out = .twin (twinFrame twProof s.tick (edSign identityKey (ascii "WZ5TWIN1" ++ sub p 8 32 ++ beBytes 8 chipId))) :: s.out
          ∧ OnlyTouches [.regs, .twin, .out] s t)
      ∧ (certGood s.sys.rootKey (sub p 40 208) = false ∨ certChip (sub p 40 208) ≠ fld p 0 8
          ∨ (s.rget (twinReg 0x110) ≠ 0 ∧ s.rget (twinReg 0x110) ≠ fld p 0 8) →
        ∃ t, exec (.twinHelloRx frame) s = .next t ∧ t.twin.state = s.twin.former ∧ t.bget (twinReg 0x010) 13 = true ∧ t.bget (twinReg 0x010) 11 = true
          ∧ OnlyTouches [.regs, .mgmt, .col, .twin, .aer] s t))
    ∧ (∀ frame p, s.twinHears twProof frame p → p.length = 64 → s.twin.state = .attach → s.twin.helloHeard = true → s.twin.proofGood = false →
      (edVerify (certKey s.twin.partnerCert) (ascii "WZ5TWIN1" ++ fit 32 s.twin.ownNonce ++ beBytes 8 s.partnerId) p = true →
        ∃ t, exec (.twinProofRx frame) s = .next t ∧ t.twin.state = .attach ∧ t.twin.proofGood = true ∧ t.twin.proofUp = s.clk.up
          ∧ t.rget (twinReg 0x128) = (s.copyList.foldl (fun n x => n + s.copyBytes x) 0) % 2 ^ 64 ∧ OnlyTouches [.regs, .twin, .out] s t)
      ∧ (edVerify (certKey s.twin.partnerCert) (ascii "WZ5TWIN1" ++ fit 32 s.twin.ownNonce ++ beBytes 8 s.partnerId) p = false →
        ∃ t, exec (.twinProofRx frame) s = .next t ∧ t.twin.state = s.twin.former ∧ t.bget (twinReg 0x010) 13 = true ∧ t.bget (twinReg 0x010) 11 = true
          ∧ OnlyTouches [.regs, .mgmt, .col, .twin, .aer] s t))
    ∧ (∀ n, s.twin.state = .attach ∨ s.twin.state = .verify →
      (s.twin.helloHeard = false ∧ s.twin.attachUp + 2500000 ≤ s.clk.up) ∨ (s.twinUp = false ∧ s.fget (twinReg 0x100) 11 8 ≤ n) →
      ∃ t, exec (.twinAttachTimeout n) s = .next t ∧ t.twin.state = s.twin.former ∧ t.twin.unacked = [] ∧ t.twin.copyIn = []
        ∧ t.bget (twinReg 0x010) 11 = true ∧ OnlyTouches [.regs, .mgmt, .col, .twin, .aer] s t)
    ∧ (∀ i u, s.twin.unacked[i]? = some u → u.sentUp + 25 ≤ s.clk.up → s.twinUp = true → s.fatal = false →
      ∃ t, exec (.twinFrameResend i) s = .next t ∧ t.out = .twin u.frame :: s.out
        ∧ t.twin = { s.twin with unacked := s.twin.unacked.set i { u with sentUp := s.clk.up } } ∧ OnlyTouches [.regs, .twin, .out] s t)

/-- R268 to R271, R340 to R343, R345: mirror configuration and its answer, records and their acknowledgement, releases, digests, copies and handovers. -/
def Obligations.TwinMirrorActs : Prop :=
  ∀ (s : State) (frame p : Bytes),
    (s.twinHears twConfig frame p → s.twin.state = .paired → 88 ≤ p.length → fld p 8 4 = p.length - 88 → (s.ctx (byteAt p 0)).serving = false →
      (s.programDiffers (byteAt p 0) p = true → ∃ t, exec (.twinCtxConfigRx frame) s = .next t
        ∧ t.out = .twin (twinFrame twAccept s.tick (beBytes 1 (byteAt p 0) ++ beBytes 1 Code.conflict.num ++ beBytes 1 1 ++ zeros 1)) :: s.out
        ∧ OnlyTouches [.regs, .out] s t)
      ∧ (s.programDiffers (byteAt p 0) p = false → (s.twinCounted frame).configure (byteAt p 0) p = none →
        ∃ t, exec (.twinCtxConfigRx frame) s = .next t
          ∧ t.out = .twin (twinFrame twAccept s.tick (beBytes 1 (byteAt p 0) ++ beBytes 1 Code.conflict.num ++ beBytes 1 2 ++ zeros 1)) :: s.out
          ∧ OnlyTouches [.regs, .out] s t)
      ∧ (∀ u, s.programDiffers (byteAt p 0) p = false → (s.twinCounted frame).configure (byteAt p 0) p = some u →
        ∃ t, exec (.twinCtxConfigRx frame) s = .next t ∧ t.col = u.col ∧ t.hbm = u.hbm ∧ t.twin = u.twin
          ∧ (t.ctx (byteAt p 0)).mirrorConfig = p ∧ (t.ctx (byteAt p 0)).mirrorBase = fld p 4 4
          ∧ (t.ctx (byteAt p 0)).mirrorChunks = p.length - 88
          ∧ t.out = .twin (twinFrame twAccept s.tick (beBytes 1 (byteAt p 0) ++ beBytes 1 Code.ok.num ++ beBytes 1 0 ++ zeros 1)) :: s.out
          ∧ OnlyTouches [.regs, .hbm, .col, .twin, .out] s t))
    ∧ (∀ w fly plan, s.twinHears twAccept frame p → (s.ctx (byteAt p 0)).asking = some (w, fly) → (s.ctx (byteAt p 0)).plan = some plan →
      (byteAt p 1 = 0 → byteAt p 2 = 0 → ∃ t, exec (.twinCtxAcceptRx frame) s = .next t ∧ (t.ctx (byteAt p 0)).asking = none
        ∧ (t.ctx (byteAt p 0)).enabling = some fly ∧ (t.ctx (byteAt p 0)).plan = some plan
        ∧ (∀ q, plan.planes = some q → (t.ctx (byteAt p 0)).planes = some q) ∧ OnlyTouches [.regs, .hbm, .col] s t)
      ∧ (byteAt p 1 ≠ 0 ∨ byteAt p 2 ≠ 0 → ∃ t, exec (.twinCtxAcceptRx frame) s = .next t ∧ (t.ctx (byteAt p 0)).asking = none
        ∧ (t.ctx (byteAt p 0)).plan = none ∧ (t.ctx (byteAt p 0)).state = (s.ctx (byteAt p 0)).state ∧ OnlyTouches [.regs, .mgmt, .col, .out] s t))
    ∧ (∀ q, s.twinHears twRecord frame p → p.length = 80 + 4 * fld p 8 2 → s.twinTakes = true →
        ((s.ctx (byteAt p 0)).mirrorPlaced.find? fun q => q.chunk == fld p 4 4) = some q →
      (∃ t, exec (.twinRecordRx frame) s = .next t
        ∧ t.out = .twin (twinFrame twAck s.tick (beBytes 1 0 ++ beBytes 1 (byteAt p 0) ++ beBytes 2 (fld p 2 2) ++ beBytes 4 (fld p 4 4))) :: s.out
        ∧ t.rget (twinReg 0x190) = satAdd 64 (s.rget (twinReg 0x190)) 1
        ∧ ((aget s.twin.recSteps (byteAt p 0, fld p 4 4)).any (fun l => stepAtOrBefore (fld p 2 2) l) = true → t.col = s.col ∧ t.twin = s.twin)
        ∧ ((aget s.twin.recSteps (byteAt p 0, fld p 4 4)).any (fun l => stepAtOrBefore (fld p 2 2) l) = false →
            t.twin = { s.twin with recSteps := aput s.twin.recSteps (byteAt p 0, fld p 4 4) (fld p 2 2) }
            ∧ ∃ m : Mirror, t.col.mirrors = s.col.mirrors ++ [m] ∧ m.ctx = byteAt p 0 ∧ m.step = fld p 2 2 ∧ m.chunk = fld p 4 4
              ∧ m.grad = p.drop 80 ∧ m.readyUp = s.clk.up + 1)
        ∧ OnlyTouches [.regs, .col, .twin, .out] s t))
    ∧ (∀ u, s.twinHears twAck frame p → byteAt p 0 = 0 → s.twin.unacked.find? (fun u => ackOf u.frame 0 (byteAt p 1) (fld p 2 2) (fld p 4 4)) = some u →
      ∃ t, exec (.twinAckRx frame) s = .next t
        ∧ t.twin = { s.twin with unacked := s.twin.unacked.filter fun v => !ackOf v.frame 0 (byteAt p 1) (fld p 2 2) (fld p 4 4) }
        ∧ t.col = { s.col with
            slots := s.col.slots.map fun x =>
              if x.ctx = byteAt p 1 ∧ x.step = fld p 2 2 ∧ x.chunk = fld p 4 4 ∧ !x.taken then { x with acked := true } else x }
        ∧ t.rget (twinReg 0x198) = satAdd 64 (s.rget (twinReg 0x198)) 1 ∧ OnlyTouches [.regs, .col, .twin] s t)
    ∧ (s.twinHears twReleased frame p →
      ∃ t, exec (.twinReleasedRx frame) s = .next t ∧ t.twin = { s.twin with relSteps := aput s.twin.relSteps (byteAt p 0, fld p 4 4) (fld p 2 2) }
        ∧ (∀ m ∈ t.col.mirrors, m.ctx = byteAt p 0 → m.step = fld p 2 2 → m.chunk = fld p 4 4 → m.released = true)
        ∧ (∀ m ∈ s.col.mirrors, m.ctx ≠ byteAt p 0 ∨ m.step ≠ fld p 2 2 ∨ m.chunk ≠ fld p 4 4 → m ∈ t.col.mirrors)
        ∧ OnlyTouches [.regs, .col, .twin] s t)
    ∧ (s.twinHears twStepDigest frame p → p.length = 12 →
      ((s.ctx (byteAt p 0)).sentDigests.contains (fld p 2 2, BitVec.ofNat 64 (fld p 4 8)) = true →
        ∃ t, exec (.twinStepDigestRx frame) s = .next t
          ∧ t.rget (CtxCtr.digestMatch.reg (byteAt p 0)) = satAdd 32 (s.rget (CtxCtr.digestMatch.reg (byteAt p 0))) 1
          ∧ (t.ctx (byteAt p 0)).sentDigests = (s.ctx (byteAt p 0)).sentDigests.filter (· != (fld p 2 2, BitVec.ofNat 64 (fld p 4 8)))
          ∧ OnlyTouches [.regs, .col] s t)
      ∧ ((s.ctx (byteAt p 0)).sentDigests.contains (fld p 2 2, BitVec.ofNat 64 (fld p 4 8)) = false →
          (digestsOf (s.ctx (byteAt p 0)).mirrorDigests (fld p 2 2)).length < (s.ctx (byteAt p 0)).mirrorChunks →
        ∃ t, exec (.twinStepDigestRx frame) s = .next t
          ∧ (t.ctx (byteAt p 0)).heardDigests = (s.ctx (byteAt p 0)).heardDigests ++ [(fld p 2 2, BitVec.ofNat 64 (fld p 4 8))]
          ∧ OnlyTouches [.regs, .col] s t))
    ∧ (s.twinHears twChunkDigests frame p → p.length = 12 + 8 * fld p 8 4 →
        ((s.ctx (byteAt p 0)).sentDigests.any fun d => d.1 == fld p 2 2) = false →
      (digestsOf (s.ctx (byteAt p 0)).mirrorDigests (fld p 2 2) = [] → ∃ t, exec (.twinChunkDigestsRx frame) s = .next t
        ∧ t.twin = { s.twin with heardChunks := s.digestsHeard p } ∧ OnlyTouches [.regs, .twin] s t)
      ∧ (∀ low, digestsOf (s.ctx (byteAt p 0)).mirrorDigests (fld p 2 2) ≠ [] →
          (digestsOf (s.ctx (byteAt p 0)).mirrorDigests (fld p 2 2)).length ≤ (((s.digestsHeard p).filter fun h => h.1 == byteAt p 0 && h.2.1 == fld p 2 2)).length →
          lowestDiffering (digestsOf (s.ctx (byteAt p 0)).mirrorDigests (fld p 2 2))
            (((s.digestsHeard p).filter fun h => h.1 == byteAt p 0 && h.2.1 == fld p 2 2).map fun h => h.2.2) = some low →
        ∃ t, exec (.twinChunkDigestsRx frame) s = .next t ∧ t.bget (twinReg 0x010) 12 = true ∧ t.bget (ctxReg (byteAt p 0) 0x140) 2 = true
          ∧ (t.ctx (byteAt p 0)).mirrorDigests = (s.ctx (byteAt p 0)).mirrorDigests.filter (fun d => d.1 != fld p 2 2)
          ∧ OnlyTouches [.regs, .mgmt, .col, .twin, .aer] s t))
    ∧ (∀ a, s.twinHears twCopy frame p → 16 ≤ p.length → p.length ≤ 16400 → (s.twin.state = .attach ∨ s.twin.state = .verify) → byteAt p 1 = 0 →
        ((s.twin.copyIn.find? fun x => x.ctx == byteAt p 0 && x.range == 0).all fun x => !(mget x.parts (fld p 4 4)).isSome) = true →
        mget (s.ctx (byteAt p 0)).mirrorBlocks (fld p 8 4) = some a →
      ∃ t, exec (.twinCopyRx frame) s = .next t ∧ t.hbm = (s.hwrite (a + fld p 12 4) (p.drop 16)).hbm
        ∧ t.twin.freed = (s.twin.freed + ceilDiv (p.length + 20) 4096) % 2 ^ 32
        ∧ t.out = .twin (twinFrame twAck s.tick (beBytes 1 1 ++ beBytes 1 (byteAt p 0) ++ beBytes 2 0 ++ beBytes 4 (fld p 4 4))) :: s.out
        ∧ OnlyTouches [.regs, .hbm, .twin, .out] s t)
    ∧ (s.twinHears twCopyEnd frame p → p.length = 16 → s.twin.state = .attach →
      ((s.copyEnded p).copyComplete = false → ∃ t, exec (.twinCopyEndRx frame) s = .next t ∧ t.twin = (s.copyEnded p).twin ∧ OnlyTouches [.regs, .twin] s t)
      ∧ ((s.copyEnded p).copyComplete = true → ((s.copyEnded p).twin.copyIn.all fun x => x.ended.any fun e => e.2 == x.fold) = true →
        ∃ t, exec (.twinCopyEndRx frame) s = .next t ∧ t.twin.state = .paired ∧ t.twin.misses = 0 ∧ t.bget (twinReg 0x010) 10 = true
          ∧ OnlyTouches [.regs, .mgmt, .twin, .aer] s t)
      ∧ ((s.copyEnded p).copyComplete = true → ((s.copyEnded p).twin.copyIn.all fun x => x.ended.any fun e => e.2 == x.fold) = false →
        ∃ t, exec (.twinCopyEndRx frame) s = .next t ∧ t.twin.state = s.twin.former ∧ t.bget (twinReg 0x010) 11 = true
          ∧ OnlyTouches [.regs, .mgmt, .col, .twin, .aer] s t))
    ∧ (s.twinHears twHandover frame p → p.length = 12 + 2 * fld p 8 4 →
      (s.twin.state = .solo ∨ (s.twin.state = .paired ∧ s.twin.partnerHeld = false) →
        ∃ t, exec (.twinHandoverRx frame) s = .next t ∧ t.twin.state = .solo ∧ t.twin.takeoverUp = some s.clk.up
          ∧ ((s.ctx (byteAt p 0)).serving = false → t.twin.rangeHeld = true)
          ∧ OnlyTouches [.regs, .sw, .tbl, .mgmt, .col, .twin, .aer] s t)
      ∧ (s.twin.state = .paired → s.twin.partnerHeld = true →
        ∃ t, exec (.twinHandoverRx frame) s = .next t ∧ (t.ctx (byteAt p 0)).globalStep = (t.ctx (byteAt p 0)).step
          ∧ OnlyTouches [.regs, .sw, .tbl, .mgmt, .col, .aer] s t))
end

