-- ==== Sys2Proof/Laws/State.lean ====
section
/-! SUPPORT. One lemma per field of State and named update: what the update leaves, and what it makes of its own field. -/

namespace Sys2Proof.Machine


/-! setSys -/

@[simp] theorem State.setSys_pending (s : State) (g : SysSt → SysSt) : (s.setSys g).pending = s.pending := rfl
@[simp] theorem State.setSys_regs (s : State) (g : SysSt → SysSt) : (s.setSys g).regs = s.regs := rfl
@[simp] theorem State.setSys_hbm (s : State) (g : SysSt → SysSt) : (s.setSys g).hbm = s.hbm := rfl
@[simp] theorem State.setSys_clk (s : State) (g : SysSt → SysSt) : (s.setSys g).clk = s.clk := rfl
@[simp] theorem State.setSys_cal (s : State) (g : SysSt → SysSt) : (s.setSys g).cal = s.cal := rfl
@[simp] theorem State.setSys_sw (s : State) (g : SysSt → SysSt) : (s.setSys g).sw = s.sw := rfl
@[simp] theorem State.setSys_tbl (s : State) (g : SysSt → SysSt) : (s.setSys g).tbl = s.tbl := rfl
@[simp] theorem State.setSys_pho (s : State) (g : SysSt → SysSt) : (s.setSys g).pho = s.pho := rfl
@[simp] theorem State.setSys_mgmt (s : State) (g : SysSt → SysSt) : (s.setSys g).mgmt = s.mgmt := rfl
@[simp] theorem State.setSys_fuse (s : State) (g : SysSt → SysSt) : (s.setSys g).fuse = s.fuse := rfl
@[simp] theorem State.setSys_col (s : State) (g : SysSt → SysSt) : (s.setSys g).col = s.col := rfl
@[simp] theorem State.setSys_twin (s : State) (g : SysSt → SysSt) : (s.setSys g).twin = s.twin := rfl
@[simp] theorem State.setSys_aer (s : State) (g : SysSt → SysSt) : (s.setSys g).aer = s.aer := rfl
@[simp] theorem State.setSys_flt (s : State) (g : SysSt → SysSt) : (s.setSys g).flt = s.flt := rfl
@[simp] theorem State.setSys_dump (s : State) (g : SysSt → SysSt) : (s.setSys g).dump = s.dump := rfl
@[simp] theorem State.setSys_sys (s : State) (g : SysSt → SysSt) : (s.setSys g).sys = g s.sys := rfl
@[simp] theorem State.setSys_out (s : State) (g : SysSt → SysSt) : (s.setSys g).out = s.out := rfl

/-! setClk -/

@[simp] theorem State.setClk_pending (s : State) (g : TickSt → TickSt) : (s.setClk g).pending = s.pending := rfl
@[simp] theorem State.setClk_regs (s : State) (g : TickSt → TickSt) : (s.setClk g).regs = s.regs := rfl
@[simp] theorem State.setClk_hbm (s : State) (g : TickSt → TickSt) : (s.setClk g).hbm = s.hbm := rfl
@[simp] theorem State.setClk_clk (s : State) (g : TickSt → TickSt) : (s.setClk g).clk = g s.clk := rfl
@[simp] theorem State.setClk_cal (s : State) (g : TickSt → TickSt) : (s.setClk g).cal = s.cal := rfl
@[simp] theorem State.setClk_sw (s : State) (g : TickSt → TickSt) : (s.setClk g).sw = s.sw := rfl
@[simp] theorem State.setClk_tbl (s : State) (g : TickSt → TickSt) : (s.setClk g).tbl = s.tbl := rfl
@[simp] theorem State.setClk_pho (s : State) (g : TickSt → TickSt) : (s.setClk g).pho = s.pho := rfl
@[simp] theorem State.setClk_mgmt (s : State) (g : TickSt → TickSt) : (s.setClk g).mgmt = s.mgmt := rfl
@[simp] theorem State.setClk_fuse (s : State) (g : TickSt → TickSt) : (s.setClk g).fuse = s.fuse := rfl
@[simp] theorem State.setClk_col (s : State) (g : TickSt → TickSt) : (s.setClk g).col = s.col := rfl
@[simp] theorem State.setClk_twin (s : State) (g : TickSt → TickSt) : (s.setClk g).twin = s.twin := rfl
@[simp] theorem State.setClk_aer (s : State) (g : TickSt → TickSt) : (s.setClk g).aer = s.aer := rfl
@[simp] theorem State.setClk_flt (s : State) (g : TickSt → TickSt) : (s.setClk g).flt = s.flt := rfl
@[simp] theorem State.setClk_dump (s : State) (g : TickSt → TickSt) : (s.setClk g).dump = s.dump := rfl
@[simp] theorem State.setClk_sys (s : State) (g : TickSt → TickSt) : (s.setClk g).sys = s.sys := rfl
@[simp] theorem State.setClk_out (s : State) (g : TickSt → TickSt) : (s.setClk g).out = s.out := rfl

/-! setSw -/

@[simp] theorem State.setSw_pending (s : State) (g : SwitchSt → SwitchSt) : (s.setSw g).pending = s.pending := rfl
@[simp] theorem State.setSw_regs (s : State) (g : SwitchSt → SwitchSt) : (s.setSw g).regs = s.regs := rfl
@[simp] theorem State.setSw_hbm (s : State) (g : SwitchSt → SwitchSt) : (s.setSw g).hbm = s.hbm := rfl
@[simp] theorem State.setSw_clk (s : State) (g : SwitchSt → SwitchSt) : (s.setSw g).clk = s.clk := rfl
@[simp] theorem State.setSw_cal (s : State) (g : SwitchSt → SwitchSt) : (s.setSw g).cal = s.cal := rfl
@[simp] theorem State.setSw_sw (s : State) (g : SwitchSt → SwitchSt) : (s.setSw g).sw = g s.sw := rfl
@[simp] theorem State.setSw_tbl (s : State) (g : SwitchSt → SwitchSt) : (s.setSw g).tbl = s.tbl := rfl
@[simp] theorem State.setSw_pho (s : State) (g : SwitchSt → SwitchSt) : (s.setSw g).pho = s.pho := rfl
@[simp] theorem State.setSw_mgmt (s : State) (g : SwitchSt → SwitchSt) : (s.setSw g).mgmt = s.mgmt := rfl
@[simp] theorem State.setSw_fuse (s : State) (g : SwitchSt → SwitchSt) : (s.setSw g).fuse = s.fuse := rfl
@[simp] theorem State.setSw_col (s : State) (g : SwitchSt → SwitchSt) : (s.setSw g).col = s.col := rfl
@[simp] theorem State.setSw_twin (s : State) (g : SwitchSt → SwitchSt) : (s.setSw g).twin = s.twin := rfl
@[simp] theorem State.setSw_aer (s : State) (g : SwitchSt → SwitchSt) : (s.setSw g).aer = s.aer := rfl
@[simp] theorem State.setSw_flt (s : State) (g : SwitchSt → SwitchSt) : (s.setSw g).flt = s.flt := rfl
@[simp] theorem State.setSw_dump (s : State) (g : SwitchSt → SwitchSt) : (s.setSw g).dump = s.dump := rfl
@[simp] theorem State.setSw_sys (s : State) (g : SwitchSt → SwitchSt) : (s.setSw g).sys = s.sys := rfl
@[simp] theorem State.setSw_out (s : State) (g : SwitchSt → SwitchSt) : (s.setSw g).out = s.out := rfl

/-! setTbl -/

@[simp] theorem State.setTbl_pending (s : State) (g : TableSt → TableSt) : (s.setTbl g).pending = s.pending := rfl
@[simp] theorem State.setTbl_regs (s : State) (g : TableSt → TableSt) : (s.setTbl g).regs = s.regs := rfl
@[simp] theorem State.setTbl_hbm (s : State) (g : TableSt → TableSt) : (s.setTbl g).hbm = s.hbm := rfl
@[simp] theorem State.setTbl_clk (s : State) (g : TableSt → TableSt) : (s.setTbl g).clk = s.clk := rfl
@[simp] theorem State.setTbl_cal (s : State) (g : TableSt → TableSt) : (s.setTbl g).cal = s.cal := rfl
@[simp] theorem State.setTbl_sw (s : State) (g : TableSt → TableSt) : (s.setTbl g).sw = s.sw := rfl
@[simp] theorem State.setTbl_tbl (s : State) (g : TableSt → TableSt) : (s.setTbl g).tbl = g s.tbl := rfl
@[simp] theorem State.setTbl_pho (s : State) (g : TableSt → TableSt) : (s.setTbl g).pho = s.pho := rfl
@[simp] theorem State.setTbl_mgmt (s : State) (g : TableSt → TableSt) : (s.setTbl g).mgmt = s.mgmt := rfl
@[simp] theorem State.setTbl_fuse (s : State) (g : TableSt → TableSt) : (s.setTbl g).fuse = s.fuse := rfl
@[simp] theorem State.setTbl_col (s : State) (g : TableSt → TableSt) : (s.setTbl g).col = s.col := rfl
@[simp] theorem State.setTbl_twin (s : State) (g : TableSt → TableSt) : (s.setTbl g).twin = s.twin := rfl
@[simp] theorem State.setTbl_aer (s : State) (g : TableSt → TableSt) : (s.setTbl g).aer = s.aer := rfl
@[simp] theorem State.setTbl_flt (s : State) (g : TableSt → TableSt) : (s.setTbl g).flt = s.flt := rfl
@[simp] theorem State.setTbl_dump (s : State) (g : TableSt → TableSt) : (s.setTbl g).dump = s.dump := rfl
@[simp] theorem State.setTbl_sys (s : State) (g : TableSt → TableSt) : (s.setTbl g).sys = s.sys := rfl
@[simp] theorem State.setTbl_out (s : State) (g : TableSt → TableSt) : (s.setTbl g).out = s.out := rfl

/-! setPho -/

@[simp] theorem State.setPho_pending (s : State) (g : PhotonSt → PhotonSt) : (s.setPho g).pending = s.pending := rfl
@[simp] theorem State.setPho_regs (s : State) (g : PhotonSt → PhotonSt) : (s.setPho g).regs = s.regs := rfl
@[simp] theorem State.setPho_hbm (s : State) (g : PhotonSt → PhotonSt) : (s.setPho g).hbm = s.hbm := rfl
@[simp] theorem State.setPho_clk (s : State) (g : PhotonSt → PhotonSt) : (s.setPho g).clk = s.clk := rfl
@[simp] theorem State.setPho_cal (s : State) (g : PhotonSt → PhotonSt) : (s.setPho g).cal = s.cal := rfl
@[simp] theorem State.setPho_sw (s : State) (g : PhotonSt → PhotonSt) : (s.setPho g).sw = s.sw := rfl
@[simp] theorem State.setPho_tbl (s : State) (g : PhotonSt → PhotonSt) : (s.setPho g).tbl = s.tbl := rfl
@[simp] theorem State.setPho_pho (s : State) (g : PhotonSt → PhotonSt) : (s.setPho g).pho = g s.pho := rfl
@[simp] theorem State.setPho_mgmt (s : State) (g : PhotonSt → PhotonSt) : (s.setPho g).mgmt = s.mgmt := rfl
@[simp] theorem State.setPho_fuse (s : State) (g : PhotonSt → PhotonSt) : (s.setPho g).fuse = s.fuse := rfl
@[simp] theorem State.setPho_col (s : State) (g : PhotonSt → PhotonSt) : (s.setPho g).col = s.col := rfl
@[simp] theorem State.setPho_twin (s : State) (g : PhotonSt → PhotonSt) : (s.setPho g).twin = s.twin := rfl
@[simp] theorem State.setPho_aer (s : State) (g : PhotonSt → PhotonSt) : (s.setPho g).aer = s.aer := rfl
@[simp] theorem State.setPho_flt (s : State) (g : PhotonSt → PhotonSt) : (s.setPho g).flt = s.flt := rfl
@[simp] theorem State.setPho_dump (s : State) (g : PhotonSt → PhotonSt) : (s.setPho g).dump = s.dump := rfl
@[simp] theorem State.setPho_sys (s : State) (g : PhotonSt → PhotonSt) : (s.setPho g).sys = s.sys := rfl
@[simp] theorem State.setPho_out (s : State) (g : PhotonSt → PhotonSt) : (s.setPho g).out = s.out := rfl

/-! setMgmt -/

@[simp] theorem State.setMgmt_pending (s : State) (g : MgmtSt → MgmtSt) : (s.setMgmt g).pending = s.pending := rfl
@[simp] theorem State.setMgmt_regs (s : State) (g : MgmtSt → MgmtSt) : (s.setMgmt g).regs = s.regs := rfl
@[simp] theorem State.setMgmt_hbm (s : State) (g : MgmtSt → MgmtSt) : (s.setMgmt g).hbm = s.hbm := rfl
@[simp] theorem State.setMgmt_clk (s : State) (g : MgmtSt → MgmtSt) : (s.setMgmt g).clk = s.clk := rfl
@[simp] theorem State.setMgmt_cal (s : State) (g : MgmtSt → MgmtSt) : (s.setMgmt g).cal = s.cal := rfl
@[simp] theorem State.setMgmt_sw (s : State) (g : MgmtSt → MgmtSt) : (s.setMgmt g).sw = s.sw := rfl
@[simp] theorem State.setMgmt_tbl (s : State) (g : MgmtSt → MgmtSt) : (s.setMgmt g).tbl = s.tbl := rfl
@[simp] theorem State.setMgmt_pho (s : State) (g : MgmtSt → MgmtSt) : (s.setMgmt g).pho = s.pho := rfl
@[simp] theorem State.setMgmt_mgmt (s : State) (g : MgmtSt → MgmtSt) : (s.setMgmt g).mgmt = g s.mgmt := rfl
@[simp] theorem State.setMgmt_fuse (s : State) (g : MgmtSt → MgmtSt) : (s.setMgmt g).fuse = s.fuse := rfl
@[simp] theorem State.setMgmt_col (s : State) (g : MgmtSt → MgmtSt) : (s.setMgmt g).col = s.col := rfl
@[simp] theorem State.setMgmt_twin (s : State) (g : MgmtSt → MgmtSt) : (s.setMgmt g).twin = s.twin := rfl
@[simp] theorem State.setMgmt_aer (s : State) (g : MgmtSt → MgmtSt) : (s.setMgmt g).aer = s.aer := rfl
@[simp] theorem State.setMgmt_flt (s : State) (g : MgmtSt → MgmtSt) : (s.setMgmt g).flt = s.flt := rfl
@[simp] theorem State.setMgmt_dump (s : State) (g : MgmtSt → MgmtSt) : (s.setMgmt g).dump = s.dump := rfl
@[simp] theorem State.setMgmt_sys (s : State) (g : MgmtSt → MgmtSt) : (s.setMgmt g).sys = s.sys := rfl
@[simp] theorem State.setMgmt_out (s : State) (g : MgmtSt → MgmtSt) : (s.setMgmt g).out = s.out := rfl

/-! setFuse -/

@[simp] theorem State.setFuse_pending (s : State) (g : FuseSt → FuseSt) : (s.setFuse g).pending = s.pending := rfl
@[simp] theorem State.setFuse_regs (s : State) (g : FuseSt → FuseSt) : (s.setFuse g).regs = s.regs := rfl
@[simp] theorem State.setFuse_hbm (s : State) (g : FuseSt → FuseSt) : (s.setFuse g).hbm = s.hbm := rfl
@[simp] theorem State.setFuse_clk (s : State) (g : FuseSt → FuseSt) : (s.setFuse g).clk = s.clk := rfl
@[simp] theorem State.setFuse_cal (s : State) (g : FuseSt → FuseSt) : (s.setFuse g).cal = s.cal := rfl
@[simp] theorem State.setFuse_sw (s : State) (g : FuseSt → FuseSt) : (s.setFuse g).sw = s.sw := rfl
@[simp] theorem State.setFuse_tbl (s : State) (g : FuseSt → FuseSt) : (s.setFuse g).tbl = s.tbl := rfl
@[simp] theorem State.setFuse_pho (s : State) (g : FuseSt → FuseSt) : (s.setFuse g).pho = s.pho := rfl
@[simp] theorem State.setFuse_mgmt (s : State) (g : FuseSt → FuseSt) : (s.setFuse g).mgmt = s.mgmt := rfl
@[simp] theorem State.setFuse_fuse (s : State) (g : FuseSt → FuseSt) : (s.setFuse g).fuse = g s.fuse := rfl
@[simp] theorem State.setFuse_col (s : State) (g : FuseSt → FuseSt) : (s.setFuse g).col = s.col := rfl
@[simp] theorem State.setFuse_twin (s : State) (g : FuseSt → FuseSt) : (s.setFuse g).twin = s.twin := rfl
@[simp] theorem State.setFuse_aer (s : State) (g : FuseSt → FuseSt) : (s.setFuse g).aer = s.aer := rfl
@[simp] theorem State.setFuse_flt (s : State) (g : FuseSt → FuseSt) : (s.setFuse g).flt = s.flt := rfl
@[simp] theorem State.setFuse_dump (s : State) (g : FuseSt → FuseSt) : (s.setFuse g).dump = s.dump := rfl
@[simp] theorem State.setFuse_sys (s : State) (g : FuseSt → FuseSt) : (s.setFuse g).sys = s.sys := rfl
@[simp] theorem State.setFuse_out (s : State) (g : FuseSt → FuseSt) : (s.setFuse g).out = s.out := rfl

/-! setCol -/

@[simp] theorem State.setCol_pending (s : State) (g : CollectSt → CollectSt) : (s.setCol g).pending = s.pending := rfl
@[simp] theorem State.setCol_regs (s : State) (g : CollectSt → CollectSt) : (s.setCol g).regs = s.regs := rfl
@[simp] theorem State.setCol_hbm (s : State) (g : CollectSt → CollectSt) : (s.setCol g).hbm = s.hbm := rfl
@[simp] theorem State.setCol_clk (s : State) (g : CollectSt → CollectSt) : (s.setCol g).clk = s.clk := rfl
@[simp] theorem State.setCol_cal (s : State) (g : CollectSt → CollectSt) : (s.setCol g).cal = s.cal := rfl
@[simp] theorem State.setCol_sw (s : State) (g : CollectSt → CollectSt) : (s.setCol g).sw = s.sw := rfl
@[simp] theorem State.setCol_tbl (s : State) (g : CollectSt → CollectSt) : (s.setCol g).tbl = s.tbl := rfl
@[simp] theorem State.setCol_pho (s : State) (g : CollectSt → CollectSt) : (s.setCol g).pho = s.pho := rfl
@[simp] theorem State.setCol_mgmt (s : State) (g : CollectSt → CollectSt) : (s.setCol g).mgmt = s.mgmt := rfl
@[simp] theorem State.setCol_fuse (s : State) (g : CollectSt → CollectSt) : (s.setCol g).fuse = s.fuse := rfl
@[simp] theorem State.setCol_col (s : State) (g : CollectSt → CollectSt) : (s.setCol g).col = g s.col := rfl
@[simp] theorem State.setCol_twin (s : State) (g : CollectSt → CollectSt) : (s.setCol g).twin = s.twin := rfl
@[simp] theorem State.setCol_aer (s : State) (g : CollectSt → CollectSt) : (s.setCol g).aer = s.aer := rfl
@[simp] theorem State.setCol_flt (s : State) (g : CollectSt → CollectSt) : (s.setCol g).flt = s.flt := rfl
@[simp] theorem State.setCol_dump (s : State) (g : CollectSt → CollectSt) : (s.setCol g).dump = s.dump := rfl
@[simp] theorem State.setCol_sys (s : State) (g : CollectSt → CollectSt) : (s.setCol g).sys = s.sys := rfl
@[simp] theorem State.setCol_out (s : State) (g : CollectSt → CollectSt) : (s.setCol g).out = s.out := rfl

/-! setTwin -/

@[simp] theorem State.setTwin_pending (s : State) (g : TwinSt → TwinSt) : (s.setTwin g).pending = s.pending := rfl
@[simp] theorem State.setTwin_regs (s : State) (g : TwinSt → TwinSt) : (s.setTwin g).regs = s.regs := rfl
@[simp] theorem State.setTwin_hbm (s : State) (g : TwinSt → TwinSt) : (s.setTwin g).hbm = s.hbm := rfl
@[simp] theorem State.setTwin_clk (s : State) (g : TwinSt → TwinSt) : (s.setTwin g).clk = s.clk := rfl
@[simp] theorem State.setTwin_cal (s : State) (g : TwinSt → TwinSt) : (s.setTwin g).cal = s.cal := rfl
@[simp] theorem State.setTwin_sw (s : State) (g : TwinSt → TwinSt) : (s.setTwin g).sw = s.sw := rfl
@[simp] theorem State.setTwin_tbl (s : State) (g : TwinSt → TwinSt) : (s.setTwin g).tbl = s.tbl := rfl
@[simp] theorem State.setTwin_pho (s : State) (g : TwinSt → TwinSt) : (s.setTwin g).pho = s.pho := rfl
@[simp] theorem State.setTwin_mgmt (s : State) (g : TwinSt → TwinSt) : (s.setTwin g).mgmt = s.mgmt := rfl
@[simp] theorem State.setTwin_fuse (s : State) (g : TwinSt → TwinSt) : (s.setTwin g).fuse = s.fuse := rfl
@[simp] theorem State.setTwin_col (s : State) (g : TwinSt → TwinSt) : (s.setTwin g).col = s.col := rfl
@[simp] theorem State.setTwin_twin (s : State) (g : TwinSt → TwinSt) : (s.setTwin g).twin = g s.twin := rfl
@[simp] theorem State.setTwin_aer (s : State) (g : TwinSt → TwinSt) : (s.setTwin g).aer = s.aer := rfl
@[simp] theorem State.setTwin_flt (s : State) (g : TwinSt → TwinSt) : (s.setTwin g).flt = s.flt := rfl
@[simp] theorem State.setTwin_dump (s : State) (g : TwinSt → TwinSt) : (s.setTwin g).dump = s.dump := rfl
@[simp] theorem State.setTwin_sys (s : State) (g : TwinSt → TwinSt) : (s.setTwin g).sys = s.sys := rfl
@[simp] theorem State.setTwin_out (s : State) (g : TwinSt → TwinSt) : (s.setTwin g).out = s.out := rfl

/-! setAer -/

@[simp] theorem State.setAer_pending (s : State) (g : AerSt → AerSt) : (s.setAer g).pending = s.pending := rfl
@[simp] theorem State.setAer_regs (s : State) (g : AerSt → AerSt) : (s.setAer g).regs = s.regs := rfl
@[simp] theorem State.setAer_hbm (s : State) (g : AerSt → AerSt) : (s.setAer g).hbm = s.hbm := rfl
@[simp] theorem State.setAer_clk (s : State) (g : AerSt → AerSt) : (s.setAer g).clk = s.clk := rfl
@[simp] theorem State.setAer_cal (s : State) (g : AerSt → AerSt) : (s.setAer g).cal = s.cal := rfl
@[simp] theorem State.setAer_sw (s : State) (g : AerSt → AerSt) : (s.setAer g).sw = s.sw := rfl
@[simp] theorem State.setAer_tbl (s : State) (g : AerSt → AerSt) : (s.setAer g).tbl = s.tbl := rfl
@[simp] theorem State.setAer_pho (s : State) (g : AerSt → AerSt) : (s.setAer g).pho = s.pho := rfl
@[simp] theorem State.setAer_mgmt (s : State) (g : AerSt → AerSt) : (s.setAer g).mgmt = s.mgmt := rfl
@[simp] theorem State.setAer_fuse (s : State) (g : AerSt → AerSt) : (s.setAer g).fuse = s.fuse := rfl
@[simp] theorem State.setAer_col (s : State) (g : AerSt → AerSt) : (s.setAer g).col = s.col := rfl
@[simp] theorem State.setAer_twin (s : State) (g : AerSt → AerSt) : (s.setAer g).twin = s.twin := rfl
@[simp] theorem State.setAer_aer (s : State) (g : AerSt → AerSt) : (s.setAer g).aer = g s.aer := rfl
@[simp] theorem State.setAer_flt (s : State) (g : AerSt → AerSt) : (s.setAer g).flt = s.flt := rfl
@[simp] theorem State.setAer_dump (s : State) (g : AerSt → AerSt) : (s.setAer g).dump = s.dump := rfl
@[simp] theorem State.setAer_sys (s : State) (g : AerSt → AerSt) : (s.setAer g).sys = s.sys := rfl
@[simp] theorem State.setAer_out (s : State) (g : AerSt → AerSt) : (s.setAer g).out = s.out := rfl

/-! setFlt -/

@[simp] theorem State.setFlt_pending (s : State) (g : FaultSt → FaultSt) : (s.setFlt g).pending = s.pending := rfl
@[simp] theorem State.setFlt_regs (s : State) (g : FaultSt → FaultSt) : (s.setFlt g).regs = s.regs := rfl
@[simp] theorem State.setFlt_hbm (s : State) (g : FaultSt → FaultSt) : (s.setFlt g).hbm = s.hbm := rfl
@[simp] theorem State.setFlt_clk (s : State) (g : FaultSt → FaultSt) : (s.setFlt g).clk = s.clk := rfl
@[simp] theorem State.setFlt_cal (s : State) (g : FaultSt → FaultSt) : (s.setFlt g).cal = s.cal := rfl
@[simp] theorem State.setFlt_sw (s : State) (g : FaultSt → FaultSt) : (s.setFlt g).sw = s.sw := rfl
@[simp] theorem State.setFlt_tbl (s : State) (g : FaultSt → FaultSt) : (s.setFlt g).tbl = s.tbl := rfl
@[simp] theorem State.setFlt_pho (s : State) (g : FaultSt → FaultSt) : (s.setFlt g).pho = s.pho := rfl
@[simp] theorem State.setFlt_mgmt (s : State) (g : FaultSt → FaultSt) : (s.setFlt g).mgmt = s.mgmt := rfl
@[simp] theorem State.setFlt_fuse (s : State) (g : FaultSt → FaultSt) : (s.setFlt g).fuse = s.fuse := rfl
@[simp] theorem State.setFlt_col (s : State) (g : FaultSt → FaultSt) : (s.setFlt g).col = s.col := rfl
@[simp] theorem State.setFlt_twin (s : State) (g : FaultSt → FaultSt) : (s.setFlt g).twin = s.twin := rfl
@[simp] theorem State.setFlt_aer (s : State) (g : FaultSt → FaultSt) : (s.setFlt g).aer = s.aer := rfl
@[simp] theorem State.setFlt_flt (s : State) (g : FaultSt → FaultSt) : (s.setFlt g).flt = g s.flt := rfl
@[simp] theorem State.setFlt_dump (s : State) (g : FaultSt → FaultSt) : (s.setFlt g).dump = s.dump := rfl
@[simp] theorem State.setFlt_sys (s : State) (g : FaultSt → FaultSt) : (s.setFlt g).sys = s.sys := rfl
@[simp] theorem State.setFlt_out (s : State) (g : FaultSt → FaultSt) : (s.setFlt g).out = s.out := rfl

/-! setDump -/

@[simp] theorem State.setDump_pending (s : State) (g : DumpSt → DumpSt) : (s.setDump g).pending = s.pending := rfl
@[simp] theorem State.setDump_regs (s : State) (g : DumpSt → DumpSt) : (s.setDump g).regs = s.regs := rfl
@[simp] theorem State.setDump_hbm (s : State) (g : DumpSt → DumpSt) : (s.setDump g).hbm = s.hbm := rfl
@[simp] theorem State.setDump_clk (s : State) (g : DumpSt → DumpSt) : (s.setDump g).clk = s.clk := rfl
@[simp] theorem State.setDump_cal (s : State) (g : DumpSt → DumpSt) : (s.setDump g).cal = s.cal := rfl
@[simp] theorem State.setDump_sw (s : State) (g : DumpSt → DumpSt) : (s.setDump g).sw = s.sw := rfl
@[simp] theorem State.setDump_tbl (s : State) (g : DumpSt → DumpSt) : (s.setDump g).tbl = s.tbl := rfl
@[simp] theorem State.setDump_pho (s : State) (g : DumpSt → DumpSt) : (s.setDump g).pho = s.pho := rfl
@[simp] theorem State.setDump_mgmt (s : State) (g : DumpSt → DumpSt) : (s.setDump g).mgmt = s.mgmt := rfl
@[simp] theorem State.setDump_fuse (s : State) (g : DumpSt → DumpSt) : (s.setDump g).fuse = s.fuse := rfl
@[simp] theorem State.setDump_col (s : State) (g : DumpSt → DumpSt) : (s.setDump g).col = s.col := rfl
@[simp] theorem State.setDump_twin (s : State) (g : DumpSt → DumpSt) : (s.setDump g).twin = s.twin := rfl
@[simp] theorem State.setDump_aer (s : State) (g : DumpSt → DumpSt) : (s.setDump g).aer = s.aer := rfl
@[simp] theorem State.setDump_flt (s : State) (g : DumpSt → DumpSt) : (s.setDump g).flt = s.flt := rfl
@[simp] theorem State.setDump_dump (s : State) (g : DumpSt → DumpSt) : (s.setDump g).dump = g s.dump := rfl
@[simp] theorem State.setDump_sys (s : State) (g : DumpSt → DumpSt) : (s.setDump g).sys = s.sys := rfl
@[simp] theorem State.setDump_out (s : State) (g : DumpSt → DumpSt) : (s.setDump g).out = s.out := rfl

/-! setCalSt -/

@[simp] theorem State.setCalSt_pending (s : State) (g : CalSt → CalSt) : (s.setCalSt g).pending = s.pending := rfl
@[simp] theorem State.setCalSt_regs (s : State) (g : CalSt → CalSt) : (s.setCalSt g).regs = s.regs := rfl
@[simp] theorem State.setCalSt_hbm (s : State) (g : CalSt → CalSt) : (s.setCalSt g).hbm = s.hbm := rfl
@[simp] theorem State.setCalSt_clk (s : State) (g : CalSt → CalSt) : (s.setCalSt g).clk = s.clk := rfl
@[simp] theorem State.setCalSt_cal (s : State) (g : CalSt → CalSt) : (s.setCalSt g).cal = g s.cal := rfl
@[simp] theorem State.setCalSt_sw (s : State) (g : CalSt → CalSt) : (s.setCalSt g).sw = s.sw := rfl
@[simp] theorem State.setCalSt_tbl (s : State) (g : CalSt → CalSt) : (s.setCalSt g).tbl = s.tbl := rfl
@[simp] theorem State.setCalSt_pho (s : State) (g : CalSt → CalSt) : (s.setCalSt g).pho = s.pho := rfl
@[simp] theorem State.setCalSt_mgmt (s : State) (g : CalSt → CalSt) : (s.setCalSt g).mgmt = s.mgmt := rfl
@[simp] theorem State.setCalSt_fuse (s : State) (g : CalSt → CalSt) : (s.setCalSt g).fuse = s.fuse := rfl
@[simp] theorem State.setCalSt_col (s : State) (g : CalSt → CalSt) : (s.setCalSt g).col = s.col := rfl
@[simp] theorem State.setCalSt_twin (s : State) (g : CalSt → CalSt) : (s.setCalSt g).twin = s.twin := rfl
@[simp] theorem State.setCalSt_aer (s : State) (g : CalSt → CalSt) : (s.setCalSt g).aer = s.aer := rfl
@[simp] theorem State.setCalSt_flt (s : State) (g : CalSt → CalSt) : (s.setCalSt g).flt = s.flt := rfl
@[simp] theorem State.setCalSt_dump (s : State) (g : CalSt → CalSt) : (s.setCalSt g).dump = s.dump := rfl
@[simp] theorem State.setCalSt_sys (s : State) (g : CalSt → CalSt) : (s.setCalSt g).sys = s.sys := rfl
@[simp] theorem State.setCalSt_out (s : State) (g : CalSt → CalSt) : (s.setCalSt g).out = s.out := rfl

/-! setPort -/

@[simp] theorem State.setPort_pending (s : State) (p : Nat) (g : PortSt → PortSt) : (s.setPort p g).pending = s.pending := rfl
@[simp] theorem State.setPort_regs (s : State) (p : Nat) (g : PortSt → PortSt) : (s.setPort p g).regs = s.regs := rfl
@[simp] theorem State.setPort_hbm (s : State) (p : Nat) (g : PortSt → PortSt) : (s.setPort p g).hbm = s.hbm := rfl
@[simp] theorem State.setPort_clk (s : State) (p : Nat) (g : PortSt → PortSt) : (s.setPort p g).clk = s.clk := rfl
@[simp] theorem State.setPort_cal (s : State) (p : Nat) (g : PortSt → PortSt) : (s.setPort p g).cal = s.cal := rfl
@[simp] theorem State.setPort_tbl (s : State) (p : Nat) (g : PortSt → PortSt) : (s.setPort p g).tbl = s.tbl := rfl
@[simp] theorem State.setPort_pho (s : State) (p : Nat) (g : PortSt → PortSt) : (s.setPort p g).pho = s.pho := rfl
@[simp] theorem State.setPort_mgmt (s : State) (p : Nat) (g : PortSt → PortSt) : (s.setPort p g).mgmt = s.mgmt := rfl
@[simp] theorem State.setPort_fuse (s : State) (p : Nat) (g : PortSt → PortSt) : (s.setPort p g).fuse = s.fuse := rfl
@[simp] theorem State.setPort_col (s : State) (p : Nat) (g : PortSt → PortSt) : (s.setPort p g).col = s.col := rfl
@[simp] theorem State.setPort_twin (s : State) (p : Nat) (g : PortSt → PortSt) : (s.setPort p g).twin = s.twin := rfl
@[simp] theorem State.setPort_aer (s : State) (p : Nat) (g : PortSt → PortSt) : (s.setPort p g).aer = s.aer := rfl
@[simp] theorem State.setPort_flt (s : State) (p : Nat) (g : PortSt → PortSt) : (s.setPort p g).flt = s.flt := rfl
@[simp] theorem State.setPort_dump (s : State) (p : Nat) (g : PortSt → PortSt) : (s.setPort p g).dump = s.dump := rfl
@[simp] theorem State.setPort_sys (s : State) (p : Nat) (g : PortSt → PortSt) : (s.setPort p g).sys = s.sys := rfl
@[simp] theorem State.setPort_out (s : State) (p : Nat) (g : PortSt → PortSt) : (s.setPort p g).out = s.out := rfl

/-! setDie -/

@[simp] theorem State.setDie_pending (s : State) (d : Nat) (g : DieSt → DieSt) : (s.setDie d g).pending = s.pending := rfl
@[simp] theorem State.setDie_regs (s : State) (d : Nat) (g : DieSt → DieSt) : (s.setDie d g).regs = s.regs := rfl
@[simp] theorem State.setDie_hbm (s : State) (d : Nat) (g : DieSt → DieSt) : (s.setDie d g).hbm = s.hbm := rfl
@[simp] theorem State.setDie_clk (s : State) (d : Nat) (g : DieSt → DieSt) : (s.setDie d g).clk = s.clk := rfl
@[simp] theorem State.setDie_cal (s : State) (d : Nat) (g : DieSt → DieSt) : (s.setDie d g).cal = s.cal := rfl
@[simp] theorem State.setDie_tbl (s : State) (d : Nat) (g : DieSt → DieSt) : (s.setDie d g).tbl = s.tbl := rfl
@[simp] theorem State.setDie_pho (s : State) (d : Nat) (g : DieSt → DieSt) : (s.setDie d g).pho = s.pho := rfl
@[simp] theorem State.setDie_mgmt (s : State) (d : Nat) (g : DieSt → DieSt) : (s.setDie d g).mgmt = s.mgmt := rfl
@[simp] theorem State.setDie_fuse (s : State) (d : Nat) (g : DieSt → DieSt) : (s.setDie d g).fuse = s.fuse := rfl
@[simp] theorem State.setDie_col (s : State) (d : Nat) (g : DieSt → DieSt) : (s.setDie d g).col = s.col := rfl
@[simp] theorem State.setDie_twin (s : State) (d : Nat) (g : DieSt → DieSt) : (s.setDie d g).twin = s.twin := rfl
@[simp] theorem State.setDie_aer (s : State) (d : Nat) (g : DieSt → DieSt) : (s.setDie d g).aer = s.aer := rfl
@[simp] theorem State.setDie_flt (s : State) (d : Nat) (g : DieSt → DieSt) : (s.setDie d g).flt = s.flt := rfl
@[simp] theorem State.setDie_dump (s : State) (d : Nat) (g : DieSt → DieSt) : (s.setDie d g).dump = s.dump := rfl
@[simp] theorem State.setDie_sys (s : State) (d : Nat) (g : DieSt → DieSt) : (s.setDie d g).sys = s.sys := rfl
@[simp] theorem State.setDie_out (s : State) (d : Nat) (g : DieSt → DieSt) : (s.setDie d g).out = s.out := rfl

/-! setLane -/

@[simp] theorem State.setLane_pending (s : State) (l : Nat) (g : LaneSt → LaneSt) : (s.setLane l g).pending = s.pending := rfl
@[simp] theorem State.setLane_regs (s : State) (l : Nat) (g : LaneSt → LaneSt) : (s.setLane l g).regs = s.regs := rfl
@[simp] theorem State.setLane_hbm (s : State) (l : Nat) (g : LaneSt → LaneSt) : (s.setLane l g).hbm = s.hbm := rfl
@[simp] theorem State.setLane_clk (s : State) (l : Nat) (g : LaneSt → LaneSt) : (s.setLane l g).clk = s.clk := rfl
@[simp] theorem State.setLane_cal (s : State) (l : Nat) (g : LaneSt → LaneSt) : (s.setLane l g).cal = s.cal := rfl
@[simp] theorem State.setLane_sw (s : State) (l : Nat) (g : LaneSt → LaneSt) : (s.setLane l g).sw = s.sw := rfl
@[simp] theorem State.setLane_tbl (s : State) (l : Nat) (g : LaneSt → LaneSt) : (s.setLane l g).tbl = s.tbl := rfl
@[simp] theorem State.setLane_mgmt (s : State) (l : Nat) (g : LaneSt → LaneSt) : (s.setLane l g).mgmt = s.mgmt := rfl
@[simp] theorem State.setLane_fuse (s : State) (l : Nat) (g : LaneSt → LaneSt) : (s.setLane l g).fuse = s.fuse := rfl
@[simp] theorem State.setLane_col (s : State) (l : Nat) (g : LaneSt → LaneSt) : (s.setLane l g).col = s.col := rfl
@[simp] theorem State.setLane_twin (s : State) (l : Nat) (g : LaneSt → LaneSt) : (s.setLane l g).twin = s.twin := rfl
@[simp] theorem State.setLane_aer (s : State) (l : Nat) (g : LaneSt → LaneSt) : (s.setLane l g).aer = s.aer := rfl
@[simp] theorem State.setLane_flt (s : State) (l : Nat) (g : LaneSt → LaneSt) : (s.setLane l g).flt = s.flt := rfl
@[simp] theorem State.setLane_dump (s : State) (l : Nat) (g : LaneSt → LaneSt) : (s.setLane l g).dump = s.dump := rfl
@[simp] theorem State.setLane_sys (s : State) (l : Nat) (g : LaneSt → LaneSt) : (s.setLane l g).sys = s.sys := rfl
@[simp] theorem State.setLane_out (s : State) (l : Nat) (g : LaneSt → LaneSt) : (s.setLane l g).out = s.out := rfl

/-! setCarrier -/

@[simp] theorem State.setCarrier_pending (s : State) (f : Nat) (w : Nat) (g : CarrierSt → CarrierSt) : (s.setCarrier f w g).pending = s.pending := rfl
@[simp] theorem State.setCarrier_regs (s : State) (f : Nat) (w : Nat) (g : CarrierSt → CarrierSt) : (s.setCarrier f w g).regs = s.regs := rfl
@[simp] theorem State.setCarrier_hbm (s : State) (f : Nat) (w : Nat) (g : CarrierSt → CarrierSt) : (s.setCarrier f w g).hbm = s.hbm := rfl
@[simp] theorem State.setCarrier_clk (s : State) (f : Nat) (w : Nat) (g : CarrierSt → CarrierSt) : (s.setCarrier f w g).clk = s.clk := rfl
@[simp] theorem State.setCarrier_cal (s : State) (f : Nat) (w : Nat) (g : CarrierSt → CarrierSt) : (s.setCarrier f w g).cal = s.cal := rfl
@[simp] theorem State.setCarrier_sw (s : State) (f : Nat) (w : Nat) (g : CarrierSt → CarrierSt) : (s.setCarrier f w g).sw = s.sw := rfl
@[simp] theorem State.setCarrier_tbl (s : State) (f : Nat) (w : Nat) (g : CarrierSt → CarrierSt) : (s.setCarrier f w g).tbl = s.tbl := rfl
@[simp] theorem State.setCarrier_mgmt (s : State) (f : Nat) (w : Nat) (g : CarrierSt → CarrierSt) : (s.setCarrier f w g).mgmt = s.mgmt := rfl
@[simp] theorem State.setCarrier_fuse (s : State) (f : Nat) (w : Nat) (g : CarrierSt → CarrierSt) : (s.setCarrier f w g).fuse = s.fuse := rfl
@[simp] theorem State.setCarrier_col (s : State) (f : Nat) (w : Nat) (g : CarrierSt → CarrierSt) : (s.setCarrier f w g).col = s.col := rfl
@[simp] theorem State.setCarrier_twin (s : State) (f : Nat) (w : Nat) (g : CarrierSt → CarrierSt) : (s.setCarrier f w g).twin = s.twin := rfl
@[simp] theorem State.setCarrier_aer (s : State) (f : Nat) (w : Nat) (g : CarrierSt → CarrierSt) : (s.setCarrier f w g).aer = s.aer := rfl
@[simp] theorem State.setCarrier_flt (s : State) (f : Nat) (w : Nat) (g : CarrierSt → CarrierSt) : (s.setCarrier f w g).flt = s.flt := rfl
@[simp] theorem State.setCarrier_dump (s : State) (f : Nat) (w : Nat) (g : CarrierSt → CarrierSt) : (s.setCarrier f w g).dump = s.dump := rfl
@[simp] theorem State.setCarrier_sys (s : State) (f : Nat) (w : Nat) (g : CarrierSt → CarrierSt) : (s.setCarrier f w g).sys = s.sys := rfl
@[simp] theorem State.setCarrier_out (s : State) (f : Nat) (w : Nat) (g : CarrierSt → CarrierSt) : (s.setCarrier f w g).out = s.out := rfl

/-! setEls -/

@[simp] theorem State.setEls_pending (s : State) (m : Nat) (g : ElsSt → ElsSt) : (s.setEls m g).pending = s.pending := rfl
@[simp] theorem State.setEls_regs (s : State) (m : Nat) (g : ElsSt → ElsSt) : (s.setEls m g).regs = s.regs := rfl
@[simp] theorem State.setEls_hbm (s : State) (m : Nat) (g : ElsSt → ElsSt) : (s.setEls m g).hbm = s.hbm := rfl
@[simp] theorem State.setEls_clk (s : State) (m : Nat) (g : ElsSt → ElsSt) : (s.setEls m g).clk = s.clk := rfl
@[simp] theorem State.setEls_cal (s : State) (m : Nat) (g : ElsSt → ElsSt) : (s.setEls m g).cal = s.cal := rfl
@[simp] theorem State.setEls_sw (s : State) (m : Nat) (g : ElsSt → ElsSt) : (s.setEls m g).sw = s.sw := rfl
@[simp] theorem State.setEls_tbl (s : State) (m : Nat) (g : ElsSt → ElsSt) : (s.setEls m g).tbl = s.tbl := rfl
@[simp] theorem State.setEls_mgmt (s : State) (m : Nat) (g : ElsSt → ElsSt) : (s.setEls m g).mgmt = s.mgmt := rfl
@[simp] theorem State.setEls_fuse (s : State) (m : Nat) (g : ElsSt → ElsSt) : (s.setEls m g).fuse = s.fuse := rfl
@[simp] theorem State.setEls_col (s : State) (m : Nat) (g : ElsSt → ElsSt) : (s.setEls m g).col = s.col := rfl
@[simp] theorem State.setEls_twin (s : State) (m : Nat) (g : ElsSt → ElsSt) : (s.setEls m g).twin = s.twin := rfl
@[simp] theorem State.setEls_aer (s : State) (m : Nat) (g : ElsSt → ElsSt) : (s.setEls m g).aer = s.aer := rfl
@[simp] theorem State.setEls_flt (s : State) (m : Nat) (g : ElsSt → ElsSt) : (s.setEls m g).flt = s.flt := rfl
@[simp] theorem State.setEls_dump (s : State) (m : Nat) (g : ElsSt → ElsSt) : (s.setEls m g).dump = s.dump := rfl
@[simp] theorem State.setEls_sys (s : State) (m : Nat) (g : ElsSt → ElsSt) : (s.setEls m g).sys = s.sys := rfl
@[simp] theorem State.setEls_out (s : State) (m : Nat) (g : ElsSt → ElsSt) : (s.setEls m g).out = s.out := rfl

/-! setCtx -/

@[simp] theorem State.setCtx_pending (s : State) (c : Nat) (g : CtxSt → CtxSt) : (s.setCtx c g).pending = s.pending := rfl
@[simp] theorem State.setCtx_regs (s : State) (c : Nat) (g : CtxSt → CtxSt) : (s.setCtx c g).regs = s.regs := rfl
@[simp] theorem State.setCtx_hbm (s : State) (c : Nat) (g : CtxSt → CtxSt) : (s.setCtx c g).hbm = s.hbm := rfl
@[simp] theorem State.setCtx_clk (s : State) (c : Nat) (g : CtxSt → CtxSt) : (s.setCtx c g).clk = s.clk := rfl
@[simp] theorem State.setCtx_cal (s : State) (c : Nat) (g : CtxSt → CtxSt) : (s.setCtx c g).cal = s.cal := rfl
@[simp] theorem State.setCtx_sw (s : State) (c : Nat) (g : CtxSt → CtxSt) : (s.setCtx c g).sw = s.sw := rfl
@[simp] theorem State.setCtx_tbl (s : State) (c : Nat) (g : CtxSt → CtxSt) : (s.setCtx c g).tbl = s.tbl := rfl
@[simp] theorem State.setCtx_pho (s : State) (c : Nat) (g : CtxSt → CtxSt) : (s.setCtx c g).pho = s.pho := rfl
@[simp] theorem State.setCtx_mgmt (s : State) (c : Nat) (g : CtxSt → CtxSt) : (s.setCtx c g).mgmt = s.mgmt := rfl
@[simp] theorem State.setCtx_fuse (s : State) (c : Nat) (g : CtxSt → CtxSt) : (s.setCtx c g).fuse = s.fuse := rfl
@[simp] theorem State.setCtx_twin (s : State) (c : Nat) (g : CtxSt → CtxSt) : (s.setCtx c g).twin = s.twin := rfl
@[simp] theorem State.setCtx_aer (s : State) (c : Nat) (g : CtxSt → CtxSt) : (s.setCtx c g).aer = s.aer := rfl
@[simp] theorem State.setCtx_flt (s : State) (c : Nat) (g : CtxSt → CtxSt) : (s.setCtx c g).flt = s.flt := rfl
@[simp] theorem State.setCtx_dump (s : State) (c : Nat) (g : CtxSt → CtxSt) : (s.setCtx c g).dump = s.dump := rfl
@[simp] theorem State.setCtx_sys (s : State) (c : Nat) (g : CtxSt → CtxSt) : (s.setCtx c g).sys = s.sys := rfl
@[simp] theorem State.setCtx_out (s : State) (c : Nat) (g : CtxSt → CtxSt) : (s.setCtx c g).out = s.out := rfl

/-! setCore -/

@[simp] theorem State.setCore_pending (s : State) (n : Nat) (g : CoreSt → CoreSt) : (s.setCore n g).pending = s.pending := rfl
@[simp] theorem State.setCore_regs (s : State) (n : Nat) (g : CoreSt → CoreSt) : (s.setCore n g).regs = s.regs := rfl
@[simp] theorem State.setCore_hbm (s : State) (n : Nat) (g : CoreSt → CoreSt) : (s.setCore n g).hbm = s.hbm := rfl
@[simp] theorem State.setCore_clk (s : State) (n : Nat) (g : CoreSt → CoreSt) : (s.setCore n g).clk = s.clk := rfl
@[simp] theorem State.setCore_cal (s : State) (n : Nat) (g : CoreSt → CoreSt) : (s.setCore n g).cal = s.cal := rfl
@[simp] theorem State.setCore_sw (s : State) (n : Nat) (g : CoreSt → CoreSt) : (s.setCore n g).sw = s.sw := rfl
@[simp] theorem State.setCore_tbl (s : State) (n : Nat) (g : CoreSt → CoreSt) : (s.setCore n g).tbl = s.tbl := rfl
@[simp] theorem State.setCore_pho (s : State) (n : Nat) (g : CoreSt → CoreSt) : (s.setCore n g).pho = s.pho := rfl
@[simp] theorem State.setCore_mgmt (s : State) (n : Nat) (g : CoreSt → CoreSt) : (s.setCore n g).mgmt = s.mgmt := rfl
@[simp] theorem State.setCore_fuse (s : State) (n : Nat) (g : CoreSt → CoreSt) : (s.setCore n g).fuse = s.fuse := rfl
@[simp] theorem State.setCore_twin (s : State) (n : Nat) (g : CoreSt → CoreSt) : (s.setCore n g).twin = s.twin := rfl
@[simp] theorem State.setCore_aer (s : State) (n : Nat) (g : CoreSt → CoreSt) : (s.setCore n g).aer = s.aer := rfl
@[simp] theorem State.setCore_flt (s : State) (n : Nat) (g : CoreSt → CoreSt) : (s.setCore n g).flt = s.flt := rfl
@[simp] theorem State.setCore_dump (s : State) (n : Nat) (g : CoreSt → CoreSt) : (s.setCore n g).dump = s.dump := rfl
@[simp] theorem State.setCore_sys (s : State) (n : Nat) (g : CoreSt → CoreSt) : (s.setCore n g).sys = s.sys := rfl
@[simp] theorem State.setCore_out (s : State) (n : Nat) (g : CoreSt → CoreSt) : (s.setCore n g).out = s.out := rfl

/-! setEng -/

@[simp] theorem State.setEng_pending (s : State) (e : Nat) (g : EngSt → EngSt) : (s.setEng e g).pending = s.pending := rfl
@[simp] theorem State.setEng_regs (s : State) (e : Nat) (g : EngSt → EngSt) : (s.setEng e g).regs = s.regs := rfl
@[simp] theorem State.setEng_hbm (s : State) (e : Nat) (g : EngSt → EngSt) : (s.setEng e g).hbm = s.hbm := rfl
@[simp] theorem State.setEng_clk (s : State) (e : Nat) (g : EngSt → EngSt) : (s.setEng e g).clk = s.clk := rfl
@[simp] theorem State.setEng_cal (s : State) (e : Nat) (g : EngSt → EngSt) : (s.setEng e g).cal = s.cal := rfl
@[simp] theorem State.setEng_sw (s : State) (e : Nat) (g : EngSt → EngSt) : (s.setEng e g).sw = s.sw := rfl
@[simp] theorem State.setEng_tbl (s : State) (e : Nat) (g : EngSt → EngSt) : (s.setEng e g).tbl = s.tbl := rfl
@[simp] theorem State.setEng_pho (s : State) (e : Nat) (g : EngSt → EngSt) : (s.setEng e g).pho = s.pho := rfl
@[simp] theorem State.setEng_mgmt (s : State) (e : Nat) (g : EngSt → EngSt) : (s.setEng e g).mgmt = s.mgmt := rfl
@[simp] theorem State.setEng_fuse (s : State) (e : Nat) (g : EngSt → EngSt) : (s.setEng e g).fuse = s.fuse := rfl
@[simp] theorem State.setEng_twin (s : State) (e : Nat) (g : EngSt → EngSt) : (s.setEng e g).twin = s.twin := rfl
@[simp] theorem State.setEng_aer (s : State) (e : Nat) (g : EngSt → EngSt) : (s.setEng e g).aer = s.aer := rfl
@[simp] theorem State.setEng_flt (s : State) (e : Nat) (g : EngSt → EngSt) : (s.setEng e g).flt = s.flt := rfl
@[simp] theorem State.setEng_dump (s : State) (e : Nat) (g : EngSt → EngSt) : (s.setEng e g).dump = s.dump := rfl
@[simp] theorem State.setEng_sys (s : State) (e : Nat) (g : EngSt → EngSt) : (s.setEng e g).sys = s.sys := rfl
@[simp] theorem State.setEng_out (s : State) (e : Nat) (g : EngSt → EngSt) : (s.setEng e g).out = s.out := rfl

/-! setPcal -/

@[simp] theorem State.setPcal_pending (s : State) (p : Nat) (g : PortCal → PortCal) : (s.setPcal p g).pending = s.pending := rfl
@[simp] theorem State.setPcal_regs (s : State) (p : Nat) (g : PortCal → PortCal) : (s.setPcal p g).regs = s.regs := rfl
@[simp] theorem State.setPcal_hbm (s : State) (p : Nat) (g : PortCal → PortCal) : (s.setPcal p g).hbm = s.hbm := rfl
@[simp] theorem State.setPcal_clk (s : State) (p : Nat) (g : PortCal → PortCal) : (s.setPcal p g).clk = s.clk := rfl
@[simp] theorem State.setPcal_sw (s : State) (p : Nat) (g : PortCal → PortCal) : (s.setPcal p g).sw = s.sw := rfl
@[simp] theorem State.setPcal_tbl (s : State) (p : Nat) (g : PortCal → PortCal) : (s.setPcal p g).tbl = s.tbl := rfl
@[simp] theorem State.setPcal_pho (s : State) (p : Nat) (g : PortCal → PortCal) : (s.setPcal p g).pho = s.pho := rfl
@[simp] theorem State.setPcal_mgmt (s : State) (p : Nat) (g : PortCal → PortCal) : (s.setPcal p g).mgmt = s.mgmt := rfl
@[simp] theorem State.setPcal_fuse (s : State) (p : Nat) (g : PortCal → PortCal) : (s.setPcal p g).fuse = s.fuse := rfl
@[simp] theorem State.setPcal_col (s : State) (p : Nat) (g : PortCal → PortCal) : (s.setPcal p g).col = s.col := rfl
@[simp] theorem State.setPcal_twin (s : State) (p : Nat) (g : PortCal → PortCal) : (s.setPcal p g).twin = s.twin := rfl
@[simp] theorem State.setPcal_aer (s : State) (p : Nat) (g : PortCal → PortCal) : (s.setPcal p g).aer = s.aer := rfl
@[simp] theorem State.setPcal_flt (s : State) (p : Nat) (g : PortCal → PortCal) : (s.setPcal p g).flt = s.flt := rfl
@[simp] theorem State.setPcal_dump (s : State) (p : Nat) (g : PortCal → PortCal) : (s.setPcal p g).dump = s.dump := rfl
@[simp] theorem State.setPcal_sys (s : State) (p : Nat) (g : PortCal → PortCal) : (s.setPcal p g).sys = s.sys := rfl
@[simp] theorem State.setPcal_out (s : State) (p : Nat) (g : PortCal → PortCal) : (s.setPcal p g).out = s.out := rfl

/-! rset -/

@[simp] theorem State.rset_pending (s : State) (a : Nat) (v : Nat) : (s.rset a v).pending = s.pending := rfl
@[simp] theorem State.rset_hbm (s : State) (a : Nat) (v : Nat) : (s.rset a v).hbm = s.hbm := rfl
@[simp] theorem State.rset_clk (s : State) (a : Nat) (v : Nat) : (s.rset a v).clk = s.clk := rfl
@[simp] theorem State.rset_cal (s : State) (a : Nat) (v : Nat) : (s.rset a v).cal = s.cal := rfl
@[simp] theorem State.rset_sw (s : State) (a : Nat) (v : Nat) : (s.rset a v).sw = s.sw := rfl
@[simp] theorem State.rset_tbl (s : State) (a : Nat) (v : Nat) : (s.rset a v).tbl = s.tbl := rfl
@[simp] theorem State.rset_pho (s : State) (a : Nat) (v : Nat) : (s.rset a v).pho = s.pho := rfl
@[simp] theorem State.rset_mgmt (s : State) (a : Nat) (v : Nat) : (s.rset a v).mgmt = s.mgmt := rfl
@[simp] theorem State.rset_fuse (s : State) (a : Nat) (v : Nat) : (s.rset a v).fuse = s.fuse := rfl
@[simp] theorem State.rset_col (s : State) (a : Nat) (v : Nat) : (s.rset a v).col = s.col := rfl
@[simp] theorem State.rset_twin (s : State) (a : Nat) (v : Nat) : (s.rset a v).twin = s.twin := rfl
@[simp] theorem State.rset_aer (s : State) (a : Nat) (v : Nat) : (s.rset a v).aer = s.aer := rfl
@[simp] theorem State.rset_flt (s : State) (a : Nat) (v : Nat) : (s.rset a v).flt = s.flt := rfl
@[simp] theorem State.rset_dump (s : State) (a : Nat) (v : Nat) : (s.rset a v).dump = s.dump := rfl
@[simp] theorem State.rset_sys (s : State) (a : Nat) (v : Nat) : (s.rset a v).sys = s.sys := rfl
@[simp] theorem State.rset_out (s : State) (a : Nat) (v : Nat) : (s.rset a v).out = s.out := rfl

/-! hwrite -/

@[simp] theorem State.hwrite_pending (s : State) (a : Nat) (bs : Bytes) : (s.hwrite a bs).pending = s.pending := rfl
@[simp] theorem State.hwrite_regs (s : State) (a : Nat) (bs : Bytes) : (s.hwrite a bs).regs = s.regs := rfl
@[simp] theorem State.hwrite_clk (s : State) (a : Nat) (bs : Bytes) : (s.hwrite a bs).clk = s.clk := rfl
@[simp] theorem State.hwrite_cal (s : State) (a : Nat) (bs : Bytes) : (s.hwrite a bs).cal = s.cal := rfl
@[simp] theorem State.hwrite_sw (s : State) (a : Nat) (bs : Bytes) : (s.hwrite a bs).sw = s.sw := rfl
@[simp] theorem State.hwrite_tbl (s : State) (a : Nat) (bs : Bytes) : (s.hwrite a bs).tbl = s.tbl := rfl
@[simp] theorem State.hwrite_pho (s : State) (a : Nat) (bs : Bytes) : (s.hwrite a bs).pho = s.pho := rfl
@[simp] theorem State.hwrite_mgmt (s : State) (a : Nat) (bs : Bytes) : (s.hwrite a bs).mgmt = s.mgmt := rfl
@[simp] theorem State.hwrite_fuse (s : State) (a : Nat) (bs : Bytes) : (s.hwrite a bs).fuse = s.fuse := rfl
@[simp] theorem State.hwrite_col (s : State) (a : Nat) (bs : Bytes) : (s.hwrite a bs).col = s.col := rfl
@[simp] theorem State.hwrite_twin (s : State) (a : Nat) (bs : Bytes) : (s.hwrite a bs).twin = s.twin := rfl
@[simp] theorem State.hwrite_aer (s : State) (a : Nat) (bs : Bytes) : (s.hwrite a bs).aer = s.aer := rfl
@[simp] theorem State.hwrite_flt (s : State) (a : Nat) (bs : Bytes) : (s.hwrite a bs).flt = s.flt := rfl
@[simp] theorem State.hwrite_dump (s : State) (a : Nat) (bs : Bytes) : (s.hwrite a bs).dump = s.dump := rfl
@[simp] theorem State.hwrite_sys (s : State) (a : Nat) (bs : Bytes) : (s.hwrite a bs).sys = s.sys := rfl
@[simp] theorem State.hwrite_out (s : State) (a : Nat) (bs : Bytes) : (s.hwrite a bs).out = s.out := rfl

/-! send -/

@[simp] theorem State.send_pending (s : State) (x : Sent) : (s.send x).pending = s.pending := rfl
@[simp] theorem State.send_regs (s : State) (x : Sent) : (s.send x).regs = s.regs := rfl
@[simp] theorem State.send_hbm (s : State) (x : Sent) : (s.send x).hbm = s.hbm := rfl
@[simp] theorem State.send_clk (s : State) (x : Sent) : (s.send x).clk = s.clk := rfl
@[simp] theorem State.send_cal (s : State) (x : Sent) : (s.send x).cal = s.cal := rfl
@[simp] theorem State.send_sw (s : State) (x : Sent) : (s.send x).sw = s.sw := rfl
@[simp] theorem State.send_tbl (s : State) (x : Sent) : (s.send x).tbl = s.tbl := rfl
@[simp] theorem State.send_pho (s : State) (x : Sent) : (s.send x).pho = s.pho := rfl
@[simp] theorem State.send_mgmt (s : State) (x : Sent) : (s.send x).mgmt = s.mgmt := rfl
@[simp] theorem State.send_fuse (s : State) (x : Sent) : (s.send x).fuse = s.fuse := rfl
@[simp] theorem State.send_col (s : State) (x : Sent) : (s.send x).col = s.col := rfl
@[simp] theorem State.send_twin (s : State) (x : Sent) : (s.send x).twin = s.twin := rfl
@[simp] theorem State.send_aer (s : State) (x : Sent) : (s.send x).aer = s.aer := rfl
@[simp] theorem State.send_flt (s : State) (x : Sent) : (s.send x).flt = s.flt := rfl
@[simp] theorem State.send_dump (s : State) (x : Sent) : (s.send x).dump = s.dump := rfl
@[simp] theorem State.send_sys (s : State) (x : Sent) : (s.send x).sys = s.sys := rfl

/-! fset -/

@[simp] theorem State.fset_pending (s : State) (a : Nat) (hi : Nat) (lo : Nat) (v : Nat) : (s.fset a hi lo v).pending = s.pending := rfl
@[simp] theorem State.fset_hbm (s : State) (a : Nat) (hi : Nat) (lo : Nat) (v : Nat) : (s.fset a hi lo v).hbm = s.hbm := rfl
@[simp] theorem State.fset_clk (s : State) (a : Nat) (hi : Nat) (lo : Nat) (v : Nat) : (s.fset a hi lo v).clk = s.clk := rfl
@[simp] theorem State.fset_cal (s : State) (a : Nat) (hi : Nat) (lo : Nat) (v : Nat) : (s.fset a hi lo v).cal = s.cal := rfl
@[simp] theorem State.fset_sw (s : State) (a : Nat) (hi : Nat) (lo : Nat) (v : Nat) : (s.fset a hi lo v).sw = s.sw := rfl
@[simp] theorem State.fset_tbl (s : State) (a : Nat) (hi : Nat) (lo : Nat) (v : Nat) : (s.fset a hi lo v).tbl = s.tbl := rfl
@[simp] theorem State.fset_pho (s : State) (a : Nat) (hi : Nat) (lo : Nat) (v : Nat) : (s.fset a hi lo v).pho = s.pho := rfl
@[simp] theorem State.fset_mgmt (s : State) (a : Nat) (hi : Nat) (lo : Nat) (v : Nat) : (s.fset a hi lo v).mgmt = s.mgmt := rfl
@[simp] theorem State.fset_fuse (s : State) (a : Nat) (hi : Nat) (lo : Nat) (v : Nat) : (s.fset a hi lo v).fuse = s.fuse := rfl
@[simp] theorem State.fset_col (s : State) (a : Nat) (hi : Nat) (lo : Nat) (v : Nat) : (s.fset a hi lo v).col = s.col := rfl
@[simp] theorem State.fset_twin (s : State) (a : Nat) (hi : Nat) (lo : Nat) (v : Nat) : (s.fset a hi lo v).twin = s.twin := rfl
@[simp] theorem State.fset_aer (s : State) (a : Nat) (hi : Nat) (lo : Nat) (v : Nat) : (s.fset a hi lo v).aer = s.aer := rfl
@[simp] theorem State.fset_flt (s : State) (a : Nat) (hi : Nat) (lo : Nat) (v : Nat) : (s.fset a hi lo v).flt = s.flt := rfl
@[simp] theorem State.fset_dump (s : State) (a : Nat) (hi : Nat) (lo : Nat) (v : Nat) : (s.fset a hi lo v).dump = s.dump := rfl
@[simp] theorem State.fset_sys (s : State) (a : Nat) (hi : Nat) (lo : Nat) (v : Nat) : (s.fset a hi lo v).sys = s.sys := rfl
@[simp] theorem State.fset_out (s : State) (a : Nat) (hi : Nat) (lo : Nat) (v : Nat) : (s.fset a hi lo v).out = s.out := rfl

/-! bset -/

@[simp] theorem State.bset_pending (s : State) (a : Nat) (i : Nat) (b : Bool) : (s.bset a i b).pending = s.pending := rfl
@[simp] theorem State.bset_hbm (s : State) (a : Nat) (i : Nat) (b : Bool) : (s.bset a i b).hbm = s.hbm := rfl
@[simp] theorem State.bset_clk (s : State) (a : Nat) (i : Nat) (b : Bool) : (s.bset a i b).clk = s.clk := rfl
@[simp] theorem State.bset_cal (s : State) (a : Nat) (i : Nat) (b : Bool) : (s.bset a i b).cal = s.cal := rfl
@[simp] theorem State.bset_sw (s : State) (a : Nat) (i : Nat) (b : Bool) : (s.bset a i b).sw = s.sw := rfl
@[simp] theorem State.bset_tbl (s : State) (a : Nat) (i : Nat) (b : Bool) : (s.bset a i b).tbl = s.tbl := rfl
@[simp] theorem State.bset_pho (s : State) (a : Nat) (i : Nat) (b : Bool) : (s.bset a i b).pho = s.pho := rfl
@[simp] theorem State.bset_mgmt (s : State) (a : Nat) (i : Nat) (b : Bool) : (s.bset a i b).mgmt = s.mgmt := rfl
@[simp] theorem State.bset_fuse (s : State) (a : Nat) (i : Nat) (b : Bool) : (s.bset a i b).fuse = s.fuse := rfl
@[simp] theorem State.bset_col (s : State) (a : Nat) (i : Nat) (b : Bool) : (s.bset a i b).col = s.col := rfl
@[simp] theorem State.bset_twin (s : State) (a : Nat) (i : Nat) (b : Bool) : (s.bset a i b).twin = s.twin := rfl
@[simp] theorem State.bset_aer (s : State) (a : Nat) (i : Nat) (b : Bool) : (s.bset a i b).aer = s.aer := rfl
@[simp] theorem State.bset_flt (s : State) (a : Nat) (i : Nat) (b : Bool) : (s.bset a i b).flt = s.flt := rfl
@[simp] theorem State.bset_dump (s : State) (a : Nat) (i : Nat) (b : Bool) : (s.bset a i b).dump = s.dump := rfl
@[simp] theorem State.bset_sys (s : State) (a : Nat) (i : Nat) (b : Bool) : (s.bset a i b).sys = s.sys := rfl
@[simp] theorem State.bset_out (s : State) (a : Nat) (i : Nat) (b : Bool) : (s.bset a i b).out = s.out := rfl

/-! bump -/

@[simp] theorem State.bump_pending (s : State) (a : Nat) (n : Nat) : (s.bump a n).pending = s.pending := rfl
@[simp] theorem State.bump_hbm (s : State) (a : Nat) (n : Nat) : (s.bump a n).hbm = s.hbm := rfl
@[simp] theorem State.bump_clk (s : State) (a : Nat) (n : Nat) : (s.bump a n).clk = s.clk := rfl
@[simp] theorem State.bump_cal (s : State) (a : Nat) (n : Nat) : (s.bump a n).cal = s.cal := rfl
@[simp] theorem State.bump_sw (s : State) (a : Nat) (n : Nat) : (s.bump a n).sw = s.sw := rfl
@[simp] theorem State.bump_tbl (s : State) (a : Nat) (n : Nat) : (s.bump a n).tbl = s.tbl := rfl
@[simp] theorem State.bump_pho (s : State) (a : Nat) (n : Nat) : (s.bump a n).pho = s.pho := rfl
@[simp] theorem State.bump_mgmt (s : State) (a : Nat) (n : Nat) : (s.bump a n).mgmt = s.mgmt := rfl
@[simp] theorem State.bump_fuse (s : State) (a : Nat) (n : Nat) : (s.bump a n).fuse = s.fuse := rfl
@[simp] theorem State.bump_col (s : State) (a : Nat) (n : Nat) : (s.bump a n).col = s.col := rfl
@[simp] theorem State.bump_twin (s : State) (a : Nat) (n : Nat) : (s.bump a n).twin = s.twin := rfl
@[simp] theorem State.bump_aer (s : State) (a : Nat) (n : Nat) : (s.bump a n).aer = s.aer := rfl
@[simp] theorem State.bump_flt (s : State) (a : Nat) (n : Nat) : (s.bump a n).flt = s.flt := rfl
@[simp] theorem State.bump_dump (s : State) (a : Nat) (n : Nat) : (s.bump a n).dump = s.dump := rfl
@[simp] theorem State.bump_sys (s : State) (a : Nat) (n : Nat) : (s.bump a n).sys = s.sys := rfl
@[simp] theorem State.bump_out (s : State) (a : Nat) (n : Nat) : (s.bump a n).out = s.out := rfl

/-! bump32 -/

@[simp] theorem State.bump32_pending (s : State) (a : Nat) (n : Nat) : (s.bump32 a n).pending = s.pending := rfl
@[simp] theorem State.bump32_hbm (s : State) (a : Nat) (n : Nat) : (s.bump32 a n).hbm = s.hbm := rfl
@[simp] theorem State.bump32_clk (s : State) (a : Nat) (n : Nat) : (s.bump32 a n).clk = s.clk := rfl
@[simp] theorem State.bump32_cal (s : State) (a : Nat) (n : Nat) : (s.bump32 a n).cal = s.cal := rfl
@[simp] theorem State.bump32_sw (s : State) (a : Nat) (n : Nat) : (s.bump32 a n).sw = s.sw := rfl
@[simp] theorem State.bump32_tbl (s : State) (a : Nat) (n : Nat) : (s.bump32 a n).tbl = s.tbl := rfl
@[simp] theorem State.bump32_pho (s : State) (a : Nat) (n : Nat) : (s.bump32 a n).pho = s.pho := rfl
@[simp] theorem State.bump32_mgmt (s : State) (a : Nat) (n : Nat) : (s.bump32 a n).mgmt = s.mgmt := rfl
@[simp] theorem State.bump32_fuse (s : State) (a : Nat) (n : Nat) : (s.bump32 a n).fuse = s.fuse := rfl
@[simp] theorem State.bump32_col (s : State) (a : Nat) (n : Nat) : (s.bump32 a n).col = s.col := rfl
@[simp] theorem State.bump32_twin (s : State) (a : Nat) (n : Nat) : (s.bump32 a n).twin = s.twin := rfl
@[simp] theorem State.bump32_aer (s : State) (a : Nat) (n : Nat) : (s.bump32 a n).aer = s.aer := rfl
@[simp] theorem State.bump32_flt (s : State) (a : Nat) (n : Nat) : (s.bump32 a n).flt = s.flt := rfl
@[simp] theorem State.bump32_dump (s : State) (a : Nat) (n : Nat) : (s.bump32 a n).dump = s.dump := rfl
@[simp] theorem State.bump32_sys (s : State) (a : Nat) (n : Nat) : (s.bump32 a n).sys = s.sys := rfl
@[simp] theorem State.bump32_out (s : State) (a : Nat) (n : Nat) : (s.bump32 a n).out = s.out := rfl

/-! advance -/

@[simp] theorem State.advance_pending (s : State) (a : Nat) : (s.advance a).pending = s.pending := rfl
@[simp] theorem State.advance_hbm (s : State) (a : Nat) : (s.advance a).hbm = s.hbm := rfl
@[simp] theorem State.advance_clk (s : State) (a : Nat) : (s.advance a).clk = s.clk := rfl
@[simp] theorem State.advance_cal (s : State) (a : Nat) : (s.advance a).cal = s.cal := rfl
@[simp] theorem State.advance_sw (s : State) (a : Nat) : (s.advance a).sw = s.sw := rfl
@[simp] theorem State.advance_tbl (s : State) (a : Nat) : (s.advance a).tbl = s.tbl := rfl
@[simp] theorem State.advance_pho (s : State) (a : Nat) : (s.advance a).pho = s.pho := rfl
@[simp] theorem State.advance_mgmt (s : State) (a : Nat) : (s.advance a).mgmt = s.mgmt := rfl
@[simp] theorem State.advance_fuse (s : State) (a : Nat) : (s.advance a).fuse = s.fuse := rfl
@[simp] theorem State.advance_col (s : State) (a : Nat) : (s.advance a).col = s.col := rfl
@[simp] theorem State.advance_twin (s : State) (a : Nat) : (s.advance a).twin = s.twin := rfl
@[simp] theorem State.advance_aer (s : State) (a : Nat) : (s.advance a).aer = s.aer := rfl
@[simp] theorem State.advance_flt (s : State) (a : Nat) : (s.advance a).flt = s.flt := rfl
@[simp] theorem State.advance_dump (s : State) (a : Nat) : (s.advance a).dump = s.dump := rfl
@[simp] theorem State.advance_sys (s : State) (a : Nat) : (s.advance a).sys = s.sys := rfl
@[simp] theorem State.advance_out (s : State) (a : Nat) : (s.advance a).out = s.out := rfl

/-! portCtr -/

@[simp] theorem State.portCtr_pending (s : State) (k : PortCtr) (p : Nat) (n : Nat) : (s.portCtr k p n).pending = s.pending := rfl
@[simp] theorem State.portCtr_hbm (s : State) (k : PortCtr) (p : Nat) (n : Nat) : (s.portCtr k p n).hbm = s.hbm := rfl
@[simp] theorem State.portCtr_clk (s : State) (k : PortCtr) (p : Nat) (n : Nat) : (s.portCtr k p n).clk = s.clk := rfl
@[simp] theorem State.portCtr_cal (s : State) (k : PortCtr) (p : Nat) (n : Nat) : (s.portCtr k p n).cal = s.cal := rfl
@[simp] theorem State.portCtr_sw (s : State) (k : PortCtr) (p : Nat) (n : Nat) : (s.portCtr k p n).sw = s.sw := rfl
@[simp] theorem State.portCtr_tbl (s : State) (k : PortCtr) (p : Nat) (n : Nat) : (s.portCtr k p n).tbl = s.tbl := rfl
@[simp] theorem State.portCtr_pho (s : State) (k : PortCtr) (p : Nat) (n : Nat) : (s.portCtr k p n).pho = s.pho := rfl
@[simp] theorem State.portCtr_mgmt (s : State) (k : PortCtr) (p : Nat) (n : Nat) : (s.portCtr k p n).mgmt = s.mgmt := rfl
@[simp] theorem State.portCtr_fuse (s : State) (k : PortCtr) (p : Nat) (n : Nat) : (s.portCtr k p n).fuse = s.fuse := rfl
@[simp] theorem State.portCtr_col (s : State) (k : PortCtr) (p : Nat) (n : Nat) : (s.portCtr k p n).col = s.col := rfl
@[simp] theorem State.portCtr_twin (s : State) (k : PortCtr) (p : Nat) (n : Nat) : (s.portCtr k p n).twin = s.twin := rfl
@[simp] theorem State.portCtr_aer (s : State) (k : PortCtr) (p : Nat) (n : Nat) : (s.portCtr k p n).aer = s.aer := rfl
@[simp] theorem State.portCtr_flt (s : State) (k : PortCtr) (p : Nat) (n : Nat) : (s.portCtr k p n).flt = s.flt := rfl
@[simp] theorem State.portCtr_dump (s : State) (k : PortCtr) (p : Nat) (n : Nat) : (s.portCtr k p n).dump = s.dump := rfl
@[simp] theorem State.portCtr_sys (s : State) (k : PortCtr) (p : Nat) (n : Nat) : (s.portCtr k p n).sys = s.sys := rfl
@[simp] theorem State.portCtr_out (s : State) (k : PortCtr) (p : Nat) (n : Nat) : (s.portCtr k p n).out = s.out := rfl

/-! ctxCtr -/

@[simp] theorem State.ctxCtr_pending (s : State) (k : CtxCtr) (c : Nat) (n : Nat) : (s.ctxCtr k c n).pending = s.pending := rfl
@[simp] theorem State.ctxCtr_hbm (s : State) (k : CtxCtr) (c : Nat) (n : Nat) : (s.ctxCtr k c n).hbm = s.hbm := rfl
@[simp] theorem State.ctxCtr_clk (s : State) (k : CtxCtr) (c : Nat) (n : Nat) : (s.ctxCtr k c n).clk = s.clk := rfl
@[simp] theorem State.ctxCtr_cal (s : State) (k : CtxCtr) (c : Nat) (n : Nat) : (s.ctxCtr k c n).cal = s.cal := rfl
@[simp] theorem State.ctxCtr_sw (s : State) (k : CtxCtr) (c : Nat) (n : Nat) : (s.ctxCtr k c n).sw = s.sw := rfl
@[simp] theorem State.ctxCtr_tbl (s : State) (k : CtxCtr) (c : Nat) (n : Nat) : (s.ctxCtr k c n).tbl = s.tbl := rfl
@[simp] theorem State.ctxCtr_pho (s : State) (k : CtxCtr) (c : Nat) (n : Nat) : (s.ctxCtr k c n).pho = s.pho := rfl
@[simp] theorem State.ctxCtr_mgmt (s : State) (k : CtxCtr) (c : Nat) (n : Nat) : (s.ctxCtr k c n).mgmt = s.mgmt := rfl
@[simp] theorem State.ctxCtr_fuse (s : State) (k : CtxCtr) (c : Nat) (n : Nat) : (s.ctxCtr k c n).fuse = s.fuse := rfl
@[simp] theorem State.ctxCtr_col (s : State) (k : CtxCtr) (c : Nat) (n : Nat) : (s.ctxCtr k c n).col = s.col := rfl
@[simp] theorem State.ctxCtr_twin (s : State) (k : CtxCtr) (c : Nat) (n : Nat) : (s.ctxCtr k c n).twin = s.twin := rfl
@[simp] theorem State.ctxCtr_aer (s : State) (k : CtxCtr) (c : Nat) (n : Nat) : (s.ctxCtr k c n).aer = s.aer := rfl
@[simp] theorem State.ctxCtr_flt (s : State) (k : CtxCtr) (c : Nat) (n : Nat) : (s.ctxCtr k c n).flt = s.flt := rfl
@[simp] theorem State.ctxCtr_dump (s : State) (k : CtxCtr) (c : Nat) (n : Nat) : (s.ctxCtr k c n).dump = s.dump := rfl
@[simp] theorem State.ctxCtr_sys (s : State) (k : CtxCtr) (c : Nat) (n : Nat) : (s.ctxCtr k c n).sys = s.sys := rfl
@[simp] theorem State.ctxCtr_out (s : State) (k : CtxCtr) (c : Nat) (n : Nat) : (s.ctxCtr k c n).out = s.out := rfl

/-! glbCtr -/

@[simp] theorem State.glbCtr_pending (s : State) (k : GlbCtr) : (s.glbCtr k).pending = s.pending := rfl
@[simp] theorem State.glbCtr_hbm (s : State) (k : GlbCtr) : (s.glbCtr k).hbm = s.hbm := rfl
@[simp] theorem State.glbCtr_clk (s : State) (k : GlbCtr) : (s.glbCtr k).clk = s.clk := rfl
@[simp] theorem State.glbCtr_cal (s : State) (k : GlbCtr) : (s.glbCtr k).cal = s.cal := rfl
@[simp] theorem State.glbCtr_sw (s : State) (k : GlbCtr) : (s.glbCtr k).sw = s.sw := rfl
@[simp] theorem State.glbCtr_tbl (s : State) (k : GlbCtr) : (s.glbCtr k).tbl = s.tbl := rfl
@[simp] theorem State.glbCtr_pho (s : State) (k : GlbCtr) : (s.glbCtr k).pho = s.pho := rfl
@[simp] theorem State.glbCtr_mgmt (s : State) (k : GlbCtr) : (s.glbCtr k).mgmt = s.mgmt := rfl
@[simp] theorem State.glbCtr_fuse (s : State) (k : GlbCtr) : (s.glbCtr k).fuse = s.fuse := rfl
@[simp] theorem State.glbCtr_col (s : State) (k : GlbCtr) : (s.glbCtr k).col = s.col := rfl
@[simp] theorem State.glbCtr_twin (s : State) (k : GlbCtr) : (s.glbCtr k).twin = s.twin := rfl
@[simp] theorem State.glbCtr_aer (s : State) (k : GlbCtr) : (s.glbCtr k).aer = s.aer := rfl
@[simp] theorem State.glbCtr_flt (s : State) (k : GlbCtr) : (s.glbCtr k).flt = s.flt := rfl
@[simp] theorem State.glbCtr_dump (s : State) (k : GlbCtr) : (s.glbCtr k).dump = s.dump := rfl
@[simp] theorem State.glbCtr_sys (s : State) (k : GlbCtr) : (s.glbCtr k).sys = s.sys := rfl
@[simp] theorem State.glbCtr_out (s : State) (k : GlbCtr) : (s.glbCtr k).out = s.out := rfl

/-! rclear -/

@[simp] theorem State.rclear_pending (s : State) (p : Nat → Bool) : (s.rclear p).pending = s.pending := rfl
@[simp] theorem State.rclear_hbm (s : State) (p : Nat → Bool) : (s.rclear p).hbm = s.hbm := rfl
@[simp] theorem State.rclear_clk (s : State) (p : Nat → Bool) : (s.rclear p).clk = s.clk := rfl
@[simp] theorem State.rclear_cal (s : State) (p : Nat → Bool) : (s.rclear p).cal = s.cal := rfl
@[simp] theorem State.rclear_sw (s : State) (p : Nat → Bool) : (s.rclear p).sw = s.sw := rfl
@[simp] theorem State.rclear_tbl (s : State) (p : Nat → Bool) : (s.rclear p).tbl = s.tbl := rfl
@[simp] theorem State.rclear_pho (s : State) (p : Nat → Bool) : (s.rclear p).pho = s.pho := rfl
@[simp] theorem State.rclear_mgmt (s : State) (p : Nat → Bool) : (s.rclear p).mgmt = s.mgmt := rfl
@[simp] theorem State.rclear_fuse (s : State) (p : Nat → Bool) : (s.rclear p).fuse = s.fuse := rfl
@[simp] theorem State.rclear_col (s : State) (p : Nat → Bool) : (s.rclear p).col = s.col := rfl
@[simp] theorem State.rclear_twin (s : State) (p : Nat → Bool) : (s.rclear p).twin = s.twin := rfl
@[simp] theorem State.rclear_aer (s : State) (p : Nat → Bool) : (s.rclear p).aer = s.aer := rfl
@[simp] theorem State.rclear_flt (s : State) (p : Nat → Bool) : (s.rclear p).flt = s.flt := rfl
@[simp] theorem State.rclear_dump (s : State) (p : Nat → Bool) : (s.rclear p).dump = s.dump := rfl
@[simp] theorem State.rclear_sys (s : State) (p : Nat → Bool) : (s.rclear p).sys = s.sys := rfl
@[simp] theorem State.rclear_out (s : State) (p : Nat → Bool) : (s.rclear p).out = s.out := rfl

/-! atFc -/

@[simp] theorem State.atFc_pending (s : State) (t : FcCycle) : (s.atFc t).pending = s.pending := rfl
@[simp] theorem State.atFc_regs (s : State) (t : FcCycle) : (s.atFc t).regs = s.regs := rfl
@[simp] theorem State.atFc_hbm (s : State) (t : FcCycle) : (s.atFc t).hbm = s.hbm := rfl
@[simp] theorem State.atFc_cal (s : State) (t : FcCycle) : (s.atFc t).cal = s.cal := rfl
@[simp] theorem State.atFc_sw (s : State) (t : FcCycle) : (s.atFc t).sw = s.sw := rfl
@[simp] theorem State.atFc_tbl (s : State) (t : FcCycle) : (s.atFc t).tbl = s.tbl := rfl
@[simp] theorem State.atFc_pho (s : State) (t : FcCycle) : (s.atFc t).pho = s.pho := rfl
@[simp] theorem State.atFc_mgmt (s : State) (t : FcCycle) : (s.atFc t).mgmt = s.mgmt := rfl
@[simp] theorem State.atFc_fuse (s : State) (t : FcCycle) : (s.atFc t).fuse = s.fuse := rfl
@[simp] theorem State.atFc_col (s : State) (t : FcCycle) : (s.atFc t).col = s.col := rfl
@[simp] theorem State.atFc_twin (s : State) (t : FcCycle) : (s.atFc t).twin = s.twin := rfl
@[simp] theorem State.atFc_aer (s : State) (t : FcCycle) : (s.atFc t).aer = s.aer := rfl
@[simp] theorem State.atFc_flt (s : State) (t : FcCycle) : (s.atFc t).flt = s.flt := rfl
@[simp] theorem State.atFc_dump (s : State) (t : FcCycle) : (s.atFc t).dump = s.dump := rfl
@[simp] theorem State.atFc_sys (s : State) (t : FcCycle) : (s.atFc t).sys = s.sys := rfl
@[simp] theorem State.atFc_out (s : State) (t : FcCycle) : (s.atFc t).out = s.out := rfl

/-! Folds keep what every step keeps -/

@[simp] theorem State.each_pending {α : Type} (s : State) (l : List α) (g : State → α → State)
    (h : ∀ s x, (g s x).pending = s.pending) : (s.each l g).pending = s.pending := by
  induction l generalizing s with
  | nil => rfl
  | cons x r ih => exact (ih (g s x)).trans (h s x)
@[simp] theorem State.each_regs {α : Type} (s : State) (l : List α) (g : State → α → State)
    (h : ∀ s x, (g s x).regs = s.regs) : (s.each l g).regs = s.regs := by
  induction l generalizing s with
  | nil => rfl
  | cons x r ih => exact (ih (g s x)).trans (h s x)
@[simp] theorem State.each_hbm {α : Type} (s : State) (l : List α) (g : State → α → State)
    (h : ∀ s x, (g s x).hbm = s.hbm) : (s.each l g).hbm = s.hbm := by
  induction l generalizing s with
  | nil => rfl
  | cons x r ih => exact (ih (g s x)).trans (h s x)
@[simp] theorem State.each_clk {α : Type} (s : State) (l : List α) (g : State → α → State)
    (h : ∀ s x, (g s x).clk = s.clk) : (s.each l g).clk = s.clk := by
  induction l generalizing s with
  | nil => rfl
  | cons x r ih => exact (ih (g s x)).trans (h s x)
@[simp] theorem State.each_cal {α : Type} (s : State) (l : List α) (g : State → α → State)
    (h : ∀ s x, (g s x).cal = s.cal) : (s.each l g).cal = s.cal := by
  induction l generalizing s with
  | nil => rfl
  | cons x r ih => exact (ih (g s x)).trans (h s x)
@[simp] theorem State.each_sw {α : Type} (s : State) (l : List α) (g : State → α → State)
    (h : ∀ s x, (g s x).sw = s.sw) : (s.each l g).sw = s.sw := by
  induction l generalizing s with
  | nil => rfl
  | cons x r ih => exact (ih (g s x)).trans (h s x)
@[simp] theorem State.each_tbl {α : Type} (s : State) (l : List α) (g : State → α → State)
    (h : ∀ s x, (g s x).tbl = s.tbl) : (s.each l g).tbl = s.tbl := by
  induction l generalizing s with
  | nil => rfl
  | cons x r ih => exact (ih (g s x)).trans (h s x)
@[simp] theorem State.each_pho {α : Type} (s : State) (l : List α) (g : State → α → State)
    (h : ∀ s x, (g s x).pho = s.pho) : (s.each l g).pho = s.pho := by
  induction l generalizing s with
  | nil => rfl
  | cons x r ih => exact (ih (g s x)).trans (h s x)
@[simp] theorem State.each_mgmt {α : Type} (s : State) (l : List α) (g : State → α → State)
    (h : ∀ s x, (g s x).mgmt = s.mgmt) : (s.each l g).mgmt = s.mgmt := by
  induction l generalizing s with
  | nil => rfl
  | cons x r ih => exact (ih (g s x)).trans (h s x)
@[simp] theorem State.each_fuse {α : Type} (s : State) (l : List α) (g : State → α → State)
    (h : ∀ s x, (g s x).fuse = s.fuse) : (s.each l g).fuse = s.fuse := by
  induction l generalizing s with
  | nil => rfl
  | cons x r ih => exact (ih (g s x)).trans (h s x)
@[simp] theorem State.each_col {α : Type} (s : State) (l : List α) (g : State → α → State)
    (h : ∀ s x, (g s x).col = s.col) : (s.each l g).col = s.col := by
  induction l generalizing s with
  | nil => rfl
  | cons x r ih => exact (ih (g s x)).trans (h s x)
@[simp] theorem State.each_twin {α : Type} (s : State) (l : List α) (g : State → α → State)
    (h : ∀ s x, (g s x).twin = s.twin) : (s.each l g).twin = s.twin := by
  induction l generalizing s with
  | nil => rfl
  | cons x r ih => exact (ih (g s x)).trans (h s x)
@[simp] theorem State.each_aer {α : Type} (s : State) (l : List α) (g : State → α → State)
    (h : ∀ s x, (g s x).aer = s.aer) : (s.each l g).aer = s.aer := by
  induction l generalizing s with
  | nil => rfl
  | cons x r ih => exact (ih (g s x)).trans (h s x)
@[simp] theorem State.each_flt {α : Type} (s : State) (l : List α) (g : State → α → State)
    (h : ∀ s x, (g s x).flt = s.flt) : (s.each l g).flt = s.flt := by
  induction l generalizing s with
  | nil => rfl
  | cons x r ih => exact (ih (g s x)).trans (h s x)
@[simp] theorem State.each_dump {α : Type} (s : State) (l : List α) (g : State → α → State)
    (h : ∀ s x, (g s x).dump = s.dump) : (s.each l g).dump = s.dump := by
  induction l generalizing s with
  | nil => rfl
  | cons x r ih => exact (ih (g s x)).trans (h s x)
@[simp] theorem State.each_sys {α : Type} (s : State) (l : List α) (g : State → α → State)
    (h : ∀ s x, (g s x).sys = s.sys) : (s.each l g).sys = s.sys := by
  induction l generalizing s with
  | nil => rfl
  | cons x r ih => exact (ih (g s x)).trans (h s x)
@[simp] theorem State.each_out {α : Type} (s : State) (l : List α) (g : State → α → State)
    (h : ∀ s x, (g s x).out = s.out) : (s.each l g).out = s.out := by
  induction l generalizing s with
  | nil => rfl
  | cons x r ih => exact (ih (g s x)).trans (h s x)

theorem State.each_keeps {α β : Type} (v : State → β) (s : State) (l : List α) (g : State → α → State)
    (h : ∀ s x, v (g s x) = v s) : v (s.each l g) = v s := by
  induction l generalizing s with
  | nil => rfl
  | cons x r ih => exact (ih (g s x)).trans (h s x)

theorem State.each_induction {α : Type} (P : State → Prop) (s : State) (l : List α) (g : State → α → State)
    (h0 : P s) (h : ∀ s x, P s → P (g s x)) : P (s.each l g) := by
  induction l generalizing s with
  | nil => exact h0
  | cons x r ih => exact ih (g s x) (h s x h0)

end Sys2Proof.Machine
end

