-- ==== Sys2Proof/Laws/Blank.lean ====
section
/-! SUPPORT. A state with some of its parts blanked out: an operation that changes only blanked parts leaves the rest as
it was. One equation per operation says all of its frame. -/

namespace Sys2Proof.Machine

/-- The state with the parts that `k` names, and the pins, at their reset values. -/
def State.blank (k : Part → Bool) (s : State) : State where
  pending := s.pending
  regs := if k .regs then [] else s.regs
  hbm := if k .hbm then [] else s.hbm
  clk := if k .clk then {} else s.clk
  cal := if k .cal then {} else s.cal
  sw := if k .sw then {} else s.sw
  tbl := if k .tbl then {} else s.tbl
  pho := if k .pho then {} else s.pho
  mgmt := if k .mgmt then {} else s.mgmt
  fuse := if k .fuse then {} else s.fuse
  col := if k .col then {} else s.col
  twin := if k .twin then {} else s.twin
  aer := if k .aer then {} else s.aer
  flt := if k .flt then {} else s.flt
  dump := if k .dump then {} else s.dump
  sys := if k .sys then {} else s.sys.unpinned
  out := if k .out then [] else s.out

/-- What two equal blanked states say. -/
theorem onlyTouches_of_blank {l : List Part} {s t : State}
    (h : t.blank (fun p => decide (p ∈ l)) = s.blank fun p => decide (p ∈ l)) : OnlyTouches l s t := by
  unfold State.blank at h
  injection h with h0 h1 h2 h3 h4 h5 h6 h7 h8 h9 h10 h11 h12 h13 h14 h15 h16
  refine ⟨h0, ?_⟩
  intro p hp
  cases p <;> simp only [hp, decide_false, Bool.false_eq_true, if_false] at h1 h2 h3 h4 h5 h6 h7 h8 h9 h10 h11 h12 h13 h14 h15 h16 <;> assumption

variable (k : Part → Bool) (s : State)

theorem ite_blank (c : Prop) [Decidable c] (a b : State) :
    (if c then a else b).blank k = if c then a.blank k else b.blank k := by split <;> rfl

theorem ite_both {c : Prop} [Decidable c] {a b x : State} (ha : a.blank k = x) (hb : b.blank k = x) :
    (if c then a else b).blank k = x := by split <;> assumption

theorem ite_fst {α β : Type} (c : Prop) [Decidable c] (a b : α × β) :
    (if c then a else b).1 = if c then a.1 else b.1 := by split <;> rfl

theorem ite_state (c : Prop) [Decidable c] (a b : Effect) :
    (if c then a else b).state = if c then a.state else b.state := by split <;> rfl

theorem ite_wout (c : Prop) [Decidable c] (a b : WriteOut) :
    (if c then a else b).state = if c then a.state else b.state := by split <;> rfl

@[simp] theorem each_blank {α : Type} (l : List α) (f : State → α → State) (h : ∀ s x, (f s x).blank k = s.blank k) :
    (s.each l f).blank k = s.blank k := by
  unfold State.each
  induction l generalizing s with
  | nil => rfl
  | cons a r ih => rw [List.foldl_cons, ih, h]

theorem foldl_blank {α : Type} (l : List α) (f : State → α → State) (h : ∀ s x, (f s x).blank k = s.blank k) :
    (l.foldl f s).blank k = s.blank k := each_blank k s l f h

theorem foldlPair_blank {α β : Type} (l : List α) (f : State × β → α → State × β) (x0 : State × β)
    (h : ∀ x a, (f x a).1.blank k = x.1.blank k) : (l.foldl f x0).1.blank k = x0.1.blank k := by
  induction l generalizing x0 with
  | nil => rfl
  | cons a r ih => rw [List.foldl_cons, ih, h]

@[simp] theorem settle_blank : (settle s).blank k = s.blank k := rfl

theorem pending_blank (s t : State) (h : t.blank k = s.blank k) :
    State.blank k { t with pending := s.pending } = s.blank k := by
  rw [← h]
  have := congrArg State.pending h
  simp only [State.blank] at this ⊢
  rw [this]

theorem done_blank {k : Part → Bool} {s t u : State} (hd : done s t = .next u) (h : t.blank k = s.blank k) :
    u.blank k = s.blank k := by
  unfold done at hd
  injection hd with hd
  rw [← hd]
  exact pending_blank k s (settle t) (by rw [settle_blank, h])

@[simp] theorem setSys_blank (g : SysSt → SysSt) (h : k .sys = true) : (s.setSys g).blank k = s.blank k := by
  simp only [State.blank, State.setSys, h, if_true]

/-- The pins alone. -/
theorem pins_blank (g : SysSt → SysSt) (h : ∀ y, (g y).unpinned = y.unpinned) : (s.setSys g).blank k = s.blank k := by
  simp only [State.blank, State.setSys, h]

@[simp] theorem setClk_blank (g : TickSt → TickSt) (h : k .clk = true) : (s.setClk g).blank k = s.blank k := by
  simp only [State.blank, State.setClk, h, if_true]

@[simp] theorem setSw_blank (g : SwitchSt → SwitchSt) (h : k .sw = true) : (s.setSw g).blank k = s.blank k := by
  simp only [State.blank, State.setSw, h, if_true]

@[simp] theorem setTbl_blank (g : TableSt → TableSt) (h : k .tbl = true) : (s.setTbl g).blank k = s.blank k := by
  simp only [State.blank, State.setTbl, h, if_true]

@[simp] theorem setPho_blank (g : PhotonSt → PhotonSt) (h : k .pho = true) : (s.setPho g).blank k = s.blank k := by
  simp only [State.blank, State.setPho, h, if_true]

@[simp] theorem setMgmt_blank (g : MgmtSt → MgmtSt) (h : k .mgmt = true) : (s.setMgmt g).blank k = s.blank k := by
  simp only [State.blank, State.setMgmt, h, if_true]

@[simp] theorem setFuse_blank (g : FuseSt → FuseSt) (h : k .fuse = true) : (s.setFuse g).blank k = s.blank k := by
  simp only [State.blank, State.setFuse, h, if_true]

@[simp] theorem setCol_blank (g : CollectSt → CollectSt) (h : k .col = true) : (s.setCol g).blank k = s.blank k := by
  simp only [State.blank, State.setCol, h, if_true]

@[simp] theorem setTwin_blank (g : TwinSt → TwinSt) (h : k .twin = true) : (s.setTwin g).blank k = s.blank k := by
  simp only [State.blank, State.setTwin, h, if_true]

@[simp] theorem setAer_blank (g : AerSt → AerSt) (h : k .aer = true) : (s.setAer g).blank k = s.blank k := by
  simp only [State.blank, State.setAer, h, if_true]

@[simp] theorem setFlt_blank (g : FaultSt → FaultSt) (h : k .flt = true) : (s.setFlt g).blank k = s.blank k := by
  simp only [State.blank, State.setFlt, h, if_true]

@[simp] theorem setDump_blank (g : DumpSt → DumpSt) (h : k .dump = true) : (s.setDump g).blank k = s.blank k := by
  simp only [State.blank, State.setDump, h, if_true]

@[simp] theorem setCalSt_blank (g : CalSt → CalSt) (h : k .cal = true) : (s.setCalSt g).blank k = s.blank k := by
  simp only [State.blank, State.setCalSt, h, if_true]

@[simp] theorem setPort_blank (p : Nat) (g : PortSt → PortSt) (h : k .sw = true) : (s.setPort p g).blank k = s.blank k := by
  simp only [State.blank, State.setPort, h, if_true]

@[simp] theorem setDie_blank (p : Nat) (g : DieSt → DieSt) (h : k .sw = true) : (s.setDie p g).blank k = s.blank k := by
  simp only [State.blank, State.setDie, h, if_true]

@[simp] theorem setLane_blank (p : Nat) (g : LaneSt → LaneSt) (h : k .pho = true) : (s.setLane p g).blank k = s.blank k := by
  simp only [State.blank, State.setLane, h, if_true]

@[simp] theorem setCarrier_blank (p w : Nat) (g : CarrierSt → CarrierSt) (h : k .pho = true) :
    (s.setCarrier p w g).blank k = s.blank k := by
  simp only [State.blank, State.setCarrier, h, if_true]

@[simp] theorem setEls_blank (p : Nat) (g : ElsSt → ElsSt) (h : k .pho = true) : (s.setEls p g).blank k = s.blank k := by
  simp only [State.blank, State.setEls, h, if_true]

@[simp] theorem setCtx_blank (p : Nat) (g : CtxSt → CtxSt) (h : k .col = true) : (s.setCtx p g).blank k = s.blank k := by
  simp only [State.blank, State.setCtx, h, if_true]

@[simp] theorem setCore_blank (p : Nat) (g : CoreSt → CoreSt) (h : k .col = true) : (s.setCore p g).blank k = s.blank k := by
  simp only [State.blank, State.setCore, h, if_true]

@[simp] theorem setEng_blank (p : Nat) (g : EngSt → EngSt) (h : k .col = true) : (s.setEng p g).blank k = s.blank k := by
  simp only [State.blank, State.setEng, h, if_true]

@[simp] theorem setPcal_blank (p : Nat) (g : PortCal → PortCal) (h : k .cal = true) : (s.setPcal p g).blank k = s.blank k := by
  simp only [State.blank, State.setPcal, h, if_true]

@[simp] theorem rset_blank (a v : Nat) (h : k .regs = true) : (s.rset a v).blank k = s.blank k := by
  simp only [State.blank, State.rset, h, if_true]

@[simp] theorem rclear_blank (p : Nat → Bool) (h : k .regs = true) : (s.rclear p).blank k = s.blank k := by
  simp only [State.blank, State.rclear, h, if_true]

@[simp] theorem hwrite_blank (a : Nat) (b : Bytes) (h : k .hbm = true) : (s.hwrite a b).blank k = s.blank k := by
  simp only [State.blank, State.hwrite, h, if_true]

@[simp] theorem send_blank (x : Sent) (h : k .out = true) : (s.send x).blank k = s.blank k := by
  simp only [State.blank, State.send, h, if_true]

@[simp] theorem atFc_blank (x : FcCycle) (h : k .clk = true) : (s.atFc x).blank k = s.blank k := by
  simp only [State.blank, State.atFc, h, if_true]

@[simp] theorem draw_blank (h : k .sys = true) : (s.draw).1.blank k = s.blank k := by
  simp only [State.blank, State.draw, h, if_true]

@[simp] theorem free_blank (n : Nat) (h : k .sys = true) : (s.free n).1.blank k = s.blank k := by
  simp only [State.blank, State.free, h, if_true]

end Sys2Proof.Machine
end

