-- ==== Sys2Proof/Laws/Frames.lean ====
section
/-! SUPPORT. The frame of every operation of the machine: the parts of the state that it can change are those whose
blanking its hypotheses name. -/

namespace Sys2Proof.Machine

@[simp] theorem bump_blank (K : Part → Bool) (hregs : K .regs = true) (s : State) (a : Nat) (n : Nat) :
    (State.bump s a n).blank K = s.blank K := by
  unfold State.bump
  simp (maxDischargeDepth := 9) only [rset_blank, hregs]

@[simp] theorem storeRec_blank (K : Part → Bool) (hregs : K .regs = true) (hhbm : K .hbm = true) (haer : K .aer = true) (s : State) (seq : Nat) (bytes : Bytes) :
    (State.storeRec s seq bytes).blank K = s.blank K := by
  unfold State.storeRec
  simp (maxDischargeDepth := 9) only [ite_blank, ite_self, bump_blank, hwrite_blank, setAer_blank, hregs, hhbm, haer]

@[simp] theorem writeRec_blank (K : Part → Bool) (hregs : K .regs = true) (hhbm : K .hbm = true) (haer : K .aer = true) (s : State) :
    (State.writeRec s).blank K = s.blank K := by
  unfold State.writeRec
  ((repeat' split) <;> first | with_reducible rfl | simp (maxDischargeDepth := 9) only [setAer_blank, storeRec_blank, hregs, hhbm, haer])

@[simp] theorem copyEarly_blank (K : Part → Bool) (hregs : K .regs = true) (hhbm : K .hbm = true) (haer : K .aer = true) (s : State) :
    (State.copyEarly s).blank K = s.blank K := by
  unfold State.copyEarly
  simp (maxDischargeDepth := 9) only [each_blank, implies_true, setAer_blank, storeRec_blank, hregs, hhbm, haer]

@[simp] theorem setWin_blank (K : Part → Bool) (haer : K .aer = true) (s : State) (m : MPort) (w : AerWin) :
    (State.setWin s m w).blank K = s.blank K := by
  unfold State.setWin
  simp (maxDischargeDepth := 9) only [setAer_blank, haer]

@[simp] theorem selectRec_blank (K : Part → Bool) (haer : K .aer = true) (s : State) (m : MPort) (sel : Nat) :
    (State.selectRec s m sel).1.blank K = s.blank K := by
  unfold State.selectRec
  simp (maxDischargeDepth := 9) only [ite_blank, ite_fst, ite_self, setWin_blank, haer]

@[simp] theorem eachPcal_blank (K : Part → Bool) (hcal : K .cal = true) (s : State) (f : Nat → PortCal → PortCal) :
    (State.eachPcal s f).blank K = s.blank K := by
  unfold State.eachPcal
  simp (maxDischargeDepth := 9) only [setCalSt_blank, hcal]

@[simp] theorem suspendAll_blank (K : Part → Bool) (hcal : K .cal = true) (s : State) :
    (State.suspendAll s).blank K = s.blank K := by
  unfold State.suspendAll
  simp (maxDischargeDepth := 9) only [eachPcal_blank, hcal]

@[simp] theorem resumeAll_blank (K : Part → Bool) (hcal : K .cal = true) (s : State) :
    (State.resumeAll s).blank K = s.blank K := by
  unfold State.resumeAll
  simp (maxDischargeDepth := 9) only [eachPcal_blank, hcal]

@[simp] theorem noShadowRegs_blank (K : Part → Bool) (hregs : K .regs = true) (s : State) (p : Nat) :
    (State.noShadowRegs s p).blank K = s.blank K := by
  unfold State.noShadowRegs
  simp (maxDischargeDepth := 9) only [rset_blank, hregs]

@[simp] theorem disarmKites_blank (K : Part → Bool) (hcal : K .cal = true) (s : State) :
    (State.disarmKites s).blank K = s.blank K := by
  unfold State.disarmKites
  simp (maxDischargeDepth := 9) only [setCalSt_blank, hcal]

@[simp] theorem countChange_blank (K : Part → Bool) (hregs : K .regs = true) (hcal : K .cal = true) (s : State) :
    (State.countChange s).blank K = s.blank K := by
  unfold State.countChange
  simp (maxDischargeDepth := 9) only [each_blank, implies_true, disarmKites_blank, eachPcal_blank, noShadowRegs_blank, hregs, hcal]

@[simp] theorem setKiteMap_blank (K : Part → Bool) (hregs : K .regs = true) (s : State) (m : Bytes) :
    (State.setKiteMap s m).blank K = s.blank K := by
  unfold State.setKiteMap
  simp (maxDischargeDepth := 9) only [each_blank, implies_true, rset_blank, hregs]

@[simp] theorem armShadow_blank (K : Part → Bool) (hregs : K .regs = true) (hcal : K .cal = true) (s : State) (p gen epoch : Nat) (m : Map CalEntry) :
    (State.armShadow s p gen epoch m).blank K = s.blank K := by
  unfold State.armShadow
  simp (maxDischargeDepth := 9) only [rset_blank, setPcal_blank, hregs, hcal]

@[simp] theorem installImage_blank (K : Part → Bool) (hregs : K .regs = true) (hcal : K .cal = true) (hsys : K .sys = true) (s : State) (b : Bytes) :
    (s.installImage b).1.blank K = s.blank K := by
  unfold State.installImage
  dsimp only
  simp (maxDischargeDepth := 9) only [ite_blank, ite_self, setCalSt_blank, setSys_blank, hcal, hsys]
  refine each_blank K _ _ _ fun s x => ?_
  split <;> simp (maxDischargeDepth := 9) only [armShadow_blank, rset_blank, hregs, hcal]

@[simp] theorem startInstall_blank (K : Part → Bool) (hcal : K .cal = true) (s : State) (f : InFlight) (image : Bytes) :
    (State.startInstall s f image).1.blank K = s.blank K := by
  unfold State.startInstall
  ((repeat' split) <;> first | with_reducible rfl | simp (maxDischargeDepth := 9) only [setCalSt_blank, hcal])

@[simp] theorem latchArmed_blank (K : Part → Bool) (hcal : K .cal = true) (s : State) :
    (State.latchArmed s).blank K = s.blank K := by
  unfold State.latchArmed
  simp (maxDischargeDepth := 9) only [each_blank, implies_true, setPcal_blank, hcal]

@[simp] theorem gainAttention_blank (K : Part → Bool) (hmgmt : K .mgmt = true) (s : State) :
    (State.gainAttention s).blank K = s.blank K := by
  unfold State.gainAttention
  simp (maxDischargeDepth := 9) only [ite_blank, ite_self, setMgmt_blank, hmgmt]

@[simp] theorem pmc_blank (K : Part → Bool) (hregs : K .regs = true) (s : State) (base code n : Nat) :
    (State.pmc s base code n).blank K = s.blank K := by
  unfold State.pmc
  simp (maxDischargeDepth := 9) only [each_blank, implies_true, ite_blank, ite_self, bump_blank, hregs]

@[simp] theorem attn_blank (K : Part → Bool) (hregs : K .regs = true) (hmgmt : K .mgmt = true) (s : State) (base b : Nat) :
    (State.attn s base b).blank K = s.blank K := by
  unfold State.attn
  simp (maxDischargeDepth := 9) only [ite_blank, ite_self, gainAttention_blank, pmc_blank, rset_blank, hregs, hmgmt]

@[simp] theorem record_blank (K : Part → Bool) (hregs : K .regs = true) (haer : K .aer = true) (s : State) (base : Nat) (bit : Option Nat) (cause detail : Nat) (links : List AerLink) :
    (State.record s base bit cause detail links).blank K = s.blank K := by
  unfold State.record
  simp (maxDischargeDepth := 9) only [ite_blank, ite_self, bump_blank, setAer_blank, hregs, haer]

@[simp] theorem alarm_blank (K : Part → Bool) (hregs : K .regs = true) (hmgmt : K .mgmt = true) (haer : K .aer = true) (s : State) (base b cause detail : Nat) (links : List AerLink) :
    (State.alarm s base b cause detail links).blank K = s.blank K := by
  unfold State.alarm
  simp (maxDischargeDepth := 9) only [attn_blank, record_blank, hregs, hmgmt, haer]

@[simp] theorem alarmPlain_blank (K : Part → Bool) (hregs : K .regs = true) (hmgmt : K .mgmt = true) (haer : K .aer = true) (s : State) (base b : Nat) (detail : Nat) :
    (State.alarmPlain s base b detail).blank K = s.blank K := by
  unfold State.alarmPlain
  simp (maxDischargeDepth := 9) only [alarm_blank, hregs, hmgmt, haer]

@[simp] theorem fset_blank (K : Part → Bool) (hregs : K .regs = true) (s : State) (a hi lo v : Nat) :
    (State.fset s a hi lo v).blank K = s.blank K := by
  unfold State.fset
  simp (maxDischargeDepth := 9) only [rset_blank, hregs]

@[simp] theorem bset_blank (K : Part → Bool) (hregs : K .regs = true) (s : State) (a i : Nat) (b : Bool) :
    (State.bset s a i b).blank K = s.blank K := by
  unfold State.bset
  simp (maxDischargeDepth := 9) only [fset_blank, hregs]

@[simp] theorem switchPort_blank (K : Part → Bool) (hregs : K .regs = true) (hcal : K .cal = true) (hmgmt : K .mgmt = true) (haer : K .aer = true) (s : State) (p : Nat) :
    (State.switchPort s p).blank K = s.blank K := by
  unfold State.switchPort
  simp (maxDischargeDepth := 9) only [alarmPlain_blank, bset_blank, noShadowRegs_blank, rset_blank, setPcal_blank, hregs, hcal, hmgmt, haer]

@[simp] theorem epochSwitchNow_blank (K : Part → Bool) (hregs : K .regs = true) (hcal : K .cal = true) (hmgmt : K .mgmt = true) (haer : K .aer = true) (s : State) :
    (State.epochSwitchNow s).blank K = s.blank K := by
  unfold State.epochSwitchNow
  simp (maxDischargeDepth := 9) only [each_blank, implies_true, switchPort_blank, hregs, hcal, hmgmt, haer]

@[simp] theorem disarmPort_blank (K : Part → Bool) (hregs : K .regs = true) (hcal : K .cal = true) (s : State) (p : Nat) :
    (State.disarmPort s p).1.blank K = s.blank K := by
  unfold State.disarmPort
  simp (maxDischargeDepth := 9) only [ite_blank, ite_fst, ite_self, noShadowRegs_blank, setCalSt_blank, setPcal_blank, hregs, hcal]

@[simp] theorem resumePort_blank (K : Part → Bool) (hcal : K .cal = true) (s : State) (p : Nat) :
    (State.resumePort s p).1.blank K = s.blank K := by
  unfold State.resumePort
  simp (maxDischargeDepth := 9) only [ite_blank, ite_fst, ite_self, setPcal_blank, hcal]

@[simp] theorem markEntry_blank (K : Part → Bool) (hcal : K .cal = true) (s : State) (p : Nat) (shadow : Bool) (i : Nat) (bad : Bool) :
    (State.markEntry s p shadow i bad).blank K = s.blank K := by
  unfold State.markEntry
  simp (maxDischargeDepth := 9) only [setPcal_blank, hcal]

@[simp] theorem cacheReply_blank (K : Part → Bool) (hmgmt : K .mgmt = true) (s : State) (f : InFlight) (a : Answer) :
    (State.cacheReply s f a).blank K = s.blank K := by
  unfold State.cacheReply
  simp (maxDischargeDepth := 9) only [setMgmt_blank, hmgmt]

@[simp] theorem freeTag_blank (K : Part → Bool) (hmgmt : K .mgmt = true) (s : State) (f : InFlight) :
    (State.freeTag s f).blank K = s.blank K := by
  unfold State.freeTag
  simp (maxDischargeDepth := 9) only [setMgmt_blank, hmgmt]

@[simp] theorem reapSessions_blank (K : Part → Bool) (hmgmt : K .mgmt = true) (s : State) :
    (State.reapSessions s).blank K = s.blank K := by
  unfold State.reapSessions
  simp (maxDischargeDepth := 9) only [setMgmt_blank, hmgmt]

@[simp] theorem glbCtr_blank (K : Part → Bool) (hregs : K .regs = true) (s : State) (c : GlbCtr) :
    (State.glbCtr s c).blank K = s.blank K := by
  unfold State.glbCtr
  simp (maxDischargeDepth := 9) only [bump_blank, hregs]

@[simp] theorem setSession_blank (K : Part → Bool) (hmgmt : K .mgmt = true) (s : State) (id : BitVec 32) (f : Session → Session) :
    (State.setSession s id f).blank K = s.blank K := by
  unfold State.setSession
  simp (maxDischargeDepth := 9) only [setMgmt_blank, hmgmt]

@[simp] theorem sendReply_blank (K : Part → Bool) (hregs : K .regs = true) (hmgmt : K .mgmt = true) (hout : K .out = true) (s : State) (q : Req) (opcode : Nat) (a : Answer) (cached : Bool) :
    (State.sendReply s q opcode a cached).blank K = s.blank K := by
  unfold State.sendReply
  (dsimp only; (repeat' split) <;> first | with_reducible rfl | simp (maxDischargeDepth := 9) only [glbCtr_blank, send_blank, setSession_blank, hregs, hmgmt, hout])

@[simp] theorem reply_blank (K : Part → Bool) (hregs : K .regs = true) (hmgmt : K .mgmt = true) (hout : K .out = true) (s : State) (f : InFlight) (a : Answer) :
    (State.reply s f a).blank K = s.blank K := by
  unfold State.reply
  simp (maxDischargeDepth := 9) only [ite_blank, ite_self, cacheReply_blank, freeTag_blank, reapSessions_blank, sendReply_blank, hregs, hmgmt, hout]

@[simp] theorem countMatch_blank (K : Part → Bool) (hregs : K .regs = true) (s : State) (d lanes : Nat) (cells sent : List (Nat × Cell)) :
    (State.countMatch s d lanes cells sent).blank K = s.blank K := by
  unfold State.countMatch
  simp (maxDischargeDepth := 9) only [each_blank, implies_true, pmc_blank, hregs]

@[simp] theorem dropCells_blank (K : Part → Bool) (hsw : K .sw = true) (s : State) (idx : List Nat) :
    (State.dropCells s idx).blank K = s.blank K := by
  unfold State.dropCells
  simp (maxDischargeDepth := 9) only [setSw_blank, hsw]

@[simp] theorem dtdUse_blank (K : Part → Bool) (hsw : K .sw = true) (s : State) (p vc d n : Nat) :
    (State.dtdUse s p vc d n).blank K = s.blank K := by
  unfold State.dtdUse
  simp (maxDischargeDepth := 9) only [setSw_blank, hsw]

@[simp] theorem freeCredit_blank (K : Part → Bool) (hsw : K .sw = true) (s : State) (p vc n : Nat) :
    (State.freeCredit s p vc n).blank K = s.blank K := by
  unfold State.freeCredit
  simp (maxDischargeDepth := 9) only [ite_blank, ite_self, setPort_blank, hsw]

@[simp] theorem launch_blank (K : Part → Bool) (hsw : K .sw = true) (hcol : K .col = true) (s : State) (c : Cell) (lane : Option Nat) :
    (State.launch s c lane).blank K = s.blank K := by
  unfold State.launch
  ((repeat' split) <;> first | with_reducible rfl | simp (maxDischargeDepth := 9) only [dtdUse_blank, freeCredit_blank, setCore_blank, setSw_blank, hsw, hcol])

@[simp] theorem portCtr_blank (K : Part → Bool) (hregs : K .regs = true) (s : State) (c : PortCtr) (p : Nat) (n : Nat) :
    (State.portCtr s c p n).blank K = s.blank K := by
  unfold State.portCtr
  simp (maxDischargeDepth := 9) only [bump_blank, hregs]

@[simp] theorem purgeHeads_blank (K : Part → Bool) (hregs : K .regs = true) (hsw : K .sw = true) (s : State) (d : Nat) :
    (State.purgeHeads s d).blank K = s.blank K := by
  unfold State.purgeHeads
  simp (maxDischargeDepth := 9) only [each_blank, implies_true, ite_blank, ite_self, freeCredit_blank, portCtr_blank, setSw_blank, hregs, hsw]

@[simp] theorem cellMatch_blank (K : Part → Bool) (hregs : K .regs = true) (hsw : K .sw = true) (hcol : K .col = true) (s : State) (d : Nat) :
    (State.cellMatch s d).blank K = s.blank K := by
  unfold State.cellMatch
  simp (maxDischargeDepth := 9) only [each_blank, implies_true, countMatch_blank, dropCells_blank, launch_blank, purgeHeads_blank, setDie_blank, hregs, hsw, hcol]

@[simp] theorem dtdFree_blank (K : Part → Bool) (hsw : K .sw = true) (s : State) (p vc d n : Nat) :
    (State.dtdFree s p vc d n).blank K = s.blank K := by
  unfold State.dtdFree
  simp (maxDischargeDepth := 9) only [setSw_blank, hsw]

@[simp] theorem cellLeaves_blank (K : Part → Bool) (hsw : K .sw = true) (hcol : K .col = true) (s : State) (c : Cell) :
    (State.cellLeaves s c).blank K = s.blank K := by
  unfold State.cellLeaves
  simp (maxDischargeDepth := 9) only [ite_blank, ite_self, dtdFree_blank, setCore_blank, hsw, hcol]

@[simp] theorem cellLands_blank (K : Part → Bool) (hregs : K .regs = true) (hsw : K .sw = true) (hcol : K .col = true) (s : State) (d : Nat) (x : Nat × Flying) (corrupt : Bool)
    (f : State → Cell → State) (hf : ∀ s c, (f s c).blank K = s.blank K) :
    (s.cellLands d x corrupt f).blank K = s.blank K := by
  unfold State.cellLands
  simp (maxDischargeDepth := 9) only [hf, ite_blank, ite_self, bump_blank, cellLeaves_blank, setSw_blank, hregs, hsw, hcol]

@[simp] theorem depthMax_blank (K : Part → Bool) (hregs : K .regs = true) (s : State) (p vc : Nat) :
    (State.depthMax s p vc).blank K = s.blank K := by
  unfold State.depthMax
  simp (maxDischargeDepth := 9) only [ite_blank, ite_self, rset_blank, hregs]

@[simp] theorem egressGone_blank (K : Part → Bool) (hsw : K .sw = true) (s : State) (x : EgPkt) :
    (State.egressGone s x).blank K = s.blank K := by
  unfold State.egressGone
  ((repeat' split) <;> first | with_reducible rfl | simp (maxDischargeDepth := 9) only [dtdFree_blank, hsw])

@[simp] theorem egressDiscard_blank (K : Part → Bool) (hregs : K .regs = true) (hsw : K .sw = true) (s : State) (x : EgPkt) (c : PortCtr) :
    (State.egressDiscard s x c).blank K = s.blank K := by
  unfold State.egressDiscard
  simp (maxDischargeDepth := 9) only [egressGone_blank, portCtr_blank, hregs, hsw]

@[simp] theorem enqueueEgress_blank (K : Part → Bool) (hregs : K .regs = true) (hsw : K .sw = true) (s : State) (x : EgPkt) :
    (State.enqueueEgress s x).blank K = s.blank K := by
  unfold State.enqueueEgress
  ((repeat' split) <;> first | with_reducible rfl | simp (maxDischargeDepth := 9) only [depthMax_blank, egressDiscard_blank, egressGone_blank, setSw_blank, hregs, hsw])

@[simp] theorem newPkt_blank (K : Part → Bool) (hsw : K .sw = true) (s : State) :
    (State.newPkt s).1.blank K = s.blank K := by
  unfold State.newPkt
  simp (maxDischargeDepth := 9) only [setSw_blank, hsw]

@[simp] theorem replicate_blank (K : Part → Bool) (hregs : K .regs = true) (hsw : K .sw = true) (s : State) (d : Nat) (x : EgPkt) (group : Nat) :
    (State.replicate s d x group).blank K = s.blank K := by
  unfold State.replicate
  simp (maxDischargeDepth := 9) only [each_blank, implies_true, ite_blank, ite_self, enqueueEgress_blank, newPkt_blank, portCtr_blank, hregs, hsw]

@[simp] theorem setFlow_blank (K : Part → Bool) (hsw : K .sw = true) (s : State) (f : Flow) :
    (State.setFlow s f).blank K = s.blank K := by
  unfold State.setFlow
  simp (maxDischargeDepth := 9) only [setSw_blank, hsw]

@[simp] theorem finishPacket_blank (K : Part → Bool) (hregs : K .regs = true) (hsw : K .sw = true) (hcol : K .col = true) (hout : K .out = true) (s : State) (f : Flow) (c : Cell) :
    (State.finishPacket s f c).blank K = s.blank K := by
  unfold State.finishPacket
  ((repeat' split) <;> first | with_reducible rfl | simp (maxDischargeDepth := 9) only [foldl_blank, implies_true, cellLeaves_blank, enqueueEgress_blank, newPkt_blank, portCtr_blank, replicate_blank, send_blank, setFlow_blank, hregs, hsw, hcol, hout])

@[simp] theorem assemble_blank (K : Part → Bool) (hregs : K .regs = true) (hsw : K .sw = true) (hcol : K .col = true) (hout : K .out = true) (s : State) (k : FlowKey) (c : Cell) :
    (State.assemble s k c).blank K = s.blank K := by
  unfold State.assemble
  simp (maxDischargeDepth := 9) only [ite_blank, ite_self, cellLeaves_blank, depthMax_blank, finishPacket_blank, setFlow_blank, hregs, hsw, hcol, hout]

@[simp] theorem releaseHeld_blank (K : Part → Bool) (hregs : K .regs = true) (hsw : K .sw = true) (hcol : K .col = true) (hout : K .out = true) (n : Nat) (s : State) (x : FlowKey) :
    (State.releaseHeld n s x).blank K = s.blank K := by
  induction n generalizing s with
  | zero => rfl
  | succ n ih =>
    unfold State.releaseHeld
    dsimp only
    split
    · simp (maxDischargeDepth := 9) only [ih, assemble_blank, setFlow_blank, hregs, hsw, hcol, hout]
    · rfl

@[simp] theorem truncate_blank (K : Part → Bool) (hregs : K .regs = true) (hsw : K .sw = true) (hcol : K .col = true) (hout : K .out = true) (s : State) (f : Flow) :
    (State.truncate s f).blank K = s.blank K := by
  unfold State.truncate
  simp (maxDischargeDepth := 9) only [foldl_blank, implies_true, cellLeaves_blank, portCtr_blank, send_blank, setFlow_blank, hregs, hsw, hcol, hout]

@[simp] theorem abandonAsm_blank (K : Part → Bool) (hregs : K .regs = true) (hsw : K .sw = true) (hcol : K .col = true) (hout : K .out = true) (s : State) (k : FlowKey) :
    (State.abandonAsm s k).blank K = s.blank K := by
  unfold State.abandonAsm
  simp (maxDischargeDepth := 9) only [foldl_blank, implies_true, ite_blank, ite_self, cellLeaves_blank, setFlow_blank, truncate_blank, hregs, hsw, hcol, hout]

@[simp] theorem skipGap_blank (K : Part → Bool) (hregs : K .regs = true) (hsw : K .sw = true) (hcol : K .col = true) (hout : K .out = true) (s : State) (k : FlowKey) (c : PortCtr) :
    (State.skipGap s k c).blank K = s.blank K := by
  unfold State.skipGap
  (dsimp only; (repeat' split) <;> first | with_reducible rfl | simp (maxDischargeDepth := 9) only [abandonAsm_blank, portCtr_blank, releaseHeld_blank, setFlow_blank, hregs, hsw, hcol, hout])

@[simp] theorem resequence_blank (K : Part → Bool) (hregs : K .regs = true) (hsw : K .sw = true) (hcol : K .col = true) (hout : K .out = true) (s : State) (c : Cell) :
    (State.resequence s c).blank K = s.blank K := by
  unfold State.resequence
  (dsimp only; (repeat' split) <;> first | with_reducible rfl | simp (maxDischargeDepth := 9) only [assemble_blank, cellLeaves_blank, portCtr_blank, releaseHeld_blank, setFlow_blank, skipGap_blank, hregs, hsw, hcol, hout])

@[simp] theorem switchedCell_blank (K : Part → Bool) (hregs : K .regs = true) (hsw : K .sw = true) (hcol : K .col = true) (hout : K .out = true) (s : State) (c : Cell) :
    (State.switchedCell s c).blank K = s.blank K := by
  unfold State.switchedCell
  simp (maxDischargeDepth := 9) only [ite_blank, ite_self, cellLeaves_blank, portCtr_blank, resequence_blank, hregs, hsw, hcol, hout]

@[simp] theorem bump32_blank (K : Part → Bool) (hregs : K .regs = true) (s : State) (a : Nat) (n : Nat) :
    (State.bump32 s a n).blank K = s.blank K := by
  unfold State.bump32
  simp (maxDischargeDepth := 9) only [rset_blank, hregs]

@[simp] theorem ctxCtr_blank (K : Part → Bool) (hregs : K .regs = true) (s : State) (c : CtxCtr) (ctx : Nat) (n : Nat) :
    (State.ctxCtr s c ctx n).blank K = s.blank K := by
  unfold State.ctxCtr
  simp (maxDischargeDepth := 9) only [bump32_blank, hregs]

@[simp] theorem takeSeqs_blank (K : Part → Bool) (hsw : K .sw = true) (s : State) (k : FlowKey) (n : Nat) :
    (State.takeSeqs s k n).blank K = s.blank K := by
  unfold State.takeSeqs
  simp (maxDischargeDepth := 9) only [setSw_blank, hsw]

@[simp] theorem queueCells_blank (K : Part → Bool) (hsw : K .sw = true) (s : State) (proto : Cell) (bytes : Bytes) (whole : Bool) :
    (State.queueCells s proto bytes whole).blank K = s.blank K := by
  unfold State.queueCells
  simp (maxDischargeDepth := 9) only [ite_blank, ite_self, setSw_blank, takeSeqs_blank, hsw]

@[simp] theorem queueMulticast_blank (K : Part → Bool) (hsw : K .sw = true) (s : State) (proto : Cell) (bytes : Bytes) (whole : Bool) :
    (State.queueMulticast s proto bytes whole).blank K = s.blank K := by
  unfold State.queueMulticast
  simp (maxDischargeDepth := 9) only [each_blank, implies_true, queueCells_blank, hsw]

@[simp] theorem queueUnicast_blank (K : Part → Bool) (hsw : K .sw = true) (s : State) (proto : Cell) (port : Nat) (bytes : Bytes) (whole : Bool) :
    (State.queueUnicast s proto port bytes whole).blank K = s.blank K := by
  unfold State.queueUnicast
  simp (maxDischargeDepth := 9) only [queueCells_blank, hsw]

@[simp] theorem sprayPort_blank (K : Part → Bool) (htbl : K .tbl = true) (s : State) (g : Nat) (ports : List Nat) (vc : Nat) :
    (State.sprayPort s g ports vc).1.blank K = s.blank K := by
  unfold State.sprayPort
  (dsimp only; (repeat' split) <;> first | with_reducible rfl | simp (maxDischargeDepth := 9) only [setTbl_blank, htbl])

@[simp] theorem choosePort_blank (K : Part → Bool) (htbl : K .tbl = true) (s : State) (g src vc srcPlace dst : Nat) :
    (State.choosePort s g src vc srcPlace dst).1.blank K = s.blank K := by
  unfold State.choosePort
  simp (maxDischargeDepth := 9) only [ite_blank, ite_fst, ite_self, sprayPort_blank, htbl]

@[simp] theorem route_blank (K : Part → Bool) (htbl : K .tbl = true) (s : State) (d src vc srcPlace dst : Nat) (ctx : Option Nat) :
    (State.route s d src vc srcPlace dst ctx).1.blank K = s.blank K := by
  unfold State.route
  (dsimp only; (repeat' split) <;> first | with_reducible rfl | simp (maxDischargeDepth := 9) only [choosePort_blank, htbl])

@[simp] theorem takeFlowSeq_blank (K : Part → Bool) (hsw : K .sw = true) (s : State) (place vc : Nat) :
    (State.takeFlowSeq s place vc).1.blank K = s.blank K := by
  unfold State.takeFlowSeq
  simp (maxDischargeDepth := 9) only [setSw_blank, hsw]

@[simp] theorem tblDiscard_blank (K : Part → Bool) (hregs : K .regs = true) (htbl : K .tbl = true) (hmgmt : K .mgmt = true) (haer : K .aer = true) (s : State) (d : Nat) (k : TblKind) (pos : Nat) :
    (State.tblDiscard s d k pos).blank K = s.blank K := by
  unfold State.tblDiscard
  simp (maxDischargeDepth := 9) only [ite_blank, ite_self, alarmPlain_blank, bump_blank, setTbl_blank, hregs, htbl, hmgmt, haer]

@[simp] theorem originate_blank (K : Part → Bool) (hregs : K .regs = true) (hsw : K .sw = true) (htbl : K .tbl = true) (hmgmt : K .mgmt = true) (haer : K .aer = true) (s : State) (core : Nat) (h : Wfp) (goal : Goal) (owner : Option (Nat × Nat)) :
    (State.originate s core h goal owner).blank K = s.blank K := by
  unfold State.originate
  (dsimp only; (repeat' split) <;> first | with_reducible rfl | simp (maxDischargeDepth := 9) only [bump_blank, newPkt_blank, queueMulticast_blank, queueUnicast_blank, route_blank, takeFlowSeq_blank, tblDiscard_blank, hregs, hsw, htbl, hmgmt, haer])

@[simp] theorem replay_blank (K : Part → Bool) (hregs : K .regs = true) (hsw : K .sw = true) (htbl : K .tbl = true) (hmgmt : K .mgmt = true) (haer : K .aer = true) (s : State) (c chunk core place : Nat) :
    (State.replay s c chunk core place).blank K = s.blank K := by
  unfold State.replay
  ((repeat' split) <;> first | with_reducible rfl | simp (maxDischargeDepth := 9) only [each_blank, implies_true, ctxCtr_blank, originate_blank, hregs, hsw, htbl, hmgmt, haer])

@[simp] theorem notAdmitted_blank (K : Part → Bool) (hregs : K .regs = true) (hsw : K .sw = true) (htbl : K .tbl = true) (hmgmt : K .mgmt = true) (haer : K .aer = true) (s : State) (t : ContribTag) (member core : Nat) :
    (State.notAdmitted s t member core).blank K = s.blank K := by
  unfold State.notAdmitted
  ((repeat' split) <;> first | with_reducible rfl | simp (maxDischargeDepth := 9) only [ctxCtr_blank, originate_blank, replay_blank, hregs, hsw, htbl, hmgmt, haer])

@[simp] theorem openSlot_blank (K : Part → Bool) (hregs : K .regs = true) (hcol : K .col = true) (s : State) (c step chunk desc : Nat) :
    (State.openSlot s c step chunk desc).1.blank K = s.blank K := by
  unfold State.openSlot
  simp (maxDischargeDepth := 9) only [ite_blank, ite_fst, ite_self, pmc_blank, setCol_blank, hregs, hcol]

@[simp] theorem setSlot_blank (K : Part → Bool) (hcol : K .col = true) (s : State) (x : Slot) :
    (State.setSlot s x).blank K = s.blank K := by
  unfold State.setSlot
  simp (maxDischargeDepth := 9) only [setCol_blank, hcol]

@[simp] theorem gatherCell_blank (K : Part → Bool) (hregs : K .regs = true) (hsw : K .sw = true) (htbl : K .tbl = true) (hmgmt : K .mgmt = true) (hcol : K .col = true) (haer : K .aer = true) (s : State) (cell : Cell) :
    (State.gatherCell s cell).blank K = s.blank K := by
  unfold State.gatherCell
  (dsimp only; (repeat' split) <;> first | with_reducible rfl | simp (maxDischargeDepth := 9) only [ctxCtr_blank, notAdmitted_blank, openSlot_blank, setSlot_blank, hregs, hsw, htbl, hmgmt, hcol, haer])

@[simp] theorem mapCells_blank (K : Part → Bool) (hsw : K .sw = true) (s : State) (idx : List Nat) (f : Cell → Cell) :
    (State.mapCells s idx f).blank K = s.blank K := by
  unfold State.mapCells
  simp (maxDischargeDepth := 9) only [setSw_blank, hsw]

@[simp] theorem ovfMoves_blank (K : Part → Bool) (hsw : K .sw = true) (s : State) (d n : Nat) :
    (State.ovfMoves s d n).blank K = s.blank K := by
  unfold State.ovfMoves
  simp (maxDischargeDepth := 9) only [setDie_blank, hsw]

@[simp] theorem hzero_blank (K : Part → Bool) (hhbm : K .hbm = true) (s : State) (a n : Nat) : (s.hzero a n).blank K = s.blank K := by
  simp (maxDischargeDepth := 9) only [State.blank, State.hzero, hhbm, if_true]

@[simp] theorem writeGroups_blank (K : Part → Bool) (htbl : K .tbl = true) (s : State) (c : Nat) :
    (State.writeGroups s c).blank K = s.blank K := by
  unfold State.writeGroups
  simp (maxDischargeDepth := 9) only [each_blank, implies_true, setTbl_blank, htbl]

@[simp] theorem commitPlanes_blank (K : Part → Bool) (hhbm : K .hbm = true) (hcol : K .col = true) (s : State) (c : Nat) (p : Plan) :
    (State.commitPlanes s c p).blank K = s.blank K := by
  unfold State.commitPlanes
  ((repeat' split) <;> first | with_reducible rfl | simp (maxDischargeDepth := 9) only [foldl_blank, implies_true, hzero_blank, setCtx_blank, hhbm, hcol])

@[simp] theorem acceptEnable_blank (K : Part → Bool) (hhbm : K .hbm = true) (hcol : K .col = true) (s : State) (c : Nat) (p : Plan) (f : Option InFlight) :
    (State.acceptEnable s c p f).blank K = s.blank K := by
  unfold State.acceptEnable
  simp (maxDischargeDepth := 9) only [foldl_blank, implies_true, commitPlanes_blank, setCore_blank, setCtx_blank, hhbm, hcol]

@[simp] theorem errInfo_blank (K : Part → Bool) (hregs : K .regs = true) (s : State) (base : Nat) (code : Code) (reason off : Nat) :
    (State.errInfo s base code reason off).blank K = s.blank K := by
  unfold State.errInfo
  simp (maxDischargeDepth := 9) only [rset_blank, hregs]

@[simp] theorem refuseEnable_blank (K : Part → Bool) (hregs : K .regs = true) (s : State) (c check : Nat) (code : Code) :
    (State.refuseEnable s c check code).blank K = s.blank K := by
  unfold State.refuseEnable
  simp (maxDischargeDepth := 9) only [errInfo_blank, hregs]

@[simp] theorem freePlanes_blank (K : Part → Bool) (hcol : K .col = true) (s : State) (c : Nat) :
    (State.freePlanes s c).blank K = s.blank K := by
  unfold State.freePlanes
  simp (maxDischargeDepth := 9) only [setCtx_blank, hcol]

@[simp] theorem accept_blank (K : Part → Bool) (hmgmt : K .mgmt = true) (s : State) (f : InFlight) :
    (State.accept s f).blank K = s.blank K := by
  unfold State.accept
  simp (maxDischargeDepth := 9) only [ite_blank, ite_self, setMgmt_blank, setSession_blank, hmgmt]

@[simp] theorem resendReply_blank (K : Part → Bool) (hregs : K .regs = true) (hmgmt : K .mgmt = true) (hout : K .out = true) (s : State) (f : InFlight) (c : Cached) :
    (State.resendReply s f c).blank K = s.blank K := by
  unfold State.resendReply
  simp (maxDischargeDepth := 9) only [freeTag_blank, reapSessions_blank, sendReply_blank, hregs, hmgmt, hout]

@[simp] theorem serve_blank (K : Part → Bool) (hregs : K .regs = true) (hmgmt : K .mgmt = true) (hout : K .out = true) (s : State) (q : Req) (opcode : Nat) (body : Bytes)
    (gate : State → Gate) (run : State → InFlight → State × Option Answer)
    (hr : ∀ s f, (run s f).1.blank K = s.blank K) : (s.serve q opcode body gate run).blank K = s.blank K := by
  unfold State.serve
  dsimp only
  split
  · rfl
  · split
    · simp (maxDischargeDepth := 9) only [glbCtr_blank, hregs]
    · split
      · simp (maxDischargeDepth := 9) only [accept_blank, reply_blank, hregs, hmgmt, hout]
      · split
        · simp (maxDischargeDepth := 9) only [accept_blank, resendReply_blank, hregs, hmgmt, hout]
        · split
          · simp (maxDischargeDepth := 9) only [accept_blank, reply_blank, hregs, hmgmt, hout]
          · split
            · rename_i t a h
              have h2 := hr (s.accept { req := q, opcode := opcode, bodyLen := body.length, bodyCrc := crc32c body }) { req := q, opcode := opcode, bodyLen := body.length, bodyCrc := crc32c body }
              rw [h] at h2
              dsimp only at h2
              simp (maxDischargeDepth := 9) only [h2, accept_blank, reply_blank, hregs, hmgmt, hout]
            · rename_i t h
              have h2 := hr (s.accept { req := q, opcode := opcode, bodyLen := body.length, bodyCrc := crc32c body }) { req := q, opcode := opcode, bodyLen := body.length, bodyCrc := crc32c body }
              rw [h] at h2
              dsimp only at h2
              simp (maxDischargeDepth := 9) only [h2, accept_blank, hmgmt]

@[simp] theorem advance_blank (K : Part → Bool) (hregs : K .regs = true) (s : State) (a : Nat) :
    (State.advance s a).blank K = s.blank K := by
  unfold State.advance
  simp (maxDischargeDepth := 9) only [rset_blank, hregs]

@[simp] theorem countWrite_blank (K : Part → Bool) (hregs : K .regs = true) (s : State) (w : Writer) (p : Page) :
    (State.countWrite s w p).blank K = s.blank K := by
  unfold State.countWrite
  simp (maxDischargeDepth := 9) only [ite_blank, ite_self, pmc_blank, hregs]

@[simp] theorem maskWritten_blank (K : Part → Bool) (hmgmt : K .mgmt = true) (s : State) (p : Page) (off old new : Nat) :
    (State.maskWritten s p off old new).blank K = s.blank K := by
  unfold State.maskWritten
  simp (maxDischargeDepth := 9) only [ite_blank, ite_self, gainAttention_blank, hmgmt]

@[simp] theorem refuseWrite_blank (K : Part → Bool) (hregs : K .regs = true) (s : State) (p : Page) (off : Nat) (code : Code) (reason detail : Nat) :
    (State.refuseWrite s p off code reason detail).state.blank K = s.blank K := by
  unfold State.refuseWrite
  simp (maxDischargeDepth := 9) only [errInfo_blank, hregs]

@[simp] theorem storeReg_blank (K : Part → Bool) (hregs : K .regs = true) (s : State) (p : Page) (off v : Nat) :
    (State.storeReg s p off v).blank K = s.blank K := by
  unfold State.storeReg
  simp (maxDischargeDepth := 9) only [ite_blank, ite_self, fset_blank, rset_blank, hregs]

@[simp] theorem Effect_ofPair_blank (K : Part → Bool) (r : State × Code) :
    (Effect.ofPair r).state.blank K = r.1.blank K := rfl

@[simp] theorem armWindow_blank (K : Part → Bool) (hregs : K .regs = true) (hsys : K .sys = true) (s : State) :
    (State.armWindow s).state.blank K = s.blank K := by
  unfold State.armWindow
  simp (maxDischargeDepth := 9) only [ite_blank, ite_state, ite_self, rset_blank, setSys_blank, hregs, hsys]

@[simp] theorem bwCommand_blank (K : Part → Bool) (hregs : K .regs = true) (hsys : K .sys = true) (s : State) (cmds : Nat) :
    (State.bwCommand s cmds).state.blank K = s.blank K := by
  unfold State.bwCommand
  ((repeat' split) <;> first | with_reducible rfl | simp (maxDischargeDepth := 9) only [armWindow_blank, rset_blank, setSys_blank, hregs, hsys])

@[simp] theorem calCommand_blank (K : Part → Bool) (hregs : K .regs = true) (hcal : K .cal = true) (s : State) (p cmds : Nat) :
    (State.calCommand s p cmds).state.blank K = s.blank K := by
  unfold State.calCommand
  ((repeat' split) <;> first | with_reducible rfl | simp (maxDischargeDepth := 9) only [Effect_ofPair_blank, disarmPort_blank, resumePort_blank, hregs, hcal])

@[simp] theorem disableCtx_blank (K : Part → Bool) (hcol : K .col = true) (s : State) (c : Nat) :
    (State.disableCtx s c).state.blank K = s.blank K := by
  unfold State.disableCtx
  ((repeat' split) <;> first | with_reducible rfl | simp (maxDischargeDepth := 9) only [setCtx_blank, hcol])

@[simp] theorem twinOut_blank (K : Part → Bool) (hregs : K .regs = true) (hout : K .out = true) (s : State) (frame : Bytes) :
    (State.twinOut s frame).blank K = s.blank K := by
  unfold State.twinOut
  simp (maxDischargeDepth := 9) only [ite_blank, ite_self, pmc_blank, send_blank, hregs, hout]

@[simp] theorem twinSend_blank (K : Part → Bool) (hregs : K .regs = true) (hout : K .out = true) (s : State) (type : Nat) (payload : Bytes) :
    (State.twinSend s type payload).blank K = s.blank K := by
  unfold State.twinSend
  simp (maxDischargeDepth := 9) only [twinOut_blank, hregs, hout]

@[simp] theorem enableCtx_blank (K : Part → Bool) (hregs : K .regs = true) (hhbm : K .hbm = true) (hcol : K .col = true) (hout : K .out = true) (s : State) (w : Writer) (c : Nat) :
    (State.enableCtx s w c).state.blank K = s.blank K := by
  unfold State.enableCtx
  ((repeat' split) <;> first | with_reducible rfl | simp (maxDischargeDepth := 9) only [acceptEnable_blank, setCtx_blank, twinSend_blank, hregs, hhbm, hcol, hout])

@[simp] theorem askReset_blank (K : Part → Bool) (hcol : K .col = true) (s : State) (c : Nat) (f : Option InFlight) :
    (State.askReset s c f).blank K = s.blank K := by
  unfold State.askReset
  ((repeat' split) <;> first | with_reducible rfl | simp (maxDischargeDepth := 9) only [setCtx_blank, hcol])

@[simp] theorem resetCtx_blank (K : Part → Bool) (hcol : K .col = true) (s : State) (w : Writer) (c : Nat) :
    (State.resetCtx s w c).state.blank K = s.blank K := by
  unfold State.resetCtx
  simp (maxDischargeDepth := 9) only [ite_blank, ite_state, ite_self, askReset_blank, hcol]

@[simp] theorem stateFree_blank (K : Part → Bool) (hcol : K .col = true) (s : State) (c : Nat) :
    (State.stateFree s c).state.blank K = s.blank K := by
  unfold State.stateFree
  simp (maxDischargeDepth := 9) only [ite_blank, ite_state, ite_self, freePlanes_blank, hcol]

@[simp] theorem ctxCommand_blank (K : Part → Bool) (hregs : K .regs = true) (hhbm : K .hbm = true) (hcol : K .col = true) (hout : K .out = true) (s : State) (w : Writer) (c cmds : Nat) :
    (State.ctxCommand s w c cmds).state.blank K = s.blank K := by
  unfold State.ctxCommand
  ((repeat' split) <;> first | with_reducible rfl | simp (maxDischargeDepth := 9) only [disableCtx_blank, enableCtx_blank, resetCtx_blank, stateFree_blank, hregs, hhbm, hcol, hout])

@[simp] theorem setEngState_blank (K : Part → Bool) (hregs : K .regs = true) (s : State) (e v : Nat) :
    (State.setEngState s e v).blank K = s.blank K := by
  unfold State.setEngState
  simp (maxDischargeDepth := 9) only [fset_blank, hregs]

@[simp] theorem startEngBist_blank (K : Part → Bool) (hregs : K .regs = true) (hcol : K .col = true) (s : State) (e : Nat) (judged : Bool) :
    (State.startEngBist s e judged).blank K = s.blank K := by
  unfold State.startEngBist
  simp (maxDischargeDepth := 9) only [bump32_blank, rset_blank, setEngState_blank, setEng_blank, hregs, hcol]

@[simp] theorem bistEng_blank (K : Part → Bool) (hregs : K .regs = true) (hcol : K .col = true) (s : State) (e : Nat) :
    (State.bistEng s e).1.blank K = s.blank K := by
  unfold State.bistEng
  ((repeat' split) <;> first | with_reducible rfl | simp (maxDischargeDepth := 9) only [setEng_blank, startEngBist_blank, hregs, hcol])

@[simp] theorem gateEng_blank (K : Part → Bool) (hregs : K .regs = true) (s : State) (e : Nat) :
    (State.gateEng s e).1.blank K = s.blank K := by
  unfold State.gateEng
  ((repeat' split) <;> first | with_reducible rfl | simp (maxDischargeDepth := 9) only [setEngState_blank, hregs])

@[simp] theorem releaseEng_blank (K : Part → Bool) (hregs : K .regs = true) (hcol : K .col = true) (s : State) (e : Nat) :
    (State.releaseEng s e).blank K = s.blank K := by
  unfold State.releaseEng
  simp (maxDischargeDepth := 9) only [ite_blank, ite_self, startEngBist_blank, hregs, hcol]

@[simp] theorem reloadRepair_blank (K : Part → Bool) (hregs : K .regs = true) (s : State) (e : Nat) :
    (State.reloadRepair s e).blank K = s.blank K := by
  unfold State.reloadRepair
  ((repeat' split) <;> first | with_reducible rfl | simp (maxDischargeDepth := 9) only [rset_blank, hregs])

@[simp] theorem ungateEng_blank (K : Part → Bool) (hregs : K .regs = true) (hcol : K .col = true) (s : State) (e : Nat) (judged : Bool) :
    (State.ungateEng s e judged).blank K = s.blank K := by
  unfold State.ungateEng
  simp (maxDischargeDepth := 9) only [ite_blank, ite_self, reloadRepair_blank, startEngBist_blank, hregs, hcol]

@[simp] theorem engCommand_blank (K : Part → Bool) (hregs : K .regs = true) (hcol : K .col = true) (s : State) (e cmds : Nat) :
    (State.engCommand s e cmds).state.blank K = s.blank K := by
  unfold State.engCommand
  ((repeat' split) <;> first | with_reducible rfl | simp (maxDischargeDepth := 9) only [Effect_ofPair_blank, bistEng_blank, gateEng_blank, releaseEng_blank, ungateEng_blank, hregs, hcol])

@[simp] theorem retireBanks_blank (K : Part → Bool) (hregs : K .regs = true) (hmgmt : K .mgmt = true) (haer : K .aer = true) (s : State) (c : Nat) :
    (State.retireBanks s c).blank K = s.blank K := by
  unfold State.retireBanks
  simp (maxDischargeDepth := 9) only [each_blank, implies_true, ite_blank, ite_self, alarmPlain_blank, bset_blank, hregs, hmgmt, haer]

@[simp] theorem kbankWritten_blank (K : Part → Bool) (hregs : K .regs = true) (hmgmt : K .mgmt = true) (haer : K .aer = true) (s : State) (c cmds : Nat) :
    (State.kbankWritten s c cmds).state.blank K = s.blank K := by
  unfold State.kbankWritten
  simp (maxDischargeDepth := 9) only [ite_blank, ite_self, bset_blank, retireBanks_blank, hregs, hmgmt, haer]

@[simp] theorem kiteRelease_blank (K : Part → Bool) (hcal : K .cal = true) (s : State) :
    (State.kiteRelease s).1.blank K = s.blank K := by
  unfold State.kiteRelease
  simp (maxDischargeDepth := 9) only [ite_blank, ite_fst, ite_self, disarmKites_blank, setCalSt_blank, hcal]

@[simp] theorem settleWidth_blank (K : Part → Bool) (hsw : K .sw = true) (s : State) (p : Nat) :
    (State.settleWidth s p).blank K = s.blank K := by
  unfold State.settleWidth
  simp (maxDischargeDepth := 9) only [setPort_blank, hsw]

@[simp] theorem stretchTx_blank (K : Part → Bool) (hregs : K .regs = true) (hsw : K .sw = true) (s : State) (p old new : Nat) :
    (State.stretchTx s p old new).blank K = s.blank K := by
  unfold State.stretchTx
  (dsimp only; (repeat' split) <;> first | with_reducible rfl | simp (maxDischargeDepth := 9) only [bump_blank, setPort_blank, hregs, hsw])

@[simp] theorem clearCredits_blank (K : Part → Bool) (hsw : K .sw = true) (s : State) (p : Nat) :
    (State.clearCredits s p).blank K = s.blank K := by
  unfold State.clearCredits
  simp (maxDischargeDepth := 9) only [setPort_blank, setSw_blank, hsw]

@[simp] theorem discardQueued_blank (K : Part → Bool) (hregs : K .regs = true) (hsw : K .sw = true) (hcol : K .col = true) (hout : K .out = true) (s : State) (p : Nat) (c : PortCtr) :
    (State.discardQueued s p c).blank K = s.blank K := by
  unfold State.discardQueued
  simp (maxDischargeDepth := 9) only [foldl_blank, implies_true, each_blank, implies_true, ite_blank, ite_self, cellLeaves_blank, egressDiscard_blank, setFlow_blank, setSw_blank, truncate_blank, hregs, hsw, hcol, hout]

@[simp] theorem dropArrivals_blank (K : Part → Bool) (hsw : K .sw = true) (s : State) (p : Nat) :
    (State.dropArrivals s p).blank K = s.blank K := by
  unfold State.dropArrivals
  simp (maxDischargeDepth := 9) only [setSw_blank, hsw]

@[simp] theorem portStops_blank (K : Part → Bool) (hregs : K .regs = true) (hsw : K .sw = true) (hcol : K .col = true) (hout : K .out = true) (s : State) (p : Nat) :
    (State.portStops s p).blank K = s.blank K := by
  unfold State.portStops
  simp (maxDischargeDepth := 9) only [clearCredits_blank, discardQueued_blank, dropArrivals_blank, hregs, hsw, hcol, hout]

@[simp] theorem applyFence_blank (K : Part → Bool) (hregs : K .regs = true) (hsw : K .sw = true) (hmgmt : K .mgmt = true) (hcol : K .col = true) (haer : K .aer = true) (hflt : K .flt = true) (hout : K .out = true) (s : State) (p : Nat) :
    (State.applyFence s p).blank K = s.blank K := by
  unfold State.applyFence
  simp (maxDischargeDepth := 9) only [ite_blank, ite_self, alarm_blank, bump_blank, portStops_blank, setFlt_blank, setPort_blank, hregs, hsw, hmgmt, hcol, haer, hflt, hout]

@[simp] theorem requestFence_blank (K : Part → Bool) (hregs : K .regs = true) (hsw : K .sw = true) (hmgmt : K .mgmt = true) (hcol : K .col = true) (haer : K .aer = true) (hflt : K .flt = true) (hout : K .out = true) (s : State) (p : Nat) (written byScore : Bool) (byMembers : List (Nat × Nat)) :
    (State.requestFence s p written byScore byMembers).1.blank K = s.blank K := by
  unfold State.requestFence
  simp (maxDischargeDepth := 9) only [ite_blank, ite_fst, ite_self, alarm_blank, applyFence_blank, bump_blank, setFlt_blank, hregs, hsw, hmgmt, hcol, haer, hflt, hout]

@[simp] theorem judgeFalls_blank (K : Part → Bool) (hregs : K .regs = true) (hsw : K .sw = true) (hmgmt : K .mgmt = true) (hcol : K .col = true) (haer : K .aer = true) (hflt : K .flt = true) (hout : K .out = true) (s : State) (ports : List Nat) (members : List (Nat × Nat)) :
    (State.judgeFalls s ports members).blank K = s.blank K := by
  unfold State.judgeFalls
  simp (maxDischargeDepth := 9) only [each_blank, implies_true, ite_blank, ite_self, requestFence_blank, hregs, hsw, hmgmt, hcol, haer, hflt, hout]

@[simp] theorem scoreFalls_blank (K : Part → Bool) (hregs : K .regs = true) (hflt : K .flt = true) (s : State) (p n : Nat) (event : AerLink) :
    (State.scoreFalls s p n event).1.blank K = s.blank K := by
  unfold State.scoreFalls
  simp (maxDischargeDepth := 9) only [fset_blank, setFlt_blank, hregs, hflt]

@[simp] theorem penalize_blank (K : Part → Bool) (hregs : K .regs = true) (hsw : K .sw = true) (hmgmt : K .mgmt = true) (hcol : K .col = true) (haer : K .aer = true) (hflt : K .flt = true) (hout : K .out = true) (s : State) (p n : Nat) (event : AerLink) :
    (State.penalize s p n event).blank K = s.blank K := by
  unfold State.penalize
  simp (maxDischargeDepth := 9) only [judgeFalls_blank, scoreFalls_blank, hregs, hsw, hmgmt, hcol, haer, hflt, hout]

@[simp] theorem takeDown_blank (K : Part → Bool) (hregs : K .regs = true) (hsw : K .sw = true) (hmgmt : K .mgmt = true) (hcol : K .col = true) (haer : K .aer = true) (hflt : K .flt = true) (hout : K .out = true) (s : State) (p cond : Nat) :
    (State.takeDown s p cond).blank K = s.blank K := by
  unfold State.takeDown
  simp (maxDischargeDepth := 9) only [ite_blank, ite_self, penalize_blank, portStops_blank, setPort_blank, hregs, hsw, hmgmt, hcol, haer, hflt, hout]

@[simp] theorem changeLane_blank (K : Part → Bool) (hregs : K .regs = true) (hsw : K .sw = true) (hpho : K .pho = true) (hmgmt : K .mgmt = true) (hcol : K .col = true) (haer : K .aer = true) (hflt : K .flt = true) (hout : K .out = true) (s : State) (l : Nat) (f : LaneSt → LaneSt) :
    (State.changeLane s l f).blank K = s.blank K := by
  unfold State.changeLane
  simp (maxDischargeDepth := 9) only [ite_blank, ite_self, alarmPlain_blank, setLane_blank, setPort_blank, settleWidth_blank, stretchTx_blank, takeDown_blank, hregs, hsw, hpho, hmgmt, hcol, haer, hflt, hout]

@[simp] theorem laneCtr_blank (K : Part → Bool) (hregs : K .regs = true) (s : State) (l : Option Nat) (o : Nat) :
    (State.laneCtr s l o).blank K = s.blank K := by
  unfold State.laneCtr
  ((repeat' split) <;> first | with_reducible rfl | simp (maxDischargeDepth := 9) only [bump_blank, hregs])

@[simp] theorem putRing_blank (K : Part → Bool) (hpho : K .pho = true) (s : State) (r : Ring) (x : RingSt) :
    (State.putRing s r x).blank K = s.blank K := by
  unfold State.putRing
  ((repeat' split) <;> first | with_reducible rfl | simp (maxDischargeDepth := 9) only [setPho_blank, hpho])

@[simp] theorem refreshDtd_blank (K : Part → Bool) (hregs : K .regs = true) (hsw : K .sw = true) (hmgmt : K .mgmt = true) (haer : K .aer = true) (s : State) (d : DieNo) (n : Fin 512) :
    (State.refreshDtd s d n).blank K = s.blank K := by
  unfold State.refreshDtd
  simp (maxDischargeDepth := 9) only [ite_blank, ite_self, alarmPlain_blank, setDie_blank, hregs, hsw, hmgmt, haer]

@[simp] theorem relane_blank (K : Part → Bool) (hregs : K .regs = true) (hsw : K .sw = true) (hpho : K .pho = true) (hmgmt : K .mgmt = true) (hcol : K .col = true) (haer : K .aer = true) (hflt : K .flt = true) (hout : K .out = true) (s : State) (l : Nat) :
    (State.relane s l).blank K = s.blank K := by
  unfold State.relane
  simp (maxDischargeDepth := 9) only [ite_blank, ite_self, alarm_blank, changeLane_blank, takeDown_blank, hregs, hsw, hpho, hmgmt, hcol, haer, hflt, hout]

@[simp] theorem relaneCarrier_blank (K : Part → Bool) (hregs : K .regs = true) (hsw : K .sw = true) (hpho : K .pho = true) (hmgmt : K .mgmt = true) (hcol : K .col = true) (haer : K .aer = true) (hflt : K .flt = true) (hout : K .out = true) (s : State) (f w : Nat) :
    (State.relaneCarrier s f w).blank K = s.blank K := by
  unfold State.relaneCarrier
  simp (maxDischargeDepth := 9) only [each_blank, implies_true, relane_blank, hregs, hsw, hpho, hmgmt, hcol, haer, hflt, hout]

@[simp] theorem ringChanged_blank (K : Part → Bool) (hregs : K .regs = true) (hsw : K .sw = true) (hpho : K .pho = true) (hmgmt : K .mgmt = true) (hcol : K .col = true) (haer : K .aer = true) (hflt : K .flt = true) (hout : K .out = true) (s : State) (r : Ring) :
    (s.ringChanged r).blank K = s.blank K := by
  cases r <;> simp (maxDischargeDepth := 9) only [State.ringChanged, refreshDtd_blank, relaneCarrier_blank, hregs, hsw, hpho, hmgmt, hcol, haer, hflt, hout]

@[simp] theorem moveRing_blank (K : Part → Bool) (hregs : K .regs = true) (hsw : K .sw = true) (hpho : K .pho = true) (hmgmt : K .mgmt = true) (hcol : K .col = true) (haer : K .aer = true) (hflt : K .flt = true) (hout : K .out = true) (s : State) (r : Ring) (x : RingSt) :
    (State.moveRing s r x).blank K = s.blank K := by
  unfold State.moveRing
  simp (maxDischargeDepth := 9) only [putRing_blank, ringChanged_blank, hregs, hsw, hpho, hmgmt, hcol, haer, hflt, hout]

@[simp] theorem resweepRing_blank (K : Part → Bool) (hregs : K .regs = true) (hsw : K .sw = true) (hpho : K .pho = true) (hmgmt : K .mgmt = true) (hcol : K .col = true) (haer : K .aer = true) (hflt : K .flt = true) (hout : K .out = true) (s : State) (r : Ring) :
    (State.resweepRing s r).blank K = s.blank K := by
  unfold State.resweepRing
  ((repeat' split) <;> first | with_reducible rfl | simp (maxDischargeDepth := 9) only [laneCtr_blank, moveRing_blank, hregs, hsw, hpho, hmgmt, hcol, haer, hflt, hout])

@[simp] theorem resweepLane_blank (K : Part → Bool) (hregs : K .regs = true) (hsw : K .sw = true) (hpho : K .pho = true) (hmgmt : K .mgmt = true) (hcol : K .col = true) (haer : K .aer = true) (hflt : K .flt = true) (hout : K .out = true) (s : State) (l : Nat) :
    (State.resweepLane s l).blank K = s.blank K := by
  unfold State.resweepLane
  (dsimp only; (repeat' split) <;> first | with_reducible rfl | simp (maxDischargeDepth := 9) only [resweepRing_blank, hregs, hsw, hpho, hmgmt, hcol, haer, hflt, hout])

@[simp] theorem setMove_blank (K : Part → Bool) (hpho : K .pho = true) (s : State) (l : Nat) (target : Option (Nat × Nat)) :
    (State.setMove s l target).blank K = s.blank K := by
  unfold State.setMove
  simp (maxDischargeDepth := 9) only [setLane_blank, hpho]

@[simp] theorem resetLane_blank (K : Part → Bool) (hregs : K .regs = true) (hsw : K .sw = true) (hpho : K .pho = true) (hmgmt : K .mgmt = true) (hcol : K .col = true) (haer : K .aer = true) (hflt : K .flt = true) (hout : K .out = true) (s : State) (l : Nat) :
    (State.resetLane s l).state.blank K = s.blank K := by
  unfold State.resetLane
  ((repeat' split) <;> first | with_reducible rfl | simp (maxDischargeDepth := 9) only [each_blank, implies_true, changeLane_blank, resweepLane_blank, setLane_blank, setMove_blank, hregs, hsw, hpho, hmgmt, hcol, haer, hflt, hout])

@[simp] theorem laneCommand_blank (K : Part → Bool) (hregs : K .regs = true) (hsw : K .sw = true) (hpho : K .pho = true) (hmgmt : K .mgmt = true) (hcol : K .col = true) (haer : K .aer = true) (hflt : K .flt = true) (hout : K .out = true) (s : State) (l cmds : Nat) :
    (State.laneCommand s l cmds).state.blank K = s.blank K := by
  unfold State.laneCommand
  ((repeat' split) <;> first | with_reducible rfl | simp (maxDischargeDepth := 9) only [resetLane_blank, resweepLane_blank, hregs, hsw, hpho, hmgmt, hcol, haer, hflt, hout])

@[simp] theorem setCarrierRings_blank (K : Part → Bool) (hregs : K .regs = true) (hsw : K .sw = true) (hpho : K .pho = true) (hmgmt : K .mgmt = true) (hcol : K .col = true) (haer : K .aer = true) (hflt : K .flt = true) (hout : K .out = true) (s : State) (f w : Nat) (x : RingState) :
    (State.setCarrierRings s f w x).blank K = s.blank K := by
  unfold State.setCarrierRings
  simp (maxDischargeDepth := 9) only [moveRing_blank, hregs, hsw, hpho, hmgmt, hcol, haer, hflt, hout]

@[simp] theorem fitSpares_blank (K : Part → Bool) (hregs : K .regs = true) (hsw : K .sw = true) (hpho : K .pho = true) (hmgmt : K .mgmt = true) (hcol : K .col = true) (haer : K .aer = true) (hflt : K .flt = true) (hout : K .out = true) (s : State) (f : Nat) :
    (State.fitSpares s f).blank K = s.blank K := by
  unfold State.fitSpares
  simp (maxDischargeDepth := 9) only [each_blank, implies_true, ite_blank, ite_self, setCarrierRings_blank, hregs, hsw, hpho, hmgmt, hcol, haer, hflt, hout]

@[simp] theorem eachMac_blank (K : Part → Bool) (htbl : K .tbl = true) (s : State) (f : Nat → Map MacEntry → Map MacEntry) :
    (State.eachMac s f).blank K = s.blank K := by
  unfold State.eachMac
  simp (maxDischargeDepth := 9) only [setTbl_blank, htbl]

@[simp] theorem macRemove_blank (K : Part → Bool) (htbl : K .tbl = true) (s : State) (p : Nat → MacEntry → Bool) :
    (State.macRemove s p).1.blank K = s.blank K := by
  unfold State.macRemove
  simp (maxDischargeDepth := 9) only [eachMac_blank, htbl]

@[simp] theorem macModeFlush_blank (K : Part → Bool) (hregs : K .regs = true) (htbl : K .tbl = true) (s : State) (ports : List Nat) :
    (State.macModeFlush s ports).blank K = s.blank K := by
  unfold State.macModeFlush
  simp (maxDischargeDepth := 9) only [bump_blank, macRemove_blank, hregs, htbl]

@[simp] theorem modeWritten_blank (K : Part → Bool) (hregs : K .regs = true) (hsw : K .sw = true) (htbl : K .tbl = true) (hpho : K .pho = true) (hmgmt : K .mgmt = true) (hcol : K .col = true) (haer : K .aer = true) (hflt : K .flt = true) (hout : K .out = true) (s0 s : State) (n : Nat) :
    (State.modeWritten s0 s n).blank K = s.blank K := by
  unfold State.modeWritten
  simp (maxDischargeDepth := 9) only [each_blank, implies_true, fitSpares_blank, fset_blank, macModeFlush_blank, setPort_blank, hregs, hsw, htbl, hpho, hmgmt, hcol, haer, hflt, hout]

@[simp] theorem disablePort_blank (K : Part → Bool) (hsw : K .sw = true) (s : State) (p : Nat) :
    (State.disablePort s p).blank K = s.blank K := by
  unfold State.disablePort
  simp (maxDischargeDepth := 9) only [ite_blank, ite_self, setPort_blank, hsw]

@[simp] theorem bringUp_blank (K : Part → Bool) (hsw : K .sw = true) (s : State) (p : Nat) :
    (State.bringUp s p).blank K = s.blank K := by
  unfold State.bringUp
  simp (maxDischargeDepth := 9) only [clearCredits_blank, setPort_blank, hsw]

@[simp] theorem lightLane_blank (K : Part → Bool) (hregs : K .regs = true) (hsw : K .sw = true) (hpho : K .pho = true) (hmgmt : K .mgmt = true) (hcol : K .col = true) (haer : K .aer = true) (hflt : K .flt = true) (hout : K .out = true) (s : State) (l : Nat) :
    (State.lightLane s l).blank K = s.blank K := by
  unfold State.lightLane
  simp (maxDischargeDepth := 9) only [changeLane_blank, setPho_blank, hregs, hsw, hpho, hmgmt, hcol, haer, hflt, hout]

@[simp] theorem enablePort_blank (K : Part → Bool) (hregs : K .regs = true) (hsw : K .sw = true) (hpho : K .pho = true) (hmgmt : K .mgmt = true) (hcol : K .col = true) (haer : K .aer = true) (hflt : K .flt = true) (hout : K .out = true) (s : State) (p : Nat) :
    (State.enablePort s p).blank K = s.blank K := by
  unfold State.enablePort
  simp (maxDischargeDepth := 9) only [each_blank, implies_true, ite_blank, ite_self, bringUp_blank, clearCredits_blank, lightLane_blank, rset_blank, setPort_blank, hregs, hsw, hpho, hmgmt, hcol, haer, hflt, hout]

@[simp] theorem setMember_blank (K : Part → Bool) (hcol : K .col = true) (s : State) (c m : Nat) (f : MemberSt → MemberSt) :
    (State.setMember s c m f).blank K = s.blank K := by
  unfold State.setMember
  simp (maxDischargeDepth := 9) only [setCtx_blank, hcol]

@[simp] theorem unfence_blank (K : Part → Bool) (hregs : K .regs = true) (hsw : K .sw = true) (hcol : K .col = true) (hflt : K .flt = true) (s : State) (p : Nat) :
    (State.unfence s p).blank K = s.blank K := by
  unfold State.unfence
  simp (maxDischargeDepth := 9) only [each_blank, implies_true, ite_blank, ite_self, fset_blank, setFlt_blank, setMember_blank, setPort_blank, hregs, hsw, hcol, hflt]

@[simp] theorem portCommand_blank (K : Part → Bool) (hregs : K .regs = true) (hsw : K .sw = true) (hpho : K .pho = true) (hmgmt : K .mgmt = true) (hcol : K .col = true) (haer : K .aer = true) (hflt : K .flt = true) (hout : K .out = true) (s : State) (w : Writer) (n cmds : Nat) :
    (s.portCommand w n cmds).state.blank K = s.blank K := by
  unfold State.portCommand
  dsimp only
  split
  · simp (maxDischargeDepth := 9) only [ite_blank, ite_self, ite_state, enablePort_blank, hregs, hsw, hpho, hmgmt, hcol, haer, hflt, hout]
  · simp (maxDischargeDepth := 9) only [disablePort_blank, hsw]
  · have h0 : (s.requestFence n true false []).1.blank K = s.blank K := by simp (maxDischargeDepth := 9) only [requestFence_blank, hregs, hsw, hmgmt, hcol, haer, hflt, hout]
    split <;> rename_i h <;> rw [h] at h0 <;> exact h0
  · simp (maxDischargeDepth := 9) only [unfence_blank, hregs, hsw, hcol, hflt]
  · simp (maxDischargeDepth := 9) only [ite_blank, ite_self, ite_state, setPort_blank, hsw]
  · rfl

@[simp] theorem forgetPort_blank (K : Part → Bool) (hcal : K .cal = true) (hsw : K .sw = true) (hflt : K .flt = true) (s : State) (q : Nat) :
    (State.forgetPort s q).blank K = s.blank K := by
  unfold State.forgetPort
  simp (maxDischargeDepth := 9) only [setCalSt_blank, setFlt_blank, setSw_blank, hcal, hsw, hflt]

@[simp] theorem resetPage_blank (K : Part → Bool) (hregs : K .regs = true) (s : State) (base off : Nat) :
    (State.resetPage s base off).blank K = s.blank K := by
  unfold State.resetPage
  simp (maxDischargeDepth := 9) only [rclear_blank, hregs]

@[simp] theorem absorbPort_blank (K : Part → Bool) (hregs : K .regs = true) (hcal : K .cal = true) (hsw : K .sw = true) (hflt : K .flt = true) (s : State) (q : Nat) :
    (State.absorbPort s q).blank K = s.blank K := by
  unfold State.absorbPort
  simp (maxDischargeDepth := 9) only [forgetPort_blank, resetPage_blank, rset_blank, hregs, hcal, hsw, hflt]

@[simp] theorem releasePort_blank (K : Part → Bool) (hregs : K .regs = true) (hcal : K .cal = true) (hsw : K .sw = true) (hflt : K .flt = true) (s : State) (q mode : Nat) :
    (State.releasePort s q mode).blank K = s.blank K := by
  unfold State.releasePort
  simp (maxDischargeDepth := 9) only [each_blank, implies_true, forgetPort_blank, fset_blank, resetPage_blank, hregs, hcal, hsw, hflt]

@[simp] theorem widthWritten_blank (K : Part → Bool) (hregs : K .regs = true) (hcal : K .cal = true) (hsw : K .sw = true) (htbl : K .tbl = true) (hflt : K .flt = true) (s0 s : State) (n : Nat) :
    (State.widthWritten s0 s n).blank K = s.blank K := by
  unfold State.widthWritten
  simp (maxDischargeDepth := 9) only [each_blank, implies_true, absorbPort_blank, fset_blank, macModeFlush_blank, releasePort_blank, settleWidth_blank, hregs, hcal, hsw, htbl, hflt]

@[simp] theorem portCtrlWritten_blank (K : Part → Bool) (hregs : K .regs = true) (hcal : K .cal = true) (hsw : K .sw = true) (htbl : K .tbl = true) (hpho : K .pho = true) (hmgmt : K .mgmt = true) (hcol : K .col = true) (haer : K .aer = true) (hflt : K .flt = true) (hout : K .out = true) (s0 s : State) (w : Writer) (n cmds : Nat) :
    (State.portCtrlWritten s0 s w n cmds).state.blank K = s.blank K := by
  unfold State.portCtrlWritten
  simp (maxDischargeDepth := 9) only [ite_blank, ite_self, modeWritten_blank, portCommand_blank, widthWritten_blank, hregs, hcal, hsw, htbl, hpho, hmgmt, hcol, haer, hflt, hout]

@[simp] theorem refreshWaveguide_blank (K : Part → Bool) (hregs : K .regs = true) (hsw : K .sw = true) (hmgmt : K .mgmt = true) (haer : K .aer = true) (s : State) (c : Nat) :
    (State.refreshWaveguide s c).blank K = s.blank K := by
  unfold State.refreshWaveguide
  simp (maxDischargeDepth := 9) only [each_blank, implies_true, refreshDtd_blank, hregs, hsw, hmgmt, haer]

@[simp] theorem setSelector_blank (K : Part → Bool) (hregs : K .regs = true) (s : State) (q v : Nat) :
    (State.setSelector s q v).blank K = s.blank K := by
  unfold State.setSelector
  simp (maxDischargeDepth := 9) only [fset_blank, hregs]

@[simp] theorem startRestore_blank (K : Part → Bool) (hregs : K .regs = true) (hsw : K .sw = true) (hpho : K .pho = true) (hmgmt : K .mgmt = true) (haer : K .aer = true) (s : State) (m : Nat) (f : Option InFlight) :
    (State.startRestore s m f).1.blank K = s.blank K := by
  unfold State.startRestore
  simp (maxDischargeDepth := 9) only [each_blank, implies_true, ite_blank, ite_fst, ite_self, refreshWaveguide_blank, setEls_blank, setPho_blank, setSelector_blank, hregs, hsw, hpho, hmgmt, haer]

@[simp] theorem restoreEls_blank (K : Part → Bool) (hregs : K .regs = true) (hsw : K .sw = true) (hpho : K .pho = true) (hmgmt : K .mgmt = true) (haer : K .aer = true) (s : State) (w : Writer) (m : Nat) :
    (s.restoreEls w m).state.blank K = s.blank K := by
  unfold State.restoreEls
  have h0 : (s.startRestore m w.fly).1.blank K = s.blank K := by simp (maxDischargeDepth := 9) only [startRestore_blank, hregs, hsw, hpho, hmgmt, haer]
  split
  · rename_i h
    rw [h] at h0
    exact h0
  · rfl

@[simp] theorem closeSlot_blank (K : Part → Bool) (hmgmt : K .mgmt = true) (s : State) (slot : Nat) :
    (State.closeSlot s slot).blank K = s.blank K := by
  unfold State.closeSlot
  simp (maxDischargeDepth := 9) only [reapSessions_blank, setMgmt_blank, hmgmt]

@[simp] theorem setKeySlot_blank (K : Part → Bool) (hfuse : K .fuse = true) (s : State) (prog : Bool) (slot : Nat) (k : KeySlot) :
    (State.setKeySlot s prog slot k).blank K = s.blank K := by
  unfold State.setKeySlot
  simp (maxDischargeDepth := 9) only [setFuse_blank, hfuse]

@[simp] theorem keyCommand_blank (K : Part → Bool) (hmgmt : K .mgmt = true) (hfuse : K .fuse = true) (s : State) (w : Writer) (cmds : Nat) :
    (State.keyCommand s w cmds).state.blank K = s.blank K := by
  unfold State.keyCommand
  (dsimp only; (repeat' split) <;> first | with_reducible rfl | simp (maxDischargeDepth := 9) only [closeSlot_blank, setKeySlot_blank, hmgmt, hfuse])

@[simp] theorem secCommand_blank (K : Part → Bool) (hmgmt : K .mgmt = true) (hfuse : K .fuse = true) (s : State) (w : Writer) (off cmds : Nat) :
    (State.secCommand s w off cmds).state.blank K = s.blank K := by
  unfold State.secCommand
  ((repeat' split) <;> first | with_reducible rfl | simp (maxDischargeDepth := 9) only [keyCommand_blank, setFuse_blank, hmgmt, hfuse])

@[simp] theorem setBucket_blank (K : Part → Bool) (hsw : K .sw = true) (s : State) (p b : Nat) (x : Bucket) :
    (State.setBucket s p b x).blank K = s.blank K := by
  unfold State.setBucket
  simp (maxDischargeDepth := 9) only [setPort_blank, hsw]

@[simp] theorem shaperWritten_blank (K : Part → Bool) (hsw : K .sw = true) (s0 s : State) (n b : Nat) :
    (State.shaperWritten s0 s n b).blank K = s.blank K := by
  unfold State.shaperWritten
  simp (maxDischargeDepth := 9) only [setBucket_blank, hsw]

@[simp] theorem startSnap_blank (K : Part → Bool) (hdump : K .dump = true) (s : State) (cause : Nat) (ctx : Option Nat) (slots : List Nat) (pages : Bool) (thenReset : List Nat) :
    (State.startSnap s cause ctx slots pages thenReset).blank K = s.blank K := by
  unfold State.startSnap
  simp (maxDischargeDepth := 9) only [setDump_blank, hdump]

@[simp] theorem triggerDump_blank (K : Part → Bool) (hdump : K .dump = true) (s : State) :
    (State.triggerDump s).state.blank K = s.blank K := by
  unfold State.triggerDump
  simp (maxDischargeDepth := 9) only [ite_blank, ite_state, ite_self, startSnap_blank, hdump]

@[simp] theorem twinDetach_blank (K : Part → Bool) (hcol : K .col = true) (htwin : K .twin = true) (s : State) :
    (State.twinDetach s).1.blank K = s.blank K := by
  unfold State.twinDetach
  ((repeat' split) <;> first | with_reducible rfl | simp (maxDischargeDepth := 9) only [each_blank, implies_true, setCtx_blank, setTwin_blank, hcol, htwin])

@[simp] theorem dropMirrors_blank (K : Part → Bool) (hcol : K .col = true) (s : State) :
    (State.dropMirrors s).blank K = s.blank K := by
  unfold State.dropMirrors
  simp (maxDischargeDepth := 9) only [setCol_blank, hcol]

@[simp] theorem sendHello_blank (K : Part → Bool) (hregs : K .regs = true) (htwin : K .twin = true) (hout : K .out = true) (s : State) :
    (State.sendHello s).blank K = s.blank K := by
  unfold State.sendHello
  simp (maxDischargeDepth := 9) only [setTwin_blank, twinSend_blank, hregs, htwin, hout]

@[simp] theorem startAttach_blank (K : Part → Bool) (hregs : K .regs = true) (hcol : K .col = true) (htwin : K .twin = true) (hsys : K .sys = true) (hout : K .out = true) (s : State) :
    (State.startAttach s).blank K = s.blank K := by
  unfold State.startAttach
  simp (maxDischargeDepth := 9) only [draw_blank, dropMirrors_blank, rset_blank, sendHello_blank, setTwin_blank, hregs, hcol, htwin, hsys, hout]

@[simp] theorem twinPair_blank (K : Part → Bool) (hregs : K .regs = true) (hcol : K .col = true) (htwin : K .twin = true) (hsys : K .sys = true) (hout : K .out = true) (s : State) :
    (State.twinPair s).1.blank K = s.blank K := by
  unfold State.twinPair
  ((repeat' split) <;> first | with_reducible rfl | simp (maxDischargeDepth := 9) only [startAttach_blank, hregs, hcol, htwin, hsys, hout])

@[simp] theorem dropSlots_blank (K : Part → Bool) (hcol : K .col = true) (s : State) (p : Slot → Bool) :
    (State.dropSlots s p).blank K = s.blank K := by
  unfold State.dropSlots
  simp (maxDischargeDepth := 9) only [setCol_blank, hcol]

@[simp] theorem dropRange_blank (K : Part → Bool) (hcol : K .col = true) (htwin : K .twin = true) (s : State) :
    (State.dropRange s).blank K = s.blank K := by
  unfold State.dropRange
  simp (maxDischargeDepth := 9) only [each_blank, implies_true, dropSlots_blank, setCtx_blank, setTwin_blank, hcol, htwin]

@[simp] theorem twinResync_blank (K : Part → Bool) (hregs : K .regs = true) (hcol : K .col = true) (htwin : K .twin = true) (hsys : K .sys = true) (hout : K .out = true) (s : State) :
    (State.twinResync s).1.blank K = s.blank K := by
  unfold State.twinResync
  ((repeat' split) <;> first | with_reducible rfl | simp (maxDischargeDepth := 9) only [dropRange_blank, startAttach_blank, hregs, hcol, htwin, hsys, hout])

@[simp] theorem twinCommand_blank (K : Part → Bool) (hregs : K .regs = true) (hcol : K .col = true) (htwin : K .twin = true) (hsys : K .sys = true) (hout : K .out = true) (s : State) (cmds : Nat) :
    (State.twinCommand s cmds).state.blank K = s.blank K := by
  unfold State.twinCommand
  ((repeat' split) <;> first | with_reducible rfl | simp (maxDischargeDepth := 9) only [Effect_ofPair_blank, twinDetach_blank, twinPair_blank, twinResync_blank, hregs, hcol, htwin, hsys, hout])

@[simp] theorem loseAlignment_blank (K : Part → Bool) (hregs : K .regs = true) (hclk : K .clk = true) (hcal : K .cal = true) (hmgmt : K .mgmt = true) (haer : K .aer = true) (s : State) (cause : Nat) :
    (State.loseAlignment s cause).blank K = s.blank K := by
  unfold State.loseAlignment
  simp (maxDischargeDepth := 9) only [alarm_blank, bump_blank, setClk_blank, suspendAll_blank, hregs, hclk, hcal, hmgmt, haer]

@[simp] theorem checkHoldover_blank (K : Part → Bool) (hregs : K .regs = true) (hclk : K .clk = true) (hcal : K .cal = true) (hmgmt : K .mgmt = true) (haer : K .aer = true) (s : State) :
    (State.checkHoldover s).blank K = s.blank K := by
  unfold State.checkHoldover
  simp (maxDischargeDepth := 9) only [ite_blank, ite_self, loseAlignment_blank, setClk_blank, hregs, hclk, hcal, hmgmt, haer]

@[simp] theorem chooseUpstream_blank (K : Part → Bool) (hclk : K .clk = true) (s : State) :
    (State.chooseUpstream s).blank K = s.blank K := by
  unfold State.chooseUpstream
  simp (maxDischargeDepth := 9) only [setClk_blank, hclk]

@[simp] theorem upstreamWritten_blank (K : Part → Bool) (hregs : K .regs = true) (hclk : K .clk = true) (hcal : K .cal = true) (hmgmt : K .mgmt = true) (haer : K .aer = true) (s : State) (i : Nat) :
    (State.upstreamWritten s i).blank K = s.blank K := by
  unfold State.upstreamWritten
  simp (maxDischargeDepth := 9) only [ite_blank, ite_self, checkHoldover_blank, chooseUpstream_blank, setClk_blank, hregs, hclk, hcal, hmgmt, haer]

@[simp] theorem setUuState_blank (K : Part → Bool) (hregs : K .regs = true) (s : State) (n v : Nat) :
    (State.setUuState s n v).blank K = s.blank K := by
  unfold State.setUuState
  simp (maxDischargeDepth := 9) only [fset_blank, hregs]

@[simp] theorem startUuBist_blank (K : Part → Bool) (hregs : K .regs = true) (hcol : K .col = true) (s : State) (n : Nat) :
    (State.startUuBist s n).blank K = s.blank K := by
  unfold State.startUuBist
  simp (maxDischargeDepth := 9) only [rset_blank, setCore_blank, setUuState_blank, hregs, hcol]

@[simp] theorem bistUu_blank (K : Part → Bool) (hregs : K .regs = true) (hcol : K .col = true) (s : State) (n : Nat) :
    (State.bistUu s n).1.blank K = s.blank K := by
  unfold State.bistUu
  simp (maxDischargeDepth := 9) only [ite_blank, ite_fst, ite_self, setCore_blank, startUuBist_blank, hregs, hcol]

@[simp] theorem releaseUu_blank (K : Part → Bool) (hregs : K .regs = true) (hcol : K .col = true) (s : State) (n : Nat) :
    (State.releaseUu s n).blank K = s.blank K := by
  unfold State.releaseUu
  simp (maxDischargeDepth := 9) only [ite_blank, ite_self, startUuBist_blank, hregs, hcol]

@[simp] theorem uuCommand_blank (K : Part → Bool) (hregs : K .regs = true) (hcol : K .col = true) (s : State) (n cmds : Nat) :
    (State.uuCommand s n cmds).state.blank K = s.blank K := by
  unfold State.uuCommand
  ((repeat' split) <;> first | with_reducible rfl | simp (maxDischargeDepth := 9) only [Effect_ofPair_blank, bistUu_blank, releaseUu_blank, hregs, hcol])

@[simp] theorem newRepair_blank (K : Part → Bool) (hregs : K .regs = true) (hfuse : K .fuse = true) (hcol : K .col = true) (s : State) (e valid row : Nat) :
    (State.newRepair s e valid row).blank K = s.blank K := by
  unfold State.newRepair
  (dsimp only; (repeat' split) <;> first | with_reducible rfl | simp (maxDischargeDepth := 9) only [rset_blank, setEng_blank, setFuse_blank, startEngBist_blank, hregs, hfuse, hcol])

@[simp] theorem writeRepair_blank (K : Part → Bool) (hregs : K .regs = true) (hfuse : K .fuse = true) (hcol : K .col = true) (s : State) (e v : Nat) :
    (State.writeRepair s e v).1.blank K = s.blank K := by
  unfold State.writeRepair
  simp (maxDischargeDepth := 9) only [ite_blank, ite_fst, ite_self, newRepair_blank, hregs, hfuse, hcol]

@[simp] theorem writeEffect_blank (K : Part → Bool) (hregs : K .regs = true) (hhbm : K .hbm = true) (hclk : K .clk = true) (hcal : K .cal = true) (hsw : K .sw = true) (htbl : K .tbl = true) (hpho : K .pho = true) (hmgmt : K .mgmt = true) (hfuse : K .fuse = true) (hcol : K .col = true) (htwin : K .twin = true) (haer : K .aer = true) (hflt : K .flt = true) (hdump : K .dump = true) (hsys : K .sys = true) (hout : K .out = true) (s0 s : State) (h0 : s.blank K = s0.blank K) (w : Writer) (p : Page)
    (off old : Nat) (d : Draft) : (State.writeEffect s0 s w p off old d).state.blank K = s0.blank K := by
  unfold State.writeEffect
  dsimp only
  split <;> simp (maxDischargeDepth := 9) only [h0, ite_blank, ite_self, ite_state, Effect_ofPair_blank, bwCommand_blank, calCommand_blank, ctxCommand_blank, engCommand_blank, kbankWritten_blank, kiteRelease_blank, laneCommand_blank, portCtrlWritten_blank, restoreEls_blank, secCommand_blank, selectRec_blank, setClk_blank, setSys_blank, shaperWritten_blank, triggerDump_blank, twinCommand_blank, upstreamWritten_blank, uuCommand_blank, writeRepair_blank, hregs, hhbm, hclk, hcal, hsw, htbl, hpho, hmgmt, hfuse, hcol, htwin, haer, hflt, hdump, hsys, hout]

@[simp] theorem applyWrite_blank (K : Part → Bool) (hregs : K .regs = true) (hhbm : K .hbm = true) (hclk : K .clk = true) (hcal : K .cal = true) (hsw : K .sw = true) (htbl : K .tbl = true) (hpho : K .pho = true) (hmgmt : K .mgmt = true) (hfuse : K .fuse = true) (hcol : K .col = true) (htwin : K .twin = true) (haer : K .aer = true) (hflt : K .flt = true) (hdump : K .dump = true) (hsys : K .sys = true) (hout : K .out = true) (s : State) (w : Writer) (p : Page) (off old : Nat) (d : Draft) :
    (State.applyWrite s w p off old d).state.blank K = s.blank K := by
  unfold State.applyWrite
  simp (maxDischargeDepth := 9) only [ite_blank, ite_wout, ite_self, advance_blank, countWrite_blank, maskWritten_blank, refuseWrite_blank, storeReg_blank, writeEffect_blank, hregs, hhbm, hclk, hcal, hsw, htbl, hpho, hmgmt, hfuse, hcol, htwin, haer, hflt, hdump, hsys, hout]

@[simp] theorem regWrite_blank (K : Part → Bool) (hregs : K .regs = true) (hhbm : K .hbm = true) (hclk : K .clk = true) (hcal : K .cal = true) (hsw : K .sw = true) (htbl : K .tbl = true) (hpho : K .pho = true) (hmgmt : K .mgmt = true) (hfuse : K .fuse = true) (hcol : K .col = true) (htwin : K .twin = true) (haer : K .aer = true) (hflt : K .flt = true) (hdump : K .dump = true) (hsys : K .sys = true) (hout : K .out = true) (s : State) (w : Writer) (p : Page) (r : RegDef) (mask v : Nat) :
    (State.regWrite s w p r mask v).state.blank K = s.blank K := by
  unfold State.regWrite
  (dsimp only; (repeat' split) <;> first | with_reducible rfl | simp (maxDischargeDepth := 9) only [applyWrite_blank, refuseWrite_blank, hregs, hhbm, hclk, hcal, hsw, htbl, hpho, hmgmt, hfuse, hcol, htwin, haer, hflt, hdump, hsys, hout])

@[simp] theorem wordWrite_blank (K : Part → Bool) (hregs : K .regs = true) (hhbm : K .hbm = true) (hclk : K .clk = true) (hcal : K .cal = true) (hsw : K .sw = true) (htbl : K .tbl = true) (hpho : K .pho = true) (hmgmt : K .mgmt = true) (hfuse : K .fuse = true) (hcol : K .col = true) (htwin : K .twin = true) (haer : K .aer = true) (hflt : K .flt = true) (hdump : K .dump = true) (hsys : K .sys = true) (hout : K .out = true) (s : State) (w : Writer) (p : Page) (off mask v : Nat) :
    (State.wordWrite s w p off mask v).state.blank K = s.blank K := by
  unfold State.wordWrite
  ((repeat' split) <;> first | with_reducible rfl | simp (maxDischargeDepth := 9) only [countWrite_blank, refuseWrite_blank, regWrite_blank, hregs, hhbm, hclk, hcal, hsw, htbl, hpho, hmgmt, hfuse, hcol, htwin, haer, hflt, hdump, hsys, hout])

@[simp] theorem twoWords_blank (K : Part → Bool) (hregs : K .regs = true) (hhbm : K .hbm = true) (hclk : K .clk = true) (hcal : K .cal = true) (hsw : K .sw = true) (htbl : K .tbl = true) (hpho : K .pho = true) (hmgmt : K .mgmt = true) (hfuse : K .fuse = true) (hcol : K .col = true) (htwin : K .twin = true) (haer : K .aer = true) (hflt : K .flt = true) (hdump : K .dump = true) (hsys : K .sys = true) (hout : K .out = true) (s : State) (w : Writer) (p : Page) (off mask v : Nat) :
    (State.twoWords s w p off mask v).state.blank K = s.blank K := by
  unfold State.twoWords
  simp (maxDischargeDepth := 9) only [ite_blank, ite_wout, ite_self, wordWrite_blank, hregs, hhbm, hclk, hcal, hsw, htbl, hpho, hmgmt, hfuse, hcol, htwin, haer, hflt, hdump, hsys, hout]

@[simp] theorem pairWrite_blank (K : Part → Bool) (hregs : K .regs = true) (hhbm : K .hbm = true) (hclk : K .clk = true) (hcal : K .cal = true) (hsw : K .sw = true) (htbl : K .tbl = true) (hpho : K .pho = true) (hmgmt : K .mgmt = true) (hfuse : K .fuse = true) (hcol : K .col = true) (htwin : K .twin = true) (haer : K .aer = true) (hflt : K .flt = true) (hdump : K .dump = true) (hsys : K .sys = true) (hout : K .out = true) (s : State) (w : Writer) (p : Page) (off mask v : Nat) :
    (State.pairWrite s w p off mask v).state.blank K = s.blank K := by
  unfold State.pairWrite
  ((repeat' split) <;> first | with_reducible rfl | simp (maxDischargeDepth := 9) only [regWrite_blank, twoWords_blank, hregs, hhbm, hclk, hcal, hsw, htbl, hpho, hmgmt, hfuse, hcol, htwin, haer, hflt, hdump, hsys, hout])

@[simp] theorem accessWrite_blank (K : Part → Bool) (hregs : K .regs = true) (hhbm : K .hbm = true) (hclk : K .clk = true) (hcal : K .cal = true) (hsw : K .sw = true) (htbl : K .tbl = true) (hpho : K .pho = true) (hmgmt : K .mgmt = true) (hfuse : K .fuse = true) (hcol : K .col = true) (htwin : K .twin = true) (haer : K .aer = true) (hflt : K .flt = true) (hdump : K .dump = true) (hsys : K .sys = true) (hout : K .out = true) (s : State) (w : Writer) (p : Page) (off width mask v : Nat) :
    (State.accessWrite s w p off width mask v).state.blank K = s.blank K := by
  unfold State.accessWrite
  simp (maxDischargeDepth := 9) only [ite_blank, ite_wout, ite_self, pairWrite_blank, wordWrite_blank, hregs, hhbm, hclk, hcal, hsw, htbl, hpho, hmgmt, hfuse, hcol, htwin, haer, hflt, hdump, hsys, hout]

@[simp] theorem acked_blank (K : Part → Bool) (hmgmt : K .mgmt = true) (s : State) (p : Page) :
    (State.acked s p).blank K = s.blank K := by
  unfold State.acked
  simp (maxDischargeDepth := 9) only [setMgmt_blank, hmgmt]

@[simp] theorem writeOn_blank (K : Part → Bool) (hregs : K .regs = true) (hhbm : K .hbm = true) (hclk : K .clk = true) (hcal : K .cal = true) (hsw : K .sw = true) (htbl : K .tbl = true) (hpho : K .pho = true) (hmgmt : K .mgmt = true) (hfuse : K .fuse = true) (hcol : K .col = true) (htwin : K .twin = true) (haer : K .aer = true) (hflt : K .flt = true) (hdump : K .dump = true) (hsys : K .sys = true) (hout : K .out = true) (s : State) (w : Writer) (p : Page) (off width mask v : Nat) :
    (State.writeOn s w p off width mask v).state.blank K = s.blank K := by
  unfold State.writeOn
  simp (maxDischargeDepth := 9) only [ite_blank, ite_wout, ite_self, accessWrite_blank, acked_blank, hregs, hhbm, hclk, hcal, hsw, htbl, hpho, hmgmt, hfuse, hcol, htwin, haer, hflt, hdump, hsys, hout]

@[simp] theorem writeDies_blank (K : Part → Bool) (hregs : K .regs = true) (hhbm : K .hbm = true) (hclk : K .clk = true) (hcal : K .cal = true) (hsw : K .sw = true) (htbl : K .tbl = true) (hpho : K .pho = true) (hmgmt : K .mgmt = true) (hfuse : K .fuse = true) (hcol : K .col = true) (htwin : K .twin = true) (haer : K .aer = true) (hflt : K .flt = true) (hdump : K .dump = true) (hsys : K .sys = true) (hout : K .out = true) (w : Writer) (off width mask v : Nat) (l : List Page) (s : State)
    (b : Option (Code × Nat)) : (State.writeDies w off width mask v l s b).state.blank K = s.blank K := by
  induction l generalizing s b with
  | nil => cases b <;> rfl
  | cons p rest ih =>
    unfold State.writeDies
    simp (maxDischargeDepth := 9) only [ih, ite_blank, ite_self, ite_wout, writeOn_blank, hregs, hhbm, hclk, hcal, hsw, htbl, hpho, hmgmt, hfuse, hcol, htwin, haer, hflt, hdump, hsys, hout]

@[simp] theorem writeAt_blank (K : Part → Bool) (hregs : K .regs = true) (hhbm : K .hbm = true) (hclk : K .clk = true) (hcal : K .cal = true) (hsw : K .sw = true) (htbl : K .tbl = true) (hpho : K .pho = true) (hmgmt : K .mgmt = true) (hfuse : K .fuse = true) (hcol : K .col = true) (htwin : K .twin = true) (haer : K .aer = true) (hflt : K .flt = true) (hdump : K .dump = true) (hsys : K .sys = true) (hout : K .out = true) (s : State) (w : Writer) (addr width mask v : Nat) :
    (State.writeAt s w addr width mask v).state.blank K = s.blank K := by
  unfold State.writeAt
  ((repeat' split) <;> first | with_reducible rfl | simp (maxDischargeDepth := 9) only [writeDies_blank, writeOn_blank, hregs, hhbm, hclk, hcal, hsw, htbl, hpho, hmgmt, hfuse, hcol, htwin, haer, hflt, hdump, hsys, hout])

@[simp] theorem serveWrite_blank (K : Part → Bool) (hregs : K .regs = true) (hhbm : K .hbm = true) (hclk : K .clk = true) (hcal : K .cal = true) (hsw : K .sw = true) (htbl : K .tbl = true) (hpho : K .pho = true) (hmgmt : K .mgmt = true) (hfuse : K .fuse = true) (hcol : K .col = true) (htwin : K .twin = true) (haer : K .aer = true) (hflt : K .flt = true) (hdump : K .dump = true) (hsys : K .sys = true) (hout : K .out = true) (s : State) (q : Req) (a : Access) (v : Word64) :
    (s.serveWrite q a v).blank K = s.blank K := by
  unfold State.serveWrite
  refine serve_blank K hregs hmgmt hout _ _ _ _ _ _ fun s f => ?_
  simp (maxDischargeDepth := 9) only [writeAt_blank, hregs, hhbm, hclk, hcal, hsw, htbl, hpho, hmgmt, hfuse, hcol, htwin, haer, hflt, hdump, hsys, hout]

@[simp] theorem serveReg_blank (K : Part → Bool) (hregs : K .regs = true) (hhbm : K .hbm = true) (hclk : K .clk = true) (hcal : K .cal = true) (hsw : K .sw = true) (htbl : K .tbl = true) (hpho : K .pho = true) (hmgmt : K .mgmt = true) (hfuse : K .fuse = true) (hcol : K .col = true) (htwin : K .twin = true) (haer : K .aer = true) (hflt : K .flt = true) (hdump : K .dump = true) (hsys : K .sys = true) (hout : K .out = true) (s : State) (q : Req) (addr v : Nat) :
    (State.serveReg s q addr v).blank K = s.blank K := by
  unfold State.serveReg
  simp (maxDischargeDepth := 9) only [serveWrite_blank, hregs, hhbm, hclk, hcal, hsw, htbl, hpho, hmgmt, hfuse, hcol, htwin, haer, hflt, hdump, hsys, hout]

@[simp] theorem writeCtxCtrl_blank (K : Part → Bool) (hregs : K .regs = true) (hhbm : K .hbm = true) (hclk : K .clk = true) (hcal : K .cal = true) (hsw : K .sw = true) (htbl : K .tbl = true) (hpho : K .pho = true) (hmgmt : K .mgmt = true) (hfuse : K .fuse = true) (hcol : K .col = true) (htwin : K .twin = true) (haer : K .aer = true) (hflt : K .flt = true) (hdump : K .dump = true) (hsys : K .sys = true) (hout : K .out = true) (s : State) (q : Req) (c v : Nat) :
    (State.writeCtxCtrl s q c v).blank K = s.blank K := by
  unfold State.writeCtxCtrl
  simp (maxDischargeDepth := 9) only [serveReg_blank, hregs, hhbm, hclk, hcal, hsw, htbl, hpho, hmgmt, hfuse, hcol, htwin, haer, hflt, hdump, hsys, hout]

@[simp] theorem completeEnable_blank (K : Part → Bool) (hregs : K .regs = true) (hsw : K .sw = true) (htbl : K .tbl = true) (hmgmt : K .mgmt = true) (hcol : K .col = true) (haer : K .aer = true) (hout : K .out = true) (s : State) (c : Nat) :
    (s.completeEnable c).blank K = s.blank K := by
  unfold State.completeEnable
  dsimp only
  split
  · split <;> simp (maxDischargeDepth := 9) only [ite_blank, ite_self, each_blank, implies_true, advance_blank, fset_blank, originate_blank, reply_blank, retireBanks_blank, rset_blank, setCtx_blank, writeGroups_blank, hregs, hsw, htbl, hmgmt, hcol, haer, hout]
  · rfl

@[simp] theorem refuseAsking_blank (K : Part → Bool) (hregs : K .regs = true) (hmgmt : K .mgmt = true) (hcol : K .col = true) (hout : K .out = true) (s : State) (c reason : Nat) :
    (State.refuseAsking s c reason).blank K = s.blank K := by
  unfold State.refuseAsking
  ((repeat' split) <;> first | with_reducible rfl | simp (maxDischargeDepth := 9) only [refuseEnable_blank, reply_blank, setCtx_blank, hregs, hmgmt, hcol, hout])

@[simp] theorem sendAbort_blank (K : Part → Bool) (hregs : K .regs = true) (hsw : K .sw = true) (htbl : K .tbl = true) (hmgmt : K .mgmt = true) (haer : K .aer = true) (s : State) (c step first last reason : Nat) :
    (State.sendAbort s c step first last reason).blank K = s.blank K := by
  unfold State.sendAbort
  simp (maxDischargeDepth := 9) only [originate_blank, hregs, hsw, htbl, hmgmt, haer]

@[simp] theorem sendAborts_blank (K : Part → Bool) (hregs : K .regs = true) (hsw : K .sw = true) (htbl : K .tbl = true) (hmgmt : K .mgmt = true) (haer : K .aer = true) (s : State) (c : Nat) (chunks : List (Nat × Nat)) (reason : Nat) :
    (State.sendAborts s c chunks reason).blank K = s.blank K := by
  unfold State.sendAborts
  simp (maxDischargeDepth := 9) only [each_blank, implies_true, sendAbort_blank, hregs, hsw, htbl, hmgmt, haer]

@[simp] theorem abortSlots_blank (K : Part → Bool) (hregs : K .regs = true) (hsw : K .sw = true) (htbl : K .tbl = true) (hmgmt : K .mgmt = true) (hcol : K .col = true) (haer : K .aer = true) (s : State) (c reason : Nat) (p : Slot → Bool) :
    (State.abortSlots s c reason p).blank K = s.blank K := by
  unfold State.abortSlots
  (dsimp only; (repeat' split) <;> first | with_reducible rfl | simp (maxDischargeDepth := 9) only [ctxCtr_blank, dropSlots_blank, sendAborts_blank, setCtx_blank, hregs, hsw, htbl, hmgmt, hcol, haer])

@[simp] theorem enterLull_blank (K : Part → Bool) (hcol : K .col = true) (s : State) (c : Nat) :
    (State.enterLull s c).blank K = s.blank K := by
  unfold State.enterLull
  simp (maxDischargeDepth := 9) only [setCtx_blank, hcol]

@[simp] theorem lullNow_blank (K : Part → Bool) (hregs : K .regs = true) (hsw : K .sw = true) (htbl : K .tbl = true) (hmgmt : K .mgmt = true) (hcol : K .col = true) (haer : K .aer = true) (s : State) (c : Nat) :
    (State.lullNow s c).blank K = s.blank K := by
  unfold State.lullNow
  simp (maxDischargeDepth := 9) only [ite_blank, ite_self, abortSlots_blank, enterLull_blank, hregs, hsw, htbl, hmgmt, hcol, haer]

@[simp] theorem ctxIdle_blank (K : Part → Bool) (hregs : K .regs = true) (hmgmt : K .mgmt = true) (hcol : K .col = true) (haer : K .aer = true) (hout : K .out = true) (s : State) (c : Nat) :
    (State.ctxIdle s c).blank K = s.blank K := by
  unfold State.ctxIdle
  simp (maxDischargeDepth := 9) only [each_blank, implies_true, alarmPlain_blank, reply_blank, setCtx_blank, hregs, hmgmt, hcol, haer, hout]

@[simp] theorem dropContribs_blank (K : Part → Bool) (hsw : K .sw = true) (s : State) (c : Nat) :
    (State.dropContribs s c).blank K = s.blank K := by
  unfold State.dropContribs
  simp (maxDischargeDepth := 9) only [each_blank, implies_true, ite_blank, ite_self, freeCredit_blank, setSw_blank, hsw]

@[simp] theorem resetAborts_blank (K : Part → Bool) (hregs : K .regs = true) (hsw : K .sw = true) (htbl : K .tbl = true) (hmgmt : K .mgmt = true) (hcol : K .col = true) (haer : K .aer = true) (s : State) (c : Nat) :
    (State.resetAborts s c).blank K = s.blank K := by
  unfold State.resetAborts
  simp (maxDischargeDepth := 9) only [abortSlots_blank, dropContribs_blank, setCtx_blank, hregs, hsw, htbl, hmgmt, hcol, haer]

@[simp] theorem missFalls_blank (K : Part → Bool) (hcol : K .col = true) (s : State) (c m : Nat) :
    (State.missFalls s c m).blank K = s.blank K := by
  unfold State.missFalls
  simp (maxDischargeDepth := 9) only [setMember_blank, hcol]

@[simp] theorem haltCtx_blank (K : Part → Bool) (hregs : K .regs = true) (hsw : K .sw = true) (htbl : K .tbl = true) (hmgmt : K .mgmt = true) (hcol : K .col = true) (haer : K .aer = true) (s : State) (c step : Nat) :
    (State.haltCtx s c step).blank K = s.blank K := by
  unfold State.haltCtx
  simp (maxDischargeDepth := 9) only [alarm_blank, dropSlots_blank, sendAborts_blank, setCtx_blank, hregs, hsw, htbl, hmgmt, hcol, haer]

@[simp] theorem noteAborts_blank (K : Part → Bool) (hregs : K .regs = true) (hsw : K .sw = true) (htbl : K .tbl = true) (hmgmt : K .mgmt = true) (hcol : K .col = true) (haer : K .aer = true) (s : State) (c step n : Nat) :
    (State.noteAborts s c step n).blank K = s.blank K := by
  unfold State.noteAborts
  simp (maxDischargeDepth := 9) only [ite_blank, ite_self, haltCtx_blank, setCtx_blank, hregs, hsw, htbl, hmgmt, hcol, haer]

@[simp] theorem deadlines_blank (K : Part → Bool) (hregs : K .regs = true) (hsw : K .sw = true) (htbl : K .tbl = true) (hmgmt : K .mgmt = true) (hcol : K .col = true) (haer : K .aer = true) (hflt : K .flt = true) (hout : K .out = true) (s : State) (c : Nat) :
    (State.deadlines s c).blank K = s.blank K := by
  unfold State.deadlines
  (dsimp only; (repeat' split) <;> first | with_reducible rfl | simp (maxDischargeDepth := 9) only [each_blank, implies_true, ctxCtr_blank, dropSlots_blank, judgeFalls_blank, missFalls_blank, noteAborts_blank, record_blank, sendAborts_blank, setCtx_blank, setMember_blank, hregs, hsw, htbl, hmgmt, hcol, haer, hflt, hout])

@[simp] theorem lastMember_blank (K : Part → Bool) (hregs : K .regs = true) (hcol : K .col = true) (s : State) (x : Slot) :
    (State.lastMember s x).blank K = s.blank K := by
  unfold State.lastMember
  simp (maxDischargeDepth := 9) only [ite_blank, ite_self, rset_blank, setMember_blank, hregs, hcol]

@[simp] theorem sendResult_blank (K : Part → Bool) (hregs : K .regs = true) (hsw : K .sw = true) (htbl : K .tbl = true) (hmgmt : K .mgmt = true) (haer : K .aer = true) (s : State) (c step chunk core : Nat) (result : Bytes) :
    (State.sendResult s c step chunk core result).blank K = s.blank K := by
  unfold State.sendResult
  simp (maxDischargeDepth := 9) only [each_blank, implies_true, originate_blank, hregs, hsw, htbl, hmgmt, haer]

@[simp] theorem sendSync_blank (K : Part → Bool) (hregs : K .regs = true) (hsw : K .sw = true) (htbl : K .tbl = true) (hmgmt : K .mgmt = true) (haer : K .aer = true) (s : State) (c step aux src : Nat) (goal : Goal) :
    (State.sendSync s c step aux src goal).blank K = s.blank K := by
  unfold State.sendSync
  simp (maxDischargeDepth := 9) only [originate_blank, hregs, hsw, htbl, hmgmt, haer]

@[simp] theorem globalSteps_blank (K : Part → Bool) (hregs : K .regs = true) (hsw : K .sw = true) (htbl : K .tbl = true) (hmgmt : K .mgmt = true) (hcol : K .col = true) (haer : K .aer = true) (n : Nat) (s : State) (c : Nat) :
    (State.globalSteps n s c).blank K = s.blank K := by
  induction n generalizing s with
  | zero => rfl
  | succ n ih =>
    unfold State.globalSteps
    simp (maxDischargeDepth := 9) only [ih, ite_blank, ite_self, sendSync_blank, setCtx_blank, hregs, hsw, htbl, hmgmt, hcol, haer]

@[simp] theorem spineReport_blank (K : Part → Bool) (hregs : K .regs = true) (hsw : K .sw = true) (htbl : K .tbl = true) (hmgmt : K .mgmt = true) (hcol : K .col = true) (haer : K .aer = true) (s : State) (c step i : Nat) :
    (State.spineReport s c step i).blank K = s.blank K := by
  unfold State.spineReport
  simp (maxDischargeDepth := 9) only [ite_blank, ite_self, ctxCtr_blank, globalSteps_blank, setCtx_blank, hregs, hsw, htbl, hmgmt, hcol, haer]

@[simp] theorem ownReport_blank (K : Part → Bool) (hregs : K .regs = true) (hsw : K .sw = true) (htbl : K .tbl = true) (hmgmt : K .mgmt = true) (hcol : K .col = true) (haer : K .aer = true) (s : State) (c step : Nat) :
    (State.ownReport s c step).blank K = s.blank K := by
  unfold State.ownReport
  ((repeat' split) <;> first | with_reducible rfl | simp (maxDischargeDepth := 9) only [spineReport_blank, hregs, hsw, htbl, hmgmt, hcol, haer])

@[simp] theorem notifyStep_blank (K : Part → Bool) (hregs : K .regs = true) (hsw : K .sw = true) (htbl : K .tbl = true) (hmgmt : K .mgmt = true) (hcol : K .col = true) (haer : K .aer = true) (s : State) (c step : Nat) (taken : Bool) :
    (State.notifyStep s c step taken).blank K = s.blank K := by
  unfold State.notifyStep
  (dsimp only; (repeat' split) <;> first | with_reducible rfl | simp (maxDischargeDepth := 9) only [ownReport_blank, sendSync_blank, spineReport_blank, hregs, hsw, htbl, hmgmt, hcol, haer])

@[simp] theorem sendStepDigest_blank (K : Part → Bool) (hregs : K .regs = true) (hcol : K .col = true) (hout : K .out = true) (s : State) (c step : Nat) :
    (State.sendStepDigest s c step).blank K = s.blank K := by
  unfold State.sendStepDigest
  simp (maxDischargeDepth := 9) only [ite_blank, ite_self, setCtx_blank, twinSend_blank, hregs, hcol, hout]

@[simp] theorem stepsDone_blank (K : Part → Bool) (hregs : K .regs = true) (hsw : K .sw = true) (htbl : K .tbl = true) (hmgmt : K .mgmt = true) (hcol : K .col = true) (haer : K .aer = true) (hout : K .out = true) (n : Nat) (s : State) (c : Nat) :
    (State.stepsDone n s c).blank K = s.blank K := by
  induction n generalizing s with
  | zero => rfl
  | succ n ih =>
    unfold State.stepsDone
    simp (maxDischargeDepth := 9) only [ih, ite_blank, ite_self, ctxCtr_blank, notifyStep_blank, retireBanks_blank, sendStepDigest_blank, setCtx_blank, hregs, hsw, htbl, hmgmt, hcol, haer, hout]

@[simp] theorem takenDone_blank (K : Part → Bool) (hregs : K .regs = true) (hsw : K .sw = true) (htbl : K .tbl = true) (hmgmt : K .mgmt = true) (hcol : K .col = true) (haer : K .aer = true) (n : Nat) (s : State) (c : Nat) :
    (State.takenDone n s c).blank K = s.blank K := by
  induction n generalizing s with
  | zero => rfl
  | succ n ih =>
    unfold State.takenDone
    simp (maxDischargeDepth := 9) only [ih, ite_blank, ite_self, notifyStep_blank, setCtx_blank, hregs, hsw, htbl, hmgmt, hcol, haer]

@[simp] theorem releaseSlot_blank (K : Part → Bool) (hregs : K .regs = true) (hsw : K .sw = true) (htbl : K .tbl = true) (hmgmt : K .mgmt = true) (hcol : K .col = true) (haer : K .aer = true) (hout : K .out = true) (s : State) (x : Slot) :
    (State.releaseSlot s x).blank K = s.blank K := by
  unfold State.releaseSlot
  simp (maxDischargeDepth := 9) only [ite_blank, ite_self, dropSlots_blank, lastMember_blank, pmc_blank, sendResult_blank, setCtx_blank, stepsDone_blank, takenDone_blank, twinSend_blank, hregs, hsw, htbl, hmgmt, hcol, haer, hout]

@[simp] theorem startRound_blank (K : Part → Bool) (hregs : K .regs = true) (hsw : K .sw = true) (htbl : K .tbl = true) (hmgmt : K .mgmt = true) (hcol : K .col = true) (haer : K .aer = true) (s : State) (c : Nat) :
    (State.startRound s c).blank K = s.blank K := by
  unfold State.startRound
  (dsimp only; (repeat' split) <;> first | with_reducible rfl | simp (maxDischargeDepth := 9) only [each_blank, implies_true, alarm_blank, bset_blank, originate_blank, setCtx_blank, hregs, hsw, htbl, hmgmt, hcol, haer])

@[simp] theorem stepExpires_blank (K : Part → Bool) (hregs : K .regs = true) (hsw : K .sw = true) (htbl : K .tbl = true) (hmgmt : K .mgmt = true) (hcol : K .col = true) (haer : K .aer = true) (s : State) (c step : Nat) :
    (State.stepExpires s c step).blank K = s.blank K := by
  unfold State.stepExpires
  simp (maxDischargeDepth := 9) only [each_blank, implies_true, noteAborts_blank, sendAbort_blank, setCtx_blank, hregs, hsw, htbl, hmgmt, hcol, haer]

@[simp] theorem snapStore_blank (K : Part → Bool) (hhbm : K .hbm = true) (s : State) (d off : Nat) (bs : Bytes) :
    (State.snapStore s d off bs).blank K = s.blank K := by
  unfold State.snapStore
  simp (maxDischargeDepth := 9) only [hwrite_blank, hhbm]

@[simp] theorem writeSnap_blank (K : Part → Bool) (hregs : K .regs = true) (hhbm : K .hbm = true) (s : State) (h : DumpHead) (rs : List DumpRec) :
    (State.writeSnap s h rs).blank K = s.blank K := by
  unfold State.writeSnap
  simp (maxDischargeDepth := 9) only [ite_blank, ite_self, rset_blank, snapStore_blank, hregs, hhbm]

@[simp] theorem writeSnaps_blank (K : Part → Bool) (hregs : K .regs = true) (hhbm : K .hbm = true) (hsys : K .sys = true) (s : State) (x : Snapshot) :
    (State.writeSnaps s x).blank K = s.blank K := by
  unfold State.writeSnaps
  simp (maxDischargeDepth := 9) only [each_blank, implies_true, free_blank, writeSnap_blank, hregs, hhbm, hsys]

@[simp] theorem finishSnap_blank (K : Part → Bool) (hregs : K .regs = true) (hhbm : K .hbm = true) (hcol : K .col = true) (hdump : K .dump = true) (hsys : K .sys = true) (s : State) :
    (State.finishSnap s).blank K = s.blank K := by
  unfold State.finishSnap
  ((repeat' split) <;> first | with_reducible rfl | simp (maxDischargeDepth := 9) only [each_blank, implies_true, ite_blank, ite_self, askReset_blank, setDump_blank, writeSnaps_blank, hregs, hhbm, hcol, hdump, hsys])

@[simp] theorem raiseFatal_blank (K : Part → Bool) (hpho : K .pho = true) (hdump : K .dump = true) (s : State) (cause : Nat) :
    (s.raiseFatal cause).blank K = s.blank K := by
  unfold State.raiseFatal
  split
  · simp (maxDischargeDepth := 9) only [ite_blank, ite_self, setDump_blank, hdump]
  · simp (maxDischargeDepth := 9) only [each_blank, implies_true, setDump_blank, setEls_blank, setPho_blank, hpho, hdump]

@[simp] theorem finishFatal_blank (K : Part → Bool) (hhbm : K .hbm = true) (hdump : K .dump = true) (hsys : K .sys = true) (s : State) (silent : List Nat) (hung : List Nat) :
    (State.finishFatal s silent hung).blank K = s.blank K := by
  unfold State.finishFatal
  ((repeat' split) <;> first | with_reducible rfl | simp (maxDischargeDepth := 9) only [each_blank, implies_true, free_blank, hwrite_blank, setDump_blank, hhbm, hdump, hsys])

@[simp] theorem cycleRecords_blank (K : Part → Bool) (hregs : K .regs = true) (hmgmt : K .mgmt = true) (haer : K .aer = true) (s : State) (cycle : List Nat) :
    (State.cycleRecords s cycle).blank K = s.blank K := by
  unfold State.cycleRecords
  simp (maxDischargeDepth := 9) only [each_blank, implies_true, alarm_blank, record_blank, hregs, hmgmt, haer]

@[simp] theorem doldrumsEvent_blank (K : Part → Bool) (hregs : K .regs = true) (hmgmt : K .mgmt = true) (hcol : K .col = true) (haer : K .aer = true) (hflt : K .flt = true) (hdump : K .dump = true) (s : State) (cycle : List Nat) :
    (State.doldrumsEvent s cycle).blank K = s.blank K := by
  unfold State.doldrumsEvent
  simp (maxDischargeDepth := 9) only [each_blank, implies_true, ite_blank, ite_self, askReset_blank, bump_blank, cycleRecords_blank, rset_blank, setFlt_blank, startSnap_blank, hregs, hmgmt, hcol, haer, hflt, hdump]

@[simp] theorem doldrumsScan_blank (K : Part → Bool) (hregs : K .regs = true) (hmgmt : K .mgmt = true) (hcol : K .col = true) (haer : K .aer = true) (hflt : K .flt = true) (hdump : K .dump = true) (s : State) :
    (State.doldrumsScan s).blank K = s.blank K := by
  unfold State.doldrumsScan
  simp (maxDischargeDepth := 9) only [each_blank, implies_true, doldrumsEvent_blank, setFlt_blank, hregs, hmgmt, hcol, haer, hflt, hdump]

@[simp] theorem bwCount_blank (K : Part → Bool) (hsys : K .sys = true) (s : State) (p rx tx granted : Nat) :
    (State.bwCount s p rx tx granted).blank K = s.blank K := by
  unfold State.bwCount
  simp (maxDischargeDepth := 9) only [ite_blank, ite_self, setSys_blank, hsys]

@[simp] theorem useCredit_blank (K : Part → Bool) (hsw : K .sw = true) (s : State) (p vc n : Nat) :
    (State.useCredit s p vc n).blank K = s.blank K := by
  unfold State.useCredit
  simp (maxDischargeDepth := 9) only [ite_blank, ite_self, setPort_blank, hsw]

@[simp] theorem startTx_blank (K : Part → Bool) (hregs : K .regs = true) (hsw : K .sw = true) (hsys : K .sys = true) (s : State) (p vc n enterFc at_ : Nat) (window : Option Nat) (cut : Bool) :
    (State.startTx s p vc n enterFc at_ window cut).blank K = s.blank K := by
  unfold State.startTx
  simp (maxDischargeDepth := 9) only [ite_blank, ite_self, bwCount_blank, pmc_blank, portCtr_blank, rset_blank, setPort_blank, useCredit_blank, hregs, hsw, hsys]

@[simp] theorem transmit_blank (K : Part → Bool) (hregs : K .regs = true) (hsw : K .sw = true) (hsys : K .sys = true) (hout : K .out = true) (s : State) (x : EgPkt) (at_ : Nat) (window : Option Nat) (cut : Bool) :
    (State.transmit s x at_ window cut).blank K = s.blank K := by
  unfold State.transmit
  simp (maxDischargeDepth := 9) only [egressGone_blank, send_blank, setSw_blank, startTx_blank, hregs, hsw, hsys, hout]

@[simp] theorem grantRun_blank (K : Part → Bool) (hregs : K .regs = true) (hsw : K .sw = true) (hsys : K .sys = true) (hout : K .out = true) (n : Nat) (s : State) (p : Nat) (e : CalEntry) (w : Nat) :
    (State.grantRun n s p e w).blank K = s.blank K := by
  induction n generalizing s with
  | zero => rfl
  | succ n ih =>
    unfold State.grantRun
    split
    · rfl
    · simp (maxDischargeDepth := 9) only [ih, ite_blank, ite_self, bump_blank, pmc_blank, setPort_blank, transmit_blank, hregs, hsw, hsys, hout]

@[simp] theorem missedGrant_blank (K : Part → Bool) (hsw : K .sw = true) (s : State) (p : Nat) (e : CalEntry) :
    (State.missedGrant s p e).blank K = s.blank K := by
  unfold State.missedGrant
  simp (maxDischargeDepth := 9) only [setSw_blank, hsw]

@[simp] theorem countSlip_blank (K : Part → Bool) (hregs : K .regs = true) (s : State) (x : EgPkt) :
    (State.countSlip s x).blank K = s.blank K := by
  unfold State.countSlip
  simp (maxDischargeDepth := 9) only [ite_blank, ite_self, bump_blank, pmc_blank, hregs]

@[simp] theorem drawVc2_blank (K : Part → Bool) (hsw : K .sw = true) (s : State) (p n : Nat) :
    (State.drawVc2 s p n).blank K = s.blank K := by
  unfold State.drawVc2
  simp (maxDischargeDepth := 9) only [setPort_blank, hsw]

@[simp] theorem countHold_blank (K : Part → Bool) (hregs : K .regs = true) (hsw : K .sw = true) (s : State) (p : Nat) :
    (State.countHold s p).blank K = s.blank K := by
  unfold State.countHold
  simp (maxDischargeDepth := 9) only [ite_blank, ite_self, bump_blank, pmc_blank, setPort_blank, hregs, hsw]

@[simp] theorem sendLeftover_blank (K : Part → Bool) (hregs : K .regs = true) (hsw : K .sw = true) (hsys : K .sys = true) (hout : K .out = true) (s : State) (x : EgPkt) (cut : Bool) :
    (State.sendLeftover s x cut).blank K = s.blank K := by
  unfold State.sendLeftover
  simp (maxDischargeDepth := 9) only [countSlip_blank, transmit_blank, hregs, hsw, hsys, hout]

@[simp] theorem drawTokens_blank (K : Part → Bool) (hsw : K .sw = true) (s : State) (p b n : Nat) :
    (State.drawTokens s p b n).blank K = s.blank K := by
  unfold State.drawTokens
  simp (maxDischargeDepth := 9) only [ite_blank, ite_self, setBucket_blank, hsw]

@[simp] theorem leftover_blank (K : Part → Bool) (hregs : K .regs = true) (hsw : K .sw = true) (hsys : K .sys = true) (hout : K .out = true) (s : State) (p : Nat) (b : Option Nat × Option Nat) :
    (State.leftover s p b).blank K = s.blank K := by
  unfold State.leftover
  (dsimp only; (repeat' split) <;> first | with_reducible rfl | simp (maxDischargeDepth := 9) only [drawTokens_blank, drawVc2_blank, sendLeftover_blank, setPort_blank, hregs, hsw, hsys, hout])

@[simp] theorem drawLeftover_blank (K : Part → Bool) (hsw : K .sw = true) (s : State) (p vc n : Nat) :
    (State.drawLeftover s p vc n).blank K = s.blank K := by
  unfold State.drawLeftover
  simp (maxDischargeDepth := 9) only [ite_blank, ite_self, drawTokens_blank, drawVc2_blank, hsw]

@[simp] theorem countCut_blank (K : Part → Bool) (hregs : K .regs = true) (s : State) (x : EgPkt) (window : Option Nat) :
    (State.countCut s x window).blank K = s.blank K := by
  unfold State.countCut
  ((repeat' split) <;> first | with_reducible rfl | simp (maxDischargeDepth := 9) only [bump_blank, countSlip_blank, hregs])

@[simp] theorem cutStart_blank (K : Part → Bool) (hregs : K .regs = true) (hsw : K .sw = true) (hsys : K .sys = true) (s : State) (f : Flow) :
    (State.cutStart s f).blank K = s.blank K := by
  unfold State.cutStart
  ((repeat' split) <;> first | with_reducible rfl | simp (maxDischargeDepth := 9) only [countCut_blank, drawLeftover_blank, setFlow_blank, startTx_blank, hregs, hsw, hsys])

@[simp] theorem cutQueued_blank (K : Part → Bool) (hregs : K .regs = true) (hsw : K .sw = true) (hsys : K .sys = true) (hout : K .out = true) (s : State) (x : EgPkt) :
    (State.cutQueued s x).blank K = s.blank K := by
  unfold State.cutQueued
  ((repeat' split) <;> first | with_reducible rfl | simp (maxDischargeDepth := 9) only [countCut_blank, drawLeftover_blank, transmit_blank, hregs, hsw, hsys, hout])

@[simp] theorem sendBlock_blank (K : Part → Bool) (hsw : K .sw = true) (hout : K .out = true) (s : State) (p : Nat) (b : Bytes) :
    (State.sendBlock s p b).blank K = s.blank K := by
  unfold State.sendBlock
  simp (maxDischargeDepth := 9) only [send_blank, setPort_blank, hsw, hout]

@[simp] theorem countSpecials_blank (K : Part → Bool) (hregs : K .regs = true) (s : State) (x : Slot) (t : Nat) (fault : TileFault) :
    (State.countSpecials s x t fault).blank K = s.blank K := by
  unfold State.countSpecials
  (dsimp only; (repeat' split) <;> first | with_reducible rfl | simp (maxDischargeDepth := 9) only [ctxCtr_blank, rset_blank, hregs])

@[simp] theorem quarantineEng_blank (K : Part → Bool) (hregs : K .regs = true) (hmgmt : K .mgmt = true) (haer : K .aer = true) (s : State) (e : Nat) (links : List AerLink) :
    (State.quarantineEng s e links).blank K = s.blank K := by
  unfold State.quarantineEng
  simp (maxDischargeDepth := 9) only [alarm_blank, setEngState_blank, hregs, hmgmt, haer]

@[simp] theorem endEngBist_blank (K : Part → Bool) (hregs : K .regs = true) (hmgmt : K .mgmt = true) (hfuse : K .fuse = true) (hcol : K .col = true) (haer : K .aer = true) (s : State) (e : Nat) (found : BistFound) :
    (State.endEngBist s e found).blank K = s.blank K := by
  unfold State.endEngBist
  simp (maxDischargeDepth := 9) only [ite_blank, ite_self, alarm_blank, newRepair_blank, quarantineEng_blank, rset_blank, hregs, hmgmt, hfuse, hcol, haer]

@[simp] theorem runTile_blank (K : Part → Bool) (hregs : K .regs = true) (hcol : K .col = true) (s : State) (x : Slot) (t : Tile) (e : Nat) :
    (State.runTile s x t e).blank K = s.blank K := by
  unfold State.runTile
  simp (maxDischargeDepth := 9) only [rset_blank, setEngState_blank, setEng_blank, setSlot_blank, hregs, hcol]

@[simp] theorem noEngine_blank (K : Part → Bool) (hregs : K .regs = true) (hmgmt : K .mgmt = true) (haer : K .aer = true) (s : State) (core : Nat) :
    (State.noEngine s core).blank K = s.blank K := by
  unfold State.noEngine
  simp (maxDischargeDepth := 9) only [ite_blank, ite_self, alarmPlain_blank, hregs, hmgmt, haer]

@[simp] theorem startTile_blank (K : Part → Bool) (hregs : K .regs = true) (hmgmt : K .mgmt = true) (hcol : K .col = true) (haer : K .aer = true) (s : State) (desc : Nat) (t : Tile) :
    (State.startTile s desc t).blank K = s.blank K := by
  unfold State.startTile
  ((repeat' split) <;> first | with_reducible rfl | simp (maxDischargeDepth := 9) only [noEngine_blank, runTile_blank, hregs, hmgmt, hcol, haer])

@[simp] theorem issueTiles_blank (K : Part → Bool) (hregs : K .regs = true) (hmgmt : K .mgmt = true) (hcol : K .col = true) (haer : K .aer = true) (s : State) (desc : Nat) :
    (State.issueTiles s desc).blank K = s.blank K := by
  unfold State.issueTiles
  ((repeat' split) <;> first | with_reducible rfl | simp (maxDischargeDepth := 9) only [each_blank, implies_true, startTile_blank, hregs, hmgmt, hcol, haer])

@[simp] theorem rerunTile_blank (K : Part → Bool) (hregs : K .regs = true) (hmgmt : K .mgmt = true) (hcol : K .col = true) (haer : K .aer = true) (s : State) (desc tile : Nat) :
    (State.rerunTile s desc tile).blank K = s.blank K := by
  unfold State.rerunTile
  ((repeat' split) <;> first | with_reducible rfl | simp (maxDischargeDepth := 9) only [each_blank, implies_true, startTile_blank, hregs, hmgmt, hcol, haer])

@[simp] theorem issueChunk_blank (K : Part → Bool) (hregs : K .regs = true) (hmgmt : K .mgmt = true) (hcol : K .col = true) (haer : K .aer = true) (s : State) (x : Slot) :
    (State.issueChunk s x).blank K = s.blank K := by
  unfold State.issueChunk
  simp (maxDischargeDepth := 9) only [issueTiles_blank, setCore_blank, setSlot_blank, hregs, hmgmt, hcol, haer]

@[simp] theorem countWaits_blank (K : Part → Bool) (hregs : K .regs = true) (s : State) (x : Slot) :
    (State.countWaits s x).blank K = s.blank K := by
  unfold State.countWaits
  simp (maxDischargeDepth := 9) only [ite_blank, ite_self, pmc_blank, hregs]

@[simp] theorem issueCore_blank (K : Part → Bool) (hregs : K .regs = true) (hmgmt : K .mgmt = true) (hcol : K .col = true) (haer : K .aer = true) (s : State) (core : Nat) :
    (State.issueCore s core).blank K = s.blank K := by
  unfold State.issueCore
  simp (maxDischargeDepth := 9) only [each_blank, implies_true, ite_blank, ite_self, countWaits_blank, issueChunk_blank, issueTiles_blank, noEngine_blank, hregs, hmgmt, hcol, haer]

@[simp] theorem engIdle_blank (K : Part → Bool) (hregs : K .regs = true) (hcol : K .col = true) (s : State) (e : Nat) :
    (State.engIdle s e).blank K = s.blank K := by
  unfold State.engIdle
  simp (maxDischargeDepth := 9) only [ite_blank, ite_self, rset_blank, setEngState_blank, startEngBist_blank, hregs, hcol]

@[simp] theorem tilesDone_blank (K : Part → Bool) (hcol : K .col = true) (s : State) (x : Slot) :
    (State.tilesDone s x).blank K = s.blank K := by
  unfold State.tilesDone
  simp (maxDischargeDepth := 9) only [ite_blank, ite_self, setSlot_blank, hcol]

@[simp] theorem countTile_blank (K : Part → Bool) (hregs : K .regs = true) (s : State) (x : Slot) (t e : Nat) :
    (State.countTile s x t e).blank K = s.blank K := by
  unfold State.countTile
  simp (maxDischargeDepth := 9) only [pmc_blank, hregs]

@[simp] theorem tilePassed_blank (K : Part → Bool) (hregs : K .regs = true) (hcol : K .col = true) (s : State) (x : Slot) (t : Tile) (e : Nat) (fault : TileFault) :
    (State.tilePassed s x t e fault).blank K = s.blank K := by
  unfold State.tilePassed
  simp (maxDischargeDepth := 9) only [ite_blank, ite_self, bump_blank, countSpecials_blank, ctxCtr_blank, setSlot_blank, tilesDone_blank, hregs, hcol]

@[simp] theorem tileFailed_blank (K : Part → Bool) (hregs : K .regs = true) (hmgmt : K .mgmt = true) (hcol : K .col = true) (haer : K .aer = true) (s : State) (x : Slot) (t : Tile) (e : Nat) :
    (State.tileFailed s x t e).blank K = s.blank K := by
  unfold State.tileFailed
  simp (maxDischargeDepth := 9) only [ite_blank, ite_self, alarm_blank, bump32_blank, ctxCtr_blank, quarantineEng_blank, setSlot_blank, hregs, hmgmt, hcol, haer]

@[simp] theorem engOverrun_blank (K : Part → Bool) (hregs : K .regs = true) (s : State) (e : Nat) :
    (State.engOverrun s e).blank K = s.blank K := by
  unfold State.engOverrun
  simp (maxDischargeDepth := 9) only [bump32_blank, bump_blank, hregs]

@[simp] theorem endTile_blank (K : Part → Bool) (hregs : K .regs = true) (hmgmt : K .mgmt = true) (hcol : K .col = true) (haer : K .aer = true) (s : State) (e : Nat) (fault : TileFault) (late : Bool) :
    (State.endTile s e fault late).blank K = s.blank K := by
  unfold State.endTile
  (dsimp only; (repeat' split) <;> first | with_reducible rfl | simp (maxDischargeDepth := 9) only [countTile_blank, engIdle_blank, engOverrun_blank, setEng_blank, tileFailed_blank, tilePassed_blank, hregs, hmgmt, hcol, haer])

@[simp] theorem writeEngCtrl_blank (K : Part → Bool) (hregs : K .regs = true) (hhbm : K .hbm = true) (hclk : K .clk = true) (hcal : K .cal = true) (hsw : K .sw = true) (htbl : K .tbl = true) (hpho : K .pho = true) (hmgmt : K .mgmt = true) (hfuse : K .fuse = true) (hcol : K .col = true) (htwin : K .twin = true) (haer : K .aer = true) (hflt : K .flt = true) (hdump : K .dump = true) (hsys : K .sys = true) (hout : K .out = true) (s : State) (q : Req) (e v : Nat) :
    (State.writeEngCtrl s q e v).blank K = s.blank K := by
  unfold State.writeEngCtrl
  simp (maxDischargeDepth := 9) only [serveReg_blank, hregs, hhbm, hclk, hcal, hsw, htbl, hpho, hmgmt, hfuse, hcol, htwin, haer, hflt, hdump, hsys, hout]

@[simp] theorem setCoreState_blank (K : Part → Bool) (hregs : K .regs = true) (s : State) (core v : Nat) :
    (State.setCoreState s core v).blank K = s.blank K := by
  unfold State.setCoreState
  simp (maxDischargeDepth := 9) only [fset_blank, hregs]

@[simp] theorem mc0Stops_blank (K : Part → Bool) (hregs : K .regs = true) (hcal : K .cal = true) (htbl : K .tbl = true) (hmgmt : K .mgmt = true) (hcol : K .col = true) (hsys : K .sys = true) (hout : K .out = true) (s : State) :
    (State.mc0Stops s).blank K = s.blank K := by
  unfold State.mc0Stops
  simp (maxDischargeDepth := 9) only [each_blank, implies_true, ite_blank, ite_self, free_blank, reply_blank, setCalSt_blank, setCtx_blank, setTbl_blank, hregs, hcal, htbl, hmgmt, hcol, hsys, hout]

@[simp] theorem refreshDie_blank (K : Part → Bool) (hregs : K .regs = true) (hsw : K .sw = true) (hmgmt : K .mgmt = true) (haer : K .aer = true) (s : State) (d : DieNo) :
    (State.refreshDie s d).blank K = s.blank K := by
  unfold State.refreshDie
  simp (maxDischargeDepth := 9) only [each_blank, implies_true, refreshDtd_blank, hregs, hsw, hmgmt, haer]

@[simp] theorem setLaneClk_blank (K : Part → Bool) (hregs : K .regs = true) (hsw : K .sw = true) (hpho : K .pho = true) (hmgmt : K .mgmt = true) (hcol : K .col = true) (haer : K .aer = true) (hflt : K .flt = true) (hout : K .out = true) (s : State) (d : DieNo) (lost : Bool) :
    (State.setLaneClk s d lost).blank K = s.blank K := by
  unfold State.setLaneClk
  simp (maxDischargeDepth := 9) only [each_blank, implies_true, refreshDie_blank, relane_blank, setPho_blank, hregs, hsw, hpho, hmgmt, hcol, haer, hflt, hout]

@[simp] theorem setMclk_blank (K : Part → Bool) (hregs : K .regs = true) (hsw : K .sw = true) (hpho : K .pho = true) (hmgmt : K .mgmt = true) (hcol : K .col = true) (haer : K .aer = true) (hflt : K .flt = true) (hout : K .out = true) (s : State) (lost : Bool) :
    (State.setMclk s lost).blank K = s.blank K := by
  unfold State.setMclk
  simp (maxDischargeDepth := 9) only [each_blank, implies_true, ite_blank, ite_self, relane_blank, setMgmt_blank, setPho_blank, hregs, hsw, hpho, hmgmt, hcol, haer, hflt, hout]

@[simp] theorem tjWarn_blank (K : Part → Bool) (hregs : K .regs = true) (hmgmt : K .mgmt = true) (haer : K .aer = true) (hsys : K .sys = true) (s : State) (d sensor : Nat) (temp : Int) :
    (State.tjWarn s d sensor temp).blank K = s.blank K := by
  unfold State.tjWarn
  simp (maxDischargeDepth := 9) only [ite_blank, ite_self, alarm_blank, setSys_blank, hregs, hmgmt, haer, hsys]

@[simp] theorem tripAborts_blank (K : Part → Bool) (hregs : K .regs = true) (hsw : K .sw = true) (htbl : K .tbl = true) (hmgmt : K .mgmt = true) (hcol : K .col = true) (haer : K .aer = true) (s : State) :
    (State.tripAborts s).blank K = s.blank K := by
  unfold State.tripAborts
  simp (maxDischargeDepth := 9) only [each_blank, implies_true, abortSlots_blank, hregs, hsw, htbl, hmgmt, hcol, haer]

@[simp] theorem enterStage_blank (K : Part → Bool) (hregs : K .regs = true) (hmgmt : K .mgmt = true) (haer : K .aer = true) (hsys : K .sys = true) (s : State) (n : Nat) :
    (State.enterStage s n).blank K = s.blank K := by
  unfold State.enterStage
  simp (maxDischargeDepth := 9) only [alarm_blank, setSys_blank, hregs, hmgmt, haer, hsys]

@[simp] theorem boardFacts_blank (K : Part → Bool) (hpho : K .pho = true) (hmgmt : K .mgmt = true) (s t : State) : (s.boardFacts t).blank K = t.blank K := by
  simp (maxDischargeDepth := 9) only [State.blank, State.boardFacts, hpho, hmgmt, if_true]

@[simp] theorem coldReset_blank (K : Part → Bool) (hK : ∀ p, K p = true) (s : State) (st : BitVec 3) (n : Nat) (b : Bool) :
    (s.coldReset st n b).blank K = s.blank K := by
  simp (maxDischargeDepth := 9) only [State.blank, hK, if_true]
  rfl

@[simp] theorem syncRx_blank (K : Part → Bool) (hregs : K .regs = true) (hsw : K .sw = true) (htbl : K .tbl = true) (hmgmt : K .mgmt = true) (hcol : K .col = true) (haer : K .aer = true) (s : State) (h : Wfp) :
    (State.syncRx s h).blank K = s.blank K := by
  unfold State.syncRx
  (dsimp only; (repeat' split) <;> first | with_reducible rfl | simp (maxDischargeDepth := 9) only [ctxCtr_blank, spineReport_blank, hregs, hsw, htbl, hmgmt, hcol, haer])

@[simp] theorem abortRx_blank (K : Part → Bool) (hregs : K .regs = true) (s : State) (port : Nat) (h : Wfp) :
    (State.abortRx s port h).blank K = s.blank K := by
  unfold State.abortRx
  simp (maxDischargeDepth := 9) only [ite_blank, ite_self, ctxCtr_blank, portCtr_blank, hregs]

@[simp] theorem ctrlRx_blank (K : Part → Bool) (hregs : K .regs = true) (hcol : K .col = true) (s : State) (h : Wfp) :
    (State.ctrlRx s h).blank K = s.blank K := by
  unfold State.ctrlRx
  simp (maxDischargeDepth := 9) only [ite_blank, ite_self, ctxCtr_blank, setCtx_blank, hregs, hcol]

@[simp] theorem noteUe_blank (K : Part → Bool) (hregs : K .regs = true) (hmgmt : K .mgmt = true) (haer : K .aer = true) (hsys : K .sys = true) (s : State) (a : Nat) :
    (State.noteUe s a).blank K = s.blank K := by
  unfold State.noteUe
  simp (maxDischargeDepth := 9) only [ite_blank, ite_self, alarm_blank, bump_blank, setSys_blank, hregs, hmgmt, haer, hsys]

@[simp] theorem loseCell_blank (K : Part → Bool) (hregs : K .regs = true) (hsw : K .sw = true) (s : State) (d : Nat) :
    (State.loseCell s d).blank K = s.blank K := by
  unfold State.loseCell
  ((repeat' split) <;> first | with_reducible rfl | simp (maxDischargeDepth := 9) only [bump_blank, dropCells_blank, hregs, hsw])

@[simp] theorem loseSlot_blank (K : Part → Bool) (hregs : K .regs = true) (hsw : K .sw = true) (htbl : K .tbl = true) (hmgmt : K .mgmt = true) (hcol : K .col = true) (haer : K .aer = true) (s : State) (desc : Nat) :
    (State.loseSlot s desc).blank K = s.blank K := by
  unfold State.loseSlot
  ((repeat' split) <;> first | with_reducible rfl | simp (maxDischargeDepth := 9) only [ctxCtr_blank, dropSlots_blank, noteAborts_blank, record_blank, sendAborts_blank, setCtx_blank, hregs, hsw, htbl, hmgmt, hcol, haer])

@[simp] theorem loseRetained_blank (K : Part → Bool) (hcol : K .col = true) (s : State) (c chunk : Nat) :
    (State.loseRetained s c chunk).blank K = s.blank K := by
  unfold State.loseRetained
  simp (maxDischargeDepth := 9) only [ite_blank, ite_self, setCtx_blank, hcol]

@[simp] theorem loseRecord_blank (K : Part → Bool) (haer : K .aer = true) (hsys : K .sys = true) (s : State) (a : Nat) : (s.loseRecord a).blank K = s.blank K := by
  unfold State.loseRecord
  generalize s.recordAt a = o
  cases o with
  | none => exact setSys_blank K s _ hsys
  | some q => exact (ite_blank K _ _ _).trans (by simp (maxDischargeDepth := 9) only [ite_self, setAer_blank, haer])

@[simp] theorem noAcks_blank (K : Part → Bool) (hcol : K .col = true) (s : State) :
    (State.noAcks s).blank K = s.blank K := by
  unfold State.noAcks
  simp (maxDischargeDepth := 9) only [setCol_blank, hcol]

@[simp] theorem attachFails_blank (K : Part → Bool) (hregs : K .regs = true) (hmgmt : K .mgmt = true) (hcol : K .col = true) (htwin : K .twin = true) (haer : K .aer = true) (s : State) (cause : Nat) :
    (State.attachFails s cause).blank K = s.blank K := by
  unfold State.attachFails
  simp (maxDischargeDepth := 9) only [each_blank, implies_true, ite_blank, ite_self, alarm_blank, dropMirrors_blank, freePlanes_blank, noAcks_blank, setTwin_blank, hregs, hmgmt, hcol, htwin, haer]

@[simp] theorem ueEffect_blank (K : Part → Bool) (hregs : K .regs = true) (hsw : K .sw = true) (htbl : K .tbl = true) (hmgmt : K .mgmt = true) (hcol : K .col = true) (htwin : K .twin = true) (haer : K .aer = true) (hsys : K .sys = true) (s : State) (a : Nat) (u : UeUse) :
    (State.ueEffect s a u).blank K = s.blank K := by
  unfold State.ueEffect
  ((repeat' split) <;> first | with_reducible rfl | simp (maxDischargeDepth := 9) only [attachFails_blank, loseCell_blank, loseRecord_blank, loseRetained_blank, loseSlot_blank, hregs, hsw, htbl, hmgmt, hcol, htwin, haer, hsys])

@[simp] theorem noteCe_blank (K : Part → Bool) (hregs : K .regs = true) (hmgmt : K .mgmt = true) (haer : K .aer = true) (hsys : K .sys = true) (s : State) (a : Nat) :
    (State.noteCe s a).blank K = s.blank K := by
  unfold State.noteCe
  simp (maxDischargeDepth := 9) only [ite_blank, ite_self, alarm_blank, bump_blank, setSys_blank, hregs, hmgmt, haer, hsys]

@[simp] theorem clearRc_blank (K : Part → Bool) (hregs : K .regs = true) (hcol : K .col = true) (s : State) (p : Page) (off : Nat) :
    (State.clearRc s p off).blank K = s.blank K := by
  unfold State.clearRc
  ((repeat' split) <;> first | with_reducible rfl | simp (maxDischargeDepth := 9) only [rset_blank, setCtx_blank, hregs, hcol])

@[simp] theorem readWord_blank (K : Part → Bool) (hregs : K .regs = true) (hcol : K .col = true) (s : State) (m : MPort) (clear : Bool) (p : Page) (off : Nat) :
    (State.readWord s m clear p off).1.blank K = s.blank K := by
  unfold State.readWord
  simp (maxDischargeDepth := 9) only [ite_blank, ite_self, clearRc_blank, hregs, hcol]

@[simp] theorem readAccess_blank (K : Part → Bool) (hregs : K .regs = true) (hcol : K .col = true) (s : State) (m : MPort) (clear : Bool) (p : Page) (off width : Nat) :
    (State.readAccess s m clear p off width).1.blank K = s.blank K := by
  unfold State.readAccess
  simp (maxDischargeDepth := 9) only [ite_blank, ite_fst, ite_self, clearRc_blank, readWord_blank, hregs, hcol]

@[simp] theorem serveRead_blank (K : Part → Bool) (hregs : K .regs = true) (hmgmt : K .mgmt = true) (hcol : K .col = true) (hout : K .out = true) (s : State) (q : Req) (a : Access) :
    (s.serveRead q a).blank K = s.blank K := by
  unfold State.serveRead
  refine serve_blank K hregs hmgmt hout _ _ _ _ _ _ fun s f => ?_
  split <;> simp (maxDischargeDepth := 9) only [ite_blank, ite_self, ite_fst, acked_blank, readAccess_blank, hregs, hmgmt, hcol]

@[simp] theorem serveRmw_blank (K : Part → Bool) (hregs : K .regs = true) (hhbm : K .hbm = true) (hclk : K .clk = true) (hcal : K .cal = true) (hsw : K .sw = true) (htbl : K .tbl = true) (hpho : K .pho = true) (hmgmt : K .mgmt = true) (hfuse : K .fuse = true) (hcol : K .col = true) (htwin : K .twin = true) (haer : K .aer = true) (hflt : K .flt = true) (hdump : K .dump = true) (hsys : K .sys = true) (hout : K .out = true) (s : State) (q : Req) (a : Access) (mask v : Word64) :
    (s.serveRmw q a mask v).blank K = s.blank K := by
  unfold State.serveRmw
  refine serve_blank K hregs hmgmt hout _ _ _ _ _ _ fun s f => ?_
  dsimp only
  have hp : ∀ (l : List Page) (x : State × List Nat), (List.foldl (fun (x : State × List Nat) (p : Page) =>
        if x.1.pageHung p then (x.1, x.2 ++ [0])
        else
          let r := (x.1.acked p).readAccess q.port true p (a.addr.toNat % 4096) a.width.toNat
          (r.1, x.2 ++ [r.2])) x l).1.blank K = x.1.blank K := by
    intro l x
    refine foldlPair_blank K l _ x fun x p => ?_
    simp (maxDischargeDepth := 9) only [ite_blank, ite_self, ite_fst, acked_blank, readAccess_blank, hregs, hmgmt, hcol]
  simp (maxDischargeDepth := 9) only [hp, writeAt_blank, hregs, hhbm, hclk, hcal, hsw, htbl, hpho, hmgmt, hfuse, hcol, htwin, haer, hflt, hdump, hsys, hout]

@[simp] theorem readWords_blank (K : Part → Bool) (hregs : K .regs = true) (hmgmt : K .mgmt = true) (hcol : K .col = true) (m : MPort) (clear : Bool) (a n : Nat) (s : State) (out : Bytes) :
    (State.readWords m clear a n s out).1.blank K = s.blank K := by
  induction n generalizing s a out with
  | zero => rfl
  | succ n ih =>
    unfold State.readWords
    split
    · rfl
    · simp (maxDischargeDepth := 9) only [ih, ite_blank, ite_self, ite_fst, acked_blank, readWord_blank, hregs, hmgmt, hcol]

@[simp] theorem serveBulkRead_blank (K : Part → Bool) (hregs : K .regs = true) (hmgmt : K .mgmt = true) (hcol : K .col = true) (hout : K .out = true) (s : State) (q : Req) (a : BitVec 32) (count : BitVec 16) :
    (s.serveBulkRead q a count).blank K = s.blank K := by
  unfold State.serveBulkRead
  refine serve_blank K hregs hmgmt hout _ _ _ _ _ _ fun s f => ?_
  simp (maxDischargeDepth := 9) only [readWords_blank, hregs, hmgmt, hcol]

@[simp] theorem writeWords_blank (K : Part → Bool) (hregs : K .regs = true) (hhbm : K .hbm = true) (hclk : K .clk = true) (hcal : K .cal = true) (hsw : K .sw = true) (htbl : K .tbl = true) (hpho : K .pho = true) (hmgmt : K .mgmt = true) (hfuse : K .fuse = true) (hcol : K .col = true) (htwin : K .twin = true) (haer : K .aer = true) (hflt : K .flt = true) (hdump : K .dump = true) (hsys : K .sys = true) (hout : K .out = true) (w : Writer) (a i : Nat) (l : List Word) (s : State) :
    (State.writeWords w a i l s).state.blank K = s.blank K := by
  induction l generalizing s a i with
  | nil => rfl
  | cons p rest ih =>
    unfold State.writeWords
    simp (maxDischargeDepth := 9) only [ih, ite_blank, ite_self, ite_wout, writeAt_blank, hregs, hhbm, hclk, hcal, hsw, htbl, hpho, hmgmt, hfuse, hcol, htwin, haer, hflt, hdump, hsys, hout]

@[simp] theorem serveBulkWrite_blank (K : Part → Bool) (hregs : K .regs = true) (hhbm : K .hbm = true) (hclk : K .clk = true) (hcal : K .cal = true) (hsw : K .sw = true) (htbl : K .tbl = true) (hpho : K .pho = true) (hmgmt : K .mgmt = true) (hfuse : K .fuse = true) (hcol : K .col = true) (htwin : K .twin = true) (haer : K .aer = true) (hflt : K .flt = true) (hdump : K .dump = true) (hsys : K .sys = true) (hout : K .out = true) (s : State) (q : Req) (a : BitVec 32) (words : List Word) :
    (s.serveBulkWrite q a words).blank K = s.blank K := by
  unfold State.serveBulkWrite
  refine serve_blank K hregs hmgmt hout _ _ _ _ _ _ fun s f => ?_
  simp (maxDischargeDepth := 9) only [writeWords_blank, hregs, hhbm, hclk, hcal, hsw, htbl, hpho, hmgmt, hfuse, hcol, htwin, haer, hflt, hdump, hsys, hout]

@[simp] theorem relayApply_blank (K : Part → Bool) (hregs : K .regs = true) (htbl : K .tbl = true) (s : State) :
    (State.relayApply s).blank K = s.blank K := by
  unfold State.relayApply
  (dsimp only; (repeat' split) <;> first | with_reducible rfl | simp (maxDischargeDepth := 9) only [bump_blank, eachMac_blank, setTbl_blank, hregs, htbl])

@[simp] theorem relayDrain_blank (K : Part → Bool) (hregs : K .regs = true) (htbl : K .tbl = true) (s : State) :
    (State.relayDrain s).blank K = s.blank K := by
  unfold State.relayDrain
  simp (maxDischargeDepth := 9) only [each_blank, implies_true, relayApply_blank, hregs, htbl]

@[simp] theorem routeIn_blank (K : Part → Bool) (htbl : K .tbl = true) (s : State) (x : Incoming) (srcPlace dst : Nat) (ctx : Option Nat) (tblErr : Option TblKind) :
    (State.routeIn s x srcPlace dst ctx tblErr).1.blank K = s.blank K := by
  unfold State.routeIn
  ((repeat' split) <;> first | with_reducible rfl | simp (maxDischargeDepth := 9) only [route_blank, htbl])

@[simp] theorem encapsulate_blank (K : Part → Bool) (hregs : K .regs = true) (hsw : K .sw = true) (htbl : K .tbl = true) (hmgmt : K .mgmt = true) (haer : K .aer = true) (s : State) (x : Incoming) (b : Bridged) (place : Nat) (tblErr : Option TblKind) :
    (State.encapsulate s x b place tblErr).blank K = s.blank K := by
  unfold State.encapsulate
  (dsimp only; (repeat' split) <;> first | with_reducible rfl | simp (maxDischargeDepth := 9) only [portCtr_blank, queueMulticast_blank, queueUnicast_blank, routeIn_blank, takeFlowSeq_blank, tblDiscard_blank, hregs, hsw, htbl, hmgmt, haer])

@[simp] theorem flood_blank (K : Part → Bool) (hregs : K .regs = true) (hsw : K .sw = true) (htbl : K .tbl = true) (hmgmt : K .mgmt = true) (haer : K .aer = true) (s : State) (x : Incoming) (b : Bridged) (tblErr : Option TblKind) :
    (State.flood s x b tblErr).blank K = s.blank K := by
  unfold State.flood
  simp (maxDischargeDepth := 9) only [ite_blank, ite_self, encapsulate_blank, queueMulticast_blank, hregs, hsw, htbl, hmgmt, haer]

@[simp] theorem learn_blank (K : Part → Bool) (hregs : K .regs = true) (htbl : K .tbl = true) (s : State) (d vid mac : Nat) (remote : Bool) (dest : Nat) :
    (State.learn s d vid mac remote dest).blank K = s.blank K := by
  unfold State.learn
  (dsimp only; (repeat' split) <;> first | with_reducible rfl | simp (maxDischargeDepth := 9) only [bump_blank, setTbl_blank, hregs, htbl])

@[simp] theorem setGen_blank (K : Part → Bool) (hregs : K .regs = true) (s : State) (op : Nat) (b : TblBlock) :
    (State.setGen s op b).blank K = s.blank K := by
  unfold State.setGen
  simp (maxDischargeDepth := 9) only [rset_blank, hregs]

@[simp] theorem tableApply_blank (K : Part → Bool) (hregs : K .regs = true) (htbl : K .tbl = true) (hsys : K .sys = true) (s : State) (op : Nat) (b : TblBlock) :
    (State.tableApply s op b).1.blank K = s.blank K := by
  unfold State.tableApply
  (dsimp only; (repeat' split) <;> first | with_reducible rfl | simp (maxDischargeDepth := 9) only [eachMac_blank, free_blank, macRemove_blank, setGen_blank, setTbl_blank, hregs, htbl, hsys])

@[simp] theorem tableNow_blank (K : Part → Bool) (hregs : K .regs = true) (htbl : K .tbl = true) (hsys : K .sys = true) (s : State) (op : Nat) (b : TblBlock) :
    (State.tableNow s op b).1.blank K = s.blank K := by
  unfold State.tableNow
  (dsimp only; (repeat' split) <;> first | with_reducible rfl | simp (maxDischargeDepth := 9) only [relayDrain_blank, tableApply_blank, hregs, htbl, hsys])

@[simp] theorem tblAnswer_blank (K : Part → Bool) (hregs : K .regs = true) (s : State) (port : MPort) (op : Nat) (c : Code) (index detail : Nat) (data : Bytes) (gen : Nat) :
    (State.tblAnswer s port op c index detail data gen).1.blank K = s.blank K := by
  unfold State.tblAnswer
  simp (maxDischargeDepth := 9) only [rset_blank, hregs]

@[simp] theorem tableReply_blank (K : Part → Bool) (hregs : K .regs = true) (s : State) (m : MPort) (op : Nat) (o : TblOut) :
    (s.tableReply m op o).1.blank K = s.blank K := by
  cases o <;> simp (maxDischargeDepth := 9) only [State.tableReply, tblAnswer_blank, hregs]

@[simp] theorem tableStart_blank (K : Part → Bool) (hregs : K .regs = true) (htbl : K .tbl = true) (hsys : K .sys = true) (s : State) (f : InFlight) (op : Nat) (b : TblBlock) :
    (State.tableStart s f op b).1.blank K = s.blank K := by
  unfold State.tableStart
  (dsimp only; (repeat' split) <;> first | with_reducible rfl | simp (maxDischargeDepth := 9) only [setTbl_blank, tableNow_blank, tableReply_blank, hregs, htbl, hsys])

@[simp] theorem serveTable_blank (K : Part → Bool) (hregs : K .regs = true) (htbl : K .tbl = true) (hmgmt : K .mgmt = true) (hsys : K .sys = true) (hout : K .out = true) (s : State) (q : Req) (op : Nat) (b : TblBlock) :
    (s.serveTable q op b).blank K = s.blank K := by
  unfold State.serveTable
  refine serve_blank K hregs hmgmt hout _ _ _ _ _ _ fun s f => ?_
  simp (maxDischargeDepth := 9) only [tableStart_blank, hregs, htbl, hsys]

@[simp] theorem closeTransfer_blank (K : Part → Bool) (hmgmt : K .mgmt = true) (s : State) (own : XferOwner) (opcode : Nat) (id : BitVec 16) :
    (State.closeTransfer s own opcode id).blank K = s.blank K := by
  unfold State.closeTransfer
  simp (maxDischargeDepth := 9) only [setMgmt_blank, hmgmt]

@[simp] theorem takeSegment_blank (K : Part → Bool) (hmgmt : K .mgmt = true) (s : State) (q : Req) (opcode : Nat) (g : Segment)
    (start : State → Bytes → State × Option Answer) (hs : ∀ s b, (start s b).1.blank K = s.blank K) :
    (s.takeSegment q opcode g start).1.blank K = s.blank K := by
  unfold State.takeSegment
  dsimp only
  split <;> simp (maxDischargeDepth := 9) only [hs, ite_blank, ite_self, ite_fst, closeTransfer_blank, setMgmt_blank, hmgmt]

@[simp] theorem serveCalLoad_blank (K : Part → Bool) (hregs : K .regs = true) (hcal : K .cal = true) (hmgmt : K .mgmt = true) (hout : K .out = true) (s : State) (q : Req) (g : Segment) :
    (s.serveCalLoad q g).blank K = s.blank K := by
  unfold State.serveCalLoad
  refine serve_blank K hregs hmgmt hout _ _ _ _ _ _ fun s f => ?_
  simp (maxDischargeDepth := 9) only [implies_true, startInstall_blank, takeSegment_blank, hcal, hmgmt]

@[simp] theorem startProg_blank (K : Part → Bool) (hregs : K .regs = true) (hcol : K .col = true) (s : State) (c : Nat) (b : Bytes) (f : InFlight) :
    (s.startProg c b f).1.blank K = s.blank K := by
  unfold State.startProg
  split <;> simp (maxDischargeDepth := 9) only [ite_blank, ite_self, errInfo_blank, setCtx_blank, hregs, hcol]

@[simp] theorem serveProgLoad_blank (K : Part → Bool) (hregs : K .regs = true) (hmgmt : K .mgmt = true) (hcol : K .col = true) (hout : K .out = true) (s : State) (q : Req) (g : Segment) :
    (s.serveProgLoad q g).blank K = s.blank K := by
  unfold State.serveProgLoad
  refine serve_blank K hregs hmgmt hout _ _ _ _ _ _ fun s f => ?_
  simp (maxDischargeDepth := 9) only [implies_true, startProg_blank, takeSegment_blank, hregs, hmgmt, hcol]

@[simp] theorem serveDumpRead_blank (K : Part → Bool) (hregs : K .regs = true) (hmgmt : K .mgmt = true) (hout : K .out = true) (s : State) (q : Req) (source die : Byte) (off : BitVec 32) (len : BitVec 16) :
    (s.serveDumpRead q source die off len).blank K = s.blank K := by
  unfold State.serveDumpRead
  refine serve_blank K hregs hmgmt hout _ _ _ _ _ _ fun s f => ?_
  simp (maxDischargeDepth := 9) only [ite_self, ite_fst]

@[simp] theorem holdReport_blank (K : Part → Bool) (hmgmt : K .mgmt = true) (s : State) (q : Req) (r : Bytes × Bytes) :
    (State.holdReport s q r).blank K = s.blank K := by
  unfold State.holdReport
  simp (maxDischargeDepth := 9) only [ite_blank, ite_self, setMgmt_blank, setSession_blank, hmgmt]

@[simp] theorem serveAttest_blank (K : Part → Bool) (hregs : K .regs = true) (hmgmt : K .mgmt = true) (hout : K .out = true) (s : State) (q : Req) (nonce : Bytes) (off : BitVec 32) :
    (s.serveAttest q nonce off).blank K = s.blank K := by
  unfold State.serveAttest
  refine serve_blank K hregs hmgmt hout _ _ _ _ _ _ fun s f => ?_
  split
  · simp (maxDischargeDepth := 9) only [holdReport_blank, hmgmt]
  · split
    · simp (maxDischargeDepth := 9) only [ite_self, ite_fst]
    · rfl

@[simp] theorem openFails_blank (K : Part → Bool) (hregs : K .regs = true) (hmgmt : K .mgmt = true) (haer : K .aer = true) (s : State) (slot : Nat) :
    (State.openFails s slot).1.blank K = s.blank K := by
  unfold State.openFails
  simp (maxDischargeDepth := 9) only [alarm_blank, glbCtr_blank, hregs, hmgmt, haer]

@[simp] theorem openNow_blank (K : Part → Bool) (hregs : K .regs = true) (hmgmt : K .mgmt = true) (haer : K .aer = true) (hsys : K .sys = true) (s : State) (q : Req) (slot : Nat) (admin : Bool) (body eph nonce sig : Bytes) :
    (State.openNow s q slot admin body eph nonce sig).1.blank K = s.blank K := by
  unfold State.openNow
  simp (maxDischargeDepth := 9) only [ite_blank, ite_fst, ite_self, draw_blank, openFails_blank, setMgmt_blank, hregs, hmgmt, haer, hsys]

@[simp] theorem serveOpen_blank (K : Part → Bool) (hregs : K .regs = true) (hmgmt : K .mgmt = true) (haer : K .aer = true) (hsys : K .sys = true) (hout : K .out = true) (s : State) (q : Req) (slot role : Byte) (eph nonce sig : Bytes) :
    (s.serveOpen q slot role eph nonce sig).blank K = s.blank K := by
  unfold State.serveOpen
  refine serve_blank K hregs hmgmt hout _ _ _ _ _ _ fun s f => ?_
  simp (maxDischargeDepth := 9) only [openNow_blank, hregs, hmgmt, haer, hsys]

@[simp] theorem serveClose_blank (K : Part → Bool) (hregs : K .regs = true) (hmgmt : K .mgmt = true) (hout : K .out = true) (s : State) (q : Req) :
    (s.serveClose q).blank K = s.blank K := by
  unfold State.serveClose
  refine serve_blank K hregs hmgmt hout _ _ _ _ _ _ fun s f => ?_
  simp (maxDischargeDepth := 9) only [setSession_blank, hmgmt]

@[simp] theorem replyVersion_blank (K : Part → Bool) (hregs : K .regs = true) (hmgmt : K .mgmt = true) (hout : K .out = true) (s : State) (m : MPort) (via : Transport) (frame : Bytes) :
    (State.replyVersion s m via frame).blank K = s.blank K := by
  unfold State.replyVersion
  simp (maxDischargeDepth := 9) only [sendReply_blank, hregs, hmgmt, hout]

@[simp] theorem refuseFrame_blank (K : Part → Bool) (hregs : K .regs = true) (hmgmt : K .mgmt = true) (hout : K .out = true) (s : State) (m : MPort) (via : Transport) (whole : Bool)
    (frame : Bytes) : (s.refuseFrame m via whole frame).blank K = s.blank K := by
  unfold State.refuseFrame
  generalize parseReq m via frame = r
  generalize byteAt frame 0 / 16 = v
  generalize byteAt frame 1 = opcode
  dsimp only
  generalize (if v = 1 then 16 else 32) = head
  iterate 7 (refine (ite_blank K _ _ _).trans ?_; split; · simp (maxDischargeDepth := 9) only [glbCtr_blank, replyVersion_blank, hregs, hmgmt, hout])
  split
  · simp (maxDischargeDepth := 9) only [glbCtr_blank, hregs]
  · refine (ite_blank K _ _ _).trans ?_
    split
    · rfl
    refine (ite_blank K _ _ _).trans ?_
    split
    · simp (maxDischargeDepth := 9) only [accept_blank, reply_blank, hregs, hmgmt, hout]
    split <;> simp (maxDischargeDepth := 9) only [accept_blank, reply_blank, resendReply_blank, hregs, hmgmt, hout]

@[simp] theorem markHung_blank (K : Part → Bool) (hregs : K .regs = true) (hpho : K .pho = true) (hmgmt : K .mgmt = true) (haer : K .aer = true) (hdump : K .dump = true) (s : State) (p : Page) :
    (State.markHung s p).blank K = s.blank K := by
  unfold State.markHung
  simp (maxDischargeDepth := 9) only [ite_blank, ite_self, alarm_blank, bump_blank, raiseFatal_blank, rset_blank, setMgmt_blank, hregs, hpho, hmgmt, haer, hdump]

@[simp] theorem timedOut_blank (K : Part → Bool) (hregs : K .regs = true) (hpho : K .pho = true) (hmgmt : K .mgmt = true) (haer : K .aer = true) (hdump : K .dump = true) (s : State) (p : Page) :
    (State.timedOut s p).1.blank K = s.blank K := by
  unfold State.timedOut
  simp (maxDischargeDepth := 9) only [ite_blank, ite_fst, ite_self, markHung_blank, setMgmt_blank, hregs, hpho, hmgmt, haer, hdump]

@[simp] theorem serveTimeout_blank (K : Part → Bool) (hregs : K .regs = true) (hpho : K .pho = true) (hmgmt : K .mgmt = true) (haer : K .aer = true) (hdump : K .dump = true) (hout : K .out = true) (s : State) (q : Req) (op : StringOp) (a : Access) :
    (s.serveTimeout q op a).blank K = s.blank K := by
  unfold State.serveTimeout
  dsimp only
  refine ite_both K rfl (serve_blank K hregs hmgmt hout _ _ _ _ _ _ fun s f => ?_)
  split
  · simp (maxDischargeDepth := 9) only [timedOut_blank, hregs, hpho, hmgmt, haer, hdump]
  · rfl

@[simp] theorem penalizeDiscard_blank (K : Part → Bool) (hregs : K .regs = true) (hsw : K .sw = true) (hmgmt : K .mgmt = true) (hcol : K .col = true) (haer : K .aer = true) (hflt : K .flt = true) (hout : K .out = true) (s : State) (p : Nat) (event : AerLink) :
    (State.penalizeDiscard s p event).blank K = s.blank K := by
  unfold State.penalizeDiscard
  simp (maxDischargeDepth := 9) only [ite_blank, ite_self, penalize_blank, setFlt_blank, hregs, hsw, hmgmt, hcol, haer, hflt, hout]

@[simp] theorem rejudgeFences_blank (K : Part → Bool) (hregs : K .regs = true) (hsw : K .sw = true) (hmgmt : K .mgmt = true) (hcol : K .col = true) (haer : K .aer = true) (hflt : K .flt = true) (hout : K .out = true) (s : State) :
    (State.rejudgeFences s).blank K = s.blank K := by
  unfold State.rejudgeFences
  simp (maxDischargeDepth := 9) only [each_blank, implies_true, ite_blank, ite_self, applyFence_blank, setFlt_blank, hregs, hsw, hmgmt, hcol, haer, hflt, hout]

@[simp] theorem darkLane_blank (K : Part → Bool) (hregs : K .regs = true) (hsw : K .sw = true) (hpho : K .pho = true) (hmgmt : K .mgmt = true) (hcol : K .col = true) (haer : K .aer = true) (hflt : K .flt = true) (hout : K .out = true) (s : State) (l : Nat) :
    (State.darkLane s l).blank K = s.blank K := by
  unfold State.darkLane
  simp (maxDischargeDepth := 9) only [changeLane_blank, setPho_blank, hregs, hsw, hpho, hmgmt, hcol, haer, hflt, hout]

@[simp] theorem idlePort_blank (K : Part → Bool) (hregs : K .regs = true) (hsw : K .sw = true) (hpho : K .pho = true) (hmgmt : K .mgmt = true) (hcol : K .col = true) (haer : K .aer = true) (hflt : K .flt = true) (hout : K .out = true) (s : State) (p : Nat) :
    (State.idlePort s p).blank K = s.blank K := by
  unfold State.idlePort
  simp (maxDischargeDepth := 9) only [each_blank, implies_true, alarmPlain_blank, clearCredits_blank, darkLane_blank, dropArrivals_blank, setPort_blank, hregs, hsw, hpho, hmgmt, hcol, haer, hflt, hout]

@[simp] theorem clearHung_blank (K : Part → Bool) (hmgmt : K .mgmt = true) (s : State) (bases : List Nat) :
    (State.clearHung s bases).blank K = s.blank K := by
  unfold State.clearHung
  simp (maxDischargeDepth := 9) only [setMgmt_blank, hmgmt]

@[simp] theorem resetPortNow_blank (K : Part → Bool) (hregs : K .regs = true) (hsw : K .sw = true) (hmgmt : K .mgmt = true) (hcol : K .col = true) (hout : K .out = true) (s : State) (p : Nat) :
    (State.resetPortNow s p).blank K = s.blank K := by
  unfold State.resetPortNow
  simp (maxDischargeDepth := 9) only [each_blank, implies_true, clearHung_blank, portStops_blank, reply_blank, setPort_blank, hregs, hsw, hmgmt, hcol, hout]

@[simp] theorem arrives_blank (K : Part → Bool) (hsw : K .sw = true) (s : State) (x : Incoming) (dropped failed own : Bool) :
    (State.arrives s x dropped failed own).blank K = s.blank K := by
  unfold State.arrives
  simp (maxDischargeDepth := 9) only [setSw_blank, hsw]

@[simp] theorem freeAll_blank (K : Part → Bool) (hsw : K .sw = true) (s : State) (x : Incoming) :
    (State.freeAll s x).blank K = s.blank K := by
  unfold State.freeAll
  simp (maxDischargeDepth := 9) only [ite_blank, ite_self, freeCredit_blank, hsw]

@[simp] theorem ingressDrop_blank (K : Part → Bool) (hsw : K .sw = true) (s : State) (x : Incoming) :
    (State.ingressDrop s x).blank K = s.blank K := by
  unfold State.ingressDrop
  simp (maxDischargeDepth := 9) only [arrives_blank, freeAll_blank, hsw]

@[simp] theorem police_blank (K : Part → Bool) (hsw : K .sw = true) (s : State) (p n : Nat) :
    (State.police s p n).1.blank K = s.blank K := by
  unfold State.police
  simp (maxDischargeDepth := 9) only [ite_blank, ite_fst, ite_self, drawTokens_blank, hsw]

@[simp] theorem lookupBad_blank (K : Part → Bool) (hregs : K .regs = true) (hsw : K .sw = true) (htbl : K .tbl = true) (hmgmt : K .mgmt = true) (haer : K .aer = true) (s : State) (x : Incoming) (k : TblKind) (pos : Nat) :
    (State.lookupBad s x k pos).blank K = s.blank K := by
  unfold State.lookupBad
  simp (maxDischargeDepth := 9) only [ingressDrop_blank, tblDiscard_blank, hregs, hsw, htbl, hmgmt, haer]

@[simp] theorem switchWfp_blank (K : Part → Bool) (hregs : K .regs = true) (hsw : K .sw = true) (htbl : K .tbl = true) (hmgmt : K .mgmt = true) (haer : K .aer = true) (s : State) (x : Incoming) (h : Wfp) (tblErr : Option TblKind) :
    (State.switchWfp s x h tblErr).blank K = s.blank K := by
  unfold State.switchWfp
  (dsimp only; (repeat' split) <;> first | with_reducible rfl | simp (maxDischargeDepth := 9) only [arrives_blank, ingressDrop_blank, lookupBad_blank, portCtr_blank, queueMulticast_blank, queueUnicast_blank, routeIn_blank, hregs, hsw, htbl, hmgmt, haer])

@[simp] theorem contribIn_blank (K : Part → Bool) (hregs : K .regs = true) (hsw : K .sw = true) (s : State) (x : Incoming) (h : Wfp) :
    (State.contribIn s x h).blank K = s.blank K := by
  unfold State.contribIn
  (dsimp only; (repeat' split) <;> first | with_reducible rfl | simp (maxDischargeDepth := 9) only [arrives_blank, ctxCtr_blank, ingressDrop_blank, portCtr_blank, queueCells_blank, hregs, hsw])

@[simp] theorem learnFrom_blank (K : Part → Bool) (hregs : K .regs = true) (htbl : K .tbl = true) (s : State) (x : Incoming) (b : Bridged) :
    (State.learnFrom s x b).blank K = s.blank K := by
  unfold State.learnFrom
  ((repeat' split) <;> first | with_reducible rfl | simp (maxDischargeDepth := 9) only [learn_blank, hregs, htbl])

@[simp] theorem bridgeTo_blank (K : Part → Bool) (hregs : K .regs = true) (hsw : K .sw = true) (s : State) (x : Incoming) (b : Bridged) (q : Nat) :
    (State.bridgeTo s x b q).blank K = s.blank K := by
  unfold State.bridgeTo
  ((repeat' split) <;> first | with_reducible rfl | simp (maxDischargeDepth := 9) only [portCtr_blank, queueUnicast_blank, hregs, hsw])

@[simp] theorem bridge_blank (K : Part → Bool) (hregs : K .regs = true) (hsw : K .sw = true) (htbl : K .tbl = true) (hmgmt : K .mgmt = true) (haer : K .aer = true) (s : State) (x : Incoming) (b : Bridged) (tblErr : Option TblKind) :
    (State.bridge s x b tblErr).blank K = s.blank K := by
  unfold State.bridge
  (dsimp only; (repeat' split) <;> first | with_reducible rfl | simp (maxDischargeDepth := 9) only [bridgeTo_blank, encapsulate_blank, flood_blank, learnFrom_blank, portCtr_blank, tblDiscard_blank, hregs, hsw, htbl, hmgmt, haer])

@[simp] theorem takeEther_blank (K : Part → Bool) (hregs : K .regs = true) (hsw : K .sw = true) (htbl : K .tbl = true) (hmgmt : K .mgmt = true) (haer : K .aer = true) (s : State) (p pkt : Nat) (fec : Bool) (frame : Bytes) (tblErr : Option TblKind) :
    (State.takeEther s p pkt fec frame tblErr).blank K = s.blank K := by
  unfold State.takeEther
  simp (maxDischargeDepth := 9) only [ite_blank, ite_self, arrives_blank, bridge_blank, police_blank, portCtr_blank, hregs, hsw, htbl, hmgmt, haer]

@[simp] theorem sortWfp_blank (K : Part → Bool) (hregs : K .regs = true) (hsw : K .sw = true) (htbl : K .tbl = true) (hmgmt : K .mgmt = true) (haer : K .aer = true) (s : State) (x : Incoming) (h : Wfp) (tblErr : Option TblKind) :
    (State.sortWfp s x h tblErr).blank K = s.blank K := by
  unfold State.sortWfp
  simp (maxDischargeDepth := 9) only [ite_blank, ite_self, arrives_blank, contribIn_blank, ingressDrop_blank, portCtr_blank, switchWfp_blank, hregs, hsw, htbl, hmgmt, haer]

@[simp] theorem takeWfp_blank (K : Part → Bool) (hregs : K .regs = true) (hsw : K .sw = true) (htbl : K .tbl = true) (hmgmt : K .mgmt = true) (hcol : K .col = true) (haer : K .aer = true) (hflt : K .flt = true) (hout : K .out = true) (s : State) (p pkt : Nat) (fec : Bool) (frame : Bytes) (tblErr : Option TblKind) :
    (State.takeWfp s p pkt fec frame tblErr).blank K = s.blank K := by
  unfold State.takeWfp
  (dsimp only; (repeat' split) <;> first | with_reducible rfl | simp (maxDischargeDepth := 9) only [arrives_blank, freeAll_blank, ingressDrop_blank, penalizeDiscard_blank, police_blank, portCtr_blank, sortWfp_blank, hregs, hsw, htbl, hmgmt, hcol, haer, hflt, hout])

@[simp] theorem takeHeader_blank (K : Part → Bool) (hregs : K .regs = true) (hsw : K .sw = true) (htbl : K .tbl = true) (hmgmt : K .mgmt = true) (hcol : K .col = true) (haer : K .aer = true) (hflt : K .flt = true) (hout : K .out = true) (s : State) (p : Nat) (fec : Bool) (frame : Bytes) (tblErr : Option TblKind) :
    (State.takeHeader s p fec frame tblErr).blank K = s.blank K := by
  unfold State.takeHeader
  simp (maxDischargeDepth := 9) only [ite_blank, ite_self, newPkt_blank, pmc_blank, takeEther_blank, takeWfp_blank, hregs, hsw, htbl, hmgmt, hcol, haer, hflt, hout]

@[simp] theorem arrived_blank (K : Part → Bool) (hregs : K .regs = true) (hsw : K .sw = true) (hsys : K .sys = true) (s : State) (a : Arriving) :
    (State.arrived s a).blank K = s.blank K := by
  unfold State.arrived
  simp (maxDischargeDepth := 9) only [bwCount_blank, pmc_blank, portCtr_blank, setSw_blank, hregs, hsw, hsys]

@[simp] theorem completeCells_blank (K : Part → Bool) (hsw : K .sw = true) (s : State) (pkt : Nat) (bad : Bool) :
    (State.completeCells s pkt bad).blank K = s.blank K := by
  unfold State.completeCells
  simp (maxDischargeDepth := 9) only [setSw_blank, hsw]

@[simp] theorem trailerFails_blank (K : Part → Bool) (hregs : K .regs = true) (hsw : K .sw = true) (hmgmt : K .mgmt = true) (hcol : K .col = true) (haer : K .aer = true) (hflt : K .flt = true) (hout : K .out = true) (s : State) (a : Arriving) :
    (State.trailerFails s a).blank K = s.blank K := by
  unfold State.trailerFails
  simp (maxDischargeDepth := 9) only [ite_blank, ite_self, penalizeDiscard_blank, portCtr_blank, record_blank, setPort_blank, hregs, hsw, hmgmt, hcol, haer, hflt, hout]

@[simp] theorem decapsulate_blank (K : Part → Bool) (hregs : K .regs = true) (hsw : K .sw = true) (htbl : K .tbl = true) (hmgmt : K .mgmt = true) (haer : K .aer = true) (s : State) (x : Incoming) (h : Wfp) :
    (State.decapsulate s x h).blank K = s.blank K := by
  unfold State.decapsulate
  simp (maxDischargeDepth := 9) only [ite_blank, ite_self, bridge_blank, completeCells_blank, portCtr_blank, hregs, hsw, htbl, hmgmt, haer]

@[simp] theorem ownAct_blank (K : Part → Bool) (hregs : K .regs = true) (hsw : K .sw = true) (htbl : K .tbl = true) (hmgmt : K .mgmt = true) (hcol : K .col = true) (haer : K .aer = true) (s : State) (a : Arriving) :
    (State.ownAct s a).blank K = s.blank K := by
  unfold State.ownAct
  simp (maxDischargeDepth := 9) only [ite_blank, ite_self, abortRx_blank, ctrlRx_blank, decapsulate_blank, syncRx_blank, hregs, hsw, htbl, hmgmt, hcol, haer]

@[simp] theorem packetEnd_blank (K : Part → Bool) (hregs : K .regs = true) (hsw : K .sw = true) (htbl : K .tbl = true) (hmgmt : K .mgmt = true) (hcol : K .col = true) (haer : K .aer = true) (hflt : K .flt = true) (hsys : K .sys = true) (hout : K .out = true) (s : State) (a : Arriving) :
    (State.packetEnd s a).blank K = s.blank K := by
  unfold State.packetEnd
  simp (maxDischargeDepth := 9) only [ite_blank, ite_self, arrived_blank, completeCells_blank, freeAll_blank, ownAct_blank, trailerFails_blank, hregs, hsw, htbl, hmgmt, hcol, haer, hflt, hsys, hout]

@[simp] theorem setKite_blank (K : Part → Bool) (hcal : K .cal = true) (s : State) (k : KiteEvent) (f : KiteEvent → KiteEvent) :
    (State.setKite s k f).blank K = s.blank K := by
  unfold State.setKite
  simp (maxDischargeDepth := 9) only [setCalSt_blank, hcal]

@[simp] theorem kitePrepareEvent_blank (K : Part → Bool) (hregs : K .regs = true) (hcal : K .cal = true) (hmgmt : K .mgmt = true) (haer : K .aer = true) (s : State) (k : KiteEvent) :
    (State.kitePrepareEvent s k).blank K = s.blank K := by
  unfold State.kitePrepareEvent
  (dsimp only; (repeat' split) <;> first | with_reducible rfl | simp (maxDischargeDepth := 9) only [alarm_blank, bset_blank, setKite_blank, hregs, hcal, hmgmt, haer])

@[simp] theorem enterKite_blank (K : Part → Bool) (hregs : K .regs = true) (hsw : K .sw = true) (hpho : K .pho = true) (hmgmt : K .mgmt = true) (hcol : K .col = true) (haer : K .aer = true) (hflt : K .flt = true) (hout : K .out = true) (s : State) (f : Nat) : (s.enterKite f).blank K = s.blank K := by
  unfold State.enterKite
  dsimp only
  refine (each_blank K _ _ _ fun s x => ?_).trans ?_
  · split <;> simp (maxDischargeDepth := 9) only [ite_blank, ite_self, changeLane_blank, putRing_blank, hregs, hsw, hpho, hmgmt, hcol, haer, hflt, hout]
  · simp (maxDischargeDepth := 9) only [ite_blank, ite_self, each_blank, implies_true, clearCredits_blank, discardQueued_blank, dropArrivals_blank, setPort_blank, hregs, hsw, hcol, hout]

@[simp] theorem kiteSwitchEvent_blank (K : Part → Bool) (hregs : K .regs = true) (hcal : K .cal = true) (hsw : K .sw = true) (hpho : K .pho = true) (hmgmt : K .mgmt = true) (hcol : K .col = true) (haer : K .aer = true) (hflt : K .flt = true) (hout : K .out = true) (s : State) (k : KiteEvent) :
    (State.kiteSwitchEvent s k).blank K = s.blank K := by
  unfold State.kiteSwitchEvent
  simp (maxDischargeDepth := 9) only [each_blank, implies_true, enterKite_blank, setKite_blank, hregs, hcal, hsw, hpho, hmgmt, hcol, haer, hflt, hout]

@[simp] theorem kiteSettleEvent_blank (K : Part → Bool) (hregs : K .regs = true) (hcal : K .cal = true) (hpho : K .pho = true) (s : State) (k : KiteEvent) :
    (State.kiteSettleEvent s k).blank K = s.blank K := by
  unfold State.kiteSettleEvent
  simp (maxDischargeDepth := 9) only [setKiteMap_blank, setKite_blank, setPho_blank, hregs, hcal, hpho]

@[simp] theorem leaveKite_blank (K : Part → Bool) (hregs : K .regs = true) (hsw : K .sw = true) (hpho : K .pho = true) (hmgmt : K .mgmt = true) (hcol : K .col = true) (haer : K .aer = true) (hflt : K .flt = true) (hout : K .out = true) (s : State) (f : Nat) :
    (State.leaveKite s f).blank K = s.blank K := by
  unfold State.leaveKite
  simp (maxDischargeDepth := 9) only [each_blank, implies_true, ite_blank, ite_self, changeLane_blank, relane_blank, setPort_blank, hregs, hsw, hpho, hmgmt, hcol, haer, hflt, hout]

@[simp] theorem kiteLitEvent_blank (K : Part → Bool) (hregs : K .regs = true) (hcal : K .cal = true) (hsw : K .sw = true) (hpho : K .pho = true) (hmgmt : K .mgmt = true) (hcol : K .col = true) (haer : K .aer = true) (hflt : K .flt = true) (hout : K .out = true) (s : State) (k : KiteEvent) :
    (State.kiteLitEvent s k).blank K = s.blank K := by
  unfold State.kiteLitEvent
  simp (maxDischargeDepth := 9) only [implies_true, each_blank, implies_true, leaveKite_blank, rset_blank, setCalSt_blank, hregs, hcal, hsw, hpho, hmgmt, hcol, haer, hflt, hout]

@[simp] theorem setLink_blank (K : Part → Bool) (hmgmt : K .mgmt = true) (s : State) (m : MPort) (up : Bool) :
    (State.setLink s m up).blank K = s.blank K := by
  unfold State.setLink
  simp (maxDischargeDepth := 9) only [setMgmt_blank, hmgmt]

@[simp] theorem failAttempt_blank (K : Part → Bool) (hregs : K .regs = true) (hsw : K .sw = true) (hpho : K .pho = true) (hmgmt : K .mgmt = true) (hcol : K .col = true) (haer : K .aer = true) (hflt : K .flt = true) (hout : K .out = true) (s : State) (r : Ring) :
    (State.failAttempt s r).blank K = s.blank K := by
  unfold State.failAttempt
  simp (maxDischargeDepth := 9) only [ite_blank, ite_self, moveRing_blank, hregs, hsw, hpho, hmgmt, hcol, haer, hflt, hout]

@[simp] theorem judgeCarrier_blank (K : Part → Bool) (hpho : K .pho = true) (s : State) (f w : Nat) (st : RxState) (req : Nat) :
    (State.judgeCarrier s f w st req).blank K = s.blank K := by
  unfold State.judgeCarrier
  simp (maxDischargeDepth := 9) only [ite_blank, ite_self, setCarrier_blank, hpho]

@[simp] theorem noLight_blank (K : Part → Bool) (hregs : K .regs = true) (hpho : K .pho = true) (s : State) (f w : Nat) (power : Int) :
    (State.noLight s f w power).blank K = s.blank K := by
  unfold State.noLight
  (dsimp only; (repeat' split) <;> first | with_reducible rfl | simp (maxDischargeDepth := 9) only [each_blank, implies_true, judgeCarrier_blank, rset_blank, setCarrier_blank, hregs, hpho])

@[simp] theorem blockMissing_blank (K : Part → Bool) (hregs : K .regs = true) (hsw : K .sw = true) (hpho : K .pho = true) (hmgmt : K .mgmt = true) (hcol : K .col = true) (haer : K .aer = true) (hflt : K .flt = true) (hout : K .out = true) (s : State) (f w : Nat) (light : Bool) :
    (State.blockMissing s f w light).blank K = s.blank K := by
  unfold State.blockMissing
  simp (maxDischargeDepth := 9) only [ite_blank, ite_self, judgeCarrier_blank, laneCtr_blank, resweepRing_blank, setCarrier_blank, hregs, hsw, hpho, hmgmt, hcol, haer, hflt, hout]

@[simp] theorem askAgain_blank (K : Part → Bool) (hpho : K .pho = true) (s : State) (g : Nat) :
    (State.askAgain s g).blank K = s.blank K := by
  unfold State.askAgain
  simp (maxDischargeDepth := 9) only [each_blank, implies_true, judgeCarrier_blank, hpho]

@[simp] theorem takeLane_blank (K : Part → Bool) (hregs : K .regs = true) (hsw : K .sw = true) (hpho : K .pho = true) (hmgmt : K .mgmt = true) (hcol : K .col = true) (haer : K .aer = true) (hflt : K .flt = true) (hout : K .out = true) (s : State) (l f w : Nat) :
    (State.takeLane s l f w).blank K = s.blank K := by
  unfold State.takeLane
  (dsimp only; (repeat' split) <;> first | with_reducible rfl | simp (maxDischargeDepth := 9) only [judgeCarrier_blank, relane_blank, setCarrier_blank, setLane_blank, hregs, hsw, hpho, hmgmt, hcol, haer, hflt, hout])

@[simp] theorem homeCheck_blank (K : Part → Bool) (hpho : K .pho = true) (s : State) (f w : Nat) :
    (State.homeCheck s f w).blank K = s.blank K := by
  unfold State.homeCheck
  ((repeat' split) <;> first | with_reducible rfl | simp (maxDischargeDepth := 9) only [ite_blank, ite_self, judgeCarrier_blank, hpho])

@[simp] theorem answerMove_blank (K : Part → Bool) (hregs : K .regs = true) (hpho : K .pho = true) (s : State) (l : Nat) (fiber : Bool) :
    (State.answerMove s l fiber).blank K = s.blank K := by
  unfold State.answerMove
  (dsimp only; (repeat' split) <;> first | with_reducible rfl | simp (maxDischargeDepth := 9) only [each_blank, implies_true, bump_blank, setMove_blank, hregs, hpho])

@[simp] theorem moveNow_blank (K : Part → Bool) (hregs : K .regs = true) (hsw : K .sw = true) (hpho : K .pho = true) (hmgmt : K .mgmt = true) (hcol : K .col = true) (haer : K .aer = true) (hflt : K .flt = true) (hout : K .out = true) (s : State) (l : Nat) : (s.moveNow l).blank K = s.blank K := by
  unfold State.moveNow
  split
  · rfl
  · simp (maxDischargeDepth := 9) only [relane_blank, setLane_blank, hregs, hsw, hpho, hmgmt, hcol, haer, hflt, hout]
  · dsimp only
    split
    · cases (s.lane l).tx <;> cases (s.lane l).rx <;> simp (maxDischargeDepth := 9) only [bump_blank, record_blank, relane_blank, resweepRing_blank, setLane_blank, hregs, hsw, hpho, hmgmt, hcol, haer, hflt, hout]
    · simp (maxDischargeDepth := 9) only [bump_blank, record_blank, relane_blank, setLane_blank, hregs, hsw, hpho, hmgmt, hcol, haer, hflt, hout]

@[simp] theorem takeReport_blank (K : Part → Bool) (hregs : K .regs = true) (hsw : K .sw = true) (hpho : K .pho = true) (hmgmt : K .mgmt = true) (hcol : K .col = true) (haer : K .aer = true) (hflt : K .flt = true) (hout : K .out = true) (s : State) (f w : Nat) (r : Bytes) :
    (State.takeReport s f w r).blank K = s.blank K := by
  unfold State.takeReport
  (dsimp only; (repeat' split) <;> first | with_reducible rfl | simp (maxDischargeDepth := 9) only [answerMove_blank, laneCtr_blank, resweepRing_blank, rset_blank, setCarrier_blank, setMove_blank, hregs, hsw, hpho, hmgmt, hcol, haer, hflt, hout])

@[simp] theorem takeEcho_blank (K : Part → Bool) (hregs : K .regs = true) (hclk : K .clk = true) (s : State) (p : Nat) (b : Bytes) (rxPs : Nat) :
    (State.takeEcho s p b rxPs).blank K = s.blank K := by
  unfold State.takeEcho
  (dsimp only; (repeat' split) <;> first | with_reducible rfl | simp (maxDischargeDepth := 9) only [rset_blank, setClk_blank, hregs, hclk])

@[simp] theorem peerMismatch_blank (K : Part → Bool) (hregs : K .regs = true) (hsw : K .sw = true) (hpho : K .pho = true) (hmgmt : K .mgmt = true) (hcol : K .col = true) (haer : K .aer = true) (hflt : K .flt = true) (hout : K .out = true) (s : State) (l f w chip lane : Nat) :
    (State.peerMismatch s l f w chip lane).blank K = s.blank K := by
  unfold State.peerMismatch
  simp (maxDischargeDepth := 9) only [alarm_blank, judgeCarrier_blank, relane_blank, setLane_blank, hregs, hsw, hpho, hmgmt, hcol, haer, hflt, hout]

@[simp] theorem judgeBlock_blank (K : Part → Bool) (hregs : K .regs = true) (hsw : K .sw = true) (hpho : K .pho = true) (hmgmt : K .mgmt = true) (hcol : K .col = true) (haer : K .aer = true) (hflt : K .flt = true) (hout : K .out = true) (s : State) (f w : Nat) (b : Bytes) (power : Int) :
    (State.judgeBlock s f w b power).blank K = s.blank K := by
  unfold State.judgeBlock
  (simp (maxDischargeDepth := 9) only [ite_blank, ite_self, askAgain_blank, homeCheck_blank, judgeCarrier_blank, laneCtr_blank, moveRing_blank, peerMismatch_blank, resweepRing_blank, rset_blank, setCarrier_blank, takeLane_blank, hregs, hsw, hpho, hmgmt, hcol, haer, hflt, hout]; (repeat' split) <;> first | with_reducible rfl | simp (maxDischargeDepth := 9) only [moveRing_blank, relane_blank, rset_blank, setCarrier_blank, setLane_blank, hregs, hsw, hpho, hmgmt, hcol, haer, hflt, hout])

@[simp] theorem returnPorts_blank (K : Part → Bool) (hsw : K .sw = true) (hpho : K .pho = true) (s : State) (f : Nat) :
    (State.returnPorts s f).blank K = s.blank K := by
  unfold State.returnPorts
  simp (maxDischargeDepth := 9) only [each_blank, implies_true, ite_blank, ite_self, bringUp_blank, setPho_blank, hsw, hpho]

@[simp] theorem compareMarker_blank (K : Part → Bool) (hregs : K .regs = true) (hclk : K .clk = true) (hmgmt : K .mgmt = true) (haer : K .aer = true) (s : State) (p : Nat) (count : TickNo) (err : Int) :
    (State.compareMarker s p count err).blank K = s.blank K := by
  unfold State.compareMarker
  simp (maxDischargeDepth := 9) only [ite_blank, ite_self, alarm_blank, bump_blank, setClk_blank, hregs, hclk, hmgmt, haer]

@[simp] theorem becomeAligned_blank (K : Part → Bool) (hregs : K .regs = true) (hclk : K .clk = true) (hcal : K .cal = true) (s : State) (count : TickNo) :
    (State.becomeAligned s count).blank K = s.blank K := by
  unfold State.becomeAligned
  simp (maxDischargeDepth := 9) only [ite_blank, ite_self, countChange_blank, resumeAll_blank, setClk_blank, hregs, hclk, hcal]

@[simp] theorem takeMarker_blank (K : Part → Bool) (hregs : K .regs = true) (hclk : K .clk = true) (hcal : K .cal = true) (hmgmt : K .mgmt = true) (haer : K .aer = true) (s : State) (missed : Bool) (count : TickNo) (err : Int) :
    (State.takeMarker s missed count err).blank K = s.blank K := by
  unfold State.takeMarker
  simp (maxDischargeDepth := 9) only [ite_blank, ite_self, becomeAligned_blank, loseAlignment_blank, rset_blank, setClk_blank, hregs, hclk, hcal, hmgmt, haer]

@[simp] theorem markerRx_blank (K : Part → Bool) (hregs : K .regs = true) (hclk : K .clk = true) (hcal : K .cal = true) (hmgmt : K .mgmt = true) (haer : K .aer = true) (s : State) (p pod : Nat) (count : TickNo) (err : Int) :
    (State.markerRx s p pod count err).blank K = s.blank K := by
  unfold State.markerRx
  ((repeat' split) <;> first | with_reducible rfl | simp (maxDischargeDepth := 9) only [ite_blank, ite_self, bump_blank, chooseUpstream_blank, compareMarker_blank, setClk_blank, takeMarker_blank, hregs, hclk, hcal, hmgmt, haer])

@[simp] theorem tagBlockRx_blank (K : Part → Bool) (hregs : K .regs = true) (hclk : K .clk = true) (hcal : K .cal = true) (hsw : K .sw = true) (hpho : K .pho = true) (hmgmt : K .mgmt = true) (hcol : K .col = true) (htwin : K .twin = true) (haer : K .aer = true) (hflt : K .flt = true) (hout : K .out = true) (s : State) (f w : Nat) (b : Bytes) (power phase : Int) (rxPs : Nat) :
    (State.tagBlockRx s f w b power phase rxPs).blank K = s.blank K := by
  unfold State.tagBlockRx
  (dsimp only; (repeat' split) <;> first | with_reducible rfl | simp (maxDischargeDepth := 9) only [blockMissing_blank, judgeBlock_blank, laneCtr_blank, markerRx_blank, returnPorts_blank, setTwin_blank, takeEcho_blank, takeReport_blank, hregs, hclk, hcal, hsw, hpho, hmgmt, hcol, htwin, haer, hflt, hout])

@[simp] theorem nextReport_blank (K : Part → Bool) (hpho : K .pho = true) (s : State) (g : Nat) :
    (State.nextReport s g).1.blank K = s.blank K := by
  unfold State.nextReport
  (dsimp only; (repeat' split) <;> first | with_reducible rfl | simp (maxDischargeDepth := 9) only [setCarrier_blank, setPho_blank, hpho])

@[simp] theorem portEcho_blank (K : Part → Bool) (hclk : K .clk = true) (s : State) (p : Nat) :
    (State.portEcho s p).1.blank K = s.blank K := by
  unfold State.portEcho
  ((repeat' split) <;> first | with_reducible rfl | simp (maxDischargeDepth := 9) only [setClk_blank, hclk])

@[simp] theorem tagBlocksTx_blank (K : Part → Bool) (hclk : K .clk = true) (hpho : K .pho = true) (hout : K .out = true) (s : State) (p : Nat) :
    (State.tagBlocksTx s p).blank K = s.blank K := by
  unfold State.tagBlocksTx
  simp (maxDischargeDepth := 9) only [each_blank, implies_true, ite_blank, ite_self, nextReport_blank, portEcho_blank, send_blank, hclk, hpho, hout]

@[simp] theorem consumerChanged_blank (K : Part → Bool) (hregs : K .regs = true) (hsw : K .sw = true) (hpho : K .pho = true) (hmgmt : K .mgmt = true) (hcol : K .col = true) (haer : K .aer = true) (hflt : K .flt = true) (hout : K .out = true) (s : State) (c : Nat) :
    (State.consumerChanged s c).blank K = s.blank K := by
  unfold State.consumerChanged
  simp (maxDischargeDepth := 9) only [each_blank, implies_true, ite_blank, ite_self, refreshWaveguide_blank, relane_blank, hregs, hsw, hpho, hmgmt, hcol, haer, hflt, hout]

@[simp] theorem feedEvent_blank (K : Part → Bool) (hregs : K .regs = true) (hsw : K .sw = true) (hpho : K .pho = true) (hmgmt : K .mgmt = true) (hcol : K .col = true) (haer : K .aer = true) (hflt : K .flt = true) (hout : K .out = true) (s : State) (q : Nat) (b : Bool) :
    (State.feedEvent s q b).blank K = s.blank K := by
  unfold State.feedEvent
  simp (maxDischargeDepth := 9) only [ite_blank, ite_self, alarmPlain_blank, alarm_blank, consumerChanged_blank, fset_blank, rset_blank, setEls_blank, setPho_blank, setSelector_blank, hregs, hsw, hpho, hmgmt, hcol, haer, hflt, hout]

@[simp] theorem moduleLost_blank (K : Part → Bool) (hregs : K .regs = true) (hsw : K .sw = true) (hpho : K .pho = true) (hmgmt : K .mgmt = true) (hcol : K .col = true) (haer : K .aer = true) (hflt : K .flt = true) (hout : K .out = true) (s : State) (m : Nat) :
    (State.moduleLost s m).blank K = s.blank K := by
  unfold State.moduleLost
  simp (maxDischargeDepth := 9) only [each_blank, implies_true, feedEvent_blank, hregs, hsw, hpho, hmgmt, hcol, haer, hflt, hout]

@[simp] theorem finishRestore_blank (K : Part → Bool) (hregs : K .regs = true) (hsw : K .sw = true) (hpho : K .pho = true) (hmgmt : K .mgmt = true) (hcol : K .col = true) (haer : K .aer = true) (hflt : K .flt = true) (hout : K .out = true) (s : State) (m : Nat) :
    (State.finishRestore s m).blank K = s.blank K := by
  unfold State.finishRestore
  simp (maxDischargeDepth := 9) only [each_blank, implies_true, ite_blank, ite_self, consumerChanged_blank, fset_blank, rset_blank, setEls_blank, setPho_blank, hregs, hsw, hpho, hmgmt, hcol, haer, hflt, hout]

@[simp] theorem biasOutput_blank (K : Part → Bool) (hregs : K .regs = true) (hpho : K .pho = true) (hmgmt : K .mgmt = true) (haer : K .aer = true) (s : State) (measured : List Int) (m o : Nat) :
    (State.biasOutput s measured m o).blank K = s.blank K := by
  unfold State.biasOutput
  simp (maxDischargeDepth := 9) only [ite_blank, ite_self, alarm_blank, fset_blank, rset_blank, setEls_blank, hregs, hpho, hmgmt, haer]

@[simp] theorem writePortCtrl_blank (K : Part → Bool) (hregs : K .regs = true) (hhbm : K .hbm = true) (hclk : K .clk = true) (hcal : K .cal = true) (hsw : K .sw = true) (htbl : K .tbl = true) (hpho : K .pho = true) (hmgmt : K .mgmt = true) (hfuse : K .fuse = true) (hcol : K .col = true) (htwin : K .twin = true) (haer : K .aer = true) (hflt : K .flt = true) (hdump : K .dump = true) (hsys : K .sys = true) (hout : K .out = true) (s : State) (q : Req) (p v : Nat) :
    (State.writePortCtrl s q p v).blank K = s.blank K := by
  unfold State.writePortCtrl
  simp (maxDischargeDepth := 9) only [serveReg_blank, hregs, hhbm, hclk, hcal, hsw, htbl, hpho, hmgmt, hfuse, hcol, htwin, haer, hflt, hdump, hsys, hout]

@[simp] theorem fiberReturned_blank (K : Part → Bool) (hpho : K .pho = true) (s : State) (f : Nat) :
    (State.fiberReturned s f).blank K = s.blank K := by
  unfold State.fiberReturned
  simp (maxDischargeDepth := 9) only [ite_blank, ite_self, setPho_blank, hpho]

@[simp] theorem recoverScore_blank (K : Part → Bool) (hregs : K .regs = true) (s : State) (p : Nat) :
    (State.recoverScore s p).blank K = s.blank K := by
  unfold State.recoverScore
  simp (maxDischargeDepth := 9) only [ite_blank, ite_self, fset_blank, hregs]

@[simp] theorem warmReset_blank (K : Part → Bool) (hK : ∀ p, K p = true) (s : State) : (s.warmReset).blank K = s.blank K := by
  simp (maxDischargeDepth := 9) only [State.blank, hK, if_true]
  unfold State.warmReset
  dsimp only
  split
  · have h : ∀ t : State, (t.alarmPlain (dumpReg 0) 24).pending = t.pending := by
      intro t
      have e := alarmPlain_blank K (hK _) (hK _) (hK _) t (dumpReg 0) 24 0
      have e2 := congrArg State.pending e
      exact e2
    rw [h]
    rfl
  · rfl

@[simp] theorem bootSlot_blank (K : Part → Bool) (hsys : K .sys = true) (s : State) (slot : Nat) (b : Bytes) :
    (State.bootSlot s slot b).blank K = s.blank K := by
  unfold State.bootSlot
  simp (maxDischargeDepth := 9) only [setSys_blank, hsys]

@[simp] theorem verifySlots_blank (K : Part → Bool) (hregs : K .regs = true) (hmgmt : K .mgmt = true) (haer : K .aer = true) (hsys : K .sys = true) (s : State) (a b : Bytes) :
    (State.verifySlots s a b).blank K = s.blank K := by
  unfold State.verifySlots
  (dsimp only; (repeat' split) <;> first | with_reducible rfl | simp (maxDischargeDepth := 9) only [alarmPlain_blank, bootSlot_blank, setSys_blank, hregs, hmgmt, haer, hsys])

@[simp] theorem lockHome_blank (K : Part → Bool) (hregs : K .regs = true) (hsw : K .sw = true) (hpho : K .pho = true) (hmgmt : K .mgmt = true) (hcol : K .col = true) (haer : K .aer = true) (hflt : K .flt = true) (hout : K .out = true) (s : State) (l : Nat) :
    (State.lockHome s l).blank K = s.blank K := by
  unfold State.lockHome
  simp (maxDischargeDepth := 9) only [changeLane_blank, relane_blank, setPho_blank, hregs, hsw, hpho, hmgmt, hcol, haer, hflt, hout]

@[simp] theorem lightModule_blank (K : Part → Bool) (hregs : K .regs = true) (hpho : K .pho = true) (s : State) (m : Nat) :
    (State.lightModule s m).blank K = s.blank K := by
  unfold State.lightModule
  simp (maxDischargeDepth := 9) only [ite_blank, ite_self, rset_blank, setEls_blank, hregs, hpho]

@[simp] theorem startOptics_blank (K : Part → Bool) (hregs : K .regs = true) (hsw : K .sw = true) (hpho : K .pho = true) (hmgmt : K .mgmt = true) (hcol : K .col = true) (haer : K .aer = true) (hflt : K .flt = true) (hout : K .out = true) (s : State) :
    (State.startOptics s).blank K = s.blank K := by
  unfold State.startOptics
  simp (maxDischargeDepth := 9) only [each_blank, implies_true, lightModule_blank, lockHome_blank, hregs, hsw, hpho, hmgmt, hcol, haer, hflt, hout]

@[simp] theorem trainFails_blank (K : Part → Bool) (hregs : K .regs = true) (hmgmt : K .mgmt = true) (haer : K .aer = true) (s : State) (x : StackNo × Fin 32) :
    (State.trainFails s x).blank K = s.blank K := by
  unfold State.trainFails
  simp (maxDischargeDepth := 9) only [alarm_blank, bset_blank, fset_blank, hregs, hmgmt, haer]

@[simp] theorem startSchedule_blank (K : Part → Bool) (hregs : K .regs = true) (hhbm : K .hbm = true) (hsw : K .sw = true) (hpho : K .pho = true) (hmgmt : K .mgmt = true) (hcol : K .col = true) (haer : K .aer = true) (hflt : K .flt = true) (hsys : K .sys = true) (hout : K .out = true) (s : State) :
    (State.startSchedule s).blank K = s.blank K := by
  unfold State.startSchedule
  simp (maxDischargeDepth := 9) only [each_blank, implies_true, askAgain_blank, copyEarly_blank, enterStage_blank, setCarrierRings_blank, setSys_blank, hregs, hhbm, hsw, hpho, hmgmt, hcol, haer, hflt, hsys, hout]

@[simp] theorem testEngine_blank (K : Part → Bool) (hregs : K .regs = true) (hmgmt : K .mgmt = true) (hfuse : K .fuse = true) (hcol : K .col = true) (haer : K .aer = true) (s : State) (e : Nat) (found : BistFound) :
    (State.testEngine s e found).blank K = s.blank K := by
  unfold State.testEngine
  simp (maxDischargeDepth := 9) only [ite_blank, ite_self, endEngBist_blank, reloadRepair_blank, startEngBist_blank, hregs, hmgmt, hfuse, hcol, haer]

@[simp] theorem quarantineUu_blank (K : Part → Bool) (hregs : K .regs = true) (hmgmt : K .mgmt = true) (hcol : K .col = true) (haer : K .aer = true) (s : State) (n : Nat) :
    (State.quarantineUu s n).blank K = s.blank K := by
  unfold State.quarantineUu
  simp (maxDischargeDepth := 9) only [ite_blank, ite_self, alarmPlain_blank, alarm_blank, setCore_blank, setUuState_blank, hregs, hmgmt, hcol, haer]

@[simp] theorem endUuBist_blank (K : Part → Bool) (hregs : K .regs = true) (hmgmt : K .mgmt = true) (hcol : K .col = true) (haer : K .aer = true) (s : State) (n : Nat) (pass : Bool) :
    (State.endUuBist s n pass).blank K = s.blank K := by
  unfold State.endUuBist
  simp (maxDischargeDepth := 9) only [ite_blank, ite_self, fset_blank, quarantineUu_blank, setUuState_blank, hregs, hmgmt, hcol, haer]

@[simp] theorem tableDrain_blank (K : Part → Bool) (hregs : K .regs = true) (htbl : K .tbl = true) (hmgmt : K .mgmt = true) (hsys : K .sys = true) (hout : K .out = true) (n : Nat) (s : State) :
    (State.tableDrain n s).blank K = s.blank K := by
  induction n generalizing s with
  | zero => rfl
  | succ n ih =>
    unfold State.tableDrain
    split
    · rename_i j rest h1 h2
      dsimp only
      split <;> simp (maxDischargeDepth := 9) only [ih, reply_blank, setTbl_blank, tableStart_blank, hregs, htbl, hmgmt, hsys, hout]
    · rfl

@[simp] theorem tableEnd_blank (K : Part → Bool) (hregs : K .regs = true) (htbl : K .tbl = true) (hmgmt : K .mgmt = true) (hsys : K .sys = true) (hout : K .out = true) (s : State) (j : TblJob) (out : TblOut) :
    (State.tableEnd s j out).blank K = s.blank K := by
  unfold State.tableEnd
  simp (maxDischargeDepth := 9) only [reply_blank, setTbl_blank, tableDrain_blank, tableReply_blank, hregs, htbl, hmgmt, hsys, hout]

@[simp] theorem shiftDone_blank (K : Part → Bool) (hregs : K .regs = true) (htbl : K .tbl = true) (hmgmt : K .mgmt = true) (hsys : K .sys = true) (hout : K .out = true) (s : State) (j : TblJob) :
    (State.shiftDone s j).blank K = s.blank K := by
  unfold State.shiftDone
  ((repeat' split) <;> first | with_reducible rfl | simp (maxDischargeDepth := 9) only [setGen_blank, setTbl_blank, tableEnd_blank, hregs, htbl, hmgmt, hsys, hout])

@[simp] theorem flushDone_blank (K : Part → Bool) (hregs : K .regs = true) (htbl : K .tbl = true) (hmgmt : K .mgmt = true) (hsys : K .sys = true) (hout : K .out = true) (s : State) (j : TblJob) :
    (State.flushDone s j).blank K = s.blank K := by
  unfold State.flushDone
  simp (maxDischargeDepth := 9) only [macRemove_blank, setGen_blank, tableEnd_blank, hregs, htbl, hmgmt, hsys, hout]

@[simp] theorem clearTblError_blank (K : Part → Bool) (htbl : K .tbl = true) (s : State) (d : Nat) (k : TblKind) (pos : Nat) :
    (State.clearTblError s d k pos).blank K = s.blank K := by
  unfold State.clearTblError
  simp (maxDischargeDepth := 9) only [setTbl_blank, htbl]

@[simp] theorem invalidateEntry_blank (K : Part → Bool) (htbl : K .tbl = true) (s : State) (k : TblKind) (pos : Nat) :
    (State.invalidateEntry s k pos).blank K = s.blank K := by
  unfold State.invalidateEntry
  ((repeat' split) <;> first | with_reducible rfl | simp (maxDischargeDepth := 9) only [eachMac_blank, setTbl_blank, htbl])

@[simp] theorem rewriteEntry_blank (K : Part → Bool) (hregs : K .regs = true) (htbl : K .tbl = true) (haer : K .aer = true) (s : State) (d : Nat) (k : TblKind) (pos : Nat) :
    (State.rewriteEntry s d k pos).blank K = s.blank K := by
  unfold State.rewriteEntry
  simp (maxDischargeDepth := 9) only [each_blank, implies_true, ite_blank, ite_self, bump_blank, clearTblError_blank, invalidateEntry_blank, record_blank, setTbl_blank, hregs, htbl, haer]

@[simp] theorem latchPort_blank (K : Part → Bool) (hregs : K .regs = true) (s : State) (seq p : Nat) :
    (State.latchPort s seq p).blank K = s.blank K := by
  unfold State.latchPort
  simp (maxDischargeDepth := 9) only [ite_blank, ite_self, rset_blank, hregs]

@[simp] theorem closeWindow_blank (K : Part → Bool) (hregs : K .regs = true) (hmgmt : K .mgmt = true) (haer : K .aer = true) (hsys : K .sys = true) (s : State) :
    (State.closeWindow s).blank K = s.blank K := by
  unfold State.closeWindow
  simp (maxDischargeDepth := 9) only [each_blank, implies_true, ite_blank, ite_self, alarmPlain_blank, latchPort_blank, rset_blank, setSys_blank, hregs, hmgmt, haer, hsys]

@[simp] theorem countGrants_blank (K : Part → Bool) (hregs : K .regs = true) (hsw : K .sw = true) (s : State) :
    (State.countGrants s).blank K = s.blank K := by
  unfold State.countGrants
  simp (maxDischargeDepth := 9) only [each_blank, implies_true, ite_blank, ite_self, pmc_blank, setSw_blank, hregs, hsw]

@[simp] theorem advanceClocks_blank (K : Part → Bool) (hclk : K .clk = true) (s : State) :
    (State.advanceClocks s).blank K = s.blank K := by
  unfold State.advanceClocks
  simp (maxDischargeDepth := 9) only [setClk_blank, hclk]

@[simp] theorem countCycles_blank (K : Part → Bool) (hregs : K .regs = true) (s : State) (old : Nat) :
    (s.countCycles old).blank K = s.blank K := by
  unfold State.countCycles
  refine each_blank K _ _ _ fun s x => ?_
  dsimp only
  split <;> simp (maxDischargeDepth := 9) only [bump_blank, hregs]

@[simp] theorem countHolds_blank (K : Part → Bool) (hregs : K .regs = true) (hsw : K .sw = true) (s : State) :
    (State.countHolds s).blank K = s.blank K := by
  unfold State.countHolds
  simp (maxDischargeDepth := 9) only [each_blank, implies_true, countHold_blank, hregs, hsw]

@[simp] theorem liftCalendars_blank (K : Part → Bool) (hcal : K .cal = true) (s : State) :
    (State.liftCalendars s).blank K = s.blank K := by
  unfold State.liftCalendars
  simp (maxDischargeDepth := 9) only [ite_blank, ite_self, setCalSt_blank, hcal]

@[simp] theorem actPortResets_blank (K : Part → Bool) (hregs : K .regs = true) (hsw : K .sw = true) (hmgmt : K .mgmt = true) (hcol : K .col = true) (hout : K .out = true) (s : State) :
    (State.actPortResets s).blank K = s.blank K := by
  unfold State.actPortResets
  simp (maxDischargeDepth := 9) only [each_blank, implies_true, resetPortNow_blank, hregs, hsw, hmgmt, hcol, hout]

@[simp] theorem beginReset_blank (K : Part → Bool) (hcol : K .col = true) (hdump : K .dump = true) (s : State) (c : Nat) :
    (State.beginReset s c).blank K = s.blank K := by
  unfold State.beginReset
  simp (maxDischargeDepth := 9) only [enterLull_blank, setCtx_blank, startSnap_blank, hcol, hdump]

@[simp] theorem actCtxResets_blank (K : Part → Bool) (hcol : K .col = true) (hdump : K .dump = true) (s : State) :
    (State.actCtxResets s).blank K = s.blank K := by
  unfold State.actCtxResets
  simp (maxDischargeDepth := 9) only [each_blank, implies_true, beginReset_blank, hcol, hdump]

@[simp] theorem startWindow_blank (K : Part → Bool) (hregs : K .regs = true) (hsys : K .sys = true) (s : State) :
    (State.startWindow s).blank K = s.blank K := by
  unfold State.startWindow
  simp (maxDischargeDepth := 9) only [ite_blank, ite_self, rset_blank, setSys_blank, hregs, hsys]

@[simp] theorem twinBlocks_blank (K : Part → Bool) (hpho : K .pho = true) (hout : K .out = true) (s : State) :
    (State.twinBlocks s).blank K = s.blank K := by
  unfold State.twinBlocks
  simp (maxDischargeDepth := 9) only [each_blank, implies_true, ite_blank, ite_self, nextReport_blank, send_blank, hpho, hout]

@[simp] theorem freshTick_blank (K : Part → Bool) (hsw : K .sw = true) (s : State) :
    (State.freshTick s).blank K = s.blank K := by
  unfold State.freshTick
  simp (maxDischargeDepth := 9) only [setSw_blank, hsw]

@[simp] theorem applyRole_blank (K : Part → Bool) (hregs : K .regs = true) (hclk : K .clk = true) (hcal : K .cal = true) (hmgmt : K .mgmt = true) (haer : K .aer = true) (s : State) :
    (State.applyRole s).blank K = s.blank K := by
  unfold State.applyRole
  simp (maxDischargeDepth := 9) only [ite_blank, ite_self, checkHoldover_blank, chooseUpstream_blank, countChange_blank, setClk_blank, hregs, hclk, hcal, hmgmt, haer]

@[simp] theorem chooseBanks_blank (K : Part → Bool) (hcol : K .col = true) (s : State) : (s.chooseBanks).blank K = s.blank K := by
  unfold State.chooseBanks
  refine each_blank K _ _ _ fun s x => ?_
  split <;> simp (maxDischargeDepth := 9) only [setSlot_blank, hcol]

@[simp] theorem countBankWaits_blank (K : Part → Bool) (hregs : K .regs = true) (s : State) :
    (State.countBankWaits s).blank K = s.blank K := by
  unfold State.countBankWaits
  simp (maxDischargeDepth := 9) only [each_blank, implies_true, ctxCtr_blank, hregs]

@[simp] theorem copyEnds_blank (K : Part → Bool) (hregs : K .regs = true) (htwin : K .twin = true) (hout : K .out = true) (s : State) :
    (State.copyEnds s).blank K = s.blank K := by
  unfold State.copyEnds
  simp (maxDischargeDepth := 9) only [each_blank, implies_true, ite_blank, ite_self, setTwin_blank, twinSend_blank, hregs, htwin, hout]

@[simp] theorem twinTake_blank (K : Part → Bool) (hregs : K .regs = true) (htwin : K .twin = true) (hout : K .out = true) (s : State) (w : TwinWait) :
    (State.twinTake s w).blank K = s.blank K := by
  unfold State.twinTake
  simp (maxDischargeDepth := 9) only [setTwin_blank, twinOut_blank, hregs, htwin, hout]

@[simp] theorem twinDrain_blank (K : Part → Bool) (hregs : K .regs = true) (htwin : K .twin = true) (hout : K .out = true) (n : Nat) (s : State) :
    (State.twinDrain n s).blank K = s.blank K := by
  induction n generalizing s with
  | zero => rfl
  | succ n ih =>
    unfold State.twinDrain
    split
    · rfl
    · simp (maxDischargeDepth := 9) only [ih, ite_blank, ite_self, setTwin_blank, twinTake_blank, hregs, htwin, hout]

@[simp] theorem twinPush_blank (K : Part → Bool) (hregs : K .regs = true) (htwin : K .twin = true) (hout : K .out = true) (s : State) (type : Nat) (payload : Bytes) :
    (State.twinPush s type payload).blank K = s.blank K := by
  unfold State.twinPush
  simp (maxDischargeDepth := 9) only [setTwin_blank, twinDrain_blank, hregs, htwin, hout]

@[simp] theorem copyBlock_blank (K : Part → Bool) (hregs : K .regs = true) (htwin : K .twin = true) (hout : K .out = true) (s : State) (x : Nat × Nat × Nat) :
    (State.copyBlock s x).blank K = s.blank K := by
  unfold State.copyBlock
  simp (maxDischargeDepth := 9) only [implies_true, each_blank, implies_true, setTwin_blank, twinPush_blank, hregs, htwin, hout]

@[simp] theorem copyPump_blank (K : Part → Bool) (hregs : K .regs = true) (htwin : K .twin = true) (hout : K .out = true) (n : Nat) (s : State) :
    (State.copyPump n s).blank K = s.blank K := by
  induction n generalizing s with
  | zero => rfl
  | succ n ih =>
    unfold State.copyPump
    split
    · rfl
    · simp (maxDischargeDepth := 9) only [ih, ite_blank, ite_self, copyBlock_blank, setTwin_blank, hregs, htwin, hout]

@[simp] theorem copyOn_blank (K : Part → Bool) (hregs : K .regs = true) (htwin : K .twin = true) (hout : K .out = true) (s : State) :
    (State.copyOn s).blank K = s.blank K := by
  unfold State.copyOn
  simp (maxDischargeDepth := 9) only [copyEnds_blank, copyPump_blank, hregs, htwin, hout]

@[simp] theorem sendHandover_blank (K : Part → Bool) (hregs : K .regs = true) (hout : K .out = true) (s : State) (c base count : Nat) (next : Nat → Nat) :
    (State.sendHandover s c base count next).blank K = s.blank K := by
  unfold State.sendHandover
  simp (maxDischargeDepth := 9) only [each_blank, implies_true, twinSend_blank, hregs, hout]

@[simp] theorem detachOn_blank (K : Part → Bool) (hregs : K .regs = true) (hmgmt : K .mgmt = true) (hcol : K .col = true) (htwin : K .twin = true) (haer : K .aer = true) (hout : K .out = true) (s : State) :
    (State.detachOn s).blank K = s.blank K := by
  unfold State.detachOn
  simp (maxDischargeDepth := 9) only [each_blank, implies_true, ite_blank, ite_self, ctxIdle_blank, sendHandover_blank, setTwin_blank, hregs, hmgmt, hcol, htwin, haer, hout]

@[simp] theorem handbackOn_blank (K : Part → Bool) (hregs : K .regs = true) (hsw : K .sw = true) (htbl : K .tbl = true) (hmgmt : K .mgmt = true) (hcol : K .col = true) (htwin : K .twin = true) (haer : K .aer = true) (hout : K .out = true) (s : State) :
    (State.handbackOn s).blank K = s.blank K := by
  unfold State.handbackOn
  simp (maxDischargeDepth := 9) only [each_blank, implies_true, ite_blank, ite_self, abortSlots_blank, sendHandover_blank, setCtx_blank, setTwin_blank, hregs, hsw, htbl, hmgmt, hcol, htwin, haer, hout]

@[simp] theorem takeoverAborts_blank (K : Part → Bool) (hregs : K .regs = true) (hsw : K .sw = true) (htbl : K .tbl = true) (hmgmt : K .mgmt = true) (haer : K .aer = true) (s : State) (c : Nat) :
    (State.takeoverAborts s c).blank K = s.blank K := by
  unfold State.takeoverAborts
  simp (maxDischargeDepth := 9) only [each_blank, implies_true, sendAbort_blank, hregs, hsw, htbl, hmgmt, haer]

@[simp] theorem takeoverOn_blank (K : Part → Bool) (hregs : K .regs = true) (hsw : K .sw = true) (htbl : K .tbl = true) (hmgmt : K .mgmt = true) (htwin : K .twin = true) (haer : K .aer = true) (s : State) :
    (State.takeoverOn s).blank K = s.blank K := by
  unfold State.takeoverOn
  ((repeat' split) <;> first | with_reducible rfl | simp (maxDischargeDepth := 9) only [each_blank, implies_true, ite_blank, ite_self, alarm_blank, setTwin_blank, takeoverAborts_blank, hregs, hsw, htbl, hmgmt, htwin, haer])

@[simp] theorem tryVerify_blank (K : Part → Bool) (hregs : K .regs = true) (hmgmt : K .mgmt = true) (hcol : K .col = true) (htwin : K .twin = true) (haer : K .aer = true) (s : State) :
    (State.tryVerify s).blank K = s.blank K := by
  unfold State.tryVerify
  simp (maxDischargeDepth := 9) only [each_blank, implies_true, ite_blank, ite_self, alarmPlain_blank, attachFails_blank, bset_blank, setTwin_blank, hregs, hmgmt, hcol, htwin, haer]

@[simp] theorem twinTick_blank (K : Part → Bool) (hregs : K .regs = true) (hsw : K .sw = true) (htbl : K .tbl = true) (hmgmt : K .mgmt = true) (hcol : K .col = true) (htwin : K .twin = true) (haer : K .aer = true) (hout : K .out = true) (s : State) :
    (State.twinTick s).blank K = s.blank K := by
  unfold State.twinTick
  simp (maxDischargeDepth := 9) only [ite_blank, ite_self, bump_blank, copyOn_blank, detachOn_blank, handbackOn_blank, sendHello_blank, takeoverOn_blank, tryVerify_blank, hregs, hsw, htbl, hmgmt, hcol, htwin, haer, hout]

@[simp] theorem boundary_blank (K : Part → Bool) (hregs : K .regs = true) (hclk : K .clk = true) (hcal : K .cal = true) (hsw : K .sw = true) (htbl : K .tbl = true) (hpho : K .pho = true) (hmgmt : K .mgmt = true) (hcol : K .col = true) (htwin : K .twin = true) (haer : K .aer = true) (hdump : K .dump = true) (hsys : K .sys = true) (hout : K .out = true) (s : State) :
    (State.boundary s).blank K = s.blank K := by
  unfold State.boundary
  simp (maxDischargeDepth := 9) only [actCtxResets_blank, actPortResets_blank, applyRole_blank, chooseBanks_blank, countBankWaits_blank, countHolds_blank, freshTick_blank, liftCalendars_blank, startWindow_blank, twinBlocks_blank, twinTick_blank, hregs, hclk, hcal, hsw, htbl, hpho, hmgmt, hcol, htwin, haer, hdump, hsys, hout]

@[simp] theorem setPtpPort_blank (K : Part → Bool) (hclk : K .clk = true) (s : State) (p : PtpPort) :
    (State.setPtpPort s p).blank K = s.blank K := by
  unfold State.setPtpPort
  simp (maxDischargeDepth := 9) only [setClk_blank, hclk]

@[simp] theorem bestMaster_blank (K : Part → Bool) (hclk : K .clk = true) (s : State) :
    (State.bestMaster s).blank K = s.blank K := by
  unfold State.bestMaster
  simp (maxDischargeDepth := 9) only [setClk_blank, hclk]

@[simp] theorem ptpSolve_blank (K : Part → Bool) (hclk : K .clk = true) (hsys : K .sys = true) (s : State) (p : PtpPort) :
    (State.ptpSolve s p).blank K = s.blank K := by
  unfold State.ptpSolve
  ((repeat' split) <;> first | with_reducible rfl | simp (maxDischargeDepth := 9) only [setClk_blank, setPtpPort_blank, setSys_blank, hclk, hsys])

@[simp] theorem ptpRx_blank (K : Part → Bool) (hclk : K .clk = true) (hsys : K .sys = true) (hout : K .out = true) (s : State) (v : PtpVia) (m : Bytes) (rx : Nat) :
    (State.ptpRx s v m rx).blank K = s.blank K := by
  unfold State.ptpRx
  ((repeat' split) <;> first | with_reducible rfl | simp (maxDischargeDepth := 9) only [ite_blank, ite_self, bestMaster_blank, ptpSolve_blank, send_blank, setPtpPort_blank, hclk, hsys, hout])

@[simp] theorem announce_blank (K : Part → Bool) (hregs : K .regs = true) (hout : K .out = true) (s : State) (c : Nat) :
    (State.announce s c).blank K = s.blank K := by
  unfold State.announce
  simp (maxDischargeDepth := 9) only [twinSend_blank, hregs, hout]

@[simp] theorem ptpTx_blank (K : Part → Bool) (hclk : K .clk = true) (hout : K .out = true) (s : State) (v : PtpVia) (k : PtpKind) (tx : Nat) :
    (State.ptpTx s v k tx).blank K = s.blank K := by
  unfold State.ptpTx
  (dsimp only; (repeat' split) <;> first | with_reducible rfl | simp (maxDischargeDepth := 9) only [bestMaster_blank, send_blank, setPtpPort_blank, hclk, hout])

@[simp] theorem twinFreed_blank (K : Part → Bool) (htwin : K .twin = true) (s : State) (n : Nat) :
    (State.twinFreed s n).blank K = s.blank K := by
  unfold State.twinFreed
  simp (maxDischargeDepth := 9) only [setTwin_blank, htwin]

@[simp] theorem partnerMismatch_blank (K : Part → Bool) (hregs : K .regs = true) (hmgmt : K .mgmt = true) (hcol : K .col = true) (htwin : K .twin = true) (haer : K .aer = true) (s : State) :
    (State.partnerMismatch s).blank K = s.blank K := by
  unfold State.partnerMismatch
  simp (maxDischargeDepth := 9) only [alarmPlain_blank, attachFails_blank, hregs, hmgmt, hcol, htwin, haer]

@[simp] theorem judgeHello_blank (K : Part → Bool) (hregs : K .regs = true) (hmgmt : K .mgmt = true) (hcol : K .col = true) (htwin : K .twin = true) (haer : K .aer = true) (hout : K .out = true) (s : State) (p : Bytes) :
    (State.judgeHello s p).blank K = s.blank K := by
  unfold State.judgeHello
  simp (maxDischargeDepth := 9) only [ite_blank, ite_self, partnerMismatch_blank, rset_blank, setTwin_blank, twinSend_blank, hregs, hmgmt, hcol, htwin, haer, hout]

@[simp] theorem helloRx_blank (K : Part → Bool) (hregs : K .regs = true) (hmgmt : K .mgmt = true) (hcol : K .col = true) (htwin : K .twin = true) (haer : K .aer = true) (hsys : K .sys = true) (hout : K .out = true) (s : State) (p : Bytes) :
    (State.helloRx s p).blank K = s.blank K := by
  unfold State.helloRx
  ((repeat' split) <;> first | with_reducible rfl | simp (maxDischargeDepth := 9) only [judgeHello_blank, startAttach_blank, hregs, hmgmt, hcol, htwin, haer, hsys, hout])

@[simp] theorem beginCopy_blank (K : Part → Bool) (hregs : K .regs = true) (htwin : K .twin = true) (hout : K .out = true) (s : State) :
    (State.beginCopy s).blank K = s.blank K := by
  unfold State.beginCopy
  simp (maxDischargeDepth := 9) only [implies_true, each_blank, implies_true, announce_blank, copyOn_blank, rset_blank, setTwin_blank, hregs, htwin, hout]

@[simp] theorem proofRx_blank (K : Part → Bool) (hregs : K .regs = true) (hmgmt : K .mgmt = true) (hcol : K .col = true) (htwin : K .twin = true) (haer : K .aer = true) (hout : K .out = true) (s : State) (p : Bytes) :
    (State.proofRx s p).blank K = s.blank K := by
  unfold State.proofRx
  simp (maxDischargeDepth := 9) only [ite_blank, ite_self, beginCopy_blank, partnerMismatch_blank, hregs, hmgmt, hcol, htwin, haer, hout]

theorem configure_blank (K : Part → Bool) (hhbm : K .hbm = true) (hcol : K .col = true) (htwin : K .twin = true) {s t : State} {c : Nat} {p : Bytes} (h : s.configure c p = some t) :
    t.blank K = s.blank K := by
  unfold State.configure at h
  dsimp only at h
  split at h
  · cases h
  · injection h with h
    rw [← h]
    simp (maxDischargeDepth := 9) only [foldl_blank, ite_blank, ite_self, foldl_blank, implies_true, hzero_blank, setCol_blank, setCtx_blank, setTwin_blank, hhbm, hcol, htwin]

@[simp] theorem sendAccept_blank (K : Part → Bool) (hregs : K .regs = true) (hout : K .out = true) (s : State) (c : Nat) (code : Code) (reason : Nat) :
    (State.sendAccept s c code reason).blank K = s.blank K := by
  unfold State.sendAccept
  simp (maxDischargeDepth := 9) only [twinSend_blank, hregs, hout]

@[simp] theorem configRx_blank (K : Part → Bool) (hregs : K .regs = true) (hhbm : K .hbm = true) (hcol : K .col = true) (htwin : K .twin = true) (hout : K .out = true) (s : State) (p : Bytes) : (s.configRx p).blank K = s.blank K := by
  unfold State.configRx
  dsimp only
  split
  · rfl
  · split
    · simp (maxDischargeDepth := 9) only [ite_blank, ite_self, sendAccept_blank, setTwin_blank, hregs, htwin, hout]
    · split
      · simp (maxDischargeDepth := 9) only [sendAccept_blank, hregs, hout]
      · split
        · simp (maxDischargeDepth := 9) only [sendAccept_blank, hregs, hout]
        · rename_i t h
          have h2 := configure_blank K hhbm hcol htwin h
          simp (maxDischargeDepth := 9) only [h2, ite_blank, ite_self, sendAccept_blank, setTwin_blank, hregs, htwin, hout]

@[simp] theorem acceptRx_blank (K : Part → Bool) (hregs : K .regs = true) (hhbm : K .hbm = true) (hmgmt : K .mgmt = true) (hcol : K .col = true) (hout : K .out = true) (s : State) (p : Bytes) :
    (State.acceptRx s p).blank K = s.blank K := by
  unfold State.acceptRx
  (dsimp only; (repeat' split) <;> first | with_reducible rfl | simp (maxDischargeDepth := 9) only [acceptEnable_blank, refuseAsking_blank, hregs, hhbm, hmgmt, hcol, hout])

@[simp] theorem sendAck_blank (K : Part → Bool) (hregs : K .regs = true) (hout : K .out = true) (s : State) (kind c step n : Nat) :
    (State.sendAck s kind c step n).blank K = s.blank K := by
  unfold State.sendAck
  simp (maxDischargeDepth := 9) only [twinSend_blank, hregs, hout]

@[simp] theorem recordRx_blank (K : Part → Bool) (hregs : K .regs = true) (hcol : K .col = true) (htwin : K .twin = true) (hout : K .out = true) (s : State) (p : Bytes) :
    (State.recordRx s p).blank K = s.blank K := by
  unfold State.recordRx
  (dsimp only; (repeat' split) <;> first | with_reducible rfl | simp (maxDischargeDepth := 9) only [bump_blank, sendAck_blank, setCol_blank, setTwin_blank, hregs, hcol, htwin, hout])

@[simp] theorem ackRx_blank (K : Part → Bool) (hregs : K .regs = true) (hcol : K .col = true) (htwin : K .twin = true) (hout : K .out = true) (s : State) (p : Bytes) :
    (State.ackRx s p).blank K = s.blank K := by
  unfold State.ackRx
  (dsimp only; (repeat' split) <;> first | with_reducible rfl | simp (maxDischargeDepth := 9) only [bump_blank, copyOn_blank, setCol_blank, setTwin_blank, hregs, hcol, htwin, hout])

@[simp] theorem releasedRx_blank (K : Part → Bool) (hcol : K .col = true) (htwin : K .twin = true) (s : State) (p : Bytes) :
    (State.releasedRx s p).blank K = s.blank K := by
  unfold State.releasedRx
  simp (maxDischargeDepth := 9) only [setCol_blank, setTwin_blank, hcol, htwin]

@[simp] theorem ownCopy_blank (K : Part → Bool) (hhbm : K .hbm = true) (hcol : K .col = true) (s : State) (c : Nat) :
    (State.ownCopy s c).blank K = s.blank K := by
  unfold State.ownCopy
  (dsimp only; (repeat' split) <;> first | with_reducible rfl | simp (maxDischargeDepth := 9) only [foldl_blank, implies_true, hzero_blank, setCtx_blank, hhbm, hcol])

@[simp] theorem copyRx_blank (K : Part → Bool) (hregs : K .regs = true) (hhbm : K .hbm = true) (hcol : K .col = true) (htwin : K .twin = true) (hout : K .out = true) (s : State) (p : Bytes) :
    (State.copyRx s p).blank K = s.blank K := by
  unfold State.copyRx
  (dsimp only; (repeat' split) <;> first | with_reducible rfl | simp (maxDischargeDepth := 9) only [hwrite_blank, ownCopy_blank, sendAck_blank, setTwin_blank, twinFreed_blank, hregs, hhbm, hcol, htwin, hout])

@[simp] theorem copyEndRx_blank (K : Part → Bool) (hregs : K .regs = true) (hmgmt : K .mgmt = true) (hcol : K .col = true) (htwin : K .twin = true) (haer : K .aer = true) (s : State) (p : Bytes) :
    (State.copyEndRx s p).blank K = s.blank K := by
  unfold State.copyEndRx
  simp (maxDischargeDepth := 9) only [ite_blank, ite_self, setTwin_blank, tryVerify_blank, hregs, hmgmt, hcol, htwin, haer]

@[simp] theorem sendChunkDigests_blank (K : Part → Bool) (hregs : K .regs = true) (hout : K .out = true) (s : State) (c step : Nat) (ds : List (Nat × BitVec 64)) :
    (State.sendChunkDigests s c step ds).blank K = s.blank K := by
  unfold State.sendChunkDigests
  simp (maxDischargeDepth := 9) only [each_blank, implies_true, twinSend_blank, hregs, hout]

@[simp] theorem diverge_blank (K : Part → Bool) (hregs : K .regs = true) (hmgmt : K .mgmt = true) (haer : K .aer = true) (s : State) (c step low : Nat) :
    (State.diverge s c step low).blank K = s.blank K := by
  unfold State.diverge
  simp (maxDischargeDepth := 9) only [alarm_blank, attn_blank, bset_blank, bump_blank, ctxCtr_blank, hregs, hmgmt, haer]

@[simp] theorem compareStep_blank (K : Part → Bool) (hregs : K .regs = true) (hcol : K .col = true) (hout : K .out = true) (s : State) (c step : Nat) :
    (State.compareStep s c step).blank K = s.blank K := by
  unfold State.compareStep
  (dsimp only; (repeat' split) <;> first | with_reducible rfl | simp (maxDischargeDepth := 9) only [ctxCtr_blank, sendChunkDigests_blank, setCtx_blank, twinSend_blank, hregs, hcol, hout])

@[simp] theorem stepDigestRx_blank (K : Part → Bool) (hregs : K .regs = true) (hcol : K .col = true) (hout : K .out = true) (s : State) (p : Bytes) :
    (State.stepDigestRx s p).blank K = s.blank K := by
  unfold State.stepDigestRx
  simp (maxDischargeDepth := 9) only [ite_blank, ite_self, compareStep_blank, ctxCtr_blank, setCtx_blank, hregs, hcol, hout]

@[simp] theorem chunkDigestsRx_blank (K : Part → Bool) (hregs : K .regs = true) (hmgmt : K .mgmt = true) (hcol : K .col = true) (htwin : K .twin = true) (haer : K .aer = true) (hout : K .out = true) (s : State) (p : Bytes) :
    (State.chunkDigestsRx s p).blank K = s.blank K := by
  unfold State.chunkDigestsRx
  (dsimp only; (repeat' split) <;> first | with_reducible rfl | simp (maxDischargeDepth := 9) only [diverge_blank, sendChunkDigests_blank, setCtx_blank, setTwin_blank, hregs, hmgmt, hcol, htwin, haer, hout])

@[simp] theorem releaseMirror_blank (K : Part → Bool) (hregs : K .regs = true) (hsw : K .sw = true) (htbl : K .tbl = true) (hmgmt : K .mgmt = true) (hcol : K .col = true) (haer : K .aer = true) (s : State) (m : Mirror) :
    (State.releaseMirror s m).blank K = s.blank K := by
  unfold State.releaseMirror
  simp (maxDischargeDepth := 9) only [sendResult_blank, setCol_blank, setCtx_blank, takenDone_blank, hregs, hsw, htbl, hmgmt, hcol, haer]

@[simp] theorem adoptRuns_blank (K : Part → Bool) (hcol : K .col = true) (s : State) (m : Mirror) :
    (State.adoptRuns s m).blank K = s.blank K := by
  unfold State.adoptRuns
  simp (maxDischargeDepth := 9) only [each_blank, implies_true, ite_blank, ite_self, setCore_blank, hcol]

@[simp] theorem serveRange_blank (K : Part → Bool) (hregs : K .regs = true) (hsw : K .sw = true) (htbl : K .tbl = true) (hmgmt : K .mgmt = true) (hcol : K .col = true) (htwin : K .twin = true) (haer : K .aer = true) (s : State) (c : Nat) : (s.serveRange c).blank K = s.blank K := by
  unfold State.serveRange
  dsimp only
  refine (each_blank K _ _ _ fun s x => ?_).trans ?_
  · split <;> simp (maxDischargeDepth := 9) only [adoptRuns_blank, setCol_blank, setTwin_blank, hcol, htwin]
  · simp (maxDischargeDepth := 9) only [each_blank, implies_true, releaseMirror_blank, setCtx_blank, setTwin_blank, hregs, hsw, htbl, hmgmt, hcol, htwin, haer]

@[simp] theorem enterSolo_blank (K : Part → Bool) (hregs : K .regs = true) (hmgmt : K .mgmt = true) (hcol : K .col = true) (htwin : K .twin = true) (haer : K .aer = true) (s : State) :
    (State.enterSolo s).blank K = s.blank K := by
  unfold State.enterSolo
  simp (maxDischargeDepth := 9) only [alarm_blank, noAcks_blank, setTwin_blank, hregs, hmgmt, hcol, htwin, haer]

@[simp] theorem takeOver_blank (K : Part → Bool) (hregs : K .regs = true) (hsw : K .sw = true) (htbl : K .tbl = true) (hmgmt : K .mgmt = true) (hcol : K .col = true) (htwin : K .twin = true) (haer : K .aer = true) (s : State) :
    (State.takeOver s).blank K = s.blank K := by
  unfold State.takeOver
  simp (maxDischargeDepth := 9) only [each_blank, implies_true, bump_blank, serveRange_blank, setTwin_blank, hregs, hsw, htbl, hmgmt, hcol, htwin, haer]

@[simp] theorem partnerLost_blank (K : Part → Bool) (hregs : K .regs = true) (hsw : K .sw = true) (htbl : K .tbl = true) (hmgmt : K .mgmt = true) (hcol : K .col = true) (htwin : K .twin = true) (haer : K .aer = true) (s : State) :
    (State.partnerLost s).blank K = s.blank K := by
  unfold State.partnerLost
  simp (maxDischargeDepth := 9) only [ite_blank, ite_self, enterSolo_blank, takeOver_blank, hregs, hsw, htbl, hmgmt, hcol, htwin, haer]

@[simp] theorem hbCheck_blank (K : Part → Bool) (hregs : K .regs = true) (hsw : K .sw = true) (htbl : K .tbl = true) (hmgmt : K .mgmt = true) (hcol : K .col = true) (htwin : K .twin = true) (haer : K .aer = true) (s : State) :
    (State.hbCheck s).blank K = s.blank K := by
  unfold State.hbCheck
  simp (maxDischargeDepth := 9) only [ite_blank, ite_self, bump_blank, partnerLost_blank, setTwin_blank, hregs, hsw, htbl, hmgmt, hcol, htwin, haer]

@[simp] theorem noteNext_blank (K : Part → Bool) (htwin : K .twin = true) (s : State) (c chunk next : Nat) :
    (State.noteNext s c chunk next).blank K = s.blank K := by
  unfold State.noteNext
  simp (maxDischargeDepth := 9) only [setTwin_blank, htwin]

@[simp] theorem takeBack_blank (K : Part → Bool) (hregs : K .regs = true) (hsw : K .sw = true) (htbl : K .tbl = true) (hmgmt : K .mgmt = true) (hcol : K .col = true) (haer : K .aer = true) (s : State) (c first n : Nat) (next : Nat → Nat) :
    (State.takeBack s c first n next).blank K = s.blank K := by
  unfold State.takeBack
  simp (maxDischargeDepth := 9) only [each_blank, implies_true, sendAbort_blank, setCtx_blank, hregs, hsw, htbl, hmgmt, hcol, haer]

@[simp] theorem handoverRx_blank (K : Part → Bool) (hregs : K .regs = true) (hsw : K .sw = true) (htbl : K .tbl = true) (hmgmt : K .mgmt = true) (hcol : K .col = true) (htwin : K .twin = true) (haer : K .aer = true) (s : State) (p : Bytes) :
    (State.handoverRx s p).blank K = s.blank K := by
  unfold State.handoverRx
  simp (maxDischargeDepth := 9) only [each_blank, implies_true, ite_blank, ite_self, enterSolo_blank, noteNext_blank, serveRange_blank, setTwin_blank, takeBack_blank, hregs, hsw, htbl, hmgmt, hcol, htwin, haer]

@[simp] theorem heartbeatRx_blank (K : Part → Bool) (hregs : K .regs = true) (hmgmt : K .mgmt = true) (hcol : K .col = true) (htwin : K .twin = true) (haer : K .aer = true) (hout : K .out = true) (s : State) (p : Bytes) :
    (State.heartbeatRx s p).blank K = s.blank K := by
  unfold State.heartbeatRx
  (dsimp only; (repeat' split) <;> first | with_reducible rfl | simp (maxDischargeDepth := 9) only [attachFails_blank, copyOn_blank, detachOn_blank, enterSolo_blank, rset_blank, setTwin_blank, tryVerify_blank, twinDrain_blank, hregs, hmgmt, hcol, htwin, haer, hout])

@[simp] theorem resend_blank (K : Part → Bool) (hregs : K .regs = true) (htwin : K .twin = true) (hout : K .out = true) (s : State) (i : Nat) :
    (State.resend s i).blank K = s.blank K := by
  unfold State.resend
  ((repeat' split) <;> first | with_reducible rfl | simp (maxDischargeDepth := 9) only [setTwin_blank, twinOut_blank, hregs, htwin, hout])

@[simp] theorem twinRx_blank (K : Part → Bool) (hregs : K .regs = true) (s : State) (type : Nat) (frame : Bytes) (act : State → Bytes → State)
    (ha : ∀ s p, (act s p).blank K = s.blank K) : (s.twinRx type frame act).blank K = s.blank K := by
  unfold State.twinRx
  split
  · dsimp only
    split <;> simp (maxDischargeDepth := 9) only [ha, pmc_blank, hregs]
  · rfl

@[simp] theorem beginUpdate_blank (K : Part → Bool) (hregs : K .regs = true) (hcol : K .col = true) (htwin : K .twin = true) (hout : K .out = true) (s : State) (x : Slot) :
    (State.beginUpdate s x).blank K = s.blank K := by
  unfold State.beginUpdate
  simp (maxDischargeDepth := 9) only [ite_blank, ite_self, bump_blank, setSlot_blank, twinPush_blank, hregs, hcol, htwin, hout]

@[simp] theorem setMirror_blank (K : Part → Bool) (hcol : K .col = true) (s : State) (m : Mirror) :
    (State.setMirror s m).blank K = s.blank K := by
  unfold State.setMirror
  simp (maxDischargeDepth := 9) only [setCol_blank, hcol]

@[simp] theorem issueUu_blank (K : Part → Bool) (hregs : K .regs = true) (hcol : K .col = true) (htwin : K .twin = true) (hout : K .out = true) (s : State) (n : Nat) :
    (State.issueUu s n).blank K = s.blank K := by
  unfold State.issueUu
  (dsimp only; (repeat' split) <;> first | with_reducible rfl | simp (maxDischargeDepth := 9) only [beginUpdate_blank, chooseBanks_blank, setCore_blank, setMirror_blank, setUuState_blank, hregs, hcol, htwin, hout])

@[simp] theorem noteFail_blank (K : Part → Bool) (hcol : K .col = true) (s : State) (inv : Invocation) :
    (State.noteFail s inv).1.blank K = s.blank K := by
  unfold State.noteFail
  ((repeat' split) <;> first | with_reducible rfl | simp (maxDischargeDepth := 9) only [setMirror_blank, setSlot_blank, hcol])

@[simp] theorem spoilRegs_blank (K : Part → Bool) (hcol : K .col = true) (hsys : K .sys = true) (s : State) (n : Nat) :
    (State.spoilRegs s n).blank K = s.blank K := by
  unfold State.spoilRegs
  simp (maxDischargeDepth := 9) only [free_blank, setCore_blank, hcol, hsys]

@[simp] theorem uuFree_blank (K : Part → Bool) (hregs : K .regs = true) (hmgmt : K .mgmt = true) (hcol : K .col = true) (haer : K .aer = true) (s : State) (n : Nat) (chunkDone : Bool) :
    (State.uuFree s n chunkDone).blank K = s.blank K := by
  unfold State.uuFree
  simp (maxDischargeDepth := 9) only [ite_blank, ite_self, quarantineUu_blank, setCore_blank, setUuState_blank, startUuBist_blank, hregs, hmgmt, hcol, haer]

@[simp] theorem invocationFailed_blank (K : Part → Bool) (hregs : K .regs = true) (hmgmt : K .mgmt = true) (hcol : K .col = true) (haer : K .aer = true) (hsys : K .sys = true) (s : State) (n : Nat) (inv : Invocation) :
    (State.invocationFailed s n inv).blank K = s.blank K := by
  unfold State.invocationFailed
  simp (maxDischargeDepth := 9) only [ite_blank, ite_self, alarm_blank, bump32_blank, noteFail_blank, quarantineUu_blank, spoilRegs_blank, uuFree_blank, hregs, hmgmt, hcol, haer, hsys]

@[simp] theorem commitStores_blank (K : Part → Bool) (hhbm : K .hbm = true) (hsys : K .sys = true) (s : State) (stores : List (Nat × Bytes)) :
    (State.commitStores s stores).blank K = s.blank K := by
  unfold State.commitStores
  simp (maxDischargeDepth := 9) only [each_blank, implies_true, hwrite_blank, setSys_blank, hhbm, hsys]

@[simp] theorem countRun_blank (K : Part → Bool) (hregs : K .regs = true) (hmgmt : K .mgmt = true) (haer : K .aer = true) (s : State) (n : Nat) (r : ChunkRun) (g : Program) (x : PassSt) (count : Nat) :
    (State.countRun s n r g x count).blank K = s.blank K := by
  unfold State.countRun
  simp (maxDischargeDepth := 9) only [ite_blank, ite_self, alarm_blank, bump_blank, ctxCtr_blank, pmc_blank, hregs, hmgmt, haer]

@[simp] theorem mirrorRan_blank (K : Part → Bool) (hregs : K .regs = true) (hcol : K .col = true) (htwin : K .twin = true) (hout : K .out = true) (s : State) (m : Mirror) (r : ChunkRun) (x : PassSt) (passes : Nat) :
    (State.mirrorRan s m r x passes).blank K = s.blank K := by
  unfold State.mirrorRan
  simp (maxDischargeDepth := 9) only [ite_blank, ite_self, compareStep_blank, setCol_blank, setCtx_blank, setMirror_blank, twinFreed_blank, hregs, hcol, htwin, hout]

@[simp] theorem slotRan_blank (K : Part → Bool) (hcol : K .col = true) (s : State) (slot : Slot) (r : ChunkRun) (x : PassSt) (passes : Nat) :
    (State.slotRan s slot r x passes).blank K = s.blank K := by
  unfold State.slotRan
  simp (maxDischargeDepth := 9) only [ite_blank, ite_self, setSlot_blank, hcol]

@[simp] theorem commitRun_blank (K : Part → Bool) (hregs : K .regs = true) (hhbm : K .hbm = true) (hmgmt : K .mgmt = true) (hcol : K .col = true) (htwin : K .twin = true) (haer : K .aer = true) (hsys : K .sys = true) (hout : K .out = true) (s : State) (n : Nat) (inv : Invocation) (r : ChunkRun)
    (g : Program) (x : PassSt) : (s.commitRun n inv r g x).blank K = s.blank K := by
  unfold State.commitRun
  dsimp only
  split <;> split <;> simp (maxDischargeDepth := 9) only [commitStores_blank, countRun_blank, mirrorRan_blank, slotRan_blank, hregs, hhbm, hmgmt, hcol, htwin, haer, hsys, hout]

@[simp] theorem keepRegs_blank (K : Part → Bool) (hcol : K .col = true) (s : State) (n : Nat) (r : ChunkRun) (v : Map (List Nat)) :
    (State.keepRegs s n r v).blank K = s.blank K := by
  unfold State.keepRegs
  simp (maxDischargeDepth := 9) only [setCore_blank, hcol]

@[simp] theorem uuLimit_blank (K : Part → Bool) (hcol : K .col = true) (s : State) (n : Nat) :
    (State.uuLimit s n).blank K = s.blank K := by
  unfold State.uuLimit
  simp (maxDischargeDepth := 9) only [ite_blank, ite_self, setCore_blank, hcol]

@[simp] theorem invocationPassed_blank (K : Part → Bool) (hregs : K .regs = true) (hhbm : K .hbm = true) (hmgmt : K .mgmt = true) (hcol : K .col = true) (htwin : K .twin = true) (haer : K .aer = true) (hsys : K .sys = true) (hout : K .out = true) (s : State) (n : Nat) (inv : Invocation) :
    (s.invocationPassed n inv).blank K = s.blank K := by
  unfold State.invocationPassed
  dsimp only
  split <;> simp (maxDischargeDepth := 9) only [commitRun_blank, keepRegs_blank, uuFree_blank, uuLimit_blank, hregs, hhbm, hmgmt, hcol, htwin, haer, hsys, hout]

@[simp] theorem endInvocation_blank (K : Part → Bool) (hregs : K .regs = true) (hhbm : K .hbm = true) (hmgmt : K .mgmt = true) (hcol : K .col = true) (htwin : K .twin = true) (haer : K .aer = true) (hsys : K .sys = true) (hout : K .out = true) (s : State) (n : Nat) (fault : UuFault) (late : Bool) :
    (State.endInvocation s n fault late).blank K = s.blank K := by
  unfold State.endInvocation
  ((repeat' split) <;> first | with_reducible rfl | simp (maxDischargeDepth := 9) only [bump32_blank, bump_blank, invocationFailed_blank, invocationPassed_blank, setCore_blank, hregs, hhbm, hmgmt, hcol, htwin, haer, hsys, hout])

@[simp] theorem installProg_blank (K : Part → Bool) (hregs : K .regs = true) (hmgmt : K .mgmt = true) (hcol : K .col = true) (hout : K .out = true) (s : State) (c : Nat) :
    (State.installProg s c).blank K = s.blank K := by
  unfold State.installProg
  ((repeat' split) <;> first | with_reducible rfl | simp (maxDischargeDepth := 9) only [advance_blank, reply_blank, setCtx_blank, hregs, hmgmt, hcol, hout])

@[simp] theorem ungateUu_blank (K : Part → Bool) (hregs : K .regs = true) (hcol : K .col = true) (s : State) (n : Nat) :
    (State.ungateUu s n).blank K = s.blank K := by
  unfold State.ungateUu
  simp (maxDischargeDepth := 9) only [ite_blank, ite_self, startUuBist_blank, hregs, hcol]

@[simp] theorem sampleQueue_blank (K : Part → Bool) (hregs : K .regs = true) (s : State) (p vc : Nat) :
    (State.sampleQueue s p vc).blank K = s.blank K := by
  unfold State.sampleQueue
  simp (maxDischargeDepth := 9) only [rset_blank, hregs]

@[simp] theorem appendTrace_blank (K : Part → Bool) (hregs : K .regs = true) (hhbm : K .hbm = true) (s : State) (d : Nat) (rec_ : Bytes) :
    (State.appendTrace s d rec_).blank K = s.blank K := by
  unfold State.appendTrace
  simp (maxDischargeDepth := 9) only [hwrite_blank, rset_blank, hregs, hhbm]

@[simp] theorem traceDie_blank (K : Part → Bool) (hregs : K .regs = true) (hhbm : K .hbm = true) (s : State) (d : Nat) :
    (State.traceDie s d).blank K = s.blank K := by
  unfold State.traceDie
  simp (maxDischargeDepth := 9) only [each_blank, implies_true, ite_blank, ite_self, appendTrace_blank, hregs, hhbm]

@[simp] theorem sample_blank (K : Part → Bool) (hregs : K .regs = true) (hhbm : K .hbm = true) (hsys : K .sys = true) (s : State) :
    (State.sample s).blank K = s.blank K := by
  unfold State.sample
  simp (maxDischargeDepth := 9) only [each_blank, implies_true, sampleQueue_blank, setSys_blank, traceDie_blank, hregs, hhbm, hsys]

end Sys2Proof.Machine
end

