-- ==== Sys2Proof/Laws/Pages.lean ====
section
/-! SUPPORT. Addresses: the page of an address built from die, block, instance and offset, and of each named register. -/

namespace Sys2Proof.Machine

theorem bits_eq (v hi lo : Nat) : bits v hi lo = v / 2 ^ lo % 2 ^ (hi + 1 - lo) := by
  unfold bits
  rw [Nat.shiftRight_eq_div_pow]

theorem ofCode_code (b : Block) : Block.ofCode b.code = some b := by cases b <;> rfl

theorem code_lt (b : Block) : b.code < 22 := by cases b <;> decide

theorem addr_die (d c i o : Nat) (hd : d < 16) (hc : c < 256) (hi : i < 256) (ho : o < 4096) :
    (d * 268435456 + c * 1048576 + i * 4096 + o) / 268435456 % 16 = d := by omega

theorem addr_code (d c i o : Nat) (hc : c < 256) (hi : i < 256) (ho : o < 4096) :
    (d * 268435456 + c * 1048576 + i * 4096 + o) / 1048576 % 256 = c := by omega

theorem addr_inst (d c i o : Nat) (hi : i < 256) (ho : o < 4096) :
    (d * 268435456 + c * 1048576 + i * 4096 + o) / 4096 % 256 = i := by omega

theorem base_eq (p : Page) : p.base = p.die * 268435456 + p.block.code * 1048576 + p.inst * 4096 := by
  unfold Page.base
  norm_num

theorem bits_die (v : Nat) : bits v 31 28 = v / 268435456 % 16 := by
  have h := bits_eq v 31 28
  norm_num at h
  exact h
theorem bits_code (v : Nat) : bits v 27 20 = v / 1048576 % 256 := by
  have h := bits_eq v 27 20
  norm_num at h
  exact h
theorem bits_inst (v : Nat) : bits v 19 12 = v / 4096 % 256 := by
  have h := bits_eq v 19 12
  norm_num at h
  exact h

theorem pageOf_fields (p : Page) (a : Nat) (e1 : bits a 27 20 = p.block.code) (e2 : bits a 31 28 = p.die)
    (e3 : bits a 19 12 = p.inst) (he : p.exists_ = true) : pageOf a = some p := by
  unfold pageOf
  rw [e1, e2, e3, ofCode_code]
  exact if_pos he

theorem base_code (p : Page) (o : Nat) (hi : p.inst < 256) (ho : o < 4096) : bits (p.base + o) 27 20 = p.block.code := by
  have hc : p.block.code < 256 := lt_trans (code_lt p.block) (by decide)
  rw [bits_code, base_eq p]
  exact addr_code _ _ _ _ hc hi ho

theorem base_die (p : Page) (o : Nat) (hd : p.die < 16) (hi : p.inst < 256) (ho : o < 4096) :
    bits (p.base + o) 31 28 = p.die := by
  have hc : p.block.code < 256 := lt_trans (code_lt p.block) (by decide)
  rw [bits_die, base_eq p]
  exact addr_die _ _ _ _ hd hc hi ho

theorem base_inst (p : Page) (o : Nat) (hi : p.inst < 256) (ho : o < 4096) : bits (p.base + o) 19 12 = p.inst := by
  rw [bits_inst, base_eq p]
  exact addr_inst _ _ _ _ hi ho

/-- The page of an address (R309). -/
theorem pageOf_base (p : Page) (o : Nat) (hd : p.die < 16) (hi : p.inst < 256) (ho : o < 4096) (he : p.exists_ = true) :
    pageOf (p.base + o) = some p :=
  pageOf_fields p _ (base_code p o hi ho) (base_die p o hd hi ho) (base_inst p o hi ho) he

theorem base_off (p : Page) (o : Nat) (ho : o < 4096) : (p.base + o) % 4096 = o := by
  rw [base_eq]
  omega

theorem base_lt (p : Page) (o : Nat) (hd : p.die < 15) (hi : p.inst < 256) (ho : o < 4096) :
    p.base + o < 4026531840 := by
  have hc : p.block.code < 256 := lt_trans (code_lt p.block) (by decide)
  rw [base_eq]
  omega

/-- The pages of the named registers. -/
def glbPage : Page := ⟨8, .glb, 0⟩
def secPage : Page := ⟨8, .sec, 0⟩
def tickPage : Page := ⟨8, .tick, 0⟩
def telPage : Page := ⟨8, .tel, 0⟩
def dumpPage : Page := ⟨8, .dump, 0⟩
def twinPage : Page := ⟨8, .twin, 0⟩
def kitePage : Page := ⟨0, .kite, 0⟩
def elsPage (m : Nat) : Page := ⟨8, .els, m⟩
def ctxPage (c : Nat) : Page := ⟨8, .ctx, c⟩
def portPage (p : Nat) : Page := ⟨p / 256, .port, p % 256⟩
def calPage (p : Nat) : Page := ⟨p / 256, .cal, p % 256⟩
def engPage (e : Nat) : Page := ⟨e / 32, .eng, e % 32⟩
def uuPage (n : Nat) : Page := ⟨n / 8, .uu, n % 8⟩
/-- The LANE page of a lane. -/
def lanePg (l : Nat) : Page := if l < 2048 then ⟨l / 512, .lane, l % 512 / 2⟩ else ⟨8, .lane, (l - 2048) / 2⟩

theorem glbReg_base (o : Nat) : glbReg o = glbPage.base + o := rfl
theorem secReg_base (o : Nat) : secReg o = secPage.base + o := rfl
theorem tickReg_base (o : Nat) : tickReg o = tickPage.base + o := rfl
theorem telReg_base (o : Nat) : telReg o = telPage.base + o := rfl
theorem dumpReg_base (o : Nat) : dumpReg o = dumpPage.base + o := rfl
theorem twinReg_base (o : Nat) : twinReg o = twinPage.base + o := rfl
theorem kiteReg_base (o : Nat) : kiteReg o = kitePage.base + o := rfl
theorem elsReg_base (m o : Nat) : elsReg m o = (elsPage m).base + o := by
  have h := base_eq (elsPage m)
  simp only [elsPage, Block.code] at h
  unfold elsReg
  simp only [elsPage]
  omega
theorem ctxReg_base (c o : Nat) : ctxReg c o = (ctxPage c).base + o := by
  have h := base_eq (ctxPage c)
  simp only [ctxPage, Block.code] at h
  unfold ctxReg
  simp only [ctxPage]
  omega
theorem portReg_base (p o : Nat) : portReg p o = (portPage p).base + o := by
  have h := base_eq (portPage p)
  simp only [portPage, Block.code] at h
  unfold portReg
  simp only [portPage]
  omega
theorem calReg_base (p o : Nat) : calReg p o = (calPage p).base + o := by
  have h := base_eq (calPage p)
  simp only [calPage, Block.code] at h
  unfold calReg
  simp only [calPage]
  omega
theorem engReg_base (e o : Nat) : engReg e o = (engPage e).base + o := by
  have h := base_eq (engPage e)
  simp only [engPage, Block.code] at h
  unfold engReg
  simp only [engPage]
  omega
theorem uuReg_base (n o : Nat) : uuReg n o = (uuPage n).base + o := by
  have h := base_eq (uuPage n)
  simp only [uuPage, Block.code] at h
  unfold uuReg
  simp only [uuPage]
  omega
theorem lanePage_base (l : Nat) : lanePage l = (lanePg l).base := by
  have h := base_eq (lanePg l)
  unfold lanePage
  unfold lanePg at h ⊢
  by_cases h2 : l < 2048
  · simp only [h2, if_true, Block.code] at h ⊢; omega
  · simp only [h2, if_false, Block.code] at h ⊢; omega

theorem glbPage_exists : glbPage.exists_ = true := rfl
theorem secPage_exists : secPage.exists_ = true := rfl
theorem tickPage_exists : tickPage.exists_ = true := rfl
theorem telPage_exists : telPage.exists_ = true := rfl
theorem dumpPage_exists : dumpPage.exists_ = true := rfl
theorem twinPage_exists : twinPage.exists_ = true := rfl
theorem kitePage_exists : kitePage.exists_ = true := rfl
theorem elsPage_exists {m : Nat} (h : m < 32) : (elsPage m).exists_ = true := by
  simp [Page.exists_, elsPage, Block.instances, h]
theorem ctxPage_exists {c : Nat} (h : c < 256) : (ctxPage c).exists_ = true := by
  simp [Page.exists_, ctxPage, Block.instances, h]
theorem portPage_exists {p : Nat} (h : p < 1024) : (portPage p).exists_ = true := by
  unfold portPage Page.exists_ Block.instances
  simp; omega
theorem calPage_exists {p : Nat} (h : p < 1024) : (calPage p).exists_ = true := by
  unfold calPage Page.exists_ Block.instances
  simp; omega
theorem engPage_exists {e : Nat} (h : e < 128) : (engPage e).exists_ = true := by
  unfold engPage Page.exists_ Block.instances
  simp; omega
theorem uuPage_exists {n : Nat} (h : n < 32) : (uuPage n).exists_ = true := by
  unfold uuPage Page.exists_ Block.instances
  simp; omega
theorem lanePg_exists {l : Nat} (h : l < 2064) : (lanePg l).exists_ = true := by
  unfold lanePg
  by_cases h2 : l < 2048
  · have : ¬ l / 512 = 8 := by omega
    simp [Page.exists_, Block.instances, this, h2]; omega
  · simp [Page.exists_, Block.instances, h2]; omega

theorem portPage_number (p : Nat) : (portPage p).number = p := by
  simp [Page.number, portPage, Block.instances]; omega
theorem calPage_number (p : Nat) : (calPage p).number = p := by
  simp [Page.number, calPage, Block.instances]; omega
theorem engPage_number (e : Nat) : (engPage e).number = e := by
  simp [Page.number, engPage, Block.instances]; omega
theorem uuPage_number (n : Nat) : (uuPage n).number = n := by
  simp [Page.number, uuPage, Block.instances]; omega
theorem lanePg_lane (l : Nat) (h : l < 2064) : (lanePg l).lane = l / 2 * 2 := by
  unfold lanePg Page.lane Page.number
  by_cases h2 : l < 2048
  · have : ¬ l / 512 = 8 := by omega
    simp [Block.instances, this, h2]; omega
  · simp [h2]; omega

end Sys2Proof.Machine
end

