-- ==== Sys2Proof/Laws/Maps.lean ====
section
/-! SUPPORT. Sparse maps and association lists: what a lookup gives after a store. -/

namespace Sys2Proof.Machine

variable {α κ : Type}

@[simp] theorem mget_mput_same (m : Map α) (i : Nat) (x : α) : mget (mput m i x) i = some x := by
  induction m with
  | nil => simp [mput, mget]
  | cons kv r ih =>
    obtain ⟨k, v⟩ := kv
    simp only [mput]
    split
    · simp [mget]
    · split
      · simp [mget]
      · rename_i h1 h2
        simp [mget, Ne.symm h2, ih]

theorem mget_mput_ne (m : Map α) (i j : Nat) (x : α) (h : j ≠ i) : mget (mput m i x) j = mget m j := by
  induction m with
  | nil => simp [mput, mget, h.symm]
  | cons kv r ih =>
    obtain ⟨k, v⟩ := kv
    simp only [mput]
    split
    · simp [mget, h.symm]
    · split
      · rename_i h1 h2
        subst h2
        simp [mget, h.symm]
      · simp [mget, ih]

theorem mget_mput (m : Map α) (i j : Nat) (x : α) : mget (mput m i x) j = if j = i then some x else mget m j := by
  split
  · rename_i h; rw [h, mget_mput_same]
  · rename_i h; exact mget_mput_ne m i j x h

@[simp] theorem mget_mdel_same (m : Map α) (i : Nat) : mget (mdel m i) i = none := by
  induction m with
  | nil => rfl
  | cons kv r ih =>
    obtain ⟨k, v⟩ := kv
    by_cases h : k = i
    · simpa [mdel, h] using ih
    · simpa [mdel, h, mget] using ih

theorem mget_mdel_ne (m : Map α) (i j : Nat) (h : j ≠ i) : mget (mdel m i) j = mget m j := by
  induction m with
  | nil => rfl
  | cons kv r ih =>
    obtain ⟨k, v⟩ := kv
    by_cases hk : k = i
    · subst hk
      simpa [mdel, mget, h.symm] using ih
    · by_cases hj : k = j
      · subst hj
        simp [mdel, mget, hk]
      · simpa [mdel, mget, hk, hj] using ih

@[simp] theorem mgetD_mput_same (m : Map α) (i : Nat) (x d : α) : mgetD (mput m i x) i d = x := by
  simp [mgetD]

theorem mgetD_mput_ne (m : Map α) (i j : Nat) (x d : α) (h : j ≠ i) : mgetD (mput m i x) j d = mgetD m j d := by
  simp [mgetD, mget_mput_ne m i j x h]

@[simp] theorem mgetD_mupd_same (m : Map α) (i : Nat) (d : α) (f : α → α) : mgetD (mupd m i d f) i d = f (mgetD m i d) := by
  simp [mupd]

theorem mgetD_mupd_ne (m : Map α) (i j : Nat) (d e : α) (f : α → α) (h : j ≠ i) :
    mgetD (mupd m i d f) j e = mgetD m j e := by
  simp [mupd, mgetD_mput_ne m i j _ e h]

@[simp] theorem aget_aput_same [DecidableEq κ] (l : List (κ × α)) (i : κ) (x : α) : aget (aput l i x) i = some x := by
  induction l with
  | nil => simp [aput, aget]
  | cons kv r ih =>
    obtain ⟨k, v⟩ := kv
    by_cases h : k = i
    · simp [aput, aget, h]
    · simp [aput, aget, h, ih]

theorem aget_aput_ne [DecidableEq κ] (l : List (κ × α)) (i j : κ) (x : α) (h : j ≠ i) :
    aget (aput l i x) j = aget l j := by
  induction l with
  | nil => simp [aput, aget, h.symm]
  | cons kv r ih =>
    obtain ⟨k, v⟩ := kv
    by_cases hk : k = i
    · subst hk
      simp [aput, aget, h.symm]
    · by_cases hj : k = j
      · subst hj
        simp [aput, aget, hk]
      · simp [aput, aget, hk, hj, ih]

/-! Typed parts by number -/

@[simp] theorem State.port_setPort_same (s : State) (p : Nat) (g : PortSt → PortSt) : (s.setPort p g).port p = g (s.port p) := by
  simp [State.port, State.setPort]

theorem State.port_setPort_ne (s : State) (p q : Nat) (g : PortSt → PortSt) (h : q ≠ p) : (s.setPort p g).port q = s.port q := by
  simp [State.port, State.setPort, mgetD_mupd_ne _ _ _ _ _ _ h]

@[simp] theorem State.die_setDie_same (s : State) (d : Nat) (g : DieSt → DieSt) : (s.setDie d g).die d = g (s.die d) := by
  simp [State.die, State.setDie]

@[simp] theorem State.lane_setLane_same (s : State) (l : Nat) (g : LaneSt → LaneSt) : (s.setLane l g).lane l = g (s.lane l) := by
  simp [State.lane, State.setLane]

theorem State.lane_setLane_ne (s : State) (l k : Nat) (g : LaneSt → LaneSt) (h : k ≠ l) : (s.setLane l g).lane k = s.lane k := by
  simp [State.lane, State.setLane, mgetD_mupd_ne _ _ _ _ _ _ h]

@[simp] theorem State.carrier_setCarrier_same (s : State) (f w : Nat) (g : CarrierSt → CarrierSt) :
    (s.setCarrier f w g).carrier f w = g (s.carrier f w) := by
  simp [State.carrier, State.setCarrier]

@[simp] theorem State.els_setEls_same (s : State) (m : Nat) (g : ElsSt → ElsSt) : (s.setEls m g).els m = g (s.els m) := by
  simp [State.els, State.setEls]

@[simp] theorem State.ctx_setCtx_same (s : State) (c : Nat) (g : CtxSt → CtxSt) : (s.setCtx c g).ctx c = g (s.ctx c) := by
  simp [State.ctx, State.setCtx]

theorem State.ctx_setCtx_ne (s : State) (c d : Nat) (g : CtxSt → CtxSt) (h : d ≠ c) : (s.setCtx c g).ctx d = s.ctx d := by
  simp [State.ctx, State.setCtx, mgetD_mupd_ne _ _ _ _ _ _ h]

@[simp] theorem State.core_setCore_same (s : State) (n : Nat) (g : CoreSt → CoreSt) : (s.setCore n g).core n = g (s.core n) := by
  simp [State.core, State.setCore]

@[simp] theorem State.eng_setEng_same (s : State) (e : Nat) (g : EngSt → EngSt) : (s.setEng e g).eng e = g (s.eng e) := by
  simp [State.eng, State.setEng]

@[simp] theorem State.pcal_setPcal_same (s : State) (p : Nat) (g : PortCal → PortCal) : (s.setPcal p g).pcal p = g (s.pcal p) := by
  simp [State.pcal, State.setPcal]

end Sys2Proof.Machine
end

