-- ==== Sys2Proof/Laws/Registers.lean ====
section
/-! SUPPORT. Registers: what a read gives after a store, and the numbers that fields and counters make. -/

namespace Sys2Proof.Machine

/-! Reset values fit in a register -/

theorem reset_fits : ∀ b ∈ Block.all, ∀ d : Bool, ∀ r ∈ pageRegs b d, r.reset < 2 ^ 64 := by decide +kernel

theorem block_in_all (b : Block) : b ∈ Block.all := by cases b <;> decide

theorem resetOf_lt (a : Nat) : resetOf a < 2 ^ 64 := by
  unfold resetOf
  split
  · decide
  · split
    · rename_i p _
      split
      · rename_i r h
        unfold regAt at h
        split at h
        · split at h <;> (cases h; exact Nat.two_pow_pos 64)
        · exact reset_fits _ (block_in_all _) _ _ (List.mem_of_find?_eq_some h)
      · decide
    · decide

theorem State.rget_lt (s : State) (a : Nat) : s.rget a < 2 ^ 64 := by
  unfold State.rget
  split
  · exact BitVec.isLt _
  · exact resetOf_lt a

/-! Stores -/

@[simp] theorem State.rget_rset_same (s : State) (a v : Nat) : (s.rset a v).rget a = v % 2 ^ 64 := by
  unfold State.rget State.rset regsPut
  split <;> rename_i h
  · split at h <;> rename_i hv
    · simp at h
    · simp only [mget_mput_same, Option.some.injEq] at h
      rw [← h, BitVec.toNat_ofNat]
  · split at h <;> rename_i hv
    · have := congrArg BitVec.toNat hv
      rw [BitVec.toNat_ofNat, BitVec.toNat_ofNat, Nat.mod_eq_of_lt (resetOf_lt a)] at this
      exact this.symm
    · simp at h

theorem State.rget_rset_ne (s : State) (a b v : Nat) (h : b ≠ a) : (s.rset a v).rget b = s.rget b := by
  have hm : mget (regsPut s.regs a v) b = mget s.regs b := by
    unfold regsPut
    split
    · exact mget_mdel_ne _ _ _ h
    · exact mget_mput_ne _ _ _ _ h
  show (match mget (regsPut s.regs a v) b with | some v => v.toNat | none => resetOf b) = s.rget b
  rw [hm]
  rfl

theorem State.rget_congr {s t : State} (h : t.regs = s.regs) (a : Nat) : t.rget a = s.rget a := by
  unfold State.rget; rw [h]

/-- Storing what a register holds changes no read. -/
theorem State.rget_rset_self (s : State) (a b : Nat) : (s.rset a (s.rget a)).rget b = s.rget b := by
  by_cases h : b = a
  · subst h
    rw [State.rget_rset_same, Nat.mod_eq_of_lt (s.rget_lt b)]
  · exact s.rget_rset_ne a b _ h

theorem State.rget_bump (s : State) (a n : Nat) : (s.bump a n).rget a = satAdd 64 (s.rget a) n := by
  unfold State.bump
  rw [State.rget_rset_same, Nat.mod_eq_of_lt]
  unfold satAdd
  omega

theorem State.rget_bump_ne (s : State) (a b n : Nat) (h : b ≠ a) : (s.bump a n).rget b = s.rget b :=
  s.rget_rset_ne a b _ h

theorem State.rget_bump32 (s : State) (a n : Nat) : (s.bump32 a n).rget a = satAdd 32 (s.rget a) n := by
  unfold State.bump32
  rw [State.rget_rset_same, Nat.mod_eq_of_lt]
  unfold satAdd
  omega

theorem State.rget_bump32_ne (s : State) (a b n : Nat) (h : b ≠ a) : (s.bump32 a n).rget b = s.rget b :=
  s.rget_rset_ne a b _ h

theorem State.rget_fset_ne (s : State) (a b hi lo v : Nat) (h : b ≠ a) : (s.fset a hi lo v).rget b = s.rget b :=
  s.rget_rset_ne a b _ h

theorem State.rget_bset_ne (s : State) (a b i : Nat) (v : Bool) (h : b ≠ a) : (s.bset a i v).rget b = s.rget b :=
  s.rget_rset_ne a b _ h

theorem State.rget_advance_ne (s : State) (a b : Nat) (h : b ≠ a) : (s.advance a).rget b = s.rget b :=
  s.rget_rset_ne a b _ h

theorem State.rget_advance (s : State) (a : Nat) : (s.advance a).rget a = (s.rget a + 1) % 2 ^ 32 := by
  unfold State.advance
  rw [State.rget_rset_same, Nat.mod_eq_of_lt]
  exact lt_of_lt_of_le (Nat.mod_lt _ (by norm_num)) (by norm_num)

/-! Fields -/

theorem bits_le (v hi lo : Nat) : bits v hi lo * 2 ^ lo ≤ v := by
  unfold bits
  rw [Nat.shiftRight_eq_div_pow]
  calc v / 2 ^ lo % 2 ^ (hi + 1 - lo) * 2 ^ lo ≤ v / 2 ^ lo * 2 ^ lo := Nat.mul_le_mul_right _ (Nat.mod_le _ _)
    _ ≤ v := Nat.div_mul_le_self _ _

/-- A number as the bits above a field, the field, and the bits below it. -/
theorem bits_split (v hi lo : Nat) :
    v = v / 2 ^ lo / 2 ^ (hi + 1 - lo) * 2 ^ (hi + 1 - lo) * 2 ^ lo + bits v hi lo * 2 ^ lo + v % 2 ^ lo := by
  unfold bits
  rw [Nat.shiftRight_eq_div_pow, ← Nat.add_mul, Nat.div_add_mod', Nat.div_add_mod']

theorem putBits_eq (v hi lo f : Nat) :
    putBits v hi lo f
      = v / 2 ^ lo / 2 ^ (hi + 1 - lo) * 2 ^ (hi + 1 - lo) * 2 ^ lo + (f % 2 ^ (hi + 1 - lo)) * 2 ^ lo + v % 2 ^ lo := by
  have h := bits_split v hi lo
  unfold putBits
  omega

/-- A field reads what was put into it. -/
@[simp] theorem bits_putBits_same (v hi lo f : Nat) : bits (putBits v hi lo f) hi lo = f % 2 ^ (hi + 1 - lo) := by
  rw [putBits_eq]
  unfold bits
  rw [Nat.shiftRight_eq_div_pow, ← Nat.add_mul]
  have hp : 0 < 2 ^ lo := Nat.two_pow_pos lo
  rw [Nat.add_comm, Nat.add_mul_div_right _ _ hp, Nat.div_eq_of_lt (Nat.mod_lt _ hp), Nat.zero_add,
    Nat.add_comm, Nat.add_mul_mod_self_right, Nat.mod_mod]

theorem bits_mod64 (x hi lo : Nat) (h : hi < 64) : bits (x % 2 ^ 64) hi lo = bits x hi lo := by
  unfold bits
  rw [Nat.shiftRight_eq_div_pow, Nat.shiftRight_eq_div_pow]
  apply Nat.eq_of_testBit_eq
  intro i
  simp only [Nat.testBit_mod_two_pow, Nat.testBit_div_two_pow]
  by_cases hi2 : i < hi + 1 - lo
  · have : lo + i < 64 := by omega
    simp [hi2, Nat.add_comm, this]
  · simp [hi2]

/-- A field of a register reads what was stored in it. -/
theorem State.fget_fset_same (s : State) (a hi lo v : Nat) (h : hi < 64) :
    (s.fset a hi lo v).fget a hi lo = v % 2 ^ (hi + 1 - lo) := by
  unfold State.fget State.fset
  rw [State.rget_rset_same, bits_mod64 _ _ _ h, bits_putBits_same]

theorem State.fget_fset_ne (s : State) (a b hi lo hi' lo' v : Nat) (h : b ≠ a) :
    (s.fset a hi lo v).fget b hi' lo' = s.fget b hi' lo' := by
  unfold State.fget
  rw [State.rget_fset_ne _ _ _ _ _ _ h]

theorem State.fget_rset_ne (s : State) (a b hi lo v : Nat) (h : b ≠ a) : (s.rset a v).fget b hi lo = s.fget b hi lo := by
  unfold State.fget
  rw [State.rget_rset_ne _ _ _ _ h]

theorem State.fget_congr {s t : State} (a hi lo : Nat) (h : t.rget a = s.rget a) : t.fget a hi lo = s.fget a hi lo := by
  unfold State.fget
  rw [h]

end Sys2Proof.Machine
end

