-- ==== Sys2Proof/Laws/Requests.lean ====
section
/-! SUPPORT. Requests: what the checks of R290 leave of a request that passes them, and what a register command comes
to. -/

namespace Sys2Proof.Machine

/-! Taking up -/

theorem accept_only (s : State) (f : InFlight) : OnlyTouches [.mgmt] s (s.accept f) :=
  onlyTouches_of_blank (accept_blank _ (by decide) s f)

theorem acked_only (s : State) (p : Page) : OnlyTouches [.mgmt] s (s.acked p) :=
  onlyTouches_of_blank (acked_blank _ (by decide) s p)

theorem accept_regs (s : State) (f : InFlight) : (s.accept f).regs = s.regs := (accept_only s f).2 .regs (by decide)
theorem accept_flt (s : State) (f : InFlight) : (s.accept f).flt = s.flt := (accept_only s f).2 .flt (by decide)
theorem accept_dump (s : State) (f : InFlight) : (s.accept f).dump = s.dump := (accept_only s f).2 .dump (by decide)

theorem accept_sys (s : State) (f : InFlight) : (s.accept f).sys = s.sys := by
  unfold State.accept State.setSession
  dsimp only
  split <;> simp

theorem accept_cache (s : State) (f : InFlight) : (s.accept f).mgmt.cache = s.mgmt.cache := by
  unfold State.accept State.setSession State.setMgmt
  dsimp only
  split <;> rfl

theorem accept_hung (s : State) (f : InFlight) : (s.accept f).mgmt.hung = s.mgmt.hung := by
  unfold State.accept State.setSession State.setMgmt
  dsimp only
  split <;> rfl

theorem accept_inFlight (s : State) (f : InFlight) : (s.accept f).mgmt.inFlight = s.mgmt.inFlight ++ [f] := by
  unfold State.accept State.setSession State.setMgmt
  dsimp only
  split <;> rfl

theorem find_map_keep {α : Type} (l : List α) (p : α → Bool) (g : α → α) (hg : ∀ x, p (g x) = p x) :
    (l.map g).find? p = (l.find? p).map g := by
  induction l with
  | nil => rfl
  | cons a r ih =>
    simp only [List.map_cons, List.find?_cons, hg]
    split <;> simp [ih]

/-- Taking a request up changes no session's role. -/
theorem accept_role (s : State) (f : InFlight) (q : Req) : (s.accept f).role q = s.role q := by
  have hr : ∀ a, (s.accept f).rget a = s.rget a := State.rget_congr (accept_regs s f)
  unfold State.role State.bget
  rw [hr]
  split
  · rfl
  · have h : ((s.accept f).session q.session).map Session.admin = (s.session q.session).map Session.admin := by
      unfold State.accept State.setSession State.session State.setMgmt
      dsimp only
      split
      · rw [find_map_keep]
        · cases s.mgmt.sessions.find? fun x => x.id == q.session with
          | none => rfl
          | some x => simp only [Option.map_some]; split <;> rfl
        · intro x
          split <;> rfl
      · rfl
    revert h
    cases (s.accept f).session q.session <;> cases s.session q.session <;> simp
    intro h
    rw [h]

theorem accept_mc0Stopped (s : State) (f : InFlight) (op : Nat) : (s.accept f).mc0Stopped op = s.mc0Stopped op := by
  unfold State.mc0Stopped State.serveStage State.fatal
  rw [accept_flt, accept_dump, accept_sys]

theorem accept_cachedFor (s : State) (f : InFlight) : (s.accept f).cachedFor f = s.cachedFor f := by
  unfold State.cachedFor
  rw [accept_cache]

theorem accept_serveStage (s : State) (f : InFlight) : (s.accept f).serveStage = s.serveStage := by
  unfold State.serveStage State.fatal
  rw [accept_dump, accept_sys]

/-- A request that is taken up goes to its gate and its operation. -/
theorem serve_taken {s : State} {q : Req} {op : Nat} {body : Bytes} (h : TakenUp s q op body) (gate : State → Gate)
    (run : State → InFlight → State × Option Answer) (hg : (gate (taken s q op body)).refuses q op = none) :
    s.serve q op body gate run = match run (taken s q op body) (flightOf q op body) with
      | (t, some a) => t.reply (flightOf q op body) a
      | (t, none) => t := by
  unfold State.serve
  rw [h.answers, h.passes]
  have hm : (s.accept (flightOf q op body)).mc0Stopped op = false := by rw [accept_mc0Stopped]; exact h.runs
  have hc : (s.accept (flightOf q op body)).cachedFor (flightOf q op body) = none := by
    rw [accept_cachedFor]; exact h.fresh
  unfold taken at hg ⊢
  unfold flightOf at hm hc hg ⊢
  simp only [Bool.not_true, Bool.false_eq_true, if_false, hm, hc, hg]
  all_goals rfl

/-- A gate that admits lets every opcode through that HCP 1 serves. -/
theorem gate_admits (q : Req) (op : Nat) (h : hcp1Lacks op = false) : (Gate.mk true true true).refuses q op = none := by
  unfold Gate.refuses
  simp [h]

/-! Replies -/

theorem reply_only (s : State) (f : InFlight) (a : Answer) : OnlyTouches [.regs, .mgmt, .out] s (s.reply f a) :=
  onlyTouches_of_blank (reply_blank _ (by decide) (by decide) (by decide) s f a)

theorem each_induction_mem {α : Type} (P : State → Prop) (l : List α) (g : State → α → State) (s : State) (h0 : P s)
    (h : ∀ s, ∀ x ∈ l, P s → P (g s x)) : P (s.each l g) := by
  induction l generalizing s with
  | nil => exact h0
  | cons x r ih =>
    exact ih (g s x) (h s x (List.mem_cons_self ..) h0) fun t y hy ht => h t y (List.mem_cons_of_mem _ hy) ht

theorem rget_pmc (s : State) (base code n a : Nat) (h : a < base + 0x060 ∨ base + 0x0A0 ≤ a) :
    (s.pmc base code n).rget a = s.rget a := by
  unfold State.pmc
  refine each_induction_mem (fun t => t.rget a = s.rget a) _ _ _ rfl ?_
  intro t i hi ht
  have : i < 8 := List.mem_range.mp hi
  split
  · rw [State.rget_bump_ne _ _ _ _ (by omega), ht]
  · exact ht

theorem setMgmt_rget (s : State) (f : MgmtSt → MgmtSt) (a : Nat) : (s.setMgmt f).rget a = s.rget a := rfl

theorem setSession_rget (s : State) (i : BitVec 32) (f : Session → Session) (a : Nat) :
    (s.setSession i f).rget a = s.rget a := rfl

theorem rget_reply (s : State) (f : InFlight) (x : Answer) (a : Nat) (h : a ≠ GlbCtr.replyLost.reg) :
    (s.reply f x).rget a = s.rget a := by
  unfold State.reply
  split
  · have h1 : ∀ (s : State) (q : Req) (op : Nat) (x : Answer) (c : Bool), (s.sendReply q op x c).rget a = s.rget a := by
      intro s q op x c
      unfold State.sendReply
      dsimp only
      have h2 : ∀ (b : Bytes), (if s.portUp q.port then s.send (.reply q.port q.via b) else s.glbCtr .replyLost).rget a = s.rget a := by
        intro b
        split
        · rfl
        · exact State.rget_bump_ne _ _ _ _ h
      split
      · rw [setSession_rget]
        exact h2 _
      · exact h2 _
    show (((s.cacheReply f x).sendReply f.req f.opcode x false).freeTag f).reapSessions.rget a = _
    rw [show ∀ t : State, t.reapSessions.rget a = t.rget a from fun t => rfl,
      show ∀ t : State, (t.freeTag f).rget a = t.rget a from fun t => rfl, h1]
    rfl
  · rfl

/-! Register commands -/

/-- The state as a register command finds it: its tag in flight, its unit's run of timeouts ended. -/
def readied (s : State) (q : Req) (addr v : Nat) (p : Page) : State := (taken s q 0x02 (regBody addr v)).acked p

/-- Who a register command comes from. -/
def writerOf (s : State) (q : Req) (addr v : Nat) : Writer :=
  (taken s q 0x02 (regBody addr v)).writer q (some (flightOf q 0x02 (regBody addr v)))

theorem readied_blank (K : Part → Bool) (h : K .mgmt = true) (s : State) (q : Req) (addr v : Nat) (p : Page) :
    (readied s q addr v p).blank K = s.blank K := by
  unfold readied taken
  rw [acked_blank K h, accept_blank K h]

@[simp] theorem readied_regs (s : State) (q : Req) (addr v : Nat) (p : Page) : (readied s q addr v p).regs = s.regs := by
  unfold readied taken
  rw [(acked_only _ p).2 .regs (by decide), accept_regs]

@[simp] theorem readied_sys (s : State) (q : Req) (addr v : Nat) (p : Page) : (readied s q addr v p).sys = s.sys := by
  unfold readied taken State.acked State.setMgmt
  exact accept_sys s _

@[simp] theorem readied_hbm (s : State) (q : Req) (addr v : Nat) (p : Page) : (readied s q addr v p).hbm = s.hbm :=
  (onlyTouches_of_blank (l := [.mgmt]) (readied_blank _ (by decide) s q addr v p)).2 .hbm (by decide)

@[simp] theorem readied_clk (s : State) (q : Req) (addr v : Nat) (p : Page) : (readied s q addr v p).clk = s.clk :=
  (onlyTouches_of_blank (l := [.mgmt]) (readied_blank _ (by decide) s q addr v p)).2 .clk (by decide)

@[simp] theorem readied_cal (s : State) (q : Req) (addr v : Nat) (p : Page) : (readied s q addr v p).cal = s.cal :=
  (onlyTouches_of_blank (l := [.mgmt]) (readied_blank _ (by decide) s q addr v p)).2 .cal (by decide)

@[simp] theorem readied_sw (s : State) (q : Req) (addr v : Nat) (p : Page) : (readied s q addr v p).sw = s.sw :=
  (onlyTouches_of_blank (l := [.mgmt]) (readied_blank _ (by decide) s q addr v p)).2 .sw (by decide)

@[simp] theorem readied_tbl (s : State) (q : Req) (addr v : Nat) (p : Page) : (readied s q addr v p).tbl = s.tbl :=
  (onlyTouches_of_blank (l := [.mgmt]) (readied_blank _ (by decide) s q addr v p)).2 .tbl (by decide)

@[simp] theorem readied_pho (s : State) (q : Req) (addr v : Nat) (p : Page) : (readied s q addr v p).pho = s.pho :=
  (onlyTouches_of_blank (l := [.mgmt]) (readied_blank _ (by decide) s q addr v p)).2 .pho (by decide)

@[simp] theorem readied_fuse (s : State) (q : Req) (addr v : Nat) (p : Page) : (readied s q addr v p).fuse = s.fuse :=
  (onlyTouches_of_blank (l := [.mgmt]) (readied_blank _ (by decide) s q addr v p)).2 .fuse (by decide)

@[simp] theorem readied_col (s : State) (q : Req) (addr v : Nat) (p : Page) : (readied s q addr v p).col = s.col :=
  (onlyTouches_of_blank (l := [.mgmt]) (readied_blank _ (by decide) s q addr v p)).2 .col (by decide)

@[simp] theorem readied_twin (s : State) (q : Req) (addr v : Nat) (p : Page) : (readied s q addr v p).twin = s.twin :=
  (onlyTouches_of_blank (l := [.mgmt]) (readied_blank _ (by decide) s q addr v p)).2 .twin (by decide)

@[simp] theorem readied_aer (s : State) (q : Req) (addr v : Nat) (p : Page) : (readied s q addr v p).aer = s.aer :=
  (onlyTouches_of_blank (l := [.mgmt]) (readied_blank _ (by decide) s q addr v p)).2 .aer (by decide)

@[simp] theorem readied_flt (s : State) (q : Req) (addr v : Nat) (p : Page) : (readied s q addr v p).flt = s.flt :=
  (onlyTouches_of_blank (l := [.mgmt]) (readied_blank _ (by decide) s q addr v p)).2 .flt (by decide)

@[simp] theorem readied_dump (s : State) (q : Req) (addr v : Nat) (p : Page) : (readied s q addr v p).dump = s.dump :=
  (onlyTouches_of_blank (l := [.mgmt]) (readied_blank _ (by decide) s q addr v p)).2 .dump (by decide)

@[simp] theorem readied_out (s : State) (q : Req) (addr v : Nat) (p : Page) : (readied s q addr v p).out = s.out :=
  (onlyTouches_of_blank (l := [.mgmt]) (readied_blank _ (by decide) s q addr v p)).2 .out (by decide)

theorem targetPages_narrow {addr : Nat} {p : Page} (hp : pageOf addr = some p) (ha : addr < 4026531840) :
    targetPages addr = some [p] := by
  unfold targetPages
  have h : ¬ addr / 2 ^ 28 = 15 := by
    have : (2 : Nat) ^ 28 = 268435456 := by norm_num
    rw [this]; omega
  rw [if_neg h, hp]
  rfl

/-- A register command by an ADMIN source is a write of its word. -/
theorem serveReg_word {s : State} {q : Req} {addr v : Nat} {p : Page} (h : Commanded s q addr v)
    (hp : pageOf addr = some p) (ha : addr < 4026531840) (h4 : addr % 4 = 0) (hv : v < 4294967296) :
    s.serveReg q addr v =
      let o := (readied s q addr v p).wordWrite (writerOf s q addr v) p (addr % 4096) 4294967295 v
      match o.answer with
      | some a => o.state.reply (flightOf q 0x02 (regBody addr v)) a
      | none => o.state := by
  have hn : (BitVec.ofNat 32 addr).toNat = addr := by
    rw [BitVec.toNat_ofNat]
    exact Nat.mod_eq_of_lt (by norm_num; omega)
  have hw : (BitVec.ofNat 64 v).toNat = v := by
    rw [BitVec.toNat_ofNat]
    exact Nat.mod_eq_of_lt (by norm_num; omega)
  have hr : roleAddr addr = addr := by
    unfold roleAddr
    have : (2 : Nat) ^ 28 = 268435456 := by norm_num
    rw [this, if_neg (by omega)]
  have ht := targetPages_narrow hp ha
  have hadm : (taken s q 0x02 (regBody addr v)).isAdmin q = true := by
    unfold taken State.isAdmin
    rw [accept_role]
    exact h.admin
  have hst : 1 ≤ (taken s q 0x02 (regBody addr v)).serveStage := by
    unfold taken
    rw [accept_serveStage]
    exact h.stage
  have hh : (taken s q 0x02 (regBody addr v)).pageHung p = false := by
    unfold taken State.pageHung
    rw [accept_hung]
    exact h.reach p hp
  unfold State.serveReg State.serveWrite
  dsimp only
  rw [show writeBody ⟨BitVec.ofNat 32 addr, 1⟩ (BitVec.ofNat 64 v) = regBody addr v from rfl, serve_taken h.taken]
  · rw [hn, hw]
    unfold State.writeAt
    rw [ht]
    unfold State.writeOn
    simp only [hh, Bool.false_eq_true, if_false]
    have h1 : (1 : Byte).toNat = 1 := rfl
    have hm : Access.mask ⟨BitVec.ofNat 32 addr, 1⟩ = 4294967295 := by
      unfold Access.mask
      exact (if_neg (show ¬ (1 : Byte) = 2 by decide)).trans (by norm_num)
    unfold State.accessWrite
    have h2 : ¬ (1 : Byte).toNat = 2 := by decide
    rw [if_neg h2, hm]
    have e1 : 4294967295 % 2 ^ 32 = 4294967295 := by norm_num
    have e2 : v % 2 ^ 32 = v := Nat.mod_eq_of_lt (by norm_num; omega)
    rw [e1, e2]
    unfold readied writerOf
    generalize State.wordWrite _ _ _ _ _ _ = o
    unfold WriteOut.answer
    split <;> rename_i h3 <;> split at h3 <;> simp_all
  · rw [hn, hr, ht]
    have hb : (Gate.mk ((taken s q 2 (regBody addr v)).mayWrite q addr (accessBytes ⟨BitVec.ofNat 32 addr, 1⟩))
        ((taken s q 2 (regBody addr v)).stageWrites addr (accessBytes ⟨BitVec.ofNat 32 addr, 1⟩))
        (accessFits ⟨BitVec.ofNat 32 addr, 1⟩ && (some [p]).isSome)) = ⟨true, true, true⟩ := by
      congr 1
      · unfold State.mayWrite
        unfold State.isAdmin at hadm
        rw [hadm, Bool.true_or]
      · unfold State.stageWrites
        simp [hst]
      · unfold accessFits
        rw [hn]
        simp [h4]
    rw [hb]
    exact gate_admits q 2 rfl

/-- What a write stores before its effect (R317). -/
def storedFor (s : State) (p : Page) (off old : Nat) (d : Draft) : State :=
  if storesItself p off || d.value == old then s else s.storeReg p off d.value

/-- The draft of a write, with an unfit WIDTH put back. -/
def draftFor (s : State) (w : Writer) (p : Page) (r : RegDef) (v : Nat) : Draft :=
  let old := s.oldValue w p r.off
  let d := draftOf s.secLocked (fieldsFor p r) old 4294967295 v
  if p.block = .port ∧ r.off = 0x008 then d.fitWidth p.number old else d

/-- A write that nothing refuses comes to its effect. -/
theorem regWrite_effect (s : State) (w : Writer) (p : Page) (r : RegDef) (v : Nat) (d : Draft)
    (hidle : s.idlePage p = false) (hd : draftFor s w p r v = d) (hden : d.denied = false) (hbad : d.bad = false)
    (hone : onesOf d.cmds ≤ 1) (hj : s.judgeWrite w p r.off (s.oldValue w p r.off) d = none) (hmask : r.off ≠ 0x014)
    (e : Effect) (he : s.writeEffect (storedFor s p r.off (s.oldValue w p r.off) d) w p r.off (s.oldValue w p r.off) d = e)
    (hok : e.code = .ok) :
    s.regWrite w p r 4294967295 v =
      { state := (if d.changed && w.gen then e.state.advance (p.base + 0x01C) else e.state).countWrite w p, code := .ok,
        detail := e.detail, waits := e.waits } := by
  unfold State.regWrite
  unfold draftFor at hd
  simp only [hidle, Bool.false_and, Bool.false_eq_true, if_false]
  rw [hd, hden]
  simp only [Bool.false_eq_true, if_false]
  rw [if_neg (by omega), hj]
  dsimp only
  unfold State.applyWrite State.maskWritten
  unfold storedFor at he
  simp only [hbad, Bool.false_eq_true, if_false, hmask, false_and, he, hok, true_or, if_true, reduceCtorEq]

/-- `t` is `u` but for what replies and counts of writes change. -/
def Leaves (t u : State) : Prop :=
  ∀ K : Part → Bool, K .regs = true → K .mgmt = true → K .out = true → t.blank K = u.blank K

theorem Leaves.only {l : List Part} {s t u : State} (h : Leaves t u) (hl : [Part.regs, .mgmt, .out] ⊆ l)
    (h2 : u.blank (fun p => decide (p ∈ l)) = s.blank fun p => decide (p ∈ l)) : OnlyTouches l s t :=
  onlyTouches_of_blank ((h _ (decide_eq_true (hl (by simp))) (decide_eq_true (hl (by simp)))
    (decide_eq_true (hl (by simp)))).trans h2)

theorem Leaves.touches {t u : State} (h : Leaves t u) : OnlyTouches [.regs, .mgmt, .out] u t :=
  h.only (by simp) rfl

theorem Leaves.hbm {t u : State} (h : Leaves t u) : t.hbm = u.hbm := h.touches.2 .hbm (by decide)
theorem Leaves.clk {t u : State} (h : Leaves t u) : t.clk = u.clk := h.touches.2 .clk (by decide)
theorem Leaves.cal {t u : State} (h : Leaves t u) : t.cal = u.cal := h.touches.2 .cal (by decide)
theorem Leaves.sw {t u : State} (h : Leaves t u) : t.sw = u.sw := h.touches.2 .sw (by decide)
theorem Leaves.tbl {t u : State} (h : Leaves t u) : t.tbl = u.tbl := h.touches.2 .tbl (by decide)
theorem Leaves.pho {t u : State} (h : Leaves t u) : t.pho = u.pho := h.touches.2 .pho (by decide)
theorem Leaves.fuse {t u : State} (h : Leaves t u) : t.fuse = u.fuse := h.touches.2 .fuse (by decide)
theorem Leaves.col {t u : State} (h : Leaves t u) : t.col = u.col := h.touches.2 .col (by decide)
theorem Leaves.twin {t u : State} (h : Leaves t u) : t.twin = u.twin := h.touches.2 .twin (by decide)
theorem Leaves.aer {t u : State} (h : Leaves t u) : t.aer = u.aer := h.touches.2 .aer (by decide)
theorem Leaves.flt {t u : State} (h : Leaves t u) : t.flt = u.flt := h.touches.2 .flt (by decide)
theorem Leaves.dump {t u : State} (h : Leaves t u) : t.dump = u.dump := h.touches.2 .dump (by decide)
theorem Leaves.pending {t u : State} (h : Leaves t u) : t.pending = u.pending := h.touches.1
theorem Leaves.sys {t u : State} (h : Leaves t u) : t.sys.unpinned = u.sys.unpinned := h.touches.2 .sys (by decide)

/-- A register command by an ADMIN source that nothing refuses answers a next state: its effect, but for what replies and
counts of writes change. -/
theorem serveReg_effect {s : State} {q : Req} {addr v : Nat} {p : Page} {r : RegDef} (h : Commanded s q addr v)
    (hp : pageOf addr = some p) (ha : addr < 4026531840) (h4 : addr % 4 = 0) (hv : v < 4294967296)
    (hr : regAt p.block (p.die == 8) (addr % 4096) = some r) (hnarrow : r.wide = false)
    (hidle : (readied s q addr v p).idlePage p = false) {d : Draft}
    (hd : draftFor (readied s q addr v p) (writerOf s q addr v) p r v = d) (hden : d.denied = false)
    (hbad : d.bad = false) (hone : onesOf d.cmds ≤ 1) (hmask : r.off ≠ 0x014)
    (hj : (readied s q addr v p).judgeWrite (writerOf s q addr v) p r.off
      ((readied s q addr v p).oldValue (writerOf s q addr v) p r.off) d = none)
    {e : Effect}
    (he : (readied s q addr v p).writeEffect
      (storedFor (readied s q addr v p) p r.off ((readied s q addr v p).oldValue (writerOf s q addr v) p r.off) d)
      (writerOf s q addr v) p r.off ((readied s q addr v p).oldValue (writerOf s q addr v) p r.off) d = e)
    (hok : e.code = .ok) :
    ∃ t, done s (s.serveReg q addr v) = .next t
      ∧ Leaves t e.state
      ∧ ∀ a, (a < p.base + 0x060 ∨ p.base + 0x0A0 ≤ a) → a ≠ GlbCtr.replyLost.reg →
        t.rget a = (if d.changed then e.state.advance (p.base + 0x01C) else e.state).rget a := by
  have hg : (writerOf s q addr v).gen = true := rfl
  have hsec : (writerOf s q addr v).second = false := rfl
  have hword : (readied s q addr v p).wordWrite (writerOf s q addr v) p (addr % 4096) 4294967295 v =
      { state := (if d.changed then e.state.advance (p.base + 0x01C) else e.state).pmc p.base 4 1, code := .ok,
        detail := e.detail, waits := e.waits } := by
    unfold State.wordWrite
    rw [hr]
    dsimp only
    rw [hnarrow]
    simp only [Bool.false_eq_true, false_and, if_false]
    rw [regWrite_effect _ _ p r v d hidle hd hden hbad hone hj hmask e he hok]
    unfold State.countWrite
    simp only [hg, hsec, Bool.and_true, Bool.false_eq_true, if_false]
  rw [serveReg_word h hp ha h4 hv]
  dsimp only
  rw [hword]
  unfold WriteOut.answer
  dsimp only
  have key : ∀ u : State, (∀ K : Part → Bool, K .regs = true → K .mgmt = true → K .out = true → u.blank K = e.state.blank K) →
      (∀ a, (a < p.base + 0x060 ∨ p.base + 0x0A0 ≤ a) → a ≠ GlbCtr.replyLost.reg →
        u.rget a = (if d.changed then e.state.advance (p.base + 0x01C) else e.state).rget a) →
      e.state.pending = s.pending →
      ∃ t, done s u = .next t
      ∧ Leaves t e.state
      ∧ ∀ a, (a < p.base + 0x060 ∨ p.base + 0x0A0 ≤ a) → a ≠ GlbCtr.replyLost.reg →
        t.rget a = (if d.changed then e.state.advance (p.base + 0x01C) else e.state).rget a := by
    intro u hu hreg hpen
    refine ⟨_, rfl, ?_, ?_⟩
    · intro K h1 h2 h3
      have hu' := hu K h1 h2 h3
      rw [← hu']
      have hp2 : u.pending = s.pending := by
        have := congrArg State.pending hu'
        exact this.trans hpen
      have : ({ settle u with pending := s.pending } : State) = { settle u with pending := u.pending } := by rw [hp2]
      rw [this]
      exact settle_blank K u
    · intro a h1 h2
      exact hreg a h1 h2
  have hblank : ∀ K : Part → Bool, K .regs = true →
      (((if d.changed then e.state.advance (p.base + 0x01C) else e.state).pmc p.base 4 1)).blank K = e.state.blank K := by
    intro K h1
    rw [pmc_blank K h1]
    split
    · rw [advance_blank K h1]
    · rfl
  have hpen : e.state.pending = s.pending := by
    have hKt : ∀ q : Part, (fun _ => true : Part → Bool) q = true := fun _ => rfl
    have hst : (storedFor (readied s q addr v p) p r.off ((readied s q addr v p).oldValue (writerOf s q addr v) p r.off) d).blank
        (fun _ => true) = (readied s q addr v p).blank fun _ => true := by
      unfold storedFor
      split
      · rfl
      · exact storeReg_blank _ rfl _ _ _ _
    have hb : e.state.blank (fun _ => true) = (readied s q addr v p).blank fun _ => true := by
      rw [← he]
      exact writeEffect_blank (fun _ => true) rfl rfl rfl rfl rfl rfl rfl rfl rfl rfl rfl rfl rfl rfl rfl rfl _ _ hst _ _ _ _ _
    have := congrArg State.pending hb
    have h2 := congrArg State.pending (readied_blank (fun _ => true) rfl s q addr v p)
    exact this.trans h2
  cases hwt : e.waits
  · simp only [Bool.false_eq_true, if_false]
    refine key _ ?_ ?_ hpen
    · intro K h1 h2 h3
      rw [reply_blank K h1 h2 h3, hblank K h1]
    · intro a h1 h2
      rw [rget_reply _ _ _ _ h2, rget_pmc _ _ _ _ _ h1]
  · simp only [if_true]
    refine key _ ?_ ?_ hpen
    · intro K h1 h2 h3
      exact hblank K h1
    · intro a h1 h2
      rw [rget_pmc _ _ _ _ _ h1]

theorem accept_eq (s : State) (f : InFlight) : s.accept f = s.setMgmt fun _ => (s.accept f).mgmt := by
  unfold State.accept State.setSession State.setMgmt
  dsimp only
  split <;> rfl

theorem readied_eq (s : State) (q : Req) (addr v : Nat) (p : Page) :
    readied s q addr v p = s.setMgmt fun _ => (readied s q addr v p).mgmt := by
  unfold readied taken State.acked
  rw [accept_eq s]
  rfl

/-- What does not read the management part is the same before and after a request is taken up. -/
theorem readied_any {α : Type} (F : State → α) (hF : ∀ s g, F (State.setMgmt s g) = F s) (s : State) (q : Req)
    (addr v : Nat) (p : Page) : F (readied s q addr v p) = F s := by
  rw [readied_eq]
  exact hF _ _

@[simp] theorem readied_rget (s : State) (q : Req) (addr v : Nat) (p : Page) (a : Nat) :
    (readied s q addr v p).rget a = s.rget a := State.rget_congr (readied_regs ..) a

@[simp] theorem readied_fget (s : State) (q : Req) (addr v : Nat) (p : Page) (a hi lo : Nat) :
    (readied s q addr v p).fget a hi lo = s.fget a hi lo := State.fget_congr _ _ _ (readied_rget ..)

theorem readied_leads (s : State) (q : Req) (addr v : Nat) (p : Page) (n : Nat) :
    (readied s q addr v p).leads n = s.leads n := by
  have h : ∀ a, (readied s q addr v p).rget a = s.rget a := State.rget_congr (readied_regs s q addr v p)
  unfold State.leads State.widthCode State.fget
  simp only [h]

theorem readied_idlePage (s : State) (q : Req) (addr v : Nat) (p : Page) (o : Page) :
    (readied s q addr v p).idlePage o = s.idlePage o := by
  unfold State.idlePage
  rw [readied_leads]

/-- The command bits among `bs` that a 32-bit write sets. -/
def cmdsOf (bs : List Nat) (v : Nat) : Nat := bs.foldl (fun c b => c ||| (bits v b b &&& bits 4294967295 b b) * 2 ^ b) 0

theorem draftOf_cmds (locked : Bool) (bs : List Nat) (old v : Nat) :
    draftOf locked (bs.map fCmd) old 4294967295 v = { value := old, cmds := cmdsOf bs v } := by
  have h : ∀ (bs : List Nat) (c : Nat),
      (bs.map fCmd).foldl (Draft.take locked 4294967295 v) { value := old, cmds := c } =
        { value := old, cmds := bs.foldl (fun c b => c ||| (bits v b b &&& bits 4294967295 b b) * 2 ^ b) c } := by
    intro bs
    induction bs with
    | nil => intro c; rfl
    | cons b r ih => intro c; exact ih _
  exact h bs 0

/-- A block whose CTRL register holds command bits alone. -/
def cmdBlock : Block → Bool
  | .glb | .lane | .cal | .ctx | .eng | .uu | .els | .kite | .twin | .dump => true
  | _ => false

/-- A command bit of a CTRL register: its effect, but for what replies and counts of writes change. -/
theorem ctrl_command {s : State} {q : Req} {p : Page} {v c : Nat} {bs : List Nat} {e : Effect}
    (hd15 : p.die < 15) (hi : p.inst < 256) (hex : p.exists_ = true) (hblock : cmdBlock p.block = true)
    (h : Commanded s q (p.base + 8) v) (hv : v < 4294967296)
    (hr : regAt p.block (p.die == 8) 8 = some ⟨8, false, 0, bs.map fCmd⟩) (hc : cmdsOf bs v = c) (hone : onesOf c ≤ 1)
    (hidle : s.idlePage p = false) (hsec : p.block = .glb → q.hcp1 = false)
    (he : ∀ w old, w.fly = some (flightOf q 0x02 (regBody (p.base + 8) v)) →
      (readied s q (p.base + 8) v p).writeEffect (readied s q (p.base + 8) v p) w p 8 old { value := old, cmds := c } = e)
    (hok : e.code = .ok) :
    ∃ t, done s (s.serveReg q (p.base + 8) v) = .next t
      ∧ Leaves t e.state
      ∧ ∀ a, (a < p.base + 0x060 ∨ p.base + 0x0A0 ≤ a) → a ≠ GlbCtr.replyLost.reg → t.rget a = e.state.rget a := by
  have hp : pageOf (p.base + 8) = some p := pageOf_base p 8 (by omega) hi (by omega) hex
  have hlt := base_lt p 8 hd15 hi (by omega)
  have hoff := base_off p 8 (by omega)
  have hdr : draftFor (readied s q (p.base + 8) v p) (writerOf s q (p.base + 8) v) p ⟨8, false, 0, bs.map fCmd⟩ v =
      { value := (readied s q (p.base + 8) v p).oldValue (writerOf s q (p.base + 8) v) p 8, cmds := c } := by
    unfold draftFor
    have hnp : ¬(p.block = .port ∧ (8 : Nat) = 0x008) := by
      rintro ⟨h1, -⟩
      rw [h1] at hblock
      cases hblock
    have hf : fieldsFor p ⟨8, false, 0, bs.map fCmd⟩ = bs.map fCmd := by
      unfold fieldsFor
      rw [if_neg]
      rintro ⟨-, h2, -⟩
      exact absurd h2 (show ¬ (8 : Nat) = 0x120 by decide)
    dsimp only
    rw [if_neg hnp, hf, draftOf_cmds, hc]
  have hj : ∀ d, (readied s q (p.base + 8) v p).judgeWrite (writerOf s q (p.base + 8) v) p 8
      ((readied s q (p.base + 8) v p).oldValue (writerOf s q (p.base + 8) v) p 8) d = none := by
    intro d
    have hw : p.block = .glb → (writerOf s q (p.base + 8) v).secure = true := by
      intro hg
      have hadm : (taken s q 0x02 (regBody (p.base + 8) v)).role q = .admin := by
        have := h.admin
        unfold State.isAdmin at this
        unfold taken
        rw [accept_role]
        exact eq_of_beq this
      unfold writerOf State.writer
      simp [hsec hg, hadm]
    unfold State.judgeWrite
    cases hb : p.block <;> simp [cmdBlock, hb] at hblock hw ⊢
    · unfold State.judgeGlb
      simp [hw]
    · unfold State.judgeCtx ctxConfigOff kbankOf
      simp [memberWin]
  obtain ⟨t, ht, hK, hreg⟩ := serveReg_effect (r := ⟨8, false, 0, bs.map fCmd⟩)
    (d := { value := (readied s q (p.base + 8) v p).oldValue (writerOf s q (p.base + 8) v) p 8, cmds := c }) (e := e)
    h hp hlt (by have := base_eq p; omega) hv (by rw [hoff]; exact hr) rfl (by rw [readied_idlePage]; exact hidle) hdr rfl rfl hone
    (show ¬ (8 : Nat) = 0x014 by decide) (hj _)
    (by
      have hst : storedFor (readied s q (p.base + 8) v p) p 8
          ((readied s q (p.base + 8) v p).oldValue (writerOf s q (p.base + 8) v) p 8)
          { value := (readied s q (p.base + 8) v p).oldValue (writerOf s q (p.base + 8) v) p 8, cmds := c } =
            readied s q (p.base + 8) v p := by
        unfold storedFor
        simp
      dsimp only
      rw [hst]
      exact he _ _ rfl) hok
  exact ⟨t, ht, hK, hreg⟩

end Sys2Proof.Machine
end

