-- ==== Sys2Proof/Laws/Commands.lean ====
section
/-! SUPPORT. The command registers of each block: a command bit set by an ADMIN source comes to the block's operation, and
the registers of the page but its counters are as that operation leaves them. -/

namespace Sys2Proof.Machine

theorem replyLost_reg : GlbCtr.replyLost.reg = 2147484224 := rfl

/-- A command of ENG.CTRL by an ADMIN source. -/
theorem eng_command {s : State} {q : Req} {e v : Nat} (c : Nat) (he : e < 128) (h : Commanded s q (engReg e 0x008) v)
    (hv : v < 4294967296) (hc : cmdsOf [3, 2, 1, 0] v = c) (hone : onesOf c ≤ 1) {E : Effect}
    (hE : (readied s q (engReg e 8) v (engPage e)).engCommand e c = E) (hok : E.code = .ok) :
    ∃ t, done s (s.serveReg q (engReg e 8) v) = .next t ∧ Leaves t E.state
      ∧ ∀ o, (o < 0x60 ∨ 0xA0 ≤ o ∧ o < 4096) → t.rget (engReg e o) = E.state.rget (engReg e o) := by
  have hb : ∀ o, engReg e o = (engPage e).base + o := engReg_base e
  have h8 : ((engPage e).die == 8) = false := by
    unfold engPage; simp; omega
  have key : ∃ t, done s (s.serveReg q ((engPage e).base + 8) v) = .next t ∧ Leaves t E.state
      ∧ ∀ a, (a < (engPage e).base + 0x060 ∨ (engPage e).base + 0x0A0 ≤ a) → a ≠ GlbCtr.replyLost.reg → t.rget a = E.state.rget a := by
    rw [hb] at h hE
    refine ctrl_command (bs := [3, 2, 1, 0]) (c := c) ?_ ?_ (engPage_exists he) rfl h hv ?_ hc hone ?_ ?_ ?_ hok
    · unfold engPage; dsimp only; omega
    · unfold engPage; dsimp only; omega
    · rw [h8]; rfl
    · rfl
    · intro h; cases h
    · intro w old hw
      unfold State.writeEffect
      have hk : (engPage e).block = .eng := rfl
      rw [hk]
      rw [engPage_number]
      exact hE
  obtain ⟨t, ht, hK, hr⟩ := key
  refine ⟨t, by rw [hb]; exact ht, hK, ?_⟩
  intro o ho
  refine hr _ (by rw [hb]; omega) ?_
  rw [replyLost_reg]; unfold engReg; omega

/-- A command of UU.CTRL by an ADMIN source. -/
theorem uu_command {s : State} {q : Req} {n v : Nat} (c : Nat) (he : n < 32) (h : Commanded s q (uuReg n 0x008) v)
    (hv : v < 4294967296) (hc : cmdsOf [1, 0] v = c) (hone : onesOf c ≤ 1) {E : Effect}
    (hE : (readied s q (uuReg n 8) v (uuPage n)).uuCommand n c = E) (hok : E.code = .ok) :
    ∃ t, done s (s.serveReg q (uuReg n 8) v) = .next t ∧ Leaves t E.state
      ∧ ∀ o, (o < 0x60 ∨ 0xA0 ≤ o ∧ o < 4096) → t.rget (uuReg n o) = E.state.rget (uuReg n o) := by
  have hb : ∀ o, uuReg n o = (uuPage n).base + o := uuReg_base n
  have h8 : ((uuPage n).die == 8) = false := by
    unfold uuPage; simp; omega
  have key : ∃ t, done s (s.serveReg q ((uuPage n).base + 8) v) = .next t ∧ Leaves t E.state
      ∧ ∀ a, (a < (uuPage n).base + 0x060 ∨ (uuPage n).base + 0x0A0 ≤ a) → a ≠ GlbCtr.replyLost.reg → t.rget a = E.state.rget a := by
    rw [hb] at h hE
    refine ctrl_command (bs := [1, 0]) (c := c) ?_ ?_ (uuPage_exists he) rfl h hv ?_ hc hone ?_ ?_ ?_ hok
    · unfold uuPage; dsimp only; omega
    · unfold uuPage; dsimp only; omega
    · rw [h8]; rfl
    · rfl
    · intro h; cases h
    · intro w old hw
      unfold State.writeEffect
      have hk : (uuPage n).block = .uu := rfl
      rw [hk]
      rw [uuPage_number]
      exact hE
  obtain ⟨t, ht, hK, hr⟩ := key
  refine ⟨t, by rw [hb]; exact ht, hK, ?_⟩
  intro o ho
  refine hr _ (by rw [hb]; omega) ?_
  rw [replyLost_reg]; unfold uuReg; omega

/-- A command of CTX.CTRL by an ADMIN source. -/
theorem ctx_command {s : State} {q : Req} {n v : Nat} (c : Nat) (he : n < 256) (h : Commanded s q (ctxReg n 0x008) v)
    (hv : v < 4294967296) (hc : cmdsOf [3, 2, 1, 0] v = c) (hone : onesOf c ≤ 1) {E : Effect}
    (hE : ∀ w : Writer, w.fly = some (flightOf q 0x02 (regBody (ctxReg n 8) v)) →
      (readied s q (ctxReg n 8) v (ctxPage n)).ctxCommand w n c = E) (hok : E.code = .ok) :
    ∃ t, done s (s.serveReg q (ctxReg n 8) v) = .next t ∧ Leaves t E.state
      ∧ ∀ o, (o < 0x60 ∨ 0xA0 ≤ o ∧ o < 4096) → t.rget (ctxReg n o) = E.state.rget (ctxReg n o) := by
  have hb : ∀ o, ctxReg n o = (ctxPage n).base + o := ctxReg_base n
  have h8 : ((ctxPage n).die == 8) = true := by
    unfold ctxPage; simp
  have key : ∃ t, done s (s.serveReg q ((ctxPage n).base + 8) v) = .next t ∧ Leaves t E.state
      ∧ ∀ a, (a < (ctxPage n).base + 0x060 ∨ (ctxPage n).base + 0x0A0 ≤ a) → a ≠ GlbCtr.replyLost.reg → t.rget a = E.state.rget a := by
    rw [hb] at h hE
    refine ctrl_command (bs := [3, 2, 1, 0]) (c := c) ?_ ?_ (ctxPage_exists he) rfl h hv ?_ hc hone ?_ ?_ ?_ hok
    · unfold ctxPage; dsimp only; omega
    · unfold ctxPage; dsimp only; omega
    · rw [h8]; rfl
    · rfl
    · intro h; cases h
    · intro w old hw
      unfold State.writeEffect
      have hk : (ctxPage n).block = .ctx := rfl
      rw [hk]
      exact hE w hw
  obtain ⟨t, ht, hK, hr⟩ := key
  refine ⟨t, by rw [hb]; exact ht, hK, ?_⟩
  intro o ho
  refine hr _ (by rw [hb]; omega) ?_
  rw [replyLost_reg]; unfold ctxReg; omega

/-- A command of CAL.CTRL by an ADMIN source. -/
theorem cal_command {s : State} {q : Req} {n v : Nat} (c : Nat) (he : n < 1024) (h : Commanded s q (calReg n 0x008) v)
    (hv : v < 4294967296) (hc : cmdsOf [1, 0] v = c) (hone : onesOf c ≤ 1) (hidle : s.leads n = true) {E : Effect}
    (hE : (readied s q (calReg n 8) v (calPage n)).calCommand n c = E) (hok : E.code = .ok) :
    ∃ t, done s (s.serveReg q (calReg n 8) v) = .next t ∧ Leaves t E.state
      ∧ ∀ o, (o < 0x60 ∨ 0xA0 ≤ o ∧ o < 4096) → t.rget (calReg n o) = E.state.rget (calReg n o) := by
  have hb : ∀ o, calReg n o = (calPage n).base + o := calReg_base n
  have h8 : ((calPage n).die == 8) = false := by
    unfold calPage; simp; omega
  have key : ∃ t, done s (s.serveReg q ((calPage n).base + 8) v) = .next t ∧ Leaves t E.state
      ∧ ∀ a, (a < (calPage n).base + 0x060 ∨ (calPage n).base + 0x0A0 ≤ a) → a ≠ GlbCtr.replyLost.reg → t.rget a = E.state.rget a := by
    rw [hb] at h hE
    refine ctrl_command (bs := [1, 0]) (c := c) ?_ ?_ (calPage_exists he) rfl h hv ?_ hc hone ?_ ?_ ?_ hok
    · unfold calPage; dsimp only; omega
    · unfold calPage; dsimp only; omega
    · rw [h8]; rfl
    · unfold State.idlePage calPage; dsimp only; have : 256 * (n / 256) + n % 256 = n := by omega
      rw [this, hidle]; rfl
    · intro h; cases h
    · intro w old hw
      unfold State.writeEffect
      have hk : (calPage n).block = .cal := rfl
      rw [hk]
      rw [calPage_number]
      exact hE
  obtain ⟨t, ht, hK, hr⟩ := key
  refine ⟨t, by rw [hb]; exact ht, hK, ?_⟩
  intro o ho
  refine hr _ (by rw [hb]; omega) ?_
  rw [replyLost_reg]; unfold calReg; omega

/-- A command of ELS.CTRL by an ADMIN source. -/
theorem els_command {s : State} {q : Req} {n v : Nat} (c : Nat) (he : n < 32) (h : Commanded s q (elsReg n 0x008) v)
    (hv : v < 4294967296) (hc : cmdsOf [0] v = c) (hone : onesOf c ≤ 1) {E : Effect}
    (hc0 : c ≠ 0) (hE : ∀ w : Writer, w.fly = some (flightOf q 0x02 (regBody (elsReg n 8) v)) →
      (readied s q (elsReg n 8) v (elsPage n)).restoreEls w n = E) (hok : E.code = .ok) :
    ∃ t, done s (s.serveReg q (elsReg n 8) v) = .next t ∧ Leaves t E.state
      ∧ ∀ o, (o < 0x60 ∨ 0xA0 ≤ o ∧ o < 4096) → t.rget (elsReg n o) = E.state.rget (elsReg n o) := by
  have hb : ∀ o, elsReg n o = (elsPage n).base + o := elsReg_base n
  have h8 : ((elsPage n).die == 8) = true := by
    unfold elsPage; simp
  have key : ∃ t, done s (s.serveReg q ((elsPage n).base + 8) v) = .next t ∧ Leaves t E.state
      ∧ ∀ a, (a < (elsPage n).base + 0x060 ∨ (elsPage n).base + 0x0A0 ≤ a) → a ≠ GlbCtr.replyLost.reg → t.rget a = E.state.rget a := by
    rw [hb] at h hE
    refine ctrl_command (bs := [0]) (c := c) ?_ ?_ (elsPage_exists he) rfl h hv ?_ hc hone ?_ ?_ ?_ hok
    · unfold elsPage; dsimp only; omega
    · unfold elsPage; dsimp only; omega
    · rw [h8]; rfl
    · rfl
    · intro h; cases h
    · intro w old hw
      unfold State.writeEffect
      have hk : (elsPage n).block = .els := rfl
      rw [hk]
      dsimp only
      rw [if_pos ⟨rfl, hc0⟩]
      exact hE w hw
  obtain ⟨t, ht, hK, hr⟩ := key
  refine ⟨t, by rw [hb]; exact ht, hK, ?_⟩
  intro o ho
  refine hr _ (by rw [hb]; omega) ?_
  rw [replyLost_reg]; unfold elsReg; omega

/-- A command of KITE.CTRL by an ADMIN source. -/
theorem kite_command {s : State} {q : Req} {v : Nat} (c : Nat) (h : Commanded s q (kiteReg 0x008) v)
    (hv : v < 4294967296) (hc : cmdsOf [0] v = c) (hone : onesOf c ≤ 1) {E : Effect}
    (hc0 : c ≠ 0) (hE : Effect.ofPair (readied s q (kiteReg 8) v kitePage).kiteRelease = E) (hok : E.code = .ok) :
    ∃ t, done s (s.serveReg q (kiteReg 8) v) = .next t ∧ Leaves t E.state
      ∧ ∀ o, (o < 0x60 ∨ 0xA0 ≤ o ∧ o < 4096) → t.rget (kiteReg o) = E.state.rget (kiteReg o) := by
  have hb : ∀ o, kiteReg o = kitePage.base + o := kiteReg_base
  have key : ∃ t, done s (s.serveReg q (kitePage.base + 8) v) = .next t ∧ Leaves t E.state
      ∧ ∀ a, (a < kitePage.base + 0x060 ∨ kitePage.base + 0x0A0 ≤ a) → a ≠ GlbCtr.replyLost.reg → t.rget a = E.state.rget a := by
    rw [hb] at h hE
    refine ctrl_command (bs := [0]) (c := c) (by decide) (by decide) kitePage_exists rfl h hv rfl hc hone rfl ?_ ?_ hok
    · intro h; cases h
    · intro w old hw
      unfold State.writeEffect
      have hk : kitePage.block = .kite := rfl
      rw [hk]
      dsimp only
      rw [if_pos ⟨rfl, hc0⟩]
      exact hE
  obtain ⟨t, ht, hK, hr⟩ := key
  refine ⟨t, by rw [hb]; exact ht, hK, ?_⟩
  intro o ho
  refine hr _ (by rw [hb]; omega) ?_
  rw [replyLost_reg]; unfold kiteReg; omega

/-- A command of TWIN.CTRL by an ADMIN source. -/
theorem twin_command {s : State} {q : Req} {v : Nat} (c : Nat) (h : Commanded s q (twinReg 0x008) v)
    (hv : v < 4294967296) (hc : cmdsOf [2, 1, 0] v = c) (hone : onesOf c ≤ 1) {E : Effect}
    (hE : (readied s q (twinReg 8) v twinPage).twinCommand c = E) (hok : E.code = .ok) :
    ∃ t, done s (s.serveReg q (twinReg 8) v) = .next t ∧ Leaves t E.state
      ∧ ∀ o, (o < 0x60 ∨ 0xA0 ≤ o ∧ o < 4096) → t.rget (twinReg o) = E.state.rget (twinReg o) := by
  have hb : ∀ o, twinReg o = twinPage.base + o := twinReg_base
  have key : ∃ t, done s (s.serveReg q (twinPage.base + 8) v) = .next t ∧ Leaves t E.state
      ∧ ∀ a, (a < twinPage.base + 0x060 ∨ twinPage.base + 0x0A0 ≤ a) → a ≠ GlbCtr.replyLost.reg → t.rget a = E.state.rget a := by
    rw [hb] at h hE
    refine ctrl_command (bs := [2, 1, 0]) (c := c) (by decide) (by decide) twinPage_exists rfl h hv rfl hc hone rfl ?_ ?_ hok
    · intro h; cases h
    · intro w old hw
      unfold State.writeEffect
      have hk : twinPage.block = .twin := rfl
      rw [hk]
      dsimp only
      exact hE
  obtain ⟨t, ht, hK, hr⟩ := key
  refine ⟨t, by rw [hb]; exact ht, hK, ?_⟩
  intro o ho
  refine hr _ (by rw [hb]; omega) ?_
  rw [replyLost_reg]; unfold twinReg; omega

/-- A command of DUMP.CTRL by an ADMIN source. -/
theorem dump_command {s : State} {q : Req} {v : Nat} (c : Nat) (h : Commanded s q (dumpReg 0x008) v)
    (hv : v < 4294967296) (hc : cmdsOf [0] v = c) (hone : onesOf c ≤ 1) {E : Effect}
    (hc0 : c ≠ 0) (hE : (readied s q (dumpReg 8) v dumpPage).triggerDump = E) (hok : E.code = .ok) :
    ∃ t, done s (s.serveReg q (dumpReg 8) v) = .next t ∧ Leaves t E.state
      ∧ ∀ o, (o < 0x60 ∨ 0xA0 ≤ o ∧ o < 4096) → t.rget (dumpReg o) = E.state.rget (dumpReg o) := by
  have hb : ∀ o, dumpReg o = dumpPage.base + o := dumpReg_base
  have key : ∃ t, done s (s.serveReg q (dumpPage.base + 8) v) = .next t ∧ Leaves t E.state
      ∧ ∀ a, (a < dumpPage.base + 0x060 ∨ dumpPage.base + 0x0A0 ≤ a) → a ≠ GlbCtr.replyLost.reg → t.rget a = E.state.rget a := by
    rw [hb] at h hE
    refine ctrl_command (bs := [0]) (c := c) (by decide) (by decide) dumpPage_exists rfl h hv rfl hc hone rfl ?_ ?_ hok
    · intro h; cases h
    · intro w old hw
      unfold State.writeEffect
      have hk : dumpPage.block = .dump := rfl
      rw [hk]
      dsimp only
      rw [if_pos ⟨rfl, hc0⟩]
      exact hE
  obtain ⟨t, ht, hK, hr⟩ := key
  refine ⟨t, by rw [hb]; exact ht, hK, ?_⟩
  intro o ho
  refine hr _ (by rw [hb]; omega) ?_
  rw [replyLost_reg]; unfold dumpReg; omega

/-- A command of LANE.CTRL by an ADMIN source. -/
theorem lane_command {s : State} {q : Req} {l v : Nat} (c : Nat) (he : l < 2064) (h : Commanded s q (lanePage l + 8) v)
    (hv : v < 4294967296) (hc : cmdsOf [3, 2, 1, 0] v = c) (hone : onesOf c ≤ 1) {E : Effect}
    (hE : (readied s q (lanePage l + 8) v (lanePg l)).laneCommand (l / 2 * 2) c = E) (hok : E.code = .ok) :
    ∃ t, done s (s.serveReg q (lanePage l + 8) v) = .next t ∧ Leaves t E.state := by
  have hb := lanePage_base l
  rw [hb] at h hE ⊢
  have hblk : (lanePg l).block = .lane := by unfold lanePg; split <;> rfl
  obtain ⟨t, ht, hK, -⟩ : ∃ t, done s (s.serveReg q ((lanePg l).base + 8) v) = .next t ∧ Leaves t E.state
      ∧ ∀ a, (a < (lanePg l).base + 0x060 ∨ (lanePg l).base + 0x0A0 ≤ a) → a ≠ GlbCtr.replyLost.reg →
        t.rget a = E.state.rget a := by
    refine ctrl_command (bs := [3, 2, 1, 0]) (c := c) ?_ ?_ (lanePg_exists he) (by rw [hblk]; rfl) h hv ?_ hc hone ?_ ?_ ?_ hok
    · unfold lanePg; split <;> dsimp only <;> omega
    · unfold lanePg; split <;> dsimp only <;> omega
    · rw [hblk]; cases (lanePg l).die == 8 <;> rfl
    · unfold State.idlePage; rw [hblk]; rfl
    · rw [hblk]; intro h; cases h
    · intro w old hw
      unfold State.writeEffect
      rw [hblk, lanePg_lane l he]
      exact hE
  exact ⟨t, ht, hK⟩

end Sys2Proof.Machine
end

