-- ==== Sys2Proof/Laws/Reads.lean ====
section
/-! SUPPORT. Registers do not move with the typed parts: reads after an update of one; and what the flags' operations leave of
every part. -/

namespace Sys2Proof.Machine

@[simp] theorem State.rget_setSys (s : State) (g : SysSt → SysSt) (a : Nat) : (s.setSys g).rget a = s.rget a := rfl
@[simp] theorem State.rget_setClk (s : State) (g : TickSt → TickSt) (a : Nat) : (s.setClk g).rget a = s.rget a := rfl
@[simp] theorem State.rget_setSw (s : State) (g : SwitchSt → SwitchSt) (a : Nat) : (s.setSw g).rget a = s.rget a := rfl
@[simp] theorem State.rget_setTbl (s : State) (g : TableSt → TableSt) (a : Nat) : (s.setTbl g).rget a = s.rget a := rfl
@[simp] theorem State.rget_setPho (s : State) (g : PhotonSt → PhotonSt) (a : Nat) : (s.setPho g).rget a = s.rget a := rfl
@[simp] theorem State.rget_setMgmt (s : State) (g : MgmtSt → MgmtSt) (a : Nat) : (s.setMgmt g).rget a = s.rget a := rfl
@[simp] theorem State.rget_setFuse (s : State) (g : FuseSt → FuseSt) (a : Nat) : (s.setFuse g).rget a = s.rget a := rfl
@[simp] theorem State.rget_setCol (s : State) (g : CollectSt → CollectSt) (a : Nat) : (s.setCol g).rget a = s.rget a := rfl
@[simp] theorem State.rget_setTwin (s : State) (g : TwinSt → TwinSt) (a : Nat) : (s.setTwin g).rget a = s.rget a := rfl
@[simp] theorem State.rget_setAer (s : State) (g : AerSt → AerSt) (a : Nat) : (s.setAer g).rget a = s.rget a := rfl
@[simp] theorem State.rget_setFlt (s : State) (g : FaultSt → FaultSt) (a : Nat) : (s.setFlt g).rget a = s.rget a := rfl
@[simp] theorem State.rget_setDump (s : State) (g : DumpSt → DumpSt) (a : Nat) : (s.setDump g).rget a = s.rget a := rfl
@[simp] theorem State.rget_setCalSt (s : State) (g : CalSt → CalSt) (a : Nat) : (s.setCalSt g).rget a = s.rget a := rfl
@[simp] theorem State.rget_setPort (s : State) (n : Nat) (g : PortSt → PortSt) (a : Nat) : (s.setPort n g).rget a = s.rget a := rfl
@[simp] theorem State.rget_setDie (s : State) (n : Nat) (g : DieSt → DieSt) (a : Nat) : (s.setDie n g).rget a = s.rget a := rfl
@[simp] theorem State.rget_setLane (s : State) (n : Nat) (g : LaneSt → LaneSt) (a : Nat) : (s.setLane n g).rget a = s.rget a := rfl
@[simp] theorem State.rget_setEls (s : State) (n : Nat) (g : ElsSt → ElsSt) (a : Nat) : (s.setEls n g).rget a = s.rget a := rfl
@[simp] theorem State.rget_setCtx (s : State) (n : Nat) (g : CtxSt → CtxSt) (a : Nat) : (s.setCtx n g).rget a = s.rget a := rfl
@[simp] theorem State.rget_setCore (s : State) (n : Nat) (g : CoreSt → CoreSt) (a : Nat) : (s.setCore n g).rget a = s.rget a := rfl
@[simp] theorem State.rget_setEng (s : State) (n : Nat) (g : EngSt → EngSt) (a : Nat) : (s.setEng n g).rget a = s.rget a := rfl
@[simp] theorem State.rget_setPcal (s : State) (n : Nat) (g : PortCal → PortCal) (a : Nat) : (s.setPcal n g).rget a = s.rget a := rfl
@[simp] theorem State.rget_setCarrier (s : State) (m n : Nat) (g : CarrierSt → CarrierSt) (a : Nat) : (s.setCarrier m n g).rget a = s.rget a := rfl
@[simp] theorem State.rget_send (s : State) (x : Sent) (a : Nat) : (s.send x).rget a = s.rget a := rfl
@[simp] theorem State.rget_hwrite (s : State) (x : Nat) (b : Bytes) (a : Nat) : (s.hwrite x b).rget a = s.rget a := rfl
@[simp] theorem State.rget_atFc (s : State) (x : FcCycle) (a : Nat) : (s.atFc x).rget a = s.rget a := rfl

@[simp] theorem State.fget_setSys (s : State) (g : SysSt → SysSt) (a hi lo : Nat) : (s.setSys g).fget a hi lo = s.fget a hi lo := rfl
@[simp] theorem State.fget_setClk (s : State) (g : TickSt → TickSt) (a hi lo : Nat) : (s.setClk g).fget a hi lo = s.fget a hi lo := rfl
@[simp] theorem State.fget_setSw (s : State) (g : SwitchSt → SwitchSt) (a hi lo : Nat) : (s.setSw g).fget a hi lo = s.fget a hi lo := rfl
@[simp] theorem State.fget_setTbl (s : State) (g : TableSt → TableSt) (a hi lo : Nat) : (s.setTbl g).fget a hi lo = s.fget a hi lo := rfl
@[simp] theorem State.fget_setPho (s : State) (g : PhotonSt → PhotonSt) (a hi lo : Nat) : (s.setPho g).fget a hi lo = s.fget a hi lo := rfl
@[simp] theorem State.fget_setMgmt (s : State) (g : MgmtSt → MgmtSt) (a hi lo : Nat) : (s.setMgmt g).fget a hi lo = s.fget a hi lo := rfl
@[simp] theorem State.fget_setFuse (s : State) (g : FuseSt → FuseSt) (a hi lo : Nat) : (s.setFuse g).fget a hi lo = s.fget a hi lo := rfl
@[simp] theorem State.fget_setCol (s : State) (g : CollectSt → CollectSt) (a hi lo : Nat) : (s.setCol g).fget a hi lo = s.fget a hi lo := rfl
@[simp] theorem State.fget_setTwin (s : State) (g : TwinSt → TwinSt) (a hi lo : Nat) : (s.setTwin g).fget a hi lo = s.fget a hi lo := rfl
@[simp] theorem State.fget_setAer (s : State) (g : AerSt → AerSt) (a hi lo : Nat) : (s.setAer g).fget a hi lo = s.fget a hi lo := rfl
@[simp] theorem State.fget_setFlt (s : State) (g : FaultSt → FaultSt) (a hi lo : Nat) : (s.setFlt g).fget a hi lo = s.fget a hi lo := rfl
@[simp] theorem State.fget_setDump (s : State) (g : DumpSt → DumpSt) (a hi lo : Nat) : (s.setDump g).fget a hi lo = s.fget a hi lo := rfl
@[simp] theorem State.fget_setCalSt (s : State) (g : CalSt → CalSt) (a hi lo : Nat) : (s.setCalSt g).fget a hi lo = s.fget a hi lo := rfl
@[simp] theorem State.fget_setPort (s : State) (n : Nat) (g : PortSt → PortSt) (a hi lo : Nat) : (s.setPort n g).fget a hi lo = s.fget a hi lo := rfl
@[simp] theorem State.fget_setDie (s : State) (n : Nat) (g : DieSt → DieSt) (a hi lo : Nat) : (s.setDie n g).fget a hi lo = s.fget a hi lo := rfl
@[simp] theorem State.fget_setLane (s : State) (n : Nat) (g : LaneSt → LaneSt) (a hi lo : Nat) : (s.setLane n g).fget a hi lo = s.fget a hi lo := rfl
@[simp] theorem State.fget_setEls (s : State) (n : Nat) (g : ElsSt → ElsSt) (a hi lo : Nat) : (s.setEls n g).fget a hi lo = s.fget a hi lo := rfl
@[simp] theorem State.fget_setCtx (s : State) (n : Nat) (g : CtxSt → CtxSt) (a hi lo : Nat) : (s.setCtx n g).fget a hi lo = s.fget a hi lo := rfl
@[simp] theorem State.fget_setCore (s : State) (n : Nat) (g : CoreSt → CoreSt) (a hi lo : Nat) : (s.setCore n g).fget a hi lo = s.fget a hi lo := rfl
@[simp] theorem State.fget_setEng (s : State) (n : Nat) (g : EngSt → EngSt) (a hi lo : Nat) : (s.setEng n g).fget a hi lo = s.fget a hi lo := rfl
@[simp] theorem State.fget_setPcal (s : State) (n : Nat) (g : PortCal → PortCal) (a hi lo : Nat) : (s.setPcal n g).fget a hi lo = s.fget a hi lo := rfl
@[simp] theorem State.fget_setCarrier (s : State) (m n : Nat) (g : CarrierSt → CarrierSt) (a hi lo : Nat) : (s.setCarrier m n g).fget a hi lo = s.fget a hi lo := rfl
@[simp] theorem State.fget_send (s : State) (x : Sent) (a hi lo : Nat) : (s.send x).fget a hi lo = s.fget a hi lo := rfl
@[simp] theorem State.fget_hwrite (s : State) (x : Nat) (b : Bytes) (a hi lo : Nat) : (s.hwrite x b).fget a hi lo = s.fget a hi lo := rfl
@[simp] theorem State.fget_atFc (s : State) (x : FcCycle) (a hi lo : Nat) : (s.atFc x).fget a hi lo = s.fget a hi lo := rfl

@[simp] theorem State.bget_setSys (s : State) (g : SysSt → SysSt) (a i : Nat) : (s.setSys g).bget a i = s.bget a i := rfl
@[simp] theorem State.bget_setClk (s : State) (g : TickSt → TickSt) (a i : Nat) : (s.setClk g).bget a i = s.bget a i := rfl
@[simp] theorem State.bget_setSw (s : State) (g : SwitchSt → SwitchSt) (a i : Nat) : (s.setSw g).bget a i = s.bget a i := rfl
@[simp] theorem State.bget_setTbl (s : State) (g : TableSt → TableSt) (a i : Nat) : (s.setTbl g).bget a i = s.bget a i := rfl
@[simp] theorem State.bget_setPho (s : State) (g : PhotonSt → PhotonSt) (a i : Nat) : (s.setPho g).bget a i = s.bget a i := rfl
@[simp] theorem State.bget_setMgmt (s : State) (g : MgmtSt → MgmtSt) (a i : Nat) : (s.setMgmt g).bget a i = s.bget a i := rfl
@[simp] theorem State.bget_setFuse (s : State) (g : FuseSt → FuseSt) (a i : Nat) : (s.setFuse g).bget a i = s.bget a i := rfl
@[simp] theorem State.bget_setCol (s : State) (g : CollectSt → CollectSt) (a i : Nat) : (s.setCol g).bget a i = s.bget a i := rfl
@[simp] theorem State.bget_setTwin (s : State) (g : TwinSt → TwinSt) (a i : Nat) : (s.setTwin g).bget a i = s.bget a i := rfl
@[simp] theorem State.bget_setAer (s : State) (g : AerSt → AerSt) (a i : Nat) : (s.setAer g).bget a i = s.bget a i := rfl
@[simp] theorem State.bget_setFlt (s : State) (g : FaultSt → FaultSt) (a i : Nat) : (s.setFlt g).bget a i = s.bget a i := rfl
@[simp] theorem State.bget_setDump (s : State) (g : DumpSt → DumpSt) (a i : Nat) : (s.setDump g).bget a i = s.bget a i := rfl
@[simp] theorem State.bget_setCalSt (s : State) (g : CalSt → CalSt) (a i : Nat) : (s.setCalSt g).bget a i = s.bget a i := rfl
@[simp] theorem State.bget_setPort (s : State) (n : Nat) (g : PortSt → PortSt) (a i : Nat) : (s.setPort n g).bget a i = s.bget a i := rfl
@[simp] theorem State.bget_setDie (s : State) (n : Nat) (g : DieSt → DieSt) (a i : Nat) : (s.setDie n g).bget a i = s.bget a i := rfl
@[simp] theorem State.bget_setLane (s : State) (n : Nat) (g : LaneSt → LaneSt) (a i : Nat) : (s.setLane n g).bget a i = s.bget a i := rfl
@[simp] theorem State.bget_setEls (s : State) (n : Nat) (g : ElsSt → ElsSt) (a i : Nat) : (s.setEls n g).bget a i = s.bget a i := rfl
@[simp] theorem State.bget_setCtx (s : State) (n : Nat) (g : CtxSt → CtxSt) (a i : Nat) : (s.setCtx n g).bget a i = s.bget a i := rfl
@[simp] theorem State.bget_setCore (s : State) (n : Nat) (g : CoreSt → CoreSt) (a i : Nat) : (s.setCore n g).bget a i = s.bget a i := rfl
@[simp] theorem State.bget_setEng (s : State) (n : Nat) (g : EngSt → EngSt) (a i : Nat) : (s.setEng n g).bget a i = s.bget a i := rfl
@[simp] theorem State.bget_setPcal (s : State) (n : Nat) (g : PortCal → PortCal) (a i : Nat) : (s.setPcal n g).bget a i = s.bget a i := rfl
@[simp] theorem State.bget_setCarrier (s : State) (m n : Nat) (g : CarrierSt → CarrierSt) (a i : Nat) : (s.setCarrier m n g).bget a i = s.bget a i := rfl
@[simp] theorem State.bget_send (s : State) (x : Sent) (a i : Nat) : (s.send x).bget a i = s.bget a i := rfl
@[simp] theorem State.bget_hwrite (s : State) (x : Nat) (b : Bytes) (a i : Nat) : (s.hwrite x b).bget a i = s.bget a i := rfl
@[simp] theorem State.bget_atFc (s : State) (x : FcCycle) (a i : Nat) : (s.atFc x).bget a i = s.bget a i := rfl

/-! What the flags' operations leave -/

@[simp] theorem State.pmc_hbm (s : State) (base code n : Nat) : (s.pmc base code n).hbm = s.hbm := by
  unfold State.pmc
  refine State.each_hbm _ _ _ fun s x => ?_
  split <;> simp

@[simp] theorem State.pmc_clk (s : State) (base code n : Nat) : (s.pmc base code n).clk = s.clk := by
  unfold State.pmc
  refine State.each_clk _ _ _ fun s x => ?_
  split <;> simp

@[simp] theorem State.pmc_cal (s : State) (base code n : Nat) : (s.pmc base code n).cal = s.cal := by
  unfold State.pmc
  refine State.each_cal _ _ _ fun s x => ?_
  split <;> simp

@[simp] theorem State.pmc_sw (s : State) (base code n : Nat) : (s.pmc base code n).sw = s.sw := by
  unfold State.pmc
  refine State.each_sw _ _ _ fun s x => ?_
  split <;> simp

@[simp] theorem State.pmc_tbl (s : State) (base code n : Nat) : (s.pmc base code n).tbl = s.tbl := by
  unfold State.pmc
  refine State.each_tbl _ _ _ fun s x => ?_
  split <;> simp

@[simp] theorem State.pmc_pho (s : State) (base code n : Nat) : (s.pmc base code n).pho = s.pho := by
  unfold State.pmc
  refine State.each_pho _ _ _ fun s x => ?_
  split <;> simp

@[simp] theorem State.pmc_mgmt (s : State) (base code n : Nat) : (s.pmc base code n).mgmt = s.mgmt := by
  unfold State.pmc
  refine State.each_mgmt _ _ _ fun s x => ?_
  split <;> simp

@[simp] theorem State.pmc_fuse (s : State) (base code n : Nat) : (s.pmc base code n).fuse = s.fuse := by
  unfold State.pmc
  refine State.each_fuse _ _ _ fun s x => ?_
  split <;> simp

@[simp] theorem State.pmc_col (s : State) (base code n : Nat) : (s.pmc base code n).col = s.col := by
  unfold State.pmc
  refine State.each_col _ _ _ fun s x => ?_
  split <;> simp

@[simp] theorem State.pmc_twin (s : State) (base code n : Nat) : (s.pmc base code n).twin = s.twin := by
  unfold State.pmc
  refine State.each_twin _ _ _ fun s x => ?_
  split <;> simp

@[simp] theorem State.pmc_aer (s : State) (base code n : Nat) : (s.pmc base code n).aer = s.aer := by
  unfold State.pmc
  refine State.each_aer _ _ _ fun s x => ?_
  split <;> simp

@[simp] theorem State.pmc_flt (s : State) (base code n : Nat) : (s.pmc base code n).flt = s.flt := by
  unfold State.pmc
  refine State.each_flt _ _ _ fun s x => ?_
  split <;> simp

@[simp] theorem State.pmc_dump (s : State) (base code n : Nat) : (s.pmc base code n).dump = s.dump := by
  unfold State.pmc
  refine State.each_dump _ _ _ fun s x => ?_
  split <;> simp

@[simp] theorem State.pmc_sys (s : State) (base code n : Nat) : (s.pmc base code n).sys = s.sys := by
  unfold State.pmc
  refine State.each_sys _ _ _ fun s x => ?_
  split <;> simp

@[simp] theorem State.pmc_out (s : State) (base code n : Nat) : (s.pmc base code n).out = s.out := by
  unfold State.pmc
  refine State.each_out _ _ _ fun s x => ?_
  split <;> simp

@[simp] theorem State.pmc_pending (s : State) (base code n : Nat) : (s.pmc base code n).pending = s.pending := by
  unfold State.pmc
  refine State.each_pending _ _ _ fun s x => ?_
  split <;> simp

@[simp] theorem State.gainAttention_regs (s : State)  : (s.gainAttention ).regs = s.regs := by
  unfold State.gainAttention
  split <;> simp

@[simp] theorem State.gainAttention_hbm (s : State)  : (s.gainAttention ).hbm = s.hbm := by
  unfold State.gainAttention
  split <;> simp

@[simp] theorem State.gainAttention_clk (s : State)  : (s.gainAttention ).clk = s.clk := by
  unfold State.gainAttention
  split <;> simp

@[simp] theorem State.gainAttention_cal (s : State)  : (s.gainAttention ).cal = s.cal := by
  unfold State.gainAttention
  split <;> simp

@[simp] theorem State.gainAttention_sw (s : State)  : (s.gainAttention ).sw = s.sw := by
  unfold State.gainAttention
  split <;> simp

@[simp] theorem State.gainAttention_tbl (s : State)  : (s.gainAttention ).tbl = s.tbl := by
  unfold State.gainAttention
  split <;> simp

@[simp] theorem State.gainAttention_pho (s : State)  : (s.gainAttention ).pho = s.pho := by
  unfold State.gainAttention
  split <;> simp

@[simp] theorem State.gainAttention_fuse (s : State)  : (s.gainAttention ).fuse = s.fuse := by
  unfold State.gainAttention
  split <;> simp

@[simp] theorem State.gainAttention_col (s : State)  : (s.gainAttention ).col = s.col := by
  unfold State.gainAttention
  split <;> simp

@[simp] theorem State.gainAttention_twin (s : State)  : (s.gainAttention ).twin = s.twin := by
  unfold State.gainAttention
  split <;> simp

@[simp] theorem State.gainAttention_aer (s : State)  : (s.gainAttention ).aer = s.aer := by
  unfold State.gainAttention
  split <;> simp

@[simp] theorem State.gainAttention_flt (s : State)  : (s.gainAttention ).flt = s.flt := by
  unfold State.gainAttention
  split <;> simp

@[simp] theorem State.gainAttention_dump (s : State)  : (s.gainAttention ).dump = s.dump := by
  unfold State.gainAttention
  split <;> simp

@[simp] theorem State.gainAttention_sys (s : State)  : (s.gainAttention ).sys = s.sys := by
  unfold State.gainAttention
  split <;> simp

@[simp] theorem State.gainAttention_out (s : State)  : (s.gainAttention ).out = s.out := by
  unfold State.gainAttention
  split <;> simp

@[simp] theorem State.gainAttention_pending (s : State)  : (s.gainAttention ).pending = s.pending := by
  unfold State.gainAttention
  split <;> simp

@[simp] theorem State.attn_hbm (s : State) (base b : Nat) : (s.attn base b).hbm = s.hbm := by
  unfold State.attn
  dsimp only
  split
  · simp
  · split <;> simp

@[simp] theorem State.attn_clk (s : State) (base b : Nat) : (s.attn base b).clk = s.clk := by
  unfold State.attn
  dsimp only
  split
  · simp
  · split <;> simp

@[simp] theorem State.attn_cal (s : State) (base b : Nat) : (s.attn base b).cal = s.cal := by
  unfold State.attn
  dsimp only
  split
  · simp
  · split <;> simp

@[simp] theorem State.attn_sw (s : State) (base b : Nat) : (s.attn base b).sw = s.sw := by
  unfold State.attn
  dsimp only
  split
  · simp
  · split <;> simp

@[simp] theorem State.attn_tbl (s : State) (base b : Nat) : (s.attn base b).tbl = s.tbl := by
  unfold State.attn
  dsimp only
  split
  · simp
  · split <;> simp

@[simp] theorem State.attn_pho (s : State) (base b : Nat) : (s.attn base b).pho = s.pho := by
  unfold State.attn
  dsimp only
  split
  · simp
  · split <;> simp

@[simp] theorem State.attn_fuse (s : State) (base b : Nat) : (s.attn base b).fuse = s.fuse := by
  unfold State.attn
  dsimp only
  split
  · simp
  · split <;> simp

@[simp] theorem State.attn_col (s : State) (base b : Nat) : (s.attn base b).col = s.col := by
  unfold State.attn
  dsimp only
  split
  · simp
  · split <;> simp

@[simp] theorem State.attn_twin (s : State) (base b : Nat) : (s.attn base b).twin = s.twin := by
  unfold State.attn
  dsimp only
  split
  · simp
  · split <;> simp

@[simp] theorem State.attn_aer (s : State) (base b : Nat) : (s.attn base b).aer = s.aer := by
  unfold State.attn
  dsimp only
  split
  · simp
  · split <;> simp

@[simp] theorem State.attn_flt (s : State) (base b : Nat) : (s.attn base b).flt = s.flt := by
  unfold State.attn
  dsimp only
  split
  · simp
  · split <;> simp

@[simp] theorem State.attn_dump (s : State) (base b : Nat) : (s.attn base b).dump = s.dump := by
  unfold State.attn
  dsimp only
  split
  · simp
  · split <;> simp

@[simp] theorem State.attn_sys (s : State) (base b : Nat) : (s.attn base b).sys = s.sys := by
  unfold State.attn
  dsimp only
  split
  · simp
  · split <;> simp

@[simp] theorem State.attn_out (s : State) (base b : Nat) : (s.attn base b).out = s.out := by
  unfold State.attn
  dsimp only
  split
  · simp
  · split <;> simp

@[simp] theorem State.attn_pending (s : State) (base b : Nat) : (s.attn base b).pending = s.pending := by
  unfold State.attn
  dsimp only
  split
  · simp
  · split <;> simp

@[simp] theorem State.record_hbm (s : State) (base : Nat) (bit : Option Nat) (cause detail : Nat) (l : List AerLink) : (s.record base bit cause detail l).hbm = s.hbm := by
  unfold State.record
  dsimp only
  split <;> simp

@[simp] theorem State.record_clk (s : State) (base : Nat) (bit : Option Nat) (cause detail : Nat) (l : List AerLink) : (s.record base bit cause detail l).clk = s.clk := by
  unfold State.record
  dsimp only
  split <;> simp

@[simp] theorem State.record_cal (s : State) (base : Nat) (bit : Option Nat) (cause detail : Nat) (l : List AerLink) : (s.record base bit cause detail l).cal = s.cal := by
  unfold State.record
  dsimp only
  split <;> simp

@[simp] theorem State.record_sw (s : State) (base : Nat) (bit : Option Nat) (cause detail : Nat) (l : List AerLink) : (s.record base bit cause detail l).sw = s.sw := by
  unfold State.record
  dsimp only
  split <;> simp

@[simp] theorem State.record_tbl (s : State) (base : Nat) (bit : Option Nat) (cause detail : Nat) (l : List AerLink) : (s.record base bit cause detail l).tbl = s.tbl := by
  unfold State.record
  dsimp only
  split <;> simp

@[simp] theorem State.record_pho (s : State) (base : Nat) (bit : Option Nat) (cause detail : Nat) (l : List AerLink) : (s.record base bit cause detail l).pho = s.pho := by
  unfold State.record
  dsimp only
  split <;> simp

@[simp] theorem State.record_mgmt (s : State) (base : Nat) (bit : Option Nat) (cause detail : Nat) (l : List AerLink) : (s.record base bit cause detail l).mgmt = s.mgmt := by
  unfold State.record
  dsimp only
  split <;> simp

@[simp] theorem State.record_fuse (s : State) (base : Nat) (bit : Option Nat) (cause detail : Nat) (l : List AerLink) : (s.record base bit cause detail l).fuse = s.fuse := by
  unfold State.record
  dsimp only
  split <;> simp

@[simp] theorem State.record_col (s : State) (base : Nat) (bit : Option Nat) (cause detail : Nat) (l : List AerLink) : (s.record base bit cause detail l).col = s.col := by
  unfold State.record
  dsimp only
  split <;> simp

@[simp] theorem State.record_twin (s : State) (base : Nat) (bit : Option Nat) (cause detail : Nat) (l : List AerLink) : (s.record base bit cause detail l).twin = s.twin := by
  unfold State.record
  dsimp only
  split <;> simp

@[simp] theorem State.record_flt (s : State) (base : Nat) (bit : Option Nat) (cause detail : Nat) (l : List AerLink) : (s.record base bit cause detail l).flt = s.flt := by
  unfold State.record
  dsimp only
  split <;> simp

@[simp] theorem State.record_dump (s : State) (base : Nat) (bit : Option Nat) (cause detail : Nat) (l : List AerLink) : (s.record base bit cause detail l).dump = s.dump := by
  unfold State.record
  dsimp only
  split <;> simp

@[simp] theorem State.record_sys (s : State) (base : Nat) (bit : Option Nat) (cause detail : Nat) (l : List AerLink) : (s.record base bit cause detail l).sys = s.sys := by
  unfold State.record
  dsimp only
  split <;> simp

@[simp] theorem State.record_out (s : State) (base : Nat) (bit : Option Nat) (cause detail : Nat) (l : List AerLink) : (s.record base bit cause detail l).out = s.out := by
  unfold State.record
  dsimp only
  split <;> simp

@[simp] theorem State.record_pending (s : State) (base : Nat) (bit : Option Nat) (cause detail : Nat) (l : List AerLink) : (s.record base bit cause detail l).pending = s.pending := by
  unfold State.record
  dsimp only
  split <;> simp

@[simp] theorem State.alarm_hbm (s : State) (base b cause detail : Nat) (l : List AerLink) : (s.alarm base b cause detail l).hbm = s.hbm := by
  unfold State.alarm
  simp

@[simp] theorem State.alarm_clk (s : State) (base b cause detail : Nat) (l : List AerLink) : (s.alarm base b cause detail l).clk = s.clk := by
  unfold State.alarm
  simp

@[simp] theorem State.alarm_cal (s : State) (base b cause detail : Nat) (l : List AerLink) : (s.alarm base b cause detail l).cal = s.cal := by
  unfold State.alarm
  simp

@[simp] theorem State.alarm_sw (s : State) (base b cause detail : Nat) (l : List AerLink) : (s.alarm base b cause detail l).sw = s.sw := by
  unfold State.alarm
  simp

@[simp] theorem State.alarm_tbl (s : State) (base b cause detail : Nat) (l : List AerLink) : (s.alarm base b cause detail l).tbl = s.tbl := by
  unfold State.alarm
  simp

@[simp] theorem State.alarm_pho (s : State) (base b cause detail : Nat) (l : List AerLink) : (s.alarm base b cause detail l).pho = s.pho := by
  unfold State.alarm
  simp

@[simp] theorem State.alarm_fuse (s : State) (base b cause detail : Nat) (l : List AerLink) : (s.alarm base b cause detail l).fuse = s.fuse := by
  unfold State.alarm
  simp

@[simp] theorem State.alarm_col (s : State) (base b cause detail : Nat) (l : List AerLink) : (s.alarm base b cause detail l).col = s.col := by
  unfold State.alarm
  simp

@[simp] theorem State.alarm_twin (s : State) (base b cause detail : Nat) (l : List AerLink) : (s.alarm base b cause detail l).twin = s.twin := by
  unfold State.alarm
  simp

@[simp] theorem State.alarm_flt (s : State) (base b cause detail : Nat) (l : List AerLink) : (s.alarm base b cause detail l).flt = s.flt := by
  unfold State.alarm
  simp

@[simp] theorem State.alarm_dump (s : State) (base b cause detail : Nat) (l : List AerLink) : (s.alarm base b cause detail l).dump = s.dump := by
  unfold State.alarm
  simp

@[simp] theorem State.alarm_sys (s : State) (base b cause detail : Nat) (l : List AerLink) : (s.alarm base b cause detail l).sys = s.sys := by
  unfold State.alarm
  simp

@[simp] theorem State.alarm_out (s : State) (base b cause detail : Nat) (l : List AerLink) : (s.alarm base b cause detail l).out = s.out := by
  unfold State.alarm
  simp

@[simp] theorem State.alarm_pending (s : State) (base b cause detail : Nat) (l : List AerLink) : (s.alarm base b cause detail l).pending = s.pending := by
  unfold State.alarm
  simp

@[simp] theorem State.alarmPlain_hbm (s : State) (base b detail : Nat) : (s.alarmPlain base b detail).hbm = s.hbm := by
  unfold State.alarmPlain
  simp

@[simp] theorem State.alarmPlain_clk (s : State) (base b detail : Nat) : (s.alarmPlain base b detail).clk = s.clk := by
  unfold State.alarmPlain
  simp

@[simp] theorem State.alarmPlain_cal (s : State) (base b detail : Nat) : (s.alarmPlain base b detail).cal = s.cal := by
  unfold State.alarmPlain
  simp

@[simp] theorem State.alarmPlain_sw (s : State) (base b detail : Nat) : (s.alarmPlain base b detail).sw = s.sw := by
  unfold State.alarmPlain
  simp

@[simp] theorem State.alarmPlain_tbl (s : State) (base b detail : Nat) : (s.alarmPlain base b detail).tbl = s.tbl := by
  unfold State.alarmPlain
  simp

@[simp] theorem State.alarmPlain_pho (s : State) (base b detail : Nat) : (s.alarmPlain base b detail).pho = s.pho := by
  unfold State.alarmPlain
  simp

@[simp] theorem State.alarmPlain_fuse (s : State) (base b detail : Nat) : (s.alarmPlain base b detail).fuse = s.fuse := by
  unfold State.alarmPlain
  simp

@[simp] theorem State.alarmPlain_col (s : State) (base b detail : Nat) : (s.alarmPlain base b detail).col = s.col := by
  unfold State.alarmPlain
  simp

@[simp] theorem State.alarmPlain_twin (s : State) (base b detail : Nat) : (s.alarmPlain base b detail).twin = s.twin := by
  unfold State.alarmPlain
  simp

@[simp] theorem State.alarmPlain_flt (s : State) (base b detail : Nat) : (s.alarmPlain base b detail).flt = s.flt := by
  unfold State.alarmPlain
  simp

@[simp] theorem State.alarmPlain_dump (s : State) (base b detail : Nat) : (s.alarmPlain base b detail).dump = s.dump := by
  unfold State.alarmPlain
  simp

@[simp] theorem State.alarmPlain_sys (s : State) (base b detail : Nat) : (s.alarmPlain base b detail).sys = s.sys := by
  unfold State.alarmPlain
  simp

@[simp] theorem State.alarmPlain_out (s : State) (base b detail : Nat) : (s.alarmPlain base b detail).out = s.out := by
  unfold State.alarmPlain
  simp

@[simp] theorem State.alarmPlain_pending (s : State) (base b detail : Nat) : (s.alarmPlain base b detail).pending = s.pending := by
  unfold State.alarmPlain
  simp

/-! Typed parts by number -/

theorem State.port_of_sw {s t : State} (h : t.sw = s.sw) (p : Nat) : t.port p = s.port p := by
  unfold State.port
  rw [h]

theorem State.die_of_sw {s t : State} (h : t.sw = s.sw) (d : Nat) : t.die d = s.die d := by
  unfold State.die
  rw [h]

theorem State.lane_of_pho {s t : State} (h : t.pho = s.pho) (l : Nat) : t.lane l = s.lane l := by
  unfold State.lane
  rw [h]

theorem State.carrier_of_pho {s t : State} (h : t.pho = s.pho) (f w : Nat) : t.carrier f w = s.carrier f w := by
  unfold State.carrier
  rw [h]

theorem State.els_of_pho {s t : State} (h : t.pho = s.pho) (m : Nat) : t.els m = s.els m := by
  unfold State.els
  rw [h]

theorem State.ctx_of_col {s t : State} (h : t.col = s.col) (c : Nat) : t.ctx c = s.ctx c := by
  unfold State.ctx
  rw [h]

theorem State.core_of_col {s t : State} (h : t.col = s.col) (n : Nat) : t.core n = s.core n := by
  unfold State.core
  rw [h]

theorem State.eng_of_col {s t : State} (h : t.col = s.col) (e : Nat) : t.eng e = s.eng e := by
  unfold State.eng
  rw [h]

theorem State.pcal_of_cal {s t : State} (h : t.cal = s.cal) (p : Nat) : t.pcal p = s.pcal p := by
  unfold State.pcal
  rw [h]

@[simp] theorem State.port_rset (s : State) (x v : Nat) (p' : Nat) : (s.rset x v).port p' = s.port p' :=
  State.port_of_sw (s.rset_sw x v) p'
@[simp] theorem State.port_fset (s : State) (x hi lo v : Nat) (p' : Nat) : (s.fset x hi lo v).port p' = s.port p' :=
  State.port_of_sw (s.fset_sw x hi lo v) p'
@[simp] theorem State.port_bset (s : State) (x i : Nat) (b : Bool) (p' : Nat) : (s.bset x i b).port p' = s.port p' :=
  State.port_of_sw (s.bset_sw x i b) p'
@[simp] theorem State.port_bump (s : State) (x k : Nat) (p' : Nat) : (s.bump x k).port p' = s.port p' :=
  State.port_of_sw (s.bump_sw x k) p'
@[simp] theorem State.port_bump32 (s : State) (x k : Nat) (p' : Nat) : (s.bump32 x k).port p' = s.port p' :=
  State.port_of_sw (s.bump32_sw x k) p'
@[simp] theorem State.port_advance (s : State) (x : Nat) (p' : Nat) : (s.advance x).port p' = s.port p' :=
  State.port_of_sw (s.advance_sw x) p'
@[simp] theorem State.port_send (s : State) (x : Sent) (p' : Nat) : (s.send x).port p' = s.port p' :=
  State.port_of_sw (s.send_sw x) p'
@[simp] theorem State.port_portCtr (s : State) (x : PortCtr) (y k : Nat) (p' : Nat) : (s.portCtr x y k).port p' = s.port p' :=
  State.port_of_sw (s.portCtr_sw x y k) p'
@[simp] theorem State.port_ctxCtr (s : State) (x : CtxCtr) (y k : Nat) (p' : Nat) : (s.ctxCtr x y k).port p' = s.port p' :=
  State.port_of_sw (s.ctxCtr_sw x y k) p'
@[simp] theorem State.port_pmc (s : State) (base code n : Nat) (p' : Nat) : (s.pmc base code n).port p' = s.port p' :=
  State.port_of_sw (s.pmc_sw base code n) p'
@[simp] theorem State.port_gainAttention (s : State)  (p' : Nat) : (s.gainAttention ).port p' = s.port p' :=
  State.port_of_sw (s.gainAttention_sw ) p'
@[simp] theorem State.port_attn (s : State) (base b : Nat) (p' : Nat) : (s.attn base b).port p' = s.port p' :=
  State.port_of_sw (s.attn_sw base b) p'
@[simp] theorem State.port_record (s : State) (base : Nat) (bit : Option Nat) (cause detail : Nat) (l : List AerLink) (p' : Nat) : (s.record base bit cause detail l).port p' = s.port p' :=
  State.port_of_sw (s.record_sw base bit cause detail l) p'
@[simp] theorem State.port_alarm (s : State) (base b cause detail : Nat) (l : List AerLink) (p' : Nat) : (s.alarm base b cause detail l).port p' = s.port p' :=
  State.port_of_sw (s.alarm_sw base b cause detail l) p'
@[simp] theorem State.port_alarmPlain (s : State) (base b detail : Nat) (p' : Nat) : (s.alarmPlain base b detail).port p' = s.port p' :=
  State.port_of_sw (s.alarmPlain_sw base b detail) p'

@[simp] theorem State.die_rset (s : State) (x v : Nat) (d' : Nat) : (s.rset x v).die d' = s.die d' :=
  State.die_of_sw (s.rset_sw x v) d'
@[simp] theorem State.die_fset (s : State) (x hi lo v : Nat) (d' : Nat) : (s.fset x hi lo v).die d' = s.die d' :=
  State.die_of_sw (s.fset_sw x hi lo v) d'
@[simp] theorem State.die_bset (s : State) (x i : Nat) (b : Bool) (d' : Nat) : (s.bset x i b).die d' = s.die d' :=
  State.die_of_sw (s.bset_sw x i b) d'
@[simp] theorem State.die_bump (s : State) (x k : Nat) (d' : Nat) : (s.bump x k).die d' = s.die d' :=
  State.die_of_sw (s.bump_sw x k) d'
@[simp] theorem State.die_bump32 (s : State) (x k : Nat) (d' : Nat) : (s.bump32 x k).die d' = s.die d' :=
  State.die_of_sw (s.bump32_sw x k) d'
@[simp] theorem State.die_advance (s : State) (x : Nat) (d' : Nat) : (s.advance x).die d' = s.die d' :=
  State.die_of_sw (s.advance_sw x) d'
@[simp] theorem State.die_send (s : State) (x : Sent) (d' : Nat) : (s.send x).die d' = s.die d' :=
  State.die_of_sw (s.send_sw x) d'
@[simp] theorem State.die_portCtr (s : State) (x : PortCtr) (y k : Nat) (d' : Nat) : (s.portCtr x y k).die d' = s.die d' :=
  State.die_of_sw (s.portCtr_sw x y k) d'
@[simp] theorem State.die_ctxCtr (s : State) (x : CtxCtr) (y k : Nat) (d' : Nat) : (s.ctxCtr x y k).die d' = s.die d' :=
  State.die_of_sw (s.ctxCtr_sw x y k) d'
@[simp] theorem State.die_pmc (s : State) (base code n : Nat) (d' : Nat) : (s.pmc base code n).die d' = s.die d' :=
  State.die_of_sw (s.pmc_sw base code n) d'
@[simp] theorem State.die_gainAttention (s : State)  (d' : Nat) : (s.gainAttention ).die d' = s.die d' :=
  State.die_of_sw (s.gainAttention_sw ) d'
@[simp] theorem State.die_attn (s : State) (base b : Nat) (d' : Nat) : (s.attn base b).die d' = s.die d' :=
  State.die_of_sw (s.attn_sw base b) d'
@[simp] theorem State.die_record (s : State) (base : Nat) (bit : Option Nat) (cause detail : Nat) (l : List AerLink) (d' : Nat) : (s.record base bit cause detail l).die d' = s.die d' :=
  State.die_of_sw (s.record_sw base bit cause detail l) d'
@[simp] theorem State.die_alarm (s : State) (base b cause detail : Nat) (l : List AerLink) (d' : Nat) : (s.alarm base b cause detail l).die d' = s.die d' :=
  State.die_of_sw (s.alarm_sw base b cause detail l) d'
@[simp] theorem State.die_alarmPlain (s : State) (base b detail : Nat) (d' : Nat) : (s.alarmPlain base b detail).die d' = s.die d' :=
  State.die_of_sw (s.alarmPlain_sw base b detail) d'

@[simp] theorem State.lane_rset (s : State) (x v : Nat) (l' : Nat) : (s.rset x v).lane l' = s.lane l' :=
  State.lane_of_pho (s.rset_pho x v) l'
@[simp] theorem State.lane_fset (s : State) (x hi lo v : Nat) (l' : Nat) : (s.fset x hi lo v).lane l' = s.lane l' :=
  State.lane_of_pho (s.fset_pho x hi lo v) l'
@[simp] theorem State.lane_bset (s : State) (x i : Nat) (b : Bool) (l' : Nat) : (s.bset x i b).lane l' = s.lane l' :=
  State.lane_of_pho (s.bset_pho x i b) l'
@[simp] theorem State.lane_bump (s : State) (x k : Nat) (l' : Nat) : (s.bump x k).lane l' = s.lane l' :=
  State.lane_of_pho (s.bump_pho x k) l'
@[simp] theorem State.lane_bump32 (s : State) (x k : Nat) (l' : Nat) : (s.bump32 x k).lane l' = s.lane l' :=
  State.lane_of_pho (s.bump32_pho x k) l'
@[simp] theorem State.lane_advance (s : State) (x : Nat) (l' : Nat) : (s.advance x).lane l' = s.lane l' :=
  State.lane_of_pho (s.advance_pho x) l'
@[simp] theorem State.lane_send (s : State) (x : Sent) (l' : Nat) : (s.send x).lane l' = s.lane l' :=
  State.lane_of_pho (s.send_pho x) l'
@[simp] theorem State.lane_portCtr (s : State) (x : PortCtr) (y k : Nat) (l' : Nat) : (s.portCtr x y k).lane l' = s.lane l' :=
  State.lane_of_pho (s.portCtr_pho x y k) l'
@[simp] theorem State.lane_ctxCtr (s : State) (x : CtxCtr) (y k : Nat) (l' : Nat) : (s.ctxCtr x y k).lane l' = s.lane l' :=
  State.lane_of_pho (s.ctxCtr_pho x y k) l'
@[simp] theorem State.lane_pmc (s : State) (base code n : Nat) (l' : Nat) : (s.pmc base code n).lane l' = s.lane l' :=
  State.lane_of_pho (s.pmc_pho base code n) l'
@[simp] theorem State.lane_gainAttention (s : State)  (l' : Nat) : (s.gainAttention ).lane l' = s.lane l' :=
  State.lane_of_pho (s.gainAttention_pho ) l'
@[simp] theorem State.lane_attn (s : State) (base b : Nat) (l' : Nat) : (s.attn base b).lane l' = s.lane l' :=
  State.lane_of_pho (s.attn_pho base b) l'
@[simp] theorem State.lane_record (s : State) (base : Nat) (bit : Option Nat) (cause detail : Nat) (l : List AerLink) (l' : Nat) : (s.record base bit cause detail l).lane l' = s.lane l' :=
  State.lane_of_pho (s.record_pho base bit cause detail l) l'
@[simp] theorem State.lane_alarm (s : State) (base b cause detail : Nat) (l : List AerLink) (l' : Nat) : (s.alarm base b cause detail l).lane l' = s.lane l' :=
  State.lane_of_pho (s.alarm_pho base b cause detail l) l'
@[simp] theorem State.lane_alarmPlain (s : State) (base b detail : Nat) (l' : Nat) : (s.alarmPlain base b detail).lane l' = s.lane l' :=
  State.lane_of_pho (s.alarmPlain_pho base b detail) l'

@[simp] theorem State.carrier_rset (s : State) (x v : Nat) (f' w' : Nat) : (s.rset x v).carrier f' w' = s.carrier f' w' :=
  State.carrier_of_pho (s.rset_pho x v) f' w'
@[simp] theorem State.carrier_fset (s : State) (x hi lo v : Nat) (f' w' : Nat) : (s.fset x hi lo v).carrier f' w' = s.carrier f' w' :=
  State.carrier_of_pho (s.fset_pho x hi lo v) f' w'
@[simp] theorem State.carrier_bset (s : State) (x i : Nat) (b : Bool) (f' w' : Nat) : (s.bset x i b).carrier f' w' = s.carrier f' w' :=
  State.carrier_of_pho (s.bset_pho x i b) f' w'
@[simp] theorem State.carrier_bump (s : State) (x k : Nat) (f' w' : Nat) : (s.bump x k).carrier f' w' = s.carrier f' w' :=
  State.carrier_of_pho (s.bump_pho x k) f' w'
@[simp] theorem State.carrier_bump32 (s : State) (x k : Nat) (f' w' : Nat) : (s.bump32 x k).carrier f' w' = s.carrier f' w' :=
  State.carrier_of_pho (s.bump32_pho x k) f' w'
@[simp] theorem State.carrier_advance (s : State) (x : Nat) (f' w' : Nat) : (s.advance x).carrier f' w' = s.carrier f' w' :=
  State.carrier_of_pho (s.advance_pho x) f' w'
@[simp] theorem State.carrier_send (s : State) (x : Sent) (f' w' : Nat) : (s.send x).carrier f' w' = s.carrier f' w' :=
  State.carrier_of_pho (s.send_pho x) f' w'
@[simp] theorem State.carrier_portCtr (s : State) (x : PortCtr) (y k : Nat) (f' w' : Nat) : (s.portCtr x y k).carrier f' w' = s.carrier f' w' :=
  State.carrier_of_pho (s.portCtr_pho x y k) f' w'
@[simp] theorem State.carrier_ctxCtr (s : State) (x : CtxCtr) (y k : Nat) (f' w' : Nat) : (s.ctxCtr x y k).carrier f' w' = s.carrier f' w' :=
  State.carrier_of_pho (s.ctxCtr_pho x y k) f' w'
@[simp] theorem State.carrier_pmc (s : State) (base code n : Nat) (f' w' : Nat) : (s.pmc base code n).carrier f' w' = s.carrier f' w' :=
  State.carrier_of_pho (s.pmc_pho base code n) f' w'
@[simp] theorem State.carrier_gainAttention (s : State)  (f' w' : Nat) : (s.gainAttention ).carrier f' w' = s.carrier f' w' :=
  State.carrier_of_pho (s.gainAttention_pho ) f' w'
@[simp] theorem State.carrier_attn (s : State) (base b : Nat) (f' w' : Nat) : (s.attn base b).carrier f' w' = s.carrier f' w' :=
  State.carrier_of_pho (s.attn_pho base b) f' w'
@[simp] theorem State.carrier_record (s : State) (base : Nat) (bit : Option Nat) (cause detail : Nat) (l : List AerLink) (f' w' : Nat) : (s.record base bit cause detail l).carrier f' w' = s.carrier f' w' :=
  State.carrier_of_pho (s.record_pho base bit cause detail l) f' w'
@[simp] theorem State.carrier_alarm (s : State) (base b cause detail : Nat) (l : List AerLink) (f' w' : Nat) : (s.alarm base b cause detail l).carrier f' w' = s.carrier f' w' :=
  State.carrier_of_pho (s.alarm_pho base b cause detail l) f' w'
@[simp] theorem State.carrier_alarmPlain (s : State) (base b detail : Nat) (f' w' : Nat) : (s.alarmPlain base b detail).carrier f' w' = s.carrier f' w' :=
  State.carrier_of_pho (s.alarmPlain_pho base b detail) f' w'

@[simp] theorem State.els_rset (s : State) (x v : Nat) (m' : Nat) : (s.rset x v).els m' = s.els m' :=
  State.els_of_pho (s.rset_pho x v) m'
@[simp] theorem State.els_fset (s : State) (x hi lo v : Nat) (m' : Nat) : (s.fset x hi lo v).els m' = s.els m' :=
  State.els_of_pho (s.fset_pho x hi lo v) m'
@[simp] theorem State.els_bset (s : State) (x i : Nat) (b : Bool) (m' : Nat) : (s.bset x i b).els m' = s.els m' :=
  State.els_of_pho (s.bset_pho x i b) m'
@[simp] theorem State.els_bump (s : State) (x k : Nat) (m' : Nat) : (s.bump x k).els m' = s.els m' :=
  State.els_of_pho (s.bump_pho x k) m'
@[simp] theorem State.els_bump32 (s : State) (x k : Nat) (m' : Nat) : (s.bump32 x k).els m' = s.els m' :=
  State.els_of_pho (s.bump32_pho x k) m'
@[simp] theorem State.els_advance (s : State) (x : Nat) (m' : Nat) : (s.advance x).els m' = s.els m' :=
  State.els_of_pho (s.advance_pho x) m'
@[simp] theorem State.els_send (s : State) (x : Sent) (m' : Nat) : (s.send x).els m' = s.els m' :=
  State.els_of_pho (s.send_pho x) m'
@[simp] theorem State.els_portCtr (s : State) (x : PortCtr) (y k : Nat) (m' : Nat) : (s.portCtr x y k).els m' = s.els m' :=
  State.els_of_pho (s.portCtr_pho x y k) m'
@[simp] theorem State.els_ctxCtr (s : State) (x : CtxCtr) (y k : Nat) (m' : Nat) : (s.ctxCtr x y k).els m' = s.els m' :=
  State.els_of_pho (s.ctxCtr_pho x y k) m'
@[simp] theorem State.els_pmc (s : State) (base code n : Nat) (m' : Nat) : (s.pmc base code n).els m' = s.els m' :=
  State.els_of_pho (s.pmc_pho base code n) m'
@[simp] theorem State.els_gainAttention (s : State)  (m' : Nat) : (s.gainAttention ).els m' = s.els m' :=
  State.els_of_pho (s.gainAttention_pho ) m'
@[simp] theorem State.els_attn (s : State) (base b : Nat) (m' : Nat) : (s.attn base b).els m' = s.els m' :=
  State.els_of_pho (s.attn_pho base b) m'
@[simp] theorem State.els_record (s : State) (base : Nat) (bit : Option Nat) (cause detail : Nat) (l : List AerLink) (m' : Nat) : (s.record base bit cause detail l).els m' = s.els m' :=
  State.els_of_pho (s.record_pho base bit cause detail l) m'
@[simp] theorem State.els_alarm (s : State) (base b cause detail : Nat) (l : List AerLink) (m' : Nat) : (s.alarm base b cause detail l).els m' = s.els m' :=
  State.els_of_pho (s.alarm_pho base b cause detail l) m'
@[simp] theorem State.els_alarmPlain (s : State) (base b detail : Nat) (m' : Nat) : (s.alarmPlain base b detail).els m' = s.els m' :=
  State.els_of_pho (s.alarmPlain_pho base b detail) m'

@[simp] theorem State.ctx_rset (s : State) (x v : Nat) (c' : Nat) : (s.rset x v).ctx c' = s.ctx c' :=
  State.ctx_of_col (s.rset_col x v) c'
@[simp] theorem State.ctx_fset (s : State) (x hi lo v : Nat) (c' : Nat) : (s.fset x hi lo v).ctx c' = s.ctx c' :=
  State.ctx_of_col (s.fset_col x hi lo v) c'
@[simp] theorem State.ctx_bset (s : State) (x i : Nat) (b : Bool) (c' : Nat) : (s.bset x i b).ctx c' = s.ctx c' :=
  State.ctx_of_col (s.bset_col x i b) c'
@[simp] theorem State.ctx_bump (s : State) (x k : Nat) (c' : Nat) : (s.bump x k).ctx c' = s.ctx c' :=
  State.ctx_of_col (s.bump_col x k) c'
@[simp] theorem State.ctx_bump32 (s : State) (x k : Nat) (c' : Nat) : (s.bump32 x k).ctx c' = s.ctx c' :=
  State.ctx_of_col (s.bump32_col x k) c'
@[simp] theorem State.ctx_advance (s : State) (x : Nat) (c' : Nat) : (s.advance x).ctx c' = s.ctx c' :=
  State.ctx_of_col (s.advance_col x) c'
@[simp] theorem State.ctx_send (s : State) (x : Sent) (c' : Nat) : (s.send x).ctx c' = s.ctx c' :=
  State.ctx_of_col (s.send_col x) c'
@[simp] theorem State.ctx_portCtr (s : State) (x : PortCtr) (y k : Nat) (c' : Nat) : (s.portCtr x y k).ctx c' = s.ctx c' :=
  State.ctx_of_col (s.portCtr_col x y k) c'
@[simp] theorem State.ctx_ctxCtr (s : State) (x : CtxCtr) (y k : Nat) (c' : Nat) : (s.ctxCtr x y k).ctx c' = s.ctx c' :=
  State.ctx_of_col (s.ctxCtr_col x y k) c'
@[simp] theorem State.ctx_pmc (s : State) (base code n : Nat) (c' : Nat) : (s.pmc base code n).ctx c' = s.ctx c' :=
  State.ctx_of_col (s.pmc_col base code n) c'
@[simp] theorem State.ctx_gainAttention (s : State)  (c' : Nat) : (s.gainAttention ).ctx c' = s.ctx c' :=
  State.ctx_of_col (s.gainAttention_col ) c'
@[simp] theorem State.ctx_attn (s : State) (base b : Nat) (c' : Nat) : (s.attn base b).ctx c' = s.ctx c' :=
  State.ctx_of_col (s.attn_col base b) c'
@[simp] theorem State.ctx_record (s : State) (base : Nat) (bit : Option Nat) (cause detail : Nat) (l : List AerLink) (c' : Nat) : (s.record base bit cause detail l).ctx c' = s.ctx c' :=
  State.ctx_of_col (s.record_col base bit cause detail l) c'
@[simp] theorem State.ctx_alarm (s : State) (base b cause detail : Nat) (l : List AerLink) (c' : Nat) : (s.alarm base b cause detail l).ctx c' = s.ctx c' :=
  State.ctx_of_col (s.alarm_col base b cause detail l) c'
@[simp] theorem State.ctx_alarmPlain (s : State) (base b detail : Nat) (c' : Nat) : (s.alarmPlain base b detail).ctx c' = s.ctx c' :=
  State.ctx_of_col (s.alarmPlain_col base b detail) c'

@[simp] theorem State.core_rset (s : State) (x v : Nat) (n' : Nat) : (s.rset x v).core n' = s.core n' :=
  State.core_of_col (s.rset_col x v) n'
@[simp] theorem State.core_fset (s : State) (x hi lo v : Nat) (n' : Nat) : (s.fset x hi lo v).core n' = s.core n' :=
  State.core_of_col (s.fset_col x hi lo v) n'
@[simp] theorem State.core_bset (s : State) (x i : Nat) (b : Bool) (n' : Nat) : (s.bset x i b).core n' = s.core n' :=
  State.core_of_col (s.bset_col x i b) n'
@[simp] theorem State.core_bump (s : State) (x k : Nat) (n' : Nat) : (s.bump x k).core n' = s.core n' :=
  State.core_of_col (s.bump_col x k) n'
@[simp] theorem State.core_bump32 (s : State) (x k : Nat) (n' : Nat) : (s.bump32 x k).core n' = s.core n' :=
  State.core_of_col (s.bump32_col x k) n'
@[simp] theorem State.core_advance (s : State) (x : Nat) (n' : Nat) : (s.advance x).core n' = s.core n' :=
  State.core_of_col (s.advance_col x) n'
@[simp] theorem State.core_send (s : State) (x : Sent) (n' : Nat) : (s.send x).core n' = s.core n' :=
  State.core_of_col (s.send_col x) n'
@[simp] theorem State.core_portCtr (s : State) (x : PortCtr) (y k : Nat) (n' : Nat) : (s.portCtr x y k).core n' = s.core n' :=
  State.core_of_col (s.portCtr_col x y k) n'
@[simp] theorem State.core_ctxCtr (s : State) (x : CtxCtr) (y k : Nat) (n' : Nat) : (s.ctxCtr x y k).core n' = s.core n' :=
  State.core_of_col (s.ctxCtr_col x y k) n'
@[simp] theorem State.core_pmc (s : State) (base code n : Nat) (n' : Nat) : (s.pmc base code n).core n' = s.core n' :=
  State.core_of_col (s.pmc_col base code n) n'
@[simp] theorem State.core_gainAttention (s : State)  (n' : Nat) : (s.gainAttention ).core n' = s.core n' :=
  State.core_of_col (s.gainAttention_col ) n'
@[simp] theorem State.core_attn (s : State) (base b : Nat) (n' : Nat) : (s.attn base b).core n' = s.core n' :=
  State.core_of_col (s.attn_col base b) n'
@[simp] theorem State.core_record (s : State) (base : Nat) (bit : Option Nat) (cause detail : Nat) (l : List AerLink) (n' : Nat) : (s.record base bit cause detail l).core n' = s.core n' :=
  State.core_of_col (s.record_col base bit cause detail l) n'
@[simp] theorem State.core_alarm (s : State) (base b cause detail : Nat) (l : List AerLink) (n' : Nat) : (s.alarm base b cause detail l).core n' = s.core n' :=
  State.core_of_col (s.alarm_col base b cause detail l) n'
@[simp] theorem State.core_alarmPlain (s : State) (base b detail : Nat) (n' : Nat) : (s.alarmPlain base b detail).core n' = s.core n' :=
  State.core_of_col (s.alarmPlain_col base b detail) n'

@[simp] theorem State.eng_rset (s : State) (x v : Nat) (e' : Nat) : (s.rset x v).eng e' = s.eng e' :=
  State.eng_of_col (s.rset_col x v) e'
@[simp] theorem State.eng_fset (s : State) (x hi lo v : Nat) (e' : Nat) : (s.fset x hi lo v).eng e' = s.eng e' :=
  State.eng_of_col (s.fset_col x hi lo v) e'
@[simp] theorem State.eng_bset (s : State) (x i : Nat) (b : Bool) (e' : Nat) : (s.bset x i b).eng e' = s.eng e' :=
  State.eng_of_col (s.bset_col x i b) e'
@[simp] theorem State.eng_bump (s : State) (x k : Nat) (e' : Nat) : (s.bump x k).eng e' = s.eng e' :=
  State.eng_of_col (s.bump_col x k) e'
@[simp] theorem State.eng_bump32 (s : State) (x k : Nat) (e' : Nat) : (s.bump32 x k).eng e' = s.eng e' :=
  State.eng_of_col (s.bump32_col x k) e'
@[simp] theorem State.eng_advance (s : State) (x : Nat) (e' : Nat) : (s.advance x).eng e' = s.eng e' :=
  State.eng_of_col (s.advance_col x) e'
@[simp] theorem State.eng_send (s : State) (x : Sent) (e' : Nat) : (s.send x).eng e' = s.eng e' :=
  State.eng_of_col (s.send_col x) e'
@[simp] theorem State.eng_portCtr (s : State) (x : PortCtr) (y k : Nat) (e' : Nat) : (s.portCtr x y k).eng e' = s.eng e' :=
  State.eng_of_col (s.portCtr_col x y k) e'
@[simp] theorem State.eng_ctxCtr (s : State) (x : CtxCtr) (y k : Nat) (e' : Nat) : (s.ctxCtr x y k).eng e' = s.eng e' :=
  State.eng_of_col (s.ctxCtr_col x y k) e'
@[simp] theorem State.eng_pmc (s : State) (base code n : Nat) (e' : Nat) : (s.pmc base code n).eng e' = s.eng e' :=
  State.eng_of_col (s.pmc_col base code n) e'
@[simp] theorem State.eng_gainAttention (s : State)  (e' : Nat) : (s.gainAttention ).eng e' = s.eng e' :=
  State.eng_of_col (s.gainAttention_col ) e'
@[simp] theorem State.eng_attn (s : State) (base b : Nat) (e' : Nat) : (s.attn base b).eng e' = s.eng e' :=
  State.eng_of_col (s.attn_col base b) e'
@[simp] theorem State.eng_record (s : State) (base : Nat) (bit : Option Nat) (cause detail : Nat) (l : List AerLink) (e' : Nat) : (s.record base bit cause detail l).eng e' = s.eng e' :=
  State.eng_of_col (s.record_col base bit cause detail l) e'
@[simp] theorem State.eng_alarm (s : State) (base b cause detail : Nat) (l : List AerLink) (e' : Nat) : (s.alarm base b cause detail l).eng e' = s.eng e' :=
  State.eng_of_col (s.alarm_col base b cause detail l) e'
@[simp] theorem State.eng_alarmPlain (s : State) (base b detail : Nat) (e' : Nat) : (s.alarmPlain base b detail).eng e' = s.eng e' :=
  State.eng_of_col (s.alarmPlain_col base b detail) e'

@[simp] theorem State.pcal_rset (s : State) (x v : Nat) (p' : Nat) : (s.rset x v).pcal p' = s.pcal p' :=
  State.pcal_of_cal (s.rset_cal x v) p'
@[simp] theorem State.pcal_fset (s : State) (x hi lo v : Nat) (p' : Nat) : (s.fset x hi lo v).pcal p' = s.pcal p' :=
  State.pcal_of_cal (s.fset_cal x hi lo v) p'
@[simp] theorem State.pcal_bset (s : State) (x i : Nat) (b : Bool) (p' : Nat) : (s.bset x i b).pcal p' = s.pcal p' :=
  State.pcal_of_cal (s.bset_cal x i b) p'
@[simp] theorem State.pcal_bump (s : State) (x k : Nat) (p' : Nat) : (s.bump x k).pcal p' = s.pcal p' :=
  State.pcal_of_cal (s.bump_cal x k) p'
@[simp] theorem State.pcal_bump32 (s : State) (x k : Nat) (p' : Nat) : (s.bump32 x k).pcal p' = s.pcal p' :=
  State.pcal_of_cal (s.bump32_cal x k) p'
@[simp] theorem State.pcal_advance (s : State) (x : Nat) (p' : Nat) : (s.advance x).pcal p' = s.pcal p' :=
  State.pcal_of_cal (s.advance_cal x) p'
@[simp] theorem State.pcal_send (s : State) (x : Sent) (p' : Nat) : (s.send x).pcal p' = s.pcal p' :=
  State.pcal_of_cal (s.send_cal x) p'
@[simp] theorem State.pcal_portCtr (s : State) (x : PortCtr) (y k : Nat) (p' : Nat) : (s.portCtr x y k).pcal p' = s.pcal p' :=
  State.pcal_of_cal (s.portCtr_cal x y k) p'
@[simp] theorem State.pcal_ctxCtr (s : State) (x : CtxCtr) (y k : Nat) (p' : Nat) : (s.ctxCtr x y k).pcal p' = s.pcal p' :=
  State.pcal_of_cal (s.ctxCtr_cal x y k) p'
@[simp] theorem State.pcal_pmc (s : State) (base code n : Nat) (p' : Nat) : (s.pmc base code n).pcal p' = s.pcal p' :=
  State.pcal_of_cal (s.pmc_cal base code n) p'
@[simp] theorem State.pcal_gainAttention (s : State)  (p' : Nat) : (s.gainAttention ).pcal p' = s.pcal p' :=
  State.pcal_of_cal (s.gainAttention_cal ) p'
@[simp] theorem State.pcal_attn (s : State) (base b : Nat) (p' : Nat) : (s.attn base b).pcal p' = s.pcal p' :=
  State.pcal_of_cal (s.attn_cal base b) p'
@[simp] theorem State.pcal_record (s : State) (base : Nat) (bit : Option Nat) (cause detail : Nat) (l : List AerLink) (p' : Nat) : (s.record base bit cause detail l).pcal p' = s.pcal p' :=
  State.pcal_of_cal (s.record_cal base bit cause detail l) p'
@[simp] theorem State.pcal_alarm (s : State) (base b cause detail : Nat) (l : List AerLink) (p' : Nat) : (s.alarm base b cause detail l).pcal p' = s.pcal p' :=
  State.pcal_of_cal (s.alarm_cal base b cause detail l) p'
@[simp] theorem State.pcal_alarmPlain (s : State) (base b detail : Nat) (p' : Nat) : (s.alarmPlain base b detail).pcal p' = s.pcal p' :=
  State.pcal_of_cal (s.alarmPlain_cal base b detail) p'

@[simp] theorem State.port_setSys (s : State) (h : SysSt → SysSt) (p' : Nat) : (s.setSys h).port p' = s.port p' :=
  State.port_of_sw (s.setSys_sw h) p'
@[simp] theorem State.port_setClk (s : State) (h : TickSt → TickSt) (p' : Nat) : (s.setClk h).port p' = s.port p' :=
  State.port_of_sw (s.setClk_sw h) p'
@[simp] theorem State.port_setTbl (s : State) (h : TableSt → TableSt) (p' : Nat) : (s.setTbl h).port p' = s.port p' :=
  State.port_of_sw (s.setTbl_sw h) p'
@[simp] theorem State.port_setPho (s : State) (h : PhotonSt → PhotonSt) (p' : Nat) : (s.setPho h).port p' = s.port p' :=
  State.port_of_sw (s.setPho_sw h) p'
@[simp] theorem State.port_setMgmt (s : State) (h : MgmtSt → MgmtSt) (p' : Nat) : (s.setMgmt h).port p' = s.port p' :=
  State.port_of_sw (s.setMgmt_sw h) p'
@[simp] theorem State.port_setFuse (s : State) (h : FuseSt → FuseSt) (p' : Nat) : (s.setFuse h).port p' = s.port p' :=
  State.port_of_sw (s.setFuse_sw h) p'
@[simp] theorem State.port_setCol (s : State) (h : CollectSt → CollectSt) (p' : Nat) : (s.setCol h).port p' = s.port p' :=
  State.port_of_sw (s.setCol_sw h) p'
@[simp] theorem State.port_setTwin (s : State) (h : TwinSt → TwinSt) (p' : Nat) : (s.setTwin h).port p' = s.port p' :=
  State.port_of_sw (s.setTwin_sw h) p'
@[simp] theorem State.port_setAer (s : State) (h : AerSt → AerSt) (p' : Nat) : (s.setAer h).port p' = s.port p' :=
  State.port_of_sw (s.setAer_sw h) p'
@[simp] theorem State.port_setFlt (s : State) (h : FaultSt → FaultSt) (p' : Nat) : (s.setFlt h).port p' = s.port p' :=
  State.port_of_sw (s.setFlt_sw h) p'
@[simp] theorem State.port_setDump (s : State) (h : DumpSt → DumpSt) (p' : Nat) : (s.setDump h).port p' = s.port p' :=
  State.port_of_sw (s.setDump_sw h) p'
@[simp] theorem State.port_setCalSt (s : State) (h : CalSt → CalSt) (p' : Nat) : (s.setCalSt h).port p' = s.port p' :=
  State.port_of_sw (s.setCalSt_sw h) p'
@[simp] theorem State.port_setLane (s : State) (k : Nat) (h : LaneSt → LaneSt) (p' : Nat) : (s.setLane k h).port p' = s.port p' :=
  State.port_of_sw (s.setLane_sw k h) p'
@[simp] theorem State.port_setCarrier (s : State) (k1 k2 : Nat) (h : CarrierSt → CarrierSt) (p' : Nat) : (s.setCarrier k1 k2 h).port p' = s.port p' :=
  State.port_of_sw (s.setCarrier_sw k1 k2 h) p'
@[simp] theorem State.port_setEls (s : State) (k : Nat) (h : ElsSt → ElsSt) (p' : Nat) : (s.setEls k h).port p' = s.port p' :=
  State.port_of_sw (s.setEls_sw k h) p'
@[simp] theorem State.port_setCtx (s : State) (k : Nat) (h : CtxSt → CtxSt) (p' : Nat) : (s.setCtx k h).port p' = s.port p' :=
  State.port_of_sw (s.setCtx_sw k h) p'
@[simp] theorem State.port_setCore (s : State) (k : Nat) (h : CoreSt → CoreSt) (p' : Nat) : (s.setCore k h).port p' = s.port p' :=
  State.port_of_sw (s.setCore_sw k h) p'
@[simp] theorem State.port_setEng (s : State) (k : Nat) (h : EngSt → EngSt) (p' : Nat) : (s.setEng k h).port p' = s.port p' :=
  State.port_of_sw (s.setEng_sw k h) p'
@[simp] theorem State.port_setPcal (s : State) (k : Nat) (h : PortCal → PortCal) (p' : Nat) : (s.setPcal k h).port p' = s.port p' :=
  State.port_of_sw (s.setPcal_sw k h) p'

@[simp] theorem State.die_setSys (s : State) (h : SysSt → SysSt) (d' : Nat) : (s.setSys h).die d' = s.die d' :=
  State.die_of_sw (s.setSys_sw h) d'
@[simp] theorem State.die_setClk (s : State) (h : TickSt → TickSt) (d' : Nat) : (s.setClk h).die d' = s.die d' :=
  State.die_of_sw (s.setClk_sw h) d'
@[simp] theorem State.die_setTbl (s : State) (h : TableSt → TableSt) (d' : Nat) : (s.setTbl h).die d' = s.die d' :=
  State.die_of_sw (s.setTbl_sw h) d'
@[simp] theorem State.die_setPho (s : State) (h : PhotonSt → PhotonSt) (d' : Nat) : (s.setPho h).die d' = s.die d' :=
  State.die_of_sw (s.setPho_sw h) d'
@[simp] theorem State.die_setMgmt (s : State) (h : MgmtSt → MgmtSt) (d' : Nat) : (s.setMgmt h).die d' = s.die d' :=
  State.die_of_sw (s.setMgmt_sw h) d'
@[simp] theorem State.die_setFuse (s : State) (h : FuseSt → FuseSt) (d' : Nat) : (s.setFuse h).die d' = s.die d' :=
  State.die_of_sw (s.setFuse_sw h) d'
@[simp] theorem State.die_setCol (s : State) (h : CollectSt → CollectSt) (d' : Nat) : (s.setCol h).die d' = s.die d' :=
  State.die_of_sw (s.setCol_sw h) d'
@[simp] theorem State.die_setTwin (s : State) (h : TwinSt → TwinSt) (d' : Nat) : (s.setTwin h).die d' = s.die d' :=
  State.die_of_sw (s.setTwin_sw h) d'
@[simp] theorem State.die_setAer (s : State) (h : AerSt → AerSt) (d' : Nat) : (s.setAer h).die d' = s.die d' :=
  State.die_of_sw (s.setAer_sw h) d'
@[simp] theorem State.die_setFlt (s : State) (h : FaultSt → FaultSt) (d' : Nat) : (s.setFlt h).die d' = s.die d' :=
  State.die_of_sw (s.setFlt_sw h) d'
@[simp] theorem State.die_setDump (s : State) (h : DumpSt → DumpSt) (d' : Nat) : (s.setDump h).die d' = s.die d' :=
  State.die_of_sw (s.setDump_sw h) d'
@[simp] theorem State.die_setCalSt (s : State) (h : CalSt → CalSt) (d' : Nat) : (s.setCalSt h).die d' = s.die d' :=
  State.die_of_sw (s.setCalSt_sw h) d'
@[simp] theorem State.die_setLane (s : State) (k : Nat) (h : LaneSt → LaneSt) (d' : Nat) : (s.setLane k h).die d' = s.die d' :=
  State.die_of_sw (s.setLane_sw k h) d'
@[simp] theorem State.die_setCarrier (s : State) (k1 k2 : Nat) (h : CarrierSt → CarrierSt) (d' : Nat) : (s.setCarrier k1 k2 h).die d' = s.die d' :=
  State.die_of_sw (s.setCarrier_sw k1 k2 h) d'
@[simp] theorem State.die_setEls (s : State) (k : Nat) (h : ElsSt → ElsSt) (d' : Nat) : (s.setEls k h).die d' = s.die d' :=
  State.die_of_sw (s.setEls_sw k h) d'
@[simp] theorem State.die_setCtx (s : State) (k : Nat) (h : CtxSt → CtxSt) (d' : Nat) : (s.setCtx k h).die d' = s.die d' :=
  State.die_of_sw (s.setCtx_sw k h) d'
@[simp] theorem State.die_setCore (s : State) (k : Nat) (h : CoreSt → CoreSt) (d' : Nat) : (s.setCore k h).die d' = s.die d' :=
  State.die_of_sw (s.setCore_sw k h) d'
@[simp] theorem State.die_setEng (s : State) (k : Nat) (h : EngSt → EngSt) (d' : Nat) : (s.setEng k h).die d' = s.die d' :=
  State.die_of_sw (s.setEng_sw k h) d'
@[simp] theorem State.die_setPcal (s : State) (k : Nat) (h : PortCal → PortCal) (d' : Nat) : (s.setPcal k h).die d' = s.die d' :=
  State.die_of_sw (s.setPcal_sw k h) d'

@[simp] theorem State.lane_setSys (s : State) (h : SysSt → SysSt) (l' : Nat) : (s.setSys h).lane l' = s.lane l' :=
  State.lane_of_pho (s.setSys_pho h) l'
@[simp] theorem State.lane_setClk (s : State) (h : TickSt → TickSt) (l' : Nat) : (s.setClk h).lane l' = s.lane l' :=
  State.lane_of_pho (s.setClk_pho h) l'
@[simp] theorem State.lane_setSw (s : State) (h : SwitchSt → SwitchSt) (l' : Nat) : (s.setSw h).lane l' = s.lane l' :=
  State.lane_of_pho (s.setSw_pho h) l'
@[simp] theorem State.lane_setTbl (s : State) (h : TableSt → TableSt) (l' : Nat) : (s.setTbl h).lane l' = s.lane l' :=
  State.lane_of_pho (s.setTbl_pho h) l'
@[simp] theorem State.lane_setMgmt (s : State) (h : MgmtSt → MgmtSt) (l' : Nat) : (s.setMgmt h).lane l' = s.lane l' :=
  State.lane_of_pho (s.setMgmt_pho h) l'
@[simp] theorem State.lane_setFuse (s : State) (h : FuseSt → FuseSt) (l' : Nat) : (s.setFuse h).lane l' = s.lane l' :=
  State.lane_of_pho (s.setFuse_pho h) l'
@[simp] theorem State.lane_setCol (s : State) (h : CollectSt → CollectSt) (l' : Nat) : (s.setCol h).lane l' = s.lane l' :=
  State.lane_of_pho (s.setCol_pho h) l'
@[simp] theorem State.lane_setTwin (s : State) (h : TwinSt → TwinSt) (l' : Nat) : (s.setTwin h).lane l' = s.lane l' :=
  State.lane_of_pho (s.setTwin_pho h) l'
@[simp] theorem State.lane_setAer (s : State) (h : AerSt → AerSt) (l' : Nat) : (s.setAer h).lane l' = s.lane l' :=
  State.lane_of_pho (s.setAer_pho h) l'
@[simp] theorem State.lane_setFlt (s : State) (h : FaultSt → FaultSt) (l' : Nat) : (s.setFlt h).lane l' = s.lane l' :=
  State.lane_of_pho (s.setFlt_pho h) l'
@[simp] theorem State.lane_setDump (s : State) (h : DumpSt → DumpSt) (l' : Nat) : (s.setDump h).lane l' = s.lane l' :=
  State.lane_of_pho (s.setDump_pho h) l'
@[simp] theorem State.lane_setCalSt (s : State) (h : CalSt → CalSt) (l' : Nat) : (s.setCalSt h).lane l' = s.lane l' :=
  State.lane_of_pho (s.setCalSt_pho h) l'
@[simp] theorem State.lane_setPort (s : State) (k : Nat) (h : PortSt → PortSt) (l' : Nat) : (s.setPort k h).lane l' = s.lane l' :=
  State.lane_of_pho (s.setPort_pho k h) l'
@[simp] theorem State.lane_setDie (s : State) (k : Nat) (h : DieSt → DieSt) (l' : Nat) : (s.setDie k h).lane l' = s.lane l' :=
  State.lane_of_pho (s.setDie_pho k h) l'
@[simp] theorem State.lane_setCtx (s : State) (k : Nat) (h : CtxSt → CtxSt) (l' : Nat) : (s.setCtx k h).lane l' = s.lane l' :=
  State.lane_of_pho (s.setCtx_pho k h) l'
@[simp] theorem State.lane_setCore (s : State) (k : Nat) (h : CoreSt → CoreSt) (l' : Nat) : (s.setCore k h).lane l' = s.lane l' :=
  State.lane_of_pho (s.setCore_pho k h) l'
@[simp] theorem State.lane_setEng (s : State) (k : Nat) (h : EngSt → EngSt) (l' : Nat) : (s.setEng k h).lane l' = s.lane l' :=
  State.lane_of_pho (s.setEng_pho k h) l'
@[simp] theorem State.lane_setPcal (s : State) (k : Nat) (h : PortCal → PortCal) (l' : Nat) : (s.setPcal k h).lane l' = s.lane l' :=
  State.lane_of_pho (s.setPcal_pho k h) l'

@[simp] theorem State.carrier_setSys (s : State) (h : SysSt → SysSt) (f' w' : Nat) : (s.setSys h).carrier f' w' = s.carrier f' w' :=
  State.carrier_of_pho (s.setSys_pho h) f' w'
@[simp] theorem State.carrier_setClk (s : State) (h : TickSt → TickSt) (f' w' : Nat) : (s.setClk h).carrier f' w' = s.carrier f' w' :=
  State.carrier_of_pho (s.setClk_pho h) f' w'
@[simp] theorem State.carrier_setSw (s : State) (h : SwitchSt → SwitchSt) (f' w' : Nat) : (s.setSw h).carrier f' w' = s.carrier f' w' :=
  State.carrier_of_pho (s.setSw_pho h) f' w'
@[simp] theorem State.carrier_setTbl (s : State) (h : TableSt → TableSt) (f' w' : Nat) : (s.setTbl h).carrier f' w' = s.carrier f' w' :=
  State.carrier_of_pho (s.setTbl_pho h) f' w'
@[simp] theorem State.carrier_setMgmt (s : State) (h : MgmtSt → MgmtSt) (f' w' : Nat) : (s.setMgmt h).carrier f' w' = s.carrier f' w' :=
  State.carrier_of_pho (s.setMgmt_pho h) f' w'
@[simp] theorem State.carrier_setFuse (s : State) (h : FuseSt → FuseSt) (f' w' : Nat) : (s.setFuse h).carrier f' w' = s.carrier f' w' :=
  State.carrier_of_pho (s.setFuse_pho h) f' w'
@[simp] theorem State.carrier_setCol (s : State) (h : CollectSt → CollectSt) (f' w' : Nat) : (s.setCol h).carrier f' w' = s.carrier f' w' :=
  State.carrier_of_pho (s.setCol_pho h) f' w'
@[simp] theorem State.carrier_setTwin (s : State) (h : TwinSt → TwinSt) (f' w' : Nat) : (s.setTwin h).carrier f' w' = s.carrier f' w' :=
  State.carrier_of_pho (s.setTwin_pho h) f' w'
@[simp] theorem State.carrier_setAer (s : State) (h : AerSt → AerSt) (f' w' : Nat) : (s.setAer h).carrier f' w' = s.carrier f' w' :=
  State.carrier_of_pho (s.setAer_pho h) f' w'
@[simp] theorem State.carrier_setFlt (s : State) (h : FaultSt → FaultSt) (f' w' : Nat) : (s.setFlt h).carrier f' w' = s.carrier f' w' :=
  State.carrier_of_pho (s.setFlt_pho h) f' w'
@[simp] theorem State.carrier_setDump (s : State) (h : DumpSt → DumpSt) (f' w' : Nat) : (s.setDump h).carrier f' w' = s.carrier f' w' :=
  State.carrier_of_pho (s.setDump_pho h) f' w'
@[simp] theorem State.carrier_setCalSt (s : State) (h : CalSt → CalSt) (f' w' : Nat) : (s.setCalSt h).carrier f' w' = s.carrier f' w' :=
  State.carrier_of_pho (s.setCalSt_pho h) f' w'
@[simp] theorem State.carrier_setPort (s : State) (k : Nat) (h : PortSt → PortSt) (f' w' : Nat) : (s.setPort k h).carrier f' w' = s.carrier f' w' :=
  State.carrier_of_pho (s.setPort_pho k h) f' w'
@[simp] theorem State.carrier_setDie (s : State) (k : Nat) (h : DieSt → DieSt) (f' w' : Nat) : (s.setDie k h).carrier f' w' = s.carrier f' w' :=
  State.carrier_of_pho (s.setDie_pho k h) f' w'
@[simp] theorem State.carrier_setCtx (s : State) (k : Nat) (h : CtxSt → CtxSt) (f' w' : Nat) : (s.setCtx k h).carrier f' w' = s.carrier f' w' :=
  State.carrier_of_pho (s.setCtx_pho k h) f' w'
@[simp] theorem State.carrier_setCore (s : State) (k : Nat) (h : CoreSt → CoreSt) (f' w' : Nat) : (s.setCore k h).carrier f' w' = s.carrier f' w' :=
  State.carrier_of_pho (s.setCore_pho k h) f' w'
@[simp] theorem State.carrier_setEng (s : State) (k : Nat) (h : EngSt → EngSt) (f' w' : Nat) : (s.setEng k h).carrier f' w' = s.carrier f' w' :=
  State.carrier_of_pho (s.setEng_pho k h) f' w'
@[simp] theorem State.carrier_setPcal (s : State) (k : Nat) (h : PortCal → PortCal) (f' w' : Nat) : (s.setPcal k h).carrier f' w' = s.carrier f' w' :=
  State.carrier_of_pho (s.setPcal_pho k h) f' w'

@[simp] theorem State.els_setSys (s : State) (h : SysSt → SysSt) (m' : Nat) : (s.setSys h).els m' = s.els m' :=
  State.els_of_pho (s.setSys_pho h) m'
@[simp] theorem State.els_setClk (s : State) (h : TickSt → TickSt) (m' : Nat) : (s.setClk h).els m' = s.els m' :=
  State.els_of_pho (s.setClk_pho h) m'
@[simp] theorem State.els_setSw (s : State) (h : SwitchSt → SwitchSt) (m' : Nat) : (s.setSw h).els m' = s.els m' :=
  State.els_of_pho (s.setSw_pho h) m'
@[simp] theorem State.els_setTbl (s : State) (h : TableSt → TableSt) (m' : Nat) : (s.setTbl h).els m' = s.els m' :=
  State.els_of_pho (s.setTbl_pho h) m'
@[simp] theorem State.els_setMgmt (s : State) (h : MgmtSt → MgmtSt) (m' : Nat) : (s.setMgmt h).els m' = s.els m' :=
  State.els_of_pho (s.setMgmt_pho h) m'
@[simp] theorem State.els_setFuse (s : State) (h : FuseSt → FuseSt) (m' : Nat) : (s.setFuse h).els m' = s.els m' :=
  State.els_of_pho (s.setFuse_pho h) m'
@[simp] theorem State.els_setCol (s : State) (h : CollectSt → CollectSt) (m' : Nat) : (s.setCol h).els m' = s.els m' :=
  State.els_of_pho (s.setCol_pho h) m'
@[simp] theorem State.els_setTwin (s : State) (h : TwinSt → TwinSt) (m' : Nat) : (s.setTwin h).els m' = s.els m' :=
  State.els_of_pho (s.setTwin_pho h) m'
@[simp] theorem State.els_setAer (s : State) (h : AerSt → AerSt) (m' : Nat) : (s.setAer h).els m' = s.els m' :=
  State.els_of_pho (s.setAer_pho h) m'
@[simp] theorem State.els_setFlt (s : State) (h : FaultSt → FaultSt) (m' : Nat) : (s.setFlt h).els m' = s.els m' :=
  State.els_of_pho (s.setFlt_pho h) m'
@[simp] theorem State.els_setDump (s : State) (h : DumpSt → DumpSt) (m' : Nat) : (s.setDump h).els m' = s.els m' :=
  State.els_of_pho (s.setDump_pho h) m'
@[simp] theorem State.els_setCalSt (s : State) (h : CalSt → CalSt) (m' : Nat) : (s.setCalSt h).els m' = s.els m' :=
  State.els_of_pho (s.setCalSt_pho h) m'
@[simp] theorem State.els_setPort (s : State) (k : Nat) (h : PortSt → PortSt) (m' : Nat) : (s.setPort k h).els m' = s.els m' :=
  State.els_of_pho (s.setPort_pho k h) m'
@[simp] theorem State.els_setDie (s : State) (k : Nat) (h : DieSt → DieSt) (m' : Nat) : (s.setDie k h).els m' = s.els m' :=
  State.els_of_pho (s.setDie_pho k h) m'
@[simp] theorem State.els_setCtx (s : State) (k : Nat) (h : CtxSt → CtxSt) (m' : Nat) : (s.setCtx k h).els m' = s.els m' :=
  State.els_of_pho (s.setCtx_pho k h) m'
@[simp] theorem State.els_setCore (s : State) (k : Nat) (h : CoreSt → CoreSt) (m' : Nat) : (s.setCore k h).els m' = s.els m' :=
  State.els_of_pho (s.setCore_pho k h) m'
@[simp] theorem State.els_setEng (s : State) (k : Nat) (h : EngSt → EngSt) (m' : Nat) : (s.setEng k h).els m' = s.els m' :=
  State.els_of_pho (s.setEng_pho k h) m'
@[simp] theorem State.els_setPcal (s : State) (k : Nat) (h : PortCal → PortCal) (m' : Nat) : (s.setPcal k h).els m' = s.els m' :=
  State.els_of_pho (s.setPcal_pho k h) m'

@[simp] theorem State.ctx_setSys (s : State) (h : SysSt → SysSt) (c' : Nat) : (s.setSys h).ctx c' = s.ctx c' :=
  State.ctx_of_col (s.setSys_col h) c'
@[simp] theorem State.ctx_setClk (s : State) (h : TickSt → TickSt) (c' : Nat) : (s.setClk h).ctx c' = s.ctx c' :=
  State.ctx_of_col (s.setClk_col h) c'
@[simp] theorem State.ctx_setSw (s : State) (h : SwitchSt → SwitchSt) (c' : Nat) : (s.setSw h).ctx c' = s.ctx c' :=
  State.ctx_of_col (s.setSw_col h) c'
@[simp] theorem State.ctx_setTbl (s : State) (h : TableSt → TableSt) (c' : Nat) : (s.setTbl h).ctx c' = s.ctx c' :=
  State.ctx_of_col (s.setTbl_col h) c'
@[simp] theorem State.ctx_setPho (s : State) (h : PhotonSt → PhotonSt) (c' : Nat) : (s.setPho h).ctx c' = s.ctx c' :=
  State.ctx_of_col (s.setPho_col h) c'
@[simp] theorem State.ctx_setMgmt (s : State) (h : MgmtSt → MgmtSt) (c' : Nat) : (s.setMgmt h).ctx c' = s.ctx c' :=
  State.ctx_of_col (s.setMgmt_col h) c'
@[simp] theorem State.ctx_setFuse (s : State) (h : FuseSt → FuseSt) (c' : Nat) : (s.setFuse h).ctx c' = s.ctx c' :=
  State.ctx_of_col (s.setFuse_col h) c'
@[simp] theorem State.ctx_setTwin (s : State) (h : TwinSt → TwinSt) (c' : Nat) : (s.setTwin h).ctx c' = s.ctx c' :=
  State.ctx_of_col (s.setTwin_col h) c'
@[simp] theorem State.ctx_setAer (s : State) (h : AerSt → AerSt) (c' : Nat) : (s.setAer h).ctx c' = s.ctx c' :=
  State.ctx_of_col (s.setAer_col h) c'
@[simp] theorem State.ctx_setFlt (s : State) (h : FaultSt → FaultSt) (c' : Nat) : (s.setFlt h).ctx c' = s.ctx c' :=
  State.ctx_of_col (s.setFlt_col h) c'
@[simp] theorem State.ctx_setDump (s : State) (h : DumpSt → DumpSt) (c' : Nat) : (s.setDump h).ctx c' = s.ctx c' :=
  State.ctx_of_col (s.setDump_col h) c'
@[simp] theorem State.ctx_setCalSt (s : State) (h : CalSt → CalSt) (c' : Nat) : (s.setCalSt h).ctx c' = s.ctx c' :=
  State.ctx_of_col (s.setCalSt_col h) c'
@[simp] theorem State.ctx_setPort (s : State) (k : Nat) (h : PortSt → PortSt) (c' : Nat) : (s.setPort k h).ctx c' = s.ctx c' :=
  State.ctx_of_col (s.setPort_col k h) c'
@[simp] theorem State.ctx_setDie (s : State) (k : Nat) (h : DieSt → DieSt) (c' : Nat) : (s.setDie k h).ctx c' = s.ctx c' :=
  State.ctx_of_col (s.setDie_col k h) c'
@[simp] theorem State.ctx_setLane (s : State) (k : Nat) (h : LaneSt → LaneSt) (c' : Nat) : (s.setLane k h).ctx c' = s.ctx c' :=
  State.ctx_of_col (s.setLane_col k h) c'
@[simp] theorem State.ctx_setCarrier (s : State) (k1 k2 : Nat) (h : CarrierSt → CarrierSt) (c' : Nat) : (s.setCarrier k1 k2 h).ctx c' = s.ctx c' :=
  State.ctx_of_col (s.setCarrier_col k1 k2 h) c'
@[simp] theorem State.ctx_setEls (s : State) (k : Nat) (h : ElsSt → ElsSt) (c' : Nat) : (s.setEls k h).ctx c' = s.ctx c' :=
  State.ctx_of_col (s.setEls_col k h) c'
@[simp] theorem State.ctx_setPcal (s : State) (k : Nat) (h : PortCal → PortCal) (c' : Nat) : (s.setPcal k h).ctx c' = s.ctx c' :=
  State.ctx_of_col (s.setPcal_col k h) c'

@[simp] theorem State.core_setSys (s : State) (h : SysSt → SysSt) (n' : Nat) : (s.setSys h).core n' = s.core n' :=
  State.core_of_col (s.setSys_col h) n'
@[simp] theorem State.core_setClk (s : State) (h : TickSt → TickSt) (n' : Nat) : (s.setClk h).core n' = s.core n' :=
  State.core_of_col (s.setClk_col h) n'
@[simp] theorem State.core_setSw (s : State) (h : SwitchSt → SwitchSt) (n' : Nat) : (s.setSw h).core n' = s.core n' :=
  State.core_of_col (s.setSw_col h) n'
@[simp] theorem State.core_setTbl (s : State) (h : TableSt → TableSt) (n' : Nat) : (s.setTbl h).core n' = s.core n' :=
  State.core_of_col (s.setTbl_col h) n'
@[simp] theorem State.core_setPho (s : State) (h : PhotonSt → PhotonSt) (n' : Nat) : (s.setPho h).core n' = s.core n' :=
  State.core_of_col (s.setPho_col h) n'
@[simp] theorem State.core_setMgmt (s : State) (h : MgmtSt → MgmtSt) (n' : Nat) : (s.setMgmt h).core n' = s.core n' :=
  State.core_of_col (s.setMgmt_col h) n'
@[simp] theorem State.core_setFuse (s : State) (h : FuseSt → FuseSt) (n' : Nat) : (s.setFuse h).core n' = s.core n' :=
  State.core_of_col (s.setFuse_col h) n'
@[simp] theorem State.core_setTwin (s : State) (h : TwinSt → TwinSt) (n' : Nat) : (s.setTwin h).core n' = s.core n' :=
  State.core_of_col (s.setTwin_col h) n'
@[simp] theorem State.core_setAer (s : State) (h : AerSt → AerSt) (n' : Nat) : (s.setAer h).core n' = s.core n' :=
  State.core_of_col (s.setAer_col h) n'
@[simp] theorem State.core_setFlt (s : State) (h : FaultSt → FaultSt) (n' : Nat) : (s.setFlt h).core n' = s.core n' :=
  State.core_of_col (s.setFlt_col h) n'
@[simp] theorem State.core_setDump (s : State) (h : DumpSt → DumpSt) (n' : Nat) : (s.setDump h).core n' = s.core n' :=
  State.core_of_col (s.setDump_col h) n'
@[simp] theorem State.core_setCalSt (s : State) (h : CalSt → CalSt) (n' : Nat) : (s.setCalSt h).core n' = s.core n' :=
  State.core_of_col (s.setCalSt_col h) n'
@[simp] theorem State.core_setPort (s : State) (k : Nat) (h : PortSt → PortSt) (n' : Nat) : (s.setPort k h).core n' = s.core n' :=
  State.core_of_col (s.setPort_col k h) n'
@[simp] theorem State.core_setDie (s : State) (k : Nat) (h : DieSt → DieSt) (n' : Nat) : (s.setDie k h).core n' = s.core n' :=
  State.core_of_col (s.setDie_col k h) n'
@[simp] theorem State.core_setLane (s : State) (k : Nat) (h : LaneSt → LaneSt) (n' : Nat) : (s.setLane k h).core n' = s.core n' :=
  State.core_of_col (s.setLane_col k h) n'
@[simp] theorem State.core_setCarrier (s : State) (k1 k2 : Nat) (h : CarrierSt → CarrierSt) (n' : Nat) : (s.setCarrier k1 k2 h).core n' = s.core n' :=
  State.core_of_col (s.setCarrier_col k1 k2 h) n'
@[simp] theorem State.core_setEls (s : State) (k : Nat) (h : ElsSt → ElsSt) (n' : Nat) : (s.setEls k h).core n' = s.core n' :=
  State.core_of_col (s.setEls_col k h) n'
@[simp] theorem State.core_setPcal (s : State) (k : Nat) (h : PortCal → PortCal) (n' : Nat) : (s.setPcal k h).core n' = s.core n' :=
  State.core_of_col (s.setPcal_col k h) n'

@[simp] theorem State.eng_setSys (s : State) (h : SysSt → SysSt) (e' : Nat) : (s.setSys h).eng e' = s.eng e' :=
  State.eng_of_col (s.setSys_col h) e'
@[simp] theorem State.eng_setClk (s : State) (h : TickSt → TickSt) (e' : Nat) : (s.setClk h).eng e' = s.eng e' :=
  State.eng_of_col (s.setClk_col h) e'
@[simp] theorem State.eng_setSw (s : State) (h : SwitchSt → SwitchSt) (e' : Nat) : (s.setSw h).eng e' = s.eng e' :=
  State.eng_of_col (s.setSw_col h) e'
@[simp] theorem State.eng_setTbl (s : State) (h : TableSt → TableSt) (e' : Nat) : (s.setTbl h).eng e' = s.eng e' :=
  State.eng_of_col (s.setTbl_col h) e'
@[simp] theorem State.eng_setPho (s : State) (h : PhotonSt → PhotonSt) (e' : Nat) : (s.setPho h).eng e' = s.eng e' :=
  State.eng_of_col (s.setPho_col h) e'
@[simp] theorem State.eng_setMgmt (s : State) (h : MgmtSt → MgmtSt) (e' : Nat) : (s.setMgmt h).eng e' = s.eng e' :=
  State.eng_of_col (s.setMgmt_col h) e'
@[simp] theorem State.eng_setFuse (s : State) (h : FuseSt → FuseSt) (e' : Nat) : (s.setFuse h).eng e' = s.eng e' :=
  State.eng_of_col (s.setFuse_col h) e'
@[simp] theorem State.eng_setTwin (s : State) (h : TwinSt → TwinSt) (e' : Nat) : (s.setTwin h).eng e' = s.eng e' :=
  State.eng_of_col (s.setTwin_col h) e'
@[simp] theorem State.eng_setAer (s : State) (h : AerSt → AerSt) (e' : Nat) : (s.setAer h).eng e' = s.eng e' :=
  State.eng_of_col (s.setAer_col h) e'
@[simp] theorem State.eng_setFlt (s : State) (h : FaultSt → FaultSt) (e' : Nat) : (s.setFlt h).eng e' = s.eng e' :=
  State.eng_of_col (s.setFlt_col h) e'
@[simp] theorem State.eng_setDump (s : State) (h : DumpSt → DumpSt) (e' : Nat) : (s.setDump h).eng e' = s.eng e' :=
  State.eng_of_col (s.setDump_col h) e'
@[simp] theorem State.eng_setCalSt (s : State) (h : CalSt → CalSt) (e' : Nat) : (s.setCalSt h).eng e' = s.eng e' :=
  State.eng_of_col (s.setCalSt_col h) e'
@[simp] theorem State.eng_setPort (s : State) (k : Nat) (h : PortSt → PortSt) (e' : Nat) : (s.setPort k h).eng e' = s.eng e' :=
  State.eng_of_col (s.setPort_col k h) e'
@[simp] theorem State.eng_setDie (s : State) (k : Nat) (h : DieSt → DieSt) (e' : Nat) : (s.setDie k h).eng e' = s.eng e' :=
  State.eng_of_col (s.setDie_col k h) e'
@[simp] theorem State.eng_setLane (s : State) (k : Nat) (h : LaneSt → LaneSt) (e' : Nat) : (s.setLane k h).eng e' = s.eng e' :=
  State.eng_of_col (s.setLane_col k h) e'
@[simp] theorem State.eng_setCarrier (s : State) (k1 k2 : Nat) (h : CarrierSt → CarrierSt) (e' : Nat) : (s.setCarrier k1 k2 h).eng e' = s.eng e' :=
  State.eng_of_col (s.setCarrier_col k1 k2 h) e'
@[simp] theorem State.eng_setEls (s : State) (k : Nat) (h : ElsSt → ElsSt) (e' : Nat) : (s.setEls k h).eng e' = s.eng e' :=
  State.eng_of_col (s.setEls_col k h) e'
@[simp] theorem State.eng_setPcal (s : State) (k : Nat) (h : PortCal → PortCal) (e' : Nat) : (s.setPcal k h).eng e' = s.eng e' :=
  State.eng_of_col (s.setPcal_col k h) e'

@[simp] theorem State.pcal_setSys (s : State) (h : SysSt → SysSt) (p' : Nat) : (s.setSys h).pcal p' = s.pcal p' :=
  State.pcal_of_cal (s.setSys_cal h) p'
@[simp] theorem State.pcal_setClk (s : State) (h : TickSt → TickSt) (p' : Nat) : (s.setClk h).pcal p' = s.pcal p' :=
  State.pcal_of_cal (s.setClk_cal h) p'
@[simp] theorem State.pcal_setSw (s : State) (h : SwitchSt → SwitchSt) (p' : Nat) : (s.setSw h).pcal p' = s.pcal p' :=
  State.pcal_of_cal (s.setSw_cal h) p'
@[simp] theorem State.pcal_setTbl (s : State) (h : TableSt → TableSt) (p' : Nat) : (s.setTbl h).pcal p' = s.pcal p' :=
  State.pcal_of_cal (s.setTbl_cal h) p'
@[simp] theorem State.pcal_setPho (s : State) (h : PhotonSt → PhotonSt) (p' : Nat) : (s.setPho h).pcal p' = s.pcal p' :=
  State.pcal_of_cal (s.setPho_cal h) p'
@[simp] theorem State.pcal_setMgmt (s : State) (h : MgmtSt → MgmtSt) (p' : Nat) : (s.setMgmt h).pcal p' = s.pcal p' :=
  State.pcal_of_cal (s.setMgmt_cal h) p'
@[simp] theorem State.pcal_setFuse (s : State) (h : FuseSt → FuseSt) (p' : Nat) : (s.setFuse h).pcal p' = s.pcal p' :=
  State.pcal_of_cal (s.setFuse_cal h) p'
@[simp] theorem State.pcal_setCol (s : State) (h : CollectSt → CollectSt) (p' : Nat) : (s.setCol h).pcal p' = s.pcal p' :=
  State.pcal_of_cal (s.setCol_cal h) p'
@[simp] theorem State.pcal_setTwin (s : State) (h : TwinSt → TwinSt) (p' : Nat) : (s.setTwin h).pcal p' = s.pcal p' :=
  State.pcal_of_cal (s.setTwin_cal h) p'
@[simp] theorem State.pcal_setAer (s : State) (h : AerSt → AerSt) (p' : Nat) : (s.setAer h).pcal p' = s.pcal p' :=
  State.pcal_of_cal (s.setAer_cal h) p'
@[simp] theorem State.pcal_setFlt (s : State) (h : FaultSt → FaultSt) (p' : Nat) : (s.setFlt h).pcal p' = s.pcal p' :=
  State.pcal_of_cal (s.setFlt_cal h) p'
@[simp] theorem State.pcal_setDump (s : State) (h : DumpSt → DumpSt) (p' : Nat) : (s.setDump h).pcal p' = s.pcal p' :=
  State.pcal_of_cal (s.setDump_cal h) p'
@[simp] theorem State.pcal_setPort (s : State) (k : Nat) (h : PortSt → PortSt) (p' : Nat) : (s.setPort k h).pcal p' = s.pcal p' :=
  State.pcal_of_cal (s.setPort_cal k h) p'
@[simp] theorem State.pcal_setDie (s : State) (k : Nat) (h : DieSt → DieSt) (p' : Nat) : (s.setDie k h).pcal p' = s.pcal p' :=
  State.pcal_of_cal (s.setDie_cal k h) p'
@[simp] theorem State.pcal_setLane (s : State) (k : Nat) (h : LaneSt → LaneSt) (p' : Nat) : (s.setLane k h).pcal p' = s.pcal p' :=
  State.pcal_of_cal (s.setLane_cal k h) p'
@[simp] theorem State.pcal_setCarrier (s : State) (k1 k2 : Nat) (h : CarrierSt → CarrierSt) (p' : Nat) : (s.setCarrier k1 k2 h).pcal p' = s.pcal p' :=
  State.pcal_of_cal (s.setCarrier_cal k1 k2 h) p'
@[simp] theorem State.pcal_setEls (s : State) (k : Nat) (h : ElsSt → ElsSt) (p' : Nat) : (s.setEls k h).pcal p' = s.pcal p' :=
  State.pcal_of_cal (s.setEls_cal k h) p'
@[simp] theorem State.pcal_setCtx (s : State) (k : Nat) (h : CtxSt → CtxSt) (p' : Nat) : (s.setCtx k h).pcal p' = s.pcal p' :=
  State.pcal_of_cal (s.setCtx_cal k h) p'
@[simp] theorem State.pcal_setCore (s : State) (k : Nat) (h : CoreSt → CoreSt) (p' : Nat) : (s.setCore k h).pcal p' = s.pcal p' :=
  State.pcal_of_cal (s.setCore_cal k h) p'
@[simp] theorem State.pcal_setEng (s : State) (k : Nat) (h : EngSt → EngSt) (p' : Nat) : (s.setEng k h).pcal p' = s.pcal p' :=
  State.pcal_of_cal (s.setEng_cal k h) p'

end Sys2Proof.Machine
end

