-- ==== Sys2Proof/Laws/Ports.lean ====
section
/-! SUPPORT. What a port's service flags survive: cells that leave, credits that clear, fences and lane changes. -/

namespace Sys2Proof.Machine

theorem State.sw_ports_of {s t : State} (h : t.sw = s.sw) : t.sw.ports = s.sw.ports := by rw [h]

theorem dtdFree_ports (s : State) (p vc d n : Nat) : (s.dtdFree p vc d n).sw.ports = s.sw.ports := rfl

theorem setFlow_ports (s : State) (f : Flow) : (s.setFlow f).sw.ports = s.sw.ports := rfl

theorem cellLeaves_ports (s : State) (c : Cell) : (s.cellLeaves c).sw.ports = s.sw.ports := by
  unfold State.cellLeaves
  split
  · rfl
  · split <;> rfl

theorem foldl_ports {α : Type} (l : List α) (f : State → α → State) (h : ∀ s a, (f s a).sw.ports = s.sw.ports) (s : State) :
    (l.foldl f s).sw.ports = s.sw.ports := by
  induction l generalizing s with
  | nil => rfl
  | cons a r ih => rw [List.foldl_cons, ih, h]

theorem each_ports {α : Type} (s : State) (l : List α) (f : State → α → State) (h : ∀ s a, (f s a).sw.ports = s.sw.ports) :
    (s.each l f).sw.ports = s.sw.ports := foldl_ports l f h s

theorem portCtr_sw (s : State) (c : PortCtr) (p n : Nat) : (s.portCtr c p n).sw = s.sw :=
  (onlyTouches_of_blank (l := [.regs]) (portCtr_blank _ (by decide) s c p n)).2 .sw (by decide)

theorem egressDiscard_ports (s : State) (x : EgPkt) (c : PortCtr) : (s.egressDiscard x c).sw.ports = s.sw.ports := by
  unfold State.egressDiscard State.egressGone
  split
  · rw [dtdFree_ports, portCtr_sw]
  · rw [portCtr_sw]

theorem truncate_ports (s : State) (f : Flow) : (s.truncate f).sw.ports = s.sw.ports := by
  unfold State.truncate
  rw [setFlow_ports, foldl_ports _ _ cellLeaves_ports, State.send_sw, portCtr_sw]

theorem discardQueued_ports (s : State) (p : Nat) (c : PortCtr) : (s.discardQueued p c).sw.ports = s.sw.ports := by
  unfold State.discardQueued
  refine (each_ports _ _ _ fun s f => ?_).trans ?_
  · rw [setFlow_ports, foldl_ports _ _ fun s (x : Cell × Nat) => cellLeaves_ports s x.1]
    split
    · exact truncate_ports ..
    · exact foldl_ports _ _ cellLeaves_ports _
  · show (State.each _ _ _).sw.ports = _
    exact each_ports _ _ _ fun s x => egressDiscard_ports ..

theorem dropArrivals_ports (s : State) (p : Nat) : (s.dropArrivals p).sw.ports = s.sw.ports := rfl

/-- The service flags of a port: enabled, in LULL, fenced, up, in KITE. -/
def State.flags (s : State) (p : Nat) : Bool × Bool × Bool × Bool × Bool :=
  ((s.port p).enabled, (s.port p).lull, (s.port p).fenced, (s.port p).up, (s.port p).kite)

theorem State.flags_of_ports {s t : State} (h : t.sw.ports = s.sw.ports) (p : Nat) : t.flags p = s.flags p := by
  have : t.port p = s.port p := by
    unfold State.port
    rw [h]
  unfold State.flags
  rw [this]

theorem State.flags_of_sw {s t : State} (h : t.sw = s.sw) (p : Nat) : t.flags p = s.flags p :=
  flags_of_ports (by rw [h]) p

theorem State.flags_setPort (s : State) (a p : Nat) (g : PortSt → PortSt)
    (h : ∀ x, ((g x).enabled, (g x).lull, (g x).fenced, (g x).up, (g x).kite) = (x.enabled, x.lull, x.fenced, x.up, x.kite)) :
    (s.setPort a g).flags p = s.flags p := by
  unfold State.flags
  by_cases e : p = a
  · subst e
    rw [State.port_setPort_same, h]
  · rw [State.port_setPort_ne _ _ _ _ e]

theorem clearCredits_flags (s : State) (a p : Nat) : (s.clearCredits a).flags p = s.flags p := by
  have h : (s.clearCredits a).flags p =
      (s.setPort a fun x => { x with creditSeen := [], creditUsed := [], freed := [], freedSent := [] }).flags p :=
    State.flags_of_ports rfl p
  rw [h]
  exact State.flags_setPort s a p _ fun x => rfl

theorem portStops_flags (s : State) (a p : Nat) : (s.portStops a).flags p = s.flags p := by
  unfold State.portStops
  rw [clearCredits_flags, State.flags_of_ports ((dropArrivals_ports _ _).trans (discardQueued_ports _ _ _))]

/-- What does not change the switching part leaves every port's flags. -/
theorem flags_frame {l : List Part} {s t : State} (hl : Part.sw ∉ l)
    (h : t.blank (fun p => decide (p ∈ l)) = s.blank fun p => decide (p ∈ l)) (p : Nat) : t.flags p = s.flags p :=
  State.flags_of_sw ((onlyTouches_of_blank h).2 .sw hl) p

theorem bringUp_flags (s : State) (a : Nat) : (s.bringUp a).flags a =
    ((s.port a).enabled, (s.port a).lull, (s.port a).fenced, true, (s.port a).kite) := by
  unfold State.bringUp
  rw [clearCredits_flags]
  unfold State.flags
  rw [State.port_setPort_same]

theorem applyFence_flags (s : State) (a p : Nat) : (s.applyFence a).flags p =
    ((s.port p).enabled, (s.port p).lull, (s.port p).fenced || p == a, (s.port p).up, (s.port p).kite) := by
  have h1 : ((s.setPort a fun x => { x with fenced := true }).setFlt fun f =>
      { f with fences := s.clk.up :: f.fences, held := f.held.filter fun h => h.port != a }).flags p =
      ((s.port p).enabled, (s.port p).lull, (s.port p).fenced || p == a, (s.port p).up, (s.port p).kite) := by
    refine (State.flags_of_sw (s := s.setPort a fun x => { x with fenced := true }) rfl p).trans ?_
    unfold State.flags
    by_cases e : p = a
    · subst e
      rw [State.port_setPort_same]
      simp
    · rw [State.port_setPort_ne _ _ _ _ e]
      simp [e]
  unfold State.applyFence
  rw [flags_frame (l := [.regs, .mgmt, .aer]) (by decide) (alarm_blank _ (by decide) (by decide) (by decide) _ _ _ _ _ _)]
  refine Eq.trans ?_ h1
  have hc : ∀ (c : Prop) [Decidable c] (t : State), (if c then t.portStops a else t).flags p = t.flags p := by
    intro c _ t
    split
    · exact portStops_flags ..
    · rfl
  refine (hc _ _).trans ?_
  exact flags_frame (l := [.regs]) (by decide) (bump_blank _ (by decide) _ _ _) p

/-- A fence leaves every port enabled that was. -/
theorem requestFence_enabled (s : State) (a : Nat) (w b : Bool) (m : List (Nat × Nat)) (p : Nat) :
    (((s.requestFence a w b m).1).port p).enabled = (s.port p).enabled := by
  have key : ∀ t : State, t.flags p = s.flags p → (t.port p).enabled = (s.port p).enabled := fun t h => congrArg Prod.fst h
  unfold State.requestFence
  split
  · rfl
  · split
    · rfl
    · split
      · exact congrArg Prod.fst (applyFence_flags s a p)
      · exact key _ (flags_frame (l := [.regs, .mgmt, .aer, .flt]) (by decide) (by simp) p)

theorem each_enabled {α : Type} (p : Nat) (f : State → α → State) (h : ∀ s a, ((f s a).port p).enabled = (s.port p).enabled)
    (l : List α) (s : State) : ((s.each l f).port p).enabled = (s.port p).enabled := by
  unfold State.each
  induction l generalizing s with
  | nil => rfl
  | cons a r ih => rw [List.foldl_cons, ih, h]

theorem judgeFalls_enabled (s : State) (ports : List Nat) (members : List (Nat × Nat)) (p : Nat) :
    ((s.judgeFalls ports members).port p).enabled = (s.port p).enabled := by
  unfold State.judgeFalls
  split
  · rfl
  · exact each_enabled p _ (fun s a => requestFence_enabled ..) _ _

theorem takeDown_enabled (s : State) (a c p : Nat) : ((s.takeDown a c).port p).enabled = (s.port p).enabled := by
  have h1 : ((s.setPort a fun x => { x with up := false, goodSince := s.clk.up }).port p).enabled = (s.port p).enabled := by
    by_cases e : p = a
    · subst e; rw [State.port_setPort_same]
    · rw [State.port_setPort_ne _ _ _ _ e]
  have h2 : ∀ (c : Prop) [Decidable c] (t : State), ((if c then t.portStops a else t).port p).enabled = (t.port p).enabled := by
    intro c _ t
    split
    · exact congrArg Prod.fst (portStops_flags t a p)
    · rfl
  have h3 : ∀ (t : State) (n : Nat) (e : AerLink), (((t.scoreFalls a n e).1).port p).enabled = (t.port p).enabled := fun t n e =>
    congrArg Prod.fst (flags_frame (l := [.regs, .mgmt, .aer, .flt]) (by decide)
      (scoreFalls_blank _ (by decide) (by decide) t a n e) p)
  unfold State.takeDown
  dsimp only
  split
  · unfold State.penalize
    dsimp only
    rw [judgeFalls_enabled]
    rw [h3]
    exact (h2 _ _).trans h1
  · exact (h2 _ _).trans h1

theorem setPort_enabled (s : State) (a p : Nat) (g : PortSt → PortSt) (h : ∀ x, (g x).enabled = x.enabled) :
    ((s.setPort a g).port p).enabled = (s.port p).enabled := by
  by_cases e : p = a
  · subst e; rw [State.port_setPort_same, h]
  · rw [State.port_setPort_ne _ _ _ _ e]

theorem settleWidth_enabled (s : State) (a p : Nat) : ((s.settleWidth a).port p).enabled = (s.port p).enabled := by
  unfold State.settleWidth
  rw [setPort_enabled]
  intro; rfl

theorem stretchTx_enabled (s : State) (a o n p : Nat) : ((s.stretchTx a o n).port p).enabled = (s.port p).enabled := by
  unfold State.stretchTx
  dsimp only
  split
  · rfl
  · split
    · split
      · rw [setPort_enabled _ _ _ _ (by intro; rfl), State.port_bump, setPort_enabled]
        intro; rfl
      · rw [setPort_enabled]
        intro; rfl
    · rw [setPort_enabled]
      intro; rfl

/-- A change of a lane leaves every port enabled that was. -/
theorem changeLane_enabled (s : State) (l : Nat) (f : LaneSt → LaneSt) (p : Nat) :
    ((s.changeLane l f).port p).enabled = (s.port p).enabled := by
  have h0 : ((s.setLane l f).port p).enabled = (s.port p).enabled := rfl
  have hs : ∀ (c : Prop) [Decidable c] (t : State) (a : Nat) (g : PortSt → PortSt), (∀ x, (g x).enabled = x.enabled) →
      ((if c then t.setPort a g else t).port p).enabled = (t.port p).enabled := by
    intro c _ t a g hg
    split
    · by_cases e : p = a
      · subst e; rw [State.port_setPort_same, hg]
      · rw [State.port_setPort_ne _ _ _ _ e]
    · rfl
  have ha : ∀ (c : Prop) [Decidable c] (t : State) (b i d : Nat),
      ((if c then t.alarmPlain b i d else t).port p).enabled = (t.port p).enabled := by
    intro c _ t b i d
    split
    · exact congrArg Prod.fst (flags_frame (l := [.regs, .mgmt, .aer]) (by decide) (alarmPlain_blank _ (by decide) (by decide) (by decide) _ _ _ _) p)
    · rfl
  have hd : ∀ (c : Prop) [Decidable c] (t : State) (a b : Nat),
      ((if c then t.takeDown a b else t).port p).enabled = (t.port p).enabled := by
    intro c _ t a b
    split
    · exact takeDown_enabled ..
    · rfl
  unfold State.changeLane
  split
  · exact h0
  · dsimp only
    split
    · exact h0
    · rw [hd, ha, hs]
      · rw [stretchTx_enabled, settleWidth_enabled]
        exact h0
      · intro; rfl

theorem lightLane_enabled (s : State) (l p : Nat) : ((s.lightLane l).port p).enabled = (s.port p).enabled := by
  unfold State.lightLane
  exact changeLane_enabled ..

/-- R321: ENABLE. -/
theorem enablePort_enabled (s : State) (p : Nat) : ((s.enablePort p).port p).enabled = true := by
  have hb : ∀ (c : Prop) [Decidable c] (t : State), ((if c then t.bringUp p else t).port p).enabled = (t.port p).enabled := by
    intro c _ t
    split
    · exact congrArg Prod.fst (bringUp_flags t p)
    · rfl
  have hl : ∀ (c : Prop) [Decidable c] (t : State) (l : List Nat),
      ((if c then t.each l State.lightLane else t).port p).enabled = (t.port p).enabled := by
    intro c _ t l
    split
    · exact each_enabled p _ (fun s a => lightLane_enabled s a p) l t
    · rfl
  unfold State.enablePort
  dsimp only
  rw [hb, State.port_rset, hl]
  refine (congrArg Prod.fst (clearCredits_flags _ p p)).trans ?_
  show ((State.setPort _ _ _).port p).enabled = _
  rw [State.port_setPort_same]

end Sys2Proof.Machine
end

