-- ==== Sys2Proof/Laws/Ctrl.lean ====
section
/-! SUPPORT. What happens by itself writes no CTRL register: offset 0x008 of a page changes by a write alone. -/

namespace Sys2Proof.Machine

/-- Every register at offset 0x008 of its page. -/
def State.ctrls (s : State) : Nat → Nat := fun i => s.rget (4096 * i + 8)

theorem ctrls_of_regs {s t : State} (h : t.regs = s.regs) : t.ctrls = s.ctrls := funext fun _ => State.rget_congr h _

theorem ctrls_frame {l : List Part} {s t : State} (hl : Part.regs ∉ l)
    (h : t.blank (fun p => decide (p ∈ l)) = s.blank fun p => decide (p ∈ l)) : t.ctrls = s.ctrls :=
  ctrls_of_regs ((onlyTouches_of_blank h).2 .regs hl)

theorem rset_ctrls (s : State) (a v : Nat) (h : a % 4096 ≠ 8) : (s.rset a v).ctrls = s.ctrls :=
  funext fun i => State.rget_rset_ne _ _ _ _ (by omega)

theorem bump_ctrls (s : State) (a n : Nat) (h : a % 4096 ≠ 8) : (s.bump a n).ctrls = s.ctrls := rset_ctrls _ _ _ h

theorem fset_ctrls (s : State) (a hi lo v : Nat) (h : a % 4096 ≠ 8) : (s.fset a hi lo v).ctrls = s.ctrls := rset_ctrls _ _ _ h

theorem each_ctrls {α : Type} (f : State → α → State) (h : ∀ s a, (f s a).ctrls = s.ctrls) (l : List α) (s : State) :
    (s.each l f).ctrls = s.ctrls := by
  unfold State.each
  induction l generalizing s with
  | nil => rfl
  | cons a r ih => rw [List.foldl_cons, ih, h]

theorem ite_ctrls (c : Prop) [Decidable c] {a b s : State} (ha : a.ctrls = s.ctrls) (hb : b.ctrls = s.ctrls) :
    (if c then a else b).ctrls = s.ctrls := by split <;> assumption

theorem pmc_ctrls (s : State) (base code n : Nat) (h : base % 4096 = 0) : (s.pmc base code n).ctrls = s.ctrls := by
  unfold State.pmc
  refine each_induction_mem (fun t => t.ctrls = s.ctrls) _ _ _ rfl ?_
  intro t i hi ht
  rw [List.mem_range] at hi
  split
  · rw [bump_ctrls _ _ _ (by omega), ht]
  · exact ht

theorem portReg_mod (p o : Nat) : portReg p o % 4096 = o % 4096 := by unfold portReg; omega
theorem calReg_mod (p o : Nat) : calReg p o % 4096 = o % 4096 := by unfold calReg; omega
theorem pblDieReg_mod (p o : Nat) : pblDieReg p o % 4096 = o % 4096 := by unfold pblDieReg; omega
theorem lanePage_mod (l : Nat) : lanePage l % 4096 = 0 := by unfold lanePage; split <;> omega

theorem portCtr_ctrls (s : State) (c : PortCtr) (p n : Nat) : (s.portCtr c p n).ctrls = s.ctrls := by
  refine bump_ctrls _ _ _ ?_
  unfold PortCtr.reg
  rw [portReg_mod]
  cases c <;> decide

theorem attn_ctrls (s : State) (base b : Nat) (h : base % 4096 = 0) : (s.attn base b).ctrls = s.ctrls := by
  unfold State.attn
  dsimp only
  split
  · exact pmc_ctrls _ _ _ _ h
  · have h2 : ∀ v, ((s.pmc base 3 1).rset (base + 0x010) v).ctrls = s.ctrls := fun v =>
      (rset_ctrls _ _ _ (by omega)).trans (pmc_ctrls _ _ _ _ h)
    split
    · exact h2 _
    · exact (ctrls_frame (l := [.mgmt]) (by decide) (gainAttention_blank _ (by decide) _)).trans (h2 _)

theorem record_ctrls (s : State) (base : Nat) (bit : Option Nat) (cause detail : Nat) (links : List AerLink) :
    (s.record base bit cause detail links).ctrls = s.ctrls := by
  unfold State.record
  split
  · exact ctrls_of_regs rfl
  · have h : ∀ g : AerSt → AerSt, ((s.bump (telReg 0x310)).setAer g).ctrls = s.ctrls := fun g =>
      (ctrls_of_regs (s := s.bump (telReg 0x310)) (s.bump (telReg 0x310) |>.setAer_regs g)).trans (bump_ctrls _ _ _ (by decide))
    exact h _

theorem alarm_ctrls (s : State) (base b cause detail : Nat) (links : List AerLink) (h : base % 4096 = 0) :
    (s.alarm base b cause detail links).ctrls = s.ctrls := by
  unfold State.alarm
  rw [record_ctrls, attn_ctrls _ _ _ h]

theorem alarmPlain_ctrls (s : State) (base b detail : Nat) (h : base % 4096 = 0) :
    (s.alarmPlain base b detail).ctrls = s.ctrls := alarm_ctrls _ _ _ _ _ _ h

theorem setPort_ctrls (s : State) (p : Nat) (g : PortSt → PortSt) : (s.setPort p g).ctrls = s.ctrls := ctrls_of_regs rfl

theorem clearCredits_ctrls (s : State) (p : Nat) : (s.clearCredits p).ctrls = s.ctrls := ctrls_of_regs rfl

theorem dropArrivals_ctrls (s : State) (p : Nat) : (s.dropArrivals p).ctrls = s.ctrls := ctrls_of_regs rfl

theorem foldl_ctrls {α : Type} (f : State → α → State) (h : ∀ s a, (f s a).ctrls = s.ctrls) (l : List α) (s : State) :
    (l.foldl f s).ctrls = s.ctrls := each_ctrls f h l s

theorem cellLeaves_ctrls (s : State) (c : Cell) : (s.cellLeaves c).ctrls = s.ctrls := by
  unfold State.cellLeaves
  split
  · exact ctrls_of_regs rfl
  · split <;> exact ctrls_of_regs rfl

theorem egressDiscard_ctrls (s : State) (x : EgPkt) (c : PortCtr) : (s.egressDiscard x c).ctrls = s.ctrls := by
  unfold State.egressDiscard State.egressGone
  split
  · exact (ctrls_of_regs rfl).trans (portCtr_ctrls ..)
  · exact portCtr_ctrls ..

theorem setFlow_ctrls (s : State) (f : Flow) : (s.setFlow f).ctrls = s.ctrls := ctrls_of_regs rfl

theorem send_ctrls (s : State) (o : Sent) : (s.send o).ctrls = s.ctrls := ctrls_of_regs rfl

theorem truncate_ctrls (s : State) (f : Flow) : (s.truncate f).ctrls = s.ctrls := by
  unfold State.truncate
  rw [setFlow_ctrls, foldl_ctrls _ cellLeaves_ctrls, send_ctrls, portCtr_ctrls]

theorem discardQueued_ctrls (s : State) (p : Nat) (c : PortCtr) : (s.discardQueued p c).ctrls = s.ctrls := by
  unfold State.discardQueued
  refine (each_ctrls _ (fun s f => ?_) _ _).trans ?_
  · rw [setFlow_ctrls, foldl_ctrls _ fun s (x : Cell × Nat) => cellLeaves_ctrls s x.1]
    split
    · exact truncate_ctrls ..
    · exact foldl_ctrls _ cellLeaves_ctrls _ _
  · have h : ∀ (t : State) (g : SwitchSt → SwitchSt), (t.setSw g).ctrls = t.ctrls := fun _ _ => ctrls_of_regs rfl
    rw [h]
    exact each_ctrls _ (fun s x => egressDiscard_ctrls ..) _ _

theorem portStops_ctrls (s : State) (p : Nat) : (s.portStops p).ctrls = s.ctrls := by
  unfold State.portStops
  rw [clearCredits_ctrls, dropArrivals_ctrls, discardQueued_ctrls]

theorem applyFence_ctrls (s : State) (p : Nat) : (s.applyFence p).ctrls = s.ctrls := by
  have hc : ∀ (c : Prop) [Decidable c] (t : State), (if c then t.portStops p else t).ctrls = t.ctrls := by
    intro c _ t
    split
    · exact portStops_ctrls ..
    · rfl
  unfold State.applyFence
  rw [alarm_ctrls _ _ _ _ _ _ (by rw [portReg_mod])]
  refine (hc _ _).trans ?_
  rw [bump_ctrls _ _ _ (by decide)]
  exact ctrls_of_regs rfl

theorem requestFence_ctrls (s : State) (p : Nat) (w b : Bool) (m : List (Nat × Nat)) :
    (s.requestFence p w b m).1.ctrls = s.ctrls := by
  unfold State.requestFence
  split
  · rfl
  · split
    · exact ctrls_of_regs rfl
    · split
      · exact applyFence_ctrls ..
      · refine (alarm_ctrls _ _ _ _ _ _ (by rw [portReg_mod])).trans ?_
        rw [bump_ctrls _ _ _ (by decide)]
        exact ctrls_of_regs rfl

theorem judgeFalls_ctrls (s : State) (ports : List Nat) (members : List (Nat × Nat)) :
    (s.judgeFalls ports members).ctrls = s.ctrls := by
  unfold State.judgeFalls
  split
  · rfl
  · exact each_ctrls _ (fun s a => requestFence_ctrls ..) _ _

theorem penalize_ctrls (s : State) (p n : Nat) (e : AerLink) : (s.penalize p n e).ctrls = s.ctrls := by
  unfold State.penalize State.scoreFalls
  dsimp only
  rw [judgeFalls_ctrls]
  refine (ctrls_of_regs (s := s.fset (portReg p 0x118) 7 0 _) rfl).trans ?_
  exact fset_ctrls _ _ _ _ _ (by rw [portReg_mod]; decide)

theorem takeDown_ctrls (s : State) (p c : Nat) : (s.takeDown p c).ctrls = s.ctrls := by
  have hc : ∀ (c : Prop) [Decidable c] (t : State), (if c then t.portStops p else t).ctrls = t.ctrls := by
    intro c _ t
    split
    · exact portStops_ctrls ..
    · rfl
  unfold State.takeDown
  dsimp only
  split
  · rw [penalize_ctrls, hc, setPort_ctrls]
  · rw [hc, setPort_ctrls]

theorem stretchTx_ctrls (s : State) (p o n : Nat) : (s.stretchTx p o n).ctrls = s.ctrls := by
  unfold State.stretchTx
  dsimp only
  split
  · rfl
  · split
    · split
      · rw [setPort_ctrls, bump_ctrls _ _ _ (by rw [calReg_mod]; decide), setPort_ctrls]
      · rw [setPort_ctrls]
    · rw [setPort_ctrls]

theorem changeLane_ctrls (s : State) (l : Nat) (f : LaneSt → LaneSt) : (s.changeLane l f).ctrls = s.ctrls := by
  have h0 : (s.setLane l f).ctrls = s.ctrls := ctrls_of_regs rfl
  have hs : ∀ (c : Prop) [Decidable c] (t : State) (a : Nat) (g : PortSt → PortSt),
      (if c then t.setPort a g else t).ctrls = t.ctrls := by
    intro c _ t a g
    split
    · exact setPort_ctrls ..
    · rfl
  have ha : ∀ (c : Prop) [Decidable c] (t : State) (p i d : Nat),
      (if c then t.alarmPlain (calReg p 0) i d else t).ctrls = t.ctrls := by
    intro c _ t p i d
    split
    · exact alarmPlain_ctrls _ _ _ _ (by rw [calReg_mod])
    · rfl
  have hd : ∀ (c : Prop) [Decidable c] (t : State) (a b : Nat), (if c then t.takeDown a b else t).ctrls = t.ctrls := by
    intro c _ t a b
    split
    · exact takeDown_ctrls ..
    · rfl
  unfold State.changeLane
  split
  · exact h0
  · dsimp only
    split
    · exact h0
    · rw [hd, ha, hs, stretchTx_ctrls]
      exact h0

theorem relane_ctrls (s : State) (l : Nat) : (s.relane l).ctrls = s.ctrls := by
  unfold State.relane
  dsimp only
  split
  · split
    · rw [takeDown_ctrls, alarm_ctrls _ _ _ _ _ _ (lanePage_mod l), changeLane_ctrls]
    · rw [alarm_ctrls _ _ _ _ _ _ (lanePage_mod l), changeLane_ctrls]
  · exact changeLane_ctrls ..

theorem refreshDtd_ctrls (s : State) (d : DieNo) (n : Fin 512) : (s.refreshDtd d n).ctrls = s.ctrls := by
  have h : ∀ g : DieSt → DieSt, (s.setDie d.val g).ctrls = s.ctrls := fun g => ctrls_of_regs rfl
  unfold State.refreshDtd
  dsimp only
  split
  · split
    · exact h _
    · rfl
  · split
    · rfl
    · rw [alarmPlain_ctrls _ _ _ _ (by rw [pblDieReg_mod]), h]

theorem ringChanged_ctrls (s : State) (r : Ring) : (s.ringChanged r).ctrls = s.ctrls := by
  unfold State.ringChanged
  split
  · exact each_ctrls _ (fun s l => relane_ctrls s l) _ _
  · exact each_ctrls _ (fun s l => relane_ctrls s l) _ _
  · exact refreshDtd_ctrls ..
  · exact refreshDtd_ctrls ..

theorem moveRing_ctrls (s : State) (r : Ring) (x : RingSt) : (s.moveRing r x).ctrls = s.ctrls := by
  unfold State.moveRing
  rw [ringChanged_ctrls]
  exact ctrls_frame (l := [.pho]) (by decide) (putRing_blank _ (by decide) _ _ _)

theorem fitSpares_ctrls (s : State) (f : Nat) : (s.fitSpares f).ctrls = s.ctrls := by
  unfold State.fitSpares
  split
  · refine each_ctrls _ (fun s c => ?_) _ _
    have h : ∀ x, (s.setCarrierRings c.1 c.2 x).ctrls = s.ctrls := fun x => by
      unfold State.setCarrierRings
      rw [moveRing_ctrls, moveRing_ctrls]
    split
    · split
      · exact h _
      · rfl
    · split
      · exact h _
      · rfl
  · rfl

theorem macModeFlush_ctrls (s : State) (ports : List Nat) : (s.macModeFlush ports).ctrls = s.ctrls := by
  unfold State.macModeFlush
  dsimp only
  rw [bump_ctrls _ _ _ (by decide)]
  exact ctrls_frame (l := [.tbl]) (by decide) (macRemove_blank _ (by decide) _ _)

theorem modeWritten_ctrls (s0 s : State) (n : Nat) : (State.modeWritten s0 s n).ctrls = s.ctrls := by
  unfold State.modeWritten
  dsimp only
  rw [fitSpares_ctrls, macModeFlush_ctrls, setPort_ctrls]
  refine each_induction_mem (fun t => t.ctrls = s.ctrls) _ _ _ rfl fun t b hb ht => ?_
  rw [List.mem_range] at hb
  rw [fset_ctrls _ _ _ _ _ (by unfold bucketCfg; rw [portReg_mod]; omega), ht]

theorem port_ctrl_of {s t : State} (h : t.ctrls = s.ctrls) (p : Nat) : t.rget (portReg p 8) = s.rget (portReg p 8) := by
  have e : portReg p 8 = 4096 * (portReg p 8 / 4096) + 8 := by unfold portReg; omega
  rw [e]
  exact congrFun h _

end Sys2Proof.Machine
end

