-- ==== Sys2Proof/Laws/Drafts.lean ====
section
/-! SUPPORT. Drafts: what a 32-bit write makes of each kind of field. -/

namespace Sys2Proof.Machine

theorem testBit_putBits (v hi lo f i : Nat) :
    (putBits v hi lo f).testBit i = if lo ≤ i ∧ i < hi + 1 ∧ lo ≤ hi then f.testBit (i - lo) else v.testBit i := by
  rw [putBits_eq]
  have h1 : v % 2 ^ lo < 2 ^ lo := Nat.mod_lt _ (Nat.two_pow_pos _)
  have e : v / 2 ^ lo / 2 ^ (hi + 1 - lo) * 2 ^ (hi + 1 - lo) * 2 ^ lo + f % 2 ^ (hi + 1 - lo) * 2 ^ lo + v % 2 ^ lo =
      2 ^ lo * (2 ^ (hi + 1 - lo) * (v / 2 ^ lo / 2 ^ (hi + 1 - lo)) + f % 2 ^ (hi + 1 - lo)) + v % 2 ^ lo := by ring
  rw [e, Nat.testBit_two_pow_mul_add _ h1]
  by_cases hi1 : i < lo
  · rw [if_pos hi1, Nat.testBit_mod_two_pow, if_neg (by omega)]
    simp [hi1]
  · rw [if_neg hi1, Nat.testBit_two_pow_mul_add _ (Nat.mod_lt _ (Nat.two_pow_pos _))]
    by_cases hi2 : i - lo < hi + 1 - lo
    · rw [if_pos hi2, Nat.testBit_mod_two_pow, if_pos (by omega)]
      simp [hi2]
    · rw [if_neg hi2, if_neg (by omega), Nat.testBit_div_two_pow, Nat.testBit_div_two_pow]
      congr 1
      omega

theorem testBit_bits (v hi lo i : Nat) : (bits v hi lo).testBit i = (decide (i < hi + 1 - lo) && v.testBit (i + lo)) := by
  unfold bits
  rw [Nat.testBit_mod_two_pow, Nat.testBit_shiftRight, Nat.add_comm lo i]

/-- A field apart from the one stored keeps its value. -/
theorem bits_putBits_ne (v hi lo f h2 l2 : Nat) (h : h2 < lo ∨ hi < l2) : bits (putBits v hi lo f) h2 l2 = bits v h2 l2 := by
  apply Nat.eq_of_testBit_eq
  intro i
  rw [testBit_bits, testBit_bits, testBit_putBits]
  by_cases hi1 : i < h2 + 1 - l2
  · rw [if_neg (by omega)]
  · simp [hi1]

theorem bits_lt (v hi lo : Nat) : bits v hi lo < 2 ^ (hi + 1 - lo) := Nat.mod_lt _ (Nat.two_pow_pos _)

theorem bits_mask (hi lo : Nat) (h : hi < 32) : bits 4294967295 hi lo = 2 ^ (hi + 1 - lo) - 1 := by
  apply Nat.eq_of_testBit_eq
  intro i
  have e : (4294967295 : Nat) = 2 ^ 32 - 1 := by norm_num
  rw [testBit_bits, e, Nat.testBit_two_pow_sub_one, Nat.testBit_two_pow_sub_one]
  by_cases hi1 : i < hi + 1 - lo
  · have : i + lo < 32 := by omega
    simp [hi1, this]
  · simp [hi1]

theorem bits_and_mask (v hi lo : Nat) (h : hi < 32) : bits v hi lo &&& bits 4294967295 hi lo = bits v hi lo := by
  rw [bits_mask hi lo h, Nat.and_two_pow_sub_one_eq_mod]
  exact Nat.mod_eq_of_lt (bits_lt v hi lo)

/-- An RW field takes the value given if its range admits it (R10, R11). -/
theorem take_rw (locked : Bool) (v hi lo : Nat) (d : Draft) (rs : List (Nat × Nat)) (h : hi < 32) :
    Draft.take locked 4294967295 v d ⟨hi, lo, .rw, rs⟩ =
      if Field.admits ⟨hi, lo, .rw, rs⟩ (bits v hi lo) then
        { d with value := putBits d.value hi lo (bits v hi lo), changed := d.changed || bits v hi lo != bits d.value hi lo }
      else { d with bad := true } := by
  unfold Draft.take
  dsimp only
  rw [bits_and_mask _ _ _ h, bits_and_mask _ _ _ h, Nat.sub_self, Nat.zero_add]

/-- An RWL field that is not locked takes the value given (R10). -/
theorem take_rwl (v hi lo : Nat) (d : Draft) (rs : List (Nat × Nat)) (h : hi < 32) :
    Draft.take false 4294967295 v d ⟨hi, lo, .rwl, rs⟩ =
      if bits v hi lo = bits d.value hi lo then d
      else { d with value := putBits d.value hi lo (bits v hi lo), changed := true } := by
  unfold Draft.take
  dsimp only
  rw [bits_and_mask _ _ _ h, bits_and_mask _ _ _ h, Nat.sub_self, Nat.zero_add]
  simp

/-- An RWL field that the write does not change stays, locked or not (R10). -/
theorem take_rwl_same (locked : Bool) (v hi lo : Nat) (d : Draft) (rs : List (Nat × Nat)) (h : hi < 32)
    (hs : bits v hi lo = bits d.value hi lo) : Draft.take locked 4294967295 v d ⟨hi, lo, .rwl, rs⟩ = d := by
  unfold Draft.take
  dsimp only
  rw [bits_and_mask _ _ _ h, bits_and_mask _ _ _ h, Nat.sub_self, Nat.zero_add, if_pos hs]

theorem take_w1s (locked : Bool) (v hi lo : Nat) (d : Draft) (rs : List (Nat × Nat)) (h : hi < 32) :
    Draft.take locked 4294967295 v d ⟨hi, lo, .w1s, rs⟩ = { d with value := putBits d.value hi lo (bits d.value hi lo ||| bits v hi lo) } := by
  unfold Draft.take
  dsimp only
  rw [bits_and_mask _ _ _ h]

theorem take_cmd (locked : Bool) (v b : Nat) (d : Draft) (h : b < 32) :
    Draft.take locked 4294967295 v d (fCmd b) = { d with cmds := d.cmds ||| bits v b b * 2 ^ b } := by
  unfold Draft.take fCmd
  dsimp only
  rw [bits_and_mask _ _ _ h]

theorem take_ro (locked : Bool) (v hi lo : Nat) (d : Draft) (rs : List (Nat × Nat)) (m : Nat) :
    Draft.take locked m v d ⟨hi, lo, .ro, rs⟩ = d := rfl

/-- Putting back what a field holds changes nothing. -/
theorem putBits_self (v hi lo : Nat) : putBits v hi lo (bits v hi lo) = v := by
  unfold putBits
  have h := bits_le v hi lo
  rw [Nat.mod_eq_of_lt (bits_lt v hi lo)]
  omega

/-- A 32-bit write of the register at an offset of a page, by an ADMIN source, that nothing refuses. `S` and `w` stand for
the state and the writer as the write finds them. -/
theorem reg_command {s : State} {q : Req} {p : Page} {o v : Nat} {r : RegDef} {d : Draft} {e : Effect}
    (hd15 : p.die < 15) (hi : p.inst < 256) (hex : p.exists_ = true) (ho : o < 4096) (ho4 : o % 4 = 0) (hm : o ≠ 0x014)
    (h : Commanded s q (p.base + o) v) (hv : v < 4294967296)
    (hr : regAt p.block (p.die == 8) o = some r) (hoff : r.off = o) (hnarrow : r.wide = false)
    (hidle : s.idlePage p = false)
    (hd : draftFor (readied s q (p.base + o) v p) (writerOf s q (p.base + o) v) p r v = d)
    (hden : d.denied = false) (hbad : d.bad = false) (hone : onesOf d.cmds ≤ 1)
    (hj : (readied s q (p.base + o) v p).judgeWrite (writerOf s q (p.base + o) v) p o
      ((readied s q (p.base + o) v p).oldValue (writerOf s q (p.base + o) v) p o) d = none)
    (he : (readied s q (p.base + o) v p).writeEffect
      (storedFor (readied s q (p.base + o) v p) p o ((readied s q (p.base + o) v p).oldValue (writerOf s q (p.base + o) v) p o) d)
      (writerOf s q (p.base + o) v) p o ((readied s q (p.base + o) v p).oldValue (writerOf s q (p.base + o) v) p o) d = e)
    (hok : e.code = .ok) :
    ∃ t, done s (s.serveReg q (p.base + o) v) = .next t ∧ Leaves t e.state
      ∧ ∀ a, (a < p.base + 0x060 ∨ p.base + 0x0A0 ≤ a) → a ≠ GlbCtr.replyLost.reg →
        t.rget a = (if d.changed then e.state.advance (p.base + 0x01C) else e.state).rget a := by
  subst hoff
  have hlt := base_lt p r.off hd15 hi ho
  have hb := base_off p r.off ho
  refine serveReg_effect h (pageOf_base p r.off (by omega) hi ho hex) hlt ?_ hv (by rw [hb]; exact hr) hnarrow
    (by rw [readied_idlePage]; exact hidle) hd hden hbad hone hm hj he hok
  have := base_eq p
  omega

/-- The writer of a command from an ADMIN session of HCP 2. -/
theorem writerOf_secure {s : State} {q : Req} {addr v : Nat} (h : Commanded s q addr v) (h2 : q.hcp1 = false) :
    (writerOf s q addr v).secure = true := by
  have hadm : (taken s q 0x02 (regBody addr v)).role q = .admin := by
    have := h.admin
    unfold State.isAdmin at this
    unfold taken
    rw [accept_role]
    exact eq_of_beq this
  unfold writerOf State.writer
  simp [h2, hadm]

theorem readied_secLocked (s : State) (q : Req) (addr v : Nat) (p : Page) :
    (readied s q addr v p).secLocked = s.secLocked := by
  unfold State.secLocked State.bget
  rw [readied_rget]

/-- A bit that is set in a written word. -/
theorem bits_or_same (v b : Nat) : bits (v ||| 2 ^ b) b b = 1 := by
  have h : (v ||| 2 ^ b).testBit b = true := by simp [Nat.testBit_two_pow_self]
  unfold bits
  rw [Nat.testBit_eq_decide_div_mod_eq] at h
  have : b + 1 - b = 1 := by omega
  rw [this, Nat.shiftRight_eq_div_pow]
  simpa using h

/-- Setting one bit leaves another. -/
theorem bits_or_ne (v b c : Nat) (hbc : b ≠ c) : bits (v ||| 2 ^ c) b b = bits v b b := by
  have h : (v ||| 2 ^ c).testBit b = v.testBit b := by
    rw [Nat.testBit_or, Nat.testBit_two_pow_of_ne (Ne.symm hbc), Bool.or_false]
  rw [Nat.testBit_eq_decide_div_mod_eq, Nat.testBit_eq_decide_div_mod_eq] at h
  unfold bits
  have : b + 1 - b = 1 := by omega
  rw [this, Nat.shiftRight_eq_div_pow, Nat.shiftRight_eq_div_pow]
  simp only [decide_eq_decide] at h
  have h1 := Nat.mod_two_eq_zero_or_one ((v ||| 2 ^ c) / 2 ^ b)
  have h2 := Nat.mod_two_eq_zero_or_one (v / 2 ^ b)
  simp only [Nat.pow_one]
  omega

theorem or_bit_lt (v b : Nat) (hv : v < 2 ^ 32) (hb : b < 32) : v ||| 2 ^ b < 4294967296 :=
  Nat.or_lt_two_pow (n := 32) hv (Nat.pow_lt_pow_right (by decide) hb)

/-- A register of the SEC page. -/
theorem sec_command {s : State} {q : Req} {o v : Nat} {r : RegDef} {d : Draft} {e : Effect}
    (ho : o < 4096) (ho4 : o % 4 = 0) (hm : o ≠ 0x014)
    (h : Commanded s q (secReg o) v) (hv : v < 4294967296)
    (hr : regAt .sec true o = some r) (hoff : r.off = o) (hnarrow : r.wide = false)
    (hd : draftOf s.secLocked r.fields (s.rget (secReg o)) 4294967295 v = d)
    (hden : d.denied = false) (hbad : d.bad = false) (hone : onesOf d.cmds ≤ 1)
    (hj : judgeSec (writerOf s q (secReg o) v) o d = none)
    (he : (storedFor (readied s q (secReg o) v secPage) secPage o (s.rget (secReg o)) d).secCommand
      (writerOf s q (secReg o) v) o d.cmds = e)
    (hok : e.code = .ok) :
    ∃ t, done s (s.serveReg q (secReg o) v) = .next t ∧ Leaves t e.state
      ∧ ∀ a, (a < secReg 0x060 ∨ secReg 0x0A0 ≤ a) → a ≠ GlbCtr.replyLost.reg →
        t.rget a = (if d.changed then e.state.advance (secReg 0x01C) else e.state).rget a := by
  have hd : draftFor (readied s q (secReg o) v secPage) (writerOf s q (secReg o) v) secPage r v = d := by
    rw [← hd, ← hoff, secReg_base, ← readied_secLocked s q (secPage.base + r.off) v secPage]
    exact congrArg (fun x => draftOf _ r.fields x 4294967295 v) (readied_rget ..)
  rw [secReg_base] at h hd hj he ⊢
  have hold : (readied s q (secPage.base + o) v secPage).oldValue (writerOf s q (secPage.base + o) v) secPage o =
      s.rget (secPage.base + o) := readied_rget ..
  exact reg_command (p := secPage) (by decide) (by decide) rfl ho ho4 hm h hv hr hoff hnarrow rfl hd hden hbad hone
    (by rw [hold]; exact hj) (by rw [hold]; exact he) hok

/-- A register that is stored beside the pages' own stores. -/
def plainReg (p : Page) (o : Nat) : Prop :=
  storesItself p o = false ∧ ¬(p.block = .ctx ∧ memberWin ≤ o) ∧ ¬(p.block = .tel ∧ p.die = 8 ∧ o = 0x304)

theorem storedFor_eq (s : State) (p : Page) (o old : Nat) (d : Draft) (hp : plainReg p o) :
    storedFor s p o old d = if d.value = old then s else s.rset (p.base + o) d.value := by
  unfold storedFor State.storeReg
  rw [hp.1, if_neg hp.2.1, if_neg hp.2.2]
  simp only [Bool.false_or, beq_iff_eq]

theorem storedFor_rget (s : State) (p : Page) (o : Nat) (d : Draft) (hp : plainReg p o) (hv : d.value < 2 ^ 64) :
    (storedFor s p o (s.rget (p.base + o)) d).rget (p.base + o) = d.value := by
  rw [storedFor_eq _ _ _ _ _ hp]
  split
  · next h => exact h.symm
  · rw [State.rget_rset_same, Nat.mod_eq_of_lt hv]

theorem storedFor_rget_ne (s : State) (p : Page) (o old a : Nat) (d : Draft) (hp : plainReg p o) (ha : a ≠ p.base + o) :
    (storedFor s p o old d).rget a = s.rget a := by
  rw [storedFor_eq _ _ _ _ _ hp]
  split
  · rfl
  · rw [State.rget_rset_ne _ _ _ _ ha]

theorem storedFor_blank (K : Part → Bool) (h : K .regs = true) (s : State) (p : Page) (o old : Nat) (d : Draft) :
    (storedFor s p o old d).blank K = s.blank K := by
  unfold storedFor
  split
  · rfl
  · rw [storeReg_blank K h]

theorem storedFor_same (s : State) (p : Page) (o v c : Nat) (h : storesItself p o = false) :
    storedFor s p o v { value := v, cmds := c } = s := by
  unfold storedFor
  rw [h]
  simp

/-- A command bit of the SEC page. -/
theorem sec_cmd {s : State} {q : Req} {o v c : Nat} {r : RegDef} {e : Effect}
    (ho : o < 4096) (ho4 : o % 4 = 0) (hm : o ≠ 0x014)
    (h : Commanded s q (secReg o) v) (hv : v < 4294967296)
    (hr : regAt .sec true o = some r) (hoff : r.off = o) (hnarrow : r.wide = false)
    (hd : ∀ x, x = s.rget (secReg o) → draftOf s.secLocked r.fields x 4294967295 v = { value := x, cmds := c })
    (hone : onesOf c ≤ 1) (hj : ∀ d : Draft, d.cmds = c → judgeSec (writerOf s q (secReg o) v) o d = none)
    (he : (readied s q (secReg o) v secPage).secCommand (writerOf s q (secReg o) v) o c = e) (hok : e.code = .ok) :
    ∃ t, done s (s.serveReg q (secReg o) v) = .next t ∧ Leaves t e.state
      ∧ ∀ a, (a < secReg 0x060 ∨ secReg 0x0A0 ≤ a) → a ≠ GlbCtr.replyLost.reg → t.rget a = e.state.rget a := by
  have := sec_command (d := { value := s.rget (secReg o), cmds := c }) (e := e) ho ho4 hm h hv hr hoff hnarrow
    (hd _ rfl) rfl rfl hone (hj _ rfl) (by rw [storedFor_same _ _ _ _ _ rfl]; exact he) hok
  simpa only [Bool.false_eq_true, if_false] using this

theorem putBits_lt (v hi lo f : Nat) (hv : v < 2 ^ 64) (h : hi < 64) : putBits v hi lo f < 2 ^ 64 := by
  refine Nat.lt_pow_two_of_testBit _ fun i hi' => ?_
  rw [testBit_putBits]
  rw [if_neg (by omega)]
  exact Nat.testBit_lt_two_pow (lt_of_lt_of_le hv (Nat.pow_le_pow_right (by decide) hi'))

/-- RW fields of a register take the bits of the written value, and RO fields stay (R10). -/
def rwTake (fs : List Field) (v old : Nat) : Nat :=
  fs.foldl (fun x f => if f.kind = .rw then putBits x f.hi f.lo (bits v f.hi f.lo) else x) old

/-- A written value that every field of a register of RW and RO fields admits. -/
def Admitted (fs : List Field) (v : Nat) : Prop :=
  ∀ f ∈ fs, f.kind = .ro ∨ f.kind = .rw ∧ f.hi < 32 ∧ f.admits (bits v f.hi f.lo) = true

theorem draftOf_rw (locked : Bool) (fs : List Field) (old v : Nat) (h : Admitted fs v) :
    ∃ c, draftOf locked fs old 4294967295 v = { value := rwTake fs v old, changed := c } := by
  have key : ∀ (fs : List Field) (x : Nat) (c : Bool), Admitted fs v →
      ∃ c', fs.foldl (Draft.take locked 4294967295 v) { value := x, changed := c } =
        { value := rwTake fs v x, changed := c' } := by
    intro fs
    induction fs with
    | nil => intro x c _; exact ⟨c, rfl⟩
    | cons f r ih =>
      intro x c hf
      have hrest : Admitted r v := fun g hg => hf g (by simp [hg])
      obtain ⟨hi, lo, kind, ranges⟩ := f
      rcases hf _ (List.mem_cons_self ..) with h1 | ⟨h1, h2, h3⟩
      · dsimp only at h1
        subst h1
        rw [List.foldl_cons, take_ro]
        exact ih _ _ hrest
      · dsimp only at h1 h2
        subst h1
        rw [List.foldl_cons, take_rw _ _ _ _ _ _ h2, if_pos h3]
        exact ih _ _ hrest
  exact key fs old false h

theorem rwTake_lt (fs : List Field) (v old : Nat) (h : Admitted fs v) (ho : old < 2 ^ 64) : rwTake fs v old < 2 ^ 64 := by
  unfold rwTake
  induction fs generalizing old with
  | nil => exact ho
  | cons f r ih =>
    rw [List.foldl_cons]
    refine ih _ (fun g hg => h g (by simp [hg])) ?_
    split
    · refine putBits_lt _ _ _ _ ho ?_
      rcases h f (List.mem_cons_self ..) with h1 | h1
      · simp_all
      · omega
    · exact ho

/-- A 32-bit write of a plain register of RW and RO fields whose values are in range: stored, with whatever else it does. -/
theorem rw_command {s : State} {q : Req} {p : Page} {o v : Nat} {r : RegDef} {e : Draft → Effect}
    (hd15 : p.die < 15) (hi : p.inst < 256) (hex : p.exists_ = true) (ho : o < 4096) (ho4 : o % 4 = 0) (hm : o ≠ 0x014)
    (h : Commanded s q (p.base + o) v) (hv : v < 4294967296)
    (hr : regAt p.block (p.die == 8) o = some r) (hoff : r.off = o) (hnarrow : r.wide = false)
    (hidle : s.idlePage p = false) (hplain : p.block ≠ .glb ∨ o ≠ 0x10C) (htel : p.block ≠ .tel)
    (hctx : p.block = .ctx → o < memberWin) (hport : p.block = .port → o ≠ 0x008)
    (hf : fieldsFor p r = r.fields) (ha : Admitted r.fields v)
    (hj : ∀ d, d.value = rwTake r.fields v (s.rget (p.base + o)) → d.cmds = 0 →
      (readied s q (p.base + o) v p).judgeWrite (writerOf s q (p.base + o) v) p o (s.rget (p.base + o)) d = none)
    (he : ∀ d, d.value = rwTake r.fields v (s.rget (p.base + o)) → d.cmds = 0 →
      (readied s q (p.base + o) v p).writeEffect
        (storedFor (readied s q (p.base + o) v p) p o (s.rget (p.base + o)) d)
        (writerOf s q (p.base + o) v) p o (s.rget (p.base + o)) d = e d)
    (hok : ∀ d, d.value = rwTake r.fields v (s.rget (p.base + o)) → d.cmds = 0 → (e d).code = .ok) :
    ∃ t d, d.value = rwTake r.fields v (s.rget (p.base + o)) ∧ d.cmds = 0 ∧ done s (s.serveReg q (p.base + o) v) = .next t
      ∧ Leaves t (e d).state
      ∧ ∀ a, (a < p.base + 0x060 ∨ p.base + 0x0A0 ≤ a) → a ≠ GlbCtr.replyLost.reg → a ≠ p.base + 0x01C →
        t.rget a = (e d).state.rget a := by
  have hold : ∀ w, (readied s q (p.base + o) v p).oldValue w p o = s.rget (p.base + o) := by
    intro w
    unfold State.oldValue
    split
    · next hb => rw [if_neg (by rcases hplain with h' | h' <;> [exact absurd hb h'; exact h'])]; exact readied_rget ..
    · next hb => exact absurd hb htel
    · next hb => rw [if_neg (by have := hctx hb; omega)]; exact readied_rget ..
    · exact readied_rget ..
  obtain ⟨c, hc⟩ := draftOf_rw (readied s q (p.base + o) v p).secLocked r.fields (s.rget (p.base + o)) v ha
  have hd : draftFor (readied s q (p.base + o) v p) (writerOf s q (p.base + o) v) p r v =
      { value := rwTake r.fields v (s.rget (p.base + o)), changed := c } := by
    unfold draftFor
    dsimp only
    rw [hoff, hold, hf, hc]
    rw [if_neg]
    rintro ⟨h1, h2⟩
    exact hport h1 h2
  obtain ⟨t, ht, hK, hrg⟩ := reg_command hd15 hi hex ho ho4 hm h hv hr hoff hnarrow hidle hd rfl rfl
    (show onesOf 0 ≤ 1 by decide) (by rw [hold]; exact hj _ rfl rfl) (by rw [hold]; exact he _ rfl rfl) (hok _ rfl rfl)
  refine ⟨t, _, rfl, rfl, ht, hK, ?_⟩
  intro a h1 h2 h3
  rw [hrg a h1 h2]
  split
  · exact State.rget_advance_ne _ _ _ h3
  · rfl

end Sys2Proof.Machine
end

