-- ==== Sys2Proof/Laws/PortCommands.lean ====
section
/-! SUPPORT. A write of PORT.CTRL. -/

namespace Sys2Proof.Machine

/-- The command bits of PORT.CTRL that a word sets, in the order of its fields. -/
def portCmds (v : Nat) : Nat :=
  0 ||| bits v 6 6 * 2 ^ 6 ||| bits v 3 3 * 2 ^ 3 ||| bits v 2 2 * 2 ^ 2 ||| bits v 1 1 * 2 ^ 1 ||| bits v 0 0 * 2 ^ 0

/-- PORT.CTRL with the WIDTH and MODE of a written word. -/
def portWord (old v : Nat) : Nat := putBits (putBits old 9 8 (bits v 9 8)) 5 4 (bits v 5 4)

theorem portWord_width (old v : Nat) : bits (portWord old v) 9 8 = bits v 9 8 := by
  unfold portWord
  rw [bits_putBits_ne _ _ _ _ _ _ (Or.inr (by decide)), bits_putBits_same]
  exact Nat.mod_eq_of_lt (bits_lt ..)

theorem portWord_mode (old v : Nat) : bits (portWord old v) 5 4 = bits v 5 4 := by
  unfold portWord
  rw [bits_putBits_same]
  exact Nat.mod_eq_of_lt (bits_lt ..)

theorem portWord_same (old v : Nat) (h1 : bits v 9 8 = bits old 9 8) (h2 : bits v 5 4 = bits old 5 4) : portWord old v = old := by
  unfold portWord
  rw [h1, putBits_self, h2, putBits_self]

theorem admits_two (f : Field) (x : Nat) (h : f.ranges = [(0, 2)]) (hx : x ≤ 2) : f.admits x = true := by
  unfold Field.admits
  rw [h]
  simp [hx]

/-- An RW field whose range admits the value takes it. -/
theorem take_ok (locked : Bool) (v hi lo : Nat) (d : Draft) (rs : List (Nat × Nat)) (h : hi < 32)
    (ha : Field.admits ⟨hi, lo, .rw, rs⟩ (bits v hi lo) = true) :
    Draft.take locked 4294967295 v d ⟨hi, lo, .rw, rs⟩ =
      { d with value := putBits d.value hi lo (bits v hi lo), changed := d.changed || bits v hi lo != bits d.value hi lo } := by
  rw [take_rw _ _ _ _ _ _ h, if_pos ha]

theorem portDraft (locked : Bool) (old v : Nat) (hw : bits v 9 8 ≤ 2) (hm : bits v 5 4 ≤ 2) :
    ∃ c, draftOf locked (Block.port.ctrl false) old 4294967295 v = { value := portWord old v, changed := c, cmds := portCmds v } := by
  refine ⟨(false || bits v 9 8 != bits old 9 8) || bits v 5 4 != bits (putBits old 9 8 (bits v 9 8)) 5 4, ?_⟩
  · show draftOf _ [fRW 9 8 [(0, 2)], fCmd 6, fRW 5 4 [(0, 2)], fCmd 3, fCmd 2, fCmd 1, fCmd 0] _ _ _ = _
    unfold draftOf fRW
    simp only [List.foldl_cons, List.foldl_nil]
    rw [take_ok _ _ 9 8 _ _ (by decide) (admits_two _ _ rfl hw), take_cmd _ _ 6 _ (by decide),
      take_ok _ _ 5 4 _ _ (by decide) (admits_two _ _ rfl hm), take_cmd _ _ 3 _ (by decide),
      take_cmd _ _ 2 _ (by decide), take_cmd _ _ 1 _ (by decide), take_cmd _ _ 0 _ (by decide)]
    rfl

/-- A write of PORT.CTRL by an ADMIN source that nothing refuses. -/
theorem port_command {s : State} {q : Req} {n v : Nat} {E : Effect} (hn : n < 1024) (h : Commanded s q (portReg n 0x008) v)
    (hv : v < 4294967296) (hl : s.leads n = true) (hw : bits v 9 8 ≤ 2) (hf : widthFits n (bits v 9 8) = true)
    (hm : bits v 5 4 ≤ 2) (hone : onesOf (portCmds v) ≤ 1)
    (hj : (readied s q (portReg n 8) v (portPage n)).judgePortCtrl n (s.rget (portReg n 8)) (portWord (s.rget (portReg n 8)) v) = none)
    (hE : ∀ w : Writer, w.fly = some (flightOf q 0x02 (regBody (portReg n 8) v)) →
      (readied s q (portReg n 8) v (portPage n)).portCtrlWritten
        (storedFor (readied s q (portReg n 8) v (portPage n)) (portPage n) 8 (s.rget (portReg n 8))
          { value := portWord (s.rget (portReg n 8)) v }) w n (portCmds v) = E) (hok : E.code = .ok) :
    ∃ t, done s (s.serveReg q (portReg n 8) v) = .next t ∧ Leaves t E.state
      ∧ ∀ o, (o < 0x60 ∨ 0xA0 ≤ o ∧ o < 4096) → o ≠ 0x01C → t.rget (portReg n o) = E.state.rget (portReg n o) := by
  have hb : ∀ o, portReg n o = (portPage n).base + o := portReg_base n
  have h8 : ((portPage n).die == 8) = false := by unfold portPage; simp; omega
  have hk : (portPage n).block = .port := rfl
  have hst : ∀ (s : State) (p : Page) (o old : Nat) (d d' : Draft), d.value = d'.value → storedFor s p o old d = storedFor s p o old d' := by
    intro s p o old d d' e
    unfold storedFor
    rw [e]
  have key : ∃ t, done s (s.serveReg q ((portPage n).base + 8) v) = .next t ∧ Leaves t E.state
      ∧ ∀ a, (a < (portPage n).base + 0x060 ∨ (portPage n).base + 0x0A0 ≤ a) → a ≠ GlbCtr.replyLost.reg →
        a ≠ (portPage n).base + 0x01C → t.rget a = E.state.rget a := by
    rw [hb] at h hE hj
    obtain ⟨c, hc⟩ := portDraft (readied s q ((portPage n).base + 8) v (portPage n)).secLocked (s.rget ((portPage n).base + 8)) v hw hm
    have hold : (readied s q ((portPage n).base + 8) v (portPage n)).oldValue (writerOf s q ((portPage n).base + 8) v) (portPage n) 8 =
        s.rget ((portPage n).base + 8) := by
      unfold State.oldValue
      rw [hk]
      exact readied_rget ..
    have hd : draftFor (readied s q ((portPage n).base + 8) v (portPage n)) (writerOf s q ((portPage n).base + 8) v) (portPage n)
        ⟨8, false, 0, Block.port.ctrl false⟩ v =
        { value := portWord (s.rget ((portPage n).base + 8)) v, changed := c, cmds := portCmds v } := by
      unfold draftFor
      have hff : fieldsFor (portPage n) ⟨8, false, 0, Block.port.ctrl false⟩ = Block.port.ctrl false := by
        unfold fieldsFor
        rw [hk, if_neg (by rintro ⟨h', -⟩; cases h')]
      dsimp only
      rw [hold, hff, hc, if_pos ⟨hk, rfl⟩]
      unfold Draft.fitWidth
      rw [portWord_width, portPage_number, if_pos hf]
    have hidle : s.idlePage (portPage n) = false := by
      unfold State.idlePage portPage
      dsimp only
      have : 256 * (n / 256) + n % 256 = n := by omega
      rw [this, hl]
      rfl
    obtain ⟨t, ht, hK, hrg⟩ := reg_command (p := portPage n) (o := 8) (r := ⟨8, false, 0, Block.port.ctrl false⟩) (e := E)
      (by unfold portPage; dsimp only; omega) (by unfold portPage; dsimp only; omega) (portPage_exists hn) (by decide) (by decide)
      (by decide) h hv (by rw [h8]; rfl) rfl rfl hidle hd rfl rfl hone (by
        rw [hold]
        unfold State.judgeWrite
        rw [hk]
        dsimp only
        rw [if_pos rfl, portPage_number]
        exact hj) (by
        rw [hold]
        unfold State.writeEffect
        rw [hk]
        dsimp only
        rw [if_pos rfl, portPage_number, hst _ _ _ _
          { value := portWord (s.rget ((portPage n).base + 8)) v, changed := c, cmds := portCmds v }
          { value := portWord (s.rget ((portPage n).base + 8)) v } rfl]
        exact hE _ rfl) hok
    refine ⟨t, ht, hK, ?_⟩
    intro a h1 h2 h3
    rw [hrg a h1 h2]
    split
    · exact State.rget_advance_ne _ _ _ h3
    · rfl
  obtain ⟨t, ht, hK, hr⟩ := key
  refine ⟨t, by rw [hb]; exact ht, hK, ?_⟩
  intro o ho hne
  refine hr _ (by rw [hb]; omega) ?_ (by rw [hb]; omega)
  rw [replyLost_reg]; unfold portReg; omega

end Sys2Proof.Machine
end

