-- ==== Sys2Proof/Laws/Rings.lean ====
section
/-! SUPPORT. What a change of a lane or of a ring leaves of the photonic layer: all but the lanes, and that ring. -/

namespace Sys2Proof.Machine

/-- The photonic layer without its lanes. -/
def State.offLanes (s : State) : PhotonSt := { s.pho with lanes := [] }

theorem offLanes_of {s t : State} (h : t.pho = s.pho) : t.offLanes = s.offLanes := by
  unfold State.offLanes
  rw [h]

theorem offLanes_frame {l : List Part} {s t : State} (hl : Part.pho ∉ l)
    (h : t.blank (fun p => decide (p ∈ l)) = s.blank fun p => decide (p ∈ l)) : t.offLanes = s.offLanes :=
  offLanes_of ((onlyTouches_of_blank h).2 .pho hl)

theorem takeDown_pho (s : State) (a b : Nat) : (s.takeDown a b).pho = s.pho :=
  (onlyTouches_of_blank (l := [.aer, .col, .flt, .mgmt, .out, .regs, .sw])
    (takeDown_blank _ (by decide) (by decide) (by decide) (by decide) (by decide) (by decide) (by decide) s a b)).2 .pho (by decide)

theorem stretchTx_pho (s : State) (a b c : Nat) : (s.stretchTx a b c).pho = s.pho :=
  (onlyTouches_of_blank (l := [.regs, .sw]) (stretchTx_blank _ (by decide) (by decide) s a b c)).2 .pho (by decide)

theorem changeLane_pho (s : State) (l : Nat) (f : LaneSt → LaneSt) : (s.changeLane l f).pho = (s.setLane l f).pho := by
  have hs : ∀ (c : Prop) [Decidable c] (t : State) (a : Nat) (g : PortSt → PortSt),
      (if c then t.setPort a g else t).pho = t.pho := by
    intro c _ t a g
    split <;> rfl
  have ha : ∀ (c : Prop) [Decidable c] (t : State) (b i d : Nat), (if c then t.alarmPlain b i d else t).pho = t.pho := by
    intro c _ t b i d
    split
    · exact State.alarmPlain_pho ..
    · rfl
  have hd : ∀ (c : Prop) [Decidable c] (t : State) (a b : Nat), (if c then t.takeDown a b else t).pho = t.pho := by
    intro c _ t a b
    split
    · exact takeDown_pho ..
    · rfl
  unfold State.changeLane
  split
  · rfl
  · dsimp only
    split
    · rfl
    · rw [hd, ha, hs, stretchTx_pho]
      rfl

theorem changeLane_offLanes (s : State) (l : Nat) (f : LaneSt → LaneSt) : (s.changeLane l f).offLanes = s.offLanes :=
  (offLanes_of (changeLane_pho s l f)).trans rfl

theorem relane_offLanes (s : State) (l : Nat) : (s.relane l).offLanes = s.offLanes := by
  have ha : ∀ (t : State) (b i c d : Nat), (t.alarm b i c d).offLanes = t.offLanes := fun t b i c d =>
    offLanes_of (State.alarm_pho ..)
  unfold State.relane
  dsimp only
  split
  · split
    · rw [offLanes_of (takeDown_pho ..), ha, changeLane_offLanes]
    · rw [ha, changeLane_offLanes]
  · exact changeLane_offLanes ..

theorem each_offLanes {α : Type} (f : State → α → State) (h : ∀ s a, (f s a).offLanes = s.offLanes) (l : List α) (s : State) :
    (s.each l f).offLanes = s.offLanes := by
  unfold State.each
  induction l generalizing s with
  | nil => rfl
  | cons a r ih => rw [List.foldl_cons, ih, h]

theorem ringChanged_offLanes (s : State) (r : Ring) : (s.ringChanged r).offLanes = s.offLanes := by
  have hd : ∀ d n, (s.refreshDtd d n).offLanes = s.offLanes := fun d n =>
    offLanes_frame (l := [.aer, .mgmt, .regs, .sw]) (by decide)
      (refreshDtd_blank _ (by decide) (by decide) (by decide) (by decide) s d n)
  unfold State.ringChanged
  split
  · exact each_offLanes _ (fun s l => relane_offLanes s l) _ _
  · exact each_offLanes _ (fun s l => relane_offLanes s l) _ _
  · exact hd ..
  · exact hd ..

theorem moveRing_offLanes (s : State) (r : Ring) (x : RingSt) : (s.moveRing r x).offLanes = (s.putRing r x).offLanes :=
  ringChanged_offLanes ..

theorem ring_tx_of {s t : State} (h : t.offLanes = s.offLanes) (f : Fin 290) (w : Fin 9) :
    t.ring (.tx f w) = s.ring (.tx f w) := by
  have : t.pho.ringTx = s.pho.ringTx := by
    have h1 := congrArg PhotonSt.ringTx h
    exact h1
  unfold State.ring
  rw [this]

theorem ring_rx_of {s t : State} (h : t.offLanes = s.offLanes) (f : Fin 290) (w : Fin 9) :
    t.ring (.rx f w) = s.ring (.rx f w) := by
  have : t.pho.ringRx = s.pho.ringRx := by
    have h1 := congrArg PhotonSt.ringRx h
    exact h1
  unfold State.ring
  rw [this]

/-- A ring takes the state it is moved to. -/
theorem moveRing_ring_tx (s : State) (f : Fin 290) (w : Fin 9) (x : RingSt) : (s.moveRing (.tx f w) x).ring (.tx f w) = x := by
  rw [ring_tx_of (moveRing_offLanes ..)]
  exact mgetD_mput_same ..

theorem moveRing_ring_rx (s : State) (f : Fin 290) (w : Fin 9) (x : RingSt) : (s.moveRing (.rx f w) x).ring (.rx f w) = x := by
  rw [ring_rx_of (moveRing_offLanes ..)]
  exact mgetD_mput_same ..

theorem moveRing_rx_tx (s : State) (f g : Fin 290) (w v : Fin 9) (x : RingSt) :
    (s.moveRing (.rx f w) x).ring (.tx g v) = s.ring (.tx g v) := by
  rw [ring_tx_of (moveRing_offLanes ..)]
  rfl

theorem laneCtr_pho (s : State) (l : Option Nat) (o : Nat) : (s.laneCtr l o).pho = s.pho := by
  unfold State.laneCtr
  split <;> rfl

/-- R162: a re-sweep puts a lane's transmit ring into SWEEP. -/
theorem resweepLane_tx (s : State) (l f w : Nat) (h : (s.lane l).state ≠ .dark) (ht : (s.lane l).tx = some (f, w)) :
    ((s.resweepLane l).ring (txRingOf f w)).state = .sweep := by
  have h1 : ∀ t : State, ((t.resweepRing (txRingOf f w)).ring (txRingOf f w)).state = .sweep := by
    intro t
    unfold State.resweepRing txRingOf
    dsimp only
    rw [moveRing_ring_tx]
  have h2 : ∀ (t : State) (a b : Nat), (t.resweepRing (rxRingOf a b)).ring (txRingOf f w) = t.ring (txRingOf f w) := by
    intro t a b
    unfold State.resweepRing txRingOf rxRingOf
    dsimp only
    rw [moveRing_rx_tx]
    exact ring_tx_of (offLanes_of (laneCtr_pho ..)) ..
  unfold State.resweepLane
  simp only [if_neg h, ht]
  split
  · rw [h2]; exact h1 s
  · exact h1 s

end Sys2Proof.Machine
end

