-- ==== Sys2Proof/Laws/PortWrites.lean ====
section
/-! SUPPORT. Writes of the settings of a port: MODE and WIDTH stay as written while gangs form anew. -/

namespace Sys2Proof.Machine

theorem mget_filter {α : Type} (l : Map α) (f : Nat → Bool) (a : Nat) (h : f a = false) :
    mget (l.filter fun kv => !f kv.1) a = mget l a := by
  induction l with
  | nil => rfl
  | cons x r ih =>
    obtain ⟨k, v⟩ := x
    rw [List.filter_cons]
    by_cases hk : k = a
    · subst hk
      simp [h, mget]
    · split
      · simp only [mget, if_neg hk]; exact ih
      · simp only [mget, if_neg hk]; exact ih

theorem State.rget_rclear (s : State) (f : Nat → Bool) (a : Nat) (h : f a = false) : (s.rclear f).rget a = s.rget a := by
  unfold State.rget State.rclear
  dsimp only
  rw [mget_filter _ _ _ h]

theorem resetPage_rget (s : State) (base off a : Nat) (h : a < base + off ∨ base + 4096 ≤ a) :
    (s.resetPage base off).rget a = s.rget a := by
  refine State.rget_rclear _ _ _ ?_
  simp only [Bool.and_eq_false_iff, decide_eq_false_iff_not]
  omega

/-- A value in one of a field's ranges is admitted (R11). -/
theorem admits_of (f : Field) (x : Nat) (r : Nat × Nat) (hr : r ∈ f.ranges) (h1 : r.1 ≤ x) (h2 : x ≤ r.2) : f.admits x = true := by
  unfold Field.admits
  rw [Bool.or_eq_true]
  right
  rw [List.any_eq_true]
  exact ⟨r, hr, by rw [decide_eq_true h1, decide_eq_true h2]; rfl⟩

theorem bit_bits (v b : Nat) : v.testBit b = (bits v b b == 1) := by
  unfold bits
  have : b + 1 - b = 1 := by omega
  rw [this, Nat.testBit_eq_decide_div_mod_eq, Nat.shiftRight_eq_div_pow]
  simp only [Nat.pow_one]
  rfl

theorem portReg_apart (n q o : Nat) (h : n ≠ q) (ho : o < 4096) : portReg n o < portReg q 0 ∨ portReg q 0 + 4096 ≤ portReg n o := by
  unfold portReg
  by_cases hd : n / 256 = q / 256 <;> omega

theorem portReg_calReg (n q o : Nat) (ho : o < 4096) : portReg n o < calReg q 0 ∨ calReg q 0 + 4096 ≤ portReg n o := by
  unfold portReg calReg
  by_cases hd : n / 256 = q / 256 <;> omega

theorem portReg_lanePage (n l o : Nat) (hn : n < 1024) (ho : o < 4096) : portReg n o < lanePage l ∨ lanePage l + 4096 ≤ portReg n o := by
  have e : (2 : Nat) ^ 28 = 268435456 := by norm_num
  unfold portReg lanePage
  rw [e]
  split
  · by_cases hd : n / 256 = l / 512 <;> omega
  · by_cases hd : n / 256 = 8 <;> omega

theorem forgetPort_regs (s : State) (q : Nat) : (s.forgetPort q).regs = s.regs := rfl

theorem forgetPort_rget (s : State) (q a : Nat) : (s.forgetPort q).rget a = s.rget a := State.rget_congr (forgetPort_regs s q) a

theorem absorbPort_ctrl (s : State) (n q : Nat) (h : n ≠ q) : (s.absorbPort q).rget (portReg n 8) = s.rget (portReg n 8) := by
  have h1 := portReg_apart n q 8 h (by decide)
  have h2 := portReg_calReg n q 8 (by decide)
  unfold State.absorbPort
  rw [State.rget_rset_ne _ _ _ _ (by unfold portReg at h1 ⊢; omega), resetPage_rget _ _ _ _ (by omega), resetPage_rget _ _ _ _ (by omega),
    forgetPort_rget]

theorem releasePort_ctrl (s : State) (n q m : Nat) (hn : n < 1024) (h : n ≠ q) : (s.releasePort q m).rget (portReg n 8) = s.rget (portReg n 8) := by
  have h1 := portReg_apart n q 8 h (by decide)
  have h2 := portReg_calReg n q 8 (by decide)
  have h3 := portReg_lanePage n (2 * q) 8 hn (by decide)
  unfold State.releasePort
  dsimp only
  have key : ∀ t : State, t.rget (portReg n 8) = s.rget (portReg n 8) →
      (t.each (List.range 5) fun s b => s.fset (bucketCfg q b) 23 16 (modeOverhead m)).rget (portReg n 8) = s.rget (portReg n 8) := by
    intro t ht
    refine each_induction_mem (fun u => u.rget (portReg n 8) = s.rget (portReg n 8)) _ _ _ ht ?_
    intro u b hb hu
    rw [List.mem_range] at hb
    rw [State.rget_fset_ne _ _ _ _ _ _ (by unfold bucketCfg; unfold portReg at h1 ⊢; omega), hu]
  refine key _ ?_
  rw [State.rget_fset_ne _ _ _ _ _ _ (by unfold portReg at h1 ⊢; omega), resetPage_rget _ _ _ _ (by omega),
    resetPage_rget _ _ _ _ (by omega), resetPage_rget _ _ _ _ (by omega), forgetPort_rget]

theorem gangPorts_self (n c : Nat) : n ∈ gangPorts n c := by
  unfold gangPorts
  rw [List.mem_map]
  exact ⟨0, by rw [List.mem_range]; exact Nat.two_pow_pos c, rfl⟩

/-- R61: a change of WIDTH leaves the port's own PORT.CTRL as written. -/
theorem widthWritten_ctrl (s0 s : State) (n : Nat) (hn : n < 1024) : (State.widthWritten s0 s n).rget (portReg n 8) = s.rget (portReg n 8) := by
  unfold State.widthWritten
  dsimp only
  rw [port_ctrl_of (macModeFlush_ctrls _ _), State.rget_fset_ne _ _ _ _ _ _ (by unfold portReg; omega)]
  have hw : ∀ (t : State), (t.settleWidth n).rget (portReg n 8) = t.rget (portReg n 8) := fun t => rfl
  rw [hw]
  refine each_induction_mem (fun u => u.rget (portReg n 8) = s.rget (portReg n 8)) _ _ _ ?_ ?_
  · refine each_induction_mem (fun u => u.rget (portReg n 8) = s.rget (portReg n 8)) _ _ _ rfl ?_
    intro u q hq hu
    rw [absorbPort_ctrl _ _ _ ?_, hu]
    have := (List.mem_filter.mp hq).2
    rintro rfl
    simp at this
  · intro u q hq hu
    rw [releasePort_ctrl _ _ _ _ hn ?_, hu]
    have := (List.mem_filter.mp hq).2
    rintro rfl
    simp [gangPorts_self] at this

/-- A write of PORT.CTRL without command bits leaves the register as stored. -/
theorem portCtrlWritten_ctrl (s0 s : State) (w : Writer) (n : Nat) (hn : n < 1024) :
    (State.portCtrlWritten s0 s w n 0).code = .ok
      ∧ (State.portCtrlWritten s0 s w n 0).state.rget (portReg n 8) = s.rget (portReg n 8) := by
  refine ⟨rfl, ?_⟩
  have h : ∀ t : State, (t.portCommand w n 0).state = t := fun _ => rfl
  unfold State.portCtrlWritten
  dsimp only
  rw [h]
  have h1 : ∀ (c : Prop) [Decidable c] (t : State), (if c then t else State.widthWritten s0 t n).rget (portReg n 8) = t.rget (portReg n 8) := by
    intro c _ t
    split
    · rfl
    · exact widthWritten_ctrl _ _ _ hn
  rw [h1]
  split
  · rfl
  · exact port_ctrl_of (modeWritten_ctrls s0 s n) n

end Sys2Proof.Machine
end

