-- ==== Sys2Proof/Laws/Answers.lean ====
section
/-! SUPPORT. Requests that are answered at once: the reply that leaves. -/

namespace Sys2Proof.Machine

theorem Code.num_lt (c : Code) : c.num < 16 := by cases c <;> decide

theorem status_code (s : State) (q : Req) (c : Code) : s.status q c % 256 = c.num := by
  have h := Code.num_lt c
  unfold State.status
  generalize (!q.hcp1 && _) = o
  dsimp only
  cases o <;> simp only [Bool.false_eq_true, if_false, if_true] <;> omega

theorem sendReply_out (s : State) (q : Req) (op : Nat) (a : Answer) (hu : s.portUp q.port = true) :
    ∃ seq mac, (s.sendReply q op a false).out =
      .reply q.port q.via (replyFrame q op seq (s.status q a.code) (replyFlags q false) a.detail a.body ++ mac) :: s.out := by
  unfold State.sendReply
  dsimp only
  rw [hu]
  generalize (if q.hcp1 = true then none else s.session q.session) = x
  cases x with
  | none =>
    refine ⟨0, [], ?_⟩
    simp only [if_true, List.append_nil]
    rfl
  | some x => exact ⟨x.nextRep, (hmac512 x.kRep _).take 16, rfl⟩

theorem sendReply_inFlight (s : State) (q : Req) (op : Nat) (a : Answer) (c : Bool) :
    (s.sendReply q op a c).mgmt.inFlight = s.mgmt.inFlight := by
  have h1 : ∀ b : Bytes, (if s.portUp q.port then s.send (.reply q.port q.via b) else s.glbCtr .replyLost).mgmt = s.mgmt := by
    intro b
    split <;> rfl
  unfold State.sendReply
  dsimp only
  split
  · show (State.mgmt _).inFlight = _
    unfold State.setSession
    rw [State.setMgmt_mgmt]
    dsimp only
    rw [h1]
  · rw [h1]

/-- A request in flight on a link that carries frames is answered. -/
theorem reply_answered (s u : State) (f : InFlight) (a : Answer) (hf : u.mgmt.inFlight.contains f = true)
    (hu : u.portUp f.req.port = true) (ho : u.out = s.out) : Answered s (u.reply f a) f.req f.opcode a := by
  unfold State.reply
  rw [if_pos hf]
  have hp : (u.cacheReply f a).portUp f.req.port = true := by
    rw [← hu]
    unfold State.cacheReply State.portUp
    cases f.req.port <;> rfl
  obtain ⟨seq, mac, h1⟩ := sendReply_out (u.cacheReply f a) f.req f.opcode a hp
  refine ⟨⟨seq, (u.cacheReply f a).status f.req a.code, mac, ?_, status_code ..⟩, ?_⟩
  · show ((u.cacheReply f a).sendReply f.req f.opcode a false).out = _
    rw [h1]
    show _ :: u.out = _
    rw [ho]
  · intro g hg
    have : g ∈ (((u.cacheReply f a).sendReply f.req f.opcode a false).mgmt.inFlight.filter
        fun g => !(g.req.port == f.req.port && g.req.tag == f.req.tag)) := hg
    have h2 := (List.mem_filter.mp this).2
    rintro ⟨h3, h4⟩
    simp [h3, h4] at h2

theorem taken_inFlight (s : State) (q : Req) (op : Nat) (body : Bytes) :
    (taken s q op body).mgmt.inFlight.contains (flightOf q op body) = true := by
  unfold taken
  rw [accept_inFlight]
  simp

theorem taken_out (s : State) (q : Req) (op : Nat) (body : Bytes) : (taken s q op body).out = s.out :=
  (accept_only s _).2 .out (by decide)

theorem taken_any {α : Type} (F : State → α) (hF : ∀ s g, F (State.setMgmt s g) = F s) (s : State) (q : Req) (op : Nat)
    (body : Bytes) : F (taken s q op body) = F s := by
  unfold taken
  rw [accept_eq]
  exact hF _ _

theorem taken_blank (K : Part → Bool) (h : K .mgmt = true) (s : State) (q : Req) (op : Nat) (body : Bytes) :
    (taken s q op body).blank K = s.blank K := accept_blank K h _ _

theorem accept_up (s : State) (f : InFlight) (m : MPort) : (s.accept f).portUp m = s.portUp m := by
  have h : (s.accept f).mgmt.up0 = s.mgmt.up0 ∧ (s.accept f).mgmt.up1 = s.mgmt.up1 := by
    unfold State.accept State.setSession State.setMgmt
    dsimp only
    split <;> exact ⟨rfl, rfl⟩
  cases m
  · exact h.1
  · exact h.2

theorem TakenUp.up {s : State} {q : Req} {op : Nat} {body : Bytes} (h : TakenUp s q op body) : s.portUp q.port = true := by
  have := h.answers
  unfold State.answers at this
  simp only [Bool.and_eq_true] at this
  exact this.1.1.2

/-- The management state beside sessions, tags and the reply cache. -/
def MgmtSt.work (m : MgmtSt) : MgmtSt := { m with sessions := [], inFlight := [], cache := [] }

theorem sendReply_work (s : State) (q : Req) (op : Nat) (a : Answer) (c : Bool) : (s.sendReply q op a c).mgmt.work = s.mgmt.work := by
  have h1 : ∀ b : Bytes, (if s.portUp q.port then s.send (.reply q.port q.via b) else s.glbCtr .replyLost).mgmt = s.mgmt := by
    intro b
    split <;> rfl
  unfold State.sendReply
  dsimp only
  split
  · show (State.mgmt _).work = _
    unfold State.setSession
    rw [State.setMgmt_mgmt]
    show (State.mgmt _).work = _
    rw [h1]
  · rw [h1]

/-- A reply leaves the rest of the management state. -/
theorem reply_work (s : State) (f : InFlight) (a : Answer) : (s.reply f a).mgmt.work = s.mgmt.work := by
  unfold State.reply
  split
  · show ((s.cacheReply f a).sendReply f.req f.opcode a false).mgmt.work = _
    rw [sendReply_work]
    rfl
  · rfl

/-- A request that is taken up and admitted, and whose operation answers at once. -/
theorem serve_answered_mgmt {s u : State} {q : Req} {op : Nat} {body : Bytes} {a : Answer} (h : TakenUp s q op body)
    (gate : State → Gate) (run : State → InFlight → State × Option Answer)
    (hg : (gate (taken s q op body)).refuses q op = none)
    (hr : run (taken s q op body) (flightOf q op body) = (u, some a))
    (hm : u.mgmt.inFlight = (taken s q op body).mgmt.inFlight) (hup : u.portUp q.port = (taken s q op body).portUp q.port)
    (ho : u.out = (taken s q op body).out) (hpen : u.pending = s.pending) :
    ∃ t, done s (s.serve q op body gate run) = .next t ∧ Answered s t q op a ∧ Leaves t u
      ∧ t.mgmt = (u.reply (flightOf q op body) a).mgmt ∧ ∀ x, x ≠ GlbCtr.replyLost.reg → t.rget x = u.rget x := by
  rw [serve_taken h gate run hg, hr]
  refine ⟨_, rfl, ?_, ?_, rfl, ?_⟩
  · have := reply_answered s u (flightOf q op body) a (by rw [hm]; exact taken_inFlight ..)
      (by
        have e : (taken s q op body).portUp q.port = s.portUp q.port := accept_up _ _ _
        show u.portUp q.port = true
        rw [hup, e, h.up]) (by rw [ho, taken_out])
    exact this
  · intro K h1 h2 h3
    have hb := reply_blank K h1 h2 h3 u (flightOf q op body) a
    have hp2 : (u.reply (flightOf q op body) a).pending = s.pending := (congrArg State.pending hb).trans hpen
    have : ({ settle (u.reply (flightOf q op body) a) with pending := s.pending } : State) =
        { settle (u.reply (flightOf q op body) a) with pending := (u.reply (flightOf q op body) a).pending } := by rw [hp2]
    rw [this, ← hb]
    exact settle_blank K _
  · intro x hx
    exact rget_reply u (flightOf q op body) a x hx

theorem serve_answered {s u : State} {q : Req} {op : Nat} {body : Bytes} {a : Answer} (h : TakenUp s q op body)
    (gate : State → Gate) (run : State → InFlight → State × Option Answer)
    (hg : (gate (taken s q op body)).refuses q op = none)
    (hr : run (taken s q op body) (flightOf q op body) = (u, some a))
    (hm : u.mgmt.inFlight = (taken s q op body).mgmt.inFlight) (hup : u.portUp q.port = (taken s q op body).portUp q.port)
    (ho : u.out = (taken s q op body).out) (hpen : u.pending = s.pending) :
    ∃ t, done s (s.serve q op body gate run) = .next t ∧ Answered s t q op a ∧ Leaves t u
      ∧ ∀ x, x ≠ GlbCtr.replyLost.reg → t.rget x = u.rget x := by
  obtain ⟨t, h1, h2, h3, -, h4⟩ := serve_answered_mgmt h gate run hg hr hm hup ho hpen
  exact ⟨t, h1, h2, h3, h4⟩

end Sys2Proof.Machine
end

