-- ==== Sys2Proof/Laws/Attention.lean ====
section
/-! SUPPORT. Attention and records: which registers and which of the management state an alarm changes. -/

namespace Sys2Proof.Machine

/-- The management state without its attention epoch. -/
def MgmtSt.calm (m : MgmtSt) : MgmtSt := { m with epoch := 0, epochFc := none }

theorem calm_inFlight {a b : MgmtSt} (h : a.calm = b.calm) : a.inFlight = b.inFlight := by
  have h1 := congrArg MgmtSt.inFlight h
  exact h1
theorem calm_sessions {a b : MgmtSt} (h : a.calm = b.calm) : a.sessions = b.sessions := by
  have h1 := congrArg MgmtSt.sessions h
  exact h1
theorem calm_hung {a b : MgmtSt} (h : a.calm = b.calm) : a.hung = b.hung := by
  have h1 := congrArg MgmtSt.hung h
  exact h1
theorem calm_up {s t : State} (h : t.mgmt.calm = s.mgmt.calm) (m : MPort) : t.portUp m = s.portUp m := by
  have h0 := congrArg MgmtSt.up0 h
  have h1 := congrArg MgmtSt.up1 h
  cases m
  · exact h0
  · exact h1

theorem gain_calm (s : State) : s.gainAttention.mgmt.calm = s.mgmt.calm := by
  unfold State.gainAttention
  split <;> rfl

theorem pmc_mgmt (s : State) (base code n : Nat) : (s.pmc base code n).mgmt = s.mgmt :=
  (onlyTouches_of_blank (l := [.regs]) (pmc_blank _ (by decide) s base code n)).2 .mgmt (by decide)

theorem attn_calm (s : State) (base b : Nat) : (s.attn base b).mgmt.calm = s.mgmt.calm := by
  unfold State.attn
  dsimp only
  split
  · rw [pmc_mgmt]
  · split
    · rw [State.rset_mgmt, pmc_mgmt]
    · rw [gain_calm, State.rset_mgmt, pmc_mgmt]

theorem record_mgmt (s : State) (base : Nat) (bit : Option Nat) (cause detail : Nat) (links : List AerLink) :
    (s.record base bit cause detail links).mgmt = s.mgmt :=
  (onlyTouches_of_blank (l := [.regs, .aer]) (record_blank _ (by decide) (by decide) s base bit cause detail links)).2 .mgmt (by decide)

theorem alarm_calm (s : State) (base b cause detail : Nat) (links : List AerLink) :
    (s.alarm base b cause detail links).mgmt.calm = s.mgmt.calm := by
  unfold State.alarm
  rw [record_mgmt, attn_calm]

theorem gain_rget (s : State) (a : Nat) : s.gainAttention.rget a = s.rget a := by
  unfold State.gainAttention
  split <;> rfl

theorem attn_rget (s : State) (base b a : Nat) (h1 : a ≠ base + 0x010) (h2 : a < base + 0x060 ∨ base + 0x0A0 ≤ a) :
    (s.attn base b).rget a = s.rget a := by
  unfold State.attn
  dsimp only
  split
  · exact rget_pmc _ _ _ _ _ h2
  · split
    · rw [State.rget_rset_ne _ _ _ _ h1, rget_pmc _ _ _ _ _ h2]
    · rw [gain_rget, State.rget_rset_ne _ _ _ _ h1, rget_pmc _ _ _ _ _ h2]

/-- The bit is set, and the page's other attention bits stay (R315). -/
theorem attn_set (s : State) (base b : Nat) (hb : b < 64) : (s.attn base b).rget (base + 0x010) = s.rget (base + 0x010) ||| 2 ^ b := by
  have hlt : s.rget (base + 0x010) ||| 2 ^ b < 2 ^ 64 :=
    Nat.or_lt_two_pow (s.rget_lt _) (Nat.pow_lt_pow_right (by decide) hb)
  unfold State.attn
  dsimp only
  split
  · next h =>
    rw [rget_pmc _ _ _ _ _ (Or.inl (by omega))]
    refine Nat.eq_of_testBit_eq fun i => ?_
    rw [Nat.testBit_or]
    by_cases hi : i = b
    · subst hi; rw [h, Bool.true_or]
    · rw [Nat.testBit_two_pow_of_ne (Ne.symm hi), Bool.or_false]
  · have h1 : ∀ t : State, t.rget (base + 0x010) = s.rget (base + 0x010) ||| 2 ^ b →
        (if (t.rget (base + 0x014)).testBit b then t else t.gainAttention).rget (base + 0x010) = s.rget (base + 0x010) ||| 2 ^ b := by
      intro t ht
      split
      · exact ht
      · rw [gain_rget, ht]
    refine h1 _ ?_
    rw [State.rget_rset_same, Nat.mod_eq_of_lt hlt]

theorem record_rget (s : State) (base : Nat) (bit : Option Nat) (cause detail : Nat) (links : List AerLink) (a : Nat)
    (h : a ≠ telReg 0x310) : (s.record base bit cause detail links).rget a = s.rget a := by
  unfold State.record
  split
  · rfl
  · rw [State.rget_setAer, State.rget_bump_ne _ _ _ _ h]

theorem alarm_rget (s : State) (base b cause detail : Nat) (links : List AerLink) (a : Nat) (h0 : a ≠ telReg 0x310)
    (h1 : a ≠ base + 0x010) (h2 : a < base + 0x060 ∨ base + 0x0A0 ≤ a) :
    (s.alarm base b cause detail links).rget a = s.rget a := by
  unfold State.alarm
  rw [record_rget _ _ _ _ _ _ _ h0, attn_rget _ _ _ _ h1 h2]

/-- An alarm sets its attention bit (R315). -/
theorem alarm_set (s : State) (base b cause detail : Nat) (links : List AerLink) (hb : b < 64) (h : base + 0x010 ≠ telReg 0x310) :
    (s.alarm base b cause detail links).rget (base + 0x010) = s.rget (base + 0x010) ||| 2 ^ b := by
  unfold State.alarm
  rw [record_rget _ _ _ _ _ _ _ h, attn_set _ _ _ hb]

theorem alarm_bit (s : State) (base b cause detail : Nat) (links : List AerLink) (hb : b < 64) (h : base + 0x010 ≠ telReg 0x310) :
    (s.alarm base b cause detail links).bget (base + 0x010) b = true := by
  unfold State.bget
  rw [alarm_set _ _ _ _ _ _ hb h, Nat.testBit_or, Nat.testBit_two_pow_self, Bool.or_true]

theorem alarm_out (s : State) (base b cause detail : Nat) (links : List AerLink) :
    (s.alarm base b cause detail links).out = s.out :=
  (onlyTouches_of_blank (l := [.regs, .mgmt, .aer]) (alarm_blank _ (by decide) (by decide) (by decide) s base b cause detail links)).2 .out (by decide)

/-- A meaning's next state, when the operation leaves the queue of commands. -/
theorem done_next (s x : State) (h : x.pending = s.pending) : done s x = .next (settle x) := by
  unfold done
  rw [← h]
  rfl

end Sys2Proof.Machine
end

