-- ==== Sys2Proof/Laws/Memory.lean ====
section
/-! SUPPORT. HBM as a list of cells: what a store does to a read, and that every operation keeps the canonical form. -/

namespace Sys2Proof.Machine

/-- Every address of a list lies above a bound. -/
def memAbove (m : List Host.Cell) (a : Nat) : Prop := ∀ c ∈ m, a < c.1

theorem memSorted_cons (c : Host.Cell) (r : List Host.Cell) : memSorted (c :: r) = true ↔ memAbove r c.1 ∧ memSorted r = true := by
  induction r generalizing c with
  | nil => simp [memSorted, memAbove]
  | cons d r ih =>
    rw [show memSorted (c :: d :: r) = (decide (c.1 < d.1) && memSorted (d :: r)) from rfl, Bool.and_eq_true, decide_eq_true_eq]
    constructor
    · rintro ⟨h, hs⟩
      refine ⟨fun x hx => ?_, hs⟩
      rcases List.mem_cons.mp hx with rfl | hx
      · exact h
      · exact lt_trans h (((ih d).mp hs).1 x hx)
    · rintro ⟨h, hs⟩
      exact ⟨h d (by simp), hs⟩

theorem memPut_above (m : List Host.Cell) (a b : Nat) (x : Byte) (h : memAbove m b) (hb : b < a) : memAbove (memPut m a x) b := by
  induction m with
  | nil =>
    unfold memPut
    split
    · exact h
    · intro c hc
      rw [List.mem_singleton.mp hc]
      exact hb
  | cons c r ih =>
    have hr : memAbove r b := fun d hd => h d (List.mem_cons_of_mem _ hd)
    have hc : b < c.1 := h c (by simp)
    unfold memPut
    split
    · split
      · exact h
      · intro d hd
        rcases List.mem_cons.mp hd with rfl | hd
        · exact hb
        · exact h d hd
    · split
      · split
        · exact hr
        · intro d hd
          rcases List.mem_cons.mp hd with rfl | hd
          · exact hb
          · exact hr d hd
      · intro d hd
        rcases List.mem_cons.mp hd with rfl | hd
        · exact hc
        · exact ih hr d hd

theorem memPut_sorted (m : List Host.Cell) (a : Nat) (x : Byte) (h : memSorted m = true) : memSorted (memPut m a x) = true := by
  induction m with
  | nil =>
    unfold memPut
    split <;> rfl
  | cons c r ih =>
    obtain ⟨h1, h2⟩ := (memSorted_cons c r).mp h
    unfold memPut
    split
    · rename_i hlt
      split
      · exact h
      · refine (memSorted_cons _ _).mpr ⟨fun d hd => ?_, h⟩
        rcases List.mem_cons.mp hd with rfl | hd
        · exact hlt
        · exact lt_trans hlt (h1 d hd)
    · rename_i hge
      split
      · rename_i he
        split
        · exact h2
        · refine (memSorted_cons _ _).mpr ⟨fun d hd => ?_, h2⟩
          show a < d.1
          rw [he]
          exact h1 d hd
      · rename_i hne
        exact (memSorted_cons _ _).mpr ⟨memPut_above r a c.1 x h1 (by omega), ih h2⟩

theorem memPut_mem (m : List Host.Cell) (a : Nat) (x : Byte) (c : Host.Cell) (h : c ∈ memPut m a x) : c ∈ m ∨ (c.1 = a ∧ c.2 = x ∧ x ≠ hbmDefault) := by
  induction m with
  | nil =>
    unfold memPut at h
    split at h
    · cases h
    · rename_i hx
      rw [List.mem_singleton.mp h]
      exact Or.inr ⟨rfl, rfl, hx⟩
  | cons d r ih =>
    unfold memPut at h
    split at h
    · split at h
      · exact Or.inl h
      · rename_i hx
        rcases List.mem_cons.mp h with rfl | h
        · exact Or.inr ⟨rfl, rfl, hx⟩
        · exact Or.inl h
    · split at h
      · split at h
        · exact Or.inl (List.mem_cons_of_mem _ h)
        · rename_i hx
          rcases List.mem_cons.mp h with rfl | h
          · exact Or.inr ⟨rfl, rfl, hx⟩
          · exact Or.inl (List.mem_cons_of_mem _ h)
      · rcases List.mem_cons.mp h with rfl | h
        · exact Or.inl (by simp)
        · rcases ih h with h | h
          · exact Or.inl (List.mem_cons_of_mem _ h)
          · exact Or.inr h

theorem memory_wf_iff (m : List Host.Cell) : Memory.wf m = true ↔ memSorted m = true ∧ ∀ c ∈ m, c.2 ≠ hbmDefault ∧ c.1 < hbmSize := by
  unfold Memory.wf
  simp only [Bool.and_eq_true, List.all_eq_true, bne_iff_ne, decide_eq_true_eq]

theorem memPut_wf (m : List Host.Cell) (a : Nat) (x : Byte) (h : Memory.wf m = true) (ha : a < hbmSize) : Memory.wf (memPut m a x) = true := by
  obtain ⟨h1, h2⟩ := (memory_wf_iff m).mp h
  refine (memory_wf_iff _).mpr ⟨memPut_sorted m a x h1, fun c hc => ?_⟩
  rcases memPut_mem m a x c hc with hc | ⟨e1, e2, e3⟩
  · exact h2 c hc
  · exact ⟨by rw [e2]; exact e3, by rw [e1]; exact ha⟩

theorem hbmSize_pos : 0 < hbmSize := by
  unfold hbmSize
  norm_num

theorem memPuts_wf (b : Bytes) (m : List Host.Cell) (a : Nat) (h : Memory.wf m = true) : Memory.wf (memPuts m a b) = true := by
  induction b generalizing m a with
  | nil => exact h
  | cons x r ih => exact ih _ _ (memPut_wf m _ x h (Nat.mod_lt _ hbmSize_pos))

theorem filter_sorted (p : Host.Cell → Bool) (m : List Host.Cell) (h : memSorted m = true) : memSorted (m.filter p) = true := by
  induction m with
  | nil => rfl
  | cons c r ih =>
    obtain ⟨h1, h2⟩ := (memSorted_cons c r).mp h
    rw [List.filter_cons]
    split
    · exact (memSorted_cons _ _).mpr ⟨fun d hd => h1 d (List.mem_filter.mp hd).1, ih h2⟩
    · exact ih h2

theorem filter_wf (p : Host.Cell → Bool) (m : List Host.Cell) (h : Memory.wf m = true) : Memory.wf (m.filter p) = true := by
  obtain ⟨h1, h2⟩ := (memory_wf_iff m).mp h
  exact (memory_wf_iff _).mpr ⟨filter_sorted p m h1, fun c hc => h2 c (List.mem_filter.mp hc).1⟩

/-! Reads after stores -/

theorem memGet_above (m : List Host.Cell) (a : Nat) (h : ∀ c ∈ m, a < c.1) : memGet m a = hbmDefault := by
  induction m with
  | nil => rfl
  | cons c r ih =>
    unfold memGet
    rw [if_neg (by have := h c (by simp); omega)]
    exact ih fun d hd => h d (List.mem_cons_of_mem _ hd)

theorem memGet_memPut_same (m : List Host.Cell) (a : Nat) (x : Byte) (h : memSorted m = true) : memGet (memPut m a x) a = x := by
  induction m with
  | nil =>
    unfold memPut
    split
    · rename_i e
      rw [e]
      rfl
    · simp [memGet]
  | cons c r ih =>
    obtain ⟨h1, h2⟩ := (memSorted_cons c r).mp h
    unfold memPut
    split
    · rename_i hlt
      split
      · rename_i e
        rw [e]
        refine memGet_above _ _ fun d hd => ?_
        rcases List.mem_cons.mp hd with rfl | hd
        · exact hlt
        · exact lt_trans hlt (h1 d hd)
      · simp [memGet]
    · split
      · rename_i he
        split
        · rename_i e
          rw [e]
          refine memGet_above _ _ fun d hd => ?_
          rw [he]
          exact h1 d hd
        · simp [memGet]
      · rename_i hne
        unfold memGet
        rw [if_neg (fun e => hne e.symm)]
        exact ih h2

theorem memGet_memPut_ne (m : List Host.Cell) (a b : Nat) (x : Byte) (hne : b ≠ a) : memGet (memPut m a x) b = memGet m b := by
  induction m with
  | nil =>
    unfold memPut
    split
    · rfl
    · simp [memGet, hne.symm]
  | cons c r ih =>
    unfold memPut
    split
    · split
      · rfl
      · show (if a = b then x else memGet (c :: r) b) = _
        rw [if_neg hne.symm]
    · split
      · rename_i he
        split
        · rw [show memGet (c :: r) b = (if c.1 = b then c.2 else memGet r b) from rfl, if_neg (by rw [← he]; exact hne.symm)]
        · rw [show memGet (c :: r) b = (if c.1 = b then c.2 else memGet r b) from rfl, if_neg (by rw [← he]; exact hne.symm)]
          show (if a = b then x else memGet r b) = _
          rw [if_neg hne.symm]
      · show (if c.1 = b then c.2 else memGet (memPut r a x) b) = (if c.1 = b then c.2 else memGet r b)
        rw [ih]

theorem memGet_memPuts_ne (b : Bytes) (m : List Host.Cell) (a k : Nat) (h : ∀ i, i < b.length → (a + i) % hbmSize ≠ k) :
    memGet (memPuts m a b) k = memGet m k := by
  induction b generalizing m a with
  | nil => rfl
  | cons x r ih =>
    show memGet (memPuts (memPut m (a % hbmSize) x) (a + 1) r) k = _
    rw [ih _ _ fun i hi => by
      have := h (i + 1) (by simpa using hi)
      rwa [show a + 1 + i = a + (i + 1) by omega]]
    exact memGet_memPut_ne _ _ _ _ fun e => h 0 (by simp) e.symm

theorem memGet_memPuts (b : Bytes) (m : List Host.Cell) (a i : Nat) (hs : memSorted m = true) (hi : i < b.length) (hl : b.length ≤ hbmSize) :
    memGet (memPuts m a b) ((a + i) % hbmSize) = b.getD i 0 := by
  induction b generalizing m a i with
  | nil => exact absurd hi (Nat.not_lt_zero i)
  | cons x r ih =>
    show memGet (memPuts (memPut m (a % hbmSize) x) (a + 1) r) _ = _
    have hlr : r.length < hbmSize := by
      have : (x :: r).length = r.length + 1 := rfl
      omega
    cases i with
    | zero =>
      rw [memGet_memPuts_ne, Nat.add_zero, memGet_memPut_same _ _ _ hs]
      · rfl
      · intro j hj e
        rw [Nat.add_zero] at e
        have h1 : a + 1 + j ≡ a [MOD hbmSize] := e
        have h2 : 1 + j ≡ 0 [MOD hbmSize] := by
          have : a + (1 + j) ≡ a + 0 [MOD hbmSize] := by simpa [Nat.add_assoc] using h1
          exact Nat.ModEq.add_left_cancel' a this
        have h3 := Nat.le_of_dvd (by omega) ((Nat.modEq_zero_iff_dvd).mp h2)
        omega
    | succ i =>
      rw [show a + (i + 1) = a + 1 + i by omega]
      exact ih _ _ _ (memPut_sorted _ _ _ hs) (by simpa using hi) (Nat.le_of_lt hlr)

end Sys2Proof.Machine
end

