-- ==== Sys2Proof/Laws/Canonical.lean ====
section
/-! SUPPORT. Every operation keeps HBM in its canonical form. -/

namespace Sys2Proof.Machine

/-- HBM is in its canonical form. -/
def State.canonical (s : State) : Prop := Memory.wf s.hbm = true

/-- All parts but HBM. -/
def notHbm : Part → Bool
  | .hbm => false
  | _ => true

theorem canonical_of_hbm {s t : State} (h : t.hbm = s.hbm) : t.canonical ↔ s.canonical := by
  unfold State.canonical
  rw [h]

theorem canonical_of_blank {s t : State} (h : t.blank notHbm = s.blank notHbm) : t.canonical ↔ s.canonical :=
  by
  have e := congrArg State.hbm h
  exact canonical_of_hbm e

theorem hwrite_hbm (s : State) (a : Nat) (b : Bytes) (h : s.canonical) : (s.hwrite a b).canonical := memPuts_wf b s.hbm a h

theorem ite_hbm (c : Prop) [Decidable c] (a b : State) (ha : a.canonical) (hb : b.canonical) : (if c then a else b).canonical := by
  split
  · exact ha
  · exact hb

theorem each_hbm {α : Type} (s : State) (l : List α) (f : State → α → State) (h : ∀ s x, s.canonical → (f s x).canonical) (hc : s.canonical) :
    (s.each l f).canonical := by
  unfold State.each
  induction l generalizing s with
  | nil => exact hc
  | cons a r ih => exact ih _ (h s a hc)

theorem foldl_hbm {α : Type} (s : State) (l : List α) (f : State → α → State) (h : ∀ s x, s.canonical → (f s x).canonical) (hc : s.canonical) :
    (l.foldl f s).canonical := each_hbm s l f h hc

theorem foldlPair_hbm {α β : Type} (l : List α) (f : State × β → α → State × β) (x0 : State × β)
    (h : ∀ x a, x.1.canonical → (f x a).1.canonical) (hc : x0.1.canonical) : (l.foldl f x0).1.canonical := by
  induction l generalizing x0 with
  | nil => exact hc
  | cons a r ih => exact ih _ (h x0 a hc)

theorem setSys_hbm (s : State) (g : SysSt → SysSt) : (s.setSys g).canonical ↔ s.canonical := Iff.rfl
theorem setClk_hbm (s : State) (g : TickSt → TickSt) : (s.setClk g).canonical ↔ s.canonical := Iff.rfl
theorem setSw_hbm (s : State) (g : SwitchSt → SwitchSt) : (s.setSw g).canonical ↔ s.canonical := Iff.rfl
theorem setTbl_hbm (s : State) (g : TableSt → TableSt) : (s.setTbl g).canonical ↔ s.canonical := Iff.rfl
theorem setPho_hbm (s : State) (g : PhotonSt → PhotonSt) : (s.setPho g).canonical ↔ s.canonical := Iff.rfl
theorem setMgmt_hbm (s : State) (g : MgmtSt → MgmtSt) : (s.setMgmt g).canonical ↔ s.canonical := Iff.rfl
theorem setFuse_hbm (s : State) (g : FuseSt → FuseSt) : (s.setFuse g).canonical ↔ s.canonical := Iff.rfl
theorem setCol_hbm (s : State) (g : CollectSt → CollectSt) : (s.setCol g).canonical ↔ s.canonical := Iff.rfl
theorem setTwin_hbm (s : State) (g : TwinSt → TwinSt) : (s.setTwin g).canonical ↔ s.canonical := Iff.rfl
theorem setAer_hbm (s : State) (g : AerSt → AerSt) : (s.setAer g).canonical ↔ s.canonical := Iff.rfl
theorem setFlt_hbm (s : State) (g : FaultSt → FaultSt) : (s.setFlt g).canonical ↔ s.canonical := Iff.rfl
theorem setDump_hbm (s : State) (g : DumpSt → DumpSt) : (s.setDump g).canonical ↔ s.canonical := Iff.rfl
theorem setCalSt_hbm (s : State) (g : CalSt → CalSt) : (s.setCalSt g).canonical ↔ s.canonical := Iff.rfl
theorem setPort_hbm (s : State) (p : Nat) (g : PortSt → PortSt) : (s.setPort p g).canonical ↔ s.canonical := Iff.rfl
theorem setDie_hbm (s : State) (p : Nat) (g : DieSt → DieSt) : (s.setDie p g).canonical ↔ s.canonical := Iff.rfl
theorem setLane_hbm (s : State) (p : Nat) (g : LaneSt → LaneSt) : (s.setLane p g).canonical ↔ s.canonical := Iff.rfl
theorem setCarrier_hbm (s : State) (p w : Nat) (g : CarrierSt → CarrierSt) : (s.setCarrier p w g).canonical ↔ s.canonical := Iff.rfl
theorem setEls_hbm (s : State) (p : Nat) (g : ElsSt → ElsSt) : (s.setEls p g).canonical ↔ s.canonical := Iff.rfl
theorem setCtx_hbm (s : State) (p : Nat) (g : CtxSt → CtxSt) : (s.setCtx p g).canonical ↔ s.canonical := Iff.rfl
theorem setCore_hbm (s : State) (p : Nat) (g : CoreSt → CoreSt) : (s.setCore p g).canonical ↔ s.canonical := Iff.rfl
theorem setEng_hbm (s : State) (p : Nat) (g : EngSt → EngSt) : (s.setEng p g).canonical ↔ s.canonical := Iff.rfl
theorem setPcal_hbm (s : State) (p : Nat) (g : PortCal → PortCal) : (s.setPcal p g).canonical ↔ s.canonical := Iff.rfl
theorem rset_hbm (s : State) (a v : Nat) : (s.rset a v).canonical ↔ s.canonical := Iff.rfl
theorem rclear_hbm (s : State) (p : Nat → Bool) : (s.rclear p).canonical ↔ s.canonical := Iff.rfl
theorem send_hbm (s : State) (x : Sent) : (s.send x).canonical ↔ s.canonical := Iff.rfl
theorem atFc_hbm (s : State) (x : FcCycle) : (s.atFc x).canonical ↔ s.canonical := Iff.rfl
theorem draw_hbm (s : State)  : (s.draw).1.canonical ↔ s.canonical := Iff.rfl
theorem free_hbm (s : State) (n : Nat) : (s.free n).1.canonical ↔ s.canonical := Iff.rfl

theorem bump_hbm (s : State) (a : Nat) (n : Nat) : (State.bump s a n).canonical ↔ s.canonical :=
  canonical_of_blank (bump_blank notHbm (by decide) s a n)

theorem storeRec_hbm (s : State) (seq : Nat) (bytes : Bytes) (hc : s.canonical) : (State.storeRec s seq bytes).canonical := by
  unfold State.storeRec
  simp (maxDischargeDepth := 12) (contextual := true) only [hc, ite_hbm, bump_hbm, hwrite_hbm, setAer_hbm]

theorem writeRec_hbm (s : State) (hc : s.canonical) : (State.writeRec s).canonical := by
  unfold State.writeRec
  ((repeat' split) <;> first | with_reducible exact hc | simp (maxDischargeDepth := 12) (contextual := true) only [hc, setAer_hbm, storeRec_hbm])

theorem copyEarly_hbm (s : State) (hc : s.canonical) : (State.copyEarly s).canonical := by
  unfold State.copyEarly
  simp (maxDischargeDepth := 12) (contextual := true) only [hc, each_hbm, implies_true, setAer_hbm, storeRec_hbm]

theorem hzero_hbm (s : State) (a n : Nat) (hc : s.canonical) : (s.hzero a n).canonical := filter_wf _ _ hc

theorem commitPlanes_hbm (s : State) (c : Nat) (p : Plan) (hc : s.canonical) : (State.commitPlanes s c p).canonical := by
  unfold State.commitPlanes
  ((repeat' split) <;> first | with_reducible exact hc | simp (maxDischargeDepth := 12) (contextual := true) only [hc, foldl_hbm, implies_true, hzero_hbm, setCtx_hbm])

theorem acceptEnable_hbm (s : State) (c : Nat) (p : Plan) (f : Option InFlight) (hc : s.canonical) : (State.acceptEnable s c p f).canonical := by
  unfold State.acceptEnable
  simp (maxDischargeDepth := 12) (contextual := true) only [hc, foldl_hbm, implies_true, commitPlanes_hbm, setCore_hbm, setCtx_hbm]

theorem twinSend_hbm (s : State) (type : Nat) (payload : Bytes) : (State.twinSend s type payload).canonical ↔ s.canonical :=
  canonical_of_blank (twinSend_blank notHbm (by decide) (by decide) s type payload)

theorem enableCtx_hbm (s : State) (w : Writer) (c : Nat) (hc : s.canonical) : (State.enableCtx s w c).state.canonical := by
  unfold State.enableCtx
  ((repeat' split) <;> first | with_reducible exact hc | simp (maxDischargeDepth := 12) (contextual := true) only [hc, acceptEnable_hbm, setCtx_hbm, twinSend_hbm])

theorem disableCtx_hbm (s : State) (c : Nat) : (State.disableCtx s c).state.canonical ↔ s.canonical :=
  canonical_of_blank (disableCtx_blank notHbm (by decide) s c)

theorem resetCtx_hbm (s : State) (w : Writer) (c : Nat) : (State.resetCtx s w c).state.canonical ↔ s.canonical :=
  canonical_of_blank (resetCtx_blank notHbm (by decide) s w c)

theorem stateFree_hbm (s : State) (c : Nat) : (State.stateFree s c).state.canonical ↔ s.canonical :=
  canonical_of_blank (stateFree_blank notHbm (by decide) s c)

theorem ctxCommand_hbm (s : State) (w : Writer) (c cmds : Nat) (hc : s.canonical) : (State.ctxCommand s w c cmds).state.canonical := by
  unfold State.ctxCommand
  ((repeat' split) <;> first | with_reducible exact hc | simp (maxDischargeDepth := 12) (contextual := true) only [hc, disableCtx_hbm, enableCtx_hbm, resetCtx_hbm, stateFree_hbm])

theorem Effect_ofPair_hbm (r : State × Code) : (Effect.ofPair r).state.canonical ↔ r.1.canonical :=
  canonical_of_blank (Effect_ofPair_blank notHbm  r)

theorem bwCommand_hbm (s : State) (cmds : Nat) : (State.bwCommand s cmds).state.canonical ↔ s.canonical :=
  canonical_of_blank (bwCommand_blank notHbm (by decide) (by decide) s cmds)

theorem calCommand_hbm (s : State) (p cmds : Nat) : (State.calCommand s p cmds).state.canonical ↔ s.canonical :=
  canonical_of_blank (calCommand_blank notHbm (by decide) (by decide) s p cmds)

theorem engCommand_hbm (s : State) (e cmds : Nat) : (State.engCommand s e cmds).state.canonical ↔ s.canonical :=
  canonical_of_blank (engCommand_blank notHbm (by decide) (by decide) s e cmds)

theorem kbankWritten_hbm (s : State) (c cmds : Nat) : (State.kbankWritten s c cmds).state.canonical ↔ s.canonical :=
  canonical_of_blank (kbankWritten_blank notHbm (by decide) (by decide) (by decide) s c cmds)

theorem kiteRelease_hbm (s : State) : (State.kiteRelease s).1.canonical ↔ s.canonical :=
  canonical_of_blank (kiteRelease_blank notHbm (by decide) s)

theorem laneCommand_hbm (s : State) (l cmds : Nat) : (State.laneCommand s l cmds).state.canonical ↔ s.canonical :=
  canonical_of_blank (laneCommand_blank notHbm (by decide) (by decide) (by decide) (by decide) (by decide) (by decide) (by decide) (by decide) s l cmds)

theorem portCtrlWritten_hbm (s0 s : State) (w : Writer) (n cmds : Nat) : (State.portCtrlWritten s0 s w n cmds).state.canonical ↔ s.canonical :=
  canonical_of_blank (portCtrlWritten_blank notHbm (by decide) (by decide) (by decide) (by decide) (by decide) (by decide) (by decide) (by decide) (by decide) (by decide) s0 s w n cmds)

theorem restoreEls_hbm (s : State) (w : Writer) (m : Nat) : (s.restoreEls w m).state.canonical ↔ s.canonical :=
  canonical_of_blank (restoreEls_blank notHbm (by decide) (by decide) (by decide) (by decide) (by decide) s w m)

theorem secCommand_hbm (s : State) (w : Writer) (off cmds : Nat) : (State.secCommand s w off cmds).state.canonical ↔ s.canonical :=
  canonical_of_blank (secCommand_blank notHbm (by decide) (by decide) s w off cmds)

theorem selectRec_hbm (s : State) (m : MPort) (sel : Nat) : (State.selectRec s m sel).1.canonical ↔ s.canonical :=
  canonical_of_blank (selectRec_blank notHbm (by decide) s m sel)

theorem shaperWritten_hbm (s0 s : State) (n b : Nat) : (State.shaperWritten s0 s n b).canonical ↔ s.canonical :=
  canonical_of_blank (shaperWritten_blank notHbm (by decide) s0 s n b)

theorem triggerDump_hbm (s : State) : (State.triggerDump s).state.canonical ↔ s.canonical :=
  canonical_of_blank (triggerDump_blank notHbm (by decide) s)

theorem twinCommand_hbm (s : State) (cmds : Nat) : (State.twinCommand s cmds).state.canonical ↔ s.canonical :=
  canonical_of_blank (twinCommand_blank notHbm (by decide) (by decide) (by decide) (by decide) (by decide) s cmds)

theorem upstreamWritten_hbm (s : State) (i : Nat) : (State.upstreamWritten s i).canonical ↔ s.canonical :=
  canonical_of_blank (upstreamWritten_blank notHbm (by decide) (by decide) (by decide) (by decide) (by decide) s i)

theorem uuCommand_hbm (s : State) (n cmds : Nat) : (State.uuCommand s n cmds).state.canonical ↔ s.canonical :=
  canonical_of_blank (uuCommand_blank notHbm (by decide) (by decide) s n cmds)

theorem writeRepair_hbm (s : State) (e v : Nat) : (State.writeRepair s e v).1.canonical ↔ s.canonical :=
  canonical_of_blank (writeRepair_blank notHbm (by decide) (by decide) (by decide) s e v)

theorem writeEffect_hbm (s0 s : State) (w : Writer) (p : Page) (off old : Nat) (d : Draft) (h0 : s0.canonical) (hc : s.canonical) : (State.writeEffect s0 s w p off old d).state.canonical := by
  unfold State.writeEffect
  dsimp only
  split <;> simp (maxDischargeDepth := 12) (contextual := true) only [hc, h0, ite_hbm, ite_state, Effect_ofPair_hbm, bwCommand_hbm, calCommand_hbm, ctxCommand_hbm, engCommand_hbm, kbankWritten_hbm, kiteRelease_hbm, laneCommand_hbm, portCtrlWritten_hbm, restoreEls_hbm, secCommand_hbm, selectRec_hbm, setClk_hbm, setSys_hbm, shaperWritten_hbm, triggerDump_hbm, twinCommand_hbm, upstreamWritten_hbm, uuCommand_hbm, writeRepair_hbm]

theorem advance_hbm (s : State) (a : Nat) : (State.advance s a).canonical ↔ s.canonical :=
  canonical_of_blank (advance_blank notHbm (by decide) s a)

theorem countWrite_hbm (s : State) (w : Writer) (p : Page) : (State.countWrite s w p).canonical ↔ s.canonical :=
  canonical_of_blank (countWrite_blank notHbm (by decide) s w p)

theorem maskWritten_hbm (s : State) (p : Page) (off old new : Nat) : (State.maskWritten s p off old new).canonical ↔ s.canonical :=
  canonical_of_blank (maskWritten_blank notHbm (by decide) s p off old new)

theorem refuseWrite_hbm (s : State) (p : Page) (off : Nat) (code : Code) (reason detail : Nat) : (State.refuseWrite s p off code reason detail).state.canonical ↔ s.canonical :=
  canonical_of_blank (refuseWrite_blank notHbm (by decide) s p off code reason detail)

theorem storeReg_hbm (s : State) (p : Page) (off v : Nat) : (State.storeReg s p off v).canonical ↔ s.canonical :=
  canonical_of_blank (storeReg_blank notHbm (by decide) s p off v)

theorem applyWrite_hbm (s : State) (w : Writer) (p : Page) (off old : Nat) (d : Draft) (hc : s.canonical) : (State.applyWrite s w p off old d).state.canonical := by
  unfold State.applyWrite
  extract_lets w t u e v
  have ht : t.canonical := ite_hbm _ _ _ hc ((storeReg_hbm _ _ _ _).mpr hc)
  have hu : u.canonical := (maskWritten_hbm _ _ _ _ _).mpr ht
  have he : e.state.canonical := writeEffect_hbm s u w p off old d hc hu
  have hv : v.canonical := ite_hbm _ _ _ ((advance_hbm _ _).mpr he) he
  clear_value w t u e v
  split
  · split
    · exact (refuseWrite_hbm _ _ _ _ _ _).mpr hv
    · split
      · exact (refuseWrite_hbm _ _ _ _ _ _).mpr hv
      · exact (countWrite_hbm _ _ _).mpr hv
  · exact (refuseWrite_hbm _ _ _ _ _ _).mpr hc

theorem regWrite_hbm (s : State) (w : Writer) (p : Page) (r : RegDef) (mask v : Nat) (hc : s.canonical) : (State.regWrite s w p r mask v).state.canonical := by
  unfold State.regWrite
  (dsimp only; (repeat' split) <;> first | with_reducible exact hc | simp (maxDischargeDepth := 12) (contextual := true) only [hc, applyWrite_hbm, refuseWrite_hbm])

theorem wordWrite_hbm (s : State) (w : Writer) (p : Page) (off mask v : Nat) (hc : s.canonical) : (State.wordWrite s w p off mask v).state.canonical := by
  unfold State.wordWrite
  ((repeat' split) <;> first | with_reducible exact hc | simp (maxDischargeDepth := 12) (contextual := true) only [hc, countWrite_hbm, refuseWrite_hbm, regWrite_hbm])

theorem twoWords_hbm (s : State) (w : Writer) (p : Page) (off mask v : Nat) (hc : s.canonical) : (State.twoWords s w p off mask v).state.canonical := by
  unfold State.twoWords
  simp (maxDischargeDepth := 12) (contextual := true) only [hc, ite_hbm, ite_wout, wordWrite_hbm]

theorem pairWrite_hbm (s : State) (w : Writer) (p : Page) (off mask v : Nat) (hc : s.canonical) : (State.pairWrite s w p off mask v).state.canonical := by
  unfold State.pairWrite
  ((repeat' split) <;> first | with_reducible exact hc | simp (maxDischargeDepth := 12) (contextual := true) only [hc, regWrite_hbm, twoWords_hbm])

theorem accessWrite_hbm (s : State) (w : Writer) (p : Page) (off width mask v : Nat) (hc : s.canonical) : (State.accessWrite s w p off width mask v).state.canonical := by
  unfold State.accessWrite
  simp (maxDischargeDepth := 12) (contextual := true) only [hc, ite_hbm, ite_wout, pairWrite_hbm, wordWrite_hbm]

theorem acked_hbm (s : State) (p : Page) : (State.acked s p).canonical ↔ s.canonical :=
  canonical_of_blank (acked_blank notHbm (by decide) s p)

theorem writeOn_hbm (s : State) (w : Writer) (p : Page) (off width mask v : Nat) (hc : s.canonical) : (State.writeOn s w p off width mask v).state.canonical := by
  unfold State.writeOn
  simp (maxDischargeDepth := 12) (contextual := true) only [hc, ite_hbm, ite_wout, accessWrite_hbm, acked_hbm]

theorem writeDies_hbm (w : Writer) (off width mask v : Nat) (l : List Page) (s : State) (b : Option (Code × Nat)) (hc : s.canonical) :
    (State.writeDies w off width mask v l s b).state.canonical := by
  induction l generalizing s b with
  | nil => cases b <;> exact hc
  | cons p rest ih =>
    have h := writeOn_hbm s w p off width mask v hc
    unfold State.writeDies
    dsimp only
    (repeat' split) <;> first | with_reducible exact h | exact ih _ _ h

theorem writeAt_hbm (s : State) (w : Writer) (addr width mask v : Nat) (hc : s.canonical) : (State.writeAt s w addr width mask v).state.canonical := by
  unfold State.writeAt
  ((repeat' split) <;> first | with_reducible exact hc | simp (maxDischargeDepth := 12) (contextual := true) only [hc, writeDies_hbm, writeOn_hbm])

theorem serve_hbm (s : State) (q : Req) (op : Nat) (body : Bytes) (gate : State → Gate) (run : State → InFlight → State × Option Answer)
    (hr : ∀ s f, s.canonical → (run s f).1.canonical) (hc : s.canonical) : (s.serve q op body gate run).canonical := by
  unfold State.serve
  dsimp only
  split
  · exact hc
  · split
    · exact (canonical_of_blank (glbCtr_blank notHbm (by decide) _ _)).mpr hc
    · have ha : ∀ f, (s.accept f).canonical := fun f => (canonical_of_blank (accept_blank notHbm (by decide) s f)).mpr hc
      have hp : ∀ (u : State) f a, u.canonical → (u.reply f a).canonical := fun u f a h =>
        (canonical_of_blank (reply_blank notHbm (by decide) (by decide) (by decide) u f a)).mpr h
      split
      · exact hp _ _ _ (ha _)
      · split
        · exact (canonical_of_blank (resendReply_blank notHbm (by decide) (by decide) (by decide) _ _ _)).mpr (ha _)
        · split
          · exact hp _ _ _ (ha _)
          · split
            · rename_i t a h
              have h2 := hr _ { req := q, opcode := op, bodyLen := body.length, bodyCrc := crc32c body } (ha { req := q, opcode := op, bodyLen := body.length, bodyCrc := crc32c body })
              rw [h] at h2
              exact hp _ _ _ h2
            · rename_i t h
              have h2 := hr _ { req := q, opcode := op, bodyLen := body.length, bodyCrc := crc32c body } (ha { req := q, opcode := op, bodyLen := body.length, bodyCrc := crc32c body })
              rw [h] at h2
              exact h2

theorem serveWrite_hbm (s : State) (q : Req) (a : Access) (v : Word64) (hc : s.canonical) : (s.serveWrite q a v).canonical := by
  unfold State.serveWrite
  refine serve_hbm _ _ _ _ _ _ (fun s f h => ?_) hc
  exact writeAt_hbm _ _ _ _ _ _ h

theorem serveReg_hbm (s : State) (q : Req) (addr v : Nat) (hc : s.canonical) : (State.serveReg s q addr v).canonical := by
  unfold State.serveReg
  simp (maxDischargeDepth := 12) (contextual := true) only [hc, serveWrite_hbm]

theorem writeCtxCtrl_hbm (s : State) (q : Req) (c v : Nat) (hc : s.canonical) : (State.writeCtxCtrl s q c v).canonical := by
  unfold State.writeCtxCtrl
  simp (maxDischargeDepth := 12) (contextual := true) only [hc, serveReg_hbm]

theorem snapStore_hbm (s : State) (d off : Nat) (bs : Bytes) (hc : s.canonical) : (State.snapStore s d off bs).canonical := by
  unfold State.snapStore
  simp (maxDischargeDepth := 12) (contextual := true) only [hc, hwrite_hbm]

theorem writeSnap_hbm (s : State) (h : DumpHead) (rs : List DumpRec) (hc : s.canonical) : (State.writeSnap s h rs).canonical := by
  unfold State.writeSnap
  simp (maxDischargeDepth := 12) (contextual := true) only [hc, ite_hbm, rset_hbm, snapStore_hbm]

theorem writeSnaps_hbm (s : State) (x : Snapshot) (hc : s.canonical) : (State.writeSnaps s x).canonical := by
  unfold State.writeSnaps
  simp (maxDischargeDepth := 12) (contextual := true) only [hc, each_hbm, implies_true, free_hbm, writeSnap_hbm]

theorem askReset_hbm (s : State) (c : Nat) (f : Option InFlight) : (State.askReset s c f).canonical ↔ s.canonical :=
  canonical_of_blank (askReset_blank notHbm (by decide) s c f)

theorem finishSnap_hbm (s : State) (hc : s.canonical) : (State.finishSnap s).canonical := by
  unfold State.finishSnap
  ((repeat' split) <;> first | with_reducible exact hc | simp (maxDischargeDepth := 12) (contextual := true) only [hc, each_hbm, implies_true, ite_hbm, askReset_hbm, setDump_hbm, writeSnaps_hbm])

theorem finishFatal_hbm (s : State) (silent : List Nat) (hung : List Nat) (hc : s.canonical) : (State.finishFatal s silent hung).canonical := by
  unfold State.finishFatal
  ((repeat' split) <;> first | with_reducible exact hc | simp (maxDischargeDepth := 12) (contextual := true) only [hc, each_hbm, implies_true, free_hbm, hwrite_hbm, setDump_hbm])

theorem writeEngCtrl_hbm (s : State) (q : Req) (e v : Nat) (hc : s.canonical) : (State.writeEngCtrl s q e v).canonical := by
  unfold State.writeEngCtrl
  simp (maxDischargeDepth := 12) (contextual := true) only [hc, serveReg_hbm]

theorem readAccess_hbm (s : State) (m : MPort) (clear : Bool) (p : Page) (off width : Nat) : (State.readAccess s m clear p off width).1.canonical ↔ s.canonical :=
  canonical_of_blank (readAccess_blank notHbm (by decide) (by decide) s m clear p off width)

theorem serveRmw_hbm (s : State) (q : Req) (a : Access) (mask v : Word64) (hc : s.canonical) : (s.serveRmw q a mask v).canonical := by
  unfold State.serveRmw
  refine serve_hbm _ _ _ _ _ _ (fun s f hc => ?_) hc
  dsimp only
  have hp : ∀ (l : List Page) (x : State × List Nat), x.1.canonical → (List.foldl (fun (x : State × List Nat) (p : Page) =>
        if x.1.pageHung p then (x.1, x.2 ++ [0])
        else
          let r := (x.1.acked p).readAccess q.port true p (a.addr.toNat % 4096) a.width.toNat
          (r.1, x.2 ++ [r.2])) x l).1.canonical := by
    intro l x hx
    refine foldlPair_hbm l _ x (fun x p h => ?_) hx
    rw [ite_fst]
    exact ite_hbm _ _ _ h ((readAccess_hbm _ _ _ _ _ _).mpr ((acked_hbm _ _).mpr h))
  (repeat' split) <;> first
    | exact hc
    | exact hp _ (s, []) hc
    | exact writeAt_hbm _ _ _ _ _ _ (hp _ (s, []) hc)
    | exact writeAt_hbm _ _ _ _ _ _ hc

theorem writeWords_hbm (w : Writer) (l : List Word) (a i : Nat) (s : State) (hc : s.canonical) : (State.writeWords w a i l s).state.canonical := by
  induction l generalizing s a i with
  | nil => exact hc
  | cons v rest ih =>
    have h := writeAt_hbm s w a 1 (2 ^ 32 - 1) v.toNat hc
    unfold State.writeWords
    dsimp only
    split
    · exact ih _ _ _ h
    · exact h

theorem serveBulkWrite_hbm (s : State) (q : Req) (a : BitVec 32) (words : List Word) (hc : s.canonical) : (s.serveBulkWrite q a words).canonical := by
  unfold State.serveBulkWrite
  refine serve_hbm _ _ _ _ _ _ (fun s f h => ?_) hc
  exact writeWords_hbm _ _ _ _ _ h

theorem writePortCtrl_hbm (s : State) (q : Req) (p v : Nat) (hc : s.canonical) : (State.writePortCtrl s q p v).canonical := by
  unfold State.writePortCtrl
  simp (maxDischargeDepth := 12) (contextual := true) only [hc, serveReg_hbm]

theorem askAgain_hbm (s : State) (g : Nat) : (State.askAgain s g).canonical ↔ s.canonical :=
  canonical_of_blank (askAgain_blank notHbm (by decide) s g)

theorem enterStage_hbm (s : State) (n : Nat) : (State.enterStage s n).canonical ↔ s.canonical :=
  canonical_of_blank (enterStage_blank notHbm (by decide) (by decide) (by decide) (by decide) s n)

theorem setCarrierRings_hbm (s : State) (f w : Nat) (x : RingState) : (State.setCarrierRings s f w x).canonical ↔ s.canonical :=
  canonical_of_blank (setCarrierRings_blank notHbm (by decide) (by decide) (by decide) (by decide) (by decide) (by decide) (by decide) (by decide) s f w x)

theorem startSchedule_hbm (s : State) (hc : s.canonical) : (State.startSchedule s).canonical := by
  unfold State.startSchedule
  simp (maxDischargeDepth := 12) (contextual := true) only [hc, each_hbm, implies_true, askAgain_hbm, copyEarly_hbm, enterStage_hbm, setCarrierRings_hbm, setSys_hbm]

theorem configure_hbm {s t : State} {c : Nat} {p : Bytes} (h : s.configure c p = some t) (hc : s.canonical) : t.canonical := by
  unfold State.configure at h
  dsimp only at h
  split at h
  · cases h
  · injection h with h
    rw [← h]
    simp (maxDischargeDepth := 12) (contextual := true) only [hc, foldl_hbm, ite_hbm, foldl_hbm, implies_true, hzero_hbm, setCol_hbm, setCtx_hbm, setTwin_hbm]

theorem sendAccept_hbm (s : State) (c : Nat) (code : Code) (reason : Nat) : (State.sendAccept s c code reason).canonical ↔ s.canonical :=
  canonical_of_blank (sendAccept_blank notHbm (by decide) (by decide) s c code reason)

theorem configRx_hbm (s : State) (p : Bytes) (hc : s.canonical) : (s.configRx p).canonical := by
  unfold State.configRx
  dsimp only
  have ha : ∀ (u : State) c code r, u.canonical → (u.sendAccept c code r).canonical := fun u c code r h => (sendAccept_hbm u c code r).mpr h
  split
  · exact hc
  · split
    · split
      · exact ha _ _ _ _ hc
      · exact ha _ _ _ _ hc
    · split
      · exact ha _ _ _ _ hc
      · split
        · exact ha _ _ _ _ hc
        · rename_i t h
          have h2 := configure_hbm h hc
          refine ha _ _ _ _ ?_
          split
          · exact h2
          · exact h2

theorem refuseAsking_hbm (s : State) (c reason : Nat) : (State.refuseAsking s c reason).canonical ↔ s.canonical :=
  canonical_of_blank (refuseAsking_blank notHbm (by decide) (by decide) (by decide) (by decide) s c reason)

theorem acceptRx_hbm (s : State) (p : Bytes) (hc : s.canonical) : (State.acceptRx s p).canonical := by
  unfold State.acceptRx
  (dsimp only; (repeat' split) <;> first | with_reducible exact hc | simp (maxDischargeDepth := 12) (contextual := true) only [hc, acceptEnable_hbm, refuseAsking_hbm])

theorem ownCopy_hbm (s : State) (c : Nat) (hc : s.canonical) : (State.ownCopy s c).canonical := by
  unfold State.ownCopy
  (dsimp only; (repeat' split) <;> first | with_reducible exact hc | simp (maxDischargeDepth := 12) (contextual := true) only [hc, foldl_hbm, implies_true, hzero_hbm, setCtx_hbm])

theorem sendAck_hbm (s : State) (kind c step n : Nat) : (State.sendAck s kind c step n).canonical ↔ s.canonical :=
  canonical_of_blank (sendAck_blank notHbm (by decide) (by decide) s kind c step n)

theorem twinFreed_hbm (s : State) (n : Nat) : (State.twinFreed s n).canonical ↔ s.canonical :=
  canonical_of_blank (twinFreed_blank notHbm (by decide) s n)

theorem copyRx_hbm (s : State) (p : Bytes) (hc : s.canonical) : (State.copyRx s p).canonical := by
  unfold State.copyRx
  (dsimp only; (repeat' split) <;> first | with_reducible exact hc | simp (maxDischargeDepth := 12) (contextual := true) only [hc, hwrite_hbm, ownCopy_hbm, sendAck_hbm, setTwin_hbm, twinFreed_hbm])

theorem commitStores_hbm (s : State) (stores : List (Nat × Bytes)) (hc : s.canonical) : (State.commitStores s stores).canonical := by
  unfold State.commitStores
  simp (maxDischargeDepth := 12) (contextual := true) only [hc, each_hbm, implies_true, hwrite_hbm, setSys_hbm]

theorem countRun_hbm (s : State) (n : Nat) (r : ChunkRun) (g : Program) (x : PassSt) (count : Nat) : (State.countRun s n r g x count).canonical ↔ s.canonical :=
  canonical_of_blank (countRun_blank notHbm (by decide) (by decide) (by decide) s n r g x count)

theorem mirrorRan_hbm (s : State) (m : Mirror) (r : ChunkRun) (x : PassSt) (passes : Nat) : (State.mirrorRan s m r x passes).canonical ↔ s.canonical :=
  canonical_of_blank (mirrorRan_blank notHbm (by decide) (by decide) (by decide) (by decide) s m r x passes)

theorem slotRan_hbm (s : State) (slot : Slot) (r : ChunkRun) (x : PassSt) (passes : Nat) : (State.slotRan s slot r x passes).canonical ↔ s.canonical :=
  canonical_of_blank (slotRan_blank notHbm (by decide) s slot r x passes)

theorem commitRun_hbm (s : State) (n : Nat) (inv : Invocation) (r : ChunkRun) (g : Program) (x : PassSt) (hc : s.canonical) : (s.commitRun n inv r g x).canonical := by
  unfold State.commitRun
  dsimp only
  split <;> split <;> simp (maxDischargeDepth := 12) (contextual := true) only [hc, commitStores_hbm, countRun_hbm, mirrorRan_hbm, slotRan_hbm]

theorem keepRegs_hbm (s : State) (n : Nat) (r : ChunkRun) (v : Map (List Nat)) : (State.keepRegs s n r v).canonical ↔ s.canonical :=
  canonical_of_blank (keepRegs_blank notHbm (by decide) s n r v)

theorem uuFree_hbm (s : State) (n : Nat) (chunkDone : Bool) : (State.uuFree s n chunkDone).canonical ↔ s.canonical :=
  canonical_of_blank (uuFree_blank notHbm (by decide) (by decide) (by decide) (by decide) s n chunkDone)

theorem uuLimit_hbm (s : State) (n : Nat) : (State.uuLimit s n).canonical ↔ s.canonical :=
  canonical_of_blank (uuLimit_blank notHbm (by decide) s n)

theorem invocationPassed_hbm (s : State) (n : Nat) (inv : Invocation) (hc : s.canonical) : (s.invocationPassed n inv).canonical := by
  unfold State.invocationPassed
  dsimp only
  split <;> simp (maxDischargeDepth := 12) (contextual := true) only [hc, commitRun_hbm, keepRegs_hbm, uuFree_hbm, uuLimit_hbm]

theorem bump32_hbm (s : State) (a : Nat) (n : Nat) : (State.bump32 s a n).canonical ↔ s.canonical :=
  canonical_of_blank (bump32_blank notHbm (by decide) s a n)

theorem invocationFailed_hbm (s : State) (n : Nat) (inv : Invocation) : (State.invocationFailed s n inv).canonical ↔ s.canonical :=
  canonical_of_blank (invocationFailed_blank notHbm (by decide) (by decide) (by decide) (by decide) (by decide) s n inv)

theorem endInvocation_hbm (s : State) (n : Nat) (fault : UuFault) (late : Bool) (hc : s.canonical) : (State.endInvocation s n fault late).canonical := by
  unfold State.endInvocation
  ((repeat' split) <;> first | with_reducible exact hc | simp (maxDischargeDepth := 12) (contextual := true) only [hc, bump32_hbm, bump_hbm, invocationFailed_hbm, invocationPassed_hbm, setCore_hbm])

theorem appendTrace_hbm (s : State) (d : Nat) (rec_ : Bytes) (hc : s.canonical) : (State.appendTrace s d rec_).canonical := by
  unfold State.appendTrace
  simp (maxDischargeDepth := 12) (contextual := true) only [hc, hwrite_hbm, rset_hbm]

theorem traceDie_hbm (s : State) (d : Nat) (hc : s.canonical) : (State.traceDie s d).canonical := by
  unfold State.traceDie
  simp (maxDischargeDepth := 12) (contextual := true) only [hc, each_hbm, implies_true, ite_hbm, appendTrace_hbm]

theorem sampleQueue_hbm (s : State) (p vc : Nat) : (State.sampleQueue s p vc).canonical ↔ s.canonical :=
  canonical_of_blank (sampleQueue_blank notHbm (by decide) s p vc)

theorem sample_hbm (s : State) (hc : s.canonical) : (State.sample s).canonical := by
  unfold State.sample
  simp (maxDischargeDepth := 12) (contextual := true) only [hc, each_hbm, implies_true, sampleQueue_hbm, setSys_hbm, traceDie_hbm]

end Sys2Proof.Machine
end

