-- ==== Sys2Proof/Laws/CommandFrames.lean ====
section
/-! SUPPORT. The frame of every command but those that write registers, which may reach any part. -/

namespace Sys2Proof.Machine

theorem elim_blank (K : Part → Bool) {α : Type} {s : State} (o : Option α) (f : α → State) (h : ∀ x, (f x).blank K = s.blank K) :
    (o.elim s f).blank K = s.blank K := by cases o <;> simp only [Option.elim, h]

theorem execStageAReached_blank (K : Part → Bool) (hsys : K .sys = true) (minTemp : Int) (s : State) (t : State)
    (h : execStageAReached minTemp s = .next t) : t.blank K = s.blank K := by
  refine done_blank h ?_
  simp (maxDischargeDepth := 9) only [ite_blank, ite_self, setSys_blank, hsys]

theorem execFirmwareVerify_blank (K : Part → Bool) (hregs : K .regs = true) (hmgmt : K .mgmt = true) (haer : K .aer = true) (hsys : K .sys = true) (slotA slotB : Bytes) (s : State) (t : State)
    (h : execFirmwareVerify slotA slotB s = .next t) : t.blank K = s.blank K := by
  refine done_blank h ?_
  simp (maxDischargeDepth := 9) only [ite_blank, ite_self, verifySlots_blank, hregs, hmgmt, haer, hsys]

theorem execStageBReached_blank (K : Part → Bool) (hregs : K .regs = true) (hsw : K .sw = true) (hpho : K .pho = true) (hmgmt : K .mgmt = true) (hcol : K .col = true) (haer : K .aer = true) (hflt : K .flt = true) (hsys : K .sys = true) (hout : K .out = true) (s : State) (t : State)
    (h : execStageBReached s = .next t) : t.blank K = s.blank K := by
  refine done_blank h ?_
  simp (maxDischargeDepth := 9) only [ite_blank, ite_self, enterStage_blank, startOptics_blank, hregs, hsw, hpho, hmgmt, hcol, haer, hflt, hsys, hout]

theorem execStageCReached_blank (K : Part → Bool) (hregs : K .regs = true) (hhbm : K .hbm = true) (hsw : K .sw = true) (hpho : K .pho = true) (hmgmt : K .mgmt = true) (hcol : K .col = true) (haer : K .aer = true) (hflt : K .flt = true) (hsys : K .sys = true) (hout : K .out = true) (trainFail : List (StackNo × Fin 32)) (s : State) (t : State)
    (h : execStageCReached trainFail s = .next t) : t.blank K = s.blank K := by
  refine done_blank h ?_
  simp (maxDischargeDepth := 9) only [each_blank, implies_true, ite_blank, ite_self, startSchedule_blank, trainFails_blank, hregs, hhbm, hsw, hpho, hmgmt, hcol, haer, hflt, hsys, hout]

theorem execStageDReached_blank (K : Part → Bool) (hregs : K .regs = true) (hmgmt : K .mgmt = true) (hfuse : K .fuse = true) (hcol : K .col = true) (haer : K .aer = true) (hsys : K .sys = true) (engFound : List (EngineNo × BistFound)) (uuFail : List CoreNo) (s : State) (t : State)
    (h : execStageDReached engFound uuFail s = .next t) : t.blank K = s.blank K := by
  refine done_blank h ?_
  simp (maxDischargeDepth := 9) only [each_blank, implies_true, ite_blank, ite_self, endUuBist_blank, enterStage_blank, startUuBist_blank, testEngine_blank, hregs, hmgmt, hfuse, hcol, haer, hsys]

theorem execTickMarkerRx_blank (K : Part → Bool) (hregs : K .regs = true) (hclk : K .clk = true) (hcal : K .cal = true) (hmgmt : K .mgmt = true) (haer : K .aer = true) (port : PortNo) (pod : BitVec 16) (count : TickNo) (err : Int) (s : State) (t : State)
    (h : execTickMarkerRx port pod count err s = .next t) : t.blank K = s.blank K := by
  refine done_blank h ?_
  simp (maxDischargeDepth := 9) only [markerRx_blank, hregs, hclk, hcal, hmgmt, haer]

theorem execUpstreamMarkerTimeout_blank (K : Part → Bool) (hregs : K .regs = true) (hclk : K .clk = true) (hcal : K .cal = true) (hmgmt : K .mgmt = true) (haer : K .aer = true) (idx : Fin 4) (s : State) (t : State)
    (h : execUpstreamMarkerTimeout idx s = .next t) : t.blank K = s.blank K := by
  refine done_blank h ?_
  ((repeat' split) <;> first | with_reducible rfl | simp (maxDischargeDepth := 9) only [checkHoldover_blank, chooseUpstream_blank, setClk_blank, hregs, hclk, hcal, hmgmt, haer])

theorem execHoldoverExpiry_blank (K : Part → Bool) (hregs : K .regs = true) (hclk : K .clk = true) (hcal : K .cal = true) (hmgmt : K .mgmt = true) (haer : K .aer = true) (s : State) (t : State)
    (h : execHoldoverExpiry s = .next t) : t.blank K = s.blank K := by
  refine done_blank h ?_
  simp (maxDischargeDepth := 9) only [ite_blank, ite_self, loseAlignment_blank, hregs, hclk, hcal, hmgmt, haer]

theorem execEchoLost_blank (K : Part → Bool) (hregs : K .regs = true) (hclk : K .clk = true) (id : BitVec 16) (s : State) (t : State)
    (h : execEchoLost id s = .next t) : t.blank K = s.blank K := by
  refine done_blank h ?_
  simp (maxDischargeDepth := 9) only [ite_blank, ite_self, bump_blank, setClk_blank, hregs, hclk]

theorem execPtpMessageRx_blank (K : Part → Bool) (hclk : K .clk = true) (hsys : K .sys = true) (hout : K .out = true) (via : PtpVia) (msg : Bytes) (rxTime : Nat) (s : State) (t : State)
    (h : execPtpMessageRx via msg rxTime s = .next t) : t.blank K = s.blank K := by
  refine done_blank h ?_
  simp (maxDischargeDepth := 9) only [ptpRx_blank, hclk, hsys, hout]

theorem execCalLoad_blank (K : Part → Bool) (hregs : K .regs = true) (hcal : K .cal = true) (hmgmt : K .mgmt = true) (hout : K .out = true) (q : Req) (seg : Segment) (s : State) (t : State)
    (h : execCalLoad q seg s = .next t) : t.blank K = s.blank K := by
  refine done_blank h ?_
  simp (maxDischargeDepth := 9) only [serveCalLoad_blank, hregs, hcal, hmgmt, hout]

theorem execCalInstallComplete_blank (K : Part → Bool) (hregs : K .regs = true) (hcal : K .cal = true) (hmgmt : K .mgmt = true) (hsys : K .sys = true) (hout : K .out = true) (s : State) (t : State)
    (h : execCalInstallComplete s = .next t) : t.blank K = s.blank K := by
  refine done_blank h ?_
  ((repeat' split) <;> first | with_reducible rfl | simp (maxDischargeDepth := 9) only [installImage_blank, reply_blank, setCalSt_blank, hregs, hcal, hmgmt, hsys, hout])

theorem execCalArmedLatch_blank (K : Part → Bool) (hcal : K .cal = true) (s : State) (t : State)
    (h : execCalArmedLatch s = .next t) : t.blank K = s.blank K := by
  refine done_blank h ?_
  simp (maxDischargeDepth := 9) only [latchArmed_blank, hcal]

theorem execEpochSwitch_blank (K : Part → Bool) (hregs : K .regs = true) (hcal : K .cal = true) (hmgmt : K .mgmt = true) (haer : K .aer = true) (s : State) (t : State)
    (h : execEpochSwitch s = .next t) : t.blank K = s.blank K := by
  refine done_blank h ?_
  simp (maxDischargeDepth := 9) only [epochSwitchNow_blank, hregs, hcal, hmgmt, haer]

theorem execCalEntryRewrite_blank (K : Part → Bool) (hregs : K .regs = true) (hcal : K .cal = true) (haer : K .aer = true) (port : PortNo) (shadow : Bool) (idx : BitVec 13) (s : State) (t : State)
    (h : execCalEntryRewrite port shadow idx s = .next t) : t.blank K = s.blank K := by
  refine done_blank h ?_
  simp (maxDischargeDepth := 9) only [ite_blank, ite_self, markEntry_blank, record_blank, hregs, hcal, haer]

theorem execKitePrepare_blank (K : Part → Bool) (hregs : K .regs = true) (hcal : K .cal = true) (hmgmt : K .mgmt = true) (haer : K .aer = true) (s : State) (t : State)
    (h : execKitePrepare s = .next t) : t.blank K = s.blank K := by
  exact done_blank h (elim_blank K _ _ fun x => by simp (maxDischargeDepth := 9) only [kitePrepareEvent_blank, hregs, hcal, hmgmt, haer])

theorem execKiteSwitch_blank (K : Part → Bool) (hregs : K .regs = true) (hcal : K .cal = true) (hsw : K .sw = true) (hpho : K .pho = true) (hmgmt : K .mgmt = true) (hcol : K .col = true) (haer : K .aer = true) (hflt : K .flt = true) (hout : K .out = true) (s : State) (t : State)
    (h : execKiteSwitch s = .next t) : t.blank K = s.blank K := by
  refine done_blank h ?_
  split
  · simp (maxDischargeDepth := 9) only [kiteSwitchEvent_blank, hregs, hcal, hsw, hpho, hmgmt, hcol, haer, hflt, hout]
  · split
    · refine (elim_blank K _ _ fun x => ?_).trans ?_ <;>
        simp (maxDischargeDepth := 9) only [kiteSwitchEvent_blank, kitePrepareEvent_blank, hregs, hcal, hsw, hpho, hmgmt, hcol, haer, hflt, hout]
    · rfl

theorem execKiteSettled_blank (K : Part → Bool) (hregs : K .regs = true) (hcal : K .cal = true) (hpho : K .pho = true) (s : State) (t : State)
    (h : execKiteSettled s = .next t) : t.blank K = s.blank K := by
  exact done_blank h (elim_blank K _ _ fun x => by simp (maxDischargeDepth := 9) only [kiteSettleEvent_blank, hregs, hcal, hpho])

theorem execKiteCircuitLit_blank (K : Part → Bool) (hregs : K .regs = true) (hcal : K .cal = true) (hsw : K .sw = true) (hpho : K .pho = true) (hmgmt : K .mgmt = true) (hcol : K .col = true) (haer : K .aer = true) (hflt : K .flt = true) (hout : K .out = true) (s : State) (t : State)
    (h : execKiteCircuitLit s = .next t) : t.blank K = s.blank K := by
  exact done_blank h (elim_blank K _ _ fun x => by simp (maxDischargeDepth := 9) only [kiteLitEvent_blank, hregs, hcal, hsw, hpho, hmgmt, hcol, haer, hflt, hout])

theorem execKiteMonitorSample_blank (K : Part → Bool) (hregs : K .regs = true) (hmgmt : K .mgmt = true) (haer : K .aer = true) (powIn powOut : List Int) (s : State) (t : State)
    (h : execKiteMonitorSample powIn powOut s = .next t) : t.blank K = s.blank K := by
  refine done_blank h ?_
  simp (maxDischargeDepth := 9) only [implies_true, each_blank, implies_true, alarm_blank, rset_blank, hregs, hmgmt, haer]

theorem execGrantedSubslot_blank (K : Part → Bool) (hregs : K .regs = true) (hclk : K .clk = true) (hsw : K .sw = true) (hsys : K .sys = true) (hout : K .out = true) (port : PortNo) (sub : Fin 4) (s : State) (t : State)
    (h : execGrantedSubslot port sub s = .next t) : t.blank K = s.blank K := by
  have e : (State.setClk s fun c => { c with fc := max s.clk.fc (160 * sub.val) }).blank K = s.blank K := by
    simp only [setClk_blank, hclk]
  refine done_blank h ?_
  split
  · split
    · simp (maxDischargeDepth := 9) only [missedGrant_blank, grantRun_blank, hregs, hsw, hsys, hout]; exact e
    · exact e
  · exact e

theorem execLeftoverOpportunity_blank (K : Part → Bool) (hregs : K .regs = true) (hclk : K .clk = true) (hsw : K .sw = true) (hsys : K .sys = true) (hout : K .out = true) (port : PortNo) (fc : FcCycle) (s : State) (t : State)
    (h : execLeftoverOpportunity port fc s = .next t) : t.blank K = s.blank K := by
  refine done_blank h ?_
  ((repeat' split) <;> first | with_reducible rfl | simp (maxDischargeDepth := 9) only [atFc_blank, countHold_blank, leftover_blank, hregs, hclk, hsw, hsys, hout])

theorem execWaitLimitExpiry_blank (K : Part → Bool) (hclk : K .clk = true) (hsw : K .sw = true) (port : PortNo) (pkt : Nat) (sub : Fin 4) (s : State) (t : State)
    (h : execWaitLimitExpiry port pkt sub s = .next t) : t.blank K = s.blank K := by
  have e : (State.setClk s fun c => { c with fc := max s.clk.fc (160 * sub.val) }).blank K = s.blank K := by
    simp only [setClk_blank, hclk]
  exact done_blank h ((setSw_blank K _ _ hsw).trans e)

theorem execLaneTagBlockTx_blank (K : Part → Bool) (hclk : K .clk = true) (hpho : K .pho = true) (hout : K .out = true) (port : PortNo) (s : State) (t : State)
    (h : execLaneTagBlockTx port s = .next t) : t.blank K = s.blank K := by
  refine done_blank h ?_
  simp (maxDischargeDepth := 9) only [tagBlocksTx_blank, hclk, hpho, hout]

theorem execLaneTagBlockRx_blank (K : Part → Bool) (hregs : K .regs = true) (hclk : K .clk = true) (hcal : K .cal = true) (hsw : K .sw = true) (hpho : K .pho = true) (hmgmt : K .mgmt = true) (hcol : K .col = true) (htwin : K .twin = true) (haer : K .aer = true) (hflt : K .flt = true) (hout : K .out = true) (fiber : Fin 290) (wave : Fin 9) (block : Bytes) (power phase : Int) (rxPs : Nat) (s : State) (t : State)
    (h : execLaneTagBlockRx fiber wave block power phase rxPs s = .next t) : t.blank K = s.blank K := by
  refine done_blank h ?_
  simp (maxDischargeDepth := 9) only [tagBlockRx_blank, hregs, hclk, hcal, hsw, hpho, hmgmt, hcol, htwin, haer, hflt, hout]

theorem execCarrierNoLight_blank (K : Part → Bool) (hregs : K .regs = true) (hpho : K .pho = true) (fiber : Fin 290) (wave : Fin 9) (power : Int) (s : State) (t : State)
    (h : execCarrierNoLight fiber wave power s = .next t) : t.blank K = s.blank K := by
  refine done_blank h ?_
  simp (maxDischargeDepth := 9) only [ite_blank, ite_self, noLight_blank, hregs, hpho]

theorem execLaneMoveEffect_blank (K : Part → Bool) (hregs : K .regs = true) (hsw : K .sw = true) (hpho : K .pho = true) (hmgmt : K .mgmt = true) (hcol : K .col = true) (haer : K .aer = true) (hflt : K .flt = true) (hout : K .out = true) (lane : LaneNo) (s : State) (t : State)
    (h : execLaneMoveEffect lane s = .next t) : t.blank K = s.blank K := by
  refine done_blank h ?_
  simp (maxDischargeDepth := 9) only [moveNow_blank, hregs, hsw, hpho, hmgmt, hcol, haer, hflt, hout]

theorem execMoveRequestTimeout_blank (K : Part → Bool) (hregs : K .regs = true) (hsw : K .sw = true) (hpho : K .pho = true) (hmgmt : K .mgmt = true) (hcol : K .col = true) (haer : K .aer = true) (hflt : K .flt = true) (hout : K .out = true) (lane : LaneNo) (s : State) (t : State)
    (h : execMoveRequestTimeout lane s = .next t) : t.blank K = s.blank K := by
  refine done_blank h ?_
  ((repeat' split) <;> first | with_reducible rfl | simp (maxDischargeDepth := 9) only [ite_blank, ite_self, judgeCarrier_blank, relane_blank, setLane_blank, hregs, hsw, hpho, hmgmt, hcol, haer, hflt, hout])

theorem execFeedEvent_blank (K : Part → Bool) (hregs : K .regs = true) (hsw : K .sw = true) (hpho : K .pho = true) (hmgmt : K .mgmt = true) (hcol : K .col = true) (haer : K .aer = true) (hflt : K .flt = true) (hout : K .out = true) (pair : Fin 288) (feedB : Bool) (s : State) (t : State)
    (h : execFeedEvent pair feedB s = .next t) : t.blank K = s.blank K := by
  refine done_blank h ?_
  simp (maxDischargeDepth := 9) only [feedEvent_blank, hregs, hsw, hpho, hmgmt, hcol, haer, hflt, hout]

theorem execElsModuleRemoved_blank (K : Part → Bool) (hregs : K .regs = true) (hsw : K .sw = true) (hpho : K .pho = true) (hmgmt : K .mgmt = true) (hcol : K .col = true) (haer : K .aer = true) (hflt : K .flt = true) (hout : K .out = true) (module : Fin 32) (s : State) (t : State)
    (h : execElsModuleRemoved module s = .next t) : t.blank K = s.blank K := by
  refine done_blank h ?_
  simp (maxDischargeDepth := 9) only [ite_blank, ite_self, moduleLost_blank, setEls_blank, hregs, hsw, hpho, hmgmt, hcol, haer, hflt, hout]

theorem execElsModuleInserted_blank (K : Part → Bool) (hregs : K .regs = true) (hpho : K .pho = true) (hmgmt : K .mgmt = true) (haer : K .aer = true) (module : Fin 32) (suitable : Bool) (s : State) (t : State)
    (h : execElsModuleInserted module suitable s = .next t) : t.blank K = s.blank K := by
  refine done_blank h ?_
  simp (maxDischargeDepth := 9) only [ite_blank, ite_self, alarm_blank, setEls_blank, hregs, hpho, hmgmt, haer]

theorem execBiasUpdate_blank (K : Part → Bool) (hregs : K .regs = true) (hpho : K .pho = true) (hmgmt : K .mgmt = true) (haer : K .aer = true) (margins : List Int) (s : State) (t : State)
    (h : execBiasUpdate margins s = .next t) : t.blank K = s.blank K := by
  refine done_blank h ?_
  simp (maxDischargeDepth := 9) only [each_blank, implies_true, ite_blank, ite_self, biasOutput_blank, hregs, hpho, hmgmt, haer]

theorem execRingSweepEnd_blank (K : Part → Bool) (hregs : K .regs = true) (hsw : K .sw = true) (hpho : K .pho = true) (hmgmt : K .mgmt = true) (hcol : K .col = true) (haer : K .aer = true) (hflt : K .flt = true) (hout : K .out = true) (ring : Ring) (found : Bool) (s : State) (t : State)
    (h : execRingSweepEnd ring found s = .next t) : t.blank K = s.blank K := by
  refine done_blank h ?_
  simp (maxDischargeDepth := 9) only [ite_blank, ite_self, failAttempt_blank, moveRing_blank, hregs, hsw, hpho, hmgmt, hcol, haer, hflt, hout]

theorem execRingCaptureEnd_blank (K : Part → Bool) (hregs : K .regs = true) (hsw : K .sw = true) (hpho : K .pho = true) (hmgmt : K .mgmt = true) (hcol : K .col = true) (haer : K .aer = true) (hflt : K .flt = true) (hout : K .out = true) (ring : Ring) (held : Bool) (s : State) (t : State)
    (h : execRingCaptureEnd ring held s = .next t) : t.blank K = s.blank K := by
  refine done_blank h ?_
  simp (maxDischargeDepth := 9) only [ite_blank, ite_self, failAttempt_blank, moveRing_blank, hregs, hsw, hpho, hmgmt, hcol, haer, hflt, hout]

theorem execRingLoopError_blank (K : Part → Bool) (hregs : K .regs = true) (hsw : K .sw = true) (hpho : K .pho = true) (hmgmt : K .mgmt = true) (hcol : K .col = true) (haer : K .aer = true) (hflt : K .flt = true) (hout : K .out = true) (ring : Ring) (errMHz : Int) (light : Bool) (s : State) (t : State)
    (h : execRingLoopError ring errMHz light s = .next t) : t.blank K = s.blank K := by
  refine done_blank h ?_
  ((repeat' split) <;> first | with_reducible rfl | simp (maxDischargeDepth := 9) only [moveRing_blank, resweepRing_blank, hregs, hsw, hpho, hmgmt, hcol, haer, hflt, hout])

theorem execRingFailRetry_blank (K : Part → Bool) (hregs : K .regs = true) (hsw : K .sw = true) (hpho : K .pho = true) (hmgmt : K .mgmt = true) (hcol : K .col = true) (haer : K .aer = true) (hflt : K .flt = true) (hout : K .out = true) (ring : Ring) (s : State) (t : State)
    (h : execRingFailRetry ring s = .next t) : t.blank K = s.blank K := by
  refine done_blank h ?_
  simp (maxDischargeDepth := 9) only [ite_blank, ite_self, resweepRing_blank, hregs, hsw, hpho, hmgmt, hcol, haer, hflt, hout]

theorem execEthMarkerMismatch_blank (K : Part → Bool) (hregs : K .regs = true) (hsw : K .sw = true) (hpho : K .pho = true) (hmgmt : K .mgmt = true) (hcol : K .col = true) (haer : K .aer = true) (hflt : K .flt = true) (hout : K .out = true) (lane : LaneNo) (s : State) (t : State)
    (h : execEthMarkerMismatch lane s = .next t) : t.blank K = s.blank K := by
  refine done_blank h ?_
  ((repeat' split) <;> first | with_reducible rfl | simp (maxDischargeDepth := 9) only [resweepRing_blank, hregs, hsw, hpho, hmgmt, hcol, haer, hflt, hout])

theorem execLossSegmentCheck_blank (K : Part → Bool) (hregs : K .regs = true) (haer : K .aer = true) (die : DieNo) (lane : Fin 512) (losses : List Int) (s : State) (t : State)
    (h : execLossSegmentCheck die lane losses s = .next t) : t.blank K = s.blank K := by
  refine done_blank h ?_
  ((repeat' split) <;> first | with_reducible rfl | simp (maxDischargeDepth := 9) only [record_blank, rset_blank, hregs, haer])

theorem execHeaderTaken_blank (K : Part → Bool) (hregs : K .regs = true) (hclk : K .clk = true) (hsw : K .sw = true) (htbl : K .tbl = true) (hmgmt : K .mgmt = true) (hcol : K .col = true) (haer : K .aer = true) (hflt : K .flt = true) (hout : K .out = true) (port : PortNo) (fc : FcCycle) (fec : Bool) (frame : Bytes) (tblErr : Option TblKind) (s : State) (t : State)
    (h : execHeaderTaken port fc fec frame tblErr s = .next t) : t.blank K = s.blank K := by
  refine done_blank h ?_
  simp (maxDischargeDepth := 9) only [ite_blank, ite_self, atFc_blank, takeHeader_blank, hregs, hclk, hsw, htbl, hmgmt, hcol, haer, hflt, hout]

theorem execPacketTrailerRx_blank (K : Part → Bool) (hregs : K .regs = true) (hclk : K .clk = true) (hsw : K .sw = true) (htbl : K .tbl = true) (hmgmt : K .mgmt = true) (hcol : K .col = true) (haer : K .aer = true) (hflt : K .flt = true) (hsys : K .sys = true) (hout : K .out = true) (port : PortNo) (fc : FcCycle) (s : State) (t : State)
    (h : execPacketTrailerRx port fc s = .next t) : t.blank K = s.blank K := by
  exact done_blank h ((elim_blank K _ _ fun x => by simp (maxDischargeDepth := 9) only [packetEnd_blank, hregs, hsw, htbl, hmgmt, hcol, haer, hflt, hsys, hout]).trans
    (atFc_blank K s fc hclk))

theorem execEthFrameEnd_blank (K : Part → Bool) (hregs : K .regs = true) (hclk : K .clk = true) (hsw : K .sw = true) (hsys : K .sys = true) (port : PortNo) (fc : FcCycle) (s : State) (t : State)
    (h : execEthFrameEnd port fc s = .next t) : t.blank K = s.blank K := by
  refine done_blank h ?_
  ((repeat' split) <;> first | with_reducible rfl | simp (maxDischargeDepth := 9) only [arrived_blank, atFc_blank, completeCells_blank, portCtr_blank, hregs, hclk, hsw, hsys])

theorem execCreditBlockRx_blank (K : Part → Bool) (hsw : K .sw = true) (port : PortNo) (block : Bytes) (s : State) (t : State)
    (h : execCreditBlockRx port block s = .next t) : t.blank K = s.blank K := by
  refine done_blank h ?_
  simp (maxDischargeDepth := 9) only [ite_blank, ite_self, setPort_blank, hsw]

theorem execCreditBlockTx_blank (K : Part → Bool) (hsw : K .sw = true) (hout : K .out = true) (port : PortNo) (vc : VcNo) (s : State) (t : State)
    (h : execCreditBlockTx port vc s = .next t) : t.blank K = s.blank K := by
  refine done_blank h ?_
  simp (maxDischargeDepth := 9) only [ite_blank, ite_self, sendBlock_blank, setPort_blank, hsw, hout]

theorem execKeepaliveTx_blank (K : Part → Bool) (hclk : K .clk = true) (hsw : K .sw = true) (hout : K .out = true) (port : PortNo) (fc : FcCycle) (s : State) (t : State)
    (h : execKeepaliveTx port fc s = .next t) : t.blank K = s.blank K := by
  refine done_blank h ?_
  simp (maxDischargeDepth := 9) only [ite_blank, ite_self, atFc_blank, sendBlock_blank, hclk, hsw, hout]

theorem execCellTimeMatch_blank (K : Part → Bool) (hregs : K .regs = true) (hclk : K .clk = true) (hsw : K .sw = true) (hcol : K .col = true) (die : DieNo) (fc : FcCycle) (s : State) (t : State)
    (h : execCellTimeMatch die fc s = .next t) : t.blank K = s.blank K := by
  refine done_blank h ?_
  simp (maxDischargeDepth := 9) only [ite_blank, ite_self, atFc_blank, cellMatch_blank, hregs, hclk, hsw, hcol]

theorem execCellRx_blank (K : Part → Bool) (hregs : K .regs = true) (hclk : K .clk = true) (hsw : K .sw = true) (hcol : K .col = true) (hout : K .out = true) (die : DieNo) (pos : Nat) (corrupt : Bool) (fc : FcCycle) (s : State) (t : State)
    (h : execCellRx die pos corrupt fc s = .next t) : t.blank K = s.blank K := by
  refine done_blank h ?_
  split
  · exact (cellLands_blank K hregs hsw hcol _ _ _ _ _ fun s c => switchedCell_blank K hregs hsw hcol hout s c).trans (atFc_blank K s fc hclk)
  · exact atFc_blank K s fc hclk

theorem execReseqTimeout_blank (K : Part → Bool) (hregs : K .regs = true) (hclk : K .clk = true) (hsw : K .sw = true) (hcol : K .col = true) (hout : K .out = true) (flow : FlowKey) (fc : FcCycle) (s : State) (t : State)
    (h : execReseqTimeout flow fc s = .next t) : t.blank K = s.blank K := by
  refine done_blank h ?_
  ((repeat' split) <;> first | with_reducible rfl | simp (maxDischargeDepth := 9) only [atFc_blank, skipGap_blank, hregs, hclk, hsw, hcol, hout])

theorem execDtdCreditReturn_blank (K : Part → Bool) (hsw : K .sw = true) (port : PortNo) (vc : VcNo) (src : DieNo) (s : State) (t : State)
    (h : execDtdCreditReturn port vc src s = .next t) : t.blank K = s.blank K := by
  refine done_blank h ?_
  simp (maxDischargeDepth := 9) only [ite_blank, ite_self, setSw_blank, hsw]

theorem execPktSpill_blank (K : Part → Bool) (hregs : K .regs = true) (hsw : K .sw = true) (die : DieNo) (s : State) (t : State)
    (h : execPktSpill die s = .next t) : t.blank K = s.blank K := by
  refine done_blank h ?_
  simp (maxDischargeDepth := 9) only [each_blank, implies_true, ite_blank, ite_self, freeCredit_blank, mapCells_blank, ovfMoves_blank, pmc_blank, hregs, hsw]

theorem execPktRefill_blank (K : Part → Bool) (hregs : K .regs = true) (hsw : K .sw = true) (die : DieNo) (s : State) (t : State)
    (h : execPktRefill die s = .next t) : t.blank K = s.blank K := by
  refine done_blank h ?_
  simp (maxDischargeDepth := 9) only [ite_blank, ite_self, mapCells_blank, ovfMoves_blank, pmc_blank, hregs, hsw]

theorem execCutThroughStart_blank (K : Part → Bool) (hregs : K .regs = true) (hclk : K .clk = true) (hsw : K .sw = true) (hsys : K .sys = true) (hout : K .out = true) (port : PortNo) (fc : FcCycle) (s : State) (t : State)
    (h : execCutThroughStart port fc s = .next t) : t.blank K = s.blank K := by
  refine done_blank h ?_
  ((repeat' split) <;> first | with_reducible rfl | simp (maxDischargeDepth := 9) only [atFc_blank, cutQueued_blank, cutStart_blank, hregs, hclk, hsw, hsys, hout])

theorem execCutThroughTruncate_blank (K : Part → Bool) (hregs : K .regs = true) (hclk : K .clk = true) (hsw : K .sw = true) (hcol : K .col = true) (hout : K .out = true) (port : PortNo) (fc : FcCycle) (s : State) (t : State)
    (h : execCutThroughTruncate port fc s = .next t) : t.blank K = s.blank K := by
  refine done_blank h ?_
  ((repeat' split) <;> first | with_reducible rfl | simp (maxDischargeDepth := 9) only [ite_blank, ite_self, atFc_blank, setPort_blank, truncate_blank, hregs, hclk, hsw, hcol, hout])

theorem execLpmInsert_blank (K : Part → Bool) (hregs : K .regs = true) (htbl : K .tbl = true) (hmgmt : K .mgmt = true) (hsys : K .sys = true) (hout : K .out = true) (q : Req) (b : TblBlock) (s : State) (t : State)
    (h : execLpmInsert q b s = .next t) : t.blank K = s.blank K := by
  refine done_blank h ?_
  simp (maxDischargeDepth := 9) only [serveTable_blank, hregs, htbl, hmgmt, hsys, hout]

theorem execLpmDelete_blank (K : Part → Bool) (hregs : K .regs = true) (htbl : K .tbl = true) (hmgmt : K .mgmt = true) (hsys : K .sys = true) (hout : K .out = true) (q : Req) (b : TblBlock) (s : State) (t : State)
    (h : execLpmDelete q b s = .next t) : t.blank K = s.blank K := by
  refine done_blank h ?_
  simp (maxDischargeDepth := 9) only [serveTable_blank, hregs, htbl, hmgmt, hsys, hout]

theorem execLpmModify_blank (K : Part → Bool) (hregs : K .regs = true) (htbl : K .tbl = true) (hmgmt : K .mgmt = true) (hsys : K .sys = true) (hout : K .out = true) (q : Req) (b : TblBlock) (s : State) (t : State)
    (h : execLpmModify q b s = .next t) : t.blank K = s.blank K := by
  refine done_blank h ?_
  simp (maxDischargeDepth := 9) only [serveTable_blank, hregs, htbl, hmgmt, hsys, hout]

theorem execLpmRead_blank (K : Part → Bool) (hregs : K .regs = true) (htbl : K .tbl = true) (hmgmt : K .mgmt = true) (hsys : K .sys = true) (hout : K .out = true) (q : Req) (b : TblBlock) (s : State) (t : State)
    (h : execLpmRead q b s = .next t) : t.blank K = s.blank K := by
  refine done_blank h ?_
  simp (maxDischargeDepth := 9) only [serveTable_blank, hregs, htbl, hmgmt, hsys, hout]

theorem execLpmShiftDone_blank (K : Part → Bool) (hregs : K .regs = true) (htbl : K .tbl = true) (hmgmt : K .mgmt = true) (hsys : K .sys = true) (hout : K .out = true) (s : State) (t : State)
    (h : execLpmShiftDone s = .next t) : t.blank K = s.blank K := by
  refine done_blank h ?_
  ((repeat' split) <;> first | with_reducible rfl | simp (maxDischargeDepth := 9) only [shiftDone_blank, hregs, htbl, hmgmt, hsys, hout])

theorem execNhWrite_blank (K : Part → Bool) (hregs : K .regs = true) (htbl : K .tbl = true) (hmgmt : K .mgmt = true) (hsys : K .sys = true) (hout : K .out = true) (q : Req) (b : TblBlock) (s : State) (t : State)
    (h : execNhWrite q b s = .next t) : t.blank K = s.blank K := by
  refine done_blank h ?_
  simp (maxDischargeDepth := 9) only [serveTable_blank, hregs, htbl, hmgmt, hsys, hout]

theorem execNhRead_blank (K : Part → Bool) (hregs : K .regs = true) (htbl : K .tbl = true) (hmgmt : K .mgmt = true) (hsys : K .sys = true) (hout : K .out = true) (q : Req) (b : TblBlock) (s : State) (t : State)
    (h : execNhRead q b s = .next t) : t.blank K = s.blank K := by
  refine done_blank h ?_
  simp (maxDischargeDepth := 9) only [serveTable_blank, hregs, htbl, hmgmt, hsys, hout]

theorem execMcWrite_blank (K : Part → Bool) (hregs : K .regs = true) (htbl : K .tbl = true) (hmgmt : K .mgmt = true) (hsys : K .sys = true) (hout : K .out = true) (q : Req) (b : TblBlock) (s : State) (t : State)
    (h : execMcWrite q b s = .next t) : t.blank K = s.blank K := by
  refine done_blank h ?_
  simp (maxDischargeDepth := 9) only [serveTable_blank, hregs, htbl, hmgmt, hsys, hout]

theorem execMcRead_blank (K : Part → Bool) (hregs : K .regs = true) (htbl : K .tbl = true) (hmgmt : K .mgmt = true) (hsys : K .sys = true) (hout : K .out = true) (q : Req) (b : TblBlock) (s : State) (t : State)
    (h : execMcRead q b s = .next t) : t.blank K = s.blank K := by
  refine done_blank h ?_
  simp (maxDischargeDepth := 9) only [serveTable_blank, hregs, htbl, hmgmt, hsys, hout]

theorem execMacInsert_blank (K : Part → Bool) (hregs : K .regs = true) (htbl : K .tbl = true) (hmgmt : K .mgmt = true) (hsys : K .sys = true) (hout : K .out = true) (q : Req) (b : TblBlock) (s : State) (t : State)
    (h : execMacInsert q b s = .next t) : t.blank K = s.blank K := by
  refine done_blank h ?_
  simp (maxDischargeDepth := 9) only [serveTable_blank, hregs, htbl, hmgmt, hsys, hout]

theorem execMacDelete_blank (K : Part → Bool) (hregs : K .regs = true) (htbl : K .tbl = true) (hmgmt : K .mgmt = true) (hsys : K .sys = true) (hout : K .out = true) (q : Req) (b : TblBlock) (s : State) (t : State)
    (h : execMacDelete q b s = .next t) : t.blank K = s.blank K := by
  refine done_blank h ?_
  simp (maxDischargeDepth := 9) only [serveTable_blank, hregs, htbl, hmgmt, hsys, hout]

theorem execSearch_blank (K : Part → Bool) (hregs : K .regs = true) (htbl : K .tbl = true) (hmgmt : K .mgmt = true) (hsys : K .sys = true) (hout : K .out = true) (q : Req) (b : TblBlock) (s : State) (t : State)
    (h : execSearch q b s = .next t) : t.blank K = s.blank K := by
  refine done_blank h ?_
  simp (maxDischargeDepth := 9) only [serveTable_blank, hregs, htbl, hmgmt, hsys, hout]

theorem execMacNext_blank (K : Part → Bool) (hregs : K .regs = true) (htbl : K .tbl = true) (hmgmt : K .mgmt = true) (hsys : K .sys = true) (hout : K .out = true) (q : Req) (b : TblBlock) (s : State) (t : State)
    (h : execMacNext q b s = .next t) : t.blank K = s.blank K := by
  refine done_blank h ?_
  simp (maxDischargeDepth := 9) only [serveTable_blank, hregs, htbl, hmgmt, hsys, hout]

theorem execFlushByPort_blank (K : Part → Bool) (hregs : K .regs = true) (htbl : K .tbl = true) (hmgmt : K .mgmt = true) (hsys : K .sys = true) (hout : K .out = true) (q : Req) (b : TblBlock) (s : State) (t : State)
    (h : execFlushByPort q b s = .next t) : t.blank K = s.blank K := by
  refine done_blank h ?_
  simp (maxDischargeDepth := 9) only [serveTable_blank, hregs, htbl, hmgmt, hsys, hout]

theorem execFlushSweepDone_blank (K : Part → Bool) (hregs : K .regs = true) (htbl : K .tbl = true) (hmgmt : K .mgmt = true) (hsys : K .sys = true) (hout : K .out = true) (s : State) (t : State)
    (h : execFlushSweepDone s = .next t) : t.blank K = s.blank K := by
  refine done_blank h ?_
  ((repeat' split) <;> first | with_reducible rfl | simp (maxDischargeDepth := 9) only [flushDone_blank, hregs, htbl, hmgmt, hsys, hout])

theorem execVlanWrite_blank (K : Part → Bool) (hregs : K .regs = true) (htbl : K .tbl = true) (hmgmt : K .mgmt = true) (hsys : K .sys = true) (hout : K .out = true) (q : Req) (b : TblBlock) (s : State) (t : State)
    (h : execVlanWrite q b s = .next t) : t.blank K = s.blank K := by
  refine done_blank h ?_
  simp (maxDischargeDepth := 9) only [serveTable_blank, hregs, htbl, hmgmt, hsys, hout]

theorem execVlanRead_blank (K : Part → Bool) (hregs : K .regs = true) (htbl : K .tbl = true) (hmgmt : K .mgmt = true) (hsys : K .sys = true) (hout : K .out = true) (q : Req) (b : TblBlock) (s : State) (t : State)
    (h : execVlanRead q b s = .next t) : t.blank K = s.blank K := by
  refine done_blank h ?_
  simp (maxDischargeDepth := 9) only [serveTable_blank, hregs, htbl, hmgmt, hsys, hout]

theorem execLearnRelayApply_blank (K : Part → Bool) (hregs : K .regs = true) (htbl : K .tbl = true) (s : State) (t : State)
    (h : execLearnRelayApply s = .next t) : t.blank K = s.blank K := by
  refine done_blank h ?_
  simp (maxDischargeDepth := 9) only [relayApply_blank, hregs, htbl]

theorem execMacAgeSweep_blank (K : Part → Bool) (htbl : K .tbl = true) (s : State) (t : State)
    (h : execMacAgeSweep s = .next t) : t.blank K = s.blank K := by
  refine done_blank h ?_
  simp (maxDischargeDepth := 9) only [ite_blank, ite_self, eachMac_blank, macRemove_blank, setTbl_blank, htbl]

theorem execTableEntryRewrite_blank (K : Part → Bool) (hregs : K .regs = true) (htbl : K .tbl = true) (haer : K .aer = true) (die : DieNo) (kind : TblKind) (pos : Nat) (s : State) (t : State)
    (h : execTableEntryRewrite die kind pos s = .next t) : t.blank K = s.blank K := by
  refine done_blank h ?_
  simp (maxDischargeDepth := 9) only [ite_blank, ite_self, rewriteEntry_blank, hregs, htbl, haer]

theorem execWindsockSample_blank (K : Part → Bool) (hregs : K .regs = true) (hhbm : K .hbm = true) (hsys : K .sys = true) (s : State) (t : State)
    (h : execWindsockSample s = .next t) : t.blank K = s.blank K := by
  refine done_blank h ?_
  simp (maxDischargeDepth := 9) only [ite_blank, ite_self, sample_blank, hregs, hhbm, hsys]

theorem execCtxEnableComplete_blank (K : Part → Bool) (hregs : K .regs = true) (hsw : K .sw = true) (htbl : K .tbl = true) (hmgmt : K .mgmt = true) (hcol : K .col = true) (haer : K .aer = true) (hout : K .out = true) (ctx : CtxNo) (s : State) (t : State)
    (h : execCtxEnableComplete ctx s = .next t) : t.blank K = s.blank K := by
  refine done_blank h ?_
  simp (maxDischargeDepth := 9) only [completeEnable_blank, hregs, hsw, htbl, hmgmt, hcol, haer, hout]

theorem execTwinCtxAcceptTimeout_blank (K : Part → Bool) (hregs : K .regs = true) (hmgmt : K .mgmt = true) (hcol : K .col = true) (hout : K .out = true) (ctx : CtxNo) (s : State) (t : State)
    (h : execTwinCtxAcceptTimeout ctx s = .next t) : t.blank K = s.blank K := by
  refine done_blank h ?_
  ((repeat' split) <;> first | with_reducible rfl | simp (maxDischargeDepth := 9) only [refuseAsking_blank, hregs, hmgmt, hcol, hout])

theorem execCtxLullBegin_blank (K : Part → Bool) (hregs : K .regs = true) (hsw : K .sw = true) (htbl : K .tbl = true) (hmgmt : K .mgmt = true) (hcol : K .col = true) (haer : K .aer = true) (ctx : CtxNo) (s : State) (t : State)
    (h : execCtxLullBegin ctx s = .next t) : t.blank K = s.blank K := by
  refine done_blank h ?_
  simp (maxDischargeDepth := 9) only [lullNow_blank, hregs, hsw, htbl, hmgmt, hcol, haer]

theorem execCtxLullDrained_blank (K : Part → Bool) (hregs : K .regs = true) (hmgmt : K .mgmt = true) (hcol : K .col = true) (haer : K .aer = true) (hout : K .out = true) (ctx : CtxNo) (s : State) (t : State)
    (h : execCtxLullDrained ctx s = .next t) : t.blank K = s.blank K := by
  refine done_blank h ?_
  simp (maxDischargeDepth := 9) only [ite_blank, ite_self, ctxIdle_blank, hregs, hmgmt, hcol, haer, hout]

theorem execCtxResetAborts_blank (K : Part → Bool) (hregs : K .regs = true) (hsw : K .sw = true) (htbl : K .tbl = true) (hmgmt : K .mgmt = true) (hcol : K .col = true) (haer : K .aer = true) (ctx : CtxNo) (s : State) (t : State)
    (h : execCtxResetAborts ctx s = .next t) : t.blank K = s.blank K := by
  refine done_blank h ?_
  simp (maxDischargeDepth := 9) only [ite_blank, ite_self, resetAborts_blank, hregs, hsw, htbl, hmgmt, hcol, haer]

theorem execContribCellRx_blank (K : Part → Bool) (hregs : K .regs = true) (hclk : K .clk = true) (hsw : K .sw = true) (htbl : K .tbl = true) (hmgmt : K .mgmt = true) (hcol : K .col = true) (haer : K .aer = true) (die : DieNo) (pos : Nat) (corrupt : Bool) (fc : FcCycle) (s : State) (t : State)
    (h : execContribCellRx die pos corrupt fc s = .next t) : t.blank K = s.blank K := by
  refine done_blank h ?_
  split
  · exact (cellLands_blank K hregs hsw hcol _ _ _ _ _ fun s c => by
      simp (maxDischargeDepth := 9) only [cellLeaves_blank, gatherCell_blank, hregs, hsw, htbl, hmgmt, hcol, haer]).trans (atFc_blank K s fc hclk)
  · exact atFc_blank K s fc hclk

theorem execSlotRefill_blank (K : Part → Bool) (hcol : K .col = true) (desc : Nat) (s : State) (t : State)
    (h : execSlotRefill desc s = .next t) : t.blank K = s.blank K := by
  refine done_blank h ?_
  ((repeat' split) <;> first | with_reducible rfl | simp (maxDischargeDepth := 9) only [setSlot_blank, hcol])

theorem execSlotDeadline_blank (K : Part → Bool) (hregs : K .regs = true) (hsw : K .sw = true) (htbl : K .tbl = true) (hmgmt : K .mgmt = true) (hcol : K .col = true) (haer : K .aer = true) (hflt : K .flt = true) (hout : K .out = true) (desc : Nat) (s : State) (t : State)
    (h : execSlotDeadline desc s = .next t) : t.blank K = s.blank K := by
  refine done_blank h ?_
  ((repeat' split) <;> first | with_reducible rfl | simp (maxDischargeDepth := 9) only [deadlines_blank, hregs, hsw, htbl, hmgmt, hcol, haer, hflt, hout])

theorem execTileIssue_blank (K : Part → Bool) (hregs : K .regs = true) (hmgmt : K .mgmt = true) (hcol : K .col = true) (haer : K .aer = true) (core : CoreNo) (s : State) (t : State)
    (h : execTileIssue core s = .next t) : t.blank K = s.blank K := by
  refine done_blank h ?_
  simp (maxDischargeDepth := 9) only [issueCore_blank, hregs, hmgmt, hcol, haer]

theorem execTileComplete_blank (K : Part → Bool) (hregs : K .regs = true) (hmgmt : K .mgmt = true) (hcol : K .col = true) (haer : K .aer = true) (eng : EngineNo) (fault : TileFault) (late : Bool) (s : State) (t : State)
    (h : execTileComplete eng fault late s = .next t) : t.blank K = s.blank K := by
  refine done_blank h ?_
  simp (maxDischargeDepth := 9) only [ite_blank, ite_self, endTile_blank, hregs, hmgmt, hcol, haer]

theorem execTileRerun_blank (K : Part → Bool) (hregs : K .regs = true) (hmgmt : K .mgmt = true) (hcol : K .col = true) (haer : K .aer = true) (desc tile : Nat) (s : State) (t : State)
    (h : execTileRerun desc tile s = .next t) : t.blank K = s.blank K := by
  refine done_blank h ?_
  simp (maxDischargeDepth := 9) only [rerunTile_blank, hregs, hmgmt, hcol, haer]

theorem execUuInvocationIssue_blank (K : Part → Bool) (hregs : K .regs = true) (hcol : K .col = true) (htwin : K .twin = true) (hout : K .out = true) (uu : CoreNo) (s : State) (t : State)
    (h : execUuInvocationIssue uu s = .next t) : t.blank K = s.blank K := by
  refine done_blank h ?_
  simp (maxDischargeDepth := 9) only [issueUu_blank, hregs, hcol, htwin, hout]

theorem execUuInvocationEnd_blank (K : Part → Bool) (hregs : K .regs = true) (hhbm : K .hbm = true) (hmgmt : K .mgmt = true) (hcol : K .col = true) (htwin : K .twin = true) (haer : K .aer = true) (hsys : K .sys = true) (hout : K .out = true) (uu : CoreNo) (fault : UuFault) (late : Bool) (s : State) (t : State)
    (h : execUuInvocationEnd uu fault late s = .next t) : t.blank K = s.blank K := by
  refine done_blank h ?_
  simp (maxDischargeDepth := 9) only [endInvocation_blank, hregs, hhbm, hmgmt, hcol, htwin, haer, hsys, hout]

theorem execResultRelease_blank (K : Part → Bool) (hregs : K .regs = true) (hsw : K .sw = true) (htbl : K .tbl = true) (hmgmt : K .mgmt = true) (hcol : K .col = true) (haer : K .aer = true) (hout : K .out = true) (desc : Nat) (s : State) (t : State)
    (h : execResultRelease desc s = .next t) : t.blank K = s.blank K := by
  refine done_blank h ?_
  ((repeat' split) <;> first | with_reducible rfl | simp (maxDischargeDepth := 9) only [releaseSlot_blank, hregs, hsw, htbl, hmgmt, hcol, haer, hout])

theorem execStartRetryTimeout_blank (K : Part → Bool) (hregs : K .regs = true) (hsw : K .sw = true) (htbl : K .tbl = true) (hmgmt : K .mgmt = true) (hcol : K .col = true) (haer : K .aer = true) (ctx : CtxNo) (s : State) (t : State)
    (h : execStartRetryTimeout ctx s = .next t) : t.blank K = s.blank K := by
  refine done_blank h ?_
  ((repeat' split) <;> first | with_reducible rfl | simp (maxDischargeDepth := 9) only [startRound_blank, hregs, hsw, htbl, hmgmt, hcol, haer])

theorem execStepTimeout_blank (K : Part → Bool) (hregs : K .regs = true) (hsw : K .sw = true) (htbl : K .tbl = true) (hmgmt : K .mgmt = true) (hcol : K .col = true) (haer : K .aer = true) (ctx : CtxNo) (step : BitVec 16) (s : State) (t : State)
    (h : execStepTimeout ctx step s = .next t) : t.blank K = s.blank K := by
  refine done_blank h ?_
  ((repeat' split) <;> first | with_reducible rfl | simp (maxDischargeDepth := 9) only [stepExpires_blank, hregs, hsw, htbl, hmgmt, hcol, haer])

theorem execProgLoad_blank (K : Part → Bool) (hregs : K .regs = true) (hmgmt : K .mgmt = true) (hcol : K .col = true) (hout : K .out = true) (q : Req) (seg : Segment) (s : State) (t : State)
    (h : execProgLoad q seg s = .next t) : t.blank K = s.blank K := by
  refine done_blank h ?_
  simp (maxDischargeDepth := 9) only [serveProgLoad_blank, hregs, hmgmt, hcol, hout]

theorem execProgInstallComplete_blank (K : Part → Bool) (hregs : K .regs = true) (hmgmt : K .mgmt = true) (hcol : K .col = true) (hout : K .out = true) (ctx : CtxNo) (s : State) (t : State)
    (h : execProgInstallComplete ctx s = .next t) : t.blank K = s.blank K := by
  refine done_blank h ?_
  simp (maxDischargeDepth := 9) only [installProg_blank, hregs, hmgmt, hcol, hout]

theorem execEngBistComplete_blank (K : Part → Bool) (hregs : K .regs = true) (hmgmt : K .mgmt = true) (hfuse : K .fuse = true) (hcol : K .col = true) (haer : K .aer = true) (eng : EngineNo) (found : BistFound) (s : State) (t : State)
    (h : execEngBistComplete eng found s = .next t) : t.blank K = s.blank K := by
  refine done_blank h ?_
  simp (maxDischargeDepth := 9) only [ite_blank, ite_self, endEngBist_blank, hregs, hmgmt, hfuse, hcol, haer]

theorem execUuBistComplete_blank (K : Part → Bool) (hregs : K .regs = true) (hmgmt : K .mgmt = true) (hcol : K .col = true) (haer : K .aer = true) (uu : CoreNo) (pass : Bool) (s : State) (t : State)
    (h : execUuBistComplete uu pass s = .next t) : t.blank K = s.blank K := by
  refine done_blank h ?_
  simp (maxDischargeDepth := 9) only [ite_blank, ite_self, endUuBist_blank, hregs, hmgmt, hcol, haer]

theorem execPatrolScrub_blank (K : Part → Bool) (hregs : K .regs = true) (hmgmt : K .mgmt = true) (haer : K .aer = true) (hsys : K .sys = true) (stack : StackNo) (addr : Nat) (found : ScrubFound) (s : State) (t : State)
    (h : execPatrolScrub stack addr found s = .next t) : t.blank K = s.blank K := by
  refine done_blank h ?_
  ((repeat' split) <;> first | with_reducible rfl | simp (maxDischargeDepth := 9) only [noteCe_blank, noteUe_blank, hregs, hmgmt, haer, hsys])

theorem execHbmUe_blank (K : Part → Bool) (hregs : K .regs = true) (hsw : K .sw = true) (htbl : K .tbl = true) (hmgmt : K .mgmt = true) (hcol : K .col = true) (htwin : K .twin = true) (haer : K .aer = true) (hsys : K .sys = true) (addr : Nat) (use : UeUse) (s : State) (t : State)
    (h : execHbmUe addr use s = .next t) : t.blank K = s.blank K := by
  refine done_blank h ?_
  simp (maxDischargeDepth := 9) only [ite_blank, ite_self, noteUe_blank, ueEffect_blank, hregs, hsw, htbl, hmgmt, hcol, htwin, haer, hsys]

theorem execHbmRetrain_blank (K : Part → Bool) (hregs : K .regs = true) (hpho : K .pho = true) (hmgmt : K .mgmt = true) (haer : K .aer = true) (hdump : K .dump = true) (hsys : K .sys = true) (stack : StackNo) (chan : Fin 32) (ok : Bool) (s : State) (t : State)
    (h : execHbmRetrain stack chan ok s = .next t) : t.blank K = s.blank K := by
  refine done_blank h ?_
  simp (maxDischargeDepth := 9) only [ite_blank, ite_self, alarmPlain_blank, bset_blank, fset_blank, raiseFatal_blank, setMgmt_blank, setSys_blank, hregs, hpho, hmgmt, haer, hdump, hsys]

theorem execHcpRead_blank (K : Part → Bool) (hregs : K .regs = true) (hmgmt : K .mgmt = true) (hcol : K .col = true) (hout : K .out = true) (q : Req) (a : Access) (s : State) (t : State)
    (h : execHcpRead q a s = .next t) : t.blank K = s.blank K := by
  refine done_blank h ?_
  simp (maxDischargeDepth := 9) only [serveRead_blank, hregs, hmgmt, hcol, hout]

theorem execBulkRead_blank (K : Part → Bool) (hregs : K .regs = true) (hmgmt : K .mgmt = true) (hcol : K .col = true) (hout : K .out = true) (q : Req) (a : BitVec 32) (count : BitVec 16) (s : State) (t : State)
    (h : execBulkRead q a count s = .next t) : t.blank K = s.blank K := by
  refine done_blank h ?_
  simp (maxDischargeDepth := 9) only [serveBulkRead_blank, hregs, hmgmt, hcol, hout]

theorem execDumpRead_blank (K : Part → Bool) (hregs : K .regs = true) (hmgmt : K .mgmt = true) (hout : K .out = true) (q : Req) (source die : Byte) (off : BitVec 32) (len : BitVec 16) (s : State) (t : State)
    (h : execDumpRead q source die off len s = .next t) : t.blank K = s.blank K := by
  refine done_blank h ?_
  simp (maxDischargeDepth := 9) only [serveDumpRead_blank, hregs, hmgmt, hout]

theorem execAttest_blank (K : Part → Bool) (hregs : K .regs = true) (hmgmt : K .mgmt = true) (hout : K .out = true) (q : Req) (nonce : Bytes) (off : BitVec 32) (s : State) (t : State)
    (h : execAttest q nonce off s = .next t) : t.blank K = s.blank K := by
  refine done_blank h ?_
  simp (maxDischargeDepth := 9) only [serveAttest_blank, hregs, hmgmt, hout]

theorem execSessionOpen_blank (K : Part → Bool) (hregs : K .regs = true) (hmgmt : K .mgmt = true) (haer : K .aer = true) (hsys : K .sys = true) (hout : K .out = true) (q : Req) (slot role : Byte) (eph nonce sig : Bytes) (s : State) (t : State)
    (h : execSessionOpen q slot role eph nonce sig s = .next t) : t.blank K = s.blank K := by
  refine done_blank h ?_
  simp (maxDischargeDepth := 9) only [serveOpen_blank, hregs, hmgmt, haer, hsys, hout]

theorem execSessionClose_blank (K : Part → Bool) (hregs : K .regs = true) (hmgmt : K .mgmt = true) (hout : K .out = true) (q : Req) (s : State) (t : State)
    (h : execSessionClose q s = .next t) : t.blank K = s.blank K := by
  refine done_blank h ?_
  simp (maxDischargeDepth := 9) only [serveClose_blank, hregs, hmgmt, hout]

theorem execSessionIdleTimeout_blank (K : Part → Bool) (hmgmt : K .mgmt = true) (id : BitVec 32) (s : State) (t : State)
    (h : execSessionIdleTimeout id s = .next t) : t.blank K = s.blank K := by
  refine done_blank h ?_
  ((repeat' split) <;> first | with_reducible rfl | simp (maxDischargeDepth := 9) only [reapSessions_blank, setSession_blank, hmgmt])

theorem execTransferAbandon_blank (K : Part → Bool) (hregs : K .regs = true) (hmgmt : K .mgmt = true) (own : XferOwner) (opcode : Byte) (id : BitVec 16) (s : State) (t : State)
    (h : execTransferAbandon own opcode id s = .next t) : t.blank K = s.blank K := by
  refine done_blank h ?_
  ((repeat' split) <;> first | with_reducible rfl | simp (maxDischargeDepth := 9) only [closeTransfer_blank, glbCtr_blank, hregs, hmgmt])

theorem execMgmtLinkDown_blank (K : Part → Bool) (hmgmt : K .mgmt = true) (m : MPort) (s : State) (t : State)
    (h : execMgmtLinkDown m s = .next t) : t.blank K = s.blank K := by
  refine done_blank h ?_
  simp (maxDischargeDepth := 9) only [setLink_blank, hmgmt]

theorem execStringAccessTimeout_blank (K : Part → Bool) (hregs : K .regs = true) (hpho : K .pho = true) (hmgmt : K .mgmt = true) (haer : K .aer = true) (hdump : K .dump = true) (hout : K .out = true) (q : Req) (op : StringOp) (a : Access) (s : State) (t : State)
    (h : execStringAccessTimeout q op a s = .next t) : t.blank K = s.blank K := by
  refine done_blank h ?_
  simp (maxDischargeDepth := 9) only [serveTimeout_blank, hregs, hpho, hmgmt, haer, hdump, hout]

theorem execPortDrained_blank (K : Part → Bool) (hregs : K .regs = true) (hsw : K .sw = true) (hpho : K .pho = true) (hmgmt : K .mgmt = true) (hcol : K .col = true) (haer : K .aer = true) (hflt : K .flt = true) (hout : K .out = true) (port : PortNo) (s : State) (t : State)
    (h : execPortDrained port s = .next t) : t.blank K = s.blank K := by
  refine done_blank h ?_
  simp (maxDischargeDepth := 9) only [ite_blank, ite_self, idlePort_blank, hregs, hsw, hpho, hmgmt, hcol, haer, hflt, hout]

theorem execPortDownDetect_blank (K : Part → Bool) (hregs : K .regs = true) (hsw : K .sw = true) (hmgmt : K .mgmt = true) (hcol : K .col = true) (haer : K .aer = true) (hflt : K .flt = true) (hout : K .out = true) (port : PortNo) (cond : Fin 5) (s : State) (t : State)
    (h : execPortDownDetect port cond s = .next t) : t.blank K = s.blank K := by
  refine done_blank h ?_
  simp (maxDischargeDepth := 9) only [ite_blank, ite_self, takeDown_blank, hregs, hsw, hmgmt, hcol, haer, hflt, hout]

theorem execPortUpDetect_blank (K : Part → Bool) (hsw : K .sw = true) (hpho : K .pho = true) (port : PortNo) (s : State) (t : State)
    (h : execPortUpDetect port s = .next t) : t.blank K = s.blank K := by
  refine done_blank h ?_
  simp (maxDischargeDepth := 9) only [ite_blank, ite_self, bringUp_blank, fiberReturned_blank, hsw, hpho]

theorem execHealthRecoverInterval_blank (K : Part → Bool) (hregs : K .regs = true) (hcol : K .col = true) (hflt : K .flt = true) (s : State) (t : State)
    (h : execHealthRecoverInterval s = .next t) : t.blank K = s.blank K := by
  refine done_blank h ?_
  simp (maxDischargeDepth := 9) only [each_blank, implies_true, ite_blank, ite_self, recoverScore_blank, setCtx_blank, setFlt_blank, hregs, hcol, hflt]

theorem execFenceHeldRejudge_blank (K : Part → Bool) (hregs : K .regs = true) (hsw : K .sw = true) (hmgmt : K .mgmt = true) (hcol : K .col = true) (haer : K .aer = true) (hflt : K .flt = true) (hout : K .out = true) (s : State) (t : State)
    (h : execFenceHeldRejudge s = .next t) : t.blank K = s.blank K := by
  refine done_blank h ?_
  simp (maxDischargeDepth := 9) only [rejudgeFences_blank, hregs, hsw, hmgmt, hcol, haer, hflt, hout]

theorem execWatchdogExpiry_blank (K : Part → Bool) (hregs : K .regs = true) (hcal : K .cal = true) (htbl : K .tbl = true) (hpho : K .pho = true) (hmgmt : K .mgmt = true) (hcol : K .col = true) (haer : K .aer = true) (hflt : K .flt = true) (hdump : K .dump = true) (hsys : K .sys = true) (hout : K .out = true) (core : Fin 4) (s : State) (t : State)
    (h : execWatchdogExpiry core s = .next t) : t.blank K = s.blank K := by
  refine done_blank h ?_
  simp (maxDischargeDepth := 9) only [ite_blank, ite_self, alarm_blank, bump_blank, mc0Stops_blank, raiseFatal_blank, setCoreState_blank, setFlt_blank, hregs, hcal, htbl, hpho, hmgmt, hcol, haer, hflt, hdump, hsys, hout]

theorem execCoreRecovered_blank (K : Part → Bool) (hregs : K .regs = true) (hflt : K .flt = true) (core : Fin 4) (s : State) (t : State)
    (h : execCoreRecovered core s = .next t) : t.blank K = s.blank K := by
  refine done_blank h ?_
  simp (maxDischargeDepth := 9) only [ite_blank, ite_self, setCoreState_blank, setFlt_blank, hregs, hflt]

theorem execDoldrumsScan_blank (K : Part → Bool) (hregs : K .regs = true) (hmgmt : K .mgmt = true) (hcol : K .col = true) (haer : K .aer = true) (hflt : K .flt = true) (hdump : K .dump = true) (s : State) (t : State)
    (h : execDoldrumsScan s = .next t) : t.blank K = s.blank K := by
  refine done_blank h ?_
  simp (maxDischargeDepth := 9) only [ite_blank, ite_self, doldrumsScan_blank, hregs, hmgmt, hcol, haer, hflt, hdump]

theorem execFatalError_blank (K : Part → Bool) (hpho : K .pho = true) (hdump : K .dump = true) (cause : FatalCause) (s : State) (t : State)
    (h : execFatalError cause s = .next t) : t.blank K = s.blank K := by
  refine done_blank h ?_
  simp (maxDischargeDepth := 9) only [ite_blank, ite_self, raiseFatal_blank, hpho, hdump]

theorem execSupplyFault_blank (K : Part → Bool) (hpho : K .pho = true) (hdump : K .dump = true) (rail : Rail) (microseconds : Nat) (s : State) (t : State)
    (h : execSupplyFault rail microseconds s = .next t) : t.blank K = s.blank K := by
  unfold execSupplyFault at h
  split at h <;> refine done_blank h ?_ <;>
    simp (maxDischargeDepth := 9) only [ite_blank, ite_self, raiseFatal_blank, hpho, hdump]

theorem execRefclkLoss_blank (K : Part → Bool) (hregs : K .regs = true) (hsw : K .sw = true) (hpho : K .pho = true) (hmgmt : K .mgmt = true) (hcol : K .col = true) (haer : K .aer = true) (hflt : K .flt = true) (hdump : K .dump = true) (hsys : K .sys = true) (hout : K .out = true) (clk : RefClk) (s : State) (t : State)
    (h : execRefclkLoss clk s = .next t) : t.blank K = s.blank K := by
  refine done_blank h ?_
  ((repeat' split) <;> first | with_reducible rfl | simp (maxDischargeDepth := 9) only [raiseFatal_blank, setLaneClk_blank, setMclk_blank, setSys_blank, hregs, hsw, hpho, hmgmt, hcol, haer, hflt, hdump, hsys, hout])

theorem execTjWarn_blank (K : Part → Bool) (hregs : K .regs = true) (hmgmt : K .mgmt = true) (haer : K .aer = true) (hsys : K .sys = true) (die : DieNo) (sensor : Fin 64) (temp : Int) (s : State) (t : State)
    (h : execTjWarn die sensor temp s = .next t) : t.blank K = s.blank K := by
  refine done_blank h ?_
  simp (maxDischargeDepth := 9) only [ite_blank, ite_self, tjWarn_blank, hregs, hmgmt, haer, hsys]

theorem execTjTrip_blank (K : Part → Bool) (hregs : K .regs = true) (hcal : K .cal = true) (hsw : K .sw = true) (htbl : K .tbl = true) (hmgmt : K .mgmt = true) (hcol : K .col = true) (haer : K .aer = true) (hsys : K .sys = true) (die : DieNo) (sensor : Fin 64) (first second : Int) (s : State) (t : State)
    (h : execTjTrip die sensor first second s = .next t) : t.blank K = s.blank K := by
  refine done_blank h ?_
  simp (maxDischargeDepth := 9) only [ite_blank, ite_self, alarm_blank, enterStage_blank, setSys_blank, suspendAll_blank, tripAborts_blank, hregs, hcal, hsw, htbl, hmgmt, hcol, haer, hsys]

theorem execTjRecover_blank (K : Part → Bool) (hregs : K .regs = true) (hcal : K .cal = true) (hmgmt : K .mgmt = true) (haer : K .aer = true) (hsys : K .sys = true) (hottest : Int) (s : State) (t : State)
    (h : execTjRecover hottest s = .next t) : t.blank K = s.blank K := by
  refine done_blank h ?_
  simp (maxDischargeDepth := 9) only [ite_blank, ite_self, enterStage_blank, resumeAll_blank, setSys_blank, hregs, hcal, hmgmt, haer, hsys]

theorem execTwinHeartbeatTx_blank (K : Part → Bool) (hregs : K .regs = true) (hout : K .out = true) (s : State) (t : State)
    (h : execTwinHeartbeatTx s = .next t) : t.blank K = s.blank K := by
  refine done_blank h ?_
  simp (maxDischargeDepth := 9) only [ite_blank, ite_self, twinSend_blank, hregs, hout]

theorem execTwinHeartbeatRx_blank (K : Part → Bool) (hregs : K .regs = true) (hmgmt : K .mgmt = true) (hcol : K .col = true) (htwin : K .twin = true) (haer : K .aer = true) (hout : K .out = true) (frame : Bytes) (s : State) (t : State)
    (h : execTwinHeartbeatRx frame s = .next t) : t.blank K = s.blank K := by
  exact done_blank h (twinRx_blank K hregs _ _ _ _ fun s p => by
    simp (maxDischargeDepth := 9) only [heartbeatRx_blank, hregs, hmgmt, hcol, htwin, haer, hout])

theorem execTwinHbCheck_blank (K : Part → Bool) (hregs : K .regs = true) (hsw : K .sw = true) (htbl : K .tbl = true) (hmgmt : K .mgmt = true) (hcol : K .col = true) (htwin : K .twin = true) (haer : K .aer = true) (s : State) (t : State)
    (h : execTwinHbCheck s = .next t) : t.blank K = s.blank K := by
  refine done_blank h ?_
  simp (maxDischargeDepth := 9) only [hbCheck_blank, hregs, hsw, htbl, hmgmt, hcol, htwin, haer]

theorem execTwinHelloRx_blank (K : Part → Bool) (hregs : K .regs = true) (hmgmt : K .mgmt = true) (hcol : K .col = true) (htwin : K .twin = true) (haer : K .aer = true) (hsys : K .sys = true) (hout : K .out = true) (frame : Bytes) (s : State) (t : State)
    (h : execTwinHelloRx frame s = .next t) : t.blank K = s.blank K := by
  exact done_blank h (twinRx_blank K hregs _ _ _ _ fun s p => by
    simp (maxDischargeDepth := 9) only [helloRx_blank, hregs, hmgmt, hcol, htwin, haer, hsys, hout])

theorem execTwinProofRx_blank (K : Part → Bool) (hregs : K .regs = true) (hmgmt : K .mgmt = true) (hcol : K .col = true) (htwin : K .twin = true) (haer : K .aer = true) (hout : K .out = true) (frame : Bytes) (s : State) (t : State)
    (h : execTwinProofRx frame s = .next t) : t.blank K = s.blank K := by
  exact done_blank h (twinRx_blank K hregs _ _ _ _ fun s p => by
    simp (maxDischargeDepth := 9) only [proofRx_blank, hregs, hmgmt, hcol, htwin, haer, hout])

theorem execTwinCtxConfigRx_blank (K : Part → Bool) (hregs : K .regs = true) (hhbm : K .hbm = true) (hcol : K .col = true) (htwin : K .twin = true) (hout : K .out = true) (frame : Bytes) (s : State) (t : State)
    (h : execTwinCtxConfigRx frame s = .next t) : t.blank K = s.blank K := by
  exact done_blank h (twinRx_blank K hregs _ _ _ _ fun s p => by
    simp (maxDischargeDepth := 9) only [configRx_blank, hregs, hhbm, hcol, htwin, hout])

theorem execTwinCtxAcceptRx_blank (K : Part → Bool) (hregs : K .regs = true) (hhbm : K .hbm = true) (hmgmt : K .mgmt = true) (hcol : K .col = true) (hout : K .out = true) (frame : Bytes) (s : State) (t : State)
    (h : execTwinCtxAcceptRx frame s = .next t) : t.blank K = s.blank K := by
  exact done_blank h (twinRx_blank K hregs _ _ _ _ fun s p => by
    simp (maxDischargeDepth := 9) only [acceptRx_blank, hregs, hhbm, hmgmt, hcol, hout])

theorem execTwinRecordRx_blank (K : Part → Bool) (hregs : K .regs = true) (hcol : K .col = true) (htwin : K .twin = true) (hout : K .out = true) (frame : Bytes) (s : State) (t : State)
    (h : execTwinRecordRx frame s = .next t) : t.blank K = s.blank K := by
  exact done_blank h (twinRx_blank K hregs _ _ _ _ fun s p => by
    simp (maxDischargeDepth := 9) only [recordRx_blank, hregs, hcol, htwin, hout])

theorem execTwinAckRx_blank (K : Part → Bool) (hregs : K .regs = true) (hcol : K .col = true) (htwin : K .twin = true) (hout : K .out = true) (frame : Bytes) (s : State) (t : State)
    (h : execTwinAckRx frame s = .next t) : t.blank K = s.blank K := by
  exact done_blank h (twinRx_blank K hregs _ _ _ _ fun s p => by
    simp (maxDischargeDepth := 9) only [ackRx_blank, hregs, hcol, htwin, hout])

theorem execTwinReleasedRx_blank (K : Part → Bool) (hregs : K .regs = true) (hcol : K .col = true) (htwin : K .twin = true) (frame : Bytes) (s : State) (t : State)
    (h : execTwinReleasedRx frame s = .next t) : t.blank K = s.blank K := by
  exact done_blank h (twinRx_blank K hregs _ _ _ _ fun s p => by
    simp (maxDischargeDepth := 9) only [releasedRx_blank, hcol, htwin])

theorem execTwinStepDigestRx_blank (K : Part → Bool) (hregs : K .regs = true) (hcol : K .col = true) (hout : K .out = true) (frame : Bytes) (s : State) (t : State)
    (h : execTwinStepDigestRx frame s = .next t) : t.blank K = s.blank K := by
  exact done_blank h (twinRx_blank K hregs _ _ _ _ fun s p => by
    simp (maxDischargeDepth := 9) only [stepDigestRx_blank, hregs, hcol, hout])

theorem execTwinChunkDigestsRx_blank (K : Part → Bool) (hregs : K .regs = true) (hmgmt : K .mgmt = true) (hcol : K .col = true) (htwin : K .twin = true) (haer : K .aer = true) (hout : K .out = true) (frame : Bytes) (s : State) (t : State)
    (h : execTwinChunkDigestsRx frame s = .next t) : t.blank K = s.blank K := by
  exact done_blank h (twinRx_blank K hregs _ _ _ _ fun s p => by
    simp (maxDischargeDepth := 9) only [chunkDigestsRx_blank, hregs, hmgmt, hcol, htwin, haer, hout])

theorem execTwinCopyRx_blank (K : Part → Bool) (hregs : K .regs = true) (hhbm : K .hbm = true) (hcol : K .col = true) (htwin : K .twin = true) (hout : K .out = true) (frame : Bytes) (s : State) (t : State)
    (h : execTwinCopyRx frame s = .next t) : t.blank K = s.blank K := by
  exact done_blank h (twinRx_blank K hregs _ _ _ _ fun s p => by
    simp (maxDischargeDepth := 9) only [copyRx_blank, hregs, hhbm, hcol, htwin, hout])

theorem execTwinCopyEndRx_blank (K : Part → Bool) (hregs : K .regs = true) (hmgmt : K .mgmt = true) (hcol : K .col = true) (htwin : K .twin = true) (haer : K .aer = true) (frame : Bytes) (s : State) (t : State)
    (h : execTwinCopyEndRx frame s = .next t) : t.blank K = s.blank K := by
  exact done_blank h (twinRx_blank K hregs _ _ _ _ fun s p => by
    simp (maxDischargeDepth := 9) only [copyEndRx_blank, hregs, hmgmt, hcol, htwin, haer])

theorem execTwinHandoverRx_blank (K : Part → Bool) (hregs : K .regs = true) (hsw : K .sw = true) (htbl : K .tbl = true) (hmgmt : K .mgmt = true) (hcol : K .col = true) (htwin : K .twin = true) (haer : K .aer = true) (frame : Bytes) (s : State) (t : State)
    (h : execTwinHandoverRx frame s = .next t) : t.blank K = s.blank K := by
  exact done_blank h (twinRx_blank K hregs _ _ _ _ fun s p => by
    simp (maxDischargeDepth := 9) only [handoverRx_blank, hregs, hsw, htbl, hmgmt, hcol, htwin, haer])

theorem execTwinFrameResend_blank (K : Part → Bool) (hregs : K .regs = true) (htwin : K .twin = true) (hout : K .out = true) (index : Nat) (s : State) (t : State)
    (h : execTwinFrameResend index s = .next t) : t.blank K = s.blank K := by
  refine done_blank h ?_
  simp (maxDischargeDepth := 9) only [resend_blank, hregs, htwin, hout]

theorem execTwinAttachTimeout_blank (K : Part → Bool) (hregs : K .regs = true) (hmgmt : K .mgmt = true) (hcol : K .col = true) (htwin : K .twin = true) (haer : K .aer = true) (linkDownTicks : Nat) (s : State) (t : State)
    (h : execTwinAttachTimeout linkDownTicks s = .next t) : t.blank K = s.blank K := by
  refine done_blank h ?_
  ((repeat' split) <;> first | with_reducible rfl | simp (maxDischargeDepth := 9) only [attachFails_blank, hregs, hmgmt, hcol, htwin, haer])

theorem execBwWindowEnd_blank (K : Part → Bool) (hregs : K .regs = true) (hmgmt : K .mgmt = true) (haer : K .aer = true) (hsys : K .sys = true) (s : State) (t : State)
    (h : execBwWindowEnd s = .next t) : t.blank K = s.blank K := by
  refine done_blank h ?_
  ((repeat' split) <;> first | with_reducible rfl | simp (maxDischargeDepth := 9) only [closeWindow_blank, hregs, hmgmt, haer, hsys])

theorem execAerWrite_blank (K : Part → Bool) (hregs : K .regs = true) (hhbm : K .hbm = true) (haer : K .aer = true) (s : State) (t : State)
    (h : execAerWrite s = .next t) : t.blank K = s.blank K := by
  refine done_blank h ?_
  simp (maxDischargeDepth := 9) only [writeRec_blank, hregs, hhbm, haer]

theorem execLaneTagBlockMissing_blank (K : Part → Bool) (hregs : K .regs = true) (hsw : K .sw = true) (hpho : K .pho = true) (hmgmt : K .mgmt = true) (hcol : K .col = true) (haer : K .aer = true) (hflt : K .flt = true) (hout : K .out = true) (fiber : Fin 290) (wave : Fin 9) (light : Bool) (s : State) (t : State)
    (h : execLaneTagBlockMissing fiber wave light s = .next t) : t.blank K = s.blank K := by
  refine done_blank h ?_
  simp (maxDischargeDepth := 9) only [ite_blank, ite_self, blockMissing_blank, hregs, hsw, hpho, hmgmt, hcol, haer, hflt, hout]

theorem execDtdLaneBelowSensitivity_blank (K : Part → Bool) (hregs : K .regs = true) (hsw : K .sw = true) (hpho : K .pho = true) (hmgmt : K .mgmt = true) (haer : K .aer = true) (die : DieNo) (lane : Fin 512) (dest : DieNo) (below : Bool) (s : State) (t : State)
    (h : execDtdLaneBelowSensitivity die lane dest below s = .next t) : t.blank K = s.blank K := by
  refine done_blank h ?_
  simp (maxDischargeDepth := 9) only [ite_blank, ite_self, refreshDtd_blank, setPho_blank, hregs, hsw, hpho, hmgmt, haer]

theorem execRefclkRelock_blank (K : Part → Bool) (hregs : K .regs = true) (hsw : K .sw = true) (hpho : K .pho = true) (hmgmt : K .mgmt = true) (hcol : K .col = true) (haer : K .aer = true) (hflt : K .flt = true) (hsys : K .sys = true) (hout : K .out = true) (clk : RefClk) (s : State) (t : State)
    (h : execRefclkRelock clk s = .next t) : t.blank K = s.blank K := by
  refine done_blank h ?_
  ((repeat' split) <;> first | with_reducible rfl | simp (maxDischargeDepth := 9) only [setLaneClk_blank, setMclk_blank, setSys_blank, hregs, hsw, hpho, hmgmt, hcol, haer, hflt, hsys, hout])

theorem execMgmtLinkUp_blank (K : Part → Bool) (hmgmt : K .mgmt = true) (m : MPort) (s : State) (t : State)
    (h : execMgmtLinkUp m s = .next t) : t.blank K = s.blank K := by
  refine done_blank h ?_
  simp (maxDischargeDepth := 9) only [ite_blank, ite_self, setLink_blank, hmgmt]

theorem execPtpMessageTx_blank (K : Part → Bool) (hclk : K .clk = true) (hout : K .out = true) (via : PtpVia) (kind : PtpKind) (txTime : Nat) (s : State) (t : State)
    (h : execPtpMessageTx via kind txTime s = .next t) : t.blank K = s.blank K := by
  refine done_blank h ?_
  simp (maxDischargeDepth := 9) only [ptpTx_blank, hclk, hout]

theorem execHcpFrameRefused_blank (K : Part → Bool) (hregs : K .regs = true) (hmgmt : K .mgmt = true) (hout : K .out = true) (m : MPort) (udp : Bool) (ethertype : BitVec 16) (addressed fcs udpSum : Bool) (frame : Bytes) (s : State) (t : State)
    (h : execHcpFrameRefused m udp ethertype addressed fcs udpSum frame s = .next t) : t.blank K = s.blank K := by
  refine done_blank h ?_
  simp (maxDischargeDepth := 9) only [refuseFrame_blank, hregs, hmgmt, hout]

theorem execSnapshotComplete_blank (K : Part → Bool) (hregs : K .regs = true) (hhbm : K .hbm = true) (hcol : K .col = true) (hdump : K .dump = true) (hsys : K .sys = true) (s : State) (t : State)
    (h : execSnapshotComplete s = .next t) : t.blank K = s.blank K := by
  refine done_blank h ?_
  simp (maxDischargeDepth := 9) only [ite_blank, ite_self, finishSnap_blank, hregs, hhbm, hcol, hdump, hsys]

theorem execFatalDumpComplete_blank (K : Part → Bool) (hhbm : K .hbm = true) (hdump : K .dump = true) (hsys : K .sys = true) (silent : List Word) (hungDies : List DieNo) (s : State) (t : State)
    (h : execFatalDumpComplete silent hungDies s = .next t) : t.blank K = s.blank K := by
  refine done_blank h ?_
  simp (maxDischargeDepth := 9) only [ite_blank, ite_self, finishFatal_blank, hhbm, hdump, hsys]

theorem execElsRestoreComplete_blank (K : Part → Bool) (hregs : K .regs = true) (hsw : K .sw = true) (hpho : K .pho = true) (hmgmt : K .mgmt = true) (hcol : K .col = true) (haer : K .aer = true) (hflt : K .flt = true) (hout : K .out = true) (module : Fin 32) (s : State) (t : State)
    (h : execElsRestoreComplete module s = .next t) : t.blank K = s.blank K := by
  refine done_blank h ?_
  ((repeat' split) <;> first | with_reducible rfl | simp (maxDischargeDepth := 9) only [finishRestore_blank, reply_blank, setPho_blank, hregs, hsw, hpho, hmgmt, hcol, haer, hflt, hout])

end Sys2Proof.Machine
end

