-- ==== Sys2Proof/Laws/Engines.lean ====
section
/-! SUPPORT. Engines: what the start of a BIST pass, gating and repair leave, and a command of ENG.CTRL. -/

namespace Sys2Proof.Machine

theorem engReg_inj (e o o' : Nat) (h : o ≠ o') : engReg e o ≠ engReg e o' := by
  unfold engReg; omega

theorem setEngState_engState (s : State) (e v : Nat) : (s.setEngState e v).engState e = v % 16 := by
  unfold State.setEngState State.engState
  exact State.fget_fset_same s _ 3 0 v (by decide)

/-- A BIST pass starts: the state is BIST, the result registers are clear. -/
theorem startEngBist_spec (s : State) (e : Nat) (j : Bool) :
    (s.startEngBist e j).engState e = 2 ∧ (s.startEngBist e j).rget (engReg e 0x104) = 0
      ∧ (s.startEngBist e j).eng e = { s.eng e with bistAsked := false, pendingRepair := none, judged := j, bistUp := s.clk.up } := by
  refine ⟨?_, ?_, ?_⟩
  · unfold State.startEngBist State.bump32 State.engState
    dsimp only
    rw [State.fget_setEng, State.fget_rset_ne _ _ _ _ _ _ (engReg_inj e 0x00C 0x128 (by decide)),
      State.fget_rset_ne _ _ _ _ _ _ (engReg_inj e 0x00C 0x104 (by decide))]
    exact setEngState_engState s e 2
  · unfold State.startEngBist
    dsimp only
    rw [State.rget_setEng, State.rget_bump32_ne _ _ _ _ (engReg_inj e 0x104 0x128 (by decide)), State.rget_rset_same, Nat.zero_mod]
  · unfold State.startEngBist
    dsimp only
    rw [State.eng_setEng_same, State.eng_bump32, State.eng_rset, State.setEngState, State.eng_fset, State.bump32_clk,
      State.rset_clk, State.fset_clk]

/-- The registers outside the engine's page. -/
theorem startEngBist_rget (s : State) (e a : Nat) (j : Bool) (h : ∀ o, o < 4096 → a ≠ engReg e o) :
    (s.startEngBist e j).rget a = s.rget a := by
  unfold State.startEngBist
  dsimp only
  rw [State.rget_setEng, State.rget_bump32_ne _ _ _ _ (h _ (by decide)), State.rget_rset_ne _ _ _ _ (h _ (by decide))]
  exact State.rget_fset_ne _ _ _ _ _ _ (h _ (by decide))

theorem reloadRepair_eng (s : State) (e : Nat) : (s.reloadRepair e).eng e = s.eng e := by
  unfold State.reloadRepair
  split <;> simp

theorem readied_engState (s : State) (q : Req) (addr v : Nat) (p : Page) (e : Nat) :
    (readied s q addr v p).engState e = s.engState e := by
  unfold State.engState State.fget
  rw [State.rget_congr (readied_regs ..)]

/-- Gating: an engine that runs nothing and that no enabled context names goes to GATED (R236). -/
theorem gateEng_ok (s : State) (e : Nat) (h : s.engState e = 0 ∨ s.engState e = 3) (hn : s.engNamed e = false) :
    s.gateEng e = (s.setEngState e 4, .ok) := by
  unfold State.gateEng
  rcases h with h | h <;> rw [h] <;> simp [hn]

/-- BIST of an engine in use waits for its end (R236). -/
theorem bistEng_waits (s : State) (e : Nat) (h : s.engState e = 1 ∨ s.engState e = 5) :
    s.bistEng e = (s.setEng e fun x => { x with bistAsked := true }, .ok) := by
  unfold State.bistEng
  rcases h with h | h <;> rw [h] <;> rfl

/-- BIST of an idle or quarantined engine starts at once (R236). -/
theorem bistEng_starts (s : State) (e : Nat) (h : s.engState e = 0 ∨ s.engState e = 3) :
    s.bistEng e = (s.startEngBist e (s.engState e == 3), .ok) := by
  unfold State.bistEng
  rcases h with h | h <;> rw [h] <;> rfl

/-- A BIST pass of an Update Unit starts. -/
theorem startUuBist_spec (s : State) (n : Nat) :
    (s.startUuBist n).uuState n = 2 ∧ (s.startUuBist n).rget (uuReg n 0x100) = 0
      ∧ (s.startUuBist n).core n = { s.core n with uuBistAsked := false, uuBistUp := s.clk.up } := by
  refine ⟨?_, ?_, ?_⟩
  · unfold State.startUuBist State.uuState State.setUuState
    rw [State.fget_setCore, State.fget_rset_ne _ _ _ _ _ _ (by unfold uuReg; omega)]
    exact State.fget_fset_same _ _ _ _ _ (by decide)
  · unfold State.startUuBist
    rw [State.rget_setCore, State.rget_rset_same, Nat.zero_mod]
  · unfold State.startUuBist State.setUuState
    rw [State.core_setCore_same, State.core_rset, State.core_fset]

end Sys2Proof.Machine
end

