-- ==== Sys2Proof/Laws/Events.lean ====
section
/-! SUPPORT. Lemmas for events: how a meaning's frame follows, loops over registers, calendars and tick alignment. -/

namespace Sys2Proof.Machine

theorem only_of {l : List Part} {s Y : State} (h : Y.blank (fun p => decide (p ∈ l)) = s.blank (fun p => decide (p ∈ l))) :
    OnlyTouches l s { settle Y with pending := s.pending } :=
  onlyTouches_of_blank (done_blank (s := s) (t := Y) rfl h)

theorem find_first (P : Fin 4 → Bool) (i : Fin 4) (hi : P i = true) (h : ∀ j, j < i → P j = false) :
    ([0, 1, 2, 3] : List (Fin 4)).find? P = some i := by
  fin_cases i
  · simp_all [List.find?]
  · have := h 0 (by decide); simp_all [List.find?]
  · have := h 0 (by decide); have := h 1 (by decide); simp_all [List.find?]
  · have := h 0 (by decide); have := h 1 (by decide); have := h 2 (by decide); simp_all [List.find?]

theorem mget_range {α : Type} (f : Nat → α) (n p : Nat) (h : p < n) : mget ((List.range n).map fun i => (i, f i)) p = some (f p) := by
  have key : ∀ (l : List Nat), p ∈ l → mget (l.map fun i => (i, f i)) p = some (f p) := by
    intro l
    induction l with
    | nil => intro h; cases h
    | cons a r ih =>
      intro h
      simp only [List.map_cons, mget]
      by_cases e : a = p
      · rw [if_pos e, e]
      · rw [if_neg e]
        exact ih ((List.mem_cons.mp h).resolve_left (fun x => e x.symm))
  exact key _ (List.mem_range.mpr h)

theorem pcal_of_cal {s t : State} (h : t.cal = s.cal) (p : Nat) : t.pcal p = s.pcal p := by
  unfold State.pcal
  rw [h]

theorem mgetD_mapAll {α : Type} (m : Map α) (n p : Nat) (d e : α) (f : Nat → α → α) (h : p < n) : mgetD (mapAll m n d f) p e = f p (mgetD m p d) := by
  unfold mgetD mapAll
  rw [mget_range (fun i => f i (mgetD m i d)) n p h]
  rfl

theorem eachPcal_pcal (s : State) (f : Nat → PortCal → PortCal) (p : Nat) (h : p < 1024) : (s.eachPcal f).pcal p = f p (s.pcal p) := by
  have e : (s.eachPcal f).cal.ports = mapAll s.cal.ports 1024 {} f := by
    unfold State.eachPcal
    generalize hm : mapAll = m
    rfl
  unfold State.pcal
  rw [e]
  exact mgetD_mapAll _ _ _ _ _ _ h

theorem suspendAll_pcal (s : State) (p : Nat) (h : p < 1024) : ((s.suspendAll).pcal p).suspended = true := by
  unfold State.suspendAll
  rw [eachPcal_pcal _ _ _ h]

theorem suspendAll_rget (s : State) (a : Nat) : (s.suspendAll).rget a = s.rget a :=
  State.rget_congr ((onlyTouches_of_blank (l := [.cal]) (suspendAll_blank _ (by decide) s)).2 .regs (by decide)) a
theorem suspendAll_clk (s : State) : (s.suspendAll).clk = s.clk :=
  (onlyTouches_of_blank (l := [.cal]) (suspendAll_blank _ (by decide) s)).2 .clk (by decide)
theorem alarm_clk (s : State) (base b cause detail : Nat) (links : List AerLink) : (s.alarm base b cause detail links).clk = s.clk :=
  (onlyTouches_of_blank (l := [.regs, .mgmt, .aer]) (alarm_blank _ (by decide) (by decide) (by decide) s base b cause detail links)).2 .clk (by decide)

theorem lose_spec (s : State) (c : Nat) : (s.loseAlignment c).clk = { s.clk with aligned := false, holdover := false, goodRun := 0, badRun := 0 }
    ∧ (∀ p, p < 1024 → ((s.loseAlignment c).pcal p).suspended = true)
    ∧ (s.loseAlignment c).rget (tickReg 0x1A8) = satAdd 64 (s.rget (tickReg 0x1A8)) 1
    ∧ (s.loseAlignment c).bget (tickReg 0x010) 24 = true
    ∧ (∀ a, a ≠ telReg 0x310 → a ≠ tickReg 0x010 → a ≠ tickReg 0x1A8 → (a < tickReg 0x060 ∨ tickReg 0x0A0 ≤ a) → (s.loseAlignment c).rget a = s.rget a) := by
  unfold State.loseAlignment
  refine ⟨?_, fun p hp => suspendAll_pcal _ p hp, ?_, ?_, ?_⟩
  · rw [suspendAll_clk, alarm_clk]
    rfl
  · rw [suspendAll_rget, alarm_rget _ _ _ _ _ _ _ (by decide) (by decide) (by decide), State.rget_bump]
    rfl
  · unfold State.bget
    rw [suspendAll_rget]
    exact alarm_bit (base := tickReg 0) (b := 24) (hb := by decide) (h := by decide) ..
  · intro a h1 h2 h3 h4
    rw [suspendAll_rget, alarm_rget _ (tickReg 0) _ _ _ _ _ h1 h2 h4, State.rget_bump_ne _ _ _ _ h3]
    rfl

theorem delivers_clk {s t : State} (hr : t.regs = s.regs) (hl : t.clk.lastValid = s.clk.lastValid) (hu : t.clk.up = s.clk.up) (j : Nat) :
    t.delivers j = s.delivers j := by
  have e : t.upstreamPort j = s.upstreamPort j := by
    unfold State.upstreamPort State.bget State.fget
    simp only [State.rget_congr hr]
  unfold State.delivers
  rw [hl, hu, e]

theorem upstreamOf_port (s : State) (p i : Nat) (h : s.upstreamOf p = some i) : s.upstreamPort i = some p := by
  have := List.find?_some h
  simpa using this

theorem countChange_rget_ne (s : State) : (s.countChange).clk = s.clk :=
  (onlyTouches_of_blank (l := [.regs, .cal]) (countChange_blank _ (by decide) (by decide) s)).2 .clk (by decide)

theorem noShadow_rget (s : State) (p a : Nat) (h1 : a ≠ calReg p 0x108) (h2 : a ≠ calReg p 0x110) : (s.noShadowRegs p).rget a = s.rget a := by
  unfold State.noShadowRegs
  rw [State.rget_rset_ne _ _ _ _ h2, State.rget_rset_ne _ _ _ _ h1]

theorem each_rget {α : Type} (a : Nat) (f : State → α → State) (l : List α) (h : ∀ s x, (f s x).rget a = s.rget a) (s : State) : (s.each l f).rget a = s.rget a := by
  unfold State.each
  induction l generalizing s with
  | nil => rfl
  | cons x r ih => rw [List.foldl_cons, ih, h]

theorem eachPcal_rget (s : State) (f : Nat → PortCal → PortCal) (a : Nat) : (s.eachPcal f).rget a = s.rget a :=
  State.rget_congr ((onlyTouches_of_blank (l := [.cal]) (eachPcal_blank _ (by decide) s f)).2 .regs (by decide)) a

theorem countChange_rget (s : State) : (s.countChange).rget (tickReg 0x140) = s.rget (tickReg 0x140) := by
  unfold State.countChange
  dsimp only
  unfold State.disarmKites
  rw [State.rget_congr (State.setCalSt_regs _ _), eachPcal_rget]
  exact each_rget _ _ _ (fun s p => noShadow_rget _ _ _ (by unfold tickReg calReg; omega) (by unfold tickReg calReg; omega)) s

theorem become_rget (s : State) (count : TickNo) : (s.becomeAligned count).rget (tickReg 0x140) = s.rget (tickReg 0x140) := by
  unfold State.becomeAligned
  dsimp only
  split
  · unfold State.resumeAll
    refine (eachPcal_rget _ _ _).trans ?_
    exact State.rget_congr (State.setClk_regs _ _) _
  · rw [countChange_rget]
    exact State.rget_congr (State.setClk_regs _ _) _

theorem become_spec (s : State) (count : TickNo) : (s.becomeAligned count).clk = { s.clk with aligned := true, everAligned := true, holdover := false, goodRun := 0, badRun := 0, tick := count } := by
  unfold State.becomeAligned
  dsimp only
  split
  · refine ((onlyTouches_of_blank (l := [.cal]) (resumeAll_blank _ (by decide) _)).2 .clk (by decide)).trans rfl
  · rw [countChange_rget_ne]; rfl

theorem ptpPort_set (s : State) (p : PtpPort) : (s.setPtpPort p).ptpPort p.via = p := by
  unfold State.ptpPort State.setPtpPort
  simp

theorem ptpPort_set_ne (s : State) (p : PtpPort) (v : PtpVia) (h : v ≠ p.via) : (s.setPtpPort p).ptpPort v = s.ptpPort v := by
  unfold State.ptpPort State.setPtpPort
  show (List.find? _ (p :: List.filter _ _)).getD _ = _
  rw [List.find?_cons_of_neg (by simpa using fun e => h e.symm), List.find?_filter]
  congr 2
  funext x
  by_cases e : x.via = v <;> simp [e]
  exact h

/-! More of the alarms -/

theorem alarm_same {p : Part} (hp : p ∉ [Part.regs, .mgmt, .aer]) (s : State) (base b cause detail : Nat) (links : List AerLink) :
    p.Same s (s.alarm base b cause detail links) :=
  (onlyTouches_of_blank (l := [.regs, .mgmt, .aer]) (alarm_blank _ (by decide) (by decide) (by decide) s base b cause detail links)).2 p hp

theorem record_same {p : Part} (hp : p ∉ [Part.regs, .aer]) (s : State) (base : Nat) (b : Option Nat) (cause detail : Nat) (links : List AerLink) :
    p.Same s (s.record base b cause detail links) :=
  (onlyTouches_of_blank (l := [.regs, .aer]) (record_blank _ (by decide) (by decide) s base b cause detail links)).2 p hp

theorem mem_queueRec (r : AerRec) (l : List AerRec) : r ∈ queueRec r l := by
  induction l with
  | nil => exact List.mem_singleton.mpr rfl
  | cons x rest ih =>
    unfold queueRec
    split
    · exact List.mem_cons_self
    · exact List.mem_cons_of_mem _ ih

theorem record_in (s : State) (base : Nat) (b : Option Nat) (cause detail : Nat) (links : List AerLink) (h : s.aer.queue.length < 4096) :
    ∃ r ∈ (s.record base b cause detail links).aer.queue, r.cause = cause ∧ r.detail = detail % 2 ^ 32 ∧ r.location = base ∧ r.attn = b := by
  unfold State.record
  rw [if_pos h]
  exact ⟨_, mem_queueRec _ _, rfl, rfl, rfl, rfl⟩

theorem gain_aer (s : State) : s.gainAttention.aer = s.aer := by
  unfold State.gainAttention
  split <;> rfl

theorem attn_aer (s : State) (base b : Nat) : (s.attn base b).aer = s.aer :=
  (onlyTouches_of_blank (l := [.regs, .mgmt]) (attn_blank _ (by decide) (by decide) s base b)).2 .aer (by decide)

theorem alarm_in (s : State) (base b cause detail : Nat) (links : List AerLink) (h : s.aer.queue.length < 4096) :
    ∃ r ∈ (s.alarm base b cause detail links).aer.queue, r.cause = cause ∧ r.detail = detail % 2 ^ 32 ∧ r.location = base ∧ r.attn = some b := by
  unfold State.alarm
  exact record_in _ _ _ _ _ _ (by rw [attn_aer]; exact h)

/-- A loop that keeps a property. -/
theorem each_holds {α : Type} (P : State → Prop) (f : State → α → State) (l : List α) (hkeep : ∀ s x, x ∈ l → P s → P (f s x)) (s : State)
    (h : P s) : P (s.each l f) := by
  unfold State.each
  induction l generalizing s with
  | nil => exact h
  | cons x r ih =>
    rw [List.foldl_cons]
    exact ih (fun s y hy hp => hkeep s y (List.mem_cons_of_mem _ hy) hp) _ (hkeep s x List.mem_cons_self h)

/-- A loop that keeps a property, with an iteration that brings it about. -/
theorem each_brings {α : Type} (P : State → Prop) (f : State → α → State) (l : List α) (a : α) (ha : a ∈ l)
    (hset : ∀ s, P (f s a)) (hkeep : ∀ s x, x ∈ l → P s → P (f s x)) (s : State) : P (s.each l f) := by
  induction l generalizing s with
  | nil => cases ha
  | cons x r ih =>
    show P (State.each (f s x) r f)
    rcases List.mem_cons.mp ha with rfl | h
    · exact each_holds P f r (fun s y hy hp => hkeep s y (List.mem_cons_of_mem _ hy) hp) _ (hset s)
    · exact ih h (fun s y hy hp => hkeep s y (List.mem_cons_of_mem _ hy) hp) _

theorem bget_bset_same (s : State) (a i : Nat) (v : Bool) (h : i < 64) : (s.bset a i v).bget a i = v := by
  have e := State.fget_fset_same s a i i (b2n v) h
  unfold State.bset State.bget
  have h2 : ((s.fset a i i (b2n v)).rget a).testBit i = decide (bits ((s.fset a i i (b2n v)).rget a) i i = 1) := by
    unfold bits
    rw [Nat.testBit_eq_decide_div_mod_eq]
    have : i + 1 - i = 1 := by omega
    rw [this, Nat.shiftRight_eq_div_pow, pow_one]
  rw [h2]
  show decide (State.fget _ _ _ _ = 1) = v
  rw [e]
  cases v <;> simp [b2n]

end Sys2Proof.Machine
end

