-- ==== Sys2Proof/Laws/Switching.lean ====
section
/-! SUPPORT. The switching path: what leaves queues and flows as they are, and transmissions. -/

namespace Sys2Proof.Machine

/-- The switching state beside its ports. -/
def SwitchSt.unported (w : SwitchSt) : SwitchSt := { w with ports := [] }

theorem unported_egress {a b : SwitchSt} (h : a.unported = b.unported) : a.egress = b.egress := by
  have := congrArg SwitchSt.egress h; exact this
theorem unported_flows {a b : SwitchSt} (h : a.unported = b.unported) : a.flows = b.flows := by
  have := congrArg SwitchSt.flows h; exact this
theorem unported_voq {a b : SwitchSt} (h : a.unported = b.unported) : a.voq = b.voq := by
  have := congrArg SwitchSt.voq h; exact this
theorem unported_arriving {a b : SwitchSt} (h : a.unported = b.unported) : a.arriving = b.arriving := by
  have := congrArg SwitchSt.arriving h; exact this
theorem unported_flying {a b : SwitchSt} (h : a.unported = b.unported) : a.flying = b.flying := by
  have := congrArg SwitchSt.flying h; exact this
theorem unported_dies {a b : SwitchSt} (h : a.unported = b.unported) : a.dies = b.dies := by
  have := congrArg SwitchSt.dies h; exact this

theorem pmc_sw (s : State) (base code n : Nat) : (s.pmc base code n).sw = s.sw :=
  (onlyTouches_of_blank (l := [.regs]) (pmc_blank _ (by decide) s base code n)).2 .sw (by decide)

theorem bwCount_same {p : Part} (hp : p ≠ .sys) (s : State) (q rx tx g : Nat) : p.Same s (s.bwCount q rx tx g) :=
  (onlyTouches_of_blank (l := [.sys]) (bwCount_blank _ (by decide) s q rx tx g)).2 p (by simpa using hp)

theorem countSlip_same {p : Part} (hp : p ≠ .regs) (s : State) (x : EgPkt) : p.Same s (s.countSlip x) :=
  (onlyTouches_of_blank (l := [.regs]) (countSlip_blank _ (by decide) s x)).2 p (by simpa using hp)

theorem setPort_unported (s : State) (p : Nat) (g : PortSt → PortSt) : (s.setPort p g).sw.unported = s.sw.unported := rfl

theorem useCredit_unported (s : State) (p vc n : Nat) : (s.useCredit p vc n).sw.unported = s.sw.unported := by
  unfold State.useCredit
  split <;> rfl

theorem freeCredit_unported (s : State) (p vc n : Nat) : (s.freeCredit p vc n).sw.unported = s.sw.unported := by
  unfold State.freeCredit
  repeat' split
  all_goals rfl

theorem drawTokens_unported (s : State) (p b n : Nat) : (s.drawTokens p b n).sw.unported = s.sw.unported := by
  unfold State.drawTokens
  split <;> rfl

theorem drawVc2_unported (s : State) (p n : Nat) : (s.drawVc2 p n).sw.unported = s.sw.unported := rfl

theorem drawLeftover_unported (s : State) (p vc n : Nat) : (s.drawLeftover p vc n).sw.unported = s.sw.unported := by
  unfold State.drawLeftover
  split
  · rfl
  · rw [drawTokens_unported, drawTokens_unported]

theorem startTx_unported (s : State) (p vc n e a : Nat) (w : Option Nat) (c : Bool) : (s.startTx p vc n e a w c).sw.unported = s.sw.unported := by
  unfold State.startTx
  dsimp only
  rw [setPort_unported]
  have key : ∀ t : State, t.sw.unported = s.sw.unported → ∀ r v, (if t.rget r < v then t.rset r v else t).sw.unported = s.sw.unported := by
    intro t ht r v
    split
    · exact ht
    · exact ht
  apply key
  rw [bwCount_same (p := .sw) (by decide), pmc_sw, pmc_sw, pmc_sw, pmc_sw, portCtr_sw, portCtr_sw, useCredit_unported]

theorem startTx_same {p : Part} (hp : p ∉ [Part.regs, .sw, .sys]) (s : State) (q vc n e a : Nat) (w : Option Nat) (c : Bool) : p.Same s (s.startTx q vc n e a w c) :=
  (onlyTouches_of_blank (l := [.regs, .sw, .sys]) (startTx_blank _ (by decide) (by decide) (by decide) s q vc n e a w c)).2 p hp

theorem startTx_rget (s : State) (p vc n e at_ : Nat) (w : Option Nat) (c : Bool) (hvc : vc < 900) (a : Nat) (h : a < portReg p 0 ∨ portReg p 0 + 4096 ≤ a) :
    (s.startTx p vc n e at_ w c).rget a = s.rget a := by
  have hp : ∀ o, portReg p o = portReg p 0 + o := by intro o; unfold portReg; omega
  unfold State.startTx
  dsimp only
  rw [State.rget_congr (State.setPort_regs _ _ _)]
  have key : ∀ t : State, t.rget a = s.rget a → ∀ r v, a ≠ r → (if t.rget r < v then t.rset r v else t).rget a = s.rget a := by
    intro t ht r v hr
    split
    · rw [State.rget_rset_ne _ _ _ _ hr, ht]
    · exact ht
  refine key _ ?_ _ _ (by rw [hp]; omega)
  have hpm : ∀ (t : State) code n, (t.pmc (portReg p 0) code n).rget a = t.rget a := fun t code n => rget_pmc t _ _ _ _ (by omega)
  rw [State.rget_congr (bwCount_same (p := .regs) (by decide) _ _ _ _ _), hpm, hpm, hpm, hpm]
  unfold State.portCtr
  rw [State.rget_bump_ne _ _ _ _ (by unfold PortCtr.reg; rw [hp]; simp [PortCtr.ctorIdx]; omega), State.rget_bump_ne _ _ _ _ (by unfold PortCtr.reg; rw [hp]; simp [PortCtr.ctorIdx]; omega)]
  unfold State.useCredit
  split <;> rfl

theorem egressGone_egress (s : State) (x : EgPkt) : (s.egressGone x).sw.egress = s.sw.egress := by
  unfold State.egressGone
  split <;> rfl

theorem egressGone_same {p : Part} (hp : p ≠ .sw) (s : State) (x : EgPkt) : p.Same s (s.egressGone x) :=
  (onlyTouches_of_blank (l := [.sw]) (egressGone_blank _ (by decide) s x)).2 p (by simpa using hp)

/-- A packet that is transmitted leaves its queue, and is handed to the port. -/
theorem transmit_spec (s : State) (x : EgPkt) (at_ : Nat) (w : Option Nat) (cut : Bool) :
    (s.transmit x at_ w cut).out = .packet x.port x.vc w.isSome x.bytes :: s.out
      ∧ (s.transmit x at_ w cut).sw.egress = s.sw.egress.filter fun y => y.id != x.id := by
  unfold State.transmit
  dsimp only
  refine ⟨?_, ?_⟩
  · show _ :: (State.egressGone _ x).out = _
    rw [egressGone_same (p := .out) (by decide), startTx_same (p := .out) (by decide)]
    rfl
  · show (State.egressGone _ x).sw.egress = _
    rw [egressGone_egress, unported_egress (startTx_unported ..)]
    rfl

theorem transmit_rget (s : State) (x : EgPkt) (at_ : Nat) (w : Option Nat) (cut : Bool) (hvc : x.vc < 900) (a : Nat)
    (h : a < portReg x.port 0 ∨ portReg x.port 0 + 4096 ≤ a) : (s.transmit x at_ w cut).rget a = s.rget a := by
  unfold State.transmit
  dsimp only
  show (State.egressGone _ x).rget a = _
  rw [State.rget_congr (egressGone_same (p := .regs) (by decide) _ _), startTx_rget _ _ _ _ _ _ _ _ hvc _ h]
  rfl

theorem atFc_rget (s : State) (fc : FcCycle) (a : Nat) : (s.atFc fc).rget a = s.rget a := rfl

theorem countHold_same {p : Part} (hp : p ∉ [Part.regs, .sw]) (s : State) (q : Nat) : p.Same s (s.countHold q) :=
  (onlyTouches_of_blank (l := [.regs, .sw]) (countHold_blank _ (by decide) (by decide) s q)).2 p hp

theorem countHold_unported (s : State) (q : Nat) : (s.countHold q).sw.unported = s.sw.unported := by
  unfold State.countHold
  dsimp only
  have key : ∀ (t : State) (c : Bool) g, t.sw.unported = s.sw.unported → (if c = true then t else t.setPort q g).sw.unported = s.sw.unported := by
    intro t c g ht
    split
    · exact ht
    · exact ht
  refine key _ _ _ ?_
  have k2 : ∀ n, (if n = 0 then s else (s.bump (portReg q 0x1A0) n).pmc (portReg q 0) 0x131 n).sw.unported = s.sw.unported := by
    intro n
    split
    · rfl
    · rw [pmc_sw]; rfl
  exact k2 _

end Sys2Proof.Machine
end

