-- ==== Sys2Proof/Laws/Words.lean ====
section
/-! SUPPORT. Masked writes of plain words: RMW and BULK_WRITE on the words of GLB.HCP_IPV6. -/

namespace Sys2Proof.Machine

theorem bv_masked (x y m : BitVec 32) : x - (x &&& m) + (y &&& m) = (x &&& ~~~m) ||| (y &&& m) := by
  have h1 : (x &&& m) + (x &&& ~~~m) = x := by
    rw [BitVec.add_eq_or_of_and_eq_zero]
    · ext i hi
      simp only [BitVec.getElem_or, BitVec.getElem_and, BitVec.getElem_not]
      cases x[i] <;> cases m[i] <;> rfl
    · ext i hi
      simp only [BitVec.getElem_and, BitVec.getElem_not, BitVec.getElem_zero]
      cases x[i] <;> cases m[i] <;> rfl
  have h2 : x - (x &&& m) = x &&& ~~~m := by
    generalize x &&& m = a at h1 ⊢
    generalize x &&& ~~~m = b at h1 ⊢
    rw [← h1, BitVec.add_comm a b, BitVec.add_sub_cancel]
  rw [h2, BitVec.add_eq_or_of_and_eq_zero]
  ext i hi
  simp only [BitVec.getElem_and, BitVec.getElem_not, BitVec.getElem_zero]
  cases x[i] <;> cases y[i] <;> cases m[i] <;> rfl

/-- The new value of a 32-bit field under a mask, bit by bit. -/
theorem masked_word (x y m : Nat) :
    BitVec.ofNat 32 (x - (x &&& m) + (y &&& m)) =
      (BitVec.ofNat 32 x &&& ~~~BitVec.ofNat 32 m) ||| (BitVec.ofNat 32 y &&& BitVec.ofNat 32 m) := by
  have hle : x &&& m ≤ x := Nat.and_le_left
  have h : BitVec.ofNat 32 (x - (x &&& m)) = BitVec.ofNat 32 x - BitVec.ofNat 32 (x &&& m) := by
    have h1 : BitVec.ofNat 32 (x - (x &&& m)) + BitVec.ofNat 32 (x &&& m) = BitVec.ofNat 32 x := by
      rw [← BitVec.ofNat_add, Nat.sub_add_cancel hle]
    rw [← h1, BitVec.add_sub_cancel]
  rw [← bv_masked, BitVec.ofNat_add, h, BitVec.ofNat_and, BitVec.ofNat_and]

theorem ofNat_bits32 (x : Nat) : BitVec.ofNat 32 (bits x 31 0) = BitVec.ofNat 32 x := by
  apply BitVec.eq_of_toNat_eq
  rw [BitVec.toNat_ofNat, BitVec.toNat_ofNat, bits_eq]
  simp

/-- A masked write of a word of HCP_IPV6: it stores what the mask takes from the value, and nothing refuses it. -/
theorem ipv6_write (S : State) (w : Writer) (i m v : Nat) (hi : i < 4) :
    ∃ T, S.wordWrite w glbPage (0x120 + 4 * i) m v = { state := T, code := .ok }
      ∧ BitVec.ofNat 32 (T.rget (glbReg (0x120 + 4 * i))) =
        (BitVec.ofNat 32 (S.rget (glbReg (0x120 + 4 * i))) &&& ~~~BitVec.ofNat 32 m) ||| (BitVec.ofNat 32 v &&& BitVec.ofNat 32 m)
      ∧ (∀ K : Part → Bool, K .regs = true → T.blank K = S.blank K)
      ∧ ∀ a, (a < glbReg 0x060 ∨ glbReg 0x0A0 ≤ a) → a ≠ glbReg 0x01C → a ≠ glbReg (0x120 + 4 * i) → T.rget a = S.rget a := by
  have hb : glbPage.block = .glb := rfl
  have hr : regAt glbPage.block (glbPage.die == 8) (0x120 + 4 * i) = some (rRW (0x120 + 4 * i) 0) := by
    have : i = 0 ∨ i = 1 ∨ i = 2 ∨ i = 3 := by omega
    rcases this with rfl | rfl | rfl | rfl <;> rfl
  have hold : S.oldValue w glbPage (0x120 + 4 * i) = S.rget (glbReg (0x120 + 4 * i)) := by
    unfold State.oldValue
    rw [hb]
    dsimp only
    rw [if_neg (by omega)]
    rfl
  obtain ⟨x, c, hd, hx⟩ : ∃ x c, draftOf S.secLocked (rRW (0x120 + 4 * i) 0).fields (S.rget (glbReg (0x120 + 4 * i))) m v =
      { value := x, changed := c } ∧ x = putBits (S.rget (glbReg (0x120 + 4 * i))) 31 0
        (bits (S.rget (glbReg (0x120 + 4 * i))) 31 0 - (bits (S.rget (glbReg (0x120 + 4 * i))) 31 0 &&& bits m 31 0) + (bits v 31 0 &&& bits m 31 0)) := by
    refine ⟨_, (false || (((bits (S.rget (glbReg (0x120 + 4 * i))) 31 0) - ((bits (S.rget (glbReg (0x120 + 4 * i))) 31 0) &&& bits m 31 0) + (bits v 31 0 &&& bits m 31 0)) != (bits (S.rget (glbReg (0x120 + 4 * i))) 31 0))), ?_, rfl⟩
    · show draftOf _ [fRW 31 0] _ _ _ = _
      unfold draftOf fRW
      simp only [List.foldl_cons, List.foldl_nil]
      unfold Draft.take
      dsimp only
      rw [if_pos (show Field.admits ⟨31, 0, .rw, []⟩ _ = true from rfl)]
  have hval : BitVec.ofNat 32 x = (BitVec.ofNat 32 (S.rget (glbReg (0x120 + 4 * i))) &&& ~~~BitVec.ofNat 32 m) ||| (BitVec.ofNat 32 v &&& BitVec.ofNat 32 m) := by
    rw [← ofNat_bits32 x, hx, bits_putBits_same]
    have e : ∀ n, BitVec.ofNat 32 (n % 2 ^ (31 + 1 - 0)) = BitVec.ofNat 32 n := by
      intro n
      apply BitVec.eq_of_toNat_eq
      simp
    rw [e, masked_word, ofNat_bits32, ofNat_bits32, ofNat_bits32]
  have hpl : plainReg glbPage (0x120 + 4 * i) := ⟨rfl, fun h => (by cases h.1), fun h => (by cases h.1)⟩
  have hxlt : x < 2 ^ 64 := by
    rw [hx]
    exact putBits_lt _ _ _ _ (State.rget_lt ..) (by decide)
  have hb2 : glbPage.base + (0x120 + 4 * i) = glbReg (0x120 + 4 * i) := (glbReg_base _).symm
  have hst := storedFor_rget S glbPage (0x120 + 4 * i) { value := x, changed := c } hpl hxlt
  have hst2 := fun a => storedFor_rget_ne S glbPage (0x120 + 4 * i) (S.rget (glbReg (0x120 + 4 * i))) a { value := x, changed := c } hpl
  have hst3 := fun K h => storedFor_blank K h S glbPage (0x120 + 4 * i) (S.rget (glbReg (0x120 + 4 * i))) { value := x, changed := c }
  rw [hb2] at hst hst2
  have hW : S.wordWrite w glbPage (0x120 + 4 * i) m v =
      { state := (if c && w.gen then (storedFor S glbPage (0x120 + 4 * i) (S.rget (glbReg (0x120 + 4 * i))) { value := x, changed := c }).advance (glbPage.base + 0x01C)
        else storedFor S glbPage (0x120 + 4 * i) (S.rget (glbReg (0x120 + 4 * i))) { value := x, changed := c }).countWrite w glbPage, code := .ok } := by
    unfold State.wordWrite
    rw [hr]
    dsimp only
    rw [if_neg (by rintro ⟨h, -⟩; cases h)]
    unfold State.regWrite
    dsimp only
    rw [show (rRW (0x120 + 4 * i) 0).off = 0x120 + 4 * i from rfl, show S.idlePage glbPage = false from rfl, hold]
    rw [show fieldsFor glbPage (rRW (0x120 + 4 * i) 0) = (rRW (0x120 + 4 * i) 0).fields from rfl, hd]
    have hnp : ¬(glbPage.block = Block.port ∧ 0x120 + 4 * i = 8) := by rintro ⟨h, -⟩; cases h
    simp only [Bool.false_and, Bool.false_eq_true, if_false, if_neg hnp]
    rw [if_neg (show ¬ 1 < onesOf 0 by decide)]
    have hj : S.judgeWrite w glbPage (0x120 + 4 * i) (S.rget (glbReg (0x120 + 4 * i))) { value := x, changed := c } = none := by
      unfold State.judgeWrite
      rw [hb]
      dsimp only
      unfold State.judgeGlb
      split
      · omega
      · omega
      · omega
      · rfl
    rw [hj]
    dsimp only
    unfold State.applyWrite
    dsimp only
    have hm : ∀ u : State, u.maskWritten glbPage (0x120 + 4 * i) (S.rget (glbReg (0x120 + 4 * i))) x = u := by
      intro u
      unfold State.maskWritten
      rw [if_neg (by rintro ⟨h, -⟩; omega)]
    rw [hm]
    have he : ∀ (u : State) (w : Writer), State.writeEffect S u w glbPage (0x120 + 4 * i) (S.rget (glbReg (0x120 + 4 * i))) { value := x, changed := c } = { state := u } := by
      intro u w
      unfold State.writeEffect
      rw [hb]
      dsimp only
      rw [if_neg (by rintro ⟨h, -⟩; omega)]
    rw [he]
    dsimp only
    rw [if_pos (Or.inl rfl)]
    rfl
  refine ⟨_, hW, ?_, ?_, ?_⟩
  · have key : ∀ (b d : Bool) (u : State), ((if b then u.advance (glbPage.base + 0x01C) else u).countWrite w glbPage).rget (glbReg (0x120 + 4 * i)) = u.rget (glbReg (0x120 + 4 * i)) := by
      intro b d u
      unfold State.countWrite
      have h1 : ∀ u : State, (if w.second then u else u.pmc glbPage.base 4 1).rget (glbReg (0x120 + 4 * i)) = u.rget (glbReg (0x120 + 4 * i)) := by
        intro u
        split
        · rfl
        · exact rget_pmc _ _ _ _ _ (Or.inr (by rw [glbReg_base]; omega))
      rw [h1]
      split
      · exact State.rget_advance_ne _ _ _ (by rw [glbReg_base]; omega)
      · rfl
    rw [key _ true, hst, hval]
  · intro K h
    unfold State.countWrite
    have h1 : ∀ u : State, (if w.second then u else u.pmc glbPage.base 4 1).blank K = u.blank K := by
      intro u
      split
      · rfl
      · exact pmc_blank K h ..
    rw [h1, ite_blank, advance_blank K h, ite_self, hst3 K h]
  · intro a h1 h2 h3
    unfold State.countWrite
    have hc : ∀ u : State, (if w.second then u else u.pmc glbPage.base 4 1).rget a = u.rget a := by
      intro u
      split
      · rfl
      · exact rget_pmc _ _ _ _ _ h1
    rw [hc]
    have h4 := hst2 a h3
    split
    · rw [State.rget_advance_ne _ _ _ (by rw [← glbReg_base]; exact h2), h4]
    · exact h4

end Sys2Proof.Machine
end

