-- ==== Sys2Proof/Laws/Walks.lean ====
section
/-! SUPPORT. Lemmas about walks over lists of ports, contexts and pages. -/

namespace Sys2Proof.Machine

theorem each_keeps {α β : Type} (g : State → β) (f : State → α → State) (h : ∀ s x, g (f s x) = g s) (l : List α) (s : State) :
    g (s.each l f) = g s := by
  induction l generalizing s with
  | nil => rfl
  | cons a l ih => exact (ih (f s a)).trans (h s a)

theorem foldl_keeps {α β : Type} (g : State → β) (f : State → α → State) (h : ∀ s x, g (f s x) = g s) (l : List α) (s : State) :
    g (l.foldl f s) = g s := by
  induction l generalizing s with
  | nil => rfl
  | cons a l ih => exact (ih (f s a)).trans (h s a)

theorem each_keeps_mem {α β : Type} (g : State → β) (f : State → α → State) (l : List α) (h : ∀ s, ∀ x ∈ l, g (f s x) = g s) (s : State) :
    g (s.each l f) = g s := by
  induction l generalizing s with
  | nil => rfl
  | cons a l ih => exact (ih (fun s x hx => h s x (List.mem_cons_of_mem _ hx)) (f s a)).trans (h s a (by simp))

/-- The walk does to what is read of one member what that member's own visit does. -/
theorem each_one {α β : Type} (g : State → β) (f : State → α → State) (l : List α) (hn : l.Nodup) (m : α) (hm : m ∈ l)
    (h : ∀ s, ∀ x ∈ l, x ≠ m → g (f s x) = g s) (s : State) : ∃ u, g u = g s ∧ g (s.each l f) = g (f u m) := by
  obtain ⟨l1, l2, rfl⟩ := List.append_of_mem hm
  rw [List.nodup_append] at hn
  obtain ⟨-, hn2, hd⟩ := hn
  rw [List.nodup_cons] at hn2
  refine ⟨s.each l1 f, ?_, ?_⟩
  · exact each_keeps_mem g f l1 (fun s x hx => h s x (List.mem_append_left _ hx) (fun e => hd x hx m (by simp) e)) s
  · have e1 : s.each (l1 ++ m :: l2) f = (f (s.each l1 f) m).each l2 f := by
      show (l1 ++ m :: l2).foldl f s = _
      rw [List.foldl_append]
      rfl
    rw [e1]
    exact each_keeps_mem g f l2 (fun s x hx => h s x (by simp [hx]) (fun e => hn2.1 (e ▸ hx))) _

theorem port_of_sw {s t : State} (h : t.sw = s.sw) (p : Nat) : t.port p = s.port p := by
  unfold State.port
  rw [h]

theorem ctx_of_col {s t : State} (h : t.col = s.col) (c : Nat) : t.ctx c = s.ctx c := by
  unfold State.ctx
  rw [h]

theorem gate_ok (q : Req) (op : Nat) (h : q.hcp1 = false ∨ hcp1Lacks op = false) : (Gate.mk true true true).refuses q op = none := by
  unfold Gate.refuses
  rcases h with h | h <;> simp [h]

/-- A request that is taken up and admitted, and whose answer comes later. -/
theorem serve_deferred {s u : State} {q : Req} {op : Nat} {body : Bytes} (h : TakenUp s q op body)
    (gate : State → Gate) (run : State → InFlight → State × Option Answer)
    (hg : (gate (taken s q op body)).refuses q op = none)
    (hr : run (taken s q op body) (flightOf q op body) = (u, none)) (hpen : u.pending = s.pending) :
    ∃ t, done s (s.serve q op body gate run) = .next t ∧ Leaves t u ∧ t.mgmt = u.mgmt ∧ t.out = u.out ∧ ∀ x, t.rget x = u.rget x := by
  rw [serve_taken h gate run hg, hr]
  refine ⟨_, rfl, ?_, rfl, rfl, fun _ => rfl⟩
  intro K h1 h2 h3
  have : ({ settle u with pending := s.pending } : State) = { settle u with pending := u.pending } := by rw [hpen]
  dsimp only
  rw [this]
  exact settle_blank K _

/-- A part of a long image that is not the whole: it is kept, and DETAIL says how much of it is here. -/
theorem segment_part (s : State) (q : Req) (op : Nat) (g : Segment) (start : State → Bytes → State × Option Answer)
    (hn : s.transfer (ownerOf q) op g.transfer = none) (h2 : (s.mgmt.transfers.filter fun t => t.port == q.port).length < 2)
    (hlt : g.data.length < g.totalLen.toNat) :
    (taken s q op (Segment.body g)).takeSegment q op g start =
      (((taken s q op (Segment.body g)).closeTransfer (ownerOf q) op g.transfer).setMgmt fun m => { m with transfers := m.transfers ++
        [{ owner := ownerOf q, port := q.port, opcode := op, id := g.transfer, target := g.target.toNat, total := g.totalLen.toNat, parts := [(g.offset.toNat, g.data)], lastUp := (taken s q op (Segment.body g)).clk.up }] },
      some { code := .ok, detail := g.data.length }) := by
  have e0 : (taken s q op (Segment.body g)).mgmt.transfers = s.mgmt.transfers := by
    show (s.accept _).mgmt.transfers = _
    unfold State.accept
    dsimp only
    split <;> rfl
  have e1 : (taken s q op (Segment.body g)).transfer (ownerOf q) op g.transfer = none := by
    unfold State.transfer
    rw [e0]
    exact hn
  generalize taken s q op (Segment.body g) = S at e0 e1
  unfold State.takeSegment
  dsimp only
  rw [e1]
  dsimp only
  rw [e0, if_neg (by omega)]
  have hh : (Transfer.held { owner := ownerOf q, port := q.port, opcode := op, id := g.transfer, target := g.target.toNat, total := g.totalLen.toNat, parts := [(g.offset.toNat, g.data)], lastUp := S.clk.up }) = g.data.length := Nat.zero_add _
  show (if Transfer.held { owner := ownerOf q, port := q.port, opcode := op, id := g.transfer, target := g.target.toNat, total := g.totalLen.toNat, parts := [(g.offset.toNat, g.data)], lastUp := S.clk.up } = g.totalLen.toNat then _ else
    (_, some ({ code := .ok, detail := Transfer.held { owner := ownerOf q, port := q.port, opcode := op, id := g.transfer, target := g.target.toNat, total := g.totalLen.toNat, parts := [(g.offset.toNat, g.data)], lastUp := S.clk.up } } : Answer))) = _
  rw [hh, if_neg (Nat.ne_of_lt hlt)]
  rfl

/-- A long image that one segment holds whole goes to its operation. -/
theorem segment_whole (s : State) (q : Req) (op : Nat) (g : Segment) (start : State → Bytes → State × Option Answer)
    (hn : s.transfer (ownerOf q) op g.transfer = none) (h2 : (s.mgmt.transfers.filter fun t => t.port == q.port).length < 2)
    (hlt : g.data.length = g.totalLen.toNat) :
    (taken s q op (Segment.body g)).takeSegment q op g start =
      start ((taken s q op (Segment.body g)).closeTransfer (ownerOf q) op g.transfer) g.data := by
  have e0 : (taken s q op (Segment.body g)).mgmt.transfers = s.mgmt.transfers := by
    show (s.accept _).mgmt.transfers = _
    unfold State.accept
    dsimp only
    split <;> rfl
  have e1 : (taken s q op (Segment.body g)).transfer (ownerOf q) op g.transfer = none := by
    unfold State.transfer
    rw [e0]
    exact hn
  generalize taken s q op (Segment.body g) = S at e0 e1
  unfold State.takeSegment
  dsimp only
  rw [e1]
  dsimp only
  rw [e0, if_neg (by omega)]
  have hh : (Transfer.held { owner := ownerOf q, port := q.port, opcode := op, id := g.transfer, target := g.target.toNat, total := g.totalLen.toNat, parts := [(g.offset.toNat, g.data)], lastUp := S.clk.up }) = g.data.length := Nat.zero_add _
  have hi : (Transfer.image { owner := ownerOf q, port := q.port, opcode := op, id := g.transfer, target := g.target.toNat, total := g.totalLen.toNat, parts := [(g.offset.toNat, g.data)], lastUp := S.clk.up }) = g.data := List.append_nil _
  show (if Transfer.held { owner := ownerOf q, port := q.port, opcode := op, id := g.transfer, target := g.target.toNat, total := g.totalLen.toNat, parts := [(g.offset.toNat, g.data)], lastUp := S.clk.up } = g.totalLen.toNat then
    start _ (Transfer.image { owner := ownerOf q, port := q.port, opcode := op, id := g.transfer, target := g.target.toNat, total := g.totalLen.toNat, parts := [(g.offset.toNat, g.data)], lastUp := S.clk.up }) else _) = _
  rw [hh, hi, if_pos hlt]

theorem taken_admin (s : State) (q : Req) (op : Nat) (b : Bytes) : (taken s q op b).isAdmin q = s.isAdmin q := by
  unfold taken State.isAdmin
  rw [accept_role]

theorem taken_stage (s : State) (q : Req) (op : Nat) (b : Bytes) : (taken s q op b).serveStage = s.serveStage := accept_serveStage ..

end Sys2Proof.Machine
end

