-- ==== Sys2Proof/Laws/Steps.lean ====
section
/-! SUPPORT. Lemmas about any step. -/

namespace Sys2Proof.Machine

theorem done_ok (s u : State) : ∃ t, done s u = .next t ∧ t.pending = s.pending := ⟨_, rfl, rfl⟩

theorem all_true : ∀ p : Part, decide (p ∈ ([.regs, .hbm, .clk, .cal, .sw, .tbl, .pho, .mgmt, .fuse, .col, .twin, .aer, .flt, .dump, .sys, .out] : List Part)) = true := by
  intro p; cases p <;> rfl

theorem any_part {s t : State} (h : t.pending = s.pending) :
    OnlyTouches [.regs, .hbm, .clk, .cal, .sw, .tbl, .pho, .mgmt, .fuse, .col, .twin, .aer, .flt, .dump, .sys, .out] s t :=
  ⟨h, fun p hp => absurd (of_decide_eq_true (all_true p)) hp⟩

end Sys2Proof.Machine
end

