-- ==== Sys2Proof/Laws/Hbm.lean ====
section
/-! SUPPORT. Lemmas about HBM over a step. -/

namespace Sys2Proof.Machine

theorem done_settled {s u t : State} (h : done s u = .next t) : Settled t := by
  unfold done at h
  injection h with h
  rw [← h]
  exact ⟨rfl, rfl, rfl⟩

theorem done_hbm {s u t : State} (h : done s u = .next t) (hu : s.canonical → u.canonical) (hs : s.canonical) : t.canonical := by
  unfold done at h
  injection h with h
  rw [← h]
  exact hu hs

theorem coldReset_hbm (s : State) (st : BitVec 3) (n : Nat) (b : Bool) (hs : s.canonical) : (s.coldReset st n b).canonical :=
  filter_wf _ _ hs

theorem warmReset_hbm (s : State) (hs : s.canonical) : s.warmReset.canonical := by
  unfold State.warmReset
  dsimp only
  have h0 : ∀ (T X : State), X.hbm = hbmFrom 126 s.hbm → T = X → T.canonical := by
    intro T X hX h
    unfold State.canonical
    rw [h, hX]
    exact filter_wf _ _ hs
  split
  · refine (canonical_of_hbm (State.alarmPlain_hbm ..)).mpr ?_
    exact h0 _ _ rfl rfl
  · exact h0 _ _ rfl rfl

theorem twinRx_hbm (s : State) (a : Nat) (fr : Bytes) (f : State → Bytes → State) (hf : ∀ s p, s.canonical → (f s p).canonical)
    (hs : s.canonical) : (s.twinRx a fr f).canonical := by
  unfold State.twinRx
  split
  · dsimp only
    have h1 := (canonical_of_blank (pmc_blank notHbm rfl s (twinReg 0) 0x101 fr.length)).mpr hs
    split
    · exact hf _ _ h1
    · exact h1
  · exact hs

theorem tickPass_hbm (s : State) (hs : s.canonical) : (tickPass s).canonical := by
  have h1 : ((if s.fatal then s else s.countGrants).advanceClocks.countCycles s.clk.fcBase).canonical := by
    refine (canonical_of_blank (countCycles_blank notHbm rfl _ _)).mpr ((canonical_of_blank (advanceClocks_blank notHbm rfl _)).mpr ?_)
    exact ite_hbm _ _ _ hs ((canonical_of_blank (countGrants_blank notHbm rfl rfl s)).mpr hs)
  unfold tickPass
  dsimp only
  generalize ((if s.fatal then s else s.countGrants).advanceClocks.countCycles s.clk.fcBase) = u at h1 ⊢
  show (if u.warmDue then u.warmReset else if u.fatal then u else u.boundary).canonical
  refine ite_hbm _ _ _ (warmReset_hbm u h1) (ite_hbm _ _ _ h1 ?_)
  exact (canonical_of_blank (boundary_blank notHbm rfl rfl rfl rfl rfl rfl rfl rfl rfl rfl rfl rfl rfl  u)).mpr h1

end Sys2Proof.Machine
end

