-- ==== Sys2Proof/Laws/Passing.lean ====
section
/-! SUPPORT. Lemmas about ticks that pass, sums and reset values. -/

namespace Sys2Proof.Machine

theorem column_add_comm (c : Column) (x y : Val) : (c.add x).add y = (c.add y).add x := by
  cases c
  rcases x with _ | (_ | _) | ⟨n, s, e⟩ <;> rcases y with _ | (_ | _) | ⟨m, u, f⟩ <;> simp [Column.add] <;> try omega
  exact ⟨by omega, by cases n <;> cases m <;> cases s == 0 <;> cases u == 0 <;> simp⟩

theorem column_add_acc (c : Column) (n : Bool) (s : Nat) (e : Int) : (c.add (.fin n s e)).acc = c.acc + accTerm (.fin n s e) := rfl

theorem column_fold_acc (ps : List Val) (c : Column) (h : ∀ p ∈ ps, ∃ n s e, p = Val.fin n s e) :
    (ps.foldl Column.add c).acc = c.acc + (ps.map accTerm).sum := by
  induction ps generalizing c with
  | nil => simp
  | cons x r ih =>
    obtain ⟨n, s, e, rfl⟩ := h x (by simp)
    rw [List.foldl_cons, ih _ fun p hp => h p (by simp [hp]), column_add_acc]
    simp; omega

theorem tempAlert_iff (t : State) (h : Settled t) :
    t.sys.tempAlertN = false ↔ (∃ d, d < 4 ∧ t.bget (fdReg d 0x010) 16 = true) ∨ t.sys.tripped = true := by
  rw [h.2.1, Bool.not_eq_false']
  simp only [Bool.or_eq_true]
  constructor
  · rintro ((((h | h) | h) | h) | h)
    · exact .inl ⟨0, by omega, h⟩
    · exact .inl ⟨1, by omega, h⟩
    · exact .inl ⟨2, by omega, h⟩
    · exact .inl ⟨3, by omega, h⟩
    · exact .inr h
  · rintro (⟨d, hd, h⟩ | h)
    · have : d = 0 ∨ d = 1 ∨ d = 2 ∨ d = 3 := by omega
      rcases this with rfl | rfl | rfl | rfl
      · exact .inl (.inl (.inl (.inl h)))
      · exact .inl (.inl (.inl (.inr h)))
      · exact .inl (.inl (.inr h))
      · exact .inl (.inr h)
    · exact .inr h

theorem countCycles_clk (s : State) (n : Nat) : (s.countCycles n).clk = s.clk := by
  have h := congrArg State.clk (countCycles_blank (fun p => decide (p ∈ [Part.regs])) (by decide) s n)
  exact h

theorem countCycles_other (s : State) (n : Nat) : (s.countCycles n).sys.warmPending = s.sys.warmPending ∧ (s.countCycles n).fatal = s.fatal := by
  have h := countCycles_blank (fun p => decide (p ∈ [Part.regs])) (by decide) s n
  exact ⟨(congrArg (fun s : State => s.sys.warmPending) h :), (congrArg (fun s : State => s.dump.fatal.isSome) h :)⟩

/-- The reset value of a register of an existing page. -/
theorem resetOf_page (p : Page) (o : Nat) (hd : p.die < 15) (hi : p.inst < 256) (ho : o < 4096) (he : p.exists_ = true) :
    resetOf (p.base + o) = match regAt p.block (p.die == 8) o with
      | some r => r.reset
      | none => 0 := by
  unfold resetOf
  have hl := base_lt p o hd hi ho
  rw [if_neg (show ¬ 2 ^ 32 ≤ p.base + o by omega), pageOf_base p o (by omega) hi ho he, base_off p o ho]
  all_goals rfl

theorem reset_rget (a : Nat) : State.reset.rget a = resetOf a := rfl

theorem die_port (p : PortNo) : (p.val / 256 == 8) = false := by
  have := p.isLt
  simp; omega

theorem reset_portReg (p : PortNo) (o : Nat) (ho : o < 4096) :
    State.reset.rget (portReg p.val o) = match regAt .port false o with
      | some r => r.reset
      | none => 0 := by
  have hp := p.isLt
  rw [reset_rget, portReg_base, resetOf_page (portPage p.val) o (by unfold portPage; dsimp only; omega)
    (by unfold portPage; dsimp only; omega) ho (portPage_exists hp)]
  unfold portPage
  dsimp only
  rw [die_port]

theorem reset_calReg (p : PortNo) (o : Nat) (ho : o < 4096) :
    State.reset.rget (calReg p.val o) = match regAt .cal false o with
      | some r => r.reset
      | none => 0 := by
  have hp := p.isLt
  rw [reset_rget, calReg_base, resetOf_page (calPage p.val) o (by unfold calPage; dsimp only; omega)
    (by unfold calPage; dsimp only; omega) ho (calPage_exists hp)]
  unfold calPage
  dsimp only
  rw [die_port]

theorem reset_ctxReg (c : CtxNo) (o : Nat) (ho : o < 4096) :
    State.reset.rget (ctxReg c.val o) = match regAt .ctx true o with
      | some r => r.reset
      | none => 0 := by
  have hp := c.isLt
  rw [reset_rget, ctxReg_base, resetOf_page (ctxPage c.val) o (by unfold ctxPage; dsimp only; omega)
    (by unfold ctxPage; dsimp only; omega) ho (ctxPage_exists hp)]
  rfl

theorem reset_engReg (e : EngineNo) (o : Nat) (ho : o < 4096) :
    State.reset.rget (engReg e.val o) = match regAt .eng false o with
      | some r => r.reset
      | none => 0 := by
  have hp := e.isLt
  rw [reset_rget, engReg_base, resetOf_page (engPage e.val) o (by unfold engPage; dsimp only; omega)
    (by unfold engPage; dsimp only; omega) ho (engPage_exists hp)]
  unfold engPage
  dsimp only
  rw [show (e.val / 32 == 8) = false by simp; omega]

end Sys2Proof.Machine
end

