-- ==== Sys2Proof/Laws/Access.lean ====
section
/-! SUPPORT. Lemmas about register accesses. -/

namespace Sys2Proof.Machine

theorem glb120_addr (i : Nat) (hi : i < 4) : (BitVec.ofNat 32 (glbReg (0x120 + 4 * i))).toNat = glbReg (0x120 + 4 * i) := by
  rw [BitVec.toNat_ofNat, Nat.mod_eq_of_lt]
  unfold glbReg
  norm_num
  omega

theorem glb120_page (i : Nat) (hi : i < 4) : pageOf (glbReg (0x120 + 4 * i)) = some glbPage ∧ glbReg (0x120 + 4 * i) % 4096 = 0x120 + 4 * i ∧
    glbReg (0x120 + 4 * i) % 4 = 0 ∧ glbReg (0x120 + 4 * i) < 4026531840 := by
  have h := pageOf_base glbPage (0x120 + 4 * i) (by decide) (by decide) (by omega) rfl
  rw [← glbReg_base] at h
  unfold glbReg at h ⊢
  exact ⟨h, by omega, by omega, by omega⟩

/-- A write of a word of HCP_IPV6 through the page. -/
theorem ipv6_at (S : State) (w : Writer) (i m v : Nat) (hi : i < 4) (hh : S.pageHung glbPage = false) (hm : m < 2 ^ 32) :
    ∃ T, S.writeAt w (glbReg (0x120 + 4 * i)) 1 m v = { state := T, code := .ok }
      ∧ BitVec.ofNat 32 (T.rget (glbReg (0x120 + 4 * i))) =
        (BitVec.ofNat 32 (S.rget (glbReg (0x120 + 4 * i))) &&& ~~~BitVec.ofNat 32 m) ||| (BitVec.ofNat 32 v &&& BitVec.ofNat 32 m)
      ∧ (∀ K : Part → Bool, K .regs = true → K .mgmt = true → T.blank K = S.blank K)
      ∧ (∀ a, (a < glbReg 0x060 ∨ glbReg 0x0A0 ≤ a) → a ≠ glbReg 0x01C → a ≠ glbReg (0x120 + 4 * i) → T.rget a = S.rget a)
      ∧ T.mgmt = (S.acked glbPage).mgmt := by
  obtain ⟨h1, h2, h3, h4⟩ := glb120_page i hi
  obtain ⟨T, hT, hv, hb, hr⟩ := ipv6_write (S.acked glbPage) w i (m % 2 ^ 32) (v % 2 ^ 32) hi
  have hmod : ∀ x : Nat, BitVec.ofNat 32 (x % 2 ^ 32) = BitVec.ofNat 32 x := by
    intro x
    apply BitVec.eq_of_toNat_eq
    simp
  refine ⟨T, ?_, ?_, ?_, ?_, ?_⟩
  · unfold State.writeAt
    rw [targetPages_narrow h1 h4]
    dsimp only
    unfold State.writeOn
    rw [hh]
    simp only [Bool.false_eq_true, if_false]
    unfold State.accessWrite
    rw [if_neg (by decide), h2, hT]
  · rw [hv, hmod, hmod]
    rfl
  · intro K k1 k2
    rw [hb K k1, acked_blank K k2]
  · intro a a1 a2 a3
    rw [hr a a1 a2 a3]
    rfl
  · exact (onlyTouches_of_blank (l := [.regs]) (hb _ (by decide))).2 .mgmt (by decide)

theorem clearRc_glb (S : State) (i : Nat) (hi : i < 4) : S.clearRc glbPage (0x120 + 4 * i) = S := by
  have : i = 0 ∨ i = 1 ∨ i = 2 ∨ i = 3 := by omega
  rcases this with rfl | rfl | rfl | rfl <;> rfl

theorem wordView_glb (S : State) (m : MPort) (i : Nat) (hi : i < 4) : S.wordView m glbPage (0x120 + 4 * i) = S.rget (glbReg (0x120 + 4 * i)) % 2 ^ 32 := by
  have : i = 0 ∨ i = 1 ∨ i = 2 ∨ i = 3 := by omega
  rcases this with rfl | rfl | rfl | rfl <;> rfl

theorem pageHung_glb (S : State) : S.pageHung glbPage = S.mgmt.hung.contains (glbReg 0) := rfl

theorem acked_hung (S : State) (p : Page) : (S.acked p).mgmt.hung = S.mgmt.hung := rfl

theorem taken_hung (s : State) (q : Req) (op : Nat) (b : Bytes) : (taken s q op b).mgmt.hung = s.mgmt.hung := accept_hung ..

theorem taken_rget (s : State) (q : Req) (op : Nat) (b : Bytes) (a : Nat) : (taken s q op b).rget a = s.rget a :=
  State.rget_congr ((onlyTouches_of_blank (l := [.mgmt]) (taken_blank _ (by decide) s q op b)).2 .regs (by decide)) a

theorem leaves_pending {S T s : State} (hb : ∀ K : Part → Bool, K .regs = true → K .mgmt = true → T.blank K = S.blank K)
    (hS : S.pending = s.pending) : T.pending = s.pending := by
  have := congrArg State.pending (hb (fun _ => true) rfl rfl)
  exact this.trans hS

theorem taken_pending (s : State) (q : Req) (op : Nat) (b : Bytes) : (taken s q op b).pending = s.pending := by
  have h := congrArg State.pending (taken_blank (fun _ => true) rfl s q op b)
  exact h

/-- A run of words of HCP_IPV6. -/
theorem ipv6_words (w : Writer) (words : List Word) : ∀ (i k : Nat) (S : State), i + words.length ≤ 4 → S.mgmt.hung.contains (glbReg 0) = false →
    ∃ T, State.writeWords w (glbReg (0x120 + 4 * i)) k words S = { state := T, code := .ok }
      ∧ (∀ (j : Nat) (h : j < words.length), BitVec.ofNat 32 (T.rget (glbReg (0x120 + 4 * (i + j)))) = words[j])
      ∧ (∀ j, j < i → T.rget (glbReg (0x120 + 4 * j)) = S.rget (glbReg (0x120 + 4 * j)))
      ∧ (∀ K : Part → Bool, K .regs = true → K .mgmt = true → T.blank K = S.blank K)
      ∧ T.mgmt.inFlight = S.mgmt.inFlight ∧ (∀ m, T.portUp m = S.portUp m) := by
  induction words with
  | nil =>
    intro i k S _ _
    exact ⟨S, rfl, fun j h => absurd h (by simp), fun _ _ => rfl, fun _ _ _ => rfl, rfl, fun _ => rfl⟩
  | cons v r ih =>
    intro i k S hl hh
    rw [List.length_cons] at hl
    obtain ⟨T, hT, hv, hb, hr, hm⟩ := ipv6_at S w i (2 ^ 32 - 1) v.toNat (by omega) (by rw [pageHung_glb]; exact hh) (by norm_num)
    obtain ⟨U, hU, hvs, hlo, hbU, hin, hup⟩ := ih (i + 1) (k + 1) T (by omega) (by rw [hm]; exact hh)
    refine ⟨U, ?_, ?_, ?_, ?_, ?_, ?_⟩
    · unfold State.writeWords
      rw [hT]
      dsimp only
      rw [if_pos rfl, show glbReg (0x120 + 4 * i) + 4 = glbReg (0x120 + 4 * (i + 1)) by unfold glbReg; omega, hU]
    · intro j hj
      cases j with
      | zero =>
        rw [Nat.add_zero, hlo i (by omega), hv]
        show _ = v
        apply BitVec.eq_of_toNat_eq
        have hv' := v.isLt
        have e : BitVec.ofNat 32 (2 ^ 32 - 1) = BitVec.allOnes 32 := rfl
        rw [e]
        simp only [BitVec.not_allOnes, BitVec.and_zero, BitVec.zero_or, BitVec.and_allOnes]
        rw [BitVec.ofNat_toNat, BitVec.setWidth_eq]
      | succ j =>
        rw [show i + (j + 1) = i + 1 + j by omega, hvs j (by simpa using hj)]
        rfl
    · intro j hj
      rw [hlo j (by omega), hr _ (Or.inr (by unfold glbReg; omega)) (by unfold glbReg; omega) (by unfold glbReg; omega)]
    · intro K k1 k2
      rw [hbU K k1 k2, hb K k1 k2]
    · rw [hin, hm]; rfl
    · intro m
      rw [hup]
      unfold State.portUp
      rw [hm]
      rfl

theorem bulkFits_glb (q : Req) (n : Nat) (b : Bool) (h1 : 1 ≤ n) (h4 : n ≤ 4) : bulkFits q (glbReg 0x120) n b = true := by
  have e : n = 1 ∨ n = 2 ∨ n = 3 ∨ n = 4 := by omega
  have hq : n ≤ maxBulk q := by
    unfold maxBulk
    split <;> omega
  unfold bulkFits
  rw [decide_eq_true h1, decide_eq_true hq]
  rcases e with rfl | rfl | rfl | rfl <;> cases b <;> rfl

theorem read_words (m : MPort) (b : Bool) (n : Nat) : ∀ (i : Nat) (S : State) (out : Bytes), i + n ≤ 4 → S.mgmt.hung.contains (glbReg 0) = false →
    ∃ T, State.readWords m b (glbReg (0x120 + 4 * i)) n S out =
        (T, { code := .ok, body := out ++ (List.range' i n).flatMap fun j => beBytes 4 (S.rget (glbReg (0x120 + 4 * j)) % 2 ^ 32) })
      ∧ (∀ K : Part → Bool, K .mgmt = true → T.blank K = S.blank K)
      ∧ T.mgmt.inFlight = S.mgmt.inFlight ∧ ∀ m, T.portUp m = S.portUp m := by
  induction n with
  | zero =>
    intro i S out _ _
    refine ⟨S, ?_, fun _ _ => rfl, rfl, fun _ => rfl⟩
    simp [State.readWords]
  | succ n ih =>
    intro i S out hl hh
    obtain ⟨T, hT, hb, hin, hup⟩ := ih (i + 1) (S.acked glbPage) (out ++ beBytes 4 (S.rget (glbReg (0x120 + 4 * i)) % 2 ^ 32)) (by omega) hh
    obtain ⟨h1, h2, h3, h4⟩ := glb120_page i (by omega)
    refine ⟨T, ?_, ?_, ?_, ?_⟩
    · unfold State.readWords
      rw [h1]
      dsimp only
      rw [pageHung_glb, hh]
      simp only [Bool.false_eq_true, if_false]
      unfold State.readWord
      rw [h2]
      have hc : (if b then (S.acked glbPage).clearRc glbPage (0x120 + 4 * i) else S.acked glbPage) = S.acked glbPage := by
        rw [clearRc_glb _ _ (by omega), ite_self]
      dsimp only
      rw [hc, wordView_glb _ _ _ (by omega), show glbReg (0x120 + 4 * i) + 4 = glbReg (0x120 + 4 * (i + 1)) by unfold glbReg; omega]
      have hT' := hT
      rw [show (S.acked glbPage).rget (glbReg (0x120 + 4 * i)) = S.rget (glbReg (0x120 + 4 * i)) from rfl]
      rw [hT', List.range'_succ, List.flatMap_cons, List.append_assoc]
      rfl
    · intro K k1
      rw [hb K k1, acked_blank K k1]
    · rw [hin]; rfl
    · intro m
      rw [hup]
      cases m <;> rfl

end Sys2Proof.Machine
end

