-- ==== Sys2Proof/Laws/Sessions.lean ====
section
/-! SUPPORT. Lemmas about sessions, transfers and dumps. -/

namespace Sys2Proof.Machine

theorem taken_pend (s : State) (q : Req) (op : Nat) (b : Bytes) : (taken s q op b).pending = s.pending :=
  (onlyTouches_of_blank (l := [.mgmt]) (taken_blank _ (by decide) s q op b)).1

theorem sendReply_sessions (s : State) (q : Req) (op : Nat) (a : Answer) (c : Bool) (P : Session → Prop) (hP : ∀ x n u cl, P x → (x.closing = true → cl = true) → P { x with nextRep := n, lastUp := u, closing := cl })
    (h : ∀ x ∈ s.mgmt.sessions, P x) : ∀ x ∈ (s.sendReply q op a c).mgmt.sessions, P x := by
  have h1 : ∀ b : Bytes, (if s.portUp q.port then s.send (.reply q.port q.via b) else s.glbCtr .replyLost).mgmt = s.mgmt := by
    intro b
    split <;> rfl
  unfold State.sendReply
  dsimp only
  split
  · intro x hx
    have hx' : x ∈ (List.map _ (State.mgmt (if s.portUp q.port then _ else _)).sessions) := hx
    rw [h1] at hx'
    obtain ⟨y, hy, rfl⟩ := List.mem_map.mp hx'
    split
    · exact hP y _ _ _ (h y hy) (fun hc => by rw [hc]; rfl)
    · exact h y hy
  · rw [h1]
    exact h

theorem reply_sessions (s : State) (f : InFlight) (a : Answer) (P : Session → Prop) (hP : ∀ x n u cl, P x → (x.closing = true → cl = true) → P { x with nextRep := n, lastUp := u, closing := cl })
    (h : ∀ x ∈ s.mgmt.sessions, P x) : ∀ x ∈ (s.reply f a).mgmt.sessions, P x := by
  unfold State.reply
  split
  · intro x hx
    have h1 := sendReply_sessions (s.cacheReply f a) f.req f.opcode a false P hP h
    exact h1 x (List.mem_filter.mp hx).1
  · exact h

theorem find_filter_none {α : Type} (l : List α) (P : α → Bool) : (l.filter fun x => !P x).find? P = none := by
  rw [List.find?_eq_none]
  intro x hx
  have := (List.mem_filter.mp hx).2
  simpa using this

theorem taken_transfers (s : State) (q : Req) (op : Nat) (b : Bytes) : (taken s q op b).mgmt.transfers = s.mgmt.transfers := by
  unfold taken State.accept State.setSession State.setMgmt
  dsimp only
  split <;> rfl

theorem sendReply_keeps (s : State) (q : Req) (op : Nat) (a : Answer) (c : Bool) (x : Session) (hx : x ∈ s.mgmt.sessions) (hne : x.id ≠ q.session) :
    x ∈ (s.sendReply q op a c).mgmt.sessions := by
  have h1 : ∀ b : Bytes, (if s.portUp q.port then s.send (.reply q.port q.via b) else s.glbCtr .replyLost).mgmt = s.mgmt := by
    intro b
    split <;> rfl
  unfold State.sendReply
  dsimp only
  split
  · show x ∈ (List.map _ (State.mgmt (if s.portUp q.port then _ else _)).sessions)
    rw [h1]
    refine List.mem_map.mpr ⟨x, hx, ?_⟩
    rw [if_neg (by simpa using hne)]
  · rw [h1]
    exact hx

theorem reply_keeps (s : State) (f : InFlight) (a : Answer) (x : Session) (hx : x ∈ s.mgmt.sessions) (hne : x.id ≠ f.req.session) (hc : x.closing = false) :
    x ∈ (s.reply f a).mgmt.sessions := by
  unfold State.reply
  split
  · exact List.mem_filter.mpr ⟨sendReply_keeps (s.cacheReply f a) f.req f.opcode a false x hx hne, by simp [hc]⟩
  · exact hx

theorem fresh_ne (s : State) : BitVec.ofNat 32 s.freshSession ≠ 0 := by
  have h : 1 ≤ s.freshSession ∧ s.freshSession < 4294967296 := by
    unfold State.freshSession
    cases hf : (List.find? (fun n => (s.session (BitVec.ofNat 32 n)).isNone) ((List.range 64).map fun i => (s.mgmt.nextSession - 1 + i) % (2 ^ 32 - 1) + 1)) with
    | none => exact ⟨by decide, by decide⟩
    | some n =>
      have := List.mem_of_find?_eq_some hf
      obtain ⟨i, hi, rfl⟩ := List.mem_map.mp this
      have h2 := Nat.mod_lt (s.mgmt.nextSession - 1 + i) (show 2 ^ 32 - 1 > 0 by norm_num)
      simp only [Option.getD_some]
      generalize (s.mgmt.nextSession - 1 + i) % (2 ^ 32 - 1) = k at h2 ⊢
      norm_num at h2
      exact ⟨by omega, by omega⟩
  intro h0
  have := congrArg BitVec.toNat h0
  rw [BitVec.toNat_ofNat, Nat.mod_eq_of_lt (by norm_num; exact h.2)] at this
  have h3 : (0 : BitVec 32).toNat = 0 := rfl
  omega

theorem openNow_fail (S : State) (q : Req) (slot : Nat) (admin : Bool) (body eph nonce sig : Bytes)
    (hk : ¬ ((S.keySlot false slot).state ≠ .enrolled ∨ (admin = true ∧ (!(S.keySlot false slot).admin) = true)))
    (hv : edVerify (S.keySlot false slot).key (ascii "HCP2OPEN" ++ beBytes 8 chipId ++ body.take 68) sig = true)
    (h8 : (S.mgmt.sessions.filter fun x => x.port == q.port && !x.closing).length < 8) (hz : x25519 S.draw.2 eph = zeros 32) :
    S.openNow q slot admin body eph nonce sig = (S.draw.1.draw.1).openFails slot := by
  unfold State.openNow
  dsimp only
  rw [if_neg hk, hv, if_neg (by simp), if_neg (by omega), if_pos hz]

theorem openNow_ok (S : State) (q : Req) (slot : Nat) (admin : Bool) (body eph nonce sig : Bytes)
    (hk : ¬ ((S.keySlot false slot).state ≠ .enrolled ∨ (admin = true ∧ (!(S.keySlot false slot).admin) = true)))
    (hv : edVerify (S.keySlot false slot).key (ascii "HCP2OPEN" ++ beBytes 8 chipId ++ body.take 68) sig = true)
    (h8 : (S.mgmt.sessions.filter fun x => x.port == q.port && !x.closing).length < 8) (hz : ¬ x25519 S.draw.2 eph = zeros 32) :
    ∃ bd x u, S.openNow q slot admin body eph nonce sig = (u, some { code := .ok, body := bd })
        ∧ (x.id = BitVec.ofNat 32 (S.draw.1.draw.1).freshSession ∧ x.port = q.port ∧ x.slot = slot ∧ x.admin = admin ∧ x.closing = false)
        ∧ u.mgmt.inFlight = S.mgmt.inFlight ∧ u.portUp q.port = S.portUp q.port ∧ u.out = S.out ∧ u.pending = S.pending ∧ x ∈ u.mgmt.sessions := by
  unfold State.openNow
  dsimp only
  rw [if_neg hk, hv, if_neg (by simp), if_neg (by omega), if_neg hz]
  generalize x25519 S.draw.2 eph = z
  generalize x25519Base S.draw.2 = e
  generalize edSign identityKey = f
  exact ⟨_, { id := BitVec.ofNat 32 S.draw.1.draw.1.freshSession, port := q.port, slot := slot, admin := admin, kReq := hmac512 z (ascii "HCP2 REQ" ++ (beBytes 4 S.draw.1.draw.1.freshSession ++ nonce ++ S.draw.1.draw.2)), kRep := hmac512 z (ascii "HCP2 REP" ++ (beBytes 4 S.draw.1.draw.1.freshSession ++ nonce ++ S.draw.1.draw.2)), lastUp := S.draw.1.draw.1.clk.up }, _, rfl, ⟨rfl, rfl, rfl, rfl, rfl⟩, rfl, by cases q.port <;> rfl, rfl, rfl, List.mem_append_right _ (List.mem_singleton.mpr rfl)⟩

end Sys2Proof.Machine
end

