-- ==== Sys2Proof/Laws/Security.lean ====
section
/-! SUPPORT. Lemmas about the SEC page. -/

namespace Sys2Proof.Machine

theorem keyFails_readied (s : State) (q : Req) (addr v : Nat) (p : Page) (b : Bool) :
    (readied s q addr v p).keyFails (writerOf s q addr v) b = s.keyFails (s.writer q none) b := by
  have h1 : (writerOf s q addr v).secure = (s.writer q none).secure := by
    unfold writerOf State.writer taken
    simp only [accept_role]
  have h2 : (writerOf s q addr v).loose = (s.writer q none).loose := by
    unfold writerOf State.writer taken
    simp only [accept_role]
  rw [readied_eq]
  unfold State.keyFails
  rw [h1, h2]
  rfl

end Sys2Proof.Machine
end

