-- ==== Sys2Proof/Laws/Services.lean ====
section
/-! SUPPORT. Lemmas about CAL, KITE, ELS, TICK, DUMP and TWIN commands. -/

namespace Sys2Proof.Machine

theorem sendHello_twin (s : State) : s.sendHello.twin = { s.twin with helloUp := s.sendHello.twin.helloUp } := by
  unfold State.sendHello
  have h : ∀ (t : State) (a : Nat) (b : Bytes), (t.twinSend a b).twin = t.twin := fun t a b =>
    (onlyTouches_of_blank (l := [.regs, .out]) (twinSend_blank _ (by decide) (by decide) t a b)).2 .twin (by decide)
  rw [State.setTwin_twin, h]

theorem startAttach_twin (s : State) : (s.startAttach.twin).state = .attach ∧ (s.startAttach.twin).attachUp = s.clk.up
    ∧ (s.startAttach.twin).rangeHeld = s.twin.rangeHeld := by
  have h3 : (s.dropMirrors.draw).1.twin.rangeHeld = s.twin.rangeHeld := congrArg TwinSt.rangeHeld
    ((onlyTouches_of_blank (l := [.regs, .out, .sys, .col]) (by simp)).2 .twin (by decide))
  have h2 : s.dropMirrors.clk = s.clk :=
    (onlyTouches_of_blank (l := [.regs, .out, .sys, .col]) (by simp)).2 .clk (by decide)
  unfold State.startAttach
  dsimp only
  rw [sendHello_twin]
  rw [State.rset_twin, State.rset_twin, State.setTwin_twin]
  exact ⟨rfl, congrArg TickSt.up h2, h3⟩

theorem startRestore_ok (s : State) (m : Nat) (f : Option InFlight) (h1 : s.moduleDrained m = true) (h2 : (s.els m).present = true)
    (h3 : (s.els m).suitable = true) (h4 : (s.pho.restoring.any fun r => r.1 == m) = false) :
    (s.startRestore m f).2 = .ok ∧ (m, f) ∈ (s.startRestore m f).1.pho.restoring := by
  unfold State.startRestore
  simp only [h1, h2, h3, h4, Bool.not_true, Bool.or_self, Bool.false_eq_true, if_false]
  refine ⟨trivial, ?_⟩
  have hf : ∀ t : State, (t.each (modulePairs m) fun s q =>
      if 290 ≤ consumerOf q (decide (16 ≤ m)) then s.refreshWaveguide (consumerOf q (decide (16 ≤ m))) else s).pho = t.pho := fun t =>
    (onlyTouches_of_blank (l := [.regs, .sw, .mgmt, .aer]) (each_blank _ _ _ _ fun s c => by
      rw [ite_blank]
      simp)).2 .pho (by decide)
  rw [hf]
  simp [State.setPho]

end Sys2Proof.Machine
end

