-- ==== Sys2Proof/Laws/Starting.lean ====
section
/-! SUPPORT. Lemmas about the staged start. -/

namespace Sys2Proof.Machine

/-- What a verification of both slots leaves. -/
theorem verifySlots_spec (s : State) (a b : Bytes) :
    (s.verifySlots a b).sys.verified = true
    ∧ (s.verifySlots a b).sys.slotAValid = (s.fwFails a).isNone ∧ (s.verifySlots a b).sys.slotBValid = (s.fwFails b).isNone
    ∧ (s.fwFails a = none → s.fwFails b ≠ none → (s.verifySlots a b).sys.fwSlot = some 0 ∧ (s.verifySlots a b).sys.fwMeasure = sha512 (fwImage a))
    ∧ (s.fwFails a ≠ none → s.fwFails b = none → (s.verifySlots a b).sys.fwSlot = some 1 ∧ (s.verifySlots a b).sys.fwMeasure = sha512 (fwImage b))
    ∧ (s.fwFails a = none → s.fwFails b = none → (s.verifySlots a b).sys.fwSlot = some (if fwFirst a b then 0 else 1))
    ∧ (s.fwFails a ≠ none → s.fwFails b ≠ none → (s.verifySlots a b).sys.fwSlot = s.sys.fwSlot ∧ (s.verifySlots a b).bget (secReg 0x010) 24 = true) := by
  unfold State.verifySlots
  dsimp only
  generalize s.fwFails a = fa
  generalize s.fwFails b = fb
  cases fa with
  | none =>
    cases fb with
    | none =>
      dsimp only
      split
      · exact ⟨rfl, rfl, rfl, fun _ h => absurd rfl h, fun h => absurd rfl h, fun _ _ => rfl, fun h => absurd rfl h⟩
      · exact ⟨rfl, rfl, rfl, fun _ h => absurd rfl h, fun h => absurd rfl h, fun _ _ => rfl, fun h => absurd rfl h⟩
    | some y =>
      exact ⟨rfl, rfl, rfl, fun _ _ => ⟨rfl, rfl⟩, fun h => absurd rfl h, fun _ h => (by cases h), fun h => absurd rfl h⟩
  | some x =>
    cases fb with
    | none =>
      exact ⟨rfl, rfl, rfl, fun h => (by cases h), fun _ _ => ⟨rfl, rfl⟩, fun h => (by cases h), fun _ h => absurd rfl h⟩
    | some y =>
      refine ⟨(congrArg SysSt.verified (alarm_same (p := .sys) (by decide) _ (secReg 0) 24 _ 0 []) :), (congrArg SysSt.slotAValid (alarm_same (p := .sys) (by decide) _ (secReg 0) 24 _ 0 []) :), (congrArg SysSt.slotBValid (alarm_same (p := .sys) (by decide) _ (secReg 0) 24 _ 0 []) :), fun h => (by cases h), fun _ h => (by cases h), fun h => (by cases h), fun _ _ => ⟨?_, ?_⟩⟩
      · exact (congrArg SysSt.fwSlot (alarm_same (p := .sys) (by decide) _ (secReg 0) 24 _ 0 []) :)
      · exact alarm_bit _ (secReg 0) 24 _ 0 [] (by decide) (by decide)

/-- What enabled lanes on their home carriers leave of the modules. -/
theorem lockHome_els (s : State) (l m : Nat) : (s.lockHome l).els m = s.els m := by
  have h : (s.lockHome l).offLanes = (s.setPho fun x => { x with
      ringTx := mput x.ringTx ((homeOf l).1 * 9 + (homeOf l).2) { state := .locked }
      ringRx := mput x.ringRx ((homeOf l).1 * 9 + (homeOf l).2) { state := .locked } }).offLanes :=
    (relane_offLanes _ l).trans (changeLane_offLanes ..)
  have h1 : (s.lockHome l).offLanes.els = s.pho.els := by rw [h]; rfl
  have h2 : (s.lockHome l).pho.els = s.pho.els := h1
  unfold State.els
  rw [h2]

theorem lightModule_els_ne (s : State) (m n : Nat) (h : m ≠ n) : (s.lightModule n).els m = s.els m := by
  unfold State.lightModule
  dsimp only
  split
  · show mgetD (mupd s.pho.els n {} fun y => { y with safeIdle := false }) m {} = mgetD s.pho.els m {}
    exact mgetD_mupd_ne _ _ _ _ _ _ h
  · rfl

theorem lightModule_lit (s : State) (m : Nat) (h1 : (s.els m).present = true) (h2 : (s.els m).suitable = true) :
    ((s.lightModule m).els m).safeIdle = false := by
  unfold State.lightModule
  dsimp only
  rw [h1, h2, if_pos (by decide)]
  show (mgetD (mupd s.pho.els m {} fun y => { y with safeIdle := false }) m {}).safeIdle = false
  unfold mgetD mupd
  rw [mget_mput_same]
  rfl

theorem startOptics_els (s : State) (m : Nat) (hm : m < 32) (h1 : (s.els m).present = true) (h2 : (s.els m).suitable = true) :
    ((s.startOptics).els m).safeIdle = false := by
  unfold State.startOptics
  dsimp only
  rw [each_keeps (fun u : State => u.els m) _ (fun u l => lockHome_els u l m),
    each_keeps (fun u : State => u.els m) _ (fun u l => lockHome_els u l m)]
  obtain ⟨u, hu, he⟩ := each_one (fun u : State => u.els m) State.lightModule (List.range 32) List.nodup_range m (List.mem_range.mpr hm)
    (fun u x _ hx => lightModule_els_ne u m x hx.symm) s
  rw [he]
  exact lightModule_lit u m (by rw [hu]; exact h1) (by rw [hu]; exact h2)

theorem engReg_ne (e e' o o' : Nat) (h : o < 4096) (h' : o' < 4096) (he : e ≠ e') : engReg e o ≠ engReg e' o' := by
  unfold engReg
  omega

theorem uuReg_ne (e e' o o' : Nat) (h : o < 4096) (h' : o' < 4096) (he : e ≠ e') : uuReg e o ≠ uuReg e' o' := by
  unfold uuReg
  omega

theorem endEngBist_clean (s : State) (e : Nat) : s.endEngBist e ⟨[], false, false, false⟩ = s.rset (engReg e 0x00C) (0x1F * 2 ^ 16 + 2 ^ 8) := by
  have hb : ∀ u, bistOutcome ⟨[], false, false, false⟩ u = (1, 0x1F) := fun _ => rfl
  unfold State.endEngBist
  dsimp only
  rw [hb, if_pos rfl]
  norm_num [b2n]

/-- An engine in which nothing is found. -/
theorem testEngine_clean (s : State) (e : Nat) :
    s.testEngine e ⟨[], false, false, false⟩ = ((if s.engState e = 4 then s.reloadRepair e else s).startEngBist e true).rset (engReg e 0x00C) (0x1F * 2 ^ 16 + 2 ^ 8) := by
  unfold State.testEngine
  dsimp only
  rw [endEngBist_clean, if_neg]
  unfold State.engState State.fget
  rw [State.rget_rset_same]
  decide

theorem testEngine_state (s : State) (e : Nat) : (s.testEngine e ⟨[], false, false, false⟩).engState e = 0 := by
  rw [testEngine_clean]
  unfold State.engState State.fget
  rw [State.rget_rset_same]
  decide

theorem testEngine_ne (s : State) (e a : Nat) (h : ∀ o, o < 4096 → a ≠ engReg e o) : (s.testEngine e ⟨[], false, false, false⟩).rget a = s.rget a := by
  rw [testEngine_clean, State.rget_rset_ne _ _ _ _ (h _ (by decide)), startEngBist_rget _ _ _ _ h]
  split
  · unfold State.reloadRepair
    split
    · exact State.rget_rset_ne _ _ _ _ (h _ (by decide))
    · rfl
  · rfl

theorem testUu_state (s : State) (n : Nat) : ((s.startUuBist n).endUuBist n true).uuState n = 0 := by
  unfold State.endUuBist
  exact State.fget_fset_same _ _ _ _ _ (by decide)

theorem testUu_ne (s : State) (n a : Nat) (h : ∀ o, o < 4096 → a ≠ uuReg n o) : ((s.startUuBist n).endUuBist n true).rget a = s.rget a := by
  have hf : ∀ (w : State) (hi lo v : Nat), (w.fset (uuReg n 0x00C) hi lo v).rget a = w.rget a := fun w hi lo v =>
    State.rget_fset_ne _ _ _ _ _ _ (h _ (by decide))
  unfold State.endUuBist
  extract_lets u
  have hu : u.rget a = s.rget a := by
    show (State.fset (State.startUuBist s n) _ _ _ _).rget a = _
    rw [hf]
    unfold State.startUuBist State.setUuState
    rw [State.rget_setCore, State.rget_rset_ne _ _ _ _ (h _ (by decide)), hf]
  rw [if_pos rfl]
  exact (hf u 3 0 0).trans hu

/-- The tests of Stage D. -/
def stageTests (es us : List Nat) (s : State) : State :=
  (s.each es fun s e => s.testEngine e ⟨[], false, false, false⟩).each us fun s n => (s.startUuBist n).endUuBist n true

theorem stageTests_eng (es us : List Nat) (hn : es.Nodup) (e : Nat) (he : e ∈ es) (hl : e < 128) (hu : ∀ n ∈ us, n < 32) (s : State) :
    (stageTests es us s).engState e = 0 := by
  unfold stageTests
  obtain ⟨u, -, hx⟩ := each_one (fun u : State => u.engState e) (fun s e => State.testEngine s e ⟨[], false, false, false⟩) es hn e he
    (fun u x _ hx => State.fget_congr _ _ _ (testEngine_ne u x _ fun o ho => engReg_ne _ _ _ _ (by decide) ho hx.symm)) s
  refine Eq.trans ?_ (hx.trans (testEngine_state u e))
  refine each_keeps_mem (fun u : State => u.engState e) _ us (fun u n hn => ?_) _
  have := hu n hn
  refine State.fget_congr _ _ _ (testUu_ne u n _ fun o ho => ?_)
  unfold engReg uuReg
  omega

theorem stageTests_uu (es us : List Nat) (hn : us.Nodup) (n : Nat) (h : n ∈ us) (s : State) : (stageTests es us s).uuState n = 0 := by
  unfold stageTests
  obtain ⟨u, -, hx⟩ := each_one (fun u : State => u.uuState n) (fun s n => (State.startUuBist s n).endUuBist n true) us hn n h
    (fun u x _ hx => State.fget_congr _ _ _ (testUu_ne u x _ fun o ho => uuReg_ne _ _ _ _ (by decide) ho hx.symm)) (s.each es fun s e => s.testEngine e ⟨[], false, false, false⟩)
  exact hx.trans (testUu_state u n)

theorem enterStage_rget (s : State) (n a : Nat) (h0 : a ≠ telReg 0x310) (h1 : a ≠ glbReg 0 + 0x010) (h2 : a < glbReg 0 + 0x060 ∨ glbReg 0 + 0x0A0 ≤ a) :
    (s.enterStage n).rget a = s.rget a := by
  unfold State.enterStage
  rw [alarm_rget _ _ _ _ _ _ _ h0 h1 h2]
  rfl

theorem enterStage_sys (s : State) (n : Nat) : (s.enterStage n).sys.unpinned = SysSt.unpinned { s.sys with stage := n } := by
  unfold State.enterStage
  exact alarm_same (p := .sys) (by decide) ..

theorem stage_of {x y : SysSt} (h : x.unpinned = y.unpinned) : x.stage = y.stage := (congrArg SysSt.stage h :)

theorem trained_of {x y : SysSt} (h : x.unpinned = y.unpinned) : x.trained = y.trained := (congrArg SysSt.trained h :)

theorem trainFails_spec (s : State) (h : StackNo) (k : Fin 32) :
    (s.trainFails (h, k)).bget (hbmReg h.val 0x100) 0 = true ∧ (s.trainFails (h, k)).fget (hbmReg h.val 0x100) 12 8 = k.val
    ∧ (s.trainFails (h, k)).bget (hbmReg h.val 0x010) 24 = true ∧ (s.trainFails (h, k)).sys.unpinned = s.sys.unpinned := by
  unfold State.trainFails
  dsimp only
  have hrg : ∀ u : State, (u.alarm (hbmReg h.val 0) 24 0x0D03 k.val).rget (hbmReg h.val 0x100) = u.rget (hbmReg h.val 0x100) := fun u =>
    alarm_rget _ _ _ _ _ _ _ (by unfold hbmReg telReg; omega) (by unfold hbmReg; omega) (by right; unfold hbmReg; omega)
  have h1 : hbmReg h.val 0x010 = hbmReg h.val 0 + 0x010 := by unfold hbmReg; omega
  have h2 : hbmReg h.val 0 + 0x010 ≠ telReg 0x310 := by unfold hbmReg telReg; omega
  refine ⟨?_, ?_, ?_, ?_⟩
  · unfold State.bget
    rw [hrg]
    have := bget_bset_same s (hbmReg h.val 0x100) 0 true (by decide)
    generalize s.bset (hbmReg h.val 0x100) 0 true = u at this ⊢
    have hl := u.rget_lt (hbmReg h.val 0x100)
    unfold State.bget at this
    unfold State.fset
    rw [State.rget_rset_same, putBits_eq]
    rw [Nat.testBit_zero] at this ⊢
    have h5 : u.rget (hbmReg h.val 0x100) % 2 = 1 := by simpa using this
    rw [decide_eq_true_iff]
    norm_num
    omega
  · rw [State.fget_congr _ _ _ (hrg _), State.fget_fset_same _ _ _ _ _ (by decide)]
    exact Nat.mod_eq_of_lt k.isLt
  · rw [h1]
    exact alarm_bit _ (hbmReg h.val 0) 24 0x0D03 k.val [] (by decide) h2
  · exact alarm_same (p := .sys) (by decide) ..

/-- What Stage C leaves of the chip's own facts. -/
theorem startSchedule_sys (s : State) :
    (s.startSchedule).sys.unpinned = SysSt.unpinned { (s.enterStage 2).sys with trained := (List.range 256).map fun k => (k, s.clk.up) } := by
  unfold State.startSchedule
  generalize s.enterStage 2 = e
  generalize (List.range 256) = l
  generalize (List.range 32) = g
  extract_lets u v w
  have hv : v.sys.unpinned = u.sys.unpinned := (onlyTouches_of_blank (l := [.regs, .hbm, .aer]) (copyEarly_blank _ (by decide) (by decide) (by decide) u)).2 .sys (by decide)
  have hw : w.sys.unpinned = v.sys.unpinned := each_keeps (fun z : State => z.sys.unpinned) (fun z (c : Nat × Nat) => z.setCarrierRings c.1 c.2 .locked) (fun z c =>
    (onlyTouches_of_blank (l := [.regs, .sw, .pho, .mgmt, .col, .aer, .flt, .out]) (setCarrierRings_blank _ (by decide) (by decide) (by decide) (by decide) (by decide) (by decide) (by decide) (by decide) z c.1 c.2 .locked)).2 .sys (by decide)) _ _
  rw [each_keeps (fun z : State => z.sys.unpinned) State.askAgain (fun z g =>
    (onlyTouches_of_blank (l := [.pho]) (askAgain_blank _ (by decide) z g)).2 .sys (by decide)), hw, hv]
  rfl

end Sys2Proof.Machine
end

