-- ==== Sys2Proof/Laws/Alignment.lean ====
section
/-! SUPPORT. Lemmas about tick markers and PTP. -/

namespace Sys2Proof.Machine

/-- The state in which the marker is taken. -/
theorem heard_spec (s : State) (i : Fin 4) (p : Nat) (hi : s.upstreamPort i.val = some p) (hup : s.clk.upstream = some i)
    (hd : ∀ j, j < i.val → s.delivers j = false) :
    (s.setClk fun c => { c with lastValid := mput c.lastValid i.val c.up }).chooseUpstream = s.setClk fun c => { c with lastValid := mput c.lastValid i.val c.up } := by
  have hdel : ∀ j, j ≤ i.val → (s.setClk fun c => { c with lastValid := mput c.lastValid i.val c.up }).delivers j = decide (j = i.val) := by
    intro j hj
    by_cases e : j = i.val
    · subst e
      unfold State.delivers
      show (match mget (mput s.clk.lastValid i.val s.clk.up) i.val with | some u => (s.upstreamPort i.val).isSome && decide (s.clk.up - u ≤ 8) | none => false) = _
      rw [mget_mput_same, hi]
      simp
    · rw [decide_eq_false e, ← hd j (by omega)]
      unfold State.delivers
      show (match mget (mput s.clk.lastValid i.val s.clk.up) j with | some u => (s.upstreamPort j).isSome && decide (s.clk.up - u ≤ 8) | none => false) = _
      rw [mget_mput_ne _ _ _ _ e]
      all_goals (cases mget s.clk.lastValid j <;> rfl)
  generalize hS : (s.setClk fun c => { c with lastValid := mput c.lastValid i.val c.up }) = S at *
  have hn : ([0, 1, 2, 3] : List (Fin 4)).find? (fun i => S.delivers i.val) = some i := by
    refine find_first _ i (by rw [hdel _ le_rfl]; simp) ?_
    intro j hj
    rw [hdel _ (Nat.le_of_lt hj)]
    exact decide_eq_false (Nat.ne_of_lt hj)
  have hc : S.clk.upstream = some i := by rw [← hS]; exact hup
  unfold State.chooseUpstream
  dsimp only
  rw [hn]
  unfold State.setClk
  dsimp only
  rw [if_pos hc]

end Sys2Proof.Machine
end

