-- ==== Sys2Proof/Laws/Images.lean ====
section
/-! SUPPORT. Lemmas about calendar images. -/

namespace Sys2Proof.Machine

theorem pcal_ne (s : State) (p q : Nat) (g : PortCal → PortCal) (h : q ≠ p) : (s.setPcal p g).pcal q = s.pcal q := by
  unfold State.pcal State.setPcal mupd
  exact mgetD_mput_ne _ _ _ _ _ h

theorem install_one (S : State) (b : Bytes) (x : Section) (m : Map CalEntry) (off : Nat) (hr : readSections b 64 (fld b 20 2) = ([x], off)) (hk : fld b 22 2 = 0)
    (hSj : S.judgeSection x (fld b 8 4) (fld b 12 6) = .inr m) :
    S.installImage b = (((S.armShadow x.port (fld b 8 4) (fld b 12 6) m).setCalSt fun c => { c with kites := S.cal.kites }).setSys fun y =>
      { y with calImages := y.calImages ++ [(fld b 8 4, S.clk.tick, sha512 b)] }, .ok) := by
  unfold State.installImage
  dsimp only
  rw [hr, hk]
  generalize sha512 b = H
  simp only [readKites, List.map_cons, List.map_nil, hSj, State.judgeKites, List.any_cons, List.any_nil, Sum.isRight_inr, Bool.true_or, if_true,
      List.find?_cons, List.find?_nil, Sum.isLeft_inr]
  rfl

theorem arm_cal (S : State) (p g e : Nat) (m : Map CalEntry) :
    (S.armShadow p g e m).cal = { S.cal with ports := mupd S.cal.ports p {} fun x => { x with shadow := m, armed := true, latched := false } } := by
  unfold State.armShadow
  dsimp only
  rw [State.rset_cal, State.rset_cal, State.rset_cal]
  rfl

theorem arm_mgmt (S : State) (p g e : Nat) (m : Map CalEntry) : (S.armShadow p g e m).mgmt = S.mgmt := by
  unfold State.armShadow
  dsimp only
  rw [State.rset_mgmt, State.rset_mgmt, State.rset_mgmt]
  rfl

theorem arm_out (S : State) (p g e : Nat) (m : Map CalEntry) : (S.armShadow p g e m).out = S.out := by
  unfold State.armShadow
  dsimp only
  rw [State.rset_out, State.rset_out, State.rset_out]
  rfl

theorem each_pcal (l : List Nat) (g : PortCal → PortCal) (hg : ∀ x, g (g x) = g x) (s : State) (p : Nat) :
    (s.each l fun s p => s.setPcal p g).pcal p = if p ∈ l then g (s.pcal p) else s.pcal p := by
  unfold State.each
  induction l generalizing s with
  | nil => simp
  | cons x r ih =>
    rw [List.foldl_cons, ih]
    by_cases e : p = x
    · subst e
      rw [State.pcal_setPcal_same]
      by_cases h : p ∈ r <;> simp [h, hg]
    · rw [pcal_ne _ _ _ _ e]
      simp [e]

theorem alarmPlain_rget (s : State) (base b d a : Nat) (h0 : a ≠ telReg 0x310) (h1 : a ≠ base + 0x010) (h2 : a < base + 0x060 ∨ base + 0x0A0 ≤ a) :
    (s.alarmPlain base b d).rget a = s.rget a := alarm_rget _ _ _ _ _ _ _ h0 h1 h2

theorem alarmPlain_same {p : Part} (hp : p ∉ [Part.regs, .mgmt, .aer]) (s : State) (base b d : Nat) :
    p.Same s (s.alarmPlain base b d) := alarm_same hp ..

theorem alarmPlain_cal (s : State) (base b d : Nat) : (s.alarmPlain base b d).cal = s.cal := alarmPlain_same (p := .cal) (by decide) ..

theorem noShadow_cal (s : State) (p : Nat) : (s.noShadowRegs p).cal = s.cal := by
  unfold State.noShadowRegs
  rw [State.rset_cal, State.rset_cal]

theorem switch_cal (s : State) (p : Nat) : (s.switchPort p).cal = (s.setPcal p fun x =>
    { x with
      active := x.shadow, shadow := x.active, armed := false, latched := false, stale := false
      suspended := x.suspended && !(s.clk.aligned && !s.sys.tripped), lifting := false }).cal := by
  unfold State.switchPort
  exact (alarmPlain_cal ..).trans ((State.bset_cal ..).trans ((noShadow_cal ..).trans (State.rset_cal ..)))

theorem switch_same (s : State) (p : Nat) (hp : p < 1024) : (s.switchPort p).rget (calReg p 0x104) = s.rget (calReg p 0x108)
    ∧ ((s.switchPort p).pcal p).active = (s.pcal p).shadow ∧ ((s.switchPort p).pcal p).shadow = (s.pcal p).active
    ∧ ((s.switchPort p).pcal p).armed = false ∧ ((s.switchPort p).pcal p).stale = false := by
  have hc := switch_cal s p
  refine ⟨?_, ?_⟩
  · unfold State.switchPort
    dsimp only
    rw [alarmPlain_rget _ _ _ _ _ (by unfold calReg telReg; omega) (by unfold calReg; omega) (by unfold calReg; omega), State.rget_bset_ne _ _ _ _ _ (by unfold calReg; omega),
      noShadow_rget _ _ _ (by unfold calReg; omega) (by unfold calReg; omega), State.rget_rset_same]
    exact Nat.mod_eq_of_lt (State.rget_lt _ _)
  · rw [pcal_of_cal hc, State.pcal_setPcal_same]
    exact ⟨rfl, rfl, rfl, rfl⟩

theorem switch_other (s : State) (p q : Nat) (hp : p < 1024) (hq : q < 1024) (h : q ≠ p) : (s.switchPort p).pcal q = s.pcal q
    ∧ (s.switchPort p).rget (calReg q 0x104) = s.rget (calReg q 0x104) ∧ (s.switchPort p).rget (calReg q 0x108) = s.rget (calReg q 0x108) := by
  have hc := switch_cal s p
  have hr : ∀ o, o < 0x200 → (s.switchPort p).rget (calReg q o) = s.rget (calReg q o) := by
    intro o ho
    unfold State.switchPort
    dsimp only
    rw [alarmPlain_rget _ _ _ _ _ (by unfold calReg telReg; omega) (by unfold calReg; omega) (by unfold calReg; omega), State.rget_bset_ne _ _ _ _ _ (by unfold calReg; omega),
      noShadow_rget _ _ _ (by unfold calReg; omega) (by unfold calReg; omega), State.rget_rset_ne _ _ _ _ (by unfold calReg; omega)]
    rfl
  refine ⟨?_, hr _ (by decide), hr _ (by decide)⟩
  rw [pcal_of_cal hc, pcal_ne _ _ _ _ h]

theorem switches_other (l : List Nat) (s : State) (q : Nat) (hl : ∀ p ∈ l, p < 1024) (hq : q < 1024 ∨ True) (h : q ∉ l) : (l.foldl State.switchPort s).pcal q = s.pcal q := by
  induction l generalizing s with
  | nil => rfl
  | cons x r ih =>
    rw [List.foldl_cons, ih _ (fun p hp => hl p (List.mem_cons_of_mem _ hp)) (fun e => h (List.mem_cons_of_mem _ e))]
    have hc := switch_cal s x
    rw [pcal_of_cal hc, pcal_ne _ _ _ _ (fun e => h (by rw [e]; exact List.mem_cons_self))]

theorem switches_other_reg (l : List Nat) (s : State) (q : Nat) (hl : ∀ p ∈ l, p < 1024) (hq : q < 1024) (h : q ∉ l) :
    (l.foldl State.switchPort s).rget (calReg q 0x104) = s.rget (calReg q 0x104) := by
  induction l generalizing s with
  | nil => rfl
  | cons x r ih =>
    rw [List.foldl_cons, ih _ (fun p hp => hl p (List.mem_cons_of_mem _ hp)) (fun e => h (List.mem_cons_of_mem _ e))]
    exact (switch_other s x q (hl x List.mem_cons_self) hq (fun e => h (by rw [e]; exact List.mem_cons_self))).2.1

theorem switches_in (l : List Nat) (s : State) (q : Nat) (hl : ∀ p ∈ l, p < 1024) (hn : l.Nodup) (h : q ∈ l) :
    (l.foldl State.switchPort s).rget (calReg q 0x104) = s.rget (calReg q 0x108)
    ∧ ((l.foldl State.switchPort s).pcal q).active = (s.pcal q).shadow ∧ ((l.foldl State.switchPort s).pcal q).shadow = (s.pcal q).active
    ∧ ((l.foldl State.switchPort s).pcal q).armed = false ∧ ((l.foldl State.switchPort s).pcal q).stale = false := by
  induction l generalizing s with
  | nil => cases h
  | cons x r ih =>
    have hq := hl q h
    have hr : ∀ p ∈ r, p < 1024 := fun p hp => hl p (List.mem_cons_of_mem _ hp)
    rw [List.foldl_cons]
    rw [List.nodup_cons] at hn
    rcases List.mem_cons.mp h with rfl | h2
    · have := switch_same s q hq
      rw [switches_other_reg r _ q hr hq hn.1, switches_other r _ q hr (Or.inr trivial) hn.1]
      exact this
    · have hne : q ≠ x := fun e => hn.1 (e ▸ h2)
      have := switch_other s x q (hl x List.mem_cons_self) hq hne
      have i := ih (s.switchPort x) hr hn.2 h2
      rw [this.1, this.2.2] at i
      exact i

end Sys2Proof.Machine
end

