-- ==== Sys2Proof/Laws/Circuits.lean ====
section
/-! SUPPORT. Lemmas about Kite circuits. -/

namespace Sys2Proof.Machine

theorem wrap_lt (i : Int) : wrap 16 i < 2 ^ 64 := by
  unfold wrap
  have := Int.emod_lt_of_pos i (b := ((2 ^ 16 : Nat) : Int)) (by norm_num)
  have h2 := Int.emod_nonneg i (b := ((2 ^ 16 : Nat) : Int)) (by norm_num)
  omega

theorem rset_list_rget (l : List Nat) (a v : Nat → Nat) (hinj : ∀ i ∈ l, ∀ j ∈ l, a i = a j → i = j) (i : Nat) (hi : i ∈ l) (s : State) :
    (s.each l fun s w => s.rset (a w) (v w)).rget (a i) = v i % 2 ^ 64 := by
  unfold State.each
  induction l generalizing s with
  | nil => cases hi
  | cons x r ih =>
    rw [List.foldl_cons]
    by_cases h : i ∈ r
    · exact ih (fun j hj k hk => hinj j (List.mem_cons_of_mem _ hj) k (List.mem_cons_of_mem _ hk)) h _
    · have e : i = x := (List.mem_cons.mp hi).resolve_right h
      subst e
      refine Eq.trans ?_ (State.rget_rset_same s (a i) (v i))
      refine each_holds (fun t => t.rget (a i) = (s.rset (a i) (v i)).rget (a i)) _ r ?_ _ rfl
      intro t y hy ht
      show (t.rset (a y) (v y)).rget (a i) = _
      rw [State.rget_rset_ne _ _ _ _ (fun e => h (by rw [hinj i List.mem_cons_self y (List.mem_cons_of_mem _ hy) e]; exact hy)), ht]

theorem mem_insertBy {α : Type} (key : α → Nat) (x y : α) (l : List α) : x ∈ insertBy key y l ↔ x = y ∨ x ∈ l := by
  induction l with
  | nil => simp [insertBy]
  | cons z r ih =>
    unfold insertBy
    split
    · simp
    · rw [List.mem_cons, ih, List.mem_cons]
      tauto

theorem mem_sortBy {α : Type} (key : α → Nat) (x : α) (l : List α) : x ∈ sortBy key l ↔ x ∈ l := by
  have : ∀ (l acc : List α), x ∈ l.foldl (fun acc x => insertBy key x acc) acc ↔ x ∈ acc ∨ x ∈ l := by
    intro l
    induction l with
    | nil => intro acc; simp
    | cons y r ih =>
      intro acc
      rw [List.foldl_cons, ih, mem_insertBy, List.mem_cons]
      tauto
  unfold sortBy
  rw [this]
  simp

end Sys2Proof.Machine
end

