-- ==== Sys2Proof/Laws/UnitActs.lean ====
section
/-! SUPPORT. Lemmas about Update Unit commands. -/

namespace Sys2Proof.Machine

/-- A new repair map of a known word. -/
theorem newRepair_eq (s : State) (e a b : Nat) : ∃ w, w = a * 2 ^ 31 + b % 16 ∧
    s.newRepair e a b = (match s.engState e with
      | 4 => (s.rset (engReg e 0x100) w).setFuse fun f => { f with repairs := mput f.repairs e (BitVec.ofNat 32 w) }
      | 1 => ((s.rset (engReg e 0x100) w).setFuse fun f => { f with repairs := mput f.repairs e (BitVec.ofNat 32 w) }).setEng e
          fun x => { x with pendingRepair := some (x.pendingRepair.getD (BitVec.ofNat 32 (s.rget (engReg e 0x100)))) }
      | _ => ((s.rset (engReg e 0x100) w).setFuse fun f => { f with repairs := mput f.repairs e (BitVec.ofNat 32 w) }).startEngBist e false) := by
  refine ⟨_, rfl, ?_⟩
  have hs : ∀ (w : Nat) (g : FuseSt → FuseSt), ((s.rset (engReg e 0x100) w).setFuse g).engState e = s.engState e := by
    intro w g
    unfold State.engState
    rw [State.fget_setFuse, State.fget_rset_ne _ _ _ _ _ _ (engReg_inj e _ _ (by decide))]
  unfold State.newRepair
  generalize a * 2 ^ 31 + b % 16 = w
  dsimp only
  rw [hs]
  all_goals rfl

theorem newRepair_spec (s : State) (e a b : Nat) :
    (s.newRepair e a b).fuse = { s.fuse with repairs := mput s.fuse.repairs e (BitVec.ofNat 32 (a * 2 ^ 31 + b % 16)) }
      ∧ (s.newRepair e a b).rget (engReg e 0x100) = (a * 2 ^ 31 + b % 16) % 2 ^ 64
      ∧ (s.engState e = 0 ∨ s.engState e = 3 → (s.newRepair e a b).engState e = 2 ∧ ((s.newRepair e a b).eng e).bistUp = s.clk.up) := by
  obtain ⟨w, hw, h⟩ := newRepair_eq s e a b
  rw [h, ← hw]
  clear h hw
  have hf : ∀ t : State, (t.startEngBist e false).fuse = t.fuse := fun t =>
    (onlyTouches_of_blank (l := [.regs, .col]) (startEngBist_blank _ (by decide) (by decide) t _ _)).2 .fuse (by decide)
  have hr : ∀ t : State, (t.startEngBist e false).rget (engReg e 0x100) = t.rget (engReg e 0x100) := by
    intro t
    unfold State.startEngBist
    dsimp only
    rw [State.rget_setEng, State.rget_bump32_ne _ _ _ _ (engReg_inj e _ _ (by decide)), State.rget_rset_ne _ _ _ _ (engReg_inj e _ _ (by decide))]
    unfold State.setEngState
    rw [State.rget_fset_ne _ _ _ _ _ _ (engReg_inj e _ _ (by decide))]
  refine ⟨?_, ?_, ?_⟩
  · split
    · rw [State.setFuse_fuse, State.rset_fuse]
    · rw [State.setEng_fuse, State.setFuse_fuse, State.rset_fuse]
    · rw [hf, State.setFuse_fuse, State.rset_fuse]
  · split
    · rw [State.rget_setFuse, State.rget_rset_same]
    · rw [State.rget_setEng, State.rget_setFuse, State.rget_rset_same]
    · rw [hr, State.rget_setFuse, State.rget_rset_same]
  · intro h0
    split
    · omega
    · omega
    · have sp := startEngBist_spec ((s.rset (engReg e 0x100) w).setFuse fun f => { f with repairs := mput f.repairs e (BitVec.ofNat 32 w) }) e false
      exact ⟨sp.1, by rw [sp.2.2, State.setFuse_clk, State.rset_clk]⟩

end Sys2Proof.Machine
end

