-- ==== Sys2Proof/Laws/ContextActs.lean ====
section
/-! SUPPORT. Lemmas about context commands. -/

namespace Sys2Proof.Machine

theorem enableFails_none (s : State) (c : Nat) (h : s.enableFails c = none) : s.atStage 3 = true ∧ (s.ctx c).state = .idle := by
  unfold State.enableFails at h
  dsimp only at h
  by_cases h1 : s.atStage 3 = true
  · refine ⟨h1, ?_⟩
    rw [h1] at h
    simp only [Bool.not_true, Bool.false_eq_true, if_false] at h
    split at h
    · cases h
    · split at h
      · cases h
      · next h3 => simpa using h3
  · rw [if_pos (by simpa using h1)] at h
    cases h

theorem enableCtx_asks (s : State) (c : Nat) (plan : Plan) (f : InFlight) (h0 : (s.ctx c).state = .idle) (h1 : s.enableFails c = none)
    (h2 : s.placeCtx c = some plan) (h3 : s.twinned c = true) (h4 : s.isTransport c = false) :
    ∃ b, ∀ w : Writer, w.fly = some f → s.enableCtx w c =
      { state := (s.setCtx c fun x => { x with plan := some plan, asking := some (s.clk.up, some f) }).twinSend twConfig b, waits := true } := by
  refine ⟨s.ctxConfig c
    (s.rget (ctxReg c 0x100)) (s.chunkBase c) (s.chunkCount c) (plan.placed.map Placed.core), ?_⟩
  intro w hw
  unfold State.enableCtx
  rw [h0, if_neg (by simp), h1, h2, h3, h4, hw]
  rfl

theorem setCores_ctx (l : List Placed) (f : State → Placed → CoreSt → CoreSt) (s : State) (c : Nat) :
    (l.foldl (fun s q => s.setCore q.core (f s q)) s).ctx c = s.ctx c := by
  induction l generalizing s with
  | nil => rfl
  | cons a r ih => rw [List.foldl_cons, ih]; rfl

theorem acceptEnable_ctx (s : State) (c : Nat) (p : Plan) (f : Option InFlight) :
    ((s.acceptEnable c p f).ctx c).plan = some p ∧ ((s.acceptEnable c p f).ctx c).enabling = some f := by
  unfold State.acceptEnable
  dsimp only
  rw [setCores_ctx p.placed (fun s _ y => { y with engTurn := y.engTurn + s.tiles c }), State.ctx_setCtx_same]
  exact ⟨rfl, rfl⟩

end Sys2Proof.Machine
end

