-- ==== Sys2Proof/Laws/ContextMoves.lean ====
section
/-! SUPPORT. Lemmas about context events. -/

namespace Sys2Proof.Machine

theorem reply_col (s : State) (f : InFlight) (a : Answer) : (s.reply f a).col = s.col :=
  (onlyTouches_of_blank (l := [.mgmt, .regs, .out]) (reply_blank _ (by decide) (by decide) (by decide) s f a)).2 .col (by decide)

theorem originate_col (s : State) (n : Nat) (h : Wfp) (g : Goal) (o : Option (Nat × Nat)) : (s.originate n h g o).col = s.col :=
  (onlyTouches_of_blank (l := [.aer, .mgmt, .regs, .sw, .tbl]) (originate_blank _ (by decide) (by decide) (by decide) (by decide) (by decide) s n h g o)).2 .col (by decide)

theorem retireBanks_col (s : State) (c : Nat) : (s.retireBanks c).col = s.col :=
  (onlyTouches_of_blank (l := [.aer, .mgmt, .regs]) (retireBanks_blank _ (by decide) (by decide) (by decide) s c)).2 .col (by decide)

theorem writeGroups_col (s : State) (c : Nat) : (s.writeGroups c).col = s.col :=
  (onlyTouches_of_blank (l := [.tbl]) (writeGroups_blank _ (by decide) s c)).2 .col (by decide)

/-- What an enable leaves of a context. -/
def enabledAs (x : CtxSt) (p : Plan) (n : Nat) : Prop :=
  x.state = .active ∧ x.enabling = none ∧ x.placed = p.placed ∧ x.step = n ∧ x.retained = []

theorem completeEnable_spec (s : State) (c : Nat) (fly : Option InFlight) (p : Plan) (h1 : (s.ctx c).enabling = some fly) (h2 : (s.ctx c).plan = some p) :
    enabledAs ((s.completeEnable c).ctx c) p (s.firstStep c) := by
  unfold State.completeEnable
  dsimp only
  rw [h1, h2]
  dsimp only
  have hr : ∀ (t : State) (f : Option InFlight), enabledAs (t.ctx c) p (s.firstStep c) → ∀ u : State, u.col = t.col → enabledAs (u.ctx c) p (s.firstStep c) := by
    intro t f ht u hu
    rw [ctx_of_col hu]
    exact ht
  have h0 : ∀ (t : State) (n : Nat), enabledAs ((((t.setCtx c fun x => { x with
      state := .active, enabling := none, plan := none, placed := p.placed, step := s.firstStep c, released := []
      retained := [], lost := [], aborts := [], members := [], missing := [], startWait := [], startRounds := 0, startUp := none
      globalStep := s.firstStep c, reports := [], timers := [], digests := [], mirrorDigests := x.mirrorDigests
      heardDigests := [], sentDigests := [], disabling := false, takenStep := x.takenStep }).writeGroups c).ctx c)) p (s.firstStep c) := by
    intro t n
    rw [ctx_of_col (writeGroups_col ..), State.ctx_setCtx_same]
    exact ⟨rfl, rfl, rfl, rfl, rfl⟩
  generalize hz : State.writeGroups _ c = z at h0 ⊢
  have hz2 : enabledAs (z.ctx c) p (s.firstStep c) := by
    rw [← hz]
    exact h0 _ 0
  clear h0 hz
  have h4 : ∀ (y : State), enabledAs (y.ctx c) p (s.firstStep c) → enabledAs ((State.retireBanks y c).ctx c) p (s.firstStep c) := by
    intro y hy
    rw [ctx_of_col (retireBanks_col ..)]
    exact hy
  have h5 : ∀ (w : State) (l : List Nat) (n u : Nat), w.col = z.col → enabledAs ((w.setCtx c fun x => { x with startWait := l, startRounds := n, startUp := some u }).ctx c) p (s.firstStep c) := by
    intro w l n u hw
    rw [State.ctx_setCtx_same, ctx_of_col hw]
    exact hz2
  generalize hy : (if (z.isManager c && z.wantsAcks c) = true then _ else z : State) = y
  have hy2 : enabledAs (y.ctx c) p (s.firstStep c) := by
    rw [← hy]
    split
    · exact h5 _ _ _ _ (originate_col ..)
    · exact hz2
  split
  · rw [ctx_of_col (reply_col ..)]
    exact h4 _ hy2
  · exact h4 _ hy2

theorem sendAborts_col (s : State) (c : Nat) (l : List (Nat × Nat)) (r : Nat) : (s.sendAborts c l r).col = s.col :=
  (onlyTouches_of_blank (l := [.aer, .mgmt, .regs, .sw, .tbl]) (sendAborts_blank _ (by decide) (by decide) (by decide) (by decide) (by decide) s c l r)).2 .col (by decide)

/-- An abort takes its slots away, and changes of a context only what it notes as missing. -/
theorem abortSlots_spec (s : State) (c r : Nat) (p : Slot → Bool) :
    (∀ x ∈ (s.abortSlots c r p).col.slots, x.ctx = c → p x = false)
    ∧ ((s.abortSlots c r p).ctx c).state = (s.ctx c).state ∧ ((s.abortSlots c r p).ctx c).disabling = (s.ctx c).disabling := by
  unfold State.abortSlots
  dsimp only
  split
  · rename_i hg
    refine ⟨?_, rfl, rfl⟩
    intro x hx hc
    rw [List.filter_eq_nil_iff] at hg
    have := hg x hx
    simp only [hc, beq_self_eq_true, Bool.true_and] at this
    simpa using this
  · have hd : ∀ x ∈ ((s.dropSlots fun x => x.ctx == c && p x).ctxCtr .chunkAborts c (s.col.slots.filter fun x => x.ctx == c && p x).length).col.slots, x.ctx = c → p x = false := by
      intro x hx hc
      have hx : x ∈ s.col.slots.filter fun x => !(x.ctx == c && p x) := hx
      have := (List.mem_filter.mp hx).2
      simp only [hc, beq_self_eq_true, Bool.true_and] at this
      simpa using this
    split
    · refine ⟨?_, ?_, ?_⟩
      · rw [sendAborts_col]
        exact hd
      · rw [ctx_of_col (sendAborts_col ..)]
        rfl
      · rw [ctx_of_col (sendAborts_col ..)]
        rfl
    · refine ⟨?_, ?_, ?_⟩
      · rw [sendAborts_col]
        exact hd
      · rw [ctx_of_col (sendAborts_col ..), State.ctx_setCtx_same]
        rfl
      · rw [ctx_of_col (sendAborts_col ..), State.ctx_setCtx_same]
        rfl

theorem dropContribs_col (s : State) (c : Nat) : (s.dropContribs c).col = s.col :=
  (onlyTouches_of_blank (l := [.sw]) (dropContribs_blank _ (by decide) s c)).2 .col (by decide)

theorem alarmPlain_col (s : State) (a b d : Nat) : (s.alarmPlain a b d).col = s.col := State.alarmPlain_col ..

end Sys2Proof.Machine
end

