-- ==== Sys2Proof/Laws/Gathering.lean ====
section
/-! SUPPORT. Lemmas about contributions and slots. -/

namespace Sys2Proof.Machine

theorem alarm_col (s : State) (base b cause detail : Nat) (links : List AerLink) : (s.alarm base b cause detail links).col = s.col :=
  alarm_same (p := .col) (by decide) ..

theorem record_col (s : State) (base : Nat) (b : Option Nat) (cause detail : Nat) (links : List AerLink) : (s.record base b cause detail links).col = s.col :=
  record_same (p := .col) (by decide) ..

theorem slot_desc {s : State} {d : Nat} {x : Slot} (h : s.slot d = some x) : x.desc = d := by
  have := List.find?_some h
  simpa using this

theorem slot_mem {s : State} {d : Nat} {x : Slot} (h : s.slot d = some x) : x ∈ s.col.slots := List.mem_of_find?_eq_some h

theorem slot_of_slots {s t : State} (h : t.col.slots = s.col.slots) (d : Nat) : t.slot d = s.slot d := by
  unfold State.slot
  rw [h]

theorem find_replaced (l : List Slot) (x y : Slot) (d : Nat) (h : l.find? (fun z => z.desc == d) = some x) (hy : y.desc = d) :
    (l.map fun z => if (z.desc == y.desc) = true then y else z).find? (fun z => z.desc == d) = some y := by
  induction l with
  | nil => cases h
  | cons a l ih =>
    rw [List.map_cons]
    by_cases ha : a.desc = d
    · rw [if_pos (by simp [ha, hy]), List.find?_cons_of_pos (by simp [hy])]
    · rw [if_neg (by simp [hy, ha]), List.find?_cons_of_neg (by simp [ha])]
      rw [List.find?_cons_of_neg (by simp [ha])] at h
      exact ih h

/-- The slot of a descriptor is replaced. -/
theorem slot_setSlot (s : State) (x y : Slot) (d : Nat) (h : s.slot d = some x) (hy : y.desc = d) : (s.setSlot y).slot d = some y :=
  find_replaced s.col.slots x y d h hy

theorem slot_none {s : State} {d : Nat} (h : ∀ y ∈ s.col.slots, y.desc ≠ d) : s.slot d = none := by
  unfold State.slot
  rw [List.find?_eq_none]
  intro y hy
  simpa using h y hy

theorem takeCell_desc (x : Slot) (cell : Cell) (w n m u : Nat) : (x.takeCell cell w n m u).desc = x.desc := by
  have h : ∀ (p : Prop) [Decidable p] (z : Slot), z.desc = x.desc → (if p then z.completed u cell.seq else z).desc = x.desc := by
    intro p _ z hz
    split
    · unfold Slot.completed
      dsimp only
      split <;> exact hz
    · exact hz
  exact h _ _ rfl

theorem cellLeaves_slots (s : State) (c : Cell) : (s.cellLeaves c).col.slots = s.col.slots := by
  unfold State.cellLeaves
  split
  · exact congrArg CollectSt.slots ((onlyTouches_of_blank (l := [.sw]) (dtdFree_blank _ (by decide) ..)).2 .col (by decide))
  · split <;> rfl

theorem setFlow_slots (s : State) (f : Flow) : (s.setFlow f).col.slots = s.col.slots :=
  congrArg CollectSt.slots ((onlyTouches_of_blank (l := [.sw]) (setFlow_blank _ (by decide) s f)).2 .col (by decide))

theorem egressDiscard_slots (s : State) (x : EgPkt) (c : PortCtr) : (s.egressDiscard x c).col.slots = s.col.slots := by
  unfold State.egressDiscard State.egressGone
  split <;> rfl

theorem cellLeaves_flying (s : State) (c : Cell) : (s.cellLeaves c).sw.flying = s.sw.flying := by
  unfold State.cellLeaves
  repeat' split
  all_goals rfl

theorem truncate_slots (s : State) (f : Flow) : (s.truncate f).col.slots = s.col.slots := by
  unfold State.truncate
  dsimp only
  rw [setFlow_slots, foldl_keeps (fun u : State => u.col.slots) _ (fun u y => cellLeaves_slots u y)]
  rfl

theorem portStops_slots (s : State) (p : Nat) : (s.portStops p).col.slots = s.col.slots := by
  have h1 : ∀ u : State, (u.clearCredits p).col.slots = u.col.slots := fun u =>
    congrArg CollectSt.slots ((onlyTouches_of_blank (l := [.sw]) (clearCredits_blank _ (by decide) u p)).2 .col (by decide))
  have h2 : ∀ u : State, (u.dropArrivals p).col.slots = u.col.slots := fun u =>
    congrArg CollectSt.slots ((onlyTouches_of_blank (l := [.sw]) (dropArrivals_blank _ (by decide) u p)).2 .col (by decide))
  unfold State.portStops
  rw [h1, h2]
  unfold State.discardQueued
  dsimp only
  rw [each_keeps (fun u : State => u.col.slots)]
  · show (State.each s _ _).col.slots = _
    exact each_keeps (fun u : State => u.col.slots) _ (fun u y => egressDiscard_slots u y _) _ _
  · intro u f
    rw [setFlow_slots, foldl_keeps (fun u : State => u.col.slots) (fun s (x : Cell × Nat) => State.cellLeaves s x.1) (fun u y => cellLeaves_slots u y.1)]
    split
    · exact truncate_slots ..
    · exact foldl_keeps (fun u : State => u.col.slots) _ (fun u y => cellLeaves_slots u y) _ _

theorem applyFence_slots (s : State) (p : Nat) : (s.applyFence p).col.slots = s.col.slots := by
  unfold State.applyFence
  dsimp only
  rw [alarm_col]
  split
  · rw [portStops_slots]; rfl
  · rfl

theorem requestFence_slots (s : State) (p : Nat) (a b : Bool) (l : List (Nat × Nat)) : (s.requestFence p a b l).1.col.slots = s.col.slots := by
  unfold State.requestFence
  dsimp only
  split
  · rfl
  · split
    · rfl
    · split
      · exact applyFence_slots ..
      · show (State.alarm _ _ _ _ _ _).col.slots = _
        rw [alarm_col]
        rfl

theorem judgeFalls_slots (s : State) (l : List Nat) (m : List (Nat × Nat)) : (s.judgeFalls l m).col.slots = s.col.slots := by
  unfold State.judgeFalls
  split
  · rfl
  · exact each_keeps (fun u : State => u.col.slots) _ (fun u y => requestFence_slots ..) _ _

theorem noteAborts_gone (s : State) (c step n d : Nat) (h : ∀ y ∈ s.col.slots, y.desc ≠ d) : ∀ y ∈ (s.noteAborts c step n).col.slots, y.desc ≠ d := by
  unfold State.noteAborts
  extract_lets
  split
  · unfold State.haltCtx
    dsimp only
    rw [alarm_col, sendAborts_col]
    intro y hy
    exact h y (List.mem_filter.mp hy).1
  · exact h

theorem deadlines_gone (s : State) (x : Slot) (hx : x ∈ s.col.slots) (hd : s.pastDeadline x = true) :
    ∀ y ∈ (s.deadlines x.ctx).col.slots, y.desc ≠ x.desc := by
  unfold State.deadlines
  have hm : x ∈ s.col.slots.filter fun y => y.ctx == x.ctx && s.pastDeadline y := List.mem_filter.mpr ⟨hx, by simp [hd]⟩
  dsimp only
  split
  · rename_i hnil
    rw [hnil] at hm
    cases hm
  · generalize (s.col.slots.filter fun y => y.ctx == x.ctx && s.pastDeadline y) = due at hm ⊢
    refine each_holds (fun u : State => ∀ y ∈ u.col.slots, y.desc ≠ x.desc) _ _ (fun u st _ hu => noteAborts_gone u _ _ _ _ hu) _ ?_
    rw [sendAborts_col, judgeFalls_slots]
    rw [each_keeps (fun u : State => u.col.slots)]
    · intro y hy
      have := (List.mem_filter.mp hy).2
      simp only [Bool.not_eq_true', List.any_eq_false] at this
      intro e
      exact this x hm (by simp [e])
    · intro u z
      rw [record_col]
      show (State.each u _ _).col.slots = _
      exact each_keeps (fun u : State => u.col.slots) (fun s m => (s.setMember x.ctx m fun k => { k with miss := k.miss + 1 }).missFalls x.ctx m) (fun u m => rfl) _ _

/-- The slots, and the results that contexts retain, are as they were. -/
def Keeps (u t : State) : Prop := t.col.slots = u.col.slots ∧ ∀ c, (t.ctx c).retained = (u.ctx c).retained

theorem Keeps.trans {u v t : State} (h : Keeps u v) (g : Keeps v t) : Keeps u t :=
  ⟨g.1.trans h.1, fun c => (g.2 c).trans (h.2 c)⟩

theorem Keeps.refl (u : State) : Keeps u u := ⟨rfl, fun _ => rfl⟩

theorem keeps_col {u t : State} (e : t.col = u.col) : Keeps u t := ⟨by rw [e], fun c => by rw [ctx_of_col e]⟩

theorem keeps_setCtx (u : State) (k : Nat) (f : CtxSt → CtxSt) (hf : ∀ x, (f x).retained = x.retained) : Keeps u (u.setCtx k f) := by
  refine ⟨rfl, fun c => ?_⟩
  by_cases e : c = k
  · rw [e, State.ctx_setCtx_same, hf]
  · rw [State.ctx_setCtx_ne _ _ _ _ e]

theorem twinSend_col (s : State) (k : Nat) (b : Bytes) : (s.twinSend k b).col = s.col :=
  (onlyTouches_of_blank (l := [.twin, .out, .regs]) (twinSend_blank _ (by decide) (by decide) s k b)).2 .col (by decide)

theorem sendSync_col (s : State) (c step aux src : Nat) (g : Goal) : (s.sendSync c step aux src g).col = s.col := originate_col ..

theorem globalSteps_keeps (n : Nat) (u : State) (k : Nat) : Keeps u (u.globalSteps n k) := by
  induction n generalizing u with
  | zero => exact Keeps.refl _
  | succ n ih =>
    unfold State.globalSteps
    dsimp only
    split
    · exact Keeps.refl _
    · refine Keeps.trans ?_ (ih _)
      refine Keeps.trans ?_ (keeps_col (sendSync_col ..))
      exact keeps_setCtx _ _ _ fun _ => rfl

theorem spineReport_keeps (u : State) (k step i : Nat) : Keeps u (u.spineReport k step i) := by
  unfold State.spineReport
  dsimp only
  split
  · exact keeps_col rfl
  · refine Keeps.trans ?_ (globalSteps_keeps ..)
    exact keeps_setCtx _ _ _ fun _ => rfl

theorem notifyStep_keeps (u : State) (k step : Nat) (b : Bool) : Keeps u (u.notifyStep k step b) := by
  unfold State.notifyStep State.ownReport
  dsimp only
  repeat' split
  all_goals first | exact Keeps.refl _ | exact keeps_col (sendSync_col ..) | exact spineReport_keeps ..

theorem sendStepDigest_keeps (u : State) (k step : Nat) : Keeps u (u.sendStepDigest k step) := by
  unfold State.sendStepDigest
  dsimp only
  split
  · refine Keeps.trans (keeps_col (twinSend_col ..)) (keeps_setCtx _ _ _ fun _ => rfl)
  · exact keeps_setCtx _ _ _ fun _ => rfl

theorem stepsDone_keeps (n : Nat) (u : State) (k : Nat) : Keeps u (u.stepsDone n k) := by
  induction n generalizing u with
  | zero => exact Keeps.refl _
  | succ n ih =>
    unfold State.stepsDone
    dsimp only
    split
    · exact Keeps.refl _
    · refine Keeps.trans ?_ (ih _)
      refine Keeps.trans ?_ (keeps_col (retireBanks_col ..))
      refine Keeps.trans ?_ (sendStepDigest_keeps ..)
      refine Keeps.trans ?_ (notifyStep_keeps ..)
      refine Keeps.trans (v := u.ctxCtr .stepsComplete k) (keeps_col rfl) ?_
      exact keeps_setCtx _ _ _ fun _ => rfl

theorem takenDone_keeps (n : Nat) (u : State) (k : Nat) : Keeps u (u.takenDone n k) := by
  induction n generalizing u with
  | zero => exact Keeps.refl _
  | succ n ih =>
    unfold State.takenDone
    dsimp only
    split
    · exact Keeps.refl _
    · refine Keeps.trans ?_ (ih _)
      refine Keeps.trans ?_ (notifyStep_keeps ..)
      exact keeps_setCtx _ _ _ fun _ => rfl

theorem lastMember_keeps (u : State) (x : Slot) : Keeps u (u.lastMember x) := by
  have h : Keeps u (u.setMember x.ctx x.lastMember fun m => { m with last := m.last + 1, lateSum := m.lateSum + (x.completeUp - x.openUp), gain := m.gain + 1 }) :=
    keeps_setCtx _ _ _ fun _ => rfl
  unfold State.lastMember
  dsimp only
  split
  · exact Keeps.trans h (keeps_col rfl)
  · exact h

/-- The digest of a released chunk is kept for its step. -/
def noteDigest (s : State) (x : Slot) : State :=
  if s.updates x.ctx && !x.taken then
    s.setCtx x.ctx fun k => { k with digests := k.digests ++ [(x.step, x.chunk, x.digest)] }
  else s

/-- The twin hears of a released chunk. -/
def tellRelease (s : State) (x : Slot) : State :=
  if s.twinned x.ctx && !x.taken && s.twinActive then
    s.twinSend twReleased (beBytes 1 x.ctx ++ zeros 1 ++ beBytes 2 x.step ++ beBytes 4 x.chunk)
  else s

/-- A released chunk counts for its step. -/
def countRelease (s : State) (x : Slot) : State :=
  if x.taken then
    (s.setCtx x.ctx fun k => { k with takenReleased := k.takenReleased ++ [(x.step, x.chunk)] }).takenDone 2 x.ctx
  else
    (s.setCtx x.ctx fun k => { k with released := k.released ++ [(x.step, x.chunk)] }).stepsDone 2 x.ctx

theorem noteDigest_keeps (u : State) (x : Slot) : Keeps u (noteDigest u x) := by
  unfold noteDigest
  split
  · exact keeps_setCtx _ _ _ fun _ => rfl
  · exact Keeps.refl _

theorem tellRelease_keeps (u : State) (x : Slot) : Keeps u (tellRelease u x) := by
  unfold tellRelease
  split
  · exact keeps_col (twinSend_col ..)
  · exact Keeps.refl _

theorem countRelease_keeps (u : State) (x : Slot) : Keeps u (countRelease u x) := by
  unfold countRelease
  split
  · refine Keeps.trans ?_ (takenDone_keeps ..)
    exact keeps_setCtx _ _ _ fun _ => rfl
  · refine Keeps.trans ?_ (stepsDone_keeps ..)
    exact keeps_setCtx _ _ _ fun _ => rfl

/-- What follows once a result has left and been retained. -/
def releaseRest (s : State) (x : Slot) : State :=
  countRelease (tellRelease (noteDigest ((s.lastMember x).pmc (ccReg x.core 0) 0x102 1) x) x) x

theorem releaseRest_keeps (v : State) (x : Slot) : Keeps v (releaseRest v x) := by
  unfold releaseRest
  refine Keeps.trans ?_ (countRelease_keeps ..)
  refine Keeps.trans ?_ (tellRelease_keeps ..)
  refine Keeps.trans ?_ (noteDigest_keeps ..)
  refine Keeps.trans (lastMember_keeps v x) ?_
  exact keeps_col ((onlyTouches_of_blank (l := [.regs]) (pmc_blank _ (by decide) (v.lastMember x) (ccReg x.core 0) 0x102 1)).2 .col (by decide))

/-- A result that a context retains is retained. -/
def retainedAs (u : State) (b : Bool) (x : Slot) : State :=
  if b then u.setCtx x.ctx fun k => { k with
      retained := mput k.retained x.chunk (x.step, x.result), lost := k.lost.filter (· != x.chunk) }
  else u

theorem release_eq (s : State) (x : Slot) : s.releaseSlot x =
    releaseRest (retainedAs ((s.dropSlots fun y => y.desc == x.desc).sendResult x.ctx x.step x.chunk x.core x.result)
      (s.replays x.ctx && (s.ctx x.ctx).state != .lull) x) x := rfl

theorem release_kept (s : State) (x : Slot) :
    (∀ y ∈ (s.releaseSlot x).col.slots, y.desc ≠ x.desc)
    ∧ (s.replays x.ctx = true → (s.ctx x.ctx).state ≠ .lull → mget ((s.releaseSlot x).ctx x.ctx).retained x.chunk = some (x.step, x.result)) := by
  have hcol : ∀ u : State, (u.sendResult x.ctx x.step x.chunk x.core x.result).col = u.col := fun u =>
    each_keeps (fun z : State => z.col) _ (fun u h => originate_col ..) _ _
  rw [release_eq]
  generalize hu : State.sendResult _ _ _ _ _ _ = u
  have hc : u.col.slots = s.col.slots.filter fun y => !(y.desc == x.desc) := by rw [← hu, hcol]; rfl
  clear hu hcol
  generalize hb : (s.replays x.ctx && (s.ctx x.ctx).state != .lull) = b
  have k1 : (retainedAs u b x).col.slots = u.col.slots := by
    unfold retainedAs
    split <;> rfl
  have k2 : b = true → mget ((retainedAs u b x).ctx x.ctx).retained x.chunk = some (x.step, x.result) := by
    intro h
    unfold retainedAs
    rw [if_pos h, State.ctx_setCtx_same]
    exact mget_mput_same ..
  generalize retainedAs u b x = v at k1 k2
  have hk := releaseRest_keeps v x
  generalize releaseRest v x = t at hk
  refine ⟨?_, fun h1 h2 => ?_⟩
  · rw [hk.1, k1, hc]
    intro y hy
    have := (List.mem_filter.mp hy).2
    simpa using this
  · rw [hk.2]
    exact k2 (by rw [← hb]; simp [h1, h2])

theorem ctxCtr_rget (s : State) (k : CtxCtr) (c n o : Nat) (h : o < 0x420) : (s.ctxCtr k c n).rget (ctxReg c o) = s.rget (ctxReg c o) :=
  State.rget_bump32_ne _ _ _ _ (by unfold CtxCtr.reg ctxReg; omega)

/-- What the size of a context's contributions is read from is as it was. -/
def SameSize (s t : State) (c : Nat) : Prop :=
  t.col = s.col ∧ t.clk = s.clk ∧ t.rget (ctxReg c 0x100) = s.rget (ctxReg c 0x100) ∧ t.rget (ctxReg c 0x104) = s.rget (ctxReg c 0x104)

theorem sameSize_ctr {s t : State} {c : Nat} (h : SameSize s t c) (k : CtxCtr) : SameSize s (t.ctxCtr k c) c :=
  ⟨h.1, h.2.1, (ctxCtr_rget t k c 1 0x100 (by decide)).trans h.2.2.1, (ctxCtr_rget t k c 1 0x104 (by decide)).trans h.2.2.2⟩

/-- What a context's aborts of a step leave of it. -/
theorem noteAborts_ctx (s : State) (c step n : Nat) :
    ((s.noteAborts c step n).ctx c).timers = (s.ctx c).timers ∧ ((s.noteAborts c step n).ctx c).aborts = mput (s.ctx c).aborts step (mgetD (s.ctx c).aborts step 0 + n) := by
  unfold State.noteAborts
  extract_lets total u
  have h1 : (u.ctx c).timers = (s.ctx c).timers := by
    show ((s.setCtx c _).ctx c).timers = _
    rw [State.ctx_setCtx_same]
  have h2 : (u.ctx c).aborts = mput (s.ctx c).aborts step total := by
    show ((s.setCtx c _).ctx c).aborts = _
    rw [State.ctx_setCtx_same]
  have h3 : ((u.setCtx c fun x => { x with state := .halted }).ctx c).timers = (u.ctx c).timers
      ∧ ((u.setCtx c fun x => { x with state := .halted }).ctx c).aborts = (u.ctx c).aborts := by
    rw [State.ctx_setCtx_same]
    exact ⟨rfl, rfl⟩
  split
  · unfold State.haltCtx
    extract_lets op v w z
    have h4 : z.col = w.col := sendAborts_col ..
    rw [ctx_of_col (alarm_col ..), ctx_of_col h4]
    exact ⟨h3.1.trans h1, h3.2.trans h2⟩
  · exact ⟨h1, h2⟩

theorem stepExpires_ctx (s : State) (c step : Nat) :
    mget ((s.stepExpires c step).ctx c).timers step = some s.clk.up
    ∧ mgetD ((s.stepExpires c step).ctx c).aborts step 0 = mgetD (s.ctx c).aborts step 0 + (s.silentSpines c step).length := by
  unfold State.stepExpires
  extract_lets silent u v
  have hu : u.col = s.col := each_keeps (fun z : State => z.col) _ (fun _ _ => originate_col ..) _ _
  have hk : u.clk = s.clk := each_keeps (fun z : State => z.clk) _ (fun w e =>
    (onlyTouches_of_blank (l := [.aer, .mgmt, .regs, .sw, .tbl]) (originate_blank _ (by decide) (by decide) (by decide) (by decide) (by decide) w _ _ _ _)).2 .clk (by decide)) _ _
  have h1 : (v.ctx c).timers = mput (u.ctx c).timers step u.clk.up := by
    show ((u.setCtx c _).ctx c).timers = _
    rw [State.ctx_setCtx_same]
  have h2 : (v.ctx c).aborts = (u.ctx c).aborts := by
    show ((u.setCtx c _).ctx c).aborts = _
    rw [State.ctx_setCtx_same]
  obtain ⟨n1, n2⟩ := noteAborts_ctx v c step silent.length
  rw [n1, n2, h1, h2, ctx_of_col hu, hk]
  refine ⟨mget_mput_same .., ?_⟩
  unfold mgetD
  rw [mget_mput_same]
  rfl

end Sys2Proof.Machine
end

