-- ==== Sys2Proof/Laws/Computing.lean ====
section
/-! SUPPORT. Lemmas about tiles and invocations. -/

namespace Sys2Proof.Machine

/-- An alarm on one page leaves the registers of every page that are neither attention nor counters of performance. -/
theorem alarm_page (s : State) (base b cause detail : Nat) (links : List AerLink) (a o : Nat) (hb : base % 4096 = 0) (ha : a % 4096 = o)
    (h1 : o ≠ 0x010) (h2 : o < 0x060 ∨ 0x0A0 ≤ o) (h3 : a ≠ telReg 0x310) : (s.alarm base b cause detail links).rget a = s.rget a :=
  alarm_rget _ _ _ _ _ _ _ h3 (by omega) (by omega)

theorem engReg_mod (e o : Nat) (h : o < 4096) : engReg e o % 4096 = o := by unfold engReg; omega

theorem ccReg_mod (e : Nat) : ccReg e 0 % 4096 = 0 := by unfold ccReg; omega

theorem uuReg_mod (e o : Nat) (h : o < 4096) : uuReg e o % 4096 = o := by unfold uuReg; omega

theorem engReg_tel (e o : Nat) (h : o < 4096) (h2 : o ≠ 0x310) : engReg e o ≠ telReg 0x310 := by
  intro hh
  have := engReg_mod e o h
  rw [hh] at this
  have e2 : telReg 0x310 % 4096 = 0x310 := by decide
  omega

theorem engReg_off (e e' o o' : Nat) (h : o < 4096) (h' : o' < 4096) (hn : o ≠ o') : engReg e o ≠ engReg e' o' := by
  intro hh
  have h1 := engReg_mod e o h
  rw [hh, engReg_mod e' o' h'] at h1
  exact hn h1.symm

/-- An engine's register other than state, attention and performance counters, through a quarantine. -/
theorem quarantine_rget (s : State) (e : Nat) (l : List AerLink) (e' o : Nat) (ho : o < 4096) (h1 : o ≠ 0x010) (h2 : o < 0x060 ∨ 0x0A0 ≤ o)
    (h3 : o ≠ 0x00C) (h4 : o ≠ 0x310) : (s.quarantineEng e l).rget (engReg e' o) = s.rget (engReg e' o) := by
  unfold State.quarantineEng
  rw [alarm_page _ _ _ _ _ _ _ o (engReg_mod e 0 (by decide)) (engReg_mod _ _ ho) h1 h2 (engReg_tel _ _ ho h4)]
  exact State.rget_fset_ne _ _ _ _ _ _ (engReg_off _ _ _ _ ho (by decide) h3)

theorem quarantine_state (s : State) (e : Nat) (l : List AerLink) : (s.quarantineEng e l).engState e = 3 := by
  have h : (s.quarantineEng e l).rget (engReg e 0x00C) = (s.setEngState e 3).rget (engReg e 0x00C) := by
    unfold State.quarantineEng
    exact alarm_page _ _ _ _ _ _ _ 0x00C (engReg_mod e 0 (by decide)) (engReg_mod _ _ (by decide)) (by decide) (by decide) (engReg_tel _ _ (by decide) (by decide))
  exact (State.fget_congr _ _ _ h).trans (setEngState_engState ..)

theorem quarantine_bit (s : State) (e : Nat) (l : List AerLink) : (s.quarantineEng e l).bget (engReg e 0x010) 17 = true := by
  unfold State.quarantineEng
  generalize s.setEngState e 3 = u
  have h : engReg e 0x010 = engReg e 0 + 0x010 := by unfold engReg; omega
  have h2 := engReg_tel e 0x010 (by decide) (by decide)
  rw [h] at h2 ⊢
  exact alarm_bit u (engReg e 0) 17 0x0B02 e l (by decide) h2

theorem quarantine_col (s : State) (e : Nat) (l : List AerLink) : (s.quarantineEng e l).col = s.col := by
  unfold State.quarantineEng
  rw [alarm_col]
  rfl

theorem engIdle_rget (s : State) (e o : Nat) (h1 : o ≠ 0x114) (h2 : o ≠ 0x104) (h3 : o ≠ 0x128) (h4 : o ≠ 0x00C) :
    (s.engIdle e).rget (engReg e o) = s.rget (engReg e o) := by
  have hr : (s.rset (engReg e 0x114) 0).rget (engReg e o) = s.rget (engReg e o) := State.rget_rset_ne _ _ _ _ (engReg_inj e _ _ h1)
  have hb : ∀ j, ((s.rset (engReg e 0x114) 0).startEngBist e j).rget (engReg e o) = s.rget (engReg e o) := by
    intro j
    unfold State.startEngBist
    dsimp only
    rw [State.rget_setEng, State.rget_bump32_ne _ _ _ _ (engReg_inj e _ _ h3), State.rget_rset_ne _ _ _ _ (engReg_inj e _ _ h2)]
    exact (State.rget_fset_ne _ _ _ _ _ _ (engReg_inj e _ _ h4)).trans hr
  unfold State.engIdle
  dsimp only
  repeat' split
  · exact hb true
  · exact hr
  · exact hb false
  · exact (State.rget_fset_ne _ _ _ _ _ _ (engReg_inj e _ _ h4)).trans hr

theorem engIdle_clear (s : State) (e : Nat) : (s.engIdle e).rget (engReg e 0x114) = 0 := by
  have hr : (s.rset (engReg e 0x114) 0).rget (engReg e 0x114) = 0 := by rw [State.rget_rset_same, Nat.zero_mod]
  have hb : ∀ j, ((s.rset (engReg e 0x114) 0).startEngBist e j).rget (engReg e 0x114) = 0 := by
    intro j
    unfold State.startEngBist
    dsimp only
    rw [State.rget_setEng, State.rget_bump32_ne _ _ _ _ (engReg_inj e _ _ (by decide)), State.rget_rset_ne _ _ _ _ (engReg_inj e _ _ (by decide))]
    exact (State.rget_fset_ne _ _ _ _ _ _ (engReg_inj e _ _ (by decide))).trans hr
  unfold State.engIdle
  dsimp only
  repeat' split
  · exact hb true
  · exact hr
  · exact hb false
  · exact (State.rget_fset_ne _ _ _ _ _ _ (engReg_inj e _ _ (by decide))).trans hr

theorem startEngBist_rest (s : State) (e : Nat) (j : Bool) : ((s.startEngBist e j).eng e).restUp = (s.eng e).restUp := by
  rw [(startEngBist_spec s e j).2.2]

theorem engIdle_rest (s : State) (e : Nat) : ((s.engIdle e).eng e).restUp = (s.eng e).restUp := by
  have hr : (s.rset (engReg e 0x114) 0).eng e = s.eng e := State.eng_rset ..
  unfold State.engIdle
  dsimp only
  repeat' split
  · rw [startEngBist_rest, hr]
  · rw [hr]
  · rw [startEngBist_rest, hr]
  · show (State.eng (State.fset _ _ _ _ _) _).restUp = _
    rw [State.eng_fset, hr]

/-- What a tile's end leaves of what engines hold, and of an engine's own counters. -/
def TileKeeps (e : Nat) (s t : State) : Prop :=
  t.col.engs = s.col.engs ∧ ∀ o ∈ [0x10C, 0x120], t.rget (engReg e o) = s.rget (engReg e o)

theorem TileKeeps.trans {e : Nat} {s u t : State} (h : TileKeeps e s u) (g : TileKeeps e u t) : TileKeeps e s t :=
  ⟨g.1.trans h.1, fun o ho => (g.2 o ho).trans (h.2 o ho)⟩

theorem TileKeeps.refl (e : Nat) (s : State) : TileKeeps e s s := ⟨rfl, fun _ _ => rfl⟩

theorem tk_regs {e : Nat} {s t : State} (h1 : t.col.engs = s.col.engs) (h2 : t.regs = s.regs) : TileKeeps e s t :=
  ⟨h1, fun _ _ => State.rget_congr h2 _⟩

theorem tk_rset {e : Nat} (he : e < 256) (s : State) (a v : Nat) (h : 0x80900000 ≤ a) : TileKeeps e s (s.rset a v) := by
  refine ⟨rfl, fun o ho => State.rget_rset_ne _ _ _ _ ?_⟩
  have : o < 4096 := by
    simp only [List.mem_cons, List.not_mem_nil, or_false] at ho
    omega
  unfold engReg
  omega

theorem tk_ctr {e : Nat} (he : e < 256) (s : State) (k : CtxCtr) (c n : Nat) : TileKeeps e s (s.ctxCtr k c n) :=
  tk_rset he s _ _ (by unfold CtxCtr.reg ctxReg; omega)

theorem tk_pmc {e : Nat} (s : State) (base code n : Nat) (h : base % 4096 = 0) : TileKeeps e s (s.pmc base code n) := by
  refine ⟨congrArg CollectSt.engs ((onlyTouches_of_blank (l := [.regs]) (pmc_blank _ (by decide) s base code n)).2 .col (by decide)), fun o ho => rget_pmc _ _ _ _ _ ?_⟩
  have ho : o = 0x10C ∨ o = 0x120 := by simpa using ho
  have := engReg_mod e o (by omega)
  omega

theorem tk_alarm {e : Nat} (s : State) (base b cause detail : Nat) (links : List AerLink) (h : base % 4096 = 0) :
    TileKeeps e s (s.alarm base b cause detail links) := by
  refine ⟨congrArg CollectSt.engs (alarm_col ..), fun o ho => ?_⟩
  have ho : o = 0x10C ∨ o = 0x120 := by simpa using ho
  exact alarm_page _ _ _ _ _ _ _ o h (engReg_mod _ _ (by omega)) (by omega) (by omega) (engReg_tel _ _ (by omega) (by omega))

theorem tk_quarantine {e : Nat} (s : State) (f : Nat) (l : List AerLink) : TileKeeps e s (s.quarantineEng f l) := by
  refine ⟨congrArg CollectSt.engs (quarantine_col ..), fun o ho => ?_⟩
  have ho : o = 0x10C ∨ o = 0x120 := by simpa using ho
  exact quarantine_rget _ _ _ _ o (by omega) (by omega) (by omega) (by omega) (by omega)

theorem countTile_keeps (s : State) (x : Slot) (g e : Nat) : TileKeeps e s (s.countTile x g e) := by
  unfold State.countTile
  dsimp only
  have hm := engReg_mod e 0 (by decide)
  exact ((tk_pmc _ _ _ _ hm).trans (tk_pmc _ _ _ _ hm)).trans (tk_pmc _ _ _ _ hm)

theorem countSpecials_keeps {e : Nat} (he : e < 256) (s : State) (x : Slot) (g : Nat) (f : TileFault) : TileKeeps e s (s.countSpecials x g f) := by
  unfold State.countSpecials
  dsimp only
  split
  · refine TileKeeps.trans ((tk_ctr he _ _ _ _).trans (tk_ctr he _ _ _ _)) (tk_rset he _ _ _ ?_)
    unfold ctxReg
    omega
  · exact (tk_ctr he _ _ _ _).trans (tk_ctr he _ _ _ _)

theorem tilesDone_keeps {e : Nat} (s : State) (x : Slot) : TileKeeps e s (s.tilesDone x) := by
  unfold State.tilesDone
  dsimp only
  split <;> exact tk_regs rfl rfl

/-- A tile that passed: its engine counts it, once. -/
theorem tilePassed_spec (s : State) (x : Slot) (g : Tile) (e : Nat) (he : e < 256) (f : TileFault) :
    (s.tilePassed x g e f).col.engs = s.col.engs ∧ (s.tilePassed x g e f).rget (engReg e 0x120) = satAdd 64 (s.rget (engReg e 0x120)) 1 := by
  unfold State.tilePassed
  extract_lets r u v src y w
  have h1 : TileKeeps e s (s.countSpecials x g.index f) := countSpecials_keeps he ..
  have h2 : u.col.engs = s.col.engs := h1.1
  have h3 : u.rget (engReg e 0x120) = satAdd 64 (s.rget (engReg e 0x120)) 1 := by
    show (State.bump _ _ _).rget _ = _
    rw [State.rget_bump, h1.2 _ (by simp)]
  have h4 : TileKeeps e u v := (tk_ctr he _ _ _ _).trans (tk_ctr he _ _ _ _)
  have h5 : TileKeeps e v w := tk_regs rfl rfl
  have h6 : TileKeeps e w (if (y.tiles.all fun z => z.phase == .passed) = true then w.tilesDone y else w) := by
    split
    · exact tilesDone_keeps ..
    · exact TileKeeps.refl ..
  have h7 := (h4.trans h5).trans h6
  exact ⟨h7.1.trans h2, (h7.2 _ (by simp)).trans h3⟩

/-- A tile that failed: its engine counts the failure, and no tile more. -/
theorem tileFailed_spec (s : State) (x : Slot) (g : Tile) (e : Nat) (he : e < 256) :
    (s.tileFailed x g e).col.engs = s.col.engs ∧ (s.tileFailed x g e).rget (engReg e 0x10C) = satAdd 32 (s.rget (engReg e 0x10C)) 1
      ∧ (s.tileFailed x g e).rget (engReg e 0x120) = s.rget (engReg e 0x120) := by
  unfold State.tileFailed
  extract_lets u failed link v first w z
  have h1 : TileKeeps e ((s.bump32 (engReg e 0x104)).bump32 (engReg e 0x10C)) u := tk_ctr he ..
  have h2 : u.col.engs = s.col.engs := h1.1
  have h3 : u.rget (engReg e 0x10C) = satAdd 32 (s.rget (engReg e 0x10C)) 1 := by
    rw [h1.2 _ (by simp), State.rget_bump32, State.rget_bump32_ne _ _ _ _ (engReg_inj e _ _ (by decide))]
  have h4 : u.rget (engReg e 0x120) = s.rget (engReg e 0x120) := by
    rw [h1.2 _ (by simp), State.rget_bump32_ne _ _ _ _ (engReg_inj e _ _ (by decide)), State.rget_bump32_ne _ _ _ _ (engReg_inj e _ _ (by decide))]
  have h5 : TileKeeps e u v := by
    show TileKeeps e u (if _ then _ else _)
    split
    · exact tk_quarantine ..
    · exact TileKeeps.refl ..
  have h6 : TileKeeps e v w := by
    show TileKeeps e v (if _ then _ else _)
    split
    · exact tk_quarantine ..
    · exact TileKeeps.refl ..
  have h7 : TileKeeps e w z := by
    show TileKeeps e w (if _ then _ else _)
    split
    · exact tk_alarm _ _ _ _ _ _ (ccReg_mod _)
    · exact TileKeeps.refl ..
  have h8 := ((h5.trans h6).trans h7).trans (tk_regs (e := e) (t := z.setSlot (x.setTile g.index fun y => { y with phase := .waiting, failed := failed, from_ := z.clk.up + 1 })) rfl rfl)
  exact ⟨h8.1.trans h2, (h8.2 _ (by simp)).trans h3, (h8.2 _ (by simp)).trans h4⟩

theorem eng_of_engs {s t : State} (h : t.col.engs = s.col.engs) (e : Nat) : t.eng e = s.eng e := by
  unfold State.eng
  rw [h]

/-- How a tile's end begins. -/
def tileBegins (s : State) (e : Nat) (late : Bool) : State :=
  (if late then s.engOverrun e else s).setEng e fun x => { x with restUp := x.issueUp + 1 + b2n late }

theorem tileBegins_spec (s : State) (e : Nat) (late : Bool) :
    ((tileBegins s e late).eng e).restUp = (s.eng e).issueUp + 1 + b2n late
    ∧ ∀ o, o ≠ 0x110 → o < 4096 → o ≠ 0x1A0 → (tileBegins s e late).rget (engReg e o) = s.rget (engReg e o) := by
  unfold tileBegins
  refine ⟨?_, fun o h1 h2 h3 => ?_⟩
  · rw [State.eng_setEng_same]
    cases late <;> rfl
  · rw [State.rget_setEng]
    cases late
    · rfl
    · show (State.bump (State.bump32 _ _ _) _ _).rget _ = _
      rw [State.rget_bump_ne, State.rget_bump32_ne _ _ _ _ (engReg_inj e _ _ h1)]
      intro hh
      have := engReg_mod e o h2
      rw [hh] at this
      have e2 : tickReg 0x1A0 % 4096 = 0x1A0 := by decide
      omega

theorem endTile_eq (s : State) (e : Nat) (f : TileFault) (late : Bool) (x : Slot) (g : Tile) (h : s.runningOn e = some (x, g)) :
    s.endTile e f late = (if s.tilePasses x g.index f = true
      then ((tileBegins s e late).countTile x g.index e).tilePassed x g e f else ((tileBegins s e late).countTile x g.index e).tileFailed x g e).engIdle e := by
  show (match s.runningOn e with
    | none => (tileBegins s e late).engIdle e
    | some (x, t) => (if s.tilePasses x t.index f = true
      then ((tileBegins s e late).countTile x t.index e).tilePassed x t e f else ((tileBegins s e late).countTile x t.index e).tileFailed x t e).engIdle e) = _
  rw [h]

theorem runTile_spec (s : State) (x : Slot) (g : Tile) (e : Nat) (h : s.slot x.desc = some x) :
    (s.runTile x g e).engState e = 1 ∧ (s.runTile x g e).rget (engReg e 0x114) = (2 ^ 31 + x.ctx) % 2 ^ 64
    ∧ (s.runTile x g e).slot x.desc = some (x.setTile g.index fun y => { y with phase := .running e }) := by
  unfold State.runTile
  extract_lets u v
  have hu : u.col.slots = s.col.slots := rfl
  have hv : v.col = u.col := rfl
  have hr : ∀ a, (v.setSlot (x.setTile g.index fun y => { y with phase := .running e })).rget a = v.rget a := fun _ => rfl
  have hv2 : v.rget (engReg e 0x00C) = u.rget (engReg e 0x00C) := by
    show (State.rset (State.rset _ _ _) _ _).rget _ = _
    rw [State.rget_rset_ne _ _ _ _ (engReg_inj e _ _ (by decide)), State.rget_rset_ne _ _ _ _ (engReg_inj e _ _ (by decide))]
  refine ⟨?_, ?_, ?_⟩
  · refine (State.fget_congr _ _ _ ((hr _).trans hv2)).trans ?_
    exact setEngState_engState ..
  · rw [hr]
    show (State.rset (State.rset _ _ _) _ _).rget _ = _
    rw [State.rget_rset_ne _ _ _ _ (engReg_inj e _ _ (by decide)), State.rget_rset_same]
  · exact slot_setSlot v x _ x.desc ((slot_of_slots (by rw [hv, hu]) _).trans h) rfl

theorem noEngine_col (s : State) (n : Nat) : (s.noEngine n).col = s.col :=
  (onlyTouches_of_blank (l := [.aer, .mgmt, .regs]) (noEngine_blank _ (by decide) (by decide) (by decide) s n)).2 .col (by decide)

/-- A slot issued with its staging and its tiles. -/
def IssuedAs (d need n : Nat) (u : State) : Prop := ∃ y, u.slot d = some y ∧ y.phase = .issued ∧ y.stagingBytes = need ∧ y.tiles.length = n

theorem startTile_issued (u : State) (d need n : Nat) (g : Tile) (h : IssuedAs d need n u) : IssuedAs d need n (u.startTile d g) := by
  obtain ⟨y, h1, h2, h3, h4⟩ := h
  have hd := slot_desc h1
  unfold State.startTile
  rw [h1]
  dsimp only
  split
  · exact ⟨y, h1, h2, h3, h4⟩
  · split
    · split
      · rename_i e _ _
        have hy := (runTile_spec u y g e (by rw [hd]; exact h1)).2.2
        rw [hd] at hy
        exact ⟨_, hy, h2, h3, by rw [← h4]; exact List.length_map ..⟩
      · exact ⟨y, h1, h2, h3, h4⟩
    · exact ⟨y, (slot_of_slots (congrArg CollectSt.slots (noEngine_col ..)) _).trans h1, h2, h3, h4⟩

theorem issueChunk_issued (s : State) (x : Slot) (h : s.slot x.desc = some x) :
    IssuedAs x.desc (s.stagingNeed x.ctx) (s.tiles x.ctx) (s.issueChunk x) := by
  unfold State.issueChunk
  extract_lets tiles u v
  have h1 : u.slot x.desc = some { x with phase := .issued, tiles := tiles, stagingBytes := s.stagingNeed x.ctx } :=
    slot_setSlot s x _ x.desc h rfl
  have h2 : IssuedAs x.desc (s.stagingNeed x.ctx) (s.tiles x.ctx) v :=
    ⟨_, (slot_of_slots (s := u) (t := v) rfl _).trans h1, rfl, rfl, by simp [tiles]⟩
  unfold State.issueTiles
  split
  · exact h2
  · exact each_holds (IssuedAs x.desc (s.stagingNeed x.ctx) (s.tiles x.ctx)) _ _ (fun w g _ hw => startTile_issued w _ _ _ g hw) _ h2

theorem uuReg_off (n n' o o' : Nat) (h : o < 4096) (h' : o' < 4096) (hn : o ≠ o') : uuReg n o ≠ uuReg n' o' := by
  intro hh
  have h1 := uuReg_mod n o h
  rw [hh, uuReg_mod n' o' h'] at h1
  exact hn h1.symm

theorem uuReg_tel (e o : Nat) (h : o < 4096) (h2 : o ≠ 0x310) : uuReg e o ≠ telReg 0x310 := by
  intro hh
  have := uuReg_mod e o h
  rw [hh] at this
  have e2 : telReg 0x310 % 4096 = 0x310 := by decide
  omega

theorem alarmPlain_colOf (s : State) (base b d : Nat) : (s.alarmPlain base b d).col = s.col := alarm_col ..

theorem quarantineUu_core (s : State) (n : Nat) : ((s.quarantineUu n).core n).running = (s.core n).running := by
  unfold State.quarantineUu
  extract_lets u v
  have hu : (u.core n).running = (s.core n).running := by
    show ((State.setCore _ _ _).core n).running = _
    rw [State.core_setCore_same]
    rfl
  have hv : v.col = u.col := alarm_col ..
  have hc : ∀ w : State, w.col = u.col → (w.core n).running = (s.core n).running := by
    intro w hw
    rw [← hu]
    unfold State.core
    rw [hw]
  split
  · exact hc _ ((alarmPlain_colOf ..).trans hv)
  · exact hc _ hv

theorem quarantineUu_rget (s : State) (n o : Nat) (ho : o < 4096) (h1 : o ≠ 0x010) (h2 : o < 0x060 ∨ 0x0A0 ≤ o) (h3 : o ≠ 0x00C) (h4 : o ≠ 0x310) :
    (s.quarantineUu n).rget (uuReg n o) = s.rget (uuReg n o) := by
  have ha : ∀ (w : State) b cause detail links, (w.alarm (uuReg n 0) b cause detail links).rget (uuReg n o) = w.rget (uuReg n o) := fun w b c d l =>
    alarm_page _ _ _ _ _ _ _ o (uuReg_mod n 0 (by decide)) (uuReg_mod _ _ ho) h1 h2 (uuReg_tel _ _ ho h4)
  have hf : (s.setUuState n 3).rget (uuReg n o) = s.rget (uuReg n o) := State.rget_fset_ne _ _ _ _ _ _ (uuReg_off _ _ _ _ ho (by decide) h3)
  unfold State.quarantineUu
  extract_lets u v
  have hu : u.rget (uuReg n o) = s.rget (uuReg n o) := hf
  split
  · exact (ha ..).trans ((ha ..).trans hu)
  · exact (ha ..).trans hu

theorem uuFree_running (s : State) (n : Nat) (b : Bool) : ((s.uuFree n b).core n).running = none := by
  unfold State.uuFree
  extract_lets u k
  have hu : (u.core n).running = none := by
    show ((State.setCore _ _ _).core n).running = _
    rw [State.core_setCore_same]
  repeat' split
  · exact hu
  · rw [quarantineUu_core, hu]
  · rw [(startUuBist_spec u n).2.2]
    exact hu
  · show ((State.fset _ _ _ _ _).core n).running = _
    rw [State.core_fset]
    exact hu

theorem uuFree_rget (s : State) (n o : Nat) (b : Bool) (ho : o < 4096) (h1 : o ≠ 0x010) (h2 : o < 0x060 ∨ 0x0A0 ≤ o) (h3 : o ≠ 0x00C) (h4 : o ≠ 0x310)
    (h5 : o ≠ 0x100) : (s.uuFree n b).rget (uuReg n o) = s.rget (uuReg n o) := by
  have hf : ∀ (w : State) (v : Nat), (w.setUuState n v).rget (uuReg n o) = w.rget (uuReg n o) := fun w v =>
    State.rget_fset_ne _ _ _ _ _ _ (uuReg_off _ _ _ _ ho (by decide) h3)
  unfold State.uuFree
  extract_lets u k
  have hu : u.rget (uuReg n o) = s.rget (uuReg n o) := rfl
  repeat' split
  · exact hu
  · rw [quarantineUu_rget _ _ _ ho h1 h2 h3 h4, hu]
  · unfold State.startUuBist
    rw [State.rget_setCore, State.rget_rset_ne _ _ _ _ (uuReg_off _ _ _ _ ho (by decide) h5), hf, hu]
  · rw [hf, hu]

theorem noteFail_regs (s : State) (i : Invocation) : (s.noteFail i).1.regs = s.regs ∧ (s.noteFail i).1.hbm = s.hbm := by
  unfold State.noteFail
  repeat' split
  all_goals exact ⟨rfl, rfl⟩

/-- A failed invocation commits nothing, and is counted. -/
theorem invocationFailed_spec (s : State) (n : Nat) (i : Invocation) :
    ((s.invocationFailed n i).core n).running = none ∧ (s.invocationFailed n i).rget (uuReg n 0x108) = satAdd 32 (s.rget (uuReg n 0x108)) 1 := by
  unfold State.invocationFailed
  extract_lets u r v w
  have hu : u.rget (uuReg n 0x108) = satAdd 32 (s.rget (uuReg n 0x108)) 1 := by
    show (State.bump32 (State.bump32 _ _) _).rget _ = _
    rw [State.rget_bump32, State.rget_bump32_ne _ _ _ _ (uuReg_off _ _ _ _ (by decide) (by decide) (by decide))]
    rfl
  have hv : v.rget (uuReg n 0x108) = satAdd 32 (s.rget (uuReg n 0x108)) 1 := by
    rw [State.rget_congr (noteFail_regs u i).1, hu]
  have hw : w.rget (uuReg n 0x108) = satAdd 32 (s.rget (uuReg n 0x108)) 1 := by
    show (if _ then _ else _ : State).rget _ = _
    split
    · rw [alarm_page _ _ _ _ _ _ _ 0x108 (uuReg_mod n 0 (by decide)) (uuReg_mod _ _ (by decide)) (by decide) (by decide) (uuReg_tel _ _ (by decide) (by decide)), hv]
    · exact hv
  split
  · refine ⟨by rw [quarantineUu_core, uuFree_running], ?_⟩
    rw [quarantineUu_rget _ _ _ (by decide) (by decide) (by decide) (by decide) (by decide), uuFree_rget _ _ _ _ (by decide) (by decide) (by decide) (by decide) (by decide) (by decide), hv]
  · refine ⟨uuFree_running .., ?_⟩
    rw [uuFree_rget _ _ _ _ (by decide) (by decide) (by decide) (by decide) (by decide) (by decide), hw]

theorem invocationPassed_running (s : State) (n : Nat) (i : Invocation) : ((s.invocationPassed n i).core n).running = none := by
  unfold State.invocationPassed
  split <;> exact uuFree_running ..

theorem endEngBist_pass (s : State) (e : Nat) (b : BistFound) (h1 : b.rows = []) (h2 : b.column = false) (h3 : b.feeder = false) (h4 : b.accum = false) :
    s.endEngBist e b = s.rset (engReg e 0x00C) (0x1F * 2 ^ 16 + 2 ^ 8) := by
  have hb : ∀ u, bistOutcome b u = (1, 0x1F) := by
    intro u
    unfold bistOutcome
    rw [h1, h2, h3, h4]
    rfl
  unfold State.endEngBist
  dsimp only
  rw [hb, h1, if_pos rfl]
  norm_num [b2n]

/-- Fields above bit 3 through a write of bits 3 to 0. -/
theorem fset_low (s : State) (a v : Nat) : (s.fset a 3 0 v).fget a 11 8 = s.fget a 11 8 := by
  have h := s.rget_lt a
  unfold State.fset State.fget
  rw [State.rget_rset_same, bits_mod64 _ _ _ (by decide), putBits_eq]
  unfold bits
  rw [Nat.shiftRight_eq_div_pow, Nat.shiftRight_eq_div_pow]
  norm_num
  omega

theorem quarantineUu_state (s : State) (n : Nat) :
    (s.quarantineUu n).uuState n = 3 ∧ (s.quarantineUu n).fget (uuReg n 0x00C) 11 8 = s.fget (uuReg n 0x00C) 11 8 := by
  have ha : ∀ (w : State) b cause detail links, (w.alarm (uuReg n 0) b cause detail links).rget (uuReg n 0x00C) = w.rget (uuReg n 0x00C) := fun w b c d l =>
    alarm_page _ _ _ _ _ _ _ 0x00C (uuReg_mod n 0 (by decide)) (uuReg_mod _ _ (by decide)) (by decide) (by decide) (uuReg_tel _ _ (by decide) (by decide))
  have h : (s.quarantineUu n).rget (uuReg n 0x00C) = (s.setUuState n 3).rget (uuReg n 0x00C) := by
    unfold State.quarantineUu
    extract_lets u v
    have hu : u.rget (uuReg n 0x00C) = (s.setUuState n 3).rget (uuReg n 0x00C) := rfl
    split
    · exact (ha ..).trans ((ha ..).trans hu)
    · exact (ha ..).trans hu
  refine ⟨(State.fget_congr _ _ _ h).trans (State.fget_fset_same _ _ _ _ _ (by decide)), (State.fget_congr _ _ _ h).trans (fset_low ..)⟩

end Sys2Proof.Machine
end

