-- ==== Sys2Proof/Laws/CellMoves.lean ====
section
/-! SUPPORT. Lemmas about cells and flows. -/

namespace Sys2Proof.Machine

theorem flowOf_setFlow (s : State) (f : Flow) : (s.setFlow f).flowOf f.key = f := by
  unfold State.flowOf State.setFlow
  show (List.find? _ (if _ then _ else _)).getD _ = f
  split
  · next h =>
    have : ∀ l : List Flow, l.any (fun g => g.key == f.key) = true → (l.map fun g => if g.key == f.key then f else g).find? (fun g => g.key == f.key) = some f := by
      intro l
      induction l with
      | nil => intro h; cases h
      | cons a r ih =>
        intro h
        rw [List.map_cons]
        by_cases e : (a.key == f.key) = true
        · rw [if_pos e, List.find?_cons_of_pos (by simp)]
        · rw [if_neg e, List.find?_cons_of_neg (by simpa using e)]
          exact ih (by simpa [e] using h)
    rw [this _ h]
    rfl
  · next h =>
    rw [List.find?_append]
    have : s.sw.flows.find? (fun g => g.key == f.key) = none := by
      rw [List.find?_eq_none]
      intro g hg hk
      exact h (List.any_eq_true.mpr ⟨g, hg, hk⟩)
    rw [this]
    simp

theorem flow_key (s : State) (k : FlowKey) : (s.flowOf k).key = k := by
  unfold State.flowOf
  cases h : s.sw.flows.find? (fun f => f.key == k) with
  | none => rfl
  | some x => simpa using List.find?_some h

theorem setFlow_flowOf (s : State) (f : Flow) (k : FlowKey) (h : f.key = k) : (s.setFlow f).flowOf k = f := by
  subst h
  exact flowOf_setFlow s f

theorem depthMax_spec (s : State) (p vc : Nat) : (s.depthMax p vc).sw = s.sw ∧ (s.depthMax p vc).clk = s.clk
    ∧ (∀ a, a ≠ portReg p (0x180 + 4 * vc) → (s.depthMax p vc).rget a = s.rget a) := by
  unfold State.depthMax
  dsimp only
  split
  · exact ⟨rfl, rfl, fun a ha => State.rget_rset_ne _ _ _ _ ha⟩
  · exact ⟨rfl, rfl, fun _ _ => rfl⟩

theorem portState_of (s t : State) (h : t.sw.ports = s.sw.ports) (p : Nat) : t.portState p = s.portState p := by
  unfold State.portState State.port
  rw [h]

/-- A flow's state in the switching state alone. -/
theorem flowOf_of_sw {s t : State} (h : t.sw = s.sw) (k : FlowKey) : t.flowOf k = s.flowOf k := by
  unfold State.flowOf
  rw [h]

theorem releaseHeld_none (n : Nat) (s : State) (k : FlowKey) (h : (s.flowOf k).held = []) : State.releaseHeld n s k = s := by
  cases n with
  | zero => rfl
  | succ n =>
    unfold State.releaseHeld
    dsimp only
    rw [h]
    rfl

theorem enqueue_ok (Z : State) (x : EgPkt) (ht : x.trlBad = false) (hg : x.tag = none) (hu : Z.portState x.port = 1) (hfmt : Z.portFmt x.port = x.fmt) (he : x.fmt ≠ .eth) :
    ∃ y, (Z.enqueueEgress x).sw = { Z.sw with egress := Z.sw.egress ++ [y] } ∧ y.port = x.port ∧ y.vc = x.vc ∧ y.src = x.src ∧ y.bytes = x.bytes ∧ y.waitFrom = Z.subNow
      ∧ ∀ K : Part → Bool, K .regs = true → K .sw = true → (Z.enqueueEgress x).blank K = Z.blank K := by
  have hform : Z.egressForm x = some x.bytes := by
    unfold State.egressForm
    rw [hfmt]
    cases hx : x.fmt with
    | wfp1 => rfl
    | wfp2 => rfl
    | eth => exact absurd hx he
  unfold State.enqueueEgress
  rw [ht, if_neg (by simp), hu, if_neg (by simp), hform]
  dsimp only
  rw [(depthMax_spec _ _ _).1]
  exact ⟨_, rfl, rfl, rfl, rfl, rfl, rfl, fun K h1 h2 => (depthMax_blank K h1 _ _ _).trans (setSw_blank K _ _ h2)⟩

theorem finish_one (Z : State) (F : Flow) (c : Cell) (ha : F.asm = [c]) (hc : F.cutSent = none) (hk : c.kind = .unicast) (ht : c.trlBad = false) (hg : c.tag = none)
    (hu : Z.portState c.dest = 1) (hfmt : Z.portFmt c.dest = c.fmt) (he : c.fmt ≠ .eth) :
    ∃ y g, (Z.finishPacket F c).sw.egress = Z.sw.egress ++ [y] ∧ y.port = c.dest ∧ y.vc = c.vc ∧ y.src = c.srcPort ∧ y.bytes = c.data ∧ y.waitFrom = Z.subNow
      ∧ (Z.finishPacket F c).sw.flying = Z.sw.flying ∧ (Z.finishPacket F c).flowOf F.key = g ∧ g.expect = F.expect ∧ g.held = F.held
      ∧ ∀ K : Part → Bool, K .regs = true → K .sw = true → (Z.finishPacket F c).blank K = Z.blank K := by
  have hb : packetOf [c] = c.data := by unfold packetOf; simp
  unfold State.finishPacket
  dsimp only
  rw [hc, ha, hb]
  dsimp only
  rw [hk, if_neg (by simp), if_pos rfl]
  generalize hG : ({ F with asm := [], cut := false, cutSent := none, poisoned := false } : Flow) = G
  have hGk : G.key = F.key := by rw [← hG]
  generalize hN : (Z.setFlow G).newPkt = N
  have hNs : N.1.sw = { (Z.setFlow G).sw with nextPkt := (Z.setFlow G).sw.nextPkt + 1 } := by rw [← hN]; rfl
  have hNr : N.1.regs = Z.regs := by rw [← hN]; rfl
  have hNc : N.1.clk = Z.clk := by rw [← hN]; rfl
  obtain ⟨y, hy, y1, y2, y3, y4, y5, y6⟩ := enqueue_ok N.1 { id := N.2, port := c.dest, vc := c.vc, src := c.srcPort, bytes := c.data, fmt := c.fmt, tag := c.tag, trlBad := c.trlBad, cells := [c].length, srcDie := some (c.cluster / 4), enterFc := F.asmFc, waitFrom := 0, cut := F.cut, owner := c.owner } ht hg
    ((portState_of Z N.1 (by rw [hNs]; rfl) c.dest).trans hu)
    (by
      rw [← hfmt]
      unfold State.portFmt State.mode State.fget
      simp only [State.rget_congr hNr]) he
  refine ⟨y, G, ?_, y1, y2, y3, y4, ?_, ?_, ?_, ?_, ?_, fun K k1 k2 => (y6 K k1 k2).trans (by rw [← hN]; exact (setSw_blank K _ _ k2).trans (setSw_blank K _ _ k2))⟩
  · rw [hy, hNs]; rfl
  · rw [y5]
    unfold State.subNow
    rw [hNc]
  · rw [hy, hNs]; rfl
  · rw [← hGk]
    refine Eq.trans ?_ (flowOf_setFlow Z G)
    unfold State.flowOf
    rw [hy, hNs]
  · rw [← hG]
  · rw [← hG]

/-- A whole packet in one cell is assembled and stands in its queue. -/
theorem assemble_one (s : State) (c : Cell) (hk : c.kind = .unicast) (hf : c.first = true) (hl : c.last = true) (ht : c.trlBad = false) (hg : c.tag = none)
    (hu : s.portState c.dest = 1) (hfmt : s.portFmt c.dest = c.fmt) (he : c.fmt ≠ .eth) (hvc : c.vc < 4) :
    ∃ y g, (s.assemble c.flow c).sw.egress = s.sw.egress ++ [y] ∧ y.port = c.dest ∧ y.vc = c.vc ∧ y.src = c.srcPort ∧ y.bytes = c.data ∧ y.waitFrom = s.subNow
      ∧ (s.assemble c.flow c).sw.flying = s.sw.flying ∧ (s.assemble c.flow c).flowOf c.flow = g ∧ g.expect = (c.seq + 1) % 65536 ∧ g.held = (s.flowOf c.flow).held
      ∧ g.key = c.flow ∧ ∀ K : Part → Bool, K .regs = true → K .sw = true → (s.assemble c.flow c).blank K = s.blank K := by
  have hmc : c.flow.multicast = false := by unfold Cell.flow; rw [hk]; rfl
  unfold State.assemble
  dsimp only
  rw [if_pos hf, hl, hmc]
  simp only [Bool.false_eq_true, if_false, if_true]
  generalize hF : ({ s.flowOf c.flow with expect := (c.seq + 1) % 65536, fresh := false, asm := [c], poisoned := false, asmFc := s.fcNow, cut := s.cutConditions c, cutSent := none } : Flow) = F
  have hFk : F.key = c.flow := by rw [← hF]; exact flow_key s c.flow
  have hdest : c.flow.dest = c.dest := by unfold Cell.flow; rw [hk]; rfl
  have hvc2 : c.flow.vc = c.vc := rfl
  rw [hdest, hvc2]
  generalize hZ : (s.setFlow F).depthMax c.dest c.vc = Z
  have hd := depthMax_spec (s.setFlow F) c.dest c.vc
  rw [hZ] at hd
  obtain ⟨y, g, h1, h2, h3, h4, h5, h6, h7, h8, h9, h10, h11⟩ := finish_one Z F c (by rw [← hF]) (by rw [← hF]) hk ht hg
    ((portState_of s Z (by rw [hd.1]; rfl) c.dest).trans hu)
    (by
      rw [← hfmt]
      unfold State.portFmt State.mode State.fget
      rw [hd.2.2 _ (by unfold portReg; omega)]
      rfl) he
  refine ⟨y, g, ?_, h2, h3, h4, h5, ?_, ?_, ?_, ?_, ?_, ?_, fun K k1 k2 => (h11 K k1 k2).trans (by rw [← hZ]; exact (depthMax_blank K k1 _ _ _).trans (setSw_blank K _ _ k2))⟩
  · rw [h1, hd.1]; rfl
  · rw [h6]
    unfold State.subNow
    rw [hd.2.1]
    rfl
  · rw [h7, hd.1]; rfl
  · rw [← hFk]; exact h8
  · rw [h9, ← hF]
  · rw [h10, ← hF]
  · rw [← h8, flow_key, hFk]

theorem moved_spec (s : State) (d n b c : Nat) (idx : List Nat) (f : Cell → Cell) :
    ((((s.mapCells idx f).ovfMoves d n).pmc b c n).die d).ovfMoved = (s.die d).ovfMoved + n
    ∧ (((s.mapCells idx f).ovfMoves d n).pmc b c n).sw.voq = s.sw.voq.zipIdx.map (fun x => if idx.contains x.2 then f x.1 else x.1) := by
  have e : (((s.mapCells idx f).ovfMoves d n).pmc b c n).sw = ((s.mapCells idx f).ovfMoves d n).sw := pmc_sw _ _ _ _
  refine ⟨?_, ?_⟩
  · rw [State.die_of_sw e]
    unfold State.ovfMoves
    rw [State.die_setDie_same]
    rfl
  · rw [e]
    rfl

theorem spill_exec (s : State) (die : DieNo) (m : Nat) (h1 : s.ovfOn die.val = true) (h2 : refillWants die.val s.sw.voq [] 0 = [])
    (h4 : (s.chargedPairs die.val).flatMap (fun k => s.creditSpill k.1 k.2) = [])
    (hm : min (s.ovfBudget die.val) (s.ovfVc3Max die.val - s.sharedSpilled die.val) = m) (hne : (s.sharedSpill die.val).take m ≠ []) :
    execPktSpill die s = done s (((s.mapCells ((s.sharedSpill die.val).take m) fun c => { c with spilled := true, charged := false }).ovfMoves die.val ((s.sharedSpill die.val).take m).length).pmc
      (fdReg die.val 0) 0x102 ((s.sharedSpill die.val).take m).length) := by
  unfold execPktSpill
  extract_lets d budget room croom credited shared idx
  have e0 : credited = [] := by
    show List.take _ _ = []
    rw [show (s.chargedPairs d).flatMap (fun k => s.creditSpill k.1 k.2) = [] from h4, List.take_nil]
  have e1 : idx = (s.sharedSpill die.val).take m := by
    show credited ++ shared = _
    show credited ++ (s.sharedSpill d).take (min (budget - credited.length) room) = _
    rw [e0, List.nil_append, List.length_nil, Nat.sub_zero, ← hm]
    show (s.sharedSpill d).take (min (s.ovfBudget d - (refillWants d s.sw.voq [] 0).length) room) = _
    rw [show refillWants d s.sw.voq [] 0 = [] from h2]
    rfl
  clear_value idx
  clear_value credited
  subst e0
  rw [e1, if_pos ⟨h1, hne⟩]
  rfl

theorem launch_spec (s : State) (c : Cell) (l : Option Nat) : (s.launch c l).sw.dies = s.sw.dies ∧ s.sw.flying <+: (s.launch c l).sw.flying := by
  unfold State.launch
  dsimp only
  have k1 : ∀ t : State, t.sw.dies = s.sw.dies → t.sw.flying = s.sw.flying → ∀ (b : Bool) (p v n : Nat) (f : SwitchSt → SwitchSt) (x : Flying), (∀ w, f w = { w with flying := w.flying ++ [x] }) →
      ((if b = true then t.freeCredit p v n else t).setSw f).sw.dies = s.sw.dies ∧ s.sw.flying <+: ((if b = true then t.freeCredit p v n else t).setSw f).sw.flying := by
    intro t h1 h2 b p v n f x hf
    rw [State.setSw_sw, hf]
    split
    · have := freeCredit_unported t p v n
      exact ⟨(unported_dies this).trans h1, by show _ <+: _ ++ _; rw [unported_flying this, h2]; exact List.prefix_append _ _⟩
    · exact ⟨h1, by show _ <+: _ ++ _; rw [h2]; exact List.prefix_append _ _⟩
  refine k1 _ ?_ ?_ _ _ _ _ _ _ (fun _ => rfl)
  · cases c.kind <;> rfl
  · cases c.kind <;> rfl

theorem launches_spec {α : Type} (l : List α) (g : α → Cell × Option Nat) (s : State) :
    (s.each l fun s y => s.launch (g y).1 (g y).2).sw.dies = s.sw.dies ∧ s.sw.flying <+: (s.each l fun s y => s.launch (g y).1 (g y).2).sw.flying := by
  unfold State.each
  induction l generalizing s with
  | nil => exact ⟨rfl, List.prefix_refl _⟩
  | cons a r ih =>
    rw [List.foldl_cons]
    have h := launch_spec s (g a).1 (g a).2
    have := ih (s.launch (g a).1 (g a).2)
    exact ⟨this.1.trans h.1, h.2.trans this.2⟩

theorem purge_flying (s : State) (d : Nat) : (s.purgeHeads d).sw.flying = s.sw.flying := by
  unfold State.purgeHeads
  dsimp only
  rw [State.setSw_sw]
  show (State.sw _).flying = _
  refine each_holds (fun t => t.sw.flying = s.sw.flying) _ _ ?_ s rfl
  intro t c _ ht
  have h1 : (if (c.charged && !c.spilled) = true then t.freeCredit c.srcPort c.vc 1 else t).sw.flying = s.sw.flying := by
    split
    · rw [unported_flying (freeCredit_unported ..), ht]
    · exact ht
  split
  · rw [portCtr_sw]; exact h1
  · exact h1

end Sys2Proof.Machine
end

