-- ==== Sys2Proof/Laws/LinkActs.lean ====
section
/-! SUPPORT. Lemmas about credits and arrivals. -/

namespace Sys2Proof.Machine

theorem header_voq (s : State) (p : Nat) (fc : FcCycle) : (s.atHeader p fc).sw.voq = s.sw.voq ∧ (s.atHeader p fc).sw.arriving = s.sw.arriving := by
  unfold State.atHeader State.newPkt
  dsimp only
  rw [State.setSw_sw, pmc_sw]
  exact ⟨rfl, rfl⟩

theorem header_rget (s : State) (p : Nat) (fc : FcCycle) (c : PortCtr) : (s.atHeader p fc).rget (c.reg p) = s.rget (c.reg p) := by
  unfold State.atHeader State.newPkt
  dsimp only
  rw [State.rget_congr (State.setSw_regs _ _), rget_pmc _ _ _ _ _ (by unfold PortCtr.reg portReg clReg; omega)]
  rfl

theorem header_pkt (s : State) (p : Nat) (fc : FcCycle) : ((s.atFc fc).pmc (clReg (p / 64) 0) 0x102 1).newPkt.2 = s.sw.nextPkt := by
  unfold State.newPkt
  dsimp only
  rw [pmc_sw]
  rfl

theorem header_blank (l : List Part) (h1 : Part.regs ∈ l) (h2 : Part.clk ∈ l) (h3 : Part.sw ∈ l) (s : State) (p : Nat) (fc : FcCycle) :
    (s.atHeader p fc).blank (fun p => decide (p ∈ l)) = s.blank (fun p => decide (p ∈ l)) := by
  unfold State.atHeader State.newPkt
  dsimp only
  rw [setSw_blank _ _ _ (by simpa using h3), pmc_blank _ (by simpa using h1), atFc_blank (h := by simpa using h2)]

theorem take_eq (s : State) (port : PortNo) (fc : FcCycle) (fec : Bool) (frame : Bytes) (e : Option TblKind)
    (h1 : (s.atFc fc).portReceives port.val = true) : exec (.headerTaken port fc fec frame e) s = done s (
      if (s.atHeader port.val fc).mode port.val = 1 then (s.atHeader port.val fc).takeEther port.val s.sw.nextPkt fec frame e
      else (s.atHeader port.val fc).takeWfp port.val s.sw.nextPkt fec frame e) := by
  show execHeaderTaken port fc fec frame e s = _
  unfold execHeaderTaken
  dsimp only
  rw [if_pos h1]
  unfold State.takeHeader
  dsimp only
  rw [header_pkt]
  rfl

theorem freeAll_sw (s : State) (x : Incoming) : (s.freeAll x).sw.unported = s.sw.unported := by
  unfold State.freeAll
  split
  · exact freeCredit_unported ..
  · rfl

theorem pieces_flat (n : Nat) (hn : 0 < n) : ∀ (fuel : Nat) (b : Bytes), b.length ≤ fuel → (pieces n fuel b).flatten = b := by
  intro fuel
  induction fuel with
  | zero =>
    intro b hb
    have : b = [] := List.eq_nil_of_length_eq_zero (by omega)
    rw [this]
    rfl
  | succ k ih =>
    intro b hb
    unfold pieces
    cases b with
    | nil => rfl
    | cons x r =>
      rw [if_neg (by simp), List.flatten_cons, ih _ (by rw [List.length_drop]; simp at hb ⊢; omega), List.take_append_drop]

theorem queueUnicast_voq (s : State) (c : Cell) (q : Nat) (b : Bytes) (w : Bool) : ∃ cells, (s.queueUnicast c q b w).sw = { (s.queueUnicast c q b w).sw with voq := s.sw.voq ++ cells }
    ∧ (s.queueUnicast c q b w).sw.arriving = s.sw.arriving
    ∧ cells.flatMap (·.data) = b ∧ ∀ x ∈ cells, x.kind = .unicast ∧ x.dest = q ∧ x.destDie = q / 256 ∧ x.srcPort = c.srcPort ∧ x.vc = c.vc ∧ x.pkt = c.pkt := by
  unfold State.queueUnicast State.queueCells
  dsimp only
  refine ⟨_, rfl, rfl, ?_, ?_⟩
  · rw [List.flatMap_map]
    dsimp only
    have : ∀ (l : List Bytes) (k : Nat), (l.zipIdx k).flatMap (fun x => x.1) = l.flatten := by
      intro l
      induction l with
      | nil => intro k; rfl
      | cons a r ih => intro k; rw [List.zipIdx_cons, List.flatMap_cons, ih, List.flatten_cons]
    exact (this _ 0).trans (pieces_flat 240 (by decide) _ _ le_rfl)
  · intro x hx
    obtain ⟨y, -, rfl⟩ := List.mem_map.mp hx
    exact ⟨rfl, rfl, rfl, rfl, rfl, rfl⟩

theorem arrived_spec (s : State) (a : Arriving) : (s.arrived a).sw = { s.sw with arriving := s.sw.arriving.filter fun y => y.pkt != a.pkt }
    ∧ (s.arrived a).clk = s.clk ∧ (s.arrived a).rget (PortCtr.rxPkts.reg a.port) = satAdd 64 (s.rget (PortCtr.rxPkts.reg a.port)) 1
    ∧ (s.arrived a).rget (PortCtr.rxBytes.reg a.port) = satAdd 64 (s.rget (PortCtr.rxBytes.reg a.port)) a.frame.length
    ∧ (∀ c : PortCtr, c ≠ .rxPkts → c ≠ .rxBytes → (s.arrived a).rget (c.reg a.port) = s.rget (c.reg a.port)) := by
  have hp : ∀ o, portReg a.port o = portReg a.port 0 + o := by intro o; unfold portReg; omega
  have hctr : ∀ c : PortCtr, c.ctorIdx < 200 := by intro c; cases c <;> decide
  have hpm : ∀ (t : State) code n (c : PortCtr), (t.pmc (portReg a.port 0) code n).rget (c.reg a.port) = t.rget (c.reg a.port) := fun t code n c => rget_pmc t _ _ _ _ (by unfold PortCtr.reg; rw [hp]; omega)
  have hne : ∀ c d : PortCtr, c ≠ d → c.reg a.port ≠ d.reg a.port := by
    intro c d h e
    apply h
    have : c.ctorIdx = d.ctorIdx := by unfold PortCtr.reg portReg at e; omega
    cases c <;> cases d <;> first | rfl | (exfalso; revert this; decide)
  unfold State.arrived
  dsimp only
  refine ⟨?_, ?_, ?_, ?_, ?_⟩
  · rw [bwCount_same (p := .sw) (by decide), pmc_sw, portCtr_sw, portCtr_sw]
    rfl
  · rw [bwCount_same (p := .clk) (by decide), (onlyTouches_of_blank (l := [.regs]) (pmc_blank _ (by decide) _ _ _ _)).2 .clk (by decide)]
    rfl
  · rw [State.rget_congr (bwCount_same (p := .regs) (by decide) _ _ _ _ _), hpm]
    unfold State.portCtr
    rw [State.rget_bump_ne _ _ _ _ (hne .rxPkts .rxBytes (by decide)), State.rget_bump]
    rfl
  · rw [State.rget_congr (bwCount_same (p := .regs) (by decide) _ _ _ _ _), hpm]
    unfold State.portCtr
    rw [State.rget_bump, State.rget_bump_ne _ _ _ _ (hne .rxBytes .rxPkts (by decide))]
    rfl
  · intro c h1 h2
    rw [State.rget_congr (bwCount_same (p := .regs) (by decide) _ _ _ _ _), hpm]
    unfold State.portCtr
    rw [State.rget_bump_ne _ _ _ _ (hne _ _ h2), State.rget_bump_ne _ _ _ _ (hne _ _ h1)]
    rfl

theorem complete_voq (s t : State) (pkt : Nat) (b : Bool) (h : t.sw.voq = s.sw.voq) (hf : t.fcNow = s.fcNow) : (t.completeCells pkt b).sw.voq =
    s.sw.voq.map (fun c => if c.pkt = pkt ∧ c.complete = false then { c with complete := true, trlBad := b, ready := max c.ready s.fcNow } else c) := by
  show List.map _ t.sw.voq = _
  rw [h]
  refine List.map_congr_left fun c _ => ?_
  rw [hf]
  by_cases h1 : c.pkt = pkt <;> cases h2 : c.complete <;> simp [h1]

end Sys2Proof.Machine
end

