-- ==== Sys2Proof/Laws/Sending.lean ====
section
/-! SUPPORT. Lemmas about egress service. -/

namespace Sys2Proof.Machine

theorem grantRun_none (n : Nat) (s : State) (p : Nat) (e : CalEntry) (w : Nat) (h : (s.sw.egress.find? fun x => x.port == p && e.serves x) = none) :
    s.grantRun n p e w = s := by
  cases n with
  | zero => rfl
  | succ n =>
    unfold State.grantRun
    rw [h]

theorem grantRun_after (n : Nat) (T : State) (p a : Nat) (e : CalEntry) (w : Nat) (g : PortSt → PortSt) (x : EgPkt) (l : List EgPkt)
    (hT : T.sw.egress = l.filter fun y => y.id != x.id) (hf : l.filter (fun y => y.port == p && e.serves y) = [x]) :
    ((T.bump a).setPort p g).grantRun n p e w = (T.bump a).setPort p g := by
  apply grantRun_none
  show (T.sw.egress.find? fun x => x.port == p && e.serves x) = none
  rw [hT, List.find?_eq_none]
  intro y hy
  have h1 := List.mem_filter.mp hy
  intro h2
  have : y ∈ l.filter (fun y => y.port == p && e.serves y) := List.mem_filter.mpr ⟨h1.1, h2⟩
  rw [hf, List.mem_singleton] at this
  rw [this] at h1
  simp at h1

theorem sendLeftover_out (s : State) (x : EgPkt) (c : Bool) : (s.sendLeftover x c).out = .packet x.port x.vc false x.bytes :: s.out := by
  unfold State.sendLeftover
  rw [(transmit_spec _ _ _ _ _).1, countSlip_same (p := .out) (by decide)]
  rfl

theorem sendLeftover_gone (s : State) (x : EgPkt) (c : Bool) (y : EgPkt) (h : y ∈ (s.sendLeftover x c).sw.egress) : y.id ≠ x.id := by
  unfold State.sendLeftover at h
  rw [(transmit_spec _ _ _ _ _).2] at h
  simpa using (List.mem_filter.mp h).2

end Sys2Proof.Machine
end

