-- ==== Sys2Proof/Laws/PortActs.lean ====
section
/-! SUPPORT. Lemmas about port commands. -/

namespace Sys2Proof.Machine

theorem keeps_cmds (s : State) (p v b : Nat) (hb : b ∈ [0, 1, 2, 3, 6]) (h : keepsPort s p v b) :
    bits (v ||| 2 ^ b) 9 8 = s.widthCode p ∧ bits (v ||| 2 ^ b) 5 4 = s.mode p ∧ portCmds (v ||| 2 ^ b) = 2 ^ b := by
  obtain ⟨h1, h2, -, -, -, h6⟩ := h
  have hor : ∀ (hi lo : Nat), (b < lo ∨ hi < b) → bits (v ||| 2 ^ b) hi lo = bits v hi lo := by
    intro hi lo hb
    refine Nat.eq_of_testBit_eq fun i => ?_
    rw [testBit_bits, testBit_bits, Nat.testBit_or]
    by_cases hi' : i < hi + 1 - lo
    · rw [Nat.testBit_two_pow_of_ne (by omega), Bool.or_false]
    · simp [hi']
  have hbb := bits_or_same v b
  have hc : ∀ c ∈ [0, 1, 2, 3, 6], bits (v ||| 2 ^ b) c c = if c = b then 1 else 0 := by
    intro c hc
    split
    · next e => rw [e, hbb]
    · next e => rw [hor c c (by omega), h6 c hc e]
  refine ⟨(hor 9 8 ?_).trans h1, (hor 5 4 ?_).trans h2, ?_⟩
  · simp at hb; omega
  · simp at hb; omega
  · unfold portCmds
    rw [hc 6 (by decide), hc 3 (by decide), hc 2 (by decide), hc 1 (by decide), hc 0 (by decide)]
    simp at hb
    rcases hb with rfl | rfl | rfl | rfl | rfl <;> rfl

/-- A command of PORT.CTRL whose word keeps MODE and WIDTH. -/
theorem port_bit {s : State} {q : Req} {n v b : Nat} {E : Effect} (hn : n < 1024) (hb : b ∈ [0, 1, 2, 3, 6])
    (h : Commanded s q (portReg n 0x008) (v ||| 2 ^ b)) (hv : v < 4294967296) (hk : keepsPort s n v b)
    (hl : s.leads n = true)
    (hE : ∀ w : Writer, w.fly = some (flightOf q 0x02 (regBody (portReg n 8) (v ||| 2 ^ b))) →
      (readied s q (portReg n 8) (v ||| 2 ^ b) (portPage n)).portCommand w n (2 ^ b) = E) (hok : E.code = .ok) :
    ∃ t, done s (s.serveReg q (portReg n 8) (v ||| 2 ^ b)) = .next t ∧ Leaves t E.state
      ∧ ∀ o, (o < 0x60 ∨ 0xA0 ≤ o ∧ o < 4096) → o ≠ 0x01C → t.rget (portReg n o) = E.state.rget (portReg n o) := by
  obtain ⟨h1, h2, h3⟩ := keeps_cmds s n v b hb hk
  obtain ⟨-, -, h4, h5, h6, -⟩ := hk
  have hw : portWord (s.rget (portReg n 8)) (v ||| 2 ^ b) = s.rget (portReg n 8) := portWord_same _ _ h1 h2
  have b32 : b < 32 := by simp at hb; omega
  refine port_command hn h (or_bit_lt v b hv b32) hl (by rw [h1]; exact h4) (by rw [h1]; exact h6) (by rw [h2]; exact h5) ?_ ?_ ?_ hok
  · rw [h3]; simp at hb; rcases hb with rfl | rfl | rfl | rfl | rfl <;> decide
  · rw [hw]
    unfold State.judgePortCtrl
    dsimp only
    rw [if_pos ⟨rfl, rfl⟩]
  · intro w hf
    rw [hw, storedFor_same _ _ _ _ _ rfl, h3]
    unfold State.portCtrlWritten
    rw [if_pos rfl]
    dsimp only
    rw [if_pos rfl]
    exact hE w hf

theorem applyFence_fences (s : State) (p : Nat) : (s.applyFence p).flt.fences = s.clk.up :: s.flt.fences := by
  have hc : ∀ (c : Prop) [Decidable c] (t : State), (if c then t.portStops p else t).flt = t.flt := by
    intro c _ t
    split
    · exact (onlyTouches_of_blank (l := [.regs, .sw, .col, .out]) (by simp)).2 .flt (by decide)
    · rfl
  unfold State.applyFence
  dsimp only
  rw [State.alarm_flt, hc, State.bump_flt, State.setFlt_flt]
  rfl

theorem unfence_port (s : State) (p : Nat) (h : ((s.port p).fenced || s.flt.held.any fun h => h.port == p) = true) :
    ((s.unfence p).port p).fenced = false ∧ (s.unfence p).flt.held = s.flt.held.filter (fun h => h.port != p) := by
  have hf : ∀ (c : Prop) [Decidable c] (t : State) (a hi lo v : Nat) , (if c then t.fset a hi lo v else t).port p = t.port p
      ∧ (if c then t.fset a hi lo v else t).flt = t.flt := by
    intro c _ t a hi lo v
    split
    · exact ⟨State.port_fset .., rfl⟩
    · exact ⟨rfl, rfl⟩
  have he : ∀ (t : State) (l : List Nat) (g : State → Nat → List Nat),
      OnlyTouches [.col] t (t.each l fun s c => s.each (g s c) fun s m => s.setMember c m fun x => { x with score := 255 }) :=
    fun t l g => onlyTouches_of_blank (each_blank _ _ _ _ fun s c => each_blank _ _ _ _ fun s m => setMember_blank _ (by decide) ..)
  unfold State.unfence
  dsimp only
  rw [if_pos h]
  refine ⟨?_, ?_⟩
  · rw [State.port_of_sw ((he _ _ _).2 .sw (by decide)), (hf _ _ _ _ _ _).1, State.port_setPort_same]
  · rw [(he _ _ _).2 .flt (by decide), (hf _ _ _ _ _ _).2]
    rfl

end Sys2Proof.Machine
end

