-- ==== Sys2Proof/Laws/PortSettings.lean ====
section
/-! SUPPORT. Lemmas about port settings. -/

namespace Sys2Proof.Machine

theorem fcNow_of {s t : State} (h : t.clk = s.clk) : t.fcNow = s.fcNow := by unfold State.fcNow; rw [h]

theorem portReg_8 (n : Nat) (hn : n < 1024) : ((portPage n).die == 8) = false := by unfold portPage; simp; omega

theorem portIdlePage (s : State) (n : Nat) (hl : s.leads n = true) : s.idlePage (portPage n) = false := by
  unfold State.idlePage portPage
  dsimp only
  have : 256 * (n / 256) + n % 256 = n := by omega
  rw [this, hl]
  rfl

end Sys2Proof.Machine
end

