-- ==== Sys2Proof/Laws/PortMoves.lean ====
section
/-! SUPPORT. Lemmas about port events. -/

namespace Sys2Proof.Machine

/-- A register apart from every port's counters. -/
def offCounters (a : Nat) : Prop := ∀ (c : PortCtr) (q : Nat), a ≠ c.reg q

theorem cellLeaves_rget (s : State) (c : Cell) (a : Nat) : (s.cellLeaves c).rget a = s.rget a := by
  unfold State.cellLeaves
  repeat' split
  all_goals rfl

theorem egressGone_rget (s : State) (x : EgPkt) (a : Nat) : (s.egressGone x).rget a = s.rget a :=
  State.rget_congr (egressGone_same (p := .regs) (by decide) s x) a

theorem truncate_rget (s : State) (f : Flow) (a : Nat) (h : offCounters a) : (s.truncate f).rget a = s.rget a := by
  unfold State.truncate
  dsimp only
  show (List.foldl _ _ _ : State).rget a = _
  refine (foldl_keeps (fun s => s.rget a) State.cellLeaves (fun s c => cellLeaves_rget ..) _ _).trans ?_
  exact State.rget_bump_ne _ _ _ _ (h _ _)

theorem portStops_rget (s : State) (p a : Nat) (h : offCounters a) : (s.portStops p).rget a = s.rget a := by
  unfold State.portStops
  show ((s.discardQueued p .fenceDiscard)).rget a = _
  unfold State.discardQueued
  dsimp only
  refine (each_keeps (fun s => s.rget a) _ (fun s f => ?_) _ _).trans ?_
  · show (List.foldl _ _ _ : State).rget a = _
    refine (foldl_keeps (fun s => s.rget a) _ (fun s c => cellLeaves_rget ..) _ _).trans ?_
    split
    · exact truncate_rget _ _ _ h
    · exact foldl_keeps (fun s => s.rget a) State.cellLeaves (fun s c => cellLeaves_rget ..) _ _
  · show (State.each _ _ _ : State).rget a = _
    refine each_keeps (fun s => s.rget a) _ (fun s x => ?_) _ _
    unfold State.egressDiscard
    rw [egressGone_rget]
    exact State.rget_bump_ne _ _ _ _ (h _ _)

theorem score_off (p : Nat) : offCounters (portReg p 0x118) := by
  intro c q h
  have hi : c.ctorIdx < 200 := by cases c <;> decide
  unfold PortCtr.reg portReg at h
  generalize c.ctorIdx = i at h hi
  omega

theorem applyFence_rget (s : State) (q p : Nat) : (s.applyFence q).rget (portReg p 0x118) = s.rget (portReg p 0x118) := by
  unfold State.applyFence
  dsimp only
  rw [alarm_rget _ _ _ _ _ _ _ (by unfold portReg telReg; omega) (by unfold portReg; omega) (by unfold portReg; omega)]
  have h1 : ∀ (t : State), (t.bump (cdReg 0x208)).rget (portReg p 0x118) = t.rget (portReg p 0x118) := fun t =>
    State.rget_bump_ne _ _ _ _ (by unfold cdReg portReg; omega)
  split
  · rw [portStops_rget _ _ _ (score_off p), h1]
    rfl
  · rw [h1]
    rfl

theorem requestFence_rget (s : State) (q p : Nat) (w b : Bool) (m : List (Nat × Nat)) :
    (s.requestFence q w b m).1.rget (portReg p 0x118) = s.rget (portReg p 0x118) := by
  unfold State.requestFence
  repeat' split
  · rfl
  · rfl
  · exact applyFence_rget ..
  · show (State.alarm _ _ _ _ _ _).rget _ = _
    rw [alarm_rget _ _ _ _ _ _ _ (by unfold portReg telReg; omega) (by unfold portReg; omega) (by unfold portReg; omega)]
    rw [State.rget_bump_ne _ _ _ _ (by unfold cdReg portReg; omega)]
    rfl

theorem judgeFalls_score (s : State) (l : List Nat) (m : List (Nat × Nat)) (p : Nat) : (s.judgeFalls l m).score p = s.score p := by
  unfold State.score State.fget
  congr 1
  unfold State.judgeFalls
  split
  · rfl
  · exact each_keeps (fun s => s.rget (portReg p 0x118)) _ (fun s x => requestFence_rget ..) _ _

theorem score_of_rget {s t : State} {p : Nat} (h : t.rget (portReg p 0x118) = s.rget (portReg p 0x118)) : t.score p = s.score p := by
  unfold State.score State.fget
  rw [h]

theorem requestFence_flagsUp (s : State) (a : Nat) (w b : Bool) (m : List (Nat × Nat)) (p : Nat) :
    (((s.requestFence a w b m).1).port p).up = (s.port p).up := by
  have key : ∀ t : State, t.flags p = s.flags p → (t.port p).up = (s.port p).up := fun t h => congrArg (fun x => x.2.2.2.1) h
  unfold State.requestFence
  repeat' split
  · rfl
  · rfl
  · exact congrArg (fun x => x.2.2.2.1) (applyFence_flags s a p)
  · refine key _ ?_
    dsimp only
    rw [flags_frame (l := [.regs, .mgmt, .aer]) (by decide) (alarm_blank _ (by decide) (by decide) (by decide) _ _ _ _ _ _)]
    exact (flags_frame (l := [.regs]) (by decide) (bump_blank _ (by decide) _ _ _) p).trans rfl

theorem judgeFalls_up (s : State) (l : List Nat) (m : List (Nat × Nat)) (p : Nat) : ((s.judgeFalls l m).port p).up = (s.port p).up := by
  unfold State.judgeFalls
  split
  · rfl
  · exact each_keeps (fun s => (s.port p).up) _ (fun s x => requestFence_flagsUp ..) _ _

def noneFor (s : State) (p : Nat) : Prop := ∀ x ∈ s.sw.egress, x.port ≠ p

theorem discard_egress (s : State) (q : Nat) (c : PortCtr) : (s.discardQueued q c).sw.egress = s.sw.egress.filter fun x => x.port != q := by
  have hl : ∀ (s : State) (x : Cell), (s.cellLeaves x).sw.egress = s.sw.egress := by
    intro s x
    unfold State.cellLeaves
    repeat' split
    all_goals rfl
  unfold State.discardQueued
  dsimp only
  refine (each_keeps (fun s => s.sw.egress) _ (fun s f => ?_) _ _).trans ?_
  · show (List.foldl _ _ _ : State).sw.egress = _
    refine (foldl_keeps (fun s => s.sw.egress) _ (fun s c => hl ..) _ _).trans ?_
    split
    · unfold State.truncate
      show (List.foldl _ _ _ : State).sw.egress = _
      exact (foldl_keeps (fun s => s.sw.egress) State.cellLeaves (fun s c => hl ..) _ _).trans rfl
    · exact foldl_keeps (fun s => s.sw.egress) State.cellLeaves (fun s c => hl ..) _ _
  · show (State.each _ _ _ : State).sw.egress.filter _ = _
    congr 1
    refine each_keeps (fun s => s.sw.egress) _ (fun s x => ?_) _ _
    unfold State.egressDiscard
    rw [egressGone_egress]
    rfl

theorem portStops_none (s : State) (q p : Nat) (h : q = p ∨ noneFor s p) : noneFor (s.portStops q) p := by
  have he : (s.portStops q).sw.egress = s.sw.egress.filter fun x => x.port != q := by
    unfold State.portStops
    exact discard_egress ..
  intro x hx
  rw [he, List.mem_filter] at hx
  rcases h with rfl | h
  · simpa using hx.2
  · exact h x hx.1

theorem noneFor_sw {s t : State} (h : t.sw.egress = s.sw.egress) (p : Nat) (hs : noneFor s p) : noneFor t p := by
  unfold noneFor
  rw [h]
  exact hs

theorem applyFence_none (s : State) (q p : Nat) (h : noneFor s p) : noneFor (s.applyFence q) p := by
  unfold State.applyFence
  dsimp only
  refine noneFor_sw (congrArg SwitchSt.egress (State.alarm_sw ..)) p ?_
  split
  · exact portStops_none _ _ _ (.inr (noneFor_sw rfl p h))
  · exact noneFor_sw rfl p h

theorem judgeFalls_none (s : State) (l : List Nat) (m : List (Nat × Nat)) (p : Nat) (h : noneFor s p) : noneFor (s.judgeFalls l m) p := by
  unfold State.judgeFalls
  split
  · exact h
  · refine each_holds (fun s => noneFor s p) _ _ (fun s x _ hs => ?_) _ h
    unfold State.requestFence
    repeat' split
    · exact hs
    · exact noneFor_sw rfl p hs
    · exact applyFence_none _ _ _ hs
    · exact noneFor_sw (congrArg SwitchSt.egress (State.alarm_sw ..)) p (noneFor_sw rfl p hs)

theorem scoreFalls_sw (s : State) (p n : Nat) (e : AerLink) : (s.scoreFalls p n e).1.sw = s.sw := rfl

theorem scoreFalls_score (s : State) (p n : Nat) (e : AerLink) : (s.scoreFalls p n e).1.score p = s.score p - n := by
  have : s.score p < 256 := by
    unfold State.score State.fget bits
    omega
  unfold State.scoreFalls
  show State.fget (State.fset _ _ 7 0 _) _ 7 0 = _
  rw [State.fget_fset_same _ _ _ _ _ (by decide)]
  exact Nat.mod_eq_of_lt (by omega)

theorem takeDown_parts (s : State) (p cond : Nat) : ((s.takeDown p cond).port p).up = false
    ∧ ((s.portState p = 1 ∨ s.portState p = 3 ∨ s.portState p = 4) → noneFor (s.takeDown p cond) p)
    ∧ ((s.port p).up = true → s.portState p = 1 ∨ s.portState p = 3 → (s.takeDown p cond).score p = s.score p - 64) := by
  have hc : ∀ (c : Prop) [Decidable c], ((if c then (s.setPort p fun x => { x with up := false, goodSince := s.clk.up }).portStops p
      else s.setPort p fun x => { x with up := false, goodSince := s.clk.up }).port p).up = false := by
    intro c _
    have h0 : ((s.setPort p fun x => { x with up := false, goodSince := s.clk.up }).port p).up = false := by rw [State.port_setPort_same]
    split
    · exact (congrArg (fun x => x.2.2.2.1) (portStops_flags _ p p)).trans h0
    · exact h0
  have hsc : ∀ (c : Prop) [Decidable c], ((if c then (s.setPort p fun x => { x with up := false, goodSince := s.clk.up }).portStops p
      else s.setPort p fun x => { x with up := false, goodSince := s.clk.up })).score p = s.score p := by
    intro c _
    split
    · exact score_of_rget ((portStops_rget _ _ _ (score_off p)).trans rfl)
    · rfl
  have hn : (s.portState p = 1 ∨ s.portState p = 3 ∨ s.portState p = 4) → noneFor (if s.portState p = 1 ∨ s.portState p = 3 ∨ s.portState p = 4
      then (s.setPort p fun x => { x with up := false, goodSince := s.clk.up }).portStops p else s.setPort p fun x => { x with up := false, goodSince := s.clk.up }) p := by
    intro h
    rw [if_pos h]
    exact portStops_none _ _ _ (.inl rfl)
  obtain ⟨z, hz, q1, q2, q3⟩ : ∃ z : State, z = (if s.portState p = 1 ∨ s.portState p = 3 ∨ s.portState p = 4
      then (s.setPort p fun x => { x with up := false, goodSince := s.clk.up }).portStops p else s.setPort p fun x => { x with up := false, goodSince := s.clk.up })
      ∧ (z.port p).up = false ∧ z.score p = s.score p ∧ ((s.portState p = 1 ∨ s.portState p = 3 ∨ s.portState p = 4) → noneFor z p) :=
    ⟨_, rfl, hc _, hsc _, hn⟩
  unfold State.takeDown
  dsimp only
  rw [← hz]
  clear hz hc hsc hn
  split
  · unfold State.penalize
    have f1 := scoreFalls_sw z p 64 (condLink 0x0401 cond)
    have f2 := scoreFalls_score z p 64 (condLink 0x0401 cond)
    generalize z.scoreFalls p 64 (condLink 0x0401 cond) = r at f1 f2
    dsimp only
    refine ⟨?_, ?_, ?_⟩
    · rw [judgeFalls_up, port_of_sw f1]
      exact q1
    · intro h
      exact judgeFalls_none _ _ _ _ (noneFor_sw (congrArg SwitchSt.egress f1) p (q3 h))
    · intro _ _
      rw [judgeFalls_score, f2, q2]
  · rename_i hh
    refine ⟨q1, q3, ?_⟩
    intro h1 h2
    exfalso
    apply hh
    rw [h1]
    rcases h2 with h2 | h2 <;> rw [h2] <;> rfl

theorem darkLane_enabled (s : State) (l p : Nat) : ((s.darkLane l).port p).enabled = (s.port p).enabled := by
  unfold State.darkLane
  exact changeLane_enabled ..

theorem enabled_of_sw {s t : State} (h : t.sw = s.sw) (p : Nat) : (t.port p).enabled = (s.port p).enabled := by
  unfold State.port
  rw [h]

theorem fiberReturned_sw (s : State) (f : Nat) : (s.fiberReturned f).sw = s.sw := by
  unfold State.fiberReturned
  split <;> rfl

theorem up_of_sw {s t : State} (h : t.sw = s.sw) (p : Nat) : (t.port p).up = (s.port p).up ∧ (t.port p).enabled = (s.port p).enabled := by
  unfold State.port
  rw [h]
  exact ⟨rfl, rfl⟩

theorem recoverScore_spec (s : State) (p : Nat) : (s.recoverScore p).score p = if s.score p = 255 ∨ s.flt.hurt.contains p then s.score p else s.score p + 1 := by
  have hlt : s.score p < 256 := by
    unfold State.score State.fget bits
    omega
  unfold State.recoverScore
  split
  · rfl
  · rename_i h
    show State.fget (State.fset _ _ 7 0 _) _ 7 0 = _
    rw [State.fget_fset_same _ _ _ _ _ (by decide)]
    refine Nat.mod_eq_of_lt ?_
    omega

theorem recoverScore_other (s : State) (p q : Nat) (h : q ≠ p) : (s.recoverScore q).rget (portReg p 0x118) = s.rget (portReg p 0x118) ∧ (s.recoverScore q).flt = s.flt := by
  unfold State.recoverScore
  split
  · exact ⟨rfl, rfl⟩
  · refine ⟨State.rget_rset_ne _ _ _ _ (by unfold portReg; omega), rfl⟩

def recCtx (s : State) (c : Nat) : State := s.setCtx c fun x => { x with members := x.members.map fun kv => (kv.1, recoverMember kv.2) }

/-- The end of an interval over a list of ports. -/
def recovered (R : List Nat) (s : State) : State :=
  let s := s.each R State.recoverScore
  let s := s.each (s.col.ctxs.map Prod.fst) recCtx
  s.setFlt fun f => { f with
    interval := f.interval + f.period, period := s.fget (cdReg 0x1A8) 23 0, penalty := [], hurt := [] }

theorem health_exec (s : State) (h : s.flt.interval + s.flt.period ≤ s.clk.up) : exec .healthRecoverInterval s = done s (recovered (List.range 1024) s) := by
  show execHealthRecoverInterval s = _
  unfold execHealthRecoverInterval recovered recCtx
  rw [if_pos h]

theorem health_all (s : State) (h : s.flt.interval + s.flt.period ≤ s.clk.up) :
    ∃ R : List Nat, R.Nodup ∧ (∀ port : PortNo, port.val ∈ R) ∧ exec .healthRecoverInterval s = done s (recovered R s) :=
  ⟨List.range 1024, List.nodup_range, fun port => List.mem_range.mpr port.isLt, health_exec s h⟩

theorem rejudge_one (s : State) (h : HeldFence) (hh : s.flt.held = [h]) : s.rejudgeFences =
    (let drop := fun (s : State) => s.setFlt fun f => { f with held := f.held.filter fun g => g.port != h.port }
    if (s.port h.port).fenced || !s.heldStands h then drop s
    else if s.fenceAllowed h.port then s.applyFence h.port
    else s) := by
  unfold State.rejudgeFences
  rw [hh]
  rfl

theorem applyFence_flt (s : State) (p : Nat) : (s.applyFence p).flt = { s.flt with fences := s.clk.up :: s.flt.fences, held := s.flt.held.filter fun h => h.port != p } := by
  unfold State.applyFence
  dsimp only
  rw [State.alarm_flt]
  have hp : ∀ t : State, (t.portStops p).flt = t.flt := fun t =>
    (onlyTouches_of_blank (l := [.regs, .sw, .col, .out]) (portStops_blank _ (by decide) (by decide) (by decide) (by decide) t p)).2 .flt (by decide)
  split
  · rw [hp]
    rfl
  · rfl

end Sys2Proof.Machine
end

