-- ==== Sys2Proof/Laws/RingMoves.lean ====
section
/-! SUPPORT. Lemmas about ring events. -/

namespace Sys2Proof.Machine

theorem refreshDtd_pho (s : State) (d : DieNo) (n : Fin 512) : (s.refreshDtd d n).pho = s.pho := by
  unfold State.refreshDtd
  dsimp only
  repeat' split
  all_goals first | rfl | exact alarm_same (p := .pho) (by decide) ..

theorem ring_of (s t : State) (r : Ring) (h : t.pho = s.pho) (h2 : t.sys.unpinned = s.sys.unpinned) : t.ring r = s.ring r := by
  have h3 : t.sys.unpinned.serving = s.sys.unpinned.serving := congrArg SysSt.serving h2
  have h4 : t.sys.unpinned.stage = s.sys.unpinned.stage := congrArg SysSt.stage h2
  have h3 : t.sys.serving = s.sys.serving := h3
  have h4 : t.sys.stage = s.sys.stage := h4
  cases r <;> (unfold State.ring; try unfold State.dtdDefault State.atStage) <;> rw [h] <;> try rw [h3, h4]

theorem refreshDtd_sys (s : State) (d : DieNo) (n : Fin 512) : (s.refreshDtd d n).sys.unpinned = s.sys.unpinned := by
  have h := onlyTouches_of_blank (l := [.aer, .mgmt, .regs, .sw]) (refreshDtd_blank _ (by decide) (by decide) (by decide) (by decide) s d n)
  exact h.2 .sys (by decide)

theorem moveRing_ring (s : State) (r : Ring) (x : RingSt) : (s.moveRing r x).ring r = x := by
  cases r with
  | tx f w => exact moveRing_ring_tx ..
  | rx f w => exact moveRing_ring_rx ..
  | dtdTx d l b =>
    show ((s.putRing _ x).refreshDtd d l).ring _ = x
    rw [ring_of _ _ _ (refreshDtd_pho ..) (refreshDtd_sys ..)]
    show mgetD (mput _ _ _) _ _ = x
    rw [mgetD_mput_same]
  | dtdRx d l e =>
    show ((s.putRing _ x).refreshDtd d l).ring _ = x
    rw [ring_of _ _ _ (refreshDtd_pho ..) (refreshDtd_sys ..)]
    show mgetD (mput _ _ _) _ _ = x
    rw [mgetD_mput_same]

theorem resweepRing_ring (s : State) (r : Ring) : (s.resweepRing r).ring r = { state := .sweep } := by
  unfold State.resweepRing
  exact moveRing_ring ..

/-- The meaning's next state reads a ring as the operation left it. -/
theorem ring_next (s Y : State) (r : Ring) : State.ring { settle Y with pending := s.pending } r = Y.ring r := by
  cases r <;> rfl

end Sys2Proof.Machine
end

