-- ==== Sys2Proof/Laws/LaneMoves.lean ====
section
/-! SUPPORT. Lemmas about lane moves. -/

namespace Sys2Proof.Machine

theorem relane_pho (s : State) (l : Nat) : (s.relane l).pho = (s.setLane l fun x => { x with state := s.laneJudged l }).pho := by
  unfold State.relane
  dsimp only
  repeat' split
  all_goals first
    | exact changeLane_pho ..
    | exact (takeDown_pho ..).trans ((State.alarm_pho ..).trans (changeLane_pho ..))
    | exact (State.alarm_pho ..).trans (changeLane_pho ..)

theorem placed_of {s t : State} (h : t.pho.lanes = s.pho.lanes) (l : Nat) : t.placed l = s.placed l := by
  unfold State.placed State.lane
  rw [h]

theorem relane_placed (s : State) (l k : Nat) : (s.relane l).placed k = s.placed k := by
  rw [placed_of (congrArg PhotonSt.lanes (relane_pho s l))]
  unfold State.placed
  by_cases h : k = l
  · subst h
    rw [State.lane_setLane_same]
  · rw [State.lane_setLane_ne _ _ _ _ h]

theorem refreshDtd_pho' (s : State) (d : DieNo) (n : Fin 512) : (s.refreshDtd d n).pho = s.pho := by
  unfold State.refreshDtd
  dsimp only
  repeat' split
  all_goals first | rfl | exact alarm_same (p := .pho) (by decide) ..

theorem resweep_placed (s : State) (r : Ring) (k : Nat) : (s.resweepRing r).placed k = s.placed k := by
  have h1 : ∀ (t : State) (x : RingSt), (t.moveRing r x).placed k = t.placed k := by
    intro t x
    have hc : ∀ (u : State) (a b : Nat), (u.relaneCarrier a b).placed k = u.placed k := by
      intro u a b
      unfold State.relaneCarrier
      generalize (List.map _ _ : List Nat) = l
      induction l generalizing u with
      | nil => rfl
      | cons a l ih => exact (ih _).trans (relane_placed ..)
    unfold State.moveRing
    cases r
    · exact (hc ..).trans rfl
    · exact (hc ..).trans rfl
    · exact (placed_of (congrArg PhotonSt.lanes (refreshDtd_pho' ..)) k).trans rfl
    · exact (placed_of (congrArg PhotonSt.lanes (refreshDtd_pho' ..)) k).trans rfl
  have hl : ∀ (o : Option Nat) (a : Nat), (s.laneCtr o a).placed k = s.placed k := fun o a => placed_of (by rw [laneCtr_pho]) k
  unfold State.resweepRing
  dsimp only
  rw [h1]
  cases r <;> first | rfl | exact hl _ _

theorem placed_next (s Y : State) (l : Nat) : State.placed { settle Y with pending := s.pending } l = Y.placed l := rfl

end Sys2Proof.Machine
end

