-- ==== Sys2Proof/Laws/FeedMoves.lean ====
section
/-! SUPPORT. Lemmas about feeds and modules. -/

namespace Sys2Proof.Machine

theorem consumerChanged_offLanes (s : State) (c : Nat) : (s.consumerChanged c).offLanes = s.offLanes := by
  unfold State.consumerChanged
  split
  · unfold State.refreshWaveguide
    exact each_keeps State.offLanes _ (fun _ _ => offLanes_of (refreshDtd_pho' ..)) _ _
  · exact each_keeps State.offLanes _ (fun _ _ => relane_offLanes ..) _ _

theorem els_off {s t : State} (h : t.offLanes = s.offLanes) (m : Nat) : t.els m = s.els m := by
  have : t.offLanes.els = s.offLanes.els := congrArg PhotonSt.els h
  have : t.pho.els = s.pho.els := this
  unfold State.els
  rw [this]

theorem lost_off {s t : State} (h : t.offLanes = s.offLanes) (q : Nat) (b : Bool) : t.feedLost q b = s.feedLost q b := by
  have : t.offLanes.feedsLost = s.offLanes.feedsLost := congrArg PhotonSt.feedsLost h
  have : t.pho.feedsLost = s.pho.feedsLost := this
  unfold State.feedLost
  rw [this]

theorem alarm_offLanes (s : State) (base b c d : Nat) (l : List AerLink) : (s.alarm base b c d l).offLanes = s.offLanes := offLanes_of (State.alarm_pho ..)

theorem alarmPlain_offLanes (s : State) (base b d : Nat) : (s.alarmPlain base b d).offLanes = s.offLanes := offLanes_of (State.alarmPlain_pho ..)

theorem feedKey_inj {q r : Nat} {a b : Bool} (h : feedKey q a = feedKey r b) : q = r ∧ a = b := by
  unfold feedKey b2n at h
  cases a <;> cases b <;> simp at h ⊢ <;> omega

/-- What a feed event does to the feeds and modules. -/
theorem feedEvent_off (s : State) (q : Nat) (b : Bool) :
    (∀ r a, (s.feedEvent q b).feedLost r a = s.feedLost r a ∨ (s.feedEvent q b).feedLost r a = true)
    ∧ (∀ m, ((s.feedEvent q b).els m).safeIdle = (s.els m).safeIdle ∧ ((s.feedEvent q b).els m).present = (s.els m).present)
    ∧ (reservePair q = false → s.atStage 1 = true → (s.els (feedModule q b)).safeIdle = false → (s.feedEvent q b).feedLost q b = true) := by
  have hlost : ∀ r a, (s.setPho fun p => { p with feedsLost := mput p.feedsLost (feedKey q b) s.clk.up }).feedLost r a = s.feedLost r a
      ∨ (s.setPho fun p => { p with feedsLost := mput p.feedsLost (feedKey q b) s.clk.up }).feedLost r a = true := by
    intro r a
    unfold State.feedLost
    show (mget (mput s.pho.feedsLost _ _) _).isSome = _ ∨ _
    show _ ∨ (mget (mput s.pho.feedsLost _ _) _).isSome = true
    rw [mget_mput]
    split
    · exact .inr rfl
    · exact .inl rfl
  have hown : (s.setPho fun p => { p with feedsLost := mput p.feedsLost (feedKey q b) s.clk.up }).feedLost q b = true := by
    unfold State.feedLost
    show (mget (mput s.pho.feedsLost _ _) _).isSome = true
    rw [mget_mput_same]
    rfl
  have hkeep : ∀ (t : State) (k : Nat) (g : ElsSt → ElsSt), (∀ x, (g x).safeIdle = x.safeIdle ∧ (g x).present = x.present) → ∀ m,
      ((t.setEls k g).els m).safeIdle = (t.els m).safeIdle ∧ ((t.setEls k g).els m).present = (t.els m).present := by
    intro t k g hg m
    unfold State.els State.setEls
    dsimp only
    by_cases h : m = k
    · subst h
      rw [mgetD_mupd_same]
      exact hg _
    · rw [mgetD_mupd_ne _ _ _ _ _ _ h]
      exact ⟨rfl, rfl⟩
  have key : ∀ (y z : State), (∀ r a, y.feedLost r a = z.feedLost r a) → (∀ r a, z.feedLost r a = s.feedLost r a ∨ z.feedLost r a = true) → z.feedLost q b = true →
      (∀ m, (y.els m).safeIdle = (s.els m).safeIdle ∧ (y.els m).present = (s.els m).present) →
      (∀ r a, y.feedLost r a = s.feedLost r a ∨ y.feedLost r a = true)
      ∧ (∀ m, (y.els m).safeIdle = (s.els m).safeIdle ∧ (y.els m).present = (s.els m).present)
      ∧ (reservePair q = false → s.atStage 1 = true → (s.els (feedModule q b)).safeIdle = false → y.feedLost q b = true) := by
    intro y z h1 h2 h3 h4
    refine ⟨fun r a => by rw [h1]; exact h2 r a, h4, fun _ _ _ => by rw [h1]; exact h3⟩
  unfold State.feedEvent
  dsimp only
  split
  · rename_i hg
    refine ⟨fun _ _ => .inl rfl, fun _ => ⟨rfl, rfl⟩, ?_⟩
    intro h1 h2 h3
    rw [h1, h2, h3] at hg
    simpa using hg
  · split
    · refine key _ _ (fun r a => ?_) hlost hown (fun m => ?_)
      · rw [lost_off (alarmPlain_offLanes ..), lost_off (consumerChanged_offLanes ..), lost_off (consumerChanged_offLanes ..)]
      · rw [els_off (alarmPlain_offLanes ..), els_off (consumerChanged_offLanes ..), els_off (consumerChanged_offLanes ..)]
        exact ⟨rfl, rfl⟩
    · refine key _ _ (fun r a => ?_) hlost hown (fun m => ?_)
      · rw [lost_off (alarm_offLanes ..)]
        rfl
      · rw [els_off (alarm_offLanes ..)]
        have hif : ∀ (x : ElsSt) (u v : Int) (k : Bool), (if x.forced then x else { x with pre0 := u, pre1 := v, forced := k } : ElsSt).safeIdle = x.safeIdle
            ∧ (if x.forced then x else { x with pre0 := u, pre1 := v, forced := k } : ElsSt).present = x.present := by
          intro x u v k
          split <;> exact ⟨rfl, rfl⟩
        show ((State.setEls _ _ _).els m).safeIdle = _ ∧ ((State.setEls _ _ _).els m).present = _
        obtain ⟨e1, e2⟩ := hkeep _ _ _ (fun x => hif x _ _ _) m
        refine ⟨e1.trans ?_, e2.trans ?_⟩
        · exact (hkeep _ _ _ (fun x => hif x _ _ _) m).1
        · exact (hkeep _ _ _ (fun x => hif x _ _ _) m).2

theorem els_page_ne {m n o a : Nat} (ho : o < 4096) (ha : a < 4096) (h : m ≠ n) : elsReg m o ≠ elsReg n a := by
  unfold elsReg
  omega

theorem sel_of_fset (s : State) (q v : Nat) (hv : v < 4) : (s.setSelector q v).selector q = v := by
  unfold State.selector State.setSelector
  rw [State.fget_fset_same _ _ _ _ _ (by omega)]
  have e : 2 * (q % 16) + 1 + 1 - 2 * (q % 16) = 2 := by omega
  rw [e]
  exact Nat.mod_eq_of_lt hv

theorem sel_of_rget {s t : State} {q : Nat} (h : t.rget (pblReg (0x110 + 4 * (q / 16))) = s.rget (pblReg (0x110 + 4 * (q / 16)))) : t.selector q = s.selector q := by
  unfold State.selector State.fget
  rw [h]

theorem feedEvent_one (s : State) (q : Nat) (b : Bool) (hq : q < 288) (hl : s.feedLit q b) (h2 : s.feedLost q (!b) = false) :
    (s.feedEvent q b).selector q = (if b then 1 else 2)
    ∧ (s.feedEvent q b).rget (setpointReg (feedModule q (!b)) (feedOutput q)) = 1900 := by
  obtain ⟨h1, h3, h4, h5⟩ := hl
  have ho : feedOutput q ≤ 1 := by
    unfold feedOutput
    omega
  have hm : feedModule q (!b) < 32 := by
    unfold feedModule
    cases b <;> simp <;> omega
  have h2' : (s.setPho fun p => { p with feedsLost := mput p.feedsLost (feedKey q b) s.clk.up }).feedLost q (!b) = false := by
    rw [← h2]
    unfold State.feedLost
    show (mget (mput s.pho.feedsLost _ _) _).isSome = _
    rw [mget_mput_ne _ _ _ _ (fun h => by have := (feedKey_inj h).2; cases b <;> simp at this)]
  unfold State.feedEvent
  dsimp only
  rw [h1, h3, h4, h5, if_neg (by simp), h2', if_neg (by simp)]
  generalize feedModule q (!b) = n at hm ⊢
  generalize feedModule q b = m
  generalize hz : (s.setPho fun p => { p with feedsLost := mput p.feedsLost (feedKey q b) s.clk.up }) = z
  constructor
  · rw [sel_of_rget (s := z.setSelector q (if b = true then 1 else 2))]
    · exact sel_of_fset _ _ _ (by split <;> omega)
    · rw [alarm_rget _ _ _ _ _ _ _ (by unfold pblReg telReg; omega) (by unfold pblReg elsReg; omega) (by unfold pblReg elsReg; omega)]
      unfold State.fset
      rw [State.rget_rset_ne _ _ _ _ (by unfold pblReg elsReg; omega), State.rget_rset_ne _ _ _ _ (by unfold pblReg setpointReg elsReg; omega)]
      rfl
  · rw [alarm_rget _ _ _ _ _ _ _ (by unfold setpointReg elsReg telReg; omega) (by unfold setpointReg elsReg; omega) (by unfold setpointReg elsReg; omega)]
    unfold State.fset
    rw [State.rget_rset_ne _ _ _ _ (by unfold setpointReg elsReg; omega), State.rget_rset_same]
    rfl

theorem feedEvent_two (s : State) (q : Nat) (b : Bool) (hl : s.feedLit q b) (h2 : s.feedLost q (!b) = true) :
    (s.feedEvent q b).bget (elsReg (feedModule q b) 0x010) 25 = true := by
  obtain ⟨h1, h3, h4, h5⟩ := hl
  have h2' : (s.setPho fun p => { p with feedsLost := mput p.feedsLost (feedKey q b) s.clk.up }).feedLost q (!b) = true := by
    rw [← h2]
    unfold State.feedLost
    show (mget (mput s.pho.feedsLost _ _) _).isSome = _
    rw [mget_mput_ne _ _ _ _ (fun h => by have := (feedKey_inj h).2; cases b <;> simp at this)]
  unfold State.feedEvent
  dsimp only
  rw [h1, h3, h4, h5, if_neg (by simp), h2', if_pos rfl]
  exact alarm_bit _ (elsReg _ 0) 25 _ _ _ (by decide) (by unfold elsReg telReg; omega)

theorem feedEvent_stage (s : State) (q : Nat) (b : Bool) : (s.feedEvent q b).atStage 1 = s.atStage 1 := by
  have h := onlyTouches_of_blank (l := [.regs, .sw, .pho, .mgmt, .col, .aer, .flt, .out]) (feedEvent_blank _ (by decide) (by decide) (by decide) (by decide) (by decide) (by decide) (by decide) (by decide) s q b)
  have h1 : (s.feedEvent q b).sys.unpinned = s.sys.unpinned := h.2 .sys (by decide)
  have h2 : (s.feedEvent q b).sys.unpinned.serving = s.sys.unpinned.serving := congrArg SysSt.serving h1
  have h3 : (s.feedEvent q b).sys.unpinned.stage = s.sys.unpinned.stage := congrArg SysSt.stage h1
  have h2 : (s.feedEvent q b).sys.serving = s.sys.serving := h2
  have h3 : (s.feedEvent q b).sys.stage = s.sys.stage := h3
  unfold State.atStage
  rw [h2, h3]

theorem modulePairs_module {m q : Nat} (hm : m < 32) (hq : q ∈ modulePairs m) : feedModule q (decide (16 ≤ m)) = m ∧ reservePair q = false := by
  unfold modulePairs at hq
  rw [List.mem_filter] at hq
  obtain ⟨h1, h2⟩ := hq
  obtain ⟨i, hi, rfl⟩ := List.mem_map.mp h1
  have := List.mem_range.mp hi
  refine ⟨?_, by simpa using h2⟩
  unfold feedModule
  by_cases h : 16 ≤ m <;> simp [h] <;> omega

theorem moduleLost_lost (s : State) (m : Nat) (hm : m < 32) (h1 : s.atStage 1 = true) (h2 : (s.els m).safeIdle = false) (q : Nat) (hq : q ∈ modulePairs m) :
    (s.moduleLost m).feedLost q (decide (16 ≤ m)) = true := by
  obtain ⟨hf, hr⟩ := modulePairs_module hm hq
  unfold State.moduleLost
  obtain ⟨l1, l2, hl⟩ := List.append_of_mem hq
  rw [hl]
  have hap : ∀ (a b : List Nat) (f : State → Nat → State) (t : State), t.each (a ++ b) f = (t.each a f).each b f := fun a b f t => List.foldl_append ..
  rw [hap]
  have e1 := each_keeps (fun t => (t.els m).safeIdle) (fun s q => s.feedEvent q (decide (16 ≤ m))) (fun t x => ((feedEvent_off t x _).2.1 m).1) l1 s
  have e2 := each_keeps (fun t => t.atStage 1) (fun s q => s.feedEvent q (decide (16 ≤ m))) (fun t x => feedEvent_stage ..) l1 s
  generalize s.each l1 (fun s q => s.feedEvent q (decide (16 ≤ m))) = t at e1 e2
  show (((t.feedEvent q (decide (16 ≤ m))).each l2 _)).feedLost q _ = true
  refine each_holds (fun u => u.feedLost q (decide (16 ≤ m)) = true) _ l2 ?_ _ ?_
  · intro u x _ hu
    rcases (feedEvent_off u x (decide (16 ≤ m))).1 q (decide (16 ≤ m)) with h | h
    · rw [h]; exact hu
    · exact h
  · refine (feedEvent_off t q _).2.2 hr (e2.trans h1) ?_
    rw [hf]
    exact e1.trans h2

theorem finish_spec (s : State) (m : Nat) (hm : m < 32) : ((s.finishRestore m).els m).safeIdle = false
    ∧ (∀ q ∈ modulePairs m, (s.finishRestore m).feedLost q (decide (16 ≤ m)) = false) ∧ (s.finishRestore m).pho.restoring = s.pho.restoring := by
  have hb : ∀ (l : List Nat) (f g : Nat → Nat) (t : State), (t.each l fun s q => (s.consumerChanged (f q)).consumerChanged (g q)).offLanes = t.offLanes := by
    intro l f g t
    exact each_keeps State.offLanes _ (fun _ _ => (consumerChanged_offLanes ..).trans (consumerChanged_offLanes ..)) l t
  have hres : ∀ {a b : State}, a.offLanes = b.offLanes → a.pho.restoring = b.pho.restoring := fun {a b} h =>
    (congrArg PhotonSt.restoring h : a.offLanes.restoring = b.offLanes.restoring)
  have hm0 : ∀ (t : State) (k : Nat) (g : ElsSt → ElsSt), (∀ x, (g x).safeIdle = x.safeIdle) → ((t.setEls k g).els m).safeIdle = (t.els m).safeIdle := by
    intro t k g hg
    unfold State.els State.setEls
    dsimp only
    by_cases h : m = k
    · subst h
      rw [mgetD_mupd_same]
      exact hg _
    · rw [mgetD_mupd_ne _ _ _ _ _ _ h]
  unfold State.finishRestore
  dsimp only
  generalize (if decide (16 ≤ m) = true then m - 16 else m + 16) = n
  refine ⟨?_, ?_, ?_⟩
  · rw [els_off (hb _ _ _ _)]
    show ((if _ then _ else _ : State).els m).safeIdle = false
    split
    · refine Eq.trans (hm0 (State.setEls s m fun x => { x with safeIdle := false, forced := false }) n (fun y => { y with forced := false }) (fun _ => rfl)) ?_
      rw [State.els_setEls_same]
    · refine Eq.trans (show _ = ((State.setEls s m fun x => { x with safeIdle := false, forced := false }).els m).safeIdle from rfl) ?_
      rw [State.els_setEls_same]
  · intro q hq
    rw [lost_off (hb _ _ _ _)]
    have hg : (mget ((s.pho.feedsLost).filter fun kv => !((modulePairs m).any fun q => feedKey q (decide (16 ≤ m)) == kv.1)) (feedKey q (decide (16 ≤ m)))).isSome = false := by
      rw [Option.isSome_eq_false_iff, Option.isNone_iff_eq_none]
      generalize s.pho.feedsLost = l
      induction l with
      | nil => rfl
      | cons x l ih =>
        rw [List.filter_cons]
        split
        · rename_i hx
          have hne : x.1 ≠ feedKey q (decide (16 ≤ m)) := by
            intro he
            rw [← he] at ih
            have : ((modulePairs m).any fun q => feedKey q (decide (16 ≤ m)) == x.1) = true := List.any_eq_true.mpr ⟨q, hq, by rw [he]; simp⟩
            rw [this] at hx
            simp at hx
          unfold mget
          rw [if_neg (by simpa using hne)]
          exact ih
        · exact ih
    show (if _ then _ else _ : State).feedLost q _ = false
    split <;> exact hg
  · rw [hres (hb _ _ _ _)]
    show (if _ then _ else _ : State).pho.restoring = _
    split <;> rfl

theorem bias_rget (s : State) (margins : List Int) (m o : Nat) (a : Nat) (ha : ∃ k v, k < 32 ∧ v < 2 ∧ a = setpointReg k v) (hm : m < 32) (ho : o < 2) :
    (a ≠ setpointReg m o → (s.biasOutput margins m o).rget a = s.rget a)
    ∧ (1600 ≤ s.rget a → s.rget a ≤ 1900 → 1600 ≤ (s.biasOutput margins m o).rget a ∧ (s.biasOutput margins m o).rget a ≤ 1900) := by
  obtain ⟨k, v, hk, hv, rfl⟩ := ha
  unfold State.biasOutput
  dsimp only
  split
  · exact ⟨fun _ => rfl, fun h1 h2 => ⟨h1, h2⟩⟩
  · generalize (List.foldl _ _ _ : Option Int) = lowest
    generalize hx : (s.setEls m _) = z
    have hzr : ∀ a, z.rget a = s.rget a := by
      intro a
      rw [← hx]
      rfl
    have hal : ∀ (t : State) (c d : Nat) (l : List AerLink), ((t.fset (elsReg m 0x100) 3 3 1).alarm (elsReg m 0) 17 c d l).rget (setpointReg k v) = t.rget (setpointReg k v) := by
      intro t c d l
      rw [alarm_rget _ _ _ _ _ _ _ (by unfold setpointReg elsReg telReg; omega) (by unfold setpointReg elsReg; omega) (by unfold setpointReg elsReg; omega)]
      unfold State.fset
      rw [State.rget_rset_ne _ _ _ _ (by unfold setpointReg elsReg; omega)]
    have hmain : ∀ w, ((1600 ≤ s.rget (setpointReg m o) → s.rget (setpointReg m o) ≤ 1900 → 1600 ≤ w ∧ w ≤ 1900)) →
        (setpointReg k v ≠ setpointReg m o → (z.rset (setpointReg m o) w).rget (setpointReg k v) = s.rget (setpointReg k v))
        ∧ (1600 ≤ s.rget (setpointReg k v) → s.rget (setpointReg k v) ≤ 1900 →
          1600 ≤ (z.rset (setpointReg m o) w).rget (setpointReg k v) ∧ (z.rset (setpointReg m o) w).rget (setpointReg k v) ≤ 1900) := by
      intro w hw
      constructor
      · intro h
        rw [State.rget_rset_ne _ _ _ _ h, hzr]
      · intro h1 h2
        by_cases h : setpointReg k v = setpointReg m o
        · rw [h] at h1 h2 ⊢
          obtain ⟨w1, w2⟩ := hw h1 h2
          rw [State.rget_rset_same, Nat.mod_eq_of_lt (by omega)]
          exact ⟨w1, w2⟩
        · rw [State.rget_rset_ne _ _ _ _ h, hzr]
          exact ⟨h1, h2⟩
    have hup := hmain (min 1900 (s.rget (setpointReg m o) + 10)) (by omega)
    have hdn := hmain (max 1600 (s.rget (setpointReg m o) - 10)) (by omega)
    repeat' split
    all_goals first
      | exact hup
      | exact hdn
      | (rw [hal]; exact hup)
      | exact ⟨fun _ => hzr _, fun h1 h2 => by rw [hzr]; exact ⟨h1, h2⟩⟩

theorem foldl_min_some (g : Option Int → Int → Option Int) (h1 : ∀ v, g none v = some v) (h2 : ∀ a v, g (some a) v = some (min a v)) (l : List Int) (a : Int) :
    ∃ v, v ≤ a ∧ (∀ x ∈ l, v ≤ x) ∧ l.foldl g (some a) = some v := by
  induction l generalizing a with
  | nil => exact ⟨a, le_refl _, by simp, rfl⟩
  | cons x l ih =>
    obtain ⟨v, h3, h4, h5⟩ := ih (min a x)
    refine ⟨v, by omega, ?_, ?_⟩
    · intro y hy
      rcases List.mem_cons.mp hy with rfl | hy
      · omega
      · exact h4 y hy
    · rw [List.foldl_cons, h2]
      exact h5

theorem foldl_min (g : Option Int → Int → Option Int) (h1 : ∀ v, g none v = some v) (h2 : ∀ a v, g (some a) v = some (min a v)) (l : List Int) (x : Int) (hx : x ∈ l) :
    ∃ v, v ≤ x ∧ l.foldl g none = some v := by
  cases l with
  | nil => cases hx
  | cons a l =>
    obtain ⟨v, h3, h4, h5⟩ := foldl_min_some g h1 h2 l a
    refine ⟨v, ?_, ?_⟩
    · rcases List.mem_cons.mp hx with rfl | hx
      · exact h3
      · exact h4 x hx
    · rw [List.foldl_cons, h1]
      exact h5

theorem bias_raise (s : State) (margins : List Int) (m : Nat) (hm : m < 32) (h1 : (s.els m).safeIdle = false) (h2 : (s.els m).present = true) (h3 : (s.els m).suitable = true)
    (h4 : ∃ c ∈ s.outputConsumers m 0, ∃ v ∈ s.marginsOf margins c, v < (s.rget (pblReg 0x100) : Int)) :
    (s.biasOutput margins m 0).rget (setpointReg m 0) = min 1900 (s.rget (setpointReg m 0) + 10) := by
  obtain ⟨c, hc, v, hv, hlt⟩ := h4
  unfold State.biasOutput
  dsimp only
  rw [h1, h2, h3, if_neg (by simp)]
  generalize hl : List.foldl _ _ _ = lowest
  obtain ⟨w, hw, rfl⟩ : ∃ w, w ≤ v ∧ lowest = some w := by
    rw [← hl]
    exact foldl_min _ (fun _ => rfl) (fun _ _ => rfl) _ v (List.mem_flatMap.mpr ⟨c, hc, hv⟩)
  dsimp only
  rw [if_pos (by rw [Bool.or_eq_true]; left; simp; omega)]
  have hal : ∀ (t : State) (c d : Nat) (l : List AerLink), ((t.fset (elsReg m 0x100) 3 3 1).alarm (elsReg m 0) 17 c d l).rget (setpointReg m 0) = t.rget (setpointReg m 0) := by
    intro t c d l
    rw [alarm_rget _ _ _ _ _ _ _ (by unfold setpointReg elsReg telReg; omega) (by unfold setpointReg elsReg; omega) (by unfold setpointReg elsReg; omega)]
    unfold State.fset
    rw [State.rget_rset_ne _ _ _ _ (by unfold setpointReg elsReg; omega)]
  split
  · rw [hal, State.rget_rset_same, Nat.mod_eq_of_lt (by omega)]
  · rw [State.rget_rset_same, Nat.mod_eq_of_lt (by omega)]

theorem bias_idle (s : State) (margins : List Int) (m o : Nat) (h : (s.els m).safeIdle = true) : s.biasOutput margins m o = s := by
  unfold State.biasOutput
  dsimp only
  rw [h]
  rfl

theorem bias_els (s : State) (margins : List Int) (m o k : Nat) : ((s.biasOutput margins m o).els k).safeIdle = (s.els k).safeIdle := by
  unfold State.biasOutput
  dsimp only
  split
  · rfl
  · generalize hx : (s.setEls m _) = z
    have hz : (z.els k).safeIdle = (s.els k).safeIdle := by
      rw [← hx]
      unfold State.els State.setEls
      dsimp only
      by_cases h : k = m
      · subst h
        rw [mgetD_mupd_same]
        split <;> rfl
      · rw [mgetD_mupd_ne _ _ _ _ _ _ h]
    repeat' split
    all_goals first
      | exact hz
      | (rw [els_off (alarm_offLanes ..)]; exact hz)

theorem each_only {f : State → Nat → State} {P : State → Prop} (m n : Nat) (hm : m < n)
    (hid : ∀ t k, P t → k ≠ m → k < n → f t k = t) (hp : ∀ t, P t → P (f t m)) (s : State) (hs : P s) : s.each (List.range n) f = f s m := by
  have h0 : ∀ (l : List Nat) (t : State), P t → (∀ k ∈ l, k ≠ m ∧ k < n) → t.each l f = t := by
    intro l
    induction l with
    | nil => intros; rfl
    | cons a l ih =>
      intro t ht hl
      show (f t a).each l f = t
      rw [hid t a ht (hl a (by simp)).1 (hl a (by simp)).2]
      exact ih t ht fun k hk => hl k (by simp [hk])
  have hr : List.range n = List.range m ++ m :: (List.range (n - m - 1)).map (m + 1 + ·) := by
    have e1 : List.range n = List.range (m + (n - m)) := by congr 1; omega
    have e2 : List.range (n - m) = 0 :: (List.range (n - m - 1)).map Nat.succ := by
      have : n - m = (n - m - 1) + 1 := by omega
      rw [this, List.range_succ_eq_map]
      simp
    rw [e1, List.range_add, e2]
    simp only [List.map_cons, List.map_map, Nat.add_zero]
    congr 2
    refine List.map_congr_left ?_
    intro a _
    show m + (a + 1) = m + 1 + a
    omega
  have hap : ∀ (a b : List Nat) (t : State), t.each (a ++ b) f = (t.each a f).each b f := fun a b t => List.foldl_append ..
  rw [hr, hap, h0 _ s hs]
  · show (f s m).each _ f = f s m
    refine h0 _ _ (hp s hs) ?_
    intro k hk
    obtain ⟨i, hi, rfl⟩ := List.mem_map.mp hk
    have := List.mem_range.mp hi
    omega
  · intro k hk
    have := List.mem_range.mp hk
    omega

end Sys2Proof.Machine
end

