-- ==== Sys2Proof/Laws/TagBlocks.lean ====
section
/-! SUPPORT. Lemmas about lane-tag blocks. -/

namespace Sys2Proof.Machine

theorem beBytes_length (n v : Nat) : (beBytes n v).length = n := by
  induction n generalizing v with
  | zero => rfl
  | succ n ih => simp [beBytes, ih]

theorem tagBlock_length (s : State) (lane f w : Nat) (m : Bool) (e : Nat × Nat × Nat) (r : Bytes) (h : r.length = 16) :
    (s.tagBlock lane f w m e r).length = 64 := by
  unfold State.tagBlock crc32cTrailer zeros
  dsimp only
  cases m <;> simp [beBytes_length, h]

theorem nextReport_length (s : State) (g : Nat) : (s.nextReport g).2.length = 16 := by
  unfold State.nextReport
  dsimp only
  split
  · rfl
  · dsimp only
    simp [beBytes_length, zeros]

theorem nextReport_out (s : State) (g : Nat) : (s.nextReport g).1.out = s.out := by
  unfold State.nextReport
  dsimp only
  split <;> rfl

theorem portEcho_out (s : State) (p : Nat) : (s.portEcho p).1.out = s.out := by
  unfold State.portEcho
  repeat' split
  all_goals rfl

/-- A walk that sends one thing for each entry. -/
theorem each_sends {α : Type} (f : State → α → State) (P : Sent → α → Prop) (h : ∀ s x, ∃ o, (f s x).out = o :: s.out ∧ P o x) (l : List α) (s : State) :
    ∃ os, (s.each l f).out = os ++ s.out ∧ List.Forall₂ P os l.reverse := by
  induction l generalizing s with
  | nil => exact ⟨[], rfl, by simp⟩
  | cons a l ih =>
    obtain ⟨o, ho, hp⟩ := h s a
    obtain ⟨os, h1, h2⟩ := ih (f s a)
    refine ⟨os ++ [o], ?_, ?_⟩
    · show ((f s a).each l f).out = _
      rw [h1, ho, List.append_assoc]
      rfl
    · rw [List.reverse_cons]
      exact List.rel_append h2 (List.Forall₂.cons hp List.Forall₂.nil)

theorem tagBlocksTx_out (s : State) (p : Nat) (h1 : s.atStage 1 = true) (h2 : s.isFabric p = true) (h3 : (s.port p).enabled = true)
    (h4 : (s.port p).kite = false) (h5 : s.fatal = false) :
    ∃ blocks, (s.tagBlocksTx p).out = blocks ++ s.out
      ∧ List.Forall₂ (fun (x : Sent) (c : Nat × Nat) => ∃ b, x = .tag c.1 c.2 b ∧ b.length = 64) blocks (s.portCarriers p).reverse := by
  unfold State.tagBlocksTx
  rw [h1, h2, h3, h4, h5, if_neg (by simp)]
  dsimp only
  obtain ⟨os, ho, hp⟩ := each_sends (fun t c =>
      let lane := t.tagLane c.1 c.2
      let first := some lane == (s.portLanes p).find? s.laneInService
      let r := t.nextReport (grpOf c.1)
      r.1.send (.tag c.1 c.2 (r.1.tagBlock lane c.1 c.2 (first && ((s.isMaster || (s.upstreamOf p).isNone) || (s.portEcho p).2.1 != 0)) (if first then (s.portEcho p).2 else (0, 0, 0)) r.2)))
    (fun (x : Sent) (c : Nat × Nat) => ∃ b, x = .tag c.1 c.2 b ∧ b.length = 64) (by
      intro t c
      exact ⟨_, congrArg (List.cons _) (nextReport_out ..), _, rfl, tagBlock_length _ _ _ _ _ _ _ (nextReport_length ..)⟩) (s.portCarriers p) (s.portEcho p).1
  rw [portEcho_out] at ho
  exact ⟨os, ho, hp⟩

theorem heard_of {s t : State} (h : t.pho.carriers = s.pho.carriers) (f w : Nat) : t.heard f w = s.heard f w := by
  unfold State.heard State.carrier
  rw [h]

theorem carrier_of {s t : State} (h : t.pho.carriers = s.pho.carriers) (f w : Nat) : t.carrier f w = s.carrier f w := by
  unfold State.carrier
  rw [h]

theorem heard_setCarrier (s : State) (f w a b : Nat) (g : CarrierSt → CarrierSt)
    (hg : ∀ c, ((g c).missing, (g c).chip, (g c).power, (g c).mismatch, (g c).heldGood, (g c).low)
      = (c.missing, c.chip, c.power, c.mismatch, c.heldGood, c.low)) : (s.setCarrier a b g).heard f w = s.heard f w := by
  unfold State.heard State.carrier State.setCarrier
  dsimp only
  by_cases h : f * 9 + w = a * 9 + b
  · rw [h, mgetD_mupd_same]
    exact hg _
  · rw [mgetD_mupd_ne _ _ _ _ _ _ h]

theorem carrier_setCarrier (s : State) (f w : Nat) (g : CarrierSt → CarrierSt) : (s.setCarrier f w g).carrier f w = g (s.carrier f w) := by
  unfold State.carrier State.setCarrier
  exact mgetD_mupd_same ..

theorem carrier_setCarrier_ne (s : State) (f v w : Nat) (g : CarrierSt → CarrierSt) (h : v ≠ w) : (s.setCarrier f w g).carrier f v = s.carrier f v := by
  unfold State.carrier State.setCarrier
  exact mgetD_mupd_ne s.pho.carriers (f * 9 + w) (f * 9 + v) {} {} g (by omega)

theorem heard_setLane (s : State) (l f w : Nat) (g : LaneSt → LaneSt) : (s.setLane l g).heard f w = s.heard f w := rfl

theorem judge_heard (s : State) (f w a b : Nat) (st : RxState) (r : Nat) : (s.judgeCarrier a b st r).heard f w = s.heard f w := by
  unfold State.judgeCarrier
  dsimp only
  split
  · rfl
  · exact heard_setCarrier _ _ _ _ _ _ fun c => rfl

theorem offLanes_carriers {s t : State} (h : t.offLanes = s.offLanes) : t.pho.carriers = s.pho.carriers := by
  have := congrArg PhotonSt.carriers h
  exact this

theorem relane_carriers (s : State) (l : Nat) : (s.relane l).pho.carriers = s.pho.carriers := offLanes_carriers (relane_offLanes ..)

theorem moveRing_carriers (s : State) (r : Ring) (x : RingSt) : (s.moveRing r x).pho.carriers = s.pho.carriers :=
  (offLanes_carriers (moveRing_offLanes ..)).trans (by cases r <;> rfl)

theorem resweep_carriers (s : State) (r : Ring) : (s.resweepRing r).pho.carriers = s.pho.carriers := by
  unfold State.resweepRing
  dsimp only
  rw [moveRing_carriers]
  cases r <;> first | rfl | (dsimp only; rw [laneCtr_pho])

theorem answerMove_carriers (s : State) (l : Nat) (b : Bool) : (s.answerMove l b).pho.carriers = s.pho.carriers := by
  have hb : ∀ (c : Prop) [Decidable c] (t : State) (a : Nat), (if c then t.bump a else t).pho.carriers = t.pho.carriers := by
    intro c _ t a
    split <;> rfl
  unfold State.answerMove
  split
  · rfl
  · dsimp only
    repeat' split
    all_goals first
      | rfl
      | exact each_keeps (fun s => s.pho.carriers) (fun s (m : Nat × (Nat × Nat)) => s.setMove m.1 (some m.2)) (fun _ _ => rfl) _ _
      | exact each_keeps (fun s => s.pho.carriers) (fun s (k : Nat) => s.setMove k none) (fun _ _ => rfl) _ _

theorem answerMove_heard (s : State) (l f w : Nat) (b : Bool) : (s.answerMove l b).heard f w = s.heard f w := heard_of (answerMove_carriers ..) f w

theorem resweep_heard (s : State) (r : Ring) (f w : Nat) : (s.resweepRing r).heard f w = s.heard f w := heard_of (resweep_carriers ..) f w

theorem moveRing_heard (s : State) (r : Ring) (x : RingSt) (f w : Nat) : (s.moveRing r x).heard f w = s.heard f w := heard_of (moveRing_carriers ..) f w

theorem relane_heard (s : State) (l f w : Nat) : (s.relane l).heard f w = s.heard f w := heard_of (relane_carriers ..) f w

theorem rset_heard (s : State) (a v f w : Nat) : (s.rset a v).heard f w = s.heard f w := rfl

theorem setMove_heard (s : State) (l : Nat) (c : Option (Nat × Nat)) (f w : Nat) : (s.setMove l c).heard f w = s.heard f w := rfl

theorem laneCtr_heard (s : State) (l : Option Nat) (o f w : Nat) : (s.laneCtr l o).heard f w = s.heard f w := heard_of (by rw [laneCtr_pho]) f w

theorem report_heard (s : State) (f w a b : Nat) (st : RxState) (m : Int) (u : Nat) :
    (s.setCarrier a b fun x => { x with farState := some st, farMargin := m, farUp := u }).heard f w = s.heard f w :=
  heard_setCarrier _ _ _ _ _ _ fun c => rfl

theorem homeGood_heard (s : State) (f w a b : Nat) :
    (s.setCarrier a b fun x => { x with homeGood := 0 }).heard f w = s.heard f w :=
  heard_setCarrier _ _ _ _ _ _ fun c => rfl

theorem takeReport_heard (s : State) (f w a b : Nat) (r : Bytes) : (s.takeReport a b r).heard f w = s.heard f w := by
  unfold State.takeReport
  dsimp only
  repeat' split
  all_goals simp only [answerMove_heard, resweep_heard, rset_heard, setMove_heard, report_heard, laneCtr_heard]

theorem takeLane_heard (s : State) (l f w a b : Nat) : (s.takeLane l a b).heard f w = s.heard f w := by
  unfold State.takeLane
  dsimp only
  split
  · rfl
  · split <;> simp only [relane_heard, heard_setLane, judge_heard, homeGood_heard]

theorem homeCheck_heard (s : State) (f w a b : Nat) : (s.homeCheck a b).heard f w = s.heard f w := by
  unfold State.homeCheck
  repeat' (first | split | dsimp only)
  all_goals first | rfl | exact judge_heard ..

theorem askAgain_heard (s : State) (g f w : Nat) : (s.askAgain g).heard f w = s.heard f w := by
  unfold State.askAgain
  exact each_keeps (fun s => s.heard f w) _ (fun _ _ => judge_heard ..) _ _

theorem peerMismatch_heard (s : State) (l a b c d f w : Nat) : (s.peerMismatch l a b c d).heard f w = s.heard f w := by
  unfold State.peerMismatch
  dsimp only
  rw [heard_of (congrArg PhotonSt.carriers (State.alarm_pho ..)), heard_of (relane_carriers ..), heard_setLane, judge_heard]

/-- What a valid block leads to once it is stored. -/
def judgeRest (s : State) (f w : Nat) (first : Option Nat) (c : CarrierSt) (ring : RingState) (wrong : Prop) [Decidable wrong] (lane chip : Nat) : State :=
  if wrong then
    if c.mismatch + 1 = 2 then
      let s := s.laneCtr first 0x48
      (s.judgeCarrier f w .tagMismatch 1).resweepRing (rxRingOf f w)
    else s
  else
    let s := if ring = .hold ∧ 2 ≤ c.heldGood + 1 then s.moveRing (rxRingOf f w) { state := .locked } else s
    let s := if lane = 0xFFE then
        match s.laneOnRx f w with
        | some l => (s.setLane l fun x => { x with rx := none }).relane l
        | none => s
      else if lane = 0xFFF then
        if (w = 8 ∨ (256 ≤ f ∧ f < 288)) ∧ c.chip = 0 then s.askAgain (grpOf f) else s
      else s
    if 0xFFE ≤ lane then (s.judgeCarrier f w .ok (s.carrier f w).request).homeCheck f w
    else
      let l := namedLane f lane
      let known := if l < 2048 then s.rget (portReg (s.lanePort l) 0x1A8) else chip
      let s := if l < 2048 ∧ known = 0 then s.rset (portReg (s.lanePort l) 0x1A8) chip else s
      let inPort := match first with
        | some k => decide (2048 ≤ k) || w == 8 || decide (256 ≤ f) || s.lanePort k == s.lanePort l
        | none => true
      if (known ≠ 0 ∧ known ≠ chip) ∨ !inPort then
        let s := s.setCarrier f w fun x => { x with foreign := c.foreign + 1 }
        if c.foreign + 1 = 2 then s.peerMismatch (first.getD l) f w chip lane else s
      else
        let s := s.setCarrier f w fun x => { x with foreign := 0 }
        let s := s.takeLane l f w
        if 64 ≤ (s.carrier f w).low then s.judgeCarrier f w .lowPower 0 else s.judgeCarrier f w .ok 0

theorem ite_heard (c : Prop) [Decidable c] (a b : State) (f w : Nat) : (if c then a else b).heard f w = if c then a.heard f w else b.heard f w := by
  split <;> rfl

theorem foreign_heard (s : State) (f w a b n : Nat) : (s.setCarrier a b fun x => { x with foreign := n }).heard f w = s.heard f w :=
  heard_setCarrier _ _ _ _ _ _ fun c => rfl

theorem judgeRest_heard (z : State) (f w : Nat) (first : Option Nat) (c : CarrierSt) (ring : RingState) (wrong : Prop) [Decidable wrong] (lane chip : Nat) :
    (judgeRest z f w first c ring wrong lane chip).heard f w = z.heard f w := by
  unfold judgeRest
  by_cases hw : wrong
  · rw [if_pos hw]
    by_cases h2 : c.mismatch + 1 = 2
    · rw [if_pos h2]
      dsimp only
      rw [resweep_heard, judge_heard, laneCtr_heard]
    · rw [if_neg h2]
  · rw [if_neg hw]
    generalize hy : (if ring = .hold ∧ 2 ≤ c.heldGood + 1 then z.moveRing (rxRingOf f w) { state := .locked } else z) = y
    have hyh : y.heard f w = z.heard f w := by
      rw [← hy, ite_heard, moveRing_heard, ite_self]
    rw [← hyh]
    clear hyh hy
    dsimp only
    generalize hx : (if lane = 0xFFE then _ else _ : State) = x
    have hxh : x.heard f w = y.heard f w := by
      rw [← hx]
      repeat' split
      all_goals simp only [relane_heard, heard_setLane, askAgain_heard]
    rw [← hxh]
    clear hxh hx
    by_cases hl : 0xFFE ≤ lane
    · rw [if_pos hl, homeCheck_heard, judge_heard]
    · rw [if_neg hl]
      simp only [ite_heard, peerMismatch_heard, foreign_heard, judge_heard, takeLane_heard, rset_heard, ite_self]

theorem judgeBlock_rest (s : State) (f w : Nat) (b : Bytes) (power : Int) :
    ∃ (z : State) (first : Option Nat) (c : CarrierSt) (ring : RingState),
      s.judgeBlock f w b power = judgeRest z f w first c ring (byteAt b 16 % 16 ≠ w) (fld b 12 2 % 4096) (fld b 4 8)
      ∧ z.heard f w = (0, BitVec.ofNat 64 (fld b 4 8), power,
      (if byteAt b 16 % 16 = w then 0 else (s.carrier f w).mismatch + 1),
      (if byteAt b 16 % 16 = w then (s.carrier f w).heldGood + 1 else 0),
      (if power + 1300 < 50 then (s.carrier f w).low + 1 else 0)) := by
  unfold State.judgeBlock
  dsimp only
  cases ho : s.laneOf f w with
  | none =>
    refine ⟨_, none, _, _, rfl, ?_⟩
    unfold State.heard
    rw [carrier_setCarrier]
    dsimp only
    by_cases hw : byteAt b 16 % 16 = w
    · rw [if_neg (not_not.mpr hw), if_neg (not_not.mpr hw), if_pos hw, if_pos hw]
    · rw [if_pos hw, if_pos hw, if_neg hw, if_neg hw]
  | some l =>
    refine ⟨_, some l, _, _, rfl, ?_⟩
    unfold State.heard
    rw [carrier_setCarrier]
    dsimp only
    by_cases hw : byteAt b 16 % 16 = w
    · rw [if_neg (not_not.mpr hw), if_neg (not_not.mpr hw), if_pos hw, if_pos hw]
      rfl
    · rw [if_pos hw, if_pos hw, if_neg hw, if_neg hw]
      rfl

theorem judgeBlock_heard (s : State) (f w : Nat) (b : Bytes) (power : Int) :
    (s.judgeBlock f w b power).heard f w = (0, BitVec.ofNat 64 (fld b 4 8), power,
      (if byteAt b 16 % 16 = w then 0 else (s.carrier f w).mismatch + 1),
      (if byteAt b 16 % 16 = w then (s.carrier f w).heldGood + 1 else 0),
      (if power + 1300 < 50 then (s.carrier f w).low + 1 else 0)) := by
  obtain ⟨z, first, c, ring, he, hz⟩ := judgeBlock_rest s f w b power
  rw [he, judgeRest_heard]
  exact hz

theorem markerRx_pho (s : State) (p a : Nat) (c : TickNo) (ph : Int) : (s.markerRx p a c ph).pho = s.pho :=
  (onlyTouches_of_blank (l := [.regs, .clk, .cal, .mgmt, .aer])
    (markerRx_blank _ (by decide) (by decide) (by decide) (by decide) (by decide) s p a c ph)).2 .pho (by decide)

theorem takeEcho_pho (s : State) (p : Nat) (b : Bytes) (x : Nat) : (s.takeEcho p b x).pho = s.pho :=
  (onlyTouches_of_blank (l := [.regs, .clk]) (takeEcho_blank _ (by decide) (by decide) s p b x)).2 .pho (by decide)

theorem bringUp_pho (s : State) (p : Nat) : (s.bringUp p).pho = s.pho :=
  (onlyTouches_of_blank (l := [.sw]) (bringUp_blank _ (by decide) s p)).2 .pho (by decide)

theorem returnPorts_carriers (s : State) (f : Nat) : (s.returnPorts f).pho.carriers = s.pho.carriers := by
  have h1 : ∀ l : List Nat, (s.each l fun s p => if s.mode p = 0 ∧ !(s.port p).up ∧ s.lanesNow p = s.lanesWide p then s.bringUp p else s).pho.carriers = s.pho.carriers := by
    intro l
    refine each_keeps (fun s => s.pho.carriers) _ ?_ _ _
    intro s x
    split
    · exact congrArg PhotonSt.carriers (bringUp_pho ..)
    · rfl
  unfold State.returnPorts
  split
  · rfl
  · dsimp only
    split
    · exact h1 _
    · exact h1 _

theorem tagBlockRx_heard (s : State) (f w : Nat) (b : Bytes) (power phase : Int) (rxPs : Nat) (h : s.listens f w)
    (h1 : fld b 0 2 = 0x4C54) (h2 : fld b 60 4 = (crc32c (b.take 60)).toNat) (h3 : byteAt b 2 = 1) :
    (s.tagBlockRx f w b power phase rxPs).heard f w = (s.judgeBlock f w b power).heard f w := by
  obtain ⟨ha, hb, hc⟩ := h
  unfold State.tagBlockRx
  dsimp only
  rw [if_neg (by rw [ha, hc]; rcases hb with hb | hb <;> rw [hb] <;> decide), if_neg (by rw [h1, h2]; simp), if_neg (by simp [h3])]
  rw [heard_of (returnPorts_carriers ..)]
  have hA : ∀ (t : State) (l : Option Nat), (match l with
      | some l =>
        if l < 2048 then
          (if bit (byteAt b 3) 0 then t.markerRx (t.lanePort l) (fld b 18 2) (BitVec.ofNat 48 (fld b 20 6)) phase else t).takeEcho (t.lanePort l) b rxPs
        else t.setTwin fun x => { x with tagUp := t.clk.up }
      | none => t).heard f w = t.heard f w := by
    intro t l
    cases l with
    | none => rfl
    | some l =>
      dsimp only
      split
      · rw [heard_of (congrArg PhotonSt.carriers (takeEcho_pho ..))]
        split
        · exact heard_of (congrArg PhotonSt.carriers (markerRx_pho ..)) f w
        · rfl
      · rfl
  split
  · rw [takeReport_heard]
    exact hA _ _
  · exact hA _ _

theorem blockMissing_carrier (s : State) (f w : Nat) (light : Bool) :
    ((s.blockMissing f w light).carrier f w).missing = (s.carrier f w).missing + 1
    ∧ ((s.carrier f w).missing = 1 → light = true →
        ((s.blockMissing f w light).carrier f w).rxState = .tagMissing ∧ ((s.blockMissing f w light).carrier f w).request = 1) := by
  have hl : (s.laneCtr (s.laneOf f w) 0x60).carrier f w = s.carrier f w := carrier_of (by rw [laneCtr_pho]) f w
  have hj : ∀ (t : State) (st : RxState) (r : Nat), ((t.judgeCarrier f w st r).carrier f w).rxState = st ∧ ((t.judgeCarrier f w st r).carrier f w).request = r
      ∧ ((t.judgeCarrier f w st r).carrier f w).missing = (t.carrier f w).missing := by
    intro t st r
    unfold State.judgeCarrier
    dsimp only
    split
    · rename_i h
      exact ⟨h.1, h.2, rfl⟩
    · rw [carrier_setCarrier]
      exact ⟨rfl, rfl, rfl⟩
  unfold State.blockMissing
  dsimp only
  rw [hl]
  constructor
  · split
    · rw [carrier_of (resweep_carriers ..), (hj ..).2.2, carrier_setCarrier]
    · rw [carrier_setCarrier]
  · intro h1 h2
    rw [if_pos ⟨by omega, h2⟩, carrier_of (resweep_carriers ..)]
    exact ⟨(hj ..).1, (hj ..).2.1⟩

theorem rxRing_lt (f : Fin 290) (w : Fin 9) : rxRingOf f.val w.val = .rx f w := by
  unfold rxRingOf
  simp

theorem execTagRx (s : State) (fiber : Fin 290) (wave : Fin 9) (b : Bytes) (power phase : Int) (rxPs : Nat) :
    exec (.laneTagBlockRx fiber wave b power phase rxPs) s = done s (s.tagBlockRx fiber.val wave.val b power phase rxPs) := rfl

theorem resweepRing_rx (s : State) (f : Fin 290) (w : Fin 9) : (s.resweepRing (.rx f w)).ring (.rx f w) = { state := .sweep } := by
  unfold State.resweepRing
  exact moveRing_ring_rx ..

theorem kiteMap_rset (s : State) (a v : Nat) (h : a < kiteReg 0x100 ∨ kiteReg 0x200 ≤ a) : (s.rset a v).kiteMap = s.kiteMap := by
  unfold State.kiteMap
  refine List.flatMap_congr ?_
  intro w hw
  rw [State.rget_rset_ne]
  have := List.mem_range.mp hw
  rintro rfl
  unfold kiteReg at h
  omega

/-- What the loss of light leads to once the power is stored. -/
def noLightRest (s : State) (f w : Nat) : State :=
  let lit := (s.rxInService f).filter fun v => v != w && (s.carrier f v).rxState != .noLight
  let quiet := s.kiteChanging f || s.feedQuiet f
  if quiet then s.judgeCarrier f w .noLight 0
  else if lit.isEmpty then
    s.each (s.rxInService f) fun s v => s.judgeCarrier f v .noLight 2
  else s.judgeCarrier f w .noLight 1

theorem lane_over_kite (l o : Nat) (ho : o < 128) : laneReg l o < kiteReg 0x100 ∨ kiteReg 0x200 ≤ laneReg l o := by
  unfold laneReg kiteReg lanePage
  split <;> omega

theorem noLight_rest (s : State) (f : Fin 290) (w : Fin 9) (power : Int) :
    ∃ z, s.noLight f w power = noLightRest z f w ∧ z.pho = (s.setCarrier f w fun c => { c with power := power }).pho ∧ z.cal = s.cal
      ∧ z.clk = s.clk ∧ z.kiteMap = s.kiteMap := by
  unfold State.noLight
  dsimp only
  cases ho : (s.setCarrier f w fun c => { c with power := power }).laneOf f w with
  | none => exact ⟨_, rfl, rfl, rfl, rfl, rfl⟩
  | some l => exact ⟨_, rfl, rfl, rfl, rfl, kiteMap_rset _ _ _ (lane_over_kite _ _ (by decide))⟩

theorem noLight_spec (s : State) (f : Fin 290) (w : Fin 9) (power : Int) (hon : (s.laneOnRx f.val w.val).isSome)
    (hk : s.kiteChanging f.val = false) (hq : s.feedQuiet f.val = false) :
    ((s.noLight f w power).carrier f w).rxState = .noLight ∧ ((s.noLight f w power).carrier f w).power = power
    ∧ ((∃ v < 9, v ≠ w.val ∧ (s.laneOnRx f.val v).isSome ∧ (s.carrier f v).rxState ≠ .noLight) → ((s.noLight f w power).carrier f w).request = 1)
    ∧ ((∀ v < 9, v ≠ w.val → (s.laneOnRx f.val v).isSome → (s.carrier f v).rxState = .noLight) →
        ∀ v < 9, (s.laneOnRx f.val v).isSome → ((s.noLight f w power).carrier f v).request = 2) := by
  have hj : ∀ (t : State) (v : Nat) (st : RxState) (r : Nat), ((t.judgeCarrier f v st r).carrier f v).rxState = st ∧ ((t.judgeCarrier f v st r).carrier f v).request = r
      ∧ ((t.judgeCarrier f v st r).carrier f v).power = (t.carrier f v).power := by
    intro t v st r
    unfold State.judgeCarrier
    dsimp only
    split
    · rename_i h
      exact ⟨h.1, h.2, rfl⟩
    · rw [carrier_setCarrier]
      exact ⟨rfl, rfl, rfl⟩
  have hne : ∀ (t : State) (v u : Nat) (st : RxState) (r : Nat), u ≠ v → (t.judgeCarrier f v st r).carrier f u = t.carrier f u := by
    intro t v u st r huv
    unfold State.judgeCarrier
    dsimp only
    split
    · rfl
    · exact carrier_setCarrier_ne _ _ _ _ _ huv
  obtain ⟨z, he, hp, hc, hclk, hkm⟩ := noLight_rest s f w power
  rw [he]
  unfold noLightRest
  dsimp only
  have hrx : ∀ v, z.laneOnRx f v = s.laneOnRx f v := by
    intro v
    unfold State.laneOnRx
    rw [hp]
    rfl
  have hcar : ∀ v, z.carrier f v = (s.setCarrier f w fun c => { c with power := power }).carrier f v := fun v => carrier_of (by rw [hp]) f v
  have hcw : (z.carrier f w) = { s.carrier f w with power := power } := by rw [hcar, carrier_setCarrier]
  have hcn : ∀ v, v ≠ w.val → z.carrier f v = s.carrier f v := by
    intro v hv
    rw [hcar]
    exact carrier_setCarrier_ne _ _ _ _ _ hv
  have hkz : z.kiteChanging f = false := by
    rw [← hk]
    unfold State.kiteChanging
    rw [hc, hkm]
  have hqz : z.feedQuiet f = false := by
    rw [← hq]
    unfold State.feedQuiet
    rw [hp, hclk]
    rfl
  rw [hkz, hqz, if_neg (by simp)]
  have hserv : ∀ v, v ∈ z.rxInService f ↔ v < 9 ∧ (s.laneOnRx f v).isSome := by
    intro v
    unfold State.rxInService
    simp [hrx]
  have hkeepP : ∀ (l : List Nat) (t : State), ((t.each l fun s v => s.judgeCarrier f v .noLight 2).carrier f w).power = (t.carrier f w).power := by
    intro l t
    refine each_keeps (fun t => (t.carrier f w).power) _ ?_ _ _
    intro t x
    by_cases hx : w.val = x
    · subst hx; exact (hj ..).2.2
    · exact congrArg CarrierSt.power (hne _ _ _ _ _ hx)
  have hall : ∀ (l : List Nat) (t : State) (v : Nat), v ∈ l → ((t.each l fun s v => s.judgeCarrier f v .noLight 2).carrier f v).request = 2
      ∧ ((t.each l fun s v => s.judgeCarrier f v .noLight 2).carrier f v).rxState = .noLight := by
    intro l t v hv
    refine each_brings (fun t => (t.carrier f v).request = 2 ∧ (t.carrier f v).rxState = .noLight) _ l v hv ?_ ?_ t
    · intro t
      exact ⟨(hj ..).2.1, (hj ..).1⟩
    · intro t x h0
      by_cases hx : v = x
      · subst hx; exact fun _ => ⟨(hj ..).2.1, (hj ..).1⟩
      · rw [hne _ _ _ _ _ hx]; exact id
  split
  · rename_i hlit
    have hno : ∀ v < 9, v ≠ w.val → (s.laneOnRx f v).isSome → (s.carrier f v).rxState = .noLight := by
      intro v hv hvw hvs
      by_contra hcon
      have hm : v ∈ (z.rxInService f).filter fun v => v != w.val && (z.carrier f v).rxState != .noLight := by
        rw [List.mem_filter]
        refine ⟨(hserv v).mpr ⟨hv, hvs⟩, ?_⟩
        rw [hcn v hvw]
        simp [hvw, hcon]
      rw [List.isEmpty_iff.mp hlit] at hm
      simp at hm
    have hw := hall (z.rxInService f) z w ((hserv _).mpr ⟨w.isLt, hon⟩)
    refine ⟨hw.2, ?_, ?_, ?_⟩
    · rw [hkeepP, hcw]
    · rintro ⟨v, hv, hvw, hvs, hvn⟩
      exact absurd (hno v hv hvw hvs) hvn
    · intro _ v hv hvs
      exact (hall _ z v ((hserv v).mpr ⟨hv, hvs⟩)).1
  · rename_i hlit
    refine ⟨(hj ..).1, ?_, fun _ => (hj ..).2.1, ?_⟩
    · rw [(hj ..).2.2, hcw]
    · intro h
      exfalso
      apply hlit
      rw [List.isEmpty_iff, List.filter_eq_nil_iff]
      intro v hv
      obtain ⟨h9, hs⟩ := (hserv v).mp hv
      by_cases hvw : v = w.val
      · simp [hvw]
      · rw [hcn v hvw, h v h9 hvw hs]
        simp

end Sys2Proof.Machine
end

