-- ==== Sys2Proof/Laws/LaneActs.lean ====
section
/-! SUPPORT. Lemmas about lane and bank commands. -/

namespace Sys2Proof.Machine

theorem lane_of_pho {s t : State} (h : t.pho = s.pho) (l : Nat) : t.lane l = s.lane l := by unfold State.lane; rw [h]

theorem cmdsOf_lane1 (l : Nat) : cmdsOf [3, 2, 1, 0] (1 + l % 2) = 1 + l % 2 := by
  rcases Nat.mod_two_eq_zero_or_one l with h | h <;> rw [h] <;> rfl

theorem cmdsOf_lane4 (l : Nat) : cmdsOf [3, 2, 1, 0] (4 * (1 + l % 2)) = 4 * (1 + l % 2) := by
  rcases Nat.mod_two_eq_zero_or_one l with h | h <;> rw [h] <;> rfl

theorem onesOf_lane1 (l : Nat) : onesOf (1 + l % 2) ≤ 1 := by
  rcases Nat.mod_two_eq_zero_or_one l with h | h <;> rw [h] <;> decide

theorem onesOf_lane4 (l : Nat) : onesOf (4 * (1 + l % 2)) ≤ 1 := by
  rcases Nat.mod_two_eq_zero_or_one l with h | h <;> rw [h] <;> decide

theorem laneCommand_reset (s : State) (l : Nat) : s.laneCommand (l / 2 * 2) (1 + l % 2) = s.resetLane l := by
  unfold State.laneCommand
  rcases Nat.mod_two_eq_zero_or_one l with h | h <;> rw [h]
  · show s.resetLane (l / 2 * 2) = _
    rw [show l / 2 * 2 = l by omega]
  · show s.resetLane (l / 2 * 2 + 1) = _
    rw [show l / 2 * 2 + 1 = l by omega]

theorem laneCommand_resweep (s : State) (l : Nat) : s.laneCommand (l / 2 * 2) (4 * (1 + l % 2)) = { state := s.resweepLane l } := by
  unfold State.laneCommand
  rcases Nat.mod_two_eq_zero_or_one l with h | h <;> rw [h]
  · show ({ state := s.resweepLane (l / 2 * 2) } : Effect) = _
    rw [show l / 2 * 2 = l by omega]
  · show ({ state := s.resweepLane (l / 2 * 2 + 1) } : Effect) = _
    rw [show l / 2 * 2 + 1 = l by omega]

theorem kbank_command {s : State} {q : Req} {n v x c : Nat} {E : Effect} (he : n < 256) (h : Commanded s q (ctxReg n 0x194) v)
    (hv : v < 4294967296)
    (hd : ∀ y, y = s.rget (ctxReg n 0x194) → draftOf s.secLocked [⟨1, 1, .w1s, []⟩, ⟨0, 0, .w1s, []⟩, fCmd 8, fCmd 9] y 4294967295 v = { value := x, cmds := c })
    (hone : onesOf c ≤ 1) (hi : (s.ctx n).state = .idle)
    (hE : (storedFor (readied s q (ctxReg n 0x194) v (ctxPage n)) (ctxPage n) 0x194 (s.rget (ctxReg n 0x194)) { value := x, cmds := c }).kbankWritten n c = E)
    (hok : E.code = .ok) :
    ∃ t, done s (s.serveReg q (ctxReg n 0x194) v) = .next t ∧ Leaves t E.state ∧ t.rget (ctxReg n 0x194) = E.state.rget (ctxReg n 0x194) := by
  have hk : (ctxPage n).block = .ctx := rfl
  have h8 : ((ctxPage n).die == 8) = true := by unfold ctxPage; simp
  rw [ctxReg_base] at h hd hE ⊢
  have hold : (readied s q ((ctxPage n).base + 0x194) v (ctxPage n)).oldValue (writerOf s q ((ctxPage n).base + 0x194) v) (ctxPage n) 0x194 = s.rget ((ctxPage n).base + 0x194) := by
    unfold State.oldValue
    rw [hk]
    dsimp only
    rw [if_neg (by decide)]
    exact readied_rget ..
  obtain ⟨t, ht, hK, hr⟩ := reg_command (p := ctxPage n) (o := 0x194) (r := rF 0x194 0 [⟨1, 1, .w1s, []⟩, ⟨0, 0, .w1s, []⟩, fCmd 8, fCmd 9])
    (d := { value := x, cmds := c }) (e := E)
    (by unfold ctxPage; dsimp only; omega) (by unfold ctxPage; dsimp only; omega) (ctxPage_exists he) (by decide) (by decide) (by decide) h hv
    (by rw [h8]; rfl) rfl rfl rfl
    (by
      unfold draftFor
      dsimp only
      have hf : fieldsFor (ctxPage n) (rF 0x194 0 [⟨1, 1, .w1s, []⟩, ⟨0, 0, .w1s, []⟩, fCmd 8, fCmd 9]) = [⟨1, 1, .w1s, []⟩, ⟨0, 0, .w1s, []⟩, fCmd 8, fCmd 9] := by
        unfold fieldsFor
        rw [hk, if_neg (by rintro ⟨h', -⟩; cases h')]
        rfl
      rw [hf, readied_secLocked, show (rF 0x194 0 [⟨1, 1, .w1s, []⟩, ⟨0, 0, .w1s, []⟩, fCmd 8, fCmd 9]).off = 0x194 from rfl, hold, hd _ rfl]
      rw [hk, if_neg (by rintro ⟨h', -⟩; cases h')]) rfl rfl hone
    (by
      unfold State.judgeWrite
      rw [hk]
      dsimp only
      unfold State.judgeCtx
      rw [if_neg (by decide), if_pos rfl, if_neg]
      rintro ⟨-, h2⟩
      have : (readied s q ((ctxPage n).base + 0x194) v (ctxPage n)).ctx (ctxPage n).inst = s.ctx n := readied_any (fun t => t.ctx n) (fun _ _ => rfl) ..
      rw [this] at h2
      exact h2 hi)
    (by
      rw [hold]
      unfold State.writeEffect
      rw [hk]
      dsimp only
      rw [if_neg (by decide), if_pos rfl]
      exact hE) hok
  refine ⟨t, ht, hK, ?_⟩
  rw [hr _ (by right; omega) (by rw [replyLost_reg, ← ctxReg_base]; unfold ctxReg; omega)]
  rfl

theorem retireBanks_idle (s : State) (c : Nat) (h : (s.ctx c).state = .idle) : s.retireBanks c = s := by
  unfold State.retireBanks
  rw [if_pos h]

theorem w1s_draft (locked : Bool) (y : Nat) (b : Bool) :
    draftOf locked [⟨1, 1, .w1s, []⟩, ⟨0, 0, .w1s, []⟩, fCmd 8, fCmd 9] y 4294967295 (if b then 2 else 1) =
      { value := putBits (putBits y 1 1 (bits y 1 1 ||| if b then 1 else 0)) 0 0 (bits y 0 0 ||| if b then 0 else 1), cmds := 0 } := by
  unfold draftOf
  simp only [List.foldl_cons, List.foldl_nil]
  rw [take_w1s _ _ 1 1 _ _ (by decide), take_w1s _ _ 0 0 _ _ (by decide), take_cmd _ _ 8 _ (by decide), take_cmd _ _ 9 _ (by decide)]
  have hne : bits (putBits y 1 1 (bits y 1 1 ||| if b then 1 else 0)) 0 0 = bits y 0 0 := bits_putBits_ne _ _ _ _ _ _ (Or.inl (by decide))
  cases b <;> simp only [Bool.false_eq_true, if_false, if_true] at hne ⊢
  · have h1 : bits 1 1 1 = 0 := rfl
    have h2 : bits 1 0 0 = 1 := rfl
    have h3 : bits 1 8 8 = 0 := rfl
    have h4 : bits 1 9 9 = 0 := rfl
    rw [h1, h2, h3, h4, hne]
    rfl
  · have h1 : bits 2 1 1 = 1 := rfl
    have h2 : bits 2 0 0 = 0 := rfl
    have h3 : bits 2 8 8 = 0 := rfl
    have h4 : bits 2 9 9 = 0 := rfl
    rw [h1, h2, h3, h4, hne]
    rfl

theorem clr_draft (locked : Bool) (y : Nat) (b : Bool) :
    draftOf locked [⟨1, 1, .w1s, []⟩, ⟨0, 0, .w1s, []⟩, fCmd 8, fCmd 9] y 4294967295 (if b then 0x200 else 0x100) =
      { value := y, cmds := if b then 0x200 else 0x100 } := by
  unfold draftOf
  simp only [List.foldl_cons, List.foldl_nil]
  rw [take_w1s _ _ 1 1 _ _ (by decide), take_w1s _ _ 0 0 _ _ (by decide), take_cmd _ _ 8 _ (by decide), take_cmd _ _ 9 _ (by decide)]
  cases b <;> simp only [Bool.false_eq_true, if_false, if_true]
  · have h1 : bits 0x100 1 1 = 0 := rfl
    have h2 : bits 0x100 0 0 = 0 := rfl
    have h3 : bits 0x100 8 8 = 1 := rfl
    have h4 : bits 0x100 9 9 = 0 := rfl
    rw [h1, h2, h3, h4, Nat.or_zero, putBits_self, Nat.or_zero, putBits_self]
    rfl
  · have h1 : bits 0x200 1 1 = 0 := rfl
    have h2 : bits 0x200 0 0 = 0 := rfl
    have h3 : bits 0x200 8 8 = 0 := rfl
    have h4 : bits 0x200 9 9 = 1 := rfl
    rw [h1, h2, h3, h4, Nat.or_zero, putBits_self, Nat.or_zero, putBits_self]
    rfl

theorem bankBits (y z1 z0 : Nat) (h1 : z1 < 2) (h0 : z0 < 2) :
    let x := putBits (putBits y 1 1 (bits y 1 1 ||| z1)) 0 0 (bits y 0 0 ||| z0)
    x.testBit 1 = (y.testBit 1 || z1 == 1) ∧ x.testBit 0 = (y.testBit 0 || z0 == 1) := by
  intro x
  have b1 := bits_lt y 1 1
  have b0 := bits_lt y 0 0
  simp only [Nat.reduceAdd, Nat.add_one_sub_one, Nat.pow_one, Nat.sub_zero, Nat.zero_add] at b1 b0
  rw [bit_bits, bit_bits, bit_bits, bit_bits]
  have e1 : bits x 1 1 = (bits y 1 1 ||| z1) % 2 := by
    rw [show x = _ from rfl, bits_putBits_ne _ _ _ _ _ _ (Or.inr (by decide)), bits_putBits_same]
    rfl
  have e0 : bits x 0 0 = (bits y 0 0 ||| z0) % 2 := by
    rw [show x = _ from rfl, bits_putBits_same]
    rfl
  rw [e1, e0]
  constructor
  · have h2 : bits y 1 1 = 0 ∨ bits y 1 1 = 1 := by omega
    have h3 : z1 = 0 ∨ z1 = 1 := by omega
    rcases h2 with h2 | h2 <;> rcases h3 with h3 | h3 <;> rw [h2, h3] <;> rfl
  · have h2 : bits y 0 0 = 0 ∨ bits y 0 0 = 1 := by omega
    have h3 : z0 = 0 ∨ z0 = 1 := by omega
    rcases h2 with h2 | h2 <;> rcases h3 with h3 | h3 <;> rw [h2, h3] <;> rfl

theorem bget_bset_other (s : State) (a i j : Nat) (b : Bool) (h : j < 64) (hij : i ≠ j) : (s.bset a i b).bget a j = s.bget a j := by
  unfold State.bget State.bset State.fset
  rw [bit_bits, bit_bits, State.rget_rset_same, bits_mod64 _ _ _ h, bits_putBits_ne _ _ _ _ _ _ (by omega)]

/-- BW_CTRL of the TEL page of die 8. -/
theorem bw_command {s : State} {q : Req} {v c : Nat} (h : Commanded s q (telReg 0x200) v) (hv : v < 4294967296)
    (h2 : bits v 2 2 = c / 4) (h0 : bits v 0 0 = c % 4) (hone : onesOf c ≤ 1) (hc : c ∈ [1, 4])
    (hok : ∀ u : State, (∀ a, a ≠ telReg 0x200 → u.rget a = s.rget a) → (u.bwCommand c).code = .ok) :
    ∃ t u : State, done s (s.serveReg q (telReg 0x200) v) = .next t ∧ (∀ a, a ≠ telReg 0x200 → u.rget a = s.rget a)
      ∧ (∀ K : Part → Bool, K .regs = true → K .mgmt = true → u.blank K = s.blank K)
      ∧ Leaves t (u.bwCommand c).state ∧ t.rget (telReg 0x210) = (u.bwCommand c).state.rget (telReg 0x210) := by
  have hk : telPage.block = .tel := rfl
  have hpl : plainReg telPage 0x200 := ⟨rfl, fun h => (by cases h.1), fun h => absurd h.2.2 (by decide)⟩
  rw [telReg_base] at h
  obtain ⟨x, ch, hdr⟩ : ∃ x ch, draftOf (readied s q (telPage.base + 0x200) v telPage).secLocked [fCmd 2, fRW 1 1, fCmd 0]
      (s.rget (telPage.base + 0x200)) 4294967295 v = { value := x, changed := ch, cmds := c } := by
    unfold draftOf fRW
    simp only [List.foldl_cons, List.foldl_nil]
    rw [take_cmd _ _ 2 _ (by decide), take_rw _ _ 1 1 _ _ (by decide), if_pos (show Field.admits ⟨1, 1, .rw, []⟩ (bits v 1 1) = true from rfl), take_cmd _ _ 0 _ (by decide), h2, h0]
    simp only [List.mem_cons, List.not_mem_nil, or_false] at hc
    rcases hc with rfl | rfl <;> exact ⟨putBits (s.rget (telPage.base + 0x200)) 1 1 (bits v 1 1), (false || (bits v 1 1 != bits (s.rget (telPage.base + 0x200)) 1 1)), by simp⟩
  have hdr' : draftFor (readied s q (telPage.base + 0x200) v telPage) (writerOf s q (telPage.base + 0x200) v) telPage (rF 0x200 0 [fCmd 2, fRW 1 1, fCmd 0]) v =
      { value := x, changed := ch, cmds := c } := by
    have ho : (readied s q (telPage.base + 0x200) v telPage).oldValue (writerOf s q (telPage.base + 0x200) v) telPage 0x200 = s.rget (telPage.base + 0x200) := readied_rget ..
    unfold draftFor
    dsimp only
    rw [show (rF 0x200 0 [fCmd 2, fRW 1 1, fCmd 0]).off = 0x200 from rfl, ho]
    rw [if_neg (by rintro ⟨h', -⟩; cases h')]
    exact hdr
  have hst : ∀ a, a ≠ telReg 0x200 → (storedFor (readied s q (telPage.base + 0x200) v telPage) telPage 0x200 (s.rget (telPage.base + 0x200))
      { value := x, changed := ch, cmds := c }).rget a = s.rget a := by
    intro a ha
    rw [storedFor_rget_ne _ _ _ _ _ _ hpl ha, readied_rget]
  obtain ⟨t, ht, hK, hr⟩ := reg_command (p := telPage) (o := 0x200) (r := rF 0x200 0 [fCmd 2, fRW 1 1, fCmd 0])
    (d := { value := x, changed := ch, cmds := c }) (e := (storedFor (readied s q (telPage.base + 0x200) v telPage) telPage 0x200 (s.rget (telPage.base + 0x200))
      { value := x, changed := ch, cmds := c }).bwCommand c)
    (by decide) (by decide) rfl (by decide) (by decide) (by decide) h hv rfl rfl rfl rfl hdr' rfl rfl hone
    (by
      unfold State.judgeWrite
      rw [hk]
      dsimp only
      unfold State.judgeTel
      rw [if_neg (by decide), if_neg (by rintro ⟨h | h, -⟩ <;> exact absurd h (by decide))])
    (by
      have ho : (readied s q (telPage.base + 0x200) v telPage).oldValue (writerOf s q (telPage.base + 0x200) v) telPage 0x200 = s.rget (telPage.base + 0x200) := readied_rget ..
      rw [ho]
      unfold State.writeEffect
      rw [hk]
      dsimp only
      rw [if_pos ⟨rfl, rfl⟩]) (hok _ hst)
  refine ⟨t, _, ht, hst, ?_, hK, ?_⟩
  · intro K k1 k2
    rw [storedFor_blank _ k1, readied_blank _ k2]
  · rw [hr _ (by right; rw [telReg_base]; omega) (by decide)]
    split
    · exact State.rget_advance_ne _ _ _ (by decide)
    · rfl

theorem armWindow_ok (u : State) (h0 : u.fget (telReg 0x210) 1 0 = 0) (ha : BitVec.ofNat 48 (u.rget (telReg 0x208)) = 0) :
    u.bwCommand 1 = { state := (u.rset (telReg 0x210) 1).setSys fun y => { y with bwStart := u.tickPlus 1, bwFrom := none, bw := [] } } := by
  show u.armWindow = _
  unfold State.armWindow
  simp only [h0, ha, ne_eq, not_true_eq_false, if_false, false_and, if_true]

end Sys2Proof.Machine
end

