-- ==== Sys2Proof/Laws/TableActs.lean ====
section
/-! SUPPORT. Lemmas about table commands. -/

namespace Sys2Proof.Machine

theorem relayApply_mgmt (s : State) (g : MgmtSt → MgmtSt) : (s.setMgmt g).relayApply = (s.relayApply).setMgmt g := by
  unfold State.relayApply
  have e : (s.setMgmt g).tbl = s.tbl := rfl
  rw [e]
  split
  · rfl
  · dsimp only
    have e2 : ∀ v m, (s.setMgmt g).macRef v m = s.macRef v m := fun _ _ => rfl
    rw [e2]
    repeat' split
    all_goals rfl

theorem relayDrain_mgmt (s : State) (g : MgmtSt → MgmtSt) : (s.setMgmt g).relayDrain = (s.relayDrain).setMgmt g := by
  unfold State.relayDrain
  have e : (s.setMgmt g).tbl.relay = s.tbl.relay := rfl
  rw [e]
  generalize s.tbl.relay = l
  have : ∀ (l : List Learn) (s : State), (s.setMgmt g).each l (fun s _ => s.relayApply) = (s.each l fun s _ => s.relayApply).setMgmt g := by
    intro l
    induction l with
    | nil => intro s; rfl
    | cons a l ih =>
      intro s
      show (State.relayApply (s.setMgmt g)).each l _ = ((s.relayApply).each l _).setMgmt g
      rw [relayApply_mgmt]
      exact ih _
  exact this l s

theorem relayedFor_mgmt (s : State) (op : Nat) (g : MgmtSt → MgmtSt) : (s.setMgmt g).relayedFor op = (s.relayedFor op).setMgmt g := by
  unfold State.relayedFor
  split
  · exact relayDrain_mgmt s g
  · rfl

theorem tableNow_eq (s : State) (op : Nat) (b : TblBlock) (h : (s.relayedFor op).tableJudge op b = none) : s.tableNow op b = (s.relayedFor op).tableApply op b := by
  unfold State.tableNow
  dsimp only
  have e : (if opTable op = 3 then s.relayDrain else s) = s.relayedFor op := rfl
  rw [e, h]

theorem fget_m (s : State) (g : MgmtSt → MgmtSt) (a h l : Nat) : (s.setMgmt g).fget a h l = s.fget a h l := rfl

theorem rget_m (s : State) (g : MgmtSt → MgmtSt) (a : Nat) : (s.setMgmt g).rget a = s.rget a := rfl

theorem mode_m (s : State) (g : MgmtSt → MgmtSt) (p : Nat) : (s.setMgmt g).mode p = s.mode p := by unfold State.mode; rw [fget_m]

theorem leads_m (s : State) (g : MgmtSt → MgmtSt) (p : Nat) : (s.setMgmt g).leads p = s.leads p := by unfold State.leads State.widthCode; rw [fget_m, fget_m]

theorem eth_m (s : State) (g : MgmtSt → MgmtSt) (p : Nat) : (s.setMgmt g).isEthernet p = s.isEthernet p := by unfold State.isEthernet; rw [leads_m, mode_m]

theorem tbl_m (s : State) (g : MgmtSt → MgmtSt) : (s.setMgmt g).tbl = s.tbl := rfl

theorem notDrained_m (s : State) (g : MgmtSt → MgmtSt) : (s.setMgmt g).notDrained = s.notDrained := by
  unfold State.notDrained State.portDrainedForTables
  rfl

theorem nhPorts_m (s : State) (g : MgmtSt → MgmtSt) : (s.setMgmt g).nhPorts = s.nhPorts := rfl

theorem mcPorts_m (s : State) (g : MgmtSt → MgmtSt) : (s.setMgmt g).mcPorts = s.mcPorts := rfl

theorem keyPorts_m (s : State) (g : MgmtSt → MgmtSt) : (s.setMgmt g).keyPorts = s.keyPorts := rfl

theorem resultGroups_m (s : State) (g : MgmtSt → MgmtSt) (c : Nat) : (s.setMgmt g).resultGroups c = s.resultGroups c := by
  unfold State.resultGroups
  rw [fget_m, fget_m, fget_m]

theorem claim_m (s : State) (g : MgmtSt → MgmtSt) : (s.setMgmt g).claimingCtxs = s.claimingCtxs := rfl

theorem badPort_m (s : State) (op : Nat) (a : Bytes) (g : MgmtSt → MgmtSt) : (s.setMgmt g).badPort op a = s.badPort op a := by
  unfold State.badPort
  simp only [leads_m, mode_m, eth_m]

theorem refused_m (s : State) (op i : Nat) (a : Bytes) (g : MgmtSt → MgmtSt) : (s.setMgmt g).tableRefused op i a = s.tableRefused op i a := by
  unfold State.tableRefused
  rw [notDrained_m, nhPorts_m, mcPorts_m, keyPorts_m, claim_m]
  have h : (fun c => ((s.setMgmt g).resultGroups c).contains i) = fun c => (s.resultGroups c).contains i := funext fun c => by rw [resultGroups_m]
  rw [h]
  rfl

theorem tableJudge_mgmt (s : State) (op : Nat) (b : TblBlock) (g : MgmtSt → MgmtSt) : (s.setMgmt g).tableJudge op b = s.tableJudge op b := by
  have h : (s.setMgmt g).atStage = s.atStage := rfl
  unfold State.tableJudge
  dsimp only
  rw [badPort_m, refused_m, rget_m, h]

theorem tblAnswer_tbl (s : State) (m : MPort) (op : Nat) (c : Code) (i d : Nat) (data : Bytes) (gen : Nat) : (s.tblAnswer m op c i d data gen).1.tbl = s.tbl := by
  unfold State.tblAnswer
  dsimp only
  rw [State.rset_tbl, State.rset_tbl, State.rset_tbl, State.rset_tbl]

theorem tblAnswer_mgmt (s : State) (m : MPort) (op : Nat) (c : Code) (i d : Nat) (data : Bytes) (gen : Nat) : (s.tblAnswer m op c i d data gen).1.mgmt = s.mgmt := by
  unfold State.tblAnswer
  dsimp only
  rw [State.rset_mgmt, State.rset_mgmt, State.rset_mgmt, State.rset_mgmt]

theorem tblAnswer_out (s : State) (m : MPort) (op : Nat) (c : Code) (i d : Nat) (data : Bytes) (gen : Nat) : (s.tblAnswer m op c i d data gen).1.out = s.out := by
  unfold State.tblAnswer
  dsimp only
  rw [State.rset_out, State.rset_out, State.rset_out, State.rset_out]

theorem tblAnswer_pend (s : State) (m : MPort) (op : Nat) (c : Code) (i d : Nat) (data : Bytes) (gen : Nat) : (s.tblAnswer m op c i d data gen).1.pending = s.pending := by
  unfold State.tblAnswer
  dsimp only
  rw [State.rset_pending, State.rset_pending, State.rset_pending, State.rset_pending]

theorem tblAnswer_ans (s : State) (m : MPort) (op : Nat) (i d : Nat) (data : Bytes) (gen : Nat) : (s.tblAnswer m op .ok i d data gen).2 = tableAns op i d gen data := rfl

theorem portUp_of {s t : State} (h : t.mgmt = s.mgmt) (m : MPort) : t.portUp m = s.portUp m := by
  unfold State.portUp
  rw [h]

theorem tblAnswer_rget (s : State) (m : MPort) (op : Nat) (c : Code) (i d : Nat) (data : Bytes) (gen x : Nat) (hx : x < tblReg 0x118) : (s.tblAnswer m op c i d data gen).1.rget x = s.rget x := by
  unfold State.tblAnswer
  dsimp only
  rw [State.rget_rset_ne _ _ _ _ (by unfold tblReg at hx ⊢; omega), State.rget_rset_ne _ _ _ _ (by unfold tblReg at hx ⊢; omega), State.rget_rset_ne _ _ _ _ (by unfold tblReg at hx ⊢; omega), State.rget_rset_ne _ _ _ _ (by unfold tblReg at hx ⊢; omega)]

theorem tableReply_ok (s : State) (m : MPort) (op i d gen : Nat) (data : Bytes) : s.tableReply m op (.ok i d data gen) = s.tblAnswer m op .ok i d data gen := rfl

/-- A command that acts at once. -/
theorem table_now {s : State} {q : Req} {op : Nat} {b : TblBlock} (h : TableTaken s q op b) {u : State} {i d gen : Nat} {data : Bytes}
    (ha : ∀ g, ((s.relayedFor op).setMgmt g).tableApply op b = (u.setMgmt g, .ok i d data gen)) (hpen : u.pending = s.pending) (hout : u.out = s.out) :
    ∃ t, done s (s.serveTable q op b) = .next t ∧ Answered s t q 0x06 (tableAns op i d gen data) ∧ t.tbl = u.tbl
      ∧ ∀ x, x < tblReg 0x118 → x ≠ GlbCtr.replyLost.reg → t.rget x = u.rget x := by
  have hS : taken s q 0x06 (TblBlock.body op b) = s.setMgmt fun _ => (taken s q 0x06 (TblBlock.body op b)).mgmt := accept_eq s _
  have hrun : (taken s q 0x06 (TblBlock.body op b)).tableStart (flightOf q 0x06 (TblBlock.body op b)) op b =
      (((u.setMgmt fun _ => (taken s q 0x06 (TblBlock.body op b)).mgmt).tblAnswer q.port op .ok i d data gen).1, some (tableAns op i d gen data)) := by
    unfold State.tableStart
    have hb : (taken s q 0x06 (TblBlock.body op b)).tbl.busy = none := by
      rw [hS]
      exact h.idle
    rw [hb, if_neg (by simp)]
    dsimp only
    have hn : (taken s q 0x06 (TblBlock.body op b)).tableNow op b = (u.setMgmt fun _ => (taken s q 0x06 (TblBlock.body op b)).mgmt, .ok i d data gen) := by
      generalize (taken s q 0x06 (TblBlock.body op b)) = S at hS
      generalize S.mgmt = m at hS
      rw [hS, tableNow_eq, relayedFor_mgmt, ha]
      rw [relayedFor_mgmt, tableJudge_mgmt]
      exact h.judged
    rw [hn]
    dsimp only
    rw [tableReply_ok, tblAnswer_ans]
    rfl
  generalize hz : (u.setMgmt fun _ => (taken s q 0x06 (TblBlock.body op b)).mgmt).tblAnswer q.port op .ok i d data gen = z at hrun
  have z1 : z.1.mgmt = (taken s q 0x06 (TblBlock.body op b)).mgmt := by rw [← hz, tblAnswer_mgmt]; rfl
  have z2 : z.1.out = s.out := by rw [← hz, tblAnswer_out]; exact hout
  have z3 : z.1.pending = s.pending := by rw [← hz, tblAnswer_pend]; exact hpen
  have z4 : z.1.tbl = u.tbl := by rw [← hz, tblAnswer_tbl]; rfl
  have z5 : ∀ x, x < tblReg 0x118 → z.1.rget x = u.rget x := by
    intro x hx
    rw [← hz, tblAnswer_rget _ _ _ _ _ _ _ _ _ hx]
    rfl
  clear hz ha
  obtain ⟨t, ht, hA, hL, hr⟩ := serve_answered h.taken
    (fun s => ⟨s.isAdmin q, decide (1 ≤ s.serveStage), true⟩) (fun s f => s.tableStart f op b)
    (by
      show (Gate.mk ((taken s q 6 (TblBlock.body op b)).isAdmin q) (decide (1 ≤ (taken s q 6 (TblBlock.body op b)).serveStage)) true).refuses q 6 = none
      rw [taken_admin, taken_stage, h.admin, decide_eq_true h.stage]
      exact gate_ok q 6 (Or.inr (by decide)))
    hrun (by rw [z1]) (portUp_of z1 _) (by rw [z2, taken_out]) z3
  refine ⟨t, ht, hA, hL.tbl.trans z4, ?_⟩
  intro x hx hx2
  rw [hr x hx2, z5 x hx]

/-- A command that runs on. -/
theorem table_later {s : State} {q : Req} {op : Nat} {b : TblBlock} (h : TableTaken s q op b)
    (ha : ∀ g, ((s.relayedFor op).setMgmt g).tableApply op b = ((s.relayedFor op).setMgmt g, .running)) (hpen : (s.relayedFor op).pending = s.pending) (hout : (s.relayedFor op).out = s.out)
    (hfc : (s.relayedFor op).fcNow = s.fcNow) :
    ∃ t, done s (s.serveTable q op b) = .next t ∧ t.tbl = { (s.relayedFor op).tbl with busy := some ⟨flightOf q 0x06 (TblBlock.body op b), op, b, s.fcNow⟩ } ∧ t.out = s.out := by
  have hS : taken s q 0x06 (TblBlock.body op b) = s.setMgmt fun _ => (taken s q 0x06 (TblBlock.body op b)).mgmt := accept_eq s _
  have hfc2 : (taken s q 0x06 (TblBlock.body op b)).fcNow = s.fcNow := by rw [hS]; rfl
  have hrun : (taken s q 0x06 (TblBlock.body op b)).tableStart (flightOf q 0x06 (TblBlock.body op b)) op b =
      (((s.relayedFor op).setMgmt fun _ => (taken s q 0x06 (TblBlock.body op b)).mgmt).setTbl fun t => { t with busy := some ⟨flightOf q 0x06 (TblBlock.body op b), op, b, s.fcNow⟩ }, none) := by
    unfold State.tableStart
    have hb : (taken s q 0x06 (TblBlock.body op b)).tbl.busy = none := by
      rw [hS]
      exact h.idle
    rw [hb, if_neg (by simp)]
    dsimp only
    have hn : (taken s q 0x06 (TblBlock.body op b)).tableNow op b = ((s.relayedFor op).setMgmt fun _ => (taken s q 0x06 (TblBlock.body op b)).mgmt, .running) := by
      generalize (taken s q 0x06 (TblBlock.body op b)) = S at hS
      generalize S.mgmt = m at hS
      rw [hS, tableNow_eq, relayedFor_mgmt, ha]
      rw [relayedFor_mgmt, tableJudge_mgmt]
      exact h.judged
    rw [hn, hfc2]
  obtain ⟨t, ht, hL, -, ho, -⟩ := serve_deferred h.taken
    (fun s => ⟨s.isAdmin q, decide (1 ≤ s.serveStage), true⟩) (fun s f => s.tableStart f op b)
    (by
      show (Gate.mk ((taken s q 6 (TblBlock.body op b)).isAdmin q) (decide (1 ≤ (taken s q 6 (TblBlock.body op b)).serveStage)) true).refuses q 6 = none
      rw [taken_admin, taken_stage, h.admin, decide_eq_true h.stage]
      exact gate_ok q 6 (Or.inr (by decide)))
    hrun hpen
  exact ⟨t, ht, hL.tbl, by rw [ho]; exact hout⟩

theorem relayDrain_only (s : State) : OnlyTouches [.regs, .tbl] s s.relayDrain := onlyTouches_of_blank (l := [.regs, .tbl]) (relayDrain_blank _ (by decide) (by decide) s)

theorem genReg_fresh (n : Nat) (h : n ≤ 4) : genReg n < tblReg 0x118 ∧ genReg n ≠ GlbCtr.replyLost.reg := by
  rw [replyLost_reg]
  unfold genReg tblReg
  omega

theorem setGen_rget (s : State) (op : Nat) (b : TblBlock) : (s.setGen op b).rget (genReg (opTable op)) = b.gen.toNat := by
  unfold State.setGen
  rw [State.rget_rset_same]
  have := b.gen.isLt
  exact Nat.mod_eq_of_lt (by omega)

theorem eachMac_mac (s : State) (f : Nat → Map MacEntry → Map MacEntry) (d : Nat) (h : d < 4) : (s.eachMac f).tbl.mac d = f d (s.tbl.mac d) := by
  have : d = 0 ∨ d = 1 ∨ d = 2 ∨ d = 3 := by omega
  rcases this with rfl | rfl | rfl | rfl <;> rfl

/-- Where an insert stands, and what it does. -/
theorem insert_apply (s : State) (b : TblBlock) : ∃ pos, ∀ g, (s.setMgmt g).tableApply 0x30 b = (((s.eachMac fun _ t => macPlace t pos {
            vid := (parseMac b.args).vid, mac := BitVec.ofNat 48 (parseMac b.args).mac, fixed := (parseMac b.args).fixed, remote := (parseMac b.args).remote,
            dest := BitVec.ofNat 32 (parseMac b.args).dest, hit := false, gen := b.gen.toNat, at_ := s.fcNow }).setGen 0x30 b).setMgmt g, .ok pos 0 [] b.gen.toNat) := by
  cases hf : macFind (s.tbl.mac 0) (parseMac b.args).vid (parseMac b.args).mac with
  | none =>
    refine ⟨(macFree (s.tbl.mac 0) (parseMac b.args).vid (parseMac b.args).mac).getD 0, fun g => ?_⟩
    unfold State.tableApply
    dsimp only
    rw [tbl_m, hf]
    rfl
  | some x =>
    refine ⟨x.1, fun g => ?_⟩
    unfold State.tableApply
    dsimp only
    rw [tbl_m, hf]
    rfl

end Sys2Proof.Machine
end

