-- ==== Sys2Proof/Laws/TableMoves.lean ====
section
/-! SUPPORT. Lemmas about table events. -/

namespace Sys2Proof.Machine

theorem tableEnd_spec (s0 s : State) (j : TblJob) (op i d gen : Nat) (data : Bytes) (hop : j.op = op) (hw : s.tbl.waiting = []) (hm : s.mgmt = s0.mgmt) (ho : s.out = s0.out)
    (hf : s0.mgmt.inFlight.contains j.fly = true) (hu : s0.portUp j.fly.req.port = true) :
    (s.tableEnd j (.ok i d data gen)).tbl = { s.tbl with busy := none }
    ∧ Answered s0 (s.tableEnd j (.ok i d data gen)) j.fly.req j.fly.opcode (tableAns op i d gen data)
    ∧ ∀ x, x < tblReg 0x118 → x ≠ GlbCtr.replyLost.reg → (s.tableEnd j (.ok i d data gen)).rget x = s.rget x := by
  have hrt : ∀ (t : State) (a : Answer), (t.reply j.fly a).tbl = t.tbl := fun t a =>
    (onlyTouches_of_blank (l := [.mgmt, .regs, .out]) (reply_blank _ (by decide) (by decide) (by decide) t j.fly a)).2 .tbl (by decide)
  have he : s.tableEnd j (.ok i d data gen) = ((s.setTbl fun t => { t with busy := none }).tblAnswer j.fly.req.port op .ok i d data gen).1.reply j.fly (tableAns op i d gen data) := by
    unfold State.tableEnd
    dsimp only
    rw [hop, tableReply_ok, tblAnswer_ans]
    have hw2 : (((s.setTbl fun t => { t with busy := none }).tblAnswer j.fly.req.port op .ok i d data gen).1.reply j.fly (tableAns op i d gen data)).tbl.waiting = [] := by
      rw [hrt, tblAnswer_tbl]
      exact hw
    generalize ((s.setTbl fun t => { t with busy := none }).tblAnswer j.fly.req.port op .ok i d data gen).1.reply j.fly (tableAns op i d gen data) = Y at hw2
    show State.tableDrain _ Y = Y
    unfold State.tableDrain
    rw [hw2]
    split <;> first | rfl | (rename_i h1 h2; cases h2)
  rw [he]
  refine ⟨?_, ?_, ?_⟩
  · rw [hrt, tblAnswer_tbl]
    rfl
  · refine reply_answered s0 _ j.fly _ ?_ ?_ ?_
    · rw [tblAnswer_mgmt]
      show s.mgmt.inFlight.contains _ = true
      rw [hm]
      exact hf
    · rw [portUp_of (s := s0) (by rw [tblAnswer_mgmt]; exact hm)]
      exact hu
    · rw [tblAnswer_out]
      exact ho
  · intro x hx hx2
    rw [rget_reply _ _ _ _ hx2, tblAnswer_rget _ _ _ _ _ _ _ _ _ hx]
    rfl

theorem answered_next {s Y : State} {q : Req} {op : Nat} {a : Answer} (h : Answered s Y q op a) : Answered s { settle Y with pending := s.pending } q op a := h

end Sys2Proof.Machine
end

