-- ==== Sys2Proof/Laws/HealthMoves.lean ====
section
/-! SUPPORT. Lemmas about health events. -/

namespace Sys2Proof.Machine

/-- What a noted word leaves. -/
theorem noteUe_spec (s : State) (a : Nat) (h : stackOf a < 8) :
    (s.noteUe a).rget (hbmReg (stackOf a) 0x110) = satAdd 64 (s.rget (hbmReg (stackOf a) 0x110)) 1
    ∧ (s.noteUe a).bget (hbmReg (stackOf a) 0x010) 16 = true ∧ a / 32 ∈ (s.noteUe a).sys.badWords
    ∧ (s.noteUe a).hbm = s.hbm ∧ (s.noteUe a).col = s.col := by
  unfold State.noteUe
  extract_lets k u
  have hk : k < 8 := h
  have e1 : hbmReg k 0x010 = hbmReg k 0 + 0x010 := by unfold hbmReg; omega
  have h1 : u.rget (hbmReg k 0x110) = satAdd 64 (s.rget (hbmReg k 0x110)) 1 := by
    have : u.rget (hbmReg k 0x110) = (s.bump (hbmReg k 0x110)).rget (hbmReg k 0x110) :=
      alarm_rget _ _ _ _ _ _ _ (by unfold hbmReg telReg; omega) (by unfold hbmReg; omega) (by right; unfold hbmReg; omega)
    rw [this, State.rget_bump]
  have h2 : u.bget (hbmReg k 0x010) 16 = true := by
    rw [e1]
    exact alarm_bit (s.bump (hbmReg k 0x110)) (hbmReg k 0) 16 0x0D01 (a / 128) [] (by decide) (by unfold hbmReg telReg; omega)
  have h3 : u.hbm = s.hbm := alarm_same (p := .hbm) (by decide) (s.bump (hbmReg k 0x110)) _ _ _ _ _
  have h4 : u.col = s.col := alarm_same (p := .col) (by decide) (s.bump (hbmReg k 0x110)) _ _ _ _ _
  split
  · rename_i hc
    exact ⟨h1, h2, by simpa using hc, h3, h4⟩
  · exact ⟨h1, h2, List.mem_cons_self .., h3, h4⟩

theorem stackOf_lt (a : Nat) (h : a < hbmSize) : stackOf a < 8 := by
  unfold stackOf
  unfold hbmSize at h
  omega

/-- A first fatal error. -/
theorem raiseFatal_spec (s : State) (c : Nat) (h : s.dump.fatal = none) :
    (s.raiseFatal c).regs = s.regs ∧ (s.raiseFatal c).sys.chanFail = s.sys.chanFail ∧ (s.raiseFatal c).fatal = true ∧ (s.raiseFatal c).dump.lastCause = c := by
  have hb := onlyTouches_of_blank (l := [.dump, .pho]) (raiseFatal_blank _ (by decide) (by decide) s c)
  refine ⟨hb.2 .regs (by decide), (congrArg SysSt.chanFail (hb.2 .sys (by decide)) :), ?_, ?_⟩
  all_goals
    unfold State.raiseFatal
    rw [h]
    dsimp only
  · unfold State.fatal
    rw [each_keeps (fun u : State => u.dump) (fun s m => s.setEls m fun x => { x with safeIdle := true }) (fun _ _ => rfl)]
    rfl
  · rw [each_keeps (fun u : State => u.dump) (fun s m => s.setEls m fun x => { x with safeIdle := true }) (fun _ _ => rfl)]
    rfl

theorem doldrumsEvent_nodes (s : State) (c : List Nat) : (s.doldrumsEvent c).flt.nodes = s.flt.nodes := by
  unfold State.doldrumsEvent
  extract_lets members u v w descs owners resets fresh z
  have hu : u.flt.nodes = s.flt.nodes := by
    have : ∀ x : State, (x.cycleRecords c).flt = x.flt := fun x =>
      (onlyTouches_of_blank (l := [.regs, .aer, .mgmt]) (cycleRecords_blank _ (by decide) (by decide) (by decide) x c)).2 .flt (by decide)
    show (State.cycleRecords _ _).flt.nodes = _
    rw [this]
    rfl
  have hw : w.flt.nodes = s.flt.nodes := by
    rw [← hu]
    exact each_keeps (fun x : State => x.flt.nodes) (fun s i => s.rset (cdReg (0x160 + 4 * i)) (members.getD i 0)) (fun _ _ => rfl) (List.range 16) v
  have hz : z.flt.nodes = s.flt.nodes := hw
  clear_value z resets
  split
  · exact hz
  · refine Eq.trans ?_ hz
    refine each_keeps (fun x : State => x.flt.nodes) (fun s c => s.askReset c none) (fun x k => ?_) _ _
    unfold State.askReset
    split <;> rfl

theorem scan_nodes (s : State) : (State.doldrumsScan s).flt.nodes = s.scanNodes s.waitGraph := by
  unfold State.doldrumsScan
  extract_lets g nodes still cycles u
  have hu : u.flt.nodes = nodes := rfl
  exact (each_keeps (fun z : State => z.flt.nodes) State.doldrumsEvent (fun z c => doldrumsEvent_nodes z c) _ u).trans hu

theorem scan_still (s : State) (hnil : s.scanNodes s.waitGraph = []) : ∃ f, State.doldrumsScan s = s.setFlt f := by
  unfold State.doldrumsScan
  extract_lets g nodes still cycles u
  have hn : nodes = [] := hnil
  have hs : still = [] := by
    show List.map _ (nodes.filter _) = []
    rw [hn]
    rfl
  have hcy : cycles = [] := by
    show waitCycles (g.filter fun w => still.contains w.code) = []
    rw [hs]
    have : (g.filter fun w => ([] : List Nat).contains w.code) = [] := by
      rw [List.filter_eq_nil_iff]
      intro a _
      simp
    rw [this]
    rfl
  rw [hcy]
  show ∃ f, u = s.setFlt f
  exact ⟨_, rfl⟩

end Sys2Proof.Machine
end

