-- ==== Sys2Proof/Laws/HeatMoves.lean ====
section
/-! SUPPORT. Lemmas about fatal causes and heat. -/

namespace Sys2Proof.Machine

theorem fatal_none {s : State} (h : s.fatal = false) : s.dump.fatal = none := by
  unfold State.fatal at h
  simpa using h

theorem raiseFatal_els (s : State) (c : Nat) (h : s.dump.fatal = none) (m : Nat) (hm : m < 32) : ((s.raiseFatal c).els m).safeIdle = true := by
  unfold State.raiseFatal
  rw [h]
  dsimp only
  obtain ⟨u, -, hx⟩ := each_one (fun u : State => u.els m) (fun s m => s.setEls m fun x => { x with safeIdle := true }) (List.range 32) List.nodup_range m (List.mem_range.mpr hm)
    (fun u x _ hx => show mgetD (mupd u.pho.els x {} fun x => { x with safeIdle := true }) m {} = mgetD u.pho.els m {} from mgetD_mupd_ne _ _ _ _ _ _ hx.symm) ((s.setDump fun d => { d with fatal := some (c, s.clk.tick, s.ptpNow), second := 0, snaps := [], lastCause := c }).setPho fun p => { p with
      ringTx := p.ringTx.map fun kv => (kv.1, {})
      dtdTx := p.dtdTx.map fun kv => (kv.1, {}) })
  refine (congrArg ElsSt.safeIdle hx).trans ?_
  show (mgetD (mupd u.pho.els m {} fun x => { x with safeIdle := true }) m {}).safeIdle = true
  unfold mgetD mupd
  rw [mget_mput_same]
  rfl

theorem raiseFatal_dump (s : State) (c : Nat) (h : s.dump.fatal = none) :
    (s.raiseFatal c).dump = { s.dump with fatal := some (c, s.clk.tick, s.ptpNow), second := 0, snaps := [], lastCause := c } := by
  unfold State.raiseFatal
  rw [h]
  dsimp only
  rw [each_keeps (fun u : State => u.dump) (fun s m => s.setEls m fun x => { x with safeIdle := true }) (fun _ _ => rfl)]
  rfl

theorem raiseFatal_again (s : State) (c : Nat) (h : s.fatal = true) (hh : s.dump.held = false) :
    s.raiseFatal c = s.setDump fun d => { d with second := c % 256 } := by
  unfold State.raiseFatal
  cases hf : s.dump.fatal with
  | none =>
    unfold State.fatal at h
    rw [hf] at h
    cases h
  | some x =>
    dsimp only
    rw [hh]
    rfl

theorem relane_laneclk (s : State) (l : Nat) : (s.relane l).pho.laneclkLost = s.pho.laneclkLost ∧ (s.relane l).pho.mclkLost = s.pho.mclkLost :=
  ⟨(congrArg PhotonSt.laneclkLost (relane_offLanes s l) :), (congrArg PhotonSt.mclkLost (relane_offLanes s l) :)⟩

theorem setLaneClk_lost (s : State) (d : DieNo) (b : Bool) : (s.setLaneClk d b).pho.laneclkLost =
    (if b then (if s.pho.laneclkLost.contains d.val then s.pho.laneclkLost else d.val :: s.pho.laneclkLost) else s.pho.laneclkLost.filter (· != d.val)) := by
  unfold State.setLaneClk
  generalize dieLanes d.val = ls
  extract_lets u
  have h1 : ∀ v : State, (v.refreshDie d).pho = v.pho := fun v =>
    (onlyTouches_of_blank (l := [.aer, .mgmt, .regs, .sw]) (refreshDie_blank _ (by decide) (by decide) (by decide) (by decide) v d)).2 .pho (by decide)
  rw [h1, each_keeps (fun v : State => v.pho.laneclkLost) State.relane (fun v l => (relane_laneclk v l).1)]
  rfl

theorem relane_high (s : State) (l : Nat) (h : 2048 ≤ l) : (s.relane l).mgmt.calm = s.mgmt.calm := by
  unfold State.relane
  extract_lets was now u v p
  have hu : u.mgmt.calm = s.mgmt.calm := by
    show (s.changeLane l _).mgmt.calm = _
    unfold State.changeLane
    rw [if_pos h]
    rfl
  split
  · rw [if_neg (by omega)]
    exact (alarm_calm ..).trans hu
  · exact hu

theorem setMclk_facts (s : State) (b : Bool) : (s.setMclk b).pho.mclkLost = b ∧ (b = true → (s.setMclk b).mgmt.up0 = false ∧ (s.setMclk b).mgmt.up1 = false) := by
  have hl : ∀ l ∈ twinLanes, 2048 ≤ l := by
    intro l hl
    unfold twinLanes at hl
    obtain ⟨i, -, rfl⟩ := List.mem_map.mp hl
    omega
  unfold State.setMclk
  generalize twinLanes = ls at hl
  extract_lets u v
  refine ⟨?_, ?_⟩
  · rw [each_keeps (fun w : State => w.pho.mclkLost) State.relane (fun w l => (relane_laneclk w l).2)]
    show (if b = true then _ else _ : State).pho.mclkLost = _
    split <;> rfl
  · intro hb
    have hc : (v.each ls State.relane).mgmt.calm = v.mgmt.calm :=
      each_keeps_mem (fun w : State => w.mgmt.calm) State.relane ls (fun w l hl' => relane_high w l (hl l hl')) v
    have hv : v.mgmt.up0 = false ∧ v.mgmt.up1 = false := by
      show (if b = true then _ else _ : State).mgmt.up0 = _ ∧ (if b = true then _ else _ : State).mgmt.up1 = _
      rw [if_pos hb]
      exact ⟨rfl, rfl⟩
    exact ⟨(congrArg MgmtSt.up0 hc :).trans hv.1, (congrArg MgmtSt.up1 hc :).trans hv.2⟩

theorem setLaneClk_frame (s : State) (d : DieNo) (b : Bool) :
    (s.setLaneClk d b).blank (fun p => decide (p ∈ [Part.regs, .sw, .pho, .mgmt, .col, .aer, .flt, .out])) = s.blank (fun p => decide (p ∈ [Part.regs, .sw, .pho, .mgmt, .col, .aer, .flt, .out])) :=
  setLaneClk_blank _ (by decide) (by decide) (by decide) (by decide) (by decide) (by decide) (by decide) (by decide) s d b

theorem setLaneClk_in (s : State) (d : DieNo) : d.val ∈ (s.setLaneClk d true).pho.laneclkLost := by
  rw [setLaneClk_lost s d true, if_pos rfl]
  split
  · rename_i h
    simpa using h
  · exact List.mem_cons_self ..

theorem setLaneClk_off (s : State) (d : DieNo) : d.val ∉ (s.setLaneClk d false).pho.laneclkLost := by
  rw [setLaneClk_lost s d false, if_neg (by decide)]
  simp

end Sys2Proof.Machine
end

