-- ==== Sys2Proof/Laws/TelemetryMoves.lean ====
section
/-! SUPPORT. Lemmas about telemetry. -/

namespace Sys2Proof.Machine

theorem portReg_ne (p q o o' : Nat) (hp : p < 1024) (hq : q < 1024) (ho : o < 4096) (ho' : o' < 4096) (h : p ≠ q ∨ o ≠ o') : portReg p o ≠ portReg q o' := by
  unfold portReg
  omega

theorem leads_lt {s : State} {p : Nat} (h : s.leads p = true) : p < 1024 := by
  unfold State.leads at h
  simp only [Bool.and_eq_true, decide_eq_true_eq] at h
  exact h.1.1

/-- What a queue's sample is read from is as it was. -/
def SameQueues (s t : State) : Prop := t.sw = s.sw ∧ t.clk = s.clk

theorem egressSample_same {s t : State} (h : SameQueues s t) (p vc : Nat) : t.egressSample p vc = s.egressSample p vc := by
  obtain ⟨h1, h2⟩ := h
  unfold State.egressSample State.egressCells State.egressHead State.fcNow
  rw [h1, h2]

/-- The registers of one queue, as a sample leaves them. -/
def SampledAs (p vc : Nat) (x : Nat × Nat) (t : State) : Prop :=
  t.rget (portReg p (0x160 + 4 * vc)) = x.1 % 2 ^ 64 ∧ t.rget (portReg p (0x170 + 4 * vc)) = min x.2 0xFFFFFFFF

theorem sampleQueue_sets (s : State) (p vc : Nat) (hp : p < 1024) (hv : vc < 4) : SampledAs p vc (s.egressSample p vc) (s.sampleQueue p vc) := by
  unfold State.sampleQueue SampledAs
  dsimp only
  refine ⟨?_, ?_⟩
  · rw [State.rget_rset_ne _ _ _ _ (portReg_ne _ _ _ _ hp hp (by omega) (by omega) (by omega)), State.rget_rset_same]
  · rw [State.rget_rset_same, Nat.mod_eq_of_lt]
    exact lt_of_le_of_lt (Nat.min_le_right _ _) (by norm_num)

theorem sampleQueue_keeps (s : State) (p vc q w : Nat) (hp : p < 1024) (hq : q < 1024) (hv : vc < 4) (hw : w < 4) (h : p ≠ q ∨ vc ≠ w) (x : Nat × Nat)
    (hs : SampledAs p vc x s) : SampledAs p vc x (s.sampleQueue q w) := by
  unfold State.sampleQueue
  dsimp only
  refine ⟨?_, ?_⟩
  · rw [State.rget_rset_ne _ _ _ _ (portReg_ne _ _ _ _ hp hq (by omega) (by omega) (by omega)),
      State.rget_rset_ne _ _ _ _ (portReg_ne _ _ _ _ hp hq (by omega) (by omega) (by omega))]
    exact hs.1
  · rw [State.rget_rset_ne _ _ _ _ (portReg_ne _ _ _ _ hp hq (by omega) (by omega) (by omega)),
      State.rget_rset_ne _ _ _ _ (portReg_ne _ _ _ _ hp hq (by omega) (by omega) (by omega))]
    exact hs.2

/-- A port's four queues. -/
theorem samplePort_sets (s u : State) (hu : SameQueues s u) (p vc : Nat) (hp : p < 1024) (hv : vc < 4) :
    SampledAs p vc (s.egressSample p vc) (u.each [0, 1, 2, 3] fun s vc => s.sampleQueue p vc) := by
  have hset : ∀ v : State, SameQueues s v → SampledAs p vc (s.egressSample p vc) (v.sampleQueue p vc) := fun v h => by
    rw [← egressSample_same h]
    exact sampleQueue_sets v p vc hp hv
  have hk : ∀ (v : State) w, w < 4 → vc ≠ w → SampledAs p vc (s.egressSample p vc) v → SampledAs p vc (s.egressSample p vc) (v.sampleQueue p w) :=
    fun v w hw hne h => sampleQueue_keeps v p vc p w hp hp hv hw (Or.inr hne) _ h
  show SampledAs p vc _ ((((u.sampleQueue p 0).sampleQueue p 1).sampleQueue p 2).sampleQueue p 3)
  have h4 : vc = 0 ∨ vc = 1 ∨ vc = 2 ∨ vc = 3 := by omega
  rcases h4 with rfl | rfl | rfl | rfl
  · exact hk _ 3 (by decide) (by decide) (hk _ 2 (by decide) (by decide) (hk _ 1 (by decide) (by decide) (hset _ hu)))
  · exact hk _ 3 (by decide) (by decide) (hk _ 2 (by decide) (by decide) (hset _ hu))
  · exact hk _ 3 (by decide) (by decide) (hset _ hu)
  · exact hset _ hu

theorem samplePorts_sets (s : State) (ps : List Nat) (hps : ∀ q ∈ ps, q < 1024) (p vc : Nat) (hm : p ∈ ps) (hv : vc < 4) (u : State) (hu : SameQueues s u) :
    SampledAs p vc (s.egressSample p vc) (u.each ps fun s p => s.each [0, 1, 2, 3] fun s vc => s.sampleQueue p vc) := by
  have hp := hps p hm
  induction ps generalizing u with
  | nil => cases hm
  | cons q r ih =>
    show SampledAs p vc _ ((u.each [0, 1, 2, 3] fun s vc => s.sampleQueue q vc).each r fun s p => s.each [0, 1, 2, 3] fun s vc => s.sampleQueue p vc)
    have hq : SameQueues s (u.each [0, 1, 2, 3] fun s vc => s.sampleQueue q vc) := hu
    by_cases hr : p ∈ r
    · exact ih (fun x hx => hps x (List.mem_cons_of_mem _ hx)) hr _ hq
    · have e : p = q := by
        rcases List.mem_cons.mp hm with e | e
        · exact e
        · exact absurd e hr
      subst e
      refine each_holds (SampledAs p vc (s.egressSample p vc)) _ r (fun v x hx hs => ?_) _ (samplePort_sets s u hu p vc hp hv)
      have hne : p ≠ x := fun e => hr (e ▸ hx)
      have hk : ∀ (v : State) w, w < 4 → SampledAs p vc (s.egressSample p vc) v → SampledAs p vc (s.egressSample p vc) (v.sampleQueue x w) :=
        fun v w hw h => sampleQueue_keeps v p vc x w hp (hps x (List.mem_cons_of_mem _ hx)) hv hw (Or.inl hne) _ h
      exact hk _ 3 (by decide) (hk _ 2 (by decide) (hk _ 1 (by decide) (hk _ 0 (by decide) hs)))

theorem traceDie_rget (s : State) (d p o : Nat) (hd : d < 4) (hp : p < 1024) (ho : o < 4096) : (s.traceDie d).rget (portReg p o) = s.rget (portReg p o) := by
  unfold State.traceDie
  dsimp only
  split
  · rfl
  · refine each_rget _ _ _ (fun u v => ?_) s
    unfold State.appendTrace
    dsimp only
    rw [State.rget_rset_ne]
    · rfl
    · unfold portReg telDieReg
      omega

theorem sample_eq (s : State) : ∃ ps, ps = (List.range 1024).filter s.leads ∧ State.sample s =
    ((s.each ps fun s p => s.each [0, 1, 2, 3] fun s vc => s.sampleQueue p vc).each [0, 1, 2, 3] State.traceDie).setSys fun y =>
      { y with lastSample := ((s.each ps fun s p => s.each [0, 1, 2, 3] fun s vc => s.sampleQueue p vc).each [0, 1, 2, 3] State.traceDie).clk.up } := by
  refine ⟨_, rfl, ?_⟩
  unfold State.sample
  generalize (List.range 1024).filter s.leads = ps
  dsimp only
  have h : ((s.each ps fun s p => s.each [0, 1, 2, 3] fun s vc => s.sampleQueue p vc).each [0, 1, 2, 3] State.traceDie).clk = s.clk := by
    rw [each_keeps (fun u : State => u.clk) State.traceDie (fun u d =>
      (onlyTouches_of_blank (l := [.regs, .hbm]) (traceDie_blank _ (by decide) (by decide) u d)).2 .clk (by decide))]
    exact each_keeps (fun u : State => u.clk) (fun s p => s.each [0, 1, 2, 3] fun s vc => s.sampleQueue p vc) (fun _ _ => rfl) ps s
  rw [h]

theorem storeRec_aer (s : State) (n : Nat) (b : Bytes) : (s.storeRec n b).aer.queue = s.aer.queue ∧ (s.storeRec n b).aer.seq = s.aer.seq ∧ (s.storeRec n b).aer.gap = s.aer.gap := by
  unfold State.storeRec
  repeat' split
  all_goals exact ⟨rfl, rfl, rfl⟩

theorem latchPort_rget (s : State) (n q a : Nat) (h : ∀ o, o < 4096 → a ≠ portReg q o) : (s.latchPort n q).rget a = s.rget a := by
  unfold State.latchPort
  split
  · dsimp only
    rw [State.rget_rset_ne _ _ _ _ (h _ (by decide)), State.rget_rset_ne _ _ _ _ (h _ (by decide)), State.rget_rset_ne _ _ _ _ (h _ (by decide)),
      State.rget_rset_ne _ _ _ _ (h _ (by decide))]
  · rfl

/-- A port's results. -/
def LatchedAs (s : State) (p : Nat) (t : State) : Prop :=
  t.rget (portReg p 0x328) = (mgetD s.sys.bw p {}).rx % 2 ^ 64 ∧ t.rget (portReg p 0x330) = (mgetD s.sys.bw p {}).tx % 2 ^ 64

theorem latchPort_sets (s : State) (n p : Nat) (h : s.leads p = true) : LatchedAs s p (s.latchPort n p) := by
  have hp := leads_lt h
  unfold State.latchPort LatchedAs
  rw [if_pos h]
  dsimp only
  refine ⟨?_, ?_⟩
  · rw [State.rget_rset_ne _ _ _ _ (portReg_ne _ _ _ _ hp hp (by decide) (by decide) (Or.inr (by decide))),
      State.rget_rset_ne _ _ _ _ (portReg_ne _ _ _ _ hp hp (by decide) (by decide) (Or.inr (by decide))), State.rget_rset_same]
  · rw [State.rget_rset_ne _ _ _ _ (portReg_ne _ _ _ _ hp hp (by decide) (by decide) (Or.inr (by decide))), State.rget_rset_same]

/-- What the walk over the ports reads of a state is as it was. -/
def SameWindow (s t : State) : Prop := t.sys = s.sys ∧ ∀ q, q < 1024 → t.rget (portReg q 0x008) = s.rget (portReg q 0x008)

theorem leads_same {s t : State} (h : SameWindow s t) (p : Nat) : t.leads p = s.leads p := by
  by_cases hp : p < 1024
  · unfold State.leads State.widthCode
    rw [State.fget_congr _ _ _ (h.2 (p / 4 * 4) (by omega)), State.fget_congr _ _ _ (h.2 (p - 1) (by omega))]
  · unfold State.leads
    rw [show decide (p < 1024) = false from by simpa using hp]
    rfl

theorem latchPort_window {s u : State} (h : SameWindow s u) (n q : Nat) (hq : q < 1024) : SameWindow s (u.latchPort n q) := by
  refine ⟨?_, fun x hx => ?_⟩
  · rw [← h.1]
    unfold State.latchPort
    split <;> rfl
  · rw [← h.2 x hx]
    unfold State.latchPort
    split
    · dsimp only
      rw [State.rget_rset_ne _ _ _ _ (portReg_ne _ _ _ _ hx hq (by decide) (by decide) (Or.inr (by decide))),
        State.rget_rset_ne _ _ _ _ (portReg_ne _ _ _ _ hx hq (by decide) (by decide) (Or.inr (by decide))),
        State.rget_rset_ne _ _ _ _ (portReg_ne _ _ _ _ hx hq (by decide) (by decide) (Or.inr (by decide))),
        State.rget_rset_ne _ _ _ _ (portReg_ne _ _ _ _ hx hq (by decide) (by decide) (Or.inr (by decide)))]
    · rfl

theorem latchPorts_sets (s : State) (n : Nat) (ps : List Nat) (hps : ∀ q ∈ ps, q < 1024) (p : Nat) (hm : p ∈ ps) (hl : s.leads p = true) (u : State) (hu : SameWindow s u) :
    LatchedAs s p (u.each ps fun s p => s.latchPort n p) := by
  have hp := hps p hm
  induction ps generalizing u with
  | nil => cases hm
  | cons q r ih =>
    show LatchedAs s p ((u.latchPort n q).each r fun s p => s.latchPort n p)
    have hq := latchPort_window hu n q (hps q (List.mem_cons_self ..))
    by_cases hr : p ∈ r
    · exact ih (fun x hx => hps x (List.mem_cons_of_mem _ hx)) hr _ hq
    · have e : p = q := by
        rcases List.mem_cons.mp hm with e | e
        · exact e
        · exact absurd e hr
      subst e
      have h0 : LatchedAs s p (u.latchPort n p) := by
        have := latchPort_sets u n p ((leads_same hu p).trans hl)
        unfold LatchedAs at this ⊢
        rw [hu.1] at this
        exact this
      refine each_holds (LatchedAs s p) _ r (fun v x hx hs => ?_) _ h0
      have hne : p ≠ x := fun e => hr (e ▸ hx)
      have hx4 := hps x (List.mem_cons_of_mem _ hx)
      exact ⟨(latchPort_rget v n x _ fun o ho => portReg_ne _ _ _ _ hp hx4 (by decide) ho (Or.inl hne)).trans hs.1,
        (latchPort_rget v n x _ fun o ho => portReg_ne _ _ _ _ hp hx4 (by decide) ho (Or.inl hne)).trans hs.2⟩

theorem latchPorts_rget (s : State) (n : Nat) (ps : List Nat) (hps : ∀ q ∈ ps, q < 1024) (a : Nat) (h : 0x80000000 ≤ a) :
    (s.each ps fun s p => s.latchPort n p).rget a = s.rget a := by
  refine each_keeps_mem (fun u : State => u.rget a) _ ps (fun u q hq => ?_) s
  have := hps q hq
  refine latchPort_rget u n q a fun o ho => ?_
  unfold portReg
  omega

/-- What closing a window leaves, from the walk over its ports on. -/
def closeRest (s : State) (seq : Nat) : State :=
  let s := (s.rset (telReg 0x220) seq).rset (telReg 0x218) s.sys.bwStart.toNat
  let s := s.alarmPlain (telReg 0) 0 seq
  if s.bget (telReg 0x200) 1 then
    s.setSys fun y => { y with bw := [], bwFrom := some s.clk.up, bwStart := s.clk.tick }
  else (s.rset (telReg 0x210) 0).setSys fun y => { y with bw := [], bwFrom := none }

theorem closeRest_spec (s : State) (seq : Nat) (hs : seq < 2 ^ 64) :
    (closeRest s seq).rget (telReg 0x220) = seq ∧ (closeRest s seq).sys.bw = [] ∧ (closeRest s seq).bget (telReg 0x010) 0 = true
    ∧ (closeRest s seq).sys.bwFrom = (if s.bget (telReg 0x200) 1 then some s.clk.up else none)
    ∧ ∀ p o, p < 1024 → o < 4096 → (closeRest s seq).rget (portReg p o) = s.rget (portReg p o) := by
  unfold closeRest
  extract_lets u v
  have hv : ∀ a, a ≠ telReg 0x310 → a ≠ telReg 0x010 → a < telReg 0x060 ∨ telReg 0x0A0 ≤ a → v.rget a = u.rget a := fun a h1 h2 h3 =>
    alarm_rget u (telReg 0) 0 _ seq [] a h1 h2 h3
  have e1 : v.rget (telReg 0x220) = seq := by
    rw [hv _ (by decide) (by decide) (by decide)]
    show (State.rset (State.rset _ _ _) _ _).rget _ = _
    rw [State.rget_rset_ne _ _ _ _ (by decide), State.rget_rset_same, Nat.mod_eq_of_lt hs]
  have e2 : v.bget (telReg 0x010) 0 = true := alarm_bit u (telReg 0) 0 _ seq [] (by decide) (by decide)
  have e3 : v.bget (telReg 0x200) 1 = s.bget (telReg 0x200) 1 := by
    unfold State.bget
    rw [hv _ (by decide) (by decide) (by decide)]
    show (State.rget (State.rset (State.rset _ _ _) _ _) _).testBit 1 = _
    rw [State.rget_rset_ne _ _ _ _ (by decide), State.rget_rset_ne _ _ _ _ (by decide)]
  have e4 : v.clk = s.clk := (alarm_clk u (telReg 0) 0 _ seq []).trans rfl
  have e5 : ∀ p o, p < 1024 → o < 4096 → v.rget (portReg p o) = s.rget (portReg p o) := by
    intro p o hp ho
    rw [hv _ (by unfold portReg telReg; omega) (by unfold portReg telReg; omega) (by left; unfold portReg telReg; omega)]
    show (State.rset (State.rset _ _ _) _ _).rget _ = _
    rw [State.rget_rset_ne _ _ _ _ (by unfold portReg telReg; omega), State.rget_rset_ne _ _ _ _ (by unfold portReg telReg; omega)]
  clear_value v
  rw [e3]
  cases hb : s.bget (telReg 0x200) 1
  · rw [if_neg (by decide)]
    refine ⟨?_, rfl, ?_, rfl, fun p o hp ho => ?_⟩
    · rw [State.rget_setSys, State.rget_rset_ne _ _ _ _ (by decide), e1]
    · rw [State.bget_setSys]
      unfold State.bget
      rw [State.rget_rset_ne _ _ _ _ (by decide)]
      exact e2
    · rw [State.rget_setSys, State.rget_rset_ne _ _ _ _ (by unfold portReg telReg; omega), e5 p o hp ho]
  · rw [if_pos rfl]
    refine ⟨e1, rfl, e2, ?_, e5⟩
    show some v.clk.up = _
    rw [e4]
    rfl

theorem closeWindow_eq (s : State) : ∃ ps, ps = List.range 1024 ∧
    s.closeWindow = closeRest (s.each ps fun u p => u.latchPort ((s.rget (telReg 0x220) + 1) % 2 ^ 32) p) ((s.rget (telReg 0x220) + 1) % 2 ^ 32) := by
  refine ⟨_, rfl, ?_⟩
  unfold State.closeWindow
  generalize List.range 1024 = ps
  rfl

end Sys2Proof.Machine
end

