-- ==== Sys2Proof/Laws/TwinFrames.lean ====
section
/-! SUPPORT. Lemmas about frames of the twin link. -/

namespace Sys2Proof.Machine

theorem only_mono {l m : List Part} {s t : State} (h : OnlyTouches l s t) (hm : ∀ p ∈ l, p ∈ m) : OnlyTouches m s t :=
  ⟨h.1, fun p hp => h.2 p fun hl => hp (hm p hl)⟩

theorem same_trans {p : Part} {s t u : State} (h : p.Same s t) (g : p.Same t u) : p.Same s u := by
  cases p <;> exact Eq.trans g h

theorem only_trans {l : List Part} {s t u : State} (h : OnlyTouches l s t) (g : OnlyTouches l t u) : OnlyTouches l s u :=
  ⟨g.1.trans h.1, fun p hp => same_trans (h.2 p hp) (g.2 p hp)⟩

/-- The pins follow, and the queue is the state's own. -/
theorem only_done {l : List Part} {s t : State} (h : OnlyTouches l s t) : OnlyTouches l s { settle t with pending := s.pending } :=
  ⟨rfl, fun p hp => by
    have := h.2 p hp
    cases p <;> exact this⟩

theorem twinRx_eq {s : State} {type : Nat} {frame p : Bytes} (h : s.twinHears type frame p) (act : State → Bytes → State) :
    s.twinRx type frame act = act (s.twinCounted frame) p := by
  obtain ⟨h1, h2, h3⟩ := h
  unfold State.twinRx
  rw [h1, h2]
  dsimp only
  rw [h3]
  rfl

theorem counted_touches (s : State) (frame : Bytes) : OnlyTouches [.regs] s (s.twinCounted frame) :=
  onlyTouches_of_blank (l := [.regs]) (pmc_blank _ (by decide) s _ _ _)

theorem counted_rget (s : State) (frame : Bytes) (o : Nat) (h : o < 0x60 ∨ 0xA0 ≤ o) : (s.twinCounted frame).rget (twinReg o) = s.rget (twinReg o) := by
  refine rget_pmc _ _ _ _ _ ?_
  unfold twinReg
  omega

theorem counted_twin (s : State) (frame : Bytes) : (s.twinCounted frame).twin = s.twin := (counted_touches s frame).2 .twin (by decide)

theorem counted_col (s : State) (frame : Bytes) : (s.twinCounted frame).col = s.col := (counted_touches s frame).2 .col (by decide)

theorem counted_clk (s : State) (frame : Bytes) : (s.twinCounted frame).clk = s.clk := (counted_touches s frame).2 .clk (by decide)

theorem counted_out (s : State) (frame : Bytes) : (s.twinCounted frame).out = s.out := (counted_touches s frame).2 .out (by decide)

theorem twinUp_of_pho {s t : State} (h : t.pho = s.pho) : t.twinUp = s.twinUp := by
  unfold State.twinUp State.laneInService State.lane
  rw [h]

theorem fatal_of_dump {s t : State} (h : t.dump = s.dump) : t.fatal = s.fatal := by
  unfold State.fatal
  rw [h]

theorem twinOut_out (s : State) (f : Bytes) (h1 : s.twinUp = true) (h2 : s.fatal = false) : (s.twinOut f).out = .twin f :: s.out := by
  unfold State.twinOut
  rw [h1, h2]
  show Sent.twin f :: (s.pmc (twinReg 0) 0x100 f.length).out = _
  have h : (s.pmc (twinReg 0) 0x100 f.length).out = s.out := (onlyTouches_of_blank (l := [.regs]) (pmc_blank _ (by decide) s _ _ _)).2 .out (by decide)
  rw [h]

theorem twinOut_touches (s : State) (f : Bytes) : OnlyTouches [.regs, .out] s (s.twinOut f) :=
  onlyTouches_of_blank (l := [.regs, .out]) (twinOut_blank _ (by decide) (by decide) s f)

theorem twinOut_rget (s : State) (f : Bytes) (o : Nat) (h : o < 0x60 ∨ 0xA0 ≤ o) : (s.twinOut f).rget (twinReg o) = s.rget (twinReg o) := by
  unfold State.twinOut
  split
  · rw [State.rget_send]
    refine rget_pmc _ _ _ _ _ ?_
    unfold twinReg
    omega
  · rfl

end Sys2Proof.Machine
end

