-- ==== Sys2Proof/Laws/TwinLinkMoves.lean ====
section
/-! SUPPORT. Lemmas about the twin link. -/

namespace Sys2Proof.Machine

/-- What the twin state says of the partner and of the attach, which sending frames does not move. -/
def twinRole (t : TwinSt) : (TwinState × TwinState) × (Nat × Nat × Nat) × (Bool × Bool × Bool) × Nat :=
  ((t.state, t.former), (t.hbUp, t.creditSeen, t.partnerState), (t.partnerHeld, t.partnerTakeover, t.proofGood), t.proofUp)

/-- The role and the registers outside the PMC block stand. -/
structure SameRole (s t : State) : Prop where
  role : twinRole t.twin = twinRole s.twin
  regs : ∀ o, o < 0x60 ∨ 0xA0 ≤ o → t.rget (twinReg o) = s.rget (twinReg o)

theorem SameRole.refl (s : State) : SameRole s s := ⟨rfl, fun _ _ => rfl⟩

theorem SameRole.trans {s t u : State} (h : SameRole s t) (g : SameRole t u) : SameRole s u :=
  ⟨g.role.trans h.role, fun o ho => (g.regs o ho).trans (h.regs o ho)⟩

theorem SameRole.state {s t : State} (h : SameRole s t) : t.twin.state = s.twin.state := congrArg (fun r => r.1.1) h.role

theorem SameRole.former {s t : State} (h : SameRole s t) : t.twin.former = s.twin.former := congrArg (fun r => r.1.2) h.role

theorem SameRole.hbUp {s t : State} (h : SameRole s t) : t.twin.hbUp = s.twin.hbUp := congrArg (fun r => r.2.1.1) h.role

theorem SameRole.seen {s t : State} (h : SameRole s t) : t.twin.creditSeen = s.twin.creditSeen := congrArg (fun r => r.2.1.2.1) h.role

theorem SameRole.pstate {s t : State} (h : SameRole s t) : t.twin.partnerState = s.twin.partnerState := congrArg (fun r => r.2.1.2.2) h.role

theorem SameRole.pheld {s t : State} (h : SameRole s t) : t.twin.partnerHeld = s.twin.partnerHeld := congrArg (fun r => r.2.2.1.1) h.role

theorem SameRole.ptake {s t : State} (h : SameRole s t) : t.twin.partnerTakeover = s.twin.partnerTakeover := congrArg (fun r => r.2.2.1.2.1) h.role

theorem SameRole.good {s t : State} (h : SameRole s t) : t.twin.proofGood = s.twin.proofGood := congrArg (fun r => r.2.2.1.2.2) h.role

theorem SameRole.goodUp {s t : State} (h : SameRole s t) : t.twin.proofUp = s.twin.proofUp := congrArg (fun r => r.2.2.2) h.role

theorem setTwin_role (s : State) (g : TwinSt → TwinSt) (h : twinRole (g s.twin) = twinRole s.twin) : SameRole s (s.setTwin g) := ⟨h, fun _ _ => rfl⟩

theorem SameRole.of_twin {s t : State} (h : t.twin = s.twin) (hr : ∀ o, o < 0x60 ∨ 0xA0 ≤ o → t.rget (twinReg o) = s.rget (twinReg o)) : SameRole s t :=
  ⟨congrArg twinRole h, hr⟩

theorem twinOut_role (s : State) (f : Bytes) : SameRole s (s.twinOut f) :=
  SameRole.of_twin ((twinOut_touches s f).2 .twin (by decide)) fun o ho => twinOut_rget s f o ho

theorem counted_role (s : State) (f : Bytes) : SameRole s (s.twinCounted f) :=
  SameRole.of_twin (counted_twin s f) fun o ho => counted_rget s f o ho

theorem twinTake_role (s : State) (w : TwinWait) : SameRole s (s.twinTake w) := by
  unfold State.twinTake
  exact SameRole.trans (setTwin_role s _ rfl) (twinOut_role _ _)

theorem twinDrain_role (n : Nat) (s : State) : SameRole s (s.twinDrain n) := by
  induction n generalizing s with
  | zero => exact SameRole.refl s
  | succ n ih =>
    unfold State.twinDrain
    split
    · exact SameRole.refl s
    · split
      · exact SameRole.trans (SameRole.trans (setTwin_role s _ rfl) (twinTake_role _ _)) (ih _)
      · exact SameRole.refl s

theorem twinPush_role (s : State) (type : Nat) (p : Bytes) : SameRole s (s.twinPush type p) := by
  unfold State.twinPush
  extract_lets f S
  exact SameRole.trans (setTwin_role s _ rfl) (twinDrain_role _ S)

theorem each_role {α : Type} (l : List α) (f : State → α → State) (h : ∀ u x, SameRole u (f u x)) (s : State) : SameRole s (s.each l f) := by
  induction l generalizing s with
  | nil => exact SameRole.refl s
  | cons a l ih => exact (h s a).trans (ih (f s a))

theorem copyBlock_role (s : State) (x : Nat × Nat × Nat) : SameRole s (s.copyBlock x) := by
  unfold State.copyBlock
  dsimp only
  refine SameRole.trans (each_role _ _ (fun u d => ?_) s) (setTwin_role _ _ rfl)
  exact (twinPush_role _ _ _).trans (setTwin_role _ _ rfl)

theorem copyPump_role (n : Nat) (s : State) : SameRole s (s.copyPump n) := by
  induction n generalizing s with
  | zero => exact SameRole.refl s
  | succ n ih =>
    unfold State.copyPump
    split
    · exact SameRole.refl s
    · split
      · exact SameRole.trans (SameRole.trans (setTwin_role s _ rfl) (copyBlock_role _ _)) (ih _)
      · exact SameRole.refl s

theorem copyOn_role (s : State) : SameRole s s.copyOn := by
  unfold State.copyOn State.copyEnds
  refine (copyPump_role _ _).trans (each_role _ _ (fun u k => ?_) _)
  split
  · exact SameRole.refl u
  · dsimp only
    exact (twinOut_role _ _).trans (setTwin_role _ _ rfl)

theorem enterSolo_sets (s : State) : s.enterSolo.twin = { s.twin with state := .solo, unacked := [], waiting := [], copyQueue := [], copied := [] }
    ∧ s.enterSolo.bget (twinReg 0x010) 8 = true := by
  unfold State.enterSolo
  dsimp only
  refine ⟨?_, alarm_bit _ (twinReg 0) 8 _ _ _ (by decide) (by decide)⟩
  rw [State.alarm_twin]
  rfl

/-- The state after a valid heartbeat has been noted. -/
theorem link_heard (s : State) (frame p : Bytes) (h : s.twinHears twHeartbeat frame p) (h1 : p.length = 32) (h2 : fld p 0 8 = s.partnerId)
    (h3 : s.partnerId ≠ 0) (h4 : s.twin.state = .paired) : ∃ U : State, U.twin.state = .paired ∧ U.twin.hbUp = s.clk.up
      ∧ U.twin.creditSeen = fld p 12 4 ∧ U.twin.partnerState = byteAt p 8 ∧ U.twin.partnerHeld = bit (byteAt p 9) 1
      ∧ U.twin.partnerTakeover = bit (byteAt p 9) 0 ∧ U.rget (twinReg 0x118) = s.tick % 2 ^ 64 ∧ OnlyTouches [.regs, .twin, .out] s U
      ∧ exec (.twinHeartbeatRx frame) s = done s (if byteAt p 8 = 5 then U.enterSolo else U) := by
  have hid : (s.twinCounted frame).partnerId = s.partnerId := counted_rget s frame 0x108 (by decide)
  have htw := counted_twin s frame
  have hclk := counted_clk s frame
  have hto := (counted_touches s frame)
  have hex : exec (.twinHeartbeatRx frame) s = done s ((s.twinCounted frame).heartbeatRx p) := by
    show execTwinHeartbeatRx frame s = _
    unfold execTwinHeartbeatRx
    rw [twinRx_eq h]
  have htick : (s.twinCounted frame).tick = s.tick := by
    unfold State.tick
    rw [hclk]
  generalize s.twinCounted frame = S at hid htw hclk hto hex htick
  unfold State.heartbeatRx at hex
  dsimp only at hex
  rw [hid, if_neg (by intro hc; rcases hc with hc | hc | hc; exact hc h1; exact hc h2; exact h3 hc)] at hex
  have hr : (S.rset (twinReg 0x118) S.tick).rget (twinReg 0x118) = s.tick % 2 ^ 64 := by rw [State.rget_rset_same, htick]
  have hW : ∃ W : State, W = ((S.rset (twinReg 0x118) S.tick).setTwin fun t => { t with
      hbUp := S.clk.up, creditSeen := fld p 12 4, partnerState := byteAt p 8, partnerHeld := bit (byteAt p 9) 1
      partnerTakeover := bit (byteAt p 9) 0 }) := ⟨_, rfl⟩
  obtain ⟨W, hW⟩ := hW
  have e : W.rget (twinReg 0x118) = s.tick % 2 ^ 64 := by
    rw [hW, State.rget_setTwin]
    exact hr
  have e1 : W.twin.state = .paired := by rw [hW]; show S.twin.state = _; rw [htw, h4]
  have e2 : W.twin.hbUp = s.clk.up := by rw [hW]; show S.clk.up = _; rw [hclk]
  have e3 : W.twin.creditSeen = fld p 12 4 := by rw [hW]; rfl
  have e4 : W.twin.partnerState = byteAt p 8 := by rw [hW]; rfl
  have e5 : W.twin.partnerHeld = bit (byteAt p 9) 1 := by rw [hW]; rfl
  have e6 : W.twin.partnerTakeover = bit (byteAt p 9) 0 := by rw [hW]; rfl
  have e7 : OnlyTouches [.regs, .twin, .out] s W := by
    refine only_trans (only_mono hto (by decide)) ?_
    rw [hW]
    exact onlyTouches_of_blank (l := [.regs, .twin, .out]) ((setTwin_blank (fun p => decide (p ∈ [Part.regs, .twin, .out])) (s := S.rset (twinReg 0x118) S.tick) _ (by decide)).trans (rset_blank _ S _ _ (by decide)))
  rw [← hW] at hex
  clear hW hr
  have hd := twinDrain_role W.twin.waiting.length W
  have e8 : OnlyTouches [.regs, .twin, .out] W (W.twinDrain W.twin.waiting.length) :=
    onlyTouches_of_blank (l := [.regs, .twin, .out]) (twinDrain_blank _ (by decide) (by decide) (by decide) _ W)
  generalize W.twinDrain W.twin.waiting.length = U at hex hd e8
  refine ⟨U, hd.state.trans e1, hd.hbUp.trans e2, hd.seen.trans e3, hd.pstate.trans e4, hd.pheld.trans e5, hd.ptake.trans e6,
    (hd.regs 0x118 (by decide)).trans e, only_trans e7 e8, ?_⟩
  rw [hex, hd.state.trans e1]

theorem check_eq (s : State) (h1 : s.twin.state = .paired) (h2 : s.twin.checkUp < s.clk.up) (h3 : s.twin.hbUp + 1 < s.clk.up) :
    s.hbCheck = (let u := ((s.setTwin fun t => { t with checkUp := s.clk.up }).bump (twinReg 0x180)).setTwin fun t => { t with misses := t.misses + 1 }
      if s.fget (twinReg 0x100) 11 8 ≤ s.twin.misses + 1 then u.partnerLost else u) := by
  unfold State.hbCheck
  rw [h1, decide_eq_false (by omega : ¬ s.clk.up ≤ s.twin.checkUp)]
  rw [if_neg (by decide)]
  dsimp only
  rw [if_neg (by show ¬ s.clk.up ≤ s.twin.hbUp + 1; omega)]
  have hf : ∀ g, ((((s.setTwin fun t => { t with checkUp := s.clk.up }).bump (twinReg 0x180)).setTwin g).fget (twinReg 0x100) 11 8) = s.fget (twinReg 0x100) 11 8 := by
    intro g
    unfold State.fget
    rw [State.rget_setTwin]
    unfold State.bump
    rw [State.rget_rset_ne _ _ _ _ (by decide), State.rget_setTwin]
  rw [hf]
  rfl

theorem serveRange_takes (s : State) (c : Nat) : (s.serveRange c).twin.state = s.twin.state ∧ (s.serveRange c).twin.taking = s.twin.taking
    ∧ (s.serveRange c).twin.takeoverUp = s.twin.takeoverUp := by
  let k : State → TwinState × Bool × Option Nat := fun u => (u.twin.state, u.twin.taking, u.twin.takeoverUp)
  suffices h : k (s.serveRange c) = k s from ⟨congrArg (fun x => x.1) h, congrArg (fun x => x.2.1) h, congrArg (fun x => x.2.2) h⟩
  unfold State.serveRange
  extract_lets x chunks first ahead low released S1 S2 mine S3
  refine (each_keeps k _ (fun u m => ?_) _ S3).trans ?_
  · dsimp only
    split
    · rfl
    · have hV : ((u.setCol fun k => { k with mirrors := k.mirrors.filter (· != m) }).adoptRuns m).twin = u.twin :=
          (onlyTouches_of_blank (l := [.col]) (adoptRuns_blank _ (by decide) (u.setCol fun k => { k with mirrors := k.mirrors.filter (· != m) }) m)).2 .twin (by decide)
      generalize (u.setCol fun k => { k with mirrors := k.mirrors.filter (· != m) }).adoptRuns m = V at hV ⊢
      show (V.twin.state, V.twin.taking, V.twin.takeoverUp) = _
      rw [hV]
  · have h3 : k S3 = k S2 := each_keeps k State.releaseMirror (fun u m => by
      have : (u.releaseMirror m).twin = u.twin := (onlyTouches_of_blank (l := [.regs, .sw, .tbl, .mgmt, .col, .aer])
        (releaseMirror_blank _ (by decide) (by decide) (by decide) (by decide) (by decide) (by decide) u m)).2 .twin (by decide)
      show (_, _, _) = _
      rw [this]) _ S2
    rw [h3]
    rfl

theorem takeOver_takes (s : State) : s.takeOver.twin.state = s.twin.state ∧ s.takeOver.twin.taking = true ∧ s.takeOver.twin.takeoverUp = some s.clk.up := by
  let k : State → TwinState × Bool × Option Nat := fun u => (u.twin.state, u.twin.taking, u.twin.takeoverUp)
  suffices h : k s.takeOver = (s.twin.state, true, some s.clk.up) from ⟨congrArg (fun x => x.1) h, congrArg (fun x => x.2.1) h, congrArg (fun x => x.2.2) h⟩
  unfold State.takeOver
  extract_lets S ctxs
  refine (each_keeps k State.serveRange (fun u c => ?_) ctxs S).trans rfl
  obtain ⟨h1, h2, h3⟩ := serveRange_takes u c
  show (_, _, _) = _
  rw [h1, h2, h3]

theorem rootKey_of_sys {s t : State} (h : t.sys.unpinned = s.sys.unpinned) : t.sys.rootKey = s.sys.rootKey := (congrArg SysSt.rootKey h :)

/-- What an attach that fails leaves. -/
theorem attachFails_sets (s : State) (cause : Nat) : (s.attachFails cause).twin = { s.twin with
      state := s.twin.former, unacked := [], waiting := [], copyQueue := [], copied := [], copyIn := [], announced := [] }
    ∧ (s.attachFails cause).bget (twinReg 0x010) 11 = true
    ∧ (s.bget (twinReg 0x010) 13 = true → (s.attachFails cause).bget (twinReg 0x010) 13 = true) := by
  unfold State.attachFails
  extract_lets gained S1 S2
  have e1 : S1.twin = s.twin := each_keeps (fun u : State => u.twin) State.freePlanes (fun _ _ => rfl) gained s.dropMirrors
  have r1 : S1.regs = s.regs := each_keeps (fun u : State => u.regs) State.freePlanes (fun _ _ => rfl) gained s.dropMirrors
  have e2 : S2.twin = { s.twin with
      state := s.twin.former, unacked := [], waiting := [], copyQueue := [], copied := [], copyIn := [], announced := [] } := by
    show ({ S1.twin with state := S1.twin.former, unacked := [], waiting := [], copyQueue := [], copied := [], copyIn := [], announced := [] } : TwinSt) = _
    rw [e1]
  have r2 : S2.regs = s.regs := r1
  obtain ⟨V, hV⟩ : ∃ V : State, V = (if S2.twin.state == TwinState.paired then S2 else S2.noAcks) := ⟨_, rfl⟩
  have ev : V.twin = S2.twin := by
    rw [hV]
    split <;> rfl
  have rv : V.regs = s.regs := by
    rw [← r2, hV]
    split <;> rfl
  rw [← hV]
  refine ⟨?_, alarm_bit _ (twinReg 0) 11 _ _ _ (by decide) (by decide), fun h => ?_⟩
  · rw [State.alarm_twin, ev, e2]
  · unfold State.bget
    have := alarm_set V (twinReg 0) 11 0x1103 cause [] (by decide) (by decide)
    have h' : (V.rget (twinReg 0 + 0x010)).testBit 13 = true := by
      unfold State.rget
      rw [rv]
      exact h
    show Nat.testBit ((V.alarm (twinReg 0) 11 0x1103 cause).rget (twinReg 0 + 0x010)) 13 = true
    rw [this, Nat.testBit_or, h', Bool.true_or]

theorem mismatch_sets (s : State) : s.partnerMismatch.twin.state = s.twin.former
    ∧ s.partnerMismatch.bget (twinReg 0x010) 13 = true ∧ s.partnerMismatch.bget (twinReg 0x010) 11 = true := by
  unfold State.partnerMismatch
  obtain ⟨h1, h2, h3⟩ := attachFails_sets (s.alarmPlain (twinReg 0) 13) 3
  refine ⟨?_, h3 (alarm_bit s (twinReg 0) 13 _ _ _ (by decide) (by decide)), h2⟩
  rw [h1, State.alarmPlain_twin]

theorem hello_eq (s : State) (frame p : Bytes) (h : s.twinHears twHello frame p) (h1 : p.length = 248) (h2 : s.twin.state = .attach) :
    exec (.twinHelloRx frame) s = done s ((s.twinCounted frame).judgeHello p) := by
  show execTwinHelloRx frame s = _
  unfold execTwinHelloRx
  rw [twinRx_eq h]
  unfold State.helloRx
  rw [if_neg (by rw [h1]; decide), counted_twin, h2]

theorem judge_good (s : State) (p : Bytes) (h1 : certGood s.sys.rootKey (sub p 40 208) = true) (h2 : certChip (sub p 40 208) = fld p 0 8)
    (h3 : s.rget (twinReg 0x110) = 0 ∨ s.rget (twinReg 0x110) = fld p 0 8) :
    s.judgeHello p = ((s.rset (twinReg 0x108) (fld p 0 8)).setTwin fun t =>
      { t with partnerCert := sub p 40 208, partnerNonce := sub p 8 32, helloHeard := true }).twinSend twProof
        (edSign identityKey (ascii "WZ5TWIN1" ++ sub p 8 32 ++ beBytes 8 chipId)) := by
  unfold State.judgeHello
  dsimp only
  rw [h1, h2, if_neg]
  rcases h3 with h3 | h3 <;> rw [h3] <;> simp

theorem judge_bad (s : State) (p : Bytes) (h : certGood s.sys.rootKey (sub p 40 208) = false ∨ certChip (sub p 40 208) ≠ fld p 0 8
          ∨ (s.rget (twinReg 0x110) ≠ 0 ∧ s.rget (twinReg 0x110) ≠ fld p 0 8)) :
    s.judgeHello p = s.partnerMismatch := by
  unfold State.judgeHello
  dsimp only
  rw [if_pos]
  rcases h with h | h | ⟨h, g⟩
  · rw [h]; rfl
  · simp [h]
  · simp [h, g]

theorem proof_eq (s : State) (frame p : Bytes) (h : s.twinHears twProof frame p) (h1 : p.length = 64) (h2 : s.twin.state = .attach)
    (h3 : s.twin.helloHeard = true) (h4 : s.twin.proofGood = false) :
    exec (.twinProofRx frame) s = done s (if edVerify (certKey s.twin.partnerCert) (ascii "WZ5TWIN1" ++ fit 32 s.twin.ownNonce ++ beBytes 8 s.partnerId) p then
      (s.twinCounted frame).beginCopy else (s.twinCounted frame).partnerMismatch) := by
  show execTwinProofRx frame s = _
  unfold execTwinProofRx
  rw [twinRx_eq h]
  have hid : (s.twinCounted frame).partnerId = s.partnerId := counted_rget s frame 0x108 (by decide)
  unfold State.proofRx
  rw [counted_twin, hid, h2, h3, h4, h1]
  rfl

theorem announce_role (s : State) (c : Nat) : SameRole s (s.announce c) := by
  unfold State.announce
  extract_lets x cfg p
  exact twinOut_role _ _

theorem beginCopy_role (s : State) : s.beginCopy.twin.state = s.twin.state ∧ s.beginCopy.twin.proofGood = true ∧ s.beginCopy.twin.proofUp = s.clk.up
    ∧ s.beginCopy.rget (twinReg 0x128) = (s.copyList.foldl (fun n x => n + s.copyBytes x) 0) % 2 ^ 64 := by
  unfold State.beginCopy
  extract_lets list S1 S2
  have h := (each_role S2.twinCtxs State.announce announce_role S2).trans (copyOn_role _)
  refine ⟨h.state, h.good, h.goodUp, (h.regs 0x128 (by decide)).trans ?_⟩
  show S1.rget _ = _
  exact State.rget_rset_same _ _ _

theorem copyList_same {s t : State} (h1 : t.col = s.col) (h2 : ∀ c, t.twinned c = s.twinned c) : t.copyList = s.copyList ∧ t.copyBytes = s.copyBytes := by
  have hx : ∀ c, t.ctx c = s.ctx c := ctx_of_col h1
  refine ⟨?_, ?_⟩
  · unfold State.copyList State.twinCtxs
    simp only [h1, h2, hx]
  · funext x
    unfold State.copyBytes
    simp only [hx]

theorem counted_twinned (s : State) (frame : Bytes) (c : Nat) : (s.twinCounted frame).twinned c = s.twinned c := by
  unfold State.twinned
  have : (s.twinCounted frame).rget (ctxReg c 0x100) = s.rget (ctxReg c 0x100) := by
    refine rget_pmc _ _ _ _ _ ?_
    unfold twinReg ctxReg
    omega
  simp only [State.bget, State.cfg, State.fget, this]

theorem attach_ends (s : State) (n : Nat) (h1 : s.twin.state = .attach ∨ s.twin.state = .verify)
    (h2 : (s.twin.helloHeard = false ∧ s.twin.attachUp + 2500000 ≤ s.clk.up) ∨ (s.twinUp = false ∧ s.fget (twinReg 0x100) 11 8 ≤ n)) :
    ∃ cause, s.attachEnd n = some cause := by
  unfold State.attachEnd
  have h3 : (s.twin.state != .attach && s.twin.state != .verify) = false := by rcases h1 with h | h <;> rw [h] <;> rfl
  rw [h3, if_neg Bool.false_ne_true]
  by_cases hc : (!s.twin.helloHeard && decide (s.twin.attachUp + 2500000 ≤ s.clk.up)) = true
  · rw [if_pos hc]
    exact ⟨1, rfl⟩
  · rw [if_neg hc]
    rcases h2 with ⟨a, b⟩ | ⟨a, b⟩
    · exact absurd (by rw [a, decide_eq_true b]; rfl) hc
    · rw [a, decide_eq_true b]
      exact ⟨2, rfl⟩

end Sys2Proof.Machine
end

