-- ==== Sys2Proof/Laws/TwinMirrorMoves.lean ====
section
/-! SUPPORT. Lemmas about the twin mirror. -/

namespace Sys2Proof.Machine

theorem hbm_of {l : List Part} {s t : State} (h : OnlyTouches l s t) (hp : Part.hbm ∉ l) : t.hbm = s.hbm := h.2 .hbm hp

theorem counted_up {s : State} {type : Nat} {frame p : Bytes} (h : s.twinHears type frame p) :
    (s.twinCounted frame).twinUp = true ∧ (s.twinCounted frame).fatal = false ∧ (s.twinCounted frame).tick = s.tick := by
  have hto := counted_touches s frame
  refine ⟨(twinUp_of_pho (hto.2 .pho (by decide))).trans h.1, (fatal_of_dump (hto.2 .dump (by decide))).trans h.2.1, ?_⟩
  unfold State.tick
  rw [counted_clk]

theorem twinSend_out (s : State) (type : Nat) (p : Bytes) (h1 : s.twinUp = true) (h2 : s.fatal = false) :
    (s.twinSend type p).out = .twin (twinFrame type s.tick p) :: s.out := twinOut_out s _ h1 h2

theorem twinSend_touches (s : State) (type : Nat) (p : Bytes) : OnlyTouches [.regs, .out] s (s.twinSend type p) := twinOut_touches s _

theorem counted_ctx (s : State) (frame : Bytes) (c : Nat) : (s.twinCounted frame).ctx c = s.ctx c := ctx_of_col (counted_col s frame) c

theorem counted_reg (s : State) (frame : Bytes) (a : Nat) (h : a < twinReg 0x060 ∨ twinReg 0x0A0 ≤ a) : (s.twinCounted frame).rget a = s.rget a :=
  rget_pmc _ _ _ _ _ h

theorem counted_updates (s : State) (frame : Bytes) (c : Nat) : (s.twinCounted frame).updates c = s.updates c := by
  unfold State.updates State.cfg State.fget
  have : (s.twinCounted frame).rget (ctxReg c 0x100) = s.rget (ctxReg c 0x100) := counted_reg _ _ _ (by unfold twinReg ctxReg; omega)
  rw [this]

theorem counted_differs (s : State) (frame : Bytes) (c : Nat) (p : Bytes) : (s.twinCounted frame).programDiffers c p = s.programDiffers c p := by
  unfold State.programDiffers
  rw [counted_ctx, counted_updates]

theorem config_eq (s : State) (frame p : Bytes) (h : s.twinHears twConfig frame p) (h1 : s.twin.state = .paired) (h2 : 88 ≤ p.length)
    (h3 : fld p 8 4 = p.length - 88) (h4 : (s.ctx (byteAt p 0)).serving = false) :
    exec (.twinCtxConfigRx frame) s = done s (if s.programDiffers (byteAt p 0) p = true then (s.twinCounted frame).sendAccept (byteAt p 0) .conflict 1
      else match (s.twinCounted frame).configure (byteAt p 0) p with
        | none => (s.twinCounted frame).sendAccept (byteAt p 0) .conflict 2
        | some u => u.sendAccept (byteAt p 0) .ok 0) := by
  show execTwinCtxConfigRx frame s = _
  unfold execTwinCtxConfigRx
  rw [twinRx_eq h]
  unfold State.configRx
  dsimp only
  rw [counted_ctx, counted_twin, counted_differs, h1, h4, h3, decide_eq_false (by omega : ¬ p.length < 88), if_neg (by simp), if_neg Bool.false_ne_true]
  generalize s.programDiffers (byteAt p 0) p = b
  cases b
  · rw [if_neg (by decide), if_neg (by decide)]
    rfl
  · rw [if_pos (by decide), if_pos rfl]

theorem foldl_ctx {α : Type} (f : State → α → State) (h : ∀ u x, (f u x).col.ctxs = u.col.ctxs) (l : List α) (s : State) (c : Nat) :
    (l.foldl f s).ctx c = s.ctx c := by
  have := foldl_keeps (fun u : State => u.col.ctxs) f h l s
  unfold State.ctx
  exact congrArg (fun m => mgetD m c {}) this

theorem configured_ctx {s u : State} {c : Nat} {p : Bytes} (h : s.configure c p = some u) :
    (u.ctx c).mirrorConfig = p ∧ (u.ctx c).mirrorBase = fld p 4 4 ∧ (u.ctx c).mirrorChunks = p.length - 88 := by
  unfold State.configure at h
  dsimp only at h
  split at h
  · cases h
  · injection h with h
    rw [← h]
    have key : ∀ (V : State) (g : CtxSt → CtxSt) (gt : TwinSt → TwinSt),
        (((V.setCtx c g).setCol fun k => { k with mirrors := k.mirrors.filter fun m => m.ctx != c }).setTwin gt).ctx c = g (V.ctx c) :=
      fun V g gt => State.ctx_setCtx_same V c g
    refine ⟨?_, ?_, ?_⟩
    · refine congrArg CtxSt.mirrorConfig (key _ _ _)
    · refine congrArg CtxSt.mirrorBase (key _ _ _)
    · refine (congrArg CtxSt.mirrorChunks (key _ _ _)).trans ?_
      dsimp only
      rw [List.length_map, List.length_drop]

theorem acceptEnable_full (s : State) (c : Nat) (p : Plan) (f : Option InFlight) : ∃ x : CtxSt, (s.acceptEnable c p f).ctx c = { x with plan := some p, asking := none, enabling := some f }
    ∧ ∀ q, p.planes = some q → x.planes = some q := by
  refine ⟨(s.commitPlanes c p).ctx c, ?_, fun q hq => ?_⟩
  · unfold State.acceptEnable
    dsimp only
    exact (foldl_ctx (fun (s : State) (q : Placed) => s.setCore q.core fun y => { y with engTurn := y.engTurn + s.tiles c }) (fun u q => rfl) _ _ _).trans (State.ctx_setCtx_same _ _ _)
  · unfold State.commitPlanes
    rw [hq]
    dsimp only
    rw [State.ctx_setCtx_same]

theorem byteAt_lt (b : Bytes) (i : Nat) : byteAt b i < 256 := by
  unfold byteAt
  exact BitVec.isLt _

theorem chunks_eq (s : State) (frame p : Bytes) (h : s.twinHears twChunkDigests frame p) :
    exec (.twinChunkDigestsRx frame) s = done s ((s.twinCounted frame).chunkDigestsRx p) := by
  show execTwinChunkDigestsRx frame s = _
  unfold execTwinChunkDigestsRx
  rw [twinRx_eq h]

theorem diverge_marks (s : State) (c step low : Nat) (hc : c < 256) : (s.diverge c step low).bget (twinReg 0x010) 12 = true
    ∧ (s.diverge c step low).bget (ctxReg c 0x140) 2 = true ∧ (s.diverge c step low).col = s.col := by
  unfold State.diverge
  extract_lets V
  refine ⟨alarm_bit _ (twinReg 0) 12 _ _ _ (by decide) (by decide), ?_, ?_⟩
  · unfold State.bget
    rw [alarm_rget _ _ _ _ _ _ _ (by unfold ctxReg telReg; omega) (by unfold ctxReg twinReg; omega) (by unfold ctxReg twinReg; omega),
      State.rget_bump_ne _ _ _ _ (by unfold ctxReg twinReg; omega)]
    show Nat.testBit (State.rget (State.attn _ _ _) _) 2 = true
    rw [attn_rget _ _ _ _ (by unfold ctxReg; omega) (by unfold ctxReg; omega)]
    unfold State.ctxCtr
    rw [State.rget_bump32_ne _ _ _ _ (by unfold CtxCtr.reg ctxReg; simp [CtxCtr.ctorIdx])]
    exact bget_bset_same s (ctxReg c 0x140) 2 true (by decide)
  · rw [State.alarm_col]
    show V.col = s.col
    have : OnlyTouches [.regs, .mgmt, .aer] s V := onlyTouches_of_blank (l := [.regs, .mgmt, .aer]) (by
      show State.blank _ (State.attn _ _ _) = _
      rw [attn_blank _ (by decide) (by decide), ctxCtr_blank _ (by decide), bset_blank _ (by decide)])
    exact this.2 .col (by decide)

theorem hwrite_of {s t : State} (h : t.hbm = s.hbm) (a : Nat) (b : Bytes) : (t.hwrite a b).hbm = (s.hwrite a b).hbm := by
  unfold State.hwrite
  rw [h]

theorem twinFreed_twin (s : State) (n : Nat) : (s.twinFreed n).twin = { s.twin with freed := (s.twin.freed + n) % 2 ^ 32 } := rfl

theorem twinFreed_out (s : State) (n : Nat) : (s.twinFreed n).out = s.out := rfl

theorem twinFreed_col (s : State) (n : Nat) : (s.twinFreed n).col = s.col := rfl

theorem twinFreed_mem (s : State) (n : Nat) : (s.twinFreed n).hbm = s.hbm := rfl

theorem twinFreed_touches (s : State) (n : Nat) : OnlyTouches [.twin] s (s.twinFreed n) := onlyTouches_of_blank (l := [.twin]) (setTwin_blank _ s _ (by decide))

theorem copy_taken (s : State) (n : Nat) (h1 : 16 ≤ n) (h2 : n ≤ 16400) (h3 : s.twin.state = .attach ∨ s.twin.state = .verify) :
    (decide (n < 16) || decide (16400 < n) || !(s.twin.state == .attach || s.twin.state == .verify)) = false := by
  rw [decide_eq_false (Nat.not_lt.mpr h1), decide_eq_false (Nat.not_lt.mpr h2)]
  rcases h3 with h3 | h3 <;> rw [h3] <;> rfl

theorem ended_eq (s : State) (frame p : Bytes) (h : s.twinHears twCopyEnd frame p) (h1 : p.length = 16) (h2 : s.twin.state = .attach) :
    exec (.twinCopyEndRx frame) s = done s ((s.twinCounted frame).copyEnded p).tryVerify := by
  show execTwinCopyEndRx frame s = _
  unfold execTwinCopyEndRx
  rw [twinRx_eq h]
  unfold State.copyEndRx
  dsimp only
  rw [counted_twin, if_neg (by rw [h1, h2]; decide)]
  unfold State.copyEnded
  rw [counted_twin]

/-- Of a copy that has ended, only the twin state and the uptime count. -/
theorem ended_same (s S : State) (p : Bytes) (c3 : S.twin = s.twin) (c4 : S.clk = s.clk) :
    (S.copyEnded p).twin = (s.copyEnded p).twin ∧ (S.copyEnded p).copyComplete = (s.copyEnded p).copyComplete := by
  have e1 : (S.copyEnded p).twin = (s.copyEnded p).twin := by
    simp only [State.copyEnded, State.setTwin, c3]
  have e2 : (S.copyEnded p).clk = (s.copyEnded p).clk := c4
  refine ⟨e1, ?_⟩
  unfold State.copyComplete
  rw [e1, e2]

theorem paired_role (s : State) (l : List Nat) : (s.each l fun s c => s.bset (ctxReg c 0x140) 2 false).twin = s.twin
    ∧ OnlyTouches [.regs] s (s.each l fun s c => s.bset (ctxReg c 0x140) 2 false) :=
  ⟨each_keeps (fun u : State => u.twin) (fun s c => s.bset (ctxReg c 0x140) 2 false) (fun _ _ => rfl) l s,
    onlyTouches_of_blank (l := [.regs]) (by
      refine each_blank _ s l _ fun u c => ?_
      exact bset_blank _ (by decide) u _ _ _)⟩

/-- What an attach that fails leaves. -/
theorem failed_sets (s : State) (cause : Nat) : (s.attachFails cause).twin.state = s.twin.former ∧ (s.attachFails cause).bget (twinReg 0x010) 11 = true := by
  unfold State.attachFails
  extract_lets gained S1 S2
  have e1 : S1.twin = s.twin := each_keeps (fun u : State => u.twin) State.freePlanes (fun _ _ => rfl) gained s.dropMirrors
  have e2 : S2.twin.state = s.twin.former := congrArg TwinSt.former e1
  refine ⟨?_, alarm_bit _ (twinReg 0) 11 _ _ _ (by decide) (by decide)⟩
  rw [State.alarm_twin]
  split
  · exact e2
  · exact e2

theorem handed_eq (s : State) (frame p : Bytes) (h : s.twinHears twHandover frame p) :
    exec (.twinHandoverRx frame) s = done s ((s.twinCounted frame).handoverRx p) := by
  show execTwinHandoverRx frame s = _
  unfold execTwinHandoverRx
  rw [twinRx_eq h]

theorem solo_twin (s : State) : s.enterSolo.twin.state = .solo ∧ s.enterSolo.clk = s.clk ∧ s.enterSolo.col.ctxs = s.col.ctxs := by
  unfold State.enterSolo
  extract_lets V
  refine ⟨?_, ?_, ?_⟩
  · rw [State.alarm_twin]
    rfl
  · exact alarm_same (p := .clk) (by decide) ..
  · exact (congrArg CollectSt.ctxs (show (V.noAcks.alarm (twinReg 0) 8 0x1101 V.noAcks.twin.misses).col = V.noAcks.col from alarm_same (p := .col) (by decide) ..) :)

theorem noteNext_keeps (s : State) (c k n : Nat) : (s.noteNext c k n).twin.state = s.twin.state ∧ (s.noteNext c k n).clk = s.clk ∧ (s.noteNext c k n).col = s.col :=
  ⟨rfl, rfl, rfl⟩

/-- A range that is served stands as taken over. -/
theorem serves_role (s : State) (c : Nat) : (s.serveRange c).twin.state = s.twin.state ∧ (s.serveRange c).twin.takeoverUp = s.twin.takeoverUp
    ∧ (s.serveRange c).twin.rangeHeld = true := by
  let k : State → TwinState × Bool × Option Nat := fun u => (u.twin.state, u.twin.rangeHeld, u.twin.takeoverUp)
  suffices h : k (s.serveRange c) = (s.twin.state, true, s.twin.takeoverUp) from ⟨congrArg (fun x => x.1) h, congrArg (fun x => x.2.2) h, congrArg (fun x => x.2.1) h⟩
  unfold State.serveRange
  extract_lets x chunks first ahead low released S1 S2 mine S3
  refine (each_keeps k _ (fun u m => ?_) _ S3).trans ?_
  · dsimp only
    split
    · rfl
    · have hV : ((u.setCol fun k => { k with mirrors := k.mirrors.filter (· != m) }).adoptRuns m).twin = u.twin :=
          (onlyTouches_of_blank (l := [.col]) (adoptRuns_blank _ (by decide) (u.setCol fun k => { k with mirrors := k.mirrors.filter (· != m) }) m)).2 .twin (by decide)
      generalize (u.setCol fun k => { k with mirrors := k.mirrors.filter (· != m) }).adoptRuns m = V at hV ⊢
      show (V.twin.state, V.twin.rangeHeld, V.twin.takeoverUp) = _
      rw [hV]
  · have h3 : k S3 = k S2 := each_keeps k State.releaseMirror (fun u m => by
      have : (u.releaseMirror m).twin = u.twin := (onlyTouches_of_blank (l := [.regs, .sw, .tbl, .mgmt, .col, .aer])
        (releaseMirror_blank _ (by decide) (by decide) (by decide) (by decide) (by decide) (by decide) u m)).2 .twin (by decide)
      show (_, _, _) = _
      rw [this]) _ S2
    rw [h3]
    rfl

theorem sendAbort_col (s : State) (c step first last reason : Nat) : (s.sendAbort c step first last reason).col = s.col :=
  (onlyTouches_of_blank (l := [.aer, .mgmt, .regs, .sw, .tbl]) (sendAbort_blank _ (by decide) (by decide) (by decide) (by decide) (by decide) s c step first last reason)).2 .col (by decide)

end Sys2Proof.Machine
end

