-- ==== Sys2Proof/WellFormed.lean ====
section
/-! DEFINITION. When a command is one the wire or the board can present: lengths that the frame or pin it
stands for fixes. A meaning is given to ill-formed commands too. -/

namespace Sys2Proof

/-- The envelope fits its version: HCP 1 carries no session, SEQ or MAC (R289), HCP 2 carries a 16-byte
MAC exactly when SESSION is not 0 (R288). -/
def Req.wf (q : Req) : Bool :=
  if q.hcp1 then q.session == 0 && q.seq == 0 && q.mac.isEmpty
  else if q.session == 0 then q.mac.isEmpty
  else q.mac.length == 16

/-- A segment's data are the SEG_LEN bytes its header announces (R294), within one HCP 2 body. -/
def Segment.wf (g : Segment) : Bool := g.data.length == g.segLen.toNat && decide (g.data.length ≤ 8936)

/-- A table command block carries the argument bytes its header announces (R110). -/
def TblBlock.wf (b : TblBlock) : Bool := b.args.length == b.argLen.toNat

/-- A wire frame of at most `n` bytes. -/
def frameFits (n : Nat) (f : Bytes) : Bool := decide (f.length ≤ n)

/-- The requests, segments, blocks and frames of a command are well formed. -/
def Instr.wf : Instr → Bool
  | .calLoad q seg => q.wf && seg.wf
  | .progLoad q seg => q.wf && seg.wf
  | .lpmInsert q b => q.wf && b.wf
  | .lpmDelete q b => q.wf && b.wf
  | .lpmModify q b => q.wf && b.wf
  | .lpmRead q b => q.wf && b.wf
  | .nhWrite q b => q.wf && b.wf
  | .nhRead q b => q.wf && b.wf
  | .mcWrite q b => q.wf && b.wf
  | .mcRead q b => q.wf && b.wf
  | .macInsert q b => q.wf && b.wf
  | .macDelete q b => q.wf && b.wf
  | .search q b => q.wf && b.wf
  | .macNext q b => q.wf && b.wf
  | .flushByPort q b => q.wf && b.wf
  | .vlanWrite q b => q.wf && b.wf
  | .vlanRead q b => q.wf && b.wf
  | .hcpRead q _ => q.wf
  | .hcpWrite q _ _ => q.wf
  | .rmw q _ _ _ => q.wf
  | .bulkRead q _ _ => q.wf
  | .bulkWrite q _ ws => q.wf && decide (ws.length ≤ 2236)
  | .dumpRead q _ _ _ _ => q.wf
  | .attest q nonce _ => q.wf && nonce.length == 32
  | .sessionOpen q _ _ e n g => q.wf && e.length == 32 && n.length == 32 && g.length == 64
  | .sessionClose q => q.wf && !q.hcp1
  | .laneTagBlockRx _ _ block _ _ _ => block.length == 64
  | .creditBlockRx _ block => block.length == 8
  | .headerTaken _ _ _ frame _ => frameFits 9216 frame
  | .firmwareVerify a b => decide (a.length ≤ 2 ^ 24) && decide (b.length ≤ 2 ^ 24)
  | .ptpMessageRx _ msg _ => frameFits 9216 msg
  | .hcpFrameRefused _ _ _ _ _ _ frame => frameFits 9216 frame
  | .kiteMonitorSample a b => a.length == 32 && b.length == 32
  | .twinHeartbeatRx f => frameFits 32788 f
  | .twinHelloRx f => frameFits 32788 f
  | .twinProofRx f => frameFits 32788 f
  | .twinCtxConfigRx f => frameFits 32788 f
  | .twinCtxAcceptRx f => frameFits 32788 f
  | .twinRecordRx f => frameFits 32788 f
  | .twinAckRx f => frameFits 32788 f
  | .twinReleasedRx f => frameFits 32788 f
  | .twinStepDigestRx f => frameFits 32788 f
  | .twinChunkDigestsRx f => frameFits 32788 f
  | .twinCopyRx f => frameFits 32788 f
  | .twinCopyEndRx f => frameFits 32788 f
  | .twinHandoverRx f => frameFits 32788 f
  | _ => true

end Sys2Proof
end

