-- ==== Sys2Proof/Tests/Slice0.lean ====
section
/-! SUPPORT. Small tests. -/

namespace Sys2Proof.Tests

open Sys2Proof.Machine

theorem test_ill_formed_tag_block : (Instr.laneTagBlockRx 0 0 [] 0 0 0).wf = false := by decide

end Sys2Proof.Tests
end

/-! Serial comparison of tick numbers (R40). -/

section
namespace Sys2Proof.Machine

/-- How far tick `a` lies ahead of tick `b`: the 48-bit difference is (A − B) modulo 2^48 (R40). -/
theorem tickNo_sub_toNat (a b : TickNo) :
    (a - b).toNat = (a.toNat + 2 ^ 48 - b.toNat) % 2 ^ 48 := by
  have hb : b.toNat < 2 ^ 48 := b.isLt
  rw [BitVec.toNat_sub, ← Nat.sub_add_comm hb.le, Nat.add_comm (2 ^ 48)]

/-- A tick lies after another exactly when the difference is in the lower half, 0 left out. -/
theorem tickAfter_iff_sub (a b : TickNo) :
    tickAfter a b = true ↔ 1 ≤ (a - b).toNat ∧ (a - b).toNat ≤ 2 ^ 47 - 1 := by
  simp only [tickAfter, Bool.and_eq_true, decide_eq_true_eq]

/-- Settles O9: the model takes the difference in 48-bit words, which is the rule's difference modulo 2^48. -/
theorem ticksCompareSerially : Obligations.TicksCompareSerially := by
  intro a b
  rw [tickAfter_iff_sub, tickNo_sub_toNat]

end Sys2Proof.Machine
end

/-! The exact sum in a column (R217). -/

section
namespace Sys2Proof.Machine

/-- A product of value 0, of either sign and at any exponent, is the integer 0 in the accumulator's unit of 2^-298. -/
@[simp] theorem accTerm_fin_zero (n : Bool) (e : Int) : accTerm (.fin n 0 e) = 0 := by
  simp [accTerm]

/-- A column of finite products holds their exact sum: `column_fold_acc` from the empty column. -/
theorem column_ofProducts_acc (ps : List Val) (h : ∀ p ∈ ps, ∃ n s e, p = Val.fin n s e) :
    (Column.ofProducts ps).acc = (ps.map accTerm).sum :=
  (column_fold_acc ps {} h).trans (Int.zero_add _)

/-- The whole column, the flags of R219 included, is the same in every order of entry: any two products may be
exchanged. -/
theorem column_ofProducts_perm {ps qs : List Val} (h : ps.Perm qs) :
    Column.ofProducts ps = Column.ofProducts qs := by
  have : RightCommutative Column.add := ⟨column_add_comm⟩
  unfold Column.ofProducts
  exact h.foldl_eq _

/-- A product of value 0 leaves the accumulator as it was. -/
theorem column_add_zero_acc (c : Column) (n : Bool) (e : Int) : (c.add (.fin n 0 e)).acc = c.acc := by
  rw [column_add_acc, accTerm_fin_zero, Int.add_zero]

/-- Settles O10, one lemma for each part: the exact sum, the free order, and the product of value 0. -/
theorem columnsSumExactly : Obligations.ColumnsSumExactly :=
  ⟨column_ofProducts_acc, fun _ _ => column_ofProducts_perm, column_add_zero_acc⟩

end Sys2Proof.Machine
end

/-! The pin TEMP_ALERT_N after a step (R408). -/

section
namespace Sys2Proof.Machine

/-- Whatever a command does, its meaning ends in `done`: no command leaves by a way that skips the pins. The meaning of
SUPPLY_FAULT alone reaches `done` behind a match, on its rail. -/
theorem exec_eq_done (c : Instr) (s : State) : ∃ u, exec c s = done s u := by
  cases c with
  | supplyFault rail _ => cases rail <;> exact ⟨_, rfl⟩
  | _ => exact ⟨_, rfl⟩

/-- A step ends in `done` on both of its ways: the front command's meaning, and the tick that passes on an empty
queue. -/
theorem step_eq_done (s : State) : ∃ r u, step s = done r u := by
  unfold step
  split
  · exact ⟨s, _, rfl⟩
  next c rest _ => exact ⟨{ s with pending := rest }, exec_eq_done c _⟩

/-- After every step the pins stand as the state says, since `done` sets them. -/
theorem step_settled {s t : State} (h : step s = .next t) : Settled t := by
  obtain ⟨r, u, hu⟩ := step_eq_done s
  exact done_settled (hu.symm.trans h)

/-- Settles O11: the pins follow the state after every step, and TEMP_ALERT_N read off them is R408's condition. -/
theorem tempAlertFollows : Obligations.TempAlertFollows := fun _ t h =>
  tempAlert_iff t (step_settled h)

end Sys2Proof.Machine
end

/-! Any step: the queue, the parts a command may reach, the pins, HBM, and ticks that pass. -/

section
namespace Sys2Proof.Machine

/-! The queue and the parts -/

/-- Whatever a command does, the queue of commands stands as it stood: `done` puts it back. -/
theorem exec_pending {c : Instr} {s t : State} (h : exec c s = .next t) : t.pending = s.pending := by
  obtain ⟨u, hu⟩ := exec_eq_done c s
  obtain ⟨v, hv, hp⟩ := done_ok s u
  rw [hu, hv] at h
  injection h with h
  exact h ▸ hp

/-- Settles O3: a command's own frame says it, in the terms of `State.blank`; for a command that may reach every part only
the queue is left to say. -/
theorem commandsKeepToTheirParts : Obligations.CommandsKeepToTheirParts := by
  intro c s t h
  cases c with
  | stageAReached => exact onlyTouches_of_blank (execStageAReached_blank _ rfl _ _ _ h)
  | calArmedLatch => exact onlyTouches_of_blank (execCalArmedLatch_blank _ rfl _ _ h)
  | creditBlockRx => exact onlyTouches_of_blank (execCreditBlockRx_blank _ rfl _ _ _ _ h)
  | dtdCreditReturn => exact onlyTouches_of_blank (execDtdCreditReturn_blank _ rfl _ _ _ _ _ h)
  | macAgeSweep => exact onlyTouches_of_blank (execMacAgeSweep_blank _ rfl _ _ h)
  | slotRefill => exact onlyTouches_of_blank (execSlotRefill_blank _ rfl _ _ _ h)
  | sessionIdleTimeout => exact onlyTouches_of_blank (execSessionIdleTimeout_blank _ rfl _ _ _ h)
  | mgmtLinkDown => exact onlyTouches_of_blank (execMgmtLinkDown_blank _ rfl _ _ _ h)
  | mgmtLinkUp => exact onlyTouches_of_blank (execMgmtLinkUp_blank _ rfl _ _ _ h)
  | echoLost => exact onlyTouches_of_blank (execEchoLost_blank _ rfl rfl _ _ _ h)
  | waitLimitExpiry => exact onlyTouches_of_blank (execWaitLimitExpiry_blank _ rfl rfl _ _ _ _ _ h)
  | carrierNoLight => exact onlyTouches_of_blank (execCarrierNoLight_blank _ rfl rfl _ _ _ _ _ h)
  | lossSegmentCheck => exact onlyTouches_of_blank (execLossSegmentCheck_blank _ rfl rfl _ _ _ _ _ h)
  | creditBlockTx => exact onlyTouches_of_blank (execCreditBlockTx_blank _ rfl rfl _ _ _ _ h)
  | pktSpill => exact onlyTouches_of_blank (execPktSpill_blank _ rfl rfl _ _ _ h)
  | pktRefill => exact onlyTouches_of_blank (execPktRefill_blank _ rfl rfl _ _ _ h)
  | learnRelayApply => exact onlyTouches_of_blank (execLearnRelayApply_blank _ rfl rfl _ _ h)
  | transferAbandon => exact onlyTouches_of_blank (execTransferAbandon_blank _ rfl rfl _ _ _ _ _ h)
  | portUpDetect => exact onlyTouches_of_blank (execPortUpDetect_blank _ rfl rfl _ _ _ h)
  | coreRecovered => exact onlyTouches_of_blank (execCoreRecovered_blank _ rfl rfl _ _ _ h)
  | fatalError => exact onlyTouches_of_blank (execFatalError_blank _ rfl rfl _ _ _ h)
  | supplyFault => exact onlyTouches_of_blank (execSupplyFault_blank _ rfl rfl _ _ _ _ h)
  | twinHeartbeatTx => exact onlyTouches_of_blank (execTwinHeartbeatTx_blank _ rfl rfl _ _ h)
  | ptpMessageTx => exact onlyTouches_of_blank (execPtpMessageTx_blank _ rfl rfl _ _ _ _ _ h)
  | ptpMessageRx => exact onlyTouches_of_blank (execPtpMessageRx_blank _ rfl rfl rfl _ _ _ _ _ h)
  | calEntryRewrite => exact onlyTouches_of_blank (execCalEntryRewrite_blank _ rfl rfl rfl _ _ _ _ _ h)
  | kiteSettled => exact onlyTouches_of_blank (execKiteSettled_blank _ rfl rfl rfl _ _ h)
  | kiteMonitorSample => exact onlyTouches_of_blank (execKiteMonitorSample_blank _ rfl rfl rfl _ _ _ _ h)
  | laneTagBlockTx => exact onlyTouches_of_blank (execLaneTagBlockTx_blank _ rfl rfl rfl _ _ _ h)
  | keepaliveTx => exact onlyTouches_of_blank (execKeepaliveTx_blank _ rfl rfl rfl _ _ _ _ h)
  | tableEntryRewrite => exact onlyTouches_of_blank (execTableEntryRewrite_blank _ rfl rfl rfl _ _ _ _ _ h)
  | windsockSample => exact onlyTouches_of_blank (execWindsockSample_blank _ rfl rfl rfl _ _ h)
  | dumpRead => exact onlyTouches_of_blank (execDumpRead_blank _ rfl rfl rfl _ _ _ _ _ _ _ h)
  | attest => exact onlyTouches_of_blank (execAttest_blank _ rfl rfl rfl _ _ _ _ _ h)
  | sessionClose => exact onlyTouches_of_blank (execSessionClose_blank _ rfl rfl rfl _ _ _ h)
  | hcpFrameRefused => exact onlyTouches_of_blank (execHcpFrameRefused_blank _ rfl rfl rfl _ _ _ _ _ _ _ _ _ h)
  | healthRecoverInterval => exact onlyTouches_of_blank (execHealthRecoverInterval_blank _ rfl rfl rfl _ _ h)
  | twinReleasedRx => exact onlyTouches_of_blank (execTwinReleasedRx_blank _ rfl rfl rfl _ _ _ h)
  | twinStepDigestRx => exact onlyTouches_of_blank (execTwinStepDigestRx_blank _ rfl rfl rfl _ _ _ h)
  | twinFrameResend => exact onlyTouches_of_blank (execTwinFrameResend_blank _ rfl rfl rfl _ _ _ h)
  | aerWrite => exact onlyTouches_of_blank (execAerWrite_blank _ rfl rfl rfl _ _ h)
  | fatalDumpComplete => exact onlyTouches_of_blank (execFatalDumpComplete_blank _ rfl rfl rfl _ _ _ _ h)
  | firmwareVerify => exact onlyTouches_of_blank (execFirmwareVerify_blank _ rfl rfl rfl rfl _ _ _ _ h)
  | patrolScrub => exact onlyTouches_of_blank (execPatrolScrub_blank _ rfl rfl rfl rfl _ _ _ _ _ h)
  | tjWarn => exact onlyTouches_of_blank (execTjWarn_blank _ rfl rfl rfl rfl _ _ _ _ _ h)
  | bwWindowEnd => exact onlyTouches_of_blank (execBwWindowEnd_blank _ rfl rfl rfl rfl _ _ h)
  | calLoad => exact onlyTouches_of_blank (execCalLoad_blank _ rfl rfl rfl rfl _ _ _ _ h)
  | epochSwitch => exact onlyTouches_of_blank (execEpochSwitch_blank _ rfl rfl rfl rfl _ _ h)
  | kitePrepare => exact onlyTouches_of_blank (execKitePrepare_blank _ rfl rfl rfl rfl _ _ h)
  | elsModuleInserted => exact onlyTouches_of_blank (execElsModuleInserted_blank _ rfl rfl rfl rfl _ _ _ _ h)
  | biasUpdate => exact onlyTouches_of_blank (execBiasUpdate_blank _ rfl rfl rfl rfl _ _ _ h)
  | ethFrameEnd => exact onlyTouches_of_blank (execEthFrameEnd_blank _ rfl rfl rfl rfl _ _ _ _ h)
  | cellTimeMatch => exact onlyTouches_of_blank (execCellTimeMatch_blank _ rfl rfl rfl rfl _ _ _ _ h)
  | twinCtxAcceptTimeout => exact onlyTouches_of_blank (execTwinCtxAcceptTimeout_blank _ rfl rfl rfl rfl _ _ _ h)
  | progLoad => exact onlyTouches_of_blank (execProgLoad_blank _ rfl rfl rfl rfl _ _ _ _ h)
  | progInstallComplete => exact onlyTouches_of_blank (execProgInstallComplete_blank _ rfl rfl rfl rfl _ _ _ h)
  | hcpRead => exact onlyTouches_of_blank (execHcpRead_blank _ rfl rfl rfl rfl _ _ _ _ h)
  | bulkRead => exact onlyTouches_of_blank (execBulkRead_blank _ rfl rfl rfl rfl _ _ _ _ _ h)
  | tileIssue => exact onlyTouches_of_blank (execTileIssue_blank _ rfl rfl rfl rfl _ _ _ h)
  | tileComplete => exact onlyTouches_of_blank (execTileComplete_blank _ rfl rfl rfl rfl _ _ _ _ _ h)
  | tileRerun => exact onlyTouches_of_blank (execTileRerun_blank _ rfl rfl rfl rfl _ _ _ _ h)
  | uuBistComplete => exact onlyTouches_of_blank (execUuBistComplete_blank _ rfl rfl rfl rfl _ _ _ _ h)
  | uuInvocationIssue => exact onlyTouches_of_blank (execUuInvocationIssue_blank _ rfl rfl rfl rfl _ _ _ h)
  | twinRecordRx => exact onlyTouches_of_blank (execTwinRecordRx_blank _ rfl rfl rfl rfl _ _ _ h)
  | twinAckRx => exact onlyTouches_of_blank (execTwinAckRx_blank _ rfl rfl rfl rfl _ _ _ h)
  | tickMarkerRx => exact onlyTouches_of_blank (execTickMarkerRx_blank _ rfl rfl rfl rfl rfl _ _ _ _ _ _ h)
  | upstreamMarkerTimeout => exact onlyTouches_of_blank (execUpstreamMarkerTimeout_blank _ rfl rfl rfl rfl rfl _ _ _ h)
  | holdoverExpiry => exact onlyTouches_of_blank (execHoldoverExpiry_blank _ rfl rfl rfl rfl rfl _ _ h)
  | calInstallComplete => exact onlyTouches_of_blank (execCalInstallComplete_blank _ rfl rfl rfl rfl rfl _ _ h)
  | grantedSubslot => exact onlyTouches_of_blank (execGrantedSubslot_blank _ rfl rfl rfl rfl rfl _ _ _ _ h)
  | leftoverOpportunity => exact onlyTouches_of_blank (execLeftoverOpportunity_blank _ rfl rfl rfl rfl rfl _ _ _ _ h)
  | cutThroughStart => exact onlyTouches_of_blank (execCutThroughStart_blank _ rfl rfl rfl rfl rfl _ _ _ _ h)
  | cellRx => exact onlyTouches_of_blank (execCellRx_blank _ rfl rfl rfl rfl rfl _ _ _ _ _ _ h)
  | reseqTimeout => exact onlyTouches_of_blank (execReseqTimeout_blank _ rfl rfl rfl rfl rfl _ _ _ _ h)
  | cutThroughTruncate => exact onlyTouches_of_blank (execCutThroughTruncate_blank _ rfl rfl rfl rfl rfl _ _ _ _ h)
  | lpmInsert => exact onlyTouches_of_blank (execLpmInsert_blank _ rfl rfl rfl rfl rfl _ _ _ _ h)
  | lpmDelete => exact onlyTouches_of_blank (execLpmDelete_blank _ rfl rfl rfl rfl rfl _ _ _ _ h)
  | lpmModify => exact onlyTouches_of_blank (execLpmModify_blank _ rfl rfl rfl rfl rfl _ _ _ _ h)
  | lpmRead => exact onlyTouches_of_blank (execLpmRead_blank _ rfl rfl rfl rfl rfl _ _ _ _ h)
  | lpmShiftDone => exact onlyTouches_of_blank (execLpmShiftDone_blank _ rfl rfl rfl rfl rfl _ _ h)
  | nhWrite => exact onlyTouches_of_blank (execNhWrite_blank _ rfl rfl rfl rfl rfl _ _ _ _ h)
  | nhRead => exact onlyTouches_of_blank (execNhRead_blank _ rfl rfl rfl rfl rfl _ _ _ _ h)
  | mcWrite => exact onlyTouches_of_blank (execMcWrite_blank _ rfl rfl rfl rfl rfl _ _ _ _ h)
  | mcRead => exact onlyTouches_of_blank (execMcRead_blank _ rfl rfl rfl rfl rfl _ _ _ _ h)
  | macInsert => exact onlyTouches_of_blank (execMacInsert_blank _ rfl rfl rfl rfl rfl _ _ _ _ h)
  | macDelete => exact onlyTouches_of_blank (execMacDelete_blank _ rfl rfl rfl rfl rfl _ _ _ _ h)
  | search => exact onlyTouches_of_blank (execSearch_blank _ rfl rfl rfl rfl rfl _ _ _ _ h)
  | macNext => exact onlyTouches_of_blank (execMacNext_blank _ rfl rfl rfl rfl rfl _ _ _ _ h)
  | flushByPort => exact onlyTouches_of_blank (execFlushByPort_blank _ rfl rfl rfl rfl rfl _ _ _ _ h)
  | flushSweepDone => exact onlyTouches_of_blank (execFlushSweepDone_blank _ rfl rfl rfl rfl rfl _ _ h)
  | vlanWrite => exact onlyTouches_of_blank (execVlanWrite_blank _ rfl rfl rfl rfl rfl _ _ _ _ h)
  | vlanRead => exact onlyTouches_of_blank (execVlanRead_blank _ rfl rfl rfl rfl rfl _ _ _ _ h)
  | ctxLullDrained => exact onlyTouches_of_blank (execCtxLullDrained_blank _ rfl rfl rfl rfl rfl _ _ _ h)
  | engBistComplete => exact onlyTouches_of_blank (execEngBistComplete_blank _ rfl rfl rfl rfl rfl _ _ _ _ h)
  | sessionOpen => exact onlyTouches_of_blank (execSessionOpen_blank _ rfl rfl rfl rfl rfl _ _ _ _ _ _ _ _ h)
  | tjRecover => exact onlyTouches_of_blank (execTjRecover_blank _ rfl rfl rfl rfl rfl _ _ _ h)
  | twinCtxConfigRx => exact onlyTouches_of_blank (execTwinCtxConfigRx_blank _ rfl rfl rfl rfl rfl _ _ _ h)
  | twinCopyRx => exact onlyTouches_of_blank (execTwinCopyRx_blank _ rfl rfl rfl rfl rfl _ _ _ h)
  | twinCtxAcceptRx => exact onlyTouches_of_blank (execTwinCtxAcceptRx_blank _ rfl rfl rfl rfl rfl _ _ _ h)
  | twinCopyEndRx => exact onlyTouches_of_blank (execTwinCopyEndRx_blank _ rfl rfl rfl rfl rfl _ _ _ h)
  | twinAttachTimeout => exact onlyTouches_of_blank (execTwinAttachTimeout_blank _ rfl rfl rfl rfl rfl _ _ _ h)
  | dtdLaneBelowSensitivity => exact onlyTouches_of_blank (execDtdLaneBelowSensitivity_blank _ rfl rfl rfl rfl rfl _ _ _ _ _ _ h)
  | snapshotComplete => exact onlyTouches_of_blank (execSnapshotComplete_blank _ rfl rfl rfl rfl rfl _ _ h)
  | stageDReached => exact onlyTouches_of_blank (execStageDReached_blank _ rfl rfl rfl rfl rfl rfl _ _ _ _ h)
  | ctxLullBegin => exact onlyTouches_of_blank (execCtxLullBegin_blank _ rfl rfl rfl rfl rfl rfl _ _ _ h)
  | ctxResetAborts => exact onlyTouches_of_blank (execCtxResetAborts_blank _ rfl rfl rfl rfl rfl rfl _ _ _ h)
  | startRetryTimeout => exact onlyTouches_of_blank (execStartRetryTimeout_blank _ rfl rfl rfl rfl rfl rfl _ _ _ h)
  | stepTimeout => exact onlyTouches_of_blank (execStepTimeout_blank _ rfl rfl rfl rfl rfl rfl _ _ _ _ h)
  | hbmRetrain => exact onlyTouches_of_blank (execHbmRetrain_blank _ rfl rfl rfl rfl rfl rfl _ _ _ _ _ h)
  | stringAccessTimeout => exact onlyTouches_of_blank (execStringAccessTimeout_blank _ rfl rfl rfl rfl rfl rfl _ _ _ _ _ h)
  | doldrumsScan => exact onlyTouches_of_blank (execDoldrumsScan_blank _ rfl rfl rfl rfl rfl rfl _ _ h)
  | twinHeartbeatRx => exact onlyTouches_of_blank (execTwinHeartbeatRx_blank _ rfl rfl rfl rfl rfl rfl _ _ _ h)
  | twinProofRx => exact onlyTouches_of_blank (execTwinProofRx_blank _ rfl rfl rfl rfl rfl rfl _ _ _ h)
  | twinChunkDigestsRx => exact onlyTouches_of_blank (execTwinChunkDigestsRx_blank _ rfl rfl rfl rfl rfl rfl _ _ _ h)
  | ctxEnableComplete => exact onlyTouches_of_blank (execCtxEnableComplete_blank _ rfl rfl rfl rfl rfl rfl rfl _ _ _ h)
  | resultRelease => exact onlyTouches_of_blank (execResultRelease_blank _ rfl rfl rfl rfl rfl rfl rfl _ _ _ h)
  | contribCellRx => exact onlyTouches_of_blank (execContribCellRx_blank _ rfl rfl rfl rfl rfl rfl rfl _ _ _ _ _ _ h)
  | portDownDetect => exact onlyTouches_of_blank (execPortDownDetect_blank _ rfl rfl rfl rfl rfl rfl rfl _ _ _ _ h)
  | fenceHeldRejudge => exact onlyTouches_of_blank (execFenceHeldRejudge_blank _ rfl rfl rfl rfl rfl rfl rfl _ _ h)
  | twinHbCheck => exact onlyTouches_of_blank (execTwinHbCheck_blank _ rfl rfl rfl rfl rfl rfl rfl _ _ h)
  | twinHandoverRx => exact onlyTouches_of_blank (execTwinHandoverRx_blank _ rfl rfl rfl rfl rfl rfl rfl _ _ _ h)
  | twinHelloRx => exact onlyTouches_of_blank (execTwinHelloRx_blank _ rfl rfl rfl rfl rfl rfl rfl _ _ _ h)
  | laneMoveEffect => exact onlyTouches_of_blank (execLaneMoveEffect_blank _ rfl rfl rfl rfl rfl rfl rfl rfl _ _ _ h)
  | moveRequestTimeout => exact onlyTouches_of_blank (execMoveRequestTimeout_blank _ rfl rfl rfl rfl rfl rfl rfl rfl _ _ _ h)
  | feedEvent => exact onlyTouches_of_blank (execFeedEvent_blank _ rfl rfl rfl rfl rfl rfl rfl rfl _ _ _ _ h)
  | elsModuleRemoved => exact onlyTouches_of_blank (execElsModuleRemoved_blank _ rfl rfl rfl rfl rfl rfl rfl rfl _ _ _ h)
  | ringSweepEnd => exact onlyTouches_of_blank (execRingSweepEnd_blank _ rfl rfl rfl rfl rfl rfl rfl rfl _ _ _ _ h)
  | ringCaptureEnd => exact onlyTouches_of_blank (execRingCaptureEnd_blank _ rfl rfl rfl rfl rfl rfl rfl rfl _ _ _ _ h)
  | ringLoopError => exact onlyTouches_of_blank (execRingLoopError_blank _ rfl rfl rfl rfl rfl rfl rfl rfl _ _ _ _ _ h)
  | ringFailRetry => exact onlyTouches_of_blank (execRingFailRetry_blank _ rfl rfl rfl rfl rfl rfl rfl rfl _ _ _ h)
  | ethMarkerMismatch => exact onlyTouches_of_blank (execEthMarkerMismatch_blank _ rfl rfl rfl rfl rfl rfl rfl rfl _ _ _ h)
  | portDrained => exact onlyTouches_of_blank (execPortDrained_blank _ rfl rfl rfl rfl rfl rfl rfl rfl _ _ _ h)
  | laneTagBlockMissing => exact onlyTouches_of_blank (execLaneTagBlockMissing_blank _ rfl rfl rfl rfl rfl rfl rfl rfl _ _ _ _ _ h)
  | elsRestoreComplete => exact onlyTouches_of_blank (execElsRestoreComplete_blank _ rfl rfl rfl rfl rfl rfl rfl rfl _ _ _ h)
  | slotDeadline => exact onlyTouches_of_blank (execSlotDeadline_blank _ rfl rfl rfl rfl rfl rfl rfl rfl _ _ _ h)
  | uuInvocationEnd => exact onlyTouches_of_blank (execUuInvocationEnd_blank _ rfl rfl rfl rfl rfl rfl rfl rfl _ _ _ _ _ h)
  | hbmUe => exact onlyTouches_of_blank (execHbmUe_blank _ rfl rfl rfl rfl rfl rfl rfl rfl _ _ _ _ h)
  | tjTrip => exact onlyTouches_of_blank (execTjTrip_blank _ rfl rfl rfl rfl rfl rfl rfl rfl _ _ _ _ _ _ h)
  | stageBReached => exact onlyTouches_of_blank (execStageBReached_blank _ rfl rfl rfl rfl rfl rfl rfl rfl rfl _ _ h)
  | refclkRelock => exact onlyTouches_of_blank (execRefclkRelock_blank _ rfl rfl rfl rfl rfl rfl rfl rfl rfl _ _ _ h)
  | kiteSwitch => exact onlyTouches_of_blank (execKiteSwitch_blank _ rfl rfl rfl rfl rfl rfl rfl rfl rfl _ _ h)
  | kiteCircuitLit => exact onlyTouches_of_blank (execKiteCircuitLit_blank _ rfl rfl rfl rfl rfl rfl rfl rfl rfl _ _ h)
  | headerTaken => exact onlyTouches_of_blank (execHeaderTaken_blank _ rfl rfl rfl rfl rfl rfl rfl rfl rfl _ _ _ _ _ _ _ h)
  | stageCReached => exact onlyTouches_of_blank (execStageCReached_blank _ rfl rfl rfl rfl rfl rfl rfl rfl rfl rfl _ _ _ h)
  | packetTrailerRx => exact onlyTouches_of_blank (execPacketTrailerRx_blank _ rfl rfl rfl rfl rfl rfl rfl rfl rfl rfl _ _ _ _ h)
  | refclkLoss => exact onlyTouches_of_blank (execRefclkLoss_blank _ rfl rfl rfl rfl rfl rfl rfl rfl rfl rfl _ _ _ h)
  | laneTagBlockRx => exact onlyTouches_of_blank (execLaneTagBlockRx_blank _ rfl rfl rfl rfl rfl rfl rfl rfl rfl rfl rfl _ _ _ _ _ _ _ _ h)
  | watchdogExpiry => exact onlyTouches_of_blank (execWatchdogExpiry_blank _ rfl rfl rfl rfl rfl rfl rfl rfl rfl rfl rfl _ _ _ h)
  | _ => exact any_part (exec_pending h)

/-- Settles O1: the step's own match on the queue. -/
theorem stepRunsFrontCommand : Obligations.StepRunsFrontCommand := by
  intro c q s h
  unfold step
  rw [h]

/-- Settles O2: every meaning ends in `done`, which answers a next state with the queue of before. -/
theorem everyCommandCompletes : Obligations.EveryCommandCompletes := by
  intro c s
  obtain ⟨u, hu⟩ := exec_eq_done c s
  rw [hu]
  exact done_ok s u

/-- The pins after a tick that passes: `settle` sets them there as `done` does after a command. -/
theorem tickPass_settled (s : State) : Settled (tickPass s) := ⟨rfl, rfl, rfl⟩

/-- Settles O4: both ways of a step set the pins. -/
theorem pinsFollowTheState : Obligations.PinsFollowTheState := fun _ _ => step_settled

/-- Settles O5. -/
theorem resetPinsStand : Obligations.ResetPinsStand := by
  refine ⟨rfl, ?_, rfl⟩
  decide

/-! HBM -/

/-- A command that does not name HBM among its parts keeps its canonical form. -/
theorem exec_canonical_of_not_hbm {c : Instr} {s t : State} (h : exec c s = .next t) (hc : Part.hbm ∉ mayTouch c)
    (hs : s.canonical) : t.canonical :=
  (canonical_of_hbm ((commandsKeepToTheirParts c s t h).2 .hbm hc)).mpr hs

/-- The commands that name HBM among their parts: each of their meanings keeps the canonical form. -/
theorem exec_canonical {c : Instr} {s t : State} (h : exec c s = .next t) (hs : s.canonical) : t.canonical := by
  by_cases hc : Part.hbm ∈ mayTouch c
  swap
  · exact exec_canonical_of_not_hbm h hc hs
  cases c with
  | coldReset => exact done_hbm h (fun hs => ite_hbm _ _ _ (coldReset_hbm _ _ _ _ hs) hs) hs
  | thermalShutdown => exact done_hbm h (fun hs => ite_hbm _ _ _ (coldReset_hbm _ _ _ _ hs) hs) hs
  | hcpWrite => exact done_hbm h (serveWrite_hbm _ _ _ _) hs
  | registerWrite => exact done_hbm h (serveWrite_hbm _ _ _ _) hs
  | rmw => exact done_hbm h (serveRmw_hbm _ _ _ _ _) hs
  | bulkWrite => exact done_hbm h (serveBulkWrite_hbm _ _ _ _) hs
  | ctxEnable => exact done_hbm h (writeCtxCtrl_hbm _ _ _ _) hs
  | ctxDisable => exact done_hbm h (writeCtxCtrl_hbm _ _ _ _) hs
  | ctxStateFree => exact done_hbm h (writeCtxCtrl_hbm _ _ _ _) hs
  | ctxReset => exact done_hbm h (writeCtxCtrl_hbm _ _ _ _) hs
  | engUngate => exact done_hbm h (writeEngCtrl_hbm _ _ _ _) hs
  | engGate => exact done_hbm h (writeEngCtrl_hbm _ _ _ _) hs
  | engRelease => exact done_hbm h (writeEngCtrl_hbm _ _ _ _) hs
  | engBist => exact done_hbm h (writeEngCtrl_hbm _ _ _ _) hs
  | portEnable => exact done_hbm h (writePortCtrl_hbm _ _ _ _) hs
  | portDisable => exact done_hbm h (writePortCtrl_hbm _ _ _ _) hs
  | portFence => exact done_hbm h (writePortCtrl_hbm _ _ _ _) hs
  | portUnfence => exact done_hbm h (writePortCtrl_hbm _ _ _ _) hs
  | portReset => exact done_hbm h (writePortCtrl_hbm _ _ _ _) hs
  | portModeWidthWrite => exact done_hbm h (writePortCtrl_hbm _ _ _ _) hs
  | windsockSample => exact done_hbm h (fun hs => ite_hbm _ _ _ (sample_hbm _ hs) hs) hs
  | aerWrite => exact done_hbm h (writeRec_hbm _) hs
  | fatalDumpComplete => exact done_hbm h (fun hs => ite_hbm _ _ _ (finishFatal_hbm _ _ _ hs) hs) hs
  | snapshotComplete => exact done_hbm h (fun hs => ite_hbm _ _ _ hs (finishSnap_hbm _ hs)) hs
  | uuInvocationEnd => exact done_hbm h (endInvocation_hbm _ _ _ _) hs
  | twinCtxConfigRx => exact done_hbm h (twinRx_hbm _ _ _ _ configRx_hbm) hs
  | twinCopyRx => exact done_hbm h (twinRx_hbm _ _ _ _ copyRx_hbm) hs
  | twinCtxAcceptRx => exact done_hbm h (twinRx_hbm _ _ _ _ acceptRx_hbm) hs
  | stageCReached =>
    refine done_hbm h (fun hs => ite_hbm _ _ _ (ite_hbm _ _ _ ?_ (ite_hbm _ _ _ (startSchedule_hbm _ hs) hs)) hs) hs
    exact each_hbm _ _ _ (fun u x hu => (canonical_of_blank (trainFails_blank notHbm rfl rfl rfl u x)).mpr hu) hs
  | tickRoleWrite | calDisarm | calResume | kiteRelease | elsRestore | resweep | shaperCfgWrite | kbankValidSet
  | kbankClear | engRepairWrite | uuRelease | uuBist | stateSplitWrite | hcp1Blow | svnCommit | keyEnroll | keyRevoke
  | secLock | portCreditWrite | laneReset | dumpTrigger | warmReset | twinPair | twinDetach | twinResync
  | bwWindowStart | bwWindowStop | aerSelect => exact done_hbm h (serveReg_hbm _ _ _ _) hs
  | _ => simp [mayTouch] at hc

/-- Settles O6, by the two ways of a step: a command, or the tick that passes. -/
theorem stepsKeepHbmCanonical : Obligations.StepsKeepHbmCanonical := by
  intro s t hs h
  unfold step at h
  split at h
  · injection h with h
    exact h ▸ tickPass_hbm s hs
  next c rest _ => exact exec_canonical h (s := { s with pending := rest }) hs

/-- Settles O7: nothing is listed. -/
theorem resetHbmCanonical : Obligations.ResetHbmCanonical := rfl

/-- Settles O8, by the laws of the list of bytes. -/
theorem hbmReadsBack : Obligations.HbmReadsBack := by
  intro s a b hs hl
  refine ⟨fun i hi => ?_, fun k hk => memGet_memPuts_ne b s.hbm a (k % hbmSize) hk⟩
  exact memGet_memPuts b s.hbm a i ((memory_wf_iff s.hbm).mp hs).1 hi hl

/-! Ticks that pass -/

/-- The state at the end of a tick, before the boundary acts: grants and cycles are counted and the clocks have moved. -/
def State.ended (s : State) : State :=
  (if s.fatal then s else s.countGrants).advanceClocks.countCycles s.clk.fcBase

/-- What a tick that passes makes of the state at its end. -/
theorem tickPass_eq (s : State) :
    tickPass s = { settle (if s.ended.warmDue then s.ended.warmReset else if s.ended.fatal then s.ended else s.ended.boundary)
      with pending := s.pending } := rfl

theorem ended_touches (s : State) : OnlyTouches [.regs, .clk, .sw] s s.ended := by
  refine onlyTouches_of_blank ?_
  unfold State.ended
  rw [countCycles_blank _ rfl, advanceClocks_blank _ rfl, ite_blank, countGrants_blank _ rfl rfl, ite_self]

/-- After a fatal cause the end of a tick counts cycles and moves the clocks, and no more. -/
theorem ended_touches_fatal {s : State} (h : s.fatal = true) : OnlyTouches [.regs, .clk] s s.ended := by
  refine onlyTouches_of_blank ?_
  unfold State.ended
  rw [if_pos h, countCycles_blank _ rfl, advanceClocks_blank _ rfl]

theorem ended_clk {s : State} (h : s.fatal = true) : s.ended.clk = s.advanceClocks.clk := by
  unfold State.ended
  rw [countCycles_clk, if_pos h]

theorem ended_sys (s : State) : s.ended.sys.unpinned = s.sys.unpinned := (ended_touches s).2 .sys (by decide)

theorem ended_warmPending (s : State) : s.ended.sys.warmPending = s.sys.warmPending :=
  (congrArg SysSt.warmPending (ended_sys s) :)

theorem ended_up (s : State) : s.ended.clk.up = s.clk.up + 1 := by
  have hg : s.countGrants.clk = s.clk :=
    (onlyTouches_of_blank (l := [.regs, .sw]) (countGrants_blank _ rfl rfl s)).2 .clk (by decide)
  unfold State.ended
  rw [countCycles_clk]
  split
  · rfl
  · exact congrArg (fun c : TickSt => c.up + 1) hg

theorem warmDue_eq (s : State) : s.warmDue = s.sys.warmPending.elim false fun u => decide (u + 3 ≤ s.clk.up) := by
  unfold State.warmDue
  cases s.sys.warmPending <;> rfl

/-- Settling the pins and putting the queue back moves no part. -/
theorem OnlyTouches.settled {l : List Part} {s t : State} (h : OnlyTouches l s t) :
    OnlyTouches l s { settle t with pending := s.pending } :=
  ⟨rfl, fun p hp => by cases p <;> exact h.2 _ hp⟩

/-- A step on an empty queue is the tick that passes. -/
theorem step_idle {s : State} (h : s.pending = []) : step s = .next (tickPass s) := by
  unfold step
  rw [h]

/-- Settles O12: no warm reset is due, and the boundary does nothing after a fatal cause. -/
theorem fatalTicksOnlyCount : Obligations.FatalTicksOnlyCount := by
  intro s hq hf hw
  have hdue : s.ended.warmDue = false := by rw [warmDue_eq, ended_warmPending, hw]; rfl
  have hfatal : s.ended.fatal = true := by
    rw [← hf]
    exact congrArg (fun d : DumpSt => d.fatal.isSome) ((ended_touches s).2 .dump (by decide))
  have ht : tickPass s = { settle s.ended with pending := s.pending } := by
    rw [tickPass_eq, if_neg (by simp [hdue]), if_pos hfatal]
  refine ⟨tickPass s, step_idle hq, ?_⟩
  rw [ht]
  have hc := ended_clk hf
  exact ⟨congrArg TickSt.up hc, congrArg TickSt.tick hc, congrArg TickSt.fc hc, (ended_touches_fatal hf).settled⟩

/-- A warm reset with no dump held, part by part. -/
theorem warmReset_parts {s : State} (h : s.dump.held = false) :
    s.warmReset.regs = [] ∧ s.warmReset.hbm = hbmFrom 126 s.hbm ∧ s.warmReset.fuse = s.fuse ∧ s.warmReset.out = s.out
    ∧ s.warmReset.sys.straps = s.sys.straps ∧ s.warmReset.sys.lastReset = 1 ∧ s.warmReset.sys.stage = 0
    ∧ s.warmReset.sys.warmPending = none ∧ s.warmReset.col = {} ∧ s.warmReset.sw = {} ∧ s.warmReset.tbl = {}
    ∧ s.warmReset.mgmt.inFlight = [] := by
  unfold State.warmReset
  rw [h]
  exact ⟨rfl, rfl, rfl, rfl, rfl, rfl, rfl, rfl, rfl, rfl, rfl, rfl⟩

/-- Settles O13: at the third boundary the reset is due, on a state whose kept parts the tick has not moved. -/
theorem warmResetActs : Obligations.WarmResetActs := by
  intro s u hq hw hu hd
  have hdue : s.ended.warmDue = true := by
    rw [warmDue_eq, ended_warmPending, hw, ended_up]
    exact decide_eq_true (by omega)
  have hk := (ended_touches s).2
  have hheld : s.ended.dump.held = false := (congrArg DumpSt.held (hk .dump (by decide))).trans hd
  have hstraps : s.ended.sys.straps = s.sys.straps := (congrArg SysSt.straps (ended_sys s) :)
  have ht : tickPass s = { settle s.ended.warmReset with pending := s.pending } := by
    rw [tickPass_eq, if_pos hdue]
  obtain ⟨hregs, hhbm, hfuse, hout, hst, hlast, hstage, hwarm, hcol, hsw, htbl, hfly⟩ := warmReset_parts hheld
  refine ⟨tickPass s, step_idle hq, ?_⟩
  rw [ht]
  exact ⟨hq, hregs, hhbm.trans (congrArg _ (hk .hbm (by decide))), hfuse.trans (hk .fuse (by decide)),
    hout.trans (hk .out (by decide)), hst.trans hstraps, hlast, hstage, hwarm, hcol, hsw, htbl, hfly⟩

/-- Settles O14, by the reset column of each page's table. -/
theorem resetValues : Obligations.ResetValues := by
  refine ⟨rfl, rfl, fun p => ⟨?_, ?_, ?_, ?_⟩, fun c => ⟨?_, ?_, ?_⟩, fun e => ?_, rfl, rfl, rfl⟩
  · rw [reset_portReg p _ (by decide)]; rfl
  · rw [reset_portReg p _ (by decide)]; rfl
  · rw [reset_calReg p _ (by decide)]; rfl
  · rw [reset_calReg p _ (by decide)]; rfl
  · rw [reset_ctxReg c _ (by decide)]; rfl
  · rw [reset_ctxReg c _ (by decide)]; rfl
  · rw [reset_ctxReg c _ (by decide)]; rfl
  · unfold State.engState State.fget
    rw [reset_engReg e _ (by decide)]
    rfl

end Sys2Proof.Machine
end

/-! Register accesses: WRITE, RMW, the bulk forms and READ (R10, R292, R301). -/

section
namespace Sys2Proof.Machine

/-- No block has more than 256 instances on a die. -/
theorem instances_le (b : Block) : b.instances.1 ≤ 256 ∧ b.instances.2 ≤ 256 := by
  cases b <;> exact ⟨by decide, by decide⟩

/-- A page that exists lies on one of the dies 0 to 3 and 8, and has an index of 8 bits. -/
theorem page_bounds {p : Page} (h : p.exists_ = true) : p.die < 15 ∧ p.inst < 256 := by
  obtain ⟨h1, h2⟩ := instances_le p.block
  unfold Page.exists_ at h
  dsimp only at h
  split at h
  · next hd =>
    have hd := eq_of_beq hd
    have := of_decide_eq_true h
    omega
  · split at h
    · simp only [Bool.and_eq_true, beq_iff_eq] at h
      omega
    · simp only [Bool.and_eq_true, decide_eq_true_eq] at h
      omega

/-- Only the GLB page holds the counter of lost replies. -/
theorem reg_ne_replyLost {p : Page} {o : Nat} (hi : p.inst < 256) (ho : o < 4096) (hb : p.block ≠ .glb) :
    p.base + o ≠ GlbCtr.replyLost.reg := by
  have hcode : p.block.code ≠ 0 := fun h => hb (by
    have h1 := ofCode_code p.block
    rw [h] at h1
    injection h1 with h1
    exact h1.symm)
  have hlt := code_lt p.block
  rw [base_eq, replyLost_reg]
  omega

/-- A field that is written takes its bits of the word. -/
theorem bits_rwTake_single {f : Field} (v old : Nat) (hk : f.kind = .rw) :
    bits (rwTake [f] v old) f.hi f.lo = bits v f.hi f.lo := by
  show bits (if f.kind = .rw then putBits old f.hi f.lo (bits v f.hi f.lo) else old) f.hi f.lo = _
  rw [if_pos hk, bits_putBits_same, Nat.mod_eq_of_lt (bits_lt v f.hi f.lo)]

/-- The blocks whose registers from 0x100 up a write stores and does nothing else to. -/
def storeBlocks : List Block := [.cd, .fd, .hbm, .pbl, .uu, .cal]

/-- On a page of these blocks nothing judges a write beyond its fields. -/
theorem judgeWrite_storeBlocks (s : State) (w : Writer) {p : Page} (o old : Nat) (d : Draft) (hb : p.block ∈ storeBlocks) :
    s.judgeWrite w p o old d = none := by
  unfold State.judgeWrite
  simp only [storeBlocks, List.mem_cons, List.not_mem_nil, or_false] at hb
  rcases hb with h | h | h | h | h | h <;> rw [h]

/-- On a page of these blocks a write beyond the header has no effect but its store. -/
theorem writeEffect_storeBlocks (s0 s : State) (w : Writer) {p : Page} {o : Nat} (old : Nat) (d : Draft) (hb : p.block ∈ storeBlocks)
    (ho : 0x100 ≤ o) : s0.writeEffect s w p o old d = { state := s } := by
  have h8 : o ≠ 8 := by omega
  unfold State.writeEffect
  simp only [storeBlocks, List.mem_cons, List.not_mem_nil, or_false] at hb
  rcases hb with h | h | h | h | h | h <;> simp only [h, h8, if_false]

theorem plainReg_storeBlocks {p : Page} (o : Nat) (hb : p.block ∈ storeBlocks) : plainReg p o := by
  simp only [storeBlocks, List.mem_cons, List.not_mem_nil, or_false] at hb
  unfold plainReg storesItself
  rcases hb with h | h | h | h | h | h <;> simp [h]

/-- A WRITE of a register of these blocks whose one field is RW stores the field. -/
theorem registerWrite_stores {s : State} {q : Req} {p : Page} {o : Nat} {r : RegDef} {f : Field} {v : Word}
    (hex : p.exists_ = true) (hb : p.block ∈ storeBlocks) (hr : regAt p.block (p.die == 8) o = some r) (hoff : r.off = o)
    (hw : r.wide = false) (hfs : r.fields = [f]) (hff : fieldsFor p r = r.fields) (hk : f.kind = .rw) (hhi : f.hi < 32)
    (ha : f.admits (bits v.toNat f.hi f.lo) = true) (ho : o < 4096) (ho4 : o % 4 = 0) (ho1 : 0x100 ≤ o)
    (hidle : s.idlePage p = false) (h : Commanded s q (p.base + o) v.toNat) :
    ∃ t, exec (.registerWrite q ⟨BitVec.ofNat 32 (p.base + o), 1⟩ (BitVec.ofNat 64 v.toNat)) s = .next t
      ∧ t.fget (p.base + o) f.hi f.lo = bits v.toNat f.hi f.lo ∧ OnlyTouches [.regs, .mgmt, .out] s t := by
  obtain ⟨hdie, hinst⟩ := page_bounds hex
  have hne : ∀ b, b ∉ storeBlocks → p.block ≠ b := fun b hb' e => hb' (e ▸ hb)
  have hadm : Admitted r.fields v.toNat := by
    intro g hg
    rw [hfs, List.mem_singleton] at hg
    exact .inr (hg ▸ ⟨hk, hhi, ha⟩)
  have hplain := plainReg_storeBlocks o hb
  obtain ⟨t, d, hv, -, ht, hleaves, hrget⟩ := rw_command
    (e := fun d => { state := storedFor (readied s q (p.base + o) v.toNat p) p o (s.rget (p.base + o)) d })
    hdie hinst hex ho ho4 (by omega) h v.isLt hr hoff hw hidle (.inl (hne .glb (by decide))) (hne .tel (by decide))
    (fun e => absurd e (hne .ctx (by decide))) (fun e => absurd e (hne .port (by decide))) hff hadm
    (fun d _ _ => judgeWrite_storeBlocks _ _ _ _ _ hb) (fun d _ _ => writeEffect_storeBlocks _ _ _ _ _ hb ho1) (fun _ _ _ => rfl)
  refine ⟨t, ht, ?_, ?_⟩
  · have hget : t.rget (p.base + o) = d.value := by
      rw [hrget _ (.inr (by omega)) (reg_ne_replyLost hinst ho (hne .glb (by decide))) (by omega)]
      refine Eq.trans ?_ (storedFor_rget (readied s q (p.base + o) v.toNat p) p o d hplain
        (hv ▸ rwTake_lt _ _ _ hadm (s.rget_lt _)))
      rw [readied_rget]
    unfold State.fget
    rw [hget, hv, hfs, bits_rwTake_single _ _ hk]
  · refine hleaves.only (by simp) ?_
    rw [storedFor_blank _ rfl, readied_blank _ rfl]

/-! Gates -/

/-- A request of the right role, stage and body is refused nothing that its version of HCP has. -/
theorem gate_refuses_none {g : Gate} {q : Req} {op : Nat} (hr : g.role = true) (hs : g.stage = true) (hb : g.body = true)
    (h : q.hcp1 = false ∨ hcp1Lacks op = false) : g.refuses q op = none := by
  obtain ⟨r, t, b⟩ := g
  dsimp only at hr hs hb
  rw [hr, hs, hb]
  exact gate_ok q op h

theorem stageReads_of_stageB {s : State} (a n : Nat) (h : 1 ≤ s.serveStage) : s.stageReads a n = true := by
  unfold State.stageReads
  rw [decide_eq_true h, Bool.true_or]

theorem stageWrites_of_stageB {s : State} (a n : Nat) (h : 1 ≤ s.serveStage) : s.stageWrites a n = true := by
  unfold State.stageWrites
  rw [decide_eq_true h, Bool.true_or]

theorem mayWrite_of_admin {s : State} {q : Req} (a n : Nat) (h : s.isAdmin q = true) : s.mayWrite q a n = true := by
  unfold State.isAdmin at h
  unfold State.mayWrite
  rw [h, Bool.true_or]

/-- What a source may read does not hang on its tag being in flight. -/
theorem taken_mayRead (s : State) (q : Req) (op : Nat) (b : Bytes) (a n : Nat) :
    (taken s q op b).mayRead q a n = s.mayRead q a n := by
  have hobs : (taken s q op b).obsRead = s.obsRead := by
    funext p
    unfold State.obsRead State.bget
    rw [taken_rget]
  have hrole : (taken s q op b).role q = s.role q := accept_role ..
  unfold State.mayRead
  rw [hrole, hobs]

theorem taken_atStageB {s : State} (q : Req) (op : Nat) (b : Bytes) (h : 1 ≤ s.serveStage) :
    1 ≤ (taken s q op b).serveStage := by
  rw [taken_stage]
  exact h

theorem taken_isAdmin {s : State} {q : Req} (op : Nat) (b : Bytes) (h : s.isAdmin q = true) :
    (taken s q op b).isAdmin q = true := by
  rw [taken_admin]
  exact h

/-! HCP_IPV6 -/

/-- An access of one word that is aligned names its register rightly. -/
theorem accessFits_word {a : Access} (hw : a.width = 1) (h4 : a.addr.toNat % 4 = 0) : accessFits a = true := by
  unfold accessFits
  rw [hw, h4]
  rfl

theorem ipv6_fits {i : Nat} (hi : i < 4) :
    (accessFits ⟨BitVec.ofNat 32 (glbReg (0x120 + 4 * i)), 1⟩ && (targetPages (glbReg (0x120 + 4 * i))).isSome) = true := by
  obtain ⟨hpage, -, h4, hlt⟩ := glb120_page i hi
  rw [targetPages_narrow hpage hlt, accessFits_word rfl (by rw [glb120_addr i hi]; exact h4)]
  rfl

/-- What blanks registers and management alone leaves the output and the queue. -/
theorem out_of_blank {S T : State} (hb : ∀ K : Part → Bool, K .regs = true → K .mgmt = true → T.blank K = S.blank K) :
    T.out = S.out :=
  (onlyTouches_of_blank (l := [.regs, .mgmt]) (hb _ rfl rfl)).2 .out (by decide)

/-- A WRITE of a word of HCP_IPV6 stores it. -/
theorem hcpWrite_ipv6 {s : State} {q : Req} {i : Fin 4} {v : Word}
    (h : Commanded s q (glbReg (0x120 + 4 * i.val)) v.toNat) :
    ∃ t, exec (.hcpWrite q ⟨BitVec.ofNat 32 (glbReg (0x120 + 4 * i.val)), 1⟩ (BitVec.ofNat 64 v.toNat)) s = .next t
      ∧ BitVec.ofNat 32 (t.rget (glbReg (0x120 + 4 * i.val))) = v ∧ OnlyTouches [.regs, .mgmt, .out] s t := by
  obtain ⟨hpage, hoff, h4, hlt⟩ := glb120_page i.val i.isLt
  obtain ⟨T, hT, hv, hb, -⟩ := ipv6_write (readied s q (glbReg (0x120 + 4 * i.val)) v.toNat glbPage)
    (writerOf s q (glbReg (0x120 + 4 * i.val)) v.toNat) i.val 4294967295 v.toNat i.isLt
  have hrun : s.serveReg q (glbReg (0x120 + 4 * i.val)) v.toNat =
      T.reply (flightOf q 0x02 (regBody (glbReg (0x120 + 4 * i.val)) v.toNat)) { code := .ok } := by
    rw [serveReg_word h hpage hlt h4 v.isLt, hoff, hT]
    rfl
  refine ⟨_, congrArg (done s) hrun, ?_, onlyTouches_of_blank ?_⟩
  · have hget : (T.reply (flightOf q 0x02 (regBody (glbReg (0x120 + 4 * i.val)) v.toNat)) { code := .ok }).rget
        (glbReg (0x120 + 4 * i.val)) = T.rget (glbReg (0x120 + 4 * i.val)) :=
      rget_reply _ _ _ _ (by unfold glbReg; rw [replyLost_reg]; omega)
    refine (congrArg (BitVec.ofNat 32) hget).trans (hv.trans ?_)
    rw [show BitVec.ofNat 32 4294967295 = BitVec.allOnes 32 from rfl, BitVec.not_allOnes, BitVec.and_zero, BitVec.zero_or,
      BitVec.and_allOnes, BitVec.ofNat_toNat, BitVec.setWidth_eq]
  · refine (pending_blank _ s _ ?_)
    rw [settle_blank, reply_blank _ rfl rfl rfl, hb _ rfl, readied_blank _ rfl]

/-! Answered requests -/

/-- What a reply needs of the management state: the tags in flight, and which ports are up. -/
def MgmtSt.wires (m : MgmtSt) : List InFlight × Bool × Bool := (m.inFlight, m.up0, m.up1)

theorem portUp_of_wires {s t : State} (h : t.mgmt.wires = s.mgmt.wires) (m : MPort) : t.portUp m = s.portUp m := by
  simp only [MgmtSt.wires, Prod.mk.injEq] at h
  cases m
  · exact h.2.1
  · exact h.2.2

/-- A request that is taken up, admitted and answered: its operation's state, the reply and the pins make the next state. -/
theorem serve_answers {s u : State} {q : Req} {op : Nat} {body : Bytes} {a : Answer} {P : State → Prop} {l : List Part}
    (h : TakenUp s q op body) (gate : State → Gate) (run : State → InFlight → State × Option Answer)
    (hg : (gate (taken s q op body)).refuses q op = none)
    (hr : run (taken s q op body) (flightOf q op body) = (u, some a))
    (hu : OnlyTouches l (taken s q op body) u) (hout : Part.out ∉ l)
    (hw : u.mgmt.wires = (taken s q op body).mgmt.wires)
    (hP : ∀ t, Answered s t q op a → Leaves t u → (∀ x, x ≠ GlbCtr.replyLost.reg → t.rget x = u.rget x) →
      t.mgmt = (u.reply (flightOf q op body) a).mgmt → P t) :
    ∃ t, done s (s.serve q op body gate run) = .next t ∧ P t := by
  obtain ⟨t, ht, hans, hleaves, hmgmt, hrget⟩ := serve_answered_mgmt h gate run hg hr (congrArg Prod.fst hw)
    (portUp_of_wires hw _) (hu.2 .out hout) (hu.1.trans (taken_pending ..))
  exact ⟨t, ht, hP t hans hleaves hrget hmgmt⟩

/-- A read of a word of HCP_IPV6 answers it and clears nothing. -/
theorem readAccess_ipv6 (S : State) (m : MPort) (clear : Bool) {i : Nat} (hi : i < 4) :
    S.readAccess m clear glbPage (0x120 + 4 * i) 1 = (S, S.rget (glbReg (0x120 + 4 * i)) % 2 ^ 32) := by
  unfold State.readAccess State.readWord
  rw [if_neg (by decide), clearRc_glb S i hi, wordView_glb S m i hi, ite_self]

/-- The low word of a 64-bit operand. -/
theorem ofNat_toNat_and_low (x : Word64) : BitVec.ofNat 32 (x.toNat &&& (2 ^ 32 - 1)) = x.setWidth 32 := by
  apply BitVec.eq_of_toNat_eq
  rw [BitVec.toNat_ofNat, Nat.and_two_pow_sub_one_eq_mod, BitVec.toNat_setWidth, Nat.mod_mod]

/-- RMW of a word of HCP_IPV6 changes the bits of its mask and answers the old word. -/
theorem rmw_ipv6 {s : State} {q : Req} {i : Fin 4} {mask v : Word64}
    (h : TakenUp s q 0x03 (rmwBody ⟨BitVec.ofNat 32 (glbReg (0x120 + 4 * i.val)), 1⟩ mask v))
    (hadm : s.isAdmin q = true) (hst : 1 ≤ s.serveStage) (hhung : s.mgmt.hung.contains (glbReg 0) = false) :
    ∃ t, exec (.rmw q ⟨BitVec.ofNat 32 (glbReg (0x120 + 4 * i.val)), 1⟩ mask v) s = .next t
      ∧ BitVec.ofNat 32 (t.rget (glbReg (0x120 + 4 * i.val))) =
        (BitVec.ofNat 32 (s.rget (glbReg (0x120 + 4 * i.val))) &&& ~~~mask.setWidth 32) ||| (v.setWidth 32 &&& mask.setWidth 32)
      ∧ Answered s t q 0x03 { code := .ok, body := beBytes 8 (s.rget (glbReg (0x120 + 4 * i.val)) % 2 ^ 32) }
      ∧ OnlyTouches [.regs, .mgmt, .out] s t := by
  obtain ⟨hpage, hoff, h4, hlt⟩ := glb120_page i.val i.isLt
  generalize hS : taken s q 0x03 (rmwBody ⟨BitVec.ofNat 32 (glbReg (0x120 + 4 * i.val)), 1⟩ mask v) = S
  have hSh : (S.acked glbPage).pageHung glbPage = false := by
    rw [pageHung_glb, acked_hung, ← hS, taken_hung]
    exact hhung
  have hSr : ∀ a, (S.acked glbPage).rget a = s.rget a := fun a => by rw [← hS]; exact taken_rget ..
  obtain ⟨T, hT, hv, hb, -, hm⟩ := ipv6_at (S.acked glbPage)
    (S.writer q (some (flightOf q 0x03 (rmwBody ⟨BitVec.ofNat 32 (glbReg (0x120 + 4 * i.val)), 1⟩ mask v)))) i.val
    (mask.toNat &&& (2 ^ 32 - 1)) v.toNat i.isLt hSh (lt_of_le_of_lt Nat.and_le_right (by norm_num))
  have hbT : T.blank (fun p => decide (p ∈ [Part.regs, .mgmt])) = S.blank _ := (hb _ rfl rfl).trans (acked_blank _ rfl _ _)
  refine serve_answers (u := T) (l := [.regs, .mgmt])
    (a := { code := .ok, body := beBytes 8 (s.rget (glbReg (0x120 + 4 * i.val)) % 2 ^ 32) }) h _ _ ?gate ?run ?touch (by decide) ?wires ?post
  case gate =>
    refine gate_refuses_none (taken_isAdmin _ _ hadm) (stageWrites_of_stageB _ _ (taken_atStageB _ _ _ hst)) ?_ (.inr rfl)
    dsimp only
    rw [glb120_addr i.val i.isLt]
    exact ipv6_fits i.isLt
  case run =>
    dsimp only
    rw [hS, glb120_addr i.val i.isLt, targetPages_narrow hpage hlt, hoff]
    have hS0 : S.pageHung glbPage = false := hSh
    have h1 : (1 : Byte).toNat = 1 := rfl
    have hmask : Access.mask ⟨BitVec.ofNat 32 (glbReg (0x120 + 4 * i.val)), 1⟩ = 2 ^ 32 - 1 := rfl
    simp only [Option.getD_some, List.foldl_cons, List.foldl_nil, hS0, Bool.false_eq_true, if_false, h1,
      readAccess_ipv6 _ _ _ i.isLt, hSr, hmask, hT]
    rfl
  case touch => rw [hS]; exact onlyTouches_of_blank hbT
  case wires => rw [hS, hm]; rfl
  case post =>
    intro t hans hleaves hrget _
    refine ⟨?_, hans, hleaves.only (by simp) ?_⟩
    · rw [hrget _ (by unfold glbReg; rw [replyLost_reg]; omega), hv, hSr, ofNat_toNat_and_low, BitVec.ofNat_toNat]
    · rw [hb _ rfl rfl, acked_blank _ rfl, ← hS, taken_blank _ rfl]

theorem glb120_first : (BitVec.ofNat 32 (glbReg 0x120)).toNat = glbReg 0x120 := glb120_addr 0 (by decide)

/-- A BULK_WRITE of words of HCP_IPV6 stores them in ascending order. -/
theorem bulkWrite_ipv6 {s : State} {q : Req} {words : List Word} (h1 : 1 ≤ words.length) (h4 : words.length ≤ 4)
    (h : TakenUp s q 0x05 (bulkBody (BitVec.ofNat 32 (glbReg 0x120)) words.length words))
    (hadm : s.isAdmin q = true) (hst : 1 ≤ s.serveStage) (hhung : s.mgmt.hung.contains (glbReg 0) = false) :
    ∃ t, exec (.bulkWrite q (BitVec.ofNat 32 (glbReg 0x120)) words) s = .next t
      ∧ (∀ (i : Nat) (h : i < words.length), BitVec.ofNat 32 (t.rget (glbReg (0x120 + 4 * i))) = words[i])
      ∧ Answered s t q 0x05 okAns ∧ OnlyTouches [.regs, .mgmt, .out] s t := by
  generalize hS : taken s q 0x05 (bulkBody (BitVec.ofNat 32 (glbReg 0x120)) words.length words) = S
  obtain ⟨T, hT, hv, -, hb, hfly, hup⟩ := ipv6_words (S.writer q none) words 0 0 S (by omega) (by rw [← hS, taken_hung]; exact hhung)
  have hw : T.mgmt.wires = S.mgmt.wires := by
    unfold MgmtSt.wires
    rw [hfly, show T.mgmt.up0 = S.mgmt.up0 from hup .m0, show T.mgmt.up1 = S.mgmt.up1 from hup .m1]
  refine serve_answers (u := T) (l := [.regs, .mgmt]) (a := okAns) h _ _ ?gate ?run ?touch (by decide) ?wires ?post
  case gate =>
    refine gate_refuses_none (taken_isAdmin _ _ hadm) (stageWrites_of_stageB _ _ (taken_atStageB _ _ _ hst)) ?_ (.inr rfl)
    dsimp only
    rw [glb120_first]
    exact bulkFits_glb q words.length true h1 h4
  case run =>
    dsimp only
    rw [hS, glb120_first]
    rw [show glbReg 0x120 = glbReg (0x120 + 4 * 0) from rfl, hT]
    rfl
  case touch => rw [hS]; exact onlyTouches_of_blank (hb _ rfl rfl)
  case wires => rw [hS]; exact hw
  case post =>
    intro t hans hleaves hrget _
    refine ⟨fun i hi => ?_, hans, hleaves.only (by simp) ?_⟩
    · rw [hrget _ (by unfold glbReg; rw [replyLost_reg]; omega)]
      simpa only [Nat.zero_add] using hv i hi
    · rw [hb _ rfl rfl, ← hS, taken_blank _ rfl]

/-- A READ of a word of any page that is not hung answers the word as the page shows it. -/
theorem hcpRead_answers {s : State} {q : Req} {a : Access} {p : Page} (hw : a.width = 1) (h4 : a.addr.toNat % 4 = 0)
    (hp : pageOf a.addr.toNat = some p) (h : TakenUp s q 0x01 (Access.body a)) (hread : s.mayRead q a.addr.toNat 4 = true)
    (hst : 1 ≤ s.serveStage) (hhung : s.pageHung p = false) :
    ∃ t, exec (.hcpRead q a) s = .next t
      ∧ Answered s t q 0x01 { code := .ok, body := beBytes 8 (((taken s q 0x01 (Access.body a)).acked p).wordView q.port p (a.addr.toNat % 4096)) }
      ∧ OnlyTouches [.regs, .mgmt, .col, .out] s t := by
  generalize hS : taken s q 0x01 (Access.body a) = S
  have hSh : S.pageHung p = false := by
    unfold State.pageHung
    rw [← hS, taken_hung]
    exact hhung
  have hb : ((S.acked p).readWord q.port (S.isAdmin q) p (a.addr.toNat % 4096)).1.blank (fun p => decide (p ∈ [Part.regs, .col])) =
      (S.acked p).blank _ := readWord_blank _ rfl rfl ..
  have hb3 : ((S.acked p).readWord q.port (S.isAdmin q) p (a.addr.toNat % 4096)).1.blank (fun p => decide (p ∈ [Part.regs, .mgmt, .col])) =
      S.blank _ := (readWord_blank _ rfl rfl ..).trans (acked_blank _ rfl _ _)
  refine serve_answers (u := ((S.acked p).readWord q.port (S.isAdmin q) p (a.addr.toNat % 4096)).1) (l := [.regs, .mgmt, .col])
    (a := { code := .ok, body := beBytes 8 ((S.acked p).wordView q.port p (a.addr.toNat % 4096)) }) h _ _ ?gate ?run ?touch (by decide) ?wires ?post
  case gate =>
    have h4b : accessBytes a = 4 := by
      unfold accessBytes
      rw [hw]
      rfl
    refine gate_refuses_none ?_ (stageReads_of_stageB _ _ (taken_atStageB _ _ _ hst)) ?_ (.inr rfl)
    · dsimp only
      rw [taken_mayRead, h4b]
      exact hread
    · dsimp only
      rw [hp, accessFits_word hw h4]
      rfl
  case run =>
    dsimp only
    rw [hS, hp]
    dsimp only
    rw [hSh, hw]
    rfl
  case touch => rw [hS]; exact onlyTouches_of_blank hb3
  case wires =>
    rw [hS, (onlyTouches_of_blank hb).2 .mgmt (by decide)]
    rfl
  case post =>
    intro t hans hleaves _ _
    refine ⟨hans, onlyTouches_of_blank ((hleaves _ rfl rfl rfl).trans ?_)⟩
    rw [readWord_blank _ rfl rfl, acked_blank _ rfl, ← hS, taken_blank _ rfl]

/-- A BULK_READ of words of HCP_IPV6 answers the time and the words. -/
theorem bulkRead_ipv6 {s : State} {q : Req} (n : Fin 4) (h : TakenUp s q 0x04 (bulkBody (BitVec.ofNat 32 (glbReg 0x120)) (n.val + 1) []))
    (hread : s.mayRead q (glbReg 0x120) (4 * (n.val + 1)) = true) (hst : 1 ≤ s.serveStage)
    (hhung : s.mgmt.hung.contains (glbReg 0) = false) :
    ∃ t, exec (.bulkRead q (BitVec.ofNat 32 (glbReg 0x120)) (BitVec.ofNat 16 (n.val + 1))) s = .next t
      ∧ Answered s t q 0x04 { code := .ok, body := beBytes 6 s.tick ++ zeros 2 ++
          (List.range (n.val + 1)).flatMap fun i => beBytes 4 (s.rget (glbReg (0x120 + 4 * i)) % 2 ^ 32) }
      ∧ OnlyTouches [.regs, .mgmt, .col, .out] s t := by
  have hn : (BitVec.ofNat 16 (n.val + 1)).toNat = n.val + 1 := by
    rw [BitVec.toNat_ofNat]
    exact Nat.mod_eq_of_lt (by omega)
  generalize hS : taken s q 0x04 (bulkBody (BitVec.ofNat 32 (glbReg 0x120)) (n.val + 1) []) = S
  have hSr : ∀ a, S.rget a = s.rget a := fun a => by rw [← hS]; exact taken_rget ..
  obtain ⟨T, hT, hb, hfly, hup⟩ := read_words q.port (S.isAdmin q) (n.val + 1) 0 S [] (by omega) (by rw [← hS, taken_hung]; exact hhung)
  have htick : S.tick = s.tick := by rw [← hS]; exact taken_any (fun s => s.tick) (fun _ _ => rfl) ..
  have hw : T.mgmt.wires = S.mgmt.wires := by
    unfold MgmtSt.wires
    rw [hfly, show T.mgmt.up0 = S.mgmt.up0 from hup .m0, show T.mgmt.up1 = S.mgmt.up1 from hup .m1]
  refine serve_answers (u := T) (l := [.mgmt])
    (a := { code := .ok, body := beBytes 6 s.tick ++ zeros 2 ++
              (List.range (n.val + 1)).flatMap fun i => beBytes 4 (s.rget (glbReg (0x120 + 4 * i)) % 2 ^ 32) })
    (by rw [hn]; exact h) _ _ ?gate ?run ?touch (by decide) ?wires ?post
  case gate =>
    refine gate_refuses_none ?_ (stageReads_of_stageB _ _ (taken_atStageB _ _ _ hst)) ?_ (.inr rfl)
    · dsimp only
      rw [taken_mayRead, glb120_first, hn]
      exact hread
    · dsimp only
      rw [glb120_first, hn]
      exact bulkFits_glb q (n.val + 1) false (by omega) (by omega)
  case run =>
    dsimp only
    rw [hn, hS, glb120_first, show glbReg 0x120 = glbReg (0x120 + 4 * 0) from rfl, hT]
    simp only [if_true, htick, hSr, List.nil_append, List.range_eq_range']
  case touch => rw [hn, hS]; exact onlyTouches_of_blank (hb _ rfl)
  case wires => rw [hn, hS]; exact hw
  case post =>
    intro t hans hleaves _ _
    refine ⟨hans, onlyTouches_of_blank ((hleaves _ rfl rfl rfl).trans ?_)⟩
    rw [hb _ rfl, ← hS, taken_blank _ rfl]

/-- Settles O15, one lemma for each form. -/
theorem registerAccess : Obligations.RegisterAccess := fun _ _ =>
  ⟨fun _ _ _ _ _ hex hb hr hoff hw hfs hff hk hhi ha ho ho4 ho1 hidle h =>
      registerWrite_stores hex hb hr hoff hw hfs hff hk hhi ha ho ho4 ho1 hidle h,
    fun _ _ => hcpWrite_ipv6, fun _ _ _ => rmw_ipv6, fun _ => bulkWrite_ipv6, fun _ _ => hcpRead_answers, bulkRead_ipv6⟩

end Sys2Proof.Machine
end

/-! Management requests beside register accesses: DUMP_READ, ATTEST, sessions, transfers, links and strings (R286 to R306, R334). -/

section
namespace Sys2Proof.Machine

/-! DUMP_READ and ATTEST -/

/-- The gate of DUMP_READ for an ADMIN source at Stage B or later. -/
theorem dumpRead_gate {s : State} {q : Req} {op : Nat} {b : Bytes} {n : Nat} {fits : Bool} (hadm : s.isAdmin q = true)
    (hst : 1 ≤ s.serveStage) (hf : fits = true) (held : Bool) (hop : hcp1Lacks n = false) :
    (Gate.mk ((taken s q op b).isAdmin q) (decide (1 ≤ (taken s q op b).serveStage) || held) fits).refuses q n = none :=
  gate_refuses_none (taken_isAdmin _ _ hadm) (by rw [decide_eq_true (taken_atStageB q op b hst), Bool.true_or]) hf (.inr hop)

theorem taken_dieHung (s : State) (q : Req) (op : Nat) (b : Bytes) (d : Nat) : (taken s q op b).dieHung d = s.dieHung d := by
  unfold State.dieHung
  rw [taken_hung]

theorem taken_touches (s : State) (q : Req) (op : Nat) (b : Bytes) : OnlyTouches [] (taken s q op b) (taken s q op b) :=
  ⟨rfl, fun p _ => by cases p <;> rfl⟩

/-- DUMP_READ of a DUMP region in HBM answers its bytes. -/
theorem dumpRead_region {s : State} {q : Req} {die : Byte} {off : BitVec 32} {len : BitVec 16}
    (h : TakenUp s q 0x09 (dumpBody 0 die off len)) (hadm : s.isAdmin q = true)
    (hfits : dumpFits q 0 die.toNat off.toNat len.toNat = true) (hst : 1 ≤ s.serveStage) (hon : s.hbmOn = true)
    (hhung : s.dieHung die.toNat = false) :
    ∃ t, exec (.dumpRead q 0 die off len) s = .next t
      ∧ Answered s t q 0x09 { code := .ok, body := s.dumpBytes die.toNat off.toNat len.toNat }
      ∧ OnlyTouches [.regs, .mgmt, .out] s t := by
  have hbytes : (taken s q 0x09 (dumpBody 0 die off len)).dumpBytes die.toNat off.toNat len.toNat =
      s.dumpBytes die.toNat off.toNat len.toNat :=
    taken_any (fun s => s.dumpBytes die.toNat off.toNat len.toNat) (fun _ _ => rfl) ..
  have hon' : (taken s q 0x09 (dumpBody 0 die off len)).hbmOn = true :=
    (taken_any State.hbmOn (fun _ _ => rfl) ..).trans hon
  refine serve_answers (u := taken s q 0x09 (dumpBody 0 die off len)) (l := [])
    (a := { code := .ok, body := s.dumpBytes die.toNat off.toNat len.toNat }) h _ _ (dumpRead_gate hadm hst hfits _ rfl) ?run
    (taken_touches ..) (by decide) rfl ?post
  case run =>
    dsimp only
    rw [if_neg (by decide), hbytes, hon', taken_dieHung, hhung]
    rfl
  case post =>
    intro t hans hleaves _ _
    exact ⟨hans, hleaves.only (by simp) (taken_blank _ rfl ..)⟩

/-- DUMP_READ of the last gasp answers its bytes. -/
theorem dumpRead_gasp {s : State} {q : Req} {off : BitVec 32} {len : BitVec 16}
    (h : TakenUp s q 0x09 (dumpBody 1 0 off len)) (hadm : s.isAdmin q = true)
    (hfits : dumpFits q 1 0 off.toNat len.toNat = true) (hst : 1 ≤ s.serveStage) :
    ∃ t, exec (.dumpRead q 1 0 off len) s = .next t
      ∧ Answered s t q 0x09 { code := .ok, body := fit len.toNat (s.dump.lastGasp.drop off.toNat) }
      ∧ OnlyTouches [.regs, .mgmt, .out] s t := by
  refine serve_answers (u := taken s q 0x09 (dumpBody 1 0 off len)) (l := [])
    (a := { code := .ok, body := fit len.toNat (s.dump.lastGasp.drop off.toNat) }) h _ _ (dumpRead_gate hadm hst hfits _ rfl) ?run
    (taken_touches ..) (by decide) rfl ?post
  case run =>
    dsimp only
    rw [if_pos rfl, show (taken s q 0x09 (dumpBody 1 0 off len)).dump = s.dump from taken_any State.dump (fun _ _ => rfl) ..]
  case post =>
    intro t hans hleaves _ _
    exact ⟨hans, hleaves.only (by simp) (taken_blank _ rfl ..)⟩

theorem holdReport_touches (s : State) (q : Req) (r : Bytes × Bytes) : OnlyTouches [.mgmt] s (s.holdReport q r) :=
  onlyTouches_of_blank (holdReport_blank _ rfl ..)

theorem holdReport_wires (s : State) (q : Req) (r : Bytes × Bytes) : (s.holdReport q r).mgmt.wires = s.mgmt.wires := by
  unfold State.holdReport
  split
  · rfl
  · cases q.port <;> rfl

/-- ATTEST at offset 0 makes a report, holds it and answers its first part. -/
theorem attest_answers {s : State} {q : Req} {nonce : Bytes} (h : TakenUp s q 0x0A (attestBody nonce 0)) (h1 : q.hcp1 = false)
    (hn : nonce.length = 32) :
    ∃ t, exec (.attest q nonce 0) s = .next t
      ∧ Answered s t q 0x0A (reportPart ((taken s q 0x0A (attestBody nonce 0)).attestReport nonce) 0)
      ∧ OnlyTouches [.regs, .mgmt, .out] s t := by
  refine serve_answers h _ _ (gate_refuses_none rfl rfl (by simp [hn]) (.inl h1)) rfl (holdReport_touches ..) (by decide)
    (holdReport_wires ..) ?post
  intro t hans hleaves _ _
  refine ⟨hans, hleaves.only (by simp) ?_⟩
  rw [holdReport_blank _ rfl, taken_blank _ rfl]

/-- Settles O16. -/
theorem dumpReadAndAttest : Obligations.DumpReadAndAttest := fun _ _ _ _ _ _ =>
  ⟨fun h _ => dumpRead_region h, dumpRead_gasp, attest_answers⟩

/-! Sessions, transfers and links -/

theorem reply_transfers (s : State) (f : InFlight) (a : Answer) : (s.reply f a).mgmt.transfers = s.mgmt.transfers :=
  (congrArg MgmtSt.transfers (reply_work s f a) :)

theorem reply_timeouts (s : State) (f : InFlight) (a : Answer) : (s.reply f a).mgmt.timeouts = s.mgmt.timeouts :=
  (congrArg MgmtSt.timeouts (reply_work s f a) :)

/-- A property of the next state that holds of the meaning's own state, with its pins settled and the queue put back. -/
theorem next_of_done {s u : State} {P : State → Prop} (h : P { settle u with pending := s.pending }) :
    ∃ t, done s u = .next t ∧ P t := ⟨_, rfl, h⟩

/-- CLOSE answers OK and closes the session it came in. -/
theorem sessionClose_answers {s : State} {q : Req} (h : TakenUp s q 0x0B closeBody) (hq : inSession q = true) :
    ∃ t, exec (.sessionClose q) s = .next t ∧ Answered s t q 0x0B okAns
      ∧ (∀ x ∈ t.mgmt.sessions, x.id = q.session → x.closing = true) ∧ OnlyTouches [.regs, .mgmt, .out] s t := by
  have h1 : q.hcp1 = false := by
    simp only [inSession, Bool.and_eq_true, Bool.not_eq_true'] at hq
    exact hq.1
  refine serve_answers (l := [.mgmt]) h _ _ (gate_refuses_none hq rfl rfl (.inl h1)) rfl
    (onlyTouches_of_blank (setMgmt_blank _ _ _ rfl)) (by decide) rfl ?post
  intro t hans hleaves _ hmgmt
  refine ⟨hans, ?_, hleaves.only (by simp) ((setMgmt_blank _ _ _ rfl).trans (taken_blank _ rfl ..))⟩
  rw [hmgmt]
  refine reply_sessions _ _ _ (fun x => x.id = q.session → x.closing = true) (fun x n u cl hx hc hid => hc (hx hid)) ?_
  intro x hx hid
  obtain ⟨y, -, rfl⟩ := List.mem_map.mp hx
  by_cases hy : y.id = q.session
  · rw [if_pos (beq_iff_eq.mpr hy)]
  · rw [if_neg (by simpa using hy)] at hid
    exact absurd hid hy

/-- A session that has been idle too long, with no tag in flight, is gone. -/
theorem sessionIdleTimeout_closes {s : State} {id : BitVec 32} {x : Session} (hx : s.session id = some x)
    (hlate : x.lastUp + 25000000 ≤ s.clk.up) (hfly : ∀ f ∈ s.mgmt.inFlight, f.req.session ≠ id) :
    ∃ t, exec (.sessionIdleTimeout id) s = .next t ∧ (∀ y ∈ t.mgmt.sessions, y.id ≠ id) ∧ OnlyTouches [.mgmt] s t := by
  have hidle : s.mgmt.inFlight.any (fun f => inSession f.req && f.req.session == id) = false := by
    rw [List.any_eq_false]
    intro f hf
    simp [hfly f hf]
  have he : exec (.sessionIdleTimeout id) s =
      done s ((s.setSession id fun x => { x with closing := true }).reapSessions) := by
    show done s (match s.session id with | some x => _ | none => _) = _
    rw [hx]
    dsimp only
    rw [hidle, decide_eq_true hlate]
    rfl
  refine ⟨_, he, ?_, commandsKeepToTheirParts (.sessionIdleTimeout id) _ _ he⟩
  intro y hy hid
  obtain ⟨hmem, hlive⟩ := List.mem_filter.mp hy
  obtain ⟨z, -, rfl⟩ := List.mem_map.mp hmem
  have hz : z.id = id := by
    by_contra hz
    rw [if_neg (by simpa using hz)] at hid
    exact hz hid
  rw [if_pos (beq_iff_eq.mpr hz)] at hlive
  simp only [Bool.not_true, Bool.false_or, List.any_eq_true, Bool.and_eq_true, beq_iff_eq] at hlive
  obtain ⟨f, hf, -, hfid⟩ := hlive
  exact hfly f hf (hfid.trans hz)

/-- A transfer that has waited too long is closed and counted. -/
theorem transferAbandon_closes {s : State} {own : XferOwner} {op : Byte} {id : BitVec 16} {x : Transfer}
    (hx : s.transfer own op.toNat id = some x) (hlate : x.lastUp + 2500000 ≤ s.clk.up) :
    ∃ t, exec (.transferAbandon own op id) s = .next t ∧ t.transfer own op.toNat id = none
      ∧ t.rget GlbCtr.xferAbandon.reg = satAdd 64 (s.rget GlbCtr.xferAbandon.reg) 1 ∧ OnlyTouches [.regs, .mgmt] s t := by
  have he : exec (.transferAbandon own op id) s =
      done s ((s.closeTransfer own op.toNat id).glbCtr .xferAbandon) := by
    show done s (match s.transfer own op.toNat id with | some x => _ | none => _) = _
    rw [hx]
    dsimp only
    rw [if_pos hlate]
  exact ⟨_, he, find_filter_none _ _, State.rget_bump (s.closeTransfer own op.toNat id) GlbCtr.xferAbandon.reg 1,
    commandsKeepToTheirParts (.transferAbandon own op id) _ _ he⟩

/-- The first or second timeout in a row of a string's page answers TIMEOUT and is noted. -/
theorem readTimeout_answers {s : State} {q : Req} {a : Access} {p : Page} (hw : a.width = 1) (h4 : a.addr.toNat % 4 = 0)
    (hp : pageOf a.addr.toNat = some p) (h8 : p.die ≠ 8) (h : TakenUp s q 0x01 (Access.body a))
    (hread : s.mayRead q a.addr.toNat 4 = true) (hst : 1 ≤ s.serveStage) (hhung : s.pageHung p = false)
    (hrun : mgetD s.mgmt.timeouts p.base 0 + 1 < 3) :
    ∃ t, exec (.stringAccessTimeout q .read a) s = .next t ∧ Answered s t q 0x01 { code := .timeout }
      ∧ mgetD t.mgmt.timeouts p.base 0 = mgetD s.mgmt.timeouts p.base 0 + 1 ∧ OnlyTouches [.regs, .mgmt, .out] s t := by
  have hto : (taken s q 0x01 (Access.body a)).mgmt.timeouts = s.mgmt.timeouts := by
    unfold taken State.accept
    dsimp only
    split <;> rfl
  have hh : (taken s q 0x01 (Access.body a)).pageHung p = false := by
    unfold State.pageHung
    rw [taken_hung]
    exact hhung
  have hpages : (((pageOf a.addr.toNat).map fun p => [p]).getD []).any (fun p => p.die == 8) = false := by
    rw [hp]
    simp [h8]
  show ∃ t, done s (s.serveTimeout q .read a) = .next t ∧ _
  unfold State.serveTimeout
  dsimp only
  rw [if_pos rfl, if_neg (by simp [hpages]), hp]
  refine serve_answers (u := (taken s q 0x01 (Access.body a)).setMgmt fun m =>
      { m with timeouts := mput m.timeouts p.base (mgetD s.mgmt.timeouts p.base 0 + 1) }) (l := [.mgmt])
    (a := { code := .timeout }) h _ _ ?gate ?run (onlyTouches_of_blank (setMgmt_blank _ _ _ rfl)) (by decide) rfl ?post
  case gate =>
    have h4b : accessBytes a = 4 := by
      unfold accessBytes
      rw [hw]
      rfl
    refine gate_refuses_none ?_ (stageReads_of_stageB _ _ (taken_atStageB _ _ _ hst)) ?_ (.inr rfl)
    · dsimp only
      rw [taken_mayRead, h4b]
      exact hread
    · dsimp only
      rw [accessFits_word hw h4]
      rfl
  case run =>
    show (let r := (taken s q 0x01 (Access.body a)).timedOut p; (r.1, some r.2)) = _
    unfold State.timedOut
    rw [hh, if_neg (by simp), hto]
    dsimp only
    rw [if_neg (by omega)]
  case post =>
    intro t hans hleaves _ hmgmt
    refine ⟨hans, ?_, hleaves.only (by simp) ((setMgmt_blank _ _ _ rfl).trans (taken_blank _ rfl ..))⟩
    rw [hmgmt, reply_timeouts]
    exact (congrArg (fun m => mgetD m p.base 0) rfl).trans (mgetD_mput_same _ _ _ _)

/-- A frame that arrives with a bad FCS is counted and nothing else. -/
theorem hcpFrameRefused_counts {s : State} {m : MPort} {e : BitVec 16} {frame : Bytes} (hserve : s.sys.serving = true)
    (hup : s.portUp m = true) (hf : s.fatal = false) :
    ∃ t, exec (.hcpFrameRefused m false e true false true frame) s = .next t
      ∧ t.rget GlbCtr.linkDiscard.reg = satAdd 64 (s.rget GlbCtr.linkDiscard.reg) 1 ∧ OnlyTouches [.regs] s t := by
  have he : s.refuseFrame m (.raw e) false frame = s.glbCtr .linkDiscard := by
    unfold State.refuseFrame
    dsimp only
    rw [hserve, hup, hf]
    rfl
  refine next_of_done (u := s.refuseFrame m (.raw e) false frame) ?_
  rw [he]
  exact ⟨State.rget_bump s GlbCtr.linkDiscard.reg 1, (onlyTouches_of_blank (glbCtr_blank _ rfl ..)).settled⟩

/-- The transfer that a first segment opens. -/
def Transfer.opened (q : Req) (op : Nat) (g : Segment) (up : Nat) : Transfer :=
  { owner := ownerOf q, port := q.port, opcode := op, id := g.transfer, target := g.target.toNat, total := g.totalLen.toNat,
    parts := [(g.offset.toNat, g.data)], lastUp := up }

/-- A first segment that is not the whole image, of CAL_LOAD or PROG_LOAD: a transfer of its own keeps it, and DETAIL says
how much is held. -/
theorem serve_segment_part {s : State} {q : Req} {op : Nat} {g : Segment} (h : TakenUp s q op (Segment.body g))
    (gate : State → Gate) (start : InFlight → State → Bytes → State × Option Answer)
    (hg : (gate (taken s q op (Segment.body g))).refuses q op = none) (hnew : s.transfer (ownerOf q) op g.transfer = none)
    (htwo : (s.mgmt.transfers.filter fun t => t.port == q.port).length < 2) (hpart : g.data.length < g.totalLen.toNat) :
    ∃ t x, done s (s.serve q op (Segment.body g) gate fun s f => s.takeSegment q op g (start f)) = .next t
      ∧ Answered s t q op { code := .ok, detail := g.data.length }
      ∧ x ∈ t.mgmt.transfers ∧ x.owner = ownerOf q ∧ x.id = g.transfer ∧ x.total = g.totalLen.toNat
      ∧ x.image = g.data ∧ OnlyTouches [.regs, .mgmt, .out] s t := by
  refine Exists.imp (fun t ht => ⟨Transfer.opened q op g (taken s q op (Segment.body g)).clk.up, ht⟩)
    (serve_answers (l := [.mgmt]) h gate _ hg (segment_part s q op g _ hnew htwo hpart) ?_ (by decide) rfl ?_)
  · refine onlyTouches_of_blank ?_
    rw [setMgmt_blank _ _ _ rfl, closeTransfer_blank _ rfl]
  · intro t hans hleaves _ hmgmt
    refine ⟨hans, ?_, rfl, rfl, rfl, List.append_nil _, hleaves.only (by simp) ?_⟩
    · rw [hmgmt, reply_transfers]
      exact List.mem_append_right _ (List.mem_singleton.mpr rfl)
    · rw [setMgmt_blank _ _ _ rfl, closeTransfer_blank _ rfl, taken_blank _ rfl]

/-- A segment of CAL_LOAD that is not the whole image is kept in a transfer of its own. -/
theorem calLoad_part {s : State} {q : Req} {g : Segment} (h : TakenUp s q 0x07 (Segment.body g)) (h1 : q.hcp1 = false)
    (hadm : s.isAdmin q = true) (hst : 2 ≤ s.serveStage) (hfits : segFits 0x07 g = true)
    (hnew : s.transfer (ownerOf q) 0x07 g.transfer = none)
    (htwo : (s.mgmt.transfers.filter fun t => t.port == q.port).length < 2) (hpart : g.data.length < g.totalLen.toNat) :
    ∃ t x, exec (.calLoad q g) s = .next t ∧ Answered s t q 0x07 { code := .ok, detail := g.data.length }
      ∧ x ∈ t.mgmt.transfers ∧ x.owner = ownerOf q ∧ x.id = g.transfer ∧ x.total = g.totalLen.toNat
      ∧ x.image = g.data ∧ OnlyTouches [.regs, .mgmt, .out] s t := by
  refine serve_segment_part h _ _ (gate_refuses_none (taken_isAdmin _ _ hadm) (decide_eq_true ?_) hfits (.inl h1)) hnew htwo hpart
  rw [taken_stage]
  exact hst

/-- Settles O17, one lemma for each form. -/
theorem managementActs : Obligations.ManagementActs := by
  intro s q m
  refine ⟨sessionClose_answers, fun _ _ _ => sessionIdleTimeout_closes, fun _ _ _ _ => transferAbandon_closes, ?_, ?_,
    fun _ _ => readTimeout_answers, fun _ _ => hcpFrameRefused_counts, fun _ => calLoad_part⟩
  · exact ⟨_, rfl, by cases m <;> rfl, commandsKeepToTheirParts (.mgmtLinkDown m) _ _ rfl⟩
  · intro hm
    have he : exec (.mgmtLinkUp m) s = done s (s.setLink m true) := by
      show done s (if s.pho.mclkLost then s else s.setLink m true) = _
      rw [hm]
      rfl
    exact ⟨_, he, by cases m <;> rfl, commandsKeepToTheirParts (.mgmtLinkUp m) _ _ he⟩

/-! Opening a session -/

/-- The body of an OPEN is in form for the roles it may ask. -/
theorem openForm {q : Req} {slot role : Byte} {eph nonce sig : Bytes} (h1 : q.session = 0) (he : eph.length = 32) (hn : nonce.length = 32)
    (hs : sig.length = 64) (h8 : slot.toNat < 8) (hr : role = 1 ∨ role = 2) :
    (!inSession q && eph.length == 32 && nonce.length == 32 && sig.length == 64 && decide (slot.toNat < 8)
      && (role == 1 || role == 2)) = true := by
  have hin : inSession q = false := by
    unfold inSession
    rw [h1]
    simp
  rcases hr with rfl | rfl <;> simp [hin, he, hn, hs, h8]

theorem wires_of_calm {a b : MgmtSt} (h : a.calm = b.calm) : a.wires = b.wires :=
  (congrArg MgmtSt.wires h :)

/-- A request outside a session leaves the sessions as they were. -/
theorem taken_sessions {s : State} {q : Req} (op : Nat) (b : Bytes) (h : inSession q = false) :
    (taken s q op b).mgmt.sessions = s.mgmt.sessions := by
  unfold taken State.accept
  dsimp only
  rw [show inSession (flightOf q op b).req = false from h, if_neg Bool.false_ne_true]
  rfl

/-- The hypotheses under which OPEN reaches the shared secret. -/
structure OpenAllowed (s : State) (q : Req) (slot role : Byte) (eph nonce sig : Bytes) : Prop where
  up : TakenUp s q 0x0B (openBody slot role eph nonce sig)
  hcp2 : q.hcp1 = false
  outside : q.session = 0
  form : (!inSession q && eph.length == 32 && nonce.length == 32 && sig.length == 64 && decide (slot.toNat < 8)
      && (role == 1 || role == 2)) = true
  key : ¬ ((s.keySlot false slot.toNat).state ≠ .enrolled ∨ ((role == 1) = true ∧ (!(s.keySlot false slot.toNat).admin) = true))
  signed : edVerify (s.keySlot false slot.toNat).key
    (ascii "HCP2OPEN" ++ beBytes 8 chipId ++ (openBody slot role eph nonce sig).take 68) sig = true
  room : (s.mgmt.sessions.filter fun x => x.port == q.port && !x.closing).length < 8

section
variable {s : State} {q : Req} {slot role : Byte} {eph nonce sig : Bytes}

theorem OpenAllowed.room_taken (h : OpenAllowed s q slot role eph nonce sig) :
    ((taken s q 0x0B (openBody slot role eph nonce sig)).mgmt.sessions.filter fun x => x.port == q.port && !x.closing).length < 8 := by
  rw [taken_sessions _ _ (by unfold inSession; rw [h.outside]; simp)]
  exact h.room

theorem OpenAllowed.key_taken (_ : OpenAllowed s q slot role eph nonce sig) :
    (taken s q 0x0B (openBody slot role eph nonce sig)).keySlot false slot.toNat = s.keySlot false slot.toNat :=
  taken_any (fun s => s.keySlot false slot.toNat) (fun _ _ => rfl) s q _ _

theorem OpenAllowed.draw_taken (_ : OpenAllowed s q slot role eph nonce sig) :
    (taken s q 0x0B (openBody slot role eph nonce sig)).draw.2 = s.draw.2 :=
  taken_any (fun s => s.draw.2) (fun _ _ => rfl) s q _ _

theorem OpenAllowed.touches (S : State) : OnlyTouches [.regs, .mgmt, .aer, .sys] S
    (S.openNow q slot.toNat (role == 1) (openBody slot role eph nonce sig) eph nonce sig).1 :=
  onlyTouches_of_blank (openNow_blank _ rfl rfl rfl rfl ..)

/-- A shared secret of zeros is refused and counted (R304). -/
theorem OpenAllowed.refused (h : OpenAllowed s q slot role eph nonce sig) (hz : x25519 s.draw.2 eph = zeros 32) :
    ∃ t, exec (.sessionOpen q slot role eph nonce sig) s = .next t ∧ Answered s t q 0x0B { code := .authFail }
      ∧ t.rget GlbCtr.openFail.reg = satAdd 64 (s.rget GlbCtr.openFail.reg) 1 := by
  have hrun : (taken s q 0x0B (openBody slot role eph nonce sig)).openNow q slot.toNat (role == 1)
      (openBody slot role eph nonce sig) eph nonce sig
      = ((taken s q 0x0B (openBody slot role eph nonce sig)).draw.1.draw.1).openFails slot.toNat := by
    refine openNow_fail _ _ _ _ _ _ _ _ ?_ ?_ h.room_taken ?_
    · rw [h.key_taken]
      exact h.key
    · rw [h.key_taken]
      exact h.signed
    · rw [h.draw_taken]
      exact hz
  have hcount : (((taken s q 0x0B (openBody slot role eph nonce sig)).draw.1.draw.1).openFails slot.toNat).1.rget GlbCtr.openFail.reg
      = satAdd 64 (s.rget GlbCtr.openFail.reg) 1 := by
    unfold State.openFails
    dsimp only
    rw [alarm_rget _ _ _ _ _ _ _ (by decide) (by decide) (by decide)]
    refine (State.rget_bump _ _ _).trans ?_
    exact congrArg (satAdd 64 · 1) (taken_rget s q _ _ _)
  refine serve_answers h.up _ _ (gate_refuses_none rfl rfl h.form (.inl h.hcp2)) (hrun.trans rfl)
    (hrun ▸ OpenAllowed.touches _) (by decide) ((wires_of_calm (alarm_calm ..)).trans rfl) ?_
  intro t hans _ hrget _
  exact ⟨hans, (hrget _ (by decide)).trans hcount⟩

/-- Otherwise a session stands on the port, and stays as its OPEN is answered. -/
theorem OpenAllowed.opens (h : OpenAllowed s q slot role eph nonce sig) (hz : x25519 s.draw.2 eph ≠ zeros 32) :
    ∃ t, exec (.sessionOpen q slot role eph nonce sig) s = .next t
      ∧ (∃ body, Answered s t q 0x0B { code := .ok, body := body })
      ∧ ∃ x ∈ t.mgmt.sessions, x.port = q.port ∧ x.slot = slot.toNat ∧ x.admin = (role == 1) ∧ x.closing = false := by
  obtain ⟨bd, x, u, hrun, ⟨hid, hport, hslot, hadm, hclosing⟩, hfly, hup, hout, hpen, hmem⟩ :=
    openNow_ok (taken s q 0x0B (openBody slot role eph nonce sig)) q slot.toNat (role == 1) (openBody slot role eph nonce sig)
      eph nonce sig (by rw [h.key_taken]; exact h.key) (by rw [h.key_taken]; exact h.signed) h.room_taken
      (by rw [h.draw_taken]; exact hz)
  obtain ⟨t, ht, hans, _, hmgmt, _⟩ := serve_answered_mgmt h.up (fun _ => ⟨true, true, _⟩)
    (fun s _ => s.openNow q slot.toNat (role == 1) (openBody slot role eph nonce sig) eph nonce sig)
    (gate_refuses_none rfl rfl h.form (.inl h.hcp2)) hrun hfly hup hout (hpen.trans (taken_pending ..))
  refine ⟨t, ht, ⟨bd, hans⟩, x, ?_, hport, hslot, hadm, hclosing⟩
  rw [hmgmt]
  refine reply_keeps _ _ _ _ hmem ?_ hclosing
  rw [hid]
  exact fun hc => fresh_ne _ (hc.trans h.outside)

end

/-- Settles O18: the shared secret decides between the two outcomes of `openNow`. -/
theorem sessionOpens : Obligations.SessionOpens := by
  intro s q slot role eph nonce sig hup hv2 h0 he hn hs h8 hrole hkey hadm hsig hroom
  have h : OpenAllowed s q slot role eph nonce sig := {
    up := hup, hcp2 := hv2, outside := h0, form := openForm h0 he hn hs h8 hrole, signed := hsig, room := hroom
    key := by
      rintro (hstate | ⟨hadmin, hno⟩)
      · exact hstate hkey
      · rw [hadm (beq_iff_eq.mp hadmin)] at hno
        exact absurd hno (by decide) }
  by_cases hz : x25519 s.draw.2 eph = zeros 32
  · obtain ⟨t, ht, hans, hcount⟩ := h.refused hz
    exact ⟨t, ht, fun hne => absurd hz hne, fun _ => ⟨hans, hcount⟩, commandsKeepToTheirParts (.sessionOpen ..) _ _ ht⟩
  · obtain ⟨t, ht, hans, hsession⟩ := h.opens hz
    exact ⟨t, ht, fun _ => ⟨hans, hsession⟩, fun hzero => absurd hzero hz, commandsKeepToTheirParts (.sessionOpen ..) _ _ ht⟩

end Sys2Proof.Machine
end

/-! PROOFS. What commands of the SEC page, and of CAL, KITE, ELS, TICK, DUMP and TWIN, do (R308, R329, R333, R34 to R366). -/

section
namespace Sys2Proof.Machine

/-! The SEC page -/

/-- A written word whose bit `b` is clear, with a neighbouring bit set, asks for that neighbour's command alone. -/
theorem cmdsOf_pair_low {v : Nat} (h : bits v 1 1 = 0) : cmdsOf [1, 0] (v ||| 1) = 1 := by
  have h1 : bits (v ||| 1) 1 1 = 0 := (bits_or_ne v 1 0 (by decide)).trans h
  have h0 : bits (v ||| 1) 0 0 = 1 := bits_or_same v 0
  simp only [cmdsOf, List.foldl, h1, h0]
  decide

theorem cmdsOf_pair_high {v : Nat} (h : bits v 0 0 = 0) : cmdsOf [1, 0] (v ||| 2) = 2 := by
  have h1 : bits (v ||| 2) 1 1 = 1 := bits_or_same v 1
  have h0 : bits (v ||| 2) 0 0 = 0 := (bits_or_ne v 0 1 (by decide)).trans h
  simp only [cmdsOf, List.foldl, h1, h0]
  decide

theorem cmdsOf_single (v : Nat) : cmdsOf [0] (v ||| 1) = 1 := by
  have h0 : bits (v ||| 1) 0 0 = 1 := bits_or_same v 0
  simp only [cmdsOf, List.foldl, h0]
  decide

theorem judgeSec_other (w : Writer) {o : Nat} (d : Draft) (h1 : o ≠ 0x008) (h2 : o ≠ 0x210) : judgeSec w o d = none :=
  if_neg fun h => h.1.elim h1 h2

theorem judgeSec_secure {w : Writer} (o : Nat) (d : Draft) (h : w.secure = true) : judgeSec w o d = none :=
  if_neg fun hd => by simp [h] at hd

variable {s : State} {q : Req} {v : Word}

/-- LOCK sets its bit (R10). -/
theorem secLock_locks (h : Commanded s q (secReg 0x100) 1) :
    ∃ t, exec (.secLock q) s = .next t ∧ t.secLocked = true ∧ OnlyTouches [.regs, .mgmt, .out] s t := by
  let r : RegDef := ⟨0x100, false, 0, [⟨0, 0, .w1s, []⟩]⟩
  have hd : draftOf s.secLocked r.fields (s.rget (secReg 0x100)) 4294967295 1
      = { value := putBits (s.rget (secReg 0x100)) 0 0 (bits (s.rget (secReg 0x100)) 0 0 ||| bits 1 0 0) } :=
    take_w1s s.secLocked 1 0 0 { value := s.rget (secReg 0x100) } [] (by decide)
  obtain ⟨t, ht, hleaves, hrget⟩ := sec_command (o := 0x100) (r := r) (by decide) (by decide) (by decide) h (by decide) rfl rfl rfl hd rfl
    rfl (show onesOf 0 ≤ 1 by decide) (judgeSec_other _ _ (by decide) (by decide)) rfl rfl
  refine ⟨t, ht, ?_, hleaves.only (by simp) ((storedFor_blank _ rfl ..).trans (readied_blank _ rfl ..))⟩
  have hlt : putBits (s.rget (secReg 0x100)) 0 0 (bits (s.rget (secReg 0x100)) 0 0 ||| bits 1 0 0) < 2 ^ 64 :=
    putBits_lt _ _ _ _ (State.rget_lt ..) (by decide)
  have hv : t.rget (secReg 0x100) = putBits (s.rget (secReg 0x100)) 0 0 (bits (s.rget (secReg 0x100)) 0 0 ||| bits 1 0 0) := by
    refine (hrget _ (by decide) (by decide)).trans ?_
    rw [if_neg (by simp), ← readied_rget s q (secReg 0x100) 1 secPage]
    exact storedFor_rget _ secPage 0x100 _ ⟨rfl, by simp [secPage], by simp [secPage]⟩ (by simpa using hlt)
  unfold State.secLocked State.bget
  rw [hv, testBit_putBits]
  simp [bits]

/-- HCP1_BLOW burns its fuse (R308). -/
theorem hcp1Blow_burns (h : Commanded s q (secReg 0x008) (v.toNat ||| 2)) (h2 : q.hcp1 = false)
    (hsame : bits v.toNat 0 0 = s.fget (secReg 0x008) 0 0) :
    ∃ t, exec (.hcp1Blow q v) s = .next t ∧ t.fuse = { s.fuse with hcp1Fused := true }
      ∧ OnlyTouches [.regs, .mgmt, .out, .fuse] s t := by
  have hd : ∀ x, x = s.rget (secReg 0x008) →
      draftOf s.secLocked [⟨0, 0, .rwl, []⟩, fCmd 1] x 4294967295 (v.toNat ||| 2) = { value := x, cmds := 2 } := by
    rintro x rfl
    have h0 : bits (v.toNat ||| 2) 0 0 = bits (s.rget (secReg 0x008)) 0 0 := (bits_or_ne _ 0 1 (by decide)).trans hsame
    have h1 : bits (v.toNat ||| 2) 1 1 = 1 := bits_or_same _ 1
    unfold draftOf
    rw [List.foldl_cons, take_rwl_same _ _ _ _ _ _ (by decide) h0, List.foldl_cons, take_cmd _ _ _ _ (by decide), h1]
    simp
  obtain ⟨t, ht, hleaves, _⟩ := sec_cmd (o := 0x008) (c := 2) (by decide) (by decide) (by decide) h
    (or_bit_lt _ 1 v.isLt (by decide)) rfl rfl rfl hd (by decide) (fun d _ => judgeSec_secure _ d (writerOf_secure h h2)) rfl rfl
  refine ⟨t, ht, ?_, hleaves.only (by simp) ((secCommand_blank _ rfl rfl ..).trans (readied_blank _ rfl ..))⟩
  rw [hleaves.fuse]
  exact congrArg (fun f : FuseSt => { f with hcp1Fused := true }) (readied_fuse ..)

/-- SVN_COMMIT raises the smallest version accepted (R329). -/
theorem svnCommit_commits (h : Commanded s q (secReg 0x210) (v.toNat ||| 1)) (h2 : q.hcp1 = false) :
    ∃ t, exec (.svnCommit q v) s = .next t ∧ t.fuse = { s.fuse with fwSvnMin := max s.fuse.fwSvnMin s.sys.fwSvn }
      ∧ OnlyTouches [.regs, .mgmt, .out, .fuse] s t := by
  obtain ⟨t, ht, hleaves, _⟩ := sec_cmd (o := 0x210) (c := 1) (by decide) (by decide) (by decide) h
    (or_bit_lt _ 0 v.isLt (by decide)) rfl rfl rfl (fun x _ => (draftOf_cmds _ [0] x _).trans (by rw [cmdsOf_single])) (by decide)
    (fun d _ => judgeSec_secure _ d (writerOf_secure h h2)) rfl rfl
  refine ⟨t, ht, ?_, hleaves.only (by simp) ((secCommand_blank _ rfl rfl ..).trans (readied_blank _ rfl ..))⟩
  rw [hleaves.fuse]
  exact congrArg₂ (fun (f : FuseSt) n => { f with fwSvnMin := max f.fwSvnMin n }) (readied_fuse ..)
    (congrArg SysSt.fwSvn (readied_sys ..))

/-- A command of KEY_CMD that no check refuses leaves what `keyCommand` makes. -/
theorem keyCommand_answers {x c : Nat} (h : Commanded s q (secReg 0x2C0) x) (hx : x < 4294967296) (hc : cmdsOf [1, 0] x = c)
    (hone : onesOf c ≤ 1) {u : State}
    (hu : (readied s q (secReg 0x2C0) x secPage).keyCommand (writerOf s q (secReg 0x2C0) x) c = { state := u }) :
    ∃ t, done s (s.serveReg q (secReg 0x2C0) x) = .next t ∧ t.fuse = u.fuse ∧ OnlyTouches [.regs, .mgmt, .out, .fuse] s t := by
  obtain ⟨t, ht, hleaves, _⟩ := sec_cmd (o := 0x2C0) (c := c) (by decide) (by decide) (by decide) h hx rfl rfl rfl
    (fun y _ => (draftOf_cmds _ [1, 0] y _).trans (by rw [hc])) hone (fun d _ => judgeSec_other _ d (by decide) (by decide)) hu rfl
  refine ⟨t, ht, hleaves.fuse, hleaves.only (by simp) ?_⟩
  have hu := congrArg (fun e : Effect => e.state) hu
  rw [← show _ = u from hu, keyCommand_blank _ rfl rfl, readied_blank _ rfl]

theorem keySlot_of_fuse {s t : State} (h : t.fuse = s.fuse) (prog : Bool) (slot : Nat) : t.keySlot prog slot = s.keySlot prog slot := by
  unfold State.keySlot
  rw [h]

theorem keySlot_setKeySlot (s : State) (prog : Bool) (slot : Nat) (k : KeySlot) : (s.setKeySlot prog slot k).keySlot prog slot = k := by
  cases prog <;> exact mgetD_mput_same _ _ _ _

theorem keyData_of_rget {s t : State} (h : ∀ a, t.rget a = s.rget a) : t.keyData = s.keyData := by
  unfold State.keyData
  simp only [h]

/-- Enrolling fills the selected slot with KEY_DATA (R333). -/
theorem keyEnroll_enrolls (h : Commanded s q (secReg 0x2C0) (v.toNat ||| 1)) (hno : bits v.toNat 1 1 = 0)
    (hk : s.keyFails (s.writer q none) true = none) :
    ∃ t, exec (.keyEnroll q v) s = .next t
      ∧ t.keySlot (bit (s.rget (secReg 0x288)) 8) (bits (s.rget (secReg 0x288)) 2 0) =
        { state := .enrolled, admin := !bit (s.rget (secReg 0x288)) 8 && bit (s.rget (secReg 0x288)) 4, key := s.keyData }
      ∧ OnlyTouches [.regs, .mgmt, .out, .fuse] s t := by
  obtain ⟨t, ht, hfuse, honly⟩ := keyCommand_answers h (or_bit_lt _ 0 v.isLt (by decide)) (cmdsOf_pair_low hno) (by decide)
    (u := (readied s q (secReg 0x2C0) (v.toNat ||| 1) secPage).setKeySlot (bit (s.rget (secReg 0x288)) 8)
      (bits (s.rget (secReg 0x288)) 2 0)
      { state := .enrolled, admin := !bit (s.rget (secReg 0x288)) 8 && bit (s.rget (secReg 0x288)) 4, key := s.keyData }) (by
      unfold State.keyCommand
      rw [if_neg (by decide)]
      simp only [beq_self_eq_true, keyFails_readied, hk, readied_rget, if_true]
      rw [keyData_of_rget (readied_rget s q _ _ secPage)])
  exact ⟨t, ht, (keySlot_of_fuse hfuse _ _).trans (keySlot_setKeySlot ..), honly⟩

/-- Revoking marks the selected slot; its sessions close, which the fuses do not see (R306, R333). -/
theorem keyRevoke_revokes (h : Commanded s q (secReg 0x2C0) (v.toNat ||| 2)) (hno : bits v.toNat 0 0 = 0)
    (hk : s.keyFails (s.writer q none) false = none) :
    ∃ t, exec (.keyRevoke q v) s = .next t
      ∧ (t.keySlot (bit (s.rget (secReg 0x288)) 8) (bits (s.rget (secReg 0x288)) 2 0)).state = .revoked
      ∧ OnlyTouches [.regs, .mgmt, .out, .fuse] s t := by
  let S := readied s q (secReg 0x2C0) (v.toNat ||| 2) secPage
  let prog := bit (s.rget (secReg 0x288)) 8
  let slot := bits (s.rget (secReg 0x288)) 2 0
  let T := S.setKeySlot prog slot { S.keySlot prog slot with state := .revoked }
  obtain ⟨t, ht, hfuse, honly⟩ := keyCommand_answers h (or_bit_lt _ 1 v.isLt (by decide)) (cmdsOf_pair_high hno) (by decide)
    (u := if prog then T else T.closeSlot slot) (by
      unfold State.keyCommand
      rw [if_neg (by decide)]
      simp only [show ((2 : Nat) == 1) = false from rfl, keyFails_readied, hk, readied_rget, Bool.false_eq_true, if_false]
      rfl)
  have hT : (if prog then T else T.closeSlot slot).fuse = T.fuse := by
    split
    · rfl
    · exact (onlyTouches_of_blank (closeSlot_blank (fun p => decide (p ∈ [Part.mgmt])) rfl T slot)).2 .fuse (by decide)
  exact ⟨t, ht, congrArg KeySlot.state ((keySlot_of_fuse (hfuse.trans hT) _ _).trans (keySlot_setKeySlot ..)),
    honly⟩

/-- Settles O19, one lemma for each command of the SEC page. -/
theorem securityCommandsAct : Obligations.SecurityCommandsAct := fun _ _ _ =>
  ⟨secLock_locks, hcp1Blow_burns, svnCommit_commits, keyEnroll_enrolls, keyRevoke_revokes⟩

end Sys2Proof.Machine
end

/-! PROOFS. What commands of CAL, KITE, ELS, TICK, DUMP and TWIN do (R34, R39, R57, R158, R172, R345, R366). -/

section
namespace Sys2Proof.Machine

/-! What the operations come to -/

theorem noShadowRegs_rget (s : State) (p : Nat) :
    (s.noShadowRegs p).rget (calReg p 0x108) = 0 ∧ (s.noShadowRegs p).rget (calReg p 0x110) = 0 := by
  have hne : calReg p 0x108 ≠ calReg p 0x110 := by unfold calReg; omega
  unfold State.noShadowRegs
  rw [State.rget_rset_ne _ _ _ _ hne, State.rget_rset_same, State.rget_rset_same, Nat.zero_mod]
  exact ⟨rfl, rfl⟩

theorem noShadowRegs_pcal (s : State) (p k : Nat) : (s.noShadowRegs p).pcal k = s.pcal k :=
  (State.pcal_rset ..).trans (State.pcal_rset ..)

theorem setCalSt_rget (s : State) (g : CalSt → CalSt) (a : Nat) : (s.setCalSt g).rget a = s.rget a := State.rget_congr rfl a

theorem setCalSt_pcal (s : State) {g : CalSt → CalSt} (hg : ∀ c, (g c).ports = c.ports) (p : Nat) :
    (s.setCalSt g).pcal p = s.pcal p := by
  unfold State.pcal State.setCalSt
  rw [hg]

theorem disarmPort_eq {s : State} {p : Nat} (ha : (s.pcal p).armed = true)
    (ht : tickAtOrAfter s.clk.tick (BitVec.ofNat 48 (s.rget (calReg p 0x110)) - 2) = false) :
    ∃ g, s.disarmPort p = (((s.setPcal p PortCal.disarmed).noShadowRegs p).setCalSt g, .ok) ∧ ∀ c, (g c).ports = c.ports := by
  unfold State.disarmPort
  rw [if_neg (by rw [ha]; exact Bool.false_ne_true), if_neg (by rw [ht]; exact Bool.false_ne_true)]
  exact ⟨_, rfl, fun _ => rfl⟩

theorem disarmPort_disarms {s : State} {p : Nat} (ha : (s.pcal p).armed = true)
    (ht : tickAtOrAfter s.clk.tick (BitVec.ofNat 48 (s.rget (calReg p 0x110)) - 2) = false) :
    (s.disarmPort p).2 = .ok ∧ ((s.disarmPort p).1.pcal p).armed = false ∧ (s.disarmPort p).1.rget (calReg p 0x108) = 0
      ∧ (s.disarmPort p).1.rget (calReg p 0x110) = 0 := by
  obtain ⟨g, heq, hports⟩ := disarmPort_eq ha ht
  obtain ⟨h108, h110⟩ := noShadowRegs_rget (s.setPcal p PortCal.disarmed) p
  rw [heq]
  refine ⟨rfl, ?_, (setCalSt_rget ..).trans h108, (setCalSt_rget ..).trans h110⟩
  rw [setCalSt_pcal _ hports, noShadowRegs_pcal, State.pcal_setPcal_same, PortCal.disarmed, if_pos ha]

theorem resumePort_lifts {s : State} {p : Nat} (hs : (s.pcal p).stale = true) (ha : s.clk.aligned = true) :
    s.resumePort p = (s.setPcal p fun x => { x with stale := false, lifting := true }, .ok) := by
  unfold State.resumePort
  rw [hs, ha]
  rfl

theorem kiteRelease_darkens {s : State} (h : s.kiteLull = false) :
    s.kiteRelease = (s.disarmKites.setCalSt fun c => { c with
      kites := [{ at_ := s.tickPlus 1, map := zeros 32, ports := [], phase := .prepared }] }, .ok) := by
  unfold State.kiteRelease
  rw [h]
  rfl

theorem triggerDump_starts {s : State} (h : s.hbmOn = true) :
    s.triggerDump = { state := s.startSnap 0x0012 none [] true [] } := by
  unfold State.triggerDump
  rw [h]
  rfl

theorem twinPair_attaches {s : State} (hi : s.twin.state = .idle) (hD : s.atStage 3 = true) (hsplit : s.stateSplit = true)
    (hup : s.twinUp = true) : s.twinPair = (s.startAttach, .ok) := by
  unfold State.twinPair
  rw [hi, hD, hsplit, hup]
  rfl

theorem twinDetach_lulls {s : State} (h : s.twin.state = .paired) :
    s.twinDetach.2 = .ok ∧ s.twinDetach.1.twin.state = .lull := by
  unfold State.twinDetach
  rw [h]
  refine ⟨rfl, ?_⟩
  dsimp only
  rw [State.each_twin]
  · rfl
  · exact fun _ _ => rfl

/-- Resynchronising gives the range held up and attaches (R340). -/
theorem twinResync_attaches {s : State} (h : s.twin.state = .paired ∨ s.twin.state = .solo) :
    s.twinResync = (s.dropRange.startAttach, .ok) := by
  unfold State.twinResync
  rcases h with h | h <;> rw [h]

theorem dropRange_gives (s : State) : s.dropRange.twin.rangeHeld = false ∧ s.dropRange.clk = s.clk := by
  refine ⟨?_, (onlyTouches_of_blank (l := [.col, .twin]) (dropRange_blank _ rfl rfl s)).2 .clk (by decide)⟩
  rfl

/-! The commands -/

section
variable {s : State} {q : Req} {p : PortNo} {m : Fin 32}

theorem calDisarm_disarms (h : Commanded s q (calReg p.val 0x008) 2) (hl : s.leads p.val = true) (ha : (s.pcal p.val).armed = true)
    (htick : tickAtOrAfter s.clk.tick (BitVec.ofNat 48 (s.rget (calReg p.val 0x110)) - 2) = false) :
    ∃ t, exec (.calDisarm q p) s = .next t ∧ (t.pcal p.val).armed = false ∧ t.rget (calReg p.val 0x108) = 0
      ∧ t.rget (calReg p.val 0x110) = 0 ∧ OnlyTouches [.regs, .mgmt, .out, .cal] s t := by
  have ha' := (State.pcal_of_cal (readied_cal s q (calReg p.val 8) 2 (calPage p.val)) p.val).symm ▸ ha
  obtain ⟨hok, hcal, h108, h110⟩ := disarmPort_disarms (s := readied s q (calReg p.val 8) 2 (calPage p.val)) ha' (by
    rw [readied_clk, readied_rget]
    exact htick)
  obtain ⟨t, ht, hleaves, hrget⟩ := cal_command 2 p.isLt h (by decide) (by decide) (by decide) hl rfl hok
  refine ⟨t, ht, ?_, (hrget _ (by decide)).trans h108, (hrget _ (by decide)).trans h110, hleaves.only (by simp) ?_⟩
  · rw [State.pcal_of_cal hleaves.cal]
    exact hcal
  · exact (calCommand_blank _ rfl rfl ..).trans (readied_blank _ rfl ..)

theorem calResume_lifts (h : Commanded s q (calReg p.val 0x008) 1) (hl : s.leads p.val = true) (hstale : (s.pcal p.val).stale = true)
    (ha : s.clk.aligned = true) :
    ∃ t, exec (.calResume q p) s = .next t ∧ t.pcal p.val = { s.pcal p.val with stale := false, lifting := true }
      ∧ OnlyTouches [.regs, .mgmt, .out, .cal] s t := by
  have hcal := State.pcal_of_cal (readied_cal s q (calReg p.val 8) 1 (calPage p.val)) p.val
  have hlift := resumePort_lifts (s := readied s q (calReg p.val 8) 1 (calPage p.val)) (hcal.symm ▸ hstale)
    (by rw [readied_clk]; exact ha)
  obtain ⟨t, ht, hleaves, _⟩ := cal_command 1 p.isLt h (by decide) (by decide) (by decide) hl rfl (congrArg Prod.snd hlift)
  refine ⟨t, ht, ?_, hleaves.only (by simp) ((calCommand_blank _ rfl rfl ..).trans (readied_blank _ rfl ..))⟩
  rw [State.pcal_of_cal hleaves.cal]
  show ((readied s q (calReg p.val 8) 1 (calPage p.val)).resumePort p.val).1.pcal p.val = _
  rw [hlift, State.pcal_setPcal_same, hcal]

theorem kiteRelease_acts (h : Commanded s q (kiteReg 0x008) 1) (hl : s.kiteLull = false) :
    ∃ t, exec (.kiteRelease q) s = .next t
      ∧ t.cal.kites = [{ at_ := s.tickPlus 1, map := zeros 32, ports := [], phase := .prepared }]
      ∧ OnlyTouches [.regs, .mgmt, .out, .cal] s t := by
  have hrel := kiteRelease_darkens (s := readied s q (kiteReg 8) 1 kitePage)
    ((readied_any State.kiteLull (fun _ _ => rfl) ..).trans hl)
  obtain ⟨t, ht, hleaves, _⟩ := kite_command 1 h (by decide) (by decide) (by decide) (by decide) rfl (congrArg Prod.snd hrel)
  refine ⟨t, ht, ?_, hleaves.only (by simp) ((kiteRelease_blank _ rfl ..).trans (readied_blank _ rfl ..))⟩
  rw [hleaves.cal]
  show (readied s q (kiteReg 8) 1 kitePage).kiteRelease.1.cal.kites = _
  rw [hrel]
  exact congrArg (fun a : TickNo => [({ at_ := a, map := zeros 32, ports := [], phase := .prepared } : KiteEvent)])
    (readied_any (fun s => s.tickPlus 1) (fun _ _ => rfl) ..)

theorem elsRestore_starts (h : Commanded s q (elsReg m.val 0x008) 1) (hd : s.moduleDrained m.val = true)
    (hpres : (s.els m.val).present = true) (hsuit : (s.els m.val).suitable = true)
    (hnone : (s.pho.restoring.any fun r => r.1 == m.val) = false) :
    ∃ t f, exec (.elsRestore q m) s = .next t ∧ (m.val, some f) ∈ t.pho.restoring ∧ f.req = q
      ∧ OnlyTouches [.regs, .mgmt, .out, .pho, .sw, .aer] s t := by
  let S := readied s q (elsReg m.val 8) 1 (elsPage m.val)
  let f := flightOf q 0x02 (regBody (elsReg m.val 8) 1)
  have hels : S.els m.val = s.els m.val := readied_any (fun s => s.els m.val) (fun _ _ => rfl) ..
  obtain ⟨hok, hmem⟩ := startRestore_ok S m.val (some f) ((readied_any (fun s => s.moduleDrained m.val) (fun _ _ => rfl) ..).trans hd)
    (hels ▸ hpres) (hels ▸ hsuit) (by rw [show S.pho = s.pho from readied_pho ..]; exact hnone)
  obtain ⟨t, ht, hleaves, _⟩ := els_command 1 m.isLt h (by decide) (by decide) (by decide) (by decide)
    (E := { state := (S.startRestore m.val (some f)).1, waits := true }) (fun w hw => by
      unfold State.restoreEls
      rw [hw]
      have hpair : S.startRestore m.val (some f) = ((S.startRestore m.val (some f)).1, .ok) := by
        rw [← hok]
      show (match S.startRestore m.val (some f) with
        | (t, .ok) => _
        | (_, code) => _) = _
      rw [hpair]
      rfl) rfl
  refine ⟨t, f, ht, ?_, rfl, hleaves.only (by simp) ((startRestore_blank _ rfl rfl rfl rfl rfl ..).trans (readied_blank _ rfl ..))⟩
  rw [hleaves.pho]
  exact hmem

theorem tickRoleWrite_pends {v : Word} (h : Commanded s q (tickReg 0x008) v.toNat) (hne : bits v.toNat 0 0 ≠ s.fget (tickReg 0x008) 0 0) :
    ∃ t, exec (.tickRoleWrite q v) s = .next t ∧ t.clk = { s.clk with rolePending := true }
      ∧ t.fget (tickReg 0x008) 0 0 = bits v.toNat 0 0 ∧ OnlyTouches [.regs, .mgmt, .out, .clk] s t := by
  let r : RegDef := ⟨8, false, 0, [fRW 0 0]⟩
  let e : Draft → Effect := fun d => { state := (storedFor (readied s q (tickPage.base + 8) v.toNat tickPage) tickPage 8
    (s.rget (tickPage.base + 8)) d).setClk fun c => { c with rolePending := true } }
  have hadm : Admitted r.fields v.toNat := by
    intro f hf
    rw [List.mem_singleton.mp hf]
    exact .inr ⟨rfl, by decide, rfl⟩
  have hbits : bits (rwTake r.fields v.toNat (s.rget (tickReg 8))) 0 0 = bits v.toNat 0 0 :=
    bits_rwTake_single (f := fRW 0 0) v.toNat (s.rget (tickReg 8)) rfl
  obtain ⟨t, d, hv, _, ht, hleaves, hrget⟩ := rw_command (p := tickPage) (o := 8) (r := r) (e := e) (by decide) (by decide) rfl
    (by decide) (by decide) (by decide) h v.isLt rfl rfl rfl rfl (.inr (by decide)) (by decide) (fun hc => by cases hc)
    (fun hc => by cases hc) rfl hadm (fun _ _ _ => rfl) (fun d hd _ => by
      unfold State.writeEffect
      refine if_pos ⟨rfl, fun heq => hne ?_⟩
      rw [← hbits]
      exact congrArg (fun x => bits x 0 0) (hd.symm.trans heq)) (fun _ _ _ => rfl)
  have hlt : d.value < 2 ^ 64 := hv ▸ rwTake_lt _ _ _ hadm (State.rget_lt ..)
  have hstored : ∀ K : Part → Bool, K .regs = true → K .mgmt = true →
      (storedFor (readied s q (tickPage.base + 8) v.toNat tickPage) tickPage 8 (s.rget (tickPage.base + 8)) d).blank K = s.blank K :=
    fun K h1 h2 => (storedFor_blank K h1 ..).trans (readied_blank K h2 ..)
  refine ⟨t, ht, ?_, ?_, hleaves.only (by simp) ?_⟩
  · rw [hleaves.clk]
    refine congrArg (fun c : TickSt => { c with rolePending := true }) ?_
    exact (onlyTouches_of_blank (l := [.regs, .mgmt]) (hstored _ (by decide) (by decide))).2 .clk (by decide)
  · have hval : t.rget (tickReg 8) = d.value := by
      refine (hrget _ (.inl (by decide)) (by decide) (by decide)).trans ?_
      show (storedFor _ tickPage 8 (s.rget (tickPage.base + 8)) d).rget (tickPage.base + 8) = _
      rw [← readied_rget s q (tickPage.base + 8) v.toNat tickPage]
      exact storedFor_rget _ tickPage 8 d ⟨rfl, by decide, by decide⟩ hlt
    unfold State.fget
    rw [hval, hv]
    exact hbits
  · exact (setClk_blank (fun p => decide (p ∈ [Part.regs, .mgmt, .out, .clk])) _ _ rfl).trans (hstored _ rfl rfl)

theorem dumpTrigger_starts (h : Commanded s q (dumpReg 0x008) 1) (hon : s.hbmOn = true) :
    ∃ t, exec (.dumpTrigger q) s = .next t
      ∧ t.dump.snaps = s.dump.snaps ++ [⟨0x0012, none, [], true, [], s.clk.tick, s.ptpNow⟩]
      ∧ OnlyTouches [.regs, .mgmt, .out, .dump] s t := by
  have hstart := triggerDump_starts (s := readied s q (dumpReg 8) 1 dumpPage) ((readied_any State.hbmOn (fun _ _ => rfl) ..).trans hon)
  obtain ⟨t, ht, hleaves, _⟩ := dump_command 1 h (by decide) (by decide) (by decide) (by decide) hstart rfl
  refine ⟨t, ht, ?_, hleaves.only (by simp) ((startSnap_blank _ rfl ..).trans (readied_blank _ rfl ..))⟩
  rw [hleaves.dump]
  exact readied_any (fun s => s.dump.snaps ++ [⟨0x0012, none, [], true, [], s.clk.tick, s.ptpNow⟩]) (fun _ _ => rfl) ..

theorem twinPair_acts (h : Commanded s q (twinReg 0x008) 1) (hi : s.twin.state = .idle) (hD : s.atStage 3 = true)
    (hsplit : s.stateSplit = true) (hup : s.twinUp = true) :
    ∃ t, exec (.twinPair q) s = .next t ∧ t.twin.state = .attach ∧ t.twin.attachUp = s.clk.up
      ∧ OnlyTouches [.regs, .mgmt, .out, .twin, .col, .sys] s t := by
  let S := readied s q (twinReg 8) 1 twinPage
  have hpair : S.twinPair = (S.startAttach, .ok) := twinPair_attaches (by rw [show S.twin = s.twin from readied_twin ..]; exact hi)
    ((readied_any (fun s => s.atStage 3) (fun _ _ => rfl) ..).trans hD)
    ((readied_any State.stateSplit (fun _ _ => rfl) ..).trans hsplit) ((readied_any State.twinUp (fun _ _ => rfl) ..).trans hup)
  obtain ⟨t, ht, hleaves, _⟩ := twin_command 1 h (by decide) (by decide) (by decide) (congrArg Effect.ofPair hpair) rfl
  obtain ⟨hstate, hattach, _⟩ := startAttach_twin S
  refine ⟨t, ht, ?_, ?_, hleaves.only (by simp) ((startAttach_blank _ rfl rfl rfl rfl rfl S).trans (readied_blank _ rfl ..))⟩
  · rw [hleaves.twin]
    exact hstate
  · rw [hleaves.twin]
    exact hattach.trans (congrArg TickSt.up (readied_clk ..))

theorem twinDetach_acts (h : Commanded s q (twinReg 0x008) 2) (hpaired : s.twin.state = .paired) :
    ∃ t, exec (.twinDetach q) s = .next t ∧ t.twin.state = .lull ∧ OnlyTouches [.regs, .mgmt, .out, .twin, .col] s t := by
  obtain ⟨hok, hlull⟩ := twinDetach_lulls (s := readied s q (twinReg 8) 2 twinPage) (by rw [readied_twin]; exact hpaired)
  obtain ⟨t, ht, hleaves, _⟩ := twin_command 2 h (by decide) (by decide) (by decide) rfl hok
  refine ⟨t, ht, ?_, hleaves.only (by simp) ((twinDetach_blank _ rfl rfl _).trans (readied_blank _ rfl ..))⟩
  rw [hleaves.twin]
  exact hlull

theorem twinResync_acts (h : Commanded s q (twinReg 0x008) 4) (hstate : s.twin.state = .paired ∨ s.twin.state = .solo) :
    ∃ t, exec (.twinResync q) s = .next t ∧ t.twin.state = .attach ∧ t.twin.rangeHeld = false
      ∧ t.twin.attachUp = s.clk.up ∧ OnlyTouches [.regs, .mgmt, .out, .twin, .col, .sys] s t := by
  let S := readied s q (twinReg 8) 4 twinPage
  have hsync : S.twinResync = (S.dropRange.startAttach, .ok) :=
    twinResync_attaches (by rw [show S.twin = s.twin from readied_twin ..]; exact hstate)
  obtain ⟨t, ht, hleaves, _⟩ := twin_command 4 h (by decide) (by decide) (by decide) (congrArg Effect.ofPair hsync) rfl
  obtain ⟨hattach, hup, hrange⟩ := startAttach_twin S.dropRange
  obtain ⟨hgiven, hclk⟩ := dropRange_gives S
  have htwin : t.twin = S.dropRange.startAttach.twin := hleaves.twin
  refine ⟨t, ht, ?_, ?_, ?_, hleaves.only (by simp) ?_⟩
  · rw [htwin, hattach]
  · rw [htwin, hrange, hgiven]
  · rw [htwin, hup, hclk, readied_clk]
  · exact (startAttach_blank _ rfl rfl rfl rfl rfl _).trans ((dropRange_blank _ rfl rfl S).trans (readied_blank _ rfl ..))

end

/-- Settles O20, one lemma for each command. -/
theorem serviceCommandsAct : Obligations.ServiceCommandsAct := fun _ _ _ _ _ =>
  ⟨calDisarm_disarms, calResume_lifts, kiteRelease_acts, elsRestore_starts, tickRoleWrite_pends, dumpTrigger_starts, twinPair_acts,
    twinDetach_acts, twinResync_acts⟩

end Sys2Proof.Machine
end

/-! PROOFS. How the chip is reset, climbs its stages and boots verified firmware (R324, R329, R173, R283, R235, R406). -/

section
namespace Sys2Proof.Machine

/-! The end of a meaning -/

/-- A state is another one with its pins settled and a queue put in place: how every command ends. -/
def Ends (t u : State) : Prop := ∃ cs, t = { settle u with pending := cs }

/-- What speaks of neither the pins nor the queue is the same at a command's end. -/
theorem Ends.any {t u : State} {α : Type} (h : Ends t u) (F : State → α) (hF : ∀ u cs, F { settle u with pending := cs } = F u) :
    F t = F u := by
  obtain ⟨cs, rfl⟩ := h
  exact hF u cs

section
variable {t u : State} (h : Ends t u)
include h

theorem Ends.regs : t.regs = u.regs := h.any State.regs fun _ _ => rfl
theorem Ends.hbm : t.hbm = u.hbm := h.any State.hbm fun _ _ => rfl
theorem Ends.clk : t.clk = u.clk := h.any State.clk fun _ _ => rfl
theorem Ends.cal : t.cal = u.cal := h.any State.cal fun _ _ => rfl
theorem Ends.sw : t.sw = u.sw := h.any State.sw fun _ _ => rfl
theorem Ends.tbl : t.tbl = u.tbl := h.any State.tbl fun _ _ => rfl
theorem Ends.pho : t.pho = u.pho := h.any State.pho fun _ _ => rfl
theorem Ends.mgmt : t.mgmt = u.mgmt := h.any State.mgmt fun _ _ => rfl
theorem Ends.fuse : t.fuse = u.fuse := h.any State.fuse fun _ _ => rfl
theorem Ends.col : t.col = u.col := h.any State.col fun _ _ => rfl
theorem Ends.twin : t.twin = u.twin := h.any State.twin fun _ _ => rfl
theorem Ends.aer : t.aer = u.aer := h.any State.aer fun _ _ => rfl
theorem Ends.flt : t.flt = u.flt := h.any State.flt fun _ _ => rfl
theorem Ends.dump : t.dump = u.dump := h.any State.dump fun _ _ => rfl
theorem Ends.out : t.out = u.out := h.any State.out fun _ _ => rfl
theorem Ends.sys : t.sys.unpinned = u.sys.unpinned := h.any (fun s => s.sys.unpinned) fun _ _ => rfl
theorem Ends.rget (a : Nat) : t.rget a = u.rget a := State.rget_congr h.regs a
theorem Ends.bget (a b : Nat) : t.bget a b = u.bget a b := h.any (fun s => s.bget a b) fun _ _ => rfl
theorem Ends.fget (a hi lo : Nat) : t.fget a hi lo = u.fget a hi lo := h.any (fun s => s.fget a hi lo) fun _ _ => rfl

end

/-- What is unchanged where a meaning stops is unchanged at its end. -/
theorem Ends.only {l : List Part} {s t u : State} (h : Ends t u) (hq : t.pending = s.pending) (hu : OnlyTouches l s u) :
    OnlyTouches l s t := by
  obtain ⟨cs, rfl⟩ := h
  exact ⟨hq, fun p hp => by cases p <;> exact hu.2 _ hp⟩

/-- A command comes to its end, and has kept to its parts. -/
theorem exec_ends {c : Instr} {s u : State} (he : exec c s = done s u) :
    ∃ t, exec c s = .next t ∧ Ends t u ∧ OnlyTouches (mayTouch c) s t :=
  ⟨_, he, ⟨_, rfl⟩, commandsKeepToTheirParts c s _ he⟩

/-- A command that has changed less than it may. -/
theorem exec_ends_only {c : Instr} {s u : State} {l : List Part} (he : exec c s = done s u) (h : OnlyTouches l s u) :
    ∃ t, exec c s = .next t ∧ Ends t u ∧ OnlyTouches l s t :=
  ⟨_, he, ⟨_, rfl⟩, h.settled⟩

/-! The staged start -/

variable {s : State}

theorem coldReset_acts {n : Nat} (straps : BitVec 3) (hot : Int) (io : Bool) (hn : 25 ≤ n) :
    exec (.coldReset n straps hot io) s = done s (s.coldReset straps (if s.sys.thermalLatch && io then 3 else 0)
      (s.sys.thermalLatch && io && decide (1000 ≤ hot))) := by
  show done s (if 25 ≤ n then _ else s) = _
  rw [if_pos hn]

theorem stageAReached_serves {temp : Int} (hs : s.sys.serving = false) (hl : s.sys.thermalLatch = false) (ht : 0 ≤ temp) :
    ∃ t, exec (.stageAReached temp) s = .next t ∧ t.sys.serving = true ∧ t.sys.stage = 0 ∧ OnlyTouches [.sys] s t := by
  have he : exec (.stageAReached temp) s = done s (s.setSys fun y => { y with serving := true, stage := 0 }) := by
    show done s (if _ then _ else s) = _
    rw [if_pos ⟨by simp [hs], by simp [hl], ht⟩]
  exact ⟨_, he, rfl, rfl, commandsKeepToTheirParts (.stageAReached temp) _ _ he⟩

/-- Verification, where it runs, leaves what `verifySlots` says of both slots (R329). -/
theorem firmwareVerify_boots (a b : Bytes) (hs : s.sys.serving = true) (h0 : s.sys.stage = 0) (hv : s.sys.verified = false)
    (hstrap : s.sys.straps.getLsbD 2 = false) (hf : s.fatal = false) :
    ∃ t, exec (.firmwareVerify a b) s = .next t ∧ t.sys.verified = true ∧ OnlyTouches [.regs, .mgmt, .aer, .sys] s t
      ∧ t.sys.slotAValid = (s.fwFails a).isNone ∧ t.sys.slotBValid = (s.fwFails b).isNone
      ∧ (s.fwFails a = none → s.fwFails b ≠ none → t.sys.fwSlot = some 0 ∧ t.sys.fwMeasure = sha512 (fwImage a))
      ∧ (s.fwFails a ≠ none → s.fwFails b = none → t.sys.fwSlot = some 1 ∧ t.sys.fwMeasure = sha512 (fwImage b))
      ∧ (s.fwFails a = none → s.fwFails b = none → t.sys.fwSlot = some (if fwFirst a b then 0 else 1))
      ∧ (s.fwFails a ≠ none → s.fwFails b ≠ none → t.sys.fwSlot = s.sys.fwSlot ∧ t.bget (secReg 0x010) 24 = true) := by
  have he : exec (.firmwareVerify a b) s = done s (s.verifySlots a b) := by
    show done s (if _ then _ else s) = _
    rw [if_pos ⟨hs, h0, by rw [hv]; rfl, by rw [hstrap]; rfl, by rw [hf]; rfl⟩]
  obtain ⟨t, ht, hend, honly⟩ := exec_ends he
  obtain ⟨hver, ha, hb, hrest⟩ := verifySlots_spec s a b
  have hslot : t.sys.fwSlot = (s.verifySlots a b).sys.fwSlot := hend.any (fun s => s.sys.fwSlot) fun _ _ => rfl
  have hmeasure : t.sys.fwMeasure = (s.verifySlots a b).sys.fwMeasure := hend.any (fun s => s.sys.fwMeasure) fun _ _ => rfl
  rw [← hslot, ← hmeasure, ← hend.bget] at hrest
  exact ⟨t, ht, (hend.any (fun s => s.sys.verified) fun _ _ => rfl).trans hver, honly,
    (hend.any (fun s => s.sys.slotAValid) fun _ _ => rfl).trans ha, (hend.any (fun s => s.sys.slotBValid) fun _ _ => rfl).trans hb, hrest⟩

/-- Stage B: the optics come up, and a module that is there and suitable leaves its eye-safe idle (R173). -/
theorem stageBReached_lights (hs : s.sys.serving = true) (h0 : s.sys.stage = 0) (hfw : s.sys.fwSlot.isSome = true) (hf : s.fatal = false) :
    ∃ t, exec .stageBReached s = .next t ∧ t.sys.stage = 1 ∧ OnlyTouches [.regs, .sw, .pho, .mgmt, .col, .aer, .flt, .sys, .out] s t
      ∧ ∀ m < 32, (s.els m).present = true → (s.els m).suitable = true → (t.els m).safeIdle = false := by
  have he : exec .stageBReached s = done s (s.enterStage 1).startOptics := by
    show done s (if _ then _ else s) = _
    rw [if_pos ⟨hs, h0, hfw, by rw [hf]; rfl⟩]
  obtain ⟨t, ht, hend, honly⟩ := exec_ends he
  have hsys : (s.enterStage 1).startOptics.sys.unpinned = (s.enterStage 1).sys.unpinned :=
    (onlyTouches_of_blank (l := [.regs, .sw, .pho, .mgmt, .col, .aer, .flt, .out])
      (startOptics_blank _ (by decide) (by decide) (by decide) (by decide) (by decide) (by decide) (by decide) (by decide) _)).2 .sys
      (by decide)
  have hpho : (s.enterStage 1).pho = s.pho :=
    (onlyTouches_of_blank (l := [.regs, .mgmt, .aer, .sys])
      (enterStage_blank _ (by decide) (by decide) (by decide) (by decide) s 1)).2 .pho (by decide)
  have hels : ∀ m, (s.enterStage 1).els m = s.els m := by
    intro m
    unfold State.els
    rw [hpho]
  refine ⟨t, ht, stage_of (hend.sys.trans (hsys.trans (enterStage_sys s 1))), honly, ?_⟩
  intro m hm hpres hsuit
  rw [← hels] at hpres hsuit
  rw [hend.any (fun s => s.els m) fun _ _ => rfl]
  exact startOptics_els _ m hm hpres hsuit

/-- Stage C with every channel trained and the tick aligned (R283, R324). -/
theorem stageCReached_trains (hs : s.sys.serving = true) (h1 : s.sys.stage = 1) (hon : s.hbmOn = false) (htrip : s.sys.tripped = false)
    (hf : s.fatal = false) (ha : s.clk.aligned = true) :
    ∃ t, exec (.stageCReached []) s = .next t ∧ t.sys.stage = 2 ∧ (∀ k < 256, mget t.sys.trained k = some s.clk.up)
      ∧ OnlyTouches [.regs, .hbm, .sw, .pho, .mgmt, .col, .aer, .flt, .sys, .out] s t := by
  have he : exec (.stageCReached []) s = done s s.startSchedule := by
    show done s (if _ then if _ then _ else if _ then _ else _ else s) = _
    rw [if_pos ⟨hs, h1, by rw [hon]; rfl, by rw [htrip]; rfl, by rw [hf]; rfl⟩, if_neg (by simp), if_pos ha]
  obtain ⟨t, ht, hend, honly⟩ := exec_ends he
  have hsys := hend.sys.trans (startSchedule_sys s)
  have hstage : t.sys.stage = 2 := (stage_of hsys).trans (stage_of (enterStage_sys s 2))
  have htrained : t.sys.trained = (List.range 256).map fun k => (k, s.clk.up) := trained_of hsys
  refine ⟨t, ht, hstage, fun k hk => ?_, honly⟩
  rw [htrained]
  exact mget_range (fun _ => s.clk.up) 256 k hk

/-- A channel that fails training is named and the chip stays in Stage B (R283). -/
theorem stageCReached_fails (h : StackNo) (k : Fin 32) (hs : s.sys.serving = true) (h1 : s.sys.stage = 1) (hon : s.hbmOn = false)
    (htrip : s.sys.tripped = false) (hf : s.fatal = false) :
    ∃ t, exec (.stageCReached [(h, k)]) s = .next t ∧ t.sys.stage = 1 ∧ t.bget (hbmReg h.val 0x100) 0 = true
      ∧ t.fget (hbmReg h.val 0x100) 12 8 = k.val ∧ t.bget (hbmReg h.val 0x010) 24 = true ∧ OnlyTouches [.regs, .mgmt, .aer] s t := by
  have he : exec (.stageCReached [(h, k)]) s = done s (s.trainFails (h, k)) := by
    show done s (if _ then if _ then _ else _ else s) = _
    rw [if_pos ⟨hs, h1, by rw [hon]; rfl, by rw [htrip]; rfl, by rw [hf]; rfl⟩, if_pos (by simp)]
    rfl
  obtain ⟨t, ht, hend, honly⟩ := exec_ends_only (l := [.regs, .mgmt, .aer]) he
    (onlyTouches_of_blank (trainFails_blank _ (by decide) (by decide) (by decide) s (h, k)))
  obtain ⟨hbad, hch, hattn, hsys⟩ := trainFails_spec s h k
  exact ⟨t, ht, (stage_of (hend.sys.trans hsys)).trans h1, (hend.bget ..).trans hbad, (hend.fget ..).trans hch,
    (hend.bget ..).trans hattn, honly⟩

/-- Entering a stage leaves the registers of the dies' pages. -/
theorem enterStage_below (s : State) (n a : Nat) (h : a < glbReg 0) : (s.enterStage n).rget a = s.rget a :=
  enterStage_rget s n a (by unfold glbReg telReg at *; omega) (by omega) (.inl (by omega))

/-- Stage D: every engine and Update Unit is tested and none is found bad (R235, R266). -/
theorem stageDReached_tests (hs : s.sys.serving = true) (h2 : s.sys.stage = 2) (htrip : s.sys.tripped = false) (hf : s.fatal = false) :
    ∃ t, exec (.stageDReached [] []) s = .next t ∧ t.sys.stage = 3 ∧ (∀ e < 128, t.engState e = 0) ∧ (∀ n < 32, t.uuState n = 0)
      ∧ OnlyTouches [.regs, .mgmt, .fuse, .col, .aer, .sys] s t := by
  have he : exec (.stageDReached [] []) s = done s ((stageTests (List.range 128) (List.range 32) s).enterStage 3) := by
    show done s (if _ then _ else s) = _
    rw [if_pos ⟨hs, h2, by rw [htrip]; rfl, by rw [hf]; rfl⟩]
    rfl
  obtain ⟨t, ht, hend, honly⟩ := exec_ends he
  refine ⟨t, ht, stage_of (hend.sys.trans (enterStage_sys _ 3)), fun e he128 => ?_, fun n hn => ?_, honly⟩
  · rw [hend.any (fun s => s.engState e) fun _ _ => rfl]
    have htested := stageTests_eng (List.range 128) (List.range 32) List.nodup_range e (List.mem_range.mpr he128) he128
      (fun n hn => List.mem_range.mp hn) s
    exact (State.fget_congr _ _ _ (enterStage_below _ 3 _ (by unfold engReg glbReg; omega))).trans htested
  · rw [hend.any (fun s => s.uuState n) fun _ _ => rfl]
    have htested := stageTests_uu (List.range 128) (List.range 32) List.nodup_range n (List.mem_range.mpr hn) s
    exact (State.fget_congr _ _ _ (enterStage_below _ 3 _ (by unfold uuReg glbReg; omega))).trans htested

/-- Settles O21, one lemma for each step of the start. -/
theorem chipStarts : Obligations.ChipStarts := by
  intro s
  refine ⟨fun n straps hot io hn => ?_, fun _ => stageAReached_serves, firmwareVerify_boots, stageBReached_lights,
    stageCReached_trains, stageCReached_fails, stageDReached_tests⟩
  exact ⟨_, coldReset_acts straps hot io hn, rfl, rfl, rfl, rfl, rfl, rfl, rfl, rfl, rfl, rfl, rfl, rfl, rfl, rfl, rfl, rfl, rfl⟩

end Sys2Proof.Machine
end

/-! PROOFS. Tick markers, upstream timeouts and PTP messages (R35 to R41, R80). -/

section
namespace Sys2Proof.Machine

/-! Markers of the upstream in use -/

/-- The error of a marker is measured, and the marker is taken. -/
def State.measured (s : State) (err : Int) : State :=
  (s.rset (tickReg 0x140) (wrap 16 (err / 10))).setClk fun c => { c with lastTaken := some c.up, holdover := false }

theorem measured_rget (s : State) (err : Int) : (s.measured err).rget (tickReg 0x140) = wrap 16 (err / 10) := by
  unfold State.measured
  rw [State.rget_congr (State.setClk_regs _ _), State.rget_rset_same, Nat.mod_eq_of_lt (wrap_lt _)]

theorem measured_rget_ne (s : State) (err : Int) {a : Nat} (h : a ≠ tickReg 0x140) : (s.measured err).rget a = s.rget a := by
  unfold State.measured
  rw [State.rget_congr (State.setClk_regs _ _), State.rget_rset_ne _ _ _ _ h]

theorem measured_clk (s : State) (err : Int) : (s.measured err).clk = { s.clk with lastTaken := some s.clk.up, holdover := false } := rfl

theorem measured_blank (K : Part → Bool) (hr : K .regs = true) (hc : K .clk = true) (s : State) (err : Int) :
    (s.measured err).blank K = s.blank K := (setClk_blank _ _ _ hc).trans (rset_blank _ _ _ _ hr)

/-- The run of bad markers after this one (R38). -/
def State.badNext (s : State) (err : Int) : Nat := if errGood err then 0 else s.clk.badRun + 1

/-- The run of good markers after this one (R36). -/
def State.goodNext (s : State) (missed : Bool) (err : Int) : Nat := if !errGood err then 0 else if missed then 1 else s.clk.goodRun + 1

theorem takeMarker_aligned {s : State} (h : s.clk.aligned = true) (missed : Bool) (count : TickNo) (err : Int) :
    s.takeMarker missed count err =
      if 16 ≤ s.badNext err then ((s.measured err).setClk fun c => { c with badRun := s.badNext err }).loseAlignment 2
      else (s.measured err).setClk fun c => { c with badRun := s.badNext err } :=
  if_pos (h : (s.measured err).clk.aligned = true)

theorem takeMarker_unaligned {s : State} (h : s.clk.aligned = false) (missed : Bool) (count : TickNo) (err : Int) :
    s.takeMarker missed count err =
      if 16 ≤ s.goodNext missed err then
        ((s.measured err).setClk fun c => { c with goodRun := s.goodNext missed err }).becomeAligned count
      else (s.measured err).setClk fun c => { c with goodRun := s.goodNext missed err } :=
  if_neg (fun he => Bool.false_ne_true (h.symm.trans (he : (s.measured err).clk.aligned = true)))

/-- Whatever a taken marker does to alignment, its error is measured, holdover ends and the upstream stays. -/
def Measured (s : State) (err : Int) (u : State) : Prop :=
  u.rget (tickReg 0x140) = wrap 16 (err / 10) ∧ u.clk.upstream = s.clk.upstream ∧ u.clk.lastTaken = some s.clk.up ∧ u.clk.holdover = false

theorem Measured.lose {s u : State} {err : Int} (h : Measured s err u) (cause : Nat) : Measured s err (u.loseAlignment cause) := by
  obtain ⟨hrget, hup, htaken, _⟩ := h
  obtain ⟨hclk, _, _, _, hother⟩ := lose_spec u cause
  refine ⟨(hother _ (by decide) (by decide) (by decide) (by decide)).trans hrget, ?_, ?_, ?_⟩
  · rw [hclk]; exact hup
  · rw [hclk]; exact htaken
  · rw [hclk]

theorem Measured.become {s u : State} {err : Int} (h : Measured s err u) (count : TickNo) : Measured s err (u.becomeAligned count) := by
  obtain ⟨hrget, hup, htaken, _⟩ := h
  have hclk := become_spec u count
  refine ⟨(become_rget u count).trans hrget, ?_, ?_, ?_⟩
  · rw [hclk]; exact hup
  · rw [hclk]; exact htaken
  · rw [hclk]

theorem takeMarker_measured (s : State) (missed : Bool) (count : TickNo) (err : Int) : Measured s err (s.takeMarker missed count err) := by
  have hbad : ∀ n, Measured s err ((s.measured err).setClk fun c => { c with badRun := n }) := fun _ =>
    ⟨measured_rget s err, rfl, rfl, rfl⟩
  have hgood : ∀ n, Measured s err ((s.measured err).setClk fun c => { c with goodRun := n }) := fun _ =>
    ⟨measured_rget s err, rfl, rfl, rfl⟩
  cases ha : s.clk.aligned with
  | true =>
    rw [takeMarker_aligned ha]
    split
    · exact (hbad _).lose 2
    · exact hbad _
  | false =>
    rw [takeMarker_unaligned ha]
    split
    · exact (hgood _).become count
    · exact hgood _

/-- The state in which a marker of the upstream in use is taken: it has been valid just now. -/
def State.validNow (s : State) (i : Fin 4) : State := s.setClk fun c => { c with lastValid := mput c.lastValid i.val c.up }

/-- Whether a marker before this one was missed (R36). -/
def State.missedOne (s : State) (i : Fin 4) : Bool :=
  match mget s.clk.lastValid i.val with
  | some u => decide (4 < s.clk.up - u)
  | none => true

/-- A follower's upstream in use, in service, marks a tick of its own pod. -/
structure MarkerOfUpstream (s : State) (port : PortNo) (pod : BitVec 16) (i : Fin 4) : Prop where
  follower : s.isMaster = false
  named : s.upstreamOf port.val = some i.val
  stage : s.atStage 1 = true
  lit : (s.portLanes port.val).any s.laneInService = true
  pod : pod.toNat = s.fget (tickReg 0x104) 15 0
  inUse : s.clk.upstream = some i
  first : ∀ j, j < i.val → s.delivers j = false

section
variable {s : State} {port : PortNo} {pod : BitVec 16} {i : Fin 4}

theorem MarkerOfUpstream.taken (h : MarkerOfUpstream s port pod i) (count : TickNo) (err : Int) :
    exec (.tickMarkerRx port pod count err) s = done s ((s.validNow i).takeMarker (s.missedOne i)
      (count + BitVec.ofNat 48 (s.rget (tickReg (0x130 + 4 * i.val)) / 400000)) err) := by
  have hchosen := heard_spec s i port.val (upstreamOf_port s _ _ h.named) h.inUse h.first
  show done s (s.markerRx port.val pod.toNat count err) = _
  unfold State.markerRx
  rw [h.follower, if_neg Bool.false_ne_true, h.named]
  dsimp only
  rw [h.stage, h.lit, if_neg (by simp), if_neg (not_not_intro h.pod), hchosen]
  have huse : (s.validNow i).clk.upstream.map Fin.val = some i.val := congrArg (Option.map Fin.val) h.inUse
  exact congrArg (done s) (if_pos huse)

/-- A good marker at an aligned follower measures its error and nothing else (R38). -/
theorem takeMarker_holds (missed : Bool) (count : TickNo) {err : Int} (ha : s.clk.aligned = true) (hg : errGood err = true) :
    s.takeMarker missed count err = (s.measured err).setClk fun c => { c with badRun := 0 } := by
  have hn : s.badNext err = 0 := if_pos hg
  rw [takeMarker_aligned ha, hn]
  rfl

/-- The sixteenth bad marker in a row loses alignment (R38). -/
theorem takeMarker_loses (missed : Bool) (count : TickNo) {err : Int} (ha : s.clk.aligned = true) (hg : errGood err = false)
    (hrun : 15 ≤ s.clk.badRun) :
    s.takeMarker missed count err = ((s.measured err).setClk fun c => { c with badRun := s.clk.badRun + 1 }).loseAlignment 2 := by
  have hn : s.badNext err = s.clk.badRun + 1 := if_neg (by rw [hg]; exact Bool.false_ne_true)
  rw [takeMarker_aligned ha, hn]
  exact if_pos (Nat.succ_le_succ hrun)

/-- The sixteenth good marker in a row with none missed aligns (R36). -/
theorem takeMarker_aligns (count : TickNo) {err : Int} (ha : s.clk.aligned = false) (hg : errGood err = true) (hrun : 15 ≤ s.clk.goodRun) :
    s.takeMarker false count err
      = ((s.measured err).setClk fun c => { c with goodRun := s.clk.goodRun + 1 }).becomeAligned count := by
  have hn : s.goodNext false err = s.clk.goodRun + 1 := by
    unfold State.goodNext
    rw [hg]
    rfl
  rw [takeMarker_unaligned ha, hn]
  exact if_pos (Nat.succ_le_succ hrun)

theorem validNow_measured_blank (K : Part → Bool) (hr : K .regs = true) (hc : K .clk = true) (err : Int) (g : TickSt → TickSt) :
    (((s.validNow i).measured err).setClk g).blank K = s.blank K := by
  rw [setClk_blank _ _ _ hc, measured_blank K hr hc]
  exact setClk_blank _ _ _ hc

end

/-- Settles O22: what is measured at every marker of the upstream in use, and the three outcomes for alignment. -/
theorem tickMarkersAct : Obligations.TickMarkersAct := by
  intro s port pod count err i hm hnamed hstage hlit hpod huse hfirst
  have he := (MarkerOfUpstream.mk hm hnamed hstage hlit hpod huse hfirst).taken count err
  have hmeasured := takeMarker_measured (s.validNow i) (s.missedOne i)
    (count + BitVec.ofNat 48 (s.rget (tickReg (0x130 + 4 * i.val)) / 400000)) err
  obtain ⟨hrget, hupstream, hlast, hhold⟩ := hmeasured
  obtain ⟨t, ht, hend, honly⟩ := exec_ends he
  refine ⟨t, ht, (hend.rget _).trans hrget, ?_, ?_, ?_, ?_, ?_, ?_⟩
  · rw [hend.clk]
    exact hupstream.trans huse
  · rw [hend.clk]
    exact hlast
  · rw [hend.clk]
    exact hhold
  case refine_4 =>
    intro ha hg
    rw [takeMarker_holds _ _ (s := s.validNow i) ha hg] at hend
    rw [hend.clk]
    exact ⟨ha, rfl, rfl, fun a hne => (hend.rget a).trans (measured_rget_ne (s.validNow i) err hne),
      hend.only honly.1 (onlyTouches_of_blank (validNow_measured_blank _ (by decide) (by decide) err _))⟩
  case refine_5 =>
    intro ha hg hrun
    rw [takeMarker_loses _ _ (s := s.validNow i) ha hg hrun] at hend
    obtain ⟨hclk, hsuspended, hcount, _, _⟩ := lose_spec (((s.validNow i).measured err).setClk fun c =>
      { c with badRun := (s.validNow i).clk.badRun + 1 }) 2
    refine ⟨?_, fun p hp => ?_, ?_, honly⟩
    · rw [hend.clk, hclk]
    · rw [State.pcal_of_cal hend.cal]
      exact hsuspended p hp
    · refine (hend.rget _).trans (hcount.trans ?_)
      exact congrArg (satAdd 64 · 1) (measured_rget_ne (s.validNow i) err (by decide))
  case refine_6 =>
    intro u ha hg hu hup hrun
    have hnone : s.missedOne i = false := by
      unfold State.missedOne
      rw [hu]
      exact decide_eq_false (by omega)
    rw [hnone, takeMarker_aligns _ (s := s.validNow i) ha hg hrun] at hend
    rw [hend.clk, become_spec]
    exact ⟨rfl, rfl, rfl, hend.only honly.1 (onlyTouches_of_blank ((becomeAligned_blank _ (by decide) (by decide) (by decide) _ _).trans
      (validNow_measured_blank _ (by decide) (by decide) err _)))⟩

/-! Timeouts -/

section
variable {s : State}

theorem delivers_of_mget {u : State} {j : Nat} (hr : u.regs = s.regs) (hup : u.clk.up = s.clk.up)
    (hl : mget u.clk.lastValid j = mget s.clk.lastValid j) : u.delivers j = s.delivers j := by
  have hport : u.upstreamPort j = s.upstreamPort j := by
    unfold State.upstreamPort State.bget State.fget
    simp only [State.rget_congr hr]
  unfold State.delivers
  rw [hl, hup, hport]

/-- An upstream is forgotten. -/
def State.forgotten (s : State) (idx : Fin 4) : State := s.setClk fun c => { c with lastValid := mdel c.lastValid idx.val }

theorem forgotten_delivers {idx : Fin 4} (h : ∀ j, j ≠ idx.val → s.delivers j = false) (j : Nat) : (s.forgotten idx).delivers j = false := by
  by_cases hj : j = idx.val
  · unfold State.delivers
    rw [show mget (s.forgotten idx).clk.lastValid j = none from hj ▸ mget_mdel_same _ _]
  · exact (delivers_of_mget (s := s) (u := s.forgotten idx) rfl rfl (mget_mdel_ne _ _ _ hj)).trans (h j hj)

/-- The tick state with no upstream in use. -/
def TickSt.unled (c : TickSt) : TickSt := if c.upstream = none then c else { c with upstream := none, goodRun := 0, badRun := 0 }

theorem unled_fields (c : TickSt) : c.unled.upstream = none ∧ c.unled.aligned = c.aligned ∧ c.unled.holdover = c.holdover
    ∧ c.unled.lastValid = c.lastValid ∧ c.unled.lastTaken = c.lastTaken ∧ c.unled.up = c.up := by
  unfold TickSt.unled
  split
  · next h => exact ⟨h, rfl, rfl, rfl, rfl, rfl⟩
  · exact ⟨rfl, rfl, rfl, rfl, rfl, rfl⟩

/-- With no upstream that delivers there is none in use (R37). -/
theorem chooseUpstream_none (h : ∀ j, s.delivers j = false) : s.chooseUpstream = s.setClk TickSt.unled := by
  have hnone : (([0, 1, 2, 3] : List (Fin 4)).find? fun i => s.delivers i.val) = none :=
    List.find?_eq_none.mpr fun i _ => by rw [h]; exact Bool.false_ne_true
  unfold State.chooseUpstream
  rw [hnone]
  rfl

/-- An aligned follower without an upstream enters holdover (R37). -/
theorem checkHoldover_enters (hm : s.isMaster = false) (ha : s.clk.aligned = true) (hu : s.clk.upstream = none)
    (hh : s.clk.holdover = false) (ho : s.holdoverOver = false) : s.checkHoldover = s.setClk fun c => { c with holdover := true } := by
  unfold State.checkHoldover
  rw [hm, ha, hu, hh, ho]
  rfl

theorem upstreamMarkerTimeout_holds {idx : Fin 4} {u : Nat} (hu : mget s.clk.lastValid idx.val = some u) (hup : u + 8 ≤ s.clk.up)
    (hd : ∀ j, j ≠ idx.val → s.delivers j = false) (hm : s.isMaster = false) (ha : s.clk.aligned = true)
    (hh : s.clk.holdover = false) (ho : s.holdoverOver = false) :
    ∃ t, exec (.upstreamMarkerTimeout idx) s = .next t ∧ mget t.clk.lastValid idx.val = none ∧ t.clk.upstream = none
      ∧ t.clk.holdover = true ∧ t.clk.aligned = true ∧ OnlyTouches [.clk] s t := by
  obtain ⟨hnone, haligned, hholdover, hvalid, htaken, hclock⟩ := unled_fields (s.forgotten idx).clk
  have hover : ((s.forgotten idx).setClk TickSt.unled).holdoverOver = s.holdoverOver := by
    unfold State.holdoverOver
    rw [State.setClk_clk, htaken, hclock]
    rfl
  have he : exec (.upstreamMarkerTimeout idx) s
      = done s (((s.forgotten idx).setClk TickSt.unled).setClk fun c => { c with holdover := true }) := by
    show done s (match mget s.clk.lastValid idx.val with
      | some u => if 8 ≤ s.clk.up - u then (s.forgotten idx).chooseUpstream.checkHoldover else s
      | none => s) = _
    rw [hu]
    dsimp only
    rw [if_pos (by omega), chooseUpstream_none (forgotten_delivers hd), checkHoldover_enters
      (s := (s.forgotten idx).setClk TickSt.unled) hm (haligned.trans ha) hnone (hholdover.trans hh) (hover.trans ho)]
  obtain ⟨t, ht, hend, honly⟩ := exec_ends_only (l := [.clk]) he (onlyTouches_of_blank
    ((setClk_blank _ _ _ (by decide)).trans ((setClk_blank _ _ _ (by decide)).trans (setClk_blank _ _ _ (by decide)))))
  refine ⟨t, ht, ?_, ?_, ?_, ?_, honly⟩
  · rw [hend.clk]
    exact (congrArg (fun m => mget m idx.val) hvalid).trans (mget_mdel_same _ _)
  · rw [hend.clk]
    exact hnone
  · rw [hend.clk]
    rfl
  · rw [hend.clk]
    exact haligned.trans ha

theorem holdoverExpiry_loses (hm : s.isMaster = false) (hh : s.clk.holdover = true) (ha : s.clk.aligned = true) (ho : s.holdoverOver = true) :
    ∃ t, exec .holdoverExpiry s = .next t ∧ t.clk.aligned = false ∧ t.clk.holdover = false
      ∧ (∀ p, p < 1024 → (t.pcal p).suspended = true) ∧ t.bget (tickReg 0x010) 24 = true
      ∧ t.rget (tickReg 0x1A8) = satAdd 64 (s.rget (tickReg 0x1A8)) 1
      ∧ OnlyTouches [.regs, .clk, .cal, .mgmt, .aer] s t := by
  have he : exec .holdoverExpiry s = done s (s.loseAlignment 1) := by
    show done s (if !s.isMaster && s.clk.holdover && s.clk.aligned && s.holdoverOver then _ else s) = _
    rw [hm, hh, ha, ho]
    rfl
  obtain ⟨t, ht, hend, honly⟩ := exec_ends he
  obtain ⟨hclk, hsuspended, hcount, hattn, _⟩ := lose_spec s 1
  refine ⟨t, ht, ?_, ?_, fun p hp => ?_, (hend.bget ..).trans hattn, (hend.rget _).trans hcount, honly⟩
  · rw [hend.clk, hclk]
  · rw [hend.clk, hclk]
  · rw [State.pcal_of_cal hend.cal]
    exact hsuspended p hp

/-- A latency echo that is lost is forgotten and counted (R80). -/
theorem echoLost_counts {e : Echo} (hmem : e ∈ s.clk.echoes) (hlate : e.sentUp + 32 ≤ s.clk.up) :
    ∃ t, exec (.echoLost e.id) s = .next t ∧ (∀ x ∈ t.clk.echoes, x.id ≠ e.id)
      ∧ (∀ x ∈ s.clk.echoes, x.id ≠ e.id → x ∈ t.clk.echoes)
      ∧ t.rget (tickReg 0x198) = satAdd 64 (s.rget (tickReg 0x198)) 1 ∧ (∀ a, a ≠ tickReg 0x198 → t.rget a = s.rget a)
      ∧ OnlyTouches [.regs, .clk] s t := by
  have he : exec (.echoLost e.id) s
      = done s ((s.setClk fun c => { c with echoes := c.echoes.filter fun x => x.id != e.id }).bump (tickReg 0x198)) := by
    have hany : (s.clk.echoes.any fun x => x.id == e.id && decide (32 ≤ s.clk.up - x.sentUp)) = true :=
      List.any_eq_true.mpr ⟨e, hmem, by simp; omega⟩
    exact congrArg (done s) (if_pos hany)
  obtain ⟨t, ht, hend, honly⟩ := exec_ends he
  have hclk : t.clk.echoes = s.clk.echoes.filter fun x => x.id != e.id := congrArg TickSt.echoes (hend.clk.trans (State.bump_clk ..))
  refine ⟨t, ht, fun x hx => ?_, fun x hx hne => ?_, (hend.rget _).trans ((State.rget_bump ..).trans rfl), fun a hne => ?_, honly⟩
  · rw [hclk] at hx
    simpa using (List.mem_filter.mp hx).2
  · rw [hclk]
    exact List.mem_filter.mpr ⟨hx, by simpa using hne⟩
  · exact (hend.rget a).trans ((State.rget_bump_ne _ _ _ _ hne).trans (State.rget_congr (State.setClk_regs _ _) a))

end

/-- Settles O23, one lemma for each timeout. -/
theorem tickTimeoutsAct : Obligations.TickTimeoutsAct := fun _ =>
  ⟨fun _ _ => upstreamMarkerTimeout_holds, holdoverExpiry_loses, fun _ => echoLost_counts⟩

/-! PTP -/

section
variable {s : State} {via : PtpVia} {n : Nat}

theorem ptpPort_via (s : State) (via : PtpVia) : (s.ptpPort via).via = via := by
  unfold State.ptpPort
  cases hf : s.clk.ptpPorts.find? fun p => p.via == via with
  | none => rfl
  | some p => simpa using List.find?_some hf

/-- The parent's Sync is stamped (R41). -/
theorem ptpMessageRx_stamps {m : Bytes} (hlen : 44 ≤ m.length) (hver : byteAt m 1 % 16 = 2) (hdom : byteAt m 4 = s.fget (tickReg 0x10C) 6 0)
    (htype : byteAt m 0 % 16 = 0) (hparent : s.clk.ptpParent = some via) :
    ∃ t, exec (.ptpMessageRx via m n) s = .next t ∧ (t.ptpPort via).t2 = some n ∧ (t.ptpPort via).syncSeq = fld m 30 2
      ∧ (∀ v, v ≠ via → t.ptpPort v = s.ptpPort v) ∧ OnlyTouches [.clk] s t := by
  have hvia := ptpPort_via s via
  have he : exec (.ptpMessageRx via m n) s
      = done s (s.setPtpPort { s.ptpPort via with t2 := some n, t1 := none, syncSeq := fld m 30 2 }) := by
    show done s (s.ptpRx via m n) = _
    unfold State.ptpRx
    rw [if_neg (by simp [hver, hdom]; omega)]
    dsimp only
    rw [htype, hparent]
    simp
  obtain ⟨t, ht, hend, honly⟩ := exec_ends_only (l := [.clk]) he (onlyTouches_of_blank (setPtpPort_blank _ (by decide) ..))
  have hport : ∀ v, t.ptpPort v = (s.setPtpPort { s.ptpPort via with t2 := some n, t1 := none, syncSeq := fld m 30 2 }).ptpPort v :=
    fun v => hend.any (fun s => s.ptpPort v) fun _ _ => rfl
  have hsame := ptpPort_set s { s.ptpPort via with t2 := some n, t1 := none, syncSeq := fld m 30 2 }
  rw [hvia] at hsame
  refine ⟨t, ht, ?_, ?_, fun v hv => ?_, honly⟩
  · rw [hport, hsame]
  · rw [hport, hsame]
  · rw [hport, ptpPort_set_ne _ _ _ (by rw [hvia]; exact hv)]

/-- A Sync leaves on a port that is not the parent's (R41). -/
theorem ptpMessageTx_syncs (hc : s.ptpCarries via = true) (hp : s.bestMaster.clk.ptpParent ≠ some via) :
    ∃ t, exec (.ptpMessageTx via .sync n) s = .next t
      ∧ t.out = .ptp via (s.ptpHeader 0 44 0x0200 (((s.ptpPort via).syncSeq + 1) % 65536) via ++ zeros 10) :: s.out
      ∧ (t.ptpPort via).syncSeq = ((s.ptpPort via).syncSeq + 1) % 65536 ∧ (t.ptpPort via).t1 = some n
      ∧ OnlyTouches [.clk, .out] s t := by
  let p : PtpPort := { s.ptpPort via with syncSeq := ((s.ptpPort via).syncSeq + 1) % 65536, t1 := some n }
  have hcarries : s.bestMaster.ptpCarries via = true := by
    cases via <;> exact hc
  have he : exec (.ptpMessageTx via .sync n) s
      = done s ((s.bestMaster.setPtpPort p).send (.ptp via (s.ptpHeader 0 44 0x0200 p.syncSeq via ++ zeros 10))) := by
    show done s (s.ptpTx via .sync n) = _
    unfold State.ptpTx
    dsimp only
    rw [hcarries, beq_false_of_ne hp]
    rfl
  obtain ⟨t, ht, hend, honly⟩ := exec_ends he
  have hport : t.ptpPort via = p := by
    have hsame := ptpPort_set s.bestMaster p
    rw [show p.via = via from ptpPort_via s via] at hsame
    exact (hend.any (fun s => s.ptpPort via) fun _ _ => rfl).trans hsame
  refine ⟨t, ht, hend.out, ?_, ?_, honly⟩
  · rw [hport]
  · rw [hport]

end

/-- Settles O24, one lemma for each message. -/
theorem ptpMessagesAct : Obligations.PtpMessagesAct := fun _ _ _ => ⟨fun _ => ptpMessageRx_stamps, ptpMessageTx_syncs⟩

end Sys2Proof.Machine
end

/-! PROOFS. Calendar images install, and calendars latch, switch and are rewritten (R53, R54, R58, R351). -/

section
namespace Sys2Proof.Machine

/-- A reply that has left has left at the command's end. -/
theorem Ends.answered {s t u : State} {q : Req} {op : Nat} {a : Answer} (h : Ends t u) (ha : Answered s u q op a) :
    Answered s t q op a := by
  unfold Answered at ha ⊢
  rwa [h.out, h.mgmt]

theorem calReg_ne_replyLost (p o : Nat) (ho : o < 4096) : calReg p o ≠ GlbCtr.replyLost.reg := by
  rw [replyLost_reg]
  unfold calReg
  omega

/-! Images -/

/-- The registers of a shadow that is armed. -/
theorem armShadow_rget (s : State) (p gen epoch : Nat) (m : Map CalEntry) :
    (s.armShadow p gen epoch m).rget (calReg p 0x108) = gen % 2 ^ 64
      ∧ (s.armShadow p gen epoch m).rget (calReg p 0x110) = epoch % 2 ^ 64 := by
  have h1 : calReg p 0x108 ≠ calReg p 0x110 := by unfold calReg; omega
  have h2 : calReg p 0x108 ≠ calReg p 0x118 := by unfold calReg; omega
  have h3 : calReg p 0x110 ≠ calReg p 0x118 := by unfold calReg; omega
  unfold State.armShadow
  dsimp only
  rw [State.rget_rset_ne _ _ _ _ h2, State.rget_rset_ne _ _ _ _ h1, State.rget_rset_same, State.rget_rset_ne _ _ _ _ h3,
    State.rget_rset_same]
  exact ⟨rfl, rfl⟩

/-- The state that the installation of an image of one section leaves, before its reply. -/
def State.installed (s : State) (rest : List CalJob) (b : Bytes) (x : Section) (m : Map CalEntry) : State :=
  (((s.setCalSt fun c => { c with jobs := rest }).armShadow x.port (fld b 8 4) (fld b 12 6) m).setCalSt fun c =>
    { c with kites := s.cal.kites }).setSys fun y => { y with calImages := y.calImages ++ [(fld b 8 4, s.clk.tick, sha512 b)] }

theorem installed_cal (s : State) (rest : List CalJob) (b : Bytes) (x : Section) (m : Map CalEntry) :
    (s.installed rest b x m).cal.jobs = rest ∧ (s.installed rest b x m).cal.ports
      = mupd s.cal.ports x.port {} fun y => { y with shadow := m, armed := true, latched := false } := by
  have harm := arm_cal (s.setCalSt fun c => { c with jobs := rest }) x.port (fld b 8 4) (fld b 12 6) m
  constructor
  · exact congrArg CalSt.jobs harm
  · exact congrArg CalSt.ports harm

theorem installed_mgmt (s : State) (rest : List CalJob) (b : Bytes) (x : Section) (m : Map CalEntry) :
    (s.installed rest b x m).mgmt = s.mgmt := arm_mgmt (s.setCalSt fun c => { c with jobs := rest }) x.port (fld b 8 4) (fld b 12 6) m

theorem installed_out (s : State) (rest : List CalJob) (b : Bytes) (x : Section) (m : Map CalEntry) :
    (s.installed rest b x m).out = s.out := arm_out (s.setCalSt fun c => { c with jobs := rest }) x.port (fld b 8 4) (fld b 12 6) m

theorem installed_rget (s : State) (rest : List CalJob) (b : Bytes) (x : Section) (m : Map CalEntry) :
    (s.installed rest b x m).rget (calReg x.port 0x108) = fld b 8 4 % 2 ^ 64
      ∧ (s.installed rest b x m).rget (calReg x.port 0x110) = fld b 12 6 % 2 ^ 64 := by
  unfold State.installed
  rw [State.rget_congr (State.setSys_regs _ _), State.rget_congr (State.setSys_regs _ _), setCalSt_rget, setCalSt_rget]
  exact armShadow_rget ..

/-- Settles O25: one section and no Kite event, so `installImage` arms the section's port and answers OK. -/
theorem imageInstalls : Obligations.ImageInstalls := by
  intro s j rest x m off hjobs hfly hup hread hkites hjudge
  let u := s.installed rest j.image x m
  have hinstall : (s.setCalSt fun c => { c with jobs := rest }).installImage j.image = (u, .ok) :=
    install_one (s.setCalSt fun c => { c with jobs := rest }) j.image x m off hread hkites hjudge
  have he : exec .calInstallComplete s = done s (u.reply j.fly { code := .ok }) := by
    show done s (match s.cal.jobs with
      | [] => s
      | j :: rest => _) = _
    rw [hjobs]
    dsimp only
    rw [hinstall]
  obtain ⟨t, ht, hend, honly⟩ := exec_ends he
  have hmgmt : u.mgmt = s.mgmt := installed_mgmt s rest j.image x m
  have hcal : t.cal = u.cal := hend.cal.trans ((reply_only u j.fly { code := .ok }).2 .cal (by decide))
  have hrget : ∀ o, o < 4096 → t.rget (calReg x.port o) = u.rget (calReg x.port o) := fun o ho =>
    (hend.rget _).trans (rget_reply _ _ _ _ (calReg_ne_replyLost _ _ ho))
  obtain ⟨hrest, hports⟩ := installed_cal s rest j.image x m
  have hpcal : ∀ p, t.pcal p
      = mgetD (mupd s.cal.ports x.port {} fun y => { y with shadow := m, armed := true, latched := false }) p {} := fun p => by
    rw [State.pcal_of_cal hcal, ← hports]
    rfl
  have hsame : t.pcal x.port = { s.pcal x.port with shadow := m, armed := true, latched := false } :=
    (hpcal _).trans (mgetD_mupd_same ..)
  obtain ⟨h108, h110⟩ := installed_rget s rest j.image x m
  refine ⟨t, ht, hend.answered (reply_answered s u _ _ ?_ ?_ (installed_out s rest j.image x m)), ?_, ?_, ?_, ?_, ?_, ?_, fun p hp => ?_, honly⟩
  · rw [hmgmt]
    exact hfly
  · unfold State.portUp
    rw [hmgmt]
    exact hup
  · rw [hcal]
    exact hrest
  · rw [hsame]
  · rw [hsame]
  · rw [hsame]
  · exact (hrget _ (by decide)).trans h108
  · exact (hrget _ (by decide)).trans h110
  · exact (hpcal p).trans (mgetD_mupd_ne _ _ _ _ _ _ hp)

/-! Latching, switching and rewriting -/

section
variable {s : State}

theorem calArmedLatch_latches (s : State) :
    ∃ t, exec .calArmedLatch s = .next t
      ∧ (∀ p, t.pcal p = if p ∈ s.armedFor (s.tickPlus 1) then { s.pcal p with latched := true } else s.pcal p)
      ∧ OnlyTouches [.cal] s t := by
  obtain ⟨t, ht, hend, honly⟩ := exec_ends (c := .calArmedLatch) (s := s) rfl
  refine ⟨t, ht, fun p => ?_, honly⟩
  rw [State.pcal_of_cal hend.cal]
  exact each_pcal _ (fun x => { x with latched := true }) (fun _ => rfl) s p

theorem epochSwitch_switches (hn : ((s.armedFor s.clk.tick).filter fun p => (s.pcal p).latched).Nodup)
    (hlt : ∀ p ∈ s.armedFor s.clk.tick, p < 1024) :
    ∃ t, exec .epochSwitch s = .next t
      ∧ (∀ p ∈ s.armedFor s.clk.tick, (s.pcal p).latched = true →
        (t.pcal p).active = (s.pcal p).shadow ∧ (t.pcal p).shadow = (s.pcal p).active ∧ (t.pcal p).armed = false
        ∧ (t.pcal p).stale = false ∧ t.rget (calReg p 0x104) = s.rget (calReg p 0x108))
      ∧ (∀ p, (p ∈ s.armedFor s.clk.tick → (s.pcal p).latched = false) → t.pcal p = s.pcal p)
      ∧ OnlyTouches [.regs, .cal, .mgmt, .aer] s t := by
  have hports : ∀ p ∈ (s.armedFor s.clk.tick).filter fun p => (s.pcal p).latched, p < 1024 := fun p hp =>
    hlt p (List.mem_filter.mp hp).1
  obtain ⟨t, ht, hend, honly⟩ := exec_ends (c := .epochSwitch) (s := s) rfl
  refine ⟨t, ht, fun p hp hl => ?_, fun p hp => ?_, honly⟩
  · obtain ⟨hgen, hactive, hshadow, harmed, hstale⟩ := switches_in _ s p hports hn (List.mem_filter.mpr ⟨hp, hl⟩)
    rw [State.pcal_of_cal hend.cal, hend.rget]
    exact ⟨hactive, hshadow, harmed, hstale, hgen⟩
  · rw [State.pcal_of_cal hend.cal]
    refine switches_other _ s p hports (.inr trivial) fun hmem => ?_
    obtain ⟨hin, hl⟩ := List.mem_filter.mp hmem
    exact Bool.false_ne_true ((hp hin).symm.trans hl)

/-- The entry of the calendar that is meant. -/
def State.calEntryOf (s : State) (p : Nat) (shadow : Bool) (i : Nat) : CalEntry :=
  calEntryAt (if shadow then (s.pcal p).shadow else (s.pcal p).active) i

theorem markEntry_entry (s : State) (p : Nat) (shadow : Bool) (i : Nat) (bad : Bool) :
    (s.markEntry p shadow i bad).calEntryOf p shadow i = { s.calEntryOf p shadow i with bad := bad } := by
  unfold State.calEntryOf State.markEntry
  rw [State.pcal_setPcal_same]
  cases shadow <;> exact mgetD_mput_same _ _ _ _

theorem calEntryOf_of_cal {s t : State} (h : t.cal = s.cal) (p : Nat) (shadow : Bool) (i : Nat) :
    t.calEntryOf p shadow i = s.calEntryOf p shadow i := by
  unfold State.calEntryOf
  rw [State.pcal_of_cal h]

/-- An entry so marked is rewritten from META, and the mark goes (R351). -/
theorem calEntryRewrite_mends {port : PortNo} {shadow : Bool} {idx : BitVec 13} (hb : (s.calEntryOf port.val shadow idx.toNat).bad = true) :
    ∃ t, exec (.calEntryRewrite port shadow idx) s = .next t
      ∧ t.calEntryOf port.val shadow idx.toNat = { s.calEntryOf port.val shadow idx.toNat with bad := false }
      ∧ OnlyTouches [.cal] s t := by
  have he : exec (.calEntryRewrite port shadow idx) s = done s (s.markEntry port.val shadow idx.toNat false) :=
    congrArg (done s) (if_pos hb)
  obtain ⟨t, ht, hend, honly⟩ := exec_ends_only (l := [.cal]) he (onlyTouches_of_blank (markEntry_blank _ (by decide) ..))
  exact ⟨t, ht, (calEntryOf_of_cal hend.cal _ _ _).trans (markEntry_entry ..), honly⟩

/-- A good entry that a read finds uncorrectable is marked and recorded (R351). -/
theorem calEntryRewrite_marks {port : PortNo} {shadow : Bool} {idx : BitVec 13} (hb : (s.calEntryOf port.val shadow idx.toNat).bad = false) :
    ∃ t, exec (.calEntryRewrite port shadow idx) s = .next t
      ∧ t.calEntryOf port.val shadow idx.toNat = { s.calEntryOf port.val shadow idx.toNat with bad := true }
      ∧ (s.aer.queue.length < 4096 → ∃ r ∈ t.aer.queue, r.cause = 0x0801 ∧ r.detail = idx.toNat ∧ r.location = calReg port.val 0)
      ∧ OnlyTouches [.regs, .cal, .aer] s t := by
  have he : exec (.calEntryRewrite port shadow idx) s
      = done s ((s.markEntry port.val shadow idx.toNat true).record (calReg port.val 0) none 0x0801 idx.toNat) :=
    congrArg (done s) (if_neg (ne_true_of_eq_false hb))
  obtain ⟨t, ht, hend, honly⟩ := exec_ends he
  refine ⟨t, ht, ?_, fun hroom => ?_, honly⟩
  · exact (calEntryOf_of_cal (hend.cal.trans (record_same (p := .cal) (by decide) ..)) _ _ _).trans (markEntry_entry ..)
  · rw [hend.aer]
    obtain ⟨r, hr, hcause, hdetail, hloc, _⟩ := record_in (s.markEntry port.val shadow idx.toNat true) (calReg port.val 0) none 0x0801
      idx.toNat [] hroom
    exact ⟨r, hr, hcause, hdetail.trans (Nat.mod_eq_of_lt (by omega)), hloc⟩

end

/-- Settles O26, one lemma for each event. -/
theorem calendarEventsAct : Obligations.CalendarEventsAct := fun s =>
  ⟨calArmedLatch_latches s, epochSwitch_switches, fun _ _ _ => calEntryRewrite_mends, fun _ _ _ => calEntryRewrite_marks⟩

end Sys2Proof.Machine
end

/-! PROOFS. Kite circuits: the four moments of a switch, and the monitors (R170, R171). -/

section
namespace Sys2Proof.Machine

variable {s : State} {k : KiteEvent}

/-! Events -/

theorem setKite_kites (s : State) (k : KiteEvent) (f : KiteEvent → KiteEvent) :
    (s.setKite k f).cal.kites = s.cal.kites.map fun x => if x.at_ = k.at_ then f x else x := by
  unfold State.setKite
  simp only [beq_iff_eq]
  rfl

theorem kiteDue_mem {phase : KitePhase} {at_ : TickNo} (h : s.kiteDue phase at_ = some k) : k ∈ s.cal.kites :=
  List.mem_of_find?_eq_some h

/-- The fibers that an event drops, in order, where it is prepared. -/
def State.kiteDrops (s : State) (k : KiteEvent) : List Nat :=
  let spared := (List.range 32).filter fun f => (kitePartner k.map f).isSome && s.fiberOnSpare f
  sortBy id (spared ++ spared.filterMap (kitePartner k.map)).eraseDups

theorem kiteDrops_none (h : ∀ f, f < 32 → (kitePartner k.map f).isSome = true → s.fiberOnSpare f = false) :
    ((List.range 32).filter fun f => (kitePartner k.map f).isSome && s.fiberOnSpare f) = [] := by
  refine List.filter_eq_nil_iff.mpr fun f hf hand => ?_
  rw [Bool.and_eq_true] at hand
  rw [h f (List.mem_range.mp hf) hand.1] at hand
  exact Bool.false_ne_true hand.2

theorem mem_kiteDrops {f : Nat} (hf : f < 32) (hp : (kitePartner k.map f).isSome = true) (hs : s.fiberOnSpare f = true) :
    f ∈ s.kiteDrops k :=
  (mem_sortBy id f _).mpr (List.mem_eraseDups.mpr (List.mem_append_left _
    (List.mem_filter.mpr ⟨List.mem_range.mpr hf, by rw [hp, hs]; rfl⟩)))

/-- An event whose fibers no spare carries is prepared as it stands. -/
theorem kitePrepare_clean (hdue : s.kiteDue .armed (s.tickPlus 1) = some k)
    (h : ∀ f, f < 32 → (kitePartner k.map f).isSome = true → s.fiberOnSpare f = false) :
    ∃ t, exec .kitePrepare s = .next t
      ∧ t.cal.kites = s.cal.kites.map (fun x => if x.at_ = k.at_ then { x with dropped := [], phase := .prepared } else x)
      ∧ OnlyTouches [.cal] s t := by
  have he : exec .kitePrepare s = done s (s.setKite k fun x => { x with dropped := [], phase := .prepared }) := by
    show done s ((s.kiteDue .armed (s.tickPlus 1)).elim s s.kitePrepareEvent) = _
    rw [hdue]
    show done s (s.kitePrepareEvent k) = _
    unfold State.kitePrepareEvent
    rw [kiteDrops_none h]
    rfl
  obtain ⟨t, ht, hend, honly⟩ := exec_ends_only (l := [.cal]) he (onlyTouches_of_blank (setCalSt_blank _ _ _ (by decide)))
  refine ⟨t, ht, ?_, honly⟩
  rw [hend.cal]
  exact setKite_kites ..

theorem kitePrepareEvent_drops {g : Nat} {rest : List Nat} (h : s.kiteDrops k = g :: rest) :
    ∃ u links, s.kitePrepareEvent k = (State.bset u (kiteReg 0x120) 0 true).alarm (kiteReg 0) 24 0x1001 g links := by
  have hshape : ∃ u, s.kitePrepareEvent k = match s.kiteDrops k with
    | [] => u
    | f :: rest => (State.bset u (kiteReg 0x120) 0 true).alarm (kiteReg 0) 24 0x1001 f (rest.map fun g => condLink 0x1001 g) :=
    ⟨_, rfl⟩
  obtain ⟨u, hu⟩ := hshape
  rw [h] at hu
  exact ⟨u, _, hu⟩

/-- An event that drops a fiber says so (R170). -/
theorem kitePrepare_drops (hdue : s.kiteDue .armed (s.tickPlus 1) = some k)
    (h : ∃ f, f < 32 ∧ (kitePartner k.map f).isSome = true ∧ s.fiberOnSpare f = true) :
    ∃ t, exec .kitePrepare s = .next t ∧ t.bget (kiteReg 0x010) 24 = true ∧ t.bget (kiteReg 0x120) 0 = true
      ∧ OnlyTouches [.regs, .cal, .mgmt, .aer] s t := by
  obtain ⟨f, hf, hp, hs⟩ := h
  obtain ⟨g, rest, hdrops⟩ := List.exists_cons_of_ne_nil (List.ne_nil_of_mem (mem_kiteDrops hf hp hs))
  obtain ⟨u, links, hevent⟩ := kitePrepareEvent_drops hdrops
  have he : exec .kitePrepare s = done s ((State.bset u (kiteReg 0x120) 0 true).alarm (kiteReg 0) 24 0x1001 g links) := by
    show done s ((s.kiteDue .armed (s.tickPlus 1)).elim s s.kitePrepareEvent) = _
    rw [hdue, ← hevent]
    rfl
  obtain ⟨t, ht, hend, honly⟩ := exec_ends he
  refine ⟨t, ht, (hend.bget ..).trans (alarm_bit _ (kiteReg 0) 24 _ _ _ (by decide) (by decide)), (hend.bget ..).trans ?_, honly⟩
  unfold State.bget
  rw [alarm_rget _ _ _ _ _ _ _ (by decide) (by decide) (by decide)]
  exact bget_bset_same u (kiteReg 0x120) 0 true (by decide)

/-- At KITE_TICK the crossbar is in LULL (R170). -/
theorem kiteSwitch_lulls (hdue : s.kiteDue .prepared s.clk.tick = some k) :
    ∃ t, exec .kiteSwitch s = .next t ∧ t.kiteLull = true
      ∧ t.cal.kites = s.cal.kites.map (fun x => if x.at_ = k.at_ then { x with phase := .switched } else x)
      ∧ OnlyTouches [.regs, .cal, .sw, .pho, .mgmt, .col, .aer, .flt, .out] s t := by
  have he : exec .kiteSwitch s = done s (s.kiteSwitchEvent k) := by
    show done s (match s.kiteDue .prepared s.clk.tick with
      | some k => s.kiteSwitchEvent k
      | none => _) = _
    rw [hdue]
  obtain ⟨t, ht, hend, honly⟩ := exec_ends he
  have henter : (s.each (s.entering k.map) State.enterKite).cal = s.cal := by
    refine State.each_cal _ _ _ fun s f => ?_
    exact (onlyTouches_of_blank (l := [.regs, .sw, .pho, .mgmt, .col, .aer, .flt, .out])
      (enterKite_blank _ (by decide) (by decide) (by decide) (by decide) (by decide) (by decide) (by decide) (by decide) s f)).2 .cal
      (by decide)
  have hkites : t.cal.kites = s.cal.kites.map fun x => if x.at_ = k.at_ then { x with phase := .switched } else x := by
    rw [hend.cal, ← henter]
    exact setKite_kites ..
  refine ⟨t, ht, ?_, hkites, honly⟩
  unfold State.kiteLull
  rw [hkites, List.any_map, List.any_eq_true]
  exact ⟨k, kiteDue_mem hdue, by simp⟩

/-- 49 ticks later the map is in force, and the fibers that return are noted (R170). -/
theorem kiteSettled_maps (hdue : s.kiteDue .switched (s.clk.tick - 49) = some k) :
    ∃ t, exec .kiteSettled s = .next t
      ∧ (∀ w, w < 8 → t.rget (kiteReg (0x100 + 4 * w)) = beNat (sub k.map (4 * w) 4) % 2 ^ 64)
      ∧ t.cal.kites = s.cal.kites.map (fun x => if x.at_ = k.at_ then { x with phase := .settled } else x)
      ∧ (∀ f, f < 32 → (kitePartner s.kiteMap f).isSome = true → kitePartner k.map f = none → f ∈ t.pho.returning)
      ∧ OnlyTouches [.regs, .cal, .pho] s t := by
  have he : exec .kiteSettled s = done s (s.kiteSettleEvent k) := by
    show done s ((s.kiteDue .switched (s.clk.tick - 49)).elim s s.kiteSettleEvent) = _
    rw [hdue]
    rfl
  obtain ⟨t, ht, hend, honly⟩ := exec_ends he
  have hmap := (onlyTouches_of_blank (l := [.regs]) (setKiteMap_blank _ (by decide) s k.map)).2
  refine ⟨t, ht, fun w hw => ?_, ?_, fun f hf hin hout => ?_, honly⟩
  · rw [hend.rget]
    refine (State.rget_congr (s := s.setKiteMap k.map) rfl _).trans ?_
    refine rset_list_rget (List.range 8) (fun w => kiteReg (0x100 + 4 * w)) (fun w => beNat (sub k.map (4 * w) 4)) ?_ w
      (List.mem_range.mpr hw) s
    intro i _ j _ hij
    unfold kiteReg at hij
    omega
  · rw [hend.cal, ← show (s.setKiteMap k.map).cal = s.cal from hmap .cal (by decide)]
    exact setKite_kites ..
  · have hret : t.pho.returning = s.pho.returning ++ (s.leaving k.map).filter fun f => !s.pho.returning.contains f := by
      rw [hend.pho, ← show (s.setKiteMap k.map).pho = s.pho from hmap .pho (by decide)]
      rfl
    rw [hret]
    by_cases hbefore : f ∈ s.pho.returning
    · exact List.mem_append_left _ hbefore
    · refine List.mem_append_right _ (List.mem_filter.mpr ⟨List.mem_filter.mpr ⟨List.mem_range.mpr hf, ?_⟩, by simp [hbefore]⟩)
      rw [hin, hout]
      rfl

/-- One tick later the event is over (R170). -/
theorem kiteCircuitLit_ends (hdue : s.kiteDue .settled (s.clk.tick - 50) = some k) :
    ∃ t, exec .kiteCircuitLit s = .next t ∧ t.cal.kites = s.cal.kites.filter (fun x => x.at_ != k.at_)
      ∧ OnlyTouches [.regs, .cal, .sw, .pho, .mgmt, .col, .aer, .flt, .out] s t := by
  have he : exec .kiteCircuitLit s = done s (s.kiteLitEvent k) := by
    show done s ((s.kiteDue .settled (s.clk.tick - 50)).elim s s.kiteLitEvent) = _
    rw [hdue]
    rfl
  obtain ⟨t, ht, hend, honly⟩ := exec_ends he
  have hleave : ∀ l, (s.each l State.leaveKite).cal = s.cal := fun l => State.each_cal _ _ _ fun s f =>
    (onlyTouches_of_blank (l := [.regs, .sw, .pho, .mgmt, .col, .aer, .flt, .out])
      (leaveKite_blank _ (by decide) (by decide) (by decide) (by decide) (by decide) (by decide) (by decide) (by decide) s f)).2 .cal
      (by decide)
  refine ⟨t, ht, ?_, honly⟩
  rw [hend.cal]
  unfold State.kiteLitEvent
  dsimp only
  rw [State.setCalSt_cal, State.rset_cal, hleave]

/-! Monitors -/

/-- Fibers in a circuit. -/
def State.circuits (s : State) : List Nat := (List.range 32).filter fun f => (kitePartner s.kiteMap f).isSome

/-- Both monitors of a fiber take their samples. -/
def State.sampleFiber (powIn powOut : List Int) (s : State) (f : Nat) : State :=
  (s.rset (kiteReg (0x180 + 4 * f)) (wrap 16 (powIn.getD f 0))).rset (kiteReg (0x200 + 4 * f)) (wrap 16 (powOut.getD f 0))

/-- Fibers whose input has fallen below −20.00 dBm and is not noted as dark yet (R171). -/
def State.freshDark (s : State) (powIn : List Int) : List Nat :=
  (s.circuits.filter fun f => decide (powIn.getD f 0 < -2000)).filter fun f => !s.bget (kiteReg 0x124) f

theorem kiteMonitorSample_shape (s : State) (powIn powOut : List Int) : ∃ word, exec (.kiteMonitorSample powIn powOut) s
    = done s (((s.each s.circuits (State.sampleFiber powIn powOut)).rset (kiteReg 0x124) word).each (s.freshDark powIn)
      fun s f => s.alarm (kiteReg 0) 16 0x1002 f) := ⟨_, rfl⟩

theorem circuits_nodup (s : State) : s.circuits.Nodup := List.nodup_range.filter _

/-- A loop over distinct fibers stores each one's samples. -/
theorem sampleFibers_rget (powIn powOut : List Int) {l : List Nat} (hn : l.Nodup) (hl : ∀ f ∈ l, f < 32) {f : Nat} (hf : f ∈ l) (s : State) :
    (s.each l (State.sampleFiber powIn powOut)).rget (kiteReg (0x180 + 4 * f)) = wrap 16 (powIn.getD f 0)
      ∧ (s.each l (State.sampleFiber powIn powOut)).rget (kiteReg (0x200 + 4 * f)) = wrap 16 (powOut.getD f 0) := by
  have hf32 := hl f hf
  have hother : ∀ o, o = 0x180 + 4 * f ∨ o = 0x200 + 4 * f → ∀ s : State, ∀ x ∈ l, x ≠ f →
      (s.sampleFiber powIn powOut x).rget (kiteReg o) = s.rget (kiteReg o) := by
    intro o ho s x hx hne
    have hx32 := hl x hx
    unfold State.sampleFiber
    rw [State.rget_rset_ne _ _ _ _ (by unfold kiteReg; omega), State.rget_rset_ne _ _ _ _ (by unfold kiteReg; omega)]
  obtain ⟨u, -, hin⟩ := each_one (fun s : State => s.rget (kiteReg (0x180 + 4 * f))) (State.sampleFiber powIn powOut) l hn f hf
    (hother _ (.inl rfl)) s
  obtain ⟨v, -, hout⟩ := each_one (fun s : State => s.rget (kiteReg (0x200 + 4 * f))) (State.sampleFiber powIn powOut) l hn f hf
    (hother _ (.inr rfl)) s
  constructor
  · refine hin.trans ?_
    unfold State.sampleFiber
    rw [State.rget_rset_ne _ _ _ _ (by unfold kiteReg; omega), State.rget_rset_same, Nat.mod_eq_of_lt (wrap_lt _)]
  · refine hout.trans ?_
    unfold State.sampleFiber
    rw [State.rget_rset_same, Nat.mod_eq_of_lt (wrap_lt _)]

/-- Alarms of the KITE page leave its monitors. -/
theorem kiteAlarms_rget (l : List Nat) (s : State) {o : Nat} (h1 : 0x0A0 ≤ o) (h2 : o < 0x1000) :
    (s.each l fun s f => s.alarm (kiteReg 0) 16 0x1002 f).rget (kiteReg o) = s.rget (kiteReg o) :=
  each_rget _ _ _ (fun s f => alarm_rget _ _ _ _ _ _ _ (by unfold kiteReg telReg; omega) (by unfold kiteReg; omega)
    (.inr (by unfold kiteReg; omega))) s

theorem darkAlarm_bit (s : State) (f : Nat) : (s.alarm (kiteReg 0) 16 0x1002 f).bget (kiteReg 0x010) 16 = true :=
  alarm_bit s (kiteReg 0) 16 0x1002 f [] (by decide) (by decide)

theorem kiteMonitorSample_samples (s : State) (powIn powOut : List Int) :
    ∃ t, exec (.kiteMonitorSample powIn powOut) s = .next t
      ∧ (∀ f, f < 32 → (kitePartner s.kiteMap f).isSome = true →
        t.rget (kiteReg (0x180 + 4 * f)) = wrap 16 (powIn.getD f 0) ∧ t.rget (kiteReg (0x200 + 4 * f)) = wrap 16 (powOut.getD f 0)
        ∧ (powIn.getD f 0 < -2000 → s.bget (kiteReg 0x124) f = false → t.bget (kiteReg 0x010) 16 = true))
      ∧ OnlyTouches [.regs, .mgmt, .aer] s t := by
  obtain ⟨word, he⟩ := kiteMonitorSample_shape s powIn powOut
  obtain ⟨t, ht, hend, honly⟩ := exec_ends he
  refine ⟨t, ht, fun f hf hp => ?_, honly⟩
  have hmem : f ∈ s.circuits := List.mem_filter.mpr ⟨List.mem_range.mpr hf, hp⟩
  obtain ⟨hin, hout⟩ := sampleFibers_rget powIn powOut (circuits_nodup s)
    (fun f hf => List.mem_range.mp (List.mem_filter.mp hf).1) hmem s
  refine ⟨?_, ?_, fun hdim hnew => ?_⟩
  · rw [hend.rget, kiteAlarms_rget _ _ (by omega) (by omega), State.rget_rset_ne _ _ _ _ (by unfold kiteReg; omega), hin]
  · rw [hend.rget, kiteAlarms_rget _ _ (by omega) (by omega), State.rget_rset_ne _ _ _ _ (by unfold kiteReg; omega), hout]
  · rw [hend.bget]
    have hfresh : f ∈ s.freshDark powIn :=
      List.mem_filter.mpr ⟨List.mem_filter.mpr ⟨hmem, decide_eq_true hdim⟩, by rw [hnew]; rfl⟩
    exact each_brings (fun s => s.bget (kiteReg 0x010) 16 = true) (fun s f => s.alarm (kiteReg 0) 16 0x1002 f) (s.freshDark powIn) f
      hfresh (fun s => darkAlarm_bit s f) (fun s x _ _ => darkAlarm_bit s x) _

/-- Settles O27, one lemma for each moment of a switch and one for the monitors. -/
theorem kiteEventsAct : Obligations.KiteEventsAct := fun s _ =>
  ⟨kitePrepare_clean, kitePrepare_drops, kiteSwitch_lulls, kiteSettled_maps, kiteCircuitLit_ends, kiteMonitorSample_samples s⟩

end Sys2Proof.Machine
end

/-! PROOFS. What commands of ENG.CTRL and UU.CTRL, a write of an engine's repair map and one of GLB.HBM_CTRL do (R236 to R239,
R266, R275). -/

section
namespace Sys2Proof.Machine

/-! Engines -/

section
variable {s : State} {q : Req} {e : EngineNo}

/-- A command of ENG.CTRL whose meaning is `u`: what the engine's page and its engine show afterwards. -/
theorem engCommand_ends {c : Nat} (h : Commanded s q (engReg e.val 0x008) c) (hc : c < 4294967296) (hcmd : cmdsOf [3, 2, 1, 0] c = c)
    (hone : onesOf c ≤ 1) {u : State} {l : List Part}
    (hE : (readied s q (engReg e.val 8) c (engPage e.val)).engCommand e.val c = { state := u })
    (hl : [Part.regs, .mgmt, .out] ⊆ l)
    (hu : u.blank (fun p => decide (p ∈ l)) = (readied s q (engReg e.val 8) c (engPage e.val)).blank fun p => decide (p ∈ l)) :
    ∃ t, done s (s.writeEngCtrl q e.val c) = .next t ∧ t.engState e.val = u.engState e.val
      ∧ t.rget (engReg e.val 0x104) = u.rget (engReg e.val 0x104) ∧ t.eng e.val = u.eng e.val ∧ OnlyTouches l s t := by
  obtain ⟨t, ht, hleaves, hrget⟩ := eng_command c e.isLt h hc hcmd hone hE rfl
  refine ⟨t, ht, State.fget_congr _ _ _ (hrget _ (by decide)), hrget _ (by decide), State.eng_of_col hleaves.col _, hleaves.only hl ?_⟩
  exact hu.trans (readied_blank _ (decide_eq_true (hl (by decide))) ..)

theorem engUngate_tests (h : Commanded s q (engReg e.val 0x008) 8) (hg : s.engState e.val = 4) :
    ∃ t, exec (.engUngate q e) s = .next t ∧ t.engState e.val = 2 ∧ t.rget (engReg e.val 0x104) = 0
      ∧ (t.eng e.val).bistUp = s.clk.up ∧ OnlyTouches [.regs, .mgmt, .out, .col] s t := by
  let S := readied s q (engReg e.val 8) 8 (engPage e.val)
  have hE : S.engCommand e.val 8 = { state := (S.reloadRepair e.val).startEngBist e.val (S.atStage 3) } := by
    show ({ state := S.ungateEng e.val (S.atStage 3) } : Effect) = _
    unfold State.ungateEng
    rw [if_pos (by rw [show S.engState e.val = s.engState e.val from readied_engState ..]; exact hg)]
  obtain ⟨hstate, herr, heng⟩ := startEngBist_spec (S.reloadRepair e.val) e.val (S.atStage 3)
  obtain ⟨t, ht, h1, h2, h3, honly⟩ := engCommand_ends (l := [.regs, .mgmt, .out, .col]) h (by decide) (by decide) (by decide) hE
    (by simp) ((startEngBist_blank _ rfl rfl ..).trans (reloadRepair_blank _ rfl ..))
  refine ⟨t, ht, h1.trans hstate, h2.trans herr, ?_, honly⟩
  have hclk : (S.reloadRepair e.val).clk = S.clk :=
    (onlyTouches_of_blank (l := [.regs]) (reloadRepair_blank _ (by decide) S e.val)).2 .clk (by decide)
  rw [h3, heng, hclk, show S.clk = s.clk from readied_clk ..]

theorem engGate_gates (h : Commanded s q (engReg e.val 0x008) 4) (hs : s.engState e.val = 0 ∨ s.engState e.val = 3)
    (hn : s.engNamed e.val = false) :
    ∃ t, exec (.engGate q e) s = .next t ∧ t.engState e.val = 4 ∧ OnlyTouches [.regs, .mgmt, .out] s t := by
  let S := readied s q (engReg e.val 8) 4 (engPage e.val)
  have hgate : S.gateEng e.val = (S.setEngState e.val 4, .ok) := gateEng_ok S e.val
    (by rw [show S.engState e.val = s.engState e.val from readied_engState ..]; exact hs)
    ((readied_any (fun s => s.engNamed e.val) (fun _ _ => rfl) ..).trans hn)
  obtain ⟨t, ht, hstate, _, _, honly⟩ := engCommand_ends (l := [.regs, .mgmt, .out]) h (by decide) (by decide) (by decide)
    (congrArg Effect.ofPair hgate) (by simp) (setEngState_blank _ rfl ..)
  exact ⟨t, ht, hstate.trans (setEngState_engState ..), honly⟩

theorem engRelease_tests (h : Commanded s q (engReg e.val 0x008) 2) (hs : s.engState e.val = 3) :
    ∃ t, exec (.engRelease q e) s = .next t ∧ t.engState e.val = 2 ∧ t.rget (engReg e.val 0x104) = 0
      ∧ (t.eng e.val).judged = true ∧ OnlyTouches [.regs, .mgmt, .out, .col] s t := by
  let S := readied s q (engReg e.val 8) 2 (engPage e.val)
  have hE : S.engCommand e.val 2 = { state := S.startEngBist e.val true } := by
    show ({ state := S.releaseEng e.val } : Effect) = _
    unfold State.releaseEng
    rw [if_pos (by rw [show S.engState e.val = s.engState e.val from readied_engState ..]; exact hs)]
  obtain ⟨hstate, herr, heng⟩ := startEngBist_spec S e.val true
  obtain ⟨t, ht, h1, h2, h3, honly⟩ := engCommand_ends (l := [.regs, .mgmt, .out, .col]) h (by decide) (by decide) (by decide) hE
    (by simp) (startEngBist_blank _ rfl rfl ..)
  exact ⟨t, ht, h1.trans hstate, h2.trans herr, by rw [h3, heng], honly⟩

theorem engBist_waits (h : Commanded s q (engReg e.val 0x008) 1) (hs : s.engState e.val = 1 ∨ s.engState e.val = 5) :
    ∃ t, exec (.engBist q e) s = .next t ∧ (t.eng e.val).bistAsked = true ∧ t.engState e.val = s.engState e.val
      ∧ OnlyTouches [.regs, .mgmt, .out, .col] s t := by
  let S := readied s q (engReg e.val 8) 1 (engPage e.val)
  have hS : S.engState e.val = s.engState e.val := readied_engState ..
  have hbist : S.bistEng e.val = (S.setEng e.val fun x => { x with bistAsked := true }, .ok) := bistEng_waits S e.val (by rw [hS]; exact hs)
  obtain ⟨t, ht, hstate, _, heng, honly⟩ := engCommand_ends (l := [.regs, .mgmt, .out, .col]) h (by decide) (by decide) (by decide)
    (congrArg Effect.ofPair hbist) (by simp) (setEng_blank _ _ _ _ rfl)
  refine ⟨t, ht, ?_, hstate.trans ?_, honly⟩
  · rw [heng, State.eng_setEng_same]
  · unfold State.engState at hS ⊢
    rw [State.fget_setEng, hS]

theorem engBist_starts (h : Commanded s q (engReg e.val 0x008) 1) (hs : s.engState e.val = 0 ∨ s.engState e.val = 3) :
    ∃ t, exec (.engBist q e) s = .next t ∧ t.engState e.val = 2 ∧ (t.eng e.val).bistUp = s.clk.up
      ∧ OnlyTouches [.regs, .mgmt, .out, .col] s t := by
  let S := readied s q (engReg e.val 8) 1 (engPage e.val)
  have hbist : S.bistEng e.val = (S.startEngBist e.val (S.engState e.val == 3), .ok) :=
    bistEng_starts S e.val (by rw [show S.engState e.val = s.engState e.val from readied_engState ..]; exact hs)
  obtain ⟨hstate, _, heng⟩ := startEngBist_spec S e.val (S.engState e.val == 3)
  obtain ⟨t, ht, h1, _, h3, honly⟩ := engCommand_ends (l := [.regs, .mgmt, .out, .col]) h (by decide) (by decide) (by decide)
    (congrArg Effect.ofPair hbist) (by simp) (startEngBist_blank _ rfl rfl ..)
  exact ⟨t, ht, h1.trans hstate, by rw [h3, heng, show S.clk = s.clk from readied_clk ..], honly⟩

/-- Settles O28, one lemma for each command. -/
theorem engineCommandsAct : Obligations.EngineCommandsAct := fun _ _ _ =>
  ⟨engUngate_tests, engGate_gates, engRelease_tests, engBist_waits, engBist_starts⟩

end

/-! Update Units, repair maps and the state split -/

section
variable {s : State} {q : Req} {n : CoreNo} {e : EngineNo}

theorem readied_uuState (s : State) (q : Req) (addr v : Nat) (p : Page) (n : Nat) : (readied s q addr v p).uuState n = s.uuState n :=
  readied_fget ..

/-- A command of UU.CTRL whose meaning is `u`: what the unit's page and its core show afterwards. -/
theorem uuCommand_ends {c : Nat} (h : Commanded s q (uuReg n.val 0x008) c) (hc : c < 4294967296) (hcmd : cmdsOf [1, 0] c = c)
    (hone : onesOf c ≤ 1) {u : State} (hE : (readied s q (uuReg n.val 8) c (uuPage n.val)).uuCommand n.val c = { state := u }) :
    ∃ t, done s (s.serveReg q (uuReg n.val 8) c) = .next t ∧ t.uuState n.val = u.uuState n.val
      ∧ t.rget (uuReg n.val 0x100) = u.rget (uuReg n.val 0x100) ∧ t.core n.val = u.core n.val
      ∧ OnlyTouches [.regs, .mgmt, .out, .col] s t := by
  obtain ⟨t, ht, hleaves, hrget⟩ := uu_command c n.isLt h hc hcmd hone hE rfl
  refine ⟨t, ht, State.fget_congr _ _ _ (hrget _ (by decide)), hrget _ (by decide), State.core_of_col hleaves.col _,
    hleaves.only (by simp) ?_⟩
  have hu := congrArg Effect.state hE
  rw [← hu, uuCommand_blank _ rfl rfl, readied_blank _ rfl]

theorem uuRelease_tests (h : Commanded s q (uuReg n.val 0x008) 2) (hs : s.uuState n.val = 3) :
    ∃ t, exec (.uuRelease q n) s = .next t ∧ t.uuState n.val = 2 ∧ t.rget (uuReg n.val 0x100) = 0
      ∧ (t.core n.val).uuBistUp = s.clk.up ∧ OnlyTouches [.regs, .mgmt, .out, .col] s t := by
  let S := readied s q (uuReg n.val 8) 2 (uuPage n.val)
  have hE : S.uuCommand n.val 2 = { state := S.startUuBist n.val } := by
    show ({ state := S.releaseUu n.val } : Effect) = _
    unfold State.releaseUu
    rw [if_pos (by rw [show S.uuState n.val = s.uuState n.val from readied_uuState ..]; exact hs)]
  obtain ⟨hstate, herr, hcore⟩ := startUuBist_spec S n.val
  obtain ⟨t, ht, h1, h2, h3, honly⟩ := uuCommand_ends h (by decide) (by decide) (by decide) hE
  exact ⟨t, ht, h1.trans hstate, h2.trans herr, by rw [h3, hcore, show S.clk = s.clk from readied_clk ..], honly⟩

theorem uuBist_waits (h : Commanded s q (uuReg n.val 0x008) 1) (hs : s.uuState n.val = 1) :
    ∃ t, exec (.uuBist q n) s = .next t ∧ (t.core n.val).uuBistAsked = true ∧ t.uuState n.val = 1
      ∧ OnlyTouches [.regs, .mgmt, .out, .col] s t := by
  let S := readied s q (uuReg n.val 8) 1 (uuPage n.val)
  have hS : S.uuState n.val = 1 := (readied_uuState ..).trans hs
  have hbist : S.bistUu n.val = (S.setCore n.val fun k => { k with uuBistAsked := true }, .ok) := by
    unfold State.bistUu
    rw [if_neg (by rw [hS]; decide), if_pos (.inl hS)]
  obtain ⟨t, ht, hstate, _, hcore, honly⟩ := uuCommand_ends h (by decide) (by decide) (by decide) (congrArg Effect.ofPair hbist)
  refine ⟨t, ht, by rw [hcore, State.core_setCore_same], hstate.trans ?_, honly⟩
  unfold State.uuState at hS ⊢
  rw [State.fget_setCore, hS]

theorem uuBist_starts (h : Commanded s q (uuReg n.val 0x008) 1) (hs : s.uuState n.val = 0 ∨ s.uuState n.val = 3)
    (hchunk : (s.core n.val).uuChunk = none) :
    ∃ t, exec (.uuBist q n) s = .next t ∧ t.uuState n.val = 2 ∧ (t.core n.val).uuBistUp = s.clk.up
      ∧ OnlyTouches [.regs, .mgmt, .out, .col] s t := by
  let S := readied s q (uuReg n.val 8) 1 (uuPage n.val)
  have hS : S.uuState n.val = s.uuState n.val := readied_uuState ..
  have hfree : (S.core n.val).uuChunk.isSome = false := by
    rw [State.core_of_col (readied_col ..), hchunk]
    rfl
  have hbist : S.bistUu n.val = (S.startUuBist n.val, .ok) := by
    unfold State.bistUu
    rw [if_neg (by rw [hS]; omega), if_neg (by rw [hS, hfree]; simp; omega)]
  obtain ⟨hstate, _, hcore⟩ := startUuBist_spec S n.val
  obtain ⟨t, ht, h1, _, h3, honly⟩ := uuCommand_ends h (by decide) (by decide) (by decide) (congrArg Effect.ofPair hbist)
  exact ⟨t, ht, h1.trans hstate, by rw [h3, hcore, show S.clk = s.clk from readied_clk ..], honly⟩

/-- The fields of a repair map. -/
def repairFields : List Field := [fRW 31 31, fRO 30 30, fRW 3 0]

theorem repairFields_admit (v : Nat) : Admitted repairFields v := by
  intro f hf
  simp only [repairFields, List.mem_cons, List.not_mem_nil, or_false] at hf
  rcases hf with rfl | rfl | rfl
  · exact .inr ⟨rfl, by decide, rfl⟩
  · exact .inl rfl
  · exact .inr ⟨rfl, by decide, rfl⟩

theorem bits_repair (v old : Nat) : bits (rwTake repairFields v old) 31 31 = bits v 31 31 ∧ bits (rwTake repairFields v old) 3 0 = bits v 3 0 := by
  show bits (putBits (putBits old 31 31 (bits v 31 31)) 3 0 (bits v 3 0)) 31 31 = _
    ∧ bits (putBits (putBits old 31 31 (bits v 31 31)) 3 0 (bits v 3 0)) 3 0 = _
  rw [bits_putBits_ne _ _ _ _ _ _ (.inr (by decide)), bits_putBits_same, bits_putBits_same, Nat.mod_eq_of_lt (bits_lt v 31 31),
    Nat.mod_eq_of_lt (bits_lt v 3 0)]
  exact ⟨rfl, rfl⟩

theorem writeRepair_stores {S : State} {e v : Nat} (hs : S.engState e ≠ 2)
    (hne : bits v 31 31 ≠ S.fget (engReg e 0x100) 31 31 ∨ bits v 3 0 ≠ S.fget (engReg e 0x100) 3 0) :
    S.writeRepair e v = (S.newRepair e (bits v 31 31) (bits v 3 0), .ok) := by
  unfold State.writeRepair
  dsimp only
  rw [if_neg hs, if_neg]
  rintro ⟨h1, h2⟩
  exact hne.elim (fun h => h h1.symm) fun h => h h2.symm

/-- A write of a repair map that differs stores it in META and tests the engine (R236, R238). -/
theorem engRepairWrite_repairs {v : Word} (h : Commanded s q (engReg e.val 0x100) v.toNat) (hs : s.engState e.val ≠ 2)
    (hne : bits v.toNat 31 31 ≠ s.fget (engReg e.val 0x100) 31 31 ∨ bits v.toNat 3 0 ≠ s.fget (engReg e.val 0x100) 3 0) :
    ∃ t, exec (.engRepairWrite q e v) s = .next t
      ∧ t.rget (engReg e.val 0x100) = bits v.toNat 31 31 * 2 ^ 31 + bits v.toNat 3 0
      ∧ mget t.fuse.repairs e.val = some (BitVec.ofNat 32 (bits v.toNat 31 31 * 2 ^ 31 + bits v.toNat 3 0))
      ∧ (s.engState e.val = 0 ∨ s.engState e.val = 3 → t.engState e.val = 2 ∧ (t.eng e.val).bistUp = s.clk.up)
      ∧ OnlyTouches [.regs, .mgmt, .out, .col, .fuse] s t := by
  have hdie : ((engPage e.val).die == 8) = false := by
    have := e.isLt
    unfold engPage
    simp
    omega
  let S := readied s q ((engPage e.val).base + 0x100) v.toNat (engPage e.val)
  have hS : S.engState e.val = s.engState e.val := readied_engState ..
  have hgetS : ∀ hi lo, S.fget (engReg e.val 0x100) hi lo = s.fget (engReg e.val 0x100) hi lo := fun hi lo => readied_fget ..
  rw [engReg_base] at h
  obtain ⟨t, d, hv, _, ht, hleaves, hrget⟩ := rw_command (p := engPage e.val) (o := 0x100) (r := ⟨0x100, false, 0, repairFields⟩)
    (e := fun _ => { state := S.newRepair e.val (bits v.toNat 31 31) (bits v.toNat 3 0) })
    (by unfold engPage; dsimp only; omega) (by unfold engPage; dsimp only; omega) (engPage_exists e.isLt) (by decide) (by decide)
    (by decide) h v.isLt (by rw [hdie]; rfl) rfl rfl rfl (.inl (fun hb => by cases hb)) (fun hb => by cases hb) (fun hb => by cases hb)
    (fun hb => by cases hb) rfl (repairFields_admit _)
    (fun d _ _ => if_neg (by rw [engPage_number]; exact fun hb => hs (hS.symm.trans hb.2)))
    (fun d hd _ => by
      obtain ⟨h31, h3⟩ := bits_repair v.toNat (s.rget ((engPage e.val).base + 0x100))
      have hw := writeRepair_stores (S := S) (e := e.val) (v := d.value) (by rw [hS]; exact hs) (by
        rw [hd, h31, h3, hgetS, hgetS]
        exact hne)
      rw [hd, h31, h3] at hw
      show Effect.ofPair (S.writeRepair (engPage e.val).number d.value) = _
      rw [engPage_number, hd, hw]
      rfl)
    (fun _ _ _ => rfl)
  obtain ⟨hfuse, hreg, htest⟩ := newRepair_spec S e.val (bits v.toNat 31 31) (bits v.toNat 3 0)
  have hget : ∀ o, o < 0x060 ∨ 0x0A0 ≤ o ∧ o < 4096 → o ≠ 0x01C →
      t.rget (engReg e.val o) = (S.newRepair e.val (bits v.toNat 31 31) (bits v.toNat 3 0)).rget (engReg e.val o) := by
    intro o ho hgen
    refine hrget _ ?_ ?_ ?_
    · rw [engReg_base]; omega
    · rw [replyLost_reg]; unfold engReg; omega
    · rw [engReg_base]; omega
  have hrow : bits v.toNat 31 31 * 2 ^ 31 + bits v.toNat 3 0 % 16 = bits v.toNat 31 31 * 2 ^ 31 + bits v.toNat 3 0 := by
    rw [Nat.mod_eq_of_lt (show bits v.toNat 3 0 < 16 from bits_lt v.toNat 3 0)]
  have hvalid := bits_lt v.toNat 31 31
  have hrowlt := bits_lt v.toNat 3 0
  rw [hrow] at hfuse hreg
  refine ⟨t, by rw [← engReg_base] at ht; exact ht, ?_, ?_, fun hidle => ?_, hleaves.only (by simp) ?_⟩
  · rw [hget _ (.inr (by decide)) (by decide), hreg, Nat.mod_eq_of_lt (by norm_num at hvalid hrowlt ⊢; omega)]
  · rw [hleaves.fuse, hfuse]
    exact mget_mput_same _ _ _
  · obtain ⟨hstate, hup⟩ := htest (by rw [hS]; exact hidle)
    refine ⟨(State.fget_congr _ _ _ (hget _ (.inl (by decide)) (by decide))).trans hstate, ?_⟩
    rw [State.eng_of_col hleaves.col, hup, show S.clk = s.clk from readied_clk ..]
  · exact (newRepair_blank _ rfl rfl rfl ..).trans (readied_blank _ rfl ..)

/-- The fields of GLB.HBM_CTRL. -/
def hbmCtrlFields : List Field := [fRW 16 16, fRW 15 0]

theorem hbmCtrlFields_admit (v : Nat) : Admitted hbmCtrlFields v := by
  intro f hf
  simp only [hbmCtrlFields, List.mem_cons, List.not_mem_nil, or_false] at hf
  rcases hf with rfl | rfl
  · exact .inr ⟨rfl, by decide, rfl⟩
  · exact .inr ⟨rfl, by decide, rfl⟩

theorem bits_hbmCtrl (v old : Nat) :
    bits (rwTake hbmCtrlFields v old) 15 0 = bits v 15 0 ∧ bits (rwTake hbmCtrlFields v old) 16 16 = bits v 16 16 := by
  show bits (putBits (putBits old 16 16 (bits v 16 16)) 15 0 (bits v 15 0)) 15 0 = _
    ∧ bits (putBits (putBits old 16 16 (bits v 16 16)) 15 0 (bits v 15 0)) 16 16 = _
  constructor
  · rw [bits_putBits_same, Nat.mod_eq_of_lt (bits_lt v 15 0)]
  · rw [bits_putBits_ne _ _ _ _ _ _ (.inr (by decide)), bits_putBits_same, Nat.mod_eq_of_lt (bits_lt v 16 16)]

/-- While no context holds planes, the state split may change (R275). -/
theorem stateSplitWrite_stores {v : Word} (h : Commanded s q (glbReg 0x108) v.toNat) (hp : s.noPlanes = true) :
    ∃ t, exec (.stateSplitWrite q v) s = .next t ∧ t.fget (glbReg 0x108) 15 0 = bits v.toNat 15 0
      ∧ t.fget (glbReg 0x108) 16 16 = bits v.toNat 16 16 ∧ OnlyTouches [.regs, .mgmt, .out] s t := by
  let S := readied s q (glbPage.base + 0x108) v.toNat glbPage
  have hplanes : S.noPlanes = true := (readied_any State.noPlanes (fun _ _ => rfl) ..).trans hp
  obtain ⟨t, d, hv, _, ht, hleaves, hrget⟩ := rw_command (p := glbPage) (o := 0x108) (r := ⟨0x108, false, 0x168, hbmCtrlFields⟩)
    (e := fun d => { state := storedFor S glbPage 0x108 (s.rget (glbPage.base + 0x108)) d }) (by decide) (by decide) glbPage_exists
    (by decide) (by decide) (by decide) h v.isLt rfl rfl rfl rfl (.inr (by decide)) (by decide) (fun hb => by cases hb)
    (fun hb => by cases hb) rfl (hbmCtrlFields_admit _)
    (fun d _ _ => if_neg (by
      rw [hplanes]
      exact fun hb => Bool.false_ne_true hb.2))
    (fun d _ _ => congrArg (fun x : State => ({ state := x } : Effect)) (if_neg fun hb => absurd hb.1 (by decide)))
    (fun _ _ _ => rfl)
  have hlt : d.value < 2 ^ 64 := hv ▸ rwTake_lt _ _ _ (hbmCtrlFields_admit _) (State.rget_lt ..)
  have hval : t.rget (glbReg 0x108) = d.value := by
    refine (hrget _ (.inr (by decide)) (by decide) (by decide)).trans ?_
    have hread : S.rget (glbPage.base + 0x108) = s.rget (glbPage.base + 0x108) := readied_rget ..
    dsimp only
    rw [← hread]
    exact storedFor_rget S glbPage 0x108 d ⟨rfl, by decide, by decide⟩ hlt
  obtain ⟨hlow, hsplit⟩ := bits_hbmCtrl v.toNat (s.rget (glbPage.base + 0x108))
  refine ⟨t, ht, ?_, ?_, hleaves.only (by simp) ?_⟩
  · unfold State.fget
    rw [hval, hv]
    exact hlow
  · unfold State.fget
    rw [hval, hv]
    exact hsplit
  · exact (storedFor_blank (fun p => decide (p ∈ [Part.regs, .mgmt, .out])) rfl ..).trans (readied_blank _ rfl ..)

/-- Settles O29, one lemma for each form. -/
theorem unitCommandsAct : Obligations.UnitCommandsAct := fun _ _ _ _ _ =>
  ⟨uuRelease_tests, uuBist_waits, uuBist_starts, engRepairWrite_repairs, stateSplitWrite_stores⟩

end

end Sys2Proof.Machine
end

/-! PROOFS. What commands of CTX.CTRL do, and how enables, disables, resets and program loads take effect (R178 to R182, R244, R246,
R291, R342, R370). -/

section
namespace Sys2Proof.Machine

/-! Commands -/

section
variable {s : State} {q : Req} {c : CtxNo}

/-- The state in which a command of CTX.CTRL runs. -/
def atCtxCommand (s : State) (q : Req) (c : CtxNo) (v : Nat) : State := readied s q (ctxReg c.val 8) v (ctxPage c.val)

/-- What a command of CTX.CTRL reads beside the management state is as it was. -/
theorem atCtxCommand_any {α : Type} (F : State → α) (hF : ∀ s g, F (State.setMgmt s g) = F s) (v : Nat) :
    F (atCtxCommand s q c v) = F s := readied_any F hF ..

theorem atCtxCommand_ctx (v : Nat) : (atCtxCommand s q c v).ctx c.val = s.ctx c.val := ctx_of_col (readied_col ..) _

/-- The flight of a command of CTX.CTRL. -/
def ctxFlight (q : Req) (c : CtxNo) (v : Nat) : InFlight := flightOf q 0x02 (regBody (ctxReg c.val 8) v)

/-- A command of CTX.CTRL whose meaning is `u`. -/
theorem ctxCommand_ends {v : Nat} {l : List Part} {E : Effect} (h : Commanded s q (ctxReg c.val 0x008) v) (hv : v < 4294967296)
    (hcmd : cmdsOf [3, 2, 1, 0] v = v) (hone : onesOf v ≤ 1)
    (hE : ∀ w : Writer, w.fly = some (ctxFlight q c v) → (atCtxCommand s q c v).ctxCommand w c.val v = E) (hok : E.code = .ok)
    (hl : [Part.regs, .mgmt, .out] ⊆ l)
    (hu : E.state.blank (fun p => decide (p ∈ l)) = (atCtxCommand s q c v).blank fun p => decide (p ∈ l)) :
    ∃ t, done s (s.serveReg q (ctxReg c.val 8) v) = .next t ∧ t.ctx c.val = E.state.ctx c.val ∧ OnlyTouches l s t := by
  obtain ⟨t, ht, hleaves, _⟩ := ctx_command v c.isLt h hv hcmd hone hE hok
  refine ⟨t, ht, ctx_of_col hleaves.col _, hleaves.only hl ?_⟩
  exact hu.trans (readied_blank _ (decide_eq_true (hl (by decide))) ..)

theorem enableCtx_accepts {S : State} {n : Nat} {plan : Plan} (hf : S.enableFails n = none) (hp : S.placeCtx n = some plan)
    (htr : S.twinned n = false ∨ S.isTransport n = true) (w : Writer) :
    S.enableCtx w n = { state := S.acceptEnable n plan w.fly, waits := w.fly.isSome } := by
  unfold State.enableCtx
  rw [if_neg (by rw [(enableFails_none S n hf).2]; simp), hf, hp]
  dsimp only
  rw [if_neg (by rcases htr with h | h <;> simp [h])]

theorem ctxEnable_accepts {plan : Plan} (h : Commanded s q (ctxReg c.val 0x008) 1) (hf : s.enableFails c.val = none)
    (hp : s.placeCtx c.val = some plan) (htr : s.twinned c.val = false ∨ s.isTransport c.val = true) :
    ∃ t f, exec (.ctxEnable q c) s = .next t ∧ (t.ctx c.val).plan = some plan ∧ (t.ctx c.val).enabling = some (some f)
      ∧ f.req = q ∧ OnlyTouches [.regs, .mgmt, .out, .col, .hbm] s t := by
  let S := atCtxCommand s q c 1
  obtain ⟨t, ht, hctx, honly⟩ := ctxCommand_ends (l := [.regs, .mgmt, .out, .col, .hbm]) h (by decide) (by decide) (by decide)
    (E := { state := S.acceptEnable c.val plan (some (ctxFlight q c 1)), waits := true }) (fun w hw => by
      show S.enableCtx w c.val = _
      rw [enableCtx_accepts (atCtxCommand_any (fun s => s.enableFails c.val) (fun _ _ => rfl) 1 |>.trans hf)
        (atCtxCommand_any (fun s => s.placeCtx c.val) (fun _ _ => rfl) 1 |>.trans hp) (by
          rw [atCtxCommand_any (fun s => s.twinned c.val) (fun _ _ => rfl), atCtxCommand_any (fun s => s.isTransport c.val) (fun _ _ => rfl)]
          exact htr) w, hw]
      rfl) rfl (by simp) (acceptEnable_blank _ rfl rfl ..)
  obtain ⟨hplan, henabling⟩ := acceptEnable_ctx S c.val plan (some (ctxFlight q c 1))
  exact ⟨t, ctxFlight q c 1, ht, by rw [hctx, hplan], by rw [hctx, henabling], rfl, honly⟩

theorem ctxEnable_asks {plan : Plan} (h : Commanded s q (ctxReg c.val 0x008) 1) (hf : s.enableFails c.val = none)
    (hp : s.placeCtx c.val = some plan) (htw : s.twinned c.val = true) (htr : s.isTransport c.val = false) :
    ∃ t f, exec (.ctxEnable q c) s = .next t ∧ (t.ctx c.val).plan = some plan
      ∧ (t.ctx c.val).asking = some (s.clk.up, some f) ∧ f.req = q
      ∧ OnlyTouches [.regs, .mgmt, .out, .col] s t := by
  let S := atCtxCommand s q c 1
  have hfS : S.enableFails c.val = none := (atCtxCommand_any (fun s => s.enableFails c.val) (fun _ _ => rfl) 1).trans hf
  obtain ⟨b, hb⟩ := enableCtx_asks S c.val plan (ctxFlight q c 1) (enableFails_none S c.val hfS).2 hfS
    ((atCtxCommand_any (fun s => s.placeCtx c.val) (fun _ _ => rfl) 1).trans hp)
    ((atCtxCommand_any (fun s => s.twinned c.val) (fun _ _ => rfl) 1).trans htw)
    ((atCtxCommand_any (fun s => s.isTransport c.val) (fun _ _ => rfl) 1).trans htr)
  obtain ⟨t, ht, hctx, honly⟩ := ctxCommand_ends (l := [.regs, .mgmt, .out, .col]) h (by decide) (by decide) (by decide) hb rfl (by simp)
    ((twinSend_blank _ rfl rfl ..).trans (setCtx_blank _ _ _ _ rfl))
  have hasked : t.ctx c.val = { s.ctx c.val with plan := some plan, asking := some (s.clk.up, some (ctxFlight q c 1)) } := by
    have hsend : ∀ (u : State), (u.twinSend twConfig b).col = u.col := fun u =>
      (onlyTouches_of_blank (l := [.regs, .out]) (twinSend_blank _ (by decide) (by decide) u twConfig b)).2 .col (by decide)
    have hclk : S.clk = s.clk := readied_clk ..
    rw [hctx, ctx_of_col (hsend _), State.ctx_setCtx_same, hclk, show S.ctx c.val = s.ctx c.val from atCtxCommand_ctx 1]
  exact ⟨t, ctxFlight q c 1, ht, by rw [hasked], by rw [hasked], rfl, honly⟩

theorem ctxDisable_disables (h : Commanded s q (ctxReg c.val 0x008) 2) (hs : (s.ctx c.val).state = .active ∨ (s.ctx c.val).state = .halted)
    (he : (s.ctx c.val).enabling = none) (ha : (s.ctx c.val).asking = none) :
    ∃ t, exec (.ctxDisable q c) s = .next t ∧ t.ctx c.val = { s.ctx c.val with disabling := true }
      ∧ OnlyTouches [.regs, .mgmt, .out, .col] s t := by
  let S := atCtxCommand s q c 2
  have hS : S.ctx c.val = s.ctx c.val := atCtxCommand_ctx 2
  have hdis : S.disableCtx c.val = { state := S.setCtx c.val fun x => { x with disabling := true } } := by
    unfold State.disableCtx
    rw [hS, he, ha, if_neg (by simp)]
    rcases hs with h | h <;> rw [h]
  obtain ⟨t, ht, hctx, honly⟩ := ctxCommand_ends (l := [.regs, .mgmt, .out, .col]) h (by decide) (by decide) (by decide)
    (fun _ _ => hdis) rfl (by simp) (setCtx_blank _ _ _ _ rfl)
  exact ⟨t, ht, by rw [hctx, State.ctx_setCtx_same, hS], honly⟩

theorem ctxStateFree_frees (h : Commanded s q (ctxReg c.val 0x008) 4) (hb : s.ctxBusy c.val = false) :
    ∃ t, exec (.ctxStateFree q c) s = .next t ∧ t.ctx c.val = { s.ctx c.val with planes := none }
      ∧ OnlyTouches [.regs, .mgmt, .out, .col] s t := by
  let S := atCtxCommand s q c 4
  have hS : S.ctx c.val = s.ctx c.val := atCtxCommand_ctx 4
  have hfree : S.stateFree c.val = { state := S.setCtx c.val fun x => { x with planes := none } } := by
    unfold State.stateFree
    rw [show S.ctxBusy c.val = false from (atCtxCommand_any (fun s => s.ctxBusy c.val) (fun _ _ => rfl) 4).trans hb]
    rfl
  obtain ⟨t, ht, hctx, honly⟩ := ctxCommand_ends (l := [.regs, .mgmt, .out, .col]) h (by decide) (by decide) (by decide)
    (fun _ _ => hfree) rfl (by simp) (setCtx_blank _ _ _ _ rfl)
  exact ⟨t, ht, by rw [hctx, State.ctx_setCtx_same, hS], honly⟩

/-- A reset that is asked for waits with those asked for before (R370). -/
theorem askReset_resetting (S : State) (n : Nat) (f : InFlight) :
    ((S.askReset n (some f)).ctx n).resetting = some ((S.ctx n).resetting.getD [] ++ [f]) := by
  unfold State.askReset
  cases hr : (S.ctx n).resetting with
  | none => exact congrArg CtxSt.resetting (State.ctx_setCtx_same ..)
  | some l => exact congrArg CtxSt.resetting (State.ctx_setCtx_same ..)

theorem ctxReset_asks (h : Commanded s q (ctxReg c.val 0x008) 8) (hs : (s.ctx c.val).state ≠ .idle) :
    ∃ t f, exec (.ctxReset q c) s = .next t ∧ (t.ctx c.val).resetting = some ((s.ctx c.val).resetting.getD [] ++ [f])
      ∧ f.req = q ∧ OnlyTouches [.regs, .mgmt, .out, .col] s t := by
  let S := atCtxCommand s q c 8
  have hS : S.ctx c.val = s.ctx c.val := atCtxCommand_ctx 8
  obtain ⟨t, ht, hctx, honly⟩ := ctxCommand_ends (l := [.regs, .mgmt, .out, .col]) h (by decide) (by decide) (by decide)
    (E := { state := S.askReset c.val (some (ctxFlight q c 8)), waits := true }) (fun w hw => by
      show S.resetCtx w c.val = _
      unfold State.resetCtx
      rw [if_neg (by rw [hS]; exact hs), hw]
      rfl) rfl (by simp) (askReset_blank _ rfl ..)
  exact ⟨t, ctxFlight q c 8, ht, by rw [hctx, askReset_resetting, hS], rfl, honly⟩

end

/-- Settles O30, one lemma for each command and two for ENABLE. -/
theorem contextCommandsAct : Obligations.ContextCommandsAct := fun _ _ _ =>
  ⟨fun _ => ctxEnable_accepts, fun _ => ctxEnable_asks, ctxDisable_disables, ctxStateFree_frees, ctxReset_asks⟩

/-! Events -/

section
variable {s : State} {c : CtxNo}

theorem ctxEnableComplete_activates {fly : Option InFlight} {plan : Plan} (he : (s.ctx c.val).enabling = some fly)
    (hp : (s.ctx c.val).plan = some plan) :
    ∃ t, exec (.ctxEnableComplete c) s = .next t ∧ (t.ctx c.val).state = .active ∧ (t.ctx c.val).enabling = none
      ∧ (t.ctx c.val).placed = plan.placed ∧ (t.ctx c.val).step = s.firstStep c.val ∧ (t.ctx c.val).retained = []
      ∧ OnlyTouches [.regs, .mgmt, .out, .col, .sw, .tbl, .aer] s t := by
  obtain ⟨t, ht, hend, honly⟩ := exec_ends_only (l := [.regs, .mgmt, .out, .col, .sw, .tbl, .aer]) (c := .ctxEnableComplete c) (s := s)
    rfl (onlyTouches_of_blank (completeEnable_blank _ (by decide) (by decide) (by decide) (by decide) (by decide) (by decide) (by decide)
      s c.val))
  obtain ⟨hstate, henabling, hplaced, hstep, hretained⟩ := completeEnable_spec s c.val fly plan he hp
  rw [← ctx_of_col hend.col] at hstate henabling hplaced hstep hretained
  exact ⟨t, ht, hstate, henabling, hplaced, hstep, hretained, honly⟩

/-- No answer of the partner in 2,500 ticks is a refusal (R342). -/
theorem twinCtxAcceptTimeout_refuses {since : Nat} {fly : Option InFlight} (ha : (s.ctx c.val).asking = some (since, fly))
    (hup : since + 2500 ≤ s.clk.up) :
    ∃ t, exec (.twinCtxAcceptTimeout c) s = .next t ∧ t.ctx c.val = { s.ctx c.val with asking := none, plan := none }
      ∧ OnlyTouches [.regs, .mgmt, .out, .col] s t := by
  have he : exec (.twinCtxAcceptTimeout c) s = done s (s.refuseAsking c.val 0) := by
    show done s (match (s.ctx c.val).asking with
      | some (since, _) => if since + 2500 ≤ s.clk.up then s.refuseAsking c.val 0 else s
      | none => s) = _
    rw [ha]
    exact congrArg (done s) (if_pos hup)
  obtain ⟨t, ht, hend, honly⟩ := exec_ends_only (l := [.regs, .mgmt, .out, .col]) he
    (onlyTouches_of_blank (refuseAsking_blank _ (by decide) (by decide) (by decide) (by decide) s c.val 0))
  refine ⟨t, ht, ?_, honly⟩
  rw [ctx_of_col hend.col]
  have hcol : (s.refuseAsking c.val 0).col = (s.setCtx c.val fun x => { x with asking := none, plan := none }).col := by
    unfold State.refuseAsking
    rw [ha]
    cases fly with
    | none => rfl
    | some f => exact reply_col ..
  rw [ctx_of_col hcol, State.ctx_setCtx_same]

theorem ctxLullBegin_lulls (hd : (s.ctx c.val).disabling = true) :
    ∃ t, exec (.ctxLullBegin c) s = .next t ∧ (t.ctx c.val).state = .lull ∧ (t.ctx c.val).disabling = false
      ∧ (∀ x ∈ t.col.slots, x.ctx = c.val → x.phase ≠ .opened) ∧ OnlyTouches [.regs, .mgmt, .col, .sw, .tbl, .aer] s t := by
  have hlull : s.lullNow c.val = (s.enterLull c.val).abortSlots c.val rsDisabled fun x => x.phase == .opened := if_pos hd
  obtain ⟨t, ht, hend, honly⟩ := exec_ends_only (l := [.regs, .mgmt, .col, .sw, .tbl, .aer]) (show exec (.ctxLullBegin c) s = done s (s.lullNow c.val) from rfl)
    (onlyTouches_of_blank (lullNow_blank _ (by decide) (by decide) (by decide) (by decide) (by decide) (by decide) s c.val))
  obtain ⟨hslots, hstate, hdis⟩ := abortSlots_spec (s.enterLull c.val) c.val rsDisabled fun x => x.phase == .opened
  rw [← hlull, ← ctx_of_col hend.col, State.enterLull, State.ctx_setCtx_same] at hstate hdis
  rw [← hlull, ← hend.col] at hslots
  refine ⟨t, ht, hstate, hdis, fun x hx hc hop => ?_, honly⟩
  have := hslots x hx hc
  rw [hop] at this
  cases this

theorem ctxLullDrained_idles (hm : s.mayIdle c.val = true) :
    ∃ t, exec (.ctxLullDrained c) s = .next t ∧ (t.ctx c.val).state = .idle ∧ (t.ctx c.val).placed = []
      ∧ (t.ctx c.val).resetting = none ∧ OnlyTouches [.regs, .mgmt, .out, .col, .aer] s t := by
  have he : exec (.ctxLullDrained c) s = done s (s.ctxIdle c.val) := congrArg (done s) (if_pos hm)
  obtain ⟨t, ht, hend, honly⟩ := exec_ends_only (l := [.regs, .mgmt, .out, .col, .aer]) he
    (onlyTouches_of_blank (ctxIdle_blank _ (by decide) (by decide) (by decide) (by decide) (by decide) s c.val))
  have hcol : (s.ctxIdle c.val).col = (s.setCtx c.val fun x => { x with
      state := .idle, placed := [], retained := [], lost := [], released := [], resetting := none, resetBegun := false
      resetAborted := false, startWait := [], startUp := none, timers := [], reports := [] }).col :=
    (State.each_col _ _ _ fun _ _ => reply_col ..).trans (alarmPlain_col ..)
  have hctx : t.ctx c.val = _ := (ctx_of_col (hend.col.trans hcol) _).trans (State.ctx_setCtx_same ..)
  exact ⟨t, ht, by rw [hctx], by rw [hctx], by rw [hctx], honly⟩

theorem ctxResetAborts_aborts (hb : (s.ctx c.val).resetBegun = true) (ha : (s.ctx c.val).resetAborted = false)
    (hn : s.dump.snaps.any (fun n => n.ctx == some c.val) = false) :
    ∃ t, exec (.ctxResetAborts c) s = .next t ∧ (t.ctx c.val).resetAborted = true ∧ (t.ctx c.val).timers = []
      ∧ (∀ x ∈ t.col.slots, x.ctx = c.val → x.unbegun = false) ∧ OnlyTouches [.regs, .mgmt, .col, .sw, .tbl, .aer] s t := by
  have he : exec (.ctxResetAborts c) s = done s (s.resetAborts c.val) := by
    refine congrArg (done s) (if_pos ?_)
    rw [hb, ha, hn]
    rfl
  obtain ⟨t, ht, hend, honly⟩ := exec_ends_only (l := [.regs, .mgmt, .col, .sw, .tbl, .aer]) he
    (onlyTouches_of_blank (resetAborts_blank _ (by decide) (by decide) (by decide) (by decide) (by decide) (by decide) s c.val))
  obtain ⟨hslots, _, _⟩ := abortSlots_spec s c.val rsReset Slot.unbegun
  have hctx : t.ctx c.val = { ((s.abortSlots c.val rsReset Slot.unbegun).dropContribs c.val).ctx c.val with
      resetAborted := true, timers := [], startUp := none } := (ctx_of_col hend.col _).trans (State.ctx_setCtx_same ..)
  refine ⟨t, ht, by rw [hctx], by rw [hctx], fun x hx => hslots x ?_, honly⟩
  rw [hend.col] at hx
  rw [← dropContribs_col _ c.val]
  exact hx

theorem progLoad_part {q : Req} {g : Segment} (h : TakenUp s q 0x08 (Segment.body g)) (hadm : s.isAdmin q = true) (hst : 3 ≤ s.serveStage)
    (h1 : q.hcp1 = false) (hfits : segFits 0x08 g = true) (hnew : s.transfer (ownerOf q) 0x08 g.transfer = none)
    (htwo : (s.mgmt.transfers.filter fun t => t.port == q.port).length < 2) (hpart : g.data.length < g.totalLen.toNat) :
    ∃ t x, exec (.progLoad q g) s = .next t ∧ Answered s t q 0x08 { code := .ok, detail := g.data.length }
      ∧ x ∈ t.mgmt.transfers ∧ x.owner = ownerOf q ∧ x.id = g.transfer ∧ x.total = g.totalLen.toNat
      ∧ x.image = g.data ∧ OnlyTouches [.regs, .mgmt, .out] s t := by
  refine serve_segment_part h _ _ (gate_refuses_none (taken_isAdmin _ _ hadm) (decide_eq_true ?_) hfits (.inl h1)) hnew htwo hpart
  rw [taken_stage]
  exact hst

/-- A first segment that is the whole image is handed to the command, which answers later. -/
theorem serve_segment_whole {s u : State} {q : Req} {op : Nat} {g : Segment} (h : TakenUp s q op (Segment.body g))
    (gate : State → Gate) (start : InFlight → State → Bytes → State × Option Answer)
    (hg : (gate (taken s q op (Segment.body g))).refuses q op = none) (hnew : s.transfer (ownerOf q) op g.transfer = none)
    (htwo : (s.mgmt.transfers.filter fun t => t.port == q.port).length < 2) (hwhole : g.data.length = g.totalLen.toNat)
    (hstart : start (flightOf q op (Segment.body g)) ((taken s q op (Segment.body g)).closeTransfer (ownerOf q) op g.transfer) g.data
      = (u, none)) (hpen : u.pending = s.pending) :
    ∃ t, done s (s.serve q op (Segment.body g) gate fun s f => s.takeSegment q op g (start f)) = .next t ∧ Leaves t u :=
  Exists.imp (fun _ ht => ⟨ht.1, ht.2.1⟩)
    (serve_deferred h gate _ hg ((segment_whole s q op g _ hnew htwo hwhole).trans hstart) hpen)

theorem progLoad_whole {q : Req} {g : Segment} (h : TakenUp s q 0x08 (Segment.body g)) (hadm : s.isAdmin q = true) (hst : 3 ≤ s.serveStage)
    (h1 : q.hcp1 = false) (hfits : segFits 0x08 g = true) (hnew : s.transfer (ownerOf q) 0x08 g.transfer = none)
    (htwo : (s.mgmt.transfers.filter fun t => t.port == q.port).length < 2) (hwhole : g.data.length = g.totalLen.toNat)
    (hf : s.progFails g.target.toNat g.data = none) :
    ∃ t j, exec (.progLoad q g) s = .next t ∧ (t.ctx g.target.toNat).loading = some j ∧ j.image = g.data ∧ j.fly.req = q
      ∧ OnlyTouches [.regs, .mgmt, .out, .col] s t := by
  let f := flightOf q 0x08 (Segment.body g)
  let S := (taken s q 0x08 (Segment.body g)).closeTransfer (ownerOf q) 0x08 g.transfer
  let j : ProgJob := ⟨f, g.data, S.clk.up⟩
  have hstart : S.startProg g.target.toNat g.data f = (S.setCtx g.target.toNat fun x => { x with loading := some j }, none) := by
    have hfS : S.progFails g.target.toNat g.data = none :=
      (taken_any (fun s => s.progFails g.target.toNat g.data) (fun _ _ => rfl) s q 0x08 (Segment.body g)).trans hf
    unfold State.startProg
    rw [hfS]
  obtain ⟨t, ht, hleaves⟩ : ∃ t, exec (.progLoad q g) s = .next t ∧ Leaves t (S.setCtx g.target.toNat fun x => { x with loading := some j }) :=
    serve_segment_whole h _ _
      (gate_refuses_none (taken_isAdmin _ _ hadm) (decide_eq_true ((taken_stage ..).symm ▸ hst)) hfits (.inl h1)) hnew htwo hwhole
      (by dsimp only; rw [hstart]; rfl) (taken_any State.pending (fun _ _ => rfl) ..)
  refine ⟨t, j, ht, ?_, rfl, rfl, hleaves.only (by simp) ?_⟩
  · rw [ctx_of_col hleaves.col, State.ctx_setCtx_same]
  · exact (setCtx_blank (h := by decide) ..).trans ((closeTransfer_blank (hmgmt := by decide) ..).trans (taken_blank _ rfl ..))

theorem progInstallComplete_installs {j : ProgJob} (hj : (s.ctx c.val).loading = some j) :
    ∃ t g, exec (.progInstallComplete c) s = .next t ∧ (t.ctx c.val).program = some g ∧ (t.ctx c.val).loading = none
      ∧ g.instrs = imageInstrs j.image ∧ g.measurement = sha512 (imageCode j.image)
      ∧ t.rget (ctxReg c.val 0x148) = (s.rget (ctxReg c.val 0x148) + 1) % 2 ^ 32 ∧ OnlyTouches [.regs, .mgmt, .out, .col] s t := by
  let b := j.image
  let g : Program := {
    instrs := imageInstrs b, planes := byteAt b 10, inBind := (sub b 12 6).map BitVec.toNat
    outBind := (sub b 18 4).map BitVec.toNat, planeFmt := (sub b 22 8).map BitVec.toNat
    measurement := sha512 (imageCode b) }
  have hinst : s.installProg c.val = ((s.setCtx c.val fun x => { x with program := some g, loading := none }).advance
      (ctxReg c.val 0x148)).reply j.fly okAns := by
    unfold State.installProg
    rw [hj]
  obtain ⟨t, ht, hend, honly⟩ := exec_ends_only (l := [.regs, .mgmt, .out, .col])
    (show exec (.progInstallComplete c) s = done s (s.installProg c.val) from rfl)
    (onlyTouches_of_blank (installProg_blank _ (by decide) (by decide) (by decide) (by decide) s c.val))
  have hctx : t.ctx c.val = { s.ctx c.val with program := some g, loading := none } :=
    (ctx_of_col (hend.col.trans (hinst ▸ reply_col ..)) _).trans (State.ctx_setCtx_same ..)
  refine ⟨t, g, ht, by rw [hctx], by rw [hctx], rfl, rfl, ?_, honly⟩
  rw [hend.rget, hinst, rget_reply _ _ _ _ (by rw [replyLost_reg]; unfold ctxReg; omega), State.rget_advance]
  rfl

end

/-- Settles O31, one lemma for each event. -/
theorem contextEventsAct : Obligations.ContextEventsAct := fun _ _ =>
  ⟨fun _ _ => ctxEnableComplete_activates, fun _ _ => twinCtxAcceptTimeout_refuses, ctxLullBegin_lulls, ctxLullDrained_idles,
    ctxResetAborts_aborts, fun _ _ => progLoad_part,
    fun _ _ h hadm hst h1 hfits hnew htwo _ hwhole hf => progLoad_whole h hadm hst h1 hfits hnew htwo hwhole hf,
    fun _ => progInstallComplete_installs⟩

end Sys2Proof.Machine
end

/-! PROOFS. How contributions reach their slots, how slots leave, and how the context manager's timers act (R188, R189, R196, R199,
R205, R207). -/

section
namespace Sys2Proof.Machine

/-! What a command may change -/

/-- Fewer parts changed are no more parts changed. -/
theorem OnlyTouches.weaken {l l' : List Part} {s t : State} (h : OnlyTouches l s t) (hl : l ⊆ l') : OnlyTouches l' s t :=
  ⟨h.1, fun p hp => h.2 p fun hm => hp (hl hm)⟩

/-- A command comes to its end, and has kept to parts that hold those it may change. -/
theorem exec_ends_within {c : Instr} {s u : State} {l : List Part} (he : exec c s = done s u) (hl : mayTouch c ⊆ l) :
    ∃ t, exec c s = .next t ∧ Ends t u ∧ OnlyTouches l s t := by
  obtain ⟨t, ht, hend, honly⟩ := exec_ends he
  exact ⟨t, ht, hend, honly.weaken hl⟩

section
variable {s : State}

/-! Contributions -/

theorem contribCellRx_corrupt {d : DieNo} {pos i : Nat} {x : Flying} (fc : FcCycle)
    (hx : (s.flyingTo d.val true)[pos]? = some (i, x)) (hlane : x.lane.isSome = true) :
    ∃ t, exec (.contribCellRx d pos true fc) s = .next t ∧ t.rget (fdReg d.val 0x118) = satAdd 64 (s.rget (fdReg d.val 0x118)) 1
      ∧ t.sw.flying = s.sw.flying.eraseIdx i ∧ t.col.slots = s.col.slots
      ∧ OnlyTouches [.regs, .clk, .sw, .tbl, .mgmt, .col, .aer] s t := by
  let S := (s.atFc fc).setSw fun w => { w with flying := w.flying.eraseIdx i }
  have he : exec (.contribCellRx d pos true fc) s = done s ((S.bump (fdReg d.val 0x118)).cellLeaves x.cell) := by
    show done s (match (s.flyingTo d.val true)[pos]? with
      | some x => (s.atFc fc).cellLands d.val x true fun s c => (s.gatherCell c).cellLeaves c
      | none => s.atFc fc) = _
    rw [hx]
    exact congrArg (done s) (if_pos hlane)
  obtain ⟨t, ht, hend, honly⟩ := exec_ends he
  refine ⟨t, ht, ?_, ?_, ?_, honly⟩
  · rw [hend.rget, cellLeaves_rget, State.rget_bump]
    rfl
  · rw [hend.sw, cellLeaves_flying]
    rfl
  · rw [hend.col, cellLeaves_slots]
    rfl

/-- What a context counts of a contribution whose last cell is good. -/
def countAccepted (s : State) (c : Nat) (good resent last : Bool) : State :=
  if good then
    let s := s.ctxCtr .contribAccepted c
    let s := if resent then s.ctxCtr .resendRx c else s
    if last then s.ctxCtr .lastRx c else s
  else s

theorem countAccepted_sameSize (s : State) (c : Nat) (good resent last : Bool) : SameSize s (countAccepted s c good resent last) c := by
  have h0 : SameSize s s c := ⟨rfl, rfl, rfl, rfl⟩
  unfold countAccepted
  cases good with
  | false => exact h0
  | true =>
    have h1 := sameSize_ctr h0 .contribAccepted
    cases resent with
    | false => cases last with
      | false => exact h1
      | true => exact sameSize_ctr h1 .lastRx
    | true => cases last with
      | false => exact sameSize_ctr h1 .resendRx
      | true => exact sameSize_ctr (sameSize_ctr h1 .resendRx) .lastRx

theorem SameSize.contribCells {s t : State} {c : Nat} (h : SameSize s t c) : t.contribCells c = s.contribCells c := by
  obtain ⟨_, _, h0, _⟩ := h
  have hcfg : t.cfg c 16 15 = s.cfg c 16 15 := State.fget_congr _ _ _ h0
  unfold State.contribCells State.payload
  rw [hcfg]

theorem SameSize.members {s t : State} {c : Nat} (h : SameSize s t c) : t.members c = s.members c := by
  obtain ⟨_, _, _, h4⟩ := h
  exact State.fget_congr _ _ _ h4

/-- A cell of a contribution that its open slot still lacks is taken into the slot (R192). -/
theorem gatherCell_slot {cell : Cell} {g : ContribTag} {y : Slot} (hg : cell.contrib = some g) (hact : (s.ctx g.ctx).state = .active)
    (hwin : (g.step + 65536 - s.stepOf g.ctx g.chunk) % 65536 < s.window g.ctx) (hrel : s.wasReleased g.ctx g.step g.chunk = false)
    (hy : s.slot cell.dest = some y) (hc : y.ctx = g.ctx) (hstep : y.step = g.step) (hchunk : y.chunk = g.chunk)
    (hopen : y.phase = .opened) (hnew : y.contribs.any (fun k => k.member == cell.seq && k.done) = false) :
    (s.gatherCell cell).slot cell.dest
      = some (y.takeCell cell g.weight (s.contribCells g.ctx) (s.members g.ctx) s.clk.up) := by
  let u := countAccepted s g.ctx (cell.last && !cell.trlBad) (bit g.flags 1) (bit g.flags 0)
  have hu : SameSize s u g.ctx := countAccepted_sameSize ..
  have he : s.gatherCell cell = u.setSlot (y.takeCell cell g.weight (u.contribCells g.ctx) (u.members g.ctx) u.clk.up) := by
    unfold State.gatherCell
    rw [hg]
    dsimp only
    rw [if_neg (by rw [hact]; decide), if_neg (by rw [hrel]; simpa using hwin), hy]
    dsimp only
    rw [if_pos ⟨hc, hstep, hchunk⟩]
    dsimp only
    rw [if_neg (by rw [hopen, hnew]; decide)]
    rfl
  rw [he, hu.contribCells, hu.members, hu.2.1]
  exact slot_setSlot _ y _ _ ((slot_of_slots (congrArg CollectSt.slots hu.1) _).trans hy)
    ((takeCell_desc ..).trans (slot_desc hy))

theorem contribCellRx_gathers {d : DieNo} {pos i : Nat} {x : Flying} (fc : FcCycle) {g : ContribTag} {y : Slot}
    (hx : (s.flyingTo d.val true)[pos]? = some (i, x)) (hg : x.cell.contrib = some g) (hact : (s.ctx g.ctx).state = .active)
    (hwin : (g.step + 65536 - s.stepOf g.ctx g.chunk) % 65536 < s.window g.ctx) (hrel : s.wasReleased g.ctx g.step g.chunk = false)
    (hy : s.slot x.cell.dest = some y) (hc : y.ctx = g.ctx) (hstep : y.step = g.step) (hchunk : y.chunk = g.chunk)
    (hopen : y.phase = .opened) (hnew : y.contribs.any (fun k => k.member == x.cell.seq && k.done) = false) :
    ∃ t, exec (.contribCellRx d pos false fc) s = .next t
      ∧ t.slot x.cell.dest = some (y.takeCell x.cell g.weight (s.contribCells g.ctx) (s.members g.ctx) s.clk.up)
      ∧ OnlyTouches [.regs, .clk, .sw, .tbl, .mgmt, .col, .aer] s t := by
  let S := (s.atFc fc).setSw fun w => { w with flying := w.flying.eraseIdx i }
  have he : exec (.contribCellRx d pos false fc) s = done s ((S.gatherCell x.cell).cellLeaves x.cell) := by
    show done s (match (s.flyingTo d.val true)[pos]? with
      | some x => (s.atFc fc).cellLands d.val x false fun s c => (s.gatherCell c).cellLeaves c
      | none => s.atFc fc) = _
    rw [hx]
    rfl
  obtain ⟨t, ht, hend, honly⟩ := exec_ends he
  refine ⟨t, ht, ?_, honly⟩
  rw [slot_of_slots ((congrArg CollectSt.slots hend.col).trans (cellLeaves_slots ..))]
  exact gatherCell_slot (s := S) hg hact hwin hrel hy hc hstep hchunk hopen hnew

/-! Slots -/

theorem slotRefill_readies {desc : Nat} {x : Slot} (hx : s.slot desc = some x) (hm : s.mayRefill x = true) :
    ∃ t, exec (.slotRefill desc) s = .next t
      ∧ t.slot desc = some { x with spilled := false, pages := s.pagesOf x, phase := .ready, readyUp := s.clk.up }
      ∧ OnlyTouches [.col] s t := by
  have he : exec (.slotRefill desc) s
      = done s (s.setSlot { x with spilled := false, pages := s.pagesOf x, phase := .ready, readyUp := s.clk.up }) := by
    show done s (match s.slot desc with | some x => _ | none => s) = _
    rw [hx]
    exact congrArg (done s) (if_pos hm)
  obtain ⟨t, ht, hend, honly⟩ := exec_ends he
  have hdesc : x.desc = desc := slot_desc hx
  exact ⟨t, ht, (slot_of_slots (congrArg CollectSt.slots hend.col) _).trans (slot_setSlot s x _ desc hx hdesc), honly⟩

theorem slotDeadline_aborts {desc : Nat} {x : Slot} (hx : s.slot desc = some x) (hd : s.pastDeadline x = true) :
    ∃ t, exec (.slotDeadline desc) s = .next t ∧ t.slot desc = none
      ∧ OnlyTouches [.regs, .sw, .tbl, .mgmt, .col, .aer, .flt, .out] s t := by
  have he : exec (.slotDeadline desc) s = done s (s.deadlines x.ctx) := by
    show done s (match s.slot desc with | some x => _ | none => s) = _
    rw [hx]
    exact congrArg (done s) (if_pos hd)
  obtain ⟨t, ht, hend, honly⟩ := exec_ends he
  refine ⟨t, ht, ?_, honly⟩
  rw [slot_of_slots (congrArg CollectSt.slots hend.col), ← slot_desc hx]
  exact slot_none (deadlines_gone s x (slot_mem hx) hd)

theorem resultRelease_releases {desc : Nat} {x : Slot} (hx : s.slot desc = some x) (hr : s.releaseReady x = true) :
    ∃ t, exec (.resultRelease desc) s = .next t ∧ t.slot desc = none
      ∧ (s.replays x.ctx = true → (s.ctx x.ctx).state ≠ .lull → mget (t.ctx x.ctx).retained x.chunk = some (x.step, x.result))
      ∧ OnlyTouches [.regs, .sw, .tbl, .mgmt, .col, .aer, .out] s t := by
  have he : exec (.resultRelease desc) s = done s (s.releaseSlot x) := by
    show done s (match s.slot desc with | some x => _ | none => s) = _
    rw [hx]
    exact congrArg (done s) (if_pos hr)
  obtain ⟨t, ht, hend, honly⟩ := exec_ends he
  obtain ⟨hgone, hkept⟩ := release_kept s x
  refine ⟨t, ht, ?_, ?_, honly⟩
  · rw [slot_of_slots (congrArg CollectSt.slots hend.col), ← slot_desc hx]
    exact slot_none hgone
  · rw [ctx_of_col hend.col]
    exact hkept

/-! The context manager -/

variable {c : CtxNo}

theorem startRound_none {k : Nat} (h : (s.ctx k).startWait = []) : s.startRound k = s.setCtx k fun y => { y with startUp := none } := by
  unfold State.startRound
  dsimp only
  rw [h]

/-- The last round has passed: START_INCOMPLETE (R205). -/
theorem startRound_last {k : Nat} (h : (s.ctx k).startWait ≠ []) (h0 : (s.ctx k).startRounds = 0) :
    ∃ low, s.startRound k
      = ((s.bset (ctxReg k 0x140) 1 true).alarm (ctxReg k 0) 16 0x0903 low).setCtx k fun y => { y with startUp := none } := by
  obtain ⟨low, rest, hw⟩ := List.exists_cons_of_ne_nil h
  refine ⟨low, ?_⟩
  unfold State.startRound
  dsimp only
  rw [hw, h0]

theorem startRound_again {k n : Nat} (h : (s.ctx k).startWait ≠ []) (hn : (s.ctx k).startRounds = n + 1) :
    ((s.startRound k).ctx k).startRounds = n ∧ ((s.startRound k).ctx k).startUp = some s.clk.up := by
  obtain ⟨low, rest, hw⟩ := List.exists_cons_of_ne_nil h
  let u := s.each (s.ctx k).startWait fun s m => s.originate (s.ctxCore k) (s.startMsg k) (.place (s.memberPlace k m))
  have hclk : u.clk = s.clk := each_keeps (fun z : State => z.clk) _ (fun w m =>
    (onlyTouches_of_blank (l := [.aer, .mgmt, .regs, .sw, .tbl])
      (originate_blank _ (by decide) (by decide) (by decide) (by decide) (by decide) w _ _ _ _)).2 .clk (by decide)) _ _
  have he : s.startRound k = u.setCtx k fun y => { y with startRounds := n, startUp := some u.clk.up } := by
    unfold State.startRound u
    dsimp only
    rw [hw, hn]
  rw [he, State.ctx_setCtx_same, hclk]
  exact ⟨rfl, rfl⟩

theorem startRetryTimeout_rounds {u : Nat} (hu : (s.ctx c.val).startUp = some u) (hup : u + s.fget (ctxReg c.val 0x134) 15 0 ≤ s.clk.up) :
    ∃ t, exec (.startRetryTimeout c) s = .next t ∧ OnlyTouches [.regs, .sw, .tbl, .mgmt, .col, .aer] s t
      ∧ ((s.ctx c.val).startWait = [] → t.ctx c.val = { s.ctx c.val with startUp := none })
      ∧ ((s.ctx c.val).startWait ≠ [] → (s.ctx c.val).startRounds = 0 →
          t.bget (ctxReg c.val 0x140) 1 = true ∧ t.bget (ctxReg c.val 0x010) 16 = true ∧ (t.ctx c.val).startUp = none)
      ∧ (∀ n : Nat, (s.ctx c.val).startWait ≠ [] → (s.ctx c.val).startRounds = n + 1 →
          (t.ctx c.val).startRounds = n ∧ (t.ctx c.val).startUp = some s.clk.up) := by
  have he : exec (.startRetryTimeout c) s = done s (s.startRound c.val) := by
    show done s (match (s.ctx c.val).startUp with
      | some t => if t + s.fget (ctxReg c.val 0x134) 15 0 ≤ s.clk.up then s.startRound c.val else s
      | none => s) = _
    rw [hu]
    exact congrArg (done s) (if_pos hup)
  obtain ⟨t, ht, hend, honly⟩ := exec_ends he
  refine ⟨t, ht, honly, fun hw => ?_, fun hw h0 => ?_, fun n hw hn => ?_⟩
  · rw [ctx_of_col hend.col, startRound_none hw, State.ctx_setCtx_same]
  · obtain ⟨low, hr⟩ := startRound_last hw h0
    rw [hend.bget, hend.bget, ctx_of_col hend.col, hr, State.bget_setCtx, State.bget_setCtx, State.ctx_setCtx_same]
    refine ⟨?_, ?_, rfl⟩
    · unfold State.bget
      rw [alarm_rget _ _ _ _ _ _ _ (by unfold ctxReg telReg; omega) (by unfold ctxReg; omega) (.inr (by unfold ctxReg; omega))]
      exact bget_bset_same _ _ _ _ (by decide)
    · exact alarm_bit _ _ _ _ _ _ (by decide) (by unfold ctxReg telReg; omega)
  · rw [ctx_of_col hend.col]
    exact startRound_again hw hn

theorem stepTimeout_expires {step : BitVec 16} {u : Nat} (hu : mget (s.ctx c.val).timers step.toNat = some u)
    (hup : u + s.fget (ctxReg c.val 0x130) 23 0 ≤ s.clk.up) :
    ∃ t, exec (.stepTimeout c step) s = .next t ∧ mget (t.ctx c.val).timers step.toNat = some s.clk.up
      ∧ mgetD (t.ctx c.val).aborts step.toNat 0 = mgetD (s.ctx c.val).aborts step.toNat 0 + (s.silentSpines c.val step.toNat).length
      ∧ OnlyTouches [.regs, .sw, .tbl, .mgmt, .col, .aer] s t := by
  have he : exec (.stepTimeout c step) s = done s (s.stepExpires c.val step.toNat) := by
    show done s (match mget (s.ctx c.val).timers step.toNat with
      | some t => if t + s.fget (ctxReg c.val 0x130) 23 0 ≤ s.clk.up then s.stepExpires c.val step.toNat else s
      | none => s) = _
    rw [hu]
    exact congrArg (done s) (if_pos hup)
  obtain ⟨t, ht, hend, honly⟩ := exec_ends he
  obtain ⟨htimers, haborts⟩ := stepExpires_ctx s c.val step.toNat
  rw [← ctx_of_col hend.col] at htimers haborts
  exact ⟨t, ht, htimers, haborts, honly⟩

end

/-- Settles O32, one lemma for each event. -/
theorem collectiveEventsAct : Obligations.CollectiveEventsAct := fun _ =>
  ⟨fun _ _ _ _ fc => contribCellRx_corrupt fc, fun _ _ _ _ fc _ _ => contribCellRx_gathers fc, fun _ _ => slotRefill_readies,
    fun _ _ => slotDeadline_aborts, fun _ _ => resultRelease_releases, fun _ _ => startRetryTimeout_rounds,
    fun _ _ _ => stepTimeout_expires⟩

end Sys2Proof.Machine
end

/-! PROOFS. How tiles and invocations issue and end, and how BIST passes end (R194, R232, R233, R236, R238, R240, R258, R265, R266). -/

section
namespace Sys2Proof.Machine

section
variable {s : State}

/-! Tiles -/

theorem tileIssue_issues {n : CoreNo} {x : Slot} (htrip : s.sys.tripped = false)
    (hnone : ∀ y ∈ s.col.slots, y.core = n.val → y.phase ≠ .issued) (horder : s.readyOrder n.val = [x]) (hx : s.slot x.desc = some x)
    (hus : ∃ i < 4, s.engUsable (4 * n.val + i) = true) (hmay : s.mayIssue x = true) :
    ∃ t y, exec (.tileIssue n) s = .next t ∧ t.slot x.desc = some y ∧ y.phase = .issued
      ∧ y.stagingBytes = s.stagingNeed x.ctx ∧ y.tiles.length = s.tiles x.ctx ∧ OnlyTouches [.regs, .mgmt, .col, .aer] s t := by
  have hgoing : (s.col.slots.filter fun y => y.core == n.val && y.phase == .issued) = [] :=
    List.filter_eq_nil_iff.mpr fun y hy h => by
      rw [Bool.and_eq_true, beq_iff_eq, beq_iff_eq] at h
      exact hnone y hy h.1 h.2
  have hdead : ([0, 1, 2, 3].all fun i => !s.engUsable (4 * n.val + i)) = false := by
    obtain ⟨i, hi, hu⟩ := hus
    rw [List.all_eq_false]
    exact ⟨i, by interval_cases i <;> decide, by simp [hu]⟩
  have he : exec (.tileIssue n) s = done s (s.issueChunk x) := by
    refine congrArg (done s) ?_
    unfold State.issueCore
    rw [if_neg (by simp [htrip]), hgoing]
    show s.each (s.readyOrder n.val) _ = _
    rw [horder]
    show (if ([0, 1, 2, 3].all fun i => !s.engUsable (4 * n.val + i)) = true then _ else _) = _
    rw [hdead, if_neg (by decide), if_pos hmay]
  obtain ⟨t, ht, hend, honly⟩ := exec_ends he
  obtain ⟨y, hy, hphase, hstaging, htiles⟩ := issueChunk_issued s x hx
  exact ⟨t, y, ht, (slot_of_slots (congrArg CollectSt.slots hend.col) _).trans hy, hphase, hstaging, htiles, honly⟩

theorem tileComplete_eq {e : EngineNo} {f : TileFault} {late : Bool} {x : Slot} {g : Tile} (hx : s.runningOn e.val = some (x, g)) :
    exec (.tileComplete e f late) s = done s ((if s.tilePasses x g.index f = true
      then ((tileBegins s e.val late).countTile x g.index e.val).tilePassed x g e.val f
      else ((tileBegins s e.val late).countTile x g.index e.val).tileFailed x g e.val).engIdle e.val) := by
  rw [← endTile_eq s e.val f late x g hx]
  exact congrArg (done s) (if_pos (by rw [hx]; exact Bool.or_true _))

/-- An engine whose tile has been counted keeps the rest it has begun, and its counters of tiles. -/
theorem tileCounted_spec (e : EngineNo) (late : Bool) (x : Slot) (g : Nat) :
    (((tileBegins s e.val late).countTile x g e.val).eng e.val).restUp = (s.eng e.val).issueUp + 1 + b2n late
      ∧ ∀ o ∈ [0x10C, 0x120], ((tileBegins s e.val late).countTile x g e.val).rget (engReg e.val o) = s.rget (engReg e.val o) := by
  obtain ⟨hrest, hreg⟩ := tileBegins_spec s e.val late
  obtain ⟨hengs, hkeep⟩ := countTile_keeps (tileBegins s e.val late) x g e.val
  refine ⟨(congrArg EngSt.restUp (eng_of_engs hengs _)).trans hrest, fun o ho => (hkeep o ho).trans ?_⟩
  rcases List.mem_cons.mp ho with rfl | ho
  · exact hreg _ (by decide) (by decide) (by decide)
  · rw [List.mem_singleton.mp ho]
    exact hreg _ (by decide) (by decide) (by decide)

theorem tileComplete_passes {e : EngineNo} {f : TileFault} (late : Bool) {x : Slot} {g : Tile} (hx : s.runningOn e.val = some (x, g))
    (hp : s.tilePasses x g.index f = true) :
    ∃ t, exec (.tileComplete e f late) s = .next t ∧ (t.eng e.val).restUp = (s.eng e.val).issueUp + 1 + b2n late
      ∧ t.rget (engReg e.val 0x114) = 0 ∧ t.rget (engReg e.val 0x120) = satAdd 64 (s.rget (engReg e.val 0x120)) 1
      ∧ OnlyTouches [.regs, .mgmt, .col, .aer] s t := by
  have he := tileComplete_eq (late := late) (f := f) hx
  rw [hp, if_pos rfl] at he
  obtain ⟨t, ht, hend, honly⟩ := exec_ends he
  obtain ⟨hrest, hreg⟩ := tileCounted_spec (s := s) e late x g.index
  obtain ⟨hengs, hctr⟩ := tilePassed_spec ((tileBegins s e.val late).countTile x g.index e.val) x g e.val (by omega) f
  refine ⟨t, ht, ?_, ?_, ?_, honly⟩
  · rw [State.eng_of_col hend.col, engIdle_rest, eng_of_engs hengs, hrest]
  · rw [hend.rget, engIdle_clear]
  · rw [hend.rget, engIdle_rget _ _ _ (by decide) (by decide) (by decide) (by decide), hctr, hreg _ (by simp)]

theorem tileComplete_fails {e : EngineNo} {f : TileFault} (late : Bool) {x : Slot} {g : Tile} (hx : s.runningOn e.val = some (x, g))
    (hp : s.tilePasses x g.index f = false) :
    ∃ t, exec (.tileComplete e f late) s = .next t ∧ (t.eng e.val).restUp = (s.eng e.val).issueUp + 1 + b2n late
      ∧ t.rget (engReg e.val 0x114) = 0 ∧ t.rget (engReg e.val 0x10C) = satAdd 32 (s.rget (engReg e.val 0x10C)) 1
      ∧ t.rget (engReg e.val 0x120) = s.rget (engReg e.val 0x120) ∧ OnlyTouches [.regs, .mgmt, .col, .aer] s t := by
  have he := tileComplete_eq (late := late) (f := f) hx
  rw [hp, if_neg (by decide)] at he
  obtain ⟨t, ht, hend, honly⟩ := exec_ends he
  obtain ⟨hrest, hreg⟩ := tileCounted_spec (s := s) e late x g.index
  obtain ⟨hengs, hfail, hpass⟩ := tileFailed_spec ((tileBegins s e.val late).countTile x g.index e.val) x g e.val (by omega)
  refine ⟨t, ht, ?_, ?_, ?_, ?_, honly⟩
  · rw [State.eng_of_col hend.col, engIdle_rest, eng_of_engs hengs, hrest]
  · rw [hend.rget, engIdle_clear]
  · rw [hend.rget, engIdle_rget _ _ _ (by decide) (by decide) (by decide) (by decide), hfail, hreg _ (by simp)]
  · rw [hend.rget, engIdle_rget _ _ _ (by decide) (by decide) (by decide) (by decide), hpass, hreg _ (by simp)]

theorem tileRerun_runs {desc tile : Nat} {x : Slot} {g : Tile} {e : Nat} (htrip : s.sys.tripped = false) (hx : s.slot desc = some x)
    (htiles : x.tiles.filter (fun y => y.index == tile && !y.failed.isEmpty) = [g]) (hphase : g.phase = .waiting)
    (hfrom : g.from_ ≤ s.clk.up) (heng : s.tileEngine x g = some e) (hfree : s.engFree e = true) :
    ∃ t, exec (.tileRerun desc tile) s = .next t ∧ t.engState e = 1 ∧ t.rget (engReg e 0x114) = (2 ^ 31 + x.ctx) % 2 ^ 64
      ∧ t.slot desc = some (x.setTile g.index fun y => { y with phase := .running e }) ∧ OnlyTouches [.regs, .mgmt, .col, .aer] s t := by
  have hstart : s.startTile desc g = s.runTile x g e := by
    unfold State.startTile
    rw [hx]
    dsimp only
    rw [if_neg (by simp [hphase]; exact hfrom), heng]
    exact if_pos hfree
  have he : exec (.tileRerun desc tile) s = done s (s.runTile x g e) := by
    refine congrArg (done s) ?_
    unfold State.rerunTile
    rw [if_neg (by simp [htrip]), hx]
    dsimp only
    rw [htiles]
    exact hstart
  obtain ⟨t, ht, hend, honly⟩ := exec_ends he
  have hdesc := slot_desc hx
  obtain ⟨hstate, hreg, hslot⟩ := runTile_spec s x g e (hdesc.symm ▸ hx)
  refine ⟨t, ht, (hend.fget ..).trans hstate, (hend.rget _).trans hreg, ?_, honly⟩
  rw [slot_of_slots (congrArg CollectSt.slots hend.col), ← hdesc, hslot]

/-! Invocations -/

/-- The work that an invocation begins is marked begun. -/
def workBegun (s : State) (w : UuWork) : State :=
  if w.mirror then (match s.mirrorOf w.ctx w.step w.chunk with | some m => s.setMirror { m with begun := true } | none => s)
  else (match s.updateSlot w.ctx w.step w.chunk with | some x => s.beginUpdate x | none => s)

/-- The invocation that goes on with a piece of work, for a run under a program. -/
def nextInvocation (s : State) (w : UuWork) (r : ChunkRun) (p : Program) : Invocation := {
  mirror := w.mirror, ctx := w.ctx, step := w.step, chunk := w.chunk, core := w.core, first := r.passes
  count := min (r.total - r.passes) (560 / passCost p.code), issueUp := s.clk.up }

theorem uuInvocationIssue_issues {n : CoreNo} {w : UuWork} {r : ChunkRun} {p : Program} (hmay : (s.chooseBanks).uuMayIssue n.val = true)
    (hnext : (s.chooseBanks).uuNext n.val = some w) (hrun : (s.chooseBanks).runOf w.mirror w.ctx w.step w.chunk = some r)
    (hprog : ((s.chooseBanks).ctx w.ctx).program = some p) :
    ∃ t i, exec (.uuInvocationIssue n) s = .next t ∧ t.uuState n.val = 1 ∧ (t.core n.val).running = some i
      ∧ i.first = r.passes ∧ i.count = min (r.total - r.passes) (560 / passCost p.code) ∧ (t.core n.val).uuChunk = some w.key
      ∧ OnlyTouches [.regs, .col, .twin, .out] s t := by
  have he : exec (.uuInvocationIssue n) s = done s (((workBegun s.chooseBanks w).setUuState n.val 1).setCore n.val fun k => { k with
      running := some (nextInvocation s.chooseBanks w r p), uuChunk := some w.key
      uuTurn := if w.begun then k.uuTurn else (w.ctx + 1) % 256 }) := by
    refine congrArg (done s) ?_
    unfold State.issueUu
    dsimp only
    rw [if_neg (by rw [hmay]; decide), hnext]
    dsimp only
    rw [hrun, hprog]
    rfl
  obtain ⟨t, ht, hend, honly⟩ := exec_ends he
  have hcore : t.core n.val = _ := (State.core_of_col hend.col _).trans (State.core_setCore_same ..)
  refine ⟨t, nextInvocation s.chooseBanks w r p, ht, ?_, by rw [hcore], rfl, rfl, by rw [hcore], honly⟩
  exact (hend.fget ..).trans (State.fget_fset_same (workBegun s.chooseBanks w) _ 3 0 1 (by decide))

/-- How an invocation's end begins: an overrun is counted, and the UU rests. -/
def invocationBegins (s : State) (n : Nat) (late : Bool) (i : Invocation) : State :=
  (if late then (s.bump32 (uuReg n 0x110)).bump (tickReg 0x1A0) else s).setCore n fun k => { k with uuRestUp := i.issueUp + 1 + b2n late }

theorem invocationBegins_rget (n : Nat) (late : Bool) (i : Invocation) :
    (invocationBegins s n late i).rget (uuReg n 0x108) = s.rget (uuReg n 0x108) := by
  unfold invocationBegins
  rw [State.rget_setCore]
  cases late with
  | false => rfl
  | true =>
    have htick : uuReg n 0x108 ≠ tickReg 0x1A0 := by
      intro h
      have := uuReg_mod n 0x108 (by decide)
      rw [h] at this
      exact absurd this (by decide)
    rw [if_pos rfl, State.rget_bump_ne _ _ _ _ htick,
      State.rget_bump32_ne _ _ _ _ (uuReg_off _ _ _ _ (by decide) (by decide) (by decide))]

theorem endInvocation_eq {n : Nat} (f : UuFault) (late : Bool) {i : Invocation} (hi : (s.core n).running = some i) :
    s.endInvocation n f late = match f with
      | .error => (invocationBegins s n late i).invocationFailed n i
      | .corrected k => ((invocationBegins s n late i).bump32 (uuReg n 0x10C) k).invocationPassed n i
      | .none => (invocationBegins s n late i).invocationPassed n i := by
  unfold State.endInvocation
  rw [hi]
  cases f <;> rfl

theorem uuInvocationEnd_ends {n : CoreNo} (f : UuFault) (late : Bool) {i : Invocation} (hi : (s.core n.val).running = some i) :
    ∃ t, exec (.uuInvocationEnd n f late) s = .next t ∧ (t.core n.val).running = none
      ∧ (f = .error → t.hbm = s.hbm ∧ t.rget (uuReg n.val 0x108) = satAdd 32 (s.rget (uuReg n.val 0x108)) 1)
      ∧ OnlyTouches [.regs, .hbm, .mgmt, .col, .twin, .aer, .sys, .out] s t := by
  obtain ⟨t, ht, hend, honly⟩ := exec_ends (show exec (.uuInvocationEnd n f late) s = done s (s.endInvocation n.val f late) from rfl)
  have heq := endInvocation_eq f late hi
  obtain ⟨hfree, hcount⟩ := invocationFailed_spec (invocationBegins s n.val late i) n.val i
  refine ⟨t, ht, ?_, ?_, honly⟩
  · rw [State.core_of_col hend.col, heq]
    cases f with
    | error => exact hfree
    | corrected k => exact invocationPassed_running ..
    | none => exact invocationPassed_running ..
  · rintro rfl
    refine ⟨?_, ?_⟩
    · have hbegin : (invocationBegins s n.val late i).hbm = s.hbm := by cases late <;> rfl
      rw [hend.hbm, heq, ← hbegin]
      exact (onlyTouches_of_blank (l := [.regs, .mgmt, .col, .aer, .sys])
        (invocationFailed_blank _ (by decide) (by decide) (by decide) (by decide) (by decide) _ n.val i)).2 .hbm (by decide)
    · rw [hend.rget, heq, hcount, invocationBegins_rget]

/-! BIST passes -/

variable {e : EngineNo}

/-- A fault outside the rows has a result of its own, whatever the rows hold (R236). -/
theorem bistOutcome_worse {b : BistFound} (h : b.column = true ∨ b.feeder = true ∨ b.accum = true) (unused : Nat) :
    (bistOutcome b unused).1 ≠ 1 ∧ (bistOutcome b unused).1 ≠ 2 := by
  unfold bistOutcome
  dsimp only
  split
  · decide
  · split
    · decide
    · split
      · decide
      · simp_all

/-- One faulty row of the array is its result and its FAULT_ROW. -/
theorem bistOutcome_row {b : BistFound} {r : Fin 16} (h : b.rows = [r.castSucc]) (h1 : b.column = false) (h2 : b.feeder = false)
    (h3 : b.accum = false) : bistOutcome b 16 = (2, r.val) := by
  have hr : (r.val != 16) = true := bne_iff_ne.mpr (Nat.ne_of_lt r.isLt)
  unfold bistOutcome
  rw [h, h1, h2, h3]
  simp [hr, List.eraseDups]
  rfl

/-- The status that a BIST pass leaves. -/
def bistStatus (s : State) (e : Nat) (b : BistFound) : Nat :=
  let r := bistOutcome b (if s.repaired e then s.fget (engReg e 0x100) 3 0 else 16)
  b2n (b.rows.any fun x => x.val == 16) * 2 ^ 21 + r.2 * 2 ^ 16 + r.1 * 2 ^ 8

theorem endEngBist_worse {b : BistFound} (n : Nat) (h : b.column = true ∨ b.feeder = true ∨ b.accum = true) :
    s.endEngBist n b = (s.rset (engReg n 0x00C) (bistStatus s n b)).quarantineEng n := by
  obtain ⟨hne1, hne2⟩ := bistOutcome_worse h (if s.repaired n then s.fget (engReg n 0x100) 3 0 else 16)
  unfold State.endEngBist
  dsimp only
  rw [if_neg hne1, if_neg (by simp [hne2])]
  rfl

theorem endEngBist_row {b : BistFound} {r : Fin 16} (n : Nat) (h : b.rows = [r.castSucc]) (h1 : b.column = false)
    (h2 : b.feeder = false) (h3 : b.accum = false) (hj : (s.eng n).judged = true) (hrep : s.repaired n = false) :
    s.endEngBist n b
      = (((s.rset (engReg n 0x00C) (bistStatus s n b)).quarantineEng n).alarm (engReg n 0) 16 0x0B03 r.val).newRepair n 1 r.val := by
  have hspare : (b.rows.any fun x => x.val == 16) = false := by
    rw [h]
    simp [Nat.ne_of_lt r.isLt]
  unfold State.endEngBist bistStatus
  dsimp only
  rw [hrep, if_neg (by decide : ¬ false = true), bistOutcome_row h h1 h2 h3, hspare, hj]
  rfl

theorem engBistComplete_ends (b : BistFound) (hst : s.engState e.val = 2) (hup : (s.eng e.val).bistUp + 125 ≤ s.clk.up) :
    ∃ t, exec (.engBistComplete e b) s = .next t ∧ OnlyTouches [.regs, .mgmt, .fuse, .col, .aer] s t
      ∧ (b.rows = [] → b.column = false → b.feeder = false → b.accum = false →
          t.engState e.val = 0 ∧ t.fget (engReg e.val 0x00C) 15 8 = 1)
      ∧ (b.column = true ∨ b.feeder = true ∨ b.accum = true →
          t.engState e.val = 3 ∧ t.bget (engReg e.val 0x010) 17 = true)
      ∧ (∀ r : Fin 16, b.rows = [r.castSucc] → b.column = false → b.feeder = false → b.accum = false → (s.eng e.val).judged = true →
          s.repaired e.val = false →
          t.engState e.val = 2 ∧ t.rget (engReg e.val 0x100) = 2 ^ 31 + r.val
            ∧ mget t.fuse.repairs e.val = some (BitVec.ofNat 32 (2 ^ 31 + r.val))) := by
  obtain ⟨t, ht, hend, honly⟩ := exec_ends (show exec (.engBistComplete e b) s = done s (s.endEngBist e.val b) from
    congrArg (done s) (if_pos ⟨hst, hup⟩))
  have hstate : t.engState e.val = (s.endEngBist e.val b).engState e.val := hend.fget ..
  refine ⟨t, ht, honly, fun h0 h1 h2 h3 => ?_, fun h => ?_, fun r h0 h1 h2 h3 hj hrep => ?_⟩
  · rw [hstate, hend.fget, endEngBist_pass s e.val b h0 h1 h2 h3]
    unfold State.engState State.fget
    rw [State.rget_rset_same]
    decide
  · rw [hstate, hend.bget, endEngBist_worse e.val h]
    exact ⟨quarantine_state .., quarantine_bit ..⟩
  · let Q := (s.rset (engReg e.val 0x00C) (bistStatus s e.val b)).quarantineEng e.val
    have hQ : (Q.alarm (engReg e.val 0) 16 0x0B03 r.val).engState e.val = 3 :=
      (State.fget_congr _ _ _ (alarm_page _ _ _ _ _ _ _ 0x00C (engReg_mod _ _ (by decide)) (engReg_mod _ _ (by decide)) (by decide)
        (by decide) (engReg_tel _ _ (by decide) (by decide)))).trans (quarantine_state ..)
    obtain ⟨hfuse, hreg, htest⟩ := newRepair_spec (Q.alarm (engReg e.val 0) 16 0x0B03 r.val) e.val 1 r.val
    have hr : 1 * 2 ^ 31 + r.val % 16 = 2 ^ 31 + r.val := by omega
    rw [hstate, hend.rget, hend.fuse, endEngBist_row e.val h0 h1 h2 h3 hj hrep]
    refine ⟨(htest (.inr hQ)).1, ?_, ?_⟩
    · rw [hreg, hr]
      omega
    · rw [hfuse, hr]
      exact mget_mput_same ..

theorem uuBistComplete_ends {n : CoreNo} (pass : Bool) (hst : s.uuState n.val = 2) (hup : (s.core n.val).uuBistUp + 25 ≤ s.clk.up) :
    ∃ t, exec (.uuBistComplete n pass) s = .next t ∧ t.uuState n.val = (if pass then 0 else 3)
      ∧ t.fget (uuReg n.val 0x00C) 11 8 = (if pass then 1 else 2) ∧ OnlyTouches [.regs, .mgmt, .col, .aer] s t := by
  obtain ⟨t, ht, hend, honly⟩ := exec_ends (show exec (.uuBistComplete n pass) s = done s (s.endUuBist n.val pass) from
    congrArg (done s) (if_pos ⟨hst, hup⟩))
  have hstate : t.uuState n.val = (s.endUuBist n.val pass).uuState n.val := hend.fget ..
  refine ⟨t, ht, ?_, ?_, honly⟩
  · rw [hstate]
    cases pass with
    | true => exact State.fget_fset_same _ _ 3 0 0 (by decide)
    | false => exact (quarantineUu_state _ n.val).1
  · rw [hend.fget]
    cases pass with
    | true => exact (fset_low ..).trans (State.fget_fset_same _ _ 11 8 1 (by decide))
    | false => exact (quarantineUu_state _ n.val).2.trans (State.fget_fset_same _ _ 11 8 2 (by decide))

end

/-- Settles O33, one lemma for each event. -/
theorem computeEventsAct : Obligations.ComputeEventsAct := fun _ =>
  ⟨fun _ _ => tileIssue_issues, fun _ _ late _ _ => tileComplete_passes late, fun _ _ late _ _ => tileComplete_fails late,
    fun _ _ _ _ _ => tileRerun_runs, fun _ _ _ _ => uuInvocationIssue_issues, fun _ f late _ => uuInvocationEnd_ends f late,
    fun _ => engBistComplete_ends, fun _ => uuBistComplete_ends⟩

end Sys2Proof.Machine
end

/-! PROOFS. How gaps are skipped, how cells spill and refill, and how credits and keepalives pass (R91, R92, R94, R99, R354). -/

section
namespace Sys2Proof.Machine

section
variable {s : State}

/-! Gaps -/

theorem cellLeaves_flows (c : Cell) : (s.cellLeaves c).sw.flows = s.sw.flows := by
  unfold State.cellLeaves
  repeat' split
  all_goals rfl

theorem flowOf_cellLeaves (c : Cell) (k : FlowKey) : (s.cellLeaves c).flowOf k = s.flowOf k := by
  unfold State.flowOf
  rw [cellLeaves_flows]

/-- A flow that is stored changed, under its own key. -/
theorem flowOf_setFlow_changed (k : FlowKey) (g : Flow → Flow) (hg : ∀ f, (g f).key = f.key) :
    (s.setFlow (g (s.flowOf k))).flowOf k = g (s.flowOf k) :=
  setFlow_flowOf s _ k ((hg _).trans (flow_key s k))

/-- A cell that does not end its packet, released to a flow that has nothing in assembly, moves the expected number on. -/
theorem assemble_open (k : FlowKey) (c : Cell) (hlast : c.last = false) (hempty : (s.flowOf k).asm = []) :
    ((s.assemble k c).flowOf k).held = (s.flowOf k).held ∧ ((s.assemble k c).flowOf k).expect = (c.seq + 1) % 65536 := by
  have hkey : (s.flowOf k).key = k := flow_key s k
  have hdepth : ∀ (u : State) (p vc : Nat), (u.depthMax p vc).flowOf k = u.flowOf k := fun u p vc => flowOf_of_sw (depthMax_spec u p vc).1 k
  unfold State.assemble
  extract_lets f f' opened u v more w x
  split
  · rw [if_neg (by rw [hlast]; decide)]
    have hflow : v.flowOf k = opened := by
      have hu : u.flowOf k = opened := setFlow_flowOf s opened k hkey
      show (if k.multicast = true then u else u.depthMax k.dest k.vc).flowOf k = opened
      split
      · exact hu
      · exact (hdepth ..).trans hu
    rw [hflow]
    exact ⟨rfl, rfl⟩
  · rw [if_pos (by
      show (f'.poisoned || f'.asm.isEmpty) = true
      rw [show f'.asm = [] from hempty]
      exact Bool.or_true _), flowOf_cellLeaves, setFlow_flowOf s { f' with poisoned := !c.last } k hkey]
    exact ⟨rfl, rfl⟩

/-- The counters of a port are not the depths of its queues. -/
theorem portCtr_ne_depth (c : PortCtr) (p q vc : Nat) (hvc : vc < 4) : c.reg p ≠ portReg q (0x180 + 4 * vc) := by
  have hc : c.ctorIdx < 60 := by cases c <;> decide
  unfold PortCtr.reg portReg
  omega

theorem assemble_open_rget (k : FlowKey) (c : Cell) (hlast : c.last = false) (hempty : (s.flowOf k).asm = []) (hvc : k.vc < 4)
    (ctr : PortCtr) (p : Nat) : (s.assemble k c).rget (ctr.reg p) = s.rget (ctr.reg p) := by
  unfold State.assemble
  extract_lets f f' opened u v more w x
  split
  · rw [if_neg (by rw [hlast]; decide)]
    show (if k.multicast = true then u else u.depthMax k.dest k.vc).rget _ = _
    split
    · rfl
    · exact (depthMax_spec u _ _).2.2 _ (portCtr_ne_depth ctr p _ _ hvc)
  · rw [if_pos (by
      show (f'.poisoned || f'.asm.isEmpty) = true
      rw [show f'.asm = [] from hempty]
      exact Bool.or_true _), cellLeaves_rget]
    rfl

/-- A flow whose packet in assembly is given up (R98). -/
theorem abandonAsm_spec (k : FlowKey) (hcut : (s.flowOf k).cutSent = none) :
    (s.abandonAsm k).flowOf k = { s.flowOf k with asm := [], poisoned := true, cut := false }
      ∧ ∀ a, (s.abandonAsm k).rget a = s.rget a := by
  unfold State.abandonAsm
  dsimp only
  rw [hcut, if_neg (by decide)]
  refine ⟨setFlow_flowOf _ _ k (flow_key s k), fun a => ?_⟩
  exact foldl_keeps (fun u : State => u.rget a) State.cellLeaves (fun u c => cellLeaves_rget u c a) _ s

/-- A gap before the only cell that a flow holds is skipped: the cell is released. -/
theorem skipGap_one (k : FlowKey) (ctr : PortCtr) {c : Cell} {n : Nat} (hheld : (s.flowOf k).held = [(c, n)]) (hseq : c.seq < 65536)
    (hexp : (s.flowOf k).expect < 65536) (hlast : c.last = false) (hvc : k.vc < 4) (hcut : (s.flowOf k).cutSent = none) :
    ((s.skipGap k ctr).flowOf k).held = [] ∧ ((s.skipGap k ctr).flowOf k).expect = (c.seq + 1) % 65536
      ∧ (s.skipGap k ctr).rget (ctr.reg (flowPage k)) = satAdd 64 (s.rget (ctr.reg (flowPage k))) 1 := by
  let f := s.flowOf k
  let A := (s.portCtr ctr (flowPage k)).abandonAsm k
  let d := (c.seq + 65536 - f.expect) % 65536
  let B := A.setFlow { A.flowOf k with expect := (f.expect + d) % 65536 }
  have hkey : f.key = k := flow_key s k
  have hd : (f.expect + d) % 65536 = c.seq := by
    show (f.expect + (c.seq + 65536 - f.expect) % 65536) % 65536 = c.seq
    have : f.expect < 65536 := hexp
    omega
  obtain ⟨hA, hAr⟩ := abandonAsm_spec (s := s.portCtr ctr (flowPage k)) k hcut
  have hB : B.flowOf k = { f with asm := [], poisoned := true, cut := false, expect := c.seq } := by
    refine (flowOf_setFlow_changed k (fun g => { g with expect := (f.expect + d) % 65536 }) fun _ => rfl).trans ?_
    rw [hd, show A.flowOf k = { f with asm := [], poisoned := true, cut := false } from hA]
  let C := B.setFlow { B.flowOf k with held := [] }
  have hC : C.flowOf k = { f with asm := [], poisoned := true, cut := false, expect := c.seq, held := [] } := by
    refine (flowOf_setFlow_changed k (fun g => { g with held := [] }) fun _ => rfl).trans ?_
    rw [hB]
  have hempty : (C.flowOf k).asm = [] := by rw [hC]
  obtain ⟨hCheld, hCexp⟩ := assemble_open (s := C) k c hlast hempty
  rw [hC] at hCheld
  have hskip : s.skipGap k ctr = C.assemble k c := by
    have hlow : f.lowestHeld = some d := by
      show leastOf (f.held.map _) = _
      rw [show f.held = [(c, n)] from hheld]
      rfl
    have hrel : B.releaseHeld 2 k = State.releaseHeld 1 (C.assemble k c) k := by
      have hfind : ((B.flowOf k).held.find? fun x => x.1.seq == (B.flowOf k).expect) = some (c, n) := by
        rw [hB]
        show f.held.find? (fun x => x.1.seq == c.seq) = some (c, n)
        rw [show f.held = [(c, n)] from hheld]
        exact List.find?_cons_of_pos (beq_self_eq_true c.seq)
      have hdrop : ((B.flowOf k).held.filter fun y => y.1.seq != c.seq) = [] := by
        rw [hB]
        show f.held.filter (fun y => y.1.seq != c.seq) = []
        rw [show f.held = [(c, n)] from hheld]
        simp
      rw [State.releaseHeld]
      dsimp only
      rw [hfind]
      dsimp only
      rw [hdrop]
    unfold State.skipGap
    dsimp only
    rw [show (s.flowOf k).lowestHeld = some d from hlow, hheld]
    exact hrel.trans (releaseHeld_none _ _ _ hCheld)
  rw [hskip]
  refine ⟨hCheld, hCexp, ?_⟩
  rw [assemble_open_rget k c hlast hempty hvc]
  exact (hAr _).trans (State.rget_bump ..)

theorem reseqTimeout_skips {flow : FlowKey} {fc : FcCycle} {c : Cell} {n : Nat} (hheld : (s.flowOf flow).held = [(c, n)])
    (hseq : c.seq < 65536) (hexp : (s.flowOf flow).expect < 65536) (hlast : c.last = false) (hvc : flow.vc < 4)
    (hcut : (s.flowOf flow).cutSent = none) (hup : n + 6400 ≤ (s.atFc fc).fcNow) :
    ∃ t, exec (.reseqTimeout flow fc) s = .next t ∧ (t.flowOf flow).held = [] ∧ (t.flowOf flow).expect = (c.seq + 1) % 65536
      ∧ t.rget (PortCtr.reseqTimeout.reg (flowPage flow)) = satAdd 64 (s.rget (PortCtr.reseqTimeout.reg (flowPage flow))) 1
      ∧ OnlyTouches [.regs, .clk, .sw, .col, .out] s t := by
  have hgap : ((s.atFc fc).flowOf flow).gapFc = some n := by
    show leastOf ((s.flowOf flow).held.map Prod.snd) = some n
    rw [hheld]
    rfl
  have he : exec (.reseqTimeout flow fc) s = done s ((s.atFc fc).skipGap flow .reseqTimeout) := by
    show done s (match ((s.atFc fc).flowOf flow).gapFc with
      | some n => if n + 6400 ≤ (s.atFc fc).fcNow then (s.atFc fc).skipGap flow .reseqTimeout else s.atFc fc
      | none => s.atFc fc) = _
    rw [hgap]
    exact congrArg (done s) (if_pos hup)
  obtain ⟨t, ht, hend, honly⟩ := exec_ends he
  obtain ⟨h1, h2, h3⟩ := skipGap_one (s := s.atFc fc) flow .reseqTimeout hheld hseq hexp hlast hvc hcut
  rw [← flowOf_of_sw hend.sw] at h1 h2
  exact ⟨t, ht, h1, h2, (hend.rget _).trans h3, honly⟩

/-! Cells in PKT_OVF -/

theorem take_length_take {α : Type} (l : List α) (m : Nat) : l.take (l.take m).length = l.take m := by
  rw [List.length_take, ← List.take_eq_take_min]

theorem pktSpill_spills {die : DieNo} (hon : s.ovfOn die.val = true) (hrefill : refillWants die.val s.sw.voq [] 0 = [])
    (hbudget : 0 < s.ovfBudget die.val) (hcredit : (s.chargedPairs die.val).flatMap (fun k => s.creditSpill k.1 k.2) = [])
    (hshared : s.sharedSpill die.val ≠ []) (hroom : s.sharedSpilled die.val < s.ovfVc3Max die.val) :
    ∃ t n, exec (.pktSpill die) s = .next t ∧ 0 < n ∧ (t.die die.val).ovfMoved = (s.die die.val).ovfMoved + n
      ∧ t.sw.voq = s.sw.voq.zipIdx.map (fun x => if ((s.sharedSpill die.val).take n).contains x.2 then { x.1 with spilled := true, charged := false } else x.1)
      ∧ OnlyTouches [.regs, .sw] s t := by
  let m := min (s.ovfBudget die.val) (s.ovfVc3Max die.val - s.sharedSpilled die.val)
  let idx := (s.sharedSpill die.val).take m
  have hm : 0 < m := by
    show 0 < min _ _
    omega
  have hne : idx ≠ [] := fun h => (List.take_eq_nil_iff.mp h).elim (Nat.pos_iff_ne_zero.mp hm) hshared
  obtain ⟨t, ht, hend, honly⟩ := exec_ends (c := .pktSpill die) (spill_exec s die m hon hrefill hcredit rfl hne)
  obtain ⟨hmoved, hvoq⟩ := moved_spec s die.val idx.length (fdReg die.val 0) 0x102 idx fun c => { c with spilled := true, charged := false }
  refine ⟨t, idx.length, ht, List.length_pos_iff.mpr hne, ?_, ?_, honly⟩
  · rw [State.die_of_sw hend.sw, hmoved]
  · rw [hend.sw, hvoq, take_length_take]

theorem pktRefill_refills {die : DieNo} (hon : s.ovfOn die.val = true) (hbudget : 0 < s.ovfBudget die.val)
    (hwants : refillWants die.val s.sw.voq [] 0 ≠ []) :
    ∃ t n, exec (.pktRefill die) s = .next t ∧ 0 < n ∧ (t.die die.val).ovfMoved = (s.die die.val).ovfMoved + n
      ∧ t.sw.voq = s.sw.voq.zipIdx.map (fun x => if ((refillWants die.val s.sw.voq [] 0).take n).contains x.2 then { x.1 with spilled := false } else x.1)
      ∧ OnlyTouches [.regs, .sw] s t := by
  let idx := (refillWants die.val s.sw.voq [] 0).take (s.ovfBudget die.val)
  have hne : idx ≠ [] := fun h => (List.take_eq_nil_iff.mp h).elim (Nat.pos_iff_ne_zero.mp hbudget) hwants
  have he : exec (.pktRefill die) s = done s (((s.mapCells idx fun c => { c with spilled := false }).ovfMoves die.val idx.length).pmc
      (fdReg die.val 0) 0x103 idx.length) := congrArg (done s) (if_pos ⟨hon, hne⟩)
  obtain ⟨t, ht, hend, honly⟩ := exec_ends he
  obtain ⟨hmoved, hvoq⟩ := moved_spec s die.val idx.length (fdReg die.val 0) 0x103 idx fun c => { c with spilled := false }
  refine ⟨t, idx.length, ht, List.length_pos_iff.mpr hne, ?_, ?_, honly⟩
  · rw [State.die_of_sw hend.sw, hmoved]
  · rw [hend.sw, hvoq, take_length_take]

/-! Credits and keepalives -/

variable {port : PortNo}

theorem creditBlockRx_notes {block : Bytes} (hrx : s.portReceives port.val = true) (hlen : block.length = 8)
    (hcode : byteAt block 0 = 0xC5) (hcred : s.credited port.val (byteAt block 1 % 4) = true) :
    ∃ t, exec (.creditBlockRx port block) s = .next t
      ∧ mget (t.port port.val).creditSeen (byteAt block 1 % 4) = some (fld block 4 4)
      ∧ (∀ vc, vc ≠ byteAt block 1 % 4 → mget (t.port port.val).creditSeen vc = mget (s.port port.val).creditSeen vc)
      ∧ (∀ p, p ≠ port.val → t.port p = s.port p) ∧ OnlyTouches [.sw] s t := by
  have he : exec (.creditBlockRx port block) s
      = done s (s.setPort port.val fun x => { x with creditSeen := mput x.creditSeen (byteAt block 1 % 4) (fld block 4 4) }) :=
    congrArg (done s) (if_pos ⟨hrx, hlen, hcode, hcred⟩)
  obtain ⟨t, ht, hend, honly⟩ := exec_ends he
  have hport := port_of_sw hend.sw
  refine ⟨t, ht, ?_, fun vc hvc => ?_, fun p hp => ?_, honly⟩
  · rw [hport, State.port_setPort_same]
    exact mget_mput_same ..
  · rw [hport, State.port_setPort_same]
    exact mget_mput_ne _ _ _ _ hvc
  · rw [hport, State.port_setPort_ne _ _ _ _ hp]

theorem creditBlockTx_sends {vc : VcNo} (htx : s.portSends port.val = true) (hcred : s.credited port.val vc.val = true)
    (hnew : mget (s.port port.val).freedSent vc.val ≠ some (s.creditCount port.val vc.val)) :
    ∃ t, exec (.creditBlockTx port vc) s = .next t
      ∧ t.out = .block port.val (creditBlock vc.val (s.creditCount port.val vc.val)) :: s.out
      ∧ mget (t.port port.val).freedSent vc.val = some (s.creditCount port.val vc.val)
      ∧ (∀ p, p ≠ port.val → t.port p = s.port p) ∧ OnlyTouches [.sw, .out] s t := by
  let F := s.setPort port.val fun x => { x with freedSent := mput x.freedSent vc.val (s.creditCount port.val vc.val) }
  have he : exec (.creditBlockTx port vc) s = done s (F.sendBlock port.val (creditBlock vc.val (s.creditCount port.val vc.val))) :=
    congrArg (done s) (if_pos ⟨htx, hcred, hnew⟩)
  obtain ⟨t, ht, hend, honly⟩ := exec_ends he
  have hport : ∀ p, t.port p = (F.setPort port.val fun x => { x with lastSentFc := max x.lastSentFc F.fcNow }).port p := port_of_sw hend.sw
  refine ⟨t, ht, hend.out, ?_, fun p hp => ?_, honly⟩
  · rw [hport, State.port_setPort_same, State.port_setPort_same]
    exact mget_mput_same ..
  · rw [hport, State.port_setPort_ne _ _ _ _ hp, State.port_setPort_ne _ _ _ _ hp]

theorem keepaliveTx_sends {fc : FcCycle} (hleads : s.leads port.val = true) (hstage : s.atStage 1 = true) (hfatal : s.fatal = false)
    (hen : (s.port port.val).enabled = true) (hkite : (s.port port.val).kite = false) (hlanes : 0 < s.lanesNow port.val)
    (hmode : s.mode port.val ≠ 1) (hbusy : (s.port port.val).busyTo ≤ (s.atFc fc).fcNow)
    (hidle : (s.port port.val).lastSentFc + 800 ≤ (s.atFc fc).fcNow) :
    ∃ t, exec (.keepaliveTx port fc) s = .next t ∧ t.out = .block port.val (beBytes 1 0x4B ++ zeros 7) :: s.out
      ∧ (t.port port.val).lastSentFc = (s.atFc fc).fcNow
      ∧ (∀ p, p ≠ port.val → t.port p = s.port p) ∧ OnlyTouches [.clk, .sw, .out] s t := by
  have hlit : (s.leads port.val && s.atStage 1 && !s.fatal && (s.port port.val).enabled && !(s.port port.val).kite
      && decide (0 < s.lanesNow port.val)) = true := by
    simp [hleads, hstage, hfatal, hen, hkite, hlanes]
  have he : exec (.keepaliveTx port fc) s = done s ((s.atFc fc).sendBlock port.val (beBytes 1 0x4B ++ zeros 7)) :=
    congrArg (done s) (if_pos ⟨hlit, hmode, hbusy, hidle⟩)
  obtain ⟨t, ht, hend, honly⟩ := exec_ends he
  have hport : ∀ p, t.port p
      = ((s.atFc fc).setPort port.val fun x => { x with lastSentFc := max x.lastSentFc (s.atFc fc).fcNow }).port p := port_of_sw hend.sw
  refine ⟨t, ht, hend.out, ?_, fun p hp => ?_, honly⟩
  · rw [hport, State.port_setPort_same]
    exact Nat.max_eq_right (Nat.le_trans (Nat.le_add_right ..) hidle)
  · rw [hport, State.port_setPort_ne _ _ _ _ hp]
    rfl

theorem dtdCreditReturn_returns {vc : VcNo} {src : DieNo} {n : Nat} (hback : aget s.sw.dtdBack (port.val, vc.val, src.val) = some (n + 1)) :
    ∃ t, exec (.dtdCreditReturn port vc src) s = .next t
      ∧ aget t.sw.dtdBack (port.val, vc.val, src.val) = some n
      ∧ t.dtdInUse port.val vc.val src.val = s.dtdInUse port.val vc.val src.val - 1
      ∧ OnlyTouches [.sw] s t := by
  let k := (port.val, vc.val, src.val)
  have hget : (aget s.sw.dtdBack k).getD 0 = n + 1 := by
    rw [show aget s.sw.dtdBack k = some (n + 1) from hback]
    rfl
  have he : exec (.dtdCreditReturn port vc src) s = done s (s.setSw fun w => { w with
      dtdBack := aput w.dtdBack k n, dtdUsed := aput w.dtdUsed k (s.dtdInUse port.val vc.val src.val - 1) }) := by
    show done s (if (aget s.sw.dtdBack k).getD 0 = 0 then s else s.setSw fun w => { w with
      dtdBack := aput w.dtdBack k ((aget s.sw.dtdBack k).getD 0 - 1)
      dtdUsed := aput w.dtdUsed k (s.dtdInUse port.val vc.val src.val - 1) }) = _
    rw [hget]
    rfl
  obtain ⟨t, ht, hend, honly⟩ := exec_ends he
  refine ⟨t, ht, ?_, ?_, honly⟩
  · rw [hend.sw]
    exact aget_aput_same ..
  · unfold State.dtdInUse
    rw [hend.sw]
    exact congrArg (fun o : Option Nat => o.getD 0) (aget_aput_same ..)

end

/-- Settles O35, one lemma for each form. -/
theorem gapsAndOverflowAct : Obligations.GapsAndOverflowAct :=
  ⟨fun _ _ _ _ _ => reseqTimeout_skips, fun _ _ => pktSpill_spills, fun _ _ => pktRefill_refills⟩

/-- Settles O36, one lemma for each kind of block. -/
theorem creditBlocksAct : Obligations.CreditBlocksAct := fun _ _ =>
  ⟨fun _ => creditBlockRx_notes, fun _ => creditBlockTx_sends, fun _ => keepaliveTx_sends, fun _ _ _ => dtdCreditReturn_returns⟩

end Sys2Proof.Machine
end

/-! PROOFS. How arriving headers are judged and queued, and how packets and frames end (R23, R63, R73, R74, R81, R85, R322). -/

section
namespace Sys2Proof.Machine

section
variable {s : State} {port : PortNo} {fc : FcCycle} {frame : Bytes}

/-! Arriving headers -/

/-- A header that is taken in on a WFP port. -/
theorem headerTaken_wfp {u : State} {l : List Part} {fec : Bool} {e : Option TblKind} (hrx : (s.atFc fc).portReceives port.val = true)
    (hmode : (s.atHeader port.val fc).mode port.val ≠ 1)
    (hu : (s.atHeader port.val fc).takeWfp port.val s.sw.nextPkt fec frame e = u)
    (hl : [Part.regs, .clk, .sw] ⊆ l)
    (hb : u.blank (fun p => decide (p ∈ l)) = (s.atHeader port.val fc).blank fun p => decide (p ∈ l)) :
    ∃ t, exec (.headerTaken port fc fec frame e) s = .next t ∧ Ends t u ∧ OnlyTouches l s t := by
  refine exec_ends_only ((take_eq s port fc fec frame e hrx).trans (congrArg (done s) ?_))
    (onlyTouches_of_blank (hb.trans (header_blank l (hl (by decide)) (hl (by decide)) (hl (by decide)) s port.val fc)))
  rw [if_neg hmode, hu]

/-- A packet that a port notes is among those that arrive. -/
theorem arrives_mem (H : State) (x : Incoming) (dropped failed own : Bool) :
    ⟨x.port, x.pkt, x.fmt, x.frame, dropped, failed, own⟩ ∈ (H.arrives x dropped failed own).sw.arriving :=
  List.mem_append_right _ (List.mem_singleton.mpr rfl)

theorem arrives_voq (H : State) (x : Incoming) (dropped failed own : Bool) : (H.arrives x dropped failed own).sw.voq = H.sw.voq := rfl

/-- A packet that fails one of checks 3 to 5 (R73): what the port frees for it leaves the cells and the arrivals alone. -/
theorem takeWfp_fails {H : State} {p pkt : Nat} {fec : Bool} {e : Option TblKind} {n : Nat} {c : PortCtr}
    (hfail : arrivalFails (H.portFmt p) fec frame = some (n, c)) (hn : 3 ≤ n) {x : Incoming}
    (hx : x = ⟨p, pkt, H.portFmt p, frame, bits (byteAt frame 1) 7 6⟩) :
    (H.takeWfp p pkt fec frame e).sw.unported = ((H.portCtr c p).arrives x true true false).sw.unported
      ∧ (H.takeWfp p pkt fec frame e).regs = (H.portCtr c p).regs
      ∧ ∀ K : Part → Bool, K .regs = true → K .sw = true → (H.takeWfp p pkt fec frame e).blank K = H.blank K := by
  have hu : H.takeWfp p pkt fec frame e = if frame.length < (H.portFmt p).headerLen + 4
      then (H.portCtr c p).arrives x true true false else ((H.portCtr c p).arrives x true true false).freeAll x := by
    unfold State.takeWfp
    dsimp only
    rw [hfail, hx]
    exact if_neg (by omega)
  have hblank : ∀ K : Part → Bool, K .regs = true → K .sw = true →
      ((H.portCtr c p).arrives x true true false).blank K = H.blank K := fun K hregs hsw =>
    (arrives_blank K hsw ..).trans (portCtr_blank K hregs ..)
  rw [hu]
  split
  · exact ⟨rfl, rfl, hblank⟩
  · refine ⟨freeAll_sw .., ?_, fun K hregs hsw => (freeAll_blank K hsw ..).trans (hblank K hregs hsw)⟩
    exact (onlyTouches_of_blank (l := [.sw]) (freeAll_blank _ (by decide) _ x)).2 .regs (by decide)

/-- The packet that a header on a port begins. -/
def incomingOn (s : State) (port : PortNo) (fc : FcCycle) (frame : Bytes) : Incoming :=
  ⟨port.val, s.sw.nextPkt, (s.atHeader port.val fc).portFmt port.val, frame, bits (byteAt frame 1) 7 6⟩

theorem headerTaken_fails {fec : Bool} {e : Option TblKind} {n : Nat} {c : PortCtr} (hrx : (s.atFc fc).portReceives port.val = true)
    (hmode : (s.atHeader port.val fc).mode port.val ≠ 1)
    (hfail : arrivalFails ((s.atHeader port.val fc).portFmt port.val) fec frame = some (n, c)) (hn : 3 ≤ n) :
    ∃ t, exec (.headerTaken port fc fec frame e) s = .next t
      ∧ t.rget (c.reg port.val) = satAdd 64 (s.rget (c.reg port.val)) 1
      ∧ (∃ a ∈ t.sw.arriving, a.port = port.val ∧ a.frame = frame ∧ a.dropped = true ∧ a.failed = true)
      ∧ t.sw.voq = s.sw.voq ∧ OnlyTouches [.regs, .clk, .sw] s t := by
  let x := incomingOn s port fc frame
  obtain ⟨hsw, hregs, hblank⟩ := takeWfp_fails (pkt := s.sw.nextPkt) (e := e) hfail hn (x := x) rfl
  obtain ⟨t, ht, hend, honly⟩ := headerTaken_wfp (l := [.regs, .clk, .sw]) (e := e) hrx hmode rfl (List.Subset.refl _)
    (hblank _ (by decide) (by decide))
  obtain ⟨hvoq, _⟩ := header_voq s port.val fc
  refine ⟨t, ht, ?_, ⟨⟨x.port, x.pkt, x.fmt, x.frame, true, true, false⟩, ?_, rfl, rfl, rfl, rfl⟩, ?_, honly⟩
  · rw [hend.rget, State.rget_congr hregs]
    exact (State.rget_bump ..).trans (congrArg (fun v => satAdd 64 v 1) (header_rget ..))
  · rw [hend.sw, unported_arriving hsw]
    exact arrives_mem ..
  · rw [hend.sw, unported_voq hsw, arrives_voq, portCtr_sw]
    exact hvoq

/-- A packet on a credited VC that passes the checks and fits its credits is sorted. -/
theorem takeWfp_sorts {H : State} {p pkt : Nat} {e : Option TblKind} (hok : arrivalFails (H.portFmt p) true frame = none)
    (hvc : bits (byteAt frame 1) 7 6 < 3)
    (hfits : H.chargedCells p (bits (byteAt frame 1) 7 6) + cellsOf frame.length ≤ H.creditLimit p) :
    H.takeWfp p pkt true frame e
      = H.sortWfp ⟨p, pkt, H.portFmt p, frame, bits (byteAt frame 1) 7 6⟩ (parseWfp (H.portFmt p) frame) e := by
  unfold State.takeWfp
  dsimp only
  rw [hok]
  dsimp only
  rw [if_neg (by omega), if_neg (by omega), if_neg (by omega)]

/-- A WFP packet on a credited VC whose route names a port is queued toward it (R105). -/
theorem switchWfp_queues {H w : State} {x : Incoming} {h : Wfp} {q : Nat} (hmc : isMulticastPlace h.dst = false)
    (hroute : H.route x.die x.port x.vc h.src h.dst (keyCtx h.type h.ctx) = (w, .port q)) (hvc : x.vc ≠ 3) (hfmt : x.fmt ≠ .eth) :
    H.switchWfp x h none = (w.arrives x false false false).queueUnicast (H.arrivalCell x) q x.frame false := by
  have hqueue : w.threshold x q false = .queue := if_pos ⟨hvc, hfmt⟩
  have hin : H.routeIn x h.src h.dst (keyCtx h.type h.ctx) none = (w, .port q) := hroute
  unfold State.switchWfp
  dsimp only
  rw [hmc, if_neg (by decide), hin]
  dsimp only
  rw [hqueue, if_neg (by decide)]

theorem portFmt_ne_eth {H : State} {p : Nat} (h : H.mode p ≠ 1) : H.portFmt p ≠ .eth := by
  unfold State.portFmt
  rw [if_neg h]
  split <;> decide

theorem headerTaken_switches {h : Wfp} {w : State} {q : Nat} (hrx : (s.atFc fc).portReceives port.val = true)
    (hmode : (s.atHeader port.val fc).mode port.val ≠ 1)
    (hok : arrivalFails ((s.atHeader port.val fc).portFmt port.val) true frame = none)
    (hh : h = parseWfp ((s.atHeader port.val fc).portFmt port.val) frame) (hvc : bits (byteAt frame 1) 7 6 < 3)
    (hfits : (s.atHeader port.val fc).chargedCells port.val (bits (byteAt frame 1) 7 6) + cellsOf frame.length
      ≤ (s.atHeader port.val fc).creditLimit port.val)
    (hown : (s.atHeader port.val fc).ownPlace h.dst = false) (hmc : isMulticastPlace h.dst = false)
    (hroute : (s.atHeader port.val fc).route (port.val / 256) port.val (bits (byteAt frame 1) 7 6) h.src h.dst (keyCtx h.type h.ctx)
      = (w, .port q)) :
    ∃ t, exec (.headerTaken port fc true frame none) s = .next t
      ∧ (∃ cells, t.sw.voq = s.sw.voq ++ cells ∧ cells.flatMap (·.data) = frame
        ∧ ∀ x ∈ cells, x.kind = .unicast ∧ x.dest = q ∧ x.destDie = q / 256 ∧ x.srcPort = port.val ∧ x.vc = bits (byteAt frame 1) 7 6 ∧ x.pkt = s.sw.nextPkt)
      ∧ (∃ a ∈ t.sw.arriving, a.port = port.val ∧ a.pkt = s.sw.nextPkt ∧ a.frame = frame ∧ a.dropped = false ∧ a.failed = false)
      ∧ OnlyTouches [.regs, .clk, .sw, .tbl] s t := by
  let x := incomingOn s port fc frame
  have hwblank : ∀ K : Part → Bool, K .tbl = true → w.blank K = (s.atHeader port.val fc).blank K := fun K hK => by
    have := route_blank K hK (s.atHeader port.val fc) (port.val / 256) port.val (bits (byteAt frame 1) 7 6) h.src h.dst (keyCtx h.type h.ctx)
    rwa [hroute] at this
  have hwsw : w.sw = (s.atHeader port.val fc).sw := (onlyTouches_of_blank (l := [.tbl]) (hwblank _ (by decide))).2 .sw (by decide)
  have hu : (s.atHeader port.val fc).takeWfp port.val s.sw.nextPkt true frame none
      = (w.arrives x false false false).queueUnicast ((s.atHeader port.val fc).arrivalCell x) q frame false := by
    rw [takeWfp_sorts hok hvc hfits, ← hh]
    unfold State.sortWfp
    rw [hown, if_pos (by decide)]
    exact switchWfp_queues (x := x) hmc hroute (Nat.ne_of_lt hvc) (portFmt_ne_eth hmode)
  obtain ⟨t, ht, hend, honly⟩ := headerTaken_wfp (l := [.regs, .clk, .sw, .tbl]) hrx hmode hu (by decide)
    ((queueUnicast_blank _ (by decide) ..).trans ((arrives_blank _ (by decide) ..).trans (hwblank _ (by decide))))
  obtain ⟨cells, hvoq, harr, hdata, hcells⟩ :=
    queueUnicast_voq (w.arrives x false false false) ((s.atHeader port.val fc).arrivalCell x) q frame false
  refine ⟨t, ht, ⟨cells, ?_, hdata, hcells⟩, ⟨⟨x.port, x.pkt, x.fmt, x.frame, false, false, false⟩, ?_, rfl, rfl, rfl, rfl, rfl⟩, honly⟩
  · rw [hend.sw, hvoq, ← (header_voq s port.val fc).1, ← hwsw]
    rfl
  · rw [hend.sw, harr]
    exact arrives_mem ..

theorem headerTaken_own {h : Wfp} {e : Option TblKind} (hrx : (s.atFc fc).portReceives port.val = true)
    (hmode : (s.atHeader port.val fc).mode port.val ≠ 1)
    (hok : arrivalFails ((s.atHeader port.val fc).portFmt port.val) true frame = none)
    (hh : h = parseWfp ((s.atHeader port.val fc).portFmt port.val) frame) (hvc : bits (byteAt frame 1) 7 6 < 3)
    (hfits : (s.atHeader port.val fc).chargedCells port.val (bits (byteAt frame 1) 7 6) + cellsOf frame.length
      ≤ (s.atHeader port.val fc).creditLimit port.val)
    (hown : (s.atHeader port.val fc).ownPlace h.dst = true) (h1 : h.type ≠ tContrib) (h2 : h.type ≠ tData) (h3 : h.type ≠ tResult)
    (h4 : h.type ≠ tNackStale) :
    ∃ t, exec (.headerTaken port fc true frame e) s = .next t
      ∧ (∃ a ∈ t.sw.arriving, a.port = port.val ∧ a.pkt = s.sw.nextPkt ∧ a.frame = frame ∧ a.own = true ∧ a.dropped = false ∧ a.failed = false)
      ∧ t.sw.voq = s.sw.voq ∧ OnlyTouches [.regs, .clk, .sw] s t := by
  subst hh
  let H := s.atHeader port.val fc
  let x := incomingOn s port fc frame
  have hu : H.takeWfp port.val s.sw.nextPkt true frame e = H.arrives x false false true := by
    rw [takeWfp_sorts hok hvc hfits]
    unfold State.sortWfp
    rw [hown, if_neg (by decide), if_neg h1, if_neg (by simp [h2, h3, h4])]
    rfl
  obtain ⟨t, ht, hend, honly⟩ := headerTaken_wfp (l := [.regs, .clk, .sw]) (e := e) hrx hmode hu (List.Subset.refl _)
    (arrives_blank _ (by decide) ..)
  refine ⟨t, ht, ⟨⟨x.port, x.pkt, x.fmt, x.frame, false, false, true⟩, ?_, rfl, rfl, rfl, rfl, rfl, rfl⟩, ?_, honly⟩
  · rw [hend.sw]
    exact arrives_mem ..
  · rw [hend.sw, arrives_voq]
    exact (header_voq s port.val fc).1

theorem headerTaken_badFrame {e : Option TblKind} {fec : Bool} (hrx : (s.atFc fc).portReceives port.val = true)
    (hmode : (s.atHeader port.val fc).mode port.val = 1) (hpol : ((s.atHeader port.val fc).police port.val frame.length).2 = true)
    (hbad : fec = false ∨ frame.length < 64 ∨ 9216 < frame.length ∨ fcsGood frame = false) :
    ∃ t, exec (.headerTaken port fc fec frame e) s = .next t
      ∧ (∃ a ∈ t.sw.arriving, a.port = port.val ∧ a.pkt = s.sw.nextPkt ∧ a.frame = frame ∧ a.failed = true)
      ∧ t.sw.voq = s.sw.voq ∧ OnlyTouches [.regs, .clk, .sw] s t := by
  let H := s.atHeader port.val fc
  let D := (H.police port.val frame.length).1
  let x : Incoming := ⟨port.val, s.sw.nextPkt, .eth, frame, if (parseEther frame).ethertype = 0x88F7 then 2 else 3⟩
  have hb : (!fec || decide (frame.length < 64) || decide (9216 < frame.length) || !fcsGood frame) = true := by
    rcases hbad with h | h | h | h <;> simp [h]
  have he : exec (.headerTaken port fc fec frame e) s = done s (D.arrives x true true false) := by
    rw [take_eq s port fc fec frame e hrx, if_pos hmode]
    unfold State.takeEther
    dsimp only
    rw [hpol, if_neg (by decide), if_pos hb]
  obtain ⟨t, ht, hend, honly⟩ := exec_ends_only (l := [.regs, .clk, .sw]) he (onlyTouches_of_blank
    ((arrives_blank _ (by decide) ..).trans ((police_blank _ (by decide) ..).trans (header_blank _ (by decide) (by decide) (by decide) s port.val fc))))
  have hD : D.sw.unported = H.sw.unported := by
    show (State.police H port.val frame.length).1.sw.unported = _
    unfold State.police
    split
    · exact drawTokens_unported ..
    · rfl
  refine ⟨t, ht, ⟨⟨x.port, x.pkt, x.fmt, x.frame, true, true, false⟩, ?_, rfl, rfl, rfl, rfl⟩, ?_, honly⟩
  · rw [hend.sw]
    exact arrives_mem ..
  · rw [hend.sw, arrives_voq, unported_voq hD]
    exact (header_voq s port.val fc).1

/-! Ends of packets -/

variable {a : Arriving}

/-- A packet that has arrived is no longer among those that arrive. -/
theorem arrived_gone (a : Arriving) {t : State} (h : t.sw.arriving = (s.arrived a).sw.arriving) : ∀ x ∈ t.sw.arriving, x.pkt ≠ a.pkt := by
  intro x hx
  rw [h, (arrived_spec s a).1] at hx
  exact bne_iff_ne.mp (List.mem_filter.mp hx).2

theorem completeCells_rget (u : State) (pkt : Nat) (bad : Bool) (r : Nat) : (u.completeCells pkt bad).rget r = u.rget r := rfl

theorem completeCells_arriving (u : State) (pkt : Nat) (bad : Bool) : (u.completeCells pkt bad).sw.arriving = u.sw.arriving := rfl

theorem packetTrailerRx_eq (ha : s.arriving port.val false = some a) :
    exec (.packetTrailerRx port fc) s = done s ((s.atFc fc).packetEnd a) := by
  show done s ((s.arriving port.val false).elim (s.atFc fc) (s.atFc fc).packetEnd) = _
  rw [ha]
  rfl

/-- The cells of an arrival, complete with what its trailer check says. -/
theorem completeCells_voq {u : State} (a : Arriving) (bad : Bool) (hvoq : u.sw.voq = ((s.atFc fc).arrived a).sw.voq)
    (hclk : u.clk = ((s.atFc fc).arrived a).clk) :
    (u.completeCells a.pkt bad).sw.voq = s.sw.voq.map (fun c => if c.pkt = a.pkt ∧ c.complete = false then
      { c with complete := true, trlBad := bad, ready := max c.ready (s.atFc fc).fcNow } else c) := by
  obtain ⟨hsw, hc, _⟩ := arrived_spec (s.atFc fc) a
  refine complete_voq (s.atFc fc) u a.pkt bad (by rw [hvoq, hsw]) ?_
  unfold State.fcNow
  rw [hclk, hc]

theorem packetTrailerRx_good (ha : s.arriving port.val false = some a) (hf : a.failed = false) (ho : a.own = false)
    (htrl : a.frame.drop (a.frame.length - 4) = crc32cTrailer (a.frame.take (a.frame.length - 4))) :
    ∃ t, exec (.packetTrailerRx port fc) s = .next t
      ∧ t.rget (PortCtr.rxPkts.reg a.port) = satAdd 64 (s.rget (PortCtr.rxPkts.reg a.port)) 1
      ∧ t.rget (PortCtr.rxBytes.reg a.port) = satAdd 64 (s.rget (PortCtr.rxBytes.reg a.port)) a.frame.length
      ∧ (∀ x ∈ t.sw.arriving, x.pkt ≠ a.pkt)
      ∧ t.sw.voq = s.sw.voq.map (fun c => if c.pkt = a.pkt ∧ c.complete = false then
          { c with complete := true, trlBad := false, ready := max c.ready (s.atFc fc).fcNow } else c)
      ∧ OnlyTouches [.regs, .clk, .sw, .sys] s t := by
  have he : exec (.packetTrailerRx port fc) s = done s (((s.atFc fc).arrived a).completeCells a.pkt false) := by
    rw [packetTrailerRx_eq ha]
    unfold State.packetEnd
    dsimp only
    rw [hf, if_neg (by decide), beq_iff_eq.mpr htrl, ho, if_neg (by decide), if_pos rfl, Bool.not_true]
  obtain ⟨t, ht, hend, honly⟩ := exec_ends_only (l := [.regs, .clk, .sw, .sys]) he (onlyTouches_of_blank
    ((completeCells_blank _ (by decide) ..).trans ((arrived_blank _ (by decide) (by decide) (by decide) ..).trans (atFc_blank (h := by decide) ..))))
  obtain ⟨_, _, hpkts, hbytes, _⟩ := arrived_spec (s.atFc fc) a
  refine ⟨t, ht, ?_, ?_, arrived_gone (s := s.atFc fc) a ?_, ?_, honly⟩
  · rw [hend.rget, completeCells_rget, hpkts, State.rget_atFc]
  · rw [hend.rget, completeCells_rget, hbytes, State.rget_atFc]
  · rw [hend.sw, completeCells_arriving]
  · rw [hend.sw]
    exact completeCells_voq a false rfl rfl

theorem packetTrailerRx_stomped (ha : s.arriving port.val false = some a) (hf : a.failed = false) (ho : a.own = false)
    (htrl : a.frame.drop (a.frame.length - 4) = stompTrailer (a.frame.take (a.frame.length - 4)))
    (hne : stompTrailer (a.frame.take (a.frame.length - 4)) ≠ crc32cTrailer (a.frame.take (a.frame.length - 4))) :
    ∃ t, exec (.packetTrailerRx port fc) s = .next t
      ∧ t.rget (PortCtr.rxTrlStomped.reg a.port) = satAdd 64 (s.rget (PortCtr.rxTrlStomped.reg a.port)) 1
      ∧ t.sw.voq = s.sw.voq.map (fun c => if c.pkt = a.pkt ∧ c.complete = false then
          { c with complete := true, trlBad := true, ready := max c.ready (s.atFc fc).fcNow } else c)
      ∧ OnlyTouches [.regs, .clk, .sw, .sys] s t := by
  have hbad : (a.frame.drop (a.frame.length - 4) == crc32cTrailer (a.frame.take (a.frame.length - 4))) = false := by
    rw [htrl]
    exact beq_eq_false_iff_ne.mpr hne
  have hfail : ((s.atFc fc).arrived a).trailerFails a = ((s.atFc fc).arrived a).portCtr .rxTrlStomped a.port := if_pos htrl
  have he : exec (.packetTrailerRx port fc) s = done s ((((s.atFc fc).arrived a).portCtr .rxTrlStomped a.port).completeCells a.pkt true) := by
    rw [packetTrailerRx_eq ha]
    unfold State.packetEnd
    dsimp only
    rw [hf, if_neg (by decide), hbad, ho, if_neg (by decide), if_neg (by decide), hfail, Bool.not_false]
  obtain ⟨t, ht, hend, honly⟩ := exec_ends_only (l := [.regs, .clk, .sw, .sys]) he (onlyTouches_of_blank
    ((completeCells_blank _ (by decide) ..).trans ((portCtr_blank _ (by decide) ..).trans
      ((arrived_blank _ (by decide) (by decide) (by decide) ..).trans (atFc_blank (h := by decide) ..)))))
  obtain ⟨_, _, _, _, hrest⟩ := arrived_spec (s.atFc fc) a
  refine ⟨t, ht, ?_, ?_, honly⟩
  · rw [hend.rget, completeCells_rget]
    refine (State.rget_bump ..).trans ?_
    rw [hrest .rxTrlStomped (by decide) (by decide), State.rget_atFc]
  · rw [hend.sw]
    exact completeCells_voq a true (congrArg SwitchSt.voq (portCtr_sw ..))
      (State.portCtr_clk ..)

theorem ethFrameEnd_ends (ha : s.arriving port.val true = some a) :
    ∃ t, exec (.ethFrameEnd port fc) s = .next t
      ∧ t.rget (PortCtr.rxPkts.reg a.port) = satAdd 64 (s.rget (PortCtr.rxPkts.reg a.port)) 1
      ∧ (∀ x ∈ t.sw.arriving, x.pkt ≠ a.pkt)
      ∧ (a.failed = true → t.rget (PortCtr.ethRxBadFrame.reg a.port) = satAdd 64 (s.rget (PortCtr.ethRxBadFrame.reg a.port)) 1 ∧ t.sw.voq = s.sw.voq)
      ∧ (a.failed = false → t.sw.voq = s.sw.voq.map (fun c => if c.pkt = a.pkt ∧ c.complete = false then
          { c with complete := true, trlBad := false, ready := max c.ready (s.atFc fc).fcNow } else c))
      ∧ OnlyTouches [.regs, .clk, .sw, .sys] s t := by
  obtain ⟨hsw, _, hpkts, _, hrest⟩ := arrived_spec (s.atFc fc) a
  have he : exec (.ethFrameEnd port fc) s
      = done s (if a.failed then ((s.atFc fc).arrived a).portCtr .ethRxBadFrame a.port else ((s.atFc fc).arrived a).completeCells a.pkt false) := by
    show done s (match s.arriving port.val true with
      | some a => if a.failed then ((s.atFc fc).arrived a).portCtr .ethRxBadFrame a.port else ((s.atFc fc).arrived a).completeCells a.pkt false
      | none => s.atFc fc) = _
    rw [ha]
  obtain ⟨t, ht, hend, honly⟩ := exec_ends he
  have hne : PortCtr.rxPkts.reg a.port ≠ PortCtr.ethRxBadFrame.reg a.port := by
    have h1 : PortCtr.rxPkts.ctorIdx ≠ PortCtr.ethRxBadFrame.ctorIdx := by decide
    unfold PortCtr.reg portReg
    omega
  cases hf : a.failed with
  | true =>
    rw [hf, if_pos rfl] at hend
    refine ⟨t, ht, ?_, arrived_gone (s := s.atFc fc) a (by rw [hend.sw, portCtr_sw]), fun _ => ⟨?_, ?_⟩, nofun, honly⟩
    · rw [hend.rget]
      refine (State.rget_bump_ne _ _ _ _ hne).trans ?_
      rw [hpkts, State.rget_atFc]
    · rw [hend.rget]
      refine (State.rget_bump ..).trans ?_
      rw [hrest .ethRxBadFrame (by decide) (by decide), State.rget_atFc]
    · rw [hend.sw, portCtr_sw, hsw]
      rfl
  | false =>
    rw [hf, if_neg (by decide)] at hend
    refine ⟨t, ht, ?_, arrived_gone (s := s.atFc fc) a (by rw [hend.sw, completeCells_arriving]), nofun, fun _ => ?_, honly⟩
    · rw [hend.rget, completeCells_rget, hpkts, State.rget_atFc]
    rw [hend.sw]
    exact completeCells_voq a false rfl rfl

end

/-- Settles O37, one lemma for each outcome. -/
theorem headersTaken : Obligations.HeadersTaken :=
  ⟨fun _ _ _ _ _ _ _ _ => headerTaken_fails, fun _ _ _ _ _ _ _ => headerTaken_switches, fun _ _ _ _ _ _ => headerTaken_own,
    fun _ _ _ _ _ _ => headerTaken_badFrame⟩

/-- Settles O38, one lemma for each kind of end. -/
theorem packetsEnd : Obligations.PacketsEnd := fun _ _ _ _ => ⟨packetTrailerRx_good, packetTrailerRx_stomped, ethFrameEnd_ends⟩

end Sys2Proof.Machine
end

/-! PROOFS. How granted sub-slots and leftover opportunities serve packets, how wait limits pass, and how cut-through starts and
truncates (R32, R46, R101, R102, R129, R135). -/

section
namespace Sys2Proof.Machine

section
variable {s : State} {port : PortNo}

/-! Granted sub-slots -/

theorem grant_vc (e : CalEntry) : e.vc < 900 := by
  have h := e.grant.isLt
  unfold CalEntry.vc bits
  rw [Nat.shiftRight_eq_div_pow]
  omega

theorem serves_vc {e : CalEntry} {x : EgPkt} (h : e.serves x = true) : x.vc < 900 := by
  unfold CalEntry.serves at h
  rw [Bool.and_eq_true, beq_iff_eq] at h
  rw [← h.1]
  exact grant_vc e

/-- A packet that a grant sends has waited: the counter of the wait is not the counter of packets sent. -/
def countGrantWait (s : State) (p : Nat) (x : EgPkt) : State :=
  if x.waitFrom < s.subNow then s.pmc (calReg p 0) 0x103 1 else s

theorem countGrantWait_spec (s : State) (p : Nat) (x : EgPkt) :
    (countGrantWait s p x).sw = s.sw ∧ (countGrantWait s p x).out = s.out
      ∧ (countGrantWait s p x).rget (calReg p 0x198) = s.rget (calReg p 0x198) := by
  unfold countGrantWait
  split
  · refine ⟨pmc_sw .., ?_, rget_pmc _ _ _ _ _ (by unfold calReg; omega)⟩
    exact (onlyTouches_of_blank (l := [.regs]) (pmc_blank _ (by decide) ..)).2 .out (by decide)
  · exact ⟨rfl, rfl, rfl⟩

/-- A granted packet leaves on its port, and is counted. -/
def grantSends (s : State) (p : Nat) (x : EgPkt) (at_ window : Nat) : State :=
  ((countGrantWait s p x).transmit x at_ (some window) false).bump (calReg p 0x198)

theorem grantSends_spec (s : State) (p : Nat) (x : EgPkt) (at_ window : Nat) (hport : x.port = p) (hvc : x.vc < 900) :
    (grantSends s p x at_ window).out = .packet p x.vc true x.bytes :: s.out
      ∧ (grantSends s p x at_ window).sw.egress = s.sw.egress.filter (fun y => y.id != x.id)
      ∧ (grantSends s p x at_ window).rget (calReg p 0x198) = satAdd 64 (s.rget (calReg p 0x198)) 1 := by
  obtain ⟨hsw, hout, hctr⟩ := countGrantWait_spec s p x
  obtain ⟨hsent, hgone⟩ := transmit_spec (countGrantWait s p x) x at_ (some window) false
  refine ⟨?_, ?_, ?_⟩
  · exact hsent.trans (by rw [hout, hport]; rfl)
  · exact hgone.trans (by rw [hsw])
  · unfold grantSends
    rw [State.rget_bump, transmit_rget _ _ _ _ _ hvc _ (by rw [hport]; unfold calReg portReg; omega), hctr]

/-- The run of a grant that one packet waits for: the packet leaves. -/
theorem grantRun_one {T : State} {p : Nat} {e : CalEntry} {window : Nat} {x : EgPkt} (n : Nat)
    (hone : T.sw.egress.filter (fun y => y.port == p && e.serves y) = [x])
    (hend : max T.fcNow (T.port p).txFree + T.spanOf p x.bytes.length (max T.fcNow (T.port p).txFree) ≤ window)
    (hcredit : T.hasCredit p x.vc x.bytes.length = true)
    (hkite : T.kiteHolds p (max T.fcNow (T.port p).txFree + T.spanOf p x.bytes.length (max T.fcNow (T.port p).txFree)) = false) :
    ∃ g, T.grantRun (n + 1) p e window = (grantSends T p x (max T.fcNow (T.port p).txFree) window).setPort p g := by
  have hfind : T.sw.egress.find? (fun y => y.port == p && e.serves y) = some x := by
    rw [← List.head?_filter, hone]
    rfl
  have hx : x.port = p ∧ e.serves x = true := by
    have := List.find?_some hfind
    rwa [Bool.and_eq_true, beq_iff_eq] at this
  obtain ⟨hport, hserves⟩ := hx
  rw [State.grantRun, hfind]
  dsimp only
  rw [if_pos ⟨hend, hcredit, by rw [hkite]; rfl⟩]
  obtain ⟨_, hgone⟩ := transmit_spec (countGrantWait T p x) x (max T.fcNow (T.port p).txFree) (some window) false
  exact ⟨_, grantRun_after n _ p _ e window _ x T.sw.egress (hgone.trans (by rw [(countGrantWait_spec T p x).1])) hone⟩

theorem grantedSubslot_sends {sub : Fin 4} {e : CalEntry} {x : EgPkt} (hsub : min 3 ((s.atSub sub).clk.fc / 160) = sub.val)
    (hsends : (s.atSub sub).portSends port.val = true) (hgrant : (s.atSub sub).grantAhead port.val 0 = some e)
    (hone : s.sw.egress.filter (fun y => y.port == port.val && e.serves y) = [x])
    (hend : let at_ := max (s.atSub sub).fcNow (s.port port.val).txFree
      let end_ := at_ + (s.atSub sub).spanOf port.val x.bytes.length at_
      end_ ≤ (s.atSub sub).fcNow - (s.atSub sub).subOffset + 144 ∧ (s.atSub sub).kiteHolds port.val end_ = false)
    (hcredit : (s.atSub sub).hasCredit port.val x.vc x.bytes.length = true) :
    ∃ t, exec (.grantedSubslot port sub) s = .next t ∧ t.out = .packet port.val x.vc true x.bytes :: s.out
      ∧ (∀ y ∈ t.sw.egress, y.id ≠ x.id) ∧ t.rget (calReg port.val 0x198) = satAdd 64 (s.rget (calReg port.val 0x198)) 1
      ∧ OnlyTouches [.regs, .clk, .sw, .sys, .out] s t := by
  obtain ⟨hwindow, hkite⟩ := hend
  have hx : x.port = port.val ∧ e.serves x = true := by
    have : x ∈ s.sw.egress.filter fun y => y.port == port.val && e.serves y := hone ▸ List.mem_singleton.mpr rfl
    have := (List.mem_filter.mp this).2
    rwa [Bool.and_eq_true, beq_iff_eq] at this
  obtain ⟨hport, hserves⟩ := hx
  obtain ⟨g, hrun⟩ := grantRun_one (T := s.atSub sub) s.sw.egress.length hone hwindow hcredit hkite
  obtain ⟨hout, hgone, hctr⟩ := grantSends_spec (s.atSub sub) port.val x (max (s.atSub sub).fcNow ((s.atSub sub).port port.val).txFree)
    ((s.atSub sub).fcNow - (s.atSub sub).subOffset + 144) hport (serves_vc hserves)
  have he : exec (.grantedSubslot port sub) s = done s (((grantSends (s.atSub sub) port.val x
      (max (s.atSub sub).fcNow ((s.atSub sub).port port.val).txFree)
      ((s.atSub sub).fcNow - (s.atSub sub).subOffset + 144)).setPort port.val g).missedGrant port.val e) := by
    rw [← hrun]
    refine (congrArg (done s) (if_pos ⟨hsub, hsends⟩)).trans ?_
    show done s (match (s.atSub sub).grantAhead port.val 0 with
      | some e => ((s.atSub sub).grantRun (s.sw.egress.length + 1) port.val e
          ((s.atSub sub).fcNow - (s.atSub sub).subOffset + 144)).missedGrant port.val e
      | none => s.atSub sub) = _
    rw [hgrant]
  obtain ⟨t, ht, hfin, honly⟩ := exec_ends he
  refine ⟨t, ht, hfin.out.trans hout, fun y hy => ?_, (hfin.rget _).trans hctr, honly⟩
  rw [hfin.sw] at hy
  obtain ⟨z, hz, rfl⟩ := List.mem_map.mp hy
  have hkept : z ∈ s.sw.egress.filter fun y => y.id != x.id := (congrArg (z ∈ ·) hgone).mp hz
  have hid : z.id ≠ x.id := bne_iff_ne.mp (List.mem_filter.mp hkept).2
  split <;> exact hid

/-! Leftover capacity -/

theorem atChance_out (fc : FcCycle) : (s.atChance port.val fc).out = s.out := countHold_same (p := .out) (by decide) (s.atFc fc) port.val

/-- A leftover opportunity that the port may use. -/
theorem leftoverOpportunity_eq {fc : FcCycle} {b : Option Nat × Option Nat} (hsends : (s.atChance port.val fc).portSends port.val = true)
    (hfree : ((s.atChance port.val fc).port port.val).txFree ≤ (s.atChance port.val fc).fcNow)
    (hgrant : (s.atChance port.val fc).grantedWaits port.val = false)
    (hbounds : (s.atChance port.val fc).leftoverBounds port.val = some b) :
    exec (.leftoverOpportunity port fc) s = done s (((s.atChance port.val fc).leftover port.val b).countHold port.val) := by
  refine (congrArg (done s) (if_pos ⟨hsends, hfree, ?_⟩)).trans ?_
  rotate_left
  · show (!(s.atChance port.val fc).grantedWaits port.val) = true
    rw [hgrant]
    rfl
  · show done s (match (s.atChance port.val fc).leftoverBounds port.val with
      | some b => ((s.atChance port.val fc).leftover port.val b).countHold port.val
      | none => s.atChance port.val fc) = _
    rw [hbounds]

/-- An opportunity whose service sends a packet. -/
theorem leftoverOpportunity_sends {fc : FcCycle} {b : Option Nat × Option Nat} {x : EgPkt}
    (hsends : (s.atChance port.val fc).portSends port.val = true)
    (hfree : ((s.atChance port.val fc).port port.val).txFree ≤ (s.atChance port.val fc).fcNow)
    (hgrant : (s.atChance port.val fc).grantedWaits port.val = false)
    (hbounds : (s.atChance port.val fc).leftoverBounds port.val = some b)
    (hout : ((s.atChance port.val fc).leftover port.val b).out = .packet x.port x.vc false x.bytes :: (s.atChance port.val fc).out)
    (hgone : ∀ y ∈ ((s.atChance port.val fc).leftover port.val b).sw.egress, y.id ≠ x.id) :
    ∃ t, exec (.leftoverOpportunity port fc) s = .next t ∧ t.out = .packet x.port x.vc false x.bytes :: s.out
      ∧ (∀ y ∈ t.sw.egress, y.id ≠ x.id) ∧ OnlyTouches [.regs, .clk, .sw, .sys, .out] s t := by
  obtain ⟨t, ht, hend, honly⟩ := exec_ends (leftoverOpportunity_eq hsends hfree hgrant hbounds)
  refine ⟨t, ht, ?_, fun y hy => hgone y ?_, honly⟩
  · rw [hend.out, countHold_same (p := .out) (by decide), hout, atChance_out]
  · rwa [hend.sw, unported_egress (countHold_unported ..)] at hy

theorem leftover_vc2 {S : State} {p : Nat} {b : Option Nat × Option Nat} {x : EgPkt} (hcount : 0 ≤ (S.vc2Now p).count)
    (hready : S.ready p 2 b = some x) : S.leftover p b = (S.drawVc2 p x.bytes.length).sendLeftover x false := by
  unfold State.leftover
  dsimp only
  rw [if_pos hcount, hready]

theorem leftoverOpportunity_vc2 {fc : FcCycle} {x : EgPkt} {b : Option Nat × Option Nat}
    (hsends : (s.atChance port.val fc).portSends port.val = true)
    (hfree : ((s.atChance port.val fc).port port.val).txFree ≤ (s.atChance port.val fc).fcNow)
    (hgrant : (s.atChance port.val fc).grantedWaits port.val = false)
    (hbounds : (s.atChance port.val fc).leftoverBounds port.val = some b)
    (hcount : 0 ≤ ((s.atChance port.val fc).vc2Now port.val).count) (hready : (s.atChance port.val fc).ready port.val 2 b = some x) :
    ∃ t, exec (.leftoverOpportunity port fc) s = .next t ∧ t.out = .packet x.port x.vc false x.bytes :: s.out
      ∧ (∀ y ∈ t.sw.egress, y.id ≠ x.id) ∧ OnlyTouches [.regs, .clk, .sw, .sys, .out] s t := by
  have he := leftover_vc2 hcount hready
  refine leftoverOpportunity_sends hsends hfree hgrant hbounds ?_ ?_
  · rw [he, sendLeftover_out]
    rfl
  · rw [he]
    exact sendLeftover_gone _ x false

/-- The VCs that deficit round robin may serve, each with the packet it may send. -/
def leftoverCandidates (S : State) (p : Nat) (b : Option Nat × Option Nat) : List (Option EgPkt) :=
  [0, 1, 2].map fun i => if S.hasTokens p i && S.hasTokens p 3 then S.ready p (dwrrVc i) b else none

theorem leftover_dwrr {S : State} {p : Nat} {b : Option Nat × Option Nat} {x : EgPkt} {i : Nat} {d : List Int}
    (hnone : S.candidate p 2 = none)
    (hpick : dwrrPick 192 ((leftoverCandidates S p b).map Option.isSome) (S.vcWeights (portReg p 0x108)) (S.deficits p) (S.port p).turn
      = some (i, d)) (hx : (leftoverCandidates S p b).getD i none = some x) :
    (S.leftover p b).out = (((S.drawTokens p i x.bytes.length).drawTokens p 3 x.bytes.length).sendLeftover x false).out
      ∧ (S.leftover p b).sw.egress = (((S.drawTokens p i x.bytes.length).drawTokens p 3 x.bytes.length).sendLeftover x false).sw.egress := by
  have hready : S.ready p 2 b = none := by
    unfold State.ready
    rw [hnone]
  have hv2 : (if 0 ≤ (S.vc2Now p).count then S.ready p 2 b else none) = none := by
    rw [hready]
    exact ite_self _
  unfold State.leftover
  dsimp only
  rw [hv2]
  dsimp only
  unfold leftoverCandidates at hpick hx
  rw [hpick]
  dsimp only
  rw [hx]
  exact ⟨rfl, rfl⟩

theorem leftoverOpportunity_dwrr {fc : FcCycle} {x : EgPkt} {b : Option Nat × Option Nat} {i : Nat} {d : List Int}
    (hsends : (s.atChance port.val fc).portSends port.val = true)
    (hfree : ((s.atChance port.val fc).port port.val).txFree ≤ (s.atChance port.val fc).fcNow)
    (hgrant : (s.atChance port.val fc).grantedWaits port.val = false)
    (hbounds : (s.atChance port.val fc).leftoverBounds port.val = some b)
    (hnone : (s.atChance port.val fc).candidate port.val 2 = none)
    (hpick : dwrrPick 192 ((leftoverCandidates (s.atChance port.val fc) port.val b).map Option.isSome)
      ((s.atChance port.val fc).vcWeights (portReg port.val 0x108)) ((s.atChance port.val fc).deficits port.val)
      ((s.atChance port.val fc).port port.val).turn = some (i, d))
    (hx : (leftoverCandidates (s.atChance port.val fc) port.val b).getD i none = some x) :
    ∃ t, exec (.leftoverOpportunity port fc) s = .next t ∧ t.out = .packet x.port x.vc false x.bytes :: s.out
      ∧ (∀ y ∈ t.sw.egress, y.id ≠ x.id) ∧ OnlyTouches [.regs, .clk, .sw, .sys, .out] s t := by
  obtain ⟨hout, hegress⟩ := leftover_dwrr hnone hpick hx
  have hdraw : ∀ (u : State) (j n : Nat), (u.drawTokens port.val j n).out = u.out := fun u j n =>
    (onlyTouches_of_blank (l := [.sw]) (drawTokens_blank _ (by decide) u port.val j n)).2 .out (by decide)
  refine leftoverOpportunity_sends hsends hfree hgrant hbounds ?_ ?_
  · rw [hout, sendLeftover_out, hdraw, hdraw]
  · rw [hegress]
    exact sendLeftover_gone _ x false

theorem waitLimitExpiry_expires {sub : Fin 4} {x : EgPkt} (hx : x ∈ s.sw.egress) (hport : x.port = port.val)
    (hsched : (s.atSub sub).pktScheduled x = true) (hwaits : (s.atSub sub).waitsGrant x = false) :
    ∃ t, exec (.waitLimitExpiry port x.id sub) s = .next t ∧ { x with expired := true } ∈ t.sw.egress
      ∧ t.sw.egress.length = s.sw.egress.length ∧ OnlyTouches [.clk, .sw] s t := by
  let f := fun y : EgPkt =>
    if y.id == x.id && y.port == port.val && (s.atSub sub).pktScheduled y && !(s.atSub sub).waitsGrant y then { y with expired := true } else y
  have he : exec (.waitLimitExpiry port x.id sub) s = done s ((s.atSub sub).setSw fun w => { w with egress := w.egress.map f }) := rfl
  obtain ⟨t, ht, hend, honly⟩ := exec_ends he
  have hegress : t.sw.egress = s.sw.egress.map f := congrArg SwitchSt.egress hend.sw
  refine ⟨t, ht, ?_, by rw [hegress, List.length_map], honly⟩
  rw [hegress]
  have hfx : f x = { x with expired := true } := by
    refine if_pos ?_
    rw [hsched, hwaits, hport, beq_self_eq_true, beq_self_eq_true]
    rfl
  exact hfx ▸ List.mem_map_of_mem hx

/-! Cut-through -/

/-- What a transmission that is cut through in leftover capacity draws. -/
def cutDraws (s : State) (x : EgPkt) (n : Nat) (w : Option Nat) : State := if w.isSome then s else s.drawLeftover x.port x.vc n

theorem cutDraws_only (x : EgPkt) (n : Nat) (w : Option Nat) : OnlyTouches [.sw] s (cutDraws s x n w) := by
  unfold cutDraws
  refine onlyTouches_of_blank ?_
  split
  · rfl
  · exact drawLeftover_blank _ (by decide) ..

theorem cutStart_eq {f : Flow} {x : EgPkt} {c : Cell} {w : Option Nat} (hx : f.asPacket = some x) (hc : f.asm.head? = some c)
    (hway : s.cutWay x c.pktLen = some w) :
    s.cutStart f = (((cutDraws s x c.pktLen w).countCut x w).startTx x.port x.vc c.pktLen f.asmFc s.fcNow w true).setFlow
      { f with cutSent := some s.fcNow } := by
  have hfc : (cutDraws s x c.pktLen w).fcNow = s.fcNow := by
    have hclk : (cutDraws s x c.pktLen w).clk = s.clk := (cutDraws_only x c.pktLen w).2 .clk (by decide)
    unfold State.fcNow
    rw [hclk]
  rw [← hfc]
  unfold State.cutStart
  rw [hx, hc]
  dsimp only
  rw [hway]
  rfl

theorem cutThroughStart_flow {fc : FcCycle} {f : Flow} {x : EgPkt} {c : Cell} {w : Option Nat}
    (hnone : (s.sw.egress.filter fun y => y.port == port.val) = [])
    (hf : s.sw.flows.find? (fun f => !f.key.multicast && f.key.dest == port.val && f.cut && f.cutSent.isNone && decide (1920 ≤ (packetOf f.asm).length)) = some f)
    (hx : f.asPacket = some x) (hc : f.asm.head? = some c) (hway : (s.atFc fc).cutWay x c.pktLen = some w) :
    ∃ t, exec (.cutThroughStart port fc) s = .next t ∧ t.flowOf f.key = { f with cutSent := some (s.atFc fc).fcNow }
      ∧ OnlyTouches [.regs, .clk, .sw, .sys, .out] s t := by
  have he : exec (.cutThroughStart port fc) s = done s ((s.atFc fc).cutStart f) := by
    show done s (match s.sw.egress.filter fun y => y.port == port.val, s.sw.flows.find? fun f =>
        !f.key.multicast && f.key.dest == port.val && f.cut && f.cutSent.isNone && decide (1920 ≤ (packetOf f.asm).length) with
      | [], some f => (s.atFc fc).cutStart f
      | [x], _ => if x.cut then (s.atFc fc).cutQueued x else s.atFc fc
      | _, _ => s.atFc fc) = _
    rw [hnone, hf]
  obtain ⟨t, ht, hend, honly⟩ := exec_ends he
  refine ⟨t, ht, ?_, honly⟩
  rw [flowOf_of_sw hend.sw, cutStart_eq hx hc hway]
  exact setFlow_flowOf _ { f with cutSent := some (s.atFc fc).fcNow } f.key rfl

theorem countCut_out (x : EgPkt) (w : Option Nat) : (s.countCut x w).out = s.out :=
  (onlyTouches_of_blank (l := [.regs]) (countCut_blank _ (by decide) s x w)).2 .out (by decide)

theorem cutThroughStart_queued {fc : FcCycle} {x : EgPkt} {w : Option Nat}
    (hone : (s.sw.egress.filter fun y => y.port == port.val) = [x]) (hcut : x.cut = true)
    (hway : (s.atFc fc).cutWay x x.bytes.length = some w) :
    ∃ t, exec (.cutThroughStart port fc) s = .next t ∧ t.out = .packet x.port x.vc w.isSome x.bytes :: s.out
      ∧ (∀ y ∈ t.sw.egress, y.id ≠ x.id) ∧ OnlyTouches [.regs, .clk, .sw, .sys, .out] s t := by
  have he : exec (.cutThroughStart port fc) s = done s (((cutDraws (s.atFc fc) x x.bytes.length w).countCut x w).transmit x
      (cutDraws (s.atFc fc) x x.bytes.length w).fcNow w true) := by
    show done s (match s.sw.egress.filter fun y => y.port == port.val, s.sw.flows.find? fun f =>
        !f.key.multicast && f.key.dest == port.val && f.cut && f.cutSent.isNone && decide (1920 ≤ (packetOf f.asm).length) with
      | [], some f => (s.atFc fc).cutStart f
      | [x], _ => if x.cut then (s.atFc fc).cutQueued x else s.atFc fc
      | _, _ => s.atFc fc) = _
    rw [hone]
    dsimp only
    rw [if_pos hcut]
    unfold State.cutQueued
    rw [hway]
    rfl
  obtain ⟨t, ht, hend, honly⟩ := exec_ends he
  obtain ⟨hout, hgone⟩ := transmit_spec ((cutDraws (s.atFc fc) x x.bytes.length w).countCut x w) x
    (cutDraws (s.atFc fc) x x.bytes.length w).fcNow w true
  have hdraw : (cutDraws (s.atFc fc) x x.bytes.length w).out = (s.atFc fc).out := (cutDraws_only x x.bytes.length w).2 .out (by decide)
  refine ⟨t, ht, ?_, fun y hy => ?_, honly⟩
  · rw [hend.out, hout, countCut_out, hdraw]
    rfl
  · rw [hend.sw, hgone] at hy
    exact bne_iff_ne.mp (List.mem_filter.mp hy).2

/-- A truncated cut-through transmission ends with a stomped trailer, and is counted (R102). -/
theorem truncate_spec (f : Flow) :
    (s.truncate f).out = .packet f.key.dest f.key.vc false (packetOf f.asm ++ stompTrailer (packetOf f.asm)) :: s.out
      ∧ (s.truncate f).flowOf f.key = { f with asm := [], poisoned := true, cut := false, cutSent := none }
      ∧ (s.truncate f).rget (PortCtr.txCtTrunc.reg f.key.dest) = satAdd 64 (s.rget (PortCtr.txCtTrunc.reg f.key.dest)) 1 := by
  have hout : ∀ (u : State) (c : Cell), (u.cellLeaves c).out = u.out := fun u c =>
    (onlyTouches_of_blank (l := [.sw, .col]) (cellLeaves_blank _ (by decide) (by decide) u c)).2 .out (by decide)
  unfold State.truncate
  dsimp only
  refine ⟨?_, setFlow_flowOf _ _ f.key rfl, ?_⟩
  · exact foldl_keeps (fun u : State => u.out) State.cellLeaves hout _ _
  · exact (foldl_keeps (fun u : State => u.rget _) State.cellLeaves (fun u c => cellLeaves_rget u c _) _ _).trans (State.rget_bump ..)

theorem cutThroughTruncate_stomps {fc : FcCycle} {f : Flow} {n : Nat}
    (hf : s.sw.flows.find? (fun f => !f.key.multicast && f.key.dest == port.val && f.cutSent.isSome) = some f) (hn : f.cutSent = some n)
    (hfc : n + (s.atFc fc).txCycles port.val (packetOf f.asm).length ≤ (s.atFc fc).fcNow) :
    ∃ t, exec (.cutThroughTruncate port fc) s = .next t
      ∧ t.out = .packet port.val f.key.vc false (packetOf f.asm ++ stompTrailer (packetOf f.asm)) :: s.out
      ∧ t.flowOf f.key = { f with asm := [], poisoned := true, cut := false, cutSent := none }
      ∧ t.rget (PortCtr.txCtTrunc.reg port.val) = satAdd 64 (s.rget (PortCtr.txCtTrunc.reg port.val)) 1
      ∧ OnlyTouches [.regs, .clk, .sw, .col, .out] s t := by
  have hdest : f.key.dest = port.val := by
    have := List.find?_some hf
    rw [Bool.and_eq_true, Bool.and_eq_true, beq_iff_eq] at this
    exact this.1.2
  obtain ⟨g, he⟩ : ∃ g, exec (.cutThroughTruncate port fc) s = done s (((s.atFc fc).truncate f).setPort port.val g) := by
    refine ⟨fun x => { x with
      busyTo := min x.busyTo ((s.atFc fc).fcNow + (s.atFc fc).txCycles port.val 4)
      txFree := min x.txFree ((s.atFc fc).fcNow + (s.atFc fc).txCycles port.val (4 + (s.atFc fc).gapBytes port.val)) }, ?_⟩
    show done s (match s.sw.flows.find? fun f => !f.key.multicast && f.key.dest == port.val && f.cutSent.isSome with
      | some f =>
        match f.cutSent with
        | some from_ =>
          if from_ + (s.atFc fc).txCycles port.val (packetOf f.asm).length ≤ (s.atFc fc).fcNow then
            ((s.atFc fc).truncate f).setPort port.val fun x => { x with
              busyTo := min x.busyTo ((s.atFc fc).fcNow + (s.atFc fc).txCycles port.val 4)
              txFree := min x.txFree ((s.atFc fc).fcNow + (s.atFc fc).txCycles port.val (4 + (s.atFc fc).gapBytes port.val)) }
          else s.atFc fc
        | none => s.atFc fc
      | none => s.atFc fc) = _
    rw [hf]
    dsimp only
    rw [hn]
    dsimp only
    rw [if_pos hfc]
  obtain ⟨t, ht, hend, honly⟩ := exec_ends he
  obtain ⟨hout, hflow, hctr⟩ := truncate_spec (s := s.atFc fc) f
  rw [hdest] at hout hctr
  refine ⟨t, ht, ?_, ?_, ?_, honly⟩
  · rw [hend.out, State.setPort_out, hout]
    rfl
  · rw [← hflow]
    unfold State.flowOf
    rw [hend.sw]
    rfl
  · rw [hend.rget, State.rget_setPort, hctr, State.rget_atFc]

end

/-- Settles O39, one lemma for each form. -/
theorem egressServes : Obligations.EgressServes :=
  ⟨fun _ _ _ _ _ => grantedSubslot_sends, fun _ _ _ _ _ => leftoverOpportunity_vc2,
    fun _ _ _ _ _ _ _ hsends hfree hgrant hbounds hnone h => leftoverOpportunity_dwrr hsends hfree hgrant hbounds hnone h.1 h.2,
    fun _ _ _ _ => waitLimitExpiry_expires⟩

/-- Settles O40, one lemma for each form. -/
theorem cutThroughActs : Obligations.CutThroughActs :=
  ⟨fun _ _ _ _ _ _ _ => cutThroughStart_flow, fun _ _ _ _ _ => cutThroughStart_queued, fun _ _ _ _ _ => cutThroughTruncate_stomps⟩

end Sys2Proof.Machine
end

/-! PROOFS. What commands and settings of the PORT page do, and how ports come up, go down, drain and are re-judged (R61, R91,
R130, R132, R321, R354 to R361, R371, R424). -/

section
namespace Sys2Proof.Machine

section
variable {s : State} {q : Req} {port : PortNo} {v : Word}

/-! Commands of PORT.CTRL -/

/-- The state in which a command of PORT.CTRL takes effect. -/
def portReadied (s : State) (q : Req) (n v : Nat) : State := readied s q (portReg n 8) v (portPage n)

theorem portReadied_any {α : Type} (F : State → α) (hF : ∀ s g, F (State.setMgmt s g) = F s) (s : State) (q : Req) (n v : Nat) :
    F (portReadied s q n v) = F s :=
  readied_any F hF ..

theorem portReadied_port (s : State) (q : Req) (n v p : Nat) : (portReadied s q n v).port p = s.port p :=
  portReadied_any (fun s => s.port p) (fun _ _ => rfl) ..

theorem portReadied_flt (s : State) (q : Req) (n v : Nat) : (portReadied s q n v).flt = s.flt :=
  portReadied_any State.flt (fun _ _ => rfl) ..

theorem portReadied_state (s : State) (q : Req) (n v p : Nat) : (portReadied s q n v).portState p = s.portState p :=
  portReadied_any (fun s => s.portState p) (fun _ _ => rfl) ..

/-- A command of PORT.CTRL that leaves the state `u`: what the port's page, its port and the fences show afterwards. -/
theorem portCommand_ends {b : Nat} (hb : b ∈ [0, 1, 2, 3, 6]) (h : Commanded s q (portReg port.val 0x008) (v.toNat ||| 2 ^ b))
    (hk : keepsPort s port.val v.toNat b) (hl : s.leads port.val = true) {E : Effect}
    (hE : ∀ w : Writer, w.fly = some (flightOf q 0x02 (regBody (portReg port.val 8) (v.toNat ||| 2 ^ b))) →
      (portReadied s q port.val (v.toNat ||| 2 ^ b)).portCommand w port.val (2 ^ b) = E) (hok : E.code = .ok)
    {l : List Part} (hmg : [Part.regs, .mgmt, .out] ⊆ l)
    (hu : E.state.blank (fun p => decide (p ∈ l))
      = (portReadied s q port.val (v.toNat ||| 2 ^ b)).blank fun p => decide (p ∈ l)) :
    ∃ t, done s (s.writePortCtrl q port.val (v.toNat ||| 2 ^ b)) = .next t ∧ t.port port.val = E.state.port port.val
      ∧ t.flt = E.state.flt ∧ t.rget (portReg port.val 0x1A8) = E.state.rget (portReg port.val 0x1A8) ∧ OnlyTouches l s t := by
  obtain ⟨t, ht, hleaves, hrget⟩ := port_bit port.isLt hb h v.isLt hk hl hE hok
  refine ⟨t, ht, State.port_of_sw hleaves.sw _, hleaves.flt, hrget _ (by decide) (by decide), hleaves.only hmg (hu.trans ?_)⟩
  exact readied_blank _ (decide_eq_true (hmg (by decide))) ..

theorem enablePort_cleared (s : State) (p : Nat) : (s.enablePort p).rget (portReg p 0x1A8) = 0 := by
  have hup : ∀ (c : Prop) [Decidable c] (t : State), (if c then t.bringUp p else t).rget (portReg p 0x1A8) = t.rget (portReg p 0x1A8) := by
    intro c _ t
    split <;> rfl
  unfold State.enablePort
  dsimp only
  rw [hup, State.rget_rset_same, Nat.zero_mod]

theorem portEnable_enables (h : Commanded s q (portReg port.val 0x008) (v.toNat ||| 1)) (hk : keepsPort s port.val v.toNat 0)
    (hl : s.leads port.val = true) (hs : s.portState port.val = 0) :
    ∃ t, exec (.portEnable q port v) s = .next t ∧ (t.port port.val).enabled = true ∧ t.rget (portReg port.val 0x1A8) = 0
      ∧ OnlyTouches [.regs, .mgmt, .out, .sw, .pho, .col, .aer, .flt] s t := by
  let S := portReadied s q port.val (v.toNat ||| 1)
  have hS : S.portState port.val = 0 := (portReadied_state ..).trans hs
  have hE (w : Writer) : S.portCommand w port.val 1 = { state := S.enablePort port.val } := by
    show (if _ then _ else if _ then _ else _ : Effect) = _
    rw [if_neg (by rw [hS]; decide), if_pos hS]
  obtain ⟨t, ht, hport, -, hrget, honly⟩ := portCommand_ends (b := 0) (l := [.regs, .mgmt, .out, .sw, .pho, .col, .aer, .flt])
    (by decide) h hk hl (fun w _ => hE w) rfl (by simp) (enablePort_blank _ rfl rfl rfl rfl rfl rfl rfl rfl S port.val)
  exact ⟨t, ht, by rw [hport]; exact enablePort_enabled .., hrget.trans (enablePort_cleared ..), honly⟩

theorem portDisable_lulls (h : Commanded s q (portReg port.val 0x008) (v.toNat ||| 2)) (hk : keepsPort s port.val v.toNat 1)
    (hl : s.leads port.val = true) (hen : (s.port port.val).enabled = true) :
    ∃ t, exec (.portDisable q port v) s = .next t ∧ t.port port.val = { s.port port.val with lull := true }
      ∧ OnlyTouches [.regs, .mgmt, .out, .sw] s t := by
  let S := portReadied s q port.val (v.toNat ||| 2)
  have hS : S.port port.val = s.port port.val := portReadied_port ..
  have hE (w : Writer) : S.portCommand w port.val 2 = { state := S.setPort port.val fun x => { x with lull := true } } := by
    show ({ state := if _ then _ else _ } : Effect) = _
    rw [if_pos (by rw [hS]; exact hen)]
  obtain ⟨t, ht, hport, -, -, honly⟩ := portCommand_ends (b := 1) (l := [.regs, .mgmt, .out, .sw])
    (by decide) h hk hl (fun w _ => hE w) rfl (by simp) (setPort_blank _ _ _ _ rfl)
  exact ⟨t, ht, by rw [hport, State.port_setPort_same, hS], honly⟩

theorem requestFence_allowed (p : Nat) (hf : (s.port p).fenced = false) (hh : (s.flt.held.any fun h => h.port == p) = false)
    (ha : s.fenceAllowed p = true) (w b : Bool) (m : List (Nat × Nat)) : s.requestFence p w b m = (s.applyFence p, .applied) := by
  unfold State.requestFence
  rw [if_neg (by simp [hf]), if_neg (by simp [hh]), if_pos ha]

theorem applyFence_fenced (s : State) (p : Nat) : ((s.applyFence p).port p).fenced = true := by
  have hflags := applyFence_flags s p p
  rw [beq_self_eq_true, Bool.or_true] at hflags
  exact congrArg (·.2.2.1) hflags

theorem portFence_fences (h : Commanded s q (portReg port.val 0x008) (v.toNat ||| 4)) (hk : keepsPort s port.val v.toNat 2)
    (hl : s.leads port.val = true) (hf : (s.port port.val).fenced = false)
    (hh : (s.flt.held.any fun h => h.port == port.val) = false) (ha : s.fenceAllowed port.val = true) :
    ∃ t, exec (.portFence q port v) s = .next t ∧ (t.port port.val).fenced = true ∧ t.flt.fences = s.clk.up :: s.flt.fences
      ∧ OnlyTouches [.regs, .mgmt, .out, .sw, .col, .aer, .flt] s t := by
  let S := portReadied s q port.val (v.toNat ||| 4)
  have hreq : S.requestFence port.val true false [] = (S.applyFence port.val, .applied) :=
    requestFence_allowed _ (by rw [portReadied_port]; exact hf) (by rw [portReadied_flt]; exact hh)
      ((portReadied_any (fun s => s.fenceAllowed port.val) (fun _ _ => rfl) ..).trans ha) ..
  have hE (w : Writer) : S.portCommand w port.val 4 = { state := S.applyFence port.val } := by
    unfold State.portCommand
    dsimp only
    rw [hreq]
    rfl
  obtain ⟨t, ht, hport, hflt, -, honly⟩ := portCommand_ends (b := 2) (l := [.regs, .mgmt, .out, .sw, .col, .aer, .flt])
    (by decide) h hk hl (fun w _ => hE w) rfl (by simp) (applyFence_blank _ rfl rfl rfl rfl rfl rfl rfl S port.val)
  refine ⟨t, ht, by rw [hport]; exact applyFence_fenced .., ?_, honly⟩
  rw [hflt, applyFence_fences, portReadied_flt, portReadied_any State.clk (fun _ _ => rfl)]

theorem portUnfence_unfences (h : Commanded s q (portReg port.val 0x008) (v.toNat ||| 8)) (hk : keepsPort s port.val v.toNat 3)
    (hl : s.leads port.val = true) (hf : (s.port port.val).fenced = true) :
    ∃ t, exec (.portUnfence q port v) s = .next t ∧ (t.port port.val).fenced = false
      ∧ t.flt.held = s.flt.held.filter (fun h => h.port != port.val)
      ∧ OnlyTouches [.regs, .mgmt, .out, .sw, .col, .flt] s t := by
  let S := portReadied s q port.val (v.toNat ||| 8)
  obtain ⟨hfen, hheld⟩ := unfence_port S port.val (by rw [show S.port port.val = s.port port.val from portReadied_port .., hf]; rfl)
  obtain ⟨t, ht, hport, hflt, -, honly⟩ := portCommand_ends (b := 3) (l := [.regs, .mgmt, .out, .sw, .col, .flt])
    (E := { state := S.unfence port.val }) (by decide) h hk hl (fun _ _ => rfl) rfl (by simp) (unfence_blank _ rfl rfl rfl rfl S port.val)
  refine ⟨t, ht, by rw [hport]; exact hfen, ?_, honly⟩
  rw [hflt, hheld, show S.flt = s.flt from portReadied_flt ..]

theorem portReset_waits (h : Commanded s q (portReg port.val 0x008) (v.toNat ||| 64)) (hk : keepsPort s port.val v.toNat 6)
    (hl : s.leads port.val = true)
    (hs : s.portState port.val = 1 ∨ s.portState port.val = 2 ∨ s.portState port.val = 3) :
    ∃ t f, exec (.portReset q port v) s = .next t ∧ (t.port port.val).resetting = some ((s.port port.val).resetting.getD [] ++ [f])
      ∧ f.req = q ∧ OnlyTouches [.regs, .mgmt, .out, .sw] s t := by
  let S := portReadied s q port.val (v.toNat ||| 64)
  let f := flightOf q 0x02 (regBody (portReg port.val 8) (v.toNat ||| 64))
  have hS : S.portState port.val = s.portState port.val := portReadied_state ..
  have hE (w : Writer) (hw : w.fly = some f) : S.portCommand w port.val 64
      = { state := S.setPort port.val fun x => { x with resetting := some (x.resetting.getD [] ++ [f]) }, waits := true } := by
    show (if _ then _ else if _ then _ else _ : Effect) = _
    rw [if_neg (by omega), if_neg (by omega), hw]
    rfl
  obtain ⟨t, ht, hport, -, -, honly⟩ := portCommand_ends (b := 6) (l := [.regs, .mgmt, .out, .sw])
    (by decide) h hk hl hE rfl (by simp) (setPort_blank _ _ _ _ rfl)
  refine ⟨t, f, ht, ?_, rfl, honly⟩
  rw [hport, State.port_setPort_same, show S.port port.val = s.port port.val from portReadied_port ..]

end

/-- Settles O41, one lemma for each form. -/
theorem portCommandsAct : Obligations.PortCommandsAct := by
  unfold Obligations.PortCommandsAct
  intro s q p v hl
  exact ⟨fun h hk hs => portEnable_enables h hk hl hs, fun h hk hen => portDisable_lulls h hk hl hen,
    fun h hk hf hh ha => portFence_fences h hk hl hf hh ha, fun h hk hf => portUnfence_unfences h hk hl hf,
    fun h hk hs => portReset_waits h hk hl hs⟩

/-! Settings -/

section
variable {s : State} {q : Req} {port : PortNo} {v : Word}

/-- A port that is idle, with every port it takes in idle, may change its MODE and WIDTH (R61). -/
theorem judgePortCtrl_none {n old new : Nat} (hidle : s.portIdle n = true)
    (hgang : ∀ x ∈ gangPorts n (bits new 9 8), s.portIdle (s.leader x) = true)
    (hwz4 : bits new 5 4 = 2 → ∀ c ∈ s.enabledCtxs, s.membersOn c n = [] ∨ s.wz4Fits c = true) : s.judgePortCtrl n old new = none := by
  have hleaders : ((gangPorts n (bits new 9 8)).map s.leader).eraseDups.any (fun q => !s.portIdle q) = false := by
    rw [List.any_eq_false]
    intro x hx
    obtain ⟨y, hy, rfl⟩ := List.mem_map.mp (List.mem_eraseDups.mp hx)
    rw [hgang y hy]
    decide
  have hnamed (hm : bits new 5 4 = 2) : ¬ (s.enabledCtxs.any fun c => !(s.membersOn c n).isEmpty && !s.wz4Fits c) = true := by
    rw [List.any_eq_true]
    rintro ⟨c, hc, hbad⟩
    rcases hwz4 hm c hc with h | h <;> rw [h] at hbad <;> simp at hbad
  unfold State.judgePortCtrl
  dsimp only
  rw [hidle, hleaders]
  split
  · rfl
  · rw [if_neg (by decide), if_neg fun hb => hnamed hb.1 hb.2.2]

theorem portCmds_none (hv : ∀ b ∈ [0, 1, 2, 3, 6], bits v.toNat b b = 0) : portCmds v.toNat = 0 := by
  unfold portCmds
  rw [hv 6 (by decide), hv 3 (by decide), hv 2 (by decide), hv 1 (by decide), hv 0 (by decide)]
  rfl

/-- A write of PORT.CTRL without command bits does the same whoever writes. -/
theorem portCtrlWritten_writer (s0 s : State) (w w' : Writer) (n : Nat) :
    State.portCtrlWritten s0 s w n 0 = State.portCtrlWritten s0 s w' n 0 := rfl

theorem portPage_plain (n o : Nat) : plainReg (portPage n) o :=
  ⟨rfl, ⟨fun hb => Block.noConfusion hb.1, fun hb => Block.noConfusion hb.1⟩⟩

theorem storedFor_portPage (S : State) (n o : Nat) (d : Draft) (hd : d.value < 2 ^ 64) :
    (storedFor S (portPage n) o (S.rget (portReg n o)) d).rget (portReg n o) = d.value := by
  rw [portReg_base]
  exact storedFor_rget S (portPage n) o d (portPage_plain ..) hd

theorem portWord_lt (old w : Nat) (h : old < 2 ^ 64) : portWord old w < 2 ^ 64 :=
  putBits_lt _ _ _ _ (putBits_lt _ _ _ _ h (by decide)) (by decide)

/-- What a write of PORT.CTRL without command bits stores. -/
def portModeStored (s : State) (q : Req) (n v : Nat) : State :=
  storedFor (portReadied s q n v) (portPage n) 8 (s.rget (portReg n 8)) { value := portWord (s.rget (portReg n 8)) v }

theorem portModeStored_ctrl (s : State) (q : Req) (n w : Nat) :
    (portModeStored s q n w).rget (portReg n 8) = portWord (s.rget (portReg n 8)) w := by
  have hold : (portReadied s q n w).rget ((portPage n).base + 8) = s.rget ((portPage n).base + 8) := readied_rget ..
  unfold portModeStored
  rw [portReg_base, ← hold]
  exact storedFor_rget _ _ _ _ (portPage_plain ..) (portWord_lt _ _ (State.rget_lt ..))

theorem portModeWidthWrite_sets (h : Commanded s q (portReg port.val 0x008) v.toNat) (hl : s.leads port.val = true)
    (hw : bits v.toNat 9 8 ≤ 2) (hfits : widthFits port.val (bits v.toNat 9 8) = true) (hm : bits v.toNat 5 4 ≤ 2)
    (hcmd : ∀ b ∈ [0, 1, 2, 3, 6], bits v.toNat b b = 0) (hidle : s.portIdle port.val = true)
    (hgang : ∀ x ∈ gangPorts port.val (bits v.toNat 9 8), s.portIdle (s.leader x) = true)
    (hwz4 : bits v.toNat 5 4 = 2 → ∀ c ∈ s.enabledCtxs, s.membersOn c port.val = [] ∨ s.wz4Fits c = true) :
    ∃ t, exec (.portModeWidthWrite q port v) s = .next t ∧ t.mode port.val = bits v.toNat 5 4
      ∧ t.widthCode port.val = bits v.toNat 9 8 ∧ t.pending = s.pending := by
  have hnone : portCmds v.toNat = 0 := portCmds_none hcmd
  have hjudge : (portReadied s q port.val v.toNat).judgePortCtrl port.val (s.rget (portReg port.val 8))
      (portWord (s.rget (portReg port.val 8)) v.toNat) = none :=
    (portReadied_any (fun s => s.judgePortCtrl port.val _ _) (fun _ _ => rfl) ..).trans
      (judgePortCtrl_none hidle (by rw [portWord_width]; exact hgang) (by rw [portWord_mode]; exact hwz4))
  obtain ⟨hok, hkept⟩ := portCtrlWritten_ctrl (portReadied s q port.val v.toNat) (portModeStored s q port.val v.toNat)
    (writerOf s q (portReg port.val 8) v.toNat) port.val port.isLt
  obtain ⟨t, ht, -, hrget⟩ := port_command port.isLt h v.isLt hl hw hfits hm (by rw [hnone]; decide) hjudge
    (fun w _ => hnone ▸ portCtrlWritten_writer (portReadied s q port.val v.toNat) (portModeStored s q port.val v.toNat) w _ port.val) hok
  have hctrl : t.rget (portReg port.val 8) = portWord (s.rget (portReg port.val 8)) v.toNat := by
    rw [hrget 8 (.inl (by decide)) (by decide), hkept, portModeStored_ctrl]
  refine ⟨t, ht, ?_, ?_, (commandsKeepToTheirParts (.portModeWidthWrite q port v) s t ht).1⟩
  · exact (congrArg (bits · 5 4) hctrl).trans (portWord_mode ..)
  · exact (congrArg (bits · 9 8) hctrl).trans (portWord_width ..)

/-- What a write of a register of the PORT page stores, and does to the bucket that the register shapes. -/
def portStored (S : State) (n o : Nat) (d : Draft) : State :=
  let T := storedFor S (portPage n) o (S.rget (portReg n o)) d
  if 0x120 ≤ o ∧ o < 0x148 then S.shaperWritten T n ((o - 0x120) / 8) else T

theorem portStored_rget (S : State) (n o a : Nat) (d : Draft) :
    (portStored S n o d).rget a = (storedFor S (portPage n) o (S.rget (portReg n o)) d).rget a := by
  unfold portStored
  dsimp only
  split <;> rfl

theorem portStored_blank (K : Part → Bool) (hregs : K .regs = true) (hsw : K .sw = true) (S : State) (n o : Nat) (d : Draft) :
    (portStored S n o d).blank K = S.blank K := by
  unfold portStored
  dsimp only
  split
  · exact (shaperWritten_blank K hsw ..).trans (storedFor_blank K hregs ..)
  · exact storedFor_blank K hregs ..

/-- A write of a register of the PORT page whose fields are all plain. -/
theorem portWrite_stores {o : Nat} {r : RegDef} (h : Commanded s q (portReg port.val o) v.toNat) (hl : s.leads port.val = true)
    (ho1 : 0x100 ≤ o) (ho : o < 4096) (ho4 : o % 4 = 0) (hr : regAt .port false o = some r) (hoff : r.off = o) (hw : r.wide = false)
    (ha : Admitted r.fields v.toNat)
    (hj : o = 0x104 → s.judgeCredit port.val (s.rget (portReg port.val o)) (rwTake r.fields v.toNat (s.rget (portReg port.val o))) = none) :
    ∃ t d, done s (s.serveReg q (portReg port.val o) v.toNat) = .next t
      ∧ t.rget (portReg port.val o) = rwTake r.fields v.toNat (s.rget (portReg port.val o))
      ∧ Leaves t (portStored (readied s q (portReg port.val o) v.toNat (portPage port.val)) port.val o d)
      ∧ d.value = rwTake r.fields v.toNat (s.rget (portReg port.val o)) := by
  have hn : port.val < 1024 := port.isLt
  rw [portReg_base] at h hj ⊢
  let S := readied s q ((portPage port.val).base + o) v.toNat (portPage port.val)
  have hS : S.rget ((portPage port.val).base + o) = s.rget ((portPage port.val).base + o) := readied_rget ..
  obtain ⟨t, d, hd, -, ht, hleaves, hrget⟩ := rw_command (p := portPage port.val) (o := o) (r := r)
    (e := fun d => { state := portStored S port.val o d })
    (by unfold portPage; dsimp only; omega) (by unfold portPage; dsimp only; omega) (portPage_exists hn) ho ho4 (by omega)
    h v.isLt (by rw [portReg_8 _ hn]; exact hr) hoff hw (portIdlePage s _ hl) (.inl (fun hb => by cases hb)) (fun hb => by cases hb)
    (fun hb => by cases hb) (fun _ => by omega) (if_neg fun hb => by cases hb.1) ha
    (fun d hd _ => by
      show (if _ then _ else if _ then _ else none : Option Code) = none
      rw [if_neg (by omega)]
      split
      · next ho => rw [portPage_number, hd]; exact (readied_any (fun s => s.judgeCredit _ _ _) (fun _ _ => rfl) ..).trans (hj ho)
      · rfl)
    (fun d _ _ => by
      show (if _ then _ else if _ then _ else _ : Effect) = _
      rw [if_neg (by omega), portPage_number]
      unfold portStored
      rw [portReg_base, hS]
      split <;> rfl)
    (fun _ _ _ => rfl)
  have hlt : d.value < 2 ^ 64 := hd ▸ rwTake_lt _ _ _ ha (State.rget_lt ..)
  refine ⟨t, d, ht, ?_, hleaves, hd⟩
  have hbase := portReg_base port.val o
  rw [hrget _ (.inr (by omega)) (by rw [← hbase, replyLost_reg]; unfold portReg; omega) (by omega)]
  dsimp only
  rw [portStored_rget, ← hbase, storedFor_portPage _ _ _ _ hlt, hd, hbase]

theorem portCreditWrite_stores (h : Commanded s q (portReg port.val 0x104) v.toNat) (hl : s.leads port.val = true)
    (hlow : 16 ≤ bits v.toNat 16 0) (hhigh : bits v.toNat 16 0 ≤ 65536) (hidle : s.portIdle port.val = true)
    (hmode : s.mode port.val = 1) :
    ∃ t, exec (.portCreditWrite q port v) s = .next t ∧ t.creditLimit port.val = bits v.toNat 16 0
      ∧ OnlyTouches [.regs, .mgmt, .out] s t := by
  have hadm : Admitted [fRW 16 0 [(16, 65536)]] v.toNat := by
    intro f hf
    rw [List.mem_singleton.mp hf]
    exact .inr ⟨rfl, by decide, admits_of _ _ (16, 65536) (List.mem_singleton_self _) hlow hhigh⟩
  obtain ⟨t, d, ht, hget, hleaves, -⟩ := portWrite_stores (r := ⟨0x104, false, 192, [fRW 16 0 [(16, 65536)]]⟩) h hl (by decide)
    (by decide) (by decide) rfl rfl rfl hadm fun _ => by
      unfold State.judgeCredit
      dsimp only
      rw [hidle, if_neg (by decide), if_neg fun hb => hb.1 hmode]
  refine ⟨t, ht, ?_, hleaves.only (by simp) ?_⟩
  · unfold State.creditLimit State.fget
    rw [hget]
    exact bits_rwTake_single (f := fRW 16 0 [(16, 65536)]) _ _ rfl
  · exact (storedFor_blank _ rfl ..).trans (readied_blank _ rfl ..)

/-- The fields of a bucket's CFG. -/
def shaperCfgFields : List Field := [fRW 31 31, fRW 23 16 [(0, 127), (192, 255)], fRW 15 0 [(1, 65535)]]

theorem shaperCfgFields_admit {w : Nat} (hburst : 1 ≤ bits w 15 0) (hover : bits w 23 16 ≤ 127 ∨ 192 ≤ bits w 23 16) :
    Admitted shaperCfgFields w := by
  have h8 : bits w 23 16 < 256 := bits_lt w 23 16
  have h16 : bits w 15 0 < 65536 := bits_lt w 15 0
  intro f hf
  simp only [shaperCfgFields, List.mem_cons, List.not_mem_nil, or_false] at hf
  rcases hf with rfl | rfl | rfl
  · exact .inr ⟨rfl, by decide, rfl⟩
  · refine .inr ⟨rfl, by decide, ?_⟩
    rcases hover with hover | hover
    · exact admits_of _ _ (0, 127) (by decide) (Nat.zero_le _) hover
    · exact admits_of _ _ (192, 255) (by decide) hover (Nat.le_of_lt_succ h8)
  · exact .inr ⟨rfl, by decide, admits_of _ _ (1, 65535) (by decide) hburst (Nat.le_of_lt_succ h16)⟩

theorem bits_shaperCfg (w old : Nat) :
    bits (rwTake shaperCfgFields w old) 31 31 = bits w 31 31 ∧ bits (rwTake shaperCfgFields w old) 15 0 = bits w 15 0 := by
  show bits (putBits (putBits (putBits old 31 31 (bits w 31 31)) 23 16 (bits w 23 16)) 15 0 (bits w 15 0)) 31 31 = _
    ∧ bits (putBits (putBits (putBits old 31 31 (bits w 31 31)) 23 16 (bits w 23 16)) 15 0 (bits w 15 0)) 15 0 = _
  constructor
  · rw [bits_putBits_ne _ _ _ _ _ _ (.inr (by decide)), bits_putBits_ne _ _ _ _ _ _ (.inr (by decide)), bits_putBits_same,
      Nat.mod_eq_of_lt (bits_lt w 31 31)]
  · rw [bits_putBits_same, Nat.mod_eq_of_lt (bits_lt w 15 0)]

/-- A write of a bucket's registers settles the bucket. -/
theorem portStored_shapes (S : State) (n : Nat) {o b : Nat} (d : Draft) (ho : 0x120 ≤ o ∧ o < 0x148) (hb : (o - 0x120) / 8 = b) :
    portStored S n o d = S.shaperWritten (storedFor S (portPage n) o (S.rget (portReg n o)) d) n b := by
  unfold portStored
  dsimp only
  rw [if_pos ho, hb]

/-- A bucket that is switched on starts full (R130). -/
theorem shaperWritten_fills {S T : State} {n b : Nat} (hoff : S.bucketOn n b = false) (hon : T.bucketOn n b = true) :
    S.shaperWritten T n b = T.setBucket n b { count := bucketDepth (T.fget (bucketCfg n b) 15 0), at_ := T.fcNow } := by
  unfold State.shaperWritten
  dsimp only
  rw [hoff, hon]
  rfl

theorem bucketNo_lt (b : BucketNo) : b.ctorIdx < 5 := by cases b <;> decide

theorem shaperCfg_at (b : BucketNo) :
    regAt .port false (0x120 + 8 * b.ctorIdx) = some ⟨0x120 + 8 * b.ctorIdx, false, 0x00080100, shaperCfgFields⟩ := by
  cases b <;> rfl

theorem shaperRate_at (b : BucketNo) :
    regAt .port false (0x124 + 8 * b.ctorIdx) = some ⟨0x124 + 8 * b.ctorIdx, false, 0x000F4240, [fRW 20 0 [(1, 2000000)]]⟩ := by
  cases b <;> rfl

theorem shaperCfgWrite_shapes (b : BucketNo) (hl : s.leads port.val = true) (h : Commanded s q (bucketCfg port.val b.ctorIdx) v.toNat)
    (hburst : 1 ≤ bits v.toNat 15 0) (hover : bits v.toNat 23 16 ≤ 127 ∨ 192 ≤ bits v.toNat 23 16)
    (hoff : s.bucketOn port.val b.ctorIdx = false) :
    ∃ t, exec (.shaperCfgWrite q port b false v) s = .next t ∧ t.bucketOn port.val b.ctorIdx = (bits v.toNat 31 31 == 1)
      ∧ t.fget (bucketCfg port.val b.ctorIdx) 15 0 = bits v.toNat 15 0
      ∧ (bits v.toNat 31 31 = 1 → (t.port port.val).buckets = (s.port port.val).buckets.set b.ctorIdx
          { count := bucketDepth (bits v.toNat 15 0), at_ := s.fcNow })
      ∧ OnlyTouches [.regs, .mgmt, .out, .sw] s t := by
  have hb5 := bucketNo_lt b
  have hadm := shaperCfgFields_admit hburst hover
  obtain ⟨hbit, hdepth⟩ := bits_shaperCfg v.toNat (s.rget (bucketCfg port.val b.ctorIdx))
  obtain ⟨t, d, ht, hget, hleaves, hd⟩ := portWrite_stores (r := ⟨0x120 + 8 * b.ctorIdx, false, 0x00080100, shaperCfgFields⟩) h hl
    (by omega) (by omega) (by omega) (shaperCfg_at b) rfl rfl hadm fun ho => by omega
  have hon {u : State} (hu : u.rget (bucketCfg port.val b.ctorIdx) = rwTake shaperCfgFields v.toNat (s.rget (bucketCfg port.val b.ctorIdx))) :
      u.bucketOn port.val b.ctorIdx = (bits v.toNat 31 31 == 1) ∧ u.fget (bucketCfg port.val b.ctorIdx) 15 0 = bits v.toNat 15 0 := by
    refine ⟨?_, ?_⟩
    · unfold State.bucketOn State.bget
      rw [hu, bit_bits, hbit]
    · unfold State.fget
      rw [hu, hdepth]
  refine ⟨t, ht, (hon hget).1, (hon hget).2, fun hset => ?_, hleaves.only (by simp) ?_⟩
  · let S := readied s q (bucketCfg port.val b.ctorIdx) v.toNat (portPage port.val)
    obtain ⟨hTon, hTdepth⟩ := hon (u := storedFor S (portPage port.val) (0x120 + 8 * b.ctorIdx) (S.rget (portReg port.val (0x120 + 8 * b.ctorIdx))) d)
      ((storedFor_portPage _ _ _ _ (hd ▸ rwTake_lt _ _ _ hadm (State.rget_lt ..))).trans hd)
    rw [hset] at hTon
    have hSoff : S.bucketOn port.val b.ctorIdx = false := (readied_any (fun s => s.bucketOn port.val b.ctorIdx) (fun _ _ => rfl) ..).trans hoff
    have hstored := (portStored_shapes S port.val (b := b.ctorIdx) d (o := 0x120 + 8 * b.ctorIdx) (by omega) (by omega)).trans
      (shaperWritten_fills hSoff hTon)
    have hTonly := onlyTouches_of_blank (l := [.regs, .mgmt]) ((storedFor_blank _ rfl S (portPage port.val) (0x120 + 8 * b.ctorIdx)
      (S.rget (portReg port.val (0x120 + 8 * b.ctorIdx))) d).trans (readied_blank _ rfl s ..))
    rw [State.port_of_sw (hleaves.sw.trans (congrArg State.sw hstored)), hTdepth, fcNow_of (hTonly.2 .clk (by decide))]
    unfold State.setBucket
    rw [State.port_setPort_same, State.port_of_sw (hTonly.2 .sw (by decide))]
  · exact (portStored_blank _ rfl rfl ..).trans (readied_blank _ rfl ..)

theorem shaperRateWrite_stores (b : BucketNo) (hl : s.leads port.val = true) (h : Commanded s q (bucketRate port.val b.ctorIdx) v.toNat)
    (hlow : 1 ≤ bits v.toNat 20 0) (hhigh : bits v.toNat 20 0 ≤ 2000000) :
    ∃ t, exec (.shaperCfgWrite q port b true v) s = .next t
      ∧ t.fget (bucketRate port.val b.ctorIdx) 20 0 = bits v.toNat 20 0 ∧ OnlyTouches [.regs, .mgmt, .out, .sw] s t := by
  have hb5 := bucketNo_lt b
  have hadm : Admitted [fRW 20 0 [(1, 2000000)]] v.toNat := by
    intro f hf
    rw [List.mem_singleton.mp hf]
    exact .inr ⟨rfl, by decide, admits_of _ _ (1, 2000000) (List.mem_singleton_self _) hlow hhigh⟩
  obtain ⟨t, d, ht, hget, hleaves, -⟩ := portWrite_stores
    (r := ⟨0x124 + 8 * b.ctorIdx, false, 0x000F4240, [fRW 20 0 [(1, 2000000)]]⟩) h hl
    (by omega) (by omega) (by omega) (shaperRate_at b) rfl rfl hadm fun ho => by omega
  refine ⟨t, ht, ?_, hleaves.only (by simp) ?_⟩
  · unfold State.fget
    exact (congrArg (bits · 20 0) hget).trans (bits_rwTake_single (f := fRW 20 0 [(1, 2000000)]) _ _ rfl)
  · exact (portStored_blank _ rfl rfl ..).trans (readied_blank _ rfl ..)

end

/-- Settles O42, one lemma for each form. -/
theorem portSettingsWritten : Obligations.PortSettingsWritten := by
  unfold Obligations.PortSettingsWritten
  intro s q p v hl
  exact ⟨fun h hw hf hm hc hi hg h4 => portModeWidthWrite_sets h hl hw hf hm hc hi hg h4,
    fun h h1 h2 hi hm => portCreditWrite_stores h hl h1 h2 hi hm, fun b h h1 h2 hoff => shaperCfgWrite_shapes b hl h h1 h2 hoff,
    fun b h h1 h2 => shaperRateWrite_stores b hl h h1 h2⟩

/-! Events of ports -/

section
variable {s : State}

theorem idlePort_enabled (s : State) (p : Nat) : ((s.idlePort p).port p).enabled = false := by
  unfold State.idlePort
  dsimp only
  have hdrop (u : State) : ((u.dropArrivals p).port p).enabled = (u.port p).enabled := rfl
  rw [enabled_of_sw (State.alarmPlain_sw ..), each_enabled p _ fun s l => darkLane_enabled s l p]
  refine (congrArg Prod.fst (clearCredits_flags _ p p)).trans ((hdrop _).trans ?_)
  rw [State.port_setPort_same]

theorem portDrained_idles {port : PortNo} (hl : s.leads port.val = true) (hs : s.portState port.val = 4)
    (he : s.portEmpty port.val = true) :
    ∃ t, exec (.portDrained port) s = .next t ∧ (t.port port.val).enabled = false
      ∧ OnlyTouches [.regs, .sw, .pho, .mgmt, .col, .aer, .flt, .out] s t := by
  have hexec : exec (.portDrained port) s = done s (s.idlePort port.val) :=
    congrArg (done s) (if_pos (by rw [hl, hs, he]; rfl))
  obtain ⟨t, ht, hend, honly⟩ := exec_ends hexec
  exact ⟨t, ht, by rw [enabled_of_sw hend.sw]; exact idlePort_enabled .., honly⟩

theorem detects_enabled {p : Nat} (h : s.detects p = true) : (s.port p).enabled = true := by
  unfold State.detects at h
  simp only [Bool.and_eq_true] at h
  exact h.1.1.2

theorem portDownDetect_downs {port : PortNo} {cond : Fin 5} (hd : s.detects port.val = true)
    (hc : s.downCond port.val cond.val = true) :
    ∃ t, exec (.portDownDetect port cond) s = .next t ∧ (t.port port.val).up = false ∧ (t.port port.val).enabled = true
      ∧ ((s.portState port.val = 1 ∨ s.portState port.val = 3 ∨ s.portState port.val = 4) → ∀ x ∈ t.sw.egress, x.port ≠ port.val)
      ∧ ((s.port port.val).up = true → s.portState port.val = 1 ∨ s.portState port.val = 3 → t.score port.val = s.score port.val - 64)
      ∧ OnlyTouches [.regs, .sw, .mgmt, .col, .aer, .flt, .out] s t := by
  have hexec : exec (.portDownDetect port cond) s = done s (s.takeDown port.val cond.val) :=
    congrArg (done s) (if_pos (by rw [hd, hc]; rfl))
  obtain ⟨t, ht, hend, honly⟩ := exec_ends hexec
  obtain ⟨hdown, hnone, hscore⟩ := takeDown_parts s port.val cond.val
  obtain ⟨hup, hen⟩ := up_of_sw hend.sw port.val
  refine ⟨t, ht, hup.trans hdown, hen.trans ((takeDown_enabled ..).trans (detects_enabled hd)), fun hs => ?_, fun hu hs => ?_, honly⟩
  · exact noneFor_sw (congrArg SwitchSt.egress hend.sw) _ (hnone hs)
  · exact (score_of_rget (hend.rget _)).trans (hscore hu hs)

theorem portUpDetect_ups {port : PortNo} (hd : s.detects port.val = true) (hdown : (s.port port.val).up = false)
    (hlanes : s.lanesEnough port.val = true)
    (hready : s.pho.returning.contains (port.val / 4) = true ∨ (s.port port.val).goodSince + 250 ≤ s.clk.up) :
    ∃ t, exec (.portUpDetect port) s = .next t ∧ (t.port port.val).up = true ∧ (t.port port.val).enabled = true
      ∧ OnlyTouches [.sw, .pho] s t := by
  have hexec : exec (.portUpDetect port) s = done s ((s.bringUp port.val).fiberReturned (port.val / 4)) :=
    congrArg (done s) (if_pos (by
      rw [hd, hdown, hlanes]
      simpa only [Bool.not_false, Bool.true_and, Bool.or_eq_true, decide_eq_true_eq] using hready))
  obtain ⟨t, ht, hend, honly⟩ := exec_ends hexec
  obtain ⟨hup, hen⟩ := up_of_sw (hend.sw.trans (fiberReturned_sw ..)) port.val
  have hflags := bringUp_flags s port.val
  exact ⟨t, ht, hup.trans (congrArg (·.2.2.2.1) hflags), hen.trans ((congrArg (·.1) hflags).trans (detects_enabled hd)), honly⟩

theorem recoverScore_frame (s : State) (p : Nat) : (s.recoverScore p).flt = s.flt ∧ (s.recoverScore p).col = s.col := by
  unfold State.recoverScore
  split <;> exact ⟨rfl, rfl⟩

/-- Ports that do not recover keep their scores. -/
theorem recoverScores_other {R : List Nat} {p : Nat} (hp : p ∉ R) (s : State) : (s.each R State.recoverScore).score p = s.score p := by
  refine each_keeps_mem (fun s => State.score s p) State.recoverScore R (fun u q hq => ?_) s
  exact score_of_rget (recoverScore_other u p q fun h => hp (h ▸ hq)).1

theorem recoverScores_score {R : List Nat} (hR : R.Nodup) {p : Nat} (hp : p ∈ R) (s : State) :
    (s.each R State.recoverScore).score p = if s.score p = 255 ∨ s.flt.hurt.contains p then s.score p else s.score p + 1 := by
  induction R generalizing s with
  | nil => exact absurd hp (List.not_mem_nil)
  | cons q R ih =>
    obtain ⟨hq, hR⟩ := List.nodup_cons.mp hR
    by_cases hqp : q = p
    · subst hqp
      exact (recoverScores_other hq _).trans (recoverScore_spec s q)
    · refine (ih hR ((List.mem_cons.mp hp).resolve_left fun h => hqp h.symm) _).trans ?_
      rw [(recoverScore_frame s q).1, score_of_rget (recoverScore_other s p q hqp).1]

theorem recCtx_other {L : List Nat} {c : Nat} (hc : c ∉ L) (s : State) : (s.each L recCtx).ctx c = s.ctx c := by
  refine each_keeps_mem (fun s => State.ctx s c) recCtx L (fun u d hd => ?_) s
  exact State.ctx_setCtx_ne _ _ _ _ fun h => hc (h ▸ hd)

theorem recCtx_members {L : List Nat} (hL : L.Nodup) {c : Nat} (hc : c ∈ L) (s : State) :
    ((s.each L recCtx).ctx c).members = (s.ctx c).members.map fun kv => (kv.1, recoverMember kv.2) := by
  induction L generalizing s with
  | nil => exact absurd hc (List.not_mem_nil)
  | cons d L ih =>
    obtain ⟨hd, hL⟩ := List.nodup_cons.mp hL
    by_cases hdc : d = c
    · subst hdc
      exact (congrArg CtxSt.members (recCtx_other hd _)).trans (congrArg CtxSt.members (State.ctx_setCtx_same ..))
    · refine (ih hL ((List.mem_cons.mp hc).resolve_left fun h => hdc h.symm) _).trans ?_
      rw [show (recCtx s d).ctx c = s.ctx c from State.ctx_setCtx_ne _ _ _ _ fun h => hdc h.symm]

theorem healthRecoverInterval_recovers (h : s.flt.interval + s.flt.period ≤ s.clk.up) :
    ∃ t, exec .healthRecoverInterval s = .next t
      ∧ (∀ port : PortNo, t.score port.val = if s.score port.val = 255 ∨ s.flt.hurt.contains port.val then s.score port.val else s.score port.val + 1)
      ∧ (∀ c ∈ s.col.ctxs.map Prod.fst, (s.col.ctxs.map Prod.fst).Nodup →
          (t.ctx c).members = (s.ctx c).members.map fun kv => (kv.1, recoverMember kv.2))
      ∧ t.flt.interval = s.flt.interval + s.flt.period ∧ t.flt.hurt = [] ∧ t.flt.penalty = []
      ∧ OnlyTouches [.regs, .col, .flt] s t := by
  obtain ⟨R, hR, hall, hexec⟩ := health_all s h
  obtain ⟨t, ht, hend, honly⟩ := exec_ends hexec
  have hflt : (s.each R State.recoverScore).flt = s.flt := each_keeps State.flt _ (fun s p => (recoverScore_frame s p).1) R s
  have hcol : (s.each R State.recoverScore).col = s.col := each_keeps State.col _ (fun s p => (recoverScore_frame s p).2) R s
  have hrecFlt (L : List Nat) (u : State) : (u.each L recCtx).flt = u.flt := each_keeps State.flt recCtx (fun _ _ => rfl) L u
  have hrecGet (L : List Nat) (u : State) (a : Nat) : (u.each L recCtx).rget a = u.rget a :=
    each_keeps (fun s => State.rget s a) recCtx (fun _ _ => rfl) L u
  have hfin : t.flt.interval = s.flt.interval + s.flt.period ∧ t.flt.hurt = [] ∧ t.flt.penalty = [] := by
    rw [hend.flt]
    refine ⟨?_, rfl, rfl⟩
    show ((State.each _ _ recCtx).flt).interval + ((State.each _ _ recCtx).flt).period = _
    rw [hrecFlt, hflt]
  refine ⟨t, ht, fun port => ?_, fun c hc hnodup => ?_, hfin.1, hfin.2.1, hfin.2.2, honly⟩
  · rw [← recoverScores_score hR (hall port) s]
    exact (score_of_rget (hend.rget _)).trans (score_of_rget (hrecGet _ (s.each R State.recoverScore) _))
  · rw [ctx_of_col hend.col]
    show ((State.each _ ((s.each R State.recoverScore).col.ctxs.map Prod.fst) recCtx).ctx c).members = _
    rw [hcol, recCtx_members hnodup hc, ctx_of_col hcol]

theorem fenceHeldRejudge_judges {h : HeldFence} (hh : s.flt.held = [h]) :
    ∃ t, exec .fenceHeldRejudge s = .next t
      ∧ ((s.port h.port).fenced = true ∨ s.heldStands h = false → t.flt.held = [])
      ∧ ((s.port h.port).fenced = false → s.heldStands h = true → s.fenceAllowed h.port = true →
          t.flt.held = [] ∧ (t.port h.port).fenced = true ∧ t.flt.fences = s.clk.up :: s.flt.fences)
      ∧ ((s.port h.port).fenced = false → s.heldStands h = true → s.fenceAllowed h.port = false → t.flt.held = [h] ∧ (t.port h.port).fenced = false)
      ∧ OnlyTouches [.regs, .sw, .mgmt, .col, .aer, .flt, .out] s t := by
  obtain ⟨t, ht, hend, honly⟩ := exec_ends (s := s) (c := .fenceHeldRejudge) (congrArg (done s) (rejudge_one s h hh))
  dsimp only at hend
  have hnil : s.flt.held.filter (fun g => g.port != h.port) = [] := by rw [hh]; simp
  refine ⟨t, ht, fun hdrop => ?_, fun hf hs ha => ?_, fun hf hs ha => ?_, honly⟩
  · rw [if_pos (by rcases hdrop with hd | hd <;> rw [hd] <;> simp)] at hend
    rw [hend.flt]
    exact hnil
  · rw [if_neg (by rw [hf, hs]; decide), if_pos ha] at hend
    rw [hend.flt, applyFence_flt, State.port_of_sw hend.sw]
    exact ⟨hnil, applyFence_fenced .., rfl⟩
  · rw [if_neg (by rw [hf, hs]; decide), if_neg (by rw [ha]; decide)] at hend
    rw [hend.flt, State.port_of_sw hend.sw]
    exact ⟨hh, hf⟩

end

/-- Settles O43, one lemma for each form. -/
theorem portEventsAct : Obligations.PortEventsAct := fun _ =>
  ⟨fun _ hl hs he => portDrained_idles hl hs he, fun _ _ hd hc => portDownDetect_downs hd hc,
    fun _ hd hdown hlanes hready => portUpDetect_ups hd hdown hlanes hready, healthRecoverInterval_recovers,
    fun _ hh => fenceHeldRejudge_judges hh⟩

end Sys2Proof.Machine
end

/-! PROOFS. How rings move from state to state, how lanes move between carriers, how feeds and modules fail and return, and what
commands of LANE.CTRL do (R151, R155 to R159, R162, R165 to R167, R372, R419). -/

section
namespace Sys2Proof.Machine

/-! Rings -/

theorem Ends.ring {t u : State} (h : Ends t u) (ring : Ring) : t.ring ring = u.ring ring := ring_of u t ring h.pho h.sys

theorem Ends.placed {t u : State} (h : Ends t u) (l : Nat) : t.placed l = u.placed l := placed_of (congrArg PhotonSt.lanes h.pho) l

section
variable {s : State} {ring : Ring}

/-- A ring event that moves its ring to `x`. -/
theorem ring_event {c : Instr} {u : State} {x : RingSt} (hexec : exec c s = done s u) (hx : u.ring ring = x)
    (hc : mayTouch c = ringParts) : ∃ t, exec c s = .next t ∧ t.ring ring = x ∧ OnlyTouches ringParts s t := by
  obtain ⟨t, ht, hend, honly⟩ := exec_ends hexec
  exact ⟨t, ht, (hend.ring ring).trans hx, hc ▸ honly⟩

theorem ringSweepEnd_captures (hs : (s.ring ring).state = .sweep) :
    ∃ t, exec (.ringSweepEnd ring true) s = .next t ∧ t.ring ring = { s.ring ring with state := .capture }
      ∧ OnlyTouches ringParts s t :=
  ring_event (congrArg (done s) ((if_pos hs).trans (if_pos rfl))) (moveRing_ring ..) rfl

/-- A third attempt that fails puts the ring in FAIL (R162). -/
theorem failAttempt_fails (hn : 2 ≤ (s.ring ring).attempts) :
    (s.failAttempt ring).ring ring = { state := .fail, attempts := (s.ring ring).attempts + 1, failedUp := s.clk.up } := by
  unfold State.failAttempt
  rw [if_pos (by omega), moveRing_ring]

/-- An attempt before the third that fails starts the next sweep (R162). -/
theorem failAttempt_sweeps (hn : (s.ring ring).attempts < 2) :
    (s.failAttempt ring).ring ring = { s.ring ring with state := .sweep, attempts := (s.ring ring).attempts + 1 } := by
  unfold State.failAttempt
  rw [if_neg (by omega), moveRing_ring]

theorem ringSweepEnd_fails (hs : (s.ring ring).state = .sweep) (hn : 2 ≤ (s.ring ring).attempts) :
    ∃ t, exec (.ringSweepEnd ring false) s = .next t
      ∧ t.ring ring = { state := .fail, attempts := (s.ring ring).attempts + 1, failedUp := s.clk.up } ∧ OnlyTouches ringParts s t :=
  ring_event (congrArg (done s) ((if_pos hs).trans (if_neg Bool.false_ne_true))) (failAttempt_fails hn) rfl

theorem ringCaptureEnd_locks (hs : (s.ring ring).state = .capture) :
    ∃ t, exec (.ringCaptureEnd ring true) s = .next t ∧ t.ring ring = { state := .locked } ∧ OnlyTouches ringParts s t :=
  ring_event (congrArg (done s) ((if_pos hs).trans (if_pos rfl))) (moveRing_ring ..) rfl

theorem ringCaptureEnd_sweeps (hs : (s.ring ring).state = .capture) (hn : (s.ring ring).attempts < 2) :
    ∃ t, exec (.ringCaptureEnd ring false) s = .next t
      ∧ t.ring ring = { s.ring ring with state := .sweep, attempts := (s.ring ring).attempts + 1 } ∧ OnlyTouches ringParts s t :=
  ring_event (congrArg (done s) ((if_pos hs).trans (if_neg Bool.false_ne_true))) (failAttempt_sweeps hn) rfl

theorem ringLoopError_resweeps {e : Int} (hs : (s.ring ring).state = .locked) (he : 150000 < e.natAbs) :
    ∃ t, exec (.ringLoopError ring e true) s = .next t ∧ t.ring ring = { state := .sweep } ∧ OnlyTouches ringParts s t := by
  refine ring_event (u := s.resweepRing ring) ?_ (resweepRing_ring ..) rfl
  show done s (match (s.ring ring).state with | .locked => _ | .hold => _ | _ => _) = _
  rw [hs]
  exact congrArg (done s) ((if_neg (by simp)).trans (if_pos he))

theorem ringLoopError_holds {e : Int} (hs : (s.ring ring).state = .locked) (hrx : ringIsRx ring = true) :
    ∃ t, exec (.ringLoopError ring e false) s = .next t ∧ t.ring ring = { s.ring ring with state := .hold }
      ∧ OnlyTouches ringParts s t := by
  refine ring_event (u := s.moveRing ring { s.ring ring with state := .hold }) ?_ (moveRing_ring ..) rfl
  show done s (match (s.ring ring).state with | .locked => _ | .hold => _ | _ => _) = _
  rw [hs]
  exact congrArg (done s) (if_pos (by rw [hrx]; rfl))

theorem ringFailRetry_sweeps (hs : (s.ring ring).state = .fail) (hlong : (s.ring ring).failedUp + 25000 ≤ s.clk.up) :
    ∃ t, exec (.ringFailRetry ring) s = .next t ∧ t.ring ring = { state := .sweep } ∧ OnlyTouches ringParts s t :=
  ring_event (congrArg (done s) (if_pos ⟨hs, by omega⟩)) (resweepRing_ring ..) rfl

theorem rxRingOf_val (f : Fin 290) (w : Fin 9) : rxRingOf f.val w.val = .rx f w := by
  unfold rxRingOf
  rw [show Fin.ofNat 290 f.val = f from Fin.ext (Nat.mod_eq_of_lt f.isLt),
    show Fin.ofNat 9 w.val = w from Fin.ext (Nat.mod_eq_of_lt w.isLt)]

theorem ethMarkerMismatch_resweeps {lane : LaneNo} {f : Fin 290} {w : Fin 9} (hrx : (s.lane lane.val).rx = some (f.val, w.val))
    (heth : s.laneFabric lane.val = false) (hin : s.laneInService lane.val = true) :
    ∃ t, exec (.ethMarkerMismatch lane) s = .next t ∧ t.ring (.rx f w) = { state := .sweep } ∧ OnlyTouches ringParts s t := by
  refine ring_event (u := s.resweepRing (.rx f w)) ?_ (resweepRing_ring ..) rfl
  show done s (match (s.lane lane.val).rx with | some r => _ | none => _) = _
  rw [hrx, ← rxRingOf_val]
  exact congrArg (done s) (if_pos (by rw [heth, hin]; rfl))

end

/-- Settles O44, one lemma for each form. -/
theorem ringsMove : Obligations.RingsMove := fun _ _ =>
  ⟨ringSweepEnd_captures, ringSweepEnd_fails, ringCaptureEnd_locks, ringCaptureEnd_sweeps, fun _ => ringLoopError_resweeps,
    fun _ => ringLoopError_holds, ringFailRetry_sweeps, fun _ _ _ => ethMarkerMismatch_resweeps⟩

/-! Lanes -/

section
variable {s : State} {lane : LaneNo}

/-- A move to a carrier leaves the lane on it, and its receive side as it was (R151). -/
theorem moveNow_moves {l : Nat} {c : Nat × Nat} (hm : (s.lane l).moving = some (some c)) :
    (s.moveNow l).placed l = (some c, (s.lane l).rx, false, none, false) := by
  have hlast (g : LaneSt → LaneSt) (d : Nat) :
      (((s.setLane l g).relane l |>.bump (laneReg l 0x38)).record (lanePage l) none 0x0501 d).placed l = (s.setLane l g).placed l :=
    (placed_of (by rw [State.record_pho, State.bump_pho]) l).trans (relane_placed ..)
  have hset : (s.setLane l fun x => { x with moving := none, withdrawn := false, resetDue := false, tx := some c }).placed l
      = (some c, (s.lane l).rx, false, none, false) := by
    unfold State.placed
    rw [State.lane_setLane_same]
  unfold State.moveNow
  rw [hm]
  dsimp only
  split
  · split <;> split
    · rw [resweep_placed, resweep_placed, hlast, hset]
    · rw [resweep_placed, hlast, hset]
    · rw [resweep_placed, hlast, hset]
    · rw [hlast, hset]
  · rw [hlast, hset]

theorem laneMoveEffect_moves {c : Nat × Nat} (hm : (s.lane lane.val).moving = some (some c)) :
    ∃ t, exec (.laneMoveEffect lane) s = .next t ∧ t.placed lane.val = (some c, (s.lane lane.val).rx, false, none, false)
      ∧ OnlyTouches ringParts s t := by
  obtain ⟨t, ht, hend, honly⟩ := exec_ends (s := s) (c := .laneMoveEffect lane) rfl
  exact ⟨t, ht, (hend.placed _).trans (moveNow_moves hm), honly⟩

theorem laneMoveEffect_withdraws (hm : (s.lane lane.val).moving = some none) :
    ∃ t, exec (.laneMoveEffect lane) s = .next t
      ∧ t.placed lane.val = ((s.lane lane.val).tx, (s.lane lane.val).rx, true, none, (s.lane lane.val).resetDue)
      ∧ OnlyTouches ringParts s t := by
  have hexec : exec (.laneMoveEffect lane) s
      = done s ((s.setLane lane.val fun x => { x with moving := none, withdrawn := true }).relane lane.val) := by
    show done s (s.moveNow lane.val) = _
    unfold State.moveNow
    rw [hm]
  obtain ⟨t, ht, hend, honly⟩ := exec_ends hexec
  refine ⟨t, ht, ((hend.placed _).trans (relane_placed ..)).trans ?_, honly⟩
  unfold State.placed
  rw [State.lane_setLane_same]

theorem moveRequestTimeout_drops {r : Nat × Nat} (hrx : (s.lane lane.val).rx = some r)
    (hreq : (s.carrier r.1 r.2).request = 1 ∨ (s.carrier r.1 r.2).request = 2) (hlong : (s.carrier r.1 r.2).asked + 32 ≤ s.clk.up) :
    ∃ t, exec (.moveRequestTimeout lane) s = .next t ∧ (t.lane lane.val).rx = none ∧ (t.carrier r.1 r.2).request = 0
      ∧ (t.carrier r.1 r.2).rxState = (s.carrier r.1 r.2).rxState ∧ OnlyTouches ringParts s t := by
  let judged := s.judgeCarrier r.1 r.2 (s.carrier r.1 r.2).rxState 0
  have hjudged : judged = s.setCarrier r.1 r.2 fun c =>
      { c with rxState := (s.carrier r.1 r.2).rxState, request := 0, asked := s.clk.up, changed := some s.clk.up } :=
    if_neg fun h => by omega
  have hexec : exec (.moveRequestTimeout lane) s
      = done s ((judged.setLane lane.val fun x => { x with rx := none }).relane lane.val) := by
    show done s (match (s.lane lane.val).rx with | some r => _ | none => _) = _
    rw [hrx]
    exact congrArg (done s) (if_pos ⟨hreq, by omega⟩)
  obtain ⟨t, ht, hend, honly⟩ := exec_ends hexec
  have hpho := hend.pho.trans (relane_pho ..)
  have hcarrier : t.carrier r.1 r.2 = judged.carrier r.1 r.2 := by
    unfold State.carrier
    rw [hpho]
    rfl
  refine ⟨t, ht, ?_, ?_, ?_, honly⟩
  · rw [lane_of_pho hpho, State.lane_setLane_same, State.lane_setLane_same]
  · rw [hcarrier, hjudged, State.carrier_setCarrier_same]
  · rw [hcarrier, hjudged, State.carrier_setCarrier_same]

theorem lossSegmentCheck_names {die : DieNo} {n : Fin 512} {losses : List Int} {i : Nat} (hi : i < 5)
    (hfirst : losses.findIdx? (fun v => decide (150 ≤ v)) = some i) :
    ∃ t, exec (.lossSegmentCheck die n losses) s = .next t ∧ t.rget (pblDieReg die.val 0x100) = (i + 1) * 65536 + n.val
      ∧ OnlyTouches [.regs, .aer] s t := by
  have hexec : exec (.lossSegmentCheck die n losses) s = done s ((s.rset (pblDieReg die.val 0x100) ((i + 1) * 65536 + n.val)).record
      (pblDieReg die.val 0) none 0x0E01 ((i + 1) * 65536 + n.val)) := by
    unfold exec execLossSegmentCheck
    dsimp only
    rw [hfirst]
    dsimp only
    rw [if_pos hi]
  obtain ⟨t, ht, hend, honly⟩ := exec_ends hexec
  refine ⟨t, ht, ?_, honly⟩
  have hd := die.isLt
  have hn := n.isLt
  rw [hend.rget, record_rget _ _ _ _ _ _ _ (by unfold pblDieReg telReg; omega), State.rget_rset_same, Nat.mod_eq_of_lt (by omega)]

theorem mem_dies : ∀ d : DieNo, d ∈ ([0, 1, 2, 3] : List DieNo) := by decide

/-- A lane that one receiver hears below sensitivity is down (R166). -/
theorem dtdLaneUp_low {die dest : DieNo} {n : Fin 512} (hne : dest ≠ die)
    (hlow : s.pho.dtdLow.contains ((die.val * 512 + n.val) * 4 + dest.val) = true) : s.dtdLaneUp die n = false := by
  have hall : ([0, 1, 2, 3] : List DieNo).all (fun e =>
      e == die || ((s.ring (.dtdRx die n e)).state == .locked && !s.pho.dtdLow.contains ((die.val * 512 + n.val) * 4 + e.val))) = false := by
    rw [List.all_eq_false]
    refine ⟨dest, mem_dies dest, ?_⟩
    rw [hlow, beq_eq_false_iff_ne.mpr hne]
    simp
  unfold State.dtdLaneUp
  rw [hall, Bool.and_false, Bool.false_and, Bool.false_and, Bool.false_and]

/-- A lane that is down leaves matching (R87). -/
theorem refreshDtd_leaves {die : DieNo} {n : Fin 512} (hdown : s.dtdLaneUp die n = false) :
    (((s.refreshDtd die n).die die.val).lanesOut).contains n.val = true := by
  unfold State.refreshDtd
  dsimp only
  rw [if_neg (by rw [hdown]; decide)]
  split
  · next h => exact h
  · rw [State.die_of_sw (State.alarmPlain_sw ..), State.die_setDie_same]
    exact List.contains_iff_mem.mpr (List.mem_cons_self ..)

theorem dtdLaneBelowSensitivity_leaves {die dest : DieNo} {n : Fin 512} (hne : dest ≠ die) :
    ∃ t, exec (.dtdLaneBelowSensitivity die n dest true) s = .next t
      ∧ t.pho.dtdLow.contains ((die.val * 512 + n.val) * 4 + dest.val) = true
      ∧ (t.die die.val).lanesOut.contains n.val = true ∧ OnlyTouches [.regs, .sw, .pho, .mgmt, .aer] s t := by
  let k := (die.val * 512 + n.val) * 4 + dest.val
  let u := s.setPho fun p => { p with dtdLow := if p.dtdLow.contains k then p.dtdLow else k :: p.dtdLow }
  have hlow : u.pho.dtdLow.contains k = true := by
    show (if s.pho.dtdLow.contains k then s.pho.dtdLow else k :: s.pho.dtdLow).contains k = true
    split
    · next h => exact h
    · exact List.contains_iff_mem.mpr (List.mem_cons_self ..)
  have hexec : exec (.dtdLaneBelowSensitivity die n dest true) s = done s (u.refreshDtd die n) :=
    congrArg (done s) (if_neg hne)
  obtain ⟨t, ht, hend, honly⟩ := exec_ends hexec
  refine ⟨t, ht, ?_, ?_, honly⟩
  · rw [hend.pho, refreshDtd_pho]
    exact hlow
  · rw [State.die_of_sw hend.sw]
    exact refreshDtd_leaves (dtdLaneUp_low hne hlow)

end

/-- Settles O45, one lemma for each form. -/
theorem lanesMove : Obligations.LanesMove := fun _ =>
  ⟨fun _ _ => laneMoveEffect_moves, fun _ => laneMoveEffect_withdraws, fun _ _ => moveRequestTimeout_drops,
    fun _ _ _ _ => lossSegmentCheck_names, fun _ _ _ => dtdLaneBelowSensitivity_leaves⟩

/-! Feeds, modules and bias -/

section
variable {s : State}

theorem feedEvent_loses {q : Nat} {b : Bool} (hl : s.feedLit q b) : (s.feedEvent q b).feedLost q b = true :=
  (feedEvent_off s q b).2.2 hl.1 hl.2.2.1 hl.2.2.2

theorem Ends.feedLost {t u : State} (h : Ends t u) (q : Nat) (b : Bool) : t.feedLost q b = u.feedLost q b := lost_off (offLanes_of h.pho) q b

theorem Ends.els {t u : State} (h : Ends t u) (m : Nat) : t.els m = u.els m := els_off (offLanes_of h.pho) m

theorem feedEvent_turns {pair : Fin 288} {b : Bool} (hl : s.feedLit pair.val b) (hother : s.feedLost pair.val (!b) = false) :
    ∃ t, exec (.feedEvent pair b) s = .next t ∧ t.feedLost pair.val b = true ∧ t.selector pair.val = (if b then 1 else 2)
      ∧ t.rget (setpointReg (feedModule pair.val (!b)) (feedOutput pair.val)) = 1900
      ∧ (t.els (feedModule pair.val (!b))).safeIdle = (s.els (feedModule pair.val (!b))).safeIdle ∧ OnlyTouches ringParts s t := by
  obtain ⟨t, ht, hend, honly⟩ := exec_ends (s := s) (c := .feedEvent pair b) rfl
  obtain ⟨hsel, hset⟩ := feedEvent_one s pair.val b pair.isLt hl hother
  refine ⟨t, ht, (hend.feedLost ..).trans (feedEvent_loses hl), (sel_of_rget (hend.rget _)).trans hsel, (hend.rget _).trans hset, ?_, honly⟩
  rw [hend.els]
  exact ((feedEvent_off s pair.val b).2.1 _).1

theorem feedEvent_darkens {pair : Fin 288} {b : Bool} (hl : s.feedLit pair.val b) (hother : s.feedLost pair.val (!b) = true) :
    ∃ t, exec (.feedEvent pair b) s = .next t ∧ t.feedLost pair.val b = true ∧ t.feedLost pair.val (!b) = true
      ∧ t.bget (elsReg (feedModule pair.val b) 0x010) 25 = true ∧ OnlyTouches ringParts s t := by
  obtain ⟨t, ht, hend, honly⟩ := exec_ends (s := s) (c := .feedEvent pair b) rfl
  have hkept : (s.feedEvent pair.val b).feedLost pair.val (!b) = true :=
    ((feedEvent_off s pair.val b).1 _ _).elim (fun h => h.trans hother) id
  exact ⟨t, ht, (hend.feedLost ..).trans (feedEvent_loses hl), (hend.feedLost ..).trans hkept,
    (hend.bget ..).trans (feedEvent_two s pair.val b hl hother), honly⟩

theorem elsModuleRemoved_loses {module : Fin 32} (hp : (s.els module.val).present = true) :
    ∃ t, exec (.elsModuleRemoved module) s = .next t ∧ (t.els module.val).present = false ∧ (t.els module.val).safeIdle = true
      ∧ (s.atStage 1 = true → (s.els module.val).safeIdle = false →
          ∀ q ∈ modulePairs module.val, t.feedLost q (decide (16 ≤ module.val)) = true)
      ∧ OnlyTouches ringParts s t := by
  obtain ⟨t, ht, hend, honly⟩ := exec_ends (s := s) (c := .elsModuleRemoved module) (congrArg (done s) (if_pos hp))
  refine ⟨t, ht, ?_, ?_, fun hstage hidle q hq => ?_, honly⟩
  · rw [hend.els, State.els_setEls_same]
  · rw [hend.els, State.els_setEls_same]
  · rw [hend.feedLost]
    exact moduleLost_lost s module.val module.isLt hstage hidle q hq

theorem elsModuleInserted_stands {module : Fin 32} {suitable : Bool} (hp : (s.els module.val).present = false) :
    ∃ t, exec (.elsModuleInserted module suitable) s = .next t
      ∧ t.els module.val = { s.els module.val with present := true, suitable := suitable, safeIdle := true }
      ∧ OnlyTouches [.regs, .pho, .mgmt, .aer] s t := by
  obtain ⟨t, ht, hend, honly⟩ := exec_ends (s := s) (c := .elsModuleInserted module suitable)
    (congrArg (done s) (if_neg (by rw [hp]; decide)))
  refine ⟨t, ht, ?_, honly⟩
  rw [hend.els]
  split
  · rw [State.els_setEls_same]
  · rw [els_off (alarm_offLanes ..), State.els_setEls_same]

theorem elsRestoreComplete_restores {module : Fin 32} {f : Option InFlight}
    (hf : s.pho.restoring.find? (fun r => r.1 == module.val) = some (module.val, f)) :
    ∃ t, exec (.elsRestoreComplete module) s = .next t ∧ (t.els module.val).safeIdle = false
      ∧ (∀ q ∈ modulePairs module.val, t.feedLost q (decide (16 ≤ module.val)) = false)
      ∧ t.pho.restoring = s.pho.restoring.filter (fun x => x.1 != module.val) ∧ OnlyTouches ringParts s t := by
  let left := s.setPho fun p => { p with restoring := p.restoring.filter fun x => x.1 != module.val }
  obtain ⟨hidle, hfeeds, hleft⟩ := finish_spec left module.val module.isLt
  obtain ⟨u, hexec, hpho⟩ : ∃ u, exec (.elsRestoreComplete module) s = done s u ∧ u.pho = (left.finishRestore module.val).pho := by
    show ∃ u, done s (match s.pho.restoring.find? (fun r => r.1 == module.val) with | none => s | some r => _) = done s u ∧ _
    rw [hf]
    refine ⟨_, rfl, ?_⟩
    cases f with
    | none => rfl
    | some f => exact (onlyTouches_of_blank (l := [.regs, .mgmt, .out]) (reply_blank _ rfl rfl rfl ..)).2 .pho (by decide)
  obtain ⟨t, ht, hend, honly⟩ := exec_ends hexec
  have hoff := offLanes_of (hend.pho.trans hpho)
  refine ⟨t, ht, ?_, fun q hq => ?_, ?_, honly⟩
  · rw [els_off hoff]
    exact hidle
  · rw [lost_off hoff]
    exact hfeeds q hq
  · rw [hend.pho, hpho, hleft]
    rfl

/-- The bias control of one module's two outputs (R157). -/
def biasModule (margins : List Int) (s : State) (m : Nat) : State := (s.biasOutput margins m 0).biasOutput margins m 1

/-- The setpoints all stand in their range. -/
def setpointsInRange (s : State) : Prop :=
  ∀ (m : Fin 32) (o : Fin 2), 1600 ≤ s.rget (setpointReg m o) ∧ s.rget (setpointReg m o) ≤ 1900

theorem biasModule_inRange {margins : List Int} {m : Nat} (hm : m < 32) (h : setpointsInRange s) :
    setpointsInRange (biasModule margins s m) := by
  intro k o
  have ha : ∃ k' v, k' < 32 ∧ v < 2 ∧ setpointReg k o = setpointReg k' v := ⟨k, o, k.isLt, o.isLt, rfl⟩
  obtain ⟨hlow, hhigh⟩ := h k o
  obtain ⟨hlow, hhigh⟩ := (bias_rget s margins m 0 _ ha hm (by decide)).2 hlow hhigh
  exact (bias_rget _ margins m 1 _ ha hm (by decide)).2 hlow hhigh

theorem biasUpdate_keepsRange {margins : List Int} (h : setpointsInRange s) :
    ∃ t, exec (.biasUpdate margins) s = .next t ∧ setpointsInRange t ∧ OnlyTouches [.regs, .pho, .mgmt, .aer] s t := by
  obtain ⟨t, ht, hend, honly⟩ := exec_ends (s := s) (c := .biasUpdate margins) rfl
  refine ⟨t, ht, fun m o => ?_, honly⟩
  rw [hend.rget]
  split
  · exact each_induction_mem setpointsInRange _ (biasModule margins) s h
      (fun u k hk hu => biasModule_inRange (List.mem_range.mp hk) hu) m o
  · exact h m o

/-- Every module but `m` stands at its eye-safe idle. -/
def onlyLit (m : Nat) (s : State) : Prop := ∀ k, k ≠ m → k < 32 → (s.els k).safeIdle = true

theorem biasModule_idle {margins : List Int} {m : Nat} (h : (s.els m).safeIdle = true) : biasModule margins s m = s := by
  unfold biasModule
  rw [bias_idle s margins m 0 h, bias_idle s margins m 1 h]

theorem biasModule_onlyLit {margins : List Int} {m : Nat} (h : onlyLit m s) : onlyLit m (biasModule margins s m) := by
  intro k hk hk'
  unfold biasModule
  rw [bias_els, bias_els]
  exact h k hk hk'

theorem biasUpdate_raises {margins : List Int} {m : Fin 32} (hstage : s.atStage 2 = true) (hlit : (s.els m).safeIdle = false)
    (hp : (s.els m).present = true) (hsuit : (s.els m).suitable = true) (hothers : ∀ k : Fin 32, k ≠ m → (s.els k).safeIdle = true)
    (hlow : ∃ c ∈ s.outputConsumers m 0, ∃ v ∈ s.marginsOf margins c, v < (s.rget (pblReg 0x100) : Int)) :
    ∃ t, exec (.biasUpdate margins) s = .next t ∧ t.rget (setpointReg m 0) = min 1900 (s.rget (setpointReg m 0) + 10) := by
  have honly : onlyLit m s := fun k hk hk' => hothers ⟨k, hk'⟩ fun h => hk (congrArg Fin.val h)
  have hall : s.each (List.range 32) (biasModule margins) = biasModule margins s m :=
    each_only (P := onlyLit m) m 32 m.isLt (fun u k hu hk hk' => biasModule_idle (hu k hk hk')) (fun u hu => biasModule_onlyLit hu) s honly
  obtain ⟨t, ht, hend, -⟩ := exec_ends (s := s) (c := .biasUpdate margins) (congrArg (done s) ((if_pos hstage).trans hall))
  refine ⟨t, ht, ?_⟩
  have hfirst := bias_raise s margins m m.isLt hlit hp hsuit hlow
  rw [hend.rget, ← hfirst]
  exact (bias_rget _ margins m 1 _ ⟨m, 0, m.isLt, by decide, rfl⟩ m.isLt (by decide)).1 (by unfold setpointReg elsReg; omega)

end

/-- Settles O46, one lemma for each form. -/
theorem feedsAndModulesAct : Obligations.FeedsAndModulesAct := fun _ =>
  ⟨fun _ _ => feedEvent_turns, fun _ _ => feedEvent_darkens, fun _ => elsModuleRemoved_loses, fun _ _ => elsModuleInserted_stands,
    fun _ _ => elsRestoreComplete_restores, fun _ => biasUpdate_keepsRange, fun _ _ => biasUpdate_raises⟩

/-! Commands of LANE.CTRL -/

section
variable {s : State} {q : Req} {l : LaneNo} {f w : Nat}

/-- The state in which a command of LANE.CTRL takes effect. -/
def laneReadied (s : State) (q : Req) (l v : Nat) : State := readied s q (lanePage l + 8) v (lanePg l)

theorem laneReadied_pho (s : State) (q : Req) (l v : Nat) : (laneReadied s q l v).pho = s.pho := readied_pho ..

theorem laneReadied_lane (s : State) (q : Req) (l v k : Nat) : (laneReadied s q l v).lane k = s.lane k :=
  lane_of_pho (laneReadied_pho ..) k

/-- A command of LANE.CTRL whose meaning is `E`. -/
theorem laneCommand_ends {v : Nat} (h : Commanded s q (lanePage l.val + 8) v) (hv : v < 4294967296) (hcmd : cmdsOf [3, 2, 1, 0] v = v)
    (hone : onesOf v ≤ 1) {E : Effect} (hE : (laneReadied s q l.val v).laneCommand (l.val / 2 * 2) v = E) (hok : E.code = .ok)
    {p : List Part} (hp : [Part.regs, .mgmt, .out] ⊆ p)
    (hu : E.state.blank (fun x => decide (x ∈ p)) = (laneReadied s q l.val v).blank fun x => decide (x ∈ p)) :
    ∃ t, done s (s.serveReg q (lanePage l.val + 8) v) = .next t ∧ Leaves t E.state ∧ OnlyTouches p s t := by
  obtain ⟨t, ht, hleaves⟩ := lane_command v l.isLt h hv hcmd hone hE hok
  exact ⟨t, ht, hleaves, hleaves.only hp (hu.trans (readied_blank _ (decide_eq_true (hp (by decide))) ..))⟩

theorem Leaves.ring {t u : State} (h : Leaves t u) (r : Ring) : t.ring r = u.ring r := ring_of u t r h.pho h.sys

theorem resweep_sweeps (hdark : (s.lane l.val).state ≠ .dark) (htx : (s.lane l.val).tx = some (f, w))
    (h : Commanded s q (lanePage l.val + 8) (4 * (1 + l.val % 2))) :
    ∃ t, exec (.resweep q l) s = .next t ∧ (t.ring (txRingOf f w)).state = .sweep
      ∧ OnlyTouches [.regs, .mgmt, .out, .sw, .pho, .col, .aer, .flt] s t := by
  obtain ⟨t, ht, hleaves, honly⟩ := laneCommand_ends (p := [.regs, .mgmt, .out, .sw, .pho, .col, .aer, .flt]) h (by omega)
    (cmdsOf_lane4 _) (onesOf_lane4 _) (laneCommand_resweep ..) rfl (by simp) (resweepLane_blank _ rfl rfl rfl rfl rfl rfl rfl rfl ..)
  refine ⟨t, ht, ?_, honly⟩
  rw [hleaves.ring]
  exact resweepLane_tx _ _ _ _ (by rw [laneReadied_lane]; exact hdark) (by rw [laneReadied_lane]; exact htx)

/-- Of a lane that is neither dark nor a circuit's, a reset moves what can move, and else sweeps its rings (R372). -/
theorem resetLane_acts (hdark : (s.lane l.val).state ≠ .dark) (hkite : (s.lane l.val).state ≠ .kite) :
    s.resetLane l.val = (match s.moveTarget l.val false with
      | (some moves, _) =>
        { state := (s.each moves fun s m => s.setMove m.1 (some m.2)).setLane l.val fun x => { x with resetDue := true } }
      | (none, _) => { state := (s.changeLane l.val fun x => { x with state := .locking }).resweepLane l.val } : Effect) := by
  unfold State.resetLane
  cases hs : (s.lane l.val).state with
  | kite => exact absurd hs hkite
  | dark => exact absurd hs hdark
  | locking => rfl
  | up => rfl
  | moved => rfl
  | out => rfl

theorem laneReset_sweeps (hdark : (s.lane l.val).state ≠ .dark) (htx : (s.lane l.val).tx = some (f, w))
    (h : Commanded s q (lanePage l.val + 8) (1 + l.val % 2)) (hkite : (s.lane l.val).state ≠ .kite)
    (hnone : (s.moveTarget l.val false).1 = none) :
    ∃ t, exec (.laneReset q l) s = .next t ∧ (t.ring (txRingOf f w)).state = .sweep
      ∧ OnlyTouches [.regs, .mgmt, .out, .sw, .pho, .col, .aer, .flt] s t := by
  let S := laneReadied s q l.val (1 + l.val % 2)
  let u := S.changeLane l.val fun x => { x with state := .locking }
  have hS : S.lane l.val = s.lane l.val := laneReadied_lane ..
  have hmove : S.moveTarget l.val false = s.moveTarget l.val false :=
    readied_any (fun s => s.moveTarget l.val false) (fun _ _ => rfl) ..
  have hE : S.laneCommand (l.val / 2 * 2) (1 + l.val % 2) = { state := u.resweepLane l.val } := by
    rw [laneCommand_reset, resetLane_acts (by rw [hS]; exact hdark) (by rw [hS]; exact hkite), hmove,
      show s.moveTarget l.val false = (none, (s.moveTarget l.val false).2) from Prod.ext hnone rfl]
  obtain ⟨t, ht, hleaves, honly⟩ := laneCommand_ends (p := [.regs, .mgmt, .out, .sw, .pho, .col, .aer, .flt]) h (by omega)
    (cmdsOf_lane1 _) (onesOf_lane1 _) hE rfl (by simp)
    ((resweepLane_blank _ rfl rfl rfl rfl rfl rfl rfl rfl ..).trans (changeLane_blank _ rfl rfl rfl rfl rfl rfl rfl rfl ..))
  have hu : u.lane l.val = { s.lane l.val with state := .locking } := by
    rw [lane_of_pho (changeLane_pho ..), State.lane_setLane_same, hS]
  refine ⟨t, ht, ?_, honly⟩
  rw [hleaves.ring]
  exact resweepLane_tx _ _ _ _ (by rw [hu]; exact LaneState.noConfusion) (by rw [hu]; exact htx)

theorem laneReset_moves (hdark : (s.lane l.val).state ≠ .dark) (htx : (s.lane l.val).tx = some (f, w))
    (h : Commanded s q (lanePage l.val + 8) (1 + l.val % 2)) (hkite : (s.lane l.val).state ≠ .kite) (hstage : s.atStage 2 = true)
    (hspare : s.spareFree f 8 = true) :
    ∃ t, exec (.laneReset q l) s = .next t ∧ (t.lane l.val).moving = some (some (f, 8)) ∧ (t.lane l.val).resetDue = true
      ∧ (t.lane l.val).tx = some (f, w) ∧ OnlyTouches [.regs, .mgmt, .out, .pho] s t := by
  let S := laneReadied s q l.val (1 + l.val % 2)
  let u := (S.setMove l.val (some (f, 8))).setLane l.val fun x => { x with resetDue := true }
  have hS : S.lane l.val = s.lane l.val := laneReadied_lane ..
  have htarget : S.moveTarget l.val false = (some [(l.val, (f, 8))], false) := by
    refine (readied_any (fun s => s.moveTarget l.val false) (fun _ _ => rfl) ..).trans ?_
    unfold State.moveTarget
    rw [htx]
    dsimp only
    rw [hstage, hspare]
    rfl
  have hE : S.laneCommand (l.val / 2 * 2) (1 + l.val % 2) = { state := u } := by
    rw [laneCommand_reset, resetLane_acts (by rw [hS]; exact hdark) (by rw [hS]; exact hkite), htarget]
    rfl
  obtain ⟨t, ht, hleaves, honly⟩ := laneCommand_ends (p := [.regs, .mgmt, .out, .pho]) h (by omega)
    (cmdsOf_lane1 _) (onesOf_lane1 _) hE rfl (by simp) ((setLane_blank _ _ _ _ rfl).trans (setMove_blank _ rfl ..))
  have hu : t.lane l.val = { s.lane l.val with moving := some (some (f, 8)), resetDue := true } := by
    rw [lane_of_pho hleaves.pho, State.lane_setLane_same]
    unfold State.setMove
    rw [State.lane_setLane_same, hS]
  exact ⟨t, ht, by rw [hu], by rw [hu], by rw [hu]; exact htx, honly⟩

end

/-- Settles O48, one lemma for each form. -/
theorem laneCommandsAct : Obligations.LaneCommandsAct := fun _ _ _ _ _ hdark htx =>
  ⟨fun h hkite hnone => laneReset_sweeps hdark htx h hkite hnone, fun h hkite hs hf => laneReset_moves hdark htx h hkite hs hf,
    fun h => resweep_sweeps hdark htx h⟩

end Sys2Proof.Machine
end

/-! PROOFS. What commands of the K banks, the warm reset, the bandwidth window and the alarm selection do (R246, R287, R318, R391,
R396). -/

section
namespace Sys2Proof.Machine

/-! Banks of K -/

section
variable {s : State} {q : Req} {c : CtxNo} {b : Bool}

/-- What the CLEAR bits of KBANK_CTRL take away. -/
def kbankCleared (s : State) (c k : Nat) : State :=
  let s := if bit k 8 then s.bset (ctxReg c 0x194) 0 false else s
  if bit k 9 then s.bset (ctxReg c 0x194) 1 false else s

theorem kbankCleared_blank (K : Part → Bool) (h : K .regs = true) (s : State) (c k : Nat) : (kbankCleared s c k).blank K = s.blank K := by
  unfold kbankCleared
  dsimp only
  split
  · exact (bset_blank _ h ..).trans (by split <;> [exact bset_blank _ h ..; rfl])
  · split <;> [exact bset_blank _ h ..; rfl]

/-- A write of KBANK_CTRL while the context is idle stores `x`, and takes away what its CLEAR bits name. -/
theorem kbank_ends {v x k : Nat} (h : Commanded s q (ctxReg c.val 0x194) v) (hv : v < 4294967296)
    (hd : ∀ y, y = s.rget (ctxReg c.val 0x194) → draftOf s.secLocked [⟨1, 1, .w1s, []⟩, ⟨0, 0, .w1s, []⟩, fCmd 8, fCmd 9] y 4294967295 v
      = { value := x, cmds := k }) (hx : x < 2 ^ 64) (hone : onesOf k ≤ 1) (hi : (s.ctx c.val).state = .idle) :
    ∃ t u : State, done s (s.serveReg q (ctxReg c.val 0x194) v) = .next t ∧ u.rget (ctxReg c.val 0x194) = x
      ∧ (∀ i, t.bankValid c.val i = (kbankCleared u c.val k).bankValid c.val i) ∧ OnlyTouches [.regs, .mgmt, .out] s t := by
  let S := readied s q (ctxReg c.val 0x194) v (ctxPage c.val)
  let u := storedFor S (ctxPage c.val) 0x194 (s.rget (ctxReg c.val 0x194)) { value := x, cmds := k }
  have hu : u.rget (ctxReg c.val 0x194) = x := by
    have hread : S.rget ((ctxPage c.val).base + 0x194) = s.rget ((ctxPage c.val).base + 0x194) := readied_rget ..
    show (storedFor S _ _ _ _).rget _ = _
    rw [ctxReg_base, ← hread]
    exact storedFor_rget S (ctxPage c.val) 0x194 _ ⟨rfl, ⟨fun hb => absurd hb.2 (by decide), fun hb => absurd hb.2.2 (by decide)⟩⟩ hx
  have hblank (K : Part → Bool) (hr : K .regs = true) (hm : K .mgmt = true) : (kbankCleared u c.val k).blank K = s.blank K :=
    (kbankCleared_blank K hr ..).trans ((storedFor_blank K hr ..).trans (readied_blank K hm ..))
  have hidle : ((kbankCleared u c.val k).ctx c.val).state = .idle := by
    rw [ctx_of_col ((onlyTouches_of_blank (l := [.regs, .mgmt]) (hblank _ rfl rfl)).2 .col (by decide))]
    exact hi
  have hE : u.kbankWritten c.val k = { state := kbankCleared u c.val k } :=
    congrArg (fun x : State => ({ state := x } : Effect)) (retireBanks_idle _ _ hidle)
  obtain ⟨t, ht, hleaves, hget⟩ := kbank_command c.isLt h hv hd hone hi hE rfl
  refine ⟨t, u, ht, hu, fun i => ?_, hleaves.only (by simp) (hblank _ rfl rfl)⟩
  unfold State.bankValid State.bget
  rw [hget]

/-- KBANK_CTRL with a VALID bit set. -/
def kbankWithValid (y : Nat) (b : Bool) : Nat :=
  putBits (putBits y 1 1 (bits y 1 1 ||| if b then 1 else 0)) 0 0 (bits y 0 0 ||| if b then 0 else 1)

theorem kbankWithValid_lt {y : Nat} (b : Bool) (hy : y < 2 ^ 64) : kbankWithValid y b < 2 ^ 64 :=
  putBits_lt _ _ _ _ (putBits_lt _ _ _ _ hy (by decide)) (by decide)

theorem kbankWithValid_bits (y : Nat) (b : Bool) :
    (kbankWithValid y b).testBit (if b then 1 else 0) = true
      ∧ (kbankWithValid y b).testBit (if b then 0 else 1) = y.testBit (if b then 0 else 1) := by
  obtain ⟨h1, h0⟩ := bankBits y (if b then 1 else 0) (if b then 0 else 1) (by cases b <;> decide) (by cases b <;> decide)
  cases b
  · exact ⟨h0.trans (Bool.or_true _), h1.trans (Bool.or_false _)⟩
  · exact ⟨h1.trans (Bool.or_true _), h0.trans (Bool.or_false _)⟩

theorem kbankValidSet_sets (h : Commanded s q (ctxReg c.val 0x194) (if b then 2 else 1)) (hi : (s.ctx c.val).state = .idle) :
    ∃ t, exec (.kbankValidSet q c b) s = .next t ∧ t.bankValid c.val (if b then 1 else 0) = true
      ∧ t.bankValid c.val (if b then 0 else 1) = s.bankValid c.val (if b then 0 else 1) ∧ OnlyTouches [.regs, .mgmt, .out] s t := by
  obtain ⟨t, u, ht, hu, hvalid, honly⟩ := kbank_ends (k := 0) (x := kbankWithValid (s.rget (ctxReg c.val 0x194)) b) h
    (by cases b <;> decide) (fun _ hy => hy ▸ w1s_draft _ _ b) (kbankWithValid_lt _ (State.rget_lt ..)) (by decide) hi
  obtain ⟨hset, hkept⟩ := kbankWithValid_bits (s.rget (ctxReg c.val 0x194)) b
  have hread (i : Nat) : t.bankValid c.val i = (kbankWithValid (s.rget (ctxReg c.val 0x194)) b).testBit i :=
    (hvalid i).trans (congrArg (Nat.testBit · i) hu)
  exact ⟨t, ht, (hread _).trans hset, (hread _).trans hkept, honly⟩

theorem kbankClear_clears (h : Commanded s q (ctxReg c.val 0x194) (if b then 0x200 else 0x100)) (hi : (s.ctx c.val).state = .idle) :
    ∃ t, exec (.kbankClear q c b) s = .next t ∧ t.bankValid c.val (if b then 1 else 0) = false
      ∧ t.bankValid c.val (if b then 0 else 1) = s.bankValid c.val (if b then 0 else 1) ∧ OnlyTouches [.regs, .mgmt, .out] s t := by
  obtain ⟨t, u, ht, hu, hvalid, honly⟩ := kbank_ends (x := s.rget (ctxReg c.val 0x194))
    (k := if b then 0x200 else 0x100) h (by cases b <;> decide) (fun _ hy => hy ▸ clr_draft _ _ b) (State.rget_lt ..) (by cases b <;> decide) hi
  have hcleared : kbankCleared u c.val (if b then 0x200 else 0x100) = u.bset (ctxReg c.val 0x194) (if b then 1 else 0) false := by
    cases b <;> rfl
  refine ⟨t, ht, ?_, ?_, honly⟩
  · rw [hvalid, hcleared]
    exact bget_bset_same _ _ _ _ (by cases b <;> decide)
  · rw [hvalid, hcleared]
    refine (bget_bset_other _ _ _ _ _ (by cases b <;> decide) (by cases b <;> decide)).trans ?_
    exact congrArg (Nat.testBit · _) hu

end

/-! The warm reset -/

section
variable {s : State} {q : Req}

theorem warmReset_pends (h : Commanded s q (glbReg 0x008) 1) (hq : q.hcp1 = false) :
    ∃ t, exec (.warmReset q) s = .next t ∧ t.sys.warmPending = some s.clk.up ∧ OnlyTouches [.regs, .mgmt, .out, .sys] s t := by
  let S := readied s q (glbPage.base + 8) 1 glbPage
  obtain ⟨t, ht, hleaves, -⟩ := ctrl_command (p := glbPage) (bs := [0]) (c := 1)
    (e := { state := S.setSys fun y => { y with warmPending := some S.clk.up } }) (by decide) (by decide) glbPage_exists rfl h
    (by decide) rfl rfl (by decide) rfl (fun _ => hq) (fun _ _ _ => rfl) rfl
  have hclk : S.clk = s.clk := readied_clk ..
  refine ⟨t, ht, (congrArg SysSt.warmPending hleaves.sys).trans (congrArg (fun k : TickSt => some k.up) hclk), hleaves.only (by simp) ?_⟩
  exact (setSys_blank _ _ _ rfl).trans (readied_blank (fun p => decide (p ∈ [Part.regs, .mgmt, .out, .sys])) rfl ..)

/-! The bandwidth window -/

variable {v : Word}

theorem bits_or_bit {v b hi lo : Nat} (hb : b < lo ∨ hi < b) : bits (v ||| 2 ^ b) hi lo = bits v hi lo := by
  refine Nat.eq_of_testBit_eq fun i => ?_
  rw [testBit_bits, testBit_bits, Nat.testBit_or]
  by_cases hi' : i < hi + 1 - lo
  · rw [Nat.testBit_two_pow_of_ne (by omega), Bool.or_false]
  · simp [hi']

theorem rget_bwReset (s : State) (a x : Nat) (g : SysSt → SysSt) (hx : x < 2 ^ 64 := by decide) :
    ((s.rset a x).setSys g).rget a = x :=
  (State.rget_rset_same ..).trans (Nat.mod_eq_of_lt hx)

theorem bwWindowStart_arms (h : Commanded s q (telReg 0x200) (v.toNat ||| 1)) (hstop : bits v.toNat 2 2 = 0)
    (hoff : s.fget (telReg 0x210) 1 0 = 0) (hat : BitVec.ofNat 48 (s.rget (telReg 0x208)) = 0) :
    ∃ t, exec (.bwWindowStart q v) s = .next t ∧ t.rget (telReg 0x210) = 1 ∧ t.sys.bwStart = s.tickPlus 1
      ∧ OnlyTouches [.regs, .mgmt, .out, .sys] s t := by
  have harm (u : State) (hu : ∀ a, a ≠ telReg 0x200 → u.rget a = s.rget a) : u.bwCommand 1
      = { state := (u.rset (telReg 0x210) 1).setSys fun y => { y with bwStart := u.tickPlus 1, bwFrom := none, bw := [] } } :=
    armWindow_ok u ((State.fget_congr _ _ _ (hu _ (by decide))).trans hoff) (by rw [hu _ (by decide)]; exact hat)
  obtain ⟨t, u, ht, hu, hblank, hleaves, hget⟩ := bw_command (c := 1) h (or_bit_lt _ 0 v.isLt (by decide))
    ((bits_or_bit (b := 0) (.inl (by decide))).trans hstop) (bits_or_same _ 0) (by decide) (by decide) fun u hu => by rw [harm u hu]
  rw [harm u hu] at hleaves hget
  have hclk : u.clk = s.clk := (onlyTouches_of_blank (l := [.regs, .mgmt]) (hblank _ rfl rfl)).2 .clk (by decide)
  refine ⟨t, ht, ?_, ?_, hleaves.only (by simp) ?_⟩
  · exact hget.trans (rget_bwReset ..)
  · refine (congrArg SysSt.bwStart hleaves.sys).trans ?_
    show u.tickPlus 1 = s.tickPlus 1
    unfold State.tickPlus
    rw [hclk]
  · have hK := hblank (fun p => decide (p ∈ [Part.regs, .mgmt, .out, .sys])) rfl rfl
    exact ((setSys_blank _ _ _ rfl).trans (rset_blank _ _ _ _ rfl)).trans hK

theorem bwWindowStop_clears (h : Commanded s q (telReg 0x200) (v.toNat ||| 4)) (hstart : bits v.toNat 0 0 = 0) :
    ∃ t, exec (.bwWindowStop q v) s = .next t ∧ t.rget (telReg 0x210) = 0 ∧ t.sys.bwFrom = none
      ∧ OnlyTouches [.regs, .mgmt, .out, .sys] s t := by
  obtain ⟨t, u, ht, hu, hblank, hleaves, hget⟩ := bw_command (c := 4) h (or_bit_lt _ 2 v.isLt (by decide))
    (bits_or_same _ 2) ((bits_or_bit (b := 2) (.inr (by decide))).trans hstart) (by decide) (by decide) fun u hu => rfl
  refine ⟨t, ht, ?_, congrArg SysSt.bwFrom hleaves.sys, hleaves.only (by simp) ?_⟩
  · exact hget.trans (rget_bwReset ..)
  · have hK := hblank (fun p => decide (p ∈ [Part.regs, .mgmt, .out, .sys])) rfl rfl
    exact ((setSys_blank _ _ _ rfl).trans (rset_blank _ _ _ _ rfl)).trans hK

end

/-! The selection of an alarm record -/

section
variable {s : State} {q : Req} {v : Word}

/-- A register that is one word takes the word written. -/
theorem putBits_word {old w : Nat} (hw : w < 2 ^ 32) (hold : old < 2 ^ 32) : putBits old 31 0 (bits w 31 0) = w := by
  rw [putBits_eq]
  unfold bits
  rw [Nat.shiftRight_zero]
  omega

theorem wordDraft (locked : Bool) {old w : Nat} (hw : w < 2 ^ 32) (hold : old < 2 ^ 32) :
    draftOf locked [fRW 31 0] old 4294967295 w = { value := w, changed := false || w != old } := by
  have hfull {x : Nat} (hx : x < 2 ^ 32) : bits x 31 0 = x := by
    unfold bits
    rw [Nat.shiftRight_zero]
    exact Nat.mod_eq_of_lt hx
  unfold draftOf fRW
  rw [List.foldl_cons, List.foldl_nil, take_rw _ _ _ _ _ _ (by decide)]
  refine (if_pos rfl).trans ?_
  dsimp only
  rw [putBits_word hw hold, hfull hw, hfull hold]

theorem setWin_aerWin (s : State) (m : MPort) (w : AerWin) : (s.setWin m w).aerWin m = w := by
  cases m <;> rfl

theorem aerSelect_selects (h : Commanded s q (telReg 0x304) v.toNat) (hhung : (s.hbmOn && s.dieHung (v.toNat % 4)) = false) :
    ∃ t, exec (.aerSelect q v) s = .next t ∧ t.aerWin q.port = ⟨v, (s.findRec v.toNat).1, (s.findRec v.toNat).2⟩
      ∧ OnlyTouches [.regs, .mgmt, .out, .aer] s t := by
  let S := readied s q (telPage.base + 0x304) v.toNat telPage
  have hold : S.oldValue (writerOf s q (telPage.base + 0x304) v.toNat) telPage 0x304 = (s.aerWin q.port).sel.toNat :=
    readied_any (fun s => (s.aerWin q.port).sel.toNat) (fun _ _ => rfl) ..
  have hhungS : (S.hbmOn && S.dieHung (v.toNat % 4)) = false := by
    have hon : S.hbmOn = s.hbmOn := readied_any State.hbmOn (fun _ _ => rfl) ..
    have hdie : S.dieHung (v.toNat % 4) = s.dieHung (v.toNat % 4) := by
      unfold State.dieHung
      rw [show S.mgmt.hung = s.mgmt.hung from (acked_hung ..).trans (taken_hung ..)]
    rw [hon, hdie]
    exact hhung
  have hrec : S.findRec v.toNat = s.findRec v.toNat := readied_any (fun s => s.findRec v.toNat) (fun _ _ => rfl) ..
  have hfind : S.selectRec q.port v.toNat = (S.setWin q.port ⟨v, (s.findRec v.toNat).1, (s.findRec v.toNat).2⟩, .ok) := by
    unfold State.selectRec
    rw [hhungS, hrec, BitVec.ofNat_toNat, BitVec.setWidth_eq]
    rfl
  obtain ⟨t, ht, hleaves, -⟩ := reg_command (p := telPage) (o := 0x304) (r := rRW 0x304 0)
    (d := { value := v.toNat, changed := false || v.toNat != (s.aerWin q.port).sel.toNat })
    (e := { state := S.setWin q.port ⟨v, (s.findRec v.toNat).1, (s.findRec v.toNat).2⟩ })
    (by decide) (by decide) rfl (by decide) (by decide) (by decide) h v.isLt rfl rfl rfl rfl
    (by
      unfold draftFor
      rw [show (rRW 0x304 0).off = 0x304 from rfl, hold]
      exact (if_neg fun hb => Block.noConfusion hb.1).trans (wordDraft _ v.isLt (s.aerWin q.port).sel.isLt)) rfl rfl
    (by decide : onesOf 0 ≤ 1)
    (by
      show S.judgeTel telPage.die 0x304 _ = none
      unfold State.judgeTel
      rw [if_neg (by decide), if_neg (by omega)])
    (by
      rw [hold]
      show Effect.ofPair (S.selectRec q.port v.toNat) = _
      rw [hfind]
      rfl) rfl
  refine ⟨t, ht, ?_, hleaves.only (by simp) ((setWin_blank _ rfl ..).trans (readied_blank _ rfl ..))⟩
  unfold State.aerWin
  rw [hleaves.aer]
  exact setWin_aerWin ..

end

/-- Settles O49, one lemma for each form. -/
theorem bankAndChipCommandsAct : Obligations.BankAndChipCommandsAct := fun _ _ _ _ _ =>
  ⟨kbankValidSet_sets, kbankClear_clears, warmReset_pends, bwWindowStart_arms, bwWindowStop_clears, aerSelect_selects⟩

end Sys2Proof.Machine
end

/-! PROOFS. What table and MAC commands do, and how shifts, sweeps, relays and rewrites end (R106 to R128). -/

section
namespace Sys2Proof.Machine

section
variable {s : State} {q : Req} {b : TblBlock}

/-! Tables -/

/-- A table command that acts at once: its tables and answer, and the registers below the errors of TBL. -/
theorem table_ends {c : Instr} {op : Nat} (hc : exec c s = done s (s.serveTable q op b)) (hparts : mayTouch c = tableParts)
    (h : TableTaken s q op b) {u : State} {i d gen : Nat} {data : Bytes}
    (ha : ∀ g, ((s.relayedFor op).setMgmt g).tableApply op b = (u.setMgmt g, .ok i d data gen)) (hpen : u.pending = s.pending)
    (hout : u.out = s.out) :
    ∃ t, exec c s = .next t ∧ t.tbl = u.tbl ∧ Answered s t q 0x06 (tableAns op i d gen data)
      ∧ (∀ n ≤ 4, t.rget (genReg n) = u.rget (genReg n)) ∧ OnlyTouches tableParts s t := by
  obtain ⟨t, ht, hans, htbl, hrget⟩ := table_now h ha hpen hout
  have ht : exec c s = .next t := hc.trans ht
  refine ⟨t, ht, htbl, hans, fun n hn => ?_, hparts ▸ commandsKeepToTheirParts c s t ht⟩
  obtain ⟨hlow, hne⟩ := genReg_fresh n hn
  exact hrget _ hlow hne

/-- A table command that runs on. -/
theorem table_runs {c : Instr} {op : Nat} (hc : exec c s = done s (s.serveTable q op b)) (hparts : mayTouch c = tableParts)
    (h : TableTaken s q op b)
    (ha : ∀ g, ((s.relayedFor op).setMgmt g).tableApply op b = ((s.relayedFor op).setMgmt g, .running))
    (honly : OnlyTouches [.regs, .tbl] s (s.relayedFor op)) :
    ∃ t, exec c s = .next t
      ∧ t.tbl = { (s.relayedFor op).tbl with busy := some ⟨flightOf q 0x06 (TblBlock.body op b), op, b, s.fcNow⟩ } ∧ t.out = s.out
      ∧ OnlyTouches tableParts s t := by
  obtain ⟨t, ht, htbl, hout⟩ := table_later h ha honly.1 (honly.2 .out (by decide)) (fcNow_of (honly.2 .clk (by decide)))
  have ht : exec c s = .next t := hc.trans ht
  exact ⟨t, ht, htbl, hout, hparts ▸ commandsKeepToTheirParts c s t ht⟩

/-- A command of a table other than the MAC table acts on the state as it stands. -/
theorem relayedFor_other {op : Nat} (h : opTable op ≠ 3) : s.relayedFor op = s := if_neg h

theorem tableApply_lpmModify {e : LpmEntry} (he : parseLpm b.args = some e) : s.tableApply 0x03 b
    = ((s.setTbl fun t => { t with lpm := s.tbl.lpm.map fun x => if x.sameKey e then { x with group := e.group, gen := b.gen.toNat } else x }).setGen 0x03 b,
      .ok ((s.tbl.lpm.findIdx? fun x => x.sameKey e).getD 0) 0 [] b.gen.toNat) := by
  show (match parseLpm b.args with | some e => _ | none => _) = _
  rw [he]

theorem tableApply_lpmRead {e : LpmEntry} (he : s.tbl.lpm[b.index.toNat]? = some e) :
    s.tableApply 0x04 b = (s, .ok b.index.toNat 0 e.bytes e.gen) := by
  show (match s.tbl.lpm[b.index.toNat]? with | some e => _ | none => _) = _
  rw [he]

theorem tableApply_nhWrite {r : Bool × List Nat} (hr : parseNh b.args = some r) : s.tableApply 0x10 b
    = ((s.setTbl fun t => { t with nh := mput t.nh b.index.toNat { hash := r.1, ports := r.2, gen := b.gen.toNat } }).setGen 0x10 b,
      .ok b.index.toNat 0 [] b.gen.toNat) := by
  show (match parseNh b.args with | some r => _ | none => _) = _
  rw [hr]

theorem lpmModify_modifies {e : LpmEntry} (h : TableTaken s q 0x03 b) (he : parseLpm b.args = some e) :
    ∃ t, exec (.lpmModify q b) s = .next t
      ∧ t.tbl = { s.tbl with lpm := s.tbl.lpm.map fun x => if x.sameKey e then { x with group := e.group, gen := b.gen.toNat } else x }
      ∧ t.rget (genReg 0) = b.gen.toNat
      ∧ Answered s t q 0x06 (tableAns 0x03 ((s.tbl.lpm.findIdx? fun x => x.sameKey e).getD 0) 0 b.gen.toNat []) ∧ OnlyTouches tableParts s t := by
  obtain ⟨t, ht, htbl, hans, hgen, honly⟩ := table_ends (c := .lpmModify q b) rfl rfl h
    (i := (s.tbl.lpm.findIdx? fun x => x.sameKey e).getD 0)
    (u := (s.setTbl fun t => { t with lpm := s.tbl.lpm.map fun x => if x.sameKey e then { x with group := e.group, gen := b.gen.toNat } else x }).setGen 0x03 b)
    (fun g => by
      rw [relayedFor_other (by decide)]
      exact tableApply_lpmModify (s := s.setMgmt g) he) rfl rfl
  exact ⟨t, ht, htbl, (hgen 0 (by decide)).trans (setGen_rget _ 0x03 b), hans, honly⟩

theorem nhWrite_stores {r : Bool × List Nat} (h : TableTaken s q 0x10 b) (hr : parseNh b.args = some r) :
    ∃ t, exec (.nhWrite q b) s = .next t
      ∧ t.tbl = { s.tbl with nh := mput s.tbl.nh b.index.toNat { hash := r.1, ports := r.2, gen := b.gen.toNat } }
      ∧ t.rget (genReg 1) = b.gen.toNat ∧ Answered s t q 0x06 (tableAns 0x10 b.index.toNat 0 b.gen.toNat []) ∧ OnlyTouches tableParts s t := by
  obtain ⟨t, ht, htbl, hans, hgen, honly⟩ := table_ends (c := .nhWrite q b) rfl rfl h
    (u := (s.setTbl fun t => { t with nh := mput t.nh b.index.toNat { hash := r.1, ports := r.2, gen := b.gen.toNat } }).setGen 0x10 b)
    (fun g => by
      rw [relayedFor_other (by decide)]
      exact tableApply_nhWrite (s := s.setMgmt g) hr) rfl rfl
  exact ⟨t, ht, htbl, (hgen 1 (by decide)).trans (setGen_rget _ 0x10 b), hans, honly⟩

theorem mcWrite_stores (h : TableTaken s q 0x20 b) :
    ∃ t, exec (.mcWrite q b) s = .next t
      ∧ t.tbl = { s.tbl with mc := mput s.tbl.mc b.index.toNat { ports := bitmapPorts b.args, gen := b.gen.toNat } }
      ∧ t.rget (genReg 2) = b.gen.toNat ∧ Answered s t q 0x06 (tableAns 0x20 b.index.toNat 0 b.gen.toNat []) ∧ OnlyTouches tableParts s t := by
  obtain ⟨t, ht, htbl, hans, hgen, honly⟩ := table_ends (c := .mcWrite q b) rfl rfl h
    (u := (s.setTbl fun t => { t with mc := mput t.mc b.index.toNat { ports := bitmapPorts b.args, gen := b.gen.toNat } }).setGen 0x20 b)
    (fun _ => rfl) rfl rfl
  exact ⟨t, ht, htbl, (hgen 2 (by decide)).trans (setGen_rget _ 0x20 b), hans, honly⟩

/-- The entry that a write of the VLAN table spells (R118). -/
def vlanOf (b : TblBlock) : VlanEntry :=
  { valid := bit (byteAt b.args 0) 7, learn := bit (byteAt b.args 0) 6, flood := fld b.args 2 2,
    remote := BitVec.ofNat 32 (fld b.args 4 4), gen := b.gen.toNat }

theorem vlanWrite_stores (h : TableTaken s q 0x40 b) :
    ∃ t, exec (.vlanWrite q b) s = .next t ∧ t.tbl = { s.tbl with vlan := mput s.tbl.vlan b.index.toNat (vlanOf b) }
      ∧ t.rget (genReg 4) = b.gen.toNat ∧ Answered s t q 0x06 (tableAns 0x40 b.index.toNat 0 b.gen.toNat []) ∧ OnlyTouches tableParts s t := by
  obtain ⟨t, ht, htbl, hans, hgen, honly⟩ := table_ends (c := .vlanWrite q b) rfl rfl h
    (u := (s.setTbl fun t => { t with vlan := mput t.vlan b.index.toNat (vlanOf b) }).setGen 0x40 b) (fun _ => rfl) rfl rfl
  exact ⟨t, ht, htbl, (hgen 4 (by decide)).trans (setGen_rget _ 0x40 b), hans, honly⟩

/-- A read that answers what the table holds. -/
theorem table_reads {c : Instr} {op : Nat} (hc : exec c s = done s (s.serveTable q op b)) (hparts : mayTouch c = tableParts)
    (h : TableTaken s q op b) {i d gen : Nat} {data : Bytes} (hop : opTable op ≠ 3)
    (ha : ∀ g, (s.setMgmt g).tableApply op b = (s.setMgmt g, .ok i d data gen)) :
    ∃ t, exec c s = .next t ∧ t.tbl = s.tbl ∧ Answered s t q 0x06 (tableAns op i d gen data) ∧ OnlyTouches tableParts s t := by
  obtain ⟨t, ht, htbl, hans, -, honly⟩ := table_ends hc hparts h (u := s) (by rw [relayedFor_other hop]; exact ha) rfl rfl
  exact ⟨t, ht, htbl, hans, honly⟩

end

/-- Settles O50, one lemma for each form. -/
theorem tableCommandsAct : Obligations.TableCommandsAct := fun s q b =>
  ⟨fun h => table_runs (c := .lpmInsert q b) rfl rfl h (fun _ => rfl) (onlyTouches_of_blank rfl),
    fun h => table_runs (c := .lpmDelete q b) rfl rfl h (fun _ => rfl) (onlyTouches_of_blank rfl),
    fun _ => lpmModify_modifies, fun _ h he => table_reads (c := .lpmRead q b) rfl rfl h (by decide) fun _ => tableApply_lpmRead he, fun _ => nhWrite_stores,
    fun h => table_reads (c := .nhRead q b) rfl rfl h (by decide) fun _ => rfl, mcWrite_stores,
    fun h => table_reads (c := .mcRead q b) rfl rfl h (by decide) fun _ => rfl, vlanWrite_stores,
    fun h => table_reads (c := .vlanRead q b) rfl rfl h (by decide) fun _ => rfl⟩

/-! The MAC table -/

section
variable {s : State} {q : Req} {b : TblBlock}

/-- A MAC command comes after the learns that wait (R124). -/
theorem relayedFor_mac {op : Nat} (h : opTable op = 3) : s.relayedFor op = s.relayDrain := if_pos h

/-- A MAC command that acts at once. -/
theorem mac_ends {c : Instr} {op : Nat} (hc : exec c s = done s (s.serveTable q op b)) (hparts : mayTouch c = tableParts)
    (h : TableTaken s q op b) (hop : opTable op = 3) {u : State} {i d gen : Nat} {data : Bytes}
    (ha : ∀ g, (s.relayDrain.setMgmt g).tableApply op b = (u.setMgmt g, .ok i d data gen)) (hpen : u.pending = s.relayDrain.pending)
    (hout : u.out = s.relayDrain.out) :
    ∃ t, exec c s = .next t ∧ t.tbl = u.tbl ∧ Answered s t q 0x06 (tableAns op i d gen data)
      ∧ t.rget (genReg 3) = u.rget (genReg 3) ∧ OnlyTouches tableParts s t := by
  obtain ⟨t, ht, htbl, hans, hgen, honly⟩ := table_ends hc hparts h (u := u) (by rw [relayedFor_mac hop]; exact ha)
    (hpen.trans (relayDrain_only s).1) (hout.trans ((relayDrain_only s).2 .out (by decide)))
  exact ⟨t, ht, htbl, hans, hgen 3 (by decide), honly⟩

/-- The entry that a MAC insert puts in the table. -/
def insertedMac (s : State) (b : TblBlock) : MacEntry :=
  { vid := (parseMac b.args).vid, mac := BitVec.ofNat 48 (parseMac b.args).mac, fixed := (parseMac b.args).fixed,
    remote := (parseMac b.args).remote, dest := BitVec.ofNat 32 (parseMac b.args).dest, hit := false, gen := b.gen.toNat, at_ := s.fcNow }

theorem macInsert_inserts (h : TableTaken s q 0x30 b) :
    ∃ t pos, exec (.macInsert q b) s = .next t ∧ (∀ d < 4, mget (t.tbl.mac d) pos = some (insertedMac s b))
      ∧ t.rget (genReg 3) = b.gen.toNat ∧ Answered s t q 0x06 (tableAns 0x30 pos 0 b.gen.toNat []) ∧ OnlyTouches tableParts s t := by
  obtain ⟨pos, happly⟩ := insert_apply s.relayDrain b
  obtain ⟨t, ht, htbl, hans, hgen, honly⟩ := mac_ends (c := .macInsert q b) rfl rfl h (by decide) happly rfl rfl
  have hentry : insertedMac s.relayDrain b = insertedMac s b := by
    unfold insertedMac
    rw [fcNow_of ((relayDrain_only s).2 .clk (by decide))]
  refine ⟨t, pos, ht, fun d hd => ?_, hgen.trans (setGen_rget _ 0x30 b), hans, honly⟩
  rw [htbl, ← hentry]
  refine (congrArg (mget · pos) (eachMac_mac s.relayDrain _ d hd)).trans ?_
  exact mget_mput_same ..

/-- The key that a MAC delete names. -/
def namedMac (b : TblBlock) (e : MacEntry) : Bool := e.vid == (parseMac b.args).vid && e.mac.toNat == (parseMac b.args).mac

theorem namedMac_iff {e : MacEntry} : namedMac b e = true ↔ e.vid = (parseMac b.args).vid ∧ e.mac.toNat = (parseMac b.args).mac := by
  unfold namedMac
  rw [Bool.and_eq_true, beq_iff_eq, beq_iff_eq]

theorem macDelete_deletes (h : TableTaken s q 0x31 b) :
    ∃ t pos, exec (.macDelete q b) s = .next t
      ∧ (∀ d < 4, ∀ kv ∈ t.tbl.mac d, ¬(kv.2.vid = (parseMac b.args).vid ∧ kv.2.mac.toNat = (parseMac b.args).mac))
      ∧ (∀ d < 4, ∀ kv ∈ s.relayDrain.tbl.mac d, ¬(kv.2.vid = (parseMac b.args).vid ∧ kv.2.mac.toNat = (parseMac b.args).mac) → kv ∈ t.tbl.mac d)
      ∧ t.rget (genReg 3) = b.gen.toNat ∧ Answered s t q 0x06 (tableAns 0x31 pos 0 b.gen.toNat []) ∧ OnlyTouches tableParts s t := by
  let u := ((s.relayDrain.macRemove fun _ e => namedMac b e).1).setGen 0x31 b
  obtain ⟨t, ht, htbl, hans, hgen, honly⟩ := mac_ends (c := .macDelete q b) rfl rfl h (by decide) (u := u)
    (i := (macFind (s.relayDrain.tbl.mac 0) (parseMac b.args).vid (parseMac b.args).mac).elim noIndex Prod.fst) (fun _ => rfl) rfl rfl
  have hleft (d : Nat) (hd : d < 4) : t.tbl.mac d = (s.relayDrain.tbl.mac d).filter fun kv => !namedMac b kv.2 := by
    rw [htbl]
    exact eachMac_mac s.relayDrain _ d hd
  refine ⟨t, _, ht, fun d hd kv hkv => ?_, fun d hd kv hkv hne => ?_, hgen.trans (setGen_rget _ 0x31 b), hans, honly⟩
  · rw [hleft d hd, List.mem_filter, Bool.not_eq_true', ← Bool.not_eq_true, namedMac_iff] at hkv
    exact hkv.2
  · rw [hleft d hd, List.mem_filter, Bool.not_eq_true', ← Bool.not_eq_true, namedMac_iff]
    exact ⟨hkv, hne⟩

theorem macSearch_finds {pos : Nat} {e : MacEntry} (h : TableTaken s q 0x32 b)
    (hf : macFind (s.relayDrain.tbl.mac 0) (parseMac b.args).vid (parseMac b.args).mac = some (pos, e)) :
    ∃ t, exec (.search q b) s = .next t ∧ t.tbl = s.relayDrain.tbl
      ∧ Answered s t q 0x06 (tableAns 0x32 pos 0 e.gen (macBytes e (s.relayDrain.macHit (parseMac b.args).vid (parseMac b.args).mac)))
      ∧ OnlyTouches tableParts s t := by
  obtain ⟨t, ht, htbl, hans, -, honly⟩ := mac_ends (c := .search q b) rfl rfl h (by decide) (u := s.relayDrain) (i := pos) (d := 0)
    (data := macBytes e (s.relayDrain.macHit (parseMac b.args).vid (parseMac b.args).mac)) (gen := e.gen)
    (fun g => by
      show (match macFind (s.relayDrain.tbl.mac 0) (parseMac b.args).vid (parseMac b.args).mac with
        | some (pos, e) => _ | none => _) = _
      rw [hf]
      rfl) rfl rfl
  exact ⟨t, ht, htbl, hans, honly⟩

theorem macNext_finds {r : Map MacEntry × Nat} (h : TableTaken s q 0x33 b)
    (hr : r = macNextFrom (s.relayDrain.tbl.mac 0) b.index.toNat (fun e => (!bit b.flags.toNat 1 || e.vid == (parseMac b.args).vid)
      && (!bit b.flags.toNat 2 || (e.remote == (parseMac b.args).remote && e.dest.toNat == (parseMac b.args).dest)))) :
    ∃ t gen, exec (.macNext q b) s = .next t ∧ t.tbl = s.relayDrain.tbl
      ∧ Answered s t q 0x06 (tableAns 0x33 r.2 r.1.length gen (r.1.flatMap fun kv => macBytes kv.2 (s.relayDrain.macHit kv.2.vid kv.2.mac.toNat)))
      ∧ OnlyTouches tableParts s t := by
  obtain ⟨t, ht, htbl, hans, -, honly⟩ := mac_ends (c := .macNext q b) rfl rfl h (by decide) (u := (s.relayDrain.free 0x33).1)
    (i := r.2) (d := r.1.length) (gen := (s.relayDrain.free 0x33).2 % 2 ^ 32)
    (data := r.1.flatMap fun kv => macBytes kv.2 (s.relayDrain.macHit kv.2.vid kv.2.mac.toNat)) (fun g => by rw [hr]; rfl) rfl rfl
  exact ⟨t, _, ht, htbl, hans, honly⟩

theorem flushByPort_runs (h : TableTaken s q 0x34 b) :
    ∃ t, exec (.flushByPort q b) s = .next t
      ∧ t.tbl = { s.relayDrain.tbl with busy := some ⟨flightOf q 0x06 (TblBlock.body 0x34 b), 0x34, b, s.fcNow⟩ } ∧ t.out = s.out
      ∧ OnlyTouches tableParts s t := by
  have hmac : s.relayedFor 0x34 = s.relayDrain := relayedFor_mac (by decide)
  have hruns := table_runs (c := .flushByPort q b) rfl rfl h (fun _ => rfl) (by rw [hmac]; exact relayDrain_only s)
  rwa [hmac] at hruns

end

/-- Settles O51, one lemma for each form. -/
theorem macCommandsAct : Obligations.MacCommandsAct := fun _ _ _ =>
  ⟨macInsert_inserts, macDelete_deletes, fun _ _ => macSearch_finds, fun _ => macNext_finds, flushByPort_runs⟩

end Sys2Proof.Machine
end

/-! PROOFS. How shifts, sweeps, learns and rewrites of tables end (R108, R115, R124, R125, R128). -/

section
namespace Sys2Proof.Machine

section
variable {s : State} {j : TblJob}

/-! Jobs that end -/

/-- A table job that ends answers its request and leaves the tables as its operation left them. -/
theorem tableEnd_ends {u : State} {i d gen : Nat} {data : Bytes} (h : s.tableEnding j) (htbl : u.tbl.waiting = s.tbl.waiting)
    (hm : u.mgmt = s.mgmt) (ho : u.out = s.out) :
    (u.tableEnd j (.ok i d data gen)).tbl = { u.tbl with busy := none }
      ∧ Answered s (u.tableEnd j (.ok i d data gen)) j.fly.req j.fly.opcode (tableAns j.op i d gen data)
      ∧ ∀ n ≤ 4, (u.tableEnd j (.ok i d data gen)).rget (genReg n) = u.rget (genReg n) := by
  obtain ⟨-, hwait, hfly, hup⟩ := h
  obtain ⟨hend, hans, hget⟩ := tableEnd_spec s u j j.op i d gen data rfl (htbl.trans hwait) hm ho hfly hup
  exact ⟨hend, hans, fun n hn => hget _ (genReg_fresh n hn).1 (genReg_fresh n hn).2⟩

theorem lpmShiftDone_inserts {e : LpmEntry} (h : s.tableEnding j) (hop : j.op = 0x01) (he : parseLpm j.block.args = some e)
    (hdue : j.startFc + s.shiftCycles j ≤ s.fcNow) :
    ∃ t, exec .lpmShiftDone s = .next t
      ∧ t.tbl.lpm = s.tbl.lpm.take (lpmSlot s.tbl.lpm e) ++ { e with gen := j.block.gen.toNat } :: s.tbl.lpm.drop (lpmSlot s.tbl.lpm e)
      ∧ t.tbl.busy = none ∧ t.rget (genReg 0) = j.block.gen.toNat
      ∧ Answered s t j.fly.req j.fly.opcode (tableAns 0x01 (lpmSlot s.tbl.lpm e) (s.tbl.lpm.length - lpmSlot s.tbl.lpm e) j.block.gen.toNat [])
      ∧ OnlyTouches tableParts s t := by
  let l := s.tbl.lpm
  let u := (s.setTbl fun t => { t with lpm := l.take (lpmSlot l e) ++ { e with gen := j.block.gen.toNat } :: l.drop (lpmSlot l e) }).setGen j.op j.block
  have hexec : exec .lpmShiftDone s = done s (u.tableEnd j (.ok (lpmSlot l e) (l.length - lpmSlot l e) [] j.block.gen.toNat)) := by
    show done s (match s.tbl.busy with | some j => _ | none => _) = _
    rw [h.1]
    refine congrArg (done s) ((if_pos ⟨.inl hop, hdue⟩).trans ?_)
    unfold State.shiftDone
    rw [he]
    exact if_pos hop
  obtain ⟨t, ht, hend, honly⟩ := exec_ends hexec
  obtain ⟨htbl, hans, hgen⟩ := tableEnd_ends (u := u) (i := lpmSlot l e) (d := l.length - lpmSlot l e) (gen := j.block.gen.toNat) (data := [])
    h rfl rfl rfl
  refine ⟨t, ht, ?_, ?_, ?_, ?_, honly⟩
  · rw [hend.tbl, htbl]
    rfl
  · rw [hend.tbl, htbl]
  · have hset := setGen_rget (s.setTbl fun t => { t with lpm := l.take (lpmSlot l e) ++ { e with gen := j.block.gen.toNat } :: l.drop (lpmSlot l e) }) j.op j.block
    rw [show opTable j.op = 0 by rw [hop]; rfl] at hset
    exact (hend.rget _).trans ((hgen 0 (by decide)).trans hset)
  · rw [hop] at hans
    exact hend.answered hans

theorem lpmShiftDone_deletes {e : LpmEntry} {pos : Nat} (h : s.tableEnding j) (hop : j.op = 0x02) (he : parseLpm j.block.args = some e)
    (hdue : j.startFc + s.shiftCycles j ≤ s.fcNow) (hpos : s.tbl.lpm.findIdx? (fun x => x.sameKey e) = some pos) :
    ∃ t, exec .lpmShiftDone s = .next t ∧ t.tbl.lpm = s.tbl.lpm.eraseIdx pos ∧ t.tbl.busy = none ∧ t.rget (genReg 0) = j.block.gen.toNat
      ∧ Answered s t j.fly.req j.fly.opcode (tableAns 0x02 pos (s.tbl.lpm.length - (pos + 1)) j.block.gen.toNat [])
      ∧ OnlyTouches tableParts s t := by
  let l := s.tbl.lpm
  let u := (s.setTbl fun t => { t with lpm := l.eraseIdx pos }).setGen j.op j.block
  have hexec : exec .lpmShiftDone s = done s (u.tableEnd j (.ok pos (l.length - (pos + 1)) [] j.block.gen.toNat)) := by
    show done s (match s.tbl.busy with | some j => _ | none => _) = _
    rw [h.1]
    refine congrArg (done s) ((if_pos ⟨.inr hop, hdue⟩).trans ?_)
    unfold State.shiftDone
    rw [he]
    refine (if_neg (by rw [hop]; decide)).trans ?_
    rw [hpos]
    rfl
  obtain ⟨t, ht, hend, honly⟩ := exec_ends hexec
  obtain ⟨htbl, hans, hgen⟩ := tableEnd_ends (u := u) (i := pos) (d := l.length - (pos + 1)) (gen := j.block.gen.toNat) (data := []) h rfl rfl rfl
  refine ⟨t, ht, ?_, ?_, ?_, ?_, honly⟩
  · rw [hend.tbl, htbl]
    rfl
  · rw [hend.tbl, htbl]
  · have hset := setGen_rget (s.setTbl fun t => { t with lpm := l.eraseIdx pos }) j.op j.block
    rw [show opTable j.op = 0 by rw [hop]; rfl] at hset
    exact (hend.rget _).trans ((hgen 0 (by decide)).trans hset)
  · rw [hop] at hans
    exact hend.answered hans

/-- The entries that a flush takes (R128). -/
def flushed (j : TblJob) (pos : Nat) (e : MacEntry) : Bool :=
  e.remote == (parseMac j.block.args).remote && e.dest.toNat == (parseMac j.block.args).dest
    && (!e.fixed || bit j.block.flags.toNat 0) && (!bit j.block.flags.toNat 1 || e.vid == (parseMac j.block.args).vid)
    && decide (e.at_ ≤ j.startFc + pos / 4)

/-- An entry of the port that stood there before the flush stays only where the flush spares static entries or another VLAN. -/
theorem flushed_spares {pos : Nat} {e : MacEntry} (h : flushed j pos e = false)
    (hnamed : e.remote = (parseMac j.block.args).remote ∧ e.dest.toNat = (parseMac j.block.args).dest ∧ e.at_ ≤ j.startFc) :
    (e.fixed = true ∧ bit j.block.flags.toNat 0 = false) ∨ (bit j.block.flags.toNat 1 = true ∧ e.vid ≠ (parseMac j.block.args).vid) := by
  obtain ⟨hremote, hdest, hat⟩ := hnamed
  unfold flushed at h
  rw [beq_iff_eq.mpr hremote, beq_iff_eq.mpr hdest, decide_eq_true (show e.at_ ≤ j.startFc + pos / 4 by omega)] at h
  simp only [Bool.true_and, Bool.and_true, Bool.and_eq_false_iff, Bool.or_eq_false_iff, Bool.not_eq_false', beq_eq_false_iff_ne] at h
  exact h

theorem flushSweepDone_flushes (h : s.tableEnding j) (hop : j.op = 0x34) (hdue : j.startFc + 65552 ≤ s.fcNow) :
    ∃ t n, exec .flushSweepDone s = .next t ∧ t.tbl.busy = none ∧ t.rget (genReg 3) = j.block.gen.toNat
      ∧ (∀ d < 4, ∀ kv ∈ t.tbl.mac d, kv ∈ s.tbl.mac d ∧ ((kv.2.remote = (parseMac j.block.args).remote ∧ kv.2.dest.toNat = (parseMac j.block.args).dest ∧ kv.2.at_ ≤ j.startFc) →
          (kv.2.fixed = true ∧ bit j.block.flags.toNat 0 = false) ∨ (bit j.block.flags.toNat 1 = true ∧ kv.2.vid ≠ (parseMac j.block.args).vid)))
      ∧ Answered s t j.fly.req j.fly.opcode (tableAns 0x34 noIndex n j.block.gen.toNat [])
      ∧ OnlyTouches tableParts s t := by
  let u := (s.macRemove (flushed j)).1.setGen j.op j.block
  have hexec : exec .flushSweepDone s = done s (u.tableEnd j (.ok noIndex (s.macRemove (flushed j)).2 [] j.block.gen.toNat)) := by
    show done s (match s.tbl.busy with | some j => _ | none => _) = _
    rw [h.1]
    exact congrArg (done s) (if_pos ⟨hop, hdue⟩)
  obtain ⟨t, ht, hend, honly⟩ := exec_ends hexec
  obtain ⟨htbl, hans, hgen⟩ := tableEnd_ends (u := u) (i := noIndex) (d := (s.macRemove (flushed j)).2) (gen := j.block.gen.toNat) (data := [])
    h rfl rfl rfl
  refine ⟨t, (s.macRemove (flushed j)).2, ht, ?_, ?_, fun d hd kv hkv => ?_, ?_, honly⟩
  · rw [hend.tbl, htbl]
  · have hset := setGen_rget (s.macRemove (flushed j)).1 j.op j.block
    rw [show opTable j.op = 3 by rw [hop]; rfl] at hset
    exact (hend.rget _).trans ((hgen 3 (by decide)).trans hset)
  · have hmac : t.tbl.mac d = (s.tbl.mac d).filter fun kv => !flushed j kv.1 kv.2 := by
      rw [hend.tbl, htbl]
      exact eachMac_mac s (fun _ m => m.filter fun kv => !flushed j kv.1 kv.2) d hd
    rw [hmac, List.mem_filter, Bool.not_eq_true'] at hkv
    exact ⟨hkv.1, flushed_spares hkv.2⟩
  · rw [hop] at hans
    exact hend.answered hans

end

section
variable {s : State}

/-! Learns, ageing and rewrites -/

/-- The entry of a learn on one die. -/
def learnedMac (s : State) (l : Learn) (d : Nat) : MacEntry :=
  { vid := l.vid, mac := l.mac, fixed := false, remote := l.remote, dest := l.dest, hit := d == l.die, gen := s.macGen, at_ := s.fcNow }

/-- A learn put in place in every replica, and counted. -/
def learnPut (s : State) (l : Learn) (rest : List Learn) (pos : Nat) : State :=
  ((s.setTbl fun t => { t with relay := rest }).eachMac fun d m => macPlace m pos (learnedMac s l d)).bump (tblReg 0x1A0)

theorem learnPut_spec (s : State) (l : Learn) (rest : List Learn) (pos : Nat) :
    (learnPut s l rest pos).tbl.relay = rest ∧ (∀ d < 4, mget ((learnPut s l rest pos).tbl.mac d) pos = some (learnedMac s l d))
      ∧ (learnPut s l rest pos).rget (tblReg 0x1A0) = satAdd 64 (s.rget (tblReg 0x1A0)) 1 := by
  refine ⟨rfl, fun d hd => ?_, State.rget_bump ..⟩
  refine (congrArg (mget · pos) (eachMac_mac (s.setTbl fun t => { t with relay := rest }) _ d hd)).trans ?_
  exact mget_mput_same ..

/-- The relay puts a learn where its key stands, or where it is free; a learn that moves a key is counted too. -/
theorem relayApply_puts {l : Learn} {rest : List Learn} {pos : Nat} (hl : s.tbl.relay = l :: rest)
    (hpos : (∃ old, macFind (s.tbl.mac (s.macRef l.vid l.mac)) l.vid l.mac.toNat = some (pos, old) ∧ old.fixed = false)
      ∨ (macFind (s.tbl.mac (s.macRef l.vid l.mac)) l.vid l.mac.toNat = none ∧ macFree (s.tbl.mac (s.macRef l.vid l.mac)) l.vid l.mac.toNat = some pos)) :
    s.relayApply = learnPut s l rest pos ∨ s.relayApply = (learnPut s l rest pos).bump (tblReg 0x188) := by
  unfold State.relayApply
  rw [hl]
  dsimp only
  rcases hpos with ⟨old, hfind, hdyn⟩ | ⟨hfind, hfree⟩
  · rw [hfind]
    dsimp only
    rw [if_neg (by rw [hdyn]; decide)]
    split
    · exact .inl rfl
    · exact .inr rfl
  · rw [hfind, hfree]
    exact .inl rfl

theorem learnRelayApply_learns {l : Learn} {rest : List Learn} {pos : Nat} (hl : s.tbl.relay = l :: rest)
    (hpos : (∃ old, macFind (s.tbl.mac (s.macRef l.vid l.mac)) l.vid l.mac.toNat = some (pos, old) ∧ old.fixed = false)
      ∨ (macFind (s.tbl.mac (s.macRef l.vid l.mac)) l.vid l.mac.toNat = none ∧ macFree (s.tbl.mac (s.macRef l.vid l.mac)) l.vid l.mac.toNat = some pos)) :
    ∃ t, exec .learnRelayApply s = .next t ∧ t.tbl.relay = rest ∧ (∀ d < 4, mget (t.tbl.mac d) pos = some (learnedMac s l d))
      ∧ t.rget (tblReg 0x1A0) = satAdd 64 (s.rget (tblReg 0x1A0)) 1 ∧ OnlyTouches [.regs, .tbl] s t := by
  obtain ⟨t, ht, hend, honly⟩ := exec_ends (s := s) (c := .learnRelayApply) rfl
  obtain ⟨hrelay, hmac, hcount⟩ := learnPut_spec s l rest pos
  have hput : s.relayApply.tbl = (learnPut s l rest pos).tbl
      ∧ s.relayApply.rget (tblReg 0x1A0) = (learnPut s l rest pos).rget (tblReg 0x1A0) := by
    rcases relayApply_puts hl hpos with h | h <;> rw [h]
    · exact ⟨rfl, rfl⟩
    · exact ⟨rfl, State.rget_bump_ne _ _ _ _ (by decide)⟩
  rw [← hend.tbl, ← hend.rget] at hput
  exact ⟨t, ht, by rw [hput.1, hrelay], by rw [hput.1]; exact hmac, hput.2.trans hcount, honly⟩

/-- The MAC table without the dynamic entries that no die has hit (R125). -/
def agedOut (s : State) : State := (s.macRemove fun _ e => !e.fixed && !s.macHit e.vid e.mac.toNat).1

/-- The MAC table with its hit bits clear. -/
def hitsCleared (s : State) : State := s.eachMac fun _ m => m.map fun kv => (kv.1, { kv.2 with hit := false })

theorem agedOut_mac (s : State) {d : Nat} (hd : d < 4) :
    (agedOut s).tbl.mac d = (s.tbl.mac d).filter fun kv => kv.2.fixed || s.macHit kv.2.vid kv.2.mac.toNat := by
  refine (eachMac_mac s _ d hd).trans ?_
  simp only [Bool.not_and, Bool.not_not]

theorem hitsCleared_mac (s : State) {d : Nat} (hd : d < 4) :
    (hitsCleared s).tbl.mac d = (s.tbl.mac d).map fun kv => (kv.1, { kv.2 with hit := false }) :=
  eachMac_mac s _ d hd

theorem agedUp_set (s : State) (u : Nat) :
    (s.setTbl fun x => { x with agedUp := u }).tbl.agedUp = u ∧ ∀ d, (s.setTbl fun x => { x with agedUp := u }).tbl.mac d = s.tbl.mac d :=
  ⟨rfl, fun _ => rfl⟩

theorem macAgeSweep_ages (hon : s.rget (tblReg 0x114) ≠ 0) (hdue : s.tbl.agedUp + s.rget (tblReg 0x114) ≤ s.clk.up) :
    ∃ t, exec .macAgeSweep s = .next t ∧ t.tbl.agedUp = s.clk.up
      ∧ (∀ d < 4, t.tbl.mac d = ((s.tbl.mac d).filter fun kv => kv.2.fixed || s.macHit kv.2.vid kv.2.mac.toNat).map fun kv => (kv.1, { kv.2 with hit := false }))
      ∧ OnlyTouches [.tbl] s t := by
  have hexec : exec .macAgeSweep s = done s ((hitsCleared (agedOut s)).setTbl fun x => { x with agedUp := s.clk.up }) :=
    congrArg (done s) (if_pos ⟨hon, hdue⟩)
  obtain ⟨t, ht, hend, honly⟩ := exec_ends hexec
  obtain ⟨hup, hmac⟩ := agedUp_set (hitsCleared (agedOut s)) s.clk.up
  rw [← hend.tbl] at hup hmac
  exact ⟨t, ht, hup, fun d hd => by rw [hmac, hitsCleared_mac _ hd, agedOut_mac _ hd], honly⟩

/-- What does not stand in the list of bad entries of a state is not bad. -/
theorem clearTblError_tblBad (s : State) (d : Nat) (k : TblKind) (pos : Nat) : (s.clearTblError d k pos).tblBad d k pos = false := by
  show ((s.tbl.errors.filter (· != (d, k, pos))).contains (d, k, pos)) = false
  rw [← Bool.not_eq_true, List.contains_iff_mem, List.mem_filter]
  simp

/-- Clearing the errors of other entries makes none bad. -/
theorem clearTblError_keeps {s : State} {d : Nat} {k : TblKind} {pos : Nat} (e : Nat) (h : s.tblBad d k pos = false) :
    (s.clearTblError e k pos).tblBad d k pos = false := by
  show ((s.tbl.errors.filter (· != (e, k, pos))).contains (d, k, pos)) = false
  unfold State.tblBad at h
  rw [← Bool.not_eq_true, List.contains_iff_mem] at h ⊢
  exact fun hm => h (List.mem_filter.mp hm).1

theorem invalidateEntry_tblBad (s : State) (k k' : TblKind) (d pos pos' : Nat) :
    (s.invalidateEntry k pos).tblBad d k' pos' = s.tblBad d k' pos' := by
  cases k <;> rfl

/-- A die whose error is cleared among others', or that has none, has none afterwards. -/
theorem eachCleared_tblBad {k : TblKind} {pos d : Nat} (l : List Nat) (s : State) (h : d ∈ l ∨ s.tblBad d k pos = false) :
    (s.each l fun s e => s.clearTblError e k pos).tblBad d k pos = false := by
  induction l generalizing s with
  | nil => exact h.resolve_left List.not_mem_nil
  | cons e l ih =>
    refine ih (s.clearTblError e k pos) ?_
    rcases h with h | h
    · rcases List.mem_cons.mp h with rfl | h
      · exact .inr (clearTblError_tblBad s d k pos)
      · exact .inl h
    · exact .inr (clearTblError_keeps e h)

theorem setMac_errors (t : TableSt) (d : Nat) (f : Map MacEntry → Map MacEntry) : (t.setMac d f).errors = t.errors := by
  unfold TableSt.setMac
  split <;> rfl

theorem tblBad_of {s t : State} (h : t.tbl.errors = s.tbl.errors) (d : Nat) (k : TblKind) (pos : Nat) :
    t.tblBad d k pos = s.tblBad d k pos := by
  unfold State.tblBad
  rw [h]

/-- A rewritten entry is no longer bad on its die (R108). -/
theorem rewriteEntry_mends (s : State) {d : Nat} (hd : d < 4) (k : TblKind) (pos : Nat) :
    (s.rewriteEntry d k pos).tblBad d k pos = false := by
  unfold State.rewriteEntry
  split
  · exact (tblBad_of (setMac_errors ..) d k pos).trans (clearTblError_tblBad s d k pos)
  · split
    · refine (tblBad_of (s := (s.each (List.range 4) fun s e => s.clearTblError e k pos).invalidateEntry k pos)
        (by rw [State.record_tbl, State.bump_tbl]) d k pos).trans ((invalidateEntry_tblBad ..).trans ?_)
      exact eachCleared_tblBad _ s (.inl (List.mem_range.mpr hd))
    · exact clearTblError_tblBad s d k pos

theorem tableEntryRewrite_mends {die : DieNo} {kind : TblKind} {pos : Nat} (hbad : s.tblBad die.val kind pos = true) :
    ∃ t, exec (.tableEntryRewrite die kind pos) s = .next t ∧ t.tblBad die.val kind pos = false ∧ OnlyTouches [.regs, .tbl, .aer] s t := by
  obtain ⟨t, ht, hend, honly⟩ := exec_ends (s := s) (c := .tableEntryRewrite die kind pos) (congrArg (done s) (if_pos hbad))
  refine ⟨t, ht, ?_, honly⟩
  rw [tblBad_of (congrArg TableSt.errors hend.tbl)]
  exact rewriteEntry_mends s die.isLt kind pos

end

/-- Settles O52, one lemma for each form. -/
theorem tableEventsAct : Obligations.TableEventsAct := fun _ =>
  ⟨fun _ _ => lpmShiftDone_inserts, fun _ _ _ => lpmShiftDone_deletes, fun _ => flushSweepDone_flushes,
    fun _ _ _ => learnRelayApply_learns, macAgeSweep_ages, fun _ _ _ => tableEntryRewrite_mends⟩

end Sys2Proof.Machine
end

/-! PROOFS. What HBM errors, retraining, watchdogs and the Doldrums scan do, and how fatal causes, reference clocks and temperature
act (R281, R282, R285, R353, R363, R374, R375, R381 to R384, R399, R405). -/

section
namespace Sys2Proof.Machine

section
variable {s : State}

/-! HBM errors -/

theorem stackOf_mod (a : Nat) : stackOf (a % hbmSize) < 8 := stackOf_lt _ (Nat.mod_lt _ (by decide))

theorem noteCe_spec (s : State) (a : Nat) :
    (s.noteCe a).rget (hbmReg (stackOf a) 0x108) = satAdd 64 (s.rget (hbmReg (stackOf a) 0x108)) 1
      ∧ mget (s.noteCe a).sys.rowErrors (a / 1024) = some (mgetD s.sys.rowErrors (a / 1024) 0 + 1) := by
  have hrow (n : Nat) : mget ((s.bump (hbmReg (stackOf a) 0x108)).setSys fun y => { y with rowErrors := mput y.rowErrors (a / 1024) n }).sys.rowErrors
      (a / 1024) = some n := mget_mput_same ..
  unfold State.noteCe
  dsimp only
  split
  · refine ⟨(alarm_rget _ _ _ _ _ _ _ (by unfold hbmReg telReg; omega) (by unfold hbmReg; omega) (.inr (by unfold hbmReg; omega))).trans
      (State.rget_bump ..), ?_⟩
    rw [State.alarm_sys]
    exact hrow _
  · exact ⟨State.rget_bump .., hrow _⟩

theorem patrolScrub_notes {h : StackNo} {a : Nat} {f : ScrubFound} (hf : s.fatal = false) (hon : s.hbmOn = true)
    (hsplit : s.fget (glbReg 0x108) 15 0 ≠ 0) (hstack : stackOf (a % hbmSize) = h.val) :
    ∃ t, exec (.patrolScrub h a f) s = .next t ∧ OnlyTouches [.regs, .mgmt, .aer, .sys] s t ∧ t.hbm = s.hbm
      ∧ (f = .clean → OnlyTouches [] s t)
      ∧ ((∃ b, f = .corrected b) → t.rget (hbmReg h.val 0x108) = satAdd 64 (s.rget (hbmReg h.val 0x108)) 1
          ∧ mget t.sys.rowErrors (a % hbmSize / 1024) = some (mgetD s.sys.rowErrors (a % hbmSize / 1024) 0 + 1))
      ∧ (f = .uncorrectable → t.rget (hbmReg h.val 0x110) = satAdd 64 (s.rget (hbmReg h.val 0x110)) 1
          ∧ t.bget (hbmReg h.val 0x010) 16 = true ∧ a % hbmSize / 32 ∈ t.sys.badWords) := by
  obtain ⟨t, ht, hend, honly⟩ := exec_ends (s := s) (c := .patrolScrub h a f)
    (congrArg (done s) (if_pos ⟨hon, by rw [hf]; rfl, hsplit, hstack⟩))
  have honly : OnlyTouches [.regs, .mgmt, .aer, .sys] s t := honly
  refine ⟨t, ht, honly, honly.2 .hbm (by decide), ?_, ?_, ?_⟩
  · rintro rfl
    exact hend.only honly.1 (onlyTouches_of_blank rfl)
  · rintro ⟨b, rfl⟩
    obtain ⟨hcount, hrow⟩ := noteCe_spec s (a % hbmSize)
    rw [hstack] at hcount
    exact ⟨(hend.rget _).trans hcount, (congrArg (fun y : SysSt => mget y.rowErrors _) hend.sys).trans hrow⟩
  · rintro rfl
    obtain ⟨hcount, hattn, hword, -, -⟩ := noteUe_spec s (a % hbmSize) (stackOf_mod a)
    rw [hstack] at hcount hattn
    exact ⟨(hend.rget _).trans hcount, (hend.bget ..).trans hattn, (congrArg (_ ∈ SysSt.badWords ·) hend.sys).mpr hword⟩

theorem hbmUe_load {a : Nat} {u : CoreNo} (hf : s.fatal = false) (hon : s.hbmOn = true) (hregion : regionOf (a % hbmSize) = .state) :
    ∃ t, exec (.hbmUe a (.load u)) s = .next t ∧ a % hbmSize / 32 ∈ t.sys.badWords
      ∧ t.rget (hbmReg (stackOf (a % hbmSize)) 0x110) = satAdd 64 (s.rget (hbmReg (stackOf (a % hbmSize)) 0x110)) 1
      ∧ t.bget (hbmReg (stackOf (a % hbmSize)) 0x010) 16 = true ∧ OnlyTouches [.regs, .mgmt, .aer, .sys] s t := by
  have hexec : exec (.hbmUe a (.load u)) s = done s (s.noteUe (a % hbmSize)) :=
    congrArg (done s) (if_pos ⟨hon, by rw [hf]; rfl, by rw [hregion]; rfl⟩)
  obtain ⟨t, ht, hend, honly⟩ := exec_ends_only hexec (onlyTouches_of_blank (l := [.regs, .mgmt, .aer, .sys]) (noteUe_blank _ rfl rfl rfl rfl ..))
  obtain ⟨hcount, hattn, hword, -, -⟩ := noteUe_spec s (a % hbmSize) (stackOf_mod a)
  exact ⟨t, ht, (congrArg (_ ∈ SysSt.badWords ·) hend.sys).mpr hword, (hend.rget _).trans hcount, (hend.bget ..).trans hattn, honly⟩

/-! Retraining -/

theorem hbmRetrain_trains {h : StackNo} {k : Fin 32} (hf : s.fatal = false) (hon : s.hbmOn = true) :
    ∃ t, exec (.hbmRetrain h k true) s = .next t ∧ mget t.sys.trained (32 * h.val + k.val) = some s.clk.up ∧ OnlyTouches [.sys] s t := by
  have hexec : exec (.hbmRetrain h k true) s = done s (s.setSys fun y => { y with trained := mput y.trained (32 * h.val + k.val) s.clk.up }) :=
    congrArg (done s) ((if_pos ⟨hon, by rw [hf]; rfl⟩).trans (if_pos rfl))
  obtain ⟨t, ht, hend, honly⟩ := exec_ends_only hexec (onlyTouches_of_blank (l := [.sys]) (setSys_blank _ _ _ rfl))
  refine ⟨t, ht, (congrArg (fun y : SysSt => mget y.trained _) hend.sys).trans ?_, honly⟩
  exact mget_mput_same ..

/-- A failed retraining: the channel is marked, its register and alarm say which, and the stack answers nothing more (R285). -/
def chanLost (s : State) (h k : Nat) : State :=
  let t := s.setSys fun y => { y with chanFail := if y.chanFail.contains (32 * h + k) then y.chanFail else (32 * h + k) :: y.chanFail }
  let t := ((t.bset (hbmReg h 0x100) 1 true).fset (hbmReg h 0x100) 12 8 k).alarmPlain (hbmReg h 0) 25 k
  t.setMgmt fun m => { m with hung := if m.hung.contains (hbmReg h 0) then m.hung else m.hung ++ [hbmReg h 0] }

theorem chanLost_spec (s : State) {h k : Nat} (hk : k < 32) :
    (chanLost s h k).fget (hbmReg h 0x100) 12 8 = k ∧ (chanLost s h k).bget (hbmReg h 0x010) 25 = true
      ∧ (32 * h + k) ∈ (chanLost s h k).sys.chanFail ∧ (chanLost s h k).dump = s.dump := by
  let t := s.setSys fun y => { y with chanFail := if y.chanFail.contains (32 * h + k) then y.chanFail else (32 * h + k) :: y.chanFail }
  let u := (t.bset (hbmReg h 0x100) 1 true).fset (hbmReg h 0x100) 12 8 k
  have hfield : (u.alarmPlain (hbmReg h 0) 25 k).rget (hbmReg h 0x100) = u.rget (hbmReg h 0x100) :=
    alarm_rget _ _ _ _ _ _ _ (by unfold hbmReg telReg; omega) (by unfold hbmReg; omega) (.inr (by unfold hbmReg; omega))
  refine ⟨?_, ?_, ?_, ?_⟩
  · refine (State.fget_congr _ _ _ hfield).trans ?_
    rw [State.fget_fset_same _ _ _ _ _ (by decide)]
    exact Nat.mod_eq_of_lt hk
  · rw [show hbmReg h 0x010 = hbmReg h 0 + 0x010 by unfold hbmReg; omega]
    exact alarm_bit u (hbmReg h 0) 25 _ k [] (by decide) (by unfold hbmReg telReg; omega)
  · have hsys : (chanLost s h k).sys = t.sys := State.alarmPlain_sys ..
    rw [hsys]
    show _ ∈ (if s.sys.chanFail.contains (32 * h + k) then s.sys.chanFail else (32 * h + k) :: s.sys.chanFail)
    split
    · next hc => exact List.contains_iff_mem.mp hc
    · exact List.mem_cons_self ..
  · exact State.alarmPlain_dump ..

theorem hbmRetrain_fails {h : StackNo} {k : Fin 32} (hf : s.fatal = false) (hon : s.hbmOn = true) :
    ∃ t, exec (.hbmRetrain h k false) s = .next t ∧ t.fget (hbmReg h.val 0x100) 12 8 = k.val ∧ t.bget (hbmReg h.val 0x010) 25 = true
      ∧ (32 * h.val + k.val) ∈ t.sys.chanFail ∧ t.fatal = true ∧ t.dump.lastCause = 6
      ∧ OnlyTouches [.regs, .pho, .mgmt, .aer, .dump, .sys] s t := by
  have hexec : exec (.hbmRetrain h k false) s = done s ((chanLost s h.val k.val).raiseFatal 6) :=
    congrArg (done s) ((if_pos ⟨hon, by rw [hf]; rfl⟩).trans (if_neg Bool.false_ne_true))
  obtain ⟨t, ht, hend, honly⟩ := exec_ends hexec
  obtain ⟨hfield, hattn, hchan, hdump⟩ := chanLost_spec s (h := h.val) k.isLt
  obtain ⟨hregs, hfail, hfatal, hcause⟩ := raiseFatal_spec (chanLost s h.val k.val) 6 (by rw [hdump]; exact fatal_none hf)
  have hread (a : Nat) : t.rget a = (chanLost s h.val k.val).rget a := (hend.rget a).trans (State.rget_congr hregs a)
  refine ⟨t, ht, (State.fget_congr _ _ _ (hread _)).trans hfield, ?_, ?_, ?_, ?_, honly⟩
  · unfold State.bget
    rw [hread]
    exact hattn
  · rw [show t.sys.chanFail = _ from (congrArg SysSt.chanFail hend.sys).trans hfail]
    exact hchan
  · unfold State.fatal
    rw [hend.dump]
    exact hfatal
  · rw [hend.dump]
    exact hcause

/-! Spilled slots -/

/-- A spilled slot whose bytes are lost is gone (R282). -/
theorem loseSlot_none {desc : Nat} {x : Slot} (hx : s.slot desc = some x) (hspilled : x.spilled = true) (hphase : x.phase = .complete) :
    (s.loseSlot desc).slot desc = none := by
  have hcomplete : (x.spilled && x.phase == .complete) = true := by rw [hspilled, hphase]; rfl
  unfold State.loseSlot
  rw [hx]
  dsimp only
  rw [if_pos hcomplete]
  refine slot_none (noteAborts_gone _ _ _ _ _ fun y hy => ?_)
  rw [sendAborts_col] at hy
  have hy : y ∈ (State.record _ _ _ _ _ _).col.slots := hy
  rw [record_col] at hy
  simpa using (List.mem_filter.mp (show y ∈ s.col.slots.filter fun y => !(y.desc == desc) from hy)).2

theorem hbmUe_slot {a desc : Nat} {x : Slot} (hf : s.fatal = false) (hon : s.hbmOn = true) (hregion : regionOf (a % hbmSize) = .gatherOvf)
    (hx : s.slot desc = some x) (hspilled : x.spilled = true) (hphase : x.phase = .complete) :
    ∃ t, exec (.hbmUe a (.slot desc)) s = .next t ∧ t.slot desc = none ∧ OnlyTouches [.regs, .sw, .tbl, .mgmt, .col, .aer, .sys] s t := by
  have hexec : exec (.hbmUe a (.slot desc)) s = done s ((s.noteUe (a % hbmSize)).loseSlot desc) :=
    congrArg (done s) (if_pos ⟨hon, by rw [hf]; rfl, by rw [hregion]; rfl⟩)
  obtain ⟨t, ht, hend, honly⟩ := exec_ends_only hexec (onlyTouches_of_blank (l := [.regs, .sw, .tbl, .mgmt, .col, .aer, .sys])
    ((loseSlot_blank _ rfl rfl rfl rfl rfl rfl ..).trans (noteUe_blank _ rfl rfl rfl rfl ..)))
  obtain ⟨-, -, -, -, hcol⟩ := noteUe_spec s (a % hbmSize) (stackOf_mod a)
  refine ⟨t, ht, ?_, honly⟩
  rw [slot_of_slots (congrArg CollectSt.slots hend.col)]
  exact loseSlot_none ((slot_of_slots (congrArg CollectSt.slots hcol) desc).trans hx) hspilled hphase

/-! Control cores -/

/-- A control core whose watchdog expired: its state, its alarm and the moment stand (R353). -/
def coreNoted (s : State) (n : Nat) : State :=
  (((s.setCoreState n 2).bump (cdReg 0x218)).alarm (cdReg 0) (24 + n) 0x0101 n).setFlt fun f => { f with
    expiries := mput f.expiries n s.clk.up, stopped := if f.stopped.contains n then f.stopped else n :: f.stopped }

/-- Core 0 takes its own work with it. -/
def coreExpired (s : State) (n : Nat) : State := if n = 0 then (coreNoted s n).mc0Stops else coreNoted s n

/-- A second expiry within 25,000,000 ticks. -/
def expiredAgain (s : State) (n : Nat) : Bool :=
  match mget s.flt.expiries n with | some t => decide (s.clk.up - t ≤ 25000000) | none => false

theorem coreExpired_frame (s : State) (n : Nat) :
    (coreExpired s n).dump = s.dump ∧ n ∈ (coreExpired s n).flt.stopped ∧ mget (coreExpired s n).flt.expiries n = some s.clk.up := by
  have hnoted : (coreNoted s n).flt = { s.flt with
      expiries := mput s.flt.expiries n s.clk.up, stopped := if s.flt.stopped.contains n then s.flt.stopped else n :: s.flt.stopped } := by
    unfold coreNoted
    rw [State.setFlt_flt, State.alarm_flt]
    rfl
  have hdump : (coreNoted s n).dump = s.dump := State.alarm_dump ..
  have hstops := onlyTouches_of_blank (l := [.regs, .cal, .tbl, .mgmt, .col, .sys, .out]) (mc0Stops_blank _ rfl rfl rfl rfl rfl rfl rfl (coreNoted s n))
  have hflt : (coreExpired s n).flt = (coreNoted s n).flt := by
    unfold coreExpired
    split
    · exact hstops.2 .flt (by decide)
    · rfl
  refine ⟨?_, ?_, ?_⟩
  · unfold coreExpired
    split
    · exact (hstops.2 .dump (by decide)).trans hdump
    · exact hdump
  · rw [hflt, hnoted]
    dsimp only
    split
    · next hc => exact List.contains_iff_mem.mp hc
    · exact List.mem_cons_self ..
  · rw [hflt, hnoted]
    exact mget_mput_same ..

theorem coreNoted_regs (s : State) {n : Nat} (hn : n < 4) :
    (coreNoted s n).fget (cdReg 0x104) (2 * n + 1) (2 * n) = 2 ∧ (coreNoted s n).bget (cdReg 0x010) (24 + n) = true := by
  let u := (s.setCoreState n 2).bump (cdReg 0x218)
  constructor
  · have hfield : (coreNoted s n).rget (cdReg 0x104) = (s.setCoreState n 2).rget (cdReg 0x104) :=
      (alarm_rget u _ _ _ _ _ _ (by decide) (by decide) (by decide)).trans (State.rget_bump_ne _ _ _ _ (by decide))
    refine (State.fget_congr _ _ _ hfield).trans ?_
    unfold State.setCoreState
    rw [State.fget_fset_same _ _ _ _ _ (by omega), show 2 * n + 1 + 1 - 2 * n = 2 by omega]
    rfl
  · exact alarm_bit u (cdReg 0) (24 + n) 0x0101 n [] (by omega) (by decide)

theorem watchdogExpiry_stops {n : Fin 4} (hf : s.fatal = false) (hstage : s.atStage 1 = true) :
    ∃ t, exec (.watchdogExpiry n) s = .next t ∧ n.val ∈ t.flt.stopped ∧ mget t.flt.expiries n.val = some s.clk.up
      ∧ (∀ u, mget s.flt.expiries n.val = some u → s.clk.up - u ≤ 25000000 → t.fatal = true ∧ t.dump.lastCause = 2)
      ∧ (mget s.flt.expiries n.val = none → n.val ≠ 0 → t.fget (cdReg 0x104) (2 * n.val + 1) (2 * n.val) = 2
          ∧ t.bget (cdReg 0x010) (24 + n.val) = true ∧ t.fatal = false)
      ∧ OnlyTouches [.regs, .cal, .tbl, .pho, .mgmt, .col, .aer, .flt, .dump, .sys, .out] s t := by
  let u := coreExpired s n.val
  have hexec : exec (.watchdogExpiry n) s = done s (if expiredAgain s n.val then u.raiseFatal 2 else u) :=
    congrArg (done s) (if_pos ⟨hstage, by rw [hf]; rfl⟩)
  obtain ⟨t, ht, hend, honly⟩ := exec_ends hexec
  obtain ⟨hdump, hstopped, hexpiry⟩ := coreExpired_frame s n.val
  have hflt : t.flt = u.flt := by
    rw [hend.flt]
    split
    · exact (onlyTouches_of_blank (l := [.pho, .dump]) (raiseFatal_blank _ rfl rfl u 2)).2 .flt (by decide)
    · rfl
  refine ⟨t, ht, by rw [hflt]; exact hstopped, by rw [hflt]; exact hexpiry, fun at_ hat hrecent => ?_, fun hnone hn => ?_, honly⟩
  · have hagain : expiredAgain s n.val = true := by
      unfold expiredAgain
      rw [hat]
      exact decide_eq_true hrecent
    rw [if_pos hagain] at hend
    obtain ⟨-, -, hfatal, hcause⟩ := raiseFatal_spec u 2 (by rw [hdump]; exact fatal_none hf)
    unfold State.fatal at hfatal ⊢
    rw [hend.dump]
    exact ⟨hfatal, hcause⟩
  · have honce : ¬ expiredAgain s n.val = true := by
      unfold expiredAgain
      rw [hnone]
      exact Bool.false_ne_true
    have hu : u = coreNoted s n.val := if_neg hn
    rw [if_neg honce, hu] at hend
    obtain ⟨hfield, hattn⟩ := coreNoted_regs s n.isLt
    refine ⟨(hend.fget ..).trans hfield, (hend.bget ..).trans hattn, ?_⟩
    unfold State.fatal at hf ⊢
    rw [hend.dump, ← hu, hdump]
    exact hf

theorem coreRecovered_runs {n : Fin 4} (hf : s.fatal = false) (hstopped : n.val ∈ s.flt.stopped) :
    ∃ t, exec (.coreRecovered n) s = .next t ∧ n.val ∉ t.flt.stopped ∧ t.fget (cdReg 0x104) (2 * n.val + 1) (2 * n.val) = 0
      ∧ OnlyTouches [.regs, .flt] s t := by
  obtain ⟨t, ht, hend, honly⟩ := exec_ends (s := s) (c := .coreRecovered n)
    (congrArg (done s) (if_pos ⟨List.contains_iff_mem.mpr hstopped, by rw [hf]; rfl⟩))
  refine ⟨t, ht, ?_, ?_, honly⟩
  · rw [hend.flt]
    intro hm
    simpa using (List.mem_filter.mp (show n.val ∈ s.flt.stopped.filter (· != n.val) from hm)).2
  · refine (hend.fget ..).trans ?_
    show (s.fset _ _ _ 0).fget _ _ _ = 0
    rw [State.fget_fset_same _ _ _ _ _ (by omega), Nat.zero_mod]

/-! The Doldrums scan -/

theorem doldrumsScan_scans (hf : s.fatal = false) (hstage : s.atStage 1 = true) (hon : s.bget (cdReg 0x140) 31 = true)
    (htime : s.clk.up % 25 = 0) :
    ∃ t, exec .doldrumsScan s = .next t ∧ t.flt.nodes = s.scanNodes s.waitGraph ∧ OnlyTouches [.regs, .mgmt, .col, .aer, .flt, .dump] s t
      ∧ (s.scanNodes s.waitGraph = [] → OnlyTouches [.flt] s t) := by
  have hexec : exec .doldrumsScan s = done s s.doldrumsScan := congrArg (done s) (if_pos ⟨hstage, by rw [hf]; rfl, hon, htime⟩)
  obtain ⟨t, ht, hend, honly⟩ := exec_ends hexec
  refine ⟨t, ht, by rw [hend.flt]; exact scan_nodes s, honly, fun hnil => hend.only honly.1 ?_⟩
  obtain ⟨f, hscan⟩ := scan_still s hnil
  rw [hscan]
  exact onlyTouches_of_blank (setFlt_blank _ _ _ rfl)

end

/-- Settles O53, one lemma for each form. -/
theorem healthEventsAct : Obligations.HealthEventsAct := fun _ hf =>
  ⟨fun _ _ _ => patrolScrub_notes hf, fun _ _ => hbmUe_load hf, fun _ _ _ => hbmUe_slot hf, fun _ _ => hbmRetrain_trains hf,
    fun _ _ => hbmRetrain_fails hf, fun _ => watchdogExpiry_stops hf, fun _ => coreRecovered_runs hf, doldrumsScan_scans hf⟩

end Sys2Proof.Machine
end

/-! PROOFS. How fatal causes, reference clocks and temperature act (R374, R375, R381 to R384, R399, R405). -/

section
namespace Sys2Proof.Machine

section
variable {s : State}

/-- What the state of the chip says beyond the pins stands as the meaning left it. -/
theorem Ends.sysField {t u : State} {α : Type} (h : Ends t u) (F : SysSt → α) (hF : ∀ y : SysSt, F y.unpinned = F y) : F t.sys = F u.sys := by
  rw [← hF t.sys, h.sys, hF]

/-! Fatal causes -/

theorem fatalError_first {c : FatalCause} (hs : s.sys.serving = true) (hf : s.fatal = false) :
    ∃ t, exec (.fatalError c) s = .next t ∧ t.dump.fatal = some (c.ctorIdx + 1, s.clk.tick, s.ptpNow) ∧ t.dump.snaps = []
      ∧ (∀ m < 32, (t.els m).safeIdle = true) ∧ OnlyTouches [.pho, .dump] s t := by
  have hexec : exec (.fatalError c) s = done s (s.raiseFatal (c.ctorIdx + 1)) := congrArg (done s) (if_pos hs)
  obtain ⟨t, ht, hend, honly⟩ := exec_ends hexec
  have hdump := raiseFatal_dump s (c.ctorIdx + 1) (fatal_none hf)
  rw [← hend.dump] at hdump
  refine ⟨t, ht, by rw [hdump], by rw [hdump], fun m hm => ?_, honly⟩
  rw [hend.els]
  exact raiseFatal_els s _ (fatal_none hf) m hm

theorem fatalError_second {c : FatalCause} (hs : s.sys.serving = true) (hf : s.fatal = true) (hheld : s.dump.held = false) :
    ∃ t, exec (.fatalError c) s = .next t ∧ t.dump = { s.dump with second := (c.ctorIdx + 1) % 256 } ∧ OnlyTouches [.dump] s t := by
  have hexec : exec (.fatalError c) s = done s (s.setDump fun d => { d with second := (c.ctorIdx + 1) % 256 }) :=
    congrArg (done s) ((if_pos hs).trans (raiseFatal_again s _ hf hheld))
  obtain ⟨t, ht, hend, honly⟩ := exec_ends_only hexec (onlyTouches_of_blank (l := [.dump]) (setDump_blank _ _ _ rfl))
  exact ⟨t, ht, hend.dump, honly⟩

theorem Ends.fatal {t u : State} (h : Ends t u) : t.fatal = u.fatal := by
  unfold State.fatal
  rw [h.dump]

theorem supplyFault_judges {r : Rail} {us : Nat} (hs : s.sys.serving = true) (hf : s.fatal = false) :
    ∃ t, exec (.supplyFault r us) s = .next t ∧ t.fatal = decide (10 ≤ us) ∧ (10 ≤ us → t.dump.lastCause = 7)
      ∧ OnlyTouches [.pho, .dump] s t := by
  have hexec : exec (.supplyFault r us) s = done s (if s.sys.serving ∧ 10 ≤ us then s.raiseFatal 7 else s) := by
    cases r <;> rfl
  obtain ⟨t, ht, hend, honly⟩ := exec_ends hexec
  by_cases hlong : 10 ≤ us
  · rw [if_pos ⟨hs, hlong⟩] at hend
    obtain ⟨-, -, hfatal, hcause⟩ := raiseFatal_spec s 7 (fatal_none hf)
    exact ⟨t, ht, by rw [hend.fatal, hfatal, decide_eq_true hlong], fun _ => by rw [hend.dump, hcause], honly⟩
  · rw [if_neg fun h => hlong h.2] at hend
    exact ⟨t, ht, by rw [hend.fatal, hf, decide_eq_false hlong], fun h => absurd h hlong, honly⟩

theorem finishFatal_spec {silent hung : List Nat} (hf : s.fatal = true) :
    (s.finishFatal silent hung).dump.held = true ∧ (s.finishFatal silent hung).dump.fatal = s.dump.fatal
      ∧ (s.finishFatal silent hung).dump.fatalLen = (s.finishFatal silent hung).dump.lastGasp.length := by
  unfold State.finishFatal
  split
  · next hnone => exact absurd hf (by unfold State.fatal; rw [hnone]; decide)
  · next cause tick ptp hsome =>
    have hkept (l : List Nat) (g : Nat → Nat) (d : Nat → Bytes) (u : State) : (u.each l fun t x => t.hwrite (g x) (d x)).dump = u.dump :=
      each_keeps State.dump (fun t x => t.hwrite (g x) (d x)) (fun _ _ => rfl) l u
    refine ⟨rfl, ?_, rfl⟩
    show ((State.each _ _ _).setDump _).dump.fatal = _
    rw [State.setDump_dump, hkept]
    exact hsome ▸ rfl

theorem fatalDumpComplete_holds {silent : List Word} {hung : List DieNo} (hf : s.fatal = true) (hheld : s.dump.held = false) :
    ∃ t, exec (.fatalDumpComplete silent hung) s = .next t ∧ t.dump.held = true ∧ t.dump.fatal = s.dump.fatal
      ∧ t.dump.fatalLen = t.dump.lastGasp.length ∧ OnlyTouches [.hbm, .dump, .sys] s t := by
  obtain ⟨t, ht, hend, honly⟩ := exec_ends (s := s) (c := .fatalDumpComplete silent hung)
    (congrArg (done s) (if_pos ⟨hf, by rw [hheld]; rfl⟩))
  obtain ⟨h1, h2, h3⟩ := finishFatal_spec (silent := silent.map BitVec.toNat) (hung := hung.map Fin.val) hf
  rw [← hend.dump] at h1 h2 h3
  exact ⟨t, ht, h1, h2, h3, honly⟩

/-! Reference clocks -/

theorem refclkLoss_sysclk : ∃ t, exec (.refclkLoss .sysclk) s = .next t ∧ t.sys.sysclkLost = true
    ∧ (s.sys.serving = true → s.fatal = false → t.fatal = true ∧ t.dump.lastCause = 5) ∧ OnlyTouches [.pho, .dump, .sys] s t := by
  let u := s.setSys fun y => { y with sysclkLost := true }
  have hraise := onlyTouches_of_blank (l := [.pho, .dump]) (raiseFatal_blank _ rfl rfl u 5)
  have honly : OnlyTouches [.pho, .dump, .sys] s (if s.sys.serving then u.raiseFatal 5 else u) := by
    refine onlyTouches_of_blank ?_
    split
    · exact (raiseFatal_blank _ rfl rfl u 5).trans (setSys_blank _ _ _ rfl)
    · exact setSys_blank _ _ _ rfl
  obtain ⟨t, ht, hend, honly⟩ := exec_ends_only (c := .refclkLoss .sysclk) rfl honly
  have hsys : (if s.sys.serving then u.raiseFatal 5 else u).sys.unpinned = u.sys.unpinned := by
    split
    · exact hraise.2 .sys (by decide)
    · rfl
  refine ⟨t, ht, congrArg SysSt.sysclkLost (hend.sys.trans hsys), fun hs hf => ?_, honly⟩
  rw [if_pos hs] at hend
  obtain ⟨-, -, hfatal, hcause⟩ := raiseFatal_spec u 5 (fatal_none hf)
  exact ⟨hend.fatal.trans hfatal, by rw [hend.dump, hcause]⟩

theorem refclkLoss_aonclk : ∃ t, exec (.refclkLoss .aonclk) s = .next t ∧ t.sys.aonLost = true ∧ OnlyTouches [.sys] s t := by
  obtain ⟨t, ht, hend, honly⟩ := exec_ends_only (c := .refclkLoss .aonclk)
    (u := s.setSys fun y => { y with aonLost := true }) rfl (onlyTouches_of_blank (l := [.sys]) (setSys_blank _ _ _ rfl))
  exact ⟨t, ht, (hend.sysField SysSt.aonLost fun _ => rfl :), honly⟩

theorem refclkLoss_laneclk (d : DieNo) : ∃ t, exec (.refclkLoss (.laneclk d)) s = .next t ∧ d.val ∈ t.pho.laneclkLost
    ∧ OnlyTouches [.regs, .sw, .pho, .mgmt, .col, .aer, .flt, .out] s t := by
  obtain ⟨t, ht, hend, honly⟩ := exec_ends_only (c := .refclkLoss (.laneclk d)) (u := s.setLaneClk d true) rfl
    (onlyTouches_of_blank (setLaneClk_frame s d true))
  exact ⟨t, ht, by rw [hend.pho]; exact setLaneClk_in s d, honly⟩

/-- What a change of MCLK may touch. -/
theorem setMclk_only (s : State) (b : Bool) : OnlyTouches [.regs, .sw, .pho, .mgmt, .col, .aer, .flt, .out] s (s.setMclk b) :=
  onlyTouches_of_blank (setMclk_blank _ rfl rfl rfl rfl rfl rfl rfl rfl s b)

theorem refclkLoss_mclk : ∃ t, exec (.refclkLoss .mclk) s = .next t ∧ t.pho.mclkLost = true ∧ t.mgmt.up0 = false ∧ t.mgmt.up1 = false
    ∧ OnlyTouches [.regs, .sw, .pho, .mgmt, .col, .aer, .flt, .out] s t := by
  obtain ⟨t, ht, hend, honly⟩ := exec_ends_only (c := .refclkLoss .mclk) (u := s.setMclk true) rfl (setMclk_only s true)
  obtain ⟨hlost, hdown⟩ := setMclk_facts s true
  obtain ⟨h0, h1⟩ := hdown rfl
  exact ⟨t, ht, by rw [hend.pho, hlost], by rw [hend.mgmt, h0], by rw [hend.mgmt, h1], honly⟩

theorem refclkRelock_sysclk : ∃ t, exec (.refclkRelock .sysclk) s = .next t ∧ t.sys.sysclkLost = false ∧ OnlyTouches [.sys] s t := by
  obtain ⟨t, ht, hend, honly⟩ := exec_ends_only (c := .refclkRelock .sysclk)
    (u := s.setSys fun y => { y with sysclkLost := false }) rfl (onlyTouches_of_blank (l := [.sys]) (setSys_blank _ _ _ rfl))
  exact ⟨t, ht, (hend.sysField SysSt.sysclkLost fun _ => rfl :), honly⟩

theorem refclkRelock_aonclk : ∃ t, exec (.refclkRelock .aonclk) s = .next t ∧ t.sys.aonLost = false ∧ OnlyTouches [.sys] s t := by
  obtain ⟨t, ht, hend, honly⟩ := exec_ends_only (c := .refclkRelock .aonclk)
    (u := s.setSys fun y => { y with aonLost := false }) rfl (onlyTouches_of_blank (l := [.sys]) (setSys_blank _ _ _ rfl))
  exact ⟨t, ht, (hend.sysField SysSt.aonLost fun _ => rfl :), honly⟩

theorem refclkRelock_laneclk (d : DieNo) : ∃ t, exec (.refclkRelock (.laneclk d)) s = .next t ∧ d.val ∉ t.pho.laneclkLost
    ∧ OnlyTouches [.regs, .sw, .pho, .mgmt, .col, .aer, .flt, .out] s t := by
  obtain ⟨t, ht, hend, honly⟩ := exec_ends_only (c := .refclkRelock (.laneclk d)) (u := s.setLaneClk d false) rfl
    (onlyTouches_of_blank (setLaneClk_frame s d false))
  exact ⟨t, ht, by rw [hend.pho]; exact setLaneClk_off s d, honly⟩

theorem refclkRelock_mclk : ∃ t, exec (.refclkRelock .mclk) s = .next t ∧ t.pho.mclkLost = false
    ∧ OnlyTouches [.regs, .sw, .pho, .mgmt, .col, .aer, .flt, .out] s t := by
  obtain ⟨t, ht, hend, honly⟩ := exec_ends_only (c := .refclkRelock .mclk) (u := s.setMclk false) rfl (setMclk_only s false)
  exact ⟨t, ht, by rw [hend.pho]; exact (setMclk_facts s false).1, honly⟩

/-! Temperature -/

/-- A hot die is warned once, and a cool one no more (R381). -/
theorem tjWarn_warns (s : State) (d sensor : Nat) (temp : Int) :
    (1050 ≤ temp → d ∉ s.sys.warned → d ∈ (s.tjWarn d sensor temp).sys.warned ∧ (s.tjWarn d sensor temp).bget (fdReg d 0x010) 16 = true)
      ∧ (temp < 1030 → d ∉ (s.tjWarn d sensor temp).sys.warned) := by
  let u := if 1000 < temp then s.setSys fun y => { y with hotUp := s.clk.up } else s
  have hu : u.sys.warned = s.sys.warned := by
    show (if 1000 < temp then _ else _ : State).sys.warned = _
    split <;> rfl
  refine ⟨fun hot hnew => ?_, fun hcool => ?_⟩
  · have hwarn : s.tjWarn d sensor temp = (u.setSys fun y => { y with warned := d :: y.warned }).alarm (fdReg d 0) 16 0x0201 sensor
        [condLink 0x0203 (wrap 32 temp)] :=
      (if_neg (by omega)).trans (if_pos ⟨hot, by rw [hu]; simpa using hnew⟩)
    rw [hwarn]
    refine ⟨?_, ?_⟩
    · rw [State.alarm_sys]
      exact List.mem_cons_self ..
    · rw [show fdReg d 0x010 = fdReg d 0 + 0x010 by unfold fdReg; omega]
      exact alarm_bit _ _ _ _ _ _ (by decide) (by unfold fdReg telReg; omega)
  · have hcooled : s.tjWarn d sensor temp = u.setSys fun y => { y with warned := y.warned.filter (· != d) } := if_pos hcool
    rw [hcooled]
    intro hm
    simpa using (List.mem_filter.mp (show d ∈ u.sys.warned.filter (· != d) from hm)).2

theorem tjWarn_acts {d : DieNo} {i : Fin 64} {temp : Int} (hs : s.sys.serving = true) (hf : s.fatal = false) :
    ∃ t, exec (.tjWarn d i temp) s = .next t ∧ OnlyTouches [.regs, .mgmt, .aer, .sys] s t
      ∧ (1050 ≤ temp → d.val ∉ s.sys.warned → d.val ∈ t.sys.warned ∧ t.bget (fdReg d.val 0x010) 16 = true)
      ∧ (temp < 1030 → d.val ∉ t.sys.warned) := by
  obtain ⟨t, ht, hend, honly⟩ := exec_ends (s := s) (c := .tjWarn d i temp) (congrArg (done s) (if_pos ⟨hs, by rw [hf]; rfl⟩))
  obtain ⟨hhot, hcool⟩ := tjWarn_warns s d.val i.val temp
  have hwarned : t.sys.warned = (s.tjWarn d.val i.val temp).sys.warned := hend.sysField SysSt.warned fun _ => rfl
  rw [← hwarned, ← hend.bget] at hhot
  rw [← hwarned] at hcool
  exact ⟨t, ht, honly, hhot, hcool⟩

/-- Aborts at a trip leave the stage and what is noted of the trip. -/
theorem tripAborts_sys (s : State) : s.tripAborts.sys.unpinned = s.sys.unpinned :=
  (onlyTouches_of_blank (l := [.regs, .sw, .tbl, .mgmt, .col, .aer]) (tripAborts_blank _ rfl rfl rfl rfl rfl rfl s)).2 .sys (by decide)

theorem suspendAll_sys (s : State) : s.suspendAll.sys.unpinned = s.sys.unpinned :=
  (onlyTouches_of_blank (l := [.cal]) (suspendAll_blank _ rfl s)).2 .sys (by decide)

theorem resumeAll_sys (s : State) : s.resumeAll.sys.unpinned = s.sys.unpinned :=
  (onlyTouches_of_blank (l := [.cal]) (resumeAll_blank _ rfl s)).2 .sys (by decide)

/-- Entering a stage changes nothing else that the state of the chip says. -/
theorem enterStage_keeps {α : Type} (s : State) (n : Nat) (F : SysSt → α) (hF : ∀ y : SysSt, F y.unpinned = F y)
    (hstage : ∀ (y : SysSt) (n : Nat), F { y with stage := n } = F y) : F (s.enterStage n).sys = F s.sys := by
  rw [← hF, enterStage_sys, hF, hstage]

theorem enterStage_stage (s : State) (n : Nat) : (s.enterStage n).sys.stage = n := stage_of (enterStage_sys s n)

theorem Ends.tempAlertN {t u : State} (h : Ends t u) (hu : u.sys.tripped = true) : t.sys.tempAlertN = false := by
  obtain ⟨cs, rfl⟩ := h
  show (!(u.tjWarned 0 || u.tjWarned 1 || u.tjWarned 2 || u.tjWarned 3 || u.sys.tripped)) = false
  rw [hu, Bool.or_true]
  rfl

/-- What a trip notes (R382). -/
def tripNoted (s : State) (d sensor : Nat) (second : Int) : State :=
  (s.alarm (fdReg d 0) 24 0x0202 sensor [condLink 0x0203 (wrap 32 second)]).setSys fun y =>
    { y with tripped := true, tripFrom := s.sys.stage, hotUp := s.clk.up }

/-- A trip goes back to Stage B. -/
def tripStaged (s : State) (d sensor : Nat) (second : Int) : State :=
  if s.sys.stage = 1 then tripNoted s d sensor second else (tripNoted s d sensor second).enterStage 1

theorem tripStaged_sys (s : State) (d sensor : Nat) (second : Int) :
    (tripStaged s d sensor second).sys.tripped = true ∧ (tripStaged s d sensor second).sys.tripFrom = s.sys.stage
      ∧ (tripStaged s d sensor second).sys.stage = 1 := by
  have hstage : (tripNoted s d sensor second).sys.stage = s.sys.stage := by
    show (State.alarm s _ _ _ _ _).sys.stage = _
    rw [State.alarm_sys]
  unfold tripStaged
  split
  · next h => exact ⟨rfl, rfl, hstage.trans h⟩
  · exact ⟨enterStage_keeps _ 1 SysSt.tripped (fun _ => rfl) fun _ _ => rfl,
      enterStage_keeps _ 1 SysSt.tripFrom (fun _ => rfl) fun _ _ => rfl, enterStage_stage ..⟩

theorem tjTrip_trips {d : DieNo} {i : Fin 64} {a b : Int} (hstage : s.atStage 1 = true) (hf : s.fatal = false)
    (hnew : s.sys.tripped = false) (ha : 1100 ≤ a) (hb : 1100 ≤ b) :
    ∃ t, exec (.tjTrip d i a b) s = .next t ∧ t.sys.tripped = true ∧ t.sys.tripFrom = s.sys.stage ∧ t.sys.stage = 1
      ∧ t.sys.tempAlertN = false ∧ (∀ p < 1024, (t.pcal p).suspended = true)
      ∧ OnlyTouches [.regs, .cal, .sw, .tbl, .mgmt, .col, .aer, .sys] s t := by
  have hexec : exec (.tjTrip d i a b) s = done s (tripStaged s d.val i.val b).tripAborts.suspendAll := by
    have hcond : s.atStage 1 = true ∧ (!s.fatal) = true ∧ (!s.sys.tripped) = true ∧ 1100 ≤ a ∧ 1100 ≤ b :=
      ⟨hstage, by rw [hf]; rfl, by rw [hnew]; rfl, ha, hb⟩
    show execTjTrip d i a b s = _
    unfold execTjTrip
    dsimp only
    rw [if_pos hcond]
    rfl
  obtain ⟨t, ht, hend, honly⟩ := exec_ends hexec
  obtain ⟨htripped, hfrom, hnow⟩ := tripStaged_sys s d.val i.val b
  have hsys {α : Type} (F : SysSt → α) (hF : ∀ y : SysSt, F y.unpinned = F y) :
      F (tripStaged s d.val i.val b).tripAborts.suspendAll.sys = F (tripStaged s d.val i.val b).sys := by
    rw [← hF, suspendAll_sys, tripAborts_sys, hF]
  have hread {α : Type} (F : SysSt → α) (hF : ∀ y : SysSt, F y.unpinned = F y) : F t.sys = F (tripStaged s d.val i.val b).sys :=
    (hend.sysField F hF).trans (hsys F hF)
  refine ⟨t, ht, (hread SysSt.tripped fun _ => rfl).trans htripped, (hread SysSt.tripFrom fun _ => rfl).trans hfrom,
    (hread SysSt.stage fun _ => rfl).trans hnow, hend.tempAlertN ((hsys SysSt.tripped fun _ => rfl).trans htripped), fun p hp => ?_, honly⟩
  unfold State.pcal
  rw [hend.cal]
  exact suspendAll_pcal _ p hp

/-- The chip climbs back to the stage that a trip left (R384). -/
def climbed (s : State) (n : Nat) : State :=
  let t := if 2 ≤ n then s.enterStage 2 else s
  if 3 ≤ n then t.enterStage 3 else t

theorem climbed_keeps {α : Type} (s : State) (n : Nat) (F : SysSt → α) (hF : ∀ y : SysSt, F y.unpinned = F y)
    (hstage : ∀ (y : SysSt) (n : Nat), F { y with stage := n } = F y) : F (climbed s n).sys = F s.sys := by
  unfold climbed
  dsimp only
  split
  · rw [enterStage_keeps _ _ F hF hstage]
    split
    · exact enterStage_keeps _ _ F hF hstage
    · rfl
  · split
    · exact enterStage_keeps _ _ F hF hstage
    · rfl

theorem climbed_stage (s : State) {n : Nat} (h : n = 2 ∨ n = 3) : (climbed s n).sys.stage = n := by
  rcases h with rfl | rfl
  · exact enterStage_stage ..
  · exact enterStage_stage ..

theorem tjRecover_recovers {hot : Int} (htrip : s.sys.tripped = true) (hf : s.fatal = false) (hcool : hot ≤ 1000)
    (hlong : s.sys.hotUp + 2500000 ≤ s.clk.up) (hal : s.clk.aligned = true) :
    ∃ t, exec (.tjRecover hot) s = .next t ∧ t.sys.tripped = false ∧ t.sys.warned = []
      ∧ (s.sys.tripFrom = 2 ∨ s.sys.tripFrom = 3 → t.sys.stage = s.sys.tripFrom) ∧ OnlyTouches [.regs, .cal, .mgmt, .aer, .sys] s t := by
  let u := s.setSys fun y => { y with tripped := false, warned := [] }
  have hexec : exec (.tjRecover hot) s = done s (climbed u s.sys.tripFrom).resumeAll := by
    have hcond : s.sys.tripped = true ∧ (!s.fatal) = true ∧ hot ≤ 1000 ∧ s.sys.hotUp + 2500000 ≤ s.clk.up
        ∧ (s.clk.aligned = true ∨ s.sys.tripFrom = 1) := ⟨htrip, by rw [hf]; rfl, hcool, hlong, .inl hal⟩
    show execTjRecover hot s = _
    unfold execTjRecover
    dsimp only
    rw [if_pos hcond, if_pos hal]
    rfl
  obtain ⟨t, ht, hend, honly⟩ := exec_ends hexec
  have hread {α : Type} (F : SysSt → α) (hF : ∀ y : SysSt, F y.unpinned = F y) : F t.sys = F (climbed u s.sys.tripFrom).sys :=
    (hend.sysField F hF).trans (by rw [← hF, resumeAll_sys, hF])
  refine ⟨t, ht, (hread SysSt.tripped fun _ => rfl).trans (climbed_keeps u _ SysSt.tripped (fun _ => rfl) fun _ _ => rfl),
    (hread SysSt.warned fun _ => rfl).trans (climbed_keeps u _ SysSt.warned (fun _ => rfl) fun _ _ => rfl), fun hfrom => ?_, honly⟩
  exact (hread SysSt.stage fun _ => rfl).trans (climbed_stage u hfrom)

theorem thermalShutdown_shuts {d : DieNo} {i : Fin 64} {temp : Int} (hot : 1200 ≤ temp) :
    ∃ t, exec (.thermalShutdown d i temp) s = .next t ∧ t.pending = s.pending ∧ t.sys.thermalLatch = true ∧ t.sys.pgOut = false
      ∧ t.sys.lastReset = 3 ∧ t.sys.serving = false ∧ t.regs = State.reset.regs ∧ t.fuse = { s.fuse with repairs := [] } := by
  have hexec : exec (.thermalShutdown d i temp) s = done s (s.coldReset s.sys.straps 3 true) := congrArg (done s) (if_pos hot)
  exact ⟨_, hexec, rfl, rfl, rfl, rfl, rfl, rfl, rfl⟩

end

/-- Settles O54, one lemma for each form. -/
theorem fatalAndHeatAct : Obligations.FatalAndHeatAct := fun _ =>
  ⟨fun _ => fatalError_first, fun _ => fatalError_second, fun _ _ => supplyFault_judges, fun _ _ => fatalDumpComplete_holds,
    refclkLoss_sysclk, refclkLoss_aonclk, refclkLoss_laneclk, refclkLoss_mclk, refclkRelock_sysclk, refclkRelock_aonclk,
    refclkRelock_laneclk, refclkRelock_mclk, fun _ _ _ => tjWarn_acts, fun _ _ _ _ => tjTrip_trips, fun _ => tjRecover_recovers,
    fun _ _ _ => thermalShutdown_shuts⟩

end Sys2Proof.Machine
end

/-! PROOFS. How samples, snapshots, bandwidth windows and alarm records act (R140, R141, R366, R391, R394). -/

section
namespace Sys2Proof.Machine

section
variable {s : State}

/-! Samples of the queues -/

theorem sample_lastSample : (State.sample s).sys.lastSample = s.clk.up := rfl

theorem sample_queue {p vc : Nat} (hl : s.leads p = true) (hvc : vc < 4) : SampledAs p vc (s.egressSample p vc) (State.sample s) := by
  obtain ⟨ps, hps, heq⟩ := sample_eq s
  have hp := leads_lt hl
  have hlt : ∀ q ∈ ps, q < 1024 := fun q hq => List.mem_range.mp (List.mem_filter.mp (hps ▸ hq)).1
  have hmem : p ∈ ps := hps ▸ List.mem_filter.mpr ⟨List.mem_range.mpr hp, hl⟩
  obtain ⟨hocc, hlat⟩ := samplePorts_sets s ps hlt p vc hmem hvc s ⟨rfl, rfl⟩
  have htraced (o : Nat) (ho : o < 4096) (u : State) : (u.each [0, 1, 2, 3] State.traceDie).rget (portReg p o) = u.rget (portReg p o) :=
    each_keeps_mem (fun v : State => v.rget (portReg p o)) _ _
      (fun v d hd => traceDie_rget v d p o (by simp only [List.mem_cons, List.not_mem_nil, or_false] at hd; omega) hp ho) u
  rw [heq]
  exact ⟨(htraced _ (by omega) _).trans hocc, (htraced _ (by omega) _).trans hlat⟩

theorem windsockSample_samples (hst : s.atStage 1 = true) (hf : s.fatal = false)
    (hdue : s.sys.lastSample + s.fget (telReg 0x100) 16 0 ≤ s.clk.up) :
    ∃ t, exec .windsockSample s = .next t ∧ t.sys.lastSample = s.clk.up
      ∧ (∀ p vc, s.leads p = true → vc < 4 → t.rget (portReg p (0x160 + 4 * vc)) = (s.egressSample p vc).1 % 2 ^ 64
          ∧ t.rget (portReg p (0x170 + 4 * vc)) = min (s.egressSample p vc).2 0xFFFFFFFF)
      ∧ OnlyTouches [.regs, .hbm, .sys] s t := by
  obtain ⟨t, ht, hend, honly⟩ := exec_ends (s := s) (c := .windsockSample)
    (congrArg (done s) (if_pos ⟨hst, by rw [hf]; rfl, hdue⟩))
  refine ⟨t, ht, (hend.sysField SysSt.lastSample fun _ => rfl).trans sample_lastSample, fun p vc hl hvc => ?_, honly⟩
  rw [hend.rget, hend.rget]
  exact sample_queue hl hvc

/-! Snapshots -/

theorem finishSnap_dump {x : Snapshot} {rest : List Snapshot} (h : s.dump.snaps = x :: rest) :
    s.finishSnap.dump = { s.dump with snaps := rest } := by
  have hreset (c : Nat) (u : State) : (if (u.ctx c).state == .idle then u else u.askReset c none).dump = u.dump := by
    split
    · rfl
    · exact (onlyTouches_of_blank (l := [.col]) (askReset_blank _ rfl u c none)).2 .dump (by decide)
  have hwritten : (s.writeSnaps x).dump = s.dump :=
    (onlyTouches_of_blank (l := [.regs, .hbm, .sys]) (writeSnaps_blank _ rfl rfl rfl s x)).2 .dump (by decide)
  unfold State.finishSnap
  rw [h]
  dsimp only
  rw [each_keeps State.dump _ (fun u c => hreset c u), State.setDump_dump, hwritten]

theorem snapshotComplete_leaves {x : Snapshot} {rest : List Snapshot} (hf : s.fatal = false) (h : s.dump.snaps = x :: rest) :
    ∃ t, exec .snapshotComplete s = .next t ∧ t.dump = { s.dump with snaps := rest }
      ∧ OnlyTouches [.regs, .hbm, .col, .dump, .sys] s t := by
  obtain ⟨t, ht, hend, honly⟩ := exec_ends (s := s) (c := .snapshotComplete) (congrArg (done s) (if_neg (by rw [hf]; decide)))
  exact ⟨t, ht, hend.dump.trans (finishSnap_dump h), honly⟩

/-! Bandwidth windows -/

/-- Closing a window counts it, raises its alarm, clears what was counted, and latches what each port counted. -/
theorem closeWindow_spec :
    s.closeWindow.rget (telReg 0x220) = (s.rget (telReg 0x220) + 1) % 2 ^ 32 ∧ s.closeWindow.sys.bw = []
      ∧ s.closeWindow.bget (telReg 0x010) 0 = true
      ∧ s.closeWindow.sys.bwFrom = (if s.bget (telReg 0x200) 1 then some s.clk.up else none)
      ∧ ∀ p, s.leads p = true → LatchedAs s p s.closeWindow := by
  obtain ⟨ps, hps, heq⟩ := closeWindow_eq s
  have hlt : ∀ q ∈ ps, q < 1024 := fun q hq => List.mem_range.mp (hps ▸ hq)
  have hclk := each_keeps State.clk (fun u p => u.latchPort ((s.rget (telReg 0x220) + 1) % 2 ^ 32) p)
    (fun u p => by unfold State.latchPort; split <;> rfl) ps s
  have hrepeat : (s.each ps fun u p => u.latchPort ((s.rget (telReg 0x220) + 1) % 2 ^ 32) p).bget (telReg 0x200) 1
      = s.bget (telReg 0x200) 1 := by
    unfold State.bget
    rw [latchPorts_rget s _ ps hlt _ (by decide)]
  obtain ⟨hseq, hbw, hbit, hfrom, hports⟩ := closeRest_spec
    (s.each ps fun u p => u.latchPort ((s.rget (telReg 0x220) + 1) % 2 ^ 32) p) ((s.rget (telReg 0x220) + 1) % 2 ^ 32) (by omega)
  rw [hrepeat, hclk] at hfrom
  rw [heq]
  refine ⟨hseq, hbw, hbit, hfrom, fun p hl => ?_⟩
  have hp := leads_lt hl
  obtain ⟨hrx, htx⟩ := latchPorts_sets s ((s.rget (telReg 0x220) + 1) % 2 ^ 32) ps hlt p (hps ▸ List.mem_range.mpr hp) hl s
    ⟨rfl, fun _ _ => rfl⟩
  exact ⟨(hports p _ hp (by decide)).trans hrx, (hports p _ hp (by decide)).trans htx⟩

theorem bwWindowEnd_closes {b : Nat} (hfrom : s.sys.bwFrom = some b) (hrun : s.fget (telReg 0x210) 1 0 = 2)
    (hdue : b + s.fget (telReg 0x204) 16 0 ≤ s.clk.up) :
    ∃ t, exec .bwWindowEnd s = .next t ∧ t.rget (telReg 0x220) = (s.rget (telReg 0x220) + 1) % 2 ^ 32 ∧ t.sys.bw = []
      ∧ t.bget (telReg 0x010) 0 = true ∧ t.sys.bwFrom = (if s.bget (telReg 0x200) 1 then some s.clk.up else none)
      ∧ (∀ p, s.leads p = true → t.rget (portReg p 0x328) = (mgetD s.sys.bw p {}).rx % 2 ^ 64
          ∧ t.rget (portReg p 0x330) = (mgetD s.sys.bw p {}).tx % 2 ^ 64)
      ∧ OnlyTouches [.regs, .mgmt, .aer, .sys] s t := by
  have hexec : exec .bwWindowEnd s = done s s.closeWindow := by
    show execBwWindowEnd s = _
    unfold execBwWindowEnd
    rw [hfrom]
    exact congrArg (done s) (if_pos ⟨hrun, hdue⟩)
  obtain ⟨hseq, hbw, hbit, hnext, hports⟩ := closeWindow_spec (s := s)
  obtain ⟨t, ht, hend, honly⟩ := exec_ends hexec
  refine ⟨t, ht, (hend.rget _).trans hseq, (hend.sysField SysSt.bw fun _ => rfl).trans hbw, (hend.bget _ _).trans hbit,
    (hend.sysField SysSt.bwFrom fun _ => rfl).trans hnext, fun p hl => ?_, honly⟩
  rw [hend.rget, hend.rget]
  exact hports p hl

/-! Alarm records -/

theorem writeRec_eq {r : AerRec} {rest : List AerRec} (h : s.aer.queue = r :: rest) : s.writeRec =
    (s.setAer fun a => { a with queue := rest, seq := (s.aer.seq + 1) % 2 ^ 32, gap := false }).storeRec s.aer.seq
      (r.bytes s.aer.seq s.aer.gap) := by
  unfold State.writeRec
  rw [h]

/-- A record goes to its die's ring in HBM where that die takes it. -/
theorem storeRec_writes {u : State} {n : Nat} {b : Bytes} (hon : u.hbmOn = true) (hup : u.dieHung (n % 4) = false) :
    (u.storeRec n b).hbm = (u.hwrite (aerAddr n) b).hbm := by
  unfold State.storeRec
  rw [if_neg (by rw [hon]; decide), if_neg (by rw [hup]; decide)]
  rfl

theorem aerWrite_stores {r : AerRec} {rest : List AerRec} (h : s.aer.queue = r :: rest) :
    ∃ t, exec .aerWrite s = .next t ∧ t.aer.queue = rest ∧ t.aer.seq = (s.aer.seq + 1) % 2 ^ 32 ∧ t.aer.gap = false
      ∧ (s.hbmOn = true → s.dieHung (s.aer.seq % 4) = false →
          t.hbm = (s.hwrite (aerAddr s.aer.seq) (r.bytes s.aer.seq s.aer.gap)).hbm)
      ∧ OnlyTouches [.regs, .hbm, .aer] s t := by
  obtain ⟨t, ht, hend, honly⟩ := exec_ends (s := s) (c := .aerWrite) (congrArg (done s) (writeRec_eq h))
  obtain ⟨hqueue, hseq, hgap⟩ := storeRec_aer
    (s.setAer fun a => { a with queue := rest, seq := (s.aer.seq + 1) % 2 ^ 32, gap := false }) s.aer.seq (r.bytes s.aer.seq s.aer.gap)
  refine ⟨t, ht, by rw [hend.aer, hqueue]; rfl, by rw [hend.aer, hseq]; rfl, by rw [hend.aer, hgap]; rfl, fun hon hup => ?_, honly⟩
  rw [hend.hbm, storeRec_writes (u := s.setAer _) hon hup]
  rfl

end

/-- Settles O55, one lemma for each form. -/
theorem telemetryEventsAct : Obligations.TelemetryEventsAct := by
  unfold Obligations.TelemetryEventsAct
  exact fun s => ⟨windsockSample_samples, fun _ _ => snapshotComplete_leaves, fun _ => bwWindowEnd_closes, fun _ _ => aerWrite_stores⟩

end Sys2Proof.Machine
end

/-! PROOFS. How the twin link acts: heartbeats, the check at a boundary, the attach and resends (R336 to R341, R346 to R348). -/

section
namespace Sys2Proof.Machine

section
variable {s : State}

/-- What follows the count of a frame and keeps to parts that hold the registers keeps to them from the frame on. -/
theorem counted_then {l : List Part} {frame : Bytes} {u : State} (hl : Part.regs ∈ l) (h : OnlyTouches l (s.twinCounted frame) u) :
    OnlyTouches l s u :=
  only_trans (only_mono (counted_touches s frame) (by simpa using hl)) h

/-! Heartbeats and the check at a boundary -/

theorem twinHeartbeatTx_sends (hb : s.twinBeats = true) (hup : s.twinUp = true) (hf : s.fatal = false) :
    ∃ t, exec .twinHeartbeatTx s = .next t ∧ t.out = .twin (twinFrame twHeartbeat s.tick s.heartbeat) :: s.out ∧ OnlyTouches [.regs, .out] s t := by
  obtain ⟨t, ht, hend, honly⟩ := exec_ends (s := s) (c := .twinHeartbeatTx) (congrArg (done s) (if_pos hb))
  exact ⟨t, ht, hend.out.trans (twinSend_out s _ _ hup hf), honly⟩

theorem twinHeartbeatRx_hears {frame p : Bytes} (h : s.twinHears twHeartbeat frame p) (hlen : p.length = 32)
    (hid : fld p 0 8 = s.partnerId) (hid0 : s.partnerId ≠ 0) (hst : s.twin.state = .paired) (hpst : byteAt p 8 ≠ 5) :
    ∃ t, exec (.twinHeartbeatRx frame) s = .next t ∧ t.twin.state = .paired ∧ t.twin.hbUp = s.clk.up
      ∧ t.twin.creditSeen = fld p 12 4 ∧ t.twin.partnerState = byteAt p 8 ∧ t.twin.partnerHeld = bit (byteAt p 9) 1
      ∧ t.twin.partnerTakeover = bit (byteAt p 9) 0 ∧ t.rget (twinReg 0x118) = s.tick % 2 ^ 64 ∧ OnlyTouches [.regs, .twin, .out] s t := by
  obtain ⟨u, hstate, hup, hseen, hpstate, hheld, htake, htick, hu, hexec⟩ := link_heard s frame p h hlen hid hid0 hst
  rw [if_neg hpst] at hexec
  obtain ⟨t, ht, hend, honly⟩ := exec_ends_only hexec hu
  rw [← hend.twin] at hstate hup hseen hpstate hheld htake
  exact ⟨t, ht, hstate, hup, hseen, hpstate, hheld, htake, (hend.rget _).trans htick, honly⟩

theorem twinHeartbeatRx_detached {frame p : Bytes} (h : s.twinHears twHeartbeat frame p) (hlen : p.length = 32)
    (hid : fld p 0 8 = s.partnerId) (hid0 : s.partnerId ≠ 0) (hst : s.twin.state = .paired) (hpst : byteAt p 8 = 5) :
    ∃ t, exec (.twinHeartbeatRx frame) s = .next t ∧ t.twin.state = .solo ∧ t.twin.unacked = [] ∧ t.twin.waiting = []
      ∧ t.bget (twinReg 0x010) 8 = true ∧ OnlyTouches [.regs, .mgmt, .col, .twin, .aer, .out] s t := by
  obtain ⟨u, -, -, -, -, -, -, -, -, hexec⟩ := link_heard s frame p h hlen hid hid0 hst
  rw [if_pos hpst] at hexec
  obtain ⟨hsolo, hbit⟩ := enterSolo_sets u
  obtain ⟨t, ht, hend, honly⟩ := exec_ends hexec
  rw [← hend.twin] at hsolo
  exact ⟨t, ht, by rw [hsolo], by rw [hsolo], by rw [hsolo], (hend.bget _ _).trans hbit, honly⟩

theorem twinHbCheck_heard (hst : s.twin.state = .paired) (hck : s.twin.checkUp < s.clk.up) (hup : s.clk.up ≤ s.twin.hbUp + 1) :
    ∃ t, exec .twinHbCheck s = .next t ∧ t.twin = { s.twin with checkUp := s.clk.up, misses := 0 } ∧ OnlyTouches [.twin] s t := by
  have hcheck : s.hbCheck = (s.setTwin fun t => { t with checkUp := s.clk.up }).setTwin fun t => { t with misses := 0 } := by
    unfold State.hbCheck
    rw [hst, decide_eq_false (by omega : ¬ s.clk.up ≤ s.twin.checkUp), if_neg (by decide)]
    exact if_pos hup
  obtain ⟨t, ht, hend, honly⟩ := exec_ends_only (s := s) (c := .twinHbCheck) (congrArg (done s) hcheck)
    (onlyTouches_of_blank (l := [.twin]) ((setTwin_blank _ _ _ rfl).trans (setTwin_blank _ _ _ rfl)))
  exact ⟨t, ht, hend.twin, honly⟩

/-- The state after a boundary without a heartbeat has been counted. -/
def State.missedBeat (s : State) : State :=
  ((s.setTwin fun t => { t with checkUp := s.clk.up }).bump (twinReg 0x180)).setTwin fun t => { t with misses := t.misses + 1 }

theorem missedBeat_rget {a : Nat} (ha : a ≠ twinReg 0x180) : s.missedBeat.rget a = s.rget a :=
  State.rget_bump_ne (s.setTwin _) _ _ _ ha

theorem missedBeat_only : OnlyTouches [.regs, .twin] s s.missedBeat :=
  onlyTouches_of_blank ((setTwin_blank _ _ _ rfl).trans ((bump_blank _ rfl _ _ _).trans (setTwin_blank _ _ _ rfl)))

theorem twinHbCheck_misses (hst : s.twin.state = .paired) (hck : s.twin.checkUp < s.clk.up) (hup : s.twin.hbUp + 1 < s.clk.up)
    (hlim : s.twin.misses + 1 < s.fget (twinReg 0x100) 11 8) :
    ∃ t, exec .twinHbCheck s = .next t ∧ t.twin = { s.twin with checkUp := s.clk.up, misses := s.twin.misses + 1 }
      ∧ t.rget (twinReg 0x180) = satAdd 64 (s.rget (twinReg 0x180)) 1 ∧ OnlyTouches [.regs, .twin] s t := by
  have hcheck : s.hbCheck = s.missedBeat := (check_eq s hst hck hup).trans (if_neg (by omega))
  obtain ⟨t, ht, hend, honly⟩ := exec_ends_only (s := s) (c := .twinHbCheck) (congrArg (done s) hcheck) missedBeat_only
  exact ⟨t, ht, hend.twin, (hend.rget _).trans (State.rget_bump (s.setTwin _) _ 1), honly⟩

/-- Entering SOLO leaves the twin's configuration as it was. -/
theorem enterSolo_config : s.enterSolo.bget (twinReg 0x100) 0 = s.bget (twinReg 0x100) 0 := by
  unfold State.bget State.enterSolo
  rw [alarm_rget _ (twinReg 0) 8 _ _ _ _ (by decide) (by decide) (by decide)]
  rfl

/-- A partner that is lost leaves the chip in SOLO, and taking over where no tag came either and takeover is enabled. -/
theorem partnerLost_spec : s.partnerLost.twin.state = .solo
    ∧ (s.clk.up ≤ s.twin.tagUp + max (s.fget (twinReg 0x100) 11 8) 8 → s.partnerLost.twin.taking = s.twin.taking)
    ∧ (s.twin.tagUp + max (s.fget (twinReg 0x100) 11 8) 8 < s.clk.up → s.bget (twinReg 0x100) 0 = true →
        s.partnerLost.twin.taking = true ∧ s.partnerLost.twin.takeoverUp = some s.clk.up) := by
  obtain ⟨hsolo, -⟩ := enterSolo_sets s
  have hclk := (solo_twin s).2.1
  obtain ⟨hstate, htaking, hup⟩ := takeOver_takes s.enterSolo
  unfold State.partnerLost
  dsimp only
  refine ⟨?_, fun htags => ?_, fun hlate htake => ?_⟩
  · split
    · rw [hstate, hsolo]
    · rw [hsolo]
  · rw [decide_eq_true htags, if_neg (by simp), hsolo]
  · rw [decide_eq_false (by omega), enterSolo_config, htake, if_pos (by decide)]
    exact ⟨htaking, by rw [hup, hclk]⟩

theorem twinHbCheck_loses (hst : s.twin.state = .paired) (hck : s.twin.checkUp < s.clk.up) (hup : s.twin.hbUp + 1 < s.clk.up)
    (hlim : s.fget (twinReg 0x100) 11 8 ≤ s.twin.misses + 1) :
    ∃ t, exec .twinHbCheck s = .next t ∧ t.twin.state = .solo
      ∧ (s.clk.up ≤ s.twin.tagUp + max (s.fget (twinReg 0x100) 11 8) 8 → t.twin.taking = s.twin.taking)
      ∧ (s.twin.tagUp + max (s.fget (twinReg 0x100) 11 8) 8 < s.clk.up → s.bget (twinReg 0x100) 0 = true →
          t.twin.taking = true ∧ t.twin.takeoverUp = some s.clk.up)
      ∧ OnlyTouches [.regs, .sw, .tbl, .mgmt, .col, .twin, .aer] s t := by
  have hcheck : s.hbCheck = s.missedBeat.partnerLost := (check_eq s hst hck hup).trans (if_pos hlim)
  obtain ⟨hsolo, hkeep, htake⟩ := partnerLost_spec (s := s.missedBeat)
  rw [State.fget_congr _ _ _ (missedBeat_rget (by decide))] at hkeep htake
  have hcfg : s.missedBeat.bget (twinReg 0x100) 0 = s.bget (twinReg 0x100) 0 := by
    unfold State.bget
    rw [missedBeat_rget (by decide)]
  rw [hcfg] at htake
  obtain ⟨t, ht, hend, honly⟩ := exec_ends (s := s) (c := .twinHbCheck) (congrArg (done s) hcheck)
  rw [← hend.twin] at hsolo hkeep htake
  exact ⟨t, ht, hsolo, hkeep, htake, honly⟩

/-! The attach -/

/-- The state once a good HELLO has been noted. -/
def State.helloNoted (s : State) (p : Bytes) : State :=
  (s.rset (twinReg 0x108) (fld p 0 8)).setTwin fun t => { t with partnerCert := sub p 40 208, partnerNonce := sub p 8 32, helloHeard := true }

theorem helloNoted_judged {p : Bytes} (hcert : certGood s.sys.rootKey (sub p 40 208) = true) (hchip : certChip (sub p 40 208) = fld p 0 8)
    (hexp : s.rget (twinReg 0x110) = 0 ∨ s.rget (twinReg 0x110) = fld p 0 8) :
    s.judgeHello p = (s.helloNoted p).twinSend twProof (edSign identityKey (ascii "WZ5TWIN1" ++ sub p 8 32 ++ beBytes 8 chipId)) :=
  judge_good s p hcert hchip hexp

theorem helloNoted_twin {p : Bytes} :
    (s.helloNoted p).twin = { s.twin with partnerCert := sub p 40 208, partnerNonce := sub p 8 32, helloHeard := true } := rfl

theorem helloNoted_id {p : Bytes} : (s.helloNoted p).rget (twinReg 0x108) = fld p 0 8 % 2 ^ 64 := State.rget_rset_same s _ _

theorem helloNoted_only {p : Bytes} : OnlyTouches [.regs, .twin] s (s.helloNoted p) :=
  onlyTouches_of_blank ((setTwin_blank _ _ _ rfl).trans (rset_blank _ _ _ _ rfl))

theorem helloNoted_twinUp {p : Bytes} : (s.helloNoted p).twinUp = s.twinUp := twinUp_of_pho rfl

theorem helloNoted_fatal {p : Bytes} : (s.helloNoted p).fatal = s.fatal := fatal_of_dump rfl

theorem helloNoted_tick {p : Bytes} : (s.helloNoted p).tick = s.tick := rfl

theorem helloNoted_out {p : Bytes} : (s.helloNoted p).out = s.out := rfl

theorem counted_rootKey (frame : Bytes) : (s.twinCounted frame).sys.rootKey = s.sys.rootKey :=
  rootKey_of_sys ((counted_touches s frame).2 .sys (by decide))

theorem counted_expected (frame : Bytes) : (s.twinCounted frame).rget (twinReg 0x110) = s.rget (twinReg 0x110) :=
  counted_rget s frame 0x110 (by decide)

theorem twinHelloRx_proves {frame p : Bytes} (h : s.twinHears twHello frame p) (hlen : p.length = 248) (hst : s.twin.state = .attach)
    (hcert : certGood s.sys.rootKey (sub p 40 208) = true) (hchip : certChip (sub p 40 208) = fld p 0 8)
    (hexp : s.rget (twinReg 0x110) = 0 ∨ s.rget (twinReg 0x110) = fld p 0 8) :
    ∃ t, exec (.twinHelloRx frame) s = .next t ∧ t.rget (twinReg 0x108) = fld p 0 8 % 2 ^ 64
      ∧ t.twin = { s.twin with partnerCert := sub p 40 208, partnerNonce := sub p 8 32, helloHeard := true }
      ∧ t.out = .twin (twinFrame twProof s.tick (edSign identityKey (ascii "WZ5TWIN1" ++ sub p 8 32 ++ beBytes 8 chipId))) :: s.out
      ∧ OnlyTouches [.regs, .twin, .out] s t := by
  obtain ⟨hup, hf, htick⟩ := counted_up h
  have hjudged := helloNoted_judged (s := s.twinCounted frame) (p := p) (by rw [counted_rootKey]; exact hcert) hchip
    (by rw [counted_expected]; exact hexp)
  have hnoted : OnlyTouches [.regs, .twin, .out] s ((s.twinCounted frame).helloNoted p) :=
    counted_then (by decide) (only_mono helloNoted_only (by decide))
  obtain ⟨t, ht, hend, honly⟩ := exec_ends_only ((hello_eq s frame p h hlen hst).trans (congrArg (done s) hjudged))
    (only_trans hnoted (only_mono (twinSend_touches _ _ _) (by decide)))
  refine ⟨t, ht, ?_, ?_, ?_, honly⟩
  · rw [hend.rget, ← helloNoted_id (s := s.twinCounted frame)]
    exact twinOut_rget _ _ 0x108 (by decide)
  · rw [hend.twin, ← counted_twin s frame, ← helloNoted_twin]
    exact (twinSend_touches _ _ _).2 .twin (by decide)
  · rw [hend.out, twinSend_out _ _ _ (helloNoted_twinUp.trans hup) (helloNoted_fatal.trans hf), helloNoted_out, counted_out,
      helloNoted_tick, htick]

/-- A partner that fails its check ends the attach. -/
theorem mismatch_ends {c : Instr} {frame : Bytes} (he : exec c s = done s (s.twinCounted frame).partnerMismatch) :
    ∃ t, exec c s = .next t ∧ t.twin.state = s.twin.former ∧ t.bget (twinReg 0x010) 13 = true ∧ t.bget (twinReg 0x010) 11 = true
      ∧ OnlyTouches [.regs, .mgmt, .col, .twin, .aer] s t := by
  obtain ⟨hformer, h13, h11⟩ := mismatch_sets (s.twinCounted frame)
  obtain ⟨t, ht, hend, honly⟩ := exec_ends_only he
    (counted_then (l := [.regs, .mgmt, .col, .twin, .aer]) (by decide) (onlyTouches_of_blank (partnerMismatch_blank _ rfl rfl rfl rfl rfl _)))
  exact ⟨t, ht, by rw [hend.twin, hformer, counted_twin], (hend.bget _ _).trans h13, (hend.bget _ _).trans h11, honly⟩

theorem twinHelloRx_refuses {frame p : Bytes} (h : s.twinHears twHello frame p) (hlen : p.length = 248) (hst : s.twin.state = .attach)
    (hbad : certGood s.sys.rootKey (sub p 40 208) = false ∨ certChip (sub p 40 208) ≠ fld p 0 8
      ∨ (s.rget (twinReg 0x110) ≠ 0 ∧ s.rget (twinReg 0x110) ≠ fld p 0 8)) :
    ∃ t, exec (.twinHelloRx frame) s = .next t ∧ t.twin.state = s.twin.former ∧ t.bget (twinReg 0x010) 13 = true ∧ t.bget (twinReg 0x010) 11 = true
      ∧ OnlyTouches [.regs, .mgmt, .col, .twin, .aer] s t := by
  refine mismatch_ends ((hello_eq s frame p h hlen hst).trans (congrArg (done s) (judge_bad _ p ?_)))
  rwa [counted_rootKey, counted_expected]

/-- What the attach copies is the same once a frame has been counted. -/
theorem counted_copy (frame : Bytes) :
    ((s.twinCounted frame).copyList.foldl (fun n x => n + (s.twinCounted frame).copyBytes x) 0)
      = s.copyList.foldl (fun n x => n + s.copyBytes x) 0 := by
  obtain ⟨hlist, hbytes⟩ := copyList_same (counted_col s frame) (counted_twinned s frame)
  rw [hlist, hbytes]

theorem twinProofRx_copies {frame p : Bytes} (h : s.twinHears twProof frame p) (hlen : p.length = 64) (hst : s.twin.state = .attach)
    (hheard : s.twin.helloHeard = true) (hgood : s.twin.proofGood = false)
    (hv : edVerify (certKey s.twin.partnerCert) (ascii "WZ5TWIN1" ++ fit 32 s.twin.ownNonce ++ beBytes 8 s.partnerId) p = true) :
    ∃ t, exec (.twinProofRx frame) s = .next t ∧ t.twin.state = .attach ∧ t.twin.proofGood = true ∧ t.twin.proofUp = s.clk.up
      ∧ t.rget (twinReg 0x128) = (s.copyList.foldl (fun n x => n + s.copyBytes x) 0) % 2 ^ 64 ∧ OnlyTouches [.regs, .twin, .out] s t := by
  obtain ⟨hstate, hproof, hup, hleft⟩ := beginCopy_role (s.twinCounted frame)
  rw [counted_copy] at hleft
  obtain ⟨t, ht, hend, honly⟩ := exec_ends_only ((proof_eq s frame p h hlen hst hheard hgood).trans (congrArg (done s) (if_pos hv)))
    (counted_then (l := [.regs, .twin, .out]) (by decide) (onlyTouches_of_blank (beginCopy_blank _ rfl rfl rfl _)))
  exact ⟨t, ht, by rw [hend.twin, hstate, counted_twin, hst], by rw [hend.twin, hproof], by rw [hend.twin, hup, counted_clk],
    (hend.rget _).trans hleft, honly⟩

theorem twinProofRx_refuses {frame p : Bytes} (h : s.twinHears twProof frame p) (hlen : p.length = 64) (hst : s.twin.state = .attach)
    (hheard : s.twin.helloHeard = true) (hgood : s.twin.proofGood = false)
    (hv : edVerify (certKey s.twin.partnerCert) (ascii "WZ5TWIN1" ++ fit 32 s.twin.ownNonce ++ beBytes 8 s.partnerId) p = false) :
    ∃ t, exec (.twinProofRx frame) s = .next t ∧ t.twin.state = s.twin.former ∧ t.bget (twinReg 0x010) 13 = true ∧ t.bget (twinReg 0x010) 11 = true
      ∧ OnlyTouches [.regs, .mgmt, .col, .twin, .aer] s t :=
  mismatch_ends ((proof_eq s frame p h hlen hst hheard hgood).trans (congrArg (done s) (if_neg (by rw [hv]; decide))))

theorem twinAttachTimeout_ends {n : Nat} (hst : s.twin.state = .attach ∨ s.twin.state = .verify)
    (hdue : (s.twin.helloHeard = false ∧ s.twin.attachUp + 2500000 ≤ s.clk.up) ∨ (s.twinUp = false ∧ s.fget (twinReg 0x100) 11 8 ≤ n)) :
    ∃ t, exec (.twinAttachTimeout n) s = .next t ∧ t.twin.state = s.twin.former ∧ t.twin.unacked = [] ∧ t.twin.copyIn = []
      ∧ t.bget (twinReg 0x010) 11 = true ∧ OnlyTouches [.regs, .mgmt, .col, .twin, .aer] s t := by
  obtain ⟨cause, hcause⟩ := attach_ends s n hst hdue
  obtain ⟨htwin, hbit, -⟩ := attachFails_sets s cause
  have hexec : exec (.twinAttachTimeout n) s = done s (s.attachFails cause) := by
    show execTwinAttachTimeout n s = _
    unfold execTwinAttachTimeout
    rw [hcause]
  obtain ⟨t, ht, hend, honly⟩ := exec_ends hexec
  rw [← hend.twin] at htwin
  exact ⟨t, ht, by rw [htwin], by rw [htwin], by rw [htwin], (hend.bget _ _).trans hbit, honly⟩

/-! Resends -/

theorem twinFrameResend_resends {i : Nat} {u : Unacked} (hu : s.twin.unacked[i]? = some u) (hdue : u.sentUp + 25 ≤ s.clk.up)
    (hup : s.twinUp = true) (hf : s.fatal = false) :
    ∃ t, exec (.twinFrameResend i) s = .next t ∧ t.out = .twin u.frame :: s.out
      ∧ t.twin = { s.twin with unacked := s.twin.unacked.set i { u with sentUp := s.clk.up } } ∧ OnlyTouches [.regs, .twin, .out] s t := by
  have hsent : s.resend i =
      (s.setTwin fun t => { t with unacked := t.unacked.set i { u with sentUp := s.clk.up } }).twinOut u.frame := by
    unfold State.resend
    rw [hu]
    exact if_pos hdue
  obtain ⟨t, ht, hend, honly⟩ := exec_ends (s := s) (c := .twinFrameResend i) (congrArg (done s) hsent)
  exact ⟨t, ht, hend.out.trans (twinOut_out (s.setTwin _) _ hup hf), hend.twin.trans ((twinOut_touches (s.setTwin _) _).2 .twin (by decide)), honly⟩

end

/-- Settles O56, one lemma for each form. -/
theorem twinLinkActs : Obligations.TwinLinkActs := by
  unfold Obligations.TwinLinkActs
  exact fun s => ⟨twinHeartbeatTx_sends,
    fun _ _ h hlen hid hid0 hst => ⟨twinHeartbeatRx_hears h hlen hid hid0 hst, twinHeartbeatRx_detached h hlen hid hid0 hst⟩,
    fun hst hck => ⟨twinHbCheck_heard hst hck, twinHbCheck_misses hst hck, twinHbCheck_loses hst hck⟩,
    fun _ _ h hlen hst => ⟨twinHelloRx_proves h hlen hst, twinHelloRx_refuses h hlen hst⟩,
    fun _ _ h hlen hst hheard hgood => ⟨twinProofRx_copies h hlen hst hheard hgood, twinProofRx_refuses h hlen hst hheard hgood⟩,
    fun _ => twinAttachTimeout_ends, fun _ _ => twinFrameResend_resends⟩

end Sys2Proof.Machine
end

/-! PROOFS. How the twin mirror acts: configuration, records, releases, digests, copies and handovers (R268 to R271, R340 to R345). -/

section
namespace Sys2Proof.Machine

section
variable {s : State} {frame p : Bytes}

/-- A frame that is heard is counted and then acted on. -/
theorem heard_exec {c : Instr} {type : Nat} {act : State → Bytes → State} (h : s.twinHears type frame p)
    (he : exec c s = done s (s.twinRx type frame act)) : exec c s = done s (act (s.twinCounted frame) p) :=
  he.trans (congrArg (done s) (twinRx_eq h act))

/-- What answers a frame leaves as the newest frame sent, under the tick it came in. -/
theorem answer_out {type answer : Nat} {q : Bytes} {u : State} (h : s.twinHears type frame p)
    (hu : OnlyTouches [.regs, .hbm, .col, .twin] (s.twinCounted frame) u) :
    (u.twinSend answer q).out = .twin (twinFrame answer s.tick q) :: s.out := by
  obtain ⟨hup, hf, htick⟩ := counted_up h
  have htick' : u.tick = s.tick := by
    rw [← htick]
    unfold State.tick
    rw [hu.2 .clk (by decide)]
  rw [twinSend_out u _ _ ((twinUp_of_pho (hu.2 .pho (by decide))).trans hup) ((fatal_of_dump (hu.2 .dump (by decide))).trans hf),
    htick', hu.2 .out (by decide), counted_out]

theorem only_refl {l : List Part} : OnlyTouches l s s := onlyTouches_of_blank rfl

/-! Mirror configuration -/

/-- A configuration that is refused is answered with CONFLICT and a reason. -/
theorem config_refused {reason : Nat} (h : s.twinHears twConfig frame p)
    (he : exec (.twinCtxConfigRx frame) s = done s ((s.twinCounted frame).sendAccept (byteAt p 0) .conflict reason)) :
    ∃ t, exec (.twinCtxConfigRx frame) s = .next t
      ∧ t.out = .twin (twinFrame twAccept s.tick (beBytes 1 (byteAt p 0) ++ beBytes 1 Code.conflict.num ++ beBytes 1 reason ++ zeros 1)) :: s.out
      ∧ OnlyTouches [.regs, .out] s t := by
  obtain ⟨t, ht, hend, honly⟩ := exec_ends_only he (counted_then (by decide) (twinSend_touches _ _ _))
  exact ⟨t, ht, hend.out.trans (answer_out h only_refl), honly⟩

section
variable (h : s.twinHears twConfig frame p) (hst : s.twin.state = .paired) (hlen : 88 ≤ p.length) (hcount : fld p 8 4 = p.length - 88)
  (hserve : (s.ctx (byteAt p 0)).serving = false)
include h hst hlen hcount hserve

theorem config_differs (hdiff : s.programDiffers (byteAt p 0) p = true) :
    ∃ t, exec (.twinCtxConfigRx frame) s = .next t
      ∧ t.out = .twin (twinFrame twAccept s.tick (beBytes 1 (byteAt p 0) ++ beBytes 1 Code.conflict.num ++ beBytes 1 1 ++ zeros 1)) :: s.out
      ∧ OnlyTouches [.regs, .out] s t :=
  config_refused h ((config_eq s frame p h hst hlen hcount hserve).trans (congrArg (done s) (if_pos hdiff)))

theorem config_full (hdiff : s.programDiffers (byteAt p 0) p = false) (hconf : (s.twinCounted frame).configure (byteAt p 0) p = none) :
    ∃ t, exec (.twinCtxConfigRx frame) s = .next t
      ∧ t.out = .twin (twinFrame twAccept s.tick (beBytes 1 (byteAt p 0) ++ beBytes 1 Code.conflict.num ++ beBytes 1 2 ++ zeros 1)) :: s.out
      ∧ OnlyTouches [.regs, .out] s t := by
  have he := config_eq s frame p h hst hlen hcount hserve
  rw [hdiff, if_neg Bool.false_ne_true, hconf] at he
  exact config_refused h he

theorem config_accepted {u : State} (hdiff : s.programDiffers (byteAt p 0) p = false)
    (hconf : (s.twinCounted frame).configure (byteAt p 0) p = some u) :
    ∃ t, exec (.twinCtxConfigRx frame) s = .next t ∧ t.col = u.col ∧ t.hbm = u.hbm ∧ t.twin = u.twin
      ∧ (t.ctx (byteAt p 0)).mirrorConfig = p ∧ (t.ctx (byteAt p 0)).mirrorBase = fld p 4 4
      ∧ (t.ctx (byteAt p 0)).mirrorChunks = p.length - 88
      ∧ t.out = .twin (twinFrame twAccept s.tick (beBytes 1 (byteAt p 0) ++ beBytes 1 Code.ok.num ++ beBytes 1 0 ++ zeros 1)) :: s.out
      ∧ OnlyTouches [.regs, .hbm, .col, .twin, .out] s t := by
  have he := config_eq s frame p h hst hlen hcount hserve
  rw [hdiff, if_neg Bool.false_ne_true, hconf] at he
  have hconfigured : OnlyTouches [.regs, .hbm, .col, .twin] (s.twinCounted frame) u :=
    onlyTouches_of_blank (configure_blank _ rfl rfl rfl hconf)
  have hsent : OnlyTouches [.regs, .out] u (u.sendAccept (byteAt p 0) .ok 0) := twinSend_touches _ _ _
  have hcol := hsent.2 .col (by decide)
  obtain ⟨hconfig, hbase, hchunks⟩ := configured_ctx hconf
  obtain ⟨t, ht, hend, honly⟩ := exec_ends he
  have hctx : t.ctx (byteAt p 0) = u.ctx (byteAt p 0) := ctx_of_col (hend.col.trans hcol) _
  rw [← hctx] at hconfig hbase hchunks
  exact ⟨t, ht, hend.col.trans hcol, hend.hbm.trans (hsent.2 .hbm (by decide)), hend.twin.trans (hsent.2 .twin (by decide)), hconfig, hbase, hchunks,
    hend.out.trans (answer_out h hconfigured), honly⟩

end

theorem accept_enables {w : Nat} {fly : Option InFlight} {plan : Plan} (h : s.twinHears twAccept frame p)
    (hask : (s.ctx (byteAt p 0)).asking = some (w, fly)) (hplan : (s.ctx (byteAt p 0)).plan = some plan)
    (hok : byteAt p 1 = 0) (hreason : byteAt p 2 = 0) :
    ∃ t, exec (.twinCtxAcceptRx frame) s = .next t ∧ (t.ctx (byteAt p 0)).asking = none
      ∧ (t.ctx (byteAt p 0)).enabling = some fly ∧ (t.ctx (byteAt p 0)).plan = some plan
      ∧ (∀ q, plan.planes = some q → (t.ctx (byteAt p 0)).planes = some q) ∧ OnlyTouches [.regs, .hbm, .col] s t := by
  have haccept : (s.twinCounted frame).acceptRx p = (s.twinCounted frame).acceptEnable (byteAt p 0) plan fly := by
    unfold State.acceptRx
    dsimp only
    rw [counted_ctx, hask, hplan]
    exact if_pos ⟨hok, hreason⟩
  obtain ⟨x, hx, hplanes⟩ := acceptEnable_full (s.twinCounted frame) (byteAt p 0) plan fly
  obtain ⟨t, ht, hend, honly⟩ := exec_ends_only ((heard_exec (c := .twinCtxAcceptRx frame) h rfl).trans (congrArg (done s) haccept))
    (counted_then (l := [.regs, .hbm, .col]) (by decide) (onlyTouches_of_blank (acceptEnable_blank _ rfl rfl _ _ _ _)))
  have hctx : t.ctx (byteAt p 0) = { x with plan := some plan, asking := none, enabling := some fly } := (ctx_of_col hend.col _).trans hx
  exact ⟨t, ht, by rw [hctx], by rw [hctx], by rw [hctx], fun q hq => by rw [hctx]; exact hplanes q hq, honly⟩

/-- An enable that the partner refuses is asked and planned no more. -/
theorem refuseAsking_ctx {c reason : Nat} {x : Nat × Option InFlight} (hask : (s.ctx c).asking = some x) :
    (s.refuseAsking c reason).ctx c = { s.ctx c with asking := none, plan := none } := by
  have hrefused : ((s.setCtx c fun x => { x with asking := none, plan := none }).refuseEnable c 8 .conflict).ctx c
      = { s.ctx c with asking := none, plan := none } := State.ctx_setCtx_same s c _
  unfold State.refuseAsking
  rw [hask]
  dsimp only
  split
  · exact (ctx_of_col (reply_col _ _ _) _).trans hrefused
  · exact hrefused

theorem accept_refuses {w : Nat} {fly : Option InFlight} {plan : Plan} (h : s.twinHears twAccept frame p)
    (hask : (s.ctx (byteAt p 0)).asking = some (w, fly)) (hplan : (s.ctx (byteAt p 0)).plan = some plan)
    (hbad : byteAt p 1 ≠ 0 ∨ byteAt p 2 ≠ 0) :
    ∃ t, exec (.twinCtxAcceptRx frame) s = .next t ∧ (t.ctx (byteAt p 0)).asking = none
      ∧ (t.ctx (byteAt p 0)).plan = none ∧ (t.ctx (byteAt p 0)).state = (s.ctx (byteAt p 0)).state ∧ OnlyTouches [.regs, .mgmt, .col, .out] s t := by
  have hrefuse : (s.twinCounted frame).acceptRx p = (s.twinCounted frame).refuseAsking (byteAt p 0) (byteAt p 2) := by
    unfold State.acceptRx
    dsimp only
    rw [counted_ctx, hask, hplan]
    exact if_neg (by omega)
  obtain ⟨t, ht, hend, honly⟩ := exec_ends_only ((heard_exec (c := .twinCtxAcceptRx frame) h rfl).trans (congrArg (done s) hrefuse))
    (counted_then (l := [.regs, .mgmt, .col, .out]) (by decide) (onlyTouches_of_blank (refuseAsking_blank _ rfl rfl rfl rfl _ _ _)))
  have hctx := refuseAsking_ctx (s := s.twinCounted frame) (reason := byteAt p 2) (x := (w, fly)) (by rw [counted_ctx, hask])
  rw [← ctx_of_col hend.col, counted_ctx] at hctx
  exact ⟨t, ht, by rw [hctx], by rw [hctx], by rw [hctx], honly⟩

/-! Records, acknowledgements and releases -/

/-- The state once a record has been counted and acknowledged. -/
def State.recordAcked (s : State) (p : Bytes) : State := (s.bump (twinReg 0x190)).sendAck 0 (byteAt p 0) (fld p 2 2) (fld p 4 4)

/-- The mirror's entry of a record placed by `q`, heard at uptime `up`. -/
def recordMirror (p : Bytes) (q : Placed) (up : Nat) : Mirror where
  ctx := byteAt p 0
  step := fld p 2 2
  chunk := fld p 4 4
  core := q.core
  grad := p.drop 80
  tag := fld p 10 2
  ks := (List.range 16).map fun i => fld p (12 + 4 * i) 4
  readyUp := up + 1
  credits := ceilDiv (p.length + 20) 4096
  digest := BitVec.ofNat 64 (fld p 2 2 * 2 ^ 32 + fld p 4 4)

/-- The state once a record has been queued for the Update Unit. -/
def State.recordQueued (s : State) (p : Bytes) (q : Placed) (up : Nat) : State :=
  (s.setCol fun k => { k with mirrors := k.mirrors ++ [recordMirror p q up] }).setTwin fun t =>
    { t with recSteps := aput t.recSteps (byteAt p 0, fld p 4 4) (fld p 2 2) }

theorem recordAcked_only : OnlyTouches [.regs, .out] s (s.recordAcked p) :=
  only_trans (onlyTouches_of_blank (bump_blank _ rfl _ _ _)) (twinSend_touches _ _ _)

theorem recordAcked_col : (s.recordAcked p).col = s.col := recordAcked_only.2 .col (by decide)

theorem recordAcked_twin : (s.recordAcked p).twin = s.twin := recordAcked_only.2 .twin (by decide)

theorem recordAcked_clk : (s.recordAcked p).clk = s.clk := recordAcked_only.2 .clk (by decide)

theorem recordAcked_count : (s.recordAcked p).rget (twinReg 0x190) = satAdd 64 (s.rget (twinReg 0x190)) 1 :=
  (twinOut_rget (s.bump (twinReg 0x190)) _ 0x190 (by decide)).trans (State.rget_bump s _ 1)

theorem bump_only {a : Nat} : OnlyTouches [.regs] s (s.bump a) := onlyTouches_of_blank (bump_blank _ rfl _ _ _)

theorem recordAcked_out (h : s.twinHears twRecord frame p) : ((s.twinCounted frame).recordAcked p).out =
    .twin (twinFrame twAck s.tick (beBytes 1 0 ++ beBytes 1 (byteAt p 0) ++ beBytes 2 (fld p 2 2) ++ beBytes 4 (fld p 4 4))) :: s.out := by
  unfold State.recordAcked State.sendAck
  exact answer_out h (only_mono bump_only (by decide))

theorem recordQueued_twin {q : Placed} {up : Nat} : (s.recordQueued p q up).twin =
    { s.twin with recSteps := aput s.twin.recSteps (byteAt p 0, fld p 4 4) (fld p 2 2) } := rfl

theorem recordQueued_mirrors {q : Placed} {up : Nat} : (s.recordQueued p q up).col.mirrors = s.col.mirrors ++ [recordMirror p q up] := rfl

theorem recordQueued_out {q : Placed} {up : Nat} : (s.recordQueued p q up).out = s.out := rfl

theorem recordQueued_rget {q : Placed} {up a : Nat} : (s.recordQueued p q up).rget a = s.rget a := rfl

theorem recordRx_eq {q : Placed} (hlen : p.length = 80 + 4 * fld p 8 2) (htake : s.twinTakes = true)
    (hq : ((s.ctx (byteAt p 0)).mirrorPlaced.find? fun q => q.chunk == fld p 4 4) = some q) :
    s.recordRx p = if (aget s.twin.recSteps (byteAt p 0, fld p 4 4)).any (fun l => stepAtOrBefore (fld p 2 2) l) then s.recordAcked p
      else (s.recordAcked p).recordQueued p q s.clk.up := by
  have hacked : (s.bump (twinReg 0x190)).sendAck 0 (byteAt p 0) (fld p 2 2) (fld p 4 4) = s.recordAcked p := rfl
  unfold State.recordRx
  dsimp only
  rw [if_neg (by rw [htake]; simp [hlen]), hacked, ctx_of_col recordAcked_col, hq, recordAcked_twin, recordAcked_clk]
  rfl

theorem record_heard {q : Placed} (h : s.twinHears twRecord frame p) (hlen : p.length = 80 + 4 * fld p 8 2) (htake : s.twinTakes = true)
    (hq : ((s.ctx (byteAt p 0)).mirrorPlaced.find? fun q => q.chunk == fld p 4 4) = some q) :
    exec (.twinRecordRx frame) s = done s
      (if (aget s.twin.recSteps (byteAt p 0, fld p 4 4)).any (fun l => stepAtOrBefore (fld p 2 2) l) then (s.twinCounted frame).recordAcked p
        else ((s.twinCounted frame).recordAcked p).recordQueued p q s.clk.up) := by
  have hrec := recordRx_eq (s := s.twinCounted frame) (p := p) (q := q) hlen
    (by unfold State.twinTakes; rw [counted_twin]; exact htake) (by rw [counted_ctx]; exact hq)
  rw [counted_twin, counted_clk] at hrec
  exact (heard_exec (c := .twinRecordRx frame) h rfl).trans (congrArg (done s) hrec)

theorem record_acks {q : Placed} (h : s.twinHears twRecord frame p) (hlen : p.length = 80 + 4 * fld p 8 2) (htake : s.twinTakes = true)
    (hq : ((s.ctx (byteAt p 0)).mirrorPlaced.find? fun q => q.chunk == fld p 4 4) = some q) :
    ∃ t, exec (.twinRecordRx frame) s = .next t
      ∧ t.out = .twin (twinFrame twAck s.tick (beBytes 1 0 ++ beBytes 1 (byteAt p 0) ++ beBytes 2 (fld p 2 2) ++ beBytes 4 (fld p 4 4))) :: s.out
      ∧ t.rget (twinReg 0x190) = satAdd 64 (s.rget (twinReg 0x190)) 1
      ∧ ((aget s.twin.recSteps (byteAt p 0, fld p 4 4)).any (fun l => stepAtOrBefore (fld p 2 2) l) = true → t.col = s.col ∧ t.twin = s.twin)
      ∧ ((aget s.twin.recSteps (byteAt p 0, fld p 4 4)).any (fun l => stepAtOrBefore (fld p 2 2) l) = false →
          t.twin = { s.twin with recSteps := aput s.twin.recSteps (byteAt p 0, fld p 4 4) (fld p 2 2) }
          ∧ ∃ m : Mirror, t.col.mirrors = s.col.mirrors ++ [m] ∧ m.ctx = byteAt p 0 ∧ m.step = fld p 2 2 ∧ m.chunk = fld p 4 4
            ∧ m.grad = p.drop 80 ∧ m.readyUp = s.clk.up + 1)
      ∧ OnlyTouches [.regs, .col, .twin, .out] s t := by
  have hcol : ((s.twinCounted frame).recordAcked p).col = s.col := recordAcked_col.trans (counted_col s frame)
  have htwin : ((s.twinCounted frame).recordAcked p).twin = s.twin := recordAcked_twin.trans (counted_twin s frame)
  have hcount : ((s.twinCounted frame).recordAcked p).rget (twinReg 0x190) = satAdd 64 (s.rget (twinReg 0x190)) 1 := by
    rw [recordAcked_count, counted_rget _ _ _ (by decide)]
  have hout := recordAcked_out h
  have hexec := record_heard h hlen htake hq
  cases hdup : (aget s.twin.recSteps (byteAt p 0, fld p 4 4)).any (fun l => stepAtOrBefore (fld p 2 2) l)
  case true =>
    rw [hdup, if_pos rfl] at hexec
    obtain ⟨t, ht, hend, honly⟩ := exec_ends hexec
    exact ⟨t, ht, hend.out.trans hout, (hend.rget _).trans hcount, fun _ => ⟨hend.col.trans hcol, hend.twin.trans htwin⟩,
      fun hf => Bool.noConfusion hf, honly⟩
  case false =>
    rw [hdup, if_neg Bool.false_ne_true] at hexec
    obtain ⟨t, ht, hend, honly⟩ := exec_ends hexec
    refine ⟨t, ht, by rw [hend.out, recordQueued_out, hout], by rw [hend.rget, recordQueued_rget, hcount], fun hf => Bool.noConfusion hf,
      fun _ => ⟨?_, recordMirror p q s.clk.up, ?_, rfl, rfl, rfl, rfl, rfl⟩, honly⟩
    · rw [hend.twin, recordQueued_twin, htwin]
    · rw [hend.col, recordQueued_mirrors, hcol]

/-- The state once the acknowledgement of a chunk's record has been taken. -/
def State.chunkAcked (s : State) (p : Bytes) : State :=
  ((s.bump (twinReg 0x198)).setTwin fun t =>
    { t with unacked := t.unacked.filter fun v => !ackOf v.frame 0 (byteAt p 1) (fld p 2 2) (fld p 4 4) }).setCol fun k =>
      { k with slots := k.slots.map fun x =>
          if x.ctx = byteAt p 1 ∧ x.step = fld p 2 2 ∧ x.chunk = fld p 4 4 ∧ !x.taken then { x with acked := true } else x }

theorem chunkAcked_twin : (s.chunkAcked p).twin =
    { s.twin with unacked := s.twin.unacked.filter fun v => !ackOf v.frame 0 (byteAt p 1) (fld p 2 2) (fld p 4 4) } := rfl

theorem chunkAcked_col : (s.chunkAcked p).col = { s.col with
    slots := s.col.slots.map fun x =>
      if x.ctx = byteAt p 1 ∧ x.step = fld p 2 2 ∧ x.chunk = fld p 4 4 ∧ !x.taken then { x with acked := true } else x } := rfl

theorem chunkAcked_count : (s.chunkAcked p).rget (twinReg 0x198) = satAdd 64 (s.rget (twinReg 0x198)) 1 := State.rget_bump s _ 1

theorem chunkAcked_only : OnlyTouches [.regs, .col, .twin] s (s.chunkAcked p) :=
  onlyTouches_of_blank ((setCol_blank _ _ _ rfl).trans ((setTwin_blank _ _ _ rfl).trans (bump_blank _ rfl _ _ _)))

theorem ackRx_chunk {u : Unacked} (hkind : byteAt p 0 = 0)
    (hu : s.twin.unacked.find? (fun u => ackOf u.frame 0 (byteAt p 1) (fld p 2 2) (fld p 4 4)) = some u) : s.ackRx p = s.chunkAcked p := by
  have hbump : (s.bump (twinReg 0x198)).twin = s.twin := rfl
  unfold State.ackRx
  dsimp only
  rw [hkind, hbump, hu]
  exact if_pos rfl

theorem ack_takes {u : Unacked} (h : s.twinHears twAck frame p) (hkind : byteAt p 0 = 0)
    (hu : s.twin.unacked.find? (fun u => ackOf u.frame 0 (byteAt p 1) (fld p 2 2) (fld p 4 4)) = some u) :
    ∃ t, exec (.twinAckRx frame) s = .next t
      ∧ t.twin = { s.twin with unacked := s.twin.unacked.filter fun v => !ackOf v.frame 0 (byteAt p 1) (fld p 2 2) (fld p 4 4) }
      ∧ t.col = { s.col with
          slots := s.col.slots.map fun x =>
            if x.ctx = byteAt p 1 ∧ x.step = fld p 2 2 ∧ x.chunk = fld p 4 4 ∧ !x.taken then { x with acked := true } else x }
      ∧ t.rget (twinReg 0x198) = satAdd 64 (s.rget (twinReg 0x198)) 1 ∧ OnlyTouches [.regs, .col, .twin] s t := by
  have hacked := ackRx_chunk (s := s.twinCounted frame) hkind (by rw [counted_twin]; exact hu)
  obtain ⟨t, ht, hend, honly⟩ := exec_ends_only ((heard_exec (c := .twinAckRx frame) h rfl).trans (congrArg (done s) hacked))
    (counted_then (by decide) chunkAcked_only)
  refine ⟨t, ht, ?_, ?_, ?_, honly⟩
  · rw [hend.twin, chunkAcked_twin, counted_twin]
  · rw [hend.col, chunkAcked_col, counted_col]
  · rw [hend.rget, chunkAcked_count, counted_rget _ _ _ (by decide)]

/-- What a RELEASED leaves of the mirrors. -/
def mirrorsReleased (c step chunk : Nat) (l : List Mirror) : List Mirror :=
  (l.filter fun m => !(m.applied && m.ctx == c && m.step == step && m.chunk == chunk)).map fun m =>
    if m.ctx = c ∧ m.step = step ∧ m.chunk = chunk then { m with released := true } else m

theorem mirrorsReleased_marks {c step chunk : Nat} {l : List Mirror} {m : Mirror} (hm : m ∈ mirrorsReleased c step chunk l)
    (hc : m.ctx = c) (hs : m.step = step) (hk : m.chunk = chunk) : m.released = true := by
  obtain ⟨x, -, hx⟩ := List.mem_map.mp hm
  split at hx
  · rw [← hx]
  · next hne => exact absurd ⟨by rw [hx, hc], by rw [hx, hs], by rw [hx, hk]⟩ hne

theorem mirrorsReleased_keeps {c step chunk : Nat} {l : List Mirror} {m : Mirror} (hm : m ∈ l)
    (hne : m.ctx ≠ c ∨ m.step ≠ step ∨ m.chunk ≠ chunk) : m ∈ mirrorsReleased c step chunk l := by
  refine List.mem_map.mpr ⟨m, List.mem_filter.mpr ⟨hm, ?_⟩, if_neg (by tauto)⟩
  rcases hne with h | h | h <;> simp [h]

theorem releasedRx_twin : (s.releasedRx p).twin = { s.twin with relSteps := aput s.twin.relSteps (byteAt p 0, fld p 4 4) (fld p 2 2) } := rfl

theorem releasedRx_mirrors :
    (s.releasedRx p).col.mirrors = mirrorsReleased (byteAt p 0) (fld p 2 2) (fld p 4 4) s.col.mirrors := rfl

theorem released_marks (h : s.twinHears twReleased frame p) :
    ∃ t, exec (.twinReleasedRx frame) s = .next t ∧ t.twin = { s.twin with relSteps := aput s.twin.relSteps (byteAt p 0, fld p 4 4) (fld p 2 2) }
      ∧ (∀ m ∈ t.col.mirrors, m.ctx = byteAt p 0 → m.step = fld p 2 2 → m.chunk = fld p 4 4 → m.released = true)
      ∧ (∀ m ∈ s.col.mirrors, m.ctx ≠ byteAt p 0 ∨ m.step ≠ fld p 2 2 ∨ m.chunk ≠ fld p 4 4 → m ∈ t.col.mirrors)
      ∧ OnlyTouches [.regs, .col, .twin] s t := by
  obtain ⟨t, ht, hend, honly⟩ := exec_ends (s := s) (c := .twinReleasedRx frame) (heard_exec h rfl)
  have hmirrors : t.col.mirrors = mirrorsReleased (byteAt p 0) (fld p 2 2) (fld p 4 4) s.col.mirrors := by
    rw [hend.col, releasedRx_mirrors, counted_col]
  refine ⟨t, ht, by rw [hend.twin, releasedRx_twin, counted_twin], fun m hm => ?_, fun m hm hne => ?_, honly⟩
  · rw [hmirrors] at hm
    exact mirrorsReleased_marks hm
  · rw [hmirrors]
    exact mirrorsReleased_keeps hm hne

end

end Sys2Proof.Machine
end

/-! PROOFS. How the twin mirror acts: digests, copies and handovers (R271, R340, R341, R345). -/

section
namespace Sys2Proof.Machine

section
variable {s : State} {frame p : Bytes}

/-! Step digests -/

theorem counted_ctxReg (frame : Bytes) {c o : Nat} (hc : c < 256) (ho : o < 4096) :
    (s.twinCounted frame).rget (ctxReg c o) = s.rget (ctxReg c o) :=
  counted_reg _ _ _ (by unfold ctxReg twinReg; omega)

/-- The state once a step digest of its own has come back as equal. -/
def State.digestMatched (s : State) (c : Nat) (e : Nat × BitVec 64) : State :=
  (s.ctxCtr .digestMatch c).setCtx c fun x =>
    { x with sentDigests := x.sentDigests.filter (· != e), digests := x.digests.filter fun d => d.1 != e.1 }

theorem digestMatched_count {c : Nat} {e : Nat × BitVec 64} :
    (s.digestMatched c e).rget (CtxCtr.digestMatch.reg c) = satAdd 32 (s.rget (CtxCtr.digestMatch.reg c)) 1 := State.rget_bump32 s _ 1

theorem digestMatched_sent {c : Nat} {e : Nat × BitVec 64} :
    ((s.digestMatched c e).ctx c).sentDigests = (s.ctx c).sentDigests.filter (· != e) :=
  congrArg CtxSt.sentDigests (State.ctx_setCtx_same (s.ctxCtr .digestMatch c) c _)

theorem digestMatched_only {c : Nat} {e : Nat × BitVec 64} : OnlyTouches [.regs, .col] s (s.digestMatched c e) :=
  onlyTouches_of_blank ((setCtx_blank _ _ _ _ rfl).trans (ctxCtr_blank _ rfl _ _ _ _))

theorem stepDigest_matches (h : s.twinHears twStepDigest frame p) (hlen : p.length = 12)
    (hsent : (s.ctx (byteAt p 0)).sentDigests.contains (fld p 2 2, BitVec.ofNat 64 (fld p 4 8)) = true) :
    ∃ t, exec (.twinStepDigestRx frame) s = .next t
      ∧ t.rget (CtxCtr.digestMatch.reg (byteAt p 0)) = satAdd 32 (s.rget (CtxCtr.digestMatch.reg (byteAt p 0))) 1
      ∧ (t.ctx (byteAt p 0)).sentDigests = (s.ctx (byteAt p 0)).sentDigests.filter (· != (fld p 2 2, BitVec.ofNat 64 (fld p 4 8)))
      ∧ OnlyTouches [.regs, .col] s t := by
  have hmatched : (s.twinCounted frame).stepDigestRx p
      = (s.twinCounted frame).digestMatched (byteAt p 0) (fld p 2 2, BitVec.ofNat 64 (fld p 4 8)) := by
    unfold State.stepDigestRx
    dsimp only
    rw [if_neg (by omega), counted_ctx, hsent, if_pos rfl]
    rfl
  obtain ⟨t, ht, hend, honly⟩ := exec_ends_only
    ((heard_exec (c := .twinStepDigestRx frame) h rfl).trans (congrArg (done s) hmatched)) (counted_then (by decide) digestMatched_only)
  refine ⟨t, ht, ?_, ?_, honly⟩
  · rw [hend.rget, digestMatched_count]
    exact congrArg (satAdd 32 · 1) (counted_ctxReg frame (byteAt_lt p 0) (by decide))
  · rw [ctx_of_col hend.col, digestMatched_sent, counted_ctx]

/-- A step digest waits until every mirror chunk of its step has been applied. -/
theorem compareStep_waits {c step : Nat} (h : (digestsOf (s.ctx c).mirrorDigests step).length < (s.ctx c).mirrorChunks) :
    s.compareStep c step = s := by
  unfold State.compareStep
  dsimp only
  split
  · rfl
  · exact if_pos (Or.inr h)

/-- The state once a step digest of the partner has been noted. -/
def State.digestHeard (s : State) (c : Nat) (e : Nat × BitVec 64) : State :=
  s.setCtx c fun x => { x with heardDigests := x.heardDigests ++ [e] }

theorem digestHeard_ctx {c : Nat} {e : Nat × BitVec 64} :
    (s.digestHeard c e).ctx c = { s.ctx c with heardDigests := (s.ctx c).heardDigests ++ [e] } := State.ctx_setCtx_same s c _

theorem digestHeard_only {c : Nat} {e : Nat × BitVec 64} : OnlyTouches [.regs, .col] s (s.digestHeard c e) :=
  onlyTouches_of_blank (setCtx_blank _ _ _ _ rfl)

theorem stepDigest_waits (h : s.twinHears twStepDigest frame p) (hlen : p.length = 12)
    (hsent : (s.ctx (byteAt p 0)).sentDigests.contains (fld p 2 2, BitVec.ofNat 64 (fld p 4 8)) = false)
    (hfew : (digestsOf (s.ctx (byteAt p 0)).mirrorDigests (fld p 2 2)).length < (s.ctx (byteAt p 0)).mirrorChunks) :
    ∃ t, exec (.twinStepDigestRx frame) s = .next t
      ∧ (t.ctx (byteAt p 0)).heardDigests = (s.ctx (byteAt p 0)).heardDigests ++ [(fld p 2 2, BitVec.ofNat 64 (fld p 4 8))]
      ∧ OnlyTouches [.regs, .col] s t := by
  have hheard : (s.twinCounted frame).stepDigestRx p
      = (s.twinCounted frame).digestHeard (byteAt p 0) (fld p 2 2, BitVec.ofNat 64 (fld p 4 8)) := by
    unfold State.stepDigestRx
    dsimp only
    rw [if_neg (by omega), counted_ctx, hsent, if_neg Bool.false_ne_true]
    exact compareStep_waits (s := (s.twinCounted frame).digestHeard _ _) (by rw [digestHeard_ctx, counted_ctx]; exact hfew)
  obtain ⟨t, ht, hend, honly⟩ := exec_ends_only
    ((heard_exec (c := .twinStepDigestRx frame) h rfl).trans (congrArg (done s) hheard)) (counted_then (by decide) digestHeard_only)
  refine ⟨t, ht, ?_, honly⟩
  rw [ctx_of_col hend.col, digestHeard_ctx, counted_ctx]

/-! Chunk digests -/

/-- The state once the chunk digests of a frame have been noted. -/
def State.chunksHeard (s : State) (p : Bytes) : State := s.setTwin fun t => { t with heardChunks := s.digestsHeard p }

/-- The chunk digests heard of a step of a context. -/
def State.heardOf (s : State) (p : Bytes) : List (Nat × BitVec 64) :=
  ((s.digestsHeard p).filter fun h => h.1 == byteAt p 0 && h.2.1 == fld p 2 2).map fun h => h.2.2

/-- The state once the mirror's chunk digests of a step and those heard are dropped. -/
def State.digestsDropped (s : State) (p : Bytes) : State :=
  ((s.chunksHeard p).setTwin fun t => { t with
    heardChunks := t.heardChunks.filter fun h => !(h.1 == byteAt p 0 && h.2.1 == fld p 2 2) }).setCtx (byteAt p 0) fun y =>
      { y with mirrorDigests := y.mirrorDigests.filter fun d => d.1 != fld p 2 2 }

theorem chunksHeard_only : OnlyTouches [.twin] s (s.chunksHeard p) := onlyTouches_of_blank (setTwin_blank _ _ _ rfl)

theorem chunksHeard_twin : (s.chunksHeard p).twin = { s.twin with heardChunks := s.digestsHeard p } := rfl

theorem digestsDropped_only : OnlyTouches [.col, .twin] s (s.digestsDropped p) :=
  onlyTouches_of_blank ((setCtx_blank _ _ _ _ rfl).trans ((setTwin_blank _ _ _ rfl).trans (setTwin_blank _ _ _ rfl)))

theorem digestsDropped_ctx : (s.digestsDropped p).ctx (byteAt p 0)
    = { s.ctx (byteAt p 0) with mirrorDigests := (s.ctx (byteAt p 0)).mirrorDigests.filter fun d => d.1 != fld p 2 2 } :=
  State.ctx_setCtx_same _ _ _

section
variable (hlen : p.length = 12 + 8 * fld p 8 4) (hprim : ((s.ctx (byteAt p 0)).sentDigests.any fun d => d.1 == fld p 2 2) = false)
include hlen hprim

theorem chunkDigestsRx_waits (hown : digestsOf (s.ctx (byteAt p 0)).mirrorDigests (fld p 2 2) = []) :
    s.chunkDigestsRx p = s.chunksHeard p := by
  unfold State.chunkDigestsRx
  extract_lets c step first n got S x heard primary own U V W
  rw [if_neg (not_not.mpr hlen)]
  have hprimary : primary = false := hprim
  have hempty : own = [] := by
    show (if primary = true then _ else _) = _
    rw [hprimary, if_neg Bool.false_ne_true]
    exact hown
  exact if_pos (by rw [hempty]; rfl)

theorem chunkDigestsRx_diverges {low : Nat} (hown : digestsOf (s.ctx (byteAt p 0)).mirrorDigests (fld p 2 2) ≠ [])
    (hall : (digestsOf (s.ctx (byteAt p 0)).mirrorDigests (fld p 2 2)).length ≤ (s.heardOf p).length)
    (hlow : lowestDiffering (digestsOf (s.ctx (byteAt p 0)).mirrorDigests (fld p 2 2)) (s.heardOf p) = some low) :
    s.chunkDigestsRx p = (s.digestsDropped p).diverge (byteAt p 0) (fld p 2 2) low := by
  unfold State.chunkDigestsRx
  extract_lets c step first n got S x heard primary own U V W
  rw [if_neg (not_not.mpr hlen)]
  have hprimary : primary = false := hprim
  have howned : own = digestsOf (s.ctx (byteAt p 0)).mirrorDigests (fld p 2 2) := by
    show (if primary = true then _ else _) = _
    rw [hprimary, if_neg Bool.false_ne_true]
    rfl
  have hheard : heard = s.heardOf p := rfl
  have hcompare : ¬ (own.isEmpty || decide (heard.length < own.length)) = true := by
    rw [hheard, howned, decide_eq_false (by omega), Bool.or_false, List.isEmpty_iff]
    exact hown
  rw [if_neg hcompare]
  have hdropped : W = s.digestsDropped p := by
    show State.setCtx _ _ _ = _
    unfold V
    rw [hprimary]
    rfl
  rw [hheard, howned, hlow, hdropped]

end

theorem counted_digestsHeard : (s.twinCounted frame).digestsHeard p = s.digestsHeard p := by
  unfold State.digestsHeard
  rw [counted_twin]

theorem counted_heardOf : (s.twinCounted frame).heardOf p = s.heardOf p := by
  unfold State.heardOf
  rw [counted_digestsHeard]

theorem chunkDigests_wait (h : s.twinHears twChunkDigests frame p) (hlen : p.length = 12 + 8 * fld p 8 4)
    (hprim : ((s.ctx (byteAt p 0)).sentDigests.any fun d => d.1 == fld p 2 2) = false)
    (hown : digestsOf (s.ctx (byteAt p 0)).mirrorDigests (fld p 2 2) = []) :
    ∃ t, exec (.twinChunkDigestsRx frame) s = .next t ∧ t.twin = { s.twin with heardChunks := s.digestsHeard p }
      ∧ OnlyTouches [.regs, .twin] s t := by
  have hwait := chunkDigestsRx_waits (s := s.twinCounted frame) hlen (by rw [counted_ctx]; exact hprim) (by rw [counted_ctx]; exact hown)
  obtain ⟨t, ht, hend, honly⟩ := exec_ends_only ((chunks_eq s frame p h).trans (congrArg (done s) hwait))
    (counted_then (l := [.regs, .twin]) (by decide) (only_mono chunksHeard_only (by decide)))
  exact ⟨t, ht, by rw [hend.twin, chunksHeard_twin, counted_twin, counted_digestsHeard], honly⟩

theorem chunkDigests_diverge {low : Nat} (h : s.twinHears twChunkDigests frame p) (hlen : p.length = 12 + 8 * fld p 8 4)
    (hprim : ((s.ctx (byteAt p 0)).sentDigests.any fun d => d.1 == fld p 2 2) = false)
    (hown : digestsOf (s.ctx (byteAt p 0)).mirrorDigests (fld p 2 2) ≠ [])
    (hall : (digestsOf (s.ctx (byteAt p 0)).mirrorDigests (fld p 2 2)).length
      ≤ ((s.digestsHeard p).filter fun h => h.1 == byteAt p 0 && h.2.1 == fld p 2 2).length)
    (hlow : lowestDiffering (digestsOf (s.ctx (byteAt p 0)).mirrorDigests (fld p 2 2)) (s.heardOf p) = some low) :
    ∃ t, exec (.twinChunkDigestsRx frame) s = .next t ∧ t.bget (twinReg 0x010) 12 = true ∧ t.bget (ctxReg (byteAt p 0) 0x140) 2 = true
      ∧ (t.ctx (byteAt p 0)).mirrorDigests = (s.ctx (byteAt p 0)).mirrorDigests.filter (fun d => d.1 != fld p 2 2)
      ∧ OnlyTouches [.regs, .mgmt, .col, .twin, .aer] s t := by
  have hdiverge := chunkDigestsRx_diverges (s := s.twinCounted frame) (low := low) hlen (by rw [counted_ctx]; exact hprim)
    (by rw [counted_ctx]; exact hown) (by rw [counted_ctx, counted_heardOf]; unfold State.heardOf; rw [List.length_map]; exact hall)
    (by rw [counted_ctx, counted_heardOf]; exact hlow)
  obtain ⟨halarm, hbad, hcol⟩ := diverge_marks ((s.twinCounted frame).digestsDropped p) (byteAt p 0) (fld p 2 2) low (byteAt_lt p 0)
  have hdropped : OnlyTouches [.regs, .mgmt, .col, .twin, .aer] s ((s.twinCounted frame).digestsDropped p) :=
    counted_then (by decide) (only_mono digestsDropped_only (by decide))
  obtain ⟨t, ht, hend, honly⟩ := exec_ends_only ((chunks_eq s frame p h).trans (congrArg (done s) hdiverge))
    (only_trans hdropped (onlyTouches_of_blank (diverge_blank _ rfl rfl rfl _ _ _ _)))
  refine ⟨t, ht, (hend.bget _ _).trans halarm, (hend.bget _ _).trans hbad, ?_, honly⟩
  rw [ctx_of_col (hend.col.trans hcol), digestsDropped_ctx, counted_ctx]

/-! Copies -/

/-- The state once a COPY has been acknowledged and its credits freed. -/
def State.copyAcked (s : State) (p : Bytes) : State :=
  (s.sendAck 1 (byteAt p 0) 0 (fld p 4 4)).twinFreed (ceilDiv (p.length + 20) 4096)

/-- The copy that a context receives for the mirror, as it stands or as it begins. -/
def State.mirrorCopy (s : State) (c : Nat) : CopyIn := (s.twin.copyIn.find? fun x => x.ctx == c && x.range == 0).getD { ctx := c, range := 0 }

/-- The state once the data of a COPY for the mirror have been noted. -/
def State.copyNoted (s : State) (p : Bytes) : State :=
  s.setTwin fun t => { t with
    copyIn := { s.mirrorCopy (byteAt p 0) with parts := mput (s.mirrorCopy (byteAt p 0)).parts (fld p 4 4) (p.drop 16) } ::
      t.copyIn.filter fun x => !(x.ctx == byteAt p 0 && x.range == 0) }

theorem copyAcked_only : OnlyTouches [.regs, .twin, .out] s (s.copyAcked p) :=
  only_trans (only_mono (twinSend_touches _ _ _) (by decide)) (only_mono (twinFreed_touches _ _) (by decide))

theorem copyAcked_twin : (s.copyAcked p).twin = { s.twin with freed := (s.twin.freed + ceilDiv (p.length + 20) 4096) % 2 ^ 32 } := by
  have hsent : (s.sendAck 1 (byteAt p 0) 0 (fld p 4 4)).twin = s.twin := (twinSend_touches _ _ _).2 .twin (by decide)
  unfold State.copyAcked
  rw [twinFreed_twin, hsent]

theorem copyAcked_col : (s.copyAcked p).col = s.col := copyAcked_only.2 .col (by decide)

theorem copyAcked_hbm : (s.copyAcked p).hbm = s.hbm := copyAcked_only.2 .hbm (by decide)

theorem copyAcked_out (h : s.twinHears twCopy frame p) : ((s.twinCounted frame).copyAcked p).out =
    .twin (twinFrame twAck s.tick (beBytes 1 1 ++ beBytes 1 (byteAt p 0) ++ beBytes 2 0 ++ beBytes 4 (fld p 4 4))) :: s.out := by
  unfold State.copyAcked State.sendAck
  rw [twinFreed_out]
  exact answer_out h only_refl

theorem copyNoted_only : OnlyTouches [.twin] s (s.copyNoted p) := onlyTouches_of_blank (setTwin_blank _ _ _ rfl)

theorem copyNoted_freed : (s.copyNoted p).twin.freed = s.twin.freed := rfl

/-- A sequence number that a copy in progress does not hold is new to the copy. -/
theorem mirrorCopy_new {c n : Nat} (h : ((s.twin.copyIn.find? fun x => x.ctx == c && x.range == 0).all fun x => !(mget x.parts n).isSome) = true) :
    (mget (s.mirrorCopy c).parts n).isSome = false := by
  unfold State.mirrorCopy
  cases hfind : s.twin.copyIn.find? fun x => x.ctx == c && x.range == 0 with
  | none => rfl
  | some x =>
    rw [hfind] at h
    simpa using h

/-- A COPY for the mirror that has not come before is acknowledged, noted and written where its chunk stands. -/
theorem copyRx_writes {a : Nat} (hmin : 16 ≤ p.length) (hmax : p.length ≤ 16400) (hst : s.twin.state = .attach ∨ s.twin.state = .verify)
    (hrange : byteAt p 1 = 0)
    (hnew : ((s.twin.copyIn.find? fun x => x.ctx == byteAt p 0 && x.range == 0).all fun x => !(mget x.parts (fld p 4 4)).isSome) = true)
    (hblock : mget (s.ctx (byteAt p 0)).mirrorBlocks (fld p 8 4) = some a) :
    s.copyRx p = ((s.copyAcked p).copyNoted p).hwrite (a + fld p 12 4) (p.drop 16) := by
  have hcopy : (s.copyAcked p).mirrorCopy (byteAt p 0) = s.mirrorCopy (byteAt p 0) := by
    unfold State.mirrorCopy
    rw [copyAcked_twin]
  unfold State.copyRx
  extract_lets c range seq chunk data S have_ T old U block
  have hT : T = s.copyAcked p := if_neg fun hc => absurd (hrange.symm.trans hc.1) (by decide)
  have hold : old = (s.copyAcked p).mirrorCopy (byteAt p 0) := by
    show ((s.copyAcked p).twin.copyIn.find? fun x => x.ctx == byteAt p 0 && x.range == byteAt p 1).getD
      { ctx := byteAt p 0, range := byteAt p 1 } = _
    rw [hrange]
    rfl
  have hfresh : ¬ (mget old.parts seq).isSome = true := by
    rw [hold, hcopy, mirrorCopy_new hnew]
    exact Bool.false_ne_true
  have hU : U = (s.copyAcked p).copyNoted p := by
    show T.setTwin (fun t => { t with copyIn := { old with parts := mput old.parts seq data } :: t.copyIn.filter fun x => !(x.ctx == byteAt p 0 && x.range == byteAt p 1) }) = _
    rw [hT, hold, hrange]
    rfl
  have hfound : block = some a := by
    show (if byteAt p 1 = 1 then _ else mget (U.ctx (byteAt p 0)).mirrorBlocks (fld p 8 4)) = _
    rw [hrange, if_neg (by decide), hU, ← hblock]
    exact congrArg (fun x : CtxSt => mget x.mirrorBlocks (fld p 8 4)) (ctx_of_col ((copyNoted_only.2 .col (by decide)).trans copyAcked_col) _)
  rw [if_neg (by rw [copy_taken s _ hmin hmax hst]; exact Bool.false_ne_true), if_neg hfresh, hfound, hU]

theorem copy_writes {a : Nat} (h : s.twinHears twCopy frame p) (hmin : 16 ≤ p.length) (hmax : p.length ≤ 16400)
    (hst : s.twin.state = .attach ∨ s.twin.state = .verify) (hrange : byteAt p 1 = 0)
    (hnew : ((s.twin.copyIn.find? fun x => x.ctx == byteAt p 0 && x.range == 0).all fun x => !(mget x.parts (fld p 4 4)).isSome) = true)
    (hblock : mget (s.ctx (byteAt p 0)).mirrorBlocks (fld p 8 4) = some a) :
    ∃ t, exec (.twinCopyRx frame) s = .next t ∧ t.hbm = (s.hwrite (a + fld p 12 4) (p.drop 16)).hbm
      ∧ t.twin.freed = (s.twin.freed + ceilDiv (p.length + 20) 4096) % 2 ^ 32
      ∧ t.out = .twin (twinFrame twAck s.tick (beBytes 1 1 ++ beBytes 1 (byteAt p 0) ++ beBytes 2 0 ++ beBytes 4 (fld p 4 4))) :: s.out
      ∧ OnlyTouches [.regs, .hbm, .twin, .out] s t := by
  have hwrite := copyRx_writes (s := s.twinCounted frame) (a := a) hmin hmax (by rw [counted_twin]; exact hst) hrange
    (by rw [counted_twin]; exact hnew) (by rw [counted_ctx]; exact hblock)
  have hnoted : OnlyTouches [.regs, .hbm, .twin, .out] s (((s.twinCounted frame).copyAcked p).copyNoted p) :=
    only_trans (counted_then (by decide) (only_mono copyAcked_only (by decide))) (only_mono copyNoted_only (by decide))
  have hwritten : OnlyTouches [.hbm] (((s.twinCounted frame).copyAcked p).copyNoted p)
      ((((s.twinCounted frame).copyAcked p).copyNoted p).hwrite (a + fld p 12 4) (p.drop 16)) := onlyTouches_of_blank (hwrite_blank _ _ _ _ rfl)
  obtain ⟨t, ht, hend, honly⟩ := exec_ends_only ((heard_exec (c := .twinCopyRx frame) h rfl).trans (congrArg (done s) hwrite))
    (only_trans hnoted (only_mono hwritten (by decide)))
  refine ⟨t, ht, ?_, ?_, ?_, honly⟩
  · rw [hend.hbm]
    exact hwrite_of ((copyNoted_only.2 .hbm (by decide)).trans (copyAcked_hbm.trans ((counted_touches s frame).2 .hbm (by decide)))) _ _
  · rw [hend.twin, hwritten.2 .twin (by decide), copyNoted_freed, copyAcked_twin, counted_twin]
  · rw [hend.out, hwritten.2 .out (by decide), copyNoted_only.2 .out (by decide), copyAcked_out h]

theorem copyEnd_exec (h : s.twinHears twCopyEnd frame p) (hlen : p.length = 16) (hst : s.twin.state = .attach) :
    exec (.twinCopyEndRx frame) s = done s ((s.twinCounted frame).copyEnded p).tryVerify
      ∧ ((s.twinCounted frame).copyEnded p).twin = (s.copyEnded p).twin
      ∧ ((s.twinCounted frame).copyEnded p).copyComplete = (s.copyEnded p).copyComplete
      ∧ OnlyTouches [.regs, .twin] s ((s.twinCounted frame).copyEnded p) := by
  obtain ⟨htwin, hcomplete⟩ := ended_same s (s.twinCounted frame) p (counted_twin s frame) (counted_clk s frame)
  exact ⟨ended_eq s frame p h hlen hst, htwin, hcomplete, counted_then (by decide) (onlyTouches_of_blank (setTwin_blank _ _ _ rfl))⟩

theorem tryVerify_waits (hc : s.copyComplete = false) : s.tryVerify = s := by
  unfold State.tryVerify
  rw [hc]
  exact if_pos rfl

theorem copyEnd_waits (h : s.twinHears twCopyEnd frame p) (hlen : p.length = 16) (hst : s.twin.state = .attach)
    (hc : (s.copyEnded p).copyComplete = false) :
    ∃ t, exec (.twinCopyEndRx frame) s = .next t ∧ t.twin = (s.copyEnded p).twin ∧ OnlyTouches [.regs, .twin] s t := by
  obtain ⟨hexec, htwin, hcomplete, honly⟩ := copyEnd_exec h hlen hst
  have hwait := tryVerify_waits (hcomplete.trans hc)
  obtain ⟨t, ht, hend, honly⟩ := exec_ends_only (hexec.trans (congrArg (done s) hwait)) honly
  exact ⟨t, ht, hend.twin.trans htwin, honly⟩

/-- The state of a chip that has just become PAIRED, before its alarm. -/
def State.nowPaired (s : State) : State :=
  ((s.setTwin fun t => { t with state := .verify }).setTwin fun t => { t with state := .paired, misses := 0, hbUp := s.clk.up, copyIn := [] }).each
    (mkeys s.col.ctxs) fun s c => s.bset (ctxReg c 0x140) 2 false

theorem tryVerify_pairs (hc : s.copyComplete = true) (hgood : (s.twin.copyIn.all fun x => x.ended.any fun e => e.2 == x.fold) = true) :
    s.tryVerify = s.nowPaired.alarmPlain (twinReg 0) 10 := by
  unfold State.tryVerify
  rw [hc, if_neg (by decide)]
  exact if_pos hgood

theorem tryVerify_fails (hc : s.copyComplete = true) (hbad : (s.twin.copyIn.all fun x => x.ended.any fun e => e.2 == x.fold) = false) :
    s.tryVerify = (s.setTwin fun t => { t with state := .verify }).attachFails 5 := by
  unfold State.tryVerify
  rw [hc, if_neg (by decide)]
  exact if_neg fun h => absurd (hbad.symm.trans h) Bool.false_ne_true

theorem nowPaired_twin : s.nowPaired.twin = { s.twin with state := .paired, misses := 0, hbUp := s.clk.up, copyIn := [] } :=
  (paired_role _ _).1

theorem nowPaired_only : OnlyTouches [.regs, .twin] s s.nowPaired :=
  only_trans (onlyTouches_of_blank ((setTwin_blank _ _ _ rfl).trans (setTwin_blank _ _ _ rfl))) (only_mono (paired_role _ _).2 (by decide))

theorem copyEnd_pairs (h : s.twinHears twCopyEnd frame p) (hlen : p.length = 16) (hst : s.twin.state = .attach)
    (hc : (s.copyEnded p).copyComplete = true)
    (hgood : ((s.copyEnded p).twin.copyIn.all fun x => x.ended.any fun e => e.2 == x.fold) = true) :
    ∃ t, exec (.twinCopyEndRx frame) s = .next t ∧ t.twin.state = .paired ∧ t.twin.misses = 0 ∧ t.bget (twinReg 0x010) 10 = true
      ∧ OnlyTouches [.regs, .mgmt, .twin, .aer] s t := by
  obtain ⟨hexec, htwin, hcomplete, hended⟩ := copyEnd_exec h hlen hst
  have hpairs := tryVerify_pairs (hcomplete.trans hc) (by rw [htwin]; exact hgood)
  have hpaired : OnlyTouches [.regs, .mgmt, .twin, .aer] s ((s.twinCounted frame).copyEnded p).nowPaired :=
    only_mono (only_trans hended nowPaired_only) (by decide)
  obtain ⟨t, ht, hend, honly⟩ := exec_ends_only (hexec.trans (congrArg (done s) hpairs))
    (only_trans hpaired (onlyTouches_of_blank (alarmPlain_blank _ rfl rfl rfl _ _ _ _)))
  exact ⟨t, ht, by rw [hend.twin, State.alarmPlain_twin, nowPaired_twin], by rw [hend.twin, State.alarmPlain_twin, nowPaired_twin],
    (hend.bget _ _).trans (alarm_bit _ (twinReg 0) 10 _ _ _ (by decide) (by decide)), honly⟩

theorem copyEnded_former : (s.copyEnded p).twin.former = s.twin.former := rfl

theorem copyEnd_fails (h : s.twinHears twCopyEnd frame p) (hlen : p.length = 16) (hst : s.twin.state = .attach)
    (hc : (s.copyEnded p).copyComplete = true)
    (hbad : ((s.copyEnded p).twin.copyIn.all fun x => x.ended.any fun e => e.2 == x.fold) = false) :
    ∃ t, exec (.twinCopyEndRx frame) s = .next t ∧ t.twin.state = s.twin.former ∧ t.bget (twinReg 0x010) 11 = true
      ∧ OnlyTouches [.regs, .mgmt, .col, .twin, .aer] s t := by
  obtain ⟨hexec, htwin, hcomplete, -⟩ := copyEnd_exec h hlen hst
  have hfails := tryVerify_fails (hcomplete.trans hc) (by rw [htwin]; exact hbad)
  obtain ⟨hformer, hbit⟩ := failed_sets (((s.twinCounted frame).copyEnded p).setTwin fun t => { t with state := .verify }) 5
  obtain ⟨t, ht, hend, honly⟩ := exec_ends (hexec.trans (congrArg (done s) hfails))
  refine ⟨t, ht, ?_, (hend.bget _ _).trans hbit, honly⟩
  rw [hend.twin, hformer, State.setTwin_twin, htwin, copyEnded_former]

/-! Handovers -/

theorem handoverRx_solo (hlen : p.length = 12 + 2 * fld p 8 4)
    (hst : s.twin.state = .solo ∨ (s.twin.state = .paired ∧ s.twin.partnerHeld = false)) :
    (s.handoverRx p).twin.state = .solo ∧ (s.handoverRx p).twin.takeoverUp = some s.clk.up
      ∧ ((s.ctx (byteAt p 0)).serving = false → (s.handoverRx p).twin.rangeHeld = true) := by
  unfold State.handoverRx
  extract_lets c first n next S T U
  have hS : S.twin.state = .solo ∧ S.clk = s.clk ∧ S.col.ctxs = s.col.ctxs := by
    unfold S
    rcases hst with hsolo | ⟨hpaired, -⟩
    · rw [hsolo, if_neg (by decide)]
      exact ⟨hsolo, rfl, rfl⟩
    · rw [hpaired, if_pos (by decide)]
      exact solo_twin s
  have hT : (T.twin.state, T.clk, T.col) = (S.twin.state, S.clk, S.col) :=
    each_keeps (fun u : State => (u.twin.state, u.clk, u.col)) (fun u k => u.noteNext c k (next k)) (fun u k => by
      obtain ⟨hstate, hclk, hcol⟩ := noteNext_keeps u c k (next k)
      rw [hstate, hclk, hcol]) _ S
  have hTstate : T.twin.state = .solo := (congrArg Prod.fst hT).trans hS.1
  have hTup : T.clk = s.clk := (congrArg (fun x => x.2.1) hT).trans hS.2.1
  have hTctxs : T.col.ctxs = s.col.ctxs := (congrArg (fun x => x.2.2.ctxs) hT).trans hS.2.2
  have hTctx : U.ctx c = s.ctx (byteAt p 0) := congrArg (fun m : Map CtxSt => mgetD m (byteAt p 0) {}) hTctxs
  have hUup : U.twin.takeoverUp = some s.clk.up := by
    show some T.clk.up = _
    rw [hTup]
  rw [if_neg (not_not.mpr hlen), if_neg (by rcases hst with h | ⟨h, hheld⟩ <;> simp [*]), if_neg (by rcases hst with h | ⟨h, -⟩ <;> rw [h] <;> decide),
    hTctx]
  split
  · next hserve => exact ⟨hTstate, hUup, fun hno => absurd (hno.symm.trans hserve) Bool.false_ne_true⟩
  · obtain ⟨hstate, hup, hheld⟩ := serves_role U c
    exact ⟨hstate.trans hTstate, hup.trans hUup, fun _ => hheld⟩

theorem takeBack_steps {c first n : Nat} {next : Nat → Nat} : ((s.takeBack c first n next).ctx c).globalStep = ((s.takeBack c first n next).ctx c).step := by
  unfold State.takeBack
  extract_lets chunks low step ahead S
  have hcol : (S.each (stepRuns (chunks.map fun k => (k, next k))) fun s r => s.sendAbort c r.2.2 r.1 r.2.1 rsTakeover).col = S.col :=
    each_keeps State.col _ (fun _ _ => sendAbort_col _ _ _ _ _ _) _ S
  rw [ctx_of_col hcol, State.ctx_setCtx_same]

theorem handover_solo (h : s.twinHears twHandover frame p) (hlen : p.length = 12 + 2 * fld p 8 4)
    (hst : s.twin.state = .solo ∨ (s.twin.state = .paired ∧ s.twin.partnerHeld = false)) :
    ∃ t, exec (.twinHandoverRx frame) s = .next t ∧ t.twin.state = .solo ∧ t.twin.takeoverUp = some s.clk.up
      ∧ ((s.ctx (byteAt p 0)).serving = false → t.twin.rangeHeld = true)
      ∧ OnlyTouches [.regs, .sw, .tbl, .mgmt, .col, .twin, .aer] s t := by
  obtain ⟨hstate, hup, hheld⟩ := handoverRx_solo (s := s.twinCounted frame) hlen (by rw [counted_twin]; exact hst)
  rw [counted_clk] at hup
  rw [counted_ctx] at hheld
  obtain ⟨t, ht, hend, honly⟩ := exec_ends (handed_eq s frame p h)
  rw [← hend.twin] at hstate hup hheld
  exact ⟨t, ht, hstate, hup, hheld, honly⟩

theorem handover_back (h : s.twinHears twHandover frame p) (hlen : p.length = 12 + 2 * fld p 8 4)
    (hst : s.twin.state = .paired) (hheld : s.twin.partnerHeld = true) :
    ∃ t, exec (.twinHandoverRx frame) s = .next t ∧ (t.ctx (byteAt p 0)).globalStep = (t.ctx (byteAt p 0)).step
      ∧ OnlyTouches [.regs, .sw, .tbl, .mgmt, .col, .aer] s t := by
  have hback : (s.twinCounted frame).handoverRx p = (s.twinCounted frame).takeBack (byteAt p 0) (fld p 4 4) (fld p 8 4)
      fun k => fld p (12 + 2 * (k - fld p 4 4)) 2 := by
    unfold State.handoverRx
    dsimp only
    rw [if_neg (not_not.mpr hlen), counted_twin, hst, hheld]
    exact if_pos rfl
  obtain ⟨t, ht, hend, honly⟩ := exec_ends_only ((handed_eq s frame p h).trans (congrArg (done s) hback))
    (counted_then (l := [.regs, .sw, .tbl, .mgmt, .col, .aer]) (by decide)
      (onlyTouches_of_blank (takeBack_blank _ rfl rfl rfl rfl rfl rfl _ _ _ _ _)))
  refine ⟨t, ht, ?_, honly⟩
  rw [ctx_of_col hend.col]
  exact takeBack_steps

end

/-- Settles O57, one lemma for each form. -/
theorem twinMirrorActs : Obligations.TwinMirrorActs := by
  unfold Obligations.TwinMirrorActs
  exact fun s frame p => ⟨
    fun h hst hlen hcount hserve => ⟨config_differs h hst hlen hcount hserve, config_full h hst hlen hcount hserve,
      fun _ => config_accepted h hst hlen hcount hserve⟩,
    fun _ _ _ h hask hplan => ⟨accept_enables h hask hplan, accept_refuses h hask hplan⟩,
    fun _ => record_acks, fun _ => ack_takes, released_marks,
    fun h hlen => ⟨stepDigest_matches h hlen, stepDigest_waits h hlen⟩,
    fun h hlen hprim => ⟨chunkDigests_wait h hlen hprim, fun _ => chunkDigests_diverge h hlen hprim⟩,
    fun _ => copy_writes,
    fun h hlen hst => ⟨copyEnd_waits h hlen hst, copyEnd_pairs h hlen hst, copyEnd_fails h hlen hst⟩,
    fun h hlen => ⟨handover_solo h hlen, handover_back h hlen⟩⟩

end Sys2Proof.Machine
end
